-- ==== Sys2Proof/Word.lean ====
section
/-!
DEFINITION. The word types and the numbering of the module's parts (spec 00 R1, R2; 01 R10, R11, R12).
-/

namespace Sys2Proof

/-- A byte. -/
abbrev Byte := BitVec 8
/-- A scalar register's contents, an address, a memory-resident 64-bit field. -/
abbrev Word := BitVec 64
/-- An instruction word, an f32, a 32-bit field. -/
abbrev Word32 := BitVec 32
/-- A vector register's 4,096 bytes, byte 0 in the low bits (R8 VRLEN, R13). -/
abbrev VecBits := BitVec 32768
/-- A mask register, one bit per element (R22, R180). -/
abbrev MaskBits := BitVec 4096

/-- Physical compute core index (R11). -/
abbrev CoreId := Fin 384
/-- Control thread of a core (R176). -/
abbrev Tid := Fin 2
/-- Physical cluster index 6·d + c (R11). -/
abbrev ClusterId := Fin 48
/-- Compute die (R10). -/
abbrev DieId := Fin 8
/-- Stream engine, beside working-memory channel of the same number (R121). -/
abbrev EngineId := Fin 384
/-- Query stack (R90). -/
abbrev StackId := Fin 48
/-- PCI Express function: 0 is the physical function, p = 1 to 64 serves partition p (R323, R330). -/
abbrev FuncId := Fin 65

/-- Scalar register number (R22). -/
abbrev SReg := Fin 32
/-- Vector register number (R22). -/
abbrev VReg := Fin 32
/-- Mask register number (R22). -/
abbrev MReg := Fin 16
/-- Accumulator tile number (R22). -/
abbrev Tile := Fin 4
/-- Operand slot number (R22). -/
abbrev Slot := Fin 16

/-- Privilege level (R3, R308). -/
inductive Priv where
  | user | kernel | hyper
deriving DecidableEq, Repr

/-- `a.le b`: level `b` includes what level `a` may do (R3). -/
def Priv.le : Priv → Priv → Bool
  | .user, _ => true
  | .kernel, .user => false
  | .kernel, _ => true
  | .hyper, .hyper => true
  | .hyper, _ => false

/-- The cluster of a core (R11). -/
def CoreId.cluster (k : CoreId) : ClusterId := ⟨k.val / 8, by omega⟩
/-- The die of a core (R11). -/
def CoreId.die (k : CoreId) : DieId := ⟨k.val / 48, by omega⟩
/-- The position of a core within its cluster (R11). -/
def CoreId.position (k : CoreId) : Fin 8 := ⟨k.val % 8, by omega⟩
/-- The core at a position of a cluster (R11). -/
def ClusterId.core (c : ClusterId) (j : Fin 8) : CoreId := ⟨8 * c.val + j.val, by omega⟩

/-- The low `n` bits of a natural number, as a number. -/
def lowBits (n x : Nat) : Nat := x % 2 ^ n
/-- Bits `[lo+n-1 : lo]` of a natural number. -/
def bitsOf (x lo n : Nat) : Nat := (x / 2 ^ lo) % 2 ^ n
/-- The `n`-bit value `x` read as two's complement (R232). -/
def signedOf (n x : Nat) : Int :=
  let y := x % 2 ^ n
  if 2 * y < 2 ^ n then (y : Int) else (y : Int) - (2 ^ n : Nat)
/-- The low `n` bits of an integer, as a natural number (R6). -/
def wrapInt (n : Nat) (x : Int) : Nat := (x % (2 ^ n : Nat)).toNat
/-- The n-bit value x sign-extended to 64 bits (R7). -/
def sext64 (n x : Nat) : Word := BitVec.ofInt 64 (signedOf n x)
/-- The n-bit value x zero-extended to 64 bits (R7). -/
def zext64 (n x : Nat) : Word := BitVec.ofNat 64 (x % 2 ^ n)

end Sys2Proof
end

