-- ==== Sys2Proof/Syntax.lean ====
section
/-!
DEFINITION. The instructions and events of the RLT-9200: one constructor per row of spec/opcode_table.json.
Operand subfields (spec 02 R26) are inductive types, so a reserved code cannot be written down.
-/

namespace Sys2Proof

/-- Memory access width 2^sz bytes (R20, R26). -/
inductive Width where
  | b1 | b2 | b4 | b8
deriving DecidableEq, Repr

/-- Scope codes 0 to 5 (R26, R146, R166). -/
inductive Scope where
  | core | cluster | die | package | gang | system
deriving DecidableEq, Repr

/-- Atomic ordering (R26). -/
inductive Order where
  | relaxed | acquire | release | acqrel
deriving DecidableEq, Repr

/-- Fence kind (R26, R160). -/
inductive FenceKind where
  | full | acquire | release | copy | query
deriving DecidableEq, Repr

/-- Load qualifier (R73). -/
inductive LoadQual where
  | plain | wait | take
deriving DecidableEq, Repr

/-- Store qualifier (R74). -/
inductive StoreQual where
  | plain | fill | drain
deriving DecidableEq, Repr

/-- Scalar floating type (R26). -/
inductive SfpType where
  | f32 | f64 | bf16 | f16
deriving DecidableEq, Repr

/-- Rounding mode (R240). -/
inductive Rounding where
  | rne | rtz | rup | rdn | rna
deriving DecidableEq, Repr

/-- A rounding field: a mode of its own, or the default of frm or VTYPE (R26). -/
inductive RmField where
  | mode (m : Rounding) | dflt
deriving DecidableEq, Repr

/-- Element type codes (R27). -/
inductive ElemType where
  | i8 | i16 | i32 | i64 | w8 | w16 | w32 | w64 | bf16 | f16 | f32 | f64 | e4m3 | e5m2 | e2m1 | ds8
deriving DecidableEq, Repr

/-- The replicate modifier of vb (R24). -/
inductive Rep where
  | none | rep1 | rep4 | rep16 | rep64
deriving DecidableEq, Repr

/-- The execution mask field: 0 is every element (R23). -/
abbrev MkField := Fin 16

/-- VTYPE bits [10:3] as vsetvl carries them: ew, h, flush, rm (R213). -/
structure VtypeField where
  ew : Width
  h : Bool
  flush : Fin 3
  rm : Rounding
deriving DecidableEq, Repr

/-- Query flags (R26, R93). -/
structure QueryFlags where
  acq : Bool
  rel : Bool
  scope : Scope
  bnd : Bool
deriving DecidableEq, Repr

/-- Flags of cpa and of the page operations: acquire, release, scope (R137, R117). -/
structure CmdFlags where
  acq : Bool
  rel : Bool
  scope : Scope
deriving DecidableEq, Repr

/-- mshape class (R258). -/
inductive MatClass where
  | e16 | e8 | e4
deriving DecidableEq, Repr

/-- mbread field (R258). -/
inductive BreadField where
  | bnd | max | sum | res
deriving DecidableEq, Repr

/-- Types of mfill (R258). -/
inductive FillType where
  | bf16 | f16 | e4m3 | e5m2 | i8 | w8 | e2m1 | ds8
deriving DecidableEq, Repr

/-- Types of drains (R258). -/
inductive DrainType where
  | f32 | bf16 | f16 | e4m3 | e5m2
deriving DecidableEq, Repr

/-- Types of mmac activations (R258). -/
inductive ActType where
  | bf16 | f16 | e4m3 | e5m2 | i8 | w8 | e2m1
deriving DecidableEq, Repr

/-- An agent with cached translations and a time-base copy (R60, R63). -/
inductive XAgent where
  | core (k : CoreId)
  | cluster (c : ClusterId)
  | engine (k : EngineId)
  | stack (i : StackId)
deriving DecidableEq, Repr

/-- Where 16 bytes can be poisoned (R340, R341). -/
inductive PoisonPlace where
  | none
  | wm (granule : Nat)
  | query (granule : Nat)
  | spad (k : CoreId) (granule : Nat)
  /-- A 16-byte unit of an operand slot, by position in its 32 KiB (R340). -/
  | slot (k : CoreId) (s : Slot) (granule : Nat)
  /-- A 16-byte unit of an image in the hamper: of the full image, or of thread image `idx` (R340). -/
  | hamper (k : CoreId) (idx : Option Nat) (granule : Nat)
  /-- Accumulator elements or side registers of a row (R340). -/
  | acc (k : CoreId) (tile : Tile) (row : Fin 128)
deriving DecidableEq, Repr

/-- Severity of a machine check (R344). -/
inductive Severity where
  | corrected | contained | fatal
deriving DecidableEq, Repr

/-- A detected error, as it reaches its bank (R343, R344). -/
structure McEvent where
  die : DieId
  bank : Fin 16
  sev : Severity
  kind : BitVec 8
  part : FuncId
  ctx : BitVec 16
  addr : Option Word
  core : CoreId
  thread : Tid
  index : BitVec 13
  synd : Word
  poison : PoisonPlace
deriving DecidableEq, Repr

/-- What a peer module asks of this module's memory (R167). -/
inductive PeerOp where
  | read (pa : Nat) (w : Width)
  | write (pa : Nat) (w : Width) (v : Word)
  | add (pa : Nat) (w : Width) (v : Word)
  | swap (pa : Nat) (w : Width) (v : Word)
  | and (pa : Nat) (w : Width) (v : Word)
  | or (pa : Nat) (w : Width) (v : Word)
  | xor (pa : Nat) (w : Width) (v : Word)
  | min (pa : Nat) (w : Width) (v : Word)
  | max (pa : Nat) (w : Width) (v : Word)
  | minw (pa : Nat) (w : Width) (v : Word)
  | maxw (pa : Nat) (w : Width) (v : Word)
  | cas (pa : Nat) (w : Width) (cmp v : Word)
deriving DecidableEq, Repr

/-- One constructor per row of spec/opcode_table.json. Rows with a word come first, by major opcode (R28);
the rows without a word are events of the module (spec 95). The order is chosen so that every word of majors 0x01 to
0x2E has a constructor that Lean's compiler can build (it refuses fields beyond the 245th constructor). -/
inductive Instr where
  -- SALU, major 0x01 (R192)
  | add (d a b : SReg) | sub (d a b : SReg) | mul (d a b : SReg) | mulh (d a b : SReg) | mulhw (d a b : SReg)
  | div (d a b : SReg) | divw (d a b : SReg) | rem (d a b : SReg) | remw (d a b : SReg)
  | and (d a b : SReg) | or (d a b : SReg) | xor (d a b : SReg) | andn (d a b : SReg)
  | sll (d a b : SReg) | srl (d a b : SReg) | sra (d a b : SReg) | rotl (d a b : SReg)
  | slt (d a b : SReg) | sltw (d a b : SReg) | min (d a b : SReg) | max (d a b : SReg)
  | minw (d a b : SReg) | maxw (d a b : SReg)
  -- SSHI, major 0x02 (R193)
  | slli (d a : SReg) (sh : BitVec 6) | srli (d a : SReg) (sh : BitVec 6)
  | srai (d a : SReg) (sh : BitVec 6) | rotli (d a : SReg) (sh : BitVec 6)
  -- SUN, major 0x03 (R194)
  | clz (d a : SReg) | ctz (d a : SReg) | popc (d a : SReg) | sextb (d a : SReg) | sexth (d a : SReg)
  | sextw (d a : SReg) | zextw (d a : SReg) | bswap (d a : SReg)
  -- majors 0x04 to 0x0D (R195, R196, R197)
  | addi (d a : SReg) (imm : BitVec 16) | andi (d a : SReg) (imm : BitVec 16) | ori (d a : SReg) (imm : BitVec 16)
  | xori (d a : SReg) (imm : BitVec 16) | slti (d a : SReg) (imm : BitVec 16) | sltwi (d a : SReg) (imm : BitVec 16)
  | lui (d : SReg) (imm : BitVec 21) | aupc (d : SReg) (imm : BitVec 21)
  | jal (d : SReg) (off : BitVec 21) | jalr (d a : SReg) (off : BitVec 16)
  -- BR, major 0x0E (R198); loop and bstrip (R200, R203)
  | beq (a b : SReg) (off : BitVec 13) | bne (a b : SReg) (off : BitVec 13) | blt (a b : SReg) (off : BitVec 13)
  | bge (a b : SReg) (off : BitVec 13) | bltw (a b : SReg) (off : BitVec 13) | bgew (a b : SReg) (off : BitVec 13)
  | loop (a : SReg) (off : BitVec 16) | bstrip (a : SReg) (off : BitVec 13)
  -- SYS, major 0x11 (R211)
  | mark (a : SReg)
  -- CSR, major 0x12 (R208)
  | csrr (d : SReg) (csr : BitVec 12) | csrw (d a : SReg) (csr : BitVec 12)
  | csrs (d a : SReg) (csr : BitVec 12) | csrc (d a : SReg) (csr : BitVec 12)
  -- SFP, major 0x13 (R204 to R206)
  | fadd (d a b : SReg) (t : SfpType) (rm : RmField) | fsub (d a b : SReg) (t : SfpType) (rm : RmField)
  | fmul (d a b : SReg) (t : SfpType) (rm : RmField) | fdiv (d a b : SReg) (t : SfpType) (rm : RmField)
  | fsqrt (d a : SReg) (t : SfpType) (rm : RmField)
  | fmin (d a b : SReg) (t : SfpType) | fmax (d a b : SReg) (t : SfpType)
  | fmacc (d a b : SReg) (t : SfpType) (rm : RmField)
  | fcmpeq (d a b : SReg) (t : SfpType) | fcmplt (d a b : SReg) (t : SfpType) | fcmple (d a b : SReg) (t : SfpType)
  | fclass (d a : SReg) (t : SfpType)
  | fcvt (d a : SReg) (other : ElemType) (toInt : Bool) (t : SfpType) (rm : RmField)
  -- majors 0x14 to 0x18 (R81, R82)
  | ld (d a : SReg) (sz : Width) (off : BitVec 14) | ldz (d a : SReg) (sz : Width) (off : BitVec 14)
  | st (d a : SReg) (sz : Width) (off : BitVec 14)
  | lds (d a : SReg) (sz : Width) (qf : LoadQual) (off : BitVec 12)
  | sts (d a : SReg) (sz : Width) (qf : StoreQual) (off : BitVec 12)
  -- ATOM, major 0x19 (R156): dbl selects 64 bits, spad the scratchpad space
  | amoswap (d a b : SReg) (ord : Order) (sc : Scope) (dbl spad : Bool)
  | amoadd (d a b : SReg) (ord : Order) (sc : Scope) (dbl spad : Bool)
  | amoand (d a b : SReg) (ord : Order) (sc : Scope) (dbl spad : Bool)
  | amoor (d a b : SReg) (ord : Order) (sc : Scope) (dbl spad : Bool)
  | amoxor (d a b : SReg) (ord : Order) (sc : Scope) (dbl spad : Bool)
  | amomin (d a b : SReg) (ord : Order) (sc : Scope) (dbl spad : Bool)
  | amomax (d a b : SReg) (ord : Order) (sc : Scope) (dbl spad : Bool)
  | amominw (d a b : SReg) (ord : Order) (sc : Scope) (dbl spad : Bool)
  | amomaxw (d a b : SReg) (ord : Order) (sc : Scope) (dbl spad : Bool)
  | amocas (d a b : SReg) (ord : Order) (sc : Scope) (dbl spad : Bool)
  -- fence, SYNC (R159, R161), vsetvl (R214)
  | fence (kind : FenceKind) (sc : Scope)
  | bar (a : SReg) | barr (d a : SReg) | barw (a b : SReg) | waitge (a b : SReg) | sigadd (a b : SReg) | waitt (a : SReg)
  | vsetvl (d a : SReg) (vt : VtypeField)
  -- VINTA, major 0x1D (R221)
  | vadd (vd va vb : VReg) (rep : Rep) (mk : MkField) | vsub (vd va vb : VReg) (rep : Rep) (mk : MkField)
  | vrsub (vd va vb : VReg) (rep : Rep) (mk : MkField) | vmul (vd va vb : VReg) (rep : Rep) (mk : MkField)
  | vmulh (vd va vb : VReg) (rep : Rep) (mk : MkField) | vmulhw (vd va vb : VReg) (rep : Rep) (mk : MkField)
  | vand (vd va vb : VReg) (rep : Rep) (mk : MkField) | vor (vd va vb : VReg) (rep : Rep) (mk : MkField)
  | vxor (vd va vb : VReg) (rep : Rep) (mk : MkField) | vsll (vd va vb : VReg) (rep : Rep) (mk : MkField)
  | vsrl (vd va vb : VReg) (rep : Rep) (mk : MkField) | vsra (vd va vb : VReg) (rep : Rep) (mk : MkField)
  | vmin (vd va vb : VReg) (rep : Rep) (mk : MkField) | vmax (vd va vb : VReg) (rep : Rep) (mk : MkField)
  | vminw (vd va vb : VReg) (rep : Rep) (mk : MkField) | vmaxw (vd va vb : VReg) (rep : Rep) (mk : MkField)
  -- VINTB, major 0x1E (R222)
  | vabsd (vd va vb : VReg) (rep : Rep) (mk : MkField) | vsadd (vd va vb : VReg) (rep : Rep) (mk : MkField)
  | vssub (vd va vb : VReg) (rep : Rep) (mk : MkField) | vsaddw (vd va vb : VReg) (rep : Rep) (mk : MkField)
  | vssubw (vd va vb : VReg) (rep : Rep) (mk : MkField) | vmacc (vd va vb : VReg) (rep : Rep) (mk : MkField)
  | vnmsac (vd va vb : VReg) (rep : Rep) (mk : MkField) | vdot4 (vd va vb : VReg) (rep : Rep) (mk : MkField)
  | vdot4w (vd va vb : VReg) (rep : Rep) (mk : MkField) | vrshr (vd va vb : VReg) (rep : Rep) (mk : MkField)
  | vnclip (vd va vb : VReg) (rep : Rep) (mk : MkField) | vnclipw (vd va vb : VReg) (rep : Rep) (mk : MkField)
  -- VFPA, major 0x1F (R224)
  | vfadd (vd va vb : VReg) (rep : Rep) (mk : MkField) | vfsub (vd va vb : VReg) (rep : Rep) (mk : MkField)
  | vfmul (vd va vb : VReg) (rep : Rep) (mk : MkField) | vfdiv (vd va vb : VReg) (rep : Rep) (mk : MkField)
  | vfsqrt (vd va : VReg) (mk : MkField)
  | vfmin (vd va vb : VReg) (rep : Rep) (mk : MkField) | vfmax (vd va vb : VReg) (rep : Rep) (mk : MkField)
  | vfmacc (vd va vb : VReg) (rep : Rep) (mk : MkField) | vfnmacc (vd va vb : VReg) (rep : Rep) (mk : MkField)
  | vfmsac (vd va vb : VReg) (rep : Rep) (mk : MkField)
  | vfabs (vd va : VReg) (mk : MkField) | vfneg (vd va : VReg) (mk : MkField)
  | vfsgnj (vd va vb : VReg) (rep : Rep) (mk : MkField)
  | vfexp2 (vd va : VReg) (mk : MkField) | vfrcp (vd va : VReg) (mk : MkField) | vfclass (vd va : VReg) (mk : MkField)
  -- VCMP, major 0x20 (R225)
  | vcmpeq (md : MReg) (va vb : VReg) (rep : Rep) (mk : MkField) | vcmpne (md : MReg) (va vb : VReg) (rep : Rep) (mk : MkField)
  | vcmplt (md : MReg) (va vb : VReg) (rep : Rep) (mk : MkField) | vcmple (md : MReg) (va vb : VReg) (rep : Rep) (mk : MkField)
  | vcmpgt (md : MReg) (va vb : VReg) (rep : Rep) (mk : MkField) | vcmpge (md : MReg) (va vb : VReg) (rep : Rep) (mk : MkField)
  | vcmpltw (md : MReg) (va vb : VReg) (rep : Rep) (mk : MkField) | vcmplew (md : MReg) (va vb : VReg) (rep : Rep) (mk : MkField)
  | vcmpgtw (md : MReg) (va vb : VReg) (rep : Rep) (mk : MkField) | vcmpgew (md : MReg) (va vb : VReg) (rep : Rep) (mk : MkField)
  | vfcmpeq (md : MReg) (va vb : VReg) (rep : Rep) (mk : MkField) | vfcmpne (md : MReg) (va vb : VReg) (rep : Rep) (mk : MkField)
  | vfcmplt (md : MReg) (va vb : VReg) (rep : Rep) (mk : MkField) | vfcmple (md : MReg) (va vb : VReg) (rep : Rep) (mk : MkField)
  | vfcmpgt (md : MReg) (va vb : VReg) (rep : Rep) (mk : MkField) | vfcmpge (md : MReg) (va vb : VReg) (rep : Rep) (mk : MkField)
  -- VMASK, major 0x21 (R226)
  | vmand (md ma mb : MReg) | vmor (md ma mb : MReg) | vmxor (md ma mb : MReg) | vmandn (md ma mb : MReg)
  | vmnot (md ma : MReg) | vmset (md : MReg) | vmclr (md : MReg) | vmsbf (md ma : MReg)
  | viota (vd : VReg) (ma : MReg) | vmcnt (d : SReg) (ma : MReg) | vmany (d : SReg) (ma : MReg)
  | vmfirst (d : SReg) (ma : MReg) | vmfm (md : MReg)
  -- VRED, major 0x22 (R227, R228, R248)
  | vredsum (vd va vb : VReg) (mk : MkField) | vredmax (vd va vb : VReg) (mk : MkField) | vredmin (vd va vb : VReg) (mk : MkField)
  | vredmaxw (vd va vb : VReg) (mk : MkField) | vredminw (vd va vb : VReg) (mk : MkField) | vredand (vd va vb : VReg) (mk : MkField)
  | vredor (vd va vb : VReg) (mk : MkField) | vfredsum (vd va vb : VReg) (mk : MkField) | vfredusum (vd va vb : VReg) (mk : MkField)
  | vfredmax (vd va vb : VReg) (mk : MkField) | vfredmin (vd va vb : VReg) (mk : MkField) | vbscale (vd va vb : VReg) (mk : MkField)
  -- VPERM, major 0x23 (R229)
  | vslideup (vd va : VReg) (b : SReg) (mk : MkField) | vslidedn (vd va : VReg) (b : SReg) (mk : MkField)
  | vrgather (vd va vb : VReg) (mk : MkField) | vcompress (vd va : VReg) (mb : MReg) | vmv (vd va : VReg) (mk : MkField)
  | vmvsx (vd : VReg) (a : SReg) (mk : MkField) | vmerge (vd va vb : VReg) (mk : MkField)
  -- VCVT, major 0x24 (R245)
  | vcvt (vd va : VReg) (src : ElemType) (sat : Bool) (rm : RmField) (mk : MkField) (dst : ElemType)
  -- VI, major 0x25 (R223)
  | vaddi (vd va : VReg) (imm : BitVec 8) (mk : MkField) | vrsubi (vd va : VReg) (imm : BitVec 8) (mk : MkField)
  | vandi (vd va : VReg) (imm : BitVec 8) (mk : MkField) | vori (vd va : VReg) (imm : BitVec 8) (mk : MkField)
  | vxori (vd va : VReg) (imm : BitVec 8) (mk : MkField) | vslli (vd va : VReg) (imm : BitVec 8) (mk : MkField)
  | vsrli (vd va : VReg) (imm : BitVec 8) (mk : MkField) | vsrai (vd va : VReg) (imm : BitVec 8) (mk : MkField)
  | vrshri (vd va : VReg) (imm : BitVec 8) (mk : MkField) | vslideupi (vd va : VReg) (imm : BitVec 8) (mk : MkField)
  | vslidedni (vd va : VReg) (imm : BitVec 8) (mk : MkField) | vmvi (vd : VReg) (imm : BitVec 8) (mk : MkField)
  -- VLDG, VSTG, VLDP, VSTP, majors 0x26 to 0x29 (R85)
  | vld (vd : VReg) (a : SReg) (ew : Width) (mk : MkField)
  | vldk (vd : VReg) (a x : SReg) (ew : Width) (mk : MkField)
  | vldx (vd : VReg) (a : SReg) (vx : VReg) (ew : Width) (mk : MkField)
  | vst (vd : VReg) (a : SReg) (ew : Width) (mk : MkField)
  | vstk (vd : VReg) (a x : SReg) (ew : Width) (mk : MkField)
  | vstx (vd : VReg) (a : SReg) (vx : VReg) (ew : Width) (mk : MkField)
  | vstxo (vd : VReg) (a : SReg) (vx : VReg) (ew : Width) (mk : MkField)
  | vlp (vd : VReg) (a : SReg) (ew : Width) (qf : LoadQual) (mk : MkField)
  | vlpk (vd : VReg) (a x : SReg) (ew : Width) (qf : LoadQual) (mk : MkField)
  | vlpx (vd : VReg) (a : SReg) (vx : VReg) (ew : Width) (qf : LoadQual) (mk : MkField)
  | vlpl (vd : VReg) (a : SReg) (ew : Width) (qf : LoadQual) (mk : MkField)
  | vsp (vd : VReg) (a : SReg) (ew : Width) (qf : StoreQual) (mk : MkField)
  | vspk (vd : VReg) (a x : SReg) (ew : Width) (qf : StoreQual) (mk : MkField)
  | vspx (vd : VReg) (a : SReg) (vx : VReg) (ew : Width) (qf : StoreQual) (mk : MkField)
  | vspxo (vd : VReg) (a : SReg) (vx : VReg) (ew : Width) (qf : StoreQual) (mk : MkField)
  | vspl (vd : VReg) (a : SReg) (ew : Width) (qf : StoreQual) (mk : MkField)
  -- VSTRM, major 0x2A (R89, R139, R140): a stream register is v24 + r
  | vsbind (r : Fin 8) (a : SReg) | vsunbind (vd : VReg) | vspill (vd : VReg) (a : SReg) | vfill (vd : VReg) (a : SReg)
  -- VTHR, major 0x2B (R185, R187): vf's count is 1 to 32, held less one
  | vf (count : Fin 32) (off : BitVec 13) | vpbr (ma : MReg) (clr : Bool) (off : BitVec 13) | vpjmp (off : BitVec 13)
  -- rpt (R30): n is 1 to 16 and reps 1 to 64, each held less one
  | rpt (n : Fin 16) (reps : Fin 64) (dd da db : Fin 8)
  -- MXA, major 0x2D (R258)
  | mshape (d a : SReg) (cls : MatClass) | mclaim (d a : SReg) | mrelease (a : SReg)
  | mfill (p : Slot) (a c : SReg) (t : FillType) (scl bnd wait : Bool)
  | mwload (p : Slot) | mmac (p : Tile) (q : Slot) (c : Tile) (t : ActType) (rs x z : Bool) | mzero (p : Tile)
  | msoft (p : Tile) (q : Slot) (c : Tile)
  | mdrain (vd : VReg) (q : Tile) (c : SReg) (t : DrainType) (sat : Bool)
  | mdrainSpad (q : Tile) (c : SReg) (t : DrainType) (sat bnd : Bool)
  | mdrainc (vd : VReg) (q : Tile) (c : SReg) (t : DrainType) (sat : Bool)
  | mnorm (p : Tile) | msaveTile (a : SReg) (q : Tile) | msaveSlot (a : SReg) (c : Slot)
  | mrestTile (a : SReg) (q : Tile) | mrestSlot (a : SReg) (c : Slot) | mbread (vd : VReg) (q : Tile) (f : BreadField)
  -- BND, major 0x2E (R294)
  | vbget (vd va : VReg) | vbset (vd va : VReg) | vstb (vd : VReg) (a : SReg) (spad : Bool) | vldb (vd : VReg) (a : SReg) (spad : Bool)
  -- ENG, major 0x2F (R129, R133, R137, R141)
  | cpa (a b c : SReg) (fl : CmdFlags) | cpaRes (a : SReg) (fl : CmdFlags) | senq (a b c : SReg) | abinit (a b c : SReg)
  | abwait (a b : SReg) | abrel (a b : SReg) | cpq (a c : SReg)
  -- QRY, major 0x30 (R93)
  | qwr (a b : SReg) (fl : QueryFlags) | qfold (a b : SReg) (fl : QueryFlags) | qdot (a b c : SReg) (fl : QueryFlags)
  | qfsum (a b c : SReg) (fl : QueryFlags) | qcnt (a b c : SReg) (fl : QueryFlags) | qmaxi (a b c : SReg) (fl : QueryFlags)
  | qtopk (a b c : SReg) (fl : QueryFlags) | qattn (a b c : SReg) (fl : QueryFlags) | qupd (a b c : SReg) (fl : QueryFlags)
  | qmig (a b c : SReg) (fl : CmdFlags) | qseal (a b c : SReg) (fl : CmdFlags) | qunseal (a b c : SReg) (fl : CmdFlags)
  -- TSK, major 0x31 (R305)
  | tspawn (a c : SReg) | tlaunch (a b c : SReg) (gang : Bool)
  -- Events: waits and lanes
  | fullEmptyWaitReady (k : CoreId) (t : Tid) | fenceComplete (k : CoreId) (t : Tid)
  | barrierPhaseComplete (launch : BitVec 16) (level : Fin 8) (inst : List (BitVec 32))
  | waitgeWake (k : CoreId) (t : Tid) | waittComplete (k : CoreId) (t : Tid)
  | streamRefill (k : CoreId) (r : Fin 8) | laneRelease (k : CoreId) (t : Tid) | lanesAcquired (k : CoreId) (t : Tid)
  | blockJoin (k : CoreId) | autoReissue (k : CoreId) | copyStripLands (k : CoreId) (j : Fin 4) | abwaitComplete (k : CoreId) (t : Tid)
  -- Events: queries
  | querySubcommandComplete (q : Nat) (sub : Nat) | migrationCopyStart (op : Nat) | migrationCommit (op : Nat)
  | sealImageWritten (op : Nat) | unsealVerified (op : Nat)
  -- Events: scheduling
  | launchStartTick (launch : BitVec 16) | nodeAged (launch : BitVec 16) (node : Nat)
  | gangProposal (gtag : Word32) (member : Fin 64) (tick : Word) | gangCancel (gtag : Word32) | gangProposalTimeout (gtag : Word32)
  -- Events: stream engines
  | segmentStart (k : EngineId) | cmdStream (k : EngineId) | cmdFold (k : EngineId) | cmdSignal (k : EngineId) | cmdWait (k : EngineId)
  | engineWaitSatisfied (k : EngineId) | cmdRepeat (k : EngineId) | cmdLink (k : EngineId) | cmdStop (k : EngineId)
  | engineStripLands (k : EngineId) (j : Nat) | segmentEnd (k : EngineId) | commandFault (k : EngineId)
  -- Events: translation and time
  | translationExpiry (ag : XAgent) | leaseRenewal (ag : XAgent) (vpn : Nat) | timeBeacon | gangTimeBeacon (drift : Int)
  -- Events: budget and slices
  | budgetPublication (budgets : Vector (BitVec 24) 8) | throttleRaise (d : DieId) (lvl : BitVec 3) | throttleStepDown (d : DieId)
  | sliceEnd (k : CoreId) (t : Tid)
  -- Events: writes of registers with a behaviour of their own
  | leWrite (k : CoreId) (t : Tid) (v : Word) | lsWrite (k : CoreId) (t : Tid) (v : Word) | tfbufWrite (k : CoreId) (t : Tid) (v : Word)
  | counterConfigure (k : CoreId) (n : Fin 8) (v : Word) | counterCountWrite (k : CoreId) (n : Fin 8) (v : Word) | counterSample (k : CoreId)
  | registerWrite (f : FuncId) (off : BitVec 16) (v : Word) (level : Priv) | xyieldWrite (f : FuncId) (v : Word)
  -- Events: partitions
  | partitionHalt (f : FuncId) | partitionResume (f : FuncId) | moveOut (f : FuncId) | moveIn (f : FuncId)
  | partitionReset (f : FuncId) | scrubComplete (f : FuncId) | functionLevelReset (f : FuncId)
  | submissionDoorbell (f : FuncId) (tail : Word32) | submitLaunch (f : FuncId) | submitGangLaunch (f : FuncId)
  | submitPartitionHalt (f : FuncId) | submitPartitionResume (f : FuncId)
  | pageRequestResponse (f : FuncId) (grp : Fin 32) (gen : BitVec 4) (ok : Bool)
  -- Events: debug and profiling
  | hypervisorClaim (k : CoreId) (bank trace : Bool) | hypervisorRelease (k : CoreId) (bank trace : Bool)
  | debugHaltRequest (k : CoreId) | debugResumeRequest (k : CoreId) | triggerHit (k : CoreId) (t : Tid) (n : Fin 4)
  | abstractRegister | abstractMemory | abstractElementRange | abstractGranule | abstractAccumulatorRow
  -- Events: reliability
  | mcstatClear (d : DieId) (b : Fin 16) | machineCheckLog (e : McEvent) | containedMachineCheck (k : CoreId) (t : Tid)
  | linkFailure (port : Fin 17) | backgroundScrub
  -- Events: start-up, fetch and the outside
  | powerOnReset | moduleReset | bootStageTimeout | illegalInstruction (w : Word32) | instructionFetchFault
  | inboundPostedWrite (f : FuncId) (pa : Nat) (bytes : List Byte) (relaxed : Bool) | choahPeerAccess (port : Fin 16) (op : PeerOp)
  | atsInvalidation (f : FuncId) (page : Nat) | debugEnableRequest (f : FuncId) (authentic : Bool)
  | bootStageReady (images : List (BitVec 512)) (verified : Bool)
  | hamperExchangeComplete (f : FuncId) | contextMoveComplete (f : FuncId)
  -- Instructions without operands: SYS (R211), VTHR (R187), TSK (R305)
  | svc | tret | brk | halt | idle | fencei | vpstop | vjoin | vrel | tdone | tyield
deriving DecidableEq, Repr

end Sys2Proof
end

