-- ==== Sys2Proof/WellFormed.lean ====
section
/-!
DEFINITION. What a decoded instruction must satisfy beyond its operand types (spec 02 R29, 11 R206, 12 R229, 13 R246, 14 R258).
-/

namespace Sys2Proof

/-- Width of an element type in bits (R27). -/
def ElemType.bits : ElemType → Nat
  | .i8 | .w8 | .e4m3 | .e5m2 | .ds8 => 8
  | .i16 | .w16 | .bf16 | .f16 => 16
  | .i32 | .w32 | .f32 => 32
  | .i64 | .w64 | .f64 => 64
  | .e2m1 => 4

/-- The integer types (R27). -/
def ElemType.isInt : ElemType → Bool
  | .i8 | .i16 | .i32 | .i64 | .w8 | .w16 | .w32 | .w64 => true
  | _ => false

/-- The signed integer types (R27). -/
def ElemType.isSigned : ElemType → Bool
  | .i8 | .i16 | .i32 | .i64 => true
  | _ => false

/-- The narrow formats of the last rows of R246. -/
def ElemType.isNarrow : ElemType → Bool
  | .e4m3 | .e5m2 | .e2m1 | .ds8 => true
  | _ => false

/-- The four wide floating formats (R246). -/
def ElemType.isWideFloat : ElemType → Bool
  | .bf16 | .f16 | .f32 | .f64 => true
  | _ => false

/-- The element type of a scalar floating type (R26). -/
def SfpType.elem : SfpType → ElemType
  | .f32 => .f32 | .f64 => .f64 | .bf16 => .bf16 | .f16 => .f16

/-- fcvt's other type and direction are legal (R206). -/
def fcvtLegal (other : ElemType) (toInt : Bool) (t : SfpType) : Bool :=
  match other with
  | .i32 | .i64 | .w32 | .w64 => true
  | .bf16 | .f16 | .f32 | .f64 => !toInt && other != t.elem
  | _ => false

/-- The legal source and destination pairs of vcvt (R246). -/
def vcvtPair (src dst : ElemType) : Bool :=
  if src == dst then false
  else if src.isInt then dst.isInt || dst.isWideFloat
  else if src.isWideFloat then dst.isInt || dst.isWideFloat || (dst.isNarrow && src != .f64)
  else dst == .bf16 || dst == .f16 || dst == .f32

/-- vcvt: a legal pair, and vd differs from va where the widths differ (R245). -/
def vcvtLegal (src dst : ElemType) (vd va : VReg) : Bool :=
  vcvtPair src dst && !(vd == va && src.bits != dst.bits)

/-- `.scl` is illegal with i8 and w8 (R258). -/
def fillLegal (t : FillType) (scl : Bool) : Bool :=
  match t with
  | .i8 | .w8 => !scl
  | _ => true

/-- VTYPE h is 1 only at width 16 (R213). -/
def VtypeField.legal (v : VtypeField) : Bool := !v.h || v.ew == .b2

/-- The CSR numbers with a register (R210). -/
def csrExists (n : BitVec 12) : Bool :=
  let k := n.toNat
  k ≤ 5 || (0x20 ≤ k && k ≤ 0x65) || (0x70 ≤ k && k ≤ 0x7A) || (0x80 ≤ k && k ≤ 0x88) || (0x90 ≤ k && k ≤ 0x95)
    || (0x98 ≤ k && k ≤ 0x9B) || k == 0xA1 || (0xB0 ≤ k && k ≤ 0xBB) || (0xC8 ≤ k && k ≤ 0xCB)

/-- The checks that a decoded instruction satisfies; an event has none. -/
def Instr.wellFormed (i : Instr) : Bool :=
  match i with
  | .loop _ off => off != 0
  | .csrr _ csr => csrExists csr
  | .csrw _ _ csr => csrExists csr
  | .csrs _ _ csr => csrExists csr
  | .csrc _ _ csr => csrExists csr
  | .fcvt _ _ other toInt t _ => fcvtLegal other toInt t
  | .vsetvl _ _ vt => vt.legal
  | .vslideup vd va _ _ => vd != va
  | .vslidedn vd va _ _ => vd != va
  | .vrgather vd va vb _ => vd != va && vd != vb
  | .vcompress vd va _ => vd != va
  | .vcvt vd va src _ _ _ dst => vcvtLegal src dst vd va
  | .vslideupi vd va _ _ => vd != va
  | .vslidedni vd va _ _ => vd != va
  | .vf _ off => off != 0
  | .mfill _ _ _ t scl _ _ => fillLegal t scl
  | .mmac p _ c _ _ x _ => !(x && p == c)
  | .msoft p _ c => p != c
  | _ => true

end Sys2Proof
end

