-- ==== Sys2Proof/Decode.lean ====
section
/-!
DEFINITION. The decoder, total on any word and any bytes, refusing by name in the order of R18, and the encoder,
both written from the formats of R19 and the map of R28.
-/

namespace Sys2Proof

/-- Why a word is no instruction, in the order of R18. -/
inductive DecodeError where
  /-- The words 0 and all ones (R17), a reserved major, or too few bytes. -/
  | reservedMajor
  /-- A reserved function code, condition or mode (R28). -/
  | reservedFunction
  /-- A nonzero reserved bit, a reserved subfield value or a register outside its kind (R29). -/
  | reservedBits
deriving DecidableEq, Repr

/-- Bits [lo+n-1 : lo] of a word. -/
def fld (w : Word32) (lo n : Nat) : BitVec n := w.extractLsb' lo n
/-- A five-bit register field. -/
def reg5 (w : Word32) (lo : Nat) : Fin 32 := (fld w lo 5).toFin
/-- A four-bit register field. -/
def reg4 (w : Word32) (lo : Nat) : Fin 16 := (fld w lo 4).toFin
/-- A two-bit tile field. -/
def reg2 (w : Word32) (lo : Nat) : Fin 4 := (fld w lo 2).toFin

/-- The code of a memory width (R20). -/
def Width.code : Width → BitVec 2
  | .b1 => 0 | .b2 => 1 | .b4 => 2 | .b8 => 3
/-- The memory width of a code (R20). -/
def Width.ofCode (c : BitVec 2) : Width :=
  match c.toNat with
  | 0 => .b1 | 1 => .b2 | 2 => .b4 | _ => .b8

/-- The code of a scope (R26). -/
def Scope.code : Scope → BitVec 3
  | .core => 0 | .cluster => 1 | .die => 2 | .package => 3 | .gang => 4 | .system => 5
/-- The scope of a code; 6 and 7 are reserved (R26). -/
def Scope.ofCode (c : BitVec 3) : Option Scope :=
  match c.toNat with
  | 0 => some .core | 1 => some .cluster | 2 => some .die | 3 => some .package | 4 => some .gang | 5 => some .system
  | _ => none

/-- The code of an atomic ordering (R26). -/
def Order.code : Order → BitVec 2
  | .relaxed => 0 | .acquire => 1 | .release => 2 | .acqrel => 3
/-- The ordering of a code (R26). -/
def Order.ofCode (c : BitVec 2) : Order :=
  match c.toNat with
  | 0 => .relaxed | 1 => .acquire | 2 => .release | _ => .acqrel

/-- The code of a fence kind (R26). -/
def FenceKind.code : FenceKind → BitVec 3
  | .full => 0 | .acquire => 1 | .release => 2 | .copy => 3 | .query => 4
/-- The fence kind of a code; 5 to 7 are reserved (R26). -/
def FenceKind.ofCode (c : BitVec 3) : Option FenceKind :=
  match c.toNat with
  | 0 => some .full | 1 => some .acquire | 2 => some .release | 3 => some .copy | 4 => some .query | _ => none

/-- The code of a load qualifier (R73). -/
def LoadQual.code : LoadQual → BitVec 2
  | .plain => 0 | .wait => 1 | .take => 2
/-- The load qualifier of a code; 3 is reserved (R73). -/
def LoadQual.ofCode (c : BitVec 2) : Option LoadQual :=
  match c.toNat with
  | 0 => some .plain | 1 => some .wait | 2 => some .take | _ => none

/-- The code of a store qualifier (R74). -/
def StoreQual.code : StoreQual → BitVec 2
  | .plain => 0 | .fill => 1 | .drain => 2
/-- The store qualifier of a code; 3 is reserved (R74). -/
def StoreQual.ofCode (c : BitVec 2) : Option StoreQual :=
  match c.toNat with
  | 0 => some .plain | 1 => some .fill | 2 => some .drain | _ => none

/-- The code of a scalar floating type (R26). -/
def SfpType.code : SfpType → BitVec 3
  | .f32 => 0 | .f64 => 1 | .bf16 => 2 | .f16 => 3
/-- The scalar floating type of a code; 1xx is reserved (R26). -/
def SfpType.ofCode (c : BitVec 3) : Option SfpType :=
  match c.toNat with
  | 0 => some .f32 | 1 => some .f64 | 2 => some .bf16 | 3 => some .f16 | _ => none

/-- The code of a rounding mode (R240). -/
def Rounding.code : Rounding → BitVec 3
  | .rne => 0 | .rtz => 1 | .rup => 2 | .rdn => 3 | .rna => 4
/-- The rounding mode of a code (R240). -/
def Rounding.ofCode (c : BitVec 3) : Option Rounding :=
  match c.toNat with
  | 0 => some .rne | 1 => some .rtz | 2 => some .rup | 3 => some .rdn | 4 => some .rna | _ => none

/-- The code of a rounding field: 111 is the default (R26). -/
def RmField.code : RmField → BitVec 3
  | .mode m => m.code | .dflt => 7
/-- The rounding field of a code; 101 and 110 are reserved (R26). -/
def RmField.ofCode (c : BitVec 3) : Option RmField :=
  match c.toNat with
  | 7 => some .dflt
  | _ => (Rounding.ofCode c).map .mode

/-- The element type code (R27). -/
def ElemType.code : ElemType → BitVec 4
  | .i8 => 0 | .i16 => 1 | .i32 => 2 | .i64 => 3 | .w8 => 4 | .w16 => 5 | .w32 => 6 | .w64 => 7
  | .bf16 => 8 | .f16 => 9 | .f32 => 10 | .f64 => 11 | .e4m3 => 12 | .e5m2 => 13 | .e2m1 => 14 | .ds8 => 15
/-- The element type of a code (R27). -/
def ElemType.ofCode (c : BitVec 4) : ElemType :=
  match c.toNat with
  | 0 => .i8 | 1 => .i16 | 2 => .i32 | 3 => .i64 | 4 => .w8 | 5 => .w16 | 6 => .w32 | 7 => .w64
  | 8 => .bf16 | 9 => .f16 | 10 => .f32 | 11 => .f64 | 12 => .e4m3 | 13 => .e5m2 | 14 => .e2m1 | _ => .ds8

/-- The rp and rs bits of a replicate modifier (R24). -/
def Rep.code : Rep → BitVec 3
  | .none => 0 | .rep1 => 4 | .rep4 => 5 | .rep16 => 6 | .rep64 => 7
/-- The replicate modifier of rp:rs; rs with rp = 0 is reserved (R24). -/
def Rep.ofCode (c : BitVec 3) : Option Rep :=
  match c.toNat with
  | 0 => some .none | 4 => some .rep1 | 5 => some .rep4 | 6 => some .rep16 | 7 => some .rep64 | _ => Option.none

/-- VTYPE [10:3] (R213). -/
def VtypeField.code (v : VtypeField) : BitVec 8 :=
  v.ew.code ++ BitVec.ofBool v.h ++ (BitVec.ofNat 2 v.flush.val) ++ v.rm.code
/-- The VTYPE of bits [10:3]; flush 11, rounding 101 to 111 and h at another width than 16 are reserved (R29). -/
def VtypeField.ofCode (c : BitVec 8) : Option VtypeField :=
  let ew := Width.ofCode (c.extractLsb' 6 2)
  let h := c.getLsbD 5
  match (c.extractLsb' 3 2).toNat, Rounding.ofCode (c.extractLsb' 0 3) with
  | 0, some rm => if h && ew != .b2 then none else some ⟨ew, h, 0, rm⟩
  | 1, some rm => if h && ew != .b2 then none else some ⟨ew, h, 1, rm⟩
  | 2, some rm => if h && ew != .b2 then none else some ⟨ew, h, 2, rm⟩
  | _, _ => none

/-- QRY fl (R26). -/
def QueryFlags.code (f : QueryFlags) : BitVec 6 :=
  BitVec.ofBool f.acq ++ BitVec.ofBool f.rel ++ f.scope.code ++ BitVec.ofBool f.bnd
/-- The query flags of fl (R26). -/
def QueryFlags.ofCode (c : BitVec 6) : Option QueryFlags :=
  (Scope.ofCode (c.extractLsb' 1 3)).map fun sc => ⟨c.getLsbD 5, c.getLsbD 4, sc, c.getLsbD 0⟩
/-- fl [5:1] of cpa and of the page operations (R137, R117). -/
def CmdFlags.code (f : CmdFlags) : BitVec 5 := BitVec.ofBool f.acq ++ BitVec.ofBool f.rel ++ f.scope.code
/-- The command flags of fl [5:1] (R137, R117). -/
def CmdFlags.ofCode (c : BitVec 5) : Option CmdFlags :=
  (Scope.ofCode (c.extractLsb' 0 3)).map fun sc => ⟨c.getLsbD 4, c.getLsbD 3, sc⟩

/-- mshape class code (R258). -/
def MatClass.code : MatClass → BitVec 2
  | .e16 => 0 | .e8 => 1 | .e4 => 2
/-- The mshape class of a code; 11 is reserved (R258). -/
def MatClass.ofCode (c : BitVec 2) : Option MatClass :=
  match c.toNat with
  | 0 => some .e16 | 1 => some .e8 | 2 => some .e4 | _ => none
/-- mbread field code (R258). -/
def BreadField.code : BreadField → BitVec 2
  | .bnd => 0 | .max => 1 | .sum => 2 | .res => 3
/-- The mbread field of a code (R258). -/
def BreadField.ofCode (c : BitVec 2) : BreadField :=
  match c.toNat with
  | 0 => .bnd | 1 => .max | 2 => .sum | _ => .res

/-- The element type of an mfill type (R258). -/
def FillType.elem : FillType → ElemType
  | .bf16 => .bf16 | .f16 => .f16 | .e4m3 => .e4m3 | .e5m2 => .e5m2 | .i8 => .i8 | .w8 => .w8 | .e2m1 => .e2m1 | .ds8 => .ds8
/-- The mfill type of an element type (R258). -/
def FillType.ofElem : ElemType → Option FillType
  | .bf16 => some .bf16 | .f16 => some .f16 | .e4m3 => some .e4m3 | .e5m2 => some .e5m2 | .i8 => some .i8 | .w8 => some .w8
  | .e2m1 => some .e2m1 | .ds8 => some .ds8 | _ => none
/-- The element type of a drain type (R258). -/
def DrainType.elem : DrainType → ElemType
  | .f32 => .f32 | .bf16 => .bf16 | .f16 => .f16 | .e4m3 => .e4m3 | .e5m2 => .e5m2
/-- The drain type of an element type (R258). -/
def DrainType.ofElem : ElemType → Option DrainType
  | .f32 => some .f32 | .bf16 => some .bf16 | .f16 => some .f16 | .e4m3 => some .e4m3 | .e5m2 => some .e5m2 | _ => none
/-- The element type of an mmac activation type (R258). -/
def ActType.elem : ActType → ElemType
  | .bf16 => .bf16 | .f16 => .f16 | .e4m3 => .e4m3 | .e5m2 => .e5m2 | .i8 => .i8 | .w8 => .w8 | .e2m1 => .e2m1
/-- The mmac activation type of an element type (R258). -/
def ActType.ofElem : ElemType → Option ActType
  | .bf16 => some .bf16 | .f16 => some .f16 | .e4m3 => some .e4m3 | .e5m2 => some .e5m2 | .i8 => some .i8 | .w8 => some .w8
  | .e2m1 => some .e2m1 | _ => none

/-- SALU members by code (R192). -/
def saluMember : Nat → Option (SReg → SReg → SReg → Instr)
  | 0 => some .add
  | 1 => some .sub
  | 2 => some .mul
  | 3 => some .mulh
  | 4 => some .mulhw
  | 5 => some .div
  | 6 => some .divw
  | 7 => some .rem
  | 8 => some .remw
  | 9 => some .and
  | 10 => some .or
  | 11 => some .xor
  | 12 => some .andn
  | 13 => some .sll
  | 14 => some .srl
  | 15 => some .sra
  | 16 => some .rotl
  | 17 => some .slt
  | 18 => some .sltw
  | 19 => some .min
  | 20 => some .max
  | 21 => some .minw
  | 22 => some .maxw
  | _ => none

/-- SSHI members by code (R193). -/
def sshiMember : Nat → Option (SReg → SReg → BitVec 6 → Instr)
  | 0 => some .slli
  | 1 => some .srli
  | 2 => some .srai
  | 3 => some .rotli
  | _ => none

/-- SUN members by code (R194). -/
def sunMember : Nat → Option (SReg → SReg → Instr)
  | 0 => some .clz
  | 1 => some .ctz
  | 2 => some .popc
  | 3 => some .sextb
  | 4 => some .sexth
  | 5 => some .sextw
  | 6 => some .zextw
  | 7 => some .bswap
  | _ => none

/-- The immediate majors 0x04 to 0x09 (R195). -/
def immMember : Nat → Option (SReg → SReg → BitVec 16 → Instr)
  | 4 => some .addi
  | 5 => some .andi
  | 6 => some .ori
  | 7 => some .xori
  | 8 => some .slti
  | 9 => some .sltwi
  | _ => none

/-- BR members by condition (R198). -/
def branchMember : Nat → Option (SReg → SReg → BitVec 13 → Instr)
  | 0 => some .beq
  | 1 => some .bne
  | 2 => some .blt
  | 3 => some .bge
  | 4 => some .bltw
  | 5 => some .bgew
  | _ => none

/-- ATOM members by code (R28, R156). -/
def atomMember : Nat → Option (SReg → SReg → SReg → Order → Scope → Bool → Bool → Instr)
  | 0 => some .amoswap
  | 1 => some .amoadd
  | 2 => some .amoand
  | 3 => some .amoor
  | 4 => some .amoxor
  | 5 => some .amomin
  | 6 => some .amomax
  | 7 => some .amominw
  | 8 => some .amomaxw
  | 9 => some .amocas
  | _ => none

/-- VINTA members by code (R221). -/
def vintaMember : Nat → Option (VReg → VReg → VReg → Rep → MkField → Instr)
  | 0 => some .vadd
  | 1 => some .vsub
  | 2 => some .vrsub
  | 3 => some .vmul
  | 4 => some .vmulh
  | 5 => some .vmulhw
  | 6 => some .vand
  | 7 => some .vor
  | 8 => some .vxor
  | 9 => some .vsll
  | 10 => some .vsrl
  | 11 => some .vsra
  | 12 => some .vmin
  | 13 => some .vmax
  | 14 => some .vminw
  | 15 => some .vmaxw
  | _ => none

/-- VINTB members by code (R222). -/
def vintbMember : Nat → Option (VReg → VReg → VReg → Rep → MkField → Instr)
  | 0 => some .vabsd
  | 1 => some .vsadd
  | 2 => some .vssub
  | 3 => some .vsaddw
  | 4 => some .vssubw
  | 5 => some .vmacc
  | 6 => some .vnmsac
  | 7 => some .vdot4
  | 8 => some .vdot4w
  | 9 => some .vrshr
  | 10 => some .vnclip
  | 11 => some .vnclipw
  | _ => none

/-- VFPA members that read vb, by code (R224). -/
def vfpa3Member : Nat → Option (VReg → VReg → VReg → Rep → MkField → Instr)
  | 0 => some .vfadd
  | 1 => some .vfsub
  | 2 => some .vfmul
  | 3 => some .vfdiv
  | 5 => some .vfmin
  | 6 => some .vfmax
  | 7 => some .vfmacc
  | 8 => some .vfnmacc
  | 9 => some .vfmsac
  | 12 => some .vfsgnj
  | _ => none

/-- VFPA members that do not read vb, by code (R224). -/
def vfpa2Member : Nat → Option (VReg → VReg → MkField → Instr)
  | 4 => some .vfsqrt
  | 10 => some .vfabs
  | 11 => some .vfneg
  | 13 => some .vfexp2
  | 14 => some .vfrcp
  | 15 => some .vfclass
  | _ => none

/-- VCMP members by code (R225). -/
def vcmpMember : Nat → Option (MReg → VReg → VReg → Rep → MkField → Instr)
  | 0 => some .vcmpeq
  | 1 => some .vcmpne
  | 2 => some .vcmplt
  | 3 => some .vcmple
  | 4 => some .vcmpgt
  | 5 => some .vcmpge
  | 6 => some .vcmpltw
  | 7 => some .vcmplew
  | 8 => some .vcmpgtw
  | 9 => some .vcmpgew
  | 10 => some .vfcmpeq
  | 11 => some .vfcmpne
  | 12 => some .vfcmplt
  | 13 => some .vfcmple
  | 14 => some .vfcmpgt
  | 15 => some .vfcmpge
  | _ => none

/-- VRED members by code (R227). -/
def vredMember : Nat → Option (VReg → VReg → VReg → MkField → Instr)
  | 0 => some .vredsum
  | 1 => some .vredmax
  | 2 => some .vredmin
  | 3 => some .vredmaxw
  | 4 => some .vredminw
  | 5 => some .vredand
  | 6 => some .vredor
  | 7 => some .vfredsum
  | 8 => some .vfredusum
  | 9 => some .vfredmax
  | 10 => some .vfredmin
  | 11 => some .vbscale
  | _ => none

/-- VI members that read va, by code (R223). -/
def viMember : Nat → Option (VReg → VReg → BitVec 8 → MkField → Instr)
  | 0 => some .vaddi
  | 1 => some .vrsubi
  | 2 => some .vandi
  | 3 => some .vori
  | 4 => some .vxori
  | 5 => some .vslli
  | 6 => some .vsrli
  | 7 => some .vsrai
  | 8 => some .vrshri
  | 9 => some .vslideupi
  | 10 => some .vslidedni
  | _ => none

/-- QRY members with a reply, by code (R97). -/
noncomputable def queryMember : Nat → Option (SReg → SReg → SReg → QueryFlags → Instr)
  | 2 => some .qdot
  | 3 => some .qfsum
  | 4 => some .qcnt
  | 5 => some .qmaxi
  | 6 => some .qtopk
  | 7 => some .qattn
  | 8 => some .qupd
  | _ => none

/-- QRY page operations by code (R117). -/
noncomputable def pageOpMember : Nat → Option (SReg → SReg → SReg → CmdFlags → Instr)
  | 9 => some .qmig
  | 10 => some .qseal
  | 11 => some .qunseal
  | _ => none

/-- A word is legal only if a condition on its reserved bits holds. -/
def need (c : Bool) (i : Instr) : Except DecodeError Instr := if c then .ok i else .error .reservedBits
/-- A subfield with a reserved code makes the word illegal (R26). -/
def needSome {α : Type} (x : Option α) (f : α → Except DecodeError Instr) : Except DecodeError Instr :=
  match x with
  | some a => f a
  | none => .error .reservedBits
/-- A function code with no member makes the word illegal (R28). -/
def needMember {α : Type} (x : Option α) (f : α → Except DecodeError Instr) : Except DecodeError Instr :=
  match x with
  | some a => f a
  | none => .error .reservedFunction

/-- The word's bits [hi:lo] are zero. -/
def zeros (w : Word32) (lo n : Nat) : Bool := fld w lo n == 0

/-- SYS (R211). -/
def decodeSys (w : Word32) : Except DecodeError Instr :=
  match (fld w 6 5).toNat with
  | 0 => need (zeros w 0 6 && zeros w 11 15) .svc
  | 1 => need (zeros w 0 6 && zeros w 11 15) .tret
  | 2 => need (zeros w 0 6 && zeros w 11 15) .brk
  | 3 => need (zeros w 0 6 && zeros w 11 15) .halt
  | 4 => need (zeros w 0 6 && zeros w 11 15) .idle
  | 5 => need (zeros w 0 6 && zeros w 11 15) .fencei
  | 6 => need (zeros w 0 6 && zeros w 11 5 && zeros w 21 5) (.mark (reg5 w 16))
  | _ => .error .reservedFunction

/-- CSR (R208). -/
def decodeCsr (w : Word32) : Except DecodeError Instr :=
  let csr := fld w 0 12
  let d := reg5 w 21
  let a := reg5 w 16
  let ok := zeros w 12 2 && csrExists csr
  match (fld w 14 2).toNat with
  | 0 => need (ok && zeros w 16 5) (.csrr d csr)
  | 1 => need ok (.csrw d a csr)
  | 2 => need ok (.csrs d a csr)
  | _ => need ok (.csrc d a csr)

/-- SFP (R204 to R206). -/
def decodeSfp (w : Word32) : Except DecodeError Instr :=
  let d := reg5 w 21
  let a := reg5 w 16
  let b := reg5 w 11
  let m := (fld w 6 5).toNat
  if m > 12 then .error .reservedFunction
  else
    needSome (SfpType.ofCode (fld w 3 3)) fun t =>
    needSome (RmField.ofCode (fld w 0 3)) fun rm =>
    match m with
    | 0 => .ok (.fadd d a b t rm)
    | 1 => .ok (.fsub d a b t rm)
    | 2 => .ok (.fmul d a b t rm)
    | 3 => .ok (.fdiv d a b t rm)
    | 4 => need (zeros w 11 5) (.fsqrt d a t rm)
    | 5 => need (zeros w 0 3) (.fmin d a b t)
    | 6 => need (zeros w 0 3) (.fmax d a b t)
    | 7 => .ok (.fmacc d a b t rm)
    | 8 => need (zeros w 0 3) (.fcmpeq d a b t)
    | 9 => need (zeros w 0 3) (.fcmplt d a b t)
    | 10 => need (zeros w 0 3) (.fcmple d a b t)
    | 11 => need (zeros w 0 3 && zeros w 11 5) (.fclass d a t)
    | _ =>
      let other := ElemType.ofCode (fld w 11 4)
      let toInt := w.getLsbD 15
      need (fcvtLegal other toInt t) (.fcvt d a other toInt t rm)

/-- SYNC (R161). -/
def decodeSync (w : Word32) : Except DecodeError Instr :=
  let d := reg5 w 21
  let a := reg5 w 16
  let b := reg5 w 11
  let d0 := zeros w 21 5
  let b0 := zeros w 11 5
  let z := zeros w 0 6
  match (fld w 6 5).toNat with
  | 0 => need (z && d0 && b0) (.bar a)
  | 1 => need (z && b0) (.barr d a)
  | 2 => need (z && d0) (.barw a b)
  | 3 => need (z && d0) (.waitge a b)
  | 4 => need (z && d0) (.sigadd a b)
  | 5 => need (z && d0 && b0) (.waitt a)
  | _ => .error .reservedFunction

/-- VMASK (R226). -/
def decodeVmask (w : Word32) : Except DecodeError Instr :=
  let z := zeros w 4 7
  let md := reg4 w 21
  let ma := reg4 w 16
  let mb := reg4 w 11
  let md4 := zeros w 25 1
  let ma4 := zeros w 20 1
  let mb4 := zeros w 15 1
  let b0 := zeros w 11 5
  let a0 := zeros w 16 5
  match (fld w 0 4).toNat with
  | 0 => need (z && md4 && ma4 && mb4) (.vmand md ma mb)
  | 1 => need (z && md4 && ma4 && mb4) (.vmor md ma mb)
  | 2 => need (z && md4 && ma4 && mb4) (.vmxor md ma mb)
  | 3 => need (z && md4 && ma4 && mb4) (.vmandn md ma mb)
  | 4 => need (z && md4 && ma4 && b0) (.vmnot md ma)
  | 5 => need (z && md4 && a0 && b0) (.vmset md)
  | 6 => need (z && md4 && a0 && b0) (.vmclr md)
  | 7 => need (z && md4 && ma4 && b0) (.vmsbf md ma)
  | 8 => need (z && ma4 && b0) (.viota (reg5 w 21) ma)
  | 9 => need (z && ma4 && b0) (.vmcnt (reg5 w 21) ma)
  | 10 => need (z && ma4 && b0) (.vmany (reg5 w 21) ma)
  | 11 => need (z && ma4 && b0) (.vmfirst (reg5 w 21) ma)
  | 12 => need (z && md4 && a0 && b0) (.vmfm md)
  | _ => .error .reservedFunction

/-- VPERM (R229). -/
def decodeVperm (w : Word32) : Except DecodeError Instr :=
  let z := zeros w 8 3
  let vd := reg5 w 21
  let va := reg5 w 16
  let vb := reg5 w 11
  let mk := reg4 w 4
  match (fld w 0 4).toNat with
  | 0 => need (z && vd != va) (.vslideup vd va vb mk)
  | 1 => need (z && vd != va) (.vslidedn vd va vb mk)
  | 2 => need (z && vd != va && vd != vb) (.vrgather vd va vb mk)
  | 3 => need (z && zeros w 4 4 && zeros w 15 1 && vd != va) (.vcompress vd va (reg4 w 11))
  | 4 => need (z && zeros w 11 5) (.vmv vd va mk)
  | 5 => need (z && zeros w 11 5) (.vmvsx vd va mk)
  | 6 => need z (.vmerge vd va vb mk)
  | _ => .error .reservedFunction

/-- VI (R223). -/
def decodeVi (w : Word32) : Except DecodeError Instr :=
  let vd := reg5 w 21
  let va := reg5 w 16
  let mk := reg4 w 4
  let imm := fld w 8 8
  match (fld w 0 4).toNat with
  | 11 => need (zeros w 16 5) (.vmvi vd imm mk)
  | 9 => need (vd != va) (.vslideupi vd va imm mk)
  | 10 => need (vd != va) (.vslidedni vd va imm mk)
  | f => needMember (viMember f) fun m => .ok (m vd va imm mk)

/-- VLDG, VSTG, VLDP and VSTP (R85). -/
def decodeVmem (w : Word32) : Except DecodeError Instr :=
  let vd := reg5 w 21
  let a := reg5 w 16
  let x := reg5 w 11
  let ew := Width.ofCode (fld w 9 2)
  let mk := reg4 w 3
  let x0 := zeros w 11 5
  let q0 := zeros w 7 2
  match (fld w 26 6).toNat, (fld w 0 3).toNat with
  | 0x26, 0 => need (q0 && x0) (.vld vd a ew mk)
  | 0x26, 1 => need q0 (.vldk vd a x ew mk)
  | 0x26, 2 => need q0 (.vldx vd a x ew mk)
  | 0x27, 0 => need (q0 && x0) (.vst vd a ew mk)
  | 0x27, 1 => need q0 (.vstk vd a x ew mk)
  | 0x27, 2 => need q0 (.vstx vd a x ew mk)
  | 0x27, 3 => need q0 (.vstxo vd a x ew mk)
  | 0x28, 0 => needSome (LoadQual.ofCode (fld w 7 2)) fun q => need x0 (.vlp vd a ew q mk)
  | 0x28, 1 => needSome (LoadQual.ofCode (fld w 7 2)) fun q => .ok (.vlpk vd a x ew q mk)
  | 0x28, 2 => needSome (LoadQual.ofCode (fld w 7 2)) fun q => .ok (.vlpx vd a x ew q mk)
  | 0x28, 4 => needSome (LoadQual.ofCode (fld w 7 2)) fun q => need x0 (.vlpl vd a ew q mk)
  | 0x29, 0 => needSome (StoreQual.ofCode (fld w 7 2)) fun q => need x0 (.vsp vd a ew q mk)
  | 0x29, 1 => needSome (StoreQual.ofCode (fld w 7 2)) fun q => .ok (.vspk vd a x ew q mk)
  | 0x29, 2 => needSome (StoreQual.ofCode (fld w 7 2)) fun q => .ok (.vspx vd a x ew q mk)
  | 0x29, 3 => needSome (StoreQual.ofCode (fld w 7 2)) fun q => .ok (.vspxo vd a x ew q mk)
  | 0x29, 4 => needSome (StoreQual.ofCode (fld w 7 2)) fun q => need x0 (.vspl vd a ew q mk)
  | _, _ => .error .reservedFunction

/-- VSTRM (R89, R139, R140). -/
def decodeVstrm (w : Word32) : Except DecodeError Instr :=
  let vd := reg5 w 21
  let a := reg5 w 16
  let z := zeros w 3 13
  match (fld w 0 3).toNat with
  | 0 => need (z && fld w 24 2 == 3) (.vsbind (fld w 21 3).toFin a)
  | 1 => need (z && zeros w 16 5) (.vsunbind vd)
  | 2 => need z (.vspill vd a)
  | 3 => need z (.vfill vd a)
  | _ => .error .reservedFunction

/-- VTHR (R185, R187): 32 words is encoded as 0. -/
def decodeVthr (w : Word32) : Except DecodeError Instr :=
  let off := fld w 0 13
  match (fld w 23 3).toNat with
  | 0 => need (zeros w 18 5 && off != 0) (.vf (fld w 13 5 - 1).toFin off)
  | 1 => need (zeros w 22 1 && zeros w 14 4) (.vpbr (reg4 w 18) (w.getLsbD 13) off)
  | 2 => need (zeros w 13 10) (.vpjmp off)
  | 3 => need (zeros w 0 23) .vpstop
  | 4 => need (zeros w 0 23) .vjoin
  | 5 => need (zeros w 0 23) .vrel
  | _ => .error .reservedFunction

/-- MXA (R258). -/
def decodeMxa (w : Word32) : Except DecodeError Instr :=
  let p := reg5 w 17
  let q := reg5 w 12
  let c := reg5 w 7
  let p0 := zeros w 17 5
  let q0 := zeros w 12 5
  let c0 := zeros w 7 5
  let f0 := zeros w 0 7
  let pTile := zeros w 19 3
  let pSlot := zeros w 21 1
  let qTile := zeros w 14 3
  let qSlot := zeros w 16 1
  let cTile := zeros w 9 3
  let cSlot := zeros w 11 1
  let elem := ElemType.ofCode (fld w 0 4)
  match (fld w 22 4).toNat with
  | 0 => needSome (MatClass.ofCode (fld w 0 2)) fun cl => need (c0 && zeros w 2 5) (.mshape p q cl)
  | 1 => need (c0 && f0) (.mclaim p q)
  | 2 => need (p0 && c0 && f0) (.mrelease q)
  | 3 => needSome (FillType.ofElem elem) fun t =>
      need (pSlot && fillLegal t (w.getLsbD 4)) (.mfill (reg4 w 17) q c t (w.getLsbD 4) (w.getLsbD 5) (w.getLsbD 6))
  | 4 => need (pSlot && q0 && c0 && f0) (.mwload (reg4 w 17))
  | 5 => needSome (ActType.ofElem elem) fun t =>
      need (pTile && qSlot && cTile && !(w.getLsbD 5 && reg2 w 17 == reg2 w 7))
        (.mmac (reg2 w 17) (reg4 w 12) (reg2 w 7) t (w.getLsbD 4) (w.getLsbD 5) (w.getLsbD 6))
  | 6 => need (pTile && q0 && c0 && f0) (.mzero (reg2 w 17))
  | 7 => need (pTile && qSlot && cTile && f0 && reg2 w 17 != reg2 w 7) (.msoft (reg2 w 17) (reg4 w 12) (reg2 w 7))
  | 8 => needSome (DrainType.ofElem elem) fun t =>
      if w.getLsbD 4 then need (p0 && qTile) (.mdrainSpad (reg2 w 12) c t (w.getLsbD 5) (w.getLsbD 6))
      else need (qTile && zeros w 6 1) (.mdrain p (reg2 w 12) c t (w.getLsbD 5))
  | 9 => needSome (DrainType.ofElem elem) fun t =>
      need (qTile && zeros w 4 1 && zeros w 6 1) (.mdrainc p (reg2 w 12) c t (w.getLsbD 5))
  | 10 => need (pTile && q0 && c0 && f0) (.mnorm (reg2 w 17))
  | 11 =>
      if w.getLsbD 0 then need (zeros w 1 6 && q0 && cSlot) (.msaveSlot p (reg4 w 7))
      else need (zeros w 1 6 && qTile && c0) (.msaveTile p (reg2 w 12))
  | 12 =>
      if w.getLsbD 0 then need (zeros w 1 6 && q0 && cSlot) (.mrestSlot p (reg4 w 7))
      else need (zeros w 1 6 && qTile && c0) (.mrestTile p (reg2 w 12))
  | 13 => need (qTile && c0 && zeros w 2 5) (.mbread p (reg2 w 12) (BreadField.ofCode (fld w 0 2)))
  | _ => .error .reservedFunction

/-- BND (R294). -/
def decodeBnd (w : Word32) : Except DecodeError Instr :=
  let z := zeros w 4 7
  let vd := reg5 w 21
  let a := reg5 w 16
  match (fld w 0 4).toNat with
  | 0 => need (z && zeros w 11 5) (.vbget vd a)
  | 1 => need (z && zeros w 11 5) (.vbset vd a)
  | 2 => need (z && zeros w 12 4) (.vstb vd a (w.getLsbD 11))
  | 3 => need (z && zeros w 12 4) (.vldb vd a (w.getLsbD 11))
  | _ => .error .reservedFunction

/-- ENG (R129, R133, R137, R141). -/
noncomputable def decodeEng (w : Word32) : Except DecodeError Instr :=
  let a := reg5 w 16
  let b := reg5 w 11
  let c := reg5 w 6
  let f0 := zeros w 0 6
  let b0 := zeros w 11 5
  let c0 := zeros w 6 5
  match (fld w 21 5).toNat with
  | 0 => needSome (CmdFlags.ofCode (fld w 1 5)) fun fl =>
      if w.getLsbD 0 then need (b0 && c0) (.cpaRes a fl) else .ok (.cpa a b c fl)
  | 1 => need f0 (.senq a b c)
  | 2 => need f0 (.abinit a b c)
  | 3 => need (f0 && c0) (.abwait a b)
  | 4 => need (f0 && c0) (.abrel a b)
  | 5 => need (f0 && b0) (.cpq a c)
  | _ => .error .reservedFunction

/-- QRY (R93, R117). -/
noncomputable def decodeQry (w : Word32) : Except DecodeError Instr :=
  let a := reg5 w 16
  let b := reg5 w 11
  let c := reg5 w 6
  let c0 := zeros w 6 5
  match (fld w 21 5).toNat with
  | 0 => needSome (QueryFlags.ofCode (fld w 0 6)) fun fl => need c0 (.qwr a b fl)
  | 1 => needSome (QueryFlags.ofCode (fld w 0 6)) fun fl => need c0 (.qfold a b fl)
  | f =>
    match pageOpMember f with
    | some m => needSome (CmdFlags.ofCode (fld w 1 5)) fun fl => need (zeros w 0 1) (m a b c fl)
    | none => needMember (queryMember f) fun m => needSome (QueryFlags.ofCode (fld w 0 6)) fun fl => .ok (m a b c fl)

/-- TSK (R305). -/
noncomputable def decodeTsk (w : Word32) : Except DecodeError Instr :=
  let a := reg5 w 16
  let c := reg5 w 6
  match (fld w 21 5).toNat with
  | 0 => need (zeros w 0 6 && zeros w 11 5) (.tspawn a c)
  | 1 => need (zeros w 0 21) .tdone
  | 2 => need (zeros w 0 21) .tyield
  | 3 => need (zeros w 1 5) (.tlaunch a (reg5 w 11) c (w.getLsbD 0))
  | _ => .error .reservedFunction

/-- A V3 word of a major whose members take the replicate modifier (R24, R25). -/
def decodeV3 (w : Word32) (m : Option (VReg → VReg → VReg → Rep → MkField → Instr)) : Except DecodeError Instr :=
  needMember m fun f => needSome (Rep.ofCode (fld w 8 3)) fun rep =>
    .ok (f (reg5 w 21) (reg5 w 16) (reg5 w 11) rep (reg4 w 4))

/-- The decoder of majors 0x01 to 0x2E (R28). -/
def decodeLow (w : Word32) : Except DecodeError Instr :=
  let d := reg5 w 21
  let a := reg5 w 16
  let b := reg5 w 11
  match (fld w 26 6).toNat with
  | 0x01 => needMember (saluMember (fld w 6 5).toNat) fun m => need (zeros w 0 6) (m d a b)
  | 0x02 => needMember (sshiMember (fld w 6 5).toNat) fun m => need (zeros w 1 5) (m d a (fld w 0 1 ++ fld w 11 5))
  | 0x03 => needMember (sunMember (fld w 6 5).toNat) fun m => need (zeros w 0 6 && zeros w 11 5) (m d a)
  | 0x0A => .ok (.lui d (fld w 0 21))
  | 0x0B => .ok (.aupc d (fld w 0 21))
  | 0x0C => .ok (.jal d (fld w 0 21))
  | 0x0D => .ok (.jalr d a (fld w 0 16))
  | 0x0E => needMember (branchMember (fld w 13 3).toNat) fun m => .ok (m d a (fld w 0 13))
  | 0x0F => need (zeros w 21 5 && fld w 0 16 != 0) (.loop a (fld w 0 16))
  | 0x10 => need (zeros w 13 8) (.bstrip d (fld w 0 13))
  | 0x11 => decodeSys w
  | 0x12 => decodeCsr w
  | 0x13 => decodeSfp w
  | 0x14 => .ok (.ld d a (Width.ofCode (fld w 14 2)) (fld w 0 14))
  | 0x15 => .ok (.ldz d a (Width.ofCode (fld w 14 2)) (fld w 0 14))
  | 0x16 => .ok (.st d a (Width.ofCode (fld w 14 2)) (fld w 0 14))
  | 0x17 => needSome (LoadQual.ofCode (fld w 12 2)) fun q => .ok (.lds d a (Width.ofCode (fld w 14 2)) q (fld w 0 12))
  | 0x18 => needSome (StoreQual.ofCode (fld w 12 2)) fun q => .ok (.sts d a (Width.ofCode (fld w 14 2)) q (fld w 0 12))
  | 0x19 => needMember (atomMember (fld w 7 4).toNat) fun m => needSome (Scope.ofCode (fld w 2 3)) fun sc =>
      .ok (m d a b (Order.ofCode (fld w 5 2)) sc (w.getLsbD 1) (w.getLsbD 0))
  | 0x1A => needMember (FenceKind.ofCode (fld w 8 3)) fun k => needSome (Scope.ofCode (fld w 5 3)) fun sc =>
      need (zeros w 0 5 && zeros w 11 15) (.fence k sc)
  | 0x1B => decodeSync w
  | 0x1C => needSome (VtypeField.ofCode (fld w 3 8)) fun vt => need (zeros w 0 3 && zeros w 11 5) (.vsetvl d a vt)
  | 0x1D => decodeV3 w (vintaMember (fld w 0 4).toNat)
  | 0x1E => decodeV3 w (vintbMember (fld w 0 4).toNat)
  | 0x1F =>
    match vfpa2Member (fld w 0 4).toNat with
    | some m => need (zeros w 8 8) (m d a (reg4 w 4))
    | none => decodeV3 w (vfpa3Member (fld w 0 4).toNat)
  | 0x20 => needMember (vcmpMember (fld w 0 4).toNat) fun m => needSome (Rep.ofCode (fld w 8 3)) fun rep =>
      need (zeros w 25 1) (m (reg4 w 21) a b rep (reg4 w 4))
  | 0x21 => decodeVmask w
  | 0x22 => needMember (vredMember (fld w 0 4).toNat) fun m => need (zeros w 8 3) (m d a b (reg4 w 4))
  | 0x23 => decodeVperm w
  | 0x24 => needSome (RmField.ofCode (fld w 8 3)) fun rm =>
      need (vcvtLegal (ElemType.ofCode (fld w 12 4)) (ElemType.ofCode (fld w 0 4)) d a)
        (.vcvt d a (ElemType.ofCode (fld w 12 4)) (w.getLsbD 11) rm (reg4 w 4) (ElemType.ofCode (fld w 0 4)))
  | 0x25 => decodeVi w
  | 0x26 => decodeVmem w
  | 0x27 => decodeVmem w
  | 0x28 => decodeVmem w
  | 0x29 => decodeVmem w
  | 0x2A => decodeVstrm w
  | 0x2B => decodeVthr w
  | 0x2C => need (zeros w 0 7) (.rpt (fld w 22 4 - 1).toFin (fld w 16 6 - 1).toFin (fld w 13 3).toFin (fld w 10 3).toFin (fld w 7 3).toFin)
  | 0x2D => decodeMxa w
  | 0x2E => decodeBnd w
  | op => match immMember op with
    | some m => .ok (m d a (fld w 0 16))
    | none => .error .reservedMajor

/-- The instruction of a word, or why it is none (R15 to R31 as far as the word's own bits decide). -/
noncomputable def decode (w : Word32) : Except DecodeError Instr :=
  match (fld w 26 6).toNat with
  | 0x2F => decodeEng w
  | 0x30 => decodeQry w
  | 0x31 => decodeTsk w
  | _ => decodeLow w

/-- A word's four bytes, lowest address first (R15). -/
def wordBytes (w : Word32) : List Byte := [fld w 0 8, fld w 8 8, fld w 16 8, fld w 24 8]
/-- The word that four bytes hold (R15). -/
def bytesWord (b0 b1 b2 b3 : Byte) : Word32 := b3 ++ b2 ++ b1 ++ b0

/-- Decode the first instruction of a byte sequence and give the rest. -/
noncomputable def decodeBytes : List Byte → Except DecodeError (Instr × List Byte)
  | b0 :: b1 :: b2 :: b3 :: rest => (decode (bytesWord b0 b1 b2 b3)).map fun i => (i, rest)
  | _ => .error .reservedMajor

/-- The instruction that the decoder reads from an instruction whose bits are w, as the table numbers them. -/
noncomputable def decodeTableWord (nbits w : Nat) : Option Instr :=
  match decodeBytes (wordBytes (BitVec.ofNat 32 (w % 2 ^ nbits))) with
  | .ok (i, _) => some i
  | .error _ => none

/-! ### The encoder -/

/-- A register number in a five-bit field. -/
def enc5 (r : Fin 32) : BitVec 5 := BitVec.ofFin r
/-- A register number or mask field in a four-bit field. -/
def enc4 (r : Fin 16) : BitVec 4 := BitVec.ofFin r
/-- A tile number in a two-bit field. -/
def enc2 (r : Fin 4) : BitVec 2 := BitVec.ofFin r

/-- Format S3 (R19). -/
def fmtS3 (op : BitVec 6) (d a b : BitVec 5) (fn : BitVec 11) : Word32 := op ++ d ++ a ++ b ++ fn
/-- Format SI (R19). -/
def fmtSI (op : BitVec 6) (d a : BitVec 5) (imm : BitVec 16) : Word32 := op ++ d ++ a ++ imm
/-- Format SU (R19). -/
def fmtSU (op : BitVec 6) (d : BitVec 5) (imm : BitVec 21) : Word32 := op ++ d ++ imm
/-- Format SB (R19). -/
def fmtSB (op : BitVec 6) (a b : BitVec 5) (cond : BitVec 3) (off : BitVec 13) : Word32 := op ++ a ++ b ++ cond ++ off
/-- Format SM (R19). -/
def fmtSM (op : BitVec 6) (d a : BitVec 5) (sz : BitVec 2) (off : BitVec 14) : Word32 := op ++ d ++ a ++ sz ++ off
/-- Format SMQ (R19). -/
def fmtSMQ (op : BitVec 6) (d a : BitVec 5) (sz qf : BitVec 2) (off : BitVec 12) : Word32 := op ++ d ++ a ++ sz ++ qf ++ off
/-- Format V3 (R19), rp and rs together. -/
def fmtV3 (op : BitVec 6) (vd va vb : BitVec 5) (rprs : BitVec 3) (mk fn : BitVec 4) : Word32 := op ++ vd ++ va ++ vb ++ rprs ++ mk ++ fn
/-- Format VI (R19). -/
def fmtVI (op : BitVec 6) (vd va : BitVec 5) (imm : BitVec 8) (mk fn : BitVec 4) : Word32 := op ++ vd ++ va ++ imm ++ mk ++ fn
/-- Format VM (R19). -/
def fmtVM (op : BitVec 6) (vd a x : BitVec 5) (ew qf : BitVec 2) (mk : BitVec 4) (md : BitVec 3) : Word32 := op ++ vd ++ a ++ x ++ ew ++ qf ++ mk ++ md
/-- Format VT (R19). -/
def fmtVT (op : BitVec 6) (fn : BitVec 3) (a b : BitVec 5) (off : BitVec 13) : Word32 := op ++ fn ++ a ++ b ++ off
/-- Format MX (R19). -/
def fmtMX (op : BitVec 6) (fn : BitVec 4) (p q c : BitVec 5) (fl : BitVec 7) : Word32 := op ++ fn ++ p ++ q ++ c ++ fl
/-- Format QE (R19). -/
def fmtQE (op : BitVec 6) (fn a b c : BitVec 5) (fl : BitVec 6) : Word32 := op ++ fn ++ a ++ b ++ c ++ fl
/-- Format RP (R19). -/
def fmtRP (op : BitVec 6) (n : BitVec 4) (reps : BitVec 6) (dd da db : BitVec 3) : Word32 := op ++ n ++ reps ++ dd ++ da ++ db ++ (0 : BitVec 7)

/-- A function code in [10:6] of an S3 word (R19). -/
def fn5 (c : BitVec 5) : BitVec 11 := c ++ (0 : BitVec 6)
/-- A mask, slot or tile number in a five-bit field (R22). -/
def wide4 (r : Fin 16) : BitVec 5 := (0 : BitVec 1) ++ enc4 r
/-- A tile number in a five-bit field (R22). -/
def wide2 (r : Fin 4) : BitVec 5 := (0 : BitVec 3) ++ enc2 r

/-- An ATOM word (R156). -/
def encAtom (code : BitVec 4) (d a b : SReg) (ord : Order) (sc : Scope) (dbl spad : Bool) : Word32 :=
  fmtS3 0x19 (enc5 d) (enc5 a) (enc5 b) (code ++ ord.code ++ sc.code ++ BitVec.ofBool dbl ++ BitVec.ofBool spad)

/-- The word of an instruction; none for an event, which has no word. -/
def encode (i : Instr) : Option Word32 :=
  match i with
  | .add d a b => some (fmtS3 0x01 (enc5 d) (enc5 a) (enc5 b) (fn5 0))
  | .sub d a b => some (fmtS3 0x01 (enc5 d) (enc5 a) (enc5 b) (fn5 1))
  | .mul d a b => some (fmtS3 0x01 (enc5 d) (enc5 a) (enc5 b) (fn5 2))
  | .mulh d a b => some (fmtS3 0x01 (enc5 d) (enc5 a) (enc5 b) (fn5 3))
  | .mulhw d a b => some (fmtS3 0x01 (enc5 d) (enc5 a) (enc5 b) (fn5 4))
  | .div d a b => some (fmtS3 0x01 (enc5 d) (enc5 a) (enc5 b) (fn5 5))
  | .divw d a b => some (fmtS3 0x01 (enc5 d) (enc5 a) (enc5 b) (fn5 6))
  | .rem d a b => some (fmtS3 0x01 (enc5 d) (enc5 a) (enc5 b) (fn5 7))
  | .remw d a b => some (fmtS3 0x01 (enc5 d) (enc5 a) (enc5 b) (fn5 8))
  | .and d a b => some (fmtS3 0x01 (enc5 d) (enc5 a) (enc5 b) (fn5 9))
  | .or d a b => some (fmtS3 0x01 (enc5 d) (enc5 a) (enc5 b) (fn5 10))
  | .xor d a b => some (fmtS3 0x01 (enc5 d) (enc5 a) (enc5 b) (fn5 11))
  | .andn d a b => some (fmtS3 0x01 (enc5 d) (enc5 a) (enc5 b) (fn5 12))
  | .sll d a b => some (fmtS3 0x01 (enc5 d) (enc5 a) (enc5 b) (fn5 13))
  | .srl d a b => some (fmtS3 0x01 (enc5 d) (enc5 a) (enc5 b) (fn5 14))
  | .sra d a b => some (fmtS3 0x01 (enc5 d) (enc5 a) (enc5 b) (fn5 15))
  | .rotl d a b => some (fmtS3 0x01 (enc5 d) (enc5 a) (enc5 b) (fn5 16))
  | .slt d a b => some (fmtS3 0x01 (enc5 d) (enc5 a) (enc5 b) (fn5 17))
  | .sltw d a b => some (fmtS3 0x01 (enc5 d) (enc5 a) (enc5 b) (fn5 18))
  | .min d a b => some (fmtS3 0x01 (enc5 d) (enc5 a) (enc5 b) (fn5 19))
  | .max d a b => some (fmtS3 0x01 (enc5 d) (enc5 a) (enc5 b) (fn5 20))
  | .minw d a b => some (fmtS3 0x01 (enc5 d) (enc5 a) (enc5 b) (fn5 21))
  | .maxw d a b => some (fmtS3 0x01 (enc5 d) (enc5 a) (enc5 b) (fn5 22))
  | .slli d a sh => some (fmtS3 0x02 (enc5 d) (enc5 a) (sh.extractLsb' 0 5) ((0 : BitVec 5) ++ (0 : BitVec 5) ++ sh.extractLsb' 5 1))
  | .srli d a sh => some (fmtS3 0x02 (enc5 d) (enc5 a) (sh.extractLsb' 0 5) ((1 : BitVec 5) ++ (0 : BitVec 5) ++ sh.extractLsb' 5 1))
  | .srai d a sh => some (fmtS3 0x02 (enc5 d) (enc5 a) (sh.extractLsb' 0 5) ((2 : BitVec 5) ++ (0 : BitVec 5) ++ sh.extractLsb' 5 1))
  | .rotli d a sh => some (fmtS3 0x02 (enc5 d) (enc5 a) (sh.extractLsb' 0 5) ((3 : BitVec 5) ++ (0 : BitVec 5) ++ sh.extractLsb' 5 1))
  | .clz d a => some (fmtS3 0x03 (enc5 d) (enc5 a) 0 (fn5 0))
  | .ctz d a => some (fmtS3 0x03 (enc5 d) (enc5 a) 0 (fn5 1))
  | .popc d a => some (fmtS3 0x03 (enc5 d) (enc5 a) 0 (fn5 2))
  | .sextb d a => some (fmtS3 0x03 (enc5 d) (enc5 a) 0 (fn5 3))
  | .sexth d a => some (fmtS3 0x03 (enc5 d) (enc5 a) 0 (fn5 4))
  | .sextw d a => some (fmtS3 0x03 (enc5 d) (enc5 a) 0 (fn5 5))
  | .zextw d a => some (fmtS3 0x03 (enc5 d) (enc5 a) 0 (fn5 6))
  | .bswap d a => some (fmtS3 0x03 (enc5 d) (enc5 a) 0 (fn5 7))
  | .addi d a imm => some (fmtSI 4 (enc5 d) (enc5 a) imm)
  | .andi d a imm => some (fmtSI 5 (enc5 d) (enc5 a) imm)
  | .ori d a imm => some (fmtSI 6 (enc5 d) (enc5 a) imm)
  | .xori d a imm => some (fmtSI 7 (enc5 d) (enc5 a) imm)
  | .slti d a imm => some (fmtSI 8 (enc5 d) (enc5 a) imm)
  | .sltwi d a imm => some (fmtSI 9 (enc5 d) (enc5 a) imm)
  | .lui d imm => some (fmtSU 0x0A (enc5 d) imm)
  | .aupc d imm => some (fmtSU 0x0B (enc5 d) imm)
  | .jal d off => some (fmtSU 0x0C (enc5 d) off)
  | .jalr d a off => some (fmtSI 0x0D (enc5 d) (enc5 a) off)
  | .beq a b off => some (fmtSB 0x0E (enc5 a) (enc5 b) 0 off)
  | .bne a b off => some (fmtSB 0x0E (enc5 a) (enc5 b) 1 off)
  | .blt a b off => some (fmtSB 0x0E (enc5 a) (enc5 b) 2 off)
  | .bge a b off => some (fmtSB 0x0E (enc5 a) (enc5 b) 3 off)
  | .bltw a b off => some (fmtSB 0x0E (enc5 a) (enc5 b) 4 off)
  | .bgew a b off => some (fmtSB 0x0E (enc5 a) (enc5 b) 5 off)
  | .loop a off => some (fmtSI 0x0F 0 (enc5 a) off)
  | .bstrip a off => some (fmtSB 0x10 (enc5 a) 0 0 off)
  | .svc => some (fmtS3 0x11 0 0 0 (fn5 0))
  | .tret => some (fmtS3 0x11 0 0 0 (fn5 1))
  | .brk => some (fmtS3 0x11 0 0 0 (fn5 2))
  | .halt => some (fmtS3 0x11 0 0 0 (fn5 3))
  | .idle => some (fmtS3 0x11 0 0 0 (fn5 4))
  | .fencei => some (fmtS3 0x11 0 0 0 (fn5 5))
  | .mark a => some (fmtS3 0x11 0 (enc5 a) 0 (fn5 6))
  | .csrr d csr => some (fmtSI 0x12 (enc5 d) 0 ((0 : BitVec 4) ++ csr))
  | .csrw d a csr => some (fmtSI 0x12 (enc5 d) (enc5 a) ((1 : BitVec 2) ++ (0 : BitVec 2) ++ csr))
  | .csrs d a csr => some (fmtSI 0x12 (enc5 d) (enc5 a) ((2 : BitVec 2) ++ (0 : BitVec 2) ++ csr))
  | .csrc d a csr => some (fmtSI 0x12 (enc5 d) (enc5 a) ((3 : BitVec 2) ++ (0 : BitVec 2) ++ csr))
  | .fadd d a b t rm => some (fmtS3 0x13 (enc5 d) (enc5 a) (enc5 b) ((0 : BitVec 5) ++ t.code ++ rm.code))
  | .fsub d a b t rm => some (fmtS3 0x13 (enc5 d) (enc5 a) (enc5 b) ((1 : BitVec 5) ++ t.code ++ rm.code))
  | .fmul d a b t rm => some (fmtS3 0x13 (enc5 d) (enc5 a) (enc5 b) ((2 : BitVec 5) ++ t.code ++ rm.code))
  | .fdiv d a b t rm => some (fmtS3 0x13 (enc5 d) (enc5 a) (enc5 b) ((3 : BitVec 5) ++ t.code ++ rm.code))
  | .fsqrt d a t rm => some (fmtS3 0x13 (enc5 d) (enc5 a) 0 ((4 : BitVec 5) ++ t.code ++ rm.code))
  | .fmin d a b t => some (fmtS3 0x13 (enc5 d) (enc5 a) (enc5 b) ((5 : BitVec 5) ++ t.code ++ (0 : BitVec 3)))
  | .fmax d a b t => some (fmtS3 0x13 (enc5 d) (enc5 a) (enc5 b) ((6 : BitVec 5) ++ t.code ++ (0 : BitVec 3)))
  | .fmacc d a b t rm => some (fmtS3 0x13 (enc5 d) (enc5 a) (enc5 b) ((7 : BitVec 5) ++ t.code ++ rm.code))
  | .fcmpeq d a b t => some (fmtS3 0x13 (enc5 d) (enc5 a) (enc5 b) ((8 : BitVec 5) ++ t.code ++ (0 : BitVec 3)))
  | .fcmplt d a b t => some (fmtS3 0x13 (enc5 d) (enc5 a) (enc5 b) ((9 : BitVec 5) ++ t.code ++ (0 : BitVec 3)))
  | .fcmple d a b t => some (fmtS3 0x13 (enc5 d) (enc5 a) (enc5 b) ((10 : BitVec 5) ++ t.code ++ (0 : BitVec 3)))
  | .fclass d a t => some (fmtS3 0x13 (enc5 d) (enc5 a) 0 ((11 : BitVec 5) ++ t.code ++ (0 : BitVec 3)))
  | .fcvt d a other toInt t rm => some (fmtS3 0x13 (enc5 d) (enc5 a) (BitVec.ofBool toInt ++ other.code) ((12 : BitVec 5) ++ t.code ++ rm.code))
  | .ld d a sz off => some (fmtSM 20 (enc5 d) (enc5 a) sz.code off)
  | .ldz d a sz off => some (fmtSM 21 (enc5 d) (enc5 a) sz.code off)
  | .st d a sz off => some (fmtSM 22 (enc5 d) (enc5 a) sz.code off)
  | .lds d a sz qf off => some (fmtSMQ 23 (enc5 d) (enc5 a) sz.code qf.code off)
  | .sts d a sz qf off => some (fmtSMQ 24 (enc5 d) (enc5 a) sz.code qf.code off)
  | .amoswap d a b ord sc dbl spad => some (encAtom 0 d a b ord sc dbl spad)
  | .amoadd d a b ord sc dbl spad => some (encAtom 1 d a b ord sc dbl spad)
  | .amoand d a b ord sc dbl spad => some (encAtom 2 d a b ord sc dbl spad)
  | .amoor d a b ord sc dbl spad => some (encAtom 3 d a b ord sc dbl spad)
  | .amoxor d a b ord sc dbl spad => some (encAtom 4 d a b ord sc dbl spad)
  | .amomin d a b ord sc dbl spad => some (encAtom 5 d a b ord sc dbl spad)
  | .amomax d a b ord sc dbl spad => some (encAtom 6 d a b ord sc dbl spad)
  | .amominw d a b ord sc dbl spad => some (encAtom 7 d a b ord sc dbl spad)
  | .amomaxw d a b ord sc dbl spad => some (encAtom 8 d a b ord sc dbl spad)
  | .amocas d a b ord sc dbl spad => some (encAtom 9 d a b ord sc dbl spad)
  | .fence kind sc => some (fmtS3 0x1A 0 0 0 (kind.code ++ sc.code ++ (0 : BitVec 5)))
  | .bar a => some (fmtS3 0x1B 0 (enc5 a) 0 (fn5 0))
  | .barr d a => some (fmtS3 0x1B (enc5 d) (enc5 a) 0 (fn5 1))
  | .barw a b => some (fmtS3 0x1B 0 (enc5 a) (enc5 b) (fn5 2))
  | .waitge a b => some (fmtS3 0x1B 0 (enc5 a) (enc5 b) (fn5 3))
  | .sigadd a b => some (fmtS3 0x1B 0 (enc5 a) (enc5 b) (fn5 4))
  | .waitt a => some (fmtS3 0x1B 0 (enc5 a) 0 (fn5 5))
  | .vsetvl d a vt => some (fmtS3 0x1C (enc5 d) (enc5 a) 0 (vt.code ++ (0 : BitVec 3)))
  | .vadd vd va vb rep mk => some (fmtV3 0x1d (enc5 vd) (enc5 va) (enc5 vb) rep.code (enc4 mk) 0)
  | .vsub vd va vb rep mk => some (fmtV3 0x1d (enc5 vd) (enc5 va) (enc5 vb) rep.code (enc4 mk) 1)
  | .vrsub vd va vb rep mk => some (fmtV3 0x1d (enc5 vd) (enc5 va) (enc5 vb) rep.code (enc4 mk) 2)
  | .vmul vd va vb rep mk => some (fmtV3 0x1d (enc5 vd) (enc5 va) (enc5 vb) rep.code (enc4 mk) 3)
  | .vmulh vd va vb rep mk => some (fmtV3 0x1d (enc5 vd) (enc5 va) (enc5 vb) rep.code (enc4 mk) 4)
  | .vmulhw vd va vb rep mk => some (fmtV3 0x1d (enc5 vd) (enc5 va) (enc5 vb) rep.code (enc4 mk) 5)
  | .vand vd va vb rep mk => some (fmtV3 0x1d (enc5 vd) (enc5 va) (enc5 vb) rep.code (enc4 mk) 6)
  | .vor vd va vb rep mk => some (fmtV3 0x1d (enc5 vd) (enc5 va) (enc5 vb) rep.code (enc4 mk) 7)
  | .vxor vd va vb rep mk => some (fmtV3 0x1d (enc5 vd) (enc5 va) (enc5 vb) rep.code (enc4 mk) 8)
  | .vsll vd va vb rep mk => some (fmtV3 0x1d (enc5 vd) (enc5 va) (enc5 vb) rep.code (enc4 mk) 9)
  | .vsrl vd va vb rep mk => some (fmtV3 0x1d (enc5 vd) (enc5 va) (enc5 vb) rep.code (enc4 mk) 10)
  | .vsra vd va vb rep mk => some (fmtV3 0x1d (enc5 vd) (enc5 va) (enc5 vb) rep.code (enc4 mk) 11)
  | .vmin vd va vb rep mk => some (fmtV3 0x1d (enc5 vd) (enc5 va) (enc5 vb) rep.code (enc4 mk) 12)
  | .vmax vd va vb rep mk => some (fmtV3 0x1d (enc5 vd) (enc5 va) (enc5 vb) rep.code (enc4 mk) 13)
  | .vminw vd va vb rep mk => some (fmtV3 0x1d (enc5 vd) (enc5 va) (enc5 vb) rep.code (enc4 mk) 14)
  | .vmaxw vd va vb rep mk => some (fmtV3 0x1d (enc5 vd) (enc5 va) (enc5 vb) rep.code (enc4 mk) 15)
  | .vabsd vd va vb rep mk => some (fmtV3 0x1e (enc5 vd) (enc5 va) (enc5 vb) rep.code (enc4 mk) 0)
  | .vsadd vd va vb rep mk => some (fmtV3 0x1e (enc5 vd) (enc5 va) (enc5 vb) rep.code (enc4 mk) 1)
  | .vssub vd va vb rep mk => some (fmtV3 0x1e (enc5 vd) (enc5 va) (enc5 vb) rep.code (enc4 mk) 2)
  | .vsaddw vd va vb rep mk => some (fmtV3 0x1e (enc5 vd) (enc5 va) (enc5 vb) rep.code (enc4 mk) 3)
  | .vssubw vd va vb rep mk => some (fmtV3 0x1e (enc5 vd) (enc5 va) (enc5 vb) rep.code (enc4 mk) 4)
  | .vmacc vd va vb rep mk => some (fmtV3 0x1e (enc5 vd) (enc5 va) (enc5 vb) rep.code (enc4 mk) 5)
  | .vnmsac vd va vb rep mk => some (fmtV3 0x1e (enc5 vd) (enc5 va) (enc5 vb) rep.code (enc4 mk) 6)
  | .vdot4 vd va vb rep mk => some (fmtV3 0x1e (enc5 vd) (enc5 va) (enc5 vb) rep.code (enc4 mk) 7)
  | .vdot4w vd va vb rep mk => some (fmtV3 0x1e (enc5 vd) (enc5 va) (enc5 vb) rep.code (enc4 mk) 8)
  | .vrshr vd va vb rep mk => some (fmtV3 0x1e (enc5 vd) (enc5 va) (enc5 vb) rep.code (enc4 mk) 9)
  | .vnclip vd va vb rep mk => some (fmtV3 0x1e (enc5 vd) (enc5 va) (enc5 vb) rep.code (enc4 mk) 10)
  | .vnclipw vd va vb rep mk => some (fmtV3 0x1e (enc5 vd) (enc5 va) (enc5 vb) rep.code (enc4 mk) 11)
  | .vfadd vd va vb rep mk => some (fmtV3 0x1f (enc5 vd) (enc5 va) (enc5 vb) rep.code (enc4 mk) 0)
  | .vfsub vd va vb rep mk => some (fmtV3 0x1f (enc5 vd) (enc5 va) (enc5 vb) rep.code (enc4 mk) 1)
  | .vfmul vd va vb rep mk => some (fmtV3 0x1f (enc5 vd) (enc5 va) (enc5 vb) rep.code (enc4 mk) 2)
  | .vfdiv vd va vb rep mk => some (fmtV3 0x1f (enc5 vd) (enc5 va) (enc5 vb) rep.code (enc4 mk) 3)
  | .vfsqrt vd va mk => some (fmtV3 0x1f (enc5 vd) (enc5 va) 0 0 (enc4 mk) 4)
  | .vfmin vd va vb rep mk => some (fmtV3 0x1f (enc5 vd) (enc5 va) (enc5 vb) rep.code (enc4 mk) 5)
  | .vfmax vd va vb rep mk => some (fmtV3 0x1f (enc5 vd) (enc5 va) (enc5 vb) rep.code (enc4 mk) 6)
  | .vfmacc vd va vb rep mk => some (fmtV3 0x1f (enc5 vd) (enc5 va) (enc5 vb) rep.code (enc4 mk) 7)
  | .vfnmacc vd va vb rep mk => some (fmtV3 0x1f (enc5 vd) (enc5 va) (enc5 vb) rep.code (enc4 mk) 8)
  | .vfmsac vd va vb rep mk => some (fmtV3 0x1f (enc5 vd) (enc5 va) (enc5 vb) rep.code (enc4 mk) 9)
  | .vfabs vd va mk => some (fmtV3 0x1f (enc5 vd) (enc5 va) 0 0 (enc4 mk) 10)
  | .vfneg vd va mk => some (fmtV3 0x1f (enc5 vd) (enc5 va) 0 0 (enc4 mk) 11)
  | .vfsgnj vd va vb rep mk => some (fmtV3 0x1f (enc5 vd) (enc5 va) (enc5 vb) rep.code (enc4 mk) 12)
  | .vfexp2 vd va mk => some (fmtV3 0x1f (enc5 vd) (enc5 va) 0 0 (enc4 mk) 13)
  | .vfrcp vd va mk => some (fmtV3 0x1f (enc5 vd) (enc5 va) 0 0 (enc4 mk) 14)
  | .vfclass vd va mk => some (fmtV3 0x1f (enc5 vd) (enc5 va) 0 0 (enc4 mk) 15)
  | .vcmpeq md va vb rep mk => some (fmtV3 0x20 (wide4 md) (enc5 va) (enc5 vb) rep.code (enc4 mk) 0)
  | .vcmpne md va vb rep mk => some (fmtV3 0x20 (wide4 md) (enc5 va) (enc5 vb) rep.code (enc4 mk) 1)
  | .vcmplt md va vb rep mk => some (fmtV3 0x20 (wide4 md) (enc5 va) (enc5 vb) rep.code (enc4 mk) 2)
  | .vcmple md va vb rep mk => some (fmtV3 0x20 (wide4 md) (enc5 va) (enc5 vb) rep.code (enc4 mk) 3)
  | .vcmpgt md va vb rep mk => some (fmtV3 0x20 (wide4 md) (enc5 va) (enc5 vb) rep.code (enc4 mk) 4)
  | .vcmpge md va vb rep mk => some (fmtV3 0x20 (wide4 md) (enc5 va) (enc5 vb) rep.code (enc4 mk) 5)
  | .vcmpltw md va vb rep mk => some (fmtV3 0x20 (wide4 md) (enc5 va) (enc5 vb) rep.code (enc4 mk) 6)
  | .vcmplew md va vb rep mk => some (fmtV3 0x20 (wide4 md) (enc5 va) (enc5 vb) rep.code (enc4 mk) 7)
  | .vcmpgtw md va vb rep mk => some (fmtV3 0x20 (wide4 md) (enc5 va) (enc5 vb) rep.code (enc4 mk) 8)
  | .vcmpgew md va vb rep mk => some (fmtV3 0x20 (wide4 md) (enc5 va) (enc5 vb) rep.code (enc4 mk) 9)
  | .vfcmpeq md va vb rep mk => some (fmtV3 0x20 (wide4 md) (enc5 va) (enc5 vb) rep.code (enc4 mk) 10)
  | .vfcmpne md va vb rep mk => some (fmtV3 0x20 (wide4 md) (enc5 va) (enc5 vb) rep.code (enc4 mk) 11)
  | .vfcmplt md va vb rep mk => some (fmtV3 0x20 (wide4 md) (enc5 va) (enc5 vb) rep.code (enc4 mk) 12)
  | .vfcmple md va vb rep mk => some (fmtV3 0x20 (wide4 md) (enc5 va) (enc5 vb) rep.code (enc4 mk) 13)
  | .vfcmpgt md va vb rep mk => some (fmtV3 0x20 (wide4 md) (enc5 va) (enc5 vb) rep.code (enc4 mk) 14)
  | .vfcmpge md va vb rep mk => some (fmtV3 0x20 (wide4 md) (enc5 va) (enc5 vb) rep.code (enc4 mk) 15)
  | .vmand md ma mb => some (fmtV3 0x21 (wide4 md) (wide4 ma) (wide4 mb) 0 0 0)
  | .vmor md ma mb => some (fmtV3 0x21 (wide4 md) (wide4 ma) (wide4 mb) 0 0 1)
  | .vmxor md ma mb => some (fmtV3 0x21 (wide4 md) (wide4 ma) (wide4 mb) 0 0 2)
  | .vmandn md ma mb => some (fmtV3 0x21 (wide4 md) (wide4 ma) (wide4 mb) 0 0 3)
  | .vmnot md ma => some (fmtV3 0x21 (wide4 md) (wide4 ma) 0 0 0 4)
  | .vmset md => some (fmtV3 0x21 (wide4 md) 0 0 0 0 5)
  | .vmclr md => some (fmtV3 0x21 (wide4 md) 0 0 0 0 6)
  | .vmsbf md ma => some (fmtV3 0x21 (wide4 md) (wide4 ma) 0 0 0 7)
  | .viota vd ma => some (fmtV3 0x21 (enc5 vd) (wide4 ma) 0 0 0 8)
  | .vmcnt d ma => some (fmtV3 0x21 (enc5 d) (wide4 ma) 0 0 0 9)
  | .vmany d ma => some (fmtV3 0x21 (enc5 d) (wide4 ma) 0 0 0 10)
  | .vmfirst d ma => some (fmtV3 0x21 (enc5 d) (wide4 ma) 0 0 0 11)
  | .vmfm md => some (fmtV3 0x21 (wide4 md) 0 0 0 0 12)
  | .vredsum vd va vb mk => some (fmtV3 0x22 (enc5 vd) (enc5 va) (enc5 vb) 0 (enc4 mk) 0)
  | .vredmax vd va vb mk => some (fmtV3 0x22 (enc5 vd) (enc5 va) (enc5 vb) 0 (enc4 mk) 1)
  | .vredmin vd va vb mk => some (fmtV3 0x22 (enc5 vd) (enc5 va) (enc5 vb) 0 (enc4 mk) 2)
  | .vredmaxw vd va vb mk => some (fmtV3 0x22 (enc5 vd) (enc5 va) (enc5 vb) 0 (enc4 mk) 3)
  | .vredminw vd va vb mk => some (fmtV3 0x22 (enc5 vd) (enc5 va) (enc5 vb) 0 (enc4 mk) 4)
  | .vredand vd va vb mk => some (fmtV3 0x22 (enc5 vd) (enc5 va) (enc5 vb) 0 (enc4 mk) 5)
  | .vredor vd va vb mk => some (fmtV3 0x22 (enc5 vd) (enc5 va) (enc5 vb) 0 (enc4 mk) 6)
  | .vfredsum vd va vb mk => some (fmtV3 0x22 (enc5 vd) (enc5 va) (enc5 vb) 0 (enc4 mk) 7)
  | .vfredusum vd va vb mk => some (fmtV3 0x22 (enc5 vd) (enc5 va) (enc5 vb) 0 (enc4 mk) 8)
  | .vfredmax vd va vb mk => some (fmtV3 0x22 (enc5 vd) (enc5 va) (enc5 vb) 0 (enc4 mk) 9)
  | .vfredmin vd va vb mk => some (fmtV3 0x22 (enc5 vd) (enc5 va) (enc5 vb) 0 (enc4 mk) 10)
  | .vbscale vd va vb mk => some (fmtV3 0x22 (enc5 vd) (enc5 va) (enc5 vb) 0 (enc4 mk) 11)
  | .vslideup vd va b mk => some (fmtV3 0x23 (enc5 vd) (enc5 va) (enc5 b) 0 (enc4 mk) 0)
  | .vslidedn vd va b mk => some (fmtV3 0x23 (enc5 vd) (enc5 va) (enc5 b) 0 (enc4 mk) 1)
  | .vrgather vd va vb mk => some (fmtV3 0x23 (enc5 vd) (enc5 va) (enc5 vb) 0 (enc4 mk) 2)
  | .vcompress vd va mb => some (fmtV3 0x23 (enc5 vd) (enc5 va) (wide4 mb) 0 0 3)
  | .vmv vd va mk => some (fmtV3 0x23 (enc5 vd) (enc5 va) 0 0 (enc4 mk) 4)
  | .vmvsx vd a mk => some (fmtV3 0x23 (enc5 vd) (enc5 a) 0 0 (enc4 mk) 5)
  | .vmerge vd va vb mk => some (fmtV3 0x23 (enc5 vd) (enc5 va) (enc5 vb) 0 (enc4 mk) 6)
  | .vcvt vd va src sat rm mk dst => some (fmtV3 0x24 (enc5 vd) (enc5 va) (src.code ++ BitVec.ofBool sat) rm.code (enc4 mk) dst.code)
  | .vaddi vd va imm mk => some (fmtVI 0x25 (enc5 vd) (enc5 va) imm (enc4 mk) 0)
  | .vrsubi vd va imm mk => some (fmtVI 0x25 (enc5 vd) (enc5 va) imm (enc4 mk) 1)
  | .vandi vd va imm mk => some (fmtVI 0x25 (enc5 vd) (enc5 va) imm (enc4 mk) 2)
  | .vori vd va imm mk => some (fmtVI 0x25 (enc5 vd) (enc5 va) imm (enc4 mk) 3)
  | .vxori vd va imm mk => some (fmtVI 0x25 (enc5 vd) (enc5 va) imm (enc4 mk) 4)
  | .vslli vd va imm mk => some (fmtVI 0x25 (enc5 vd) (enc5 va) imm (enc4 mk) 5)
  | .vsrli vd va imm mk => some (fmtVI 0x25 (enc5 vd) (enc5 va) imm (enc4 mk) 6)
  | .vsrai vd va imm mk => some (fmtVI 0x25 (enc5 vd) (enc5 va) imm (enc4 mk) 7)
  | .vrshri vd va imm mk => some (fmtVI 0x25 (enc5 vd) (enc5 va) imm (enc4 mk) 8)
  | .vslideupi vd va imm mk => some (fmtVI 0x25 (enc5 vd) (enc5 va) imm (enc4 mk) 9)
  | .vslidedni vd va imm mk => some (fmtVI 0x25 (enc5 vd) (enc5 va) imm (enc4 mk) 10)
  | .vmvi vd imm mk => some (fmtVI 0x25 (enc5 vd) 0 imm (enc4 mk) 11)
  | .vld vd a ew mk => some (fmtVM 0x26 (enc5 vd) (enc5 a) 0 ew.code 0 (enc4 mk) 0)
  | .vldk vd a x ew mk => some (fmtVM 0x26 (enc5 vd) (enc5 a) (enc5 x) ew.code 0 (enc4 mk) 1)
  | .vldx vd a vx ew mk => some (fmtVM 0x26 (enc5 vd) (enc5 a) (enc5 vx) ew.code 0 (enc4 mk) 2)
  | .vst vd a ew mk => some (fmtVM 0x27 (enc5 vd) (enc5 a) 0 ew.code 0 (enc4 mk) 0)
  | .vstk vd a x ew mk => some (fmtVM 0x27 (enc5 vd) (enc5 a) (enc5 x) ew.code 0 (enc4 mk) 1)
  | .vstx vd a vx ew mk => some (fmtVM 0x27 (enc5 vd) (enc5 a) (enc5 vx) ew.code 0 (enc4 mk) 2)
  | .vstxo vd a vx ew mk => some (fmtVM 0x27 (enc5 vd) (enc5 a) (enc5 vx) ew.code 0 (enc4 mk) 3)
  | .vlp vd a ew qf mk => some (fmtVM 0x28 (enc5 vd) (enc5 a) 0 ew.code qf.code (enc4 mk) 0)
  | .vlpk vd a x ew qf mk => some (fmtVM 0x28 (enc5 vd) (enc5 a) (enc5 x) ew.code qf.code (enc4 mk) 1)
  | .vlpx vd a vx ew qf mk => some (fmtVM 0x28 (enc5 vd) (enc5 a) (enc5 vx) ew.code qf.code (enc4 mk) 2)
  | .vlpl vd a ew qf mk => some (fmtVM 0x28 (enc5 vd) (enc5 a) 0 ew.code qf.code (enc4 mk) 4)
  | .vsp vd a ew qf mk => some (fmtVM 0x29 (enc5 vd) (enc5 a) 0 ew.code qf.code (enc4 mk) 0)
  | .vspk vd a x ew qf mk => some (fmtVM 0x29 (enc5 vd) (enc5 a) (enc5 x) ew.code qf.code (enc4 mk) 1)
  | .vspx vd a vx ew qf mk => some (fmtVM 0x29 (enc5 vd) (enc5 a) (enc5 vx) ew.code qf.code (enc4 mk) 2)
  | .vspxo vd a vx ew qf mk => some (fmtVM 0x29 (enc5 vd) (enc5 a) (enc5 vx) ew.code qf.code (enc4 mk) 3)
  | .vspl vd a ew qf mk => some (fmtVM 0x29 (enc5 vd) (enc5 a) 0 ew.code qf.code (enc4 mk) 4)
  | .vsbind r a => some (fmtVM 0x2A ((3 : BitVec 2) ++ (BitVec.ofFin r : BitVec 3)) (enc5 a) 0 0 0 0 0)
  | .vsunbind vd => some (fmtVM 0x2A (enc5 vd) 0 0 0 0 0 1)
  | .vspill vd a => some (fmtVM 0x2A (enc5 vd) (enc5 a) 0 0 0 0 2)
  | .vfill vd a => some (fmtVM 0x2A (enc5 vd) (enc5 a) 0 0 0 0 3)
  | .vf count off => some (fmtVT 0x2B 0 0 (enc5 count + 1) off)
  | .vpbr ma clr off => some (fmtVT 0x2B 1 (wide4 ma) ((0 : BitVec 4) ++ BitVec.ofBool clr) off)
  | .vpjmp off => some (fmtVT 0x2B 2 0 0 off)
  | .vpstop => some (fmtVT 0x2B 3 0 0 0)
  | .vjoin => some (fmtVT 0x2B 4 0 0 0)
  | .vrel => some (fmtVT 0x2B 5 0 0 0)
  | .rpt n reps dd da db => some (fmtRP 0x2C ((BitVec.ofFin n : BitVec 4) + 1) ((BitVec.ofFin reps : BitVec 6) + 1) (BitVec.ofFin dd : BitVec 3) (BitVec.ofFin da : BitVec 3) (BitVec.ofFin db : BitVec 3))
  | .mshape d a cls => some (fmtMX 0x2D 0 (enc5 d) (enc5 a) 0 ((0 : BitVec 5) ++ cls.code))
  | .mclaim d a => some (fmtMX 0x2D 1 (enc5 d) (enc5 a) 0 0)
  | .mrelease a => some (fmtMX 0x2D 2 0 (enc5 a) 0 0)
  | .mfill p a c t scl bnd wait => some (fmtMX 0x2D 3 (wide4 p) (enc5 a) (enc5 c) (BitVec.ofBool wait ++ BitVec.ofBool bnd ++ BitVec.ofBool scl ++ t.elem.code))
  | .mwload p => some (fmtMX 0x2D 4 (wide4 p) 0 0 0)
  | .mmac p q c t rs x z => some (fmtMX 0x2D 5 (wide2 p) (wide4 q) (wide2 c) (BitVec.ofBool z ++ BitVec.ofBool x ++ BitVec.ofBool rs ++ t.elem.code))
  | .mzero p => some (fmtMX 0x2D 6 (wide2 p) 0 0 0)
  | .msoft p q c => some (fmtMX 0x2D 7 (wide2 p) (wide4 q) (wide2 c) 0)
  | .mdrain vd q c t sat => some (fmtMX 0x2D 8 (enc5 vd) (wide2 q) (enc5 c) ((0 : BitVec 1) ++ BitVec.ofBool sat ++ (0 : BitVec 1) ++ t.elem.code))
  | .mdrainSpad q c t sat bnd => some (fmtMX 0x2D 8 0 (wide2 q) (enc5 c) (BitVec.ofBool bnd ++ BitVec.ofBool sat ++ (1 : BitVec 1) ++ t.elem.code))
  | .mdrainc vd q c t sat => some (fmtMX 0x2D 9 (enc5 vd) (wide2 q) (enc5 c) ((0 : BitVec 1) ++ BitVec.ofBool sat ++ (0 : BitVec 1) ++ t.elem.code))
  | .mnorm p => some (fmtMX 0x2D 10 (wide2 p) 0 0 0)
  | .msaveTile a q => some (fmtMX 0x2D 11 (enc5 a) (wide2 q) 0 0)
  | .msaveSlot a c => some (fmtMX 0x2D 11 (enc5 a) 0 (wide4 c) 1)
  | .mrestTile a q => some (fmtMX 0x2D 12 (enc5 a) (wide2 q) 0 0)
  | .mrestSlot a c => some (fmtMX 0x2D 12 (enc5 a) 0 (wide4 c) 1)
  | .mbread vd q f => some (fmtMX 0x2D 13 (enc5 vd) (wide2 q) 0 ((0 : BitVec 5) ++ f.code))
  | .vbget vd va => some (fmtV3 0x2E (enc5 vd) (enc5 va) 0 0 0 0)
  | .vbset vd va => some (fmtV3 0x2E (enc5 vd) (enc5 va) 0 0 0 1)
  | .vstb vd a spad => some (fmtV3 0x2E (enc5 vd) (enc5 a) ((0 : BitVec 4) ++ BitVec.ofBool spad) 0 0 2)
  | .vldb vd a spad => some (fmtV3 0x2E (enc5 vd) (enc5 a) ((0 : BitVec 4) ++ BitVec.ofBool spad) 0 0 3)
  | .cpa a b c fl => some (fmtQE 0x2F 0 (enc5 a) (enc5 b) (enc5 c) (fl.code ++ (0 : BitVec 1)))
  | .cpaRes a fl => some (fmtQE 0x2F 0 (enc5 a) 0 0 (fl.code ++ (1 : BitVec 1)))
  | .senq a b c => some (fmtQE 0x2F 1 (enc5 a) (enc5 b) (enc5 c) 0)
  | .abinit a b c => some (fmtQE 0x2F 2 (enc5 a) (enc5 b) (enc5 c) 0)
  | .abwait a b => some (fmtQE 0x2F 3 (enc5 a) (enc5 b) 0 0)
  | .abrel a b => some (fmtQE 0x2F 4 (enc5 a) (enc5 b) 0 0)
  | .cpq a c => some (fmtQE 0x2F 5 (enc5 a) 0 (enc5 c) 0)
  | .qwr a b fl => some (fmtQE 0x30 0 (enc5 a) (enc5 b) 0 fl.code)
  | .qfold a b fl => some (fmtQE 0x30 1 (enc5 a) (enc5 b) 0 fl.code)
  | .qdot a b c fl => some (fmtQE 0x30 2 (enc5 a) (enc5 b) (enc5 c) fl.code)
  | .qfsum a b c fl => some (fmtQE 0x30 3 (enc5 a) (enc5 b) (enc5 c) fl.code)
  | .qcnt a b c fl => some (fmtQE 0x30 4 (enc5 a) (enc5 b) (enc5 c) fl.code)
  | .qmaxi a b c fl => some (fmtQE 0x30 5 (enc5 a) (enc5 b) (enc5 c) fl.code)
  | .qtopk a b c fl => some (fmtQE 0x30 6 (enc5 a) (enc5 b) (enc5 c) fl.code)
  | .qattn a b c fl => some (fmtQE 0x30 7 (enc5 a) (enc5 b) (enc5 c) fl.code)
  | .qupd a b c fl => some (fmtQE 0x30 8 (enc5 a) (enc5 b) (enc5 c) fl.code)
  | .qmig a b c fl => some (fmtQE 0x30 9 (enc5 a) (enc5 b) (enc5 c) (fl.code ++ (0 : BitVec 1)))
  | .qseal a b c fl => some (fmtQE 0x30 10 (enc5 a) (enc5 b) (enc5 c) (fl.code ++ (0 : BitVec 1)))
  | .qunseal a b c fl => some (fmtQE 0x30 11 (enc5 a) (enc5 b) (enc5 c) (fl.code ++ (0 : BitVec 1)))
  | .tspawn a c => some (fmtQE 0x31 0 (enc5 a) 0 (enc5 c) 0)
  | .tdone => some (fmtQE 0x31 1 0 0 0 0)
  | .tyield => some (fmtQE 0x31 2 0 0 0 0)
  | .tlaunch a b c gang => some (fmtQE 0x31 3 (enc5 a) (enc5 b) (enc5 c) ((0 : BitVec 5) ++ BitVec.ofBool gang))
  | .fullEmptyWaitReady _ _ => none
  | .fenceComplete _ _ => none
  | .barrierPhaseComplete _ _ _ => none
  | .waitgeWake _ _ => none
  | .waittComplete _ _ => none
  | .streamRefill _ _ => none
  | .laneRelease _ _ => none
  | .lanesAcquired _ _ => none
  | .blockJoin _ => none
  | .autoReissue _ => none
  | .copyStripLands _ _ => none
  | .abwaitComplete _ _ => none
  | .querySubcommandComplete _ _ => none
  | .migrationCopyStart _ => none
  | .migrationCommit _ => none
  | .sealImageWritten _ => none
  | .unsealVerified _ => none
  | .launchStartTick _ => none
  | .nodeAged _ _ => none
  | .gangProposal _ _ _ => none
  | .gangCancel _ => none
  | .gangProposalTimeout _ => none
  | .segmentStart _ => none
  | .cmdStream _ => none
  | .cmdFold _ => none
  | .cmdSignal _ => none
  | .cmdWait _ => none
  | .engineWaitSatisfied _ => none
  | .cmdRepeat _ => none
  | .cmdLink _ => none
  | .cmdStop _ => none
  | .engineStripLands _ _ => none
  | .segmentEnd _ => none
  | .commandFault _ => none
  | .translationExpiry _ => none
  | .leaseRenewal _ _ => none
  | .timeBeacon => none
  | .gangTimeBeacon _ => none
  | .budgetPublication _ => none
  | .throttleRaise _ _ => none
  | .throttleStepDown _ => none
  | .sliceEnd _ _ => none
  | .leWrite _ _ _ => none
  | .lsWrite _ _ _ => none
  | .tfbufWrite _ _ _ => none
  | .counterConfigure _ _ _ => none
  | .counterCountWrite _ _ _ => none
  | .counterSample _ => none
  | .registerWrite _ _ _ _ => none
  | .xyieldWrite _ _ => none
  | .partitionHalt _ => none
  | .partitionResume _ => none
  | .moveOut _ => none
  | .moveIn _ => none
  | .partitionReset _ => none
  | .scrubComplete _ => none
  | .functionLevelReset _ => none
  | .submissionDoorbell _ _ => none
  | .submitLaunch _ => none
  | .submitGangLaunch _ => none
  | .submitPartitionHalt _ => none
  | .submitPartitionResume _ => none
  | .pageRequestResponse _ _ _ _ => none
  | .hypervisorClaim _ _ _ => none
  | .hypervisorRelease _ _ _ => none
  | .debugHaltRequest _ => none
  | .debugResumeRequest _ => none
  | .triggerHit _ _ _ => none
  | .abstractRegister => none
  | .abstractMemory => none
  | .abstractElementRange => none
  | .abstractGranule => none
  | .abstractAccumulatorRow => none
  | .mcstatClear _ _ => none
  | .machineCheckLog _ => none
  | .containedMachineCheck _ _ => none
  | .linkFailure _ => none
  | .backgroundScrub => none
  | .powerOnReset => none
  | .moduleReset => none
  | .bootStageTimeout => none
  | .illegalInstruction _ => none
  | .instructionFetchFault => none
  | .inboundPostedWrite _ _ _ _ => none
  | .choahPeerAccess _ _ => none
  | .atsInvalidation _ _ => none
  | .debugEnableRequest _ _ => none
  | .bootStageReady _ _ => none
  | .hamperExchangeComplete _ => none
  | .contextMoveComplete _ => none

end Sys2Proof
end

