-- ==== Sys2Proof/Config.lean ====
section
/-!
DEFINITION. What an implementation fixes and what the manual leaves open: uninterpreted constants with no body.
A statement that holds of the model holds for every value of these.
-/

namespace Sys2Proof.Config

/-- Nanoseconds that pass when no agent named by the agenda moves, by free-value number (log 14: timing is left open). -/
opaque stepTicks : Nat → Nat
/-- Cycles, and how they are classified, that a passing of time brings to a core's counters: free-value number, and which
counter of the module (R351, R352; log 14). -/
opaque stepCycles : Nat → Nat → Nat
/-- Which of the values allowed within 1 ulp an exp2 returns for an operand (R224, R270, R107; log 15). -/
opaque exp2Choice : Nat → Nat → Nat
/-- Which of the values allowed within 1 ulp vfrcp returns for an operand (R224; log 15). -/
opaque rcpChoice : Nat → Nat → Nat
/-- Whether bytes of a register at or above its high-water mark read zero or their previous value after
vector state is restored, by free-value number (R180; log 11). -/
opaque keepsDeadBytes : Nat → Bool
/-- Which element survives where an unordered scatter writes one byte more than once: true takes the
candidate element over the one already chosen, by free-value number (R86; log 16). -/
opaque scatterTakesLater : Nat → Bool
/-- Which two terms a sum fold of unordered kind adds next, and whether it adds any now, by free-value number and
step (R136; log 16). -/
opaque foldPick : Nat → Nat → Nat
/-- Keystream bytes of a partition's sealing key under an IV (R119; log 9): partition, IV, byte index. -/
opaque sealKeystream : Nat → Nat → Nat → BitVec 8
/-- The GCM tag of a partition's sealing key: partition, IV, additional data, ciphertext (R119; log 9). -/
opaque sealTag : Nat → Nat → List (BitVec 8) → List (BitVec 8) → BitVec 128
/-- The IV that a partition's IV counter gives (R119: it never repeats; log 9). -/
opaque sealIv : Nat → Nat → BitVec 96
/-- A value that the manual leaves open, drawn afresh each time: free-value number (log 2). -/
opaque freeValue : Nat → BitVec 64
/-- The budget that the budget unit forms for a compute die from its temperature and telemetry: free-value number, die (R302; log 2). -/
opaque freeBudget : Nat → Nat → BitVec 24
/-- The digest of an image that failed before it was measured (R338; log 56): free-value number. -/
opaque freeDigest : Nat → BitVec 512

end Sys2Proof.Config
end

