-- ==== Sys2Proof/Machine/Num.lean ====
section
/-!
DEFINITION. Number formats, rounding and exact arithmetic (spec 13): every operation forms its result exactly, as a dyadic
or a quotient, and rounds once.
-/

namespace Sys2Proof.Machine

/-! ## Exact dyadic numbers -/

/-- The exact number m·2^e. -/
structure Dy where
  m : Int
  e : Int
deriving DecidableEq, Repr

namespace Dyadic

/-- 2^e as a nonnegative multiple: `n` shifted left by `k` when k ≥ 0. -/
def shl (n : Int) (k : Int) : Int := n * (2 ^ k.toNat : Nat)

/-- Exact sum. -/
def add (a b : Dy) : Dy :=
  if a.m = 0 then b
  else if b.m = 0 then a
  else if a.e ≤ b.e then ⟨a.m + shl b.m (b.e - a.e), a.e⟩
  else ⟨shl a.m (a.e - b.e) + b.m, b.e⟩
/-- Exact product. -/
def mul (a b : Dy) : Dy := ⟨a.m * b.m, a.e + b.e⟩
/-- Negation. -/
def neg (a : Dy) : Dy := ⟨-a.m, a.e⟩
/-- Exact difference. -/
def sub (a b : Dy) : Dy := add a (neg b)
/-- Magnitude. -/
def abs (a : Dy) : Dy := ⟨(a.m.natAbs : Int), a.e⟩
/-- a < b. -/
def lt (a b : Dy) : Bool := (sub a b).m < 0
/-- a = b as numbers. -/
def eq (a b : Dy) : Bool := (sub a b).m = 0
/-- The larger of two. -/
def max (a b : Dy) : Dy := if lt a b then b else a
/-- 2^k. -/
def pow2 (k : Int) : Dy := ⟨1, k⟩
/-- The integer n. -/
def ofInt (n : Int) : Dy := ⟨n, 0⟩
/-- Zero. -/
def zero : Dy := ⟨0, 0⟩
/-- floor(log2 |a|) of a nonzero number. -/
def log2 (a : Dy) : Int := (Nat.log2 a.m.natAbs : Int) + a.e
/-- Truncation toward zero at the quantum 2^q (R266). -/
def truncAt (a : Dy) (q : Int) : Dy :=
  if q ≤ a.e then a else ⟨a.m.tdiv (2 ^ (q - a.e).toNat : Nat), q⟩
/-- Exact sum of a list. -/
def sum (l : List Dy) : Dy := l.foldl add zero

end Dyadic

/-! ## Formats -/

/-- A floating format (R233): exponent and fraction widths and bias. -/
structure Fmt where
  ebits : Nat
  fbits : Nat
  bias : Int
deriving DecidableEq, Repr

/-- Layout of the floating types (R233); ds8 and the integer types have none of their own and read as e2m1's. -/
def fmtOf (t : ElemType) : Fmt :=
  match t with
  | .f64 => ⟨11, 52, 1023⟩
  | .f32 => ⟨8, 23, 127⟩
  | .bf16 => ⟨8, 7, 127⟩
  | .f16 => ⟨5, 10, 15⟩
  | .e5m2 => ⟨5, 2, 15⟩
  | .e4m3 => ⟨4, 3, 7⟩
  | _ => ⟨2, 1, 1⟩

/-- Exponent of the smallest normal. -/
def Fmt.emin (f : Fmt) : Int := 1 - f.bias

/-- A decoded floating value. A NaN keeps whether it signals. -/
inductive FVal where
  | nan (signalling : Bool)
  | inf (neg : Bool)
  /-- (−1)^neg · mag · 2^e. -/
  | fin (neg : Bool) (mag : Nat) (e : Int)
deriving DecidableEq, Repr

/-- The exact value of a finite value; 0 otherwise. -/
def FVal.dy (v : FVal) : Dy :=
  match v with
  | .fin n m e => ⟨if n then -(m : Int) else m, e⟩
  | _ => ⟨0, 0⟩
/-- The sign bit of a number. -/
def FVal.neg (v : FVal) : Bool :=
  match v with
  | .nan _ => false | .inf n => n | .fin n _ _ => n
/-- The value is a NaN. -/
def FVal.isNan (v : FVal) : Bool := match v with | .nan _ => true | _ => false
/-- The value is a signalling NaN. -/
def FVal.isSnan (v : FVal) : Bool := match v with | .nan s => s | _ => false
/-- The value is infinite. -/
def FVal.isInf (v : FVal) : Bool := match v with | .inf _ => true | _ => false
/-- The value is zero. -/
def FVal.isZero (v : FVal) : Bool := match v with | .fin _ 0 _ => true | _ => false
/-- The value is finite. -/
def FVal.isFin (v : FVal) : Bool := match v with | .fin .. => true | _ => false
/-- The opposite number. -/
def FVal.negate (v : FVal) : FVal :=
  match v with
  | .nan s => .nan s | .inf n => .inf (!n) | .fin n m e => .fin (!n) m e

/-- One term of a DS8 code: sign bit and shift code, in 64ths (R236). -/
def ds8Term (s c : Nat) : Int := if c = 7 then 0 else (if s = 1 then -1 else 1) * (2 ^ (6 - c) : Nat)
/-- A DS8 byte's value in 64ths (R236). -/
def ds8Value (x : Nat) : Int := ds8Term (bitsOf x 7 1) (bitsOf x 4 3) + ds8Term (bitsOf x 3 1) (bitsOf x 0 3)

/-- The canonical codes of the positive DS8 values: (64·value, code) (R237). -/
def ds8Table : List (Nat × Nat) :=
  [(1, 0x67), (2, 0x57), (3, 0x56), (4, 0x47), (5, 0x46), (6, 0x45), (7, 0x3E), (8, 0x37), (9, 0x36), (10, 0x35),
   (12, 0x34), (14, 0x2D), (15, 0x2E), (16, 0x27), (17, 0x26), (18, 0x25), (20, 0x24), (24, 0x23), (28, 0x1C), (30, 0x1D)] ++
  [(31, 0x1E), (32, 0x17), (33, 0x16), (34, 0x15), (36, 0x14), (40, 0x13), (48, 0x12), (56, 0x0B), (60, 0x0C), (62, 0x0D),
   (63, 0x0E), (64, 0x07), (65, 0x06), (66, 0x05), (68, 0x04), (72, 0x03), (80, 0x02), (96, 0x01), (128, 0x00)]

/-- A DS8 magnitude has one term in its canonical code (R237). -/
def ds8OneTerm (n : Nat) : Bool := n != 0 && n ≤ 64 && 2 ^ Nat.log2 n == n

/-- The value of the bits `x` of floating type `t` (R233 to R236). -/
def fval (t : ElemType) (x : Nat) : FVal :=
  match t with
  | .ds8 => let v := ds8Value x; .fin (v < 0) v.natAbs (-6)
  | _ =>
    let f := fmtOf t
    let s := bitsOf x (f.ebits + f.fbits) 1 == 1
    let ex := bitsOf x f.fbits f.ebits
    let fr := bitsOf x 0 f.fbits
    if ex = 2 ^ f.ebits - 1 && t != .e2m1 && (t != .e4m3 || fr = 7) then
      if t = .e4m3 then .nan false
      else if fr = 0 then .inf s
      else .nan (bitsOf x (f.fbits - 1) 1 == 0)
    else if ex = 0 then .fin s fr (f.emin - f.fbits)
    else .fin s (2 ^ f.fbits + fr) ((ex : Int) - f.bias - f.fbits)

/-- The value is subnormal in type `t`. -/
def isSubnormal (t : ElemType) (x : Nat) : Bool :=
  let f := fmtOf t
  bitsOf x f.fbits f.ebits = 0 && bitsOf x 0 f.fbits != 0

/-- The canonical NaN (R234). -/
def canonNan (t : ElemType) : Nat :=
  match t with
  | .e4m3 => 0x7F
  | _ => let f := fmtOf t; (2 ^ f.ebits - 1) * 2 ^ f.fbits + 2 ^ (f.fbits - 1)
/-- The sign bit of type `t`, as a number. -/
def signBit (t : ElemType) (neg : Bool) : Nat := if neg then 2 ^ (t.bits - 1) else 0
/-- An infinity (R233). -/
def infBits (t : ElemType) (neg : Bool) : Nat :=
  let f := fmtOf t; signBit t neg + (2 ^ f.ebits - 1) * 2 ^ f.fbits
/-- The largest finite magnitude with a sign (R233, R236). -/
def maxBits (t : ElemType) (neg : Bool) : Nat :=
  match t with
  | .e4m3 => signBit t neg + 0x7E
  | .e2m1 => signBit t neg + 7
  | .ds8 => if neg then 0x88 else 0x00
  | _ => infBits t neg - 1
/-- A zero of a sign; DS8 has one zero (R236, R237). -/
def zeroBits (t : ElemType) (neg : Bool) : Nat := if t = .ds8 then 0x77 else signBit t neg

/-! ## Flags -/

/-- Inexact, in fflags [0] (R207). -/
def flNX : BitVec 5 := 1
/-- Underflow (R207). -/
def flUF : BitVec 5 := 2
/-- Overflow (R207). -/
def flOF : BitVec 5 := 4
/-- Division by zero (R207). -/
def flDZ : BitVec 5 := 8
/-- Invalid (R207). -/
def flNV : BitVec 5 := 16

/-- A rounded result: bits, flags, whether it saturated under a saturate field (vsat), whether it was clamped (R290). -/
structure NRes where
  bits : Nat
  flags : BitVec 5
  vsat : Bool
  clamped : Bool
deriving DecidableEq, Repr

/-- A result that raises nothing. -/
def NRes.exact (b : Nat) : NRes := ⟨b, 0, false, false⟩
/-- A result with flags. -/
def NRes.flagged (b : Nat) (f : BitVec 5) : NRes := ⟨b, f, false, false⟩

/-! ## Rounding -/

/-- Rounds the magnitude quo + rem/den, with 0 ≤ rem < den, to an integer (R240). -/
def roundInt (rm : Rounding) (neg : Bool) (quo rem den : Nat) : Nat :=
  let up : Bool :=
    match rm with
    | .rne => if 2 * rem = den then quo % 2 == 1 else decide (2 * rem > den)
    | .rtz => false
    | .rup => !neg && rem != 0
    | .rdn => neg && rem != 0
    | .rna => decide (2 * rem ≥ den)
  if up then quo + 1 else quo

/-- An exact positive magnitude num/den·2^e. -/
structure Mag where
  num : Nat
  den : Nat
  e : Int
deriving DecidableEq, Repr

/-- The magnitude of a dyadic. -/
def Mag.ofDy (d : Dy) : Mag := ⟨d.m.natAbs, 1, d.e⟩

/-- num·2^k / den with its remainder and divisor. -/
def Mag.at (v : Mag) (q : Int) : Nat × Nat × Nat :=
  let k := v.e - q
  let (n, d) := if 0 ≤ k then (v.num * 2 ^ k.toNat, v.den) else (v.num, v.den * 2 ^ (-k).toNat)
  (n / d, n % d, d)

/-- floor(log2) of a positive magnitude. -/
def Mag.log2 (v : Mag) : Int :=
  let g := (Nat.log2 v.num : Int) - Nat.log2 v.den + v.e
  -- num/den·2^e lies in [2^(g−1), 2^(g+1)); settle which half
  let (q, _, _) := v.at (g - 1)
  if q ≥ 2 then (if q ≥ 4 then g + 1 else g) else g - 1

/-- A rounded magnitude n·2^q of a format, with whether rounding lost anything (R240: exponent range unbounded above). -/
structure Rounded where
  n : Nat
  q : Int
  inexact : Bool
deriving DecidableEq, Repr

/-- Rounds a positive magnitude to a format's significand. -/
def roundFmt (f : Fmt) (rm : Rounding) (neg : Bool) (v : Mag) : Rounded :=
  let ex := max v.log2 f.emin
  let q := ex - f.fbits
  let (quo, rem, den) := v.at q
  let n := roundInt rm neg quo rem den
  if n = 2 ^ (f.fbits + 1) then ⟨n / 2, q + 1, rem != 0⟩ else ⟨n, q, rem != 0⟩

/-- Exponent and fraction fields of a rounded magnitude, in one number (exponent field unbounded above). -/
def packFields (f : Fmt) (r : Rounded) : Nat :=
  if r.n < 2 ^ f.fbits then r.n
  else (r.q + f.fbits + f.bias).toNat * 2 ^ f.fbits + (r.n - 2 ^ f.fbits)

/-- The largest finite value's exponent and fraction fields. -/
def maxFields (t : ElemType) : Nat :=
  let f := fmtOf t
  match t with
  | .e4m3 => 0x7E
  | .e2m1 => 7
  | _ => (2 ^ f.ebits - 1) * 2 ^ f.fbits - 1

/-- What a rounded magnitude above the largest finite gives (R242). -/
def overflowRes (t : ElemType) (rm : Rounding) (sat neg : Bool) : NRes :=
  let toward := match rm with | .rtz => true | .rdn => !neg | .rup => neg | _ => false
  if sat then ⟨maxBits t neg, flOF ||| flNX, true, true⟩
  else match t with
    | .e2m1 | .ds8 => ⟨maxBits t neg, flNV, false, true⟩
    | .e4m3 => .flagged (if toward then maxBits t neg else signBit t neg + 0x7F) (flOF ||| flNX)
    | _ => .flagged (if toward then maxBits t neg else infBits t neg) (flOF ||| flNX)

/-- The DS8 magnitudes around n 64ths (and a remainder): the largest value not above, the least above (R240). -/
def ds8Around (quo : Nat) : Nat × Nat :=
  ds8Table.foldl (fun p x => if x.1 ≤ quo then (x.1, p.2) else (p.1, min p.2 x.1)) (0, 256)

/-- Rounds a positive magnitude into DS8 (R236, R237, R240, R242). -/
def roundDs8 (rm : Rounding) (sat neg : Bool) (v : Mag) : NRes :=
  let (quo, rem, den) := v.at (-6)
  let (lo, hi) := ds8Around quo
  -- above 2 the only candidate is 4, and a mode that rounds toward zero gives 2 for every magnitude (R240)
  let dist := (quo - lo) * den + rem
  let gap := (hi - lo) * den
  let even := if (if lo = 0 then 0 else if ds8OneTerm lo then 1 else 2) ≤ (if ds8OneTerm hi then 1 else 2) then lo else hi
  let pick :=
    if dist = 0 then lo
    else match rm with
      | .rtz => lo
      | .rup => if neg then lo else hi
      | .rdn => if neg then hi else lo
      | .rne => if 2 * dist < gap then lo else if 2 * dist > gap then hi else even
      | .rna => if 2 * dist < gap then lo else hi
  if pick = 256 then overflowRes .ds8 rm sat neg
  else
    let code := match ds8Table.find? (fun x => x.1 == pick) with | some x => x.2 | none => 0x77
    let code := if neg && pick != 0 then (if ds8OneTerm pick then code ^^^ 0x80 else code ^^^ 0x88) else code
    .flagged code (if dist = 0 then 0 else if pick = 0 then flUF ||| flNX else flNX)

/-- Rounds a positive magnitude with a sign into floating type `t` (R240, R242). -/
def roundMag (t : ElemType) (rm : Rounding) (sat neg : Bool) (v : Mag) : NRes :=
  match t with
  | .ds8 => roundDs8 rm sat neg v
  | _ =>
    let f := fmtOf t
    let r := roundFmt f rm neg v
    let w := packFields f r
    if w > maxFields t then overflowRes t rm sat neg
    else
      let tiny := w < 2 ^ f.fbits
      .flagged (signBit t neg + w) (if r.inexact then (if tiny then flUF ||| flNX else flNX) else 0)

/-- Rounds an exact dyadic; a zero takes the sign `zneg`. -/
def roundDy (t : ElemType) (rm : Rounding) (sat zneg : Bool) (d : Dy) : NRes :=
  if d.m = 0 then .exact (zeroBits t zneg) else roundMag t rm sat (d.m < 0) (Mag.ofDy d)

/-- Sign of an exact zero sum of a nonzero or mixed-sign sum (IEEE: −0 only under rdn). -/
def zeroSumNeg (rm : Rounding) (an bn : Bool) : Bool :=
  if an = bn then an else match rm with | .rdn => true | _ => false

/-- NV when an operand signals. -/
def snanFlags (l : List FVal) : BitVec 5 := if l.any FVal.isSnan then flNV else 0

/-! ## Arithmetic, each result rounded once (R204, R219) -/

/-- Fused a·b + c. -/
def fmaVal (t : ElemType) (rm : Rounding) (a b c : FVal) : NRes :=
  let pn := a.neg != b.neg
  let bad := (a.isInf && b.isZero) || (a.isZero && b.isInf)
  let pinf := a.isInf || b.isInf
  if a.isNan || b.isNan || c.isNan || bad then
    .flagged (canonNan t) (snanFlags [a, b, c] ||| (if bad then flNV else 0))
  else if pinf then
    if c.isInf && c.neg != pn then .flagged (canonNan t) flNV else .exact (infBits t pn)
  else if c.isInf then .exact (infBits t c.neg)
  else
    let p := Dyadic.mul a.dy b.dy
    let s := Dyadic.add p c.dy
    if s.m = 0 then .exact (zeroBits t (if p.m = 0 && c.isZero then zeroSumNeg rm pn c.neg else zeroSumNeg rm true false))
    else roundDy t rm false false s

/-- a + b. -/
def addVal (t : ElemType) (rm : Rounding) (a b : FVal) : NRes :=
  if a.isNan || b.isNan then .flagged (canonNan t) (snanFlags [a, b])
  else if a.isInf && b.isInf && a.neg != b.neg then .flagged (canonNan t) flNV
  else if a.isInf then .exact (infBits t a.neg)
  else if b.isInf then .exact (infBits t b.neg)
  else
    let s := Dyadic.add a.dy b.dy
    if s.m = 0 then .exact (zeroBits t (if a.isZero && b.isZero then zeroSumNeg rm a.neg b.neg else zeroSumNeg rm true false))
    else roundDy t rm false false s

/-- a − b. -/
def subVal (t : ElemType) (rm : Rounding) (a b : FVal) : NRes := addVal t rm a b.negate

/-- a·b. -/
def mulVal (t : ElemType) (rm : Rounding) (a b : FVal) : NRes :=
  let pn := a.neg != b.neg
  if a.isNan || b.isNan then .flagged (canonNan t) (snanFlags [a, b])
  else if (a.isInf && b.isZero) || (a.isZero && b.isInf) then .flagged (canonNan t) flNV
  else if a.isInf || b.isInf then .exact (infBits t pn)
  else roundDy t rm false pn (Dyadic.mul a.dy b.dy)

/-- a ÷ b (R205). -/
def divVal (t : ElemType) (rm : Rounding) (a b : FVal) : NRes :=
  let pn := a.neg != b.neg
  if a.isNan || b.isNan then .flagged (canonNan t) (snanFlags [a, b])
  else if (a.isInf && b.isInf) || (a.isZero && b.isZero) then .flagged (canonNan t) flNV
  else if a.isInf then .exact (infBits t pn)
  else if b.isInf then .exact (zeroBits t pn)
  else if b.isZero then .flagged (infBits t pn) flDZ
  else if a.isZero then .exact (zeroBits t pn)
  else
    let x := a.dy
    let y := b.dy
    roundMag t rm false pn ⟨x.m.natAbs, y.m.natAbs, x.e - y.e⟩

/-- floor(sqrt n) bit by bit: `k` bits to decide, `r` the root so far. -/
def isqrtGo (n : Nat) : Nat → Nat → Nat
  | 0, r => r
  | k + 1, r =>
    let c := r + 2 ^ k
    if c * c ≤ n then isqrtGo n k c else isqrtGo n k r
/-- floor(sqrt n). -/
def isqrt (n : Nat) : Nat := isqrtGo n (Nat.log2 n / 2 + 1) 0

/-- √(m·2^e) to at least `k` bits, as a magnitude with a sticky low bit, so that it rounds as the exact root. -/
def sqrtMag (m : Nat) (e : Int) (k : Nat) : Mag :=
  let sh := 2 * k + (if (e - 2 * k) % 2 = 0 then 0 else 1)
  let n := m * 2 ^ sh
  let r := isqrt n
  ⟨2 * r + (if r * r = n then 0 else 1), 1, (e - sh) / 2 - 1⟩

/-- √a (R205). -/
def sqrtVal (t : ElemType) (rm : Rounding) (a : FVal) : NRes :=
  match a with
  | .nan s => .flagged (canonNan t) (if s then flNV else 0)
  | .inf n => if n then .flagged (canonNan t) flNV else .exact (infBits t false)
  | .fin n m e =>
    if m = 0 then .exact (zeroBits t n)
    else if n then .flagged (canonNan t) flNV
    else roundMag t rm false false (sqrtMag m e 64)

/-- Total order key of numbers with −0 < +0: true when a comes before b. -/
def numLt (a b : FVal) : Bool :=
  match a, b with
  | .inf n, .inf n' => n && !n'
  | .inf n, _ => n
  | _, .inf n' => !n'
  | .fin an am ae, .fin bn bm be =>
    if am = 0 && bm = 0 then an && !bn else Dyadic.lt (FVal.fin an am ae).dy (FVal.fin bn bm be).dy
  | _, _ => false

/-- The lesser (or greater) operand, as bits (R205 fmin, fmax). -/
def minMaxBits (t : ElemType) (wantMax : Bool) (x y : Nat) : NRes :=
  let a := fval t x
  let b := fval t y
  let fl := snanFlags [a, b]
  if a.isNan && b.isNan then .flagged (canonNan t) fl
  else if a.isNan then .flagged y fl
  else if b.isNan then .flagged x fl
  else .flagged (if numLt a b = wantMax then y else x) fl

/-- IEEE a = b of numbers: −0 = +0. -/
def ieeeEq (a b : FVal) : Bool :=
  match a, b with
  | .inf n, .inf n' => n == n'
  | .fin an am ae, .fin bn bm be => Dyadic.eq (FVal.fin an am ae).dy (FVal.fin bn bm be).dy
  | _, _ => false
/-- IEEE a < b: false with a NaN; −0 = +0. -/
def ieeeLt (a b : FVal) : Bool :=
  if a.isNan || b.isNan then false else if ieeeEq a b then false else numLt a b

/-- The class mask of R205. -/
def classMask (t : ElemType) (x : Nat) : Nat :=
  match fval t x with
  | .nan s => if s then 256 else 512
  | .inf n => if n then 1 else 128
  | .fin n m _ =>
    if m = 0 then (if n then 8 else 16)
    else if isSubnormal t x then (if n then 4 else 32)
    else if n then 2 else 64

/-! ## Conversion (R206, R242, R247) -/

/-- Float or narrow value to floating type `d`. -/
def convFloat (d : ElemType) (rm : Rounding) (sat : Bool) (v : FVal) : NRes :=
  match v with
  | .nan s =>
    match d with
    | .e2m1 => ⟨0, flNV, false, true⟩
    | .ds8 => ⟨0x77, flNV, false, true⟩
    | _ => .flagged (canonNan d) (if s then flNV else 0)
  | .inf n =>
    if sat then ⟨maxBits d n, 0, false, true⟩
    else match d with
      | .e4m3 => .flagged (signBit d n + 0x7F) flNV
      | .e2m1 | .ds8 => ⟨maxBits d n, flNV, false, true⟩
      | _ => .exact (infBits d n)
  | .fin n m e => roundDy d rm sat n (FVal.fin n m e).dy

/-- Least and greatest value of an integer type (R232). -/
def intRange (t : ElemType) : Int × Int :=
  if t.isSigned then (-(2 ^ (t.bits - 1) : Nat), (2 ^ (t.bits - 1) : Nat) - 1) else (0, (2 ^ t.bits : Nat) - 1)

/-- An exact value rounded to an integer, with whether it was inexact. -/
def roundToInt (rm : Rounding) (d : Dy) : Int × Bool :=
  let neg := decide (d.m < 0)
  let (quo, rem, den) := (Mag.ofDy d).at 0
  let n := roundInt rm neg quo rem den
  (if neg then -(n : Int) else n, rem != 0)

/-- Float to integer type `d` (R206, R247). -/
def convToInt (d : ElemType) (rm : Rounding) (sat : Bool) (v : FVal) : NRes :=
  let (lo, hi) := intRange d
  let clamp (x : Int) : NRes := ⟨wrapInt d.bits x, if sat then 0 else flNV, sat, true⟩
  match v with
  | .nan _ => ⟨0, flNV, false, true⟩
  | .inf n => clamp (if n then lo else hi)
  | .fin n m e =>
    let (x, inex) := roundToInt rm (FVal.fin n m e).dy
    if x < lo then clamp lo
    else if x > hi then clamp hi
    else .flagged (wrapInt d.bits x) (if inex then flNX else 0)

/-- The integer value of the bits of an integer type (R232). -/
def intVal (t : ElemType) (x : Nat) : Int := if t.isSigned then signedOf t.bits x else (x % 2 ^ t.bits : Nat)

/-- Integer to floating type `d`. -/
def convFromInt (d : ElemType) (rm : Rounding) (sat : Bool) (x : Int) : NRes := roundDy d rm sat false (Dyadic.ofInt x)

/-- Integer to integer (R247). -/
def convIntInt (s d : ElemType) (sat : Bool) (x : Nat) : NRes :=
  let v := intVal s x
  let (lo, hi) := intRange d
  if sat && v < lo then ⟨wrapInt d.bits lo, 0, true, true⟩
  else if sat && v > hi then ⟨wrapInt d.bits hi, 0, true, true⟩
  else .exact (wrapInt d.bits v)

/-! ## exp2 -/

/-- Precision of the root table. -/
def expPrec : Nat := 160

/-- Bounds of 2^f with `expPrec` fraction bits for f = Σ over set bits of `fr` (bit `n−1` is 2^−1 and so on): each step
takes a square root of the running base 2^(2^−i) and multiplies it in when the bit is set. -/
def exp2Frac (fr : Nat) : Nat → Nat → Nat → Nat → Nat × Nat
  | 0, _, lo, hi => (lo, hi)
  | n + 1, base, lo, hi =>
    -- floor of 2^(2^−i) scaled by 2^P; the true root lies in [r, r+1]
    let r := isqrt (base * 2 ^ expPrec)
    if bitsOf fr n 1 = 1 then
      exp2Frac fr n r (lo * r / 2 ^ expPrec) ((hi * (r + 2)) / 2 ^ expPrec + 1)
    else exp2Frac fr n r lo hi

/-- A lower bound of 2^d, as a magnitude, and whether it is exact (d an integer): d = k + fr/2^n. -/
def exp2Mag (d : Dy) : Mag × Bool :=
  if 0 ≤ d.e then (⟨1, 1, Dyadic.shl d.m d.e⟩, true)
  else
    let n := (-d.e).toNat
    let k := d.m.fdiv (2 ^ n : Nat)
    let fr := (d.m - k * (2 ^ n : Nat)).toNat
    if fr = 0 then (⟨1, 1, k⟩, true)
    else
      let (lo, _) := exp2Frac fr n (2 * 2 ^ expPrec) (2 ^ expPrec) (2 ^ expPrec)
      -- the exact power is irrational: a sticky bit keeps it off every representable value
      (⟨2 * lo + 1, 1, k - expPrec - 1⟩, false)

/-- A representable neighbour of an exact result: itself, the next below or the next above in magnitude, by choice. -/
def neighbour (t : ElemType) (r : NRes) (choice : Nat) : NRes :=
  let lim := infBits t false
  let mag := r.bits % 2 ^ (t.bits - 1)
  match choice % 3 with
  | 0 => r
  | 1 => if mag = 0 then r else .flagged (r.bits - 1) (r.flags ||| flNX)
  | _ => if mag ≥ lim then r else .flagged (r.bits + 1) (r.flags ||| flNX)

/-- exp2 of an exact operand into `t`, within 1 ulp: exact at the integers of R361, otherwise one of the neighbouring values
allowed, chosen by `Config.exp2Choice` (R224, R270, R107; log 15). `tag` tells apart operands. -/
def exp2Round (t : ElemType) (tag : Nat) (d : Dy) : NRes :=
  -- far outside every format's range the power itself is not formed
  if Dyadic.lt d ⟨-4096, 0⟩ then .flagged (if Config.exp2Choice tag 0 % 2 = 0 then 0 else 1) (flUF ||| flNX)
  else if Dyadic.lt ⟨4096, 0⟩ d then .flagged (if Config.exp2Choice tag 0 % 2 = 0 then maxBits t false else infBits t false) (flOF ||| flNX)
  else
    let (v, ex) := exp2Mag d
    -- R361: exact at the integers from −149 to 127
    if ex && decide (-149 ≤ v.e) && decide (v.e ≤ 127) then roundMag t .rne false false v
    else if ex then neighbour t (roundMag t .rne false false v) (Config.exp2Choice tag v.num)
    else roundMag t (if Config.exp2Choice tag v.num % 2 = 0 then .rdn else .rup) false false v

/-- 1/a within 1 ulp, for a finite nonzero a, chosen by `Config.rcpChoice` (R224; log 15). -/
def rcpRound (t : ElemType) (tag : Nat) (neg : Bool) (m : Nat) (e : Int) : NRes :=
  let v : Mag := ⟨1, m, -e⟩
  let lo := roundMag t .rtz false neg v
  if lo.flags = 0 then neighbour t lo (Config.rcpChoice tag 0)
  else if Config.rcpChoice tag 0 % 2 = 0 then lo
  else roundMag t (if neg then .rdn else .rup) false neg v

/-! ## f32 and bound arithmetic (R278) -/

/-- The value of f32 bits. -/
def f32Val (x : Nat) : FVal := fval .f32 x
/-- Rounds a dyadic to f32 under rne. -/
def f32Rne (d : Dy) : Nat := (roundDy .f32 .rne false false d).bits

/-- A bound: none stands for +∞ (R278). -/
abbrev Bnd := Option Dy

namespace Bound

/-- The bound that FP32 bits hold; a negative or NaN bound reads as +∞ (R291). -/
def ofBits (x : Word32) : Bnd :=
  match f32Val x.toNat with
  | .fin n m e => if n && m != 0 then none else some ⟨m, e⟩
  | _ => none
/-- The bound of an exact number. -/
def ofDy (d : Dy) : Bnd := some d
/-- FP32 bits of a bound, rounded upward. -/
def toBits (b : Bnd) : Word32 :=
  match b with
  | none => 0x7F800000#32
  | some d => BitVec.ofNat 32 (roundDy .f32 .rup false false d).bits
/-- An exact result as a bound: rounded upward to FP32, an overflow to +∞ (R278). -/
def up (d : Dy) : Bnd := ofBits (toBits (some d))
/-- Sum (R278). -/
def add (a b : Bnd) : Bnd :=
  match a, b with
  | some x, some y => up (Dyadic.add x y)
  | _, _ => none
/-- Product: with an infinite factor +∞ (R278: 0·∞ too). -/
def mul (a b : Bnd) : Bnd :=
  match a, b with
  | some x, some y => up (Dyadic.mul x y)
  | _, _ => none
/-- The larger. -/
def max (a b : Bnd) : Bnd :=
  match a, b with
  | some x, some y => some (Dyadic.max x y)
  | _, _ => none
/-- a > b. -/
def gt (a b : Bnd) : Bool :=
  match a, b with
  | some x, some y => Dyadic.lt y x
  | none, some _ => true
  | _, none => false

end Bound

/-- The bound 0. -/
def bndZero : Bnd := some ⟨0, 0⟩

/-- The magnitude byte of a largest magnitude (R287). -/
def magOf (d : Dy) : Nat :=
  if d.m = 0 then 0
  else
    let g := Dyadic.log2 d + 127
    if g < 1 then 1 else if g > 254 then 255 else g.toNat
/-- M = 2^(G − 126) of a magnitude byte; G = 0 gives 0 and G = 255 no finite M (R287). -/
def magM (g : Nat) : Bnd := if g = 0 then bndZero else if g = 255 then none else some ⟨1, (g : Int) - 126⟩

/-- u of a result format (R289). -/
def unitOf (t : ElemType) : Dy :=
  match t with
  | .f64 => ⟨1, -53⟩ | .f32 => ⟨1, -24⟩ | .bf16 => ⟨1, -8⟩ | .f16 => ⟨1, -11⟩
  | .e5m2 => ⟨1, -3⟩ | .e4m3 => ⟨1, -4⟩ | _ => ⟨1, -2⟩
/-- Floor on M in a rounding term (R289). -/
def floorM (t : ElemType) : Dy :=
  match t with
  | .f64 => ⟨1, -1021⟩ | .f32 | .bf16 => ⟨1, -125⟩ | .f16 | .e5m2 => ⟨1, -13⟩
  | .e4m3 => ⟨1, -5⟩ | .e2m1 => ⟨2, 0⟩ | _ => ⟨1, -4⟩
/-- The rounding term u·M, M not below its floor (R289, R290). -/
def roundTerm (t : ElemType) (m : Bnd) : Bnd := Bound.mul (some (unitOf t)) (Bound.max m (some (floorM t)))

end Sys2Proof.Machine
end

