-- ==== Sys2Proof/Machine/State.lean ====
section
/-!
DEFINITION. The machine's state as plain data: everything spec/ gives the RLT-9200 module, and the agenda by which one
deterministic step function stands for the module's many agents.
-/

namespace Sys2Proof.Machine

/-- Sparse byte memory: (address, byte) pairs, addresses strictly rising, no entry 0 (an unlisted byte reads 0; log 3). -/
abbrev Memory := List Host.Cell

/-- A set of naturals as a strictly rising list: granules that are F, poisoned granules, absent pages. -/
abbrev GSet := List Nat

/-- Why the machine stops. -/
inductive Fault where
  /-- Raised by `step` alone, when the agenda names as an event an instruction that has a word: the agenda is the model's
  own input, so no hardware behaviour is lost. Safe. -/
  | notAnEvent
deriving DecidableEq, Repr

/-- Why an instruction has no meaning. -/
inductive Refusal where
  /-- Raised by an arm of `exec` that has no meaning yet. Safe: the model stops where the hardware goes on. -/
  | notModelled (mnemonic : String)
deriving DecidableEq, Repr

/-! ## Agenda: what moves next (the model's own; log 1) -/

/-- One entry of the agenda: which agent moves next, or what the world outside does next. -/
inductive Turn where
  /-- Control thread `t` of core `k` becomes the current thread and issues one instruction. -/
  | run (k : CoreId) (t : Tid)
  /-- Control thread `t` of the system core of die `d` issues one scalar instruction (R10). -/
  | sys (d : DieId) (t : Tid)
  /-- The event row `i` of the opcode table happens. -/
  | event (i : Instr)
  /-- Virtual processor `vp` of the running block of core `k` executes its next word (R186). -/
  | block (k : CoreId) (vp : Nat)
  /-- The module time base advances (R54). -/
  | elapse (ns : Nat)
  /-- An agent's time-base copy drifts against the module time base (R54, R63). -/
  | drift (ag : XAgent) (d : Int)
  /-- An agent loses its cached translations of a page, or all of them (R57, R60). -/
  | evict (ag : XAgent) (vpn : Option Nat)
  /-- The host IOMMU makes a 4 KiB page of a function absent or present (R37, R332); pages and addresses of host memory are
  numbered by function and IOVA (`hostKey`). -/
  | hostPage (page : Nat) (absent : Bool)
  /-- A host agent writes host memory (R166). -/
  | hostWrite (iova : Nat) (bytes : List Byte)
  /-- A peer module's own agents write its working memory (R38, R167). -/
  | peerWrite (pos : Nat) (pa : Nat) (bytes : List Byte)
  /-- The host assigns BAR0 of a function (R330). -/
  | barAssign (f : FuncId) (base : Nat)
  /-- The partition's handlers are installed (R299; log 8). -/
  | setHandlers (f : FuncId) (kvec hvec : Word)
  /-- A soft error poisons 16 bytes (R340, R341). -/
  | poison (p : PoisonPlace)
  /-- A residue mismatch on rows of a tile, with the two residues (R286, R340, R344). -/
  | residue (k : CoreId) (t : Tid) (tile : Tile) (rows : List Nat) (synd : Word)
  /-- The host posts a write of a function into working memory: the endpoint has received it (R169). -/
  | posted (f : FuncId) (pa : Nat) (bytes : List Byte) (relaxed : Bool)
  /-- A vector residue mismatch on an element of a register, with the two residues (R340, R344). -/
  | vecResidue (k : CoreId) (v : VReg) (elem : Nat) (synd : Word)
  /-- The debug port shifts an instruction and a value of its 73-bit register (R347). -/
  | jtag (ir : BitVec 8) (dr : BitVec 73)
deriving DecidableEq, Repr

/-! ## Translation (04) -/

/-- What a leaf grants and how it orders (R50, R52, R45, R64). -/
structure LeafInfo where
  rd : Bool
  w : Bool
  x : Bool
  user : Bool
  kind : Fin 4
  /-- What the stage-2 leaf grants (R64, R374): all true with one stage. The fields above are the stage-1 leaf's. -/
  rd2 : Bool
  w2 : Bool
  x2 : Bool
  /-- Physical address bits of the 64 KiB frame, or the window base of a stripe leaf. -/
  frame : Nat
  /-- The stripe entry as resolved at the walk: member positions (R38, R334); none for no stripe leaf. -/
  stripe : Option (List Nat)
  gen : Nat
  gen2 : Nat
  /-- Levels of the two stages' leaves (R68 where). -/
  lvl : Nat
  lvl2 : Nat
  /-- Whether the dirty bit was set when the leaf was read (R53). -/
  dirty : Bool
  global : Bool
  /-- Address bits below the combined page (R47, R64): 16, 29 or 42. -/
  span : Nat
  /-- What each stage names, for R62's comparison: the guest physical page of stage 1 (0 with one stage), the ordering kind of each
  stage's leaf, the stripe set number. -/
  gframe : Nat
  kind1 : Nat
  kind2 : Nat
  set : Option Nat
deriving DecidableEq, Repr

/-- A cached translation of one 64 KiB page (R56, R57, R60). -/
structure TlbEntry where
  part : FuncId
  asn : BitVec 16
  vpn : Nat
  leaf : LeafInfo
  /-- Earliest read time on the path (R62). -/
  ts : Nat
  /-- Expiry E (R56). -/
  expiry : Nat
deriving DecidableEq, Repr

/-- A walk-cache entry: an upper-level entry with the expiry of its path prefix (R56, R60). -/
structure WalkEntry where
  part : FuncId
  asn : BitVec 16
  /-- Level of the entry: 4 is the address-space table, then 3, 2, 1. -/
  level : Nat
  /-- The address bits that select it. -/
  tag : Nat
  /-- Base of the table that the entry names. -/
  base : Nat
  ts : Nat
  expiry : Nat
deriving DecidableEq, Repr

/-- A cached Q PTE of a base die (R113). -/
structure QTlbEntry where
  part : FuncId
  qpage : Nat
  pte : Word
  ts : Nat
  expiry : Nat
deriving DecidableEq, Repr

/-- A page that a transfer has used, with the leaf it used (R62). -/
structure UsedPage where
  vpn : Nat
  leaf : LeafInfo
  /-- A write used it. -/
  wr : Bool
  /-- A renewal found its leaf changed: the transfer stops where it leaves the page. -/
  stop : Bool
deriving DecidableEq, Repr

/-! ## Vector unit (10, 15) -/

/-- A tag state: bound, magnitude byte, flags [0] untracked [1] escalated [2] saturated [3] residue (R287, R291). -/
structure VTag where
  bound : Word32
  mag : BitVec 8
  flags : BitVec 4
deriving DecidableEq, Repr

/-- The tags of a dead register (R183). -/
def VTag.dead : VTag := ⟨0x7F800000#32, 0, 1⟩

/-- A vector register with its progress state and tags (R180, R182, R287). -/
structure VecReg where
  bits : VecBits
  tag : VTag
  vpx : BitVec 13
  vhw : BitVec 13
  dirty : Bool
deriving DecidableEq, Repr

/-- A mask register (R180). -/
structure MaskReg where
  bits : MaskBits
  dirty : Bool
deriving DecidableEq, Repr

/-- A virtual processor: its word within the block and whether it has stopped (R186, R188). -/
structure VpState where
  pos : Nat
  stopped : Bool
deriving DecidableEq, Repr

/-- A running vector-fetch block (R185, R188). -/
structure Block where
  tid : Tid
  /-- Address of the vf. -/
  pc : Word
  /-- Address of its first word. -/
  base : Word
  /-- Its words; none once fencei has discarded a stopped block's (R211). -/
  words : List Word32
  /-- Registers and masks that its words write. -/
  writes : BitVec 48
  /-- Scalar registers, VL and VTYPE captured at vf (R178, R184). -/
  sregs : Vector Word 32
  vl : Nat
  vtype : BitVec 11
  vps : List VpState
  /-- Registers and masks that the block writes and that a vsetvl made dead before it joined: they die at the join (R183). -/
  dying : BitVec 48
  /-- A fault, halt or switch has stopped the block; its vf resumes it (R188). -/
  stopped : Bool
  /-- Lane-threaded mode has been entered (R186). -/
  threaded : Bool
  /-- Lane-threaded mode: the virtual processor that each lane ran last, by lane (R186). -/
  last : List (Nat × Nat)
  /-- A trigger has stopped it before its next word, which therefore runs once without a check (R350). -/
  passes : Bool
deriving DecidableEq, Repr

/-- A stream binding of v24 + r (R139). -/
structure Binding where
  /-- The copy block as read (R134). -/
  block : BitVec 512
  part : FuncId
  asn : BitVec 16
  priv : Priv
  /-- Elements popped. -/
  popped : Nat
  /-- Bytes fetched ahead of the pops. -/
  ahead : List Byte
  /-- Sidecar of a bounded block, as the register's tag (R139). -/
  tag : VTag
  /-- Bytes of the last popped strip (R140). -/
  last : Nat
  /-- The strip last popped belongs to an instruction that stopped part way and has not completed. -/
  held : Bool
  pages : List UsedPage
deriving DecidableEq, Repr

/-- The vector unit of a core (R176, R177). -/
structure VecUnit where
  regs : Vector VecReg 32
  masks : Vector MaskReg 16
  /-- Thread that holds the lanes (R177). -/
  holder : Option Tid
  /-- Fault mask (R66). -/
  faultMask : MaskBits
  binds : Vector (Option Binding) 8
  block : Option Block
  /-- Stopped blocks behind the one that a handler's own vf started, latest first (R185, R188; log 30). -/
  parked : List Block
deriving DecidableEq, Repr

/-! ## Matrix unit (14, 15) -/

/-- aext (R255). -/
structure AExt where
  mrows : BitVec 8
  ncols : BitVec 8
  hi : Bool
  lo : Bool
  partner : Fin 4
deriving DecidableEq, Repr

/-- A weight latch record (R257). -/
structure Latch where
  slot : Slot
  pair : Bool
  gen : Word32
  gen2 : Word32
  type : BitVec 4
  kw : Nat
  nw : Nat
deriving DecidableEq, Repr

/-- One entry of a recipe log (R283). -/
structure RecipeEntry where
  slot : Slot
  gen : Word32
  pair : Bool
  gen2 : Word32
  latch : Latch
  m : Nat
  n : Nat
  k : Nat
  type : ActType
  rs : Bool
  x : Bool
  z : Bool
deriving DecidableEq, Repr

/-- An accumulator tile (R254, R255, R283 to R286). Row m holds 128 f32, column n in bits [32n+31:32n]. -/
structure TileSt where
  rows : Vector (BitVec 4096) 128
  bound : Vector Word32 128
  max : Vector Word32 128
  sum : Vector Word32 128
  rescale : Vector Word32 128
  aext : AExt
  recipe : List RecipeEntry
  startPc : Word
  /-- The recipe is unusable for replay until the next mzero (R283). -/
  lost : Bool
  /-- The recipe has been re-issued (R284). -/
  escalated : Bool
  residue : Bool
  /-- Rows whose bound a residue mismatch set to +∞ (R281, R285, R286). -/
  poisoned : BitVec 128
  /-- The residues of the last mismatch (R344). -/
  synd : Word
deriving DecidableEq, Repr

/-- An operand slot (R79, R252, R253). Row r holds 256 bytes. -/
structure SlotSt where
  claimed : Bool
  owner : BitVec 16
  gen : Word32
  type : BitVec 4
  scaled : Bool
  bounded : Bool
  data : Vector (BitVec 2048) 128
  /-- 2,048 block scales of 20 bits, entry i in bits [20i+19:20i]. -/
  trailer : BitVec 40960
  sidecar : Word
  /-- Fills in flight (R261). -/
  fills : Nat
  /-- Claims of the slot so far: a fill stops when its slot has been released and claimed again (R263). -/
  claim : Nat
  /-- Poisoned granules of the slot's bytes (R341). -/
  poison : GSet
deriving DecidableEq, Repr

/-- What the array holds: a latch record and the weights latched under it (R257, R265). -/
structure ArraySt where
  latch : Latch
  w : SlotSt
  w2 : Option SlotSt
deriving DecidableEq, Repr

/-- An mfill that waits for a granule, with what it has read (R73, R264). -/
structure Filling where
  tid : Tid
  slot : Slot
  read : List Byte
deriving DecidableEq, Repr

/-- The matrix unit of a core (R176). -/
structure MatUnit where
  tiles : Vector TileSt 4
  acown : Vector (BitVec 16) 4
  slots : Vector SlotSt 16
  array : Option ArraySt
  /-- An automatic re-issue that has been set off and not run: thread and tile (R284). -/
  pendReissue : Option (Tid × Tile)
  /-- An mfill under way (R264). -/
  filling : Option Filling
deriving DecidableEq, Repr

/-! ## Copies (07) -/

/-- A copy that the copy unit holds (R134 to R138, R141). -/
structure CopyCmd where
  id : Nat
  block : BitVec 512
  fl : CmdFlags
  counter : Option Word
  barrier : Option Nat
  part : FuncId
  asn : BitVec 16
  priv : Priv
  ctx : BitVec 16
  tid : Tid
  launch : BitVec 16
  /-- Box index of the first unlanded element. -/
  next : Nat
  landed : Nat
  /-- Sum-fold terms not yet added together, once the fold has started: the partial, in an ordered fold (R136). -/
  parts : List Word
  /-- The copy names a ring barrier (R132). -/
  ring : Bool
  /-- Its place in the order in which commands reached their ring barrier, once it has reached it (R132). -/
  ringAt : Option Nat
  pages : List UsedPage
  crit : Bool
  /-- What the copy has read of its source from element `next` on, and the banks of its poison, ahead of its writes (R151). -/
  ahead : List (List Byte × Option (DieId × Fin 16))
  /-- The sidecar of a bounded source, and the bank of its poison, read with the first element (R134, R151). -/
  side : Option (Nat × Option (DieId × Fin 16))
  /-- The fill of a slot has begun, under this claim number of the slot (R80, R263). -/
  claim : Option Nat
  /-- A beacon found the copy's translations skewed: it faults at its next strip (R63). -/
  skew : Option Int
deriving DecidableEq, Repr

/-- An unfinished copy as a save-area entry names it, or a binding (R141). -/
structure SavedCopy where
  cmd : CopyCmd
  /-- Bound register r, for a binding. -/
  bind : Option (Fin 8)
  faultAddr : Word
deriving DecidableEq, Repr

/-! ## Threads (10, 11, 17) -/

/-- One set of trap CSRs (R306, R308, R69). -/
structure TrapSet where
  tcause : BitVec 8
  tpc : Word
  tval : Word
  telem : Word
  tvtype : BitVec 11
  ppl : BitVec 2
  loop : Bool
  stop : Bool
  fmask : Bool
  hdl : Bool
  nest : Bool
  rpt : Bool
  vblk : Bool
  tvl : BitVec 13
  ctx : BitVec 16
  tvec : Word
  tscratch : Word
  /-- tfbuf base, scratchpad address bits [21:5]. -/
  fbBase : BitVec 17
  fbEn : Bool
deriving DecidableEq, Repr

/-- What a task is (R296 to R299, R314). -/
structure Task where
  part : FuncId
  ctx : BitVec 16
  launch : BitVec 16
  node : Nat
  asn : BitVec 16
deriving DecidableEq, Repr

/-- The bytes that a translated address names (R35, R38, R324). -/
inductive Tgt where
  | wm (pa : Nat)
  | host (iova : Nat)
  | peer (pos : Nat) (pa : Nat)
  /-- A register of a function's window (R324). -/
  | window (f : FuncId) (off : Nat)
deriving DecidableEq, Repr

/-- What a blocked thread waits for (R312). The instruction at pc executes again when the wait ends. -/
inductive Wait where
  | none
  | granule (gs : List Nat)  -- lds, a lane load or an mfill with .wait or .take: granules that must be F (R75)
  | fence (query : Bool)  -- fence.copy, fence.query (R160)
  | barrier (level : Fin 8) (phase : Nat)  -- bar, barw (R162)
  | counter (at_ : Tgt) (target : Word)    -- waitge (R163)
  | time (target : Word)                   -- waitt (R165)
  | lanes            -- the lanes (R177)
  | block            -- lane, matrix or copy work of the thread in flight (R185, R209)
  | join             -- vjoin: a block of the thread that has not joined (R187)
  | arrival (bar : Nat) (target : Word)    -- abwait (R133)
  | copyQueue        -- cpa at a full queue (R137)
  | hostPage (page : Nat) (pop : Bool)  -- an absent host page (R332), for the data of a pop (R139)
  | slotBusy (ps : List Slot)  -- busy slots, or the matrix unit's own work (R260, R261, R284)
  | drain            -- tdone waiting for its copies (R305)
  | gang (gtag : Word32)   -- tlaunch.gang awaiting agreement (R305)
  | ack              -- a gang or system fence awaiting acknowledgements (R168)
deriving DecidableEq, Repr

/-- Guard accesses since the last report (R77). -/
structure GuardRec where
  pc : Word
  addr : Nat
  count : Nat
deriving DecidableEq, Repr

/-- A copy fault or command fault to report (R127, R137). -/
structure CopyFault where
  tval : Word
  reason : Nat
  /-- The copy's resume entry, for a copy-unit fault. -/
  resume : Option SavedCopy
deriving DecidableEq, Repr

/-- A bound threshold trap to report (R285). -/
structure BoundRep where
  pc : Word
  tile : Tile
  row : Nat
  reissued : Bool
  unusable : Bool
  poisoned : Bool
deriving DecidableEq, Repr

/-- Barrier arrival state of a task: levels and phases joined and not completed (R162). -/
structure Arrival where
  level : Fin 8
  phase : Nat
deriving DecidableEq, Repr

/-- One control thread (R176). -/
structure Thread where
  pc : Word
  sregs : Vector Word 32
  priv : Priv
  vl : BitVec 13
  vtype : BitVec 11
  vstart : BitVec 12
  vlive : BitVec 48
  lc : Word
  ls : Word
  le : Word
  spv : Word
  spn : BitVec 2
  rptst : Word
  levels : Vector Word32 8
  msh : BitVec 48
  bthr : Word32
  bthra : Word32
  bmode : BitVec 2
  besc : Word
  yreq : Bool
  scyc : Word
  vcyc : Word
  mcyc : Word
  astl : Word
  frm : BitVec 3
  fflags : BitVec 5
  fexc : BitVec 5
  vsat : Bool
  ktrap : TrapSet
  htrap : TrapSet
  /-- Hardware-loop end checks are suspended (R307). -/
  loopOff : Bool
  latch : Option Latch
  task : Option Task
  wait : Wait
  /-- idle has stopped issue until an event (R211). -/
  idling : Bool
  /-- The instruction at pc runs once under the fault mask; the level whose tstat.fmask its issue clears (R309). -/
  reissue : Option Priv
  /-- The captured words of the running repeat frame (R30): fetched once, and again at a tret. -/
  frame : List Word32
  guard : Option GuardRec
  copyFaults : List CopyFault
  boundRep : Option BoundRep
  /-- A lease-skew fault to deliver: signed drift (R63). -/
  skewFault : Option Int
  /-- Contained machine checks to deliver: die and bank (R341, R345). -/
  checks : List (DieId × Fin 16)
  arrivals : List Arrival
  /-- Critical bit (R355). -/
  cbit : Bool
  /-- The critical bit of the agent that satisfied this thread's wait (R355). -/
  wakeC : Option Bool
  dpc : Word
  delem : Word
  dcause : BitVec 3
  /-- The slice has ended; the yield request is taken at the next vsetvl (R302, R215). -/
  sliceOver : Bool
  /-- A yield request came due in a cycle in which a debug halt went before it: it is taken when the core resumes (R313). -/
  yieldDue : Bool
  /-- Time at which the task took the thread (R302). -/
  since : Nat
  /-- The task's vector state is still in the hamper (R315). -/
  vecSaved : Option VecUnit
  /-- A vrel is in the slip queue (R187). -/
  relPending : Bool
  /-- Pages that this thread's suspended host access has been answered for: page and success (R332). -/
  answered : List (Nat × Bool)
  /-- The absent host page that a switched-out thread's access has asked for (R332). -/
  asked : Option Nat
deriving DecidableEq, Repr

/-! ## The core -/

/-- One counter of the bank (R352). -/
structure Counter where
  count : BitVec 63
  displaced : Bool
  event : BitVec 8
  filter : BitVec 2
  shift : BitVec 4
  /-- Counter 6: multiples of its sample period that it has crossed and whose samples have not been taken (R352). -/
  samples : Nat
deriving DecidableEq, Repr

/-- Who holds a counter bank or trace unit (R353). -/
inductive Holder where
  | free | guest | hyper
deriving DecidableEq, Repr

/-- A core's trace ring (R354). -/
structure TraceRing where
  base : Nat
  size : Nat
  seq : Word32
deriving DecidableEq, Repr

/-- A trigger (R349). -/
structure Trigger where
  addr : Word
  control : BitVec 14
deriving DecidableEq, Repr

/-- An allocation of a launch (R296, R76). -/
structure Alloc where
  base : Nat
  size : Nat
  lane : Bool
deriving DecidableEq, Repr

/-- A launch's allocations on a core (R300). -/
structure Resident where
  part : FuncId
  launch : BitVec 16
  allocs : List Alloc
deriving DecidableEq, Repr

/-- A suspended task's thread image (R315, R316). -/
structure ThreadImage where
  /-- The thread that it left. -/
  tid : Tid
  thread : Thread
  /-- Vector state, when the thread held the lanes. -/
  vec : Option VecUnit
  copies : List SavedCopy
  /-- Ready time and priority under which the dispatcher sees it again (R305). -/
  ready : Nat
  prio : Nat
  /-- Poisoned 16-byte units of the image (R340, R341). -/
  bad : GSet
deriving DecidableEq, Repr

/-- A full image of a core (R315, R316). -/
structure FullImage where
  threads : Vector Thread 2
  vec : VecUnit
  mat : MatUnit
  copies : List SavedCopy
  /-- Poisoned 16-byte units of the image (R340, R341). -/
  bad : GSet
deriving DecidableEq, Repr

/-- The hamper of a core (R318). -/
structure Hamper where
  full : Option FullImage
  images : List ThreadImage
deriving DecidableEq, Repr

/-- A compute core (R10 to R12, R176). -/
structure Core where
  threads : Vector Thread 2
  vec : VecUnit
  mat : MatUnit
  copies : List CopyCmd
  spad : Memory
  /-- Granules whose full-empty bit is F (R72). -/
  full : GSet
  spadPoison : GSet
  counters : Vector Counter 8
  bank : Holder
  trace : Holder
  ring : TraceRing
  hamper : Hamper
  scalarTlb : List TlbEntry
  vectorTlb : List TlbEntry
  gatherTlb : List TlbEntry
  skew : Int
  residents : List Resident
  /-- Debug: the core is halted, and a resume runs one step (R348). -/
  halted : Bool
  step : Bool
  brkhalt : Bool
  triggers : Vector Trigger 4
deriving DecidableEq, Repr

/-! ## Engines (07) -/

/-- A segment of a chain (R122, R123). -/
structure Segment where
  addr : Word
  core : CoreId
  ctx : BitVec 16
  part : FuncId
  asn : BitVec 16
  launch : BitVec 16
  priv : Priv
  crit : Bool
  /-- The count that the segment's counter receives (R126). -/
  s : Word
deriving DecidableEq, Repr

/-- A STREAM or FOLD in flight (R124). -/
structure EngCmd where
  addr : Word
  cmd : BitVec 512
  src : Word
  /-- Scratchpad address, formed in 64-bit arithmetic (R41), or slot. -/
  dst : Int
  landed : Nat
  ringAt : Option Nat
  pages : List UsedPage
  /-- The fill of a slot has begun, under this claim number of the slot (R80, R263). -/
  claim : Option Nat
  /-- A beacon found the command's translations skewed: it faults at its next strip (R63). -/
  skew : Option Int
deriving DecidableEq, Repr

/-- A REPEAT being run (R125). -/
structure RepState where
  start : Word
  len : Nat
  idx : Nat
  pass : Nat
  n : Nat
  sadv : Word
  dadv : Word32
deriving DecidableEq, Repr

/-- The running segment (R123 to R127). -/
structure SegRun where
  counter : Word
  frec : Word
  cmdAddr : Word
  rep : Option RepState
  flight : List EngCmd
  /-- A WAIT holds the chain (R125). -/
  waiting : Bool
  /-- STOP has been reached (R125). -/
  stopped : Bool
  /-- The fault that the next step of the chain takes: command, reason, page reason, address, bytes landed (R127). -/
  fault : Option (Word × Nat × Nat × Word × Nat)
  /-- The fault is a lease-skew fault with this drift (R63). -/
  skew : Option Int
deriving DecidableEq, Repr

/-- A stream engine (R121). -/
structure Engine where
  chain : List Segment
  done : Word
  faulted : Bool
  running : Option SegRun
  tlb : List TlbEntry
  skew : Int
deriving DecidableEq, Repr

/-! ## Queries (06) -/

/-- A sub-command (R98). -/
structure SubCmd where
  qpage : Nat
  stack : Nat
  frame : Nat
  /-- qattn: the pages of its V rows, each with stack and frame (R107). -/
  vals : List (Nat × Nat × Nat)
  done : Bool
deriving DecidableEq, Repr

/-- A query accepted and not finished (R98). -/
structure QueryRun where
  id : Nat
  /-- Member code fn (R97). -/
  fn : Nat
  fl : QueryFlags
  block : BitVec 512
  /-- Query vectors and parameter block, read at issue (R98). -/
  vec : List Byte
  params : List Byte
  counter : Option Word
  reply : Nat
  core : CoreId
  tid : Tid
  part : FuncId
  asn : BitVec 16
  ctx : BitVec 16
  launch : BitVec 16
  priv : Priv
  /-- Pages of the export area, as checked at issue (R62, R109). -/
  pages : List UsedPage
  /-- First sub-command of this execution (R116). -/
  first : Nat
  subs : List SubCmd
  /-- Sub-commands that the whole query splits into. -/
  total : Nat
  /-- qupd: running sum of squares and non-finite count (R108). -/
  ss : Word
  nf : Word
  /-- What the roundings of ss have added to its bound, in units of 2^−1075 (R110). -/
  ssBound : Nat
  /-- What each finished sub-command of a read-only query read: (sub-command, bytes) (R98, R100). -/
  read : List (Nat × List Byte)
  /-- Poison that the query read: row, and 16-byte unit of the row; a V row's units are 2^32 and up (R341). -/
  bad : List (Nat × Nat)
  /-- Sub-commands are still to be accepted: a stop may come before the next (R100). -/
  more : Bool
  crit : Bool
deriving DecidableEq, Repr

/-- A page operation in flight (R117, R118). -/
structure PageOpRun where
  id : Nat
  /-- 9 qmig, 10 qseal, 11 qunseal. -/
  fn : Nat
  fl : CmdFlags
  qpage : Nat
  aux1 : Word
  aux2 : Word
  counter : Option Word
  reply : Nat
  core : CoreId
  tid : Tid
  part : FuncId
  asn : BitVec 16
  ctx : BitVec 16
  launch : BitVec 16
  priv : Priv
  /-- Pages of the sealed image, as checked at issue (R62, R117). -/
  pages : List UsedPage
  /-- Physical address of the Q PTE. -/
  pteAddr : Nat
  /-- Time before which the copy may not start (R118). -/
  until_ : Nat
  copied : Bool
  crit : Bool
deriving DecidableEq, Repr

/-! ## Scheduling (16) -/

/-- A level entry (R189, R296). -/
structure Level where
  domain : Nat
  scope : Scope
  extent : Nat
deriving DecidableEq, Repr

/-- Node state as the device keeps it (R298, R305). -/
inductive NodeStat where
  | waiting | ready | dispatched | done | halted | faulted
deriving DecidableEq, Repr

/-- A node of a launch as the device keeps it (R298, R300). -/
structure NodeRec where
  /-- Generic address of the record. -/
  addr : Word
  stat : NodeStat
  readyAt : Nat
  /-- Tasks started and not ended. -/
  live : Nat
  /-- The critical bit that made it ready (R355). -/
  crit : Bool
  /-- Priority and energy class, as read when it became ready. -/
  cls : BitVec 8
  /-- Its level and ordinal, as its record had them when it joined the launch (R162, R299). -/
  lv : Nat
  ordinal : Nat
deriving DecidableEq, Repr

/-- A task of a launch, for barriers (R162, R299). -/
structure TaskRec where
  ctx : BitVec 16
  node : Nat
  idx : Vector Word32 8
  /-- It has ended, by tdone or halt. -/
  ended : Bool
  /-- It ended by halt: it counts as arrived at no later phase (R162). -/
  halted : Bool
deriving DecidableEq, Repr

/-- A hierarchy barrier instance (R162): the level and the indices from that level up. -/
structure BarInst where
  level : Fin 8
  inst : List Word32
  phase : Nat
  /-- The tasks that have arrived at the phase, by their places in the launch's list. -/
  arrived : List Nat
  /-- The critical bit of the last arriver (R355). -/
  crit : Bool
deriving DecidableEq, Repr

/-- A launch in being (R296, R300, R305). -/
structure Launch where
  num : BitVec 16
  part : FuncId
  addr : Word
  asn : BitVec 16
  levels : List Level
  allocs : List Alloc
  sdata : Word
  sdsize : Nat
  counter : Word
  gtag : Word32
  start : Nat
  started : Bool
  nodes : List NodeRec
  tasks : List TaskRec
  bars : List BarInst
deriving DecidableEq, Repr

/-- A gang launch awaiting agreement or its tick (R305). -/
structure GangRec where
  gtag : Word32
  part : FuncId
  /-- The member's own thread or ring entry that proposed: none before it has. -/
  own : Option Nat
  ownAt : Nat
  members : Nat
  props : List (Nat × Nat)
  cancelled : Bool
  /-- The launch as checked, to start on agreement. -/
  launch : Option Launch
  /-- The outcome, once decided: launch number or reason 9. -/
  result : Option Word
deriving DecidableEq, Repr

/-- A ready node of the pool (R300): launch, node, in the order they became ready. -/
abbrev ReadyRef := BitVec 16 × Nat

/-- An addition to a counter, or a write of a node's state, on an absent host page (R98, R305, R332). -/
structure OwedAdd where
  part : FuncId
  asn : BitVec 16
  priv : Priv
  addr : Word
  crit : Bool
  /-- The bytes to write; none for an addition of 1. -/
  put : Option (List Byte)
deriving DecidableEq, Repr

/-- A posted write that the endpoint has received and not performed (R169). -/
structure Posted where
  fn : FuncId
  pa : Nat
  bytes : List Byte
  /-- It carries Relaxed Ordering. -/
  relaxed : Bool
deriving DecidableEq, Repr

/-- The node dispatcher (R300, R301). -/
structure Dispatcher where
  launches : List Launch
  ready : List ReadyRef
  gangs : List GangRec
  owed : List OwedAdd
  /-- Next launch number (log 10). -/
  nextNum : BitVec 16
deriving DecidableEq, Repr

/-! ## Partitions, host and RAS (18, 19) -/

/-- What a partition reset is doing (R326). -/
inductive ResetStat where
  | idle | resetting | scrubbing | done
deriving DecidableEq, Repr

/-- A page request group outstanding (R332, R333). -/
structure PageGroup where
  index : Fin 32
  page : Nat
deriving DecidableEq, Repr

/-- A partition with its register window (R324, R326). Slot 0 stands for the physical function, which has none. -/
structure Part where
  xastb : Word
  xs2ctl : Word
  xqtb : Word
  xslice : Word32
  halt : Fin 4
  /-- The status that the exchange under way leaves (R318, R320). -/
  haltNext : Fin 4
  movStat : Fin 4
  movOp : Fin 4
  movCore : BitVec 9
  movCtx : BitVec 16
  /-- The move under way waits for an absent host page and has moved nothing (R332). -/
  movWait : Bool
  xmova : Word
  ncores : BitVec 9
  gpos : BitVec 6
  gsize : BitVec 7
  xxbar : Word
  qosPcie : BitVec 8
  qosChoah : BitVec 8
  qosQlink : BitVec 8
  resetSt : ResetStat
  xsubb : Word
  xsubt : Word32
  xsubh : Word32
  xpri : Word32
  lmap : Vector (BitVec 9) 384
  stripes : Vector (BitVec 256) 64
  gen : BitVec 4
  groups : List PageGroup
  /-- The page whose request has just been refused: set only while the refusal is dealt with (R332). -/
  refusing : Option Nat
  debugOn : Bool
  kvec : Word
  hvec : Word
  ivCtr : Nat
deriving DecidableEq, Repr

/-- A machine-check bank (R344). -/
structure Bank where
  mcstat : Word
  mcaddr : Word
  mcmisc : Word
  mcsynd : Word
deriving DecidableEq, Repr

/-- The marionette's registers (R348). -/
structure Debug where
  core : BitVec 9
  thread : Tid
  cmderr : Fin 8
  dcmd : Word32
  daddr : Word
  ddata : Vector Word 4
deriving DecidableEq, Repr

/-- Start-up (R337, R338). -/
structure Boot where
  /-- Stage under way: 1 boot ROM, 2 trusted firmware, 3 untrusted firmware; 5 ready. -/
  stage : Fin 6
  since : Nat
  /-- Consecutive failed starts, in non-volatile storage. -/
  failures : Nat
  minimal : Bool
  /-- Latest failure: stage, reason (1 signature, 2 timeout, 3 fatal machine check) and image digest. -/
  lastStage : Nat
  lastReason : Nat
  lastDigest : BitVec 512
  measurements : List (BitVec 512)
deriving DecidableEq, Repr

/-- Per-die energy state (R302). -/
structure DieBudget where
  budget : BitVec 24
  throttle : BitVec 3
  cap : BitVec 24
  left : Int
deriving DecidableEq, Repr

/-- A cluster's translation structures (R60). -/
structure ClusterX where
  tlb : List TlbEntry
  walks : List WalkEntry
  skew : Int
deriving DecidableEq, Repr

/-- A base die (R113). -/
structure BaseDie where
  cache : List QTlbEntry
  skew : Int
deriving DecidableEq, Repr

/-- Corrected errors that a 64 KiB page of working memory or a Q frame has logged, by time (R340). -/
structure Corrected where
  /-- The bank that logs it. -/
  die : DieId
  bank : Fin 16
  /-- Number of the 64 KiB page of working memory, or Q frame. -/
  page : Nat
  times : List Nat
deriving DecidableEq, Repr

/-- Seal generation kept by the root security controller (R119). -/
structure SealGen where
  part : FuncId
  qpage : Nat
  gen : Word
deriving DecidableEq, Repr

/-- The module. -/
structure State where
  /-- The current thread (model's own; log 1). -/
  curCore : CoreId
  curTid : Tid
  agenda : List Turn
  /-- Free-value counter (model's own; log 2). -/
  fresh : Nat
  time : Word
  wm : Memory
  host : Memory
  hostAbsent : GSet
  ats : List (FuncId × Nat)
  bars : Vector (Option Nat) 65
  peers : List (Nat × Memory)
  linksDown : List (Fin 17)
  /-- Posted writes received from the host, oldest first (R169). -/
  inbound : List Posted
  /-- Corrected errors by page (R340). -/
  corrected : List Corrected
  /-- The IEEE 1149.1 port's instruction and debug data register (R347). -/
  jtagIr : BitVec 8
  jtagDr : BitVec 73
  /-- The eight system cores (R10): their control threads and scalar translation; their other units never change (log 66). -/
  sysCores : Vector Core 8
  /-- Contexts that have translated through an agent since the last beacon (R63). -/
  users : List (XAgent × FuncId × BitVec 16)
  qmem : Memory
  wmPoison : GSet
  qPoison : GSet
  fatal : Bool
  boot : Boot
  banks : Vector (Vector Bank 16) 8
  dbg : Debug
  /-- XHCLM: core, bank, trace, claim; XTRCORE. -/
  xhclm : BitVec 12
  xtrcore : BitVec 9
  dies : Vector DieBudget 8
  parts : Vector Part 65
  seals : List SealGen
  disp : Dispatcher
  queries : List QueryRun
  pageOps : List PageOpRun
  nextId : Nat
  clusters : Vector ClusterX 48
  baseDies : Vector BaseDie 48
  engines : Vector Engine 384
  cores : Vector Core 384
deriving DecidableEq, Repr

/-! ## Reset values -/

/-- A dead vector register at power-on (R183; bytes: log 11). -/
def VecReg.reset : VecReg := ⟨0, VTag.dead, 4096, 0, false⟩
/-- The vector unit at reset (R177, R183; fault mask: log 11). -/
def VecUnit.reset : VecUnit :=
  ⟨Vector.replicate 32 VecReg.reset, Vector.replicate 16 ⟨0, false⟩, none, 0, Vector.replicate 8 none, none, []⟩
/-- A tile after mzero, power-on or partition reset (R254, R255). -/
def TileSt.zero : TileSt :=
  ⟨Vector.replicate 128 0, Vector.replicate 128 0, Vector.replicate 128 0xFF800000#32, Vector.replicate 128 0,
   Vector.replicate 128 0x3F800000#32, ⟨0, 0, false, false, 0⟩, [], 0, false, false, false, 0, 0⟩
/-- A slot at reset (R79; contents: log 12). -/
def SlotSt.reset : SlotSt := ⟨false, 0, 0, 0, false, false, Vector.replicate 128 0, 0, 0, 0, 0, []⟩
/-- The matrix unit at reset (R254 to R257). -/
def MatUnit.reset : MatUnit :=
  ⟨Vector.replicate 4 TileSt.zero, Vector.replicate 4 0, Vector.replicate 16 SlotSt.reset, none, none, none⟩
/-- A trap CSR set at reset (R306, R308). -/
def TrapSet.reset : TrapSet :=
  ⟨0, 0, 0, 0, 0, 0, false, false, false, false, false, false, false, 0, 0, 0, 0, 0, false⟩
/-- A control thread at reset (R210, R182, R231; pc, scalar registers, privilege: log 13). -/
def Thread.reset : Thread where
  pc := 0
  sregs := Vector.replicate 32 0
  priv := .user
  vl := 0
  vtype := 0
  vstart := 0
  vlive := 0xFFFFFFFFFFFF#48
  lc := 0
  ls := 0
  le := 0
  spv := 0xFFFFFFFFFFFFFFFF#64
  spn := 0
  rptst := 0
  levels := Vector.replicate 8 0
  msh := 0
  bthr := 0x3A800000#32
  bthra := 0x7F800000#32
  bmode := 0
  besc := 0
  yreq := false
  scyc := 0
  vcyc := 0
  mcyc := 0
  astl := 0
  frm := 0
  fflags := 0
  fexc := 0
  vsat := false
  ktrap := TrapSet.reset
  htrap := TrapSet.reset
  loopOff := false
  latch := none
  task := none
  wait := .none
  idling := false
  reissue := none
  frame := []
  guard := none
  copyFaults := []
  boundRep := none
  skewFault := none
  checks := []
  arrivals := []
  cbit := false
  wakeC := none
  dpc := 0
  delem := 0
  dcause := 0
  sliceOver := false
  yieldDue := false
  since := 0
  vecSaved := none
  relPending := false
  answered := []
  asked := none
/-- A counter at reset (R352). -/
def Counter.reset : Counter := ⟨0, false, 0, 0, 0, 0⟩
/-- A core at power-on (R72, R79, R254, R352). -/
def Core.reset : Core where
  threads := Vector.replicate 2 Thread.reset
  vec := VecUnit.reset
  mat := MatUnit.reset
  copies := []
  spad := []
  full := []
  spadPoison := []
  counters := Vector.replicate 8 Counter.reset
  bank := .free
  trace := .free
  ring := ⟨0, 0, 0⟩
  hamper := ⟨none, []⟩
  scalarTlb := []
  vectorTlb := []
  gatherTlb := []
  skew := 0
  residents := []
  halted := false
  step := false
  brkhalt := false
  triggers := Vector.replicate 4 ⟨0, 0⟩
/-- A system core at power-on: its threads run the management firmware on behalf of the physical function (R336; log 66). -/
def Core.system : Core :=
  { Core.reset with threads := Vector.replicate 2 { Thread.reset with priv := .hyper, task := some ⟨0, 0, 0, 0, 0⟩ } }
/-- A stream engine at reset (R121, R126). -/
def Engine.reset : Engine := ⟨[], 0, false, none, [], 0⟩
/-- A partition at power-on (R49, R112, R302, R320, R326, R331; stripe table, handlers: logs 7, 8). -/
def Part.reset : Part where
  xastb := 0
  xs2ctl := 0
  xqtb := 0
  xslice := 2000
  halt := 0
  haltNext := 0
  movStat := 0
  movOp := 0
  movCore := 0
  movCtx := 0
  movWait := false
  xmova := 0
  ncores := 0
  gpos := 0
  gsize := 1
  xxbar := 0
  qosPcie := 16
  qosChoah := 16
  qosQlink := 16
  resetSt := .idle
  xsubb := 0
  xsubt := 0
  xsubh := 0
  xpri := 0
  lmap := Vector.replicate 384 0
  stripes := Vector.replicate 64 0
  gen := 0
  groups := []
  refusing := none
  debugOn := false
  kvec := 0
  hvec := 0
  ivCtr := 0
/-- A machine-check bank at power-on (R344). -/
def Bank.reset : Bank := ⟨0, 0, 0, 0⟩
/-- The marionette's registers at reset (R348). -/
def Debug.reset : Debug := ⟨0, 0, 0, 0, 0, Vector.replicate 4 0⟩
/-- Start-up at power-on: the boot ROM runs (R337; log 6). -/
def Boot.reset : Boot := ⟨1, 0, 0, false, 0, 0, 0, []⟩

/-- The module right after power-on. -/
def State.reset : State where
  curCore := 0
  curTid := 0
  agenda := []
  fresh := 0
  time := 0
  wm := []
  host := []
  hostAbsent := []
  ats := []
  bars := Vector.replicate 65 none
  peers := []
  linksDown := []
  inbound := []
  corrected := []
  jtagIr := 0
  jtagDr := 0
  sysCores := Vector.replicate 8 Core.system
  users := []
  qmem := []
  wmPoison := []
  qPoison := []
  fatal := false
  boot := Boot.reset
  banks := Vector.replicate 8 (Vector.replicate 16 Bank.reset)
  dbg := Debug.reset
  xhclm := 0
  xtrcore := 0
  dies := Vector.replicate 8 ⟨2400, 0, 2400, 2400⟩
  parts := Vector.replicate 65 Part.reset
  seals := []
  disp := ⟨[], [], [], [], 1⟩
  queries := []
  pageOps := []
  nextId := 0
  clusters := Vector.replicate 48 ⟨[], [], 0⟩
  baseDies := Vector.replicate 48 ⟨[], 0⟩
  engines := Vector.replicate 384 Engine.reset
  cores := Vector.replicate 384 Core.reset

end Sys2Proof.Machine
end

