-- ==== Sys2Proof/Machine/Ops.lean ====
section
/-!
DEFINITION. Named operations over the state: byte memories, granule sets, registers, free values, counters, completing an
instruction (with the hardware loop's end check), taking a trap and returning from one.
-/

namespace Sys2Proof.Machine

/-- The outcome of a meaning. -/
abbrev Out := Host.Outcome State Fault Refusal

/-! ## Byte memories (R1: little-endian) -/

namespace Mem

/-- The byte at an address; an unlisted byte reads 0 (log 3). -/
def get : Memory → Nat → Byte
  | [], _ => 0
  | (k, b) :: t, a => if a = k then b else get t a

/-- Lists a byte before the first greater address. -/
def ins : Memory → Nat → Byte → Memory
  | [], a, v => [(a, v)]
  | (k, b) :: t, a, v => if a < k then (a, v) :: (k, b) :: t else (k, b) :: ins t a v

/-- Writes one byte and keeps the canonical form: rising addresses, no entry 0. -/
def set (m : Memory) (a : Nat) (v : Byte) : Memory :=
  if v = 0 then m.filter (fun c => c.1 != a) else ins (m.filter (fun c => c.1 != a)) a v

/-- Every key is above `a`, keys rise strictly and no entry is 0. -/
def above : Nat → Memory → Bool
  | _, [] => true
  | a, (k, b) :: t => decide (a < k) && b != 0 && above k t

/-- The canonical form. -/
def wf : Memory → Bool
  | [] => true
  | (k, b) :: t => b != 0 && above k t

/-- The `n` bytes from `a` up. -/
def bytes (m : Memory) (a : Nat) : Nat → List Byte
  | 0 => []
  | n + 1 => get m a :: bytes m (a + 1) n

/-- Writes a list of bytes from `a` up. -/
def setBytes (m : Memory) (a : Nat) : List Byte → Memory
  | [] => m
  | b :: t => setBytes (set m a b) (a + 1) t

/-- Zeroes the `n` bytes from `a` up. -/
def clear (m : Memory) (a n : Nat) : Memory := m.filter (fun c => !(decide (a ≤ c.1) && decide (c.1 < a + n)))

/-- The listed bytes of `[a, a+n)`, rebased at `b`. -/
def slice (m : Memory) (a n b : Nat) : Memory :=
  (m.filter (fun c => decide (a ≤ c.1) && decide (c.1 < a + n))).map (fun c => (c.1 - a + b, c.2))

/-- Writes every entry of a list of cells. -/
def blit (m : Memory) (cells : Memory) : Memory := cells.foldr (fun c acc => set acc c.1 c.2) m

end Mem

/-- The number whose little-endian bytes are given (R1). -/
def leNat : List Byte → Nat
  | [] => 0
  | b :: t => b.toNat + 256 * leNat t

/-- The `n` little-endian bytes of a number (R1). -/
def leBytes : Nat → Nat → List Byte
  | 0, _ => []
  | n + 1, v => BitVec.ofNat 8 v :: leBytes n (v / 256)

/-- `n` bytes of a list from offset `o`, as a number (missing bytes read 0). -/
def fieldAt (l : List Byte) (o n : Nat) : Nat := leNat ((l.drop o).take n)

/-- Little-endian number at an address. -/
def Mem.num (m : Memory) (a n : Nat) : Nat := leNat (Mem.bytes m a n)
/-- Writes a little-endian number. -/
def Mem.setNum (m : Memory) (a n v : Nat) : Memory := Mem.setBytes m a (leBytes n v)

/-! ## Sets of granules and pages -/

namespace NatSet

/-- Membership. -/
def has : GSet → Nat → Bool
  | [], _ => false
  | k :: t, a => if a = k then true else has t a

/-- Lists an element before the first greater one. -/
def ins : GSet → Nat → GSet
  | [], a => [a]
  | k :: t, a => if a < k then a :: k :: t else k :: ins t a

/-- Insertion in order. -/
def add (s : GSet) (a : Nat) : GSet := if has s a then s else ins s a

/-- Removal. -/
def del (s : GSet) (a : Nat) : GSet := s.filter (fun k => k != a)

/-- Adds or removes. -/
def put (s : GSet) (a : Nat) (on : Bool) : GSet := if on then add s a else del s a

/-- Every element is above `a` and elements rise strictly. -/
def above : Nat → GSet → Bool
  | _, [] => true
  | a, k :: t => decide (a < k) && above k t

/-- Strictly rising. -/
def wf : GSet → Bool
  | [] => true
  | k :: t => above k t

/-- Removes every element of `[a, a+n)`. -/
def clear (s : GSet) (a n : Nat) : GSet := s.filter (fun k => !(decide (a ≤ k) && decide (k < a + n)))

end NatSet

/-! ## Cores, threads, registers -/

/-- Core k. -/
def State.core (s : State) (k : CoreId) : Core := s.cores[k]
/-- Changes core k. -/
def State.modCore (s : State) (k : CoreId) (f : Core → Core) : State :=
  { s with cores := s.cores.set k (f s.cores[k]) }
/-- Control thread t of core k. -/
def State.thr (s : State) (k : CoreId) (t : Tid) : Thread := (s.core k).threads[t]
/-- Changes a control thread. -/
def State.modThr (s : State) (k : CoreId) (t : Tid) (f : Thread → Thread) : State :=
  s.modCore k (fun c => { c with threads := c.threads.set t (f c.threads[t]) })
/-- The current thread. -/
def State.cur (s : State) : Thread := s.thr s.curCore s.curTid
/-- Changes the current thread. -/
def State.modCur (s : State) (f : Thread → Thread) : State := s.modThr s.curCore s.curTid f
/-- The current core. -/
def State.curC (s : State) : Core := s.core s.curCore
/-- Changes the current core. -/
def State.modCurC (s : State) (f : Core → Core) : State := s.modCore s.curCore f
/-- Partition p. -/
def State.part (s : State) (p : FuncId) : Part := s.parts[p]
/-- Changes partition p. -/
def State.modPart (s : State) (p : FuncId) (f : Part → Part) : State := { s with parts := s.parts.set p (f s.parts[p]) }
/-- Changes the vector unit of the current core. -/
def State.modVec (s : State) (f : VecUnit → VecUnit) : State := s.modCurC (fun c => { c with vec := f c.vec })
/-- Changes the matrix unit of the current core. -/
def State.modMat (s : State) (f : MatUnit → MatUnit) : State := s.modCurC (fun c => { c with mat := f c.mat })
/-- Changes an engine. -/
def State.modEngine (s : State) (k : EngineId) (f : Engine → Engine) : State :=
  { s with engines := s.engines.set k (f s.engines[k]) }

/-- A scalar register: s0 reads 0 (R22). -/
def Thread.sreg (t : Thread) (r : SReg) : Word := if r = 0 then 0 else t.sregs[r]
/-- Writes a scalar register: a write of s0 is discarded (R22, R191). -/
def Thread.setSreg (t : Thread) (r : SReg) (v : Word) : Thread :=
  if r = 0 then t else { t with sregs := t.sregs.set r v }
/-- A scalar register of the current thread. -/
def State.sreg (s : State) (r : SReg) : Word := s.cur.sreg r
/-- Writes a scalar register of the current thread. -/
def State.setSreg (s : State) (r : SReg) (v : Word) : State := s.modCur (fun t => t.setSreg r v)

/-- The partition that a core belongs to: the lowest one whose valid XLMAP entries name it (R323, R326). -/
def lmapIndex (p : Part) (k : CoreId) : Option Nat :=
  (List.range p.ncores.toNat).find? (fun i => (p.lmap.toList.getD i 0).toNat == k.val)
/-- Partition of a core, 0 for none. -/
def State.corePart (s : State) (k : CoreId) : FuncId :=
  match (List.finRange 65).find? (fun p => p != 0 && (lmapIndex (s.part p) k).isSome) with
  | some p => p
  | none => 0
/-- Logical number of a core in a partition (R326). -/
def State.logical (s : State) (p : FuncId) (k : CoreId) : Option Nat := lmapIndex (s.part p) k
/-- Physical core of logical core i (R326). -/
def Part.physical (p : Part) (i : Nat) : Option CoreId :=
  if i < p.ncores.toNat then
    let n := (p.lmap.toList.getD i 0).toNat
    if h : n < 384 then some ⟨n, h⟩ else none
  else none

/-- Partition of the running task, or of the core when the thread holds none. -/
def Thread.partOf (t : Thread) (dflt : FuncId) : FuncId := match t.task with | some x => x.part | none => dflt
/-- Context number of the running task; 0 for none (R314). -/
def Thread.ctxOf (t : Thread) : BitVec 16 := match t.task with | some x => x.ctx | none => 0
/-- Launch of the running task; 0 for none. -/
def Thread.launchOf (t : Thread) : BitVec 16 := match t.task with | some x => x.launch | none => 0
/-- Address space of the running task (R48). -/
def Thread.asnOf (t : Thread) : BitVec 16 := match t.task with | some x => x.asn | none => 0
/-- Partition of the current thread. -/
def State.curPart (s : State) : FuncId := s.cur.partOf (s.corePart s.curCore)

/-! ## Free values, time, counters -/

/-- Draws a fresh free value (log 2). -/
def State.draw (s : State) : Nat × State := (s.fresh, { s with fresh := s.fresh + 1 })

/-- An agent's time-base copy (R54). -/
def copyOfTime (s : State) (skew : Int) : Nat := ((s.time.toNat : Int) + skew).toNat
/-- A core's time-base copy (R54, R165). -/
def State.coreTime (s : State) (k : CoreId) : Nat := copyOfTime s (s.core k).skew
/-- The event's thread filter admits thread t (R352). -/
def filterAdmits (f : BitVec 2) (t : Tid) : Bool :=
  match f.toNat with | 0 => true | 1 => t == 0 | 2 => t == 1 | _ => false
/-- A counter grows by n; as counter 6 it crosses multiples of its sample period 2^(S + 10) (R352). -/
def Counter.grow (x : Counter) (sampling : Bool) (n : Nat) : Counter :=
  let period := 2 ^ (x.shift.toNat + 10)
  { x with
    count := x.count + BitVec.ofNat 63 n
    samples := if sampling then x.samples + ((x.count.toNat + n) / period - x.count.toNat / period) else x.samples }
/-- Adds n to every counter of a bank that counts the event for the thread (R352). While the hypervisor holds the bank the
guest's values stay frozen (R353). -/
def Core.count (c : Core) (ev : Nat) (t : Tid) (n : Nat) : Core :=
  if c.bank = .hyper then c
  else { c with counters := Vector.ofFn (fun (j : Fin 8) =>
    let x := c.counters[j]
    if x.event.toNat = ev && filterAdmits x.filter t && ev != 0 then x.grow (j == 6) n else x) }
/-- Counts an event of the current thread (R352). -/
def State.count (s : State) (ev n : Nat) : State := s.modCurC (fun c => c.count ev s.curTid n)

/-- Accrues floating flags (R207). -/
def State.accrue (s : State) (f : BitVec 5) : State := s.modCur (fun t => { t with fflags := t.fflags ||| f })

/-! ## Completing an instruction -/

/-- The pc after the word at pc completes and control passes to the next word: the loop end check of R201. -/
def Thread.advance (t : Thread) : Thread :=
  if t.le != 0 && !t.loopOff && t.pc == t.le then
    if t.lc != 0 then { t with lc := t.lc - 1, pc := t.ls }
    else { t with le := 0, pc := t.pc + 4 }
  else { t with pc := t.pc + 4 }

/-- The instruction at pc has completed. -/
def State.advance (s : State) : State := s.modCur Thread.advance
/-- Completion with control passing elsewhere: no end check (R201). -/
def State.jump (s : State) (pc : Word) : State := s.modCur (fun t => { t with pc := pc })
/-- Writes a result register and completes. -/
def State.finish (s : State) (d : SReg) (v : Word) : State := (s.setSreg d v).advance
/-- The thread blocks at its pc; the instruction executes again when the wait ends (R312). -/
def State.block (s : State) (w : Wait) : State := s.modCur (fun t => { t with wait := w, wakeC := none })

/-! ## Traps (17) -/

/-- A synchronous trap: cause, tval, telem, and what decides its level (R306). -/
structure Trap where
  cause : BitVec 8
  tval : Word
  telem : Word
  /-- First record entry has where [3] = 1 (R306). -/
  stage2 : Bool
  /-- Cause 0x02 on a register of level H (R306). -/
  hreg : Bool
  /-- The instruction stopped part way, leaves a fault mask, or a block or frame was stopped (R308). -/
  stop : Bool
  fmask : Bool
  vblk : Bool
deriving DecidableEq, Repr

/-- A plain trap. -/
def mkTrap (cause : BitVec 8) (tval telem : Word) : Trap := ⟨cause, tval, telem, false, false, false, false, false⟩

/-- Two-stage translation is on (R49). -/
def Part.twoStage (p : Part) : Bool := p.xs2ctl.getLsbD 0

/-- The level at which a trap is taken (R306). -/
def trapLevel (s : State) (t : Thread) (tr : Trap) : Priv :=
  if t.priv = .hyper then .hyper
  else if tr.cause = 0x14 then (if t.priv = .kernel then .hyper else .kernel)
  else if tr.stage2 then .hyper
  else if tr.hreg && t.priv = .kernel && (s.part (t.partOf 0)).twoStage then .hyper
  else .kernel

/-- The privilege code of tstat.ppl (R308). -/
def privCode : Priv → BitVec 2
  | .user => 0 | .kernel => 1 | .hyper => 2

/-- rptst.active (R231). -/
def rptActive (r : Word) : Bool := r.getLsbD 0

/-- The trap set of a level. -/
def Thread.trapSet (t : Thread) (p : Priv) : TrapSet := if p = .hyper then t.htrap else t.ktrap
/-- Changes the trap set of a level. -/
def Thread.modTrapSet (t : Thread) (p : Priv) (f : TrapSet → TrapSet) : Thread :=
  if p = .hyper then { t with htrap := f t.htrap } else { t with ktrap := f t.ktrap }

/-- What trap entry writes into the set of the level taken (R307); a reissue that has not issued goes with the new trap (R309). -/
def TrapSet.enter (ts : TrapSet) (t : Thread) (tr : Trap) (tpc : Word) : TrapSet :=
  { ts with
    tcause := tr.cause, tpc := tpc, tval := tr.tval, telem := tr.telem, tvtype := t.vtype
    ppl := privCode t.priv, loop := t.le != 0, stop := tr.stop, fmask := tr.fmask || t.reissue.isSome
    hdl := true, nest := ts.hdl, rpt := rptActive t.rptst, vblk := tr.vblk, tvl := t.vl, ctx := t.ctxOf }

/-- Trap entry at a level with tpc as given (R307); tvec's 57 bits are a canonical address (R34). The words of a stopped frame are
fetched again at its return (R230). -/
def Thread.enterTrap (t : Thread) (lvl : Priv) (tr : Trap) (tpc : Word) : Thread :=
  let ts := t.trapSet lvl
  { (t.modTrapSet lvl (fun x => x.enter t tr tpc)) with
    priv := lvl, loopOff := true, pc := sext64 57 ts.tvec.toNat, wait := .none, reissue := none, frame := [] }

/-- Thread t of core k takes a trap with the given tpc. -/
def State.trapThr (s : State) (k : CoreId) (t : Tid) (tr : Trap) (tpc : Word) : State :=
  s.modThr k t (fun x => x.enterTrap (trapLevel s x tr) tr tpc)
/-- The current thread takes a trap with tpc at its instruction. -/
def State.trap (s : State) (tr : Trap) : State := s.trapThr s.curCore s.curTid tr s.cur.pc

/-- A meaning's outcome when it takes a trap at its instruction. -/
def raise (s : State) (cause : BitVec 8) (tval telem : Word) : Out := .next (s.trap (mkTrap cause tval telem))

/-- The word of the instruction, as causes 0x01 and 0x02 report it, read where it was fetched. -/
def illegalAt (s : State) (w : Word) : Out := raise s 0x01 w 0

/-- The fields of a VTYPE value: its reserved bits read 0 (R5, R213). -/
def vtypeFields (v : BitVec 11) : BitVec 11 := v &&& 0x7F8#11

/-- Return from a trap (R309): what tret restores from the set of the running level. tstat.fmask stays until the instruction at pc
has issued. -/
def Thread.returnTrap (t : Thread) (lvl : Priv) : Thread :=
  let ts := t.trapSet lvl
  let p : Priv := if ts.ppl = 0 then .user else if ts.ppl = 1 then .kernel else .hyper
  { (t.modTrapSet lvl (fun x => { x with hdl := false })) with
    pc := ts.tpc, vtype := vtypeFields ts.tvtype, vl := ts.tvl, priv := p
    loopOff := t.loopOff && !ts.loop, reissue := if ts.fmask then some lvl else none, frame := [] }

/-- The instruction that was to run under the fault mask has issued (R309). -/
def Thread.reissued (t : Thread) : Thread :=
  match t.reissue with
  | some lvl => { (t.modTrapSet lvl (fun x => { x with fmask := false })) with reissue := none }
  | none => t

/-! ## Scratchpad granules (05) -/

/-- Bytes of the scratchpad (R40). -/
def spadSize : Nat := 0x400000
/-- First byte of the lane-local region (R40). -/
def laneBase : Nat := 0x380000

/-- The allocations of a launch on a core. -/
def Core.allocsOf (c : Core) (part : FuncId) (launch : BitVec 16) : List Alloc :=
  match c.residents.find? (fun r => r.part == part && r.launch == launch) with
  | some r => r.allocs
  | none => []
/-- A general-region byte lies in one of the allocations (R76). -/
def inAllocs (l : List Alloc) (a : Nat) : Bool :=
  l.any (fun x => !x.lane && decide (x.base ≤ a) && decide (a < x.base + x.size))
/-- A slice offset lies in one of the lane-local allocations (R76). -/
def inLaneAllocs (l : List Alloc) (o : Nat) : Bool :=
  l.any (fun x => x.lane && decide (x.base ≤ o) && decide (o < x.base + x.size))
/-- Every granule of a nonempty general-region range lies in the allocations. -/
def rangeInAllocs (l : List Alloc) (a n : Nat) : Bool :=
  (List.range ((a + n + 15) / 16 - a / 16)).all (fun i => inAllocs l (16 * (a / 16 + i)))

/-- Records a guard access at an address by the instruction at pc (R77). -/
def Thread.noteGuard (t : Thread) (pc : Word) (addr : Nat) : Thread :=
  match t.guard with
  | none => { t with guard := some ⟨pc, addr, 1⟩ }
  | some g => { t with guard := some { g with count := min (g.count + 1) 0xFFFF } }

/-- A granule of core k is F (R72). -/
def Core.isFull (c : Core) (g : Nat) : Bool := NatSet.has c.full g
/-- Sets or clears a granule's bit. -/
def Core.setFull (c : Core) (g : Nat) (on : Bool) : Core := { c with full := NatSet.put c.full g on }
/-- Writes scratchpad bytes; a write of all 16 bytes of a granule clears its poison (R341). -/
def Core.spadWrite (c : Core) (a : Nat) (bs : List Byte) : Core :=
  let n := bs.length
  { c with spad := Mem.setBytes c.spad a bs
           spadPoison := c.spadPoison.filter (fun g => !(decide (a ≤ 16 * g) && decide (16 * g + 16 ≤ a + n))) }
/-- Reads scratchpad bytes. -/
def Core.spadRead (c : Core) (a n : Nat) : List Byte := Mem.bytes c.spad a n
/-- Any granule of the range is poisoned. -/
def Core.spadPoisoned (c : Core) (a n : Nat) : Bool :=
  c.spadPoison.any (fun g => decide (16 * g < a + n) && decide (a < 16 * g + 16))
/-- The granules that a range touches. -/
def granulesOf (a n : Nat) : List Nat := (List.range ((a + n + 15) / 16 - a / 16)).map (fun i => a / 16 + i)

/-- A contained machine check to deliver at the next instruction boundary of a thread (R341, R345). -/
def Thread.addCheck (t : Thread) (d : DieId) (b : Fin 16) : Thread := { t with checks := t.checks ++ [(d, b)] }
/-- The bank of a core's own structures (R343). -/
def coreBank (k : CoreId) : DieId × Fin 16 := (k.die, ⟨k.val % 48 / 8, by omega⟩)
/-- The bank of a working-memory channel (R343). -/
def channelBank (ch : Nat) : DieId × Fin 16 :=
  (⟨ch / 48 % 8, by omega⟩, ⟨8 + ch % 48 / 12, by omega⟩)

/-- A general-region range check (R41): scratchpad range fault, access fault in the lane-local region, or none. -/
def generalFault (a n : Nat) : Option (BitVec 8) :=
  if a + n > spadSize then some 0x06 else if a + n > laneBase then some 0x04 else none

end Sys2Proof.Machine
end

