-- ==== Sys2Proof/Machine/Ras.lean ====
section
/-!
DEFINITION. Recording a detected error in its bank, placing poison, counting corrected errors and delivering contained ones (spec 19
R340 to R345).
-/

namespace Sys2Proof.Machine

/-- The bank of a die (R343). -/
def State.bank (s : State) (d : DieId) (b : Fin 16) : Bank := s.banks[d][b]
/-- Changes a bank. -/
def State.modBank (s : State) (d : DieId) (b : Fin 16) (f : Bank → Bank) : State :=
  { s with banks := s.banks.set d (s.banks[d].set b (f s.banks[d][b])) }

/-- Severity code of MCSTAT (R344). -/
def sevCode (v : Severity) : Nat := match v with | .corrected => 1 | .contained => 2 | .fatal => 3

/-- MCSTAT of a fresh record; over and the corrected count as given (R344). -/
def mcstatWord (e : McEvent) (ovr : Bool) (ccount : Nat) : Word :=
  BitVec.ofNat 64 (1 + sevCode e.sev * 2 + (if ovr then 8 else 0) + (if e.addr.isSome then 16 else 0) + 32
    + e.kind.toNat * 2 ^ 8 + ccount * 2 ^ 16 + e.part.val * 2 ^ 32 + e.ctx.toNat * 2 ^ 40)
/-- MCMISC of a record (R344). -/
def mcmiscWord (e : McEvent) (time : Nat) : Word :=
  BitVec.ofNat 64 (e.core.val + e.thread.val * 2 ^ 9 + e.index.toNat * 2 ^ 10 + (time % 2 ^ 41) * 2 ^ 23)

/-- A new error arriving at a bank (R345). -/
def Bank.log (b : Bank) (e : McEvent) (time : Nat) : Bank :=
  let valid := b.mcstat.getLsbD 0
  let old := bitsOf b.mcstat.toNat 16 16
  let cc := if e.sev = .corrected then min (old + 1) 0xFFFF else old
  if !valid || bitsOf b.mcstat.toNat 1 2 < sevCode e.sev then
    ⟨mcstatWord e valid cc, (e.addr).getD 0, mcmiscWord e time, e.synd⟩
  else
    { b with mcstat := BitVec.ofNat 64 (b.mcstat.toNat - old * 2 ^ 16 + cc * 2 ^ 16) ||| 8#64 }

/-- The thread runs context ctx of a partition. -/
def Thread.isCtx (t : Thread) (p : FuncId) (ctx : BitVec 16) : Bool :=
  match t.task with | some x => x.part == p && x.ctx == ctx | none => false

/-- A contained check for a context of a core: delivered at its next boundary, when it next runs if suspended (R341). -/
def Core.deliverCheck (c : Core) (p : FuncId) (ctx : BitVec 16) (d : DieId) (b : Fin 16) : Core :=
  let put (t : Thread) : Thread := if t.isCtx p ctx then t.addCheck d b else t
  { c with
    threads := c.threads.map put
    hamper := ⟨c.hamper.full.map (fun f => { f with threads := f.threads.map put }),
      c.hamper.images.map (fun i => { i with thread := put i.thread })⟩ }

/-- Poison in a tile's row: its bound is +∞, as a residue mismatch leaves it (R286, R340). -/
def TileSt.spoil (u : TileSt) (m : Fin 128) : TileSt :=
  { u with bound := u.bound.set m 0x7F800000#32, residue := true, poisoned := u.poisoned ||| BitVec.ofNat 128 (2 ^ m.val) }

/-- Places the poison of an uncorrectable error (R340). -/
def placePoison (s : State) (p : PoisonPlace) : State :=
  match p with
  | .none => s
  | .wm g => { s with wmPoison := NatSet.add s.wmPoison g }
  | .query g => { s with qPoison := NatSet.add s.qPoison g }
  | .spad k g => s.modCore k (fun c => { c with spadPoison := NatSet.add c.spadPoison g })
  | .slot k n g =>
    if 2048 ≤ g then s
    else s.modCore k (fun c => { c with mat := { c.mat with
      slots := c.mat.slots.set n { c.mat.slots[n] with poison := NatSet.add c.mat.slots[n].poison g } } })
  | .hamper k none g => s.modCore k (fun c => { c with
      hamper := { c.hamper with full := c.hamper.full.map (fun f => { f with bad := NatSet.add f.bad g }) } })
  | .hamper k (some j) g => s.modCore k (fun c => { c with
      hamper := { c.hamper with images := c.hamper.images.zipIdx.map (fun x => if x.2 = j then { x.1 with bad := NatSet.add x.1.bad g } else x.1) } })
  | .acc k p m => s.modCore k (fun c => { c with mat := { c.mat with tiles := c.mat.tiles.set p (c.mat.tiles[p].spoil m) } })

/-- The period in which a page's corrected errors count together: 24 hours in ns (R340). -/
def scrubPeriod : Nat := 86400000000000

/-- A page of working memory or a Q frame logs a corrected error; at the sixteenth within 24 hours it is reported through its bank
(R340; how the report stands there: log 67). -/
def noteCorrected (s : State) (e : McEvent) : State :=
  match e.addr with
  | none => s
  | some a =>
    if e.kind != 1 || e.bank.val < 8 || e.bank.val > 13 then s
    else
      let page := if e.bank.val < 12 then a.toNat / 0x10000 else a.toNat
      let same (x : Corrected) : Bool := x.die == e.die && x.bank == e.bank && x.page == page
      let old := match s.corrected.find? same with | some x => x.times | none => []
      let times := old.filter (fun x => decide (s.time.toNat < x + scrubPeriod)) ++ [s.time.toNat]
      let rest := s.corrected.filter (fun x => !same x)
      if times.length < 16 then { s with corrected := rest ++ [⟨e.die, e.bank, page, times⟩] }
      else
        ({ s with corrected := rest } : State).modBank e.die e.bank
          (fun b => b.log { e with kind := if e.bank.val < 12 then 8 else 9 } s.time.toNat)

/-- Records an error, delivers a contained one, and stops the module on a fatal one (R342, R345). -/
def logError (s : State) (e : McEvent) : State :=
  let s := s.modBank e.die e.bank (fun b => b.log e s.time.toNat)
  let s := placePoison s e.poison
  match e.sev with
  | .corrected => noteCorrected (s.modCore e.core (fun c => c.count 11 e.thread 1)) e
  | .contained => s.modCore e.core (fun c => c.deliverCheck e.part e.ctx e.die e.bank)
  | .fatal => { s with fatal := true }

/-- An error of a core's own structures for the context of thread t (R343). -/
def coreError (s : State) (k : CoreId) (t : Tid) (sev : Severity) (kind : BitVec 8) (index : Nat) (synd : Word) : McEvent :=
  let th := s.thr k t
  { die := k.die, bank := (coreBank k).2, sev := sev, kind := kind, part := th.partOf 0, ctx := th.ctxOf, addr := none
    core := k, thread := t, index := BitVec.ofNat 13 index, synd := synd, poison := .none }

/-- The current context reads poisoned bytes: the error's bank names the context, which takes a contained machine check at its next
boundary (R341). -/
def State.poisonRead (s : State) (b : DieId × Fin 16) : State :=
  let e := { coreError s s.curCore s.curTid .contained 2 0 0 with die := b.1, bank := b.2 }
  (s.modBank b.1 b.2 (fun x => x.log e s.time.toNat)).modCur (fun t => t.addCheck b.1 b.2)

end Sys2Proof.Machine
end

