-- ==== Sys2Proof/Machine/Xlate.lean ====
section
/-!
DEFINITION. Translation under time leases (spec 04): page-table walks of one and two stages, cached translations and their
expiry, permission and target checks in the order of R374, and the memories that a target names.
-/

namespace Sys2Proof.Machine

/-- On whose behalf a translation is made (R48, R52, R122). -/
structure XReq where
  part : FuncId
  asn : BitVec 16
  priv : Priv
  /-- The context (R314); 0 where the device asks on its own behalf. -/
  ctx : BitVec 16
deriving DecidableEq, Repr

/-- What kind of access (R52). -/
inductive AccKind where
  | load | store | atomic | fetch
deriving DecidableEq, Repr

/-- The structure that looks the translation up (R60). -/
inductive XUnit where
  | scalar (k : CoreId)
  | vector (k : CoreId)
  | gather (k : CoreId)
  | engine (k : EngineId)
deriving DecidableEq, Repr

/-- Why an access is not performed (R374, R332). -/
inductive XFail where
  /-- Page fault: reason and where of R68. -/
  | page (reason : Nat) (loc : Nat)
  /-- Access fault, cause 0x04. -/
  | access
  /-- The host IOMMU reports the 4 KiB page absent (R332). -/
  | absent (page : Nat)
deriving DecidableEq, Repr

/-- Size of local working memory (R35). -/
def wmSize : Nat := 0x18000000000
/-- First host address (R35). -/
def hostBase : Nat := 0x8000000000000

/-- Host memory as function f sees it: an IOVA under the PASID of the function (R37, R330; log 58). -/
def hostKey (f : FuncId) (iova : Nat) : Nat := f.val * hostBase + iova
/-- A physical address as partition f's walks use it: a host address stands for the function's own (R330). -/
def hostKeyed (f : FuncId) (pa : Nat) : Nat := if hostBase ≤ pa then hostBase + hostKey f (pa - hostBase) else pa

/-- Canonical 57-bit address (R34). -/
def canonical (va : Word) : Bool :=
  let top := bitsOf va.toNat 56 8
  top = 0 || top = 255

/-- Lease of a code in ns; code 0 is uncached (R55). -/
def leaseNs (code : Nat) : Option Nat :=
  match code with
  | 0 => none | 1 => some 2000 | 2 => some 8000 | 3 => some 32000
  | 4 => some 128000 | 5 => some 512000 | 6 => some 2000000 | _ => some 8000000

/-! ## Walks -/

/-- Reads and accumulates along a path: earliest read time, expiry (none once an entry is uncached), leaves to mark. -/
structure Path where
  ts : Nat
  exp : Option Nat
  /-- The longest lease on the path (R118). -/
  most : Nat
  /-- Physical addresses of the leaves reached, for the accessed bit (R53). -/
  marks : List Nat
deriving DecidableEq, Repr

/-- Adds an entry read now with a lease code (R56). -/
def Path.addLease (p : Path) (now code : Nat) : Path :=
  { p with ts := min p.ts now
           most := max p.most ((leaseNs code).getD 0)
           exp := match p.exp, leaseNs code with | some e, some l => some (min e (now + l)) | _, _ => none }

/-- An 8-byte entry in physical memory; a reserved address reads as an invalid entry (log 17). -/
def readPte (s : State) (pa : Nat) : Nat :=
  if pa + 8 ≤ wmSize then Mem.num s.wm pa 8 else if hostBase ≤ pa then Mem.num s.host (pa - hostBase) 8 else 0

/-- Fields of a PTE (R50). -/
def pteFrame (e : Nat) : Nat := bitsOf e 16 36 * 0x10000
/-- Valid bit. -/
def pteV (e : Nat) : Bool := e.testBit 0
/-- Leaf bit. -/
def pteLeaf (e : Nat) : Bool := e.testBit 1

/-- A valid entry is malformed at a level (4 is the address-space table) of stage 1 or 2 (R51, R64). -/
def malformed (e lvl : Nat) (stage2 two : Bool) : Bool :=
  let leaf := pteLeaf e
  bitsOf e 52 5 != 0 || bitsOf e 12 4 != 0
    || (!leaf && bitsOf e 2 10 != 0)
    || (leaf && lvl ≥ 3) || (!leaf && lvl = 0)
    || (leaf && lvl = 1 && bitsOf e 16 13 != 0)
    || (leaf && lvl = 2 && bitsOf e 16 26 != 0)
    || (leaf && lvl = 2 && (stage2 || !two) && pteFrame e < hostBase)
    || (leaf && lvl > 0 && e.testBit 11)
    || (leaf && !stage2 && two && (e.testBit 11 || pteFrame e ≥ hostBase))
    || (leaf && stage2 && e.testBit 10)

/-- Table index of an address at a level (R47). -/
def levelIndex (va lvl : Nat) : Nat := if lvl = 3 then bitsOf va 55 2 else bitsOf va (16 + 13 * lvl) 13

/-- Address bits below a leaf at a level. -/
def leafSpan (lvl : Nat) : Nat := 16 + 13 * lvl

/-- A failed walk: reason and where, and the leaves that it had reached (R53). -/
abbrev WalkErr := (Nat × Nat) × List Nat
/-- A walk of stage 2. -/
abbrev WalkRes := Except WalkErr (Nat × Nat × Nat × Path)

/-- Walks stage 2 from a table base at a level for a guest physical address: (leaf entry, level, physical address, path). For a
table's address the leaf's rd and W are not asked, and a stripe leaf is used as a plain frame (log 59). -/
def walk2 (s : State) (f : FuncId) (now gpa : Nat) : Nat → Nat → Path → WalkRes
  | 0, _, p => .error ((6, 8), p.marks)
  | fuel + 1, base, p =>
    let lvl := fuel
    let addr := hostKeyed f (base + 8 * levelIndex gpa lvl)
    let e := readPte s addr
    if !pteV e then .error ((1, 8 + lvl), p.marks)
    else if malformed e lvl true true then .error ((6, 8 + lvl), p.marks)
    else
      let p := p.addLease now (bitsOf e 61 3)
      if pteLeaf e then
        .ok (e, lvl, pteFrame e + gpa % 2 ^ leafSpan lvl, { p with marks := p.marks ++ [addr] })
      else walk2 s f now gpa fuel (pteFrame e) p

/-- Stage 2 of a guest physical address (R64), or the address itself with one stage. The root's lease joins the path. -/
def stage2 (s : State) (f : FuncId) (now gpa : Nat) (p : Path) : WalkRes :=
  let pt := s.part f
  if pt.twoStage then
    walk2 s f now gpa 4 (bitsOf pt.xs2ctl.toNat 16 36 * 0x10000) (p.addLease now (bitsOf pt.xs2ctl.toNat 61 3))
  else .ok (0, 0, gpa, p)

/-- A walk-cache hit: the base of the table below, read earlier (R56, R60). -/
def walkHit (l : List WalkEntry) (now : Nat) (part : FuncId) (asn : BitVec 16) (lvl tag : Nat) : Option WalkEntry :=
  l.find? (fun w => w.part == part && w.asn == asn && w.level == lvl && w.tag == tag && decide (now < w.expiry))

/-- The address bits that select an upper-level entry at a level. -/
def walkTag (va lvl : Nat) : Nat := if lvl = 4 then 0 else bitsOf va (leafSpan lvl) (57 - leafSpan lvl)

/-- The state of a stage-1 walk: path and walk-cache entries to add. -/
structure WalkAcc where
  path : Path
  added : List WalkEntry
deriving DecidableEq, Repr

/-- Walks stage 1 from level `fuel` (4 is the address-space table entry): the leaf, its level, the guest or physical
address of the 64 KiB page, and what to cache. Entries of level 4 to 1 may come from the walk cache `wc`. -/
def walk1 (s : State) (pt : Part) (rq : XReq) (now va : Nat) (wc : List WalkEntry) :
    Nat → Nat → WalkAcc → Except WalkErr (Nat × Nat × WalkAcc)
  | 0, _, acc => .error ((6, 0), acc.path.marks)
  | fuel + 1, base, acc =>
    let lvl := fuel
    let idx := if lvl = 4 then rq.asn.toNat else levelIndex va lvl
    let loc := if lvl = 4 then 4 else lvl
    match walkHit wc now rq.part rq.asn lvl (walkTag va lvl) with
    | some w =>
      walk1 s pt rq now va wc fuel w.base
        { acc with path := { acc.path with ts := min acc.path.ts w.ts, exp := acc.path.exp.map (min w.expiry) } }
    | none =>
      match stage2 s rq.part now (base + 8 * idx) acc.path with
      | .error e => .error e
      | .ok (_, _, pa, p) =>
        let pa := hostKeyed rq.part pa
        let e := readPte s pa
        if !pteV e then .error ((1, loc), p.marks)
        else if malformed e lvl false pt.twoStage then .error ((6, loc), p.marks)
        else
          let p := p.addLease now (bitsOf e 61 3)
          if pteLeaf e then .ok (e, lvl, { acc with path := { p with marks := p.marks ++ [pa] } })
          else
            let added := match p.exp with
              | some x => acc.added ++ [⟨rq.part, rq.asn, lvl, walkTag va lvl, pteFrame e, p.ts, x⟩]
              | none => acc.added
            walk1 s pt rq now va wc fuel (pteFrame e) ⟨p, added⟩

/-- The stripe entry's member positions as a walk resolves it (R38, R334). A nonzero zero field reads as member count 0; so does a
count above 16, which R334 does not list (log 60). -/
def stripeMembers (b : BitVec 256) : List Nat :=
  let x := b.toNat
  let m := bitsOf x 0 8
  if bitsOf x 8 56 != 0 || bitsOf x 192 64 != 0 || m > 16 then []
  else (List.range m).map (fun j => bitsOf x (64 + 8 * j) 8)

/-- The stronger of two ordering kinds: 3 is reserved, 1 strongest, 2 weakest (R64). -/
def strongerKind (a b : Nat) : Nat :=
  if a = 3 || b = 3 then 3 else if a = 1 || b = 1 then 1 else if a = 0 || b = 0 then 0 else 2

/-- A completed walk: leaf, path, entries for the walk cache. -/
structure Walked where
  leaf : LeafInfo
  acc : WalkAcc
deriving DecidableEq, Repr

/-- A whole walk of both stages for one 64 KiB page (R47, R48, R64). -/
def walkPage (s : State) (rq : XReq) (now va : Nat) (wc : List WalkEntry) : Except WalkErr Walked :=
  let pt := s.part rq.part
  let start : WalkAcc := ⟨⟨now, some (now + 8000000), 0, []⟩, []⟩
  match walk1 s pt rq now va wc 5 (bitsOf pt.xastb.toNat 19 33 * 0x80000) start with
  | .error e => .error e
  | .ok (e, lvl, acc) =>
    let page := pteFrame e + (va % 2 ^ leafSpan lvl) / 0x10000 * 0x10000
    let stripeOf (x : Nat) : Option (List Nat) :=
      if x.testBit 11 then some (stripeMembers (pt.stripes.toList.getD (bitsOf x 16 6) 0)) else none
    let setOf (x : Nat) : Option Nat := if x.testBit 11 then some (bitsOf x 16 6) else none
    let one (frame : Nat) (r2 w2 x2 : Bool) (kind gen2 l2 : Nat) (d2 : Bool) (st : Option (List Nat)) (span gframe kind2 : Nat)
        (set : Option Nat) : LeafInfo :=
      { rd := e.testBit 2, w := e.testBit 3, x := e.testBit 4, user := e.testBit 5
        kind := ⟨kind % 4, by omega⟩, rd2 := r2, w2 := w2, x2 := x2, frame := frame, stripe := st
        gen := bitsOf e 57 4, gen2 := gen2, lvl := lvl, lvl2 := l2, dirty := e.testBit 7 && d2, global := e.testBit 10
        span := span, gframe := gframe, kind1 := bitsOf e 8 2, kind2 := kind2, set := set }
    if pt.twoStage then
      match stage2 s rq.part now page acc.path with
      | .error e => .error e
      | .ok (e2, l2, pa, p) =>
        let frame := if e2.testBit 11 then bitsOf e2 22 30 * 0x400000 else pa / 0x10000 * 0x10000
        .ok ⟨one frame (e2.testBit 2) (e2.testBit 3) (e2.testBit 4) (strongerKind (bitsOf e 8 2) (bitsOf e2 8 2))
          (bitsOf e2 57 4) l2 (e2.testBit 7) (stripeOf e2) (min (leafSpan lvl) (leafSpan l2)) page (bitsOf e2 8 2) (setOf e2),
          { acc with path := p }⟩
    else
      let frame := if e.testBit 11 then bitsOf e 22 30 * 0x400000 else page
      .ok ⟨one frame true true true (bitsOf e 8 2) 0 0 true (stripeOf e) (leafSpan lvl) 0 0 (setOf e), acc⟩

/-- ORs bits into a PTE in place: the walker's atomic OR (R53). -/
def orPte (s : State) (bits pa : Nat) : State :=
  if pa + 8 ≤ wmSize then { s with wm := Mem.setNum s.wm pa 8 (Mem.num s.wm pa 8 ||| bits) }
  else if hostBase ≤ pa then { s with host := Mem.setNum s.host (pa - hostBase) 8 (Mem.num s.host (pa - hostBase) 8 ||| bits) }
  else s

/-! ## Permissions and targets (R52, R374) -/

/-- The permission check: reason and where of a denial (R52, R374). -/
def permFail (lf : LeafInfo) (k : AccKind) (pv : Priv) : Option (Nat × Nat) :=
  let deny (r : Nat) (own : Bool) : Option (Nat × Nat) := some (r, if own then lf.lvl2 + 8 else lf.lvl)
  let need (r : Nat) (s1 s2 : Bool) : Option (Nat × Nat) := if s1 && s2 then none else deny r s1
  let first := match k with
    | .fetch => need 4 lf.x lf.x2
    | .load => need 2 lf.rd lf.rd2
    | .store => need 3 lf.w lf.w2
    | .atomic => match need 2 lf.rd lf.rd2 with | some x => some x | none => need 3 lf.w lf.w2
  match first with
  | some x => some x
  | none =>
    if pv = .user && !lf.user then some (5, lf.lvl)
    else if pv != .user && k = .fetch && lf.user then some (5, lf.lvl)
    else none

/-- The window that a host address falls into, for accesses of a partition at a privilege (R324; log 18). -/
def windowOf (s : State) (rq : XReq) (iova : Nat) : Option (FuncId × Nat) :=
  let hit (f : FuncId) : Bool :=
    match s.bars[f] with | some b => decide (b ≤ iova) && decide (iova < b + 0x10000) | none => false
  let off (f : FuncId) : Nat := iova - (s.bars[f]).getD 0
  if rq.part != 0 && !s.boot.minimal && hit rq.part then some (rq.part, off rq.part)
  else if rq.priv = .hyper && hit 0 then some (0, off 0)
  else none

/-- The byte that a leaf and an address name (R35, R38, R39); `stripeOk` is false for a fetch. -/
def leafTarget (s : State) (rq : XReq) (lf : LeafInfo) (va : Nat) (hostOk stripeOk : Bool) : Except XFail Tgt :=
  if lf.kind = 3 then .error .access
  else match lf.stripe with
  | some ms =>
    let pt := s.part rq.part
    let m := ms.length
    if m = 0 || !stripeOk then .error .access
    else
      let vpn := bitsOf va 16 41
      let g := bitsOf va 12 4
      let j := (vpn % m + g) % m
      let pos := ms.getD j 0
      let pa := lf.frame + bitsOf vpn 0 6 * 0x10000 + g / m * 0x1000 + bitsOf va 0 12
      if ms.any (fun x => decide (x ≥ pt.gsize.toNat)) || pa ≥ wmSize then .error .access
      else if pos = pt.gpos.toNat then .ok (.wm pa)
      else if s.boot.minimal || s.linksDown.contains ⟨pos % 16, by omega⟩ then .error .access
      else .ok (.peer pos pa)
  | none =>
    let pa := lf.frame + va % 0x10000
    if pa < wmSize then .ok (.wm pa)
    else if pa < hostBase then .error .access
    else if !hostOk then .error .access
    else
      let iova := pa - hostBase
      match windowOf s rq iova with
      | some (f, off) => if rq.priv = .user then .error .access else .ok (.window f off)
      | none =>
        -- a page in the ATS cache is used until its invalidation (R61)
        let h := hostKey rq.part iova
        if NatSet.has s.hostAbsent (h / 4096) && !s.ats.contains (rq.part, h / 4096) then .error (.absent (h / 4096))
        else .ok (.host h)

/-! ## Cached translations (R56, R57, R60) -/

/-- An entry serves the request. -/
def TlbEntry.serves (e : TlbEntry) (rq : XReq) (vpn : Nat) : Bool :=
  e.part == rq.part && (e.asn == rq.asn || e.leaf.global) && e.vpn == vpn

/-- A live entry for a page. -/
def tlbHit (l : List TlbEntry) (now : Nat) (rq : XReq) (vpn : Nat) : Option TlbEntry :=
  l.find? (fun e => e.serves rq vpn && decide (now < e.expiry))

/-- Adds an entry, newest first, within a capacity. -/
def tlbAdd (l : List TlbEntry) (cap : Nat) (e : TlbEntry) : List TlbEntry :=
  (e :: l.filter (fun x => !(x.part == e.part && x.asn == e.asn && x.vpn == e.vpn))).take cap

/-- The gather TLB's bank of a page (R61). -/
def gatherBank (vpn : Nat) : Nat := (bitsOf vpn 0 4) ^^^ (bitsOf vpn 4 4)
/-- Adds an entry to its gather bank of 64. -/
def gatherAdd (l : List TlbEntry) (e : TlbEntry) : List TlbEntry :=
  let same := l.filter (fun x => gatherBank x.vpn == gatherBank e.vpn)
  let other := l.filter (fun x => gatherBank x.vpn != gatherBank e.vpn)
  tlbAdd same 64 e ++ other

/-- Entries that a structure holds. -/
def unitTlb (s : State) (u : XUnit) : List TlbEntry :=
  match u with
  | .scalar k => (s.core k).scalarTlb | .vector k => (s.core k).vectorTlb | .gather k => (s.core k).gatherTlb
  | .engine k => s.engines[k].tlb
/-- The structure's time-base copy. -/
def unitTime (s : State) (u : XUnit) : Nat :=
  match u with
  | .scalar k => s.coreTime k | .vector k => s.coreTime k | .gather k => s.coreTime k
  | .engine k => copyOfTime s s.engines[k].skew
/-- Caches an entry in a structure (R60). -/
def unitAdd (s : State) (u : XUnit) (e : TlbEntry) : State :=
  match u with
  | .scalar k => s.modCore k (fun c => { c with scalarTlb := tlbAdd c.scalarTlb 32 e })
  | .vector k => s.modCore k (fun c => { c with vectorTlb := tlbAdd c.vectorTlb 64 e })
  | .gather k => s.modCore k (fun c => { c with gatherTlb := gatherAdd c.gatherTlb e })
  | .engine k => s.modEngine k (fun x => { x with tlb := tlbAdd x.tlb 64 e })
/-- Drops a page's entries from a structure (R53, R57). -/
def unitDrop (s : State) (u : XUnit) (rq : XReq) (vpn : Nat) : State :=
  let out (l : List TlbEntry) := l.filter (fun e => !(e.serves rq vpn))
  match u with
  | .scalar k => s.modCore k (fun c => { c with scalarTlb := out c.scalarTlb })
  | .vector k => s.modCore k (fun c => { c with vectorTlb := out c.vectorTlb })
  | .gather k => s.modCore k (fun c => { c with gatherTlb := out c.gatherTlb })
  | .engine k => s.modEngine k (fun x => { x with tlb := out x.tlb })

/-- The cluster whose second-level TLB and walker serve a unit; an engine has its own walker (R60). -/
def unitCluster (u : XUnit) : Option ClusterId :=
  match u with
  | .scalar k => some k.cluster | .vector k => some k.cluster | .gather k => some k.cluster | .engine _ => none
/-- The core of a unit. -/
def unitCore (u : XUnit) : CoreId :=
  match u with | .scalar k => k | .vector k => k | .gather k => k | .engine k => k

/-- Changes a cluster's translation structures. -/
def State.modCluster (s : State) (c : ClusterId) (f : ClusterX → ClusterX) : State :=
  { s with clusters := s.clusters.set c (f s.clusters[c]) }

/-- The thread for which an event of a unit is counted (R352). -/
def unitTid (s : State) (u : XUnit) : Tid := if unitCore u = s.curCore then s.curTid else 0

/-- The agent whose time-base copy governs a unit's entries (R54, R63). -/
def unitAgent (u : XUnit) : XAgent :=
  match u with | .scalar k => .core k | .vector k => .core k | .gather k => .core k | .engine k => .engine k
/-- A context translates through an agent (R63). -/
def State.noteUse (s : State) (ag : XAgent) (rq : XReq) : State :=
  if rq.ctx = 0 || s.users.contains (ag, rq.part, rq.ctx) then s else { s with users := s.users ++ [(ag, rq.part, rq.ctx)] }

/-- A page is walked: the accessed bit is set in every leaf that the walk reaches, whether or not it succeeds, and for a write that
the leaf permits the dirty bit in the page's own leaves (R53; what a write that is denied otherwise, and the walker's own writes of
guest tables, leave: log 40, log 59). With `again` no walk-cache entry is used. -/
def walkLeaf (s : State) (u : XUnit) (rq : XReq) (write again : Bool) (va : Nat) : State × Except (Nat × Nat) Walked :=
  let now := match unitCluster u with | some c => copyOfTime s s.clusters[c].skew | none => unitTime s u
  let wc := match unitCluster u with | some c => if again then [] else s.clusters[c].walks | none => []
  let s := s.modCore (unitCore u) (fun c => match u with | .engine _ => c | _ => c.count 7 (unitTid s u) 1)
  match walkPage s rq now va wc with
  | .error e => (e.2.foldl (fun s pa => orPte s 0x40 pa) s, .error e.1)
  | .ok w =>
    let s := w.acc.path.marks.foldl (fun s pa => orPte s 0x40 pa) s
    let dset := write && w.leaf.w && w.leaf.w2
    let leaves := w.acc.path.marks.reverse.take (if (s.part rq.part).twoStage then 2 else 1)
    let s := if dset then leaves.foldl (fun s pa => orPte s 0x80 pa) s else s
    (s, .ok (if dset then { w with leaf := { w.leaf with dirty := true } } else w))

/-- What a walk found is cached in the unit and its cluster, when its lease allows (R55, R56, R60). -/
def cacheWalk (s : State) (u : XUnit) (rq : XReq) (va : Nat) (w : Walked) : State :=
  match w.acc.path.exp with
  | none => s
  | some x =>
    let e : TlbEntry := ⟨rq.part, rq.asn, bitsOf va 16 41, w.leaf, w.acc.path.ts, x⟩
    let s := match unitCluster u with
      | some c => s.modCluster c (fun y => { y with tlb := tlbAdd y.tlb 4096 e, walks := (w.acc.added ++ y.walks).take 512 })
      | none => s
    unitAdd s u e

/-- The leaf of a page: a live cached entry, the cluster's, or a new walk (R53, R56, R57). With `again` the page is walked whatever
is cached. -/
def leafOf (s : State) (u : XUnit) (rq : XReq) (write again : Bool) (va : Nat) : State × Except (Nat × Nat) LeafInfo :=
  let vpn := bitsOf va 16 41
  let usable (e : TlbEntry) : Bool := !write || e.leaf.dirty
  let s := s.noteUse (unitAgent u) rq
  let walk (s : State) : State × Except (Nat × Nat) LeafInfo :=
    let s := match unitCluster u with | some c => s.noteUse (.cluster c) rq | none => s
    match walkLeaf s u rq write again va with
    | (s, .error e) => (s, .error e)
    | (s, .ok w) => (cacheWalk s u rq va w, .ok w.leaf)
  if again then walk (unitDrop s u rq vpn)
  else match tlbHit (unitTlb s u) (unitTime s u) rq vpn with
  | some e => if usable e then (s, .ok e.leaf) else walk (unitDrop s u rq vpn)
  | none =>
    let s := match u with | .gather k => s.modCore k (fun c => c.count 6 (unitTid s u) 1) | _ => s
    match unitCluster u with
    | none => walk s
    | some c =>
      match tlbHit s.clusters[c].tlb (copyOfTime s s.clusters[c].skew) rq vpn with
      | some e => if usable e then (unitAdd (s.noteUse (.cluster c) rq) u e, .ok e.leaf) else walk s
      | none => walk s

/-- The endpoint caches the IOMMU's translation of a host page (R61). -/
def State.noteAts (s : State) (f : FuncId) (t : Tgt) : State :=
  match t with
  | .host iova => if s.ats.contains (f, iova / 4096) then s else { s with ats := s.ats ++ [(f, iova / 4096)] }
  | _ => s

/-- What follows the walk in the order of R374: permissions, then the target. -/
def checkLeaf (s : State) (rq : XReq) (k : AccKind) (va : Word) (hostOk : Bool) (lf : LeafInfo) : State × Except XFail (Tgt × LeafInfo) :=
  match permFail lf k rq.priv with
  | some (r, w) => (s, .error (.page r w))
  | none =>
    match leafTarget s rq lf va.toNat hostOk (k != .fetch) with
    | .error f => (s, .error f)
    | .ok t => (s.noteAts rq.part t, .ok (t, lf))

/-- The access writes. -/
def AccKind.writes (k : AccKind) : Bool := match k with | .store => true | .atomic => true | _ => false

/-- A translated generic access in the order of R374: walk, permissions, target. -/
def translate (s : State) (u : XUnit) (rq : XReq) (k : AccKind) (va : Word) (hostOk : Bool) : State × Except XFail (Tgt × LeafInfo) :=
  match leafOf s u rq k.writes false va.toNat with
  | (s, .error (r, w)) => (s, .error (.page r w))
  | (s, .ok lf) => checkLeaf s rq k va hostOk lf

/-! ## Memories behind a target -/

/-- A peer's working memory (R38, R167). -/
def State.peerMem (s : State) (pos : Nat) : Memory :=
  match s.peers.find? (fun p => p.1 == pos) with | some p => p.2 | none => []
/-- Writes a peer's working memory; positions rise strictly and no memory listed is empty. -/
def State.setPeerMem (s : State) (pos : Nat) (m : Memory) : State :=
  let rest := s.peers.filter (fun p => p.1 != pos)
  let lower := rest.filter (fun p => decide (p.1 < pos))
  let upper := rest.filter (fun p => decide (pos < p.1))
  { s with peers := lower ++ (if m.isEmpty then [] else [(pos, m)]) ++ upper }

/-- A target some bytes further on. -/
def Tgt.plus (t : Tgt) (n : Nat) : Tgt :=
  match t with
  | .wm pa => .wm (pa + n) | .host a => .host (a + n) | .peer p pa => .peer p (pa + n) | .window f o => .window f (o + n)

/-- Reads bytes at a target: the bytes, and whether any is poisoned (R341). -/
def tgtRead (s : State) (t : Tgt) (n : Nat) : List Byte × Bool :=
  match t with
  | .wm pa => (Mem.bytes s.wm pa n, (granulesOf pa n).any (fun g => NatSet.has s.wmPoison g))
  | .host iova => (Mem.bytes s.host iova n, false)
  | .peer pos pa => (Mem.bytes (s.peerMem pos) pa n, false)
  | .window _ _ => (leBytes n 0, false)

/-- Writes bytes at a target; a write of all 16 bytes of a granule clears its poison (R341). -/
def tgtWrite (s : State) (t : Tgt) (bs : List Byte) : State :=
  match t with
  | .wm pa =>
    { s with wm := Mem.setBytes s.wm pa bs
             wmPoison := s.wmPoison.filter (fun g => !(decide (pa ≤ 16 * g) && decide (16 * g + 16 ≤ pa + bs.length))) }
  | .host iova => { s with host := Mem.setBytes s.host iova bs }
  | .peer pos pa => s.setPeerMem pos (Mem.setBytes (s.peerMem pos) pa bs)
  | .window _ _ => s

/-- The bank that reports poison at a target (R343). -/
def tgtBank (t : Tgt) : DieId × Fin 16 :=
  match t with
  | .wm pa => channelBank (pa / 0x100000000)
  | _ => channelBank 0

/-- Moves poison of a written granule (R341: engines and copies move poison with the data). -/
def tgtPoison (s : State) (t : Tgt) (n : Nat) : State :=
  match t with
  | .wm pa => { s with wmPoison := (granulesOf pa n).foldl NatSet.add s.wmPoison }
  | _ => s

/-- Who asks, for the current thread. -/
def State.curReq (s : State) : XReq := ⟨s.curPart, s.cur.asnOf, s.cur.priv, s.cur.ctxOf⟩

/-- An aligned generic read on a request, crossing no page: bytes and poison, or why not. -/
def genericRead (s : State) (u : XUnit) (rq : XReq) (va : Word) (n : Nat) (hostOk : Bool) : State × Except XFail (List Byte × Bool) :=
  if !canonical va then (s, .error .access)
  else match translate s u rq .load va hostOk with
  | (s, .error f) => (s, .error f)
  | (s, .ok (.window _ _, _)) => (s, .error .access)
  | (s, .ok (t, _)) => (s, .ok (tgtRead s t n))

/-- An aligned generic write on a request, crossing no page. -/
def genericWrite (s : State) (u : XUnit) (rq : XReq) (va : Word) (bs : List Byte) (hostOk : Bool) : State × Except XFail Unit :=
  if !canonical va then (s, .error .access)
  else match translate s u rq .store va hostOk with
  | (s, .error f) => (s, .error f)
  | (s, .ok (.window _ _, _)) => (s, .error .access)
  | (s, .ok (t, _)) => (tgtWrite s t bs, .ok ())

/-- Reads a run of generic bytes in 16-byte pieces (pieces never cross a page when the base is 16-byte aligned). -/
def genericReadRun (s : State) (u : XUnit) (rq : XReq) (hostOk : Bool) : Nat → Word → State × Except (XFail × Word) (List Byte)
  | 0, _ => (s, .ok [])
  | n + 1, va =>
    match genericRead s u rq va 16 hostOk with
    | (s, .error f) => (s, .error (f, va))
    | (s, .ok (bs, _)) =>
      match genericReadRun s u rq hostOk n (va + 16) with
      | (s, .error e) => (s, .error e)
      | (s, .ok r) => (s, .ok (bs ++ r))

/-- An atomic add to a 64-bit generic counter for the device (R117, R305): why it was not made, if it was not. -/
def counterAdd (s : State) (u : XUnit) (rq : XReq) (va : Word) (v : Nat) : State × Option XFail :=
  if !canonical va then (s, some .access)
  else match translate s u rq .atomic va true with
  | (s, .error f) => (s, some f)
  | (s, .ok (.window _ _, _)) => (s, some .access)
  | (s, .ok (t, _)) => (tgtWrite s t (leBytes 8 (leNat (tgtRead s t 8).1 + v)), none)

end Sys2Proof.Machine
end

