-- ==== Sys2Proof/Machine/Records.lean ====
section
/-!
DEFINITION. Page faults with their batch records (spec 04 R66 to R69), page requests to the host (18 R332), and the report points before barrier-class instructions and task ends (05 R77, 07 R127, 15 R285).
-/

namespace Sys2Proof.Machine

/-- One entry of a batch record (R68). -/
structure PageEntry where
  page : Word
  elem : Nat
  reason : Nat
  loc : Nat
deriving DecidableEq, Repr

/-- Kind byte of a record (R68). -/
def accKindCode (k : AccKind) : Nat :=
  match k with | .load => 0 | .store => 1 | .atomic => 2 | .fetch => 3

/-- The 544 bytes of a batch record (R68). -/
def recordBytes (pc : Word) (kind flags vl : Nat) (time : Nat) (nmask : Nat) (l : List PageEntry) : List Byte :=
  let l := l.take 32
  leBytes 8 pc.toNat ++ leBytes 2 l.length ++ leBytes 1 kind ++ leBytes 1 flags ++ leBytes 4 vl ++ leBytes 8 time
    ++ leBytes 4 nmask ++ leBytes 4 0
    ++ (l.map (fun e => leBytes 8 e.page.toNat ++ leBytes 4 e.elem ++ leBytes 1 e.reason ++ leBytes 1 e.loc ++ leBytes 2 0)).flatten
    ++ List.replicate ((32 - l.length) * 16) 0

/-- tfbuf's buffer address. -/
def TrapSet.fbAddr (t : TrapSet) : Nat := t.fbBase.toNat * 32

/-- Writes a record into the buffer of a trap set when it is enabled (R69). -/
def writeRecord (s : State) (k : CoreId) (t : Tid) (lvl : Priv) (bs : List Byte) : State :=
  let ts := (s.thr k t).trapSet lvl
  if ts.fbEn then s.modCore k (fun c => c.spadWrite ts.fbAddr bs) else s

/-- A page fault or query page fault of the current thread: record written, trap taken (R66 to R69, R115). -/
def pageFault (s : State) (cause : BitVec 8) (tval : Word) (kind : Nat) (l : List PageEntry) (held : Bool) (vl nmask : Nat)
    (stop fmask : Bool) : State :=
  let t := s.cur
  let first : PageEntry := l.headD ⟨0, 0, 0, 0⟩
  let tr : Trap := ⟨cause, tval, BitVec.ofNat 64 first.elem, first.loc.testBit 3, false, stop, fmask, false⟩
  let two := (s.part (t.partOf 0)).twoStage
  let flags := (if l.length > 32 then 1 else 0) + (if two then 2 else 0) + (if held then 4 else 0)
  let bs := recordBytes t.pc kind flags vl (s.coreTime s.curCore) nmask l
  (writeRecord s s.curCore s.curTid (trapLevel s t tr) bs).trap tr

/-- A fault with several pages: tval is the first page of the record (R67, R115). -/
def batchFault (s : State) (cause : BitVec 8) (kind : Nat) (l : List PageEntry) (held : Bool) (vl nmask : Nat)
    (stop fmask : Bool) : State :=
  pageFault s cause (l.headD ⟨0, 0, 0, 0⟩).page kind l held vl nmask stop fmask

/-- The 64 KiB page address of a generic address. -/
def pageAddr (va : Word) : Word := BitVec.ofNat 64 (va.toNat / 0x10000 * 0x10000)

/-- A one-page fault of a scalar access or a fetch (R66): tval is the address of an access (R81, R158, R295) and the page of a
fetch (R67, R311); log 37. -/
def scalarPageFault (s : State) (k : AccKind) (va : Word) (reason loc : Nat) : State :=
  let tval := match k with | .fetch => pageAddr va | _ => va
  pageFault s 0x05 tval (accKindCode k) [⟨pageAddr va, 0, reason, loc⟩] false 0 0 false false

/-! ## Absent host pages (R332) -/

/-- A page request group for a page is outstanding. -/
def Part.asked (p : Part) (page : Nat) : Bool := p.groups.any (fun g => g.page == page)

/-- Sends a page request under a free group index of the function, unless one is out for the page or none is free. -/
def requestPage (s : State) (f : FuncId) (page : Nat) : State :=
  let p := s.part f
  if p.asked page then s
  else match (List.finRange 32).find? (fun i => !p.groups.any (fun g => g.index == i)) with
    | some i => s.modPart f (fun p => { p with groups := p.groups ++ [⟨i, page⟩] })
    | none => s

/-- A transfer of a function meets an absent page: it is asked for, or its refusal is dealt with (R332). -/
def awaitPage (s : State) (f : FuncId) (page : Nat) (refused : State → State) : State :=
  if (s.part f).refusing = some page then refused s else requestPage s f page

/-- The current thread's access met an absent page: suspend, or fault with reason 7 when the request was refused; no table entry
fails then, and where is 0 (log 61). -/
def hostSuspend (s : State) (k : AccKind) (va : Word) (page : Nat) : State :=
  if s.cur.answered.contains (page, false) then
    scalarPageFault (s.modCur (fun t => { t with answered := t.answered.filter (· != (page, false)) })) k va 7 0
  else (requestPage s s.curPart page).block (.hostPage page false)

/-- A failed scalar access: page fault, access fault, or suspension (R81). -/
def scalarFail (s : State) (k : AccKind) (va : Word) (f : XFail) : Out :=
  match f with
  | .page r w => .next (scalarPageFault s k va r w)
  | .access => raise s 0x04 va 0
  | .absent p => .next (hostSuspend s k va p)

/-- A failed piece of an image that an instruction moves (R275): as `scalarFail`, with the page in tval, as R67 has it. -/
def pieceFail (s : State) (k : AccKind) (va : Word) (f : XFail) : Out :=
  match f with
  | .page r w => .next (pageFault s 0x05 (pageAddr va) (accKindCode k) [⟨pageAddr va, 0, r, w⟩] false 0 0 false false)
  | .access => raise s 0x04 va 0
  | .absent p =>
    if s.cur.answered.contains (p, false) then
      let s := s.modCur (fun t => { t with answered := t.answered.filter (· != (p, false)) })
      .next (pageFault s 0x05 (pageAddr va) (accKindCode k) [⟨pageAddr va, 0, 7, 0⟩] false 0 0 false false)
    else .next ((requestPage s s.curPart p).block (.hostPage p false))

/-! ## Report points (R77, R127, R285) -/

/-- telem of a guard fault (R77). -/
def guardElem (g : GuardRec) : Word :=
  BitVec.ofNat 64 (g.addr % 0x400000 + (if g.addr < laneBase then bitsOf g.addr 4 6 else bitsOf g.addr 13 6) * 0x400000
    + g.count * 0x100000000)

/-- telem of a bound threshold trap (R285). -/
def boundElem (b : BoundRep) : Word :=
  BitVec.ofNat 64 (b.tile.val + 4 * b.row + (if b.reissued then 512 else 0) + (if b.unusable then 1024 else 0)
    + (if b.poisoned then 2048 else 0))

/-- One resume entry of 128 bytes: the copy block, then its progress (R141). -/
def resumeEntry (c : SavedCopy) (status : Nat) (arrived : Nat) : List Byte :=
  let blk := leBytes 64 c.cmd.block.toNat
  let x (d : Nat) := max 1 (fieldAt blk (24 + 4 * d) 4)
  let n := c.cmd.next
  let j0 := n % x 0
  let j1 := n / x 0 % x 1
  let j2 := n / x 0 / x 1 % x 2
  let j3 := n / x 0 / x 1 / x 2
  let scope := match c.cmd.fl.scope with | .core => 0 | .cluster => 1 | .die => 2 | .package => 3 | .gang => 4 | .system => 5
  let fl := (if c.cmd.fl.acq then 32 else 0) + (if c.cmd.fl.rel then 16 else 0) + scope * 2
  blk ++ leBytes 4 j0 ++ leBytes 4 j1 ++ leBytes 4 j2 ++ leBytes 4 j3 ++ leBytes 8 c.cmd.landed ++ leBytes 8 (match c.cmd.counter with | some a => a.toNat | none => 0)
    ++ leBytes 4 (c.cmd.barrier.getD 0) ++ leBytes 1 fl ++ leBytes 1 (if c.bind.isSome then 1 else 0)
    ++ leBytes 1 (match c.bind with | some r => 24 + r.val | none => 0) ++ leBytes 1 status
    ++ leBytes 8 (match c.cmd.parts with | p :: _ => p.toNat | [] => 0) ++ leBytes 8 arrived ++ leBytes 8 c.faultAddr.toNat

/-- The pending guard fault, as its trap, with the record cleared. -/
def takeGuard (s : State) : Option State :=
  match s.cur.guard with
  | some g => some ((s.modCur (fun t => { t with guard := none })).trap (mkTrap 0x07 g.pc (guardElem g)))
  | none => none

/-- The oldest pending copy fault, as its trap; a copy-unit fault leaves its resume entry in the buffer (R137). -/
def takeCopyFault (s : State) : Option State :=
  match s.cur.copyFaults with
  | [] => none
  | f :: rest =>
    let s := s.modCur (fun t => { t with copyFaults := rest })
    let tr := mkTrap 0x0B f.tval (BitVec.ofNat 64 f.reason)
    let s := match f.resume with
      | some c => writeRecord s s.curCore s.curTid (trapLevel s s.cur tr)
          (resumeEntry c 1 (match c.cmd.barrier with | some b => leNat (s.curC.spadRead b 8) | none => 0))
      | none => s
    some (s.trap tr)

/-- The pending bound threshold trap. -/
def takeBound (s : State) : Option State :=
  match s.cur.boundRep with
  | some b => some ((s.modCur (fun t => { t with boundRep := none })).trap (mkTrap 0x0D b.pc (boundElem b)))
  | none => none

/-- The report that a barrier-class or task-ending instruction makes first: guard, copy, bound. -/
def reportAll (s : State) : Option State :=
  match takeGuard s with
  | some x => some x
  | none => match takeCopyFault s with
    | some x => some x
    | none => takeBound s

end Sys2Proof.Machine
end

