-- ==== Sys2Proof/Machine/Operands.lean ====
section
/-!
DEFINITION. Operand forms of scalar instructions: immediates, offsets, access sizes, the instruction's own word, and the
checks of place and privilege (spec 02 R16, R18, R20; 00 R4).
-/

namespace Sys2Proof.Machine

/-- Bytes of an access width (R20). -/
def Width.bytes : Width → Nat
  | .b1 => 1 | .b2 => 2 | .b4 => 4 | .b8 => 8

/-- A signed immediate extended to 64 bits (R7). -/
def simm {n : Nat} (v : BitVec n) : Word := v.signExtend 64
/-- An unsigned immediate extended to 64 bits (R7). -/
def uimm {n : Nat} (v : BitVec n) : Word := v.zeroExtend 64
/-- A word offset in bytes (R20). -/
def wordOff {n : Nat} (v : BitVec n) : Word := simm v * 4
/-- An access offset scaled by its width (R20, R81). -/
def scaledOff {n : Nat} (v : BitVec n) (w : Width) : Word := simm v * BitVec.ofNat 64 (Width.bytes w)

/-- The word of an instruction, for tval (R311). -/
def wordOf (i : Instr) : Word := match encode i with | some w => w.zeroExtend 64 | none => 0

/-- Illegal instruction: the word is illegal where it stands (R16). -/
def illegal (s : State) (i : Instr) : Out := raise s 0x01 (wordOf i) 0
/-- Privileged instruction (R4). -/
def privileged (s : State) (i : Instr) : Out := raise s 0x02 (wordOf i) 0
/-- Privileged instruction on a register of level H (R4, R306). -/
def privilegedH (s : State) (i : Instr) : Out :=
  .next (s.trap { mkTrap 0x02 (wordOf i) 0 with hreg := true })

/-- A meaning for kernel level and above (R4). -/
def atKernel (i : Instr) (s : State) (k : State → Out) : Out :=
  if s.cur.priv = .user then privileged s i else k s

/-- The same for an instruction given by its word. -/
def atKernelWord (w : Word32) (s : State) (k : State → Out) : Out :=
  if s.cur.priv = .user then raise s 0x02 (w.zeroExtend 64) 0 else k s

/-- A scalar computation of one register from two (R192). -/
def alu2 (d a b : SReg) (f : Word → Word → Word) (s : State) : Out := .next (s.finish d (f (s.sreg a) (s.sreg b)))
/-- A scalar computation of one register from one (R194, R195). -/
def alu1 (d a : SReg) (f : Word → Word) (s : State) : Out := .next (s.finish d (f (s.sreg a)))

/-- 1 or 0 as a register value. -/
def ofBool (b : Bool) : Word := if b then 1 else 0

/-- A transfer of control: the target is checked before anything is written (R199), and no end check is made (R201). -/
def transfer (s : State) (tgt : Word) (link : Option SReg) (aligned : Bool) : Out :=
  if !canonical tgt then raise s 0x0C tgt 0
  else if aligned && tgt.toNat % 4 != 0 then raise s 0x03 tgt 0
  else
    let ret := s.cur.pc + 4
    let s := match link with | some d => s.setSreg d ret | none => s
    .next (s.jump tgt)

/-- A conditional branch (R198): not taken, the next word with its end check. -/
def branch (c : Word → Word → Bool) (a b : SReg) (off : BitVec 13) (s : State) : Out :=
  if c (s.sreg a) (s.sreg b) then transfer s (s.cur.pc + wordOff off) none false else .next s.advance

/-- The rounding mode of a scalar floating word (R26, R204): its own, or frm's. -/
def frmMode (c : BitVec 3) : Rounding :=
  match c.toNat with | 1 => .rtz | 2 => .rup | 3 => .rdn | 4 => .rna | _ => .rne
/-- A rounding field against a default. -/
def RmField.get (r : RmField) (d : Rounding) : Rounding := match r with | .mode m => m | .dflt => d

end Sys2Proof.Machine
end

