-- ==== Sys2Proof/Machine/Csr.lean ====
section
/-!
DEFINITION. The control and status registers and their instructions (spec 11 R202, R208 to R210; 10 R182; 12 R231; 17 R306,
R308; 04 R69; 19 R352, R353).
-/

namespace Sys2Proof.Machine

/-- Level needed to read and to write a CSR: none for "—" (R208, R210, R182). -/
def csrLevels (n : Nat) : Priv × Option Priv :=
  if n ≤ 2 then (.user, none)
  else if n = 3 || n = 5 then (.user, some .user)
  else if n = 4 || (0x20 ≤ n && n ≤ 0x5F) || n = 0x65 then (.user, some .kernel)
  else if 0x60 ≤ n && n ≤ 0x64 then (.user, some .user)
  else if 0x70 ≤ n && n ≤ 0x7A then (.user, none)
  else if 0x80 ≤ n && n ≤ 0x88 then (.kernel, some .kernel)
  else if n = 0x90 then (.user, none)
  else if n = 0x91 then (.kernel, some .kernel)
  else if 0x92 ≤ n && n ≤ 0x95 then (.user, some .kernel)
  else if 0x98 ≤ n && n ≤ 0x9B then (.user, some .user)
  else if n = 0xA1 || (0xB0 ≤ n && n ≤ 0xBB) then (.user, some .kernel)
  else (.user, some .user)

/-- tstat as a word (R308). -/
def TrapSet.tstat (t : TrapSet) : Word :=
  let b (x : Bool) (i : Nat) : Nat := if x then 2 ^ i else 0
  BitVec.ofNat 64 (t.ppl.toNat + b t.loop 2 + b t.stop 3 + b t.fmask 4 + b t.hdl 5 + b t.nest 6 + b t.rpt 7 + b t.vblk 8
    + t.tvl.toNat * 2 ^ 12 + t.ctx.toNat * 2 ^ 32)
/-- A write of tstat: ctx is read-only (R308). -/
def TrapSet.setTstat (t : TrapSet) (v : Word) : TrapSet :=
  { t with
    ppl := v.extractLsb' 0 2, loop := v.getLsbD 2, stop := v.getLsbD 3, fmask := v.getLsbD 4, hdl := v.getLsbD 5
    nest := v.getLsbD 6, rpt := v.getLsbD 7, vblk := v.getLsbD 8, tvl := v.extractLsb' 12 13 }
/-- A write of tfbuf: base always; en only where all 544 bytes lie in the general region (R69). -/
def TrapSet.setTfbuf (t : TrapSet) (v : Word) : TrapSet :=
  let b : BitVec 17 := v.extractLsb' 5 17
  { t with fbBase := b, fbEn := v.getLsbD 0 && decide (b.toNat * 32 + 544 ≤ laneBase) }
/-- tfbuf as a word (R69). -/
def TrapSet.tfbuf (t : TrapSet) : Word := BitVec.ofNat 64 (t.fbBase.toNat * 32 + (if t.fbEn then 1 else 0))

/-- aext as a word (R255). -/
def AExt.word (a : AExt) : Word :=
  BitVec.ofNat 64 (a.mrows.toNat + a.ncols.toNat * 256 + (if a.hi then 0x10000 else 0) + (if a.lo then 0x20000 else 0)
    + a.partner.val * 0x40000)
/-- aext from a word (R255). -/
def AExt.ofWord (v : Word) : AExt :=
  ⟨v.extractLsb' 0 8, v.extractLsb' 8 8, v.getLsbD 16, v.getLsbD 17, ⟨bitsOf v.toNat 18 2, by
    have : bitsOf v.toNat 18 2 < 4 := Nat.mod_lt _ (by decide)
    exact this⟩⟩
/-- acown as a word (R256). -/
def MatUnit.acownWord (m : MatUnit) : Word :=
  BitVec.ofNat 64 (m.acown[0].toNat + m.acown[1].toNat * 2 ^ 16 + m.acown[2].toNat * 2 ^ 32 + m.acown[3].toNat * 2 ^ 48)
/-- acown from a word (R256). -/
def MatUnit.setAcown (m : MatUnit) (v : Word) : MatUnit :=
  { m with acown := #v[v.extractLsb' 0 16, v.extractLsb' 16 16, v.extractLsb' 32 16, v.extractLsb' 48 16] }

/-- vdirty (R182). -/
def VecUnit.dirtyBits (v : VecUnit) : Nat :=
  (List.finRange 32).foldl (fun a n => a + (if v.regs[n].dirty then 2 ^ n.val else 0)) 0
    + (List.finRange 16).foldl (fun a m => a + (if v.masks[m].dirty then 2 ^ (32 + m.val) else 0)) 0
/-- A write of vdirty (R182). -/
def VecUnit.setDirty (v : VecUnit) (x : Nat) : VecUnit :=
  { v with
    regs := Vector.ofFn (fun n => { v.regs[n] with dirty := x.testBit n.val })
    masks := Vector.ofFn (fun m => { v.masks[m] with dirty := x.testBit (32 + m.val) }) }

/-- coreid of a core: its logical number in its partition, else 0x1FF (R326). -/
def coreIdOf (s : State) (k : CoreId) : Nat :=
  let p := s.corePart k
  if p = 0 then 0x1FF else (s.logical p k).getD 0x1FF
/-- The distinct clusters of a partition in order of the lowest logical core in each (R326). -/
def clustersOf (p : Part) : List Nat :=
  ((List.range p.ncores.toNat).map (fun i => (p.lmap.toList.getD i 0).toNat / 8)).foldl
    (fun l c => if l.contains c then l else l ++ [c]) []
/-- clusterid of a core: its cluster's rank in its partition, else 0x3F (R326). -/
def clusterIdOf (s : State) (k : CoreId) : Nat :=
  let p := s.corePart k
  if p = 0 then 0x3F else ((clustersOf (s.part p)).findIdx? (· == k.val / 8)).getD 0x3F

/-- A counter as a CSR reads it (R352). -/
def Counter.word (c : Counter) : Word := BitVec.ofNat 64 (c.count.toNat + (if c.displaced then 2 ^ 63 else 0))

/-- The value of a CSR for thread t of core k at a privilege (R210); the two trap sets by level (R306). -/
def csrRead (s : State) (k : CoreId) (t : Tid) (pv : Priv) (n : Nat) : Word :=
  let c := s.core k
  let th := c.threads[t]
  let ts := th.trapSet pv
  if n = 0 then th.vl.zeroExtend 64
  else if n = 1 then th.vtype.zeroExtend 64
  else if n = 2 then 4096
  else if n = 3 then th.vstart.zeroExtend 64
  else if n = 4 then BitVec.ofNat 64 c.vec.dirtyBits
  else if n = 5 then th.vlive.zeroExtend 64
  else if n < 0x40 then (c.vec.regs.toList.getD (n - 0x20) VecReg.reset).vpx.zeroExtend 64
  else if n < 0x60 then (c.vec.regs.toList.getD (n - 0x40) VecReg.reset).vhw.zeroExtend 64
  else if n = 0x60 then th.lc
  else if n = 0x61 then th.ls
  else if n = 0x62 then th.le
  else if n = 0x63 then th.spv
  else if n = 0x64 then th.spn.zeroExtend 64
  else if n = 0x65 then th.rptst
  else if n = 0x70 then BitVec.ofNat 64 (s.coreTime k)
  else if n = 0x71 then BitVec.ofNat 64 (coreIdOf s k)
  else if n = 0x72 then BitVec.ofNat 64 (clusterIdOf s k)
  else if n < 0x7B then (th.levels.toList.getD (n - 0x73) 0).zeroExtend 64
  else if n = 0x80 then ts.tcause.zeroExtend 64
  else if n = 0x81 then ts.tpc
  else if n = 0x82 then ts.tval
  else if n = 0x83 then ts.telem
  else if n = 0x84 then ts.tvtype.zeroExtend 64
  else if n = 0x85 then ts.tstat
  else if n = 0x86 then ts.tvec
  else if n = 0x87 then ts.tscratch
  else if n = 0x88 then ts.tfbuf
  else if n = 0x90 then th.msh.zeroExtend 64
  else if n = 0x91 then c.mat.acownWord
  else if n < 0x96 then (c.mat.tiles.toList.getD (n - 0x92) TileSt.zero).aext.word
  else if n = 0x98 then th.bthr.zeroExtend 64
  else if n = 0x99 then th.bthra.zeroExtend 64
  else if n = 0x9A then th.bmode.zeroExtend 64
  else if n = 0x9B then th.besc
  else if n = 0xA1 then ofBool th.yreq
  else if n = 0xB0 then th.scyc
  else if n = 0xB1 then th.vcyc
  else if n = 0xB2 then th.mcyc
  else if n = 0xB3 then th.astl
  else if n < 0xBC then (c.counters.toList.getD (n - 0xB4) Counter.reset).word
  else if n = 0xC8 then th.frm.zeroExtend 64
  else if n = 0xC9 then th.fflags.zeroExtend 64
  else if n = 0xCA then th.fexc.zeroExtend 64
  else if n = 0xCB then ofBool th.vsat
  else 0

/-- A configuration write of counter n (R352, R353): event, filter, shift; claims the bank, and with event 14 on counter 7
the trace unit. Ignored while the hypervisor holds the bank, for a reserved event, and for event 14 elsewhere. -/
def counterConfig (c : Core) (n : Fin 8) (v : Word) : Core :=
  let ev := bitsOf v.toNat 0 8
  if c.bank = .hyper || ev > 14 || (ev = 14 && n != 7) then c
  else
    let shift : BitVec 4 := if n = 6 then v.extractLsb' 10 4 else c.counters[n].shift
    { c with
      counters := c.counters.set n ⟨0, c.counters[n].displaced, v.extractLsb' 0 8, v.extractLsb' 8 2, shift, 0⟩
      bank := .guest
      trace := if ev = 14 && c.trace = .free then .guest else c.trace }
/-- A count write of counter n (R352): the count, and displaced cleared. -/
def counterSet (c : Core) (n : Fin 8) (v : Word) : Core :=
  { c with counters := c.counters.set n { c.counters[n] with count := v.extractLsb' 0 63, displaced := false } }
/-- A write of counter n (R352). -/
def counterWrite (c : Core) (n : Fin 8) (v : Word) : Core :=
  if v.getLsbD 63 then counterConfig c n v else counterSet c n v

/-- A hardware loop is active: le ≠ 0 and its end checks are not suspended (R200, R202). -/
def Thread.loopActive (t : Thread) : Bool := t.le != 0 && !t.loopOff

/-- A writer of register n is in flight (R182): the running block, or a lane instruction of the lanes' holder that waits part way. -/
def Core.writerInFlight (c : Core) (n : Nat) : Bool :=
  (match c.vec.block with | some b => !b.stopped && b.writes.getLsbD n | none => false)
    || (match c.vec.holder with
      | some t => (match c.threads[t].wait with | .granule _ => true | .hostPage _ _ => true | _ => false)
          && (c.vec.regs.toList.getD n VecReg.reset).vpx != 4096
      | none => false)

/-- A write of a CSR by thread t of core k at a privilege: the new state, or the loop-state trap (R202, R208, R210). -/
def csrWrite (s : State) (k : CoreId) (t : Tid) (pv : Priv) (n : Nat) (v : Word) : Option State :=
  let th := s.thr k t
  let up (f : Thread → Thread) : Option State := some (s.modThr k t f)
  let core (f : Core → Core) : Option State := some (s.modCore k f)
  let ts (f : TrapSet → TrapSet) : Option State := some (s.modThr k t (fun x => x.modTrapSet pv f))
  let vreg (i : Nat) (f : VecReg → VecReg) : Option State :=
    core (fun c => { c with vec := { c.vec with regs := Vector.ofFn (fun j => if j.val = i then f c.vec.regs[j] else c.vec.regs[j]) } })
  if n = 3 then up (fun x => { x with vstart := v.extractLsb' 0 12 })
  else if n = 4 then core (fun c => { c with vec := c.vec.setDirty v.toNat })
  else if n = 5 then up (fun x => { x with vlive := v.extractLsb' 0 48 })
  else if n < 0x40 then
    -- a write while the register's writer is in flight is ignored (R182)
    if (s.core k).writerInFlight (n - 0x20) then some s
    else vreg (n - 0x20) (fun r => { r with vpx := v.extractLsb' 0 13 })
  else if n < 0x60 then vreg (n - 0x40) (fun r => { r with vhw := v.extractLsb' 0 13 })
  else if n = 0x60 then up (fun x => { x with lc := v })
  else if n = 0x61 then if th.loopActive then none else up (fun x => { x with ls := v })
  else if n = 0x62 then
    if v = 0 then up (fun x => { x with le := 0 })
    else if th.loopActive then none
    else up (fun x => { x with le := v, loopOff := false })
  else if n = 0x63 then up (fun x => { x with spv := v })
  else if n = 0x64 then up (fun x => { x with spn := v.extractLsb' 0 2 })
  else if n = 0x65 then up (fun x => { x with rptst := v &&& 0x7FF#64 })
  else if n = 0x80 then ts (fun x => { x with tcause := v.extractLsb' 0 8 })
  else if n = 0x81 then ts (fun x => { x with tpc := v })
  else if n = 0x82 then ts (fun x => { x with tval := v })
  else if n = 0x83 then ts (fun x => { x with telem := v })
  else if n = 0x84 then ts (fun x => { x with tvtype := v.extractLsb' 0 11 })
  else if n = 0x85 then ts (fun x => x.setTstat v)
  else if n = 0x86 then ts (fun x => { x with tvec := v &&& 0x01FFFFFFFFFFFFFC#64 })
  else if n = 0x87 then ts (fun x => { x with tscratch := v })
  else if n = 0x88 then ts (fun x => x.setTfbuf v)
  else if n = 0x91 then core (fun c => { c with mat := c.mat.setAcown v })
  else if 0x92 ≤ n && n ≤ 0x95 then
    core (fun c => { c with mat := { c.mat with tiles := Vector.ofFn (fun j =>
      if j.val = n - 0x92 then { c.mat.tiles[j] with aext := AExt.ofWord v } else c.mat.tiles[j]) } })
  else if n = 0x98 then up (fun x => { x with bthr := v.extractLsb' 0 32 })
  else if n = 0x99 then up (fun x => { x with bthra := v.extractLsb' 0 32 })
  else if n = 0x9A then up (fun x => if bitsOf v.toNat 0 2 = 3 then x else { x with bmode := v.extractLsb' 0 2 })
  else if n = 0x9B then up (fun x => { x with besc := v })
  else if n = 0xA1 then up (fun x => { x with yreq := v.getLsbD 0 })
  else if n = 0xB0 then up (fun x => { x with scyc := v })
  else if n = 0xB1 then up (fun x => { x with vcyc := v })
  else if n = 0xB2 then up (fun x => { x with mcyc := v })
  else if n = 0xB3 then up (fun x => { x with astl := v })
  else if h : 0xB4 ≤ n ∧ n < 0xBC then core (fun c => counterWrite c ⟨n - 0xB4, by omega⟩ v)
  else if n = 0xC8 then up (fun x => if bitsOf v.toNat 0 3 > 4 then x else { x with frm := v.extractLsb' 0 3 })
  else if n = 0xC9 then up (fun x => { x with fflags := v.extractLsb' 0 5 })
  else if n = 0xCA then up (fun x => { x with fexc := v.extractLsb' 0 5 })
  else if n = 0xCB then up (fun x => { x with vsat := v.getLsbD 0 })
  else some s

/-- CSRs whose access waits for the thread's earlier lane, matrix and copy instructions (R209). -/
def csrWaits (n : Nat) : Bool :=
  n = 3 || n = 4 || (0x20 ≤ n && n ≤ 0x5F) || n = 0x65 || n = 0xC9 || n = 0xCB || (0x90 ≤ n && n ≤ 0x95) || n = 0x9B

/-- The current thread has a running block, a vrel that has not taken effect, or a re-issue that has been set off (R209, R187, R284). -/
def State.unitsBusy (s : State) : Bool :=
  (match s.curC.vec.block with | some b => b.tid == s.curTid && !b.stopped | none => false) || s.cur.relPending
    || (match s.curC.mat.pendReissue with | some x => x.1 == s.curTid | none => false)
/-- Copies that the current thread has issued and that have not landed (R209, R160). -/
def State.copiesBusy (s : State) : Bool := s.curC.copies.any (fun c => c.tid == s.curTid)

/-- A CSR instruction: level checks, the wait of R209, the read, the write, the loop-state trap (R208). -/
def csrOp (i : Instr) (d : SReg) (csr : BitVec 12) (write : Option (Word → Word)) (s : State) : Out :=
  let n := csr.toNat
  let pv := s.cur.priv
  let (rl, wl) := csrLevels n
  let wOk := match write, wl with | none, _ => true | some _, some l => l.le pv | some _, none => false
  if !csrExists csr then illegal s i
  else if !(rl.le pv) || !wOk then privileged s i
  else if csrWaits n && (s.unitsBusy || s.copiesBusy) then .next (s.block .block)
  else
    let v := csrRead s s.curCore s.curTid pv n
    match write with
    | none => .next (s.finish d v)
    | some f =>
      match csrWrite s s.curCore s.curTid pv n (f v) with
      | some s' => .next (s'.finish d v)
      | none => raise s 0x0F (f v) 0

/-- csrr (R208). -/
def execCsrr (d : SReg) (csr : BitVec 12) (s : State) : Out := csrOp (.csrr d csr) d csr none s
/-- csrw (R208). -/
def execCsrw (d a : SReg) (csr : BitVec 12) (s : State) : Out := csrOp (.csrw d a csr) d csr (some (fun _ => s.sreg a)) s
/-- csrs (R208): no write when a = 0. -/
def execCsrs (d a : SReg) (csr : BitVec 12) (s : State) : Out :=
  csrOp (.csrs d a csr) d csr (if a = 0 then none else some (fun v => v ||| s.sreg a)) s
/-- csrc (R208): no write when a = 0. -/
def execCsrc (d a : SReg) (csr : BitVec 12) (s : State) : Out :=
  csrOp (.csrc d a csr) d csr (if a = 0 then none else some (fun v => v &&& ~~~(s.sreg a))) s

/-- A write of le as software makes it (R202). -/
def execLeWrite (k : CoreId) (t : Tid) (v : Word) (s : State) : Out :=
  match csrWrite s k t .user 0x62 v with
  | some s' => .next s'
  | none => .next (s.trapThr k t (mkTrap 0x0F v 0) (s.thr k t).pc)
/-- A write of ls as software makes it (R202). -/
def execLsWrite (k : CoreId) (t : Tid) (v : Word) (s : State) : Out :=
  match csrWrite s k t .user 0x61 v with
  | some s' => .next s'
  | none => .next (s.trapThr k t (mkTrap 0x0F v 0) (s.thr k t).pc)
/-- A write of tfbuf at the thread's level (R69). -/
def execTfbufWrite (k : CoreId) (t : Tid) (v : Word) (s : State) : Out :=
  .next (s.modThr k t (fun x => x.modTrapSet x.priv (fun y => y.setTfbuf v)))
/-- A configuration write of a counter: bit 63 is the write's own (R352, R353). -/
def execCounterConfigure (k : CoreId) (n : Fin 8) (v : Word) (s : State) : Out :=
  .next (s.modCore k (fun c => counterConfig c n v))
/-- A count write of a counter (R352). -/
def execCounterCountWrite (k : CoreId) (n : Fin 8) (v : Word) (s : State) : Out :=
  .next (s.modCore k (fun c => counterSet c n v))

end Sys2Proof.Machine
end

