-- ==== Sys2Proof/Machine/Flags.lean ====
section
/-!
DEFINITION. Floating flags of scalar and vector instructions: accrual and the floating-point exception trap (spec 11 R207,
12 R219), and the sticky saturation flag.
-/

namespace Sys2Proof.Machine

/-- The raised flags that fexc enables (R207). -/
def Thread.enabled (t : Thread) (f : BitVec 5) : BitVec 5 := t.fexc &&& f

/-- A scalar floating result: flags accrue, and an enabled one traps with the register unchanged (R207). -/
def finishFp (s : State) (d : SReg) (v : Nat) (f : BitVec 5) : Out :=
  let s := s.accrue f
  if s.cur.enabled f != 0 then raise s 0x12 (f.zeroExtend 64) 0
  else .next (s.finish d (BitVec.ofNat 64 v))

/-- Sets the sticky saturation flag (R210 vsat). -/
def State.saturate (s : State) (b : Bool) : State := if b then s.modCur (fun t => { t with vsat := true }) else s

end Sys2Proof.Machine
end

