-- ==== Sys2Proof/Machine/Transfer.lean ====
section
/-!
DEFINITION. What copies, stream bindings and engines share: the copy block and its box (spec 07 R134, R135), and an access of a
long transfer, which compares each page with the translation that the transfer used before (04 R62).
-/

namespace Sys2Proof.Machine

/-! ## The copy block (R134) -/

/-- Bits of a copy block: `n` bits from bit `lo` of byte `byte`. -/
def blkBits (b : BitVec 512) (byte lo n : Nat) : Nat := bitsOf b.toNat (8 * byte + lo) n

/-- Element type codes of R27, in code order. -/
def elemOfCode (c : Nat) : ElemType :=
  match c with
  | 0 => .i8 | 1 => .i16 | 2 => .i32 | 3 => .i64 | 4 => .w8 | 5 => .w16 | 6 => .w32 | 7 => .w64
  | 8 => .bf16 | 9 => .f16 | 10 => .f32 | 11 => .f64 | 12 => .e4m3 | 13 => .e5m2 | 14 => .e2m1 | _ => .ds8
/-- The code of an element type (R27). -/
def codeOfElem (t : ElemType) : Nat :=
  match t with
  | .i8 => 0 | .i16 => 1 | .i32 => 2 | .i64 => 3 | .w8 => 4 | .w16 => 5 | .w32 => 6 | .w64 => 7
  | .bf16 => 8 | .f16 => 9 | .f32 => 10 | .f64 => 11 | .e4m3 => 12 | .e5m2 => 13 | .e2m1 => 14 | .ds8 => 15

/-- Element type of a block. -/
def blkEtype (b : BitVec 512) : ElemType := elemOfCode (blkBits b 0 60 4)
/-- Element size in bytes. -/
def blkEs (b : BitVec 512) : Nat := (blkEtype b).bits / 8
/-- Fold kind. -/
def blkFold (b : BitVec 512) : Nat := blkBits b 0 57 3
/-- Destination space: 0 generic, 1 scratchpad, 2 multicast, 3 slot. -/
def blkDspace (b : BitVec 512) : Nat := blkBits b 8 62 2
/-- Source space: 0 generic, 1 scratchpad. -/
def blkSspace (b : BitVec 512) : Nat := blkBits b 8 61 1
/-- Out-of-bounds treatment: 0 skip, 1 pad +0, 2 pad all ones, 3 pad most negative. -/
def blkOob (b : BitVec 512) : Nat := blkBits b 8 59 2
/-- Bounded. -/
def blkBounded (b : BitVec 512) : Bool := blkBits b 8 58 1 == 1
/-- Start coordinate d. -/
def blkC (b : BitVec 512) (d : Nat) : Int := signedOf 16 (blkBits b (16 + 2 * d) 0 16)
/-- Extent d. -/
def blkX (b : BitVec 512) (d : Nat) : Nat := blkBits b (24 + 4 * d) 0 32
/-- Source stride of dimension d, in bytes; dimension 0's is the element size (R135). -/
def blkT (b : BitVec 512) (d : Nat) : Int := if d = 0 then blkEs b else signedOf 64 (blkBits b (40 + 8 * (d - 1)) 0 64)
/-- Source address, sign-extended from bit 56 for a generic source. -/
def blkSrc (b : BitVec 512) : Int := if blkSspace b = 0 then signedOf 57 (blkBits b 0 0 57) else blkBits b 0 0 22
/-- Destination address, sign-extended for a generic destination. -/
def blkDst (b : BitVec 512) : Int := if blkDspace b = 0 then signedOf 57 (blkBits b 8 0 57) else blkBits b 8 0 22
/-- Multicast mask. -/
def blkMask (b : BitVec 512) : Nat := blkBits b 8 22 8
/-- Slot number. -/
def blkSlot (b : BitVec 512) : Slot := ⟨blkBits b 8 0 4, Nat.mod_lt _ (by decide)⟩

/-- Elements of the box. -/
def blkCount (b : BitVec 512) : Nat := blkX b 0 * blkX b 1 * blkX b 2 * blkX b 3
/-- Coordinate d of box element n (R135). -/
def blkJ (b : BitVec 512) (n d : Nat) : Nat :=
  match d with
  | 0 => n % blkX b 0
  | 1 => n / blkX b 0 % blkX b 1
  | 2 => n / blkX b 0 / blkX b 1 % blkX b 2
  | _ => n / blkX b 0 / blkX b 1 / blkX b 2
/-- Source coordinate d of box element n. -/
def blkK (b : BitVec 512) (n d : Nat) : Int := blkC b d + blkJ b n d
/-- Box element n lies within the bounds. -/
def blkInb (b : BitVec 512) (n : Nat) : Bool :=
  (List.range 4).all (fun d => decide (0 ≤ blkK b n d) && decide (blkK b n d < blkX b d))
/-- Source address of box element n. -/
def blkAddr (b : BitVec 512) (n : Nat) : Int :=
  (List.range 4).foldl (fun a d => a + blkK b n d * blkT b d) (blkSrc b)

/-- The lowest and highest in-bounds source address, or none when no element is in bounds (R135). -/
def blkRange (b : BitVec 512) : Option (Int × Int) :=
  let ends (d : Nat) : Int × Int := (max (blkC b d) 0, min (blkC b d + blkX b d) (blkX b d) - 1)
  if (List.range 4).any (fun d => (ends d).2 < (ends d).1) then none
  else
    let lo := (List.range 4).foldl (fun a d => a + min ((ends d).1 * blkT b d) ((ends d).2 * blkT b d)) (blkSrc b)
    let hi := (List.range 4).foldl (fun a d => a + max ((ends d).1 * blkT b d) ((ends d).2 * blkT b d)) (blkSrc b)
    some (lo, hi + blkEs b - 1)

/-- The pad value of an element type (R134); a skipped element of a stream reads 0 (log 21). -/
def padBits (oob : Nat) (t : ElemType) : Nat :=
  match oob with
  | 0 | 1 => 0
  | 2 => 2 ^ t.bits - 1
  | _ =>
    if t.isInt then (if t.isSigned then 2 ^ (t.bits - 1) else 0)
    else match t with
      | .e4m3 => 0xFE
      | .ds8 => 0x88
      | _ => infBits t true

/-- A generic address as an integer is canonical (R34). -/
def canonInt (a : Int) : Bool := decide (-(2 ^ 56 : Nat) ≤ a) && decide (a < (2 ^ 56 : Nat))

/-! ## Accesses of long transfers (R62) -/

/-- Why a transfer stops: the copy-fault reason and the page-fault reason (R128); or it waits for an absent page. -/
inductive XferFail where
  | fault (reason pageReason : Nat)
  | absent (page : Nat)
deriving DecidableEq, Repr

/-- The leaf as it maps another 64 KiB page of its own page. -/
def LeafInfo.at (l : LeafInfo) (vpn : Nat) : LeafInfo :=
  let move (x : Nat) : Nat := x / 2 ^ l.span * 2 ^ l.span + vpn * 0x10000 % 2 ^ l.span
  if l.stripe.isSome then l else { l with frame := move l.frame, gframe := move l.gframe }

/-- What renewal compares of a leaf, at both stages: frame, permissions, ordering kind, stripe set and generation (R62). -/
def LeafInfo.sameAs (a b : LeafInfo) : Bool :=
  a.rd == b.rd && a.w == b.w && a.x == b.x && a.user == b.user && a.rd2 == b.rd2 && a.w2 == b.w2 && a.x2 == b.x2
    && a.kind1 == b.kind1 && a.kind2 == b.kind2 && a.frame == b.frame && a.gframe == b.gframe
    && a.set == b.set && a.stripe == b.stripe && a.gen == b.gen && a.gen2 == b.gen2

/-- The page that a transfer has used covers a 64 KiB page (R62). -/
def UsedPage.covers (p : UsedPage) (vpn : Nat) : Bool :=
  vpn / 2 ^ (p.leaf.span - 16) == p.vpn / 2 ^ (p.leaf.span - 16)

/-- One access of a transfer: a page used before must translate as before (reason 3); a first walk that fails is reason 2;
a forbidden target is reason 7 (R62, R128; R128 names no reason for a non-canonical address, taken as 2 with page reason 0, nor for
a reserved address, a stripe page that R39 forbids or a leaf of kind 11, taken as 7: log 62). -/
def xferAccess (s : State) (u : XUnit) (rq : XReq) (k : AccKind) (hostOk : Bool) (used : List UsedPage) (va : Word) :
    State × Except XferFail (Tgt × List UsedPage) :=
  if !canonical va then (s, .error (.fault 2 0))
  else
    let vpn := bitsOf va.toNat 16 41
    let before := used.find? (fun p => p.covers vpn)
    let wr := k == .store || k == .atomic
    if before.isNone && used.any (fun p => p.stop && p.wr == wr) then (s, .error (.fault 3 0))
    else match translate s u rq k va hostOk with
    | (s, .error (.absent p)) => (s, .error (.absent p))
    | (s, .error (.page r _)) => (s, .error (if before.isSome then .fault 3 r else .fault 2 r))
    | (s, .error .access) => (s, .error (if before.isSome then .fault 3 0 else .fault 7 0))
    | (s, .ok (.window _ _, _)) => (s, .error (.fault 7 0))
    | (s, .ok (t, lf)) =>
      match before with
      | some p => if (p.leaf.at vpn).sameAs lf then (s, .ok (t, used)) else (s, .error (.fault 3 0))
      | none => (s, .ok (t, used ++ [⟨vpn, lf, wr, false⟩]))

/-- The targets of n ≤ 4,096 bytes from an address, cut where a page or a stripe granule ends. -/
def xferPieces (s : State) (u : XUnit) (rq : XReq) (k : AccKind) (hostOk : Bool) (used : List UsedPage) (va : Word) (n : Nat) :
    State × Except (XferFail × Word) (List (Tgt × Nat) × List UsedPage) :=
  let first := min n (4096 - va.toNat % 4096)
  match xferAccess s u rq k hostOk used va with
  | (s, .error f) => (s, .error (f, va))
  | (s, .ok (t, used)) =>
    if first = n then (s, .ok ([(t, n)], used))
    else
      let va2 := va + BitVec.ofNat 64 first
      match xferAccess s u rq k hostOk used va2 with
      | (s, .error f) => (s, .error (f, va2))
      | (s, .ok (t2, used)) => (s, .ok ([(t, first), (t2, n - first)], used))

/-- Reads at pieces: bytes, and the bank of a poisoned piece. -/
def readPieces (s : State) : List (Tgt × Nat) → List Byte × Option (DieId × Fin 16)
  | [] => ([], none)
  | (t, n) :: l =>
    let (bs, p) := tgtRead s t n
    let (r, q) := readPieces s l
    (bs ++ r, if p then some (tgtBank t) else q)
/-- Writes at pieces; poisoned bytes poison where they land (R341). -/
def writePieces (s : State) (bs : List Byte) (bad : Bool) : List (Tgt × Nat) → State
  | [] => s
  | (t, n) :: l =>
    let s := tgtWrite s t (bs.take n)
    writePieces (if bad then tgtPoison s t n else s) (bs.drop n) bad l

/-- Bytes of box element n as its source holds them: bytes, the bank of a poisoned source, pages used; pads for an element
out of bounds. -/
def boxRead (s : State) (k : CoreId) (rq : XReq) (b : BitVec 512) (used : List UsedPage) (n : Nat) :
    State × Except (XferFail × Word) (List Byte × Option (DieId × Fin 16) × List UsedPage) :=
  let es := blkEs b
  if !blkInb b n then (s, .ok (leBytes es (padBits (blkOob b) (blkEtype b)), none, used))
  else
    let a := blkAddr b n
    if blkSspace b = 1 then
      (s, .ok ((s.core k).spadRead a.toNat es, if (s.core k).spadPoisoned a.toNat es then some (coreBank k) else none, used))
    else
      match xferPieces s (.vector k) rq .load true used (BitVec.ofInt 64 a) es with
      | (s, .error f) => (s, .error f)
      | (s, .ok (l, used)) =>
        let (bs, p) := readPieces s l
        (s, .ok (bs, p, used))

/-- Bytes of box elements from `n` on, `cnt` of them; a poisoned element reads zero (R341). -/
def boxReadRun (s : State) (k : CoreId) (rq : XReq) (b : BitVec 512) (used : List UsedPage) (n : Nat) :
    Nat → State × Except (XferFail × Word) (List Byte × Option (DieId × Fin 16) × List UsedPage)
  | 0 => (s, .ok ([], none, used))
  | cnt + 1 =>
    match boxRead s k rq b used n with
    | (s, .error e) => (s, .error e)
    | (s, .ok (bs, p, used)) =>
      match boxReadRun s k rq b used (n + 1) cnt with
      | (s, .error e) => (s, .error e)
      | (s, .ok (r, q, used)) =>
        (s, .ok ((if p.isSome then leBytes bs.length 0 else bs) ++ r, if p.isSome then p else q, used))

/-! ## Guarded scratchpad accesses of the running context (R76) -/

/-- Allocations of the running context on its core. -/
def State.curAllocs (s : State) : List Alloc := s.curC.allocsOf s.curPart s.cur.launchOf
/-- The first byte of a general-region range that is a guard access. -/
def firstGuard (l : List Alloc) (a n : Nat) : Option Nat :=
  ((List.range n).map (fun i => a + i)).find? (fun x => !inAllocs l x)
/-- Notes a guard access of the running context. -/
def State.noteGuardAt (s : State) (a : Nat) : State := s.modCur (fun t => t.noteGuard t.pc a)
/-- Reads general-region bytes for the running context: guarded bytes read zero and are recorded; poisoned granules read zero, with a
check for the context (R341); whether a byte read is poisoned. -/
def State.guardRead (s : State) (a n : Nat) : State × List Byte × Bool :=
  let l := s.curAllocs
  let bad (x : Nat) : Bool := NatSet.has s.curC.spadPoison (x / 16)
  let bs := (s.curC.spadRead a n).zipIdx.map (fun p => if inAllocs l (a + p.2) && !bad (a + p.2) then p.1 else 0)
  let hit := (granulesOf a n).any (fun g => inAllocs l (16 * g) && NatSet.has s.curC.spadPoison g)
  let s' := match firstGuard l a n with | some x => s.noteGuardAt x | none => s
  (if hit then s'.poisonRead (coreBank s.curCore) else s', bs, hit)
/-- One access counts once (R76, R77): the guard record after an access in several parts, from the one before it. `again` is a part
of an instruction that goes on from a stop: one that is recorded already does not count again. -/
def State.oneAccess (before : Option GuardRec) (again : Bool) (s : State) : State :=
  s.modCur (fun t => { t with guard :=
    match before, t.guard with
    | none, some g => some { g with count := 1 }
    | some b, some g => if g.count = b.count || again then some b else some { b with count := min (b.count + 1) 0xFFFF }
    | _, none => none })
/-- Writes general-region bytes for the running context: guarded bytes are discarded and recorded. -/
def State.guardWrite (s : State) (a : Nat) (bs : List Byte) : State :=
  let l := s.curAllocs
  match firstGuard l a bs.length with
  | none => s.modCurC (fun c => c.spadWrite a bs)
  | some x =>
    (bs.zipIdx.foldl (fun s p => if inAllocs l (a + p.2) then s.modCurC (fun c => c.spadWrite (a + p.2) [p.1]) else s) s).noteGuardAt x

/-! ## Copy blocks: the checks at issue (R137) -/

/-- A structure in the general region with an alignment: its trap, with tval its address (R41, R137). -/
def placeTrap (addr : Word) (n align : Nat) : Option Trap :=
  if addr.toNat % align != 0 then some (mkTrap 0x03 addr 0)
  else match generalFault addr.toNat n with
    | some c => some (mkTrap c addr 0)
    | none => none

/-- Fold kinds take i32, w32, f32 or bf16 (R136). -/
def foldType (t : ElemType) : Bool := t == .i32 || t == .w32 || t == .f32 || t == .bf16

/-- A reserved code or nonzero reserved field of a copy block, or a fold that its destination, type or bound excludes (R134 to
R137): reason 1. -/
def blkReserved (b : BitVec 512) : Bool :=
  blkEtype b == .e2m1 || blkFold b = 7 || blkBits b 8 57 1 != 0
    || (blkSspace b = 1 && blkBits b 0 22 35 != 0)
    || (blkDspace b = 1 && blkBits b 8 22 35 != 0)
    || (blkDspace b = 2 && blkBits b 8 30 27 != 0)
    || (blkDspace b = 3 && blkBits b 8 4 53 != 0)
    || (List.range 4).any (fun d => blkX b d = 0)
    || (blkFold b != 0 && (blkDspace b ≥ 2 || !foldType (blkEtype b) || blkBounded b))
    || (blkDspace b = 3 && blkCount b * blkEs b > 32768)

/-- Bytes of the destination: one element for a sum fold (R136). -/
def blkDstBytes (b : BitVec 512) : Nat :=
  if blkFold b = 3 || blkFold b = 4 then blkEs b else blkCount b * blkEs b

/-- Order 3 of R137: the ranges of R135, the sidecars' bytes included. `dst` is false where a ring or a register takes the
bytes; a multicast destination is checked at order 4 (R128 reason 5). -/
def blkRangeTrap (b : BitVec 512) (dst : Bool) : Option Trap :=
  let side (a : Int) : List (Int × Int) := if blkBounded b then [(a - 8, a - 1)] else []
  let src := (match blkRange b with | some r => [r] | none => []) ++ side (blkSrc b)
  let dlo := blkDst b
  let dsts := if dst && blkDspace b < 2 then (dlo, dlo + blkDstBytes b - 1) :: side dlo else []
  let all := src.map (fun r => (blkSspace b == 1, r)) ++ dsts.map (fun r => (blkDspace b == 1, r))
  let outside (spad : Bool) (r : Int × Int) : Option Int :=
    if spad then (if r.1 < 0 then some r.1 else if r.2 ≥ 0x400000 then some r.2 else none)
    else (if !canonInt r.1 then some r.1 else if !canonInt r.2 then some r.2 else none)
  match all.findSome? (fun x => outside x.1 x.2) with
  | some a => some (mkTrap 0x0C (BitVec.ofInt 64 a) 0)
  | none => match all.find? (fun x => x.1 && decide (x.2.2 ≥ (laneBase : Int))) with
    | some x => some (mkTrap 0x04 (BitVec.ofInt 64 (max x.2.1 (laneBase : Int))) 0)
    | none => none

/-- The sidecar of a bounded source, at src − 8 (R134, R292): 8 bytes and the bank of their poison, or why not. -/
def sidecarRead (s : State) (k : CoreId) (rq : XReq) (b : BitVec 512) (used : List UsedPage) :
    State × Except (XferFail × Word) (Nat × Option (DieId × Fin 16) × List UsedPage) :=
  let a := blkSrc b - 8
  if blkSspace b = 1 then
    if a < 0 then (s, .error (.fault 5 0, BitVec.ofInt 64 a))
    else (s, .ok (leNat ((s.core k).spadRead a.toNat 8), if (s.core k).spadPoisoned a.toNat 8 then some (coreBank k) else none, used))
  else
    match xferPieces s (.vector k) rq .load true used (BitVec.ofInt 64 a) 8 with
    | (s, .error f) => (s, .error f)
    | (s, .ok (l, used)) => (s, .ok (leNat (readPieces s l).1, (readPieces s l).2, used))

/-- A copy fault at issue: tval and reason (R137). -/
def copyTrap (tval : Word) (reason : Nat) : Trap := mkTrap 0x0B tval (BitVec.ofNat 64 reason)

/-- A tag state from the 8 bytes of a sidecar: a negative or NaN bound reads as +∞ with untracked set (R291). -/
def tagOfBytes (x : Nat) : VTag :=
  let b := bitsOf x 0 32
  let bad := match f32Val b with | .nan _ => true | .inf n => n | .fin n m _ => n && m != 0
  let fl : BitVec 4 := BitVec.ofNat 4 (bitsOf x 40 4)
  ⟨if bad then 0x7F800000#32 else BitVec.ofNat 32 b, BitVec.ofNat 8 (bitsOf x 32 8), if bad then fl ||| 1 else fl⟩
/-- The 8 bytes of a sidecar (R291). -/
def tagBytes (t : VTag) : Nat := t.bound.toNat + t.mag.toNat * 2 ^ 32 + t.flags.toNat * 2 ^ 40

end Sys2Proof.Machine
end

