-- ==== Sys2Proof/Machine/Lane.lean ====
section
/-!
DEFINITION. The lanes (spec 10 R176 to R183): issuing a lane instruction, element access, the execution mask, stream pops
(07 R139), writing results with progress state, and the tag rules (15 R287 to R290).
-/

namespace Sys2Proof.Machine

/-! ## VTYPE (R213) -/

/-- Element width in bytes. -/
def sewOf (vt : BitVec 11) : Nat := 2 ^ bitsOf vt.toNat 9 2
/-- Flush field. -/
def flushOf (vt : BitVec 11) : Nat := bitsOf vt.toNat 6 2
/-- Default rounding. -/
def rmOf (vt : BitVec 11) : Rounding := frmMode (vt.extractLsb' 3 3)
/-- Floating format of an element. -/
def fmtOfVt (vt : BitVec 11) : ElemType :=
  match bitsOf vt.toNat 9 2 with
  | 0 => .e4m3
  | 1 => if vt.getLsbD 8 then .f16 else .bf16
  | 2 => .f32
  | _ => .f64
/-- Elements of a register at the width of a VTYPE. -/
def vlmaxOf (vt : BitVec 11) : Nat := 4096 / sewOf vt
/-- The VTYPE value that a vsetvl word carries. -/
def vtypeOf (v : VtypeField) : BitVec 11 :=
  let ew := match v.ew with | .b1 => 0 | .b2 => 1 | .b4 => 2 | .b8 => 3
  let rm := match v.rm with | .rne => 0 | .rtz => 1 | .rup => 2 | .rdn => 3 | .rna => 4
  BitVec.ofNat 11 (ew * 512 + (if v.h then 256 else 0) + v.flush.val * 64 + rm * 8)

/-! ## Elements -/

/-- Element i of width w bits. -/
def elemGet (v : VecBits) (w i : Nat) : Nat := (v.extractLsb' (i * w) w).toNat
/-- Replaces element i of width w bits. -/
def elemSet (v : VecBits) (w i x : Nat) : VecBits :=
  let old := elemGet v w i
  v ^^^ (BitVec.ofNat 32768 ((old ^^^ (x % 2 ^ w)) * 2 ^ (i * w)))
/-- Replaces a list of elements. -/
def elemsSet (v : VecBits) (w : Nat) (l : List (Nat × Nat)) : VecBits := l.foldl (fun a p => elemSet a w p.1 p.2) v

/-- What a lane word runs under: captured VL, VTYPE, vstart and scalar registers (R178), the elements that may execute (the
fault mask on a reissue, one element for a virtual processor) and the flags that trap. -/
structure LaneEnv where
  vl : Nat
  vtype : BitVec 11
  start : Nat
  ext : MaskBits
  sregs : Vector Word 32
  fexc : BitVec 5
  pc : Word
  /-- Elements of one vector instruction with these: all of them, or the VPs that run the word together (R75, R186). -/
  peers : MaskBits
  /-- VL as captured; `vl` is where this run of the word ends (R349). -/
  full : Nat
deriving DecidableEq, Repr

/-- A captured scalar register. -/
def LaneEnv.sreg (e : LaneEnv) (r : SReg) : Word := if r = 0 then 0 else e.sregs[r]
/-- SEW in bits. -/
def LaneEnv.n (e : LaneEnv) : Nat := 8 * sewOf e.vtype

/-- Element i executes under an execution mask field (R23). -/
def maskOn (v : VecUnit) (mk : MkField) (i : Nat) : Bool := mk = 0 || v.masks[mk].bits.getLsbD i
/-- The executing elements below `vl`, from vstart up (R218). -/
def LaneEnv.elems (e : LaneEnv) (v : VecUnit) (mk : MkField) (vl : Nat) : List Nat :=
  ((List.range (vl - e.start)).map (· + e.start)).filter (fun i => e.ext.getLsbD i && maskOn v mk i)

/-- The word goes on from an earlier stop of its own: the destination is still being written and an executing element is not of
this run; or it is one of several virtual processors' own words (R181, R186). -/
def LaneEnv.earlier (e : LaneEnv) (v : VecUnit) (mk : MkField) (vd : VReg) : Bool :=
  (e.ext &&& ~~~e.peers) != 0
    || (v.regs[vd].vpx != 4096
        && (List.range e.full).any (fun i => e.peers.getLsbD i && maskOn v mk i && !(e.ext.getLsbD i && decide (e.start ≤ i))))

/-- How a lane word ends. -/
inductive LaneRes where
  | done (s : State)
  /-- The word is done, and its writes of window registers take effect after it. -/
  | doneThen (s : State) (post : State → State)
  /-- A trap at element e. -/
  | stop (s : State) (tr : Trap) (e : Nat)
  /-- The word waits at element e (R75). -/
  | wait (s : State) (w : Wait) (e : Nat)
  /-- The whole word traps with none of its register written, vstart 0 (R227, R312). -/
  | whole (s : State) (tr : Trap)
  /-- The word traps before any effect, and vstart stands (R259, R312). -/
  | early (s : State) (tr : Trap)
  /-- A debug stop at element e (R350). -/
  | part (s : State) (e : Nat)
  /-- A scalar-style access ended the word itself (R295, R139). -/
  | other (o : Out)
  /-- A batch fault: every element was handled, and the fault mask holds the rest (R66). -/
  | batch (s : State) (kind : Nat) (pages : List PageEntry) (held : Bool) (mask : MaskBits)

/-- A lane word: the registers it writes and reads, and its effect. -/
structure LaneOp where
  /-- Vector destination, for the stream check. -/
  dest : Option VReg
  /-- Vector sources that pop a bound strip (R139). -/
  srcs : List VReg
  /-- A replicated operand: bound, it is misuse (R25). -/
  rep : Option VReg
  /-- It can stop at an element group (R312): elementwise and vector memory words. -/
  split : Bool := true
  run : LaneEnv → State → LaneRes

/-- The +∞ bound. -/
def infBound : Word32 := 0x7F800000#32

/-! ## Progress state and tags -/

/-- Changes vector register n of the current core. -/
def State.modV (s : State) (n : VReg) (f : VecReg → VecReg) : State :=
  s.modVec (fun v => { v with regs := v.regs.set n (f v.regs[n]) })
/-- Vector register n of the current core. -/
def State.vreg (s : State) (n : VReg) : VecReg := s.curC.vec.regs[n]
/-- Changes mask register m of the current core. -/
def State.modM (s : State) (m : MReg) (f : MaskReg → MaskReg) : State :=
  s.modVec (fun v => { v with masks := v.masks.set m (f v.masks[m]) })

/-- Writes elements of w bits: bytes, high-water mark, dirty bit (R180). -/
def VecReg.write (r : VecReg) (w : Nat) (l : List (Nat × Nat)) : VecReg :=
  if l.isEmpty then r
  else
    let top := l.foldl (fun a p => max a ((p.1 * w + w + 7) / 8)) 0
    { r with bits := elemsSet r.bits w l, vhw := BitVec.ofNat 13 (max r.vhw.toNat top), dirty := true }

/-- Every byte below the old high-water mark was written (R288). -/
def coversOld (old : VecReg) (w : Nat) (l : List (Nat × Nat)) : Bool :=
  let need := (8 * old.vhw.toNat + w - 1) / w
  decide ((l.filter (fun p => p.1 < need)).length ≥ need)

/-- The larger of two bounds as FP32 bits. -/
def maxBound (a b : Word32) : Word32 := if Bound.gt (Bound.ofBits b) (Bound.ofBits a) then b else a
/-- The larger magnitude byte. -/
def maxMag (a b : BitVec 8) : BitVec 8 := if a.ult b then b else a
/-- Tags combined: larger bound and magnitude, flags ORed (R288). -/
def VTag.join (a b : VTag) : VTag := ⟨maxBound a.bound b.bound, maxMag a.mag b.mag, a.flags ||| b.flags⟩

/-- A tracked result's tags: combined with the old ones when old bytes stay unwritten (R288). -/
def trackTag (old : VecReg) (w : Nat) (l : List (Nat × Nat)) (new : VTag) : VTag :=
  if coversOld old w l then new else new.join old.tag

/-- Tags of an integer result (R220 int). -/
def intTag (clamped : Bool) : VTag := if clamped then ⟨0x7F800000#32, 0, 4⟩ else ⟨0, 0, 0⟩
/-! ## Element results -/

/-- One computed element. -/
structure EOut where
  bits : Nat
  flags : BitVec 5
  sat : Bool
  clamped : Bool
  flushed : Bool
  /-- A conversion's output was flushed in its own format; `flushed` is then its input's. -/
  flushedOut : Bool
deriving DecidableEq, Repr

/-- An element that raises nothing. -/
def EOut.plain (x : Nat) : EOut := ⟨x, 0, false, false, false, false⟩

/-- What a run of elements gave: elements in ascending order, flags, and the element whose flag traps (R219). -/
structure ElemRun where
  outs : List (Nat × EOut)
  flags : BitVec 5
  trap : Option (Nat × BitVec 5)
  /-- The element that traps saturated: it is executing, so vsat is set (R220). -/
  trapSat : Bool := false

/-- Computes the elements in order until one raises an enabled flag (R219). -/
def runElems (fexc : BitVec 5) (f : Nat → EOut) : List Nat → ElemRun
  | [] => ⟨[], 0, none, false⟩
  | i :: t =>
    let r := f i
    if r.flags &&& fexc != 0 then ⟨[], r.flags, some (i, r.flags), r.sat⟩
    else
      let rest := runElems fexc f t
      ⟨(i, r) :: rest.outs, r.flags ||| rest.flags, rest.trap, rest.trapSat⟩

/-- The values of a run. -/
def ElemRun.vals (r : ElemRun) : List (Nat × Nat) := r.outs.map (fun p => (p.1, p.2.bits))
/-- Any element saturated under a saturate field. -/
def ElemRun.sat (r : ElemRun) : Bool := r.trapSat || r.outs.any (fun p => p.2.sat)
/-- Any element was clamped (R290). -/
def ElemRun.clamped (r : ElemRun) : Bool := r.outs.any (fun p => p.2.clamped)
/-- Any element was flushed. -/
def ElemRun.flushed (r : ElemRun) : Bool := r.outs.any (fun p => p.2.flushed)
/-- Any conversion output was flushed. -/
def ElemRun.flushedOut (r : ElemRun) : Bool := r.outs.any (fun p => p.2.flushedOut)

/-- Largest magnitude of the elements written in a floating format; none when one is NaN or infinite (R287). -/
def largest (t : ElemType) (l : List (Nat × Nat)) : Option Dy :=
  l.foldl (fun a p =>
    match a, fval t p.2 with
    | some m, .fin n x e => some (Dyadic.max m (Dyadic.abs (FVal.fin n x e).dy))
    | _, _ => none) (some ⟨0, 0⟩)

/-- The flush term of a format: 2^emin (R290). -/
def flushTerm (t : ElemType) : Bnd := some ⟨1, (fmtOf t).emin⟩
/-- A bound with the flush term of a format, where an element was flushed in it (R290). -/
def Bnd.flush (b : Bnd) (on : Bool) (t : ElemType) : Bnd := if on then Bound.add b (flushTerm t) else b
/-- The format in which a member of element format t computes, and flushes: f32 at SEW 8 (R219). -/
def computing (t : ElemType) : ElemType := match t with | .e4m3 => .f32 | t => t

/-- The tags of a tracked floating result: its formula over the result's M, the rounding term included by the formula, the
flush and saturation terms added (R290). -/
def trackedTag (t : ElemType) (r : ElemRun) (flags : BitVec 4) (g255 : Bool) (formula : Bnd → Bnd) : VTag :=
  match largest t r.vals with
  | none => ⟨infBound, 255, if r.clamped then flags ||| 4 else flags⟩
  | some m =>
    let g := magOf m
    let b := if g255 || g = 255 then none else formula (magM g)
    let b := Bnd.flush b r.flushed (computing t)
    let b := if r.clamped then none else b
    ⟨Bound.toBits b, BitVec.ofNat 8 g, if r.clamped then flags ||| 4 else flags⟩

/-- The tags of a float result that passes its sources': the flush term and the row of R290 for NaN and ±∞ elements apply. -/
def passedTag (t : ElemType) (r : ElemRun) (src : VTag) : VTag :=
  match largest t r.vals with
  | none => ⟨infBound, 255, src.flags⟩
  | some _ => if r.flushed then { src with bound := Bound.toBits (Bnd.flush (Bound.ofBits src.bound) true (computing t)) } else src

/-- The tags of a +∞ entry: bound +∞, magnitude 0, untracked; the old flags stay where old bytes do (R220, R288, R290). -/
def infTag (old : VecReg) (w : Nat) (l : List (Nat × Nat)) (flags : BitVec 4) : VTag :=
  ⟨infBound, 0, flags ||| 1 ||| (if coversOld old w l then 0 else old.tag.flags)⟩

/-! ## Lane words that write a register -/

/-- Finishes a word that writes a register: elements, flags and vsat written, tags set where any element ran, and the trap of R219. -/
def finishRun (e : LaneEnv) (s : State) (vd : VReg) (w : Nat) (r : ElemRun) (ran : Bool) (tag : VecReg → VTag) : LaneRes :=
  let s1 := (s.accrue r.flags).saturate r.sat
  let s2 := if !ran then s1
    else s1.modV vd (fun old => { old.write w r.vals with tag := tag old })
  match r.trap with
  | some (i, fl) => .stop s2 (mkTrap 0x12 (fl.zeroExtend 64) (BitVec.ofNat 64 i)) i
  | none => .done (s2.modV vd (fun x => if !ran && e.vl = 0 then x else { x with vpx := 4096 }))
/-- Finishes an elementwise word. -/
def finishElems (e : LaneEnv) (s : State) (vd : VReg) (w : Nat) (r : ElemRun) (tag : VecReg → VTag) : LaneRes :=
  finishRun e s vd w r (!r.outs.isEmpty) tag

/-- The replicated index of operand vb (R24). -/
def repIndex (r : Rep) (i : Nat) : Nat :=
  match r with | .none => i | .rep1 => 0 | .rep4 => i % 4 | .rep16 => i % 16 | .rep64 => i % 64

/-- Element i of the second source as the loop of R218 reads it: replicated (R24); where it is the destination too, an executing
element that the loop has written already reads its new value, `new` of its index and its old value. -/
def loopSource (e : LaneEnv) (v : VecUnit) (mk : MkField) (vd vb : VReg) (rep : Rep) (new : Nat → Nat → Nat) (i : Nat) : Nat :=
  let k := repIndex rep i
  let x := elemGet v.regs[vb].bits e.n k
  if vd = vb && decide (k < i) && decide (e.start ≤ k) && e.ext.getLsbD k && maskOn v mk k then new k x % 2 ^ e.n else x

/-- An integer member of the template: no flags, tags int (R218, R220). -/
def intOp (vd va : VReg) (srcs : List VReg) (mk : MkField) (rep : Option VReg)
    (f : LaneEnv → VecUnit → Nat → Nat → Nat → EOut) : LaneOp where
  dest := some vd
  srcs := va :: srcs
  rep := rep
  run := fun e s =>
    let v := s.curC.vec
    let w := e.n
    let r := runElems 0 (fun i => f e v i (elemGet v.regs[va].bits w i) (elemGet v.regs[vd].bits w i)) (e.elems v mk e.vl)
    let more := e.earlier v mk vd
    finishElems e s vd w r (fun old => intTag (r.clamped || (more && old.tag.flags.getLsbD 2)))

/-! ## Stream pops (R139) -/

/-- The stream index of a register, for v24 to v31. -/
def streamIdx (n : VReg) : Option (Fin 8) := if h : 24 ≤ n.val then some ⟨n.val - 24, by omega⟩ else none
/-- The binding of a register. -/
def VecUnit.bound (v : VecUnit) (n : VReg) : Option Binding :=
  match streamIdx n with | some r => v.binds[r] | none => none

/-- Stream-register misuse (R139). -/
def misuse (n : VReg) : Trap := mkTrap 0x11 (BitVec.ofNat 64 n.val) 0

/-- What keeps a pop from its strip: a trap, or an absent host page (R139, R332). -/
inductive PopStop where
  | trap (tr : Trap)
  | absent (page : Nat)
deriving DecidableEq, Repr

/-- Pops one strip of vl elements of register n: misuse when more are asked than remain or SEW ≠ es; a source that fails to
translate takes a copy fault and pops nothing, and an absent host page is awaited (R139, R62, R332; log 21). -/
def popStrip (s : State) (n : VReg) (r : Fin 8) (b : Binding) (vl sew : Nat) : State × Option PopStop :=
  let es := blkEs b.block
  if b.held then (s, none)
  else if sew != es || b.popped + vl > blkCount b.block then (s, some (.trap (misuse n)))
  else
    let want := vl * es
    let have_ := b.ahead.take want
    let miss := vl - have_.length / es
    let first := b.popped + have_.length / es
    match boxReadRun s s.curCore ⟨b.part, b.asn, b.priv, s.cur.ctxOf⟩ b.block b.pages first miss with
    | (s, .error (f, va)) =>
      (s, some (match f with
        | .fault reason _ => .trap (mkTrap 0x0B va (BitVec.ofNat 64 reason))
        | .absent p => if s.cur.answered.contains (p, false) then .trap (mkTrap 0x0B va 2) else .absent p))
    | (s, .ok (more, bad, pages)) =>
      let bytes := have_ ++ more
      let s := match bad with | some k => s.poisonRead k | none => s
      let tag : VTag := if bad.isSome then ⟨infBound, 0, b.tag.flags ||| 8⟩ else b.tag
      let b' := { b with popped := b.popped + vl, ahead := b.ahead.drop want, last := want, tag := tag, pages := pages, held := true }
      let s := s.modVec (fun v => { v with binds := v.binds.set r (some b') })
      (s.modV n (fun x => { x with
        bits := elemsSet x.bits 8 ((List.range bytes.length).map (fun i => (i, (bytes.getD i 0).toNat))), tag := b'.tag
        vhw := BitVec.ofNat 13 (max x.vhw.toNat want), dirty := true }), none)

/-- Pops every bound source once (R139). -/
def popAll (s : State) (vl sew : Nat) : List VReg → State × Option PopStop
  | [] => (s, none)
  | n :: t =>
    match streamIdx n, s.curC.vec.bound n with
    | some r, some b =>
      match popStrip s n r b vl sew with
      | (s, some x) => (s, some x)
      | (s, none) => popAll s vl sew t
    | _, _ => popAll s vl sew t

/-- The strips popped by a completed instruction are spent. -/
def VecUnit.release (v : VecUnit) : VecUnit :=
  { v with binds := v.binds.map (fun o => o.map (fun b => { b with held := false })) }

/-- Bound sources that would be misused are found before any pops. -/
def popCheck (s : State) (vl sew : Nat) (l : List VReg) : Option Trap :=
  (l.find? (fun n => match s.curC.vec.bound n with
    | some b => !b.held && (sew != blkEs b.block || decide (b.popped + vl > blkCount b.block))
    | none => false)).map misuse

/-! ## The lanes (R177) -/

/-- Thread t of the current core takes the free lanes, and vector state still in the hamper is loaded (R177, R315). -/
def takeLanes (s : State) (t : Tid) : State :=
  match (s.thr s.curCore t).vecSaved with
  | some u =>
    let mine (b : Block) : Block := { b with tid := t }
    (s.modVec (fun _ => { u with holder := some t, block := u.block.map mine, parked := u.parked.map mine })).modThr s.curCore t
      (fun x => { x with vecSaved := none })
  | none => s.modVec (fun v => { v with holder := some t })

/-- Whether the current thread may use the lanes now; acquiring them loads vector state still in the hamper (R177, R315). -/
def acquireLanes (s : State) : Option State :=
  match s.curC.vec.holder with
  | some t => if t = s.curTid && !s.cur.relPending then some s else none
  | none => if s.cur.relPending then none else some (takeLanes s s.curTid)

/-- A block of the current thread runs (R185). -/
def State.blockRuns (s : State) : Bool :=
  match s.curC.vec.block with | some b => !b.stopped | none => false

/-- The environment of a lane word issued by the current thread (R178, R309). -/
def laneEnv (s : State) : LaneEnv :=
  let t := s.cur
  { vl := t.vl.toNat, vtype := t.vtype, start := t.vstart.toNat
    ext := if t.reissue.isSome then s.curC.vec.faultMask else BitVec.allOnes 4096
    sregs := t.sregs, fexc := t.fexc, pc := t.pc, peers := BitVec.allOnes 4096, full := t.vl.toNat }

/-- Elements of a mask. -/
def maskCount (m : MaskBits) : Nat := (List.range 4096).countP (fun i => m.getLsbD i)

/-- vpx of a stopped destination is its first unfinished element (R181). -/
def markStop (s : State) (dest : Option VReg) (e : Nat) : State :=
  match dest with | some n => s.modV n (fun x => { x with vpx := BitVec.ofNat 13 e }) | none => s

/-- Where a lane word of the current thread stops short of its `vl` elements of `sew` bytes for debug: the next element group when
stepping, or the element of an element-match trigger at its address (R349, R350). -/
def debugStop (s : State) (sew vl : Nat) : Option Nat :=
  let t := s.cur
  let c := s.curC
  let g := 256 / sew
  let step := if c.step then [(t.vstart.toNat / g + 1) * g] else []
  let trig := (c.triggers.toList.filter (fun x => x.control.getLsbD 0 && x.control.getLsbD 13 && x.addr == t.pc)).map
    (fun x => bitsOf x.control.toNat 1 12)
  match (step ++ trig).filter (fun e => decide (t.vstart.toNat < e) && decide (e < vl)) with
  | [] => none
  | x :: l => some (l.foldl min x)

/-- A lane word has completed: strips are spent, vstart is 0, a reissue is over. -/
def laneFinish (s : State) (fin : State → State) : State :=
  (fin ((s.modVec VecUnit.release).modCur (fun t => { t.reissued with vstart := 0 }))).count 3 1
/-- A lane word has stopped at element n for debug (R181, R350). -/
def lanePart (s : State) (dest : Option VReg) (n : Nat) : State :=
  (markStop s dest n).modCur (fun t => { t with vstart := BitVec.ofNat 12 n })

/-- Misuse of a register that is bound to a stream (R25, R139). -/
def boundTrap (s : State) (n : Option VReg) : Option Trap :=
  match n with
  | some n => if (s.curC.vec.bound n).isSome then some (misuse n) else none
  | none => none

/-- The stream checks of a lane word: destination, replicated operand, sources. -/
def laneCheck (s : State) (op : LaneOp) (e : LaneEnv) : Option Trap :=
  match boundTrap s op.dest with
  | some x => some x
  | none => match boundTrap s op.rep with
    | some x => some x
    | none => popCheck s e.vl (sewOf e.vtype) op.srcs.eraseDups

/-- Runs a lane word for the current thread: stream checks and pops, effect, and how it ends. `fin` completes the
instruction; a stop leaves vstart at its element (R181). -/
def runLane (op : LaneOp) (s : State) (fin : State → State) : Out :=
  let e := laneEnv s
  match laneCheck s op e with
  | some tr => .next (s.trap tr)
  | none =>
    match popAll s e.vl (sewOf e.vtype) op.srcs.eraseDups with
    | (s, some (.trap tr)) => .next ((s.modCur (fun t => { t with answered := t.answered.filter (fun x => x.2) })).trap tr)
    | (s, some (.absent p)) => .next ((requestPage s s.curPart p).block (.hostPage p true))
    | (s, none) =>
      let cut := if op.split then debugStop s (sewOf e.vtype) e.vl else none
      match op.run (match cut with | some n => { e with vl := n } | none => e) s with
      | .done s =>
        match cut with
        | some n => .next (lanePart s op.dest n)
        | none => .next (laneFinish s fin)
      | .doneThen s post =>
        match cut with
        | some n => .next (post (lanePart s op.dest n))
        | none => .next (post (laneFinish s fin))
      | .part s n => .next (lanePart s op.dest n)
      | .early s tr => .next (s.trap tr)
      | .stop s tr i =>
        .next (((markStop s op.dest i).modCur (fun t => { t with vstart := BitVec.ofNat 12 i })).trap { tr with stop := true })
      | .other o => o
      | .whole s tr => .next ((s.modCur (fun t => { t with vstart := 0 })).trap tr)
      | .batch s kind pages held mask =>
        let s := markStop (s.modVec (fun v => { v with faultMask := mask })) op.dest e.start
        let n := maskCount mask
        .next (batchFault s 0x05 kind pages held e.vl n true true)
      | .wait s w i => .next (((markStop s op.dest i).modCur (fun t => { t with vstart := BitVec.ofNat 12 i })).block w)

/-- Issues a lane instruction: the lanes, a running block of the thread, then the word (R177, R185). -/
def withLanes (s : State) (k : State → Out) : Out :=
  match acquireLanes s with
  | none => .next (s.block .lanes)
  | some s => if s.blockRuns then .next (s.block .block) else k s

/-- A lane instruction issued by the current thread. -/
def issueLane (op : LaneOp) (s : State) : Out := withLanes s (fun s => runLane op s State.advance)

/-- Registers become dead (R183): tags, high-water mark, dirty bit, stream binding; bytes by a free choice (R180; log 11). -/
def killRegs (s : State) (keepV : VReg → Bool) (keepM : MReg → Bool) : State :=
  let (n, s) := s.draw
  s.modVec (fun v => { v with
    regs := Vector.ofFn (fun i => if keepV i then v.regs[i]
      else { VecReg.reset with bits := if Config.keepsDeadBytes (32 * n + i.val) then v.regs[i].bits else 0 })
    masks := Vector.ofFn (fun m => if keepM m then v.masks[m]
      else ⟨if Config.keepsDeadBytes (32 * n + m.val) then v.masks[m].bits else 0, false⟩)
    binds := Vector.ofFn (fun r => if keepV ⟨24 + r.val, by omega⟩ then v.binds[r] else none) })

/-- The current thread's lanes are freed and every register dies; a thread that waits for them has them at once (R177, R187). -/
def freeLanes (s : State) : State :=
  let s := (killRegs s (fun _ => false) (fun _ => false)).modVec (fun v => { v with holder := none, block := none, parked := [] })
  let other : Tid := if s.curTid = 0 then 1 else 0
  if (s.thr s.curCore other).wait = .lanes then takeLanes s other else s

end Sys2Proof.Machine
end

