-- ==== Sys2Proof/Machine/MatNum.lean ====
section
/-!
DEFINITION. Arithmetic of the matrix array on tiles and slots: operands with block scales, windowed sums, the extended pair,
row bounds, rescale (spec 14 R251 to R253, R266 to R269; 15 R279 to R281).
-/

namespace Sys2Proof.Machine

/-! ## Exact values -/

/-- Exact sum of two values: IEEE rules for special values and for the sign of zero under rne. -/
def FVal.addX (a b : FVal) : FVal :=
  match a, b with
  | .nan _, _ => .nan false
  | _, .nan _ => .nan false
  | .inf n, .inf n' => if n = n' then .inf n else .nan false
  | .inf n, _ => .inf n
  | _, .inf n => .inf n
  | .fin n m e, .fin n' m' e' =>
    let d := Dyadic.add (FVal.fin n m e).dy (FVal.fin n' m' e').dy
    if d.m = 0 then .fin (m = 0 && m' = 0 && n && n') 0 0 else .fin (d.m < 0) d.m.natAbs d.e
/-- Exact product (R267: a NaN operand, or 0·∞, is NaN). -/
def FVal.mulX (a b : FVal) : FVal :=
  match a, b with
  | .nan _, _ => .nan false
  | _, .nan _ => .nan false
  | .fin n m e, .fin n' m' e' => .fin (n != n') (m * m') (e + e')
  | x, y => if x.isZero || y.isZero then .nan false else .inf (x.neg != y.neg)
/-- f32 bits of an exact value, rne. -/
def FVal.f32 (v : FVal) : Nat := (convFloat .f32 .rne false v).bits

/-! ## Operands (R252, R253, R266) -/

/-- A block scale (R239). -/
def scaleVal (x : Nat) : FVal :=
  let s := x.testBit 19
  let e := bitsOf x 11 8
  if e = 255 then .nan false else if e = 0 then .fin s 0 0 else .fin s (2048 + bitsOf x 0 11) ((e : Int) - 138)

/-- Element bits of a slot row. -/
def SlotSt.elem (sl : SlotSt) (r w pos : Nat) : Nat := (((sl.data[r]?).getD 0).extractLsb' (pos * w) w).toNat
/-- Trailer entry i. -/
def SlotSt.scale (sl : SlotSt) (i : Nat) : Nat := (sl.trailer.extractLsb' (20 * i) 20).toNat

/-- An element value of any type: integers as exact values. -/
def elemVal (t : ElemType) (x : Nat) : FVal :=
  if t.isInt then
    let v := intVal t x
    .fin (v < 0) v.natAbs 0
  else fval t x

/-- Operand k of row r: the element times its block scale, exactly (R253, R266); `s2` holds elements past the first slot. -/
def operandAt (s1 s2 : SlotSt) (t : ElemType) (r k : Nat) : FVal :=
  let per := 2048 / t.bits
  let sl := if k < per then s1 else s2
  let pos := k % per
  let v := elemVal t (sl.elem r t.bits pos)
  if sl.scaled && !t.isInt then FVal.mulX v (scaleVal (sl.scale (r * (per / 32) + pos / 32))) else v

/-- K_max of an operand pair, none where it is not in R251. -/
def pairKmax (w a : ElemType) : Option Nat :=
  let sixteen (t : ElemType) : Bool := t == .bf16 || t == .f16
  let eight (t : ElemType) : Bool := t == .e4m3 || t == .e5m2
  let int8 (t : ElemType) : Bool := t == .i8 || t == .w8
  if sixteen w && sixteen a then some 128
  else if eight w && eight a then some 256
  else if int8 w && int8 a then some 256
  else if w == .e2m1 && a == .e2m1 then some 512
  else if w == .ds8 && (eight a || int8 a) then some 512
  else if w == .ds8 && sixteen a then some 128
  else none

/-- S of one output element and its window exponent (R266, R267). Integer zeros are +0. -/
def windowSum (win : Nat) (ints : Bool) (l : List (FVal × FVal)) : FVal × Option Int :=
  let ps := l.map (fun p => FVal.mulX p.1 p.2)
  if ps.any FVal.isNan then (.nan false, none)
  else
    let infs := ps.filter FVal.isInf
    match infs with
    | x :: t => (if t.all (fun y => y.neg == x.neg) then .inf x.neg else .nan false, none)
    | [] =>
      let nz := ps.filter (fun p => !p.isZero)
      match nz with
      | [] => (.fin (!ints && !ps.isEmpty && ps.all FVal.neg) 0 0, none)
      | x :: t =>
        let e := t.foldl (fun a p => max a (Dyadic.log2 p.dy)) (Dyadic.log2 x.dy)
        let sum := nz.foldl (fun a p => Dyadic.add a (Dyadic.truncAt p.dy (e - win))) Dyadic.zero
        (.fin (sum.m < 0) sum.m.natAbs sum.e, some e)

/-! ## Tiles -/

/-- Element (m, n) of a tile, as f32 bits. -/
def TileSt.elem (t : TileSt) (m n : Nat) : Nat := (((t.rows[m]?).getD 0).extractLsb' (32 * n) 32).toNat
/-- Replaces the first elements of a row. -/
def TileSt.setRow (t : TileSt) (m : Nat) (l : List Nat) : TileSt :=
  let old := ((t.rows[m]?).getD 0).toNat
  let n := 32 * l.length
  let new := l.foldr (fun x acc => x % 2 ^ 32 + 2 ^ 32 * acc) 0
  { t with rows := t.rows.setIfInBounds m (BitVec.ofNat 4096 (old / 2 ^ n * 2 ^ n + new)) }
/-- Row bound. -/
def TileSt.bnd (t : TileSt) (m : Nat) : Bnd := Bound.ofBits ((t.bound[m]?).getD 0)
/-- Sets a row bound, rounded upward. -/
def TileSt.setBnd (t : TileSt) (m : Nat) (b : Bnd) : TileSt := { t with bound := t.bound.setIfInBounds m (Bound.toBits b) }
/-- A tile is in a pair. -/
def TileSt.paired (t : TileSt) : Bool := t.aext.hi || t.aext.lo
/-- Ends a tile's pairing. -/
def TileSt.unpair (t : TileSt) : TileSt := { t with aext := { t.aext with hi := false, lo := false, partner := 0 } }
/-- Raises mrows and ncols (R255). -/
def TileSt.cover (t : TileSt) (m n : Nat) : TileSt :=
  { t with aext := { t.aext with mrows := BitVec.ofNat 8 (Nat.max t.aext.mrows.toNat m), ncols := BitVec.ofNat 8 (Nat.max t.aext.ncols.toNat n) } }

/-- Tile p of a matrix unit. -/
def MatUnit.tile (u : MatUnit) (p : Tile) : TileSt := u.tiles[p]
/-- Changes tile p. -/
def MatUnit.modTile (u : MatUnit) (p : Tile) (f : TileSt → TileSt) : MatUnit := { u with tiles := u.tiles.set p (f u.tiles[p]) }
/-- The pair of tile p ends, in both tiles' flags (R268, R269). -/
def MatUnit.dissolve (u : MatUnit) (p : Tile) : MatUnit :=
  let t := u.tile p
  let o := t.aext.partner
  let u := if t.paired && (u.tile o).paired && (u.tile o).aext.partner == p then u.modTile o TileSt.unpair else u
  u.modTile p TileSt.unpair
/-- mzero's effect (R269). -/
def MatUnit.zeroTile (u : MatUnit) (p : Tile) (pc : Word) : MatUnit :=
  (u.dissolve p).modTile p (fun _ => { TileSt.zero with startPc := pc })

/-- The exact value that a tile element stands for: hi + lo in the high half of a pair (R268). -/
def MatUnit.value (u : MatUnit) (p : Tile) (m n : Nat) : FVal :=
  let t := u.tile p
  let v := f32Val (t.elem m n)
  if t.aext.hi then FVal.addX v (f32Val ((u.tile t.aext.partner).elem m n)) else v

/-- Splits an exact value into the elements of a pair (R268); a value that is not finite leaves lo +0. -/
def splitPair (v : FVal) : Nat × Nat :=
  let h := v.f32
  match v, f32Val h with
  | .fin n m e, .fin n' m' e' => (h, f32Rne (Dyadic.sub (FVal.fin n m e).dy (FVal.fin n' m' e').dy))
  | _, _ => (h, 0)

/-- Stores the first elements of row m of tile p, split over its pair, whose lo tile's extent covers what it is given (R255). -/
def MatUnit.storeRow (u : MatUnit) (p : Tile) (m : Nat) (l : List FVal) : MatUnit :=
  let t := u.tile p
  if t.aext.hi then
    let sp := l.map splitPair
    (u.modTile p (fun t => t.setRow m (sp.map (·.1)))).modTile t.aext.partner
      (fun t => (t.setRow m (sp.map (·.2))).cover (m + 1) l.length)
  else u.modTile p (fun t => t.setRow m (l.map FVal.f32))

/-! ## Row bounds (R279, R280) -/

/-- The largest magnitude of the first n elements of a row, none when one is not finite. -/
def TileSt.rowMax (t : TileSt) (m n : Nat) : Option Dy :=
  (List.range n).foldl (fun a j =>
    match a, f32Val (t.elem m j) with
    | some x, .fin s v e => some (Dyadic.max x (Dyadic.abs (FVal.fin s v e).dy))
    | _, _ => none) (some Dyadic.zero)
/-- The rounding term 2^(E − k): 0 for a zero row, +∞ for a non-finite one (R279). -/
def rowTerm (best : Option Dy) (k : Int) : Bnd :=
  match best with
  | none => none
  | some d => if d.m = 0 then bndZero else some (Dyadic.pow2 (max (-126) (Dyadic.log2 d) - k))

/-- Bound and M of an operand's slots: the larger of the two, an unbounded slot giving 0 (R279). -/
def slotTags (s1 : SlotSt) (s2 : Option SlotSt) : Option (Bnd × Bnd) :=
  let one (s : SlotSt) : Bnd × Bnd :=
    if s.bounded then
      let t := tagOfBytes s.sidecar.toNat
      (Bound.ofBits t.bound, magM t.mag.toNat)
    else (bndZero, bndZero)
  let bounded := s1.bounded || (match s2 with | some x => x.bounded | none => false)
  if !bounded then none
  else match s2 with
    | none => some (one s1)
    | some x => some (Bound.max (one s1).1 (one x).1, Bound.max (one s1).2 (one x).2)

/-- K·(b_a·M_w + b_w·M_a + b_a·b_w), or 0 when neither operand is bounded (R279). -/
def slotTerm (k : Nat) (a w : Option (Bnd × Bnd)) : Bnd :=
  match a, w with
  | none, none => bndZero
  | _, _ =>
    let (ba, ma) := a.getD (bndZero, bndZero)
    let (bw, mw) := w.getD (bndZero, bndZero)
    Bound.mul (some (Dyadic.ofInt k)) (Bound.add (Bound.add (Bound.mul ba mw) (Bound.mul bw ma)) (Bound.mul ba bw))

/-! ## mmac's accumulation -/

/-- What one accumulation runs on: the activation slot pair, the latched weights, types, shape and window. -/
structure MacIn where
  a1 : SlotSt
  a2 : SlotSt
  aTwo : Bool
  at_ : ElemType
  arr : ArraySt
  m : Nat
  n : Nat
  k : Nat
  x : Bool
deriving Repr

/-- One row of an mmac: elements, aext left alone, and the row's bound (R266, R279). -/
def macRow (u : MatUnit) (p : Tile) (i : MacIn) (sterm : Bnd) (m : Nat) : MatUnit :=
  let wt := elemOfCode i.arr.latch.type.toNat
  let w2 := i.arr.w2.getD i.arr.w
  let win := if i.x then 95 else 47
  let ints := i.at_.isInt && wt.isInt
  let acts := (List.range i.k).map (fun k => operandAt i.a1 i.a2 i.at_ m k)
  let sums := (List.range i.n).map (fun n =>
    windowSum win ints (acts.zip ((List.range i.k).map (fun k => operandAt i.arr.w w2 wt n k))))
  let em := sums.foldl (fun a s => match a, s.2 with | some x, some y => some (max x y) | none, y => y | x, none => x) none
  let u' := u.storeRow p m ((List.range i.n).zip sums |>.map (fun s => FVal.addX (u.value p m s.1) s.2.1))
  let best := (u'.tile p).rowMax m i.n
  let b := match best with
    | none => none
    | some _ =>
      let wterm : Bnd := match em with
        | some e => Bound.mul (some (Dyadic.ofInt i.k)) (some (Dyadic.pow2 (e - win))) | none => bndZero
      Bound.add ((u.tile p).bnd m) (Bound.add (Bound.add wterm (rowTerm best (if i.x then 48 else 24))) sterm)
  u'.modTile p (fun t => t.setBnd m b)

/-- The rows of an mmac into tile p, and the extent (R255, R266, R279). -/
def macRun (u : MatUnit) (p : Tile) (i : MacIn) : MatUnit :=
  let sterm := slotTerm i.k (slotTags i.a1 (if i.aTwo then some i.a2 else none)) (slotTags i.arr.w i.arr.w2)
  let u := (List.range i.m).foldl (fun u m => macRow u p i sterm m) u
  u.modTile p (fun t => t.cover i.m i.n)

/-- Forms the pair p (hi), c (lo) (R268). -/
def MatUnit.formPair (u : MatUnit) (p c : Tile) : MatUnit :=
  (u.modTile p (fun t => { t with aext := { t.aext with hi := true, lo := false, partner := c } })).modTile c (fun t =>
    { t with aext := { t.aext with hi := false, lo := true, partner := p }, bound := Vector.replicate 128 0x7F800000#32 })

/-- Folds lo into the elements of hi that an mmac of m × n did not update, zeroes lo and ends the pair; the bound term of
R280 falls on every row of the extent (R268). -/
def MatUnit.foldPair (u : MatUnit) (p : Tile) (m n : Nat) : MatUnit :=
  let t := u.tile p
  let c := t.aext.partner
  let rows := Nat.max t.aext.mrows.toNat (u.tile c).aext.mrows.toNat
  let cols := Nat.max t.aext.ncols.toNat (u.tile c).aext.ncols.toNat
  let row (u : MatUnit) (r : Nat) : MatUnit :=
    let l := (List.range cols).map (fun j => if r < m && j < n then (u.tile p).elem r j else (u.value p r j).f32)
    u.modTile p (fun t => t.setRow r l)
  let u := ((List.range rows).foldl row u).modTile p (fun t => t.cover rows cols)
  let u := (List.range rows).foldl (fun u r =>
    u.modTile p (fun t => t.setBnd r (Bound.add (t.bnd r) (rowTerm (t.rowMax r cols) 24)))) u
  (u.modTile c (fun t => { t with rows := Vector.replicate 128 0, bound := Vector.replicate 128 0 })).dissolve p

/-- The pending rescale of tile p (R269, R280). -/
def MatUnit.applyRescale (u : MatUnit) (p : Tile) : MatUnit :=
  let t := u.tile p
  let cols := t.aext.ncols.toNat
  (List.range t.aext.mrows.toNat).foldl (fun u m =>
    let rho := ((u.tile p).rescale[m]?).getD 0x3F800000#32
    if rho = 0x3F800000#32 then u
    else
      let r := f32Val rho.toNat
      let u' := u.storeRow p m ((List.range cols).map (fun n => FVal.mulX (u.value p m n) r))
      let scaled : Bnd := match (u.tile p).bnd m, r with
        | some b, .fin _ v e => Bound.mul (some b) (some ⟨v, e⟩)
        | _, _ => none
      u'.modTile p (fun t =>
        { t.setBnd m (Bound.add scaled (rowTerm (t.rowMax m cols) 24)) with
          rescale := t.rescale.setIfInBounds m 0x3F800000#32 })) u

/-! ## Thresholds (R281) -/

/-- Row m of tile t exceeds the thresholds bthr and bthra; a row of NaN or ±∞ that no mismatch poisoned is not compared (R281). -/
def rowExceeds (t : TileSt) (bthr bthra : Word32) (m : Nat) : Bool :=
  let b := t.bnd m
  let best := t.rowMax m t.aext.ncols.toNat
  let poisoned := t.poisoned.getLsbD m
  let beyond (th : FVal) (a : Dy) : Bool :=
    match th, b with
    | .nan _, _ => false
    | .inf n, some _ => n && a.m != 0
    | .fin n v e, some x => Dyadic.lt (Dyadic.mul (FVal.fin n v e).dy a) x
    | _, none => true
  if best.isNone && !poisoned then false
  else if b.isNone then true
  else beyond (f32Val bthra.toNat) (Dyadic.ofInt 1) || beyond (f32Val bthr.toNat) (best.getD Dyadic.zero)

/-- The first of some rows that exceeds. -/
def firstExceeding (t : TileSt) (bthr bthra : Word32) (rows : List Nat) : Option Nat :=
  rows.find? (fun r => rowExceeds t bthr bthra r)
/-- The rows of a mask, lowest first. -/
def rowsOf (x : BitVec 128) : List Nat := (List.range 128).filter (fun r => x.getLsbD r)

/-! ## Poisoned slots (R340, R341) -/

/-- A slot as the array reads it: poisoned granules read zero (R341; log 68). -/
def SlotSt.read (sl : SlotSt) : SlotSt :=
  { sl with data := sl.poison.foldl (fun d g =>
      d.setIfInBounds (g / 16) ((d[g / 16]?).getD 0 &&& ~~~(BitVec.ofNat 2048 ((2 ^ 128 - 1) * 2 ^ (128 * (g % 16)))))) sl.data }

end Sys2Proof.Machine
end

