-- ==== Sys2Proof/Machine/Wake.lean ====
section
/-!
DEFINITION. Who satisfied a blocked wait, for the critical bit (spec 19 R355), and folds of one element (06 R103, 07 R136).
-/

namespace Sys2Proof.Machine

/-! ## Critical bit of a blocked wait -/

/-- A wait on the core's own scratchpad is satisfied (R75, R133). -/
def Core.waitMet (c : Core) (w : Wait) : Bool :=
  match w with
  | .granule gs => gs.all c.isFull
  | .arrival bar target => decide (target.toNat ≤ leNat (c.spadRead bar 8))
  | _ => false
/-- Notes the critical bit of the agent whose action has just satisfied a wait on core c's scratchpad. -/
def Core.noteWake (c : Core) (b : Bool) : Core :=
  { c with threads := c.threads.map (fun t => if t.wakeC.isNone && c.waitMet t.wait then { t with wakeC := some b } else t) }
/-- The same, for core k. -/
def State.noteCoreWake (s : State) (k : CoreId) (b : Bool) : State := s.modCore k (fun c => c.noteWake b)

/-- A counter wait is satisfied (R163). -/
def counterMet (s : State) (w : Wait) : Bool :=
  match w with
  | .counter t target => decide (target.toNat ≤ leNat (tgtRead s t 8).1)
  | _ => false
/-- Notes the critical bit of the agent whose write has just satisfied counter waits. -/
def State.noteCounterWake (s : State) (b : Bool) : State :=
  { s with cores := s.cores.map (fun c =>
    if c.threads.any (fun t => t.wakeC.isNone && counterMet s t.wait) then
      { c with threads := c.threads.map (fun t => if t.wakeC.isNone && counterMet s t.wait then { t with wakeC := some b } else t) }
    else c) }

/-- A completed wait takes the noted critical bit (R355). -/
def State.takeC (s : State) : State :=
  s.modCur (fun t => match t.wakeC with | some b => { t with cbit := b, wakeC := none } | none => t)

/-! ## Folds -/

/-- How elements combine. -/
inductive FoldKind where
  | add | max | min
deriving DecidableEq, Repr

/-- One fold of v into old (R103). -/
def foldElem (t : ElemType) (k : FoldKind) (old v : Nat) : Nat :=
  if t.isInt then
    match k with
    | .add => (old + v) % 2 ^ t.bits
    | .max => if intVal t old < intVal t v then v else old
    | .min => if intVal t v < intVal t old then v else old
  else
    match k with
    | .add => (addVal t .rne (fval t old) (fval t v)).bits
    | .max => (minMaxBits t true old v).bits
    | .min => (minMaxBits t false old v).bits

/-- An element as a sum fold's term: f32, or the integer itself (R136). -/
def foldTerm (t : ElemType) (x : Nat) : Nat := if t.isInt then x else (convFloat .f32 .rne false (fval t x)).bits
/-- One addition of a sum fold (R136). -/
def foldSum (t : ElemType) (a b : Nat) : Nat :=
  if t.isInt then (a + b) % 2 ^ t.bits else (addVal .f32 .rne (f32Val a) (f32Val b)).bits
/-- The element that a sum fold's partial rounds to (R136). -/
def foldRound (t : ElemType) (p : Nat) : Nat := if t.isInt then p else (convFloat t .rne false (f32Val p)).bits

/-- Adds terms of an unordered sum fold in freely chosen pairs: to one term when `force`, else for as long as chosen
(R136; log 16). -/
def foldFree (t : ElemType) (tag : Nat) (force : Bool) : Nat → List Word → List Word
  | 0, l => l
  | n + 1, l =>
    let x := Config.foldPick tag n
    if l.length ≤ 1 || (!force && x % 2 == 1) then l
    else
      let i := x / 2 % l.length
      let r := l.eraseIdx i
      let j := x / 2 / l.length % r.length
      let y := foldSum t (l.getD i 0).toNat (r.getD j 0).toNat
      foldFree t tag force n (BitVec.ofNat 64 y :: r.eraseIdx j)

end Sys2Proof.Machine
end

