-- ==== Sys2Proof/Machine/Matrix.lean ====
section
/-!
DEFINITION. The matrix instructions of major 0x2D (spec 14 R256 to R276), thresholds, recipes and automatic re-issue
(15 R281 to R286).
-/

namespace Sys2Proof.Machine

/-! ## Issue (R177, R256, R257, R259, R285) -/

/-- A matrix operand fault (R259). -/
def matTrap (reason num : Nat) (telem : Nat) : Trap :=
  mkTrap 0x04 (BitVec.ofNat 64 (reason + num * 256)) (BitVec.ofNat 64 telem)

/-- Context number of the running task. -/
def State.ctx (s : State) : BitVec 16 := s.cur.ctxOf
/-- Slot p of the current core. -/
def State.slot (s : State) (p : Slot) : SlotSt := s.curC.mat.slots[p]
/-- Slot p + 1, when there is one. -/
def nextSlot (p : Slot) : Option Slot := if h : p.val + 1 < 16 then some ⟨p.val + 1, h⟩ else none
/-- The slot is claimed by a context. -/
def SlotSt.heldBy (sl : SlotSt) (ctx : BitVec 16) : Bool := sl.claimed && sl.owner == ctx
/-- Changes slot p of a matrix unit. -/
def MatUnit.modSlot (u : MatUnit) (p : Slot) (f : SlotSt → SlotSt) : MatUnit := { u with slots := u.slots.set p (f u.slots[p]) }

/-- The matrix unit works on something else than an instruction of thread t: a re-issue, or the other thread's mfill (R260, R284). -/
def MatUnit.engaged (u : MatUnit) (t : Tid) : Bool :=
  u.pendReissue.isSome || (match u.filling with | some f => f.tid != t | none => false)

/-- A matrix instruction first waits for earlier work of the unit, then reports a bound threshold (R260, R284, R285). -/
def withMatrix (s : State) (k : State → Out) : Out :=
  if s.curC.mat.engaged s.curTid then .next (s.block (.slotBusy []))
  else if s.curC.mat.filling.isSome then k s
  else match takeBound s with
    | some s' => .next s'
    | none => k s

/-- The tile-ownership check: unowned tiles become the running context's (R256). -/
def ownTiles (s : State) (l : List Tile) : Except Trap State :=
  match l.find? (fun p => s.curC.mat.acown[p] != 0 && s.curC.mat.acown[p] != s.ctx) with
  | some p => .error (mkTrap 0x0E (BitVec.ofNat 64 p.val) (s.curC.mat.acown[p].zeroExtend 64))
  | none => .ok (s.modMat (fun u => { u with acown := l.foldl (fun (a : Vector (BitVec 16) 4) (p : Tile) => a.set p.val s.ctx) u.acown }))

/-- Whether any listed slot has a fill in flight (R261). -/
def SlotSt.busy (sl : SlotSt) : Bool := decide (0 < sl.fills)
/-- Whether any listed slot is busy. -/
def State.slotsBusy (s : State) (l : List Slot) : Bool := l.any (fun p => (s.slot p).busy)

/-- The first unclaimed slot of a list (reason 1). -/
def State.unclaimed (s : State) (l : List Slot) : Option Slot := l.find? (fun p => !(s.slot p).heldBy s.ctx)

/-- Scratchpad areas of a matrix instruction, checked as R84 checks an element: range, alignment, then the lane-local region. -/
def areaTrap (l : List (Int × Nat)) (align : Nat) : Option Trap :=
  let out := l.find? (fun a => decide (a.1 < 0) || decide (a.1 + (a.2 : Int) > (spadSize : Int)))
  let mis := l.find? (fun a => a.1 % (align : Int) != 0)
  let lane := l.find? (fun a => decide (a.1 + (a.2 : Int) > (laneBase : Int)))
  match out, mis, lane with
  | some a, _, _ => some (mkTrap 0x06 (BitVec.ofInt 64 (if a.1 < 0 then a.1 else max a.1 (spadSize : Int))) 0)
  | _, some a, _ => some (mkTrap 0x03 (BitVec.ofInt 64 a.1) 0)
  | _, _, some a => some (mkTrap 0x04 (BitVec.ofInt 64 (max a.1 (laneBase : Int))) 0)
  | _, _, _ => none

/-! ## Shape, claim and fill (R262 to R264) -/

/-- mshape (R262). -/
def execMshape (d a : SReg) (cls : MatClass) (s : State) : Out :=
  withMatrix s (fun s =>
    let x := (s.sreg a).toNat
    let cap := match cls with | .e16 => 128 | .e8 => 256 | .e4 => 512
    let g := min (bitsOf x 0 16) 128 + min (bitsOf x 16 16) 128 * 2 ^ 16 + min (bitsOf x 32 16) cap * 2 ^ 32
    .next ((s.modCur (fun t => { t with msh := BitVec.ofNat 48 g })).finish d (BitVec.ofNat 64 g)))

/-- A slot freshly claimed: zeroed, gen unchanged (R263); fills of an earlier claim are still to stop (R261). -/
def SlotSt.taken (sl : SlotSt) (ctx : BitVec 16) : SlotSt :=
  { SlotSt.reset with claimed := true, owner := ctx, gen := sl.gen, fills := sl.fills, claim := sl.claim + 1 }

/-- The claim of a slot mask for a context, all or nothing: the new unit and the mask of slots that others hold (R263). -/
def MatUnit.claimMask (u : MatUnit) (ctx : BitVec 16) (mask : Nat) : MatUnit × Nat :=
  let other := (List.finRange 16).foldl (fun a p =>
    if mask.testBit p.val && u.slots[p].claimed && u.slots[p].owner != ctx then a + 2 ^ p.val else a) 0
  if other != 0 then (u, other)
  else ({ u with slots := Vector.ofFn (fun p =>
    if mask.testBit p.val && !u.slots[p].claimed then u.slots[p].taken ctx else u.slots[p]) }, 0)

/-- mclaim (R263). -/
def execMclaim (d a : SReg) (s : State) : Out :=
  withMatrix s (fun s =>
    let x := (s.sreg a).toNat
    if x ≥ 2 ^ 16 then .next (s.trap (matTrap 6 0 0))
    else
      let (u, other) := s.curC.mat.claimMask s.ctx x
      .next ((s.modMat (fun _ => u)).finish d (BitVec.ofNat 64 other)))

/-- A recipe entry names slot p (R263). -/
def RecipeEntry.names (e : RecipeEntry) (p : Slot) : Bool :=
  e.slot == p || e.latch.slot == p || (e.pair && nextSlot e.slot == some p) || (e.latch.pair && nextSlot e.latch.slot == some p)

/-- Releases the slots of a mask that a context holds; recipes that name one become lost (R263). -/
def MatUnit.releaseMask (u : MatUnit) (ctx : BitVec 16) (mask : Nat) : MatUnit :=
  let gone (p : Slot) : Bool := mask.testBit p.val && u.slots[p].heldBy ctx
  { u with
    slots := Vector.ofFn (fun p => if gone p then { u.slots[p] with claimed := false, owner := 0 } else u.slots[p])
    tiles := u.tiles.map (fun t =>
      if t.recipe.any (fun e => (List.finRange 16).any (fun p => gone p && e.names p)) then { t with lost := true } else t) }

/-- mrelease (R263). -/
def execMrelease (a : SReg) (s : State) : Out :=
  withMatrix s (fun s =>
    let x := (s.sreg a).toNat
    if x ≥ 2 ^ 16 then .next (s.trap (matTrap 6 0 0))
    else .next (s.modMat (fun u => u.releaseMask s.ctx x)).advance)

/-- Element type of an mfill (R258). -/
def FillType.elem : FillType → ElemType
  | .bf16 => .bf16 | .f16 => .f16 | .e4m3 => .e4m3 | .e5m2 => .e5m2 | .i8 => .i8 | .w8 => .w8 | .e2m1 => .e2m1 | .ds8 => .ds8

/-- A fill of a slot begins: gen advances (R80). -/
def SlotSt.beginFill (sl : SlotSt) : SlotSt := { sl with gen := sl.gen + 1 }
/-- A fill that takes time begins: the slot is busy from here (R261). -/
def SlotSt.openFill (sl : SlotSt) : SlotSt := { sl.beginFill with fills := sl.fills + 1 }
/-- A fill has ended, or has faulted (R261). -/
def SlotSt.closeFill (sl : SlotSt) : SlotSt := { sl with fills := sl.fills - 1 }

/-- A trailer of scales from 32-bit words. -/
def trailerOf (ws : List Nat) : BitVec 40960 :=
  BitVec.ofNat 40960 (ws.foldr (fun x acc => x % 2 ^ 20 + 2 ^ 20 * acc) 0)
/-- Replaces the first scales of a trailer. -/
def SlotSt.setScales (sl : SlotSt) (ws : List Nat) : SlotSt :=
  let n := 20 * ws.length
  { sl with trailer := BitVec.ofNat 40960 (sl.trailer.toNat / 2 ^ n * 2 ^ n + (trailerOf ws).toNat % 2 ^ n) }
/-- The 32-bit words of a byte list. -/
def words32 (bs : List Byte) : List Nat := (List.range (bs.length / 4)).map (fun i => fieldAt bs (4 * i) 4)

/-- The granules of an area, each with the bytes of it that the area takes. -/
def areaPieces (a : Int × Nat) : List (Nat × Nat) :=
  (granulesOf a.1.toNat a.2).map (fun g =>
    let lo := max (16 * g) a.1.toNat
    (lo, min (16 * g + 16) (a.1.toNat + a.2) - lo))

/-- Reads the areas of an mfill in order, with `wait` granule by granule: what was read, and the granule that it waits for (R73). -/
def fillRead (s : State) (wait : Bool) : List (Nat × Nat) → State × List Byte × Option Nat
  | [] => (s, [], none)
  | (a, n) :: l =>
    if wait && inAllocs s.curAllocs (a / 16 * 16) && !s.curC.isFull (a / 16) then (s, [], some (a / 16))
    else
      let (s, bs, _) := s.guardRead a n
      let (s, r, stop) := fillRead s wait l
      (s, bs ++ r, stop)

/-- Drops the pieces that hold the first n bytes. -/
def dropPieces : Nat → List (Nat × Nat) → List (Nat × Nat)
  | _, [] => []
  | n, p :: l => if p.2 ≤ n && decide (0 < n) then dropPieces (n - p.2) l else p :: l

/-- An mfill's slot holds what was read: rows, then scales, then the sidecar (R264). -/
def SlotSt.filled (sl : SlotSt) (t : FillType) (rows blocks : Nat) (scl bnd : Bool) (bs : List Byte) : SlotSt :=
  let n := 4 * rows * blocks
  let sl := { sl with
    data := Vector.ofFn (fun r => if r.val < rows then BitVec.ofNat 2048 (leNat ((bs.drop (256 * r.val)).take 256)) else 0)
    type := BitVec.ofNat 4 (codeOfElem t.elem), scaled := scl, bounded := bnd, poison := [] }
  let sl := if scl then sl.setScales (words32 ((bs.drop (256 * rows)).take n)) else sl
  if bnd then { sl with sidecar := BitVec.ofNat 64 (fieldAt bs (256 * rows + (if scl then n else 0)) 8) } else sl

/-- mfill (R264, R73, R76, R80): gen advances and the slot is busy, then its granules are read in order; with `.wait` it goes on
where it waited. -/
def execMfill (p : Slot) (a c : SReg) (t : FillType) (scl bnd wait : Bool) (s : State) : Out :=
  withMatrix s (fun s =>
    let addr := (s.sreg a).toNat
    let w := (s.sreg c).toNat
    let pitch := bitsOf w 0 22
    let rows := bitsOf w 22 8
    let sa := bitsOf w 32 22
    let blocks := 2048 / t.elem.bits / 32
    if !(s.slot p).heldBy s.ctx then .next (s.trap (matTrap 1 p.val 0))
    else if bitsOf w 30 2 != 0 || bitsOf w 54 10 != 0 || pitch % 16 != 0 || pitch < 256 || rows = 0 || rows > 128
        || sa % 16 != 0 || (!scl && sa != 0) then .next (s.trap (matTrap 6 p.val 0))
    else
      let rowAreas := (List.range rows).map (fun r => (((addr + r * pitch : Nat) : Int), 256))
      let sclArea : List (Int × Nat) := if scl then [((sa : Int), 4 * rows * blocks)] else []
      let bndArea : List (Int × Nat) := if bnd then [((addr : Int) - 8, 8)] else []
      match areaTrap (rowAreas ++ sclArea) 16 with
      | some tr => .next (s.trap tr)
      | none =>
        match areaTrap bndArea 8 with
        | some tr => .next (s.trap tr)
        | none =>
          let under := s.curC.mat.filling
          if under.isNone && (s.slot p).busy then .next (s.block (.slotBusy [p]))
          else
            let areas := rowAreas ++ sclArea ++ bndArea
            let pieces := if wait then (areas.map areaPieces).flatten else areas.map (fun x => (x.1.toNat, x.2))
            let old := match under with | some f => f.read | none => []
            let s := if under.isSome then s else s.modMat (fun u => u.modSlot p SlotSt.openFill)
            let before := s.cur.guard
            let (s, bs, stop) := fillRead s wait (dropPieces old.length pieces)
            let s := s.oneAccess before under.isSome
            let bs := old ++ bs
            match stop with
            | some g => .next ((s.modMat (fun u => { u with filling := some ⟨s.curTid, p, bs⟩ })).block (.granule [g]))
            | none =>
              let s := if wait then s.takeC else s
              .next (s.modMat (fun u => { u with filling := none }.modSlot p
                (fun sl => (sl.filled t rows blocks scl bnd bs).closeFill))).advance)

/-! ## Weights (R257, R265) -/

/-- Most K that a weight type latches (R265). -/
def latchCap (t : ElemType) : Nat :=
  match t with | .e2m1 | .ds8 => 512 | .e4m3 | .e5m2 | .i8 | .w8 => 256 | _ => 128

/-- The slots that a pair starting at p names. -/
def pairSlots (p : Slot) (two : Bool) : List Slot :=
  if two then p :: (match nextSlot p with | some q => [q] | none => []) else [p]

/-- A pair is misplaced or of two types: the slot to report (reason 3). -/
def pairFault (s : State) (p : Slot) : Option Slot :=
  match nextSlot p with
  | none => some p
  | some q => if p.val % 2 != 0 then some p else if (s.slot q).type != (s.slot p).type then some q else none

/-- What the array holds after latching a record from its slots. -/
def MatUnit.load (u : MatUnit) (l : Latch) : MatUnit :=
  { u with array := some ⟨l, u.slots[l.slot].read, if l.pair then (nextSlot l.slot).map (fun q => u.slots[q].read) else none⟩ }

/-- Poison in slots that the array reads is a contained machine check of the context (R341; log 68). -/
def State.slotsRead (s : State) (l : List Slot) : State :=
  if l.any (fun p => !(s.slot p).poison.isEmpty) then s.poisonRead (coreBank s.curCore) else s

/-- mwload (R265). -/
def execMwload (p : Slot) (s : State) : Out :=
  withMatrix s (fun s =>
    let t := elemOfCode (s.slot p).type.toNat
    let kw := min (bitsOf s.cur.msh.toNat 32 16) (latchCap t)
    let two := t == .ds8 && decide (kw > 256)
    match s.unclaimed (pairSlots p two) with
    | some q => .next (s.trap (matTrap 1 q.val 0))
    | none =>
      if s.slotsBusy (pairSlots p two) then .next (s.block (.slotBusy (pairSlots p two)))
      else match (if two then pairFault s p else none) with
        | some q => .next (s.trap (matTrap 3 q.val 0))
        | none =>
          let gen2 := match nextSlot p with | some q => if two then (s.slot q).gen else 0 | none => 0
          let l : Latch := ⟨p, two, (s.slot p).gen, gen2, (s.slot p).type, kw, bitsOf s.cur.msh.toNat 16 16⟩
          .next ((((s.modCur (fun th => { th with latch := some l })).modMat (fun u => u.load l)).slotsRead (pairSlots p two)).advance))

/-- The recorded slots are still claimed by the context at their recorded generations (R257). -/
def latchValid (u : MatUnit) (ctx : BitVec 16) (l : Latch) : Bool :=
  let ok (p : Slot) (g : Word32) : Bool := u.slots[p].heldBy ctx && u.slots[p].gen == g
  ok l.slot l.gen && (!l.pair || (match nextSlot l.slot with | some q => ok q l.gen2 | none => false))

/-! ## mmac (R266 to R269), thresholds and recipes -/

/-- Element type of an mmac's activations. -/
def ActType.elem : ActType → ElemType
  | .bf16 => .bf16 | .f16 => .f16 | .e4m3 => .e4m3 | .e5m2 => .e5m2 | .i8 => .i8 | .w8 => .w8 | .e2m1 => .e2m1

/-- Appends a recipe entry; a 65th, .rs or .x makes the recipe unusable (R283). -/
def TileSt.log (t : TileSt) (e : RecipeEntry) : TileSt :=
  { t with
    recipe := if t.recipe.length < 64 then t.recipe ++ [e] else t.recipe
    lost := t.lost || decide (t.recipe.length ≥ 64) || e.rs || e.x }

/-- What an accumulation of a logged entry runs on. -/
def entryInput (u : MatUnit) (e : RecipeEntry) (arr : ArraySt) (x : Bool) : MacIn :=
  ⟨u.slots[e.slot].read, (match nextSlot e.slot with | some q => u.slots[q] | none => u.slots[e.slot]).read, e.pair, e.type.elem, arr,
   e.m, e.n, e.k, x⟩
/-- The rows of an accumulation that poison in its slots reaches: those of a poisoned activation row, all for a poisoned weight
(log 68). -/
def MacIn.badRows (i : MacIn) : List (Fin 128) :=
  let any (g : GSet) (m : Fin 128) : Bool := g.any (fun x => x / 16 == m.val)
  let w := !i.arr.w.poison.isEmpty || (match i.arr.w2 with | some x => !x.poison.isEmpty | none => false)
  (List.finRange 128).filter (fun m => decide (m.val < i.m) && (w || any i.a1.poison m || (i.aTwo && any i.a2.poison m)))
/-- Those rows' bounds are +∞ (R341). -/
def MatUnit.spoilRows (u : MatUnit) (p : Tile) (l : List (Fin 128)) : MatUnit := u.modTile p (fun t => l.foldl TileSt.spoil t)

/-- A companion tile for re-issuing tile p for a context (R284). -/
def companion (u : MatUnit) (ctx : BitVec 16) (p : Tile) : Option Tile :=
  (List.finRange 4).find? (fun c => c != p && !(u.tile c).paired && (u.tile c).aext.mrows == 0
    && (u.acown[c] == 0 || u.acown[c] == ctx))

/-- An automatic re-issue of tile p may start for a context (R284). -/
def canReissue (u : MatUnit) (ctx : BitVec 16) (p : Tile) : Bool :=
  let t := u.tile p
  !t.lost && !t.escalated && (companion u ctx p).isSome && t.recipe.all (fun e =>
    latchValid u ctx e.latch && u.slots[e.slot].heldBy ctx && u.slots[e.slot].gen == e.gen
      && (!e.pair || (match nextSlot e.slot with | some q => u.slots[q].heldBy ctx && u.slots[q].gen == e.gen2 | none => false)))

/-- The report of an exceeding row; only the first waits (R285). -/
def Thread.reportBound (t : Thread) (u : TileSt) (p : Tile) (row : Nat) (reissued : Bool) : Thread :=
  match t.boundRep with
  | some _ => t
  | none => { t with boundRep := some ⟨u.startPc, p, row, reissued, u.lost, u.residue⟩ }

/-- After an mmac into rows of tile p by thread tid of core k: the comparison and what bmode makes of it (R281, R282). A re-issue
that has been set off goes first. -/
def compareTile (s : State) (k : CoreId) (tid : Tid) (p : Tile) (rows : List Nat) : State :=
  let th := s.thr k tid
  let u := (s.core k).mat
  let t := u.tile p
  if th.bmode = 0 then s
  else match firstExceeding t th.bthr th.bthra rows with
    | none => s
    | some row =>
      if u.pendReissue == some (tid, p) then s
      else if th.bmode = 2 && u.pendReissue.isNone && canReissue u th.ctxOf p then
        s.modCore k (fun c => { c with mat := { c.mat with pendReissue := some (tid, p) } })
      else s.modThr k tid (fun x => x.reportBound t p row false)

/-- The accumulation of an mmac whose checks passed (R266, R268, R269, R283). -/
def mmacEffect (u : MatUnit) (p c : Tile) (i : MacIn) (e : RecipeEntry) (pc : Word) : MatUnit :=
  let live := decide (i.m > 0) && decide (i.n > 0) && decide (i.k > 0)
  let u := if e.z then u.zeroTile p pc else u
  let tp := u.tile p
  let u :=
    if !live then u
    else if e.x then
      let u := if tp.aext.lo || (tp.aext.hi && tp.aext.partner != c) then u.dissolve p else u
      if (u.tile c).aext.hi || ((u.tile c).aext.lo && (u.tile c).aext.partner != p) then u.dissolve c else u
    else if tp.aext.lo then u.dissolve p else u
  let u := if e.rs then u.applyRescale p else u
  let u :=
    if !live then u
    else if e.x then macRun (u.formPair p c) p i
    else if (u.tile p).aext.hi then
      -- the updated elements round hi + lo + S once; the rest fold, and the pair ends
      let lo := (u.tile p).aext.partner
      let rows := (List.range i.m).foldl (fun v m => macRow v p i
        (slotTerm i.k (slotTags i.a1 (if i.aTwo then some i.a2 else none)) (slotTags i.arr.w i.arr.w2)) m) u
      -- lo's own elements are still the old ones for the rows that remain to be folded
      let rows := { rows with tiles := rows.tiles.set lo (u.tiles[lo]) }
      let rows := rows.modTile p (fun t => (List.range i.m).foldl (fun t m =>
        t.setRow m ((List.range i.n).map (fun n => (FVal.addX (u.value p m n)
          ((windowSum 47 (i.at_.isInt && (elemOfCode i.arr.latch.type.toNat).isInt)
            ((List.range i.k).map (fun k => (operandAt i.a1 i.a2 i.at_ m k,
              operandAt i.arr.w (i.arr.w2.getD i.arr.w) (elemOfCode i.arr.latch.type.toNat) n k)))).1)).f32))) t)
      (rows.modTile p (fun t => t.cover i.m i.n)).foldPair p i.m i.n
    else macRun u p i
  let u := if live then u.spoilRows p i.badRows else u
  u.modTile p (fun t => t.log e)

/-- mmac whose word lies at `pc` (R251, R257, R259, R266), completed by `fin`. -/
def mmacWith (fin : State → State) (pc : Word) (p : Tile) (q : Slot) (c : Tile) (t : ActType) (rs x z : Bool) (s : State) : Out :=
  withMatrix s (fun s =>
    let at_ := t.elem
    let lt := s.cur.latch
    let wt := match lt with | some l => elemOfCode l.type.toNat | none => .i8
    let kmax := match lt with | some _ => pairKmax wt at_ | none => none
    let k := match lt, kmax with | some l, some km => min l.kw km | _, _ => 0
    let two := decide (k * at_.bits > 2048)
    match s.unclaimed (pairSlots q two) with
    | some b => .next (s.trap (matTrap 1 b.val 0))
    | none =>
      match lt with
      | none => .next (s.trap (matTrap 4 q.val 0))
      | some l =>
        if s.slotsBusy (pairSlots q two) then .next (s.block (.slotBusy (pairSlots q two)))
        else match (if two then pairFault s q else none) with
        | some b => .next (s.trap (matTrap 3 b.val 0))
        | none =>
          if (s.slot q).type != BitVec.ofNat 4 (codeOfElem at_) || kmax.isNone then .next (s.trap (matTrap 2 q.val 0))
          else
            let u := s.curC.mat
            let same := match u.array with | some a => a.latch == l | none => false
            if !same && !latchValid u s.ctx l then .next (s.trap (matTrap 4 l.slot.val 0))
            else match ownTiles s (if x then [p, c] else [p]) with
              | .error tr => .next (s.trap tr)
              | .ok s =>
                let s := if same then s else s.modMat (fun u => u.load l)
                let u := s.curC.mat
                match u.array with
                | none => .next (s.trap (matTrap 4 l.slot.val 0))
                | some arr =>
                  let gen2 := match nextSlot q with | some b => if two then (s.slot b).gen else 0 | none => 0
                  let m := bitsOf s.cur.msh.toNat 0 16
                  let e : RecipeEntry := ⟨q, (s.slot q).gen, two, gen2, l, m, l.nw, k, t, rs, x, z⟩
                  let i := entryInput u e arr x
                  let s := (s.modMat (fun u => mmacEffect u p c i e pc)).count 4 m
                  let s := s.slotsRead (pairSlots q two)
                  let s := if m > 0 && l.nw > 0 && k > 0 then compareTile s s.curCore s.curTid p (List.range m) else s
                  .next (fin s))
/-- mmac issued by a thread (R266). -/
def execMmac (p : Tile) (q : Slot) (c : Tile) (t : ActType) (rs x z : Bool) (s : State) : Out :=
  mmacWith State.advance s.cur.pc p q c t rs x z s

/-- Replays one logged entry in extended mode (R284). -/
def replayEntry (p c : Tile) (u : MatUnit) (e : RecipeEntry) : MatUnit :=
  let same := match u.array with | some a => a.latch == e.latch | none => false
  let u := if same then u else u.load e.latch
  match u.array with
  | none => u
  | some arr =>
    if e.m > 0 && e.n > 0 && e.k > 0 then macRun (u.formPair p c) p (entryInput u e arr true) else u

/-- An automatic re-issue that an mmac set off on core k runs (R284, R286). -/
def execAutoReissue (k : CoreId) (s : State) : Out :=
  match (s.core k).mat.pendReissue with
  | none => .next s
  | some (tid, p) =>
    let th := s.thr k tid
    let u := { (s.core k).mat with pendReissue := none }
    let t := u.tile p
    let rows := List.range (t.recipe.foldl (fun a e => max a e.m) 0)
    -- a mismatch that no clean re-issue takes away is a contained check (R286)
    let note (s : State) (sev : Severity) : State :=
      if t.residue then logError s (coreError s k tid sev 5 ((rowsOf t.poisoned).headD 0) t.synd) else s
    match (if canReissue u th.ctxOf p then companion u th.ctxOf p else none) with
    | none =>
      let s := note (s.modCore k (fun c => { c with mat := u })) .contained
      match firstExceeding t th.bthr th.bthra rows with
      | some row => .next (s.modThr k tid (fun x => x.reportBound t p row false))
      | none => .next s
    | some c =>
      let v := (u.dissolve p).modTile p (fun x => { TileSt.zero with recipe := x.recipe, startPc := x.startPc, residue := x.residue, synd := x.synd })
      let v := v.modTile c (fun x => { TileSt.zero with startPc := x.startPc })
      let v := { v with acown := v.acown.set c th.ctxOf }
      let v := t.recipe.foldl (replayEntry p c) v
      let v := v.modTile p (fun x => { x with escalated := true })
      let beyond := firstExceeding (v.tile p) th.bthr th.bthra rows
      let v' := if beyond.isNone then v.modTile p (fun x => { x with residue := false }) else v
      let s := (s.modCore k (fun c => { c.count 10 tid 1 with mat := v' })).modThr k tid (fun x => { x with besc := x.besc + 1 })
      let s := note s (if beyond.isNone then .corrected else .contained)
      match beyond with
      | some row => .next (s.modThr k tid (fun x => x.reportBound (v'.tile p) p row true))
      | none => .next s

/-- A residue mismatch on rows of a tile, in the work of thread tid (R286): bounds +∞, the flag, and the comparison; with no
re-issue to come it is a contained machine check. -/
def residueMismatch (s : State) (k : CoreId) (tid : Tid) (p : Tile) (rows : List Nat) (synd : Word) : State :=
  let hit := (List.finRange 128).filter (fun m => rows.contains m.val)
  let s := s.modCore k (fun c => { c with mat := (c.mat.spoilRows p hit).modTile p (fun t => { t with residue := true, synd := synd }) })
  let s := compareTile s k tid p (hit.map (·.val))
  if (s.core k).mat.pendReissue == some (tid, p) then s
  else logError s (coreError s k tid .contained 5 ((hit.map (·.val)).headD 0) synd)

/-- mzero (R269). -/
def execMzero (p : Tile) (s : State) : Out :=
  withMatrix s (fun s =>
    match ownTiles s [p] with
    | .error tr => .next (s.trap tr)
    | .ok s => .next (s.modMat (fun u => u.zeroTile p s.cur.pc)).advance)

/-! ## Online softmax (R270, R271) -/

/-- Numeric order for a row maximum: a below b. -/
def fvLt (a b : FVal) : Bool := ieeeLt a b

/-- f32 bits of exp2 of a difference (R270, R361); `tag` tells draws apart. -/
def softExp (tag : Nat) (d : FVal) : Nat :=
  match d with
  | .nan _ => 0x7FC00000
  | .inf n => if n then 0 else 0x7F800000
  | .fin n m e => (exp2Round .f32 tag (FVal.fin n m e).dy).bits

/-- What msoft makes of one row: probabilities (bf16 bits), new maximum, sum and rescale (f32 bits). -/
structure SoftRow where
  ps : List Nat
  max : Nat
  sum : Nat
  rescale : Nat

/-- One row of msoft (R270). -/
def softRow (tag : Nat) (scores : List Nat) (mo sum rescale : Nat) : SoftRow :=
  let sv := scores.map f32Val
  let mv := f32Val mo
  if mv.isNan || sv.any FVal.isNan then ⟨scores.map (fun _ => 0x7FC0), 0x7FC00000, 0x7FC00000, 0x7FC00000⟩
  else
    let m2 := scores.foldl (fun a x => if fvLt (f32Val a) (f32Val x) then x else a) mo
    let mv2 := f32Val m2
    let none_ := match mv2 with | .inf true => true | _ => false
    let ps := if none_ then scores.map (fun _ => 0)
      else (sv.zipIdx).map (fun x => (convFloat .bf16 .rne false
        (f32Val (softExp (tag + x.2) (FVal.addX x.1 mv2.negate)))).bits)
    let rho := if none_ || ieeeEq mv mv2 then f32Val 0x3F800000 else f32Val (softExp (tag + 255) (FVal.addX mv mv2.negate))
    let tot := ps.foldl (fun a x => FVal.addX a (fval .bf16 x)) (FVal.mulX (f32Val sum) rho)
    ⟨ps, m2, tot.f32, (FVal.mulX (f32Val rescale) rho).f32⟩

/-- msoft's effect on the matrix unit. -/
def softEffect (u : MatUnit) (tag : Nat) (p : Tile) (q : Slot) (c : Tile) : MatUnit :=
  let tp := u.tile p
  let rows := tp.aext.mrows.toNat
  let cols := tp.aext.ncols.toNat
  let u := u.dissolve c
  let res := (List.range rows).map (fun m =>
    let t := u.tile c
    softRow (tag + 256 * m) ((List.range cols).map (fun n => tp.elem m n)) ((t.max[m]?).getD 0).toNat ((t.sum[m]?).getD 0).toNat
      ((t.rescale[m]?).getD 0).toNat)
  let row (m : Nat) : Option SoftRow := res[m]?
  let u := u.modTile c (fun t => { t.cover rows 0 with
    max := Vector.ofFn (fun m => match row m.val with | some r => BitVec.ofNat 32 r.max | none => t.max[m])
    sum := Vector.ofFn (fun m => match row m.val with | some r => BitVec.ofNat 32 r.sum | none => t.sum[m])
    rescale := Vector.ofFn (fun m => match row m.val with | some r => BitVec.ofNat 32 r.rescale | none => t.rescale[m])
    lost := true })
  u.modSlot q (fun sl => { sl.beginFill with
    data := Vector.ofFn (fun m => match row m.val with
      | some r => BitVec.ofNat 2048 (r.ps.foldr (fun x acc => x + 2 ^ 16 * acc) 0) | none => 0)
    type := 8, scaled := false, bounded := false, poison := [] })

/-- msoft (R270). -/
def execMsoft (p : Tile) (q : Slot) (c : Tile) (s : State) : Out :=
  withMatrix s (fun s =>
    if !(s.slot q).heldBy s.ctx then .next (s.trap (matTrap 1 q.val 0))
    else if (s.slot q).busy then .next (s.block (.slotBusy [q]))
    else match ownTiles s [p, c] with
      | .error tr => .next (s.trap tr)
      | .ok s =>
        let (n, s) := s.draw
        .next (s.modMat (fun u => softEffect u (65536 * n) p q c)).advance)

/-- mnorm's effect (R271, R280): the pending rescale, then the division. Both act on hi + lo where the tile is the hi half of a pair;
the quotients are one f32 each, and as any other write to either tile this one ends the pair (R268). -/
def normEffect (u : MatUnit) (p : Tile) : MatUnit :=
  let u := if (u.tile p).aext.lo then u.dissolve p else u
  let u := u.applyRescale p
  let cols := (u.tile p).aext.ncols.toNat
  let row (u : MatUnit) (m : Nat) : MatUnit :=
    let sm := ((u.tile p).sum[m]?).getD 0
    let sv := f32Val sm.toNat
    let l := (List.range cols).map (fun n => if sm = 0 then 0 else (divVal .f32 .rne (u.value p m n) sv).bits)
    let u' := u.modTile p (fun t => t.setRow m l)
    let b : Bnd :=
      if sm = 0 then bndZero
      else match (u.tile p).bnd m, sv with
        | some _, .inf _ => rowTerm ((u'.tile p).rowMax m cols) 24
        | some x, .fin _ v e =>
          if v = 0 then none
          else if x.m = 0 then rowTerm ((u'.tile p).rowMax m cols) 24
          else Bound.add (Bound.ofBits (BitVec.ofNat 32 (roundMag .f32 .rup false false ⟨x.m.natAbs, v, x.e - e⟩).bits))
            (rowTerm ((u'.tile p).rowMax m cols) 24)
        | _, _ => none
    u'.modTile p (fun t => t.setBnd m b)
  let u := (List.range (u.tile p).aext.mrows.toNat).foldl row u
  (if (u.tile p).aext.hi then u.dissolve p else u).modTile p (fun t => { t with lost := true })

/-- mnorm (R271). -/
def execMnorm (p : Tile) (s : State) : Out :=
  withMatrix s (fun s =>
    match ownTiles s [p] with
    | .error tr => .next (s.trap tr)
    | .ok s => .next (s.modMat (fun u => normEffect u p)).advance)

/-! ## Drains (R272 to R274) -/

/-- Element type of a drain. -/
def DrainType.elem : DrainType → ElemType
  | .f32 => .f32 | .bf16 => .bf16 | .f16 => .f16 | .e4m3 => .e4m3 | .e5m2 => .e5m2

/-- One drained element: rounding and output flush of VTYPE (R243, R272). -/
def drainElem (vt : BitVec 11) (t : ElemType) (sat : Bool) (v : FVal) : EOut :=
  let r := convFloat t (rmOf vt) sat v
  let fo := flushOf vt != 0 && t.isWideFloat && isSubnormal t r.bits
  let b := if fo then signBit t (bitsOf r.bits (t.bits - 1) 1 == 1) else r.bits
  ⟨b, if fo then r.flags ||| flUF ||| flNX else r.flags, r.vsat, r.clamped, false, fo⟩

/-- The elements of drained rows, their tags (R290), flags and saturation. -/
def drainRows (u : MatUnit) (q : Tile) (vt : BitVec 11) (t : ElemType) (sat : Bool) (row0 rows cols : Nat) : ElemRun × VTag :=
  let outs := ((List.range rows).map (fun i => (List.range cols).map (fun j =>
    (128 * i + j, drainElem vt t sat (u.value q (row0 + i) j))))).flatten
  let fl := outs.foldl (fun a p => a ||| p.2.flags) 0
  let b := (List.range rows).foldl (fun a i => Bound.max a ((u.tile q).bnd (row0 + i))) bndZero
  let tf : BitVec 4 := (if (u.tile q).escalated then 2 else 0) ||| (if (u.tile q).residue then 8 else 0)
  let r : ElemRun := ⟨outs, fl, none, false⟩
  (r, trackedTag t r tf false (fun m => Bnd.flush (Bound.add b (roundTerm t m)) r.flushedOut t))

/-- mdrain as a lane word (R272). -/
def opMdrain (vd : VReg) (q : Tile) (c : SReg) (t : DrainType) (sat : Bool) : LaneOp where
  dest := some vd
  srcs := []
  rep := none
  split := false
  run := fun e s =>
    let row0 := (e.sreg c).toNat
    if row0 ≥ 128 then .early s (matTrap 6 q.val 0)
    else match ownTiles s [q] with
      | .error tr => .early s tr
      | .ok s =>
        let w := t.elem.bits
        let (r, tag) := drainRows s.curC.mat q e.vtype t.elem sat row0 (min 8 (128 - row0)) 128
        let s := (s.accrue r.flags).saturate r.sat
        .done (s.modV vd (fun old =>
          { old.write w r.vals with
            tag := trackTag old w r.vals tag, vpx := 4096, vhw := BitVec.ofNat 13 (max old.vhw.toNat (1024 * (w / 8))), dirty := true }))

/-- mdrain (R272). -/
def execMdrain (vd : VReg) (q : Tile) (c : SReg) (t : DrainType) (sat : Bool) (s : State) : Out :=
  withMatrix s (issueLane (opMdrain vd q c t sat))

/-- mdrainc: mdrain's result, tags and flags (R274). -/
def execMdrainc (vd : VReg) (q : Tile) (c : SReg) (t : DrainType) (sat : Bool) (s : State) : Out :=
  withMatrix s (issueLane (opMdrain vd q c t sat))

/-- An engine write into the scratchpad of a core: bytes land, every granule touched becomes F (R72). -/
def Core.engineWrite (c : Core) (a : Nat) (bs : List Byte) : Core :=
  (granulesOf a bs.length).foldl (fun c g => c.setFull g true) (c.spadWrite a bs)

/-- mdrain.spad (R273). -/
def execMdrainSpad (q : Tile) (c : SReg) (t : DrainType) (sat bnd : Bool) (s : State) : Out :=
  withMatrix s (fun s =>
    let d := s.sreg c
    match areaTrap [((d.toNat : Int), 16)] 16 with
    | some tr => .next (s.trap tr)
    | none =>
      let (s, bs, _) := s.guardRead d.toNat 16
      let dst := fieldAt bs 0 4
      let row0 := fieldAt bs 4 2
      let rows := fieldAt bs 6 2
      let pitch := fieldAt bs 8 4
      let w := t.elem.bits / 8
      let cols := (s.curC.mat.tile q).aext.ncols.toNat
      let rb := (cols * w + 15) / 16 * 16
      if dst ≥ 2 ^ 22 || dst % 16 != 0 || row0 > 127 || rows = 0 || rows > 128 || row0 + rows > 128 || pitch % 16 != 0
          || pitch < rb || fieldAt bs 12 4 != 0 then .next (s.trap (matTrap 6 q.val 0))
      else
        let side : List (Int × Nat) := if bnd then [((dst : Int) - 8, 8)] else []
        let areas := side ++ (if rb = 0 then [] else (List.range rows).map (fun i => (((dst + i * pitch : Nat) : Int), rb)))
        match areaTrap areas 1 with
        | some tr => .next (s.trap tr)
        | none =>
          let gs := (areas.map (fun a => granulesOf a.1.toNat a.2)).flatten
          match gs.find? (fun g => !inAllocs s.curAllocs (16 * g)) with
          | some g => .next (s.trap (matTrap 7 q.val (16 * g)))
          | none =>
            match ownTiles s [q] with
            | .error tr => .next (s.trap tr)
            | .ok s =>
              let (r, tag) := drainRows s.curC.mat q s.cur.vtype t.elem sat row0 rows cols
              let s := (s.accrue r.flags).saturate r.sat
              let rowBytes (i : Nat) : List Byte :=
                let es := ((r.outs.drop (i * cols)).take cols).map (fun p => leBytes w p.2.bits)
                (es.flatten ++ List.replicate rb 0).take rb
              let s := if rb = 0 then s
                else (List.range rows).foldl (fun s i => s.modCurC (fun c => c.engineWrite (dst + i * pitch) (rowBytes i))) s
              let s := if bnd then s.modCurC (fun c => c.engineWrite (dst - 8) (leBytes 8 (tagBytes tag))) else s
              .next (s.noteCoreWake s.curCore s.cur.cbit).advance)

/-! ## Saving, restoring and inspecting (R275, R276) -/

/-- The slot state word (R79). -/
def SlotSt.word (sl : SlotSt) : Nat :=
  (if sl.claimed then 1 else 0) + sl.owner.toNat * 2 + sl.gen.toNat * 2 ^ 17 + sl.type.toNat * 2 ^ 49
    + (if sl.scaled then 2 ^ 53 else 0) + (if sl.bounded then 2 ^ 54 else 0)

/-- The image of a tile (R275). -/
def tileImage (t : TileSt) : List Byte :=
  let rows := t.aext.mrows.toNat
  let cols := t.aext.ncols.toNat
  let side (v : Vector Word32 128) : List Byte := ((v.toList.take rows).map (fun x => leBytes 4 x.toNat)).flatten
  leBytes 2 1 ++ leBytes 2 rows ++ leBytes 2 cols ++ leBytes 2 0 ++ leBytes 8 t.aext.word.toNat ++ leBytes 8 t.startPc.toNat
    ++ List.replicate 40 0
    ++ ((List.range rows).map (fun m => ((List.range cols).map (fun n => leBytes 4 (t.elem m n))).flatten)).flatten
    ++ side t.bound ++ side t.max ++ side t.sum ++ side t.rescale

/-- The image of a slot (R275). -/
def slotImage (sl : SlotSt) : List Byte :=
  leBytes 2 2 ++ leBytes 6 0 ++ leBytes 8 sl.word ++ leBytes 8 sl.sidecar.toNat ++ List.replicate 40 0
    ++ (sl.data.toList.map (fun r => leBytes 256 r.toNat)).flatten
    ++ (if sl.scaled then ((List.range 2048).map (fun i => leBytes 4 (sl.scale i))).flatten else [])

/-- Translates each 64-byte piece of a generic run, before any byte moves: targets in order (R275). -/
def translateRun (s : State) (u : XUnit) (rq : XReq) (k : AccKind) : Nat → Word → State × Except (XFail × Word) (List Tgt)
  | 0, _ => (s, .ok [])
  | n + 1, va =>
    if !canonical va then (s, .error (.access, va))
    else match translate s u rq k va true with
    | (s, .error f) => (s, .error (f, va))
    | (s, .ok (.window _ _, _)) => (s, .error (.access, va))
    | (s, .ok (t, _)) =>
      match translateRun s u rq k n (va + 64) with
      | (s, .error e) => (s, .error e)
      | (s, .ok l) => (s, .ok (t :: l))

/-- Writes 64-byte pieces at targets. -/
def writeRun (s : State) (bs : List Byte) : List Tgt → State
  | [] => s
  | t :: l => writeRun (tgtWrite s t (bs.take 64)) (bs.drop 64) l
/-- Reads 64-byte pieces at targets; poisoned pieces read zero (R341). -/
def readRun (s : State) : List Tgt → List Byte × Option (DieId × Fin 16)
  | [] => ([], none)
  | t :: l =>
    let (bs, p) := tgtRead s t 64
    let (r, q) := readRun s l
    ((if p then leBytes 64 0 else bs) ++ r, if p then some (tgtBank t) else q)

/-- The checks of an image address and the translation of its run. -/
def imageRun (s : State) (va : Word) (k : AccKind) (n : Nat) (f : State → List Tgt → Out) : Out :=
  if !canonical va then raise s 0x0C va 0
  else if va.toNat % 64 != 0 then raise s 0x03 va 0
  else match translateRun s (.vector s.curCore) s.curReq k ((n + 63) / 64) va with
    | (s, .error (x, a)) => if !canonical a then raise s 0x0C a 0 else pieceFail s k a x
    | (s, .ok l) => f s l

/-- An image written at a generic address (R275): the last piece holds only the image's bytes. -/
def saveImage (s : State) (va : Word) (bs : List Byte) : Out :=
  imageRun s va .store bs.length (fun s l => .next (writeRun s bs l).advance)

/-- msave of a tile (R275). -/
def execMsaveTile (a : SReg) (q : Tile) (s : State) : Out :=
  atKernel (.msaveTile a q) s (fun s => withMatrix s (fun s => saveImage s (s.sreg a) (tileImage (s.curC.mat.tile q))))
/-- Poison of a slot's granules goes where their bytes go (R341). -/
def poisonImage (s : State) (l : List Tgt) (g : GSet) : State :=
  g.foldl (fun (s : State) (x : Nat) => match l[(64 + 16 * x) / 64]? with
    | some (Tgt.wm pa) => tgtPoison s (.wm (pa + (64 + 16 * x) % 64)) 16
    | _ => s) s
/-- msave of a slot (R259, R275). -/
def execMsaveSlot (a : SReg) (c : Slot) (s : State) : Out :=
  atKernel (.msaveSlot a c) s (fun s => withMatrix s (fun s =>
    if !(s.slot c).heldBy s.ctx then .next (s.trap (matTrap 1 c.val 0))
    else if (s.slot c).busy then .next (s.block (.slotBusy [c]))
    else
      let bs := slotImage (s.slot c)
      imageRun s (s.sreg a) .store bs.length (fun s l => .next (poisonImage (writeRun s bs l) l (s.slot c).poison).advance)))

/-- A contained check for poisoned image bytes. -/
def State.noteBad (s : State) (b : Option (DieId × Fin 16)) : State := match b with | some x => s.poisonRead x | none => s

/-- mrest of a tile (R275, R280, R283, R363). -/
def restTile (u : MatUnit) (q : Tile) (bs : List Byte) : MatUnit :=
  let rows := fieldAt bs 2 2
  let cols := fieldAt bs 4 2
  let o := 64 + rows * cols * 4
  let side (i : Nat) (dflt : Vector Word32 128) : Vector Word32 128 :=
    Vector.ofFn (fun m => if m.val < rows then BitVec.ofNat 32 (fieldAt bs (o + (i * rows + m.val) * 4) 4) else dflt[m])
  (u.dissolve q).modTile q (fun _ => { TileSt.zero with
    rows := Vector.ofFn (fun m => if m.val < rows then
      BitVec.ofNat 4096 (leNat ((bs.drop (64 + m.val * cols * 4)).take (cols * 4))) else 0)
    bound := side 0 TileSt.zero.bound, max := side 1 TileSt.zero.max, sum := side 2 TileSt.zero.sum
    rescale := side 3 TileSt.zero.rescale
    aext := ⟨BitVec.ofNat 8 rows, BitVec.ofNat 8 cols, false, false, 0⟩
    startPc := BitVec.ofNat 64 (fieldAt bs 16 8), lost := true })

/-- mrest of a tile. -/
def execMrestTile (a : SReg) (q : Tile) (s : State) : Out :=
  atKernel (.mrestTile a q) s (fun s => withMatrix s (fun s =>
    imageRun s (s.sreg a) .load 64 (fun s l =>
      let (hd, b0) := readRun s l
      let rows := fieldAt hd 2 2
      let cols := fieldAt hd 4 2
      let ax := fieldAt hd 8 8
      if fieldAt hd 0 2 != 1 || rows > 128 || cols > 128 || fieldAt hd 6 2 != 0 || fieldAt hd 24 40 != 0 || ax ≥ 2 ^ 20
          || bitsOf ax 0 8 != rows || bitsOf ax 8 8 != cols then .next (s.trap (matTrap 5 q.val 0))
      else imageRun s (s.sreg a) .load (64 + rows * (4 * cols + 16)) (fun s l =>
        let (bs, b1) := readRun s l
        let s := s.noteBad (if b1.isSome then b1 else b0)
        .next (s.modMat (fun u => restTile u q bs)).advance))))

/-- mrest of a slot (R259, R275). -/
def execMrestSlot (a : SReg) (c : Slot) (s : State) : Out :=
  atKernel (.mrestSlot a c) s (fun s => withMatrix s (fun s =>
    if !(s.slot c).heldBy s.ctx then .next (s.trap (matTrap 1 c.val 0))
    else imageRun s (s.sreg a) .load 64 (fun s l =>
      let (hd, b0) := readRun s l
      let w := fieldAt hd 8 8
      if fieldAt hd 0 2 != 2 || fieldAt hd 2 6 != 0 || fieldAt hd 24 40 != 0 || bitsOf w 55 9 != 0 then
        .next (s.trap (matTrap 5 c.val 0))
      else if (s.slot c).busy then .next (s.block (.slotBusy [c]))
      else
        let scaled := w.testBit 53
        imageRun s (s.sreg a) .load (64 + 32768 + (if scaled then 8192 else 0)) (fun s l =>
          let (bs, b1) := readRun s l
          let s := s.noteBad (if b1.isSome then b1 else b0)
          .next (s.modMat (fun u => u.modSlot c (fun sl =>
            let sl := { sl with
              claimed := w.testBit 0, owner := BitVec.ofNat 16 (bitsOf w 1 16), gen := BitVec.ofNat 32 (bitsOf w 17 32)
              type := BitVec.ofNat 4 (bitsOf w 49 4), scaled := scaled, bounded := w.testBit 54
              sidecar := BitVec.ofNat 64 (fieldAt bs 16 8), poison := []
              claim := if w.testBit 0 && sl.owner == BitVec.ofNat 16 (bitsOf w 1 16) then sl.claim else sl.claim + 1
              data := Vector.ofFn (fun r => BitVec.ofNat 2048 (fieldAt bs (64 + 256 * r.val) 256)) }
            if scaled then sl.setScales (words32 ((bs.drop (64 + 32768)).take 8192)) else sl))).advance))))

/-- mbread as a lane word (R276). -/
def opMbread (vd : VReg) (q : Tile) (f : BreadField) : LaneOp where
  dest := some vd
  srcs := []
  rep := none
  split := false
  run := fun _ s =>
    match ownTiles s [q] with
    | .error tr => .early s tr
    | .ok s =>
      let t := s.curC.mat.tile q
      let v := match f with | .bnd => t.bound | .max => t.max | .sum => t.sum | .res => t.rescale
      .done (s.modV vd (fun old => { old.write 32 (v.toList.zipIdx.map (fun p => (p.2, p.1.toNat))) with
        tag := VTag.dead, vpx := 4096 }))
/-- mbread (R276). -/
def execMbread (vd : VReg) (q : Tile) (f : BreadField) (s : State) : Out := withMatrix s (issueLane (opMbread vd q f))

end Sys2Proof.Machine
end

