-- ==== Sys2Proof/Machine/VecStream.lean ====
section
/-!
DEFINITION. vsetvl (spec 12 R214, R215), stream bindings (07 R139, R140), spill frames (05 R88, R89).
-/

namespace Sys2Proof.Machine

/-! ## vsetvl -/

/-- Registers and masks that vlive excludes become dead: now, or at the join of a block that writes them (R183, R214). -/
def killNotLive (s : State) (live : BitVec 48) : State :=
  let v := s.curC.vec
  let doom (b : Block) : Block := { b with dying := b.dying ||| (b.writes &&& ~~~live) }
  let inFlight := (v.block.toList ++ v.parked).foldl (fun a b => a ||| b.writes) 0
  let keep := live ||| inFlight
  killRegs (s.modVec (fun v => { v with block := v.block.map doom, parked := v.parked.map doom }))
    (fun n => keep.getLsbD n.val) (fun m => keep.getLsbD (32 + m.val))

/-- A handler has been entered and not returned: slice ends and yields wait (R310). -/
def Thread.inHandler (t : Thread) : Bool := t.ktrap.hdl || t.htrap.hdl

/-- The yield-request trap of the current thread (R215). -/
def takeYield (s : State) : State :=
  let s := s.modCur (fun t => { t with yreq := false, sliceOver := false, yieldDue := false })
  s.trapThr s.curCore s.curTid (mkTrap 0x15 0 0) s.cur.pc

/-- The yield-request trap after a vsetvl that has completed, when one is due (R215, R310); a machine check, a lease-skew fault and a
debug halt of the same cycle go before it (R313). -/
def yieldPoint (s : State) : State :=
  let t := s.cur
  if !(t.yreq || t.sliceOver) || t.inHandler || t.skewFault.isSome || !t.checks.isEmpty then s
  else if s.curC.step then s.modCur (fun t => { t with yieldDue := true })
  else takeYield s

/-- vsetvl (R214, R215). -/
def execVsetvl (d a : SReg) (vt : VtypeField) (s : State) : Out :=
  let v := vtypeOf vt
  let vl := min (s.sreg a).toNat (vlmaxOf v)
  let s := s.modCur (fun t => { t with vtype := v, vl := BitVec.ofNat 13 vl, vstart := 0 })
  let s := if s.curC.vec.holder = some s.curTid then killNotLive s s.cur.vlive else s
  .next (yieldPoint (s.finish d (BitVec.ofNat 64 vl)))

/-! ## Stream bindings -/

/-- The tags that a binding gives its register (R139); a poisoned sidecar reads as +∞ with the residue flag (R341). -/
def bindTag (s : State) (rq : XReq) (b : BitVec 512) : State × Except (XferFail × Word) VTag :=
  if blkBounded b then
    match sidecarRead s s.curCore rq b [] with
    | (s, .error e) => (s, .error e)
    | (s, .ok (_, some k, _)) => (s.poisonRead k, .ok ⟨infBound, 0, 9⟩)
    | (s, .ok (x, none, _)) => (s, .ok (tagOfBytes x))
  else (s, .ok VTag.dead)

/-- Binds register v24 + r to a block that has been checked. -/
def bindStream (s : State) (r : Fin 8) (b : BitVec 512) (rq : XReq) (tag : VTag) : State :=
  (s.modVec (fun v => { v with binds := v.binds.set r (some ⟨b, rq.part, rq.asn, rq.priv, 0, [], tag, 0, false, []⟩) })).modV
    ⟨24 + r.val, by omega⟩ (fun x => { x with tag := tag })

/-- vsbind (R139): checks of R137 orders 1 to 3, then the binding. -/
def opVsbind (r : Fin 8) (a : SReg) : LaneOp where
  dest := none
  srcs := []
  rep := none
  split := false
  run := fun e s =>
    let addr := e.sreg a
    match placeTrap addr 64 64 with
    | some t => .early s t
    | none =>
      let (s, bs, _) := s.guardRead addr.toNat 64
      let b := BitVec.ofNat 512 (leNat bs)
      if blkReserved b || blkFold b != 0 || blkDspace b != 0 || blkBits b 8 0 57 != 0 then .early s (copyTrap addr 1)
      else match blkRangeTrap b false with
        | some t => .early s t
        | none =>
          match bindTag s s.curReq b with
          | (s, .error (.absent p, va)) => .other (.next (hostSuspend s .load va p))
          | (s, .error (.fault reason _, va)) => .early s (copyTrap va reason)
          | (s, .ok tag) => .done (bindStream s r b s.curReq tag)
/-- vsbind issued by a thread (R139). -/
def execVsbind (r : Fin 8) (a : SReg) (s : State) : Out := issueLane (opVsbind r a) s

/-- vsunbind (R140): the binding and what was fetched ahead are dropped; the last popped strip stays. -/
def opVsunbind (vd : VReg) : LaneOp where
  dest := none
  srcs := []
  rep := none
  split := false
  run := fun _ s =>
    match streamIdx vd, s.curC.vec.bound vd with
    | some r, some b =>
      let s := s.modVec (fun v => { v with binds := v.binds.set r none })
      .done (s.modV vd (fun x => { x with vhw := BitVec.ofNat 13 b.last, dirty := true }))
    | _, _ => .done s
/-- vsunbind issued by a thread (R140). -/
def execVsunbind (vd : VReg) (s : State) : Out := issueLane (opVsunbind vd) s

/-- The copy unit fetches a strip ahead for stream register v24 + r of core k, within two strips (R139). A fetch that fails
leaves the fault to the pop. -/
def execStreamRefill (k : CoreId) (r : Fin 8) (s : State) : Out :=
  let v := (s.core k).vec
  match v.binds[r], v.holder with
  | some b, some t =>
    let vl := (s.thr k t).vl.toNat
    let es := blkEs b.block
    let first := b.popped + b.ahead.length / es
    let n := min vl (blkCount b.block - first)
    if n = 0 || b.ahead.length + n * es > 2 * vl * es then .next s
    else
      match boxReadRun s k ⟨b.part, b.asn, b.priv, (s.thr k t).ctxOf⟩ b.block b.pages first n with
      | (s, .error _) => .next s
      | (s, .ok (bs, bad, pages)) =>
        let s := match bad with | some x => s.modThr k t (fun th => th.addCheck x.1 x.2) | none => s
        let tag : VTag := if bad.isSome then ⟨infBound, 0, b.tag.flags ||| 8⟩ else b.tag
        .next (s.modCore k (fun c => { c with vec := { c.vec with
          binds := c.vec.binds.set r (some { b with ahead := b.ahead ++ bs, tag := tag, pages := pages }) } }))
  | _, _ => .next s

/-! ## Spill frames -/

/-- Bytes of a spill frame (R88; log 23). -/
def frameBytes : Nat := 32 + 4096

/-- A 16-bit VTYPE image is not reserved (R29, R213). -/
def vtypeImageOk (x : Nat) : Bool :=
  bitsOf x 11 5 = 0 && bitsOf x 0 3 = 0 && bitsOf x 3 3 ≤ 4 && bitsOf x 6 2 != 3 && (bitsOf x 8 1 = 0 || bitsOf x 9 2 = 1)

/-- The header of a spill frame (R88). -/
def frameHeader (vl : Nat) (vt : BitVec 11) (n : VReg) (tag : VTag) : List Byte :=
  leBytes 4 vl ++ leBytes 2 vt.toNat ++ leBytes 1 n.val ++ leBytes 1 0 ++ leBytes 8 (tagBytes tag) ++ leBytes 16 0

/-- The bytes [from, to) of a vector register. -/
def VecReg.byteRun (r : VecReg) (lo hi : Nat) : List Byte :=
  (List.range (hi - lo)).map (fun i => BitVec.ofNat 8 (elemGet r.bits 8 (lo + i)))

/-- vspill (R88, R89): the header, then elements up to where this run ends; a reissue writes the same header. Of several faults the
first of alignment, range and stream binding is taken (log 64). -/
def opVspill (vd : VReg) (a : SReg) : LaneOp where
  dest := none
  srcs := []
  rep := none
  run := fun e s =>
    let addr := e.sreg a
    match placeTrap addr frameBytes 32 with
    | some t => .early s t
    | none =>
      if (s.curC.vec.bound vd).isSome then .early s (misuse vd)
      else
        let r := s.vreg vd
        let w := sewOf e.vtype
        let before := s.cur.guard
        let s := s.guardWrite addr.toNat (frameHeader e.full e.vtype vd r.tag)
        .done ((s.guardWrite (addr.toNat + 32 + e.start * w) (r.byteRun (e.start * w) (e.vl * w))).oneAccess before (e.start != 0))
/-- vspill issued by a thread (R89). -/
def execVspill (vd : VReg) (a : SReg) (s : State) : Out := issueLane (opVspill vd a) s

/-- vfill (R88, R89): the bytes from vstart on, up to the header's length or a debug stop. Of several faults the first of alignment,
range, header and stream binding is taken (log 64). -/
def opVfill (vd : VReg) (a : SReg) : LaneOp where
  dest := none
  srcs := []
  rep := none
  split := false
  run := fun e s =>
    let addr := e.sreg a
    match placeTrap addr frameBytes 32 with
    | some t => .early s t
    | none =>
      let before := s.cur.guard
      let (s, hd, badHead) := s.guardRead addr.toNat 32
      let vlh := fieldAt hd 0 4
      let vt := fieldAt hd 4 2
      let sew := 2 ^ bitsOf vt 9 2
      if !vtypeImageOk vt || fieldAt hd 7 1 != 0 || fieldAt hd 16 16 != 0 || vlh * sew > 4096 then .early s (mkTrap 0x04 addr 0)
      else if (s.curC.vec.bound vd).isSome then .early s (misuse vd)
      else
        let cut := debugStop s sew vlh
        let n := cut.getD vlh * sew
        let lo := e.start * sew
        let (s, bs, bad) := s.guardRead (addr.toNat + 32 + lo) (n - lo)
        let s := s.oneAccess before (e.start != 0)
        let tag := tagOfBytes (fieldAt hd 8 8)
        let tag : VTag := if bad || badHead then ⟨infBound, tag.mag, tag.flags ||| 8⟩ else tag
        let s := s.modV vd (fun x => { x with
          bits := elemsSet x.bits 8 (bs.zipIdx.map (fun p => (lo + p.2, p.1.toNat))), tag := tag
          vpx := BitVec.ofNat 13 (cut.getD 4096), vhw := BitVec.ofNat 13 n, dirty := true })
        match cut with
        | some x => .part s x
        | none => .done s
/-- vfill issued by a thread (R89). -/
def execVfill (vd : VReg) (a : SReg) (s : State) : Out := issueLane (opVfill vd a) s

end Sys2Proof.Machine
end

