-- ==== Sys2Proof/Machine/Copy.lean ====
section
/-!
DEFINITION. The ENG group of major 0x2F and the copy unit (spec 07 R129, R131 to R138, R141; 22 R364).
-/

namespace Sys2Proof.Machine

/-! ## Arrival barriers (R131, R132) -/

/-- The fields of an arrival barrier. -/
structure Bar where
  arrived : Nat
  released : Nat
  window : Nat
  base : Nat
  size : Nat
  pad : Nat
deriving DecidableEq, Repr

/-- A barrier from its 32 bytes. -/
def Bar.ofBytes (bs : List Byte) : Bar :=
  ⟨fieldAt bs 0 8, fieldAt bs 8 8, fieldAt bs 16 4, fieldAt bs 20 4, fieldAt bs 24 4, fieldAt bs 28 4⟩
/-- The barrier at a scratchpad address. -/
def Core.bar (c : Core) (a : Nat) : Bar := Bar.ofBytes (c.spadRead a 32)
/-- A ring barrier keeps R131, and its ring lies in the general region. -/
def Bar.ringOk (b : Bar) : Bool :=
  b.window % 16 = 0 && b.window ≤ b.size && b.base % 16 = 0 && b.size % 16 = 0 && b.size != 0 && b.pad = 0
    && b.base + b.size ≤ laneBase
/-- arrived grows by n (R132). -/
def Core.barAdd (c : Core) (a n : Nat) : Core := c.spadWrite a (leBytes 8 ((c.bar a).arrived + n))

/-- Writes bytes at a ring's stream positions from p on (R132). -/
def Core.ringWrite (c : Core) (b : Bar) (p : Nat) (bs : List Byte) (bad : Bool) : Core :=
  let one (c : Core) (a : Nat) (l : List Byte) : Core :=
    let c := c.engineWrite a l
    if bad then { c with spadPoison := (granulesOf a l.length).foldl NatSet.add c.spadPoison } else c
  let first := b.size - p % b.size
  if bs.length ≤ first then one c (b.base + p % b.size) bs
  else one (one c (b.base + p % b.size) (bs.take first)) b.base (bs.drop first)

/-- A plain access to a 32-byte barrier by a barrier instruction (R133). -/
def withBar (a : SReg) (s : State) (k : State → Word → Bar → Out) : Out :=
  let addr := s.sreg a
  match placeTrap addr 32 32 with
  | some t => .next (s.trap t)
  | none =>
    let (s', bs, _) := s.guardRead addr.toNat 32
    k s' addr (Bar.ofBytes bs)

/-- abinit (R133). -/
def execAbinit (a b c : SReg) (s : State) : Out :=
  let addr := s.sreg a
  match placeTrap addr 32 32 with
  | some t => .next (s.trap t)
  | none =>
    let w := (s.sreg b).toNat
    let x := (s.sreg c).toNat
    let base := bitsOf x 0 22
    let size := bitsOf x 32 22
    let bad := w ≥ 2 ^ 32 || x != base + size * 2 ^ 32
      || (if size = 0 then base != 0
          else w % 16 != 0 || decide (w > size) || base % 16 != 0 || size % 16 != 0)
    if bad then raise s 0x04 addr 0
    else .next (s.guardWrite addr.toNat (leBytes 16 0 ++ leBytes 4 w ++ leBytes 4 base ++ leBytes 4 size)).advance

/-- abwait (R133, R77). -/
def execAbwait (a b : SReg) (s : State) : Out :=
  match reportAll s with
  | some s' => .next s'
  | none => withBar a s (fun s addr bar =>
    if (s.sreg b).toNat ≤ bar.arrived then .next s.takeC.advance
    else .next (s.block (.arrival addr.toNat (s.sreg b))))

/-- abrel (R133). -/
def execAbrel (a b : SReg) (s : State) : Out :=
  withBar a s (fun s addr bar =>
    let n := bar.released + (s.sreg b).toNat
    if n > bar.arrived then raise s 0x04 addr 0
    else .next (s.guardWrite (addr.toNat + 8) (leBytes 8 n)).advance)

/-- An abwait's wait ends (R133, R355): the instruction executes again. -/
def execAbwaitComplete (k : CoreId) (t : Tid) (s : State) : Out :=
  match (s.thr k t).wait with
  | .arrival _ _ => if (s.core k).waitMet (s.thr k t).wait then .next (s.modThr k t (fun x => { x with wait := .none })) else .next s
  | _ => .next s

/-! ## senq (R129) -/

/-- senq (R129): s[b] names a logical core, whose engine receives the segment. -/
def execSenq (a b c : SReg) (s : State) : Out :=
  let addr := s.sreg a
  let x := (s.sreg b).toNat
  let p := s.curPart
  let kern := s.cur.priv != .user
  if !canonical addr then raise s 0x0C addr 0
  else if addr.toNat % 64 != 0 then raise s 0x03 addr 0
  else match (if x < 512 then (s.part p).physical x else none) with
    | none => raise s 0x04 (s.sreg b) 0
    | some k =>
      let e := s.engines[k]
      if addr = 0 then
        if !kern then raise s 0x04 0 0
        else
          let s := if e.faulted then s.modEngine k (fun e => { e with chain := e.chain.drop 1, faulted := false }) else s
          .next (s.finish c 0)
      else if e.faulted then .next (s.finish c 2)
      else if e.chain.length ≥ 64 then .next (s.finish c 1)
      else
        let n := e.done + BitVec.ofNat 64 e.chain.length + 1
        let t := s.cur
        let g : Segment := ⟨addr, s.curCore, t.ctxOf, p, t.asnOf, t.launchOf, t.priv, t.cbit, n⟩
        .next ((s.modEngine k (fun e => { e with chain := e.chain ++ [g] })).finish c (n <<< 8))

/-! ## cpa: the checks at issue (R137) -/

/-- Multicast targets of a mask from core k: the cores of its cluster at the mask's positions (R11, R124, R134). -/
def multicastCores (k : CoreId) (mask : Nat) : List CoreId :=
  (List.finRange 8).filterMap (fun j => if mask.testBit j.val then some (ClusterId.core k.cluster j) else none)
/-- A partition's multicasts may name a core (R128, R326). -/
def crossbarAllows (s : State) (p : FuncId) (k : CoreId) : Bool :=
  let q := s.corePart k
  q != 0 && (q == p || (s.part p).xxbar.getLsbD (q.val - 1))

/-- The destination checks of order 4: reason, and what tval holds (R137, R128). -/
def copyDstFault (s : State) (b : BitVec 512) (ctx : BitVec 16) : Option (Nat × Word) :=
  let dst := blkDst b
  let es := blkEs b
  let part := s.curPart
  let launch := s.cur.launchOf
  let els : List (Int × Nat) :=
    (if blkBounded b then [(dst - 8, 8)] else []) ++ (List.range (blkDstBytes b / es)).map (fun (i : Nat) => (dst + ((i * es : Nat) : Int), es))
  let first (k : CoreId) : Option (Nat × Word) :=
    let l := (s.core k).allocsOf part launch
    (els.find? (fun x => decide (x.1 < 0) || decide (x.1 + (x.2 : Int) > (laneBase : Int)) || !rangeInAllocs l x.1.toNat x.2)).map
      (fun x => (if x.1 < 0 || x.1 + (x.2 : Int) > (laneBase : Int) then 5 else 4, BitVec.ofInt 64 x.1))
  match blkDspace b with
  | 0 => none
  | 1 => first s.curCore
  | 2 =>
    let targets := multicastCores s.curCore (blkMask b)
    if targets.any (fun k => !crossbarAllows s part k) then some (6, BitVec.ofInt 64 dst)
    else targets.findSome? first
  | _ => if (s.slot (blkSlot b)).heldBy ctx then none else some (6, BitVec.ofNat 64 (blkSlot b).val)

/-- A copy's fields suit a ring barrier (R132). -/
def suitsRing (b : BitVec 512) : Bool := blkDspace b = 1 && blkBits b 8 0 57 = 0 && blkFold b = 0 && !blkBounded b

/-- The barrier checks of order 5. -/
def copyBarTrap (s : State) (b : BitVec 512) (addr : Word) : Option Trap :=
  match placeTrap addr 32 32 with
  | some t => some t
  | none =>
    let bar := s.curC.bar addr.toNat
    if !rangeInAllocs s.curAllocs addr.toNat 32 then some (copyTrap addr 4)
    else if bar.size = 0 then none
    else if !bar.ringOk || !suitsRing b then some (copyTrap addr 8)
    else if !rangeInAllocs s.curAllocs bar.base bar.size then some (copyTrap addr 4)
    else none

/-- A barrier operand names a ring: order 3 and 4 then leave the destination to order 5. -/
def namesRing (s : State) (addr : Option Word) : Bool :=
  match addr with
  | some a => (placeTrap a 32 32).isNone && (s.curC.bar a.toNat).size != 0
  | none => false

/-- What a copy reads of its source at issue, from an element on, as far as it translates (R151). -/
def readAhead (s : State) (k : CoreId) (rq : XReq) (b : BitVec 512) (used : List UsedPage) :
    Nat → Nat → State × List (List Byte × Option (DieId × Fin 16)) × List UsedPage
  | 0, _ => (s, [], used)
  | cnt + 1, n =>
    match boxRead s k rq b used n with
    | (s, .error _) => (s, [], used)
    | (s, .ok (bs, p, used)) =>
      let (s, l, used) := readAhead s k rq b used cnt (n + 1)
      (s, (bs, p) :: l, used)
/-- Who a copy acts for. -/
def CopyCmd.req (c : CopyCmd) : XReq := ⟨c.part, c.asn, c.priv, c.ctx⟩
/-- A copy enters the unit of core k: its reads stand before every later access of its thread (R151). -/
def enterCopy (s : State) (k : CoreId) (c : CopyCmd) : State × CopyCmd :=
  let (s, side, used) := if blkBounded c.block && c.next = 0 && c.landed = 0 then
      (match sidecarRead s k c.req c.block c.pages with
        | (s, .ok (x, p, used)) => (s, some (x, p), used)
        | (s, .error _) => (s, none, c.pages))
    else (s, none, c.pages)
  let (s, l, used) := readAhead s k c.req c.block used (blkCount c.block - c.next) c.next
  (s, { c with pages := used, ahead := l, side := side })

/-- The fill of a copy's slot begins: gen advances, and the slot is busy (R80, R261); a resumed copy goes on with its fill. -/
def CopyCmd.openSlot (c : CopyCmd) (u : MatUnit) : MatUnit × CopyCmd :=
  let p := blkSlot c.block
  (u.modSlot p (fun sl =>
      if c.landed = 0 then
        { sl.openFill with type := BitVec.ofNat 4 (codeOfElem (blkEtype c.block)), scaled := false, bounded := blkBounded c.block }
      else { sl with fills := sl.fills + 1 }),
    { c with claim := some u.slots[p].claim })
/-- No matrix instruction is reading or writing a slot (R261). -/
def MatUnit.slotFree (u : MatUnit) (p : Slot) : Bool :=
  u.pendReissue.isNone && (match u.filling with | some f => f.slot != p | none => true)
/-- A copy or stream command that fills a slot may begin. -/
def CopyCmd.tryOpen (c : CopyCmd) (u : MatUnit) : MatUnit × CopyCmd :=
  if blkDspace c.block = 3 && c.claim.isNone && u.slotFree (blkSlot c.block) then c.openSlot u else (u, c)

/-- What a cpa issues: block, counter, barrier, flags, and where a resumed copy starts. -/
structure CopyIssue where
  block : BitVec 512
  counter : Option Word
  barrier : Option Word
  fl : CmdFlags
  next : Nat
  landed : Nat
  parts : List Word

/-- Orders 2 to 5 of R137, then the command is queued. -/
def issueCopy (s : State) (a : Word) (i : CopyIssue) : Out :=
  let b := i.block
  let t := s.cur
  let ring := namesRing s i.barrier
  if blkReserved b then .next (s.trap (copyTrap a 1))
  else match blkRangeTrap b (!ring) with
    | some tr => .next (s.trap tr)
    | none =>
      match (if ring then none else copyDstFault s b t.ctxOf) with
      | some (r, v) => .next (s.trap (copyTrap v r))
      | none =>
        let queue (s : State) : Out :=
          match (match i.barrier with | some x => copyBarTrap s b x | none => none) with
          | some tr => .next (s.trap tr)
          | none =>
            let c : CopyCmd := ⟨s.nextId, b, i.fl, i.counter, i.barrier.map BitVec.toNat, s.curPart, t.asnOf, t.priv, t.ctxOf, s.curTid,
              t.launchOf, i.next, i.landed, i.parts, ring, none, [], t.cbit, [], none, none, none⟩
            let (s, c) := enterCopy { s with nextId := s.nextId + 1 } s.curCore c
            let (u, c) := c.tryOpen s.curC.mat
            .next (s.modCurC (fun k => { k with copies := k.copies ++ [c], mat := u })).advance
        match i.counter with
        | none => queue s
        | some va =>
          if !canonical va then raise s 0x0C va 0
          else if va.toNat % 8 != 0 then raise s 0x03 va 0
          else match translate s (.scalar s.curCore) s.curReq .store va true with
            | (s, .error f) => scalarFail s .store va f
            | (s, .ok _) => queue s

/-- cpa and cpa.res before their own reads: the report, then the wait for room (R137). -/
def withCopyUnit (s : State) (k : State → Out) : Out :=
  match takeCopyFault s with
  | some s' => .next s'
  | none => if s.curC.copies.length ≥ 16 then .next (s.block .copyQueue) else k s

/-- cpa (R137). -/
def execCpa (a b c : SReg) (fl : CmdFlags) (s : State) : Out :=
  withCopyUnit s (fun s =>
    let addr := s.sreg a
    match placeTrap addr 64 64 with
    | some tr => .next (s.trap tr)
    | none =>
      let (s, bs, _) := s.guardRead addr.toNat 64
      issueCopy s addr ⟨BitVec.ofNat 512 (leNat bs), if b = 0 then none else some (s.sreg b),
        if c = 0 then none else some (s.sreg c), fl, 0, 0, []⟩)

/-- Scope of a flags byte's code. -/
def scopeOfCode (c : Nat) : Scope :=
  match c with | 0 => .core | 1 => .cluster | 2 => .die | 3 => .package | 4 => .gang | _ => .system

/-- cpa.res (R137, R141): flags come from the entry. -/
def execCpaRes (a : SReg) (_ : CmdFlags) (s : State) : Out :=
  withCopyUnit s (fun s =>
    let addr := s.sreg a
    match placeTrap addr 128 64 with
    | some tr => .next (s.trap tr)
    | none =>
      let (s, bs, _) := s.guardRead addr.toNat 128
      let b := BitVec.ofNat 512 (leNat (bs.take 64))
      let f := bs.drop 64
      let j (d : Nat) : Nat := fieldAt f (4 * d) 4
      let fl := fieldAt f 36 1
      let inside := (List.range 4).all (fun d => decide (j d < blkX b d))
      if !inside || fl % 2 != 0 || bitsOf fl 6 2 != 0 || bitsOf fl 1 3 > 5 || fieldAt f 37 1 != 0 || fieldAt f 38 1 != 0
          || fieldAt f 39 1 > 1 then .next (s.trap (copyTrap addr 1))
      else
        let next := j 0 + blkX b 0 * (j 1 + blkX b 1 * (j 2 + blkX b 2 * j 3))
        let ctr := fieldAt f 24 8
        let bar := fieldAt f 32 4
        issueCopy s addr ⟨b, if ctr = 0 then none else some (BitVec.ofNat 64 ctr),
          if bar = 0 then none else some (BitVec.ofNat 64 bar), ⟨fl.testBit 5, fl.testBit 4, scopeOfCode (bitsOf fl 1 3)⟩,
          next, fieldAt f 16 8,
          if (blkFold b = 3 || blkFold b = 4) && next != 0 then [BitVec.ofNat 64 (fieldAt f 40 8)] else []⟩)

/-! ## Faults of a copy under way (R127, R137) -/

/-- A change to the thread that runs a context, wherever it is (R122). -/
def State.modCtx (s : State) (p : FuncId) (ctx : BitVec 16) (f : Thread → Thread) : State :=
  { s with cores := s.cores.map (fun c => { c with
      threads := c.threads.map (fun t => if t.isCtx p ctx then f t else t)
      hamper :=
        { full := c.hamper.full.map (fun i => { i with threads := i.threads.map (fun t => if t.isCtx p ctx then f t else t) })
          images := c.hamper.images.map (fun i => if i.thread.isCtx p ctx then { i with thread := f i.thread } else i) } }) }

/-- Replaces a copy of core k. -/
def State.setCopy (s : State) (k : CoreId) (c : CopyCmd) : State :=
  s.modCore k (fun x => { x with copies := x.copies.map (fun y => if y.id = c.id then c else y) })
/-- Removes a copy of core k; a fill that it has begun is over. -/
def State.dropCopy (s : State) (k : CoreId) (c : CopyCmd) : State :=
  s.modCore k (fun x =>
    { x with
      copies := x.copies.filter (fun y => y.id != c.id)
      mat := if c.claim.isSome then x.mat.modSlot (blkSlot c.block) SlotSt.closeFill else x.mat })

/-- The terms of a sum fold are added together, as a stop records them (R136, R141). -/
def CopyCmd.collapse (c : CopyCmd) (tag : Nat) : CopyCmd :=
  { c with parts := foldFree (blkEtype c.block) tag true c.parts.length c.parts }

/-- A copy as an entry names it: what it has read ahead, its place at a ring and its fill are left behind (R141). -/
def CopyCmd.entry (c : CopyCmd) (tag : Nat) : CopyCmd :=
  { c.collapse tag with ringAt := none, ahead := [], side := none, claim := none, skew := none }

/-- A copy stops at its first unlanded strip; the context's thread reports it later. -/
def stopCopy (s : State) (k : CoreId) (c : CopyCmd) (reason : Nat) (va : Word) : State :=
  let (n, s) := s.draw
  (s.dropCopy k c).modCtx c.part c.ctx (fun t =>
    { t with copyFaults := t.copyFaults ++ [⟨va, reason, some ⟨c.entry n, none, va⟩⟩] })

/-! ## Strips (R134 to R136, R364) -/

/-- Elements from n on, skipped ones left out: offset in the box's bytes, bytes, and whether they are poisoned. What the copy has read
ahead, from element n on, is taken first (R151). -/
def readStrip (s : State) (k : CoreId) (rq : XReq) (b : BitVec 512) (used : List UsedPage) :
    List (List Byte × Option (DieId × Fin 16)) → Nat → Nat → State × Except (XferFail × Word) (List (Nat × List Byte × Bool) × List UsedPage)
  | _, 0, _ => (s, .ok ([], used))
  | ahead, cnt + 1, n =>
    let one : State × Except (XferFail × Word) (List Byte × Option (DieId × Fin 16) × List UsedPage) :=
      match ahead with
      | x :: _ => (s, .ok (x.1, x.2, used))
      | [] => if !blkInb b n && blkOob b = 0 then (s, .ok ([], none, used)) else boxRead s k rq b used n
    match one with
    | (s, .error e) => (s, .error e)
    | (s, .ok (bs, p, used)) =>
      match readStrip s k rq b used (ahead.drop 1) cnt (n + 1) with
      | (s, .error e) => (s, .error e)
      | (s, .ok (l, used)) =>
        (s, .ok (if !blkInb b n && blkOob b = 0 then l else (n * blkEs b, bs, p.isSome) :: l, used))

/-- The part of runs that lies in bytes lo up to hi of the box. -/
def clipRuns (lo hi : Nat) (l : List (Nat × List Byte × Bool)) : List (Nat × List Byte × Bool) :=
  (l.map (fun r => (max lo r.1, (r.2.1.take (hi - r.1)).drop (lo - r.1), r.2.2))).filter (fun r => !r.2.1.isEmpty)

/-- Neighbouring elements of one poison state as one run. -/
def mergeRuns (l : List (Nat × List Byte × Bool)) : List (Nat × List Byte × Bool) :=
  l.foldr (fun x acc => match acc with
    | y :: t => if x.1 + x.2.1.length = y.1 && x.2.2 == y.2.2 then (x.1, x.2.1 ++ y.2.1, x.2.2) :: t else x :: acc
    | [] => [x]) []

/-- The elementwise fold of a copy's kind (R136). -/
def copyFold (k : Nat) : Option FoldKind :=
  match k with | 1 => some .add | 2 => some .add | 5 => some .max | 6 => some .min | _ => none

/-- Folds a run of elements into old bytes. -/
def foldRun (t : ElemType) (k : FoldKind) (old new : List Byte) : List Byte :=
  let es := t.bits / 8
  ((List.range (new.length / es)).map (fun i => leBytes es (foldElem t k (fieldAt old (es * i) es) (fieldAt new (es * i) es)))).flatten

/-- Writes a run at a scratchpad address as an engine write; `hold` is a granule whose last byte is still to come (R72). -/
def Core.landRun (c : Core) (t : ElemType) (fold : Option FoldKind) (a : Nat) (bs : List Byte) (bad : Bool) (hold : Option Nat) : Core :=
  let old := c.spadRead a bs.length
  let oldBad := fold.isSome && c.spadPoisoned a bs.length
  let bs := match fold with | some k => foldRun t k old bs | none => bs
  let c := c.spadWrite a bs
  let c := (granulesOf a bs.length).foldl (fun c g => if hold = some g then c else c.setFull g true) c
  if bad || oldBad then { c with spadPoison := (granulesOf a bs.length).foldl NatSet.add c.spadPoison } else c

/-- Targets of a strip's generic runs. -/
def landTargets (s : State) (k : CoreId) (rq : XReq) (acc : AccKind) (used : List UsedPage) (base : Int) :
    List (Nat × List Byte × Bool) → State × Except (XferFail × Word) (List (List (Tgt × Nat)) × List UsedPage)
  | [] => (s, .ok ([], used))
  | (o, bs, _) :: l =>
    match xferPieces s (.vector k) rq acc true used (BitVec.ofInt 64 (base + (o : Int))) bs.length with
    | (s, .error e) => (s, .error e)
    | (s, .ok (ps, used)) =>
      match landTargets s k rq acc used base l with
      | (s, .error e) => (s, .error e)
      | (s, .ok (r, used)) => (s, .ok (ps :: r, used))

/-- Writes generic runs at their targets. -/
def landGeneric (s : State) (t : ElemType) (fold : Option FoldKind) (l : List (Nat × List Byte × Bool)) (ps : List (List (Tgt × Nat))) : State :=
  (l.zip ps).foldl (fun s x =>
    let (_, bs, bad) := x.1
    let (old, oldBad) := readPieces s x.2
    let bs' := match fold with | some k => foldRun t k old bs | none => bs
    writePieces s bs' (bad || (fold.isSome && oldBad.isSome)) x.2) s

/-- Bytes of a slot's data store, row r holding bytes 256·r and up; poison moves with them (R341). -/
def SlotSt.putBytes (sl : SlotSt) (o : Nat) (bs : List Byte) (bad : Bool) : SlotSt :=
  let rows := (List.range 128).filter (fun r => 256 * r < o + bs.length && o < 256 * r + 256)
  { sl with
    poison := if bad then (granulesOf o bs.length).foldl NatSet.add sl.poison
      else sl.poison.filter (fun g => !(decide (o ≤ 16 * g) && decide (16 * g + 16 ≤ o + bs.length)))
    data := rows.foldl (fun d r =>
      let old := leBytes 256 ((d[r]?).getD 0).toNat
      let new := (List.range 256).map (fun i =>
        if o ≤ 256 * r + i && 256 * r + i < o + bs.length then bs.getD (256 * r + i - o) 0 else old.getD i 0)
      d.setIfInBounds r (BitVec.ofNat 2048 (leNat new))) sl.data }

/-- Where the counter of a copy lies, before its strip lands: its target, a wait, or a fault taken after the strip. -/
inductive CtrAt where
  | none_
  | at_ (t : Tgt)
  | wait (page : Nat)
  | fail (reason : Nat)
deriving DecidableEq, Repr

/-- Translates a counter for an atomic add (R137). -/
def counterAt (s : State) (u : XUnit) (rq : XReq) (c : Option Word) : State × CtrAt :=
  match c with
  | none => (s, .none_)
  | some va =>
    match xferAccess s u rq .atomic true [] va with
    | (s, .ok (t, _)) => (s, .at_ t)
    | (s, .error (.absent p)) => (s, .wait p)
    | (s, .error (.fault r _)) => (s, .fail r)
/-- Adds to a 64-bit counter at its target. -/
def addAt (s : State) (t : Tgt) (n : Nat) : State := tgtWrite s t (leBytes 8 (leNat (tgtRead s t 8).1 + n))

/-- A strip of a copy: the bytes of its box that it lands, and the elements that they touch, from the first unlanded one on. -/
structure Strip where
  lo : Nat
  hi : Nat
  cnt : Nat

/-- The next strip, of at most `room` bytes, for a box whose first byte lands at an address: it ends on a granule or with the box, so
that each granule lands whole from one copy (R138, R72); a fold's strip ends on an element. -/
def CopyCmd.strip (c : CopyCmd) (start room : Nat) : Strip :=
  let es := blkEs c.block
  let total := blkCount c.block * es
  let base := c.next * es
  let fold := blkFold c.block != 0
  let lo := if !fold && decide (base ≤ c.landed) && decide (c.landed < base + es) then c.landed else base
  let cut := (start + lo + room) / 16 * 16 - start
  let hi := if total ≤ lo + room then total
    else if fold then base + max es ((cut - base) / es * es) else max lo cut
  ⟨lo, hi, (hi + es - 1) / es - c.next⟩

/-- A strip's bytes are counted (R132, R137): counter, counting barrier, bytes landed; a finished copy leaves the unit. -/
def countStrip (s : State) (k : CoreId) (c : CopyCmd) (x : Strip) (ctr : CtrAt) : State :=
  let n := x.hi - x.lo
  let c := { c with
    next := x.hi / blkEs c.block, landed := c.landed + n, ahead := c.ahead.drop (x.hi / blkEs c.block - c.next), side := none }
  let s := match c.barrier with | some b => s.modCore k (fun x => x.barAdd b n) | none => s
  let s := match ctr with | .at_ t => (addAt s t n).noteCounterWake c.crit | _ => s
  let s := if c.next = blkCount c.block then s.dropCopy k c else s.setCopy k c
  s.noteCoreWake k c.crit

/-- A granule of the destination that a later element of the copy still writes (R72). -/
def holdGranule (b : BitVec 512) (n : Nat) : Option Nat :=
  let e := (blkDst b).toNat + n * blkEs b
  if e % 16 = 0 then none
  else if (List.range 16).any (fun i => decide (n + i < blkCount b) && decide ((blkDst b).toNat + (n + i) * blkEs b < e / 16 * 16 + 16)
      && (blkInb b (n + i) || blkOob b != 0)) then some (e / 16)
  else none

/-- The sidecar of a bounded copy moves with its first strip (R134, R292): its word, when one moves. -/
def stripSidecar (s : State) (k : CoreId) (rq : XReq) (c : CopyCmd) (used : List UsedPage) :
    State × Except (XferFail × Word) (Option (Nat × Bool) × List UsedPage) :=
  if blkBounded c.block && c.next = 0 && c.landed = 0 then
    match c.side with
    | some (x, p) => (s, .ok (some (x, p.isSome), used))
    | none =>
      match sidecarRead s k rq c.block used with
      | (s, .error e) => (s, .error e)
      | (s, .ok (x, p, used)) => (s, .ok (some (x, p.isSome), used))
  else (s, .ok (none, used))

/-- A transfer met an obstacle: an absent host page is asked for and waited for (R332), anything else stops the copy. -/
def copyObstacle (s : State) (k : CoreId) (c : CopyCmd) (e : XferFail × Word) : State :=
  match e.1 with
  | .absent p => awaitPage s c.part p (fun s => stopCopy s k c 2 e.2)
  | .fault r _ => stopCopy s k c r e.2

/-- The commands of a core's ring barrier stand in the order in which they reached it (R132). -/
def ringFirst (s : State) (k : CoreId) (bar ticket : Nat) : Bool :=
  (s.core k).copies.all (fun c => !(c.ring && c.barrier == some bar) || (match c.ringAt with | some t => decide (ticket ≤ t) | none => true))
    && s.engines.toList.all (fun e => match e.running, e.chain with
      | some r, g :: _ => !(decide (g.core = k)) || r.flight.all (fun x => bitsOf x.cmd.toNat 480 32 != bar
          || (match x.ringAt with | some t => decide (ticket ≤ t) | none => true))
      | _, _ => true)

/-- A strip of a copy that names a ring barrier (R132). -/
def ringStrip (s : State) (k : CoreId) (c : CopyCmd) (bar : Nat) (rq : XReq) : State :=
  let (s, c) := match c.ringAt with
    | some _ => (s, c)
    | none => let c' := { c with ringAt := some s.nextId }; (({ s with nextId := s.nextId + 1 }).setCopy k c', c')
  let b := (s.core k).bar bar
  if !ringFirst s k bar (c.ringAt.getD 0) then s
  else if !b.ringOk then stopCopy s k c 8 (BitVec.ofNat 64 bar)
  else
    -- ring positions stand for the destination: the strip ends on a granule of the ring or with the copy (R72, R132)
    let x := c.strip ((b.arrived + 16 - (c.strip 0 0).lo % 16) % 16) (min 256 (b.released + b.window - b.arrived))
    if x.hi ≤ x.lo then s
    else match counterAt s (.vector k) rq c.counter with
      | (s, .wait p) => awaitPage s c.part p (fun s => stopCopy s k c 2 ((c.counter).getD 0))
      | (s, .fail r) => stopCopy s k c r ((c.counter).getD 0)
      | (s, ctr) =>
        match readStrip s k rq c.block c.pages c.ahead x.cnt c.next with
        | (s, .error e) => copyObstacle s k c e
        | (s, .ok (l, used)) =>
          let s := s.modCore k (fun y => (clipRuns x.lo x.hi (mergeRuns l)).foldl
            (fun y r => y.ringWrite b (b.arrived + (r.1 - x.lo)) r.2.1 r.2.2) y)
          countStrip s k { c with pages := used } x ctr

/-- A strip of a sum fold (R136): terms join the partial; the element is written with the last strip. -/
def sumStrip (s : State) (k : CoreId) (c : CopyCmd) (rq : XReq) : State :=
  let b := c.block
  let t := blkEtype b
  let es := blkEs b
  let cnt := min (256 / es) (blkCount b - c.next)
  let dst := blkDst b
  match counterAt s (.vector k) rq c.counter with
  | (s, .wait p) => awaitPage s c.part p (fun s => stopCopy s k c 2 ((c.counter).getD 0))
  | (s, .fail r) => stopCopy s k c r ((c.counter).getD 0)
  | (s, ctr) =>
    match readStrip s k rq b c.pages c.ahead cnt c.next with
    | (s, .error e) => copyObstacle s k c e
    | (s, .ok (l, used)) =>
      match (if blkDspace b = 0 then landTargets s k rq .atomic used dst [(0, List.replicate es 0, false)] else (s, .ok ([], used))) with
      | (s, .error e) => copyObstacle s k c e
      | (s, .ok (ps, used)) =>
        let pieces := ps.headD []
        let old := if blkDspace b = 0 then leNat (readPieces s pieces).1 else leNat ((s.core k).spadRead dst.toNat es)
        let oldBad := if blkDspace b = 0 then (readPieces s pieces).2.isSome else (s.core k).spadPoisoned dst.toNat es
        let start : List Word := if c.parts.isEmpty then [BitVec.ofNat 64 (foldTerm t old)] else c.parts
        let terms : List Word := l.map (fun x => BitVec.ofNat 64 (foldTerm t (leNat x.2.1)))
        let (n, s) := s.draw
        let parts : List Word :=
          if blkFold b = 3 then [terms.foldl (fun p v => BitVec.ofNat 64 (foldSum t p.toNat v.toNat)) (start.headD 0)]
          else
            let l := start ++ terms
            foldFree t n (decide (c.next + cnt = blkCount b)) l.length l
        let bad := l.any (fun x => x.2.2) || oldBad
        -- poison that a term brings marks the element at once
        let res := leBytes es (foldRound t (parts.headD 0).toNat)
        let last := decide (c.next + cnt = blkCount b)
        let s := if last || bad then
            let bs := if last then res else leBytes es old
            if blkDspace b = 0 then writePieces s bs bad pieces
            else s.modCore k (fun x =>
              let x := x.landRun t none dst.toNat bs bad none
              if last then x else (granulesOf dst.toNat es).foldl (fun y g => y.setFull g ((s.core k).isFull g)) x)
          else s
        countStrip s k { c with pages := used, parts := parts } ⟨c.next * es, (c.next + cnt) * es, cnt⟩ ctr

/-- A strip of a copy to memory, scratchpads or a slot (R134 to R136). -/
def plainStrip (s : State) (k : CoreId) (c : CopyCmd) (rq : XReq) : State :=
  let b := c.block
  let t := blkEtype b
  let x := c.strip (if blkDspace b = 3 then 0 else (blkDst b % 16).toNat) 256
  let fold := copyFold (blkFold b)
  match counterAt s (.vector k) rq c.counter with
  | (s, .wait p) => awaitPage s c.part p (fun s => stopCopy s k c 2 ((c.counter).getD 0))
  | (s, .fail r) => stopCopy s k c r ((c.counter).getD 0)
  | (s, ctr) =>
    match stripSidecar s k rq c c.pages with
    | (s, .error e) => copyObstacle s k c e
    | (s, .ok (side, used)) =>
      match readStrip s k rq b used c.ahead x.cnt c.next with
      | (s, .error e) => copyObstacle s k c e
      | (s, .ok (l, used)) =>
        let runs := clipRuns x.lo x.hi (mergeRuns l)
        let sideRun : List (Nat × List Byte × Bool) := match side with | some y => [(0, leBytes 8 y.1, y.2)] | none => []
        if blkDspace b = 0 then
          match landTargets s k rq .store used (blkDst b - 8) sideRun with
          | (s, .error e) => copyObstacle s k c e
          | (s, .ok (sp, used)) =>
            match landTargets s k rq (if fold.isSome then .atomic else .store) used (blkDst b) runs with
            | (s, .error e) => copyObstacle s k c e
            | (s, .ok (ps, used)) =>
              let s := landGeneric (landGeneric s t none sideRun sp) t fold runs ps
              countStrip (s.noteCounterWake c.crit) k { c with pages := used } x ctr
        else if blkDspace b = 3 then
          let p := blkSlot b
          let (u, c) := c.tryOpen (s.core k).mat
          if !u.slots[p].heldBy c.ctx then stopCopy s k c 6 (BitVec.ofNat 64 p.val)
          else match c.claim with
          | none => s
          | some n =>
            if n != u.slots[p].claim then stopCopy s k c 6 (BitVec.ofNat 64 p.val)
            else
              let s := s.modCore k (fun y => { y with mat := u.modSlot p (fun sl =>
                let sl := runs.foldl (fun sl r => sl.putBytes r.1 r.2.1 r.2.2) sl
                -- a poisoned sidecar promises nothing (R341)
                match side with
                | some w => { sl with sidecar := BitVec.ofNat 64 (if w.2 then tagBytes ⟨infBound, 0, 9⟩ else w.1) }
                | none => sl) })
              countStrip s k { c with pages := used } x ctr
        else
          let targets := if blkDspace b = 2 then multicastCores k (blkMask b) else [k]
          let hold := if fold.isSome then holdGranule b (x.hi / blkEs b) else none
          let one (y : Core) : Core :=
            let y := sideRun.foldl (fun y r => y.landRun t none ((blkDst b).toNat - 8) r.2.1 r.2.2 none) y
            (runs.foldl (fun y r => y.landRun t fold ((blkDst b).toNat + r.1) r.2.1 r.2.2 hold) y).noteWake c.crit
          let s := targets.foldl (fun s j => s.modCore j one) s
          countStrip s k { c with pages := used } x ctr

/-- Strips of a command that have not landed. -/
def CopyCmd.stripsLeft (c : CopyCmd) : Nat := ((blkCount c.block - c.next) * blkEs c.block + 255) / 256

/-- The copy may land a strip now (R364, R136): older copies have started all theirs, within 16, and no older ordered fold is
unfinished before an ordered fold. -/
def copyMayLand (older : List CopyCmd) (c : CopyCmd) : Bool :=
  let ordered (x : CopyCmd) : Bool := blkFold x.block = 1 || blkFold x.block = 3
  older.foldl (fun n x => n + x.stripsLeft) 0 + 1 ≤ 16 && !(ordered c && older.any ordered)

/-- A strip of the j-th of the commands that the copy unit of core k works on lands (R134, R364); a copy whose translations a beacon
found skewed faults instead (R63). -/
def execCopyStripLands (k : CoreId) (j : Fin 4) (s : State) : Out :=
  let l := (s.core k).copies
  match l[j.val]? with
  | none => .next s
  | some c =>
    if !copyMayLand (l.take j.val) c then .next s
    else match c.skew with
    | some d => .next ((s.dropCopy k c).modCtx c.part c.ctx (fun t => { t with skewFault := some d }))
    | none =>
      let rq := c.req
      match c.ring, c.barrier with
      | true, some bar => .next (ringStrip s k c bar rq)
      | _, _ => .next (if blkFold c.block = 3 || blkFold c.block = 4 then sumStrip s k c rq else plainStrip s k c rq)

/-! ## Quiesce (R141) -/

/-- A binding as a save-area entry names it. -/
def bindEntry (t : Thread) (tid : Tid) (r : Fin 8) (b : Binding) : SavedCopy :=
  ⟨⟨0, b.block, ⟨false, false, .core⟩, none, none, b.part, b.asn, b.priv, t.ctxOf, tid, t.launchOf, b.popped,
    b.popped * blkEs b.block, [], false, none, [], false, [], none, none, none⟩, some r, 0⟩

/-- The unfinished copies that a predicate picks and the stream bindings of core k, as entries; the copies' sums are collapsed. -/
def quiesceEntries (s : State) (k : CoreId) (pick : CopyCmd → Bool) (binds : Bool) : State × List SavedCopy :=
  let (n, s) := s.draw
  let c := s.core k
  let l := (c.copies.filter pick).map (fun x => (⟨x.entry n, none, 0⟩ : SavedCopy))
  let t := match c.vec.holder with | some t => c.threads[t] | none => c.threads[0]
  let tid : Tid := (c.vec.holder).getD 0
  let bs := if binds then (List.finRange 8).filterMap (fun r => (c.vec.binds[r]).map (fun b => bindEntry t tid r b)) else []
  (s, l ++ bs)

/-- The copies that a predicate picks leave the unit. -/
def dropCopies (s : State) (k : CoreId) (pick : CopyCmd → Bool) : State :=
  ((s.core k).copies.filter pick).foldl (fun s c => s.dropCopy k c) s

/-- cpq (R141). -/
def execCpq (a c : SReg) (s : State) : Out :=
  atKernelWord (fmtQE 0x2F 5 (enc5 a) 0 (enc5 c) 0) s (fun s =>
    let addr := s.sreg a
    let (s, l) := quiesceEntries s s.curCore (fun _ => true) true
    match placeTrap addr (64 + 128 * l.length) 64 with
    | some tr => .next (s.trap tr)
    | none =>
      let arrived (x : SavedCopy) : Nat := match x.cmd.barrier with | some b => (s.curC.bar b).arrived | none => 0
      let area := leBytes 4 l.length ++ leBytes 4 0 ++ leBytes 8 (s.coreTime s.curCore) ++ List.replicate 48 0
        ++ (l.map (fun x => resumeEntry x 0 (arrived x))).flatten
      let s := (dropCopies s s.curCore (fun _ => true)).modVec (fun v => { v with binds := Vector.replicate 8 none })
      .next ((s.guardWrite addr.toNat area).finish c (BitVec.ofNat 64 l.length)))

end Sys2Proof.Machine
end

