-- ==== Sys2Proof/Machine/QArith.lean ====
section
/-!
DEFINITION. Query arithmetic (spec 06 R101 to R110): exact values with quotients, sums with the NaN rule of R102, bounds, the
update programs and their export.
-/

namespace Sys2Proof.Machine

/-! ## Exact extended values -/

/-- An exact value: NaN, infinite, or n/d with d > 0; `neg` is the sign of a zero. -/
inductive EV where
  | nan
  | inf (neg : Bool)
  | num (neg : Bool) (n d : Dy)
deriving DecidableEq, Repr

namespace EV

/-- The value 1 as a dyadic. -/
def one : Dy := ⟨1, 0⟩
/-- An exact finite value. -/
def ofDy (neg : Bool) (n : Dy) : EV := .num (if n.m = 0 then neg else n.m < 0) n one
/-- A format's value. -/
def ofBits (t : ElemType) (x : Nat) : EV :=
  match fval t x with
  | .nan _ => .nan | .inf n => .inf n | .fin n m e => ofDy n (FVal.fin n m e).dy
/-- f32 bits. -/
def f32 (x : Nat) : EV := ofBits .f32 x
/-- The sign. -/
def sign (a : EV) : Bool := match a with | .nan => false | .inf n => n | .num n _ _ => n
/-- A finite zero. -/
def isZero (a : EV) : Bool := match a with | .num _ n _ => n.m = 0 | _ => false
/-- The opposite. -/
def negate (a : EV) : EV := match a with | .nan => .nan | .inf n => .inf (!n) | .num g n d => .num (!g) (Dyadic.neg n) d
/-- Sum; an exact zero of mixed signs is +0 (rne). -/
def add (a b : EV) : EV :=
  match a, b with
  | .nan, _ => .nan
  | _, .nan => .nan
  | .inf x, .inf y => if x = y then .inf x else .nan
  | .inf x, _ => .inf x
  | _, .inf y => .inf y
  | .num g n d, .num g' n' d' =>
    let s := Dyadic.add (Dyadic.mul n d') (Dyadic.mul n' d)
    .num (if s.m = 0 then g && g' && n.m = 0 && n'.m = 0 else s.m < 0) s (Dyadic.mul d d')
/-- Difference. -/
def sub (a b : EV) : EV := add a b.negate
/-- Product. -/
def mul (a b : EV) : EV :=
  match a, b with
  | .nan, _ => .nan
  | _, .nan => .nan
  | .num g n d, .num g' n' d' => .num (g != g') (Dyadic.mul n n') (Dyadic.mul d d')
  | x, y => if x.isZero || y.isZero then .nan else .inf (x.sign != y.sign)
/-- Quotient. -/
def div (a b : EV) : EV :=
  match a, b with
  | .nan, _ => .nan
  | _, .nan => .nan
  | .inf _, .inf _ => .nan
  | .inf x, y => .inf (x != y.sign)
  | .num g _ _, .inf y => .num (g != y) ⟨0, 0⟩ one
  | .num g n d, .num g' n' d' =>
    if n'.m = 0 then (if n.m = 0 then .nan else .inf (g != g'))
    else
      let q := Dyadic.mul d n'
      let p := Dyadic.mul n d'
      .num (g != g') (if q.m < 0 then Dyadic.neg p else p) (Dyadic.abs q)
/-- Rounds once to a format, to nearest even (R240). -/
def round (t : ElemType) (sat : Bool) (a : EV) : Nat :=
  match a with
  | .nan => canonNan t
  | .inf n => if sat then maxBits t n else infBits t n
  | .num g n d => if n.m = 0 then zeroBits t g else (roundMag t .rne sat g ⟨n.m.natAbs, d.m.natAbs, n.e - d.e⟩).bits
/-- The value is finite. -/
def isFin (a : EV) : Bool := match a with | .num .. => true | _ => false
/-- Magnitude of a finite dyadic value. -/
def mag (a : EV) : Bnd := match a with | .num _ n d => if d = one then some (Dyadic.abs n) else none | _ => none

end EV

/-! ## Bound terms (R110): exact sums, rounded upward once where they become a bound word -/

/-- An exact sum. -/
def bndSum (a b : Bnd) : Bnd := match a, b with | some x, some y => some (Dyadic.add x y) | _, _ => none
/-- An exact product. -/
def bndTimes (a b : Bnd) : Bnd := match a, b with | some x, some y => some (Dyadic.mul x y) | _, _ => none

/-- What one f32 rounding adds: `exact` is whether the value rounded was zero. -/
def f32Add (bits : Nat) (exactZero : Bool) : Bnd :=
  match f32Val bits with
  | .fin _ m e =>
    if m = 0 then (if exactZero then bndZero else some ⟨1, -150⟩)
    else some ⟨1, max (Dyadic.log2 ⟨m, e⟩) (-126) - 24⟩
  | _ => none
/-- What narrowing an f32 to f16 adds. -/
def narrowAdd (f32 f16 : Nat) : Bnd :=
  match fval .f16 f16 with
  | .fin _ m e =>
    if m = 0 then (if (f32Val f32).isZero then bndZero else some ⟨1, -25⟩)
    else if isSubnormal .f16 f16 then some ⟨1, -25⟩ else some ⟨1, Dyadic.log2 ⟨m, e⟩ - 11⟩
  | _ => none
/-- What one f64 rounding adds, in units of 2^−1075 (R110); nothing for a zero rounded exactly. -/
def f64Units (bits : Nat) : Nat :=
  match fval .f64 bits with
  | .fin _ m e => if m = 0 then 0 else 2 ^ (max (Dyadic.log2 ⟨m, e⟩) (-1022) + 1022).toNat
  | _ => 0

/-! ## Sums with the NaN rule (R102) -/

/-- A sum under way: its f32 bits, the NaN operands met as f32 bits, whether an invalid operation occurred, its bound. -/
structure QAcc where
  bits : Nat
  nans : List Nat
  inv : Bool
  bnd : Bnd
deriving DecidableEq, Repr

/-- The start, −0. -/
def QAcc.start : QAcc := ⟨0x80000000, [], false, bndZero⟩

/-- A NaN of a format, quietened and widened to f32 by appending zeros (R102). -/
def widenNan (t : ElemType) (x : Nat) : Nat :=
  let f := fmtOf t
  (x / 2 ^ (t.bits - 1) % 2) * 2 ^ 31 + ((bitsOf x 0 f.fbits * 2 ^ (23 - f.fbits)) ||| 0x7FC00000)

/-- Adds an exact term, or a NaN operand or an invalid product; a sum that is NaN already meets no invalid addition. -/
def QAcc.add (a : QAcc) (nans : List Nat) (term : EV) : QAcc :=
  if !nans.isEmpty then { a with nans := a.nans ++ nans }
  else match term with
  | .nan => { a with inv := true }
  | _ =>
    let s := EV.add (EV.f32 a.bits) term
    if !a.nans.isEmpty || a.inv then a
    else match s with
    | .nan => { a with inv := true }
    | _ =>
      let b := EV.round .f32 false s
      { a with bits := b, bnd := bndSum a.bnd (f32Add b s.isZero) }

/-- The result's f32 bits (R102). -/
def QAcc.result (a : QAcc) : Nat :=
  match a.nans, a.inv with
  | [], false => a.bits
  | [n], false => n
  | _, _ => 0x7FC00000
/-- The result's bound (R110). -/
def QAcc.bound (a : QAcc) : Bnd := if (f32Val a.result).isFin then a.bnd else none

/-- f32 bits narrowed to f16 (R101, R102). -/
def narrowF16 (x : Nat) : Nat :=
  if (f32Val x).isNan then x / 2 ^ 31 % 2 * 2 ^ 15 + 0x7C00 + bitsOf x 13 10 else (convFloat .f16 .rne false (f32Val x)).bits

/-- Element e of a row of n-bit elements (R95). -/
def rowElem (row : List Byte) (n e : Nat) : Nat :=
  if n = 4 then bitsOf (row.getD (e / 2) 0).toNat (4 * (e % 2)) 4 else fieldAt row (e * (n / 8)) (n / 8)

/-- The float dot product of R102 over d elements. -/
def floatDot (t : ElemType) (skip : Bool) (q x : List Byte) (d : Nat) : QAcc :=
  (List.range d).foldl (fun a e =>
    let u := rowElem q t.bits e
    let v := rowElem x t.bits e
    if skip && (fval t u).isZero then a
    else
      let nans := (if (fval t u).isNan then [widenNan t u] else []) ++ (if (fval t v).isNan then [widenNan t v] else [])
      a.add nans (EV.mul (EV.ofBits t u) (EV.ofBits t v))) QAcc.start
/-- The integer dot product modulo 2^bits (R102). -/
def intDot (n bits : Nat) (q x : List Byte) (d : Nat) : Nat :=
  (List.range d).foldl (fun a e => (a + rowElem q n e * rowElem x n e) % 2 ^ bits) 0

/-! ## qattn (R107, R110) -/

/-- A head's running values: m and l as f32 bits, o, and what their bounds add: roundings, exp2 products, terms. -/
structure Head where
  m : Nat
  l : Nat
  o : List Nat
  lR : Bnd
  lP : Bnd
  lT : Bnd
  oB : List (Bnd × Bnd)
deriving DecidableEq, Repr

/-- The start of a head with d elements. -/
def Head.start (d : Nat) : Head :=
  ⟨0xFF800000, 0, List.replicate d 0, bndZero, bndZero, bndZero, List.replicate d (bndZero, bndZero)⟩

/-- exp2 of a − b (R107). -/
def expDiff (tag a b : Nat) : Nat := softExp tag (match f32Val a, f32Val b with
  | .nan _, _ => .nan false
  | _, .nan _ => .nan false
  | .inf x, .inf y => if x = y then .nan false else .inf x
  | .inf x, _ => .inf x
  | _, .inf y => .inf (!y)
  | x, y => let d := Dyadic.sub x.dy y.dy; .fin (d.m < 0) d.m.natAbs d.e)

/-- One round of x·c + y, f32: bits and what rounding adds. -/
def mulAddF32 (x c : Nat) (y : EV) : Nat × Bnd :=
  let v := EV.add (EV.mul (EV.f32 x) (EV.f32 c)) y
  let b := EV.round .f32 false v
  (b, f32Add b v.isZero)

/-- Folds a partial of weight p into a head: l·c + lp·p and o·c + p·v, with the new maximum (R107). A single row is the
partial with maximum s, lp = 1 and v its elements. -/
def Head.step (h : Head) (tag s : Nat) (lp : Option Nat) (v : List EV) : Head :=
  let m2 := (minMaxBits .f32 true h.m s).bits
  let ninf := m2 = 0xFF800000
  let c := if ninf then 0x3F800000 else expDiff tag h.m m2
  let p := if ninf then 0 else expDiff (tag + 1) s m2
  let pl : EV := match lp with | none => EV.f32 p | some x => EV.mul (EV.f32 x) (EV.f32 p)
  let lc := (EV.mul (EV.f32 h.l) (EV.f32 c)).mag
  let (l, lr) := mulAddF32 h.l c pl
  let os := (h.o.zip v).map (fun x =>
    let pv := EV.mul (EV.f32 p) x.2
    let (b, r) := mulAddF32 x.1 c pv
    (b, r, bndSum (EV.mul (EV.f32 x.1) (EV.f32 c)).mag pv.mag))
  { m := m2, l := l, o := os.map (fun x => x.1)
    lR := bndSum h.lR lr
    lP := bndSum h.lP (match lp with | none => lc | some _ => bndSum lc pl.mag)
    lT := bndSum h.lT (bndSum lc pl.mag)
    oB := (h.oB.zip os).map (fun x => (bndSum x.1.1 x.2.2.1, bndSum x.1.2 x.2.2.2)) }

/-- Joins the bound sums of a partial into a head. -/
def Head.joinBounds (h p : Head) : Head :=
  { h with
    lR := bndSum h.lR p.lR, lP := bndSum h.lP p.lP, lT := bndSum h.lT p.lT
    oB := (h.oB.zip p.oB).map (fun x => (bndSum x.1.1 x.2.1, bndSum x.1.2 x.2.2)) }

/-- ln 2, from above. -/
def lnTwo : Dy := ⟨0xB17217F7D1CF79ABC9E3B39803F2F6B0, -128⟩
/-- 2^(2β) − 1, from above, times a sum of magnitudes (R110). No such sum of products of f32 values lies between 0 and 2^−298, so
that past β = 400 the product exceeds every finite FP32 value. -/
def expExcess (beta t : Bnd) : Bnd :=
  match beta, t with
  | some b, some m =>
    if b.m = 0 || m.m = 0 then bndZero
    else if Dyadic.lt ⟨400, 0⟩ b then none
    else if Dyadic.lt b ⟨1, -60⟩ then
      -- 2^x − 1 lies between x·ln 2 and x·ln 2·(1 + x) for 0 < x < 1
      let x := Dyadic.mul ⟨2, 0⟩ b
      some (Dyadic.mul (Dyadic.mul (Dyadic.mul x lnTwo) (Dyadic.add ⟨1, 0⟩ x)) m)
    else
      let (v, ex) := exp2Mag (Dyadic.mul ⟨2, 0⟩ b)
      let up : Dy := if ex then ⟨v.num, v.e⟩ else ⟨v.num + 2 ^ 21, v.e⟩
      some (Dyadic.mul (Dyadic.sub up ⟨1, 0⟩) m)
  | _, _ => none

/-- The bound of a head's sum: roundings, 2^−23 of the exp2 products, and the excess over its terms (R110). -/
def headBound (bits : Nat) (r p t beta : Bnd) : Bnd :=
  if !(f32Val bits).isFin then none
  else bndSum r (bndSum (bndTimes (some ⟨1, -23⟩) p) (expExcess beta t))

/-! ## qupd (R108, R109) -/

/-- √x evaluated where the rest is a function of it: exactly when the root is rational, else between bounds that are narrowed
until both give one result. -/
def refineRoot (x : Dy) (f : EV → Nat) : Nat → Nat → Nat
  | 0, k => f (EV.ofDy false ⟨(isqrt (x.m.natAbs * 2 ^ (2 * k)) : Nat), -(k : Int)⟩)
  | n + 1, k =>
    -- x = m·2^e with e even after scaling by 2^(2k)
    let sh : Nat := 2 * k + (if (x.e - 2 * k) % 2 = 0 then 0 else 1)
    let r := isqrt (x.m.natAbs * 2 ^ sh)
    let q := (x.e - sh) / 2
    if r * r = x.m.natAbs * 2 ^ sh then f (EV.ofDy false ⟨r, q⟩)
    else
      let a := f (EV.ofDy false ⟨r, q⟩)
      let b := f (EV.ofDy false ⟨r + 1, q⟩)
      if a = b then a else refineRoot x f n (2 * k)

/-- A function of √x, rounded once. -/
def withRoot (x : EV) (f : EV → Nat) : Nat :=
  match x with
  | .nan => f .nan
  | .inf n => f (if n then .nan else .inf false)
  | .num g n _ => if n.m = 0 then f (EV.ofDy g ⟨0, 0⟩) else if n.m < 0 then f .nan else refineRoot n f 12 64

/-- The parameters of an update: lr, β1, β2, ε, λ, γ, c1, c2 (R108). -/
structure UpdParams where
  lr : EV
  b1 : EV
  b2 : EV
  eps : EV
  lam : EV
  gam : EV
  c1 : EV
  c2 : EV

/-- From the parameter block. -/
def UpdParams.ofBytes (l : List Byte) : UpdParams :=
  let f (i : Nat) : EV := EV.f32 (fieldAt l (4 * i) 4)
  ⟨f 0, f 1, f 2, f 3, f 4, f 5, f 6, f 7⟩

/-- One parameter's state: w, m, v, g as f32 bits. -/
structure UpdElem where
  w : Nat
  m : Nat
  v : Nat
  g : Nat
deriving DecidableEq, Repr

/-- One parameter's update: the new state, and g2 as f32 bits (R108). -/
def updateElem (prog : Nat) (keep : Bool) (p : UpdParams) (x : UpdElem) : UpdElem × Nat :=
  let r (e : EV) : Nat := EV.round .f32 false e
  let one : EV := EV.ofDy false EV.one
  let g2 := r (EV.mul p.gam (EV.f32 x.g))
  let g := EV.f32 g2
  let w := EV.f32 x.w
  let out := { x with g := 0 }
  if !(f32Val g2).isFin && keep then (out, g2)
  else if prog = 0 then
    let m := r (EV.add (EV.mul p.b1 (EV.f32 x.m)) (EV.mul (EV.sub one p.b1) g))
    let v := r (EV.add (EV.mul p.b2 (EV.f32 x.v)) (EV.mul (EV.mul (EV.sub one p.b2) g) g))
    let nw := withRoot (EV.mul p.c2 (EV.f32 v)) (fun root =>
      r (EV.sub w (EV.mul p.lr (EV.add (EV.div (EV.mul p.c1 (EV.f32 m)) (EV.add root p.eps)) (EV.mul p.lam w)))))
    ({ out with w := nw, m := m, v := v }, g2)
  else if prog = 1 then
    let m := r (EV.add (EV.mul p.b1 (EV.f32 x.m)) g)
    ({ out with w := r (EV.sub w (EV.mul p.lr (EV.add (EV.f32 m) (EV.mul p.lam w)))), m := m }, g2)
  else ({ out with w := r (EV.add w (EV.mul p.lr g)) }, g2)

/-- The block scale of a row's largest magnitude: |w|/F rounded upward to 20 bits, not below 2^−126 (R109). -/
def exportScale (fl : Nat) (a : Dy) : Nat :=
  if a.m = 0 then 0x3F800
  else
    let v : Mag := ⟨a.m.natAbs, fl, a.e⟩
    if v.log2 < -126 then 0x00800
    else packFields ⟨8, 11, 127⟩ (roundFmt ⟨8, 11, 127⟩ .rup false v)

/-- The 32 exported bytes and the scale of a row's weights (R109). -/
def exportRow (xfmt : Nat) (w : List Nat) : List Byte × Nat :=
  let t : ElemType := if xfmt = 1 then .e4m3 else .ds8
  let vals := w.map f32Val
  if vals.any (fun v => !v.isFin) then (w.map (fun _ => BitVec.ofNat 8 (zeroBits t false)), 0x7FC00)
  else
    let a := vals.foldl (fun m v => Dyadic.max m (Dyadic.abs v.dy)) ⟨0, 0⟩
    let sc := exportScale (if xfmt = 1 then 448 else 2) a
    let d := EV.f32 (sc * 2 ^ 12)
    (w.map (fun x => BitVec.ofNat 8 (EV.round t true (EV.div (EV.f32 x) d))), sc)

end Sys2Proof.Machine
end

