-- ==== Sys2Proof/Machine/QXlate.lean ====
section
/-!
DEFINITION. Q pages and their translation at the base dies (spec 06 R90, R112 to R115, R366).
-/

namespace Sys2Proof.Machine

/-- Bytes of a Q page and of a Q frame (R44, R90). -/
def qPageSize : Nat := 0x200000
/-- Where byte o of a frame lies in the model's query memory (R90). -/
def qAddr (stack frame o : Nat) : Nat := stack * 2 ^ 38 + frame * 2 ^ 21 + o

/-- Fields of a Q PTE (R114). -/
def qpteStack (e : Nat) : Nat := bitsOf e 49 6
/-- Frame within the stack. -/
def qpteFrame (e : Nat) : Nat := bitsOf e 32 17
/-- State: 0 present, 1 migrating, 2 sealed-out. -/
def qpteState (e : Nat) : Nat := bitsOf e 55 2
/-- Generation. -/
def qpteGen (e : Nat) : Nat := bitsOf e 57 4
/-- A valid Q PTE is malformed (R114). -/
def qpteBad (e : Nat) : Bool := bitsOf e 5 27 != 0 || qpteState e = 3 || qpteStack e ≥ 48 || !e.testBit 1
/-- A Q PTE with state, stack, frame and generation replaced (R118). -/
def qpteWith (e state stack frame gen : Nat) : Nat :=
  e % 2 ^ 32 + frame % 2 ^ 17 * 2 ^ 32 + stack % 2 ^ 6 * 2 ^ 49 + state % 4 * 2 ^ 55 + gen % 16 * 2 ^ 57 + bitsOf e 61 3 * 2 ^ 61

/-- A completed Q walk: the entry, its physical address and its path. -/
structure QWalk where
  pte : Nat
  addr : Nat
  path : Path

/-- Walks the Q tables of a partition for a Q page (R112, R113); a failure is a reason and where, and the leaves reached (R53). -/
def qWalk (s : State) (f : FuncId) (now qpage : Nat) : Except WalkErr QWalk :=
  let pt := s.part f
  if !pt.xqtb.getLsbD 0 then .error ((1, 1), [])
  else
    match stage2 s f now (bitsOf pt.xqtb.toNat 17 35 * 0x20000 + 8 * (qpage / 0x2000 % 0x4000)) ⟨now, some (now + 8000000), 0, []⟩ with
    | .error e => .error e
    | .ok (_, _, pa, p) =>
      let e1 := readPte s (hostKeyed f pa)
      if !pteV e1 then .error ((1, 1), p.marks)
      else if malformed e1 3 false pt.twoStage then .error ((6, 1), p.marks)
      else
        match stage2 s f now (pteFrame e1 + 8 * (qpage % 0x2000)) (p.addLease now (bitsOf e1 61 3)) with
        | .error e => .error e
        | .ok (_, _, pa, p) =>
          let pa := hostKeyed f pa
          let e := readPte s pa
          if !pteV e then .error ((1, 0), p.marks)
          else if qpteBad e then .error ((6, 0), p.marks)
          else .ok ⟨e, pa, p.addLease now (bitsOf e 61 3)⟩

/-- The base die that a Q page is sent to (R113). -/
def qDie (qpage : Nat) : StackId := ⟨qpage % 48, Nat.mod_lt _ (by decide)⟩
/-- Changes a base die. -/
def State.modDie (s : State) (d : StackId) (f : BaseDie → BaseDie) : State := { s with baseDies := s.baseDies.set d (f s.baseDies[d]) }
/-- A base die's time-base copy. -/
def State.dieTime (s : State) (d : StackId) : Nat := copyOfTime s s.baseDies[d].skew

/-- A Q walk at the base die, with the accessed bits of the leaves that it reaches (R53). -/
def qWalkMarked (s : State) (f : FuncId) (qpage : Nat) : State × Except (Nat × Nat) QWalk :=
  match qWalk s f (s.dieTime (qDie qpage)) qpage with
  | .error e => (e.2.foldl (fun s pa => orPte s 0x40 pa) s, .error e.1)
  | .ok w => (w.path.marks.foldl (fun s pa => orPte s 0x40 pa) s, .ok w)

/-- Walks at the base die and caches what its leases allow (R56, R113). -/
def qWalkCached (s : State) (f : FuncId) (qpage : Nat) : State × Except (Nat × Nat) QWalk :=
  let d := qDie qpage
  match qWalkMarked s f qpage with
  | (s, .error e) => (s, .error e)
  | (s, .ok w) =>
    let rest (l : List QTlbEntry) := l.filter (fun x => !(x.part == f && x.qpage == qpage))
    let s := s.modDie d (fun b => { b with cache := match w.path.exp with
      | some x => ((⟨f, qpage, BitVec.ofNat 64 w.pte, w.path.ts, x⟩ : QTlbEntry) :: rest b.cache).take 1024
      | none => rest b.cache })
    (s, .ok w)

/-- The Q PTE of a page: a live cached entry, or a walk (R57, R113). -/
def qEntry (s : State) (rq : XReq) (qpage : Nat) : State × Except (Nat × Nat) Nat :=
  let d := qDie qpage
  let f := rq.part
  let s := s.noteUse (.stack d) rq
  match s.baseDies[d].cache.find? (fun x => x.part == f && x.qpage == qpage && decide (s.dieTime d < x.expiry)) with
  | some x => (s, .ok x.pte.toNat)
  | none =>
    match qWalkCached s f qpage with
    | (s, .error e) => (s, .error e)
    | (s, .ok w) => (s, .ok w.pte)

/-- The denial of a missing permission bit: W, Q or U (R115). -/
def qDeny (need : Nat) : Nat := if need = 2 then 3 else if need = 3 then 10 else 11

/-- Translates one Q page for a query that needs a permission bit and may modify: stack and frame, or reason and where; a
migrating entry is walked again once before a modifying query faults on it (R115). -/
def qTranslate (s : State) (rq : XReq) (qpage need : Nat) (mod : Bool) : State × Except (Nat × Nat) (Nat × Nat) :=
  let judge (e : Nat) : Except (Nat × Nat) (Nat × Nat) :=
    if !e.testBit need then .error (qDeny need, 0)
    else if qpteState e = 2 then .error (8, 0)
    else if qpteState e = 1 && mod then .error (9, 0)
    else .ok (qpteStack e, qpteFrame e)
  match qEntry s rq qpage with
  | (s, .error e) => (s, .error e)
  | (s, .ok e) =>
    match judge e with
    | .error (9, _) =>
      match qWalkCached s rq.part qpage with
      | (s, .error x) => (s, .error x)
      | (s, .ok w) => (s, judge w.pte)
    | r => (s, r)

/-- Writes a Q PTE in place (R114: an atomic write at package scope). -/
def writeQpte (s : State) (pa e : Nat) : State :=
  if pa + 8 ≤ wmSize then { s with wm := Mem.setNum s.wm pa 8 e }
  else if hostBase ≤ pa then { s with host := Mem.setNum s.host (pa - hostBase) 8 e }
  else s

end Sys2Proof.Machine
end

