-- ==== Sys2Proof/Machine/Query.lean ====
section
/-!
DEFINITION. Query instructions (spec 06 R93 to R118): checks at issue, sub-commands, replies, and page operations.
-/

namespace Sys2Proof.Machine

/-! ## The query block (R94) -/

/-- A query block's fields. -/
structure QBlk where
  base : Nat
  rows : Nat
  rlen : Nat
  stride : Nat
  etype : Nat
  nq : Nat
  k : Nat
  qflags : Nat
  vec : Nat
  kcol : Nat
  pcmp : Nat
  vcols : Nat
  vcol : Nat
  ucode : Nat
  xfmt : Nat
  pval : Nat
  aux1 : Nat
  aux2 : Nat
deriving DecidableEq, Repr

/-- A block from its 64 bytes. -/
def QBlk.ofBits (b : BitVec 512) : QBlk :=
  let f (o n : Nat) : Nat := bitsOf b.toNat (8 * o) (8 * n)
  ⟨f 0 8, f 8 4, f 12 4, f 16 8, f 24 1, f 25 1, f 26 1, f 27 1, f 28 4, f 32 2, f 34 1, f 35 1, f 36 2, f 38 1, f 39 1, f 40 8, f 48 8, f 56 8⟩

/-- Element type. -/
def QBlk.t (b : QBlk) : ElemType := elemOfCode (b.etype % 16)
/-- Skip-zero. -/
def QBlk.skip (b : QBlk) : Bool := b.qflags.testBit 0
/-- Integer view: by flag, and always for integer types (R101). -/
def QBlk.intView (b : QBlk) : Bool := b.qflags.testBit 1
/-- Narrow reply. -/
def QBlk.narrow (b : QBlk) : Bool := b.qflags.testBit 2
/-- Elements of a row. -/
def QBlk.d (b : QBlk) : Nat := 8 * b.rlen / b.t.bits
/-- Bytes of an element in a reply. -/
def QBlk.es (b : QBlk) : Nat := (b.t.bits + 7) / 8

/-- qtopk ranks by value (R106). -/
def QBlk.byValue (b : QBlk) : Bool := b.qflags.testBit 3
/-- Query vectors are read (R95): qdot, qtopk by score, qattn. -/
def QBlk.readsVec (b : QBlk) (fn : Nat) : Bool := fn = 2 || (fn = 6 && !b.byValue) || fn = 7
/-- qwr, qfold and qupd modify (R98). -/
def modifies (fn : Nat) : Bool := fn = 0 || fn = 1 || fn = 8
/-- The predicate applies (R97). -/
def hasPredicate (fn : Nat) : Bool := fn = 3 || fn = 4 || fn = 5 || fn = 6

/-- Result width in bytes (R101). -/
def QBlk.w (b : QBlk) (fn : Nat) : Nat :=
  if b.intView then (if b.narrow then b.es else if fn = 3 then 8 else if b.t.bits = 64 then 8 else 4)
  else if b.narrow then 2 else 4

/-- Floating results, each with a bound word (R97, R99). -/
def QBlk.floats (b : QBlk) (fn : Nat) : Nat :=
  match fn with
  | 2 => if b.intView then 0 else b.rows * b.nq
  | 3 => if b.intView then 0 else b.vcols
  | 5 => if b.intView then 0 else 1
  | 6 => b.k
  | 7 => b.nq * (2 + b.d)
  | 8 => 1
  | _ => 0

/-- Reply bytes before bounds (R97). -/
def QBlk.y0 (b : QBlk) (fn : Nat) : Nat :=
  match fn with
  | 2 => b.rows * b.nq * b.w fn
  | 3 => b.vcols * b.w fn
  | 4 => 8
  | 5 => 16
  | 6 => 8 * b.k
  | 7 => b.nq * (8 + 4 * b.d)
  | 8 => 16
  | _ => 0
/-- Reply bytes. -/
def QBlk.y (b : QBlk) (fn : Nat) (bnd : Bool) : Nat :=
  if bnd then (b.y0 fn + 3) / 4 * 4 + 4 * b.floats fn else b.y0 fn
/-- Touched bytes. -/
def QBlk.touched (b : QBlk) (fn : Nat) : Nat := (if fn = 7 then 2 else 1) * b.rows * b.rlen
/-- Export bytes (R109). -/
def QBlk.x (b : QBlk) (fn : Nat) : Nat := if fn = 8 && b.xfmt != 0 then 36 * b.rows else 0

/-! ## Shape (R95 to R97) -/

/-- A reserved or unused field is nonzero: reason 1. -/
def QBlk.unused (b : QBlk) (fn : Nat) : Bool :=
  let z (used : Bool) (v : Nat) : Bool := !used && v != 0
  let pr := hasPredicate fn
  b.etype ≥ 16 || b.qflags ≥ 16
    || z (fn = 2 || fn = 6 || fn = 7) b.nq || z (fn = 6) b.k || z (2 ≤ fn && fn ≤ 6) b.qflags
    || z (fn ≤ 1 || b.readsVec fn) b.vec || z pr b.kcol || z pr b.pcmp || z pr b.pval || z (fn = 3) b.vcols
    || z (fn = 3 || fn = 5 || (fn = 6 && b.byValue)) b.vcol || z (fn = 1 || fn = 8) b.ucode || z (fn = 8) b.xfmt
    || z (fn = 7 || fn = 8) b.aux1 || z (fn = 8) b.aux2

/-- The types with a float view (R101). -/
def floatView (t : ElemType) : Bool := t == .bf16 || t == .f16 || t == .f32 || t == .e4m3 || t == .e5m2

/-- Type, flag bit or `.bnd` not allowed: reason 2. -/
def QBlk.badType (b : QBlk) (fn : Nat) (bnd : Bool) : Bool :=
  let bits (allowed : Nat) : Bool := b.qflags % 16 &&& (15 - allowed) != 0
  let view := !b.intView && !floatView b.t
  (match fn with
    | 1 => !(b.t == .i32 || b.t == .f32 || b.t == .bf16)
    | 2 => bits 7 || view
    | 3 => bits 6 || view
    | 4 => bits 2 || view
    | 5 => bits 2 || view
    | 6 => bits 9 || !floatView b.t
    | 7 => !floatView b.t
    | 8 => b.t != .f32
    | _ => false)
  || (bnd && (fn ≤ 1 || fn = 4 || b.floats fn = 0 && b.intView))

/-- nq, k, vcols or rows out of range: reason 3. -/
def QBlk.badCount (b : QBlk) (fn : Nat) : Bool :=
  b.rows = 0
    || ((fn = 2 || fn = 7) && (b.nq = 0 || b.nq > 16))
    || (fn = 6 && (b.nq != (if b.byValue then 0 else 1) || b.k = 0 || b.k > 64))
    || (fn = 3 && (b.vcols = 0 || b.vcols > 16))

/-- Row length of an update program (R108). -/
def updRlen (ucode : Nat) : Nat := match ucode % 4 with | 0 => 512 | 1 => 384 | _ => 256

/-- One past the region's last byte, from a base. -/
def QBlk.endOf (b : QBlk) (base : Nat) : Nat := base + (b.rows - 1) * b.stride + b.rlen

/-- Geometry rules of a region at a base: reason 4. -/
def QBlk.badGeometry (b : QBlk) (base : Nat) : Bool :=
  let one := b.rows = 1 && b.stride = 0
  base % 16 != 0
    || (if one then base / qPageSize != (base + b.rlen - 1) / qPageSize
        else !(b.stride != 0 && 2 ^ Nat.log2 b.stride == b.stride && 16 ≤ b.stride && b.stride ≤ 0x200000)
          || base % (max b.stride 1) + b.rlen > b.stride)
    || (b.endOf base - 1) / qPageSize - base / qPageSize + 1 > 4096

/-- A column e lies outside the row: reason 6. -/
def QBlk.colOut (b : QBlk) (e : Nat) : Bool := (e + 1) * b.t.bits > 8 * b.rlen

/-- The lowest shape reason that a query block breaks (R96). -/
def shapeFault (fn : Nat) (b : QBlk) (bnd : Bool) : Option Nat :=
  if b.unused fn then some 1
  else if b.badType fn bnd then some 2
  else if b.badCount fn then some 3
  else if b.rlen = 0 || b.rlen % 16 != 0 || (b.readsVec fn && b.rlen > 4096) || (fn = 8 && b.ucode % 4 != 3 && b.rlen != updRlen b.ucode)
      || b.badGeometry b.base || (fn = 7 && b.badGeometry b.aux1) then some 4
  else if b.endOf b.base > 2 ^ 48 || (fn = 7 && b.endOf b.aux1 > 2 ^ 48) then some 5
  else if (hasPredicate fn && b.colOut b.kcol) || ((fn = 5 || (fn = 6 && b.byValue)) && b.colOut b.vcol)
      || (fn = 3 && b.colOut (b.vcol + b.vcols - 1)) then some 6
  else if b.pcmp > 6 || (fn = 1 && b.ucode > 1) || (fn = 8 && (b.ucode % 4 = 3 || bitsOf b.ucode 2 5 != 0)) || b.xfmt > 2 then some 7
  else if 8 * (b.y fn bnd + b.x fn) > b.touched fn then some 8
  else none

/-! ## Sub-commands (R98) -/

/-- Q pages that a region touches with the rows on each: (page, first row, one past the last row). -/
def QBlk.pagesOf (b : QBlk) (base : Nat) : List (Nat × Nat × Nat) :=
  if b.stride = 0 then [(base / qPageSize, 0, 1)]
  else
    (List.range ((b.endOf base - 1) / qPageSize - base / qPageSize + 1)).filterMap (fun i =>
      let pg := base / qPageSize + i
      let lo := (pg * qPageSize - base + b.stride - 1) / b.stride
      let hi := min b.rows (((pg + 1) * qPageSize - base + b.stride - 1) / b.stride)
      if lo < hi then some (pg, lo, hi) else none)
/-- The pages that rows lo to hi − 1 of a region touch. -/
def QBlk.rowPages (b : QBlk) (base lo hi : Nat) : List Nat :=
  ((List.range (hi - lo)).map (fun i => (base + (lo + i) * b.stride) / qPageSize)).eraseDups

/-- The permission bit of a query (R97, R114). -/
def qNeed (fn : Nat) : Nat := if fn ≤ 1 then 2 else if fn = 8 then 4 else 3

/-- The order in which R115 picks among the faults of one sub-command: the entry's path, its permission, the page's state. -/
def faultRank (r : Nat) : Nat := if r = 1 || r = 6 then 0 else if r = 3 || r = 10 || r = 11 then 1 else 2
/-- The fault that a sub-command reports of those of its pages: page, reason, where. -/
def pickFault (l : List (Nat × Nat × Nat)) : Option (Nat × Nat × Nat) :=
  match l.find? (fun x => faultRank x.2.1 = 0) with
  | some x => some x
  | none => match l.find? (fun x => faultRank x.2.1 = 1) with
    | some x => some x
    | none => l.head?

/-- Translates the pages of one sub-command: those found with stack and frame, and the faults. -/
def qTranslateAll (s : State) (rq : XReq) (need : Nat) (mod : Bool) : List Nat → State × List (Nat × Nat × Nat) × List (Nat × Nat × Nat)
  | [] => (s, [], [])
  | p :: l =>
    let (s, r) := qTranslate s rq p need mod
    let (s, oks, bad) := qTranslateAll s rq need mod l
    match r with
    | .error (x, w) => (s, oks, (p, x, w) :: bad)
    | .ok (st, fr) => (s, (p, st, fr) :: oks, bad)

/-- A sub-command's translation: accepted, or the page, reason and where. -/
abbrev SubRes := Except (Nat × Nat × Nat) SubCmd

/-- Translates sub-commands, in ascending order; qattn's take the K page first, then their V pages (R107, R115). -/
def translateSubs (s : State) (rq : XReq) (fn : Nat) (b : QBlk) : List (Nat × Nat × Nat) → State × List SubRes
  | [] => (s, [])
  | (pg, lo, hi) :: l =>
    let (s, oks, bad) := qTranslateAll s rq (qNeed fn) (modifies fn) (pg :: (if fn = 7 then b.rowPages b.aux1 lo hi else []))
    let r : SubRes := match pickFault bad, oks with
      | some e, _ => .error e
      | none, (_, st, fr) :: vs => .ok ⟨pg, st, fr, vs, false⟩
      | none, [] => .error (pg, 1, 0)
    let (s, rest) := translateSubs s rq fn b l
    (s, r :: rest)

/-! ## Running a sub-command -/

/-- Granules of query memory poisoned in a range. -/
def qPoisoned (s : State) (a n : Nat) : Bool := (granulesOf a n).any (fun g => NatSet.has s.qPoison g)
/-- Writes query memory: whole granules, so poison is cleared (R100, R341). -/
def qWrite (s : State) (a : Nat) (bs : List Byte) : State :=
  { s with qmem := Mem.setBytes s.qmem a bs, qPoison := NatSet.clear s.qPoison (a / 16) ((bs.length + 15) / 16) }
/-- Poisons query memory granules. -/
def qPoisonAt (s : State) (a n : Nat) : State := { s with qPoison := (granulesOf a n).foldl NatSet.add s.qPoison }

/-- Where row r of a region lies, given the frame of its page. -/
def QBlk.rowAddr (b : QBlk) (base r stack frame : Nat) : Nat := qAddr stack frame ((base + r * b.stride) % qPageSize)

/-- The allocations that a query's context may write on its core. -/
def QueryRun.allocs (q : QueryRun) (s : State) : List Alloc := (s.core q.core).allocsOf q.part q.launch

/-- Who a query acts for. -/
def QueryRun.rq (q : QueryRun) : XReq := ⟨q.part, q.asn, q.priv, q.ctx⟩

/-- Exported bytes go out through stream engine k of the issuing core (R109), never into a host page (R46); a page that no longer
translates as at issue leaves a copy fault with the issuing context (R62). Poison of the row goes with them (R341). -/
def exportWrite (s : State) (q : QueryRun) (va : Nat) (bs : List Byte) (bad : Bool) : State :=
  match xferPieces s (.engine q.core) q.rq .store false q.pages (BitVec.ofNat 64 va) bs.length with
  | (s, .ok (ps, _)) => (writePieces s bs bad ps).noteCounterWake q.crit
  | (s, .error (.fault r _, a)) => s.modCtx q.part q.ctx (fun t => { t with copyFaults := t.copyFaults ++ [⟨a, r, none⟩] })
  | (s, .error (.absent _, _)) => s

/-- The poisoned 16-byte units of n bytes of query memory. -/
def badUnits (s : State) (a n : Nat) : List Nat := (List.range (n / 16)).filter (fun u => qPoisoned s (a + 16 * u) 16)

/-- The planes of a qupd row, one parameter (R108). -/
def updGet (row : List Byte) (prog i : Nat) : UpdElem :=
  let f (pl : Nat) : Nat := fieldAt row (128 * pl + 4 * i) 4
  match prog with
  | 0 => ⟨f 0, f 1, f 2, f 3⟩
  | 1 => ⟨f 0, f 1, 0, f 2⟩
  | _ => ⟨f 0, 0, 0, f 1⟩
/-- A row's bytes from its parameters. -/
def updPut (prog : Nat) (l : List UpdElem) : List Byte :=
  let pl (g : UpdElem → Nat) : List Byte := (l.map (fun x => leBytes 4 (g x))).flatten
  match prog with
  | 0 => pl (·.w) ++ pl (·.m) ++ pl (·.v) ++ pl (·.g)
  | 1 => pl (·.w) ++ pl (·.m) ++ pl (·.g)
  | _ => pl (·.w) ++ pl (·.g)

/-- One row of a modifying query at an address of query memory. -/
def modifyRow (s : State) (q : QueryRun) (b : QBlk) (r a : Nat) : State × QueryRun :=
  let src := b.vec + r * b.rlen
  if q.fn = 0 then
    let c := s.core q.core
    let s := qWrite s a (c.spadRead src b.rlen)
    let s := (c.spadPoison.filter (fun g => decide (src ≤ 16 * g) && decide (16 * g < src + b.rlen))).foldl
      (fun s g => qPoisonAt s (a + 16 * g - src) 16) s
    (s, q)
  else if q.fn = 1 then
    let c := s.core q.core
    let old := Mem.bytes s.qmem a b.rlen
    let k : FoldKind := if b.ucode = 0 then .add else .max
    let was := s.qPoison.filter (fun g => decide (a ≤ 16 * g) && decide (16 * g < a + b.rlen))
    let s := qWrite s a (foldRun b.t k old (c.spadRead src b.rlen))
    let s := { s with qPoison := was.foldl NatSet.add s.qPoison }
    let s := (c.spadPoison.filter (fun g => decide (src ≤ 16 * g) && decide (16 * g < src + b.rlen))).foldl
      (fun s g => qPoisonAt s (a + 16 * g - src) 16) s
    (s, q)
  else
    let prog := b.ucode % 4
    let p := UpdParams.ofBytes q.params
    let row := Mem.bytes s.qmem a b.rlen
    let (out, q) := (List.range 32).foldl (fun (x : List UpdElem × QueryRun) i =>
      let (e, g2) := updateElem prog (b.ucode.testBit 7) p (updGet row prog i)
      let q := x.2
      let q :=
        if (f32Val g2).isFin then
          let v := EV.add (EV.ofBits .f64 q.ss.toNat) (EV.mul (EV.f32 g2) (EV.f32 g2))
          let y := EV.round .f64 false v
          { q with ss := BitVec.ofNat 64 y, ssBound := q.ssBound + f64Units y }
        else { q with nf := q.nf + 1 }
      (x.1 ++ [e], q)) ([], q)
    -- poison of a parameter stays in its row's planes but g's, which is written +0 (R341)
    let bad := badUnits s a b.rlen
    let planes := b.rlen / 128
    let s := qWrite s a (updPut prog out)
    let hit := (List.range b.rlen).filter (fun u => u < 8 * (planes - 1) && bad.any (fun x => x % 8 = u % 8))
    let s := hit.foldl (fun s u => qPoisonAt s (a + 16 * u) 16) s
    let q := { q with bad := q.bad ++ bad.map (fun u => (r, u)) }
    if b.xfmt = 0 then (s, q)
    else
      let (bs, sc) := exportRow b.xfmt (out.map (·.w))
      let s := exportWrite s q (b.aux1 + 32 * r) bs !bad.isEmpty
      (exportWrite s q (b.aux1 + 32 * b.rows + 4 * r) (leBytes 4 sc) !bad.isEmpty, q)

/-! ## Results -/

/-- A row as read: its number, its elements, and its V row. -/
abbrev QRow := Nat × List Byte × List Byte

/-- The predicate (R101). -/
def matchesRow (b : QBlk) (x : List Byte) : Bool :=
  let n := b.t.bits
  let v := rowElem x n b.kcol
  let u := b.pval % 2 ^ n
  let lt (a c : Nat) : Bool := if b.intView then decide (intVal b.t a < intVal b.t c) else ieeeLt (fval b.t a) (fval b.t c)
  let eq (a c : Nat) : Bool := if b.intView then a == c else ieeeEq (fval b.t a) (fval b.t c)
  match b.pcmp with
  | 1 => eq v u | 2 => !eq v u | 3 => lt v u | 4 => lt v u || eq v u | 5 => lt u v | 6 => lt u v || eq v u | _ => true

/-- A float result in its reply width, and its bound (R101, R110). -/
def floatRes (b : QBlk) (a : QAcc) : List Byte × Bnd :=
  let x := a.result
  if b.narrow then
    let h := narrowF16 x
    (leBytes 2 h, if (fval .f16 h).isFin then bndSum a.bound (narrowAdd x h) else none)
  else (leBytes 4 x, a.bound)

/-- qdot (R104): one result of a row and vector. -/
def dotRes (b : QBlk) (q x : List Byte) : List Byte × Bnd :=
  if b.intView then
    let w := b.w 2
    (leBytes w (intDot b.t.bits (if b.narrow then b.t.bits else 8 * w) q x b.d), bndZero)
  else floatRes b (floatDot b.t b.skip q x b.d)

/-- qfsum (R105): one column over the matching rows. -/
def fsumRes (b : QBlk) (l : List QRow) (c : Nat) : List Byte × Bnd :=
  let n := b.t.bits
  if b.intView then
    let w := b.w 3
    let m := if b.narrow then n else 64
    let ext (v : Nat) : Nat := if b.t.isSigned then wrapInt 64 (signedOf n v) else v
    (leBytes w (l.foldl (fun a r => (a + ext (rowElem r.2.1 n c)) % 2 ^ m) 0), bndZero)
  else
    floatRes b (l.foldl (fun a r =>
      let v := rowElem r.2.1 n c
      a.add (if (fval b.t v).isNan then [widenNan b.t v] else []) (EV.ofBits b.t v)) QAcc.start)

/-- qmaxi (R105). -/
def maxiRes (b : QBlk) (l : List QRow) : List Byte × List Bnd :=
  let n := b.t.bits
  let el (r : QRow) : Nat := rowElem r.2.1 n b.vcol
  let cand := l.filter (fun r => b.intView || !(fval b.t (el r)).isNan)
  let lt (x y : Nat) : Bool := if b.intView then decide (intVal b.t x < intVal b.t y) else ieeeLt (fval b.t x) (fval b.t y)
  match cand.foldl (fun a r => match a with | none => some r | some m => if lt (el m) (el r) then some r else a) none with
  | some r =>
    (if b.intView then leBytes 8 (wrapInt 64 (intVal b.t (el r))) else leBytes 8 (convFloat .f32 .rne false (fval b.t (el r))).bits, [bndZero])
      |> fun x => (x.1 ++ leBytes 8 r.1, x.2)
  | none =>
    ((if b.intView then leBytes 8 (wrapInt 64 (if b.t.isSigned then -(2 ^ (n - 1) : Nat) else 0)) else leBytes 8 0xFF800000)
      ++ leBytes 8 0xFFFFFFFFFFFFFFFF, [bndZero])

/-- qtopk (R106). -/
def topkRes (b : QBlk) (q : List Byte) (l : List QRow) : List Byte × List Bnd :=
  let score (r : QRow) : Nat × Bnd :=
    if b.byValue then ((convFloat .f32 .rne false (fval b.t (rowElem r.2.1 b.t.bits b.vcol))).bits, bndZero)
    else let a := floatDot b.t b.skip q r.2.1 b.d; (a.result, a.bound)
  let all := (l.map (fun r => (r.1, score r))).filter (fun x => !(f32Val x.2.1).isNan)
  -- insertion in order of descending score, equal scores in row order
  let sorted := all.foldl (fun acc x =>
    let ahead := acc.takeWhile (fun y => !ieeeLt (f32Val y.2.1) (f32Val x.2.1))
    (ahead ++ x :: acc.drop ahead.length).take b.k) []
  let full := sorted ++ List.replicate (b.k - sorted.length) (0xFFFFFFFF, 0xFF800000, none)
  ((full.map (fun x => leBytes 4 x.2.1 ++ leBytes 4 x.1)).flatten,
   full.map (fun x => if (f32Val x.2.1).isFin then x.2.2 else none))

/-- One head of qattn over the rows of each sub-command, and the largest bound among its scores (R107, R110). -/
def attnHead (b : QBlk) (tag : Nat) (q : List Byte) (parts : List (List QRow)) : Head × Bnd :=
  let run (l : List QRow) : Head × Bnd :=
    l.foldl (fun (x : Head × Bnd) r =>
      let a := floatDot b.t false q r.2.1 b.d
      (x.1.step (tag + 2 * r.1) a.result none ((List.range b.d).map (fun i => EV.ofBits b.t (rowElem r.2.2 b.t.bits i))), Bound.max x.2 a.bound))
      (Head.start b.d, bndZero)
  match parts with
  | [] => (Head.start b.d, bndZero)
  | p :: rest =>
    rest.zipIdx.foldl (fun (x : Head × Bnd) p =>
      let (h, be) := run p.1
      let y := (x.1.step (tag + 2 * b.rows + 2 * p.2) h.m (some h.l) (h.o.map EV.f32)).joinBounds h
      (y, Bound.max x.2 be)) (run p)

/-- qattn's reply of one head. -/
def attnRes (b : QBlk) (tag : Nat) (q : List Byte) (parts : List (List QRow)) : List Byte × List Bnd :=
  let (h, beta) := attnHead b tag q parts
  (leBytes 4 h.m ++ leBytes 4 h.l ++ (h.o.map (leBytes 4)).flatten,
   [if (f32Val h.m).isFin then bndTimes (some ⟨2, 0⟩) beta else none, headBound h.l h.lR h.lP h.lT beta]
     ++ (h.o.zip h.oB).map (fun x => headBound x.1 x.2.1 x.2.2 x.2.2 beta))

/-- Results of a read-only query from its rows, grouped by sub-command (R104 to R107); `tag` numbers its exp2 draws. -/
def queryRes (fn : Nat) (b : QBlk) (tag : Nat) (vec : List Byte) (parts : List (List QRow)) : List Byte × List Bnd :=
  let rows := parts.flatten
  let hit := rows.filter (fun r => matchesRow b r.2.1)
  let v (h : Nat) : List Byte := (vec.drop (h * b.rlen)).take b.rlen
  match fn with
  | 2 =>
    let l := (rows.map (fun r => (List.range b.nq).map (fun h => dotRes b (v h) r.2.1))).flatten
    ((l.map (·.1)).flatten, l.map (·.2))
  | 3 =>
    let l := (List.range b.vcols).map (fun c => fsumRes b hit (b.vcol + c))
    ((l.map (·.1)).flatten, l.map (·.2))
  | 4 => (leBytes 8 hit.length, [])
  | 5 => maxiRes b hit
  | 6 => topkRes b (v 0) hit
  | _ =>
    let l := (List.range b.nq).map (fun h => attnRes b (tag + 4096 * h) (v h) parts)
    ((l.map (·.1)).flatten, (l.map (·.2)).flatten)

/-- A reply with its bound words (R99). -/
def withBounds (bnd : Bool) (r : List Byte × List Bnd) : List Byte :=
  if bnd then r.1 ++ List.replicate ((4 - r.1.length % 4) % 4) 0 ++ (r.2.map (fun x => leBytes 4 (Bound.toBits x).toNat)).flatten else r.1

/-! ## Finishing -/

/-- Writes a reply as an engine write, granules poisoned where asked (R99, R341); granules that have left the context's
allocations are not written. -/
def landReply (s : State) (k : CoreId) (al : List Alloc) (a : Nat) (bs : List Byte) (bad : Nat → Bool) (full crit : Bool) : State :=
  if !rangeInAllocs al a bs.length then s
  else
    s.modCore k (fun c =>
      let c := c.spadWrite a bs
      let gs := granulesOf a bs.length
      let c := gs.foldl (fun c g => c.setFull g full) c
      let c := { c with spadPoison := (gs.filter bad).foldl NatSet.add c.spadPoison }
      c.noteWake crit)

/-- Element e of a row lies in a 16-byte unit of the row. -/
def QBlk.holds (b : QBlk) (u e : Nat) : Bool :=
  decide (128 * u < (e + 1) * b.t.bits) && decide (e * b.t.bits < 128 * u + 128)
/-- A result of a query depends on an element of a poisoned unit: for qdot the result of row r and vector h, for qfsum the sum of a
column, else any of its results (R102, R104 to R108). A row that the predicate leaves out brings no dependence but its predicate
column's. -/
def depends (q : QueryRun) (b : QBlk) (rows : List QRow) (r h : Nat) (x : Nat × Nat) : Bool :=
  let vec (i : Nat) : List Byte := (q.vec.drop (i * b.rlen)).take b.rlen
  let used (i : Nat) : Bool := !b.skip || (List.range b.d).any (fun e => b.holds x.2 e && !(fval b.t (rowElem (vec i) b.t.bits e)).isZero)
  let pred := hasPredicate q.fn && b.pcmp != 0 && b.holds x.2 b.kcol
  let hit := match rows.find? (fun y => y.1 == x.1) with | some y => matchesRow b y.2.1 | none => false
  match q.fn with
  | 2 => x.1 == r && (b.intView || used h)
  | 3 => pred || (hit && b.holds x.2 (b.vcol + h))
  | 4 => pred
  | 5 => pred || (hit && b.holds x.2 b.vcol)
  | 6 => pred || (hit && (if b.byValue then b.holds x.2 b.vcol else used 0))
  | 8 => decide (b.rlen / 128 - 1 ≤ x.2 / 8)
  | _ => true

/-- Granules of a reply that hold any result that depends on poison (R341). -/
def badGranule (q : QueryRun) (b : QBlk) (rows : List QRow) (g : Nat) : Bool :=
  let w := b.w q.fn
  let y0 := (b.y0 q.fn + 3) / 4 * 4
  let meets (lo n : Nat) : Bool := decide (q.reply + lo < 16 * g + 16) && decide (16 * g < q.reply + lo + n)
  let at_ (i : Nat) : Bool := meets (i * w) w || (q.fl.bnd && !b.intView && meets (y0 + 4 * i) 4)
  q.bad.any (fun x =>
    match q.fn with
    | 2 => (List.range b.nq).any (fun h => at_ (x.1 * b.nq + h) && depends q b rows x.1 h x)
    | 3 => (List.range b.vcols).any (fun c => at_ c && depends q b rows 0 c x)
    | _ => depends q b rows 0 0 x)

/-- qupd's reply (R108, R110). -/
def updReply (q : QueryRun) : List Byte :=
  leBytes 8 q.ss.toNat ++ leBytes 8 q.nf.toNat
    ++ (if q.fl.bnd then leBytes 4 (Bound.toBits (if (fval .f64 q.ss.toNat).isFin then some ⟨q.ssBound, -1075⟩ else none)).toNat else [])

/-- An atomic add of 1 to a query counter, or none when its page is absent and has been asked for (R98, R332); with `force` such an
addition is owed, and made when the page has come. -/
def queryCount (s : State) (k : CoreId) (rq : XReq) (ctr : Option Word) (crit force : Bool) : State × Bool :=
  match ctr with
  | none => (s, true)
  | some va =>
    match translate s (.scalar k) rq .atomic va true with
    | (s, .error (.absent p)) =>
      if (s.part rq.part).refusing = some p then (s, true)
      else
        let s := requestPage s rq.part p
        if force then ({ s with disp := { s.disp with owed := s.disp.owed ++ [⟨rq.part, rq.asn, rq.priv, va, crit, none⟩] } }, true) else (s, false)
    | (s, .error _) => (s, true)
    | (s, .ok (t, _)) => ((addAt s t 1).noteCounterWake crit, true)

/-- A query counter's page is there, or has been asked for (R332). -/
def counterReady (s : State) (k : CoreId) (rq : XReq) (ctr : Option Word) : State × Bool :=
  match ctr with
  | none => (s, true)
  | some va =>
    match translate s (.scalar k) rq .atomic va true with
    | (s, .error (.absent p)) => if (s.part rq.part).refusing = some p then (s, true) else (requestPage s rq.part p, false)
    | (s, _) => (s, true)

/-- Replaces a query. -/
def State.setQuery (s : State) (q : QueryRun) : State := { s with queries := s.queries.map (fun x => if x.id = q.id then q else x) }

/-- Rows of sub-command i of a query: first and one past the last, of the whole query's numbering. -/
def QBlk.rowsOf (b : QBlk) (i : Nat) : Nat × Nat := ((b.pagesOf b.base).getD i (0, 0, 0)).2

/-- Reads the rows of a read-only sub-command: K bytes of every row, then V bytes. -/
def readRows (s : State) (q : QueryRun) (b : QBlk) (i : Nat) (c : SubCmd) : State × QueryRun :=
  let (lo, hi) := b.rowsOf i
  let rs := (List.range (hi - lo)).map (· + lo)
  let ka (r : Nat) : Nat := b.rowAddr b.base r c.stack c.frame
  let va (r : Nat) : Nat :=
    let pg := (b.aux1 + r * b.stride) / qPageSize
    match c.vals.find? (fun x => x.1 == pg) with | some x => b.rowAddr b.aux1 r x.2.1 x.2.2 | none => 0
  let ks := (rs.map (fun r => Mem.bytes s.qmem (ka r) b.rlen)).flatten
  let vs := if q.fn = 7 then (rs.map (fun r => Mem.bytes s.qmem (va r) b.rlen)).flatten else []
  let bad := (rs.map (fun r => (badUnits s (ka r) b.rlen).map (fun u => (r, u))
    ++ (if q.fn = 7 then (badUnits s (va r) b.rlen).map (fun u => (r, 2 ^ 32 + u)) else []))).flatten
  (s, { q with read := q.read ++ [(i, ks ++ vs)], bad := q.bad ++ bad })

/-- The rows that finished sub-commands read, grouped by sub-command in ascending order. -/
def QueryRun.gathered (q : QueryRun) (b : QBlk) : List (List QRow) :=
  (List.range q.total).map (fun i =>
    let (lo, hi) := b.rowsOf i
    let bs := match q.read.find? (fun x => x.1 == i) with | some x => x.2 | none => []
    (List.range (hi - lo)).map (fun r =>
      (lo + r, (bs.drop (r * b.rlen)).take b.rlen, if q.fn = 7 then (bs.drop ((hi - lo + r) * b.rlen)).take b.rlen else [])))

/-- The effect of sub-command i (numbered in the whole query) of an accepted query (R98, R100). -/
def runSub (s : State) (q : QueryRun) (i : Nat) (c : SubCmd) : State × QueryRun :=
  let b := QBlk.ofBits q.block
  if modifies q.fn then
    let (lo, hi) := b.rowsOf i
    (List.range (hi - lo)).foldl (fun (x : State × QueryRun) r =>
      modifyRow x.1 x.2 b (lo + r) (b.rowAddr b.base (lo + r) c.stack c.frame)) (s, q)
  else readRows s q b i c

/-- A reply's bytes land (R98, R99): F with the final one, E with one that a stop or a fault leaves (R108). -/
def landQuery (s : State) (q : QueryRun) (full : Bool) : State :=
  let b := QBlk.ofBits q.block
  if q.fn ≤ 1 then s
  else if q.fn = 8 then landReply s q.core (q.allocs s) q.reply (updReply q) (badGranule q b []) full q.crit
  else
    let (n, s) := s.draw
    let parts := q.gathered b
    landReply s q.core (q.allocs s) q.reply (withBounds q.fl.bnd (queryRes q.fn b (n * 2 ^ 40) q.vec parts)) (badGranule q b parts.flatten) full
      q.crit

/-- An acquire holds a query back until the thread's earlier queries with a release have ended (R170, R174). -/
def acquireHolds (s : State) (q : QueryRun) : Bool :=
  q.fl.acq && s.queries.any (fun x => decide (x.id < q.id) && x.part == q.part && x.ctx == q.ctx && x.fl.rel)

/-- Completes the j-th sub-command of a query: effect, counter, and the reply with the last (R98). qupd's sub-commands complete
in ascending order (R108). With `force` an absent counter page does not hold the completion back. -/
def completeSub (s : State) (q : QueryRun) (j : Nat) (force : Bool) : State :=
  match q.subs[j]? with
  | none => s
  | some c =>
    if c.done || (q.fn = 8 && (q.subs.take j).any (fun x => !x.done)) || acquireHolds s q then s
    else
      match (if force then (s, true) else counterReady s q.core q.rq q.counter) with
      | (s, false) => s
      | (s, true) =>
        let (s, q) := runSub s q (q.first + j) c
        let q := { q with subs := q.subs.set j { c with done := true } }
        let last := !q.more && q.subs.all (fun x => x.done)
        let s := if last then landQuery s q true else s
        let s := (queryCount s q.core q.rq q.counter q.crit true).1
        let s := s.modCore q.core (fun c => c.count 9 q.tid 1)
        if last then { s with queries := s.queries.filter (fun x => x.id != q.id) } else s.setQuery q

/-- A sub-command completes (R98). -/
def execQuerySubcommandComplete (q : Nat) (sub : Nat) (s : State) : Out :=
  match s.queries.find? (fun x => x.id == q) with
  | none => .next s
  | some x => .next (completeSub s x sub false)

/-- Every accepted sub-command of a query completes. -/
def completeQuery (s : State) (id : Nat) : State :=
  match s.queries.find? (fun x => x.id == id) with
  | none => s
  | some q =>
    (List.range q.subs.length).foldl (fun s j =>
      match s.queries.find? (fun x => x.id == id) with | some q => completeSub s q j true | none => s) s

/-- The query of thread t of core k that is still accepting sub-commands (R100). -/
def State.accepting (s : State) (k : CoreId) (t : Tid) : Option QueryRun :=
  s.queries.find? (fun q => q.core == k && q.tid == t && q.more)
/-- A stop or a fault ends the acceptance of a query: the sub-commands accepted complete, with those that a release orders before
them, and a qupd's reply so far lands (R100, R108, R116). -/
def closeQuery (s : State) (k : CoreId) (t : Tid) : State :=
  match s.accepting k t with
  | none => s
  | some q =>
    let s := (s.queries.filter (fun x => decide (x.id ≤ q.id) && x.part == q.part && x.ctx == q.ctx && (x.id == q.id || q.fl.acq))).foldl
      (fun s x => completeQuery s x.id) s
    match s.queries.find? (fun x => x.id == q.id) with
    | none => s
    | some q =>
      let s := if q.subs.isEmpty then s else landQuery s q false
      { s with queries := s.queries.filter (fun x => x.id != q.id) }

/-- The threads of core k stop for a switch or a debug halt: an acceptance under way ends (R100). -/
def closeQueries (s : State) (k : CoreId) : State := closeQuery (closeQuery s k 0) k 1

/-! ## Issue (R93, R96, R98, R116) -/

/-- A query-shape fault (R96). -/
def shapeTrap (reason : Nat) : Trap := mkTrap 0x09 (BitVec.ofNat 64 reason) 0

/-- Check 3 of R96 on one area. -/
def areaTrapQ (s : State) (a : Word) (n : Nat) : Option Trap :=
  match placeTrap a n 16 with
  | some t => some t
  | none => if n != 0 && !rangeInAllocs s.curAllocs a.toNat n then some (shapeTrap 9) else none

/-- Translates an area for stores through a unit, piece by piece of at most 4 KiB: the pages used, or the failure. -/
def areaPages (s : State) (u : XUnit) (rq : XReq) (acc : AccKind) (hostOk : Bool) (used : List UsedPage) (va : Nat) : Nat → Nat →
    State × Except (XFail × Word) (List UsedPage)
  | 0, _ => (s, .ok used)
  | fuel + 1, n =>
    if n = 0 then (s, .ok used)
    else
      let w := BitVec.ofNat 64 va
      let step := min n (4096 - va % 4096)
      match translate s u rq acc w hostOk with
      | (s, .error f) => (s, .error (f, w))
      | (s, .ok (.window _ _, _)) => (s, .error (.access, w))
      | (s, .ok (_, lf)) =>
        let vpn := bitsOf va 16 41
        let used := if used.any (fun p => p.vpn == vpn) then used else used ++ [⟨vpn, lf, false, false⟩]
        areaPages s u rq acc hostOk used (va + step) fuel (n - step)

/-- The counter's checks (R96 check 4). -/
def counterCheck (s : State) (b : SReg) (k : State → Out) : Out :=
  let va := s.sreg b
  if b = 0 then k s
  else if !canonical va then raise s 0x0C va 0
  else if va.toNat % 8 != 0 then raise s 0x03 va 0
  else match translate s (.scalar s.curCore) s.curReq .store va true with
    | (s, .error f) => scalarFail s .store va f
    | (s, .ok (.window _ _, _)) => raise s 0x04 va 0
    | (s, .ok _) => k s

/-- Reads a 64-byte block as check 1 of R96 places it. -/
def withQBlock (a : SReg) (s : State) (k : State → BitVec 512 → Out) : Out :=
  let addr := s.sreg a
  match placeTrap addr 64 64 with
  | some t => .next (s.trap t)
  | none =>
    let (s', bs, _) := s.guardRead addr.toNat 64
    k s' (BitVec.ofNat 512 (leNat bs))

/-- Kind byte of a query page fault (R115). -/
def queryKind (fn : Nat) : Nat := if fn ≤ 1 then 1 else if fn = 8 then 2 else if fn ≥ 9 then 3 else 0

/-- A query page fault (R115): the faulted sub-commands with their pages. -/
def queryPageFault (s : State) (fn : Nat) (bad : List (Nat × Nat × Nat × Nat)) (stop : Bool) : State :=
  batchFault s 0x0A (queryKind fn)
    (bad.map (fun x => ⟨BitVec.ofNat 64 (x.2.1 * qPageSize), x.1, x.2.2.1, x.2.2.2⟩)) false 0 bad.length stop false

/-- An export or image area in generic memory: checked over its whole extent as R81 checks a store, aligned, never on a host page
(R37, R96, R117). A page fault is a query page fault that lists the area's page (R115; log 45). -/
def exportCheck (s : State) (fn a n align : Nat) (acc : AccKind) (k : State → List UsedPage → Out) : Out :=
  let w := BitVec.ofNat 64 a
  let x : Int := signedOf 64 a
  if !canonInt x || !canonInt (x + n - 1) then raise s 0x0C w 0
  else if a % align != 0 then raise s 0x03 w 0
  else match areaPages s (.engine s.curCore) s.curReq acc false [] (wrapInt 64 x) (n / 4096 + 2) n with
    | (s, .error (.page r l, va)) => .next (batchFault s 0x0A (queryKind fn) [⟨pageAddr va, 0, r, l⟩] false 0 1 false false)
    | (s, .error (f, va)) => scalarFail s acc va f
    | (s, .ok l) => k s l

/-- The query with the sub-commands accepted so far. -/
def QueryRun.accept (q : QueryRun) (l : List SubCmd) (more : Bool) : QueryRun := { q with subs := q.subs ++ l, more := more }

/-- The current thread's query accepts sub-commands (R98, R115, R116): a read-only one all of them at once, or none where one faults;
a modifying one its next, or all in a row while the core is stepped, so that a stop may come between two of them (R100). The query
is one that the queue does not hold yet, or the one that is still accepting. -/
def acceptSubs (s : State) (q : QueryRun) : Out :=
  let b := QBlk.ofBits q.block
  let done := q.first + q.subs.length
  let queue (s : State) (q : QueryRun) : State := { s with queries := s.queries.filter (fun x => x.id != q.id) ++ [q] }
  let (s, res) := translateSubs s q.rq q.fn b ((b.pagesOf b.base).drop done)
  let bad := res.zipIdx.filterMap (fun p => match p.1 with | .error (pg, r, w) => some (done + p.2, pg, r, w) | .ok _ => none)
  let oks := (res.takeWhile (fun r => r.isOk)).filterMap (fun r => match r with | .ok c => some c | .error _ => none)
  let retire (s : State) : Out := .next (s.modCur (fun t => { t with vstart := 0 })).advance
  if bad.isEmpty && q.subs.isEmpty && oks.isEmpty then retire s
  else if bad.isEmpty && (!modifies q.fn || s.curC.step || oks.length ≤ 1) then retire (queue s (q.accept oks false))
  else if !modifies q.fn then .next (queryPageFault (s.modCur (fun t => { t with vstart := 0 })) q.fn bad false)
  else
    let now := if s.curC.step then oks else oks.take 1
    let s := queue s (q.accept now true)
    let s := s.modCur (fun t => { t with vstart := BitVec.ofNat 12 (done + now.length) })
    if now.length < oks.length then .next s
    else if now.isEmpty || s.curC.step then
      -- the sub-commands below the fault complete first (R116)
      .next (queryPageFault (closeQuery s s.curCore s.curTid) q.fn bad (decide (0 < done + now.length)))
    else .next s

/-- Starts a query whose checks 1 to 4 have passed (R98). -/
def startQuery (fn : Nat) (b : SReg) (fl : QueryFlags) (blk : BitVec 512) (vec params : List Byte) (reply : Nat) (pages : List UsedPage)
    (s : State) : Out :=
  let q := QBlk.ofBits blk
  let total := (q.pagesOf q.base).length
  let first := if modifies fn then min s.cur.vstart.toNat total else 0
  let t := s.cur
  -- a reissued qupd adds into the reply already there (R108)
  let again := fn = 8 && first != 0
  let old (o n : Nat) : Nat := leNat (s.curC.spadRead (reply + o) n)
  let run : QueryRun :=
    { id := s.nextId, fn := fn, fl := fl, block := blk, vec := vec, params := params, counter := if b = 0 then none else some (s.sreg b)
      reply := reply, core := s.curCore, tid := s.curTid, part := s.curPart, asn := t.asnOf, ctx := t.ctxOf, launch := t.launchOf
      priv := t.priv, pages := pages, first := first, subs := [], total := total
      ss := if again then BitVec.ofNat 64 (old 0 8) else 0
      nf := if again then BitVec.ofNat 64 (old 8 8) else 0
      ssBound := if again && fl.bnd then
          (match Bound.ofBits (BitVec.ofNat 32 (old 16 4)) with | some d => (Dyadic.shl d.m (d.e + 1075)).toNat | none => 0) else 0
      read := [], bad := [], more := false, crit := t.cbit }
  acceptSubs { s with nextId := s.nextId + 1 } run

/-- A query of R97 at issue: the checks of R96 in order. -/
def issueQuery (fn : Nat) (a b c : SReg) (fl : QueryFlags) (s : State) : Out :=
  withQBlock a s (fun s blk =>
    let q := QBlk.ofBits blk
    match shapeFault fn q fl.bnd with
    | some r => .next (s.trap (shapeTrap r))
    | none =>
      let reply := if fn ≤ 1 then 0 else s.sreg c
      let vecLen := if fn ≤ 1 then q.rows * q.rlen else if q.readsVec fn then q.nq * q.rlen else 0
      let areas : List (Word × Nat) :=
        (if vecLen != 0 then [(BitVec.ofNat 64 q.vec, vecLen)] else []) ++ (if fn = 8 then [(BitVec.ofNat 64 q.aux2, 32)] else [])
          ++ (if fn ≤ 1 then [] else [(reply, q.y fn fl.bnd)])
      match areas.findSome? (fun x => areaTrapQ s x.1 x.2) with
      | some t => .next (s.trap t)
      | none =>
        counterCheck s b (fun s =>
          let go (s : State) (pages : List UsedPage) : Out :=
            let vec := if fn ≤ 1 then [] else s.curC.spadRead q.vec vecLen
            let params := if fn = 8 then s.curC.spadRead q.aux2 32 else []
            let bad := (fn ≥ 2 && vecLen != 0 && s.curC.spadPoisoned q.vec vecLen) || (fn = 8 && s.curC.spadPoisoned q.aux2 32)
            let s := if bad then s.poisonRead (coreBank s.curCore) else s
            startQuery fn b fl blk vec params reply.toNat pages s
          if q.x fn = 0 then go s [] else exportCheck s fn q.aux1 (q.x fn) 16 .store go))

/-- qwr (R103). -/
def execQwr (a b : SReg) (fl : QueryFlags) (s : State) : Out := issueQuery 0 a b 0 fl s
/-- qfold (R103). -/
def execQfold (a b : SReg) (fl : QueryFlags) (s : State) : Out := issueQuery 1 a b 0 fl s
/-- qdot (R104). -/
def execQdot (a b c : SReg) (fl : QueryFlags) (s : State) : Out := issueQuery 2 a b c fl s
/-- qfsum (R105). -/
def execQfsum (a b c : SReg) (fl : QueryFlags) (s : State) : Out := issueQuery 3 a b c fl s
/-- qcnt (R105). -/
def execQcnt (a b c : SReg) (fl : QueryFlags) (s : State) : Out := issueQuery 4 a b c fl s
/-- qmaxi (R105). -/
def execQmaxi (a b c : SReg) (fl : QueryFlags) (s : State) : Out := issueQuery 5 a b c fl s
/-- qtopk (R106). -/
def execQtopk (a b c : SReg) (fl : QueryFlags) (s : State) : Out := issueQuery 6 a b c fl s
/-- qattn (R107). -/
def execQattn (a b c : SReg) (fl : QueryFlags) (s : State) : Out := issueQuery 7 a b c fl s
/-- qupd (R108). -/
def execQupd (a b c : SReg) (fl : QueryFlags) (s : State) : Out := issueQuery 8 a b c fl s

end Sys2Proof.Machine
end

