-- ==== Sys2Proof/Machine/System.lean ====
section
/-!
DEFINITION. The SYS group but halt (spec 11 R211, 17 R309), trace records (19 R354), and the events of illegal words and
failed fetches (02 R16, 11 R199).
-/

namespace Sys2Proof.Machine

/-- svc (R211): tpc is the address that the end check selects. -/
def execSvc (s : State) : Out :=
  let s := s.advance
  .next (s.trapThr s.curCore s.curTid (mkTrap 0x14 0 0) s.cur.pc)

/-- The illegal-instruction trap of a tret with ppl 11: control goes to the handler, and the trap CSRs are unchanged (R309). -/
def Thread.refuseReturn (t : Thread) : Thread :=
  { t with loopOff := true, pc := sext64 57 (t.trapSet t.priv).tvec.toNat, wait := .none }

/-- tret (R309): a return with ppl 11 is an illegal instruction. -/
def execTret (s : State) : Out :=
  atKernel .tret s (fun s =>
    let lvl := s.cur.priv
    if (s.cur.trapSet lvl).ppl = 3 then .next (s.modCur Thread.refuseReturn)
    else .next (s.modCur (fun t => t.returnTrap lvl)))

/-- A running block stops between words; its thread stands at the vf (R188; log 30). -/
def Core.stopBlock (c : Core) : Core :=
  { c with vec := { c.vec with block := c.vec.block.map (fun b => { b with stopped := true }) } }

/-- An mfill that waits is given up, to be issued again (R312; log 53). -/
def MatUnit.giveUp (u : MatUnit) : MatUnit :=
  match u.filling with
  | some f => { u with filling := none, slots := u.slots.set f.slot { u.slots[f.slot] with fills := u.slots[f.slot].fills - 1 } }
  | none => u

/-- A core halts for debug: each thread at its pc and first unfinished element, a waiting instruction to be issued again; the trap
CSRs are unchanged (R312, R350). -/
def Core.debugHalt (c0 : Core) (cause : BitVec 3) : Core :=
  let c := c0.stopBlock
  { c with
    mat := c.mat.giveUp
    halted := true
    threads := c.threads.map (fun t =>
      { t with
        dpc := t.pc, delem := t.vstart.zeroExtend 64, dcause := cause, wait := .none, wakeC := none, idling := false }) }

/-- brk (R211): a breakpoint trap, or a debug halt when brkhalt is set (R348, R350). -/
def execBrk (s : State) : Out :=
  if s.curC.brkhalt then .next (s.modCurC (fun c => c.debugHalt 2)) else raise s 0x13 0 0

/-- idle (R211): nothing issues until an event clears it, and the thread then continues at pc + 4. -/
def execIdle (s : State) : Out :=
  atKernel .idle s (fun s => .next (s.modCur (fun t => { t with idling := true })).advance)

/-- fencei (R211): the words of the thread's blocks that are not running are fetched again when their vf resumes; the model holds no
other fetched words (log 20). -/
def execFencei (s : State) : Out :=
  let drop (b : Block) : Block := if b.tid == s.curTid && b.stopped then { b with words := [] } else b
  .next (s.modVec (fun v => { v with block := v.block.map drop, parked := v.parked.map drop })).advance

/-- The trace unit records for the thread: counter 7 holds event 14 and admits it, and the hypervisor has not claimed the
unit (R352, R353). -/
def Core.traces (c : Core) (t : Tid) : Bool :=
  c.counters[7].event = 14 && filterAdmits c.counters[7].filter t && c.trace = .guest

/-- Writes a trace record of thread t of core k (R354). -/
def traceRecord (s : State) (k : CoreId) (t : Tid) (kind : Nat) (value : Nat) : State :=
  let c := s.core k
  let th := c.threads[t]
  let slot := c.ring.seq.toNat % 2 ^ (c.ring.size + 6)
  let bs := leBytes 8 (s.coreTime k) ++ leBytes 8 th.pc.toNat ++ leBytes 8 value ++ leBytes 1 kind
    ++ leBytes 1 (t.val + (if th.cbit then 2 else 0)) ++ leBytes 2 th.ctxOf.toNat ++ leBytes 4 c.ring.seq.toNat
  let at_ := c.ring.base + 32 * slot
  let s := if at_ + 32 ≤ wmSize then tgtWrite s (.wm at_) bs else s
  s.modCore k (fun c => { c.count 13 t 1 with ring := { c.ring with seq := c.ring.seq + 1 } })

/-- mark (R211, R354). -/
def execMark (a : SReg) (s : State) : Out :=
  let s' := if s.curC.traces s.curTid then traceRecord s s.curCore s.curTid 1 (s.sreg a).toNat else s
  .next s'.advance

/-- Counter 6 has crossed a multiple of 2^(S + 10): the trace unit samples each thread with c = 1, and counts a suppressed
sample as event 12 (R352, R355). -/
def execCounterSample (k : CoreId) (s : State) : Out :=
  let one (s : State) (t : Tid) : State :=
    let th := s.thr k t
    if th.task.isNone || !(s.core k).traces t then s
    else if th.cbit then traceRecord s k t 2 th.vstart.toNat
    else s.modCore k (fun c => c.count 12 t 1)
  if (s.core k).counters[6].samples = 0 then .next s
  else
    let s := s.modCore k (fun c => { c with counters := c.counters.set 6 { c.counters[6] with samples := c.counters[6].samples - 1 } })
    .next (one (one s 0) 1)

/-- The word at an address, as the front end fetches it, or what the thread takes instead (R199; log 31 for a misaligned pc). -/
def fetchWord (s : State) (va : Word) : State × Except (State → Out) Word32 :=
  if !canonical va then (s, .error (fun s => raise s 0x0C va 0))
  else if va.toNat % 4 != 0 then (s, .error (fun s => raise s 0x03 va 0))
  else match translate s (.scalar s.curCore) s.curReq .fetch va false with
    | (s, .error f) => (s, .error (fun s => scalarFail s .fetch va f))
    | (s, .ok (t, _)) =>
      let (bs, bad) := tgtRead s t 4
      (if bad then s.poisonRead (tgtBank t) else s, .ok (BitVec.ofNat 32 (if bad then 0 else leNat bs)))

/-- The current thread meets a word that is illegal (R16, R17). -/
def execIllegalInstruction (w : Word32) (s : State) : Out := raise s 0x01 (w.zeroExtend 64) 0

/-- The fetch of the current thread's word failed: a record of kind 3, an access fault, or nothing when it now succeeds
(R199, R66). -/
def execInstructionFetchFault (s : State) : Out :=
  match fetchWord s s.cur.pc with
  | (s, .error k) => k s
  | (s, .ok _) => .next s

end Sys2Proof.Machine
end

