-- ==== Sys2Proof/Machine/Debug.lean ====
section
/-!
DEFINITION. The marionette, triggers and hypervisor claims (spec 19 R347 to R350, R353).
-/

namespace Sys2Proof.Machine

/-! ## Claims of counters and trace units (R353) -/

/-- Hands a holder to the hypervisor. -/
def claimBank (c : Core) : Core :=
  { c with
    counters := if c.bank = .guest then c.counters.map (fun x => { x with displaced := true }) else c.counters
    bank := .hyper }
/-- Gives the bank back to the guest whose configuration it holds. -/
def releaseBank (c : Core) : Core :=
  if c.bank != .hyper then c
  else { c with bank := if c.counters.toList.any (fun x => x.event != 0) then .guest else .free }
/-- Gives the trace unit back. -/
def releaseTrace (c : Core) : Core :=
  if c.trace != .hyper then c else { c with trace := if c.counters[7].event = 14 then .guest else .free }

/-- A hypervisor claim (R353). -/
def execHypervisorClaim (k : CoreId) (bank trace : Bool) (s : State) : Out :=
  .next (s.modCore k (fun c =>
    let c := if bank then claimBank c else c
    if trace then { c with trace := .hyper } else c))
/-- A hypervisor release (R353). -/
def execHypervisorRelease (k : CoreId) (bank trace : Bool) (s : State) : Out :=
  .next (s.modCore k (fun c =>
    let c := if bank then releaseBank c else c
    if trace then releaseTrace c else c))

/-! ## Halting and resuming (R348, R350) -/

/-- Debug of the core's partition is enabled (R347). -/
def debugOn (s : State) (k : CoreId) : Bool := (s.part (s.corePart k)).debugOn
/-- Sets cmderr (R348). -/
def setCmderr (s : State) (e : Fin 8) : State := { s with dbg := { s.dbg with cmderr := e } }

/-- A halt request (R348, R350). -/
def execDebugHaltRequest (k : CoreId) (s : State) : Out :=
  if !debugOn s k then .next (setCmderr s 2)
  else if (s.core k).halted then .next s
  else .next ((closeQueries s k).modCore k (fun c => c.debugHalt 1))
/-- A resume request: each thread continues at dpc (R350); a repeat frame whose address was moved is captured again. -/
def execDebugResumeRequest (k : CoreId) (s : State) : Out :=
  if !debugOn s k then .next (setCmderr s 2)
  else if !(s.core k).halted then .next s
  else .next (s.modCore k (fun c => { c with halted := false, threads := c.threads.map (fun t =>
    { t with pc := t.dpc, frame := if t.pc = t.dpc then t.frame else [] }) }))

/-- A trigger matches the instruction at a thread's pc: at its first unfinished element when element match is set; a thread
resumed from this very stop passes it once (R349, R350). -/
def triggerMatches (t : Thread) (x : Trigger) : Bool :=
  let elem := x.control.getLsbD 13
  x.control.getLsbD 0 && x.addr == t.pc && (!elem || bitsOf x.control.toNat 1 12 == t.vstart.toNat)
    && !(t.dcause = 3 && t.dpc == t.pc && (!elem || t.delem == t.vstart.zeroExtend 64))
/-- A trigger hit halts the core before the instruction (R350). -/
def execTriggerHit (k : CoreId) (t : Tid) (n : Fin 4) (s : State) : Out :=
  let c := s.core k
  if !c.halted && triggerMatches c.threads[t] c.triggers[n] then .next ((closeQueries s k).modCore k (fun c => c.debugHalt 3)) else .next s

/-! ## Abstract commands (R349) -/

/-- What a command gives: a new state, and an error code. -/
abbrev CmdRes := State × Fin 8

/-- Writes DDATA0. -/
def putData0 (s : State) (v : Word) : State := { s with dbg := { s.dbg with ddata := s.dbg.ddata.set 0 v } }
/-- DDATA n. -/
def data (s : State) (n : Fin 4) : Word := s.dbg.ddata[n]
/-- The command's argument. -/
def cmdArg (s : State) : Nat := bitsOf s.dbg.dcmd.toNat 0 22
/-- The command writes. -/
def cmdWrite (s : State) : Bool := s.dbg.dcmd.getLsbD 23
/-- The command advances. -/
def cmdPost (s : State) : Bool := s.dbg.dcmd.getLsbD 22
/-- Advances DADDR by n when asked. -/
def postAddr (s : State) (n : Nat) : State :=
  if cmdPost s then { s with dbg := { s.dbg with daddr := s.dbg.daddr + BitVec.ofNat 64 n } } else s
/-- Advances the argument by n when asked. -/
def postArg (s : State) (n : Nat) : State :=
  if cmdPost s then { s with dbg := { s.dbg with dcmd := s.dbg.dcmd + BitVec.ofNat 32 n } } else s

/-- Type 0: a register of the addressed thread. -/
def cmdRegister (s : State) (k : CoreId) (t : Tid) : CmdRes :=
  let a := cmdArg s
  let w := cmdWrite s
  let th := s.thr k t
  let v := data s 0
  let get (x : Word) (put : Thread → Thread) : CmdRes := if w then (s.modThr k t put, 0) else (putData0 s x, 0)
  if a < 0x1000 then
    if !csrExists (BitVec.ofNat 12 a) then (s, 6)
    else if !w then (putData0 s (csrRead s k t th.priv a), 0)
    else if (csrLevels a).2.isNone then (s, 6)
    else match csrWrite s k t th.priv a v with | some s' => (s', 0) | none => (s, 3)
  else if h : 0x1000 ≤ a ∧ a < 0x1020 then
    let r : SReg := ⟨a - 0x1000, by omega⟩
    get (th.sreg r) (fun x => x.setSreg r v)
  else if a = 0x2000 then get th.dpc (fun x => { x with dpc := v })
  else if a = 0x2001 then get th.delem (fun x => { x with delem := v })
  else if a = 0x2002 then get (th.dcause.zeroExtend 64) (fun x => { x with dcause := v.extractLsb' 0 3 })
  else if 0x2010 ≤ a && a < 0x2018 then
    let n := (a - 0x2010) / 2
    let x := ((s.core k).triggers.toList.getD n ⟨0, 0⟩)
    let ctl := (a - 0x2010) % 2 = 1
    let y := if ctl then { x with control := v.extractLsb' 0 14 } else { x with addr := v }
    if w then (s.modCore k (fun c => { c with triggers := c.triggers.setIfInBounds n y }), 0)
    else (putData0 s (if ctl then x.control.zeroExtend 64 else x.addr), 0)
  else if h : 0x3000 ≤ a ∧ a < 0x3020 then
    let n : VReg := ⟨a - 0x3000, by omega⟩
    if w then (s.modCore k (fun c => { c with vec := { c.vec with regs := c.vec.regs.set n { c.vec.regs[n] with tag := tagOfBytes v.toNat } } }), 0)
    else (putData0 s (BitVec.ofNat 64 (tagBytes (s.core k).vec.regs[n].tag)), 0)
  else (s, 6)

/-- The registers of the functions' windows, as a command reaches them at a privilege: read without a value, written with one; none
where the level may not make the access (R324). -/
abbrev Port := FuncId → Nat → Option Word → Priv → State → Option (State × Word)

/-- A memory access of a command at a target; a window takes aligned 8-byte accesses (R324). -/
def cmdAccess (port : Port) (s : State) (t : Tgt) (n : Nat) (pv : Priv) : Option CmdRes :=
  match t with
  | .window f off =>
    if n != 8 || off % 8 != 0 then none
    else match port f off (if cmdWrite s then some (data s 0) else none) pv s with
      | some (s', v) => some (postAddr (if cmdWrite s then s' else putData0 s' v) n, 0)
      | none => none
  | _ =>
    if cmdWrite s then some (postAddr (tgtWrite s t (leBytes n (data s 0).toNat)) n, 0)
    else
      let (bs, bad) := tgtRead s t n
      some (postAddr (putData0 s (BitVec.ofNat 64 (leNat bs))) n, if bad then 5 else 0)

/-- Type 1: memory, physical (host memory as the core's partition sees it) or through the thread's translation. A command that faults
changes nothing. -/
def cmdMemory (port : Port) (s : State) (k : CoreId) (t : Tid) : CmdRes :=
  let a := cmdArg s
  let n := 2 ^ (a % 4)
  let addr := s.dbg.daddr
  if a ≥ 8 then (s, 6)
  else if addr.toNat % n != 0 then (s, 3)
  else if a ≥ 4 then
    let p := addr.toNat
    if p + n ≤ wmSize then (cmdAccess port s (.wm p) n .hyper).getD (s, 3)
    else if hostBase ≤ p && p + n ≤ 2 * hostBase then (cmdAccess port s (.host (hostKey (s.corePart k) (p - hostBase))) n .hyper).getD (s, 3)
    else (s, 3)
  else if !(s.core k).halted then (s, 4)
  else if !canonical addr then (s, 3)
  else
    let th := s.thr k t
    match translate s (.scalar k) ⟨th.partOf (s.corePart k), th.asnOf, th.priv, th.ctxOf⟩ (if cmdWrite s then .store else .load) addr true with
    | (_, .error _) => (s, 3)
    | (s', .ok (tg, _)) => (cmdAccess port s' tg n th.priv).getD (s, 3)

/-- Type 2: 8 bytes of a vector or mask register. -/
def cmdElements (s : State) (k : CoreId) : CmdRes :=
  let a := cmdArg s
  let r := a % 64
  let u := bitsOf a 6 9
  let v := data s 0
  if a ≥ 2 ^ 15 then (s, 6)
  else if h : r < 32 then
    let n : VReg := ⟨r, h⟩
    if cmdWrite s then
      (postArg (s.modCore k (fun c => { c with vec := { c.vec with regs := c.vec.regs.set n (c.vec.regs[n].write 64 [(u, v.toNat)]) } })) 64, 0)
    else (postArg (putData0 s (BitVec.ofNat 64 (elemGet (s.core k).vec.regs[n].bits 64 u))) 64, 0)
  else if h : 32 ≤ r ∧ r < 48 then
    let m : MReg := ⟨r - 32, by omega⟩
    if u ≥ 64 then (s, 6)
    else
      let old := (s.core k).vec.masks[m].bits
      if cmdWrite s then
        let new := old ^^^ BitVec.ofNat 4096 (((bitsOf old.toNat (64 * u) 64) ^^^ v.toNat) * 2 ^ (64 * u))
        (postArg (s.modCore k (fun c => { c with vec := { c.vec with masks := c.vec.masks.set m ⟨new, true⟩ } })) 64, 0)
      else (postArg (putData0 s (BitVec.ofNat 64 (bitsOf old.toNat (64 * u) 64))) 64, 0)
  else (s, 6)

/-- Type 3: a scratchpad granule with its full-empty bit and poison (R42). -/
def cmdGranule (s : State) (k : CoreId) : CmdRes :=
  let a := s.dbg.daddr.toNat
  let c := s.core k
  if cmdArg s != 0 || a % 16 != 0 || a ≥ spadSize then (s, 6)
  else if cmdWrite s then
    (postAddr (s.modCore k (fun c => (c.spadWrite a (leBytes 8 (data s 0).toNat ++ leBytes 8 (data s 1).toNat)).setFull (a / 16) ((data s 2).getLsbD 0))) 16, 0)
  else
    let bs := c.spadRead a 16
    let bad := NatSet.has c.spadPoison (a / 16)
    let d := s.dbg.ddata
    let d := d.set 0 (BitVec.ofNat 64 (fieldAt bs 0 8))
    let d := d.set 1 (BitVec.ofNat 64 (fieldAt bs 8 8))
    let d := d.set 2 (BitVec.ofNat 64 ((if c.isFull (a / 16) then 1 else 0) + (if bad then 2 else 0)))
    (postAddr { s with dbg := { s.dbg with ddata := d } } 16, if bad then 5 else 0)

/-- Type 4: two elements of an accumulator row, or its side registers. -/
def cmdRow (s : State) (k : CoreId) : CmdRes :=
  let a := cmdArg s
  let p : Tile := ⟨a % 4, Nat.mod_lt _ (by decide)⟩
  let m := bitsOf a 2 7
  let x := bitsOf a 9 7
  let t := (s.core k).mat.tiles[p]
  let v := data s 0
  let lo := v.extractLsb' 0 32
  let hi := v.extractLsb' 32 32
  let put (f : TileSt → TileSt) : State := s.modCore k (fun c => { c with mat := { c.mat with tiles := c.mat.tiles.set p (f t) } })
  let pair (a b : Vector Word32 128) : Word := BitVec.ofNat 64 (((a[m]?).getD 0).toNat + ((b[m]?).getD 0).toNat * 2 ^ 32)
  if a ≥ 2 ^ 16 || x > 65 then (s, 6)
  else if cmdWrite s then
    let s' :=
      if x = 64 then put (fun t => { t with bound := t.bound.setIfInBounds m lo, max := t.max.setIfInBounds m hi })
      else if x = 65 then put (fun t => { t with sum := t.sum.setIfInBounds m lo, rescale := t.rescale.setIfInBounds m hi })
      else put (fun t =>
        let row := (t.rows[m]?).getD 0
        { t with rows := t.rows.setIfInBounds m (row ^^^ BitVec.ofNat 4096 ((bitsOf row.toNat (64 * x) 64 ^^^ v.toNat) * 2 ^ (64 * x))) })
    (postArg s' 512, 0)
  else
    let v := if x = 64 then pair t.bound t.max else if x = 65 then pair t.sum t.rescale
      else BitVec.ofNat 64 (bitsOf ((t.rows[m]?).getD 0).toNat (64 * x) 64)
    (postArg (putData0 s v) 512, 0)

/-- Runs the command in DCMD, with the windows as the port gives them (R347 to R349): only for a core whose partition has debug enabled, and a halted core where the table
asks for one. -/
def commandWith (port : Port) (s : State) : State :=
  if h : s.dbg.core.toNat < 384 then
    let k : CoreId := ⟨s.dbg.core.toNat, h⟩
    let ty := bitsOf s.dbg.dcmd.toNat 24 8
    let t := s.dbg.thread
    if !debugOn s k then setCmderr s 2
    else if ty != 1 && ty < 5 && !(s.core k).halted then setCmderr s 4
    else
      let r : CmdRes := match ty with
        | 0 => cmdRegister s k t
        | 1 => cmdMemory port s k t
        | 2 => cmdElements s k
        | 3 => cmdGranule s k
        | 4 => cmdRow s k
        | _ => (s, 6)
      if r.2 = 0 then r.1 else setCmderr r.1 r.2
  else setCmderr s 6

end Sys2Proof.Machine
end

