-- ==== Sys2Proof/Machine/Switch.lean ====
section
/-!
DEFINITION. Leaving a control thread (spec 17 R315 to R319): saving a context as a thread image, and a core as a full image.
-/

namespace Sys2Proof.Machine

/-! ## Acting for another thread -/

/-- Applies a change of the current thread to thread t of core k. -/
def State.asThread (s : State) (k : CoreId) (t : Tid) (f : State → State) : State :=
  { (f { s with curCore := k, curTid := t }) with curCore := s.curCore, curTid := s.curTid }

/-- Thread t of core k holds the lanes. -/
def State.holdsLanes (s : State) (k : CoreId) (t : Tid) : Bool := (s.core k).vec.holder == some t

/-! ## Vector and matrix state as a save keeps it -/

/-- Bytes below a mark are kept. -/
def keepBytes (b : VecBits) (n : Nat) : VecBits := b &&& BitVec.ofNat 32768 (2 ^ (8 * n) - 1)

/-- A register as a save and restore leave it: dirty, up to its high-water mark; else zero (R180). -/
def VecReg.saved (r : VecReg) : VecReg := { r with bits := if r.dirty then keepBytes r.bits r.vhw.toNat else 0 }
/-- A block as a save keeps it: stopped, its words and the order of its virtual processors left behind (R188). -/
def Block.saved (b : Block) : Block := { b with words := [], stopped := true, last := [] }
/-- Vector state as a save keeps it: what was fetched ahead of a binding is dropped (R141), the holder is named elsewhere. -/
def VecUnit.saved (v : VecUnit) : VecUnit :=
  { v with
    block := v.block.map Block.saved
    parked := v.parked.map Block.saved
    regs := v.regs.map VecReg.saved
    masks := v.masks.map (fun m => if m.dirty then m else { m with bits := 0 })
    binds := v.binds.map (fun o => o.map (fun b => { b with ahead := [] }))
    holder := none }

/-- A tile as a full image keeps it: the rows and columns within aext; its recipe is unusable (R283, R316). -/
def TileSt.saved (t : TileSt) : TileSt :=
  { t with
    rows := Vector.ofFn (fun (i : Fin 128) => if i.val < t.aext.mrows.toNat then t.rows[i] &&& BitVec.ofNat 4096 (2 ^ (32 * t.aext.ncols.toNat) - 1) else 0)
    recipe := [], lost := true }
/-- A slot as a full image keeps it: the data of a claimed slot, the scales of a scaled one (R316). -/
def SlotSt.saved (s : SlotSt) : SlotSt :=
  { s with
    data := if s.claimed then s.data else Vector.replicate 128 0
    trailer := if s.claimed && s.scaled then s.trailer else 0
    fills := 0 }
/-- The matrix unit as a full image keeps it (R315, R316); an mfill that waits is given up and issues again (log 53). -/
def MatUnit.saved (m : MatUnit) : MatUnit :=
  { m with tiles := m.tiles.map TileSt.saved, slots := m.slots.map SlotSt.saved, array := none, pendReissue := none, filling := none }

/-! ## Thread images -/

/-- What a thread holds when no task runs on it: its hardware counters and debug registers go on (R299, R351). -/
def Thread.vacated (t : Thread) : Thread :=
  { Thread.reset with scyc := t.scyc, vcyc := t.vcyc, mcyc := t.mcyc, astl := t.astl, dpc := t.dpc, delem := t.delem, dcause := t.dcause }

/-- What a switch ends of a thread: its wait and its idling (R211, R312), though the answer to a page request still reaches it (R332);
a repeat frame's words are captured again (R30). -/
def Thread.unissued (t : Thread) : Thread :=
  { t with
    asked := match t.wait with | .hostPage p _ => some p | _ => none
    wait := .none, wakeC := none, idling := false, frame := [], yieldDue := false }

/-- A thread's scalar and CSR state as an image holds it. -/
def Thread.saved (t : Thread) : Thread :=
  { t.unissued with
    sliceOver := false, since := 0, vecSaved := none, relPending := false, scyc := 0, vcyc := 0, mcyc := 0, astl := 0, dpc := 0, delem := 0, dcause := 0 }

/-- The lanes of core k are freed and every register dies (R187). -/
def State.freeLanesOf (s : State) (k : CoreId) (t : Tid) : State := s.asThread k t freeLanes

/-- Saves the context of thread t of core k as a thread image and vacates the thread (R315). A vrel still in the slip queue
has made the vector state dead. -/
def saveThread (s : State) (k : CoreId) (t : Tid) (ready prio : Nat) : State × ThreadImage :=
  let th := s.thr k t
  let holds := s.holdsLanes k t
  let (s, copies) := quiesceEntries s k (fun c => c.tid == t) false
  let vec : Option VecUnit :=
    if th.relPending then none else if holds then some (s.core k).vec.saved else th.vecSaved
  let s := dropCopies s k (fun c => c.tid == t)
  let s := if holds then s.freeLanesOf k t else s
  (s.modThr k t Thread.vacated, ⟨t, th.saved, vec, copies, ready, prio, []⟩)

/-- Thread images that a hamper holds: 1 MiB of 144 KiB each (R316, R318). -/
def hamperImages : Nat := 7

/-- Suspends the task of thread t of core k into the hamper, which has room (R315, R319). -/
def suspendThread (s : State) (k : CoreId) (t : Tid) (ready prio : Nat) : State :=
  let (s, i) := saveThread s k t ready prio
  s.modCore k (fun c => { c with hamper := { c.hamper with images := c.hamper.images ++ [i] } })

/-! ## Full images -/

/-- The physical cores of a partition, in logical order. -/
def coresOf (p : Part) : List CoreId := (List.range p.ncores.toNat).filterMap (fun i => p.physical i)

/-- Exchanges the context of core k into its hamper as a full image: issued matrix work has finished, the copy unit is quiesced,
and the units are left as at reset (R315, R318). -/
def haltCore (s : State) (k : CoreId) : State :=
  let s := if (s.core k).mat.pendReissue.isSome then (match execAutoReissue k s with | .next s' => s' | _ => s) else s
  let (s, copies) := quiesceEntries s k (fun _ => true) false
  let s := dropCopies s k (fun _ => true)
  s.modCore k (fun c =>
    let img : FullImage := ⟨c.threads.map Thread.unissued, { c.vec.saved with holder := c.vec.holder }, c.mat.saved, copies, []⟩
    { c with
      hamper := { c.hamper with full := some img }
      threads := c.threads.map Thread.vacated, vec := VecUnit.reset, mat := MatUnit.reset })

end Sys2Proof.Machine
end

