-- ==== Sys2Proof/Machine/Image.lean ====
section
/-!
DEFINITION. Thread images as bytes (spec 17 R316, R317): the layout that a move writes and reads. The packing within the areas
that R316 sizes but does not lay out is the model's choice (log 26).
-/

namespace Sys2Proof.Machine

/-- A field of a packed area: its bytes, how it is read off, how it is put back. -/
structure Fld (α : Type) where
  n : Nat
  get : α → Nat
  put : Nat → α → α

/-- The bytes of packed fields. -/
def packFlds {α : Type} (l : List (Fld α)) (x : α) : List Byte := (l.map (fun f => leBytes f.n (f.get x))).flatten
/-- Packed fields put back from bytes. -/
def unpackFlds {α : Type} (l : List (Fld α)) (bs : List Byte) (x : α) : α :=
  (l.foldl (fun (p : Nat × α) f => (p.1 + f.n, f.put (fieldAt bs p.1 f.n) p.2)) (0, x)).2

/-- A Bool as a number. -/
def bitNat (b : Bool) : Nat := if b then 1 else 0

/-! ## Thread CSRs (256 bytes); what a register reserves is dropped when it is put back (R213, R231, R306) -/

/-- A trap set: 52 bytes. -/
def trapFlds : List (Fld TrapSet) :=
  [⟨1, fun t => t.tcause.toNat, fun v t => { t with tcause := BitVec.ofNat 8 v }⟩,
   ⟨8, fun t => t.tpc.toNat, fun v t => { t with tpc := BitVec.ofNat 64 v }⟩,
   ⟨8, fun t => t.tval.toNat, fun v t => { t with tval := BitVec.ofNat 64 v }⟩,
   ⟨8, fun t => t.telem.toNat, fun v t => { t with telem := BitVec.ofNat 64 v }⟩,
   ⟨2, fun t => t.tvtype.toNat, fun v t => { t with tvtype := BitVec.ofNat 11 v }⟩,
   ⟨6, fun t => t.tstat.toNat, fun v t => { t.setTstat (BitVec.ofNat 64 v) with ctx := BitVec.ofNat 16 (v / 2 ^ 32) }⟩,
   ⟨8, fun t => t.tvec.toNat, fun v t => { t with tvec := BitVec.ofNat 64 v &&& 0x01FFFFFFFFFFFFFC#64 }⟩,
   ⟨8, fun t => t.tscratch.toNat, fun v t => { t with tscratch := BitVec.ofNat 64 v }⟩,
   ⟨3, fun t => t.tfbuf.toNat, fun v t => t.setTfbuf (BitVec.ofNat 64 v)⟩]

/-- Level CSR i. -/
def levelFld (i : Nat) : Fld Thread :=
  ⟨4, fun t => (t.levels.toList.getD i 0).toNat, fun v t => { t with levels := t.levels.setIfInBounds i (BitVec.ofNat 32 v) }⟩

/-- A latch record as a number, 0 for none (R257). -/
def latchNat (l : Option Latch) : Nat :=
  match l with
  | none => 0
  | some l => l.slot.val + bitNat l.pair * 16 + 32 + l.type.toNat * 2 ^ 8 + l.gen.toNat * 2 ^ 16 + l.gen2.toNat * 2 ^ 48 + l.kw % 2 ^ 16 * 2 ^ 80
      + l.nw % 2 ^ 16 * 2 ^ 96
/-- A latch record from its number. -/
def natLatch (v : Nat) : Option Latch :=
  if v.testBit 5 then
    some ⟨⟨v % 16, Nat.mod_lt _ (by decide)⟩, v.testBit 4, BitVec.ofNat 32 (v / 2 ^ 16), BitVec.ofNat 32 (v / 2 ^ 48), BitVec.ofNat 4 (v / 2 ^ 8),
      bitsOf v 80 16, bitsOf v 96 16⟩
  else none

/-- A privilege level of its code. -/
def privOfCode (c : Nat) : Priv := if c = 0 then .user else if c = 1 then .kernel else .hyper
/-- A pending re-issue's level, 3 for none. -/
def reissueCode (r : Option Priv) : Nat := match r with | some p => (privCode p).toNat | none => 3

/-- Per-thread state, in CSR-map order, then pc and mode. -/
def threadFlds : List (Fld Thread) :=
  [⟨2, fun t => t.vl.toNat, fun v t => { t with vl := BitVec.ofNat 13 v }⟩,
   ⟨2, fun t => t.vtype.toNat, fun v t => { t with vtype := vtypeFields (BitVec.ofNat 11 v) }⟩,
   ⟨2, fun t => t.vstart.toNat, fun v t => { t with vstart := BitVec.ofNat 12 v }⟩,
   ⟨6, fun t => t.vlive.toNat, fun v t => { t with vlive := BitVec.ofNat 48 v }⟩,
   ⟨8, fun t => t.lc.toNat, fun v t => { t with lc := BitVec.ofNat 64 v }⟩,
   ⟨8, fun t => t.ls.toNat, fun v t => { t with ls := BitVec.ofNat 64 v }⟩,
   ⟨8, fun t => t.le.toNat, fun v t => { t with le := BitVec.ofNat 64 v }⟩,
   ⟨8, fun t => t.spv.toNat, fun v t => { t with spv := BitVec.ofNat 64 v }⟩,
   ⟨1, fun t => t.spn.toNat, fun v t => { t with spn := BitVec.ofNat 2 v }⟩,
   ⟨2, fun t => t.rptst.toNat, fun v t => { t with rptst := BitVec.ofNat 64 v &&& 0x7FF#64 }⟩]
  ++ (List.range 8).map levelFld
  ++ trapFlds.map (fun f => ⟨f.n, fun t => f.get t.ktrap, fun v t => { t with ktrap := f.put v t.ktrap }⟩)
  ++ trapFlds.map (fun f => ⟨f.n, fun t => f.get t.htrap, fun v t => { t with htrap := f.put v t.htrap }⟩)
  ++ [⟨6, fun t => t.msh.toNat, fun v t => { t with msh := BitVec.ofNat 48 v }⟩,
   ⟨4, fun t => t.bthr.toNat, fun v t => { t with bthr := BitVec.ofNat 32 v }⟩,
   ⟨4, fun t => t.bthra.toNat, fun v t => { t with bthra := BitVec.ofNat 32 v }⟩,
   ⟨1, fun t => t.bmode.toNat, fun v t => { t with bmode := BitVec.ofNat 2 v }⟩,
   ⟨8, fun t => t.besc.toNat, fun v t => { t with besc := BitVec.ofNat 64 v }⟩,
   ⟨1, fun t => bitNat t.yreq, fun v t => { t with yreq := v.testBit 0 }⟩,
   ⟨1, fun t => t.frm.toNat, fun v t => { t with frm := BitVec.ofNat 3 v }⟩,
   ⟨1, fun t => t.fflags.toNat, fun v t => { t with fflags := BitVec.ofNat 5 v }⟩,
   ⟨1, fun t => t.fexc.toNat, fun v t => { t with fexc := BitVec.ofNat 5 v }⟩,
   ⟨1, fun t => bitNat t.vsat, fun v t => { t with vsat := v.testBit 0 }⟩,
   ⟨8, fun t => t.pc.toNat, fun v t => { t with pc := BitVec.ofNat 64 v }⟩,
   ⟨1, fun t => (privCode t.priv).toNat + bitNat t.loopOff * 4 + bitNat t.cbit * 8 + reissueCode t.reissue * 16,
     fun v t => { t with
       priv := privOfCode (v % 4), loopOff := v.testBit 2, cbit := v.testBit 3
       reissue := if bitsOf v 4 2 = 3 then none else some (privOfCode (bitsOf v 4 2)) }⟩,
   ⟨14, fun t => latchNat t.latch, fun v t => { t with latch := natLatch v }⟩]

/-- What is packed of the task and of the image, after the thread's fields. -/
def imageFlds : List (Fld ThreadImage) :=
  let task (n : Nat) (g : Task → Nat) (p : Nat → Task → Task) : Fld ThreadImage :=
    ⟨n, fun i => match i.thread.task with | some t => g t | none => 0,
      fun v i => { i with thread := { i.thread with task := i.thread.task.map (p v) } }⟩
  threadFlds.map (fun f => ⟨f.n, fun i => f.get i.thread, fun v i => { i with thread := f.put v i.thread }⟩)
  ++ [task 2 (fun t => t.asn.toNat) (fun v t => { t with asn := BitVec.ofNat 16 v }),
   task 2 (fun t => t.launch.toNat) (fun v t => { t with launch := BitVec.ofNat 16 v }),
   task 4 (fun t => t.node) (fun v t => { t with node := v }),
   ⟨8, fun i => i.ready, fun v i => { i with ready := v }⟩,
   ⟨1, fun i => i.prio, fun v i => { i with prio := v }⟩]

/-! ## Pending reports (256 bytes at 0x800) -/

/-- A list packed as its length and up to `cap` entries of `n` bytes. -/
def packList (cap n : Nat) (l : List Nat) : List Byte :=
  leBytes 1 (l.take cap).length ++ ((l.take cap).map (leBytes n)).flatten ++ List.replicate ((cap - (l.take cap).length) * n) 0
/-- A packed list at an offset. -/
def unpackList (bs : List Byte) (o cap n : Nat) : List Nat :=
  (List.range (min cap (fieldAt bs o 1))).map (fun i => fieldAt bs (o + 1 + i * n) n)

/-- Copy faults and arrivals that the report area holds (log 26). -/
def imageFaults : Nat := 16
/-- Arrivals that the report area holds. -/
def imageArrivals : Nat := 8
/-- Copy entries that their area holds (R316). -/
def imageEntries : Nat := 24

/-- Guard 15, bound 11, skew 9, checks by bank 16, copy faults 1 + 10 each, arrivals 1 + 5 each. A copy fault names its resume entry
in the copy area by index, 255 for none. -/
def packReports (t : Thread) (copies faults arrivals : Nat) : List Byte :=
  let guard := match t.guard with
    | some g => leBytes 1 1 ++ leBytes 8 g.pc.toNat ++ leBytes 4 g.addr ++ leBytes 2 g.count
    | none => List.replicate 15 0
  let bound := match t.boundRep with
    | some b => leBytes 1 1 ++ leBytes 8 b.pc.toNat
        ++ leBytes 1 (b.tile.val + bitNat b.reissued * 4 + bitNat b.unusable * 8 + bitNat b.poisoned * 16) ++ leBytes 1 b.row
    | none => List.replicate 11 0
  let skew := match t.skewFault with
    | some d => leBytes 1 1 ++ leBytes 8 (wrapInt 64 d)
    | none => List.replicate 9 0
  let checks := t.checks.foldl (fun n c => n ||| 2 ^ (c.1.val * 16 + c.2.val)) 0
  let withRes := (t.copyFaults.zipIdx).map (fun p =>
    p.1.tval.toNat + p.1.reason % 256 * 2 ^ 64
      + (if p.1.resume.isSome then copies + ((t.copyFaults.take p.2).filter (fun x => x.resume.isSome)).length else 255) * 2 ^ 72)
  guard ++ bound ++ skew ++ leBytes 16 checks ++ packList faults 10 withRes
    ++ packList arrivals 5 (t.arrivals.map (fun a => a.level.val + a.phase * 256))

/-- Pending reports put back; `entry` gives the faulted copies by index. -/
def unpackReports (bs : List Byte) (entry : Nat → Option SavedCopy) (t : Thread) : Thread :=
  { t with
    guard := if fieldAt bs 0 1 = 1 then some ⟨BitVec.ofNat 64 (fieldAt bs 1 8), fieldAt bs 9 4, fieldAt bs 13 2⟩ else none
    boundRep := if fieldAt bs 15 1 = 1 then
        let f := fieldAt bs 24 1
        some ⟨BitVec.ofNat 64 (fieldAt bs 16 8), ⟨f % 4, Nat.mod_lt _ (by decide)⟩, fieldAt bs 25 1, f.testBit 2, f.testBit 3, f.testBit 4⟩
      else none
    skewFault := if fieldAt bs 26 1 = 1 then some (signedOf 64 (fieldAt bs 27 8)) else none
    checks := ((List.range 128).filter (fun i => (fieldAt bs 35 16).testBit i)).map
      (fun v => (⟨v / 16 % 8, Nat.mod_lt _ (by decide)⟩, ⟨v % 16, Nat.mod_lt _ (by decide)⟩))
    copyFaults := (unpackList bs 51 imageFaults 10).map (fun v => ⟨BitVec.ofNat 64 v, bitsOf v 64 8, entry (bitsOf v 72 8)⟩)
    arrivals := (unpackList bs (52 + 10 * imageFaults) imageArrivals 5).map (fun v => ⟨⟨v % 8, Nat.mod_lt _ (by decide)⟩, v / 256⟩) }

/-! ## VP block state (2,560 bytes at 0x900) -/

/-- Where a virtual processor stands: its word, 32 once it has stopped. -/
def VpState.code (v : VpState) : Nat := if v.stopped then 32 else min 32 v.pos
/-- The places at which some virtual processor of a block stands. -/
def Block.places (b : Block) : List Nat := (List.range 33).filter (fun c => b.vps.any (fun v => v.code == c))
/-- Bytes for the virtual processors, beside 21 bytes of header and the captured registers (R188). -/
def imageVpBytes : Nat := 2291
/-- A stopped block: places, VL, VTYPE, mode, vf address, dying registers, captured registers, and each virtual processor's place
as a digit in the base of the places (R188, R316; log 26). -/
def packBlock (b : Block) : List Byte :=
  let l := b.places
  leBytes 7 (l.foldl (fun a c => a + 2 ^ c) 0 + b.vl * 2 ^ 33 + bitsOf b.vtype.toNat 3 8 * 2 ^ 46 + bitNat b.threaded * 2 ^ 54)
    ++ leBytes 8 b.pc.toNat ++ leBytes 6 b.dying.toNat
    ++ ((List.range 31).map (fun r => leBytes 8 (b.sregs.toList.getD (r + 1) 0).toNat)).flatten
    ++ leBytes imageVpBytes (b.vps.foldr (fun v a => a * l.length + l.findIdx (· == v.code)) 0)
/-- The block put back; its words are fetched again when its vf is issued. -/
def unpackBlock (bs : List Byte) (tid : Tid) : Block :=
  let h := fieldAt bs 0 7
  let vl := bitsOf h 33 13
  let l := (List.range 33).filter (fun c => h.testBit c)
  let v := fieldAt bs 269 imageVpBytes
  let place (j : Nat) : Nat := l.getD (v / l.length ^ j % l.length) 32
  { tid := tid, pc := BitVec.ofNat 64 (fieldAt bs 7 8), base := 0, words := [], writes := 0
    sregs := Vector.ofFn (fun (r : Fin 32) => if r.val = 0 then 0 else BitVec.ofNat 64 (fieldAt bs (21 + 8 * (r.val - 1)) 8))
    vl := vl, vtype := BitVec.ofNat 11 (bitsOf h 46 8 * 8)
    vps := (List.range vl).map (fun j => ⟨place j, place j == 32⟩)
    dying := BitVec.ofNat 48 (fieldAt bs 15 6), stopped := true
    threaded := h.testBit 54, last := [], passes := false }
/-- The block's virtual processors fit their area. -/
def Block.fits (b : Block) : Bool := decide (b.places.length ^ b.vps.length ≤ 2 ^ (8 * imageVpBytes))

/-! ## Copy entries (at 0x1300) -/

/-- A copy entry read back for a context. -/
def unpackEntry (s : State) (k : CoreId) (i : ThreadImage) (tid : Tid) (id : Nat) (e : List Byte) : SavedCopy :=
  let b := BitVec.ofNat 512 (leNat (e.take 64))
  let f := e.drop 64
  let j (d : Nat) : Nat := fieldAt f (4 * d) 4
  let next := j 0 + blkX b 0 * (j 1 + blkX b 1 * (j 2 + blkX b 2 * j 3))
  let fl := fieldAt f 36 1
  let bar := fieldAt f 32 4
  let ctr := fieldAt f 24 8
  let part := i.thread.partOf 0
  ⟨⟨id, b, ⟨fl.testBit 5, fl.testBit 4, scopeOfCode (bitsOf fl 1 3)⟩, if ctr = 0 then none else some (BitVec.ofNat 64 ctr),
     if bar = 0 then none else some bar, part, i.thread.asnOf, i.thread.priv, i.thread.ctxOf, tid, i.thread.launchOf, next, fieldAt f 16 8,
     if (blkFold b = 3 || blkFold b = 4) && next != 0 then [BitVec.ofNat 64 (fieldAt f 40 8)] else [],
     bar != 0 && ((s.core k).bar bar).size != 0, none, [], i.thread.cbit, [], none, none, none⟩,
   if fieldAt f 37 1 = 1 then some ⟨fieldAt f 38 1 % 8, Nat.mod_lt _ (by decide)⟩ else none, BitVec.ofNat 64 (fieldAt f 56 8)⟩

/-! ## Whole images -/

/-- Registers of an image's vector state, as numbers n with a predicate. -/
def dirtyRegs (v : VecUnit) : List VReg := (List.finRange 32).filter (fun n => v.regs[n].dirty)
/-- Dirty masks. -/
def dirtyMasks (v : VecUnit) : List MReg := (List.finRange 16).filter (fun n => v.masks[n].dirty)

/-- The header of an image (R317): kind, thread flags, contexts, partition, vector state, slots and scales present. -/
def imageHeader (s : State) (k : CoreId) (kind flags ctxs : Nat) (f : FuncId) (vec : VecUnit) (m : MatUnit) (slots : Nat) : List Byte :=
  leBytes 2 1 ++ leBytes 1 kind ++ leBytes 1 flags ++ leBytes 4 ctxs ++ leBytes 2 f.val ++ leBytes 6 0 ++ leBytes 8 (s.coreTime k)
    ++ leBytes 4 ((dirtyMasks vec).foldl (fun a m => a + 2 ^ m.val) 0
        + ((dirtyRegs vec).filter (fun n => n.val < 16)).foldl (fun a n => a + 2 ^ (16 + n.val)) 0)
    ++ leBytes 4 (((dirtyRegs vec).filter (fun n => 16 ≤ n.val)).foldl (fun a n => a + 2 ^ (n.val - 16)) 0)
    ++ leBytes 16 ((dirtyRegs vec).foldl (fun a n => a + (vec.regs[n].vhw.toNat + 255) / 256 % 16 * 2 ^ (4 * n.val)) 0)
    ++ leBytes 8 m.acownWord.toNat ++ (m.tiles.toList.map (fun t => leBytes 8 t.aext.word.toNat)).flatten
    ++ leBytes 4 slots ++ leBytes 164 0

/-- The scalar registers of a thread, as an image holds them (R316). -/
def sregArea (t : Thread) : List Byte := ((List.range 31).map (fun r => leBytes 8 (t.sregs.toList.getD (r + 1) 0).toNat)).flatten ++ leBytes 8 0
/-- The copy area (R141, R316): nothing without entries. -/
def entryArea (s : State) (k : CoreId) (entries : List (List Byte)) : List (Nat × List Byte) :=
  if entries.isEmpty then []
  else [(0x1300, leBytes 4 entries.length ++ leBytes 4 0 ++ leBytes 8 (s.coreTime k) ++ List.replicate 48 0 ++ entries.flatten)]
/-- The bytes of a register that are saved: up to its high-water mark, which the header gives in units of 256 bytes (R316, R317). -/
def VecReg.saved256 (r : VecReg) : List Byte :=
  r.byteRun 0 r.vhw.toNat ++ List.replicate ((256 - r.vhw.toNat % 256) % 256) 0
/-- The areas of the vector state (R316). -/
def vecArea (v : VecUnit) : List (Nat × List Byte) :=
  [(0x500, leBytes 512 v.faultMask.toNat),
   (0x700, ((List.finRange 32).map (fun n => leBytes 8 (tagBytes v.regs[n].tag))).flatten)]
  ++ (match v.block with | some b => [(0x900, packBlock b)] | none => [])
  ++ (dirtyMasks v).map (fun m => (0x2000 + 512 * m.val, leBytes 512 v.masks[m].bits.toNat))
  ++ (dirtyRegs v).map (fun n => (0x4000 + 4096 * n.val, v.regs[n].saved256))

/-- The copies and bindings of a thread image as entries, the copies that its reports name after them. -/
def ThreadImage.entries (i : ThreadImage) : List SavedCopy × List SavedCopy :=
  let binds : List SavedCopy := match i.vec with
    | some v => (List.finRange 8).filterMap (fun r => (v.binds[r]).map (fun b => bindEntry i.thread i.tid r b))
    | none => []
  (i.copies ++ binds, i.thread.copyFaults.filterMap (fun f => f.resume))
/-- What the image holds does not fit the areas that R316 gives it (log 26). -/
def ThreadImage.tooWide (i : ThreadImage) : Bool :=
  let (live, faulted) := i.entries
  decide (imageEntries < live.length + faulted.length) || decide (imageFaults < i.thread.copyFaults.length)
    || decide (imageArrivals < i.thread.arrivals.length)
    || (match i.vec with
      | some v => !v.parked.isEmpty || (match v.block with | some b => !b.fits | none => false)
      | none => false)

/-- The present parts of a thread image: offsets and bytes (R316); a byte after the packed fields says whether a block and copy
entries are present. -/
def imageParts (s : State) (k : CoreId) (i : ThreadImage) : List (Nat × List Byte) :=
  let t := i.thread
  let arrived (x : SavedCopy) : Nat := match x.cmd.barrier with | some b => ((s.core k).bar b).arrived | none => 0
  let (live, faulted) := i.entries
  let entries := (live.map (fun x => resumeEntry x 0 (arrived x)) ++ faulted.map (fun x => resumeEntry x 1 (arrived x))).take imageEntries
  [(0, imageHeader s k 2 (2 ^ i.tid.val + (if i.vec.isSome then 16 + 32 * i.tid.val else 0)) (t.ctxOf.toNat * 2 ^ (16 * i.tid.val)) (t.partOf 0)
      (i.vec.getD VecUnit.reset) (s.core k).mat 0),
   (0x100 + 0x100 * i.tid.val, sregArea t),
   (0x300 + 0x100 * i.tid.val, packFlds imageFlds i ++ leBytes 1
      (bitNat (match i.vec with | some v => v.block.isSome | none => false) + 2 * bitNat (!entries.isEmpty))),
   (0x800, packReports t live.length imageFaults imageArrivals)]
  ++ entryArea s k entries
  ++ (match i.vec with | some v => vecArea v | none => [])

/-- The present parts of a full image (R315 to R317): both threads, all units. The model keeps a full image as data, and no agent
reads these bytes; the report area gives each thread half (log 26). -/
def fullParts (s : State) (k : CoreId) (i : FullImage) : List (Nat × List Byte) :=
  let arrived (x : SavedCopy) : Nat := match x.cmd.barrier with | some b => ((s.core k).bar b).arrived | none => 0
  let ended (t : Tid) : Nat := if (i.threads[t]).task.isNone then 4 * 2 ^ t.val else 0
  let lanes : Nat := match i.vec.holder with | some t => 16 + 32 * t.val | none => 0
  let held := (List.finRange 16).filter (fun p => i.mat.slots[p].claimed)
  let scaled := held.filter (fun p => i.mat.slots[p].scaled)
  let t0 := i.threads[0]
  let t1 := i.threads[1]
  let word (f : TileSt → Fin 128 → Word32) (u : TileSt) : List Byte := ((List.finRange 128).map (fun m => leBytes 4 (f u m).toNat)).flatten
  let vec := if i.vec.holder.isSome then i.vec else VecUnit.reset
  [(0, imageHeader s k 1 (3 + ended 0 + ended 1 + lanes) (t0.ctxOf.toNat + t1.ctxOf.toNat * 0x10000)
      (if t0.task.isSome then t0.partOf 0 else t1.partOf 0) vec i.mat
      (held.foldl (fun a p => a + 2 ^ p.val) 0 + scaled.foldl (fun a p => a + 2 ^ (16 + p.val)) 0)),
   (0x100, sregArea t0), (0x200, sregArea t1), (0x300, packFlds threadFlds t0), (0x400, packFlds threadFlds t1),
   (0x800, packReports t0 0 4 7 ++ packReports t1 0 4 7)]
  ++ entryArea s k ((i.copies.map (fun x => resumeEntry x 0 (arrived x))).take imageEntries)
  ++ (if i.vec.holder.isSome then vecArea vec else [])
  ++ ((List.finRange 4).map (fun p =>
      let u := i.mat.tiles[p]
      (List.range (min 128 u.aext.mrows.toNat)).map (fun m =>
        (0x24000 + 0x10000 * p.val + 512 * m, leBytes (4 * min 128 u.aext.ncols.toNat) (u.rows.toList.getD m 0).toNat)))).flatten
  ++ (List.finRange 4).map (fun p =>
      let u := i.mat.tiles[p]
      (0x64000 + 2048 * p.val, word (fun u m => u.bound[m]) u ++ word (fun u m => u.max[m]) u ++ word (fun u m => u.sum[m]) u
        ++ word (fun u m => u.rescale[m]) u))
  ++ held.map (fun p => (0x66000 + 0x8000 * p.val, (i.mat.slots[p].data.toList.map (fun r => leBytes 256 r.toNat)).flatten))
  ++ scaled.map (fun p => (0xE6000 + 5120 * p.val, leBytes 5120 i.mat.slots[p].trailer.toNat))

/-- Bytes of a thread image's extent (R316). -/
def imageSize : Nat := 0x24000

/-- A thread image read back from its bytes, for a partition and context, when its header is one of this layout (R317). -/
def imageOf (s : State) (k : CoreId) (part : FuncId) (ctx : BitVec 16) (m : Memory) : Option ThreadImage :=
  let f (o n : Nat) : Nat := Mem.num m o n
  let flags := f 3 1
  let tid : Tid := if flags.testBit 1 then 1 else 0
  if f 0 2 != 1 || f 2 1 != 2 || flags.testBit 0 == flags.testBit 1 || bitsOf (f 4 4) (16 * tid.val) 16 != ctx.toNat || f 8 2 != part.val then none
  else
    let th : Thread := { Thread.reset with
      sregs := Vector.ofFn (fun (r : Fin 32) => if r.val = 0 then 0 else BitVec.ofNat 64 (f (0x100 + 0x100 * tid.val + 8 * (r.val - 1)) 8))
      task := some ⟨part, ctx, 0, 0, 0⟩ }
    let i := unpackFlds imageFlds (Mem.bytes m (0x300 + 0x100 * tid.val) 256) ⟨tid, th, none, [], 0, 0, []⟩
    let parts := f (0x300 + 0x100 * tid.val + (imageFlds.foldl (fun a x => a + x.n) 0)) 1
    let count := if parts.testBit 1 then min imageEntries (f 0x1300 4) else 0
    let raw := (List.range count).map (fun n => Mem.bytes m (0x1340 + 128 * n) 128)
    let entries := raw.zipIdx.map (fun p => (unpackEntry s k i tid (s.nextId + p.2) p.1, fieldAt p.1 103 1))
    let thread := unpackReports (Mem.bytes m 0x800 256) (fun n => (entries[n]?).map (fun e => e.1)) i.thread
    let present (n : VReg) : Bool := if n.val < 16 then (f 24 4).testBit (16 + n.val) else (f 28 4).testBit (n.val - 16)
    let tag (n : VReg) : VTag := tagOfBytes (f (0x700 + 8 * n.val) 8)
    let vec : Option VecUnit :=
      if flags.testBit 4 then
        some
          { regs := Vector.ofFn (fun n =>
              let u := bitsOf (f 32 16) (4 * n.val) 4
              let hw := if present n then (if u = 0 then 4096 else 256 * u) else 0
              ⟨if present n then BitVec.ofNat 32768 (f (0x4000 + 4096 * n.val) hw) else 0, tag n, 4096, BitVec.ofNat 13 hw, present n⟩)
            masks := Vector.ofFn (fun x =>
              let on := (f 24 4).testBit x.val
              ⟨if on then BitVec.ofNat 4096 (f (0x2000 + 512 * x.val) 512) else 0, on⟩)
            holder := none
            faultMask := BitVec.ofNat 4096 (f 0x500 512)
            binds := Vector.ofFn (fun r =>
              (entries.find? (fun e => e.1.bind == some r)).map (fun e =>
                let u := bitsOf (f 32 16) (4 * (24 + r.val)) 4
                ⟨e.1.cmd.block, part, thread.asnOf, thread.priv, e.1.cmd.next, [], tag ⟨24 + r.val, by omega⟩, 256 * u, false, []⟩))
            block := if !parts.testBit 0 then none else some (unpackBlock (Mem.bytes m 0x900 2560) tid)
            parked := [] }
      else none
    some { i with thread := thread, vec := vec, copies := (entries.filter (fun e => e.1.bind.isNone && e.2 = 0)).map (fun e => e.1) }

/-! ## Placing an image -/

/-- Poison lies in a present part of an image (R340, R341). -/
def badParts (bad : GSet) (l : List (Nat × List Byte)) : Bool :=
  bad.any (fun g => l.any (fun p => decide (16 * g < p.1 + p.2.length) && decide (p.1 < 16 * g + 16)))
/-- The context on thread t of core k comes from poisoned bytes: their bank names it, and it takes a contained check; what it holds
stays as it was saved (R341; log 68). -/
def State.imagePoison (s : State) (k : CoreId) (t : Tid) : State :=
  let e := coreError s k t .contained 2 0 0
  if (s.thr k t).task.isNone then s
  else (s.modBank e.die e.bank (fun b => b.log e s.time.toNat)).modThr k t (fun h => h.addCheck e.die e.bank)

/-- Copies join the unit of core k one after another, reading their sources anew (R151, R318). -/
def reenterCopies (s : State) (k : CoreId) (l : List CopyCmd) : State :=
  l.foldl (fun s c => let (s, c) := enterCopy s k c; s.modCore k (fun x => { x with copies := x.copies ++ [c] })) s
/-- Re-issues copy entries for a thread: as cpa.res does, in order (R318). -/
def reissueCopies (s : State) (k : CoreId) (t : Tid) (l : List SavedCopy) : State :=
  reenterCopies s k ((l.filter (fun x => x.bind.isNone)).map (fun x => { x.cmd with tid := t }))

/-- Places a thread image on thread t of core k; its vector state stays in the hamper until its first lane instruction (R315). -/
def placeImage (s : State) (k : CoreId) (t : Tid) (i : ThreadImage) : State :=
  let hit := badParts i.bad (imageParts s k i)
  let s := s.modThr k t (fun h =>
    { i.thread with
      scyc := h.scyc, vcyc := h.vcyc, mcyc := h.mcyc, astl := h.astl, dpc := h.dpc, delem := h.delem, dcause := h.dcause
      since := s.time.toNat, vecSaved := i.vec, asked := none })
  reissueCopies (if hit then s.imagePoison k t else s) k t i.copies

/-- Exchanges the full image of core k back (R318). -/
def resumeCore (s : State) (k : CoreId) : State :=
  match (s.core k).hamper.full with
  | none => s
  | some f =>
    let hit := badParts f.bad (fullParts s k f)
    let s := s.modCore k (fun c =>
      { c with
        hamper := { c.hamper with full := none }, threads := f.threads.map (fun t => { t with asked := none }), vec := f.vec, mat := f.mat })
    let s := if hit then (s.imagePoison k 0).imagePoison k 1 else s
    reenterCopies s k ((f.copies.filter (fun x => x.bind.isNone)).map (fun x => x.cmd))

end Sys2Proof.Machine
end

