-- ==== Sys2Proof/Machine/QPage.lean ====
section
/-!
DEFINITION. Page operations on query memory: migration and sealing (spec 06 R117 to R120, R365).
-/

namespace Sys2Proof.Machine

/-- Shape of a page operation's block (R117). -/
def pageShape (fn : Nat) (b : QBlk) : Option Nat :=
  let other := b.rlen != 0 || b.stride != 0 || b.etype != 0 || b.nq != 0 || b.k != 0 || b.qflags != 0 || b.vec != 0 || b.kcol != 0 || b.pcmp != 0
    || b.vcols != 0 || b.vcol != 0 || b.ucode != 0 || b.xfmt != 0 || b.pval != 0
  let dst := if fn = 9 then b.aux1 else b.aux2
  if other || (fn != 11 && b.aux2 != 0) || (fn != 10 && dst ≥ 2 ^ 23) then some 1
  else if b.rows != 1 || (fn != 10 && dst % 64 ≥ 48) then some 3
  else if b.base % qPageSize != 0 then some 4
  else if b.base ≥ 2 ^ 48 then some 5
  else none

/-- Bytes of a sealed image (R119). -/
def sealSize : Nat := 64 + qPageSize

/-- Who a page operation acts for. -/
def PageOpRun.rq (o : PageOpRun) : XReq := ⟨o.part, o.asn, o.priv, o.ctx⟩

/-- A page operation ends: status reply, then the counter (R117). -/
def finishPageOp (s : State) (o : PageOpRun) (code : Nat) : State :=
  let s := landReply s o.core ((s.core o.core).allocsOf o.part o.launch) o.reply (leBytes 4 code ++ leBytes 4 0 ++ leBytes 8 s.time.toNat)
    (fun _ => false) true o.crit
  let s := (queryCount s o.core o.rq o.counter o.crit true).1
  { s with pageOps := s.pageOps.filter (fun x => x.id != o.id) }

/-- A page operation is about to end: it waits while its counter's host page is absent (R332). -/
def withOpCounter (s : State) (o : PageOpRun) (k : State → Out) : Out :=
  match counterReady s o.core o.rq o.counter with
  | (s, false) => .next s
  | (s, true) => k s

/-- Issues a page operation: the checks of R96, the state check of R115, and the write that R365 places before the next
instruction. -/
def issuePageOp (fn : Nat) (a b c : SReg) (fl : CmdFlags) (s : State) : Out :=
  withQBlock a s (fun s blk =>
    let q := QBlk.ofBits blk
    match pageShape fn q with
    | some r => .next (s.trap (shapeTrap r))
    | none =>
      match areaTrapQ s (s.sreg c) 16 with
      | some t => .next (s.trap t)
      | none =>
        counterCheck s b (fun s =>
          let go (s : State) (pages : List UsedPage) : Out :=
            let qp := q.base / qPageSize
            let t := s.cur
            match qWalkMarked (s.noteUse (.stack (qDie qp)) s.curReq) s.curPart qp with
            | (s, .error (r, w)) => .next (queryPageFault s fn [(0, qp, r, w)] false)
            | (s, .ok w) =>
              if qpteState w.pte != (if fn = 11 then 2 else 0) then .next (queryPageFault s fn [(0, qp, 12, 0)] false)
              else
                let o : PageOpRun :=
                  { id := s.nextId, fn := fn, fl := fl, qpage := qp, aux1 := BitVec.ofNat 64 q.aux1, aux2 := BitVec.ofNat 64 q.aux2
                    counter := if b = 0 then none else some (s.sreg b), reply := (s.sreg c).toNat, core := s.curCore, tid := s.curTid
                    part := s.curPart, asn := t.asnOf, ctx := t.ctxOf, launch := t.launchOf, priv := t.priv, pages := pages, pteAddr := w.addr
                    until_ := s.time.toNat + w.path.most + 4, copied := false, crit := t.cbit }
                let s := { s with nextId := s.nextId + 1, pageOps := s.pageOps ++ [o] }
                if fn = 9 && q.aux1 = qpteStack w.pte + qpteFrame w.pte * 64 then .next (finishPageOp s o 5).advance
                else if fn = 11 then .next s.advance
                else .next (writeQpte s w.addr (qpteWith w.pte 1 (qpteStack w.pte) (qpteFrame w.pte) (qpteGen w.pte))).advance
          if fn = 9 then go s [] else exportCheck s fn q.aux1 sealSize 64 (if fn = 10 then .store else .load) go))

/-- qmig (R117). -/
def execQmig (a b c : SReg) (fl : CmdFlags) (s : State) : Out :=
  atKernelWord (fmtQE 0x30 9 (enc5 a) (enc5 b) (enc5 c) (fl.code ++ (0 : BitVec 1))) s (issuePageOp 9 a b c fl)
/-- qseal (R117). -/
def execQseal (a b c : SReg) (fl : CmdFlags) (s : State) : Out :=
  atKernelWord (fmtQE 0x30 10 (enc5 a) (enc5 b) (enc5 c) (fl.code ++ (0 : BitVec 1))) s (issuePageOp 10 a b c fl)
/-- qunseal (R117). -/
def execQunseal (a b c : SReg) (fl : CmdFlags) (s : State) : Out :=
  atKernelWord (fmtQE 0x30 11 (enc5 a) (enc5 b) (enc5 c) (fl.code ++ (0 : BitVec 1))) s (issuePageOp 11 a b c fl)

/-! ## The device's side (R118, R119) -/

/-- A page operation under way. -/
def State.pageOp (s : State) (id : Nat) : Option PageOpRun := s.pageOps.find? (fun x => x.id == id)

/-- A modifying sub-command on the source frame of a page has been accepted and has not run (R366). -/
def pendingWrites (s : State) (o : PageOpRun) : Bool :=
  s.queries.any (fun q => q.part == o.part && modifies q.fn && q.subs.any (fun c => c.qpage == o.qpage && !c.done))

/-- The source frame's base in query memory. -/
def sourceFrame (s : State) (o : PageOpRun) : Nat := let e := readPte s o.pteAddr; qAddr (qpteStack e) (qpteFrame e) 0
/-- The destination frame of a block's destination field (R117). -/
def destFrame (v : Word) : Nat × Nat := (bitsOf v.toNat 0 6, bitsOf v.toNat 6 17)

/-- Copies a frame, the destination taking the source's bytes whole. -/
def copyFrame (s : State) (src dst : Nat) : State :=
  let cells := Mem.slice s.qmem src qPageSize dst
  { s with qmem := Mem.blit (Mem.clear s.qmem dst qPageSize) cells, qPoison := NatSet.clear s.qPoison (dst / 16) (qPageSize / 16) }

/-- A memory error on a page operation: the page keeps its state and frame, a contained check is logged (R117 code 4). -/
def pageOpError (s : State) (o : PageOpRun) (st : Nat) (back : Nat) : State :=
  let e := readPte s o.pteAddr
  let s := writeQpte s o.pteAddr (qpteWith e back (qpteStack e) (qpteFrame e) (qpteGen e))
  let m : McEvent :=
    { die := ⟨st / 6 % 8, Nat.mod_lt _ (by decide)⟩, bank := ⟨12 + st % 6 / 3, by omega⟩, sev := .contained, kind := 9, part := o.part, ctx := o.ctx
      addr := some (BitVec.ofNat 64 (qpteFrame e)), core := o.core, thread := o.tid, index := 0, synd := 0, poison := .none }
  finishPageOp (logError s m) o 4

/-- The wait of L + 4 ns has passed, and no accepted write is left: the copy starts (R118, R366). -/
def execMigrationCopyStart (op : Nat) (s : State) : Out :=
  match s.pageOp op with
  | none => .next s
  | some o =>
    if o.copied || o.fn = 11 || s.time.toNat < o.until_ || pendingWrites s o then .next s
    else
      let src := sourceFrame s o
      let s' := if o.fn = 9 && !qPoisoned s src qPageSize then
          let (st, fr) := destFrame o.aux1
          copyFrame s src (qAddr st fr 0)
        else s
      .next { s' with pageOps := s'.pageOps.map (fun x => if x.id = op then { x with copied := true } else x) }

/-- The copy of a qmig is complete (R118). -/
def execMigrationCommit (op : Nat) (s : State) : Out :=
  match s.pageOp op with
  | none => .next s
  | some o =>
    if o.fn != 9 || !o.copied then .next s
    else withOpCounter s o (fun s =>
      let e := readPte s o.pteAddr
      if qPoisoned s (sourceFrame s o) qPageSize then .next (pageOpError s o (qpteStack e) 0)
      else
        let (st, fr) := destFrame o.aux1
        .next (finishPageOp (writeQpte s o.pteAddr (qpteWith e 0 st fr (qpteGen e + 1))) o 0))

/-- Generation of the latest seal of a page (R119). -/
def sealGenOf (s : State) (f : FuncId) (qpage : Nat) : Nat :=
  match s.seals.find? (fun x => x.part == f && x.qpage == qpage) with | some x => x.gen.toNat | none => 0

/-- Bytes XOR a partition's keystream under an IV (R119; log 9). -/
def sealCrypt (f : FuncId) (iv : BitVec 96) (bs : List Byte) : List Byte :=
  bs.zipIdx.map (fun p => p.1 ^^^ Config.sealKeystream f.val iv.toNat p.2)

/-- The first 32 bytes of a sealed image's header (R119). -/
def sealHead (f : FuncId) (qpage gen : Nat) : List Byte :=
  leBytes 2 1 ++ leBytes 2 f.val ++ leBytes 4 0 ++ leBytes 8 (qpage * qPageSize) ++ leBytes 8 gen ++ leBytes 8 0

/-- Writes or reads an image's bytes through stream engine k, piece by piece (R117). -/
def imageWrite (s : State) (u : XUnit) (rq : XReq) (used : List UsedPage) (va : Word) : Nat → List Byte → State × Option (XferFail × Word)
  | 0, _ => (s, none)
  | fuel + 1, bs =>
    if bs.isEmpty then (s, none)
    else
      let n := min bs.length (4096 - va.toNat % 4096)
      match xferPieces s u rq .store false used va n with
      | (s, .error e) => (s, some e)
      | (s, .ok (ps, used)) => imageWrite (writePieces s (bs.take n) false ps) u rq used (va + BitVec.ofNat 64 n) fuel (bs.drop n)
/-- Reads n bytes of an image: bytes and whether any is poisoned. -/
def imageRead (s : State) (u : XUnit) (rq : XReq) (used : List UsedPage) (va : Word) : Nat → Nat →
    State × Except (XferFail × Word) (List Byte × Bool)
  | 0, _ => (s, .ok ([], false))
  | fuel + 1, n =>
    if n = 0 then (s, .ok ([], false))
    else
      let k := min n (4096 - va.toNat % 4096)
      match xferPieces s u rq .load false used va k with
      | (s, .error e) => (s, .error e)
      | (s, .ok (ps, used)) =>
        let (bs, bad) := readPieces s ps
        match imageRead s u rq used (va + BitVec.ofNat 64 k) fuel (n - k) with
        | (s, .error e) => (s, .error e)
        | (s, .ok (r, q)) => (s, .ok (bs ++ r, bad.isSome || q))

/-- An image page no longer translates as at issue: the page keeps its state, the issuing context gets a copy fault, and no
status is written (R62). No image lies on a host page (R37). -/
def pageOpObstacle (s : State) (o : PageOpRun) (back : Nat) (e : XferFail × Word) : State :=
  match e.1 with
  | .absent _ => s
  | .fault r _ =>
    let pte := readPte s o.pteAddr
    let s := writeQpte s o.pteAddr (qpteWith pte back (qpteStack pte) (qpteFrame pte) (qpteGen pte))
    let s := s.modCtx o.part o.ctx (fun t => { t with copyFaults := t.copyFaults ++ [⟨e.2, r, none⟩] })
    { s with pageOps := s.pageOps.filter (fun x => x.id != o.id) }

/-- A qseal's image is written (R118, R119). -/
def execSealImageWritten (op : Nat) (s : State) : Out :=
  match s.pageOp op with
  | none => .next s
  | some o =>
    if o.fn != 10 || !o.copied then .next s
    else withOpCounter s o (fun s =>
      let e := readPte s o.pteAddr
      let src := sourceFrame s o
      if qPoisoned s src qPageSize then .next (pageOpError s o (qpteStack e) 0)
      else
        let gen := sealGenOf s o.part o.qpage + 1
        let iv := Config.sealIv o.part.val (s.part o.part).ivCtr
        let head := sealHead o.part o.qpage gen
        let cipher := sealCrypt o.part iv (Mem.bytes s.qmem src qPageSize)
        let tag := Config.sealTag o.part.val iv.toNat head cipher
        let img := head ++ leBytes 12 iv.toNat ++ leBytes 4 0 ++ leBytes 16 tag.toNat ++ cipher
        match imageWrite s (.engine o.core) o.rq o.pages o.aux1 1024 img with
        | (s, some e) => .next (pageOpObstacle s o 0 e)
        | (s, none) =>
          let s := (s.modPart o.part (fun p => { p with ivCtr := p.ivCtr + 1 })).noteCounterWake o.crit
          let s := { s with seals := ⟨o.part, o.qpage, BitVec.ofNat 64 gen⟩ :: s.seals.filter (fun x => !(x.part == o.part && x.qpage == o.qpage)) }
          .next (finishPageOp (writeQpte s o.pteAddr (qpteWith e 2 (qpteStack e) (qpteFrame e) (qpteGen e + 1))) o 0))

/-- A qunseal's image has been checked (R118, R119): partition and page, then generation, then tag. -/
def execUnsealVerified (op : Nat) (s : State) : Out :=
  match s.pageOp op with
  | none => .next s
  | some o =>
    if o.fn != 11 then .next s
    else withOpCounter s o (fun s =>
      match imageRead s (.engine o.core) o.rq o.pages o.aux1 1024 sealSize with
      | (s, .error e) => .next (pageOpObstacle s o 2 e)
      | (s, .ok (img, bad)) =>
        let e := readPte s o.pteAddr
        let iv := fieldAt img 32 12
        let cipher := img.drop 64
        if bad then .next (pageOpError s o (qpteStack e) 2)
        else if fieldAt img 2 2 != o.part.val || fieldAt img 8 8 != o.qpage * qPageSize then .next (finishPageOp s o 3)
        else if fieldAt img 16 8 != sealGenOf s o.part o.qpage then .next (finishPageOp s o 2)
        else if (Config.sealTag o.part.val iv (img.take 32) cipher).toNat != fieldAt img 48 16 then .next (finishPageOp s o 1)
        else
          let (st, fr) := destFrame o.aux2
          let dst := qAddr st fr 0
          let plain := sealCrypt o.part (BitVec.ofNat 96 iv) cipher
          let s := { s with qmem := Mem.blit (Mem.clear s.qmem dst qPageSize)
                              ((plain.zipIdx.filter (fun p => p.1 != 0)).map (fun p => (dst + p.2, p.1)))
                            qPoison := NatSet.clear s.qPoison (dst / 16) (qPageSize / 16) }
          .next (finishPageOp (writeQpte s o.pteAddr (qpteWith e 0 st fr (qpteGen e + 1))) o 0))

end Sys2Proof.Machine
end

