-- ==== Sys2Proof/Machine/Partition.lean ====
section
/-!
DEFINITION. Partitions (spec 17 R318, R320, R321; 18 R323, R326, R328, R330, R333, R375; 16 R303): halts, moves, resets, yields.
-/

namespace Sys2Proof.Machine

/-! ## Allocations on a core (R296, R300) -/

/-- Two allocations, each with its two guard granules, meet. -/
def Alloc.clash (a b : Alloc) : Bool :=
  a.lane == b.lane && decide (a.base < b.base + b.size + 32) && decide (b.base < a.base + a.size + 32)
/-- Core c has room for allocations beside those it holds (R300). -/
def Core.hasRoom (c : Core) (l : List Alloc) : Bool := l.all (fun a => c.residents.all (fun r => r.allocs.all (fun b => !a.clash b)))
/-- A launch of a partition. -/
def State.launch (s : State) (f : FuncId) (n : BitVec 16) : Option Launch := s.disp.launches.find? (fun l => l.part == f && l.num == n)
/-- The bytes of an allocation, lane by lane for a lane-local one. -/
def Alloc.runs (a : Alloc) : List (Nat × Nat) :=
  if a.lane then (List.range 64).map (fun i => (laneBase + 0x2000 * i + a.base, a.size)) else [(a.base, a.size)]
/-- A task of the launch is on the core or suspended in its hamper. -/
def Core.holdsLaunch (c : Core) (f : FuncId) (n : BitVec 16) : Bool :=
  let is (t : Thread) : Bool := match t.task with | some x => x.part == f && x.launch == n | none => false
  c.threads.any is || c.hamper.images.any (fun i => is i.thread)
    || (match c.hamper.full with | some x => x.threads.any is | none => false)

/-! ## Areas in generic memory -/

/-- Who the device acts for when it moves contexts: the partition's kernel in address space 0 (log 25). -/
def moveReq (f : FuncId) : XReq := ⟨f, 0, .kernel, 0⟩

/-- Writes bytes to an area that has been checked, piece by piece. -/
def areaWrite (s : State) (u : XUnit) (rq : XReq) (va : Nat) : Nat → List Byte → State
  | 0, _ => s
  | fuel + 1, bs =>
    if bs.isEmpty then s
    else
      let n := min bs.length (4096 - va % 4096)
      match translate s u rq .store (BitVec.ofNat 64 va) true with
      | (s, .ok (t, _)) => areaWrite (tgtWrite s t (bs.take n)) u rq (va + n) fuel (bs.drop n)
      | (s, .error _) => areaWrite s u rq (va + n) fuel (bs.drop n)
/-- Poisons the granule at an address of a checked area. -/
def areaPoison (s : State) (u : XUnit) (rq : XReq) (va : Nat) : State :=
  match translate s u rq .store (BitVec.ofNat 64 va) true with
  | (s, .ok (t, _)) => tgtPoison s t 16
  | (s, .error _) => s
/-- Reads an area that has been checked: bytes, and the offsets of poisoned granules. -/
def areaRead (s : State) (u : XUnit) (rq : XReq) (va : Nat) : Nat → Nat → State × List Byte × List Nat
  | 0, _ => (s, [], [])
  | fuel + 1, o =>
    match translate s u rq .load (BitVec.ofNat 64 (va + o)) true with
    | (s, .ok (t, _)) =>
      let (bs, bad) := tgtRead s t 16
      let (s, r, p) := areaRead s u rq va fuel (o + 16)
      (s, bs ++ r, if bad then o :: p else p)
    | (s, .error _) =>
      let (s, r, p) := areaRead s u rq va fuel (o + 16)
      (s, List.replicate 16 0 ++ r, p)

/-- Writes an image's parts at an area. -/
def writeParts (s : State) (u : XUnit) (rq : XReq) (va : Nat) (l : List (Nat × List Byte)) : State :=
  l.foldl (fun s p => areaWrite s u rq (va + p.1) (p.2.length / 4096 + 3) p.2) s

/-! ## Halt and resumption (R318, R320) -/

/-- The thread images in the hampers of a partition's cores, with their cores and their places in the context area (log 25). -/
def evicted (s : State) (f : FuncId) : List (CoreId × ThreadImage × Nat) :=
  let l := ((coresOf (s.part f)).map (fun k => (s.core k).hamper.images.map (fun i => (k, i)))).flatten
  l.zipIdx.map (fun x => (x.1.1, x.1.2, (s.part f).xmova.toNat + x.2 * imageSize))

/-- Whether every image that a halt must write can be written: the whole extent of its place translates (R318). An absent host page
is asked for. -/
def evictReady (s : State) (f : FuncId) : List (CoreId × ThreadImage × Nat) → State × Bool
  | [] => (s, true)
  | (k, i, va) :: l =>
    if i.tooWide then (s, false)
    else match areaPages s (.vector k) (moveReq f) .store true [] va 64 imageSize with
      | (s, .error (.absent p, _)) => (requestPage s f p, false)
      | (s, .error _) => (s, false)
      | (s, .ok _) => evictReady s f l

/-- Writes an image at its place, poison with it (R318, R341). -/
def putImage (s : State) (f : FuncId) (k : CoreId) (i : ThreadImage) (va : Nat) : State :=
  let parts := imageParts s k i
  let s := writeParts s (.vector k) (moveReq f) va parts
  (i.bad.filter (fun g => badParts [g] parts)).foldl (fun s g => areaPoison s (.vector k) (moveReq f) (va + 16 * g)) s

/-- A partition halt goes on: the thread images in the hampers are written to the context area, and then every core's context goes
into its hamper (R315, R318, R320). Until each of them can be written, the exchange waits (log 54). -/
def haltPartition (s : State) (f : FuncId) : State :=
  let l := evicted s f
  match evictReady s f l with
  | (s, false) => s.modPart f (fun p => { p with halt := 1, haltNext := 1 })
  | (s, true) =>
    let cores := coresOf (s.part f)
    let busy := cores.any (fun k => (s.core k).threads.any (fun t => t.task.isSome))
    let s := l.foldl (fun s x => putImage s f x.1 x.2.1 x.2.2) s
    let s := cores.foldl (fun s k =>
      haltCore ((closeQueries s k).modCore k (fun c => { c with hamper := { c.hamper with images := [] } })) k) s
    s.modPart f (fun p => { p with halt := 1, haltNext := if busy then 2 else 3 })

/-- A partition halt (R320): issue stops at once. -/
def execPartitionHalt (f : FuncId) (s : State) : Out :=
  if (s.part f).halt != 0 then .next s else .next (haltPartition s f)

/-- A resumption: the full images come back (R320). -/
def execPartitionResume (f : FuncId) (s : State) : Out :=
  let p := s.part f
  if p.halt.val < 2 then .next s
  else .next (((coresOf p).foldl resumeCore s).modPart f (fun p => { p with halt := 1, haltNext := 0 }))

/-- The exchange under way is complete (R318), or goes on when it had to wait. -/
def execHamperExchangeComplete (f : FuncId) (s : State) : Out :=
  if (s.part f).halt = 1 then
    if (s.part f).haltNext = 1 then .next (haltPartition s f) else .next (s.modPart f (fun p => { p with halt := p.haltNext }))
  else .next s

/-! ## Moves (R321, R375) -/

/-- Bytes of an allocation's bitmap, padded to 16 (R321). -/
def bitmapBytes (granules : Nat) : Nat := (granules + 127) / 128 * 16
/-- Granules of an allocation. -/
def Alloc.granules (a : Alloc) : List Nat := (a.runs.map (fun r => granulesOf r.1 r.2)).flatten
/-- Bytes of a move's extent: the image, then each allocation with its bitmap. -/
def moveSize (l : List Alloc) : Nat :=
  l.foldl (fun n a => n + 16 * a.granules.length + bitmapBytes a.granules.length) imageSize

/-- A refused move (R320). -/
def refuseMove (s : State) (f : FuncId) : State := s.modPart f (fun p => { p with movStat := 3, movWait := false })
/-- A move that must wait stays busy and has moved nothing (R332). -/
def holdMove (s : State) (f : FuncId) : State := s.modPart f (fun p => { p with movStat := 1, movWait := true })
/-- A move has been made; its bytes take their time (R321). -/
def madeMove (s : State) (f : FuncId) : State := s.modPart f (fun p => { p with movStat := 1, movWait := false })
/-- A page of a move's area does not translate: an absent host page is asked for and waited for (R332), anything else refuses the
move (R375). -/
def moveObstacle (s : State) (f : FuncId) (e : XFail × Word) : State :=
  match e.1 with
  | .absent p => if (s.part f).refusing = some p then refuseMove s f else holdMove (requestPage s f p) f
  | _ => refuseMove s f

/-- Writes an allocation and its bitmap at an address of the area. -/
def moveOutAlloc (s : State) (k : CoreId) (f : FuncId) (va : Nat) (a : Alloc) : State :=
  let c := s.core k
  let gs := a.granules
  let data := (a.runs.map (fun r => c.spadRead r.1 r.2)).flatten
  let bits := gs.zipIdx.foldl (fun n p => if c.isFull p.1 then n + 2 ^ p.2 else n) 0
  let s := writeParts s (.vector k) (moveReq f) va [(0, data), (data.length, leBytes (bitmapBytes gs.length) bits)]
  (gs.zipIdx.filter (fun p => NatSet.has c.spadPoison p.1)).foldl (fun s p => areaPoison s (.vector k) (moveReq f) (va + 16 * p.2)) s

/-- The context that XMOV names is moved out (R321, R375). -/
def moveOut (s : State) (f : FuncId) : State :=
  let p := s.part f
  match p.physical p.movCore.toNat with
  | none => refuseMove s f
  | some k =>
    match (s.core k).hamper.images.find? (fun i => i.thread.isCtx f p.movCtx) with
    | none => refuseMove s f
    | some i =>
      let n := i.thread.launchOf
      let l := (s.core k).allocsOf f n
      let va := p.xmova.toNat
      let size := moveSize l
      if i.tooWide then refuseMove s f
      else match areaPages s (.vector k) (moveReq f) .store true [] va (size / 4096 + 2) size with
      | (s, .error e) => moveObstacle s f e
      | (s, .ok _) =>
        let s := putImage s f k i va
        let s := (l.foldl (fun (x : State × Nat) a =>
          (moveOutAlloc x.1 k f x.2 a, x.2 + 16 * a.granules.length + bitmapBytes a.granules.length)) (s, va + imageSize)).1
        let s := s.modCore k (fun c => { c with hamper := { c.hamper with images := c.hamper.images.filter (fun x => !(x.thread.isCtx f p.movCtx)) } })
        let s := if (s.core k).holdsLaunch f n then s
          else s.modCore k (fun c => { c with residents := c.residents.filter (fun r => !(r.part == f && r.launch == n)) })
        madeMove s f
/-- A move-out begins (R321). -/
def execMoveOut (f : FuncId) (s : State) : Out :=
  if (s.part f).movStat = 1 then .next s else .next (moveOut (s.modPart f (fun p => { p with movOp := 1 })) f)

/-- Places an allocation and its bitmap from the area's bytes. -/
def moveInAlloc (c : Core) (a : Alloc) (bs : List Byte) (bad : Nat → Bool) : Core :=
  let gs := a.granules
  let bits := leNat ((bs.drop (16 * gs.length)).take (bitmapBytes gs.length))
  gs.zipIdx.foldl (fun c p =>
    let c := (c.spadWrite (16 * p.1) ((bs.drop (16 * p.2)).take 16)).setFull p.1 (bits.testBit p.2)
    if bad (16 * p.2) then { c with spadPoison := NatSet.add c.spadPoison p.1 } else c) c

/-- Some thread or hamper of the module holds a context. -/
def State.holdsCtx (s : State) (f : FuncId) (ctx : BitVec 16) : Bool :=
  s.cores.toList.any (fun c => c.threads.any (fun t => t.isCtx f ctx) || c.hamper.images.any (fun i => i.thread.isCtx f ctx)
    || (match c.hamper.full with | some x => x.threads.any (fun t => t.isCtx f ctx) | none => false))

/-- The room of a launch's allocations on core c, those that the core already holds for it left out (R300, R321). -/
def Core.roomBeside (c : Core) (f : FuncId) (n : BitVec 16) (l : List Alloc) : Bool :=
  ({ c with residents := c.residents.filter (fun r => !(r.part == f && r.launch == n)) } : Core).hasRoom l

/-- The context that XMOV names is moved in (R321, R375). Its allocations are those of its launch; a launch that the device no longer
keeps has none (log 25). A full hamper is waited for. -/
def moveIn (s : State) (f : FuncId) : State :=
  let p := s.part f
  match p.physical p.movCore.toNat with
  | none => refuseMove s f
  | some k =>
    let va := p.xmova.toNat
    let rq := moveReq f
    if s.holdsCtx f p.movCtx then refuseMove s f
    else match areaPages s (.vector k) rq .load true [] va (imageSize / 4096 + 2) imageSize with
    | (s, .error e) => moveObstacle s f e
    | (s, .ok _) =>
      let (s, bs, bad) := areaRead s (.vector k) rq va (imageSize / 16) 0
      let m : Memory := (bs.zipIdx.filter (fun x => x.1 != 0)).map (fun x => (x.2, x.1))
      match imageOf s k f p.movCtx m with
      | none => refuseMove s f
      | some i =>
        let n := i.thread.launchOf
        let allocs := match s.launch f n with | some la => la.allocs | none => []
        let size := moveSize allocs
        if !(s.core k).roomBeside f n allocs then refuseMove s f
        else match areaPages s (.vector k) rq .load true [] va (size / 4096 + 2) size with
        | (s, .error e) => moveObstacle s f e
        | (s, .ok _) =>
          if (s.core k).hamper.images.length ≥ hamperImages || (s.core k).hamper.full.isSome then holdMove s f
          else
            let s := (allocs.foldl (fun (x : State × Nat) a =>
              let n := 16 * a.granules.length + bitmapBytes a.granules.length
              let (s, bs, bad) := areaRead x.1 (.vector k) rq x.2 (n / 16) 0
              (s.modCore k (fun c => moveInAlloc c a bs (fun o => bad.contains o)), x.2 + n)) (s, va + imageSize)).1
            -- poison of the image comes with it (R341)
            let i := { i with bad := bad.map (· / 16) }
            let s := s.modCore k (fun c =>
              { c with
                residents := c.residents.filter (fun r => !(r.part == f && r.launch == n)) ++ [⟨f, n, allocs⟩]
                hamper := { c.hamper with images := c.hamper.images ++ [i] } })
            madeMove { s with nextId := s.nextId + imageEntries } f
/-- A move-in begins (R321). -/
def execMoveIn (f : FuncId) (s : State) : Out :=
  if (s.part f).movStat = 1 then .next s else .next (moveIn (s.modPart f (fun p => { p with movOp := 2 })) f)

/-- A move that waits is tried again (R332). -/
def retryMove (s : State) (f : FuncId) : State :=
  let p := s.part f
  if p.movStat = 1 && p.movWait then (if p.movOp = 2 then moveIn s f else moveOut s f) else s

/-- The bytes of a move have passed (R321); one that waits is tried again. -/
def execContextMoveComplete (f : FuncId) (s : State) : Out :=
  let p := s.part f
  if p.movStat = 1 then
    if p.movWait then .next (retryMove s f) else .next (s.modPart f (fun p => { p with movStat := 2, movOp := 0 }))
  else .next s

/-! ## Yields (R303) -/

/-- A write of XYIELD (R303). -/
def execXyieldWrite (f : FuncId) (v : Word) (s : State) : Out :=
  let p := s.part f
  match p.physical (bitsOf v.toNat 0 9) with
  | none => .next s
  | some k =>
    let one (s : State) (t : Tid) (sel : Bool) : State :=
      if sel && (match (s.thr k t).task with | some x => x.part == f | none => false) then s.modThr k t (fun x => { x with yreq := true }) else s
    .next (one (one s 0 (v.getLsbD 9)) 1 (v.getLsbD 10))

/-! ## Resets (R328, R333) -/

/-- Steps 1 and 2 of R328: threads stop, chains and copies are dropped, accepted sub-commands complete. -/
def stopPartition (s : State) (f : FuncId) : State :=
  let cores := coresOf (s.part f)
  let s := (s.queries.filter (fun q => q.part == f)).foldl (fun s q => completeQuery s q.id) s
  let s := { s with
    queries := s.queries.filter (fun q => q.part != f)
    pageOps := s.pageOps.filter (fun o => o.part != f)
    disp := { s.disp with
      ready := s.disp.ready.filter (fun r => !(s.disp.launches.any (fun l => l.part == f && l.num == r.1)))
      launches := s.disp.launches.filter (fun l => l.part != f)
      gangs := s.disp.gangs.filter (fun g => g.part != f)
      owed := s.disp.owed.filter (fun a => a.part != f) } }
  let s := cores.foldl (fun s k => s.modEngine k (fun e => { Engine.reset with skew := e.skew })) s
  let s := cores.foldl (fun s k => s.modCore k (fun c => { c with threads := c.threads.map (fun _ => Thread.reset), copies := [] })) s
  s.modPart f (fun p => { p with resetSt := .resetting })

/-- A write of XRESET.reset: ignored while a reset of the partition is running (R328). -/
def startReset (s : State) (f : FuncId) : State :=
  match (s.part f).resetSt with
  | .resetting => s
  | .scrubbing => s
  | _ => stopPartition s f

/-- Working memory of channel k zeroed. -/
def scrubChannel (s : State) (k : CoreId) : State :=
  { s with
    wm := Mem.clear s.wm (k.val * 0x100000000) 0x100000000
    wmPoison := NatSet.clear s.wmPoison (k.val * 0x10000000) 0x10000000 }
/-- A Q frame zeroed. -/
def scrubFrame (s : State) (stack frame : Nat) : State :=
  let a := qAddr stack frame 0
  { s with qmem := Mem.clear s.qmem a qPageSize, qPoison := NatSet.clear s.qPoison (a / 16) (qPageSize / 16) }
/-- The Q frames that a partition's Q tables name. -/
def qFramesOf (s : State) (f : FuncId) : List (Nat × Nat) :=
  let pt := s.part f
  let at2 (gpa : Nat) : Option Nat :=
    match stage2 s f s.time.toNat gpa ⟨0, none, 0, []⟩ with | .ok (_, _, pa, _) => some (readPte s (hostKeyed f pa)) | .error _ => none
  if !pt.xqtb.getLsbD 0 then []
  else
    ((List.range 0x4000).map (fun i =>
      match at2 (bitsOf pt.xqtb.toNat 17 35 * 0x20000 + 8 * i) with
      | some e1 =>
        if !pteV e1 || malformed e1 3 false pt.twoStage then []
        else (List.range 0x2000).filterMap (fun j =>
          match at2 (pteFrame e1 + 8 * j) with
          | some e => if pteV e && !qpteBad e then some (qpteStack e, qpteFrame e) else none
          | none => none)
      | none => [])).flatten

/-- A partition reset runs to its scrub (R328 steps 1 to 4, R333, R3): cores and registers at reset values, frames zeroed. The
state reads scrubbing until the scrub is complete. -/
def execPartitionReset (f : FuncId) (s : State) : Out :=
  match (s.part f).resetSt with
  | .scrubbing => .next s
  | st =>
    let s := match st with | .resetting => s | _ => stopPartition s f
    let cores := coresOf (s.part f)
    let frames := qFramesOf s f
    let s := cores.foldl (fun s k => s.modCore k (fun c => { Core.reset with skew := c.skew })) s
    let s := frames.foldl (fun s x => scrubFrame s x.1 x.2) s
    let s := cores.foldl scrubChannel s
    .next (s.modPart f (fun p =>
      { Part.reset with resetSt := .scrubbing, gen := p.gen + 1, kvec := p.kvec, hvec := p.hvec, ivCtr := p.ivCtr }))

/-- The scrub of a partition reset is complete (R328). -/
def execScrubComplete (f : FuncId) (s : State) : Out :=
  if (s.part f).resetSt = .scrubbing then .next (s.modPart f (fun p => { p with resetSt := .done })) else .next s

/-- A function level reset of a virtual function is a partition reset of its partition (R330). -/
def execFunctionLevelReset (f : FuncId) (s : State) : Out := if f = 0 then .next s else execPartitionReset f s

end Sys2Proof.Machine
end

