-- ==== Sys2Proof/Machine/Window.lean ====
section
/-!
DEFINITION. The register windows (spec 18 R324 to R326, R331, R334; 03 R49; 06 R112; 16 R302, R303; 17 R320; 19 R343, R344, R348,
R353, R354): levels, reads and writes with the behaviour that each write sets off.
-/

namespace Sys2Proof.Machine

/-- The state that an outcome leaves; a fault or refusal leaves the state it had. -/
def outState (s : State) (o : Out) : State := match o with | .next s' => s' | _ => s

/-! ## Levels (R3, R4, R324, R325) -/

/-- Levels needed to read and to write the register at an offset of a partition's window; none where no level may write. -/
def partLevels (off : Nat) : Priv × Option Priv :=
  if off = 0x08 || off = 0x20 then (.hyper, some .hyper)
  else if off = 0x18 || off = 0x40 || off = 0x48 || off = 0x50 || off = 0x58 || (0x800 ≤ off && off < 0xB00) then (.kernel, some .hyper)
  else if off = 0x70 then (.kernel, none)
  else (.kernel, some .kernel)
/-- The same for the physical function's window. -/
def physLevels (off : Nat) : Priv × Option Priv :=
  if 0x2000 ≤ off && off < 0x2040 then (.kernel, none)
  else if 0x2040 ≤ off && off < 0x2080 then (.kernel, some .hyper)
  else if (0x4000 ≤ off && off < 0x5098) then (.hyper, some .hyper)
  else (.kernel, some .kernel)
/-- Levels of a register of a function's window. -/
def windowLevels (f : FuncId) (off : Nat) : Priv × Option Priv := if f = 0 then physLevels off else partLevels off

/-! ## Reads -/

/-- A number whose listed fields are (value, lowest bit). -/
def packBits (l : List (Nat × Nat)) : Word := BitVec.ofNat 64 (l.foldl (fun n p => n + p.1 * 2 ^ p.2) 0)

/-- XRESET.state (R326). -/
def ResetStat.code (r : ResetStat) : Nat := match r with | .idle => 0 | .resetting => 1 | .scrubbing => 2 | .done => 3

/-- A register of partition f's window; a QoS weight of 0 reads 1 (R326, R327). -/
def partRead (s : State) (f : FuncId) (off : Nat) : Word :=
  let p := s.part f
  let w (x : BitVec 8) : Nat := max 1 x.toNat
  if off = 0x00 then p.xastb
  else if off = 0x08 then p.xs2ctl
  else if off = 0x10 then p.xqtb
  else if off = 0x18 then p.xslice.zeroExtend 64
  else if off = 0x20 then packBits [(p.halt.val, 2)]
  else if off = 0x28 then packBits [(p.movStat.val, 2), (p.movCore.toNat, 4), (p.movCtx.toNat, 16)]
  else if off = 0x30 then p.xmova
  else if off = 0x40 then packBits [(p.ncores.toNat, 0), (p.gpos.toNat, 9), (p.gsize.toNat, 15)]
  else if off = 0x48 then p.xxbar ||| (1#64 <<< (f.val - 1))
  else if off = 0x50 then packBits [(w p.qosPcie, 0), (w p.qosChoah, 8), (w p.qosQlink, 16)]
  else if off = 0x58 then packBits [(p.resetSt.code, 1)]
  else if off = 0x60 then p.xsubb
  else if off = 0x68 then p.xsubt.zeroExtend 64
  else if off = 0x70 then p.xsubh.zeroExtend 64
  else if off = 0x78 then p.xpri.zeroExtend 64
  else if 0x800 ≤ off && off < 0xB00 then
    packBits ((List.range 4).map (fun i => ((p.lmap.toList.getD ((off - 0x800) / 2 + i) 0).toNat, 16 * i)))
  else if 0x1000 ≤ off && off < 0x1800 then
    BitVec.ofNat 64 (bitsOf (p.stripes.toList.getD ((off - 0x1000) / 32) 0).toNat (8 * (off % 32)) 64)
  else 0

/-- The core that DCTL addresses, when there is one. -/
def dbgCore (s : State) : Option CoreId := if h : s.dbg.core.toNat < 384 then some ⟨s.dbg.core.toNat, h⟩ else none
/-- DCTL (R348). Commands complete in the step that starts them, so busy reads 0. -/
def dctlWord (s : State) : Word :=
  let b (x : Bool) : Nat := if x then 1 else 0
  let (st, bh, ha, en) : Bool × Bool × Bool × Bool := match dbgCore s with
    | some k => ((s.core k).step, (s.core k).brkhalt, (s.core k).halted, debugOn s k)
    | none => (false, false, false, false)
  packBits [(s.dbg.core.toNat, 0), (s.dbg.thread.val, 9), (b st, 12), (b bh, 13), (b ha, 14), (s.dbg.cmderr.val, 15), (b en, 19)]

/-- The core named by 9 bits. -/
def coreOf (x : BitVec 9) : Option CoreId := if h : x.toNat < 384 then some ⟨x.toNat, h⟩ else none

/-- The bytes of the boot status record (R338). -/
def bootRecord (b : Boot) : List Byte :=
  leBytes 4 (if b.minimal then 1 else 0) ++ leBytes 4 b.failures ++ leBytes 1 b.lastStage ++ leBytes 1 b.lastReason
    ++ leBytes 6 0 ++ leBytes 64 b.lastDigest.toNat

/-- A machine-check bank's register (R344). -/
def Bank.reg (b : Bank) (i : Nat) : Word :=
  match i with | 0 => b.mcstat | 1 => b.mcaddr | 2 => b.mcmisc | _ => b.mcsynd

/-- A register of the physical function's window (R325). -/
def physRead (s : State) (off : Nat) : Word :=
  let d : DieId := ⟨off / 8 % 8, Nat.mod_lt _ (by decide)⟩
  if 0x2000 ≤ off && off < 0x2040 then packBits [(s.dies[d].budget.toNat, 0), (s.dies[d].throttle.toNat, 32)]
  else if 0x2040 ≤ off && off < 0x2080 then s.dies[d].cap.zeroExtend 64
  else if 0x4000 ≤ off && off < 0x5000 then
    (s.bank ⟨(off - 0x4000) / 0x200 % 8, Nat.mod_lt _ (by decide)⟩ ⟨off / 0x20 % 16, Nat.mod_lt _ (by decide)⟩).reg (off / 8 % 4)
  else if off = 0x5000 then dctlWord s
  else if off = 0x5008 then s.dbg.dcmd.zeroExtend 64
  else if off = 0x5010 then s.dbg.daddr
  else if 0x5018 ≤ off && off < 0x5038 then s.dbg.ddata.toList.getD ((off - 0x5018) / 8) 0
  else if off = 0x5040 then s.xhclm.zeroExtend 64
  else if 0x5048 ≤ off && off < 0x5088 then
    match coreOf (s.xhclm.extractLsb' 0 9) with
    | some k => ((s.core k).counters.toList.getD ((off - 0x5048) / 8) Counter.reset).count.zeroExtend 64
    | none => 0
  else if off = 0x5088 then s.xtrcore.zeroExtend 64
  else if off = 0x5090 then
    match coreOf s.xtrcore with
    | some k => packBits [((s.core k).ring.base, 0), ((s.core k).ring.size, 52)]
    | none => 0
  else if 0x8000 ≤ off && off < 0x8050 then BitVec.ofNat 64 (fieldAt (bootRecord s.boot) (off - 0x8000) 8)
  else 0

/-- An aligned 8-byte register of a window. -/
def windowRead (s : State) (f : FuncId) (off : Nat) : Word := if f = 0 then physRead s off else partRead s f off

/-! ## Writes -/

/-- A tail write: the doorbell (R331). -/
def doorbell (s : State) (f : FuncId) (tail : Word32) : State :=
  s.modPart f (fun p =>
    let n := 2 ^ (bitsOf p.xsubb.toNat 52 4 + 6)
    { p with xsubt := if (tail - p.xsubh).toNat > n then p.xsubh + BitVec.ofNat 32 n else tail })

/-- A write of a register of partition f's window, made at a level that may make it. -/
def partWrite (s : State) (f : FuncId) (off : Nat) (v : Word) : State :=
  let up (g : Part → Part) : State := s.modPart f g
  if off = 0x00 then up (fun p => { p with xastb := v &&& 0x000FFFFFFFF80000#64 })
  else if off = 0x08 then up (fun p => { p with xs2ctl := v &&& 0xE00FFFFFFFFF0001#64 })
  else if off = 0x10 then up (fun p => { p with xqtb := v &&& 0x000FFFFFFFFE0001#64 })
  else if off = 0x18 then up (fun p => { p with xslice := v.extractLsb' 0 32 })
  else if off = 0x20 then
    let s := if v.getLsbD 0 then outState s (execPartitionHalt f s) else s
    if v.getLsbD 1 then outState s (execPartitionResume f s) else s
  else if off = 0x28 then
    let s := up (fun p => { p with movCore := v.extractLsb' 4 9, movCtx := v.extractLsb' 16 16 })
    match bitsOf v.toNat 0 2 with
    | 1 => outState s (execMoveOut f s)
    | 2 => outState s (execMoveIn f s)
    | _ => s
  else if off = 0x30 then up (fun p => { p with xmova := v &&& 0x000FFFFFFFFFFFC0#64 })
  else if off = 0x38 then outState s (execXyieldWrite f v s)
  else if off = 0x40 then up (fun p => { p with ncores := v.extractLsb' 0 9, gpos := v.extractLsb' 9 6, gsize := v.extractLsb' 15 7 })
  else if off = 0x48 then up (fun p => { p with xxbar := v })
  else if off = 0x50 then
    up (fun p => { p with qosPcie := v.extractLsb' 0 8, qosChoah := v.extractLsb' 8 8, qosQlink := v.extractLsb' 16 8 })
  else if off = 0x58 then if v.getLsbD 0 then startReset s f else s
  else if off = 0x60 then up (fun p => { p with xsubb := v &&& 0x00FFFFFFFFFFF000#64 })
  else if off = 0x68 then doorbell s f (v.extractLsb' 0 32)
  else if off = 0x78 then up (fun p => { p with xpri := v.extractLsb' 0 32 })
  else if 0x800 ≤ off && off < 0xB00 then
    up (fun p => { p with lmap := (List.range 4).foldl (fun m i =>
      m.setIfInBounds ((off - 0x800) / 2 + i) (v.extractLsb' (16 * i) 9)) p.lmap })
  else if 0x1000 ≤ off && off < 0x1800 then
    let n := (off - 0x1000) / 32
    up (fun p =>
      let old := p.stripes.toList.getD n 0
      let lo := 8 * (off % 32)
      { p with stripes := p.stripes.setIfInBounds n (old ^^^ BitVec.ofNat 256 ((bitsOf old.toNat lo 64 ^^^ v.toNat) * 2 ^ lo)) })
  else s

/-- A write of MCSTAT: writing 1 to valid clears valid and over; the other fields take what is written (R344). -/
def mcstatWrite (old v : Word) : Word :=
  let w := v &&& 0x00FFFFFFFFFFFF3E#64
  if v.getLsbD 0 then w &&& ~~~8#64 else w ||| (old &&& 1#64)
/-- A write of a bank's register (R344). -/
def Bank.write (b : Bank) (i : Nat) (v : Word) : Bank :=
  match i with
  | 0 => { b with mcstat := mcstatWrite b.mcstat v }
  | 1 => { b with mcaddr := v }
  | 2 => { b with mcmisc := v }
  | _ => { b with mcsynd := v }
/-- MCSTAT's valid is written 1: valid and over are cleared (R344). -/
def execMcstatClear (d : DieId) (b : Fin 16) (s : State) : Out :=
  .next (s.modBank d b (fun x => { x with mcstat := x.mcstat &&& ~~~9#64 }))

/-- A write of DCTL (R348, R350): step and brkhalt belong to the core that the write addresses. -/
def dctlWrite (s : State) (v : Word) : State :=
  let s := { s with dbg := { s.dbg with core := v.extractLsb' 0 9, thread := if v.getLsbD 9 then 1 else 0 } }
  let s := if bitsOf v.toNat 15 3 = 7 then setCmderr s 0 else s
  match dbgCore s with
  | none => s
  | some k =>
    let s := s.modCore k (fun c => { c with step := v.getLsbD 12, brkhalt := v.getLsbD 13 })
    let s := if v.getLsbD 10 then outState s (execDebugHaltRequest k s) else s
    if v.getLsbD 11 then outState s (execDebugResumeRequest k s) else s

/-- A write of XHCLM (R353). -/
def xhclmWrite (s : State) (v : Word) : State :=
  let s := { s with xhclm := v.extractLsb' 0 12 }
  match coreOf (v.extractLsb' 0 9) with
  | none => s
  | some k =>
    if v.getLsbD 11 then outState s (execHypervisorClaim k (v.getLsbD 9) (v.getLsbD 10) s)
    else outState s (execHypervisorRelease k (v.getLsbD 9) (v.getLsbD 10) s)

/-- A write of a register of the physical function's window (R325); `cmd` is what a write of DCMD sets off. -/
def physWriteWith (cmd : State → State) (s : State) (off : Nat) (v : Word) : State :=
  let d : DieId := ⟨off / 8 % 8, Nat.mod_lt _ (by decide)⟩
  if 0x2040 ≤ off && off < 0x2080 then { s with dies := s.dies.set d { s.dies[d] with cap := v.extractLsb' 0 24 } }
  else if 0x4000 ≤ off && off < 0x5000 then
    s.modBank ⟨(off - 0x4000) / 0x200 % 8, Nat.mod_lt _ (by decide)⟩ ⟨off / 0x20 % 16, Nat.mod_lt _ (by decide)⟩
      (fun b => b.write (off / 8 % 4) v)
  else if off = 0x5000 then dctlWrite s v
  else if off = 0x5008 then cmd { s with dbg := { s.dbg with dcmd := v.extractLsb' 0 32 } }
  else if off = 0x5010 then { s with dbg := { s.dbg with daddr := v } }
  else if 0x5018 ≤ off && off < 0x5038 then
    { s with dbg := { s.dbg with ddata := s.dbg.ddata.setIfInBounds ((off - 0x5018) / 8) v } }
  else if off = 0x5040 then xhclmWrite s v
  else if off = 0x5088 then { s with xtrcore := v.extractLsb' 0 9 }
  else if off = 0x5090 then
    match coreOf s.xtrcore with
    | some k => s.modCore k (fun c => { c with ring := { c.ring with base := bitsOf v.toNat 12 40 * 4096, size := bitsOf v.toNat 52 4 } })
    | none => s
  else s

/-- A command that is started by a command meets it running (R348). -/
def busyCommand (s : State) : State := setCmderr s 1
/-- The windows as an abstract command reaches them, at the levels of its thread. -/
def commandPort : Port := fun f off v pv s =>
  match v with
  | none => if (windowLevels f off).1.le pv then some (s, windowRead s f off) else none
  | some x =>
    match (windowLevels f off).2 with
    | some l => if l.le pv then some (if f = 0 then physWriteWith busyCommand s off x else partWrite s f off x, 0) else none
    | none => none
/-- Runs the command in DCMD (R347 to R349). -/
def runCommand (s : State) : State := commandWith commandPort s
/-- A write of a register of the physical function's window (R325). -/
def physWrite (s : State) (off : Nat) (v : Word) : State := physWriteWith runCommand s off v

/-- An aligned 8-byte write of a window, made at a level that may make it. -/
def windowWrite (s : State) (f : FuncId) (off : Nat) (v : Word) : State :=
  if f = 0 then physWrite s off v else partWrite s f off v

/-! ## Posted writes of the host (R169) -/

/-- A write of working memory by an agent outside: counters that it satisfies are noted. -/
def outsideWrite (s : State) (pa : Nat) (bs : List Byte) : State :=
  if pa + bs.length ≤ wmSize then (tgtWrite s (.wm pa) bs).noteCounterWake false else s

/-- A function's posted writes without Relaxed Ordering are performed, in the order in which they came (R169). -/
def landPosted (s : State) (f : FuncId) : State :=
  let mine (x : Posted) : Bool := x.fn == f && !x.relaxed
  (s.inbound.filter mine).foldl (fun s x => outsideWrite s x.pa x.bytes) { s with inbound := s.inbound.filter (fun x => !mine x) }

/-! ## Host-side writes of registers -/

/-- A host-side write: K is the driver of a virtual function, H that of the physical function (R324). A write from below the
register's level, or not aligned, changes nothing; in minimal mode only the physical function is there (R338). A tail write comes after
the function's earlier posted writes (R169). -/
def execRegisterWrite (f : FuncId) (off : BitVec 16) (v : Word) (level : Priv) (s : State) : Out :=
  let o := off.toNat
  let ok : Bool := o % 8 = 0 && !(f != 0 && s.boot.minimal) && level != .user && (f != 0 || level = .hyper)
    && (match (windowLevels f o).2 with | some l => l.le level | none => false)
  .next (if ok then windowWrite (if f != 0 && o = 0x68 then landPosted s f else s) f o v else s)

/-- A tail write (R331): it comes after the function's earlier posted writes, those with Relaxed Ordering apart (R169). -/
def execSubmissionDoorbell (f : FuncId) (tail : Word32) (s : State) : Out :=
  .next (if f = 0 || s.boot.minimal then s else doorbell (landPosted s f) f tail)

/-! ## The marionette's commands and port (R347, R349) -/

/-- The command in DCMD runs when it is of the type (R349). -/
def runTyped (ty : Nat) (s : State) : Out := if bitsOf s.dbg.dcmd.toNat 24 8 = ty then .next (runCommand s) else .next s
/-- A register command (R349). -/
def execAbstractRegister (s : State) : Out := runTyped 0 s
/-- A memory command (R349). -/
def execAbstractMemory (s : State) : Out := runTyped 1 s
/-- An element-range command (R349). -/
def execAbstractElementRange (s : State) : Out := runTyped 2 s
/-- A granule command (R349). -/
def execAbstractGranule (s : State) : Out := runTyped 3 s
/-- An accumulator-row command (R349). -/
def execAbstractAccumulatorRow (s : State) : Out := runTyped 4 s

/-- The registers that the IEEE 1149.1 port reaches: offset 0x5000 + 8·index (R347). -/
def jtagReg (index : Nat) : Option Nat := if index ≤ 6 then some (0x5000 + 8 * index) else none
/-- The port shifts an instruction and a value in (R347). Under instruction 0x10 operation 1 reads the register at the index and
operation 2 writes it; the order of the fields, the index uppermost, and the operations' codes are the model's (log 69). -/
def jtagShift (s : State) (ir : BitVec 8) (dr : BitVec 73) : State :=
  let s := { s with jtagIr := ir, jtagDr := dr }
  if ir != 0x10#8 then s
  else match jtagReg (bitsOf dr.toNat 66 7), bitsOf dr.toNat 0 2 with
    | some off, 1 => { s with jtagDr := BitVec.ofNat 73 (bitsOf dr.toNat 66 7 * 2 ^ 66 + (physRead s off).toNat * 4 + 1) }
    | some off, 2 => physWrite s off (BitVec.ofNat 64 (bitsOf dr.toNat 2 64))
    | _, _ => s

end Sys2Proof.Machine
end

