-- ==== Sys2Proof/Machine/ScalarMem.lean ====
section
/-!
DEFINITION. Scalar loads, stores and atomics (spec 05 R81, R82; 08 R156 to R158), full-empty bits included (R73 to R75).
-/

namespace Sys2Proof.Machine

/-! ## Generic space -/

/-- The checks of R81 and R158, then what the target is used for; `hostOk` is false for an atomic that no host page carries (R37):
its access fault comes before an absent page (R374). -/
def withGeneric (s : State) (k : AccKind) (addr : Word) (w : Nat) (hostOk : Bool) (cont : State → Tgt → Out) : Out :=
  if !canonical addr then raise s 0x0C addr 0
  else if addr.toNat % w != 0 then raise s 0x03 addr 0
  else match translate s (.scalar s.curCore) s.curReq k addr hostOk with
    | (s, .error f) => scalarFail s k addr f
    | (s, .ok (t, _)) => cont s t

/-- Reads a number at a target: poisoned bytes read zero, with a check for the context (R341). -/
def readTgt (s : State) (t : Tgt) (n : Nat) : State × Nat :=
  let (bs, bad) := tgtRead s t n
  if bad then (s.poisonRead (tgtBank t), 0) else (s, leNat bs)
/-- Writes a number at a target; counters that it satisfies take the thread's critical bit (R355). -/
def writeTgt (s : State) (t : Tgt) (n v : Nat) : State := (tgtWrite s t (leBytes n v)).noteCounterWake s.cur.cbit

/-- A core's access of a window register (R4, R324): 8 bytes, at a level that may make it. -/
def windowAccess (s : State) (i : Instr) (addr : Word) (w : Nat) (f : FuncId) (off : Nat) (level : Option Priv) (cont : State → Out) : Out :=
  if w != 8 || off % 8 != 0 then raise s 0x04 addr 0
  else match level with
    | some l =>
      if l.le s.cur.priv then cont s
      else if l = .hyper && f != 0 then privilegedH s i else privileged s i
    | none => privileged s i

/-- ld and ldz (R81), with the windows as `win` reads them. -/
def loadWith (win : State → FuncId → Nat → Word) (i : Instr) (d a : SReg) (sz : Width) (off : BitVec 14) (signed : Bool) (s : State) : Out :=
  let w := Width.bytes sz
  let addr := s.sreg a + scaledOff off sz
  let ext (x : Nat) : Word := if signed then sext64 (8 * w) x else zext64 (8 * w) x
  withGeneric s .load addr w true (fun s t =>
    match t with
    | .window f o => windowAccess s i addr w f o (some (windowLevels f o).1) (fun s => .next (s.finish d (win s f o)))
    | t =>
      let (s, x) := readTgt s t w
      .next (s.finish d (ext x)))
/-- ld and ldz (R81). -/
def scalarLoad (i : Instr) (d a : SReg) (sz : Width) (off : BitVec 14) (signed : Bool) (s : State) : Out :=
  loadWith windowRead i d a sz off signed s
/-- ld (R81). -/
def execLd (d a : SReg) (sz : Width) (off : BitVec 14) (s : State) : Out := scalarLoad (.ld d a sz off) d a sz off true s
/-- ldz (R81). -/
def execLdz (d a : SReg) (sz : Width) (off : BitVec 14) (s : State) : Out := scalarLoad (.ldz d a sz off) d a sz off false s

/-- st (R81), with the windows as `win` writes them: a window write has its effect once the instruction has completed. -/
def storeWith (win : State → FuncId → Nat → Word → State) (d a : SReg) (sz : Width) (off : BitVec 14) (s : State) : Out :=
  let w := Width.bytes sz
  let addr := s.sreg a + scaledOff off sz
  let v := s.sreg d
  withGeneric s .store addr w true (fun s t =>
    match t with
    | .window f o => windowAccess s (.st d a sz off) addr w f o (windowLevels f o).2 (fun s => .next (win s.advance f o v))
    | t => .next (writeTgt s t w v.toNat).advance)
/-- st (R81). -/
def execSt (d a : SReg) (sz : Width) (off : BitVec 14) (s : State) : Out := storeWith windowWrite d a sz off s

/-! ## Scratchpad space -/

/-- The checks of R82 and R158. -/
def spadTrap (addr : Word) (w : Nat) : Option Trap :=
  if addr.toNat ≥ spadSize then some (mkTrap 0x06 addr 0)
  else if addr.toNat % w != 0 then some (mkTrap 0x03 addr 0)
  else if addr.toNat ≥ laneBase then some (mkTrap 0x04 addr 0)
  else none

/-- Reads up to 8 bytes of one allocated granule: poison reads zero (R341). -/
def spadNum (s : State) (a w : Nat) : State × Nat :=
  if s.curC.spadPoisoned a w then (s.poisonRead (coreBank s.curCore), 0) else (s, leNat (s.curC.spadRead a w))
/-- Writes up to 8 bytes of one granule; waits that it satisfies take the thread's critical bit (R355). -/
def spadPut (s : State) (a w v : Nat) : State :=
  (s.modCurC (fun c => c.spadWrite a (leBytes w v))).noteCoreWake s.curCore s.cur.cbit

/-- lds (R82, R73, R75, R76). -/
def execLds (d a : SReg) (sz : Width) (qf : LoadQual) (off : BitVec 12) (s : State) : Out :=
  let w := Width.bytes sz
  let addr := s.sreg a + scaledOff off sz
  let g := addr.toNat / 16
  match spadTrap addr w with
  | some t => .next (s.trap t)
  | none =>
    if !inAllocs s.curAllocs addr.toNat then .next ((s.noteGuardAt addr.toNat).finish d 0)
    else if qf != .plain && !s.curC.isFull g then .next (s.block (.granule [g]))
    else
      let s := if qf = .plain then s else s.takeC
      let (s, x) := spadNum s addr.toNat w
      let s := if qf = .take then s.modCurC (fun c => c.setFull g false) else s
      .next (s.finish d (sext64 (8 * w) x))

/-- sts (R82, R74, R76). -/
def execSts (d a : SReg) (sz : Width) (qf : StoreQual) (off : BitVec 12) (s : State) : Out :=
  let w := Width.bytes sz
  let addr := s.sreg a + scaledOff off sz
  let g := addr.toNat / 16
  match spadTrap addr w with
  | some t => .next (s.trap t)
  | none =>
    if !inAllocs s.curAllocs addr.toNat then .next (s.noteGuardAt addr.toNat).advance
    else
      let s := match qf with
        | .plain => s
        | .fill => s.modCurC (fun c => c.setFull g true)
        | .drain => s.modCurC (fun c => c.setFull g false)
      .next (spadPut s addr.toNat w (s.sreg d).toNat).advance

/-! ## Atomics (R157) -/

/-- Members of ATOM. -/
inductive AtomOp where
  | swap | add | and | or | xor | min | max | minw | maxw | cas
deriving DecidableEq, Repr

/-- The value that an atomic of n bits writes, if any. -/
def AtomOp.value (o : AtomOp) (n old x cmp : Nat) : Option Nat :=
  match o with
  | .swap => some x
  | .add => some ((old + x) % 2 ^ n)
  | .and => some (old &&& x)
  | .or => some (old ||| x)
  | .xor => some (old ^^^ x)
  | .min => some (if signedOf n x < signedOf n old then x else old)
  | .max => some (if signedOf n old < signedOf n x then x else old)
  | .minw => some (if x < old then x else old)
  | .maxw => some (if old < x then x else old)
  | .cas => if old = cmp then some x else none

/-- Members that a host page carries (R37, R158). -/
def AtomOp.onHost (o : AtomOp) : Bool :=
  match o with | .swap => true | .add => true | .cas => true | _ => false

/-- An atomic at a generic target: the old value and the state after the write (R157). -/
def atomAt (s : State) (t : Tgt) (o : AtomOp) (w x cmp : Nat) : State × Nat :=
  let (s, old) := readTgt s t w
  match o.value (8 * w) old x cmp with
  | some v => (writeTgt s t w v, old)
  | none => (s, old)

/-- A target that an atomic may name (R158 order 4; host pages are told apart before: `withGeneric`). -/
def atomicMayName (t : Tgt) : Bool :=
  match t with | .window _ _ => false | _ => true

/-- An atomic of either space (R157, R158, R76). -/
def atomic (o : AtomOp) (d a b : SReg) (dbl spad : Bool) (s : State) : Out :=
  let w := if dbl then 8 else 4
  let addr := s.sreg a
  let x := (s.sreg b).toNat % 2 ^ (8 * w)
  let cmp := (s.sreg d).toNat % 2 ^ (8 * w)
  if spad then
    match spadTrap addr w with
    | some t => .next (s.trap t)
    | none =>
      if !inAllocs s.curAllocs addr.toNat then .next ((s.noteGuardAt addr.toNat).finish d 0)
      else
        let (s, old) := spadNum s addr.toNat w
        let s := match o.value (8 * w) old x cmp with | some v => spadPut s addr.toNat w v | none => s
        .next (s.finish d (sext64 (8 * w) old))
  else
    withGeneric s .atomic addr w o.onHost (fun s t =>
      if atomicMayName t then
        let (s, old) := atomAt s t o w x cmp
        .next (s.finish d (sext64 (8 * w) old))
      else raise s 0x04 addr 0)

/-- amoswap (R157); ordering and scope hold of every access of one step at a time (log 1). -/
def execAmoswap (d a b : SReg) (_ : Order) (_ : Scope) (dbl spad : Bool) (s : State) : Out := atomic .swap d a b dbl spad s
/-- amoadd (R157). -/
def execAmoadd (d a b : SReg) (_ : Order) (_ : Scope) (dbl spad : Bool) (s : State) : Out := atomic .add d a b dbl spad s
/-- amoand (R157). -/
def execAmoand (d a b : SReg) (_ : Order) (_ : Scope) (dbl spad : Bool) (s : State) : Out := atomic .and d a b dbl spad s
/-- amoor (R157). -/
def execAmoor (d a b : SReg) (_ : Order) (_ : Scope) (dbl spad : Bool) (s : State) : Out := atomic .or d a b dbl spad s
/-- amoxor (R157). -/
def execAmoxor (d a b : SReg) (_ : Order) (_ : Scope) (dbl spad : Bool) (s : State) : Out := atomic .xor d a b dbl spad s
/-- amomin (R157). -/
def execAmomin (d a b : SReg) (_ : Order) (_ : Scope) (dbl spad : Bool) (s : State) : Out := atomic .min d a b dbl spad s
/-- amomax (R157). -/
def execAmomax (d a b : SReg) (_ : Order) (_ : Scope) (dbl spad : Bool) (s : State) : Out := atomic .max d a b dbl spad s
/-- amominw (R157). -/
def execAmominw (d a b : SReg) (_ : Order) (_ : Scope) (dbl spad : Bool) (s : State) : Out := atomic .minw d a b dbl spad s
/-- amomaxw (R157). -/
def execAmomaxw (d a b : SReg) (_ : Order) (_ : Scope) (dbl spad : Bool) (s : State) : Out := atomic .maxw d a b dbl spad s
/-- amocas (R157). -/
def execAmocas (d a b : SReg) (_ : Order) (_ : Scope) (dbl spad : Bool) (s : State) : Out := atomic .cas d a b dbl spad s

end Sys2Proof.Machine
end

