-- ==== Sys2Proof/Machine/VecMem.lean ====
section
/-!
DEFINITION. Vector loads and stores (spec 05 R83 to R87, R73 to R78; 04 R66, R67; 18 R332).
-/

namespace Sys2Proof.Machine

/-! ## Addresses and values (R83) -/

/-- Address modes. -/
inductive VMode where
  | unit
  | strided (x : SReg)
  | indexed (x : VReg)
deriving DecidableEq, Repr

/-- Addresses of the elements of an access. -/
def VMode.addr (m : VMode) (e : LaneEnv) (v : VecUnit) (base : Word) (w i : Nat) : Word :=
  match m with
  | .unit => base + BitVec.ofNat 64 (i * w)
  | .strided x => base + BitVec.ofNat 64 i * e.sreg x
  | .indexed x => base + sext64 e.n (elemGet v.regs[x].bits e.n i)
/-- The index register of a mode. -/
def VMode.index (m : VMode) : List VReg := match m with | .indexed x => [x] | _ => []

/-- What an element holds after loading x of w bytes at an element width of n bits. -/
def loadElem (w n x : Nat) : Nat := wrapInt n (signedOf (8 * w) x)
/-- What an element of n bits stores into w bytes. -/
def storeElem (w n x : Nat) : Nat := wrapInt (8 * w) (signedOf n x)

/-- The tags of a load (R83); a poisoned element adds the residue flag (R341). -/
def loadTag (bad : Bool) : VTag := ⟨infBound, 0, if bad then 9 else 1⟩

/-- Writes loaded elements (element, value); a load of no element leaves the register. With `more` an earlier part of the load has
been done: a residue flag from then stays. -/
def putLoaded (s : State) (vd : VReg) (n : Nat) (l : List (Nat × Nat)) (bad more : Bool) : State :=
  if l.isEmpty then s else s.modV vd (fun old => { old.write n l with tag := loadTag (bad || (more && old.tag.flags.getLsbD 3)) })
/-- A completed load's register (R181). -/
def loaded (e : LaneEnv) (s : State) (vd : VReg) : State := if e.vl = 0 then s else s.modV vd (fun x => { x with vpx := 4096 })
/-- Elements of one element group (R179). -/
def groupSize (e : LaneEnv) : Nat := 256 / sewOf e.vtype

/-! ## Element checks (R84) -/

/-- What an element met. -/
inductive ElemRes (α : Type) where
  | ok (x : α)
  /-- A page fault: reason and where. -/
  | page (reason loc : Nat)
  /-- Any other kind: cause, tval. -/
  | hard (cause : BitVec 8) (tval : Word)
  | absent (page : Nat)
deriving DecidableEq, Repr

/-- The failing elements' lowest, with what it met. -/
def firstFail {α : Type} (l : List (Nat × ElemRes α)) : Option (Nat × ElemRes α) :=
  l.find? (fun p => match p.2 with | .ok _ => false | _ => true)
/-- The elements that met nothing, below a bound. -/
def okBelow {α : Type} (l : List (Nat × ElemRes α)) (n : Nat) : List (Nat × α) :=
  l.filterMap (fun p => match p.2 with | .ok x => if p.1 < n then some (p.1, x) else none | _ => none)

/-- A mask of the listed elements. -/
def maskOf (l : List Nat) : MaskBits := BitVec.ofNat 4096 (l.foldl (fun a i => a ||| 2 ^ i) 0)

/-! ## Generic accesses -/

/-- A window register takes 8 aligned bytes, at a level that may access it (R4, R324). -/
def windowElem (s : State) (word : Word) (f : FuncId) (o w : Nat) (store : Bool) (addr : Word) : Option (BitVec 8 × Word) :=
  let lv := windowLevels f o
  if w != 8 || o % 8 != 0 then some (0x04, addr)
  else match (if store then lv.2 else some lv.1) with
    | some l => if l.le s.cur.priv then none else some (0x02, word)
    | none => some (0x02, word)

/-- Translations that the elements of one access share: key (element group of an indexed access, page), and what the lookup gave. -/
abbrev Lookups := List ((Nat × Nat) × Except (Nat × Nat) LeafInfo)

/-- Looks an element's page up, or shares an earlier element's lookup (R60, R61): a unit or strided access translates once per page
crossed, so `keep` is the last lookup alone; an indexed one shares within an element group. -/
def sharedLeaf (s : State) (u : XUnit) (write : Bool) (group va : Nat) (known : Lookups) : State × Except (Nat × Nat) LeafInfo × Lookups :=
  let key := (group, bitsOf va 16 41)
  match known.find? (fun x => x.1 == key) with
  | some x => (s, x.2, known)
  | none =>
    let (s, r) := leafOf s u s.curReq write false va
    let keep : Lookups := match u with | .gather _ => known | _ => []
    (s, r, (key, r) :: keep)

/-- Checks one element (R84): canonical form, alignment, translation. -/
def genericElem (s : State) (u : XUnit) (word : Word) (k : AccKind) (w group : Nat) (addr : Word) (known : Lookups) :
    State × ElemRes (Tgt × LeafInfo) × Lookups :=
  if !canonical addr then (s, .hard 0x0C addr, known)
  else if addr.toNat % w != 0 then (s, .hard 0x03 addr, known)
  else match sharedLeaf s u k.writes group addr.toNat known with
    | (s, .error (r, l), known) => (s, .page r l, known)
    | (s, .ok lf, known) =>
      match checkLeaf s s.curReq k addr true lf with
      | (s, .error (.page r l)) => (s, .page r l, known)
      | (s, .error .access) => (s, .hard 0x04 addr, known)
      | (s, .error (.absent p)) => if s.cur.answered.contains (p, false) then (s, .page 7 0, known) else (s, .absent p, known)
      | (s, .ok (.window f o, lf)) =>
        match windowElem s word f o w (k == .store) addr with
        | some (c, v) => (s, .hard c v, known)
        | none => (s, .ok (.window f o, lf), known)
      | (s, .ok x) => (s, .ok x, known)

/-- Checks every element in order; `g` elements form an element group of an indexed access. -/
def genericElems (s : State) (u : XUnit) (word : Word) (k : AccKind) (w g : Nat) (f : Nat → Word) (known : Lookups) :
    List Nat → State × List (Nat × ElemRes (Tgt × LeafInfo))
  | [] => (s, [])
  | i :: t =>
    let (s, r, known) := genericElem s u word k w (match u with | .gather _ => i / g | _ => 0) (f i) known
    let (s, l) := genericElems s u word k w g f known t
    (s, (i, r) :: l)

/-- The entries of a batch record: distinct pages in order of their lowest element (R67). -/
def pageEntries (f : Nat → Word) (l : List (Nat × ElemRes (Tgt × LeafInfo))) : List PageEntry :=
  l.foldl (fun acc p => match p.2 with
    | .page r loc => let a := pageAddr (f p.1); if acc.any (fun x => x.page == a) then acc else acc ++ [⟨a, p.1, r, loc⟩]
    | _ => acc) []

/-- The elements of a vector access that are performed, and how the instruction ends. -/
structure VPlan where
  perform : List (Nat × Tgt)
  /-- Ends the instruction, from the state after the performed elements. -/
  ending : State → LaneRes

/-- Decides what a generic access performs (R66, R84, R332). `ordered` holds back what follows the lowest page fault. An element that
meets an absent host page beside a lower page fault joins the fault mask unlisted, and counts in nmask (log 63). -/
def genericPlan (e : LaneEnv) (k : AccKind) (f : Nat → Word) (ordered : Bool)
    (l : List (Nat × ElemRes (Tgt × LeafInfo))) : VPlan :=
  let pick (n : Nat) : List (Nat × Tgt) := (okBelow l n).map (fun p => (p.1, p.2.1))
  match firstFail l with
  | none => ⟨pick 4096, .done⟩
  | some (n, .page _ _) =>
    let strong := k == .store && l.any (fun p => match p.2 with | .ok x => x.2.kind = 1 | _ => false)
    let hold := ordered || strong
    let failing := l.filterMap (fun p => match p.2 with | .ok _ => if hold && p.1 > n then some p.1 else none | _ => some p.1)
    let held := hold && l.any (fun p => decide (p.1 > n))
    let entries := if hold then pageEntries f (l.filter (fun p => p.1 ≤ n)) else pageEntries f l
    ⟨pick (if hold then n else 4096), fun s => .batch s (accKindCode k) entries held (maskOf failing)⟩
  | some (n, .hard c v) => ⟨pick n, fun s => .stop s (mkTrap c v (BitVec.ofNat 64 n)) n⟩
  | some (n, .absent p) =>
    let start := max e.start (n / groupSize e * groupSize e)
    ⟨pick start, fun s => .wait (requestPage s s.curPart p) (.hostPage p false) start⟩
  | some (_, .ok _) => ⟨pick 4096, .done⟩

/-- A refusal that a page fault has reported is answered (R332). -/
def dropRefusals (r : LaneRes) : LaneRes :=
  match r with
  | .batch s' k p h m => .batch (s'.modCur (fun t => { t with answered := t.answered.filter (fun x => x.2) })) k p h m
  | r => r

/-- Loads elements from their targets: poisoned ones read zero (R341). -/
def loadTargets (s : State) (w n : Nat) : List (Nat × Tgt) → State × List (Nat × Nat) × Bool
  | [] => (s, [], false)
  | (i, t) :: l =>
    let (s, x, bad) : State × Nat × Bool := match t with
      | .window f o => (s, (windowRead s f o).toNat, false)
      | t => let (bs, p) := tgtRead s t w; if p then (s.poisonRead (tgtBank t), 0, true) else (s, leNat bs, false)
    let (s, r, b) := loadTargets s w n l
    (s, (i, loadElem w n x) :: r, bad || b)

/-- A generic load (R83, R84). -/
def opVload (word : Word) (vd : VReg) (a : SReg) (m : VMode) (ew : Width) (mk : MkField) : LaneOp where
  dest := some vd
  srcs := m.index
  rep := none
  run := fun e s =>
    let v := s.curC.vec
    let w := Width.bytes ew
    let f := m.addr e v (e.sreg a) w
    let u : XUnit := match m with | .indexed _ => .gather s.curCore | _ => .vector s.curCore
    let (s, l) := genericElems s u word .load w (groupSize e) f [] (e.elems v mk e.vl)
    let plan := genericPlan e .load f false l
    let (s, vals, bad) := loadTargets s w e.n plan.perform
    let s := putLoaded s vd e.n vals bad (e.earlier v mk vd)
    match dropRefusals (plan.ending s) with
    | .done s => .done (loaded e s vd)
    | r => r

/-- The bytes of two targets meet. -/
def Tgt.meets (a b : Tgt) (w : Nat) : Bool :=
  match a, b with
  | .wm x, .wm y => decide (x < y + w) && decide (y < x + w)
  | .host x, .host y => decide (x < y + w) && decide (y < x + w)
  | .peer p x, .peer q y => p == q && decide (x < y + w) && decide (y < x + w)
  | _, _ => false

/-- The elements of an unordered scatter in an order that leaves what R86 allows: an element goes behind the ones it meets, or
before them, by a free choice (log 16). Aligned elements of one width meet only where they have one address. -/
def scatterOrder {α : Type} (n : Nat) (meets : α → α → Bool) (l : List (Nat × α)) : List (Nat × α) :=
  l.foldl (fun acc p =>
    if Config.scatterTakesLater (4096 * n + p.1) || !acc.any (fun q => meets q.2 p.2) then acc ++ [p] else p :: acc) []

/-- A granule of working memory that the elements of a store cover together is no longer poisoned (R341). -/
def clearCoveredWm (s : State) (w : Nat) (l : List (Nat × Tgt)) : State :=
  let bytes := l.flatMap (fun p => match p.2 with | .wm pa => (List.range w).map (fun i => pa + i) | _ => [])
  { s with wmPoison := s.wmPoison.filter (fun g => !(List.range 16).all (fun i => bytes.contains (16 * g + i))) }
/-- Stores elements at their targets in order; window registers come last. -/
def storeTargets (s : State) (w : Nat) (l : List (Nat × Tgt)) (val : Nat → Nat) : State :=
  clearCoveredWm (l.foldl (fun s p => match p.2 with | .window _ _ => s | t => tgtWrite s t (leBytes w (val p.1))) s) w l
/-- The window registers that a store writes, in order. -/
def storeWindows (l : List (Nat × Tgt)) (val : Nat → Nat) (s : State) : State :=
  l.foldl (fun s p => match p.2 with | .window f o => windowWrite s f o (BitVec.ofNat 64 (val p.1)) | _ => s) s

/-- A generic store (R83, R84, R86). -/
def opVstore (word : Word) (vd : VReg) (a : SReg) (m : VMode) (ordered : Bool) (ew : Width) (mk : MkField) : LaneOp where
  dest := none
  srcs := vd :: m.index
  rep := none
  run := fun e s =>
    let v := s.curC.vec
    let w := Width.bytes ew
    let f := m.addr e v (e.sreg a) w
    let val (i : Nat) : Nat := storeElem w e.n (elemGet v.regs[vd].bits e.n i)
    let u : XUnit := match m with | .indexed _ => .gather s.curCore | _ => .vector s.curCore
    let (s, l) := genericElems s u word .store w (groupSize e) f [] (e.elems v mk e.vl)
    let plan := genericPlan e .store f (ordered && m.index != []) l
    let (n, s) := s.draw
    let order := match m with
      | .indexed _ => if ordered then plan.perform else scatterOrder n (fun x y => Tgt.meets x y w) plan.perform
      | _ => plan.perform
    let put (s : State) : State := (storeTargets s w order val).noteCounterWake s.cur.cbit
    let windows := order.any (fun p => match p.2 with | .window _ _ => true | _ => false)
    match dropRefusals (plan.ending s) with
    | .done s => if windows then .doneThen (put s) (storeWindows order val) else .done (put s)
    | .stop s tr i => .stop (storeWindows order val (put s)) tr i
    | .batch s k p h mask => .batch (storeWindows order val (put s)) k p h mask
    | .wait s w' i => .wait (storeWindows order val (put s)) w' i
    | r => r

/-! ## Scratchpad accesses -/

/-- Where an element lies in the scratchpad: pieces of consecutive bytes, and whether it is a guard access. -/
structure SpadElem where
  pieces : List (Nat × Nat)
  guarded : Bool

/-- Checks a scratchpad element (R84, R76). -/
def spadElem (s : State) (w : Nat) (addr : Word) : ElemRes SpadElem :=
  match spadTrap addr w with
  | some t => .hard t.cause addr
  | none => .ok ⟨[(addr.toNat, w)], !inAllocs s.curAllocs addr.toNat⟩

/-- Slice offset and lane of register byte B under a base (R78). -/
def laneOffset (base : Word) (B : Nat) : Word := base + BitVec.ofNat 64 (B / 256 * 4 + B % 4)
/-- Checks a lane-local element: byte B = i·w on (R78, R84). -/
def laneElem (s : State) (w : Nat) (base : Word) (i : Nat) : ElemRes SpadElem :=
  let B := i * w
  let o := laneOffset base B
  let L := B / 4 % 64
  if o.toNat ≥ 0x2000 then .hard 0x06 o
  else
    let at_ (L : Nat) : Nat := laneBase + 0x2000 * L + o.toNat
    .ok ⟨if w = 8 then [(at_ L, 4), (at_ (L + 1), 4)] else [(at_ L, w)], !inLaneAllocs s.curAllocs o.toNat⟩

/-- Granules of an element. -/
def SpadElem.granules (x : SpadElem) : List Nat := x.pieces.map (fun p => p.1 / 16)

/-- Every element's place, in order, executing or not. -/
def spadElems (f : Nat → ElemRes SpadElem) (l : List Nat) : List (Nat × ElemRes SpadElem) := l.map (fun i => (i, f i))

/-- Granules that a group must find F: those of its elements that are no guard access, less those that an earlier executing
element of the instruction touches (R75). `all` lists the instruction's executing elements. -/
def groupGranules (all group : List (Nat × SpadElem)) : List Nat :=
  (group.filter (fun p => !p.2.guarded)).foldl (fun acc p =>
    acc ++ (p.2.granules.filter (fun g => !all.any (fun q => decide (q.1 < p.1) && q.2.granules.contains g)))) []

/-- Reads an element: guard accesses read zero, poisoned granules too (R76, R341). -/
def readSpadElem (s : State) (x : SpadElem) : State × Nat × Bool :=
  if x.guarded then (s, 0, false)
  else if x.pieces.any (fun p => s.curC.spadPoisoned p.1 p.2) then (s.poisonRead (coreBank s.curCore), 0, true)
  else (s, leNat (x.pieces.map (fun p => s.curC.spadRead p.1 p.2)).flatten, false)

/-- Loads a group. -/
def loadGroup (s : State) (w n : Nat) : List (Nat × SpadElem) → State × List (Nat × Nat) × Bool
  | [] => (s, [], false)
  | (i, x) :: l =>
    let (s, v, bad) := readSpadElem s x
    let (s, r, b) := loadGroup s w n l
    (s, (i, loadElem w n v) :: r, bad || b)

/-- The first guard access of the performed elements is recorded, once for an instruction (R76, R77): one whose elements below
vstart made a guard access has been recorded. -/
def noteGuards (s : State) (pc : Word) (start : Nat) (all done : List (Nat × SpadElem)) : State :=
  if s.cur.guard.isSome && all.any (fun p => p.2.guarded && decide (p.1 < start)) then s
  else match done.find? (fun p => p.2.guarded) with
  | some p => s.modCur (fun t => t.noteGuard pc ((p.2.pieces.headD (0, 0)).1))
  | none => s

/-- Loads groups in order, each when its granules are F (R75): the state, and where it waits. -/
def loadGroups (s : State) (e : LaneEnv) (vd : VReg) (w : Nat) (qf : LoadQual) (all : List (Nat × SpadElem)) (more : Bool) :
    List (Nat × List (Nat × SpadElem)) → State × Option (List Nat × Nat)
  | [] => (s, none)
  | (start, group) :: rest =>
    let gs := if qf = .plain then [] else groupGranules all group
    let missing := gs.filter (fun g => !s.curC.isFull g)
    if !missing.isEmpty then (s, some (gs, start))
    else
      let s := if gs.isEmpty then s else s.takeC
      let (s, vals, bad) := loadGroup s w e.n group
      let s := if qf = .take then s.modCurC (fun c => gs.foldl (fun c g => c.setFull g false) c) else s
      loadGroups (putLoaded s vd e.n vals bad more) e vd w qf all true rest

/-- Cuts elements into element groups, each with where the instruction stops before it. -/
def cutGroups (e : LaneEnv) (l : List (Nat × SpadElem)) : List (Nat × List (Nat × SpadElem)) :=
  let g := groupSize e
  ((List.range (e.vl / g + 1)).map (fun j => (max e.start (j * g), l.filter (fun p => p.1 / g = j)))).filter (fun x => !x.2.isEmpty)

/-- A misplaced base of a lane-local access stops it before any element (R78). -/
def laneTrap (base : Word) (lane any : Bool) : Option Trap :=
  if lane && any && base.toNat % 4 != 0 then some (mkTrap 0x03 base 0) else none

/-- A scratchpad or lane-local load (R83, R73 to R78). -/
def opVloadSpad (vd : VReg) (a : SReg) (m : VMode) (lane : Bool) (ew : Width) (qf : LoadQual) (mk : MkField) : LaneOp where
  dest := some vd
  srcs := m.index
  rep := none
  run := fun e s =>
    let v := s.curC.vec
    let w := Width.bytes ew
    let base := e.sreg a
    let place (i : Nat) : ElemRes SpadElem := if lane then laneElem s w base i else spadElem s w (m.addr e v base w i)
    let idx := e.elems v mk e.vl
    match laneTrap base lane (!idx.isEmpty) with
    | some t => .early s t
    | none =>
      let l := spadElems place idx
      let bound := match firstFail l with | some (n, _) => n | none => 4096
      let run := okBelow l bound
      -- elements below vstart count as executing ones (R75)
      let all := okBelow (spadElems place ((List.range e.vl).filter (fun i => e.peers.getLsbD i && maskOn v mk i))) bound
      match loadGroups s e vd w qf all (e.earlier v mk vd) (cutGroups e run) with
      | (s, some (gs, i)) => .wait (noteGuards s e.pc e.start all (run.filter (fun p => decide (p.1 < i)))) (.granule gs) i
      | (s, none) =>
        let s := noteGuards s e.pc e.start all run
        match firstFail l with
        | some (n, .hard c x) => .stop s (mkTrap c x (BitVec.ofNat 64 n)) n
        | _ => .done (loaded e s vd)

/-- Two elements' pieces meet. -/
def SpadElem.meets (a b : SpadElem) : Bool :=
  a.pieces.any (fun p => b.pieces.any (fun q => decide (p.1 < q.1 + q.2) && decide (q.1 < p.1 + p.2)))

/-- Writes an element; a guard access is discarded (R76). The bit of a granule in `later`, which the store has yet to write, stands
(R74). -/
def writeSpadElem (c : Core) (x : SpadElem) (w v : Nat) (qf : StoreQual) (later : List Nat) : Core :=
  if x.guarded then c
  else
    let c := (x.pieces.foldl (fun (y : Core × List Byte) p => (y.1.spadWrite p.1 (y.2.take p.2), y.2.drop p.2)) (c, leBytes w v)).1
    let gs := x.granules.filter (fun g => !later.contains g)
    match qf with
    | .plain => c
    | .fill => gs.foldl (fun c g => c.setFull g true) c
    | .drain => gs.foldl (fun c g => c.setFull g false) c

/-- A granule that the elements together cover is no longer poisoned (R341). -/
def clearCovered (c : Core) (l : List SpadElem) : Core :=
  let bytes := (l.filter (fun x => !x.guarded)).flatMap (fun x => x.pieces.flatMap (fun p => (List.range p.2).map (fun i => p.1 + i)))
  { c with spadPoison := c.spadPoison.filter (fun g => !(List.range 16).all (fun i => bytes.contains (16 * g + i))) }

/-- A scratchpad or lane-local store (R83, R74, R76, R86). -/
def opVstoreSpad (vd : VReg) (a : SReg) (m : VMode) (lane ordered : Bool) (ew : Width) (qf : StoreQual) (mk : MkField) : LaneOp where
  dest := none
  srcs := vd :: m.index
  rep := none
  run := fun e s =>
    let v := s.curC.vec
    let w := Width.bytes ew
    let base := e.sreg a
    let place (i : Nat) : ElemRes SpadElem := if lane then laneElem s w base i else spadElem s w (m.addr e v base w i)
    let idx := e.elems v mk e.vl
    match laneTrap base lane (!idx.isEmpty) with
    | some t => .early s t
    | none =>
      let l := spadElems place idx
      let bound := match firstFail l with | some (n, _) => n | none => 4096
      let run := okBelow l bound
      let all := spadElems place ((List.range e.full).filter (fun i => e.peers.getLsbD i && maskOn v mk i))
      let later := (okBelow (all.filter (fun p => decide (bound ≤ p.1) || decide (e.vl ≤ p.1))) 4096).flatMap (fun p => p.2.granules)
      let (n, s) := s.draw
      let order := match m with
        | .indexed _ => if ordered then run else scatterOrder n SpadElem.meets run
        | _ => run
      let s := s.modCurC (fun c => clearCovered
        (order.foldl (fun c p => writeSpadElem c p.2 w (storeElem w e.n (elemGet v.regs[vd].bits e.n p.1)) qf later) c) (run.map (·.2)))
      let s := (noteGuards s e.pc e.start (okBelow all 4096) run).noteCoreWake s.curCore s.cur.cbit
      match firstFail l with
      | some (n, .hard c x) => .stop s (mkTrap c x (BitVec.ofNat 64 n)) n
      | _ => .done s

/-! ## The members (R85) -/

/-- vld. -/
def execVld (vd : VReg) (a : SReg) (ew : Width) (mk : MkField) (s : State) : Out :=
  issueLane (opVload (wordOf (.vld vd a ew mk)) vd a .unit ew mk) s
/-- vldk. -/
def execVldk (vd : VReg) (a x : SReg) (ew : Width) (mk : MkField) (s : State) : Out :=
  issueLane (opVload (wordOf (.vldk vd a x ew mk)) vd a (.strided x) ew mk) s
/-- vldx. -/
def execVldx (vd : VReg) (a : SReg) (vx : VReg) (ew : Width) (mk : MkField) (s : State) : Out :=
  issueLane (opVload (wordOf (.vldx vd a vx ew mk)) vd a (.indexed vx) ew mk) s
/-- vst. -/
def execVst (vd : VReg) (a : SReg) (ew : Width) (mk : MkField) (s : State) : Out :=
  issueLane (opVstore (wordOf (.vst vd a ew mk)) vd a .unit true ew mk) s
/-- vstk. -/
def execVstk (vd : VReg) (a x : SReg) (ew : Width) (mk : MkField) (s : State) : Out :=
  issueLane (opVstore (wordOf (.vstk vd a x ew mk)) vd a (.strided x) true ew mk) s
/-- vstx. -/
def execVstx (vd : VReg) (a : SReg) (vx : VReg) (ew : Width) (mk : MkField) (s : State) : Out :=
  issueLane (opVstore (wordOf (.vstx vd a vx ew mk)) vd a (.indexed vx) false ew mk) s
/-- vstxo. -/
def execVstxo (vd : VReg) (a : SReg) (vx : VReg) (ew : Width) (mk : MkField) (s : State) : Out :=
  issueLane (opVstore (wordOf (.vstxo vd a vx ew mk)) vd a (.indexed vx) true ew mk) s
/-- vlp. -/
def execVlp (vd : VReg) (a : SReg) (ew : Width) (qf : LoadQual) (mk : MkField) (s : State) : Out :=
  issueLane (opVloadSpad vd a .unit false ew qf mk) s
/-- vlpk. -/
def execVlpk (vd : VReg) (a x : SReg) (ew : Width) (qf : LoadQual) (mk : MkField) (s : State) : Out :=
  issueLane (opVloadSpad vd a (.strided x) false ew qf mk) s
/-- vlpx. -/
def execVlpx (vd : VReg) (a : SReg) (vx : VReg) (ew : Width) (qf : LoadQual) (mk : MkField) (s : State) : Out :=
  issueLane (opVloadSpad vd a (.indexed vx) false ew qf mk) s
/-- vlpl. -/
def execVlpl (vd : VReg) (a : SReg) (ew : Width) (qf : LoadQual) (mk : MkField) (s : State) : Out :=
  issueLane (opVloadSpad vd a .unit true ew qf mk) s
/-- vsp. -/
def execVsp (vd : VReg) (a : SReg) (ew : Width) (qf : StoreQual) (mk : MkField) (s : State) : Out :=
  issueLane (opVstoreSpad vd a .unit false true ew qf mk) s
/-- vspk. -/
def execVspk (vd : VReg) (a x : SReg) (ew : Width) (qf : StoreQual) (mk : MkField) (s : State) : Out :=
  issueLane (opVstoreSpad vd a (.strided x) false true ew qf mk) s
/-- vspx. -/
def execVspx (vd : VReg) (a : SReg) (vx : VReg) (ew : Width) (qf : StoreQual) (mk : MkField) (s : State) : Out :=
  issueLane (opVstoreSpad vd a (.indexed vx) false false ew qf mk) s
/-- vspxo. -/
def execVspxo (vd : VReg) (a : SReg) (vx : VReg) (ew : Width) (qf : StoreQual) (mk : MkField) (s : State) : Out :=
  issueLane (opVstoreSpad vd a (.indexed vx) false true ew qf mk) s
/-- vspl. -/
def execVspl (vd : VReg) (a : SReg) (ew : Width) (qf : StoreQual) (mk : MkField) (s : State) : Out :=
  issueLane (opVstoreSpad vd a .unit true true ew qf mk) s

end Sys2Proof.Machine
end

