-- ==== Sys2Proof/Machine/Bnd.lean ====
section
/-!
DEFINITION. The BND group (spec 15 R294, R295).
-/

namespace Sys2Proof.Machine

/-- The first 8 bytes of a register as a sidecar image. -/
def VecReg.image (r : VecReg) : Nat := elemGet r.bits 64 0

/-- vbget (R295): the image is formed before vd is written. -/
def opVbget (vd va : VReg) : LaneOp where
  dest := some vd
  srcs := []
  rep := none
  split := false
  run := fun _ s =>
    let img := tagBytes (s.vreg va).tag
    .done (s.modV vd (fun x => { x.write 64 [(0, img)] with tag := ⟨0, 0, 0⟩, vpx := 4096 }))
/-- vbget issued by a thread (R295). -/
def execVbget (vd va : VReg) (s : State) : Out := issueLane (opVbget vd va) s

/-- vbset (R295). -/
def opVbset (vd va : VReg) : LaneOp where
  dest := some vd
  srcs := [va]
  rep := none
  split := false
  run := fun _ s => .done (s.modV vd (fun x => { x with tag := tagOfBytes (s.vreg va).image }))
/-- vbset issued by a thread (R295). -/
def execVbset (vd va : VReg) (s : State) : Out := issueLane (opVbset vd va) s

/-- The checks of a sidecar's address in scratchpad (R82). -/
def sideSpad (s : State) (addr : Word) (k : State → LaneRes) : LaneRes :=
  match spadTrap addr 8 with | some t => .whole s t | none => k s
/-- The checks of a sidecar's generic address (R81). -/
def sideGeneric (s : State) (word : Word) (a : AccKind) (addr : Word) (k : State → Tgt → LaneRes) : LaneRes :=
  match genericElem s (.vector s.curCore) word a 8 0 addr [] with
  | (s, .ok (t, _), _) => k s t
  | (s, .page r l, _) => .other (.next (scalarPageFault (s.modCur (fun t => { t with vstart := 0, answered := t.answered.filter (fun x => x.2) })) a addr r l))
  | (s, .hard c v, _) => .whole s (mkTrap c v 0)
  | (s, .absent p, _) => .other (.next ((requestPage s s.curPart p).block (.hostPage p false)))

/-- vstb (R295, R76). -/
def opVstb (word : Word) (vd : VReg) (a : SReg) (spad : Bool) : LaneOp where
  dest := none
  srcs := []
  rep := none
  split := false
  run := fun e s =>
    let addr := e.sreg a - 8
    let v := tagBytes (s.vreg vd).tag
    if spad then sideSpad s addr (fun s => .done ((s.guardWrite addr.toNat (leBytes 8 v)).noteCoreWake s.curCore s.cur.cbit))
    else sideGeneric s word .store addr (fun s t =>
      match t with
      | .window f o => .doneThen s (fun s => windowWrite s f o (BitVec.ofNat 64 v))
      | t => .done (writeTgt s t 8 v))
/-- vstb issued by a thread (R295). -/
def execVstb (vd : VReg) (a : SReg) (spad : Bool) (s : State) : Out := issueLane (opVstb (wordOf (.vstb vd a spad)) vd a spad) s

/-- The tags that 8 bytes give; poisoned ones give +∞ with the residue flag (R291, R341). -/
def sideTag (x : Nat) (bad : Bool) : VTag := if bad then ⟨infBound, 0, 8⟩ else tagOfBytes x

/-- vldb (R295, R76). -/
def opVldb (word : Word) (vd : VReg) (a : SReg) (spad : Bool) : LaneOp where
  dest := some vd
  srcs := []
  rep := none
  split := false
  run := fun e s =>
    let addr := e.sreg a - 8
    let put (s : State) (x : Nat) (bad : Bool) : LaneRes := .done (s.modV vd (fun r => { r with tag := sideTag x bad }))
    if spad then sideSpad s addr (fun s =>
      let (s, bs, bad) := s.guardRead addr.toNat 8
      put s (leNat bs) bad)
    else sideGeneric s word .load addr (fun s t =>
      match t with
      | .window f o => put s (windowRead s f o).toNat false
      | t =>
        let (bs, bad) := tgtRead s t 8
        put (if bad then s.poisonRead (tgtBank t) else s) (leNat bs) bad)
/-- vldb issued by a thread (R295). -/
def execVldb (vd : VReg) (a : SReg) (spad : Bool) (s : State) : Out := issueLane (opVldb (wordOf (.vldb vd a spad)) vd a spad) s

end Sys2Proof.Machine
end

