-- ==== Sys2Proof/Machine/VecFp.lean ====
section
/-!
DEFINITION. Vector floating point, comparisons and vcvt (spec 12 R219, R224, R225; 13 R243 to R247; 15 R290).
-/

namespace Sys2Proof.Machine

/-! ## Operands and results under a VTYPE (R219) -/

/-- The format in which a member computes: f32 at SEW 8. -/
def calcFmt (vt : BitVec 11) : ElemType := computing (fmtOfVt vt)

/-- Zero of its sign for a subnormal of a flushed format (R243). -/
def flushBits (t : ElemType) (on : Bool) (x : Nat) : Nat × Bool :=
  if on && t.isWideFloat && isSubnormal t x then (signBit t (bitsOf x (t.bits - 1) 1 == 1), true) else (x, false)

/-- An operand in the computing format: widened exactly at SEW 8, flushed under flush 01. -/
def fpIn (vt : BitVec 11) (x : Nat) : Nat × Bool :=
  match fmtOfVt vt with
  | .e4m3 =>
    -- a widened NaN stays quiet
    ((match fval .e4m3 x with | .nan _ => canonNan .f32 | v => (convFloat .f32 .rne false v).bits), false)
  | t => flushBits t (flushOf vt = 1) x

/-- A result in the element format: output flush, then conversion to e4m3 at SEW 8. -/
def fpOut (vt : BitVec 11) (r : NRes) (inFlushed : Bool) : EOut :=
  let t := calcFmt vt
  let (b, fl) := flushBits t (flushOf vt != 0) r.bits
  let flags := if fl then r.flags ||| flUF ||| flNX else r.flags
  match fmtOfVt vt with
  | .e4m3 =>
    let c := convFloat .e4m3 (rmOf vt) false (fval .f32 b)
    ⟨c.bits, flags ||| c.flags, false, false, inFlushed || fl, false⟩
  | _ => ⟨b, flags, false, false, inFlushed || fl, false⟩

/-- A floating element of three operands: f over values in the computing format. -/
def fpElem (vt : BitVec 11) (f : ElemType → Rounding → FVal → FVal → FVal → NRes) (a b d : Nat) : EOut :=
  let t := calcFmt vt
  let (x, fx) := fpIn vt a
  let (y, fy) := fpIn vt b
  let (z, fz) := fpIn vt d
  fpOut vt (f t (rmOf vt) (fval t x) (fval t y) (fval t z)) (fx || fy || fz)

/-- A floating element computed on the bits in the computing format (min and max). -/
def fpElemBits (vt : BitVec 11) (f : ElemType → Nat → Nat → NRes) (a b : Nat) : EOut :=
  let t := calcFmt vt
  let (x, fx) := fpIn vt a
  let (y, fy) := fpIn vt b
  fpOut vt (f t x y) (fx || fy)

/-- Tags of the sources, as bounds and magnitudes. -/
structure TagSrc where
  a : VTag
  b : VTag
  d : VTag
deriving DecidableEq, Repr

/-- A source's bound. -/
def VTag.bnd (t : VTag) : Bnd := Bound.ofBits t.bound
/-- A source's M. -/
def VTag.m (t : VTag) : Bnd := magM t.mag.toNat
/-- A source has G = 255. -/
def VTag.big (t : VTag) : Bool := t.mag == 255

/-- b_a·M_b + b_b·M_a + b_a·b_b (R290). -/
def mulBound (a b : VTag) : Bnd :=
  Bound.add (Bound.add (Bound.mul a.bnd b.m) (Bound.mul b.bnd a.m)) (Bound.mul a.bnd b.bnd)

/-- How a floating member sets the tags (R220, R290). -/
inductive TagRule where
  | addB | mulB | fmaB | expB | passA | passMax | inf | int
deriving DecidableEq, Repr

/-- The tags of a floating result (R288, R290). -/
def fpTag (t : ElemType) (rule : TagRule) (src : TagSrc) (readsB readsD : Bool) (r : ElemRun) (old : VecReg) (w : Nat) : VTag :=
  let fl := src.a.flags ||| (if readsB then src.b.flags else 0) ||| (if readsD then src.d.flags else 0)
  let big := src.a.big || (readsB && src.b.big) || (readsD && src.d.big)
  let u := roundTerm t
  let join := trackTag old w r.vals
  match rule with
  | .addB => join (trackedTag t r fl big (fun m => Bound.add (Bound.add src.a.bnd src.b.bnd) (u m)))
  | .mulB => join (trackedTag t r fl big (fun m => Bound.add (mulBound src.a src.b) (u m)))
  | .fmaB => join (trackedTag t r fl big (fun m => Bound.add (Bound.add (mulBound src.a src.b) src.d.bnd) (u m)))
  | .expB => join (trackedTag t r fl big (fun m =>
      match src.a.bnd with
      | some b => if Dyadic.lt ⟨1, -1⟩ b then none
          else Bound.mul (Bound.max m (some (floorM t))) (some (Dyadic.add b (Dyadic.mul ⟨2, 0⟩ (unitOf t))))
      | none => none))
  | .passA => join (passedTag t r ⟨src.a.bound, src.a.mag, fl⟩)
  | .passMax => join (passedTag t r ⟨maxBound src.a.bound src.b.bound, maxMag src.a.mag src.b.mag, fl⟩)
  | .inf => infTag old w r.vals fl
  | .int => intTag false

/-- A floating member of the template (R218, R219): f computes an element from the bits of a, b and the old destination. -/
def fpOp (rule : TagRule) (readsB readsD : Bool) (f : BitVec 11 → Nat → Nat → Nat → Nat → EOut)
    (vd va vb : VReg) (rep : Rep) (mk : MkField) : LaneOp where
  dest := some vd
  srcs := va :: ((if readsB then [vb] else []) ++ (if readsD then [vd] else []))
  rep := if rep = .none then none else some vb
  run := fun e s =>
    let v := s.curC.vec
    let w := e.n
    let (tagNo, s) := s.draw
    let at_ (i x : Nat) : EOut := f e.vtype (4096 * tagNo + i) (elemGet v.regs[va].bits w i) x (elemGet v.regs[vd].bits w i)
    let r := runElems e.fexc (fun i => at_ i (loopSource e v mk vd vb rep (fun k x => (at_ k x).bits) i)) (e.elems v mk e.vl)
    finishElems e s vd w r (fun old =>
      fpTag (fmtOfVt e.vtype) rule ⟨v.regs[va].tag, v.regs[vb].tag, v.regs[vd].tag⟩ readsB readsD r old w)

/-- A result that raises only the flags of `m`. -/
def NRes.only (r : NRes) (m : BitVec 5) : NRes := { r with flags := r.flags &&& m }

/-- 2^a within 1 ulp: OF and UF as rounding gives, and no NX (R224). -/
def exp2Val (tag : Nat) (t : ElemType) (a : FVal) : NRes :=
  match a with
  | .nan s => .flagged (canonNan t) (if s then flNV else 0)
  | .inf n => .exact (if n then 0 else infBits t false)
  | .fin n m e => NRes.only (exp2Round t tag (FVal.fin n m e).dy) (flOF ||| flUF)
/-- 1/a within 1 ulp: no flag but NV and DZ (R224). -/
def rcpVal (tag : Nat) (t : ElemType) (a : FVal) : NRes :=
  match a with
  | .nan s => .flagged (canonNan t) (if s then flNV else 0)
  | .inf n => .exact (signBit t n)
  | .fin n m e => if m = 0 then .flagged (infBits t n) flDZ else NRes.only (rcpRound t tag n m e) 0
/-- The class mask as an element (R224 vfclass); under flush 01 a subnormal is classed as zero (R219). -/
def classElem (vt : BitVec 11) (x : Nat) : EOut :=
  match fmtOfVt vt with
  | .e4m3 => .plain (match fval .e4m3 x with | .nan _ => 0x80 | _ => classMask .e4m3 x % 128)
  | t => .plain (classMask t (flushBits t (flushOf vt = 1) x).1 % 2 ^ t.bits)
/-- The sign bit of an element. -/
def topBit (vt : BitVec 11) : Nat := 2 ^ (8 * sewOf vt - 1)


/-- vfadd (R224). -/
def opVfadd (vd va vb : VReg) (rep : Rep) (mk : MkField) : LaneOp :=
  fpOp .addB true false (fun vt _ a b _ => fpElem vt (fun t rm x y _ => addVal t rm x y) a b 0) vd va vb rep mk
/-- vfadd issued by a thread (R224). -/
def execVfadd (vd va vb : VReg) (rep : Rep) (mk : MkField) (s : State) : Out := issueLane (opVfadd vd va vb rep mk) s
/-- vfsub (R224). -/
def opVfsub (vd va vb : VReg) (rep : Rep) (mk : MkField) : LaneOp :=
  fpOp .addB true false (fun vt _ a b _ => fpElem vt (fun t rm x y _ => subVal t rm x y) a b 0) vd va vb rep mk
/-- vfsub issued by a thread (R224). -/
def execVfsub (vd va vb : VReg) (rep : Rep) (mk : MkField) (s : State) : Out := issueLane (opVfsub vd va vb rep mk) s
/-- vfmul (R224). -/
def opVfmul (vd va vb : VReg) (rep : Rep) (mk : MkField) : LaneOp :=
  fpOp .mulB true false (fun vt _ a b _ => fpElem vt (fun t rm x y _ => mulVal t rm x y) a b 0) vd va vb rep mk
/-- vfmul issued by a thread (R224). -/
def execVfmul (vd va vb : VReg) (rep : Rep) (mk : MkField) (s : State) : Out := issueLane (opVfmul vd va vb rep mk) s
/-- vfdiv (R224). -/
def opVfdiv (vd va vb : VReg) (rep : Rep) (mk : MkField) : LaneOp :=
  fpOp .inf true false (fun vt _ a b _ => fpElem vt (fun t rm x y _ => divVal t rm x y) a b 0) vd va vb rep mk
/-- vfdiv issued by a thread (R224). -/
def execVfdiv (vd va vb : VReg) (rep : Rep) (mk : MkField) (s : State) : Out := issueLane (opVfdiv vd va vb rep mk) s
/-- vfsqrt (R224). -/
def opVfsqrt (vd va : VReg) (mk : MkField) : LaneOp :=
  fpOp .inf false false (fun vt _ a _ _ => fpElem vt (fun t rm x _ _ => sqrtVal t rm x) a 0 0) vd va va .none mk
/-- vfsqrt issued by a thread (R224). -/
def execVfsqrt (vd va : VReg) (mk : MkField) (s : State) : Out := issueLane (opVfsqrt vd va mk) s
/-- vfmin (R224). -/
def opVfmin (vd va vb : VReg) (rep : Rep) (mk : MkField) : LaneOp :=
  fpOp .passMax true false (fun vt _ a b _ => fpElemBits vt (fun t x y => minMaxBits t false x y) a b) vd va vb rep mk
/-- vfmin issued by a thread (R224). -/
def execVfmin (vd va vb : VReg) (rep : Rep) (mk : MkField) (s : State) : Out := issueLane (opVfmin vd va vb rep mk) s
/-- vfmax (R224). -/
def opVfmax (vd va vb : VReg) (rep : Rep) (mk : MkField) : LaneOp :=
  fpOp .passMax true false (fun vt _ a b _ => fpElemBits vt (fun t x y => minMaxBits t true x y) a b) vd va vb rep mk
/-- vfmax issued by a thread (R224). -/
def execVfmax (vd va vb : VReg) (rep : Rep) (mk : MkField) (s : State) : Out := issueLane (opVfmax vd va vb rep mk) s
/-- vfmacc (R224). -/
def opVfmacc (vd va vb : VReg) (rep : Rep) (mk : MkField) : LaneOp :=
  fpOp .fmaB true true (fun vt _ a b d => fpElem vt (fun t rm x y z => fmaVal t rm x y z) a b d) vd va vb rep mk
/-- vfmacc issued by a thread (R224). -/
def execVfmacc (vd va vb : VReg) (rep : Rep) (mk : MkField) (s : State) : Out := issueLane (opVfmacc vd va vb rep mk) s
/-- vfnmacc (R224). -/
def opVfnmacc (vd va vb : VReg) (rep : Rep) (mk : MkField) : LaneOp :=
  fpOp .fmaB true true (fun vt _ a b d => fpElem vt (fun t rm x y z => fmaVal t rm x.negate y z.negate) a b d) vd va vb rep mk
/-- vfnmacc issued by a thread (R224). -/
def execVfnmacc (vd va vb : VReg) (rep : Rep) (mk : MkField) (s : State) : Out := issueLane (opVfnmacc vd va vb rep mk) s
/-- vfmsac (R224). -/
def opVfmsac (vd va vb : VReg) (rep : Rep) (mk : MkField) : LaneOp :=
  fpOp .fmaB true true (fun vt _ a b d => fpElem vt (fun t rm x y z => fmaVal t rm x y z.negate) a b d) vd va vb rep mk
/-- vfmsac issued by a thread (R224). -/
def execVfmsac (vd va vb : VReg) (rep : Rep) (mk : MkField) (s : State) : Out := issueLane (opVfmsac vd va vb rep mk) s
/-- vfabs (R224). -/
def opVfabs (vd va : VReg) (mk : MkField) : LaneOp :=
  fpOp .passA false false (fun vt _ a _ _ => .plain (a % topBit vt)) vd va va .none mk
/-- vfabs issued by a thread (R224). -/
def execVfabs (vd va : VReg) (mk : MkField) (s : State) : Out := issueLane (opVfabs vd va mk) s
/-- vfneg (R224). -/
def opVfneg (vd va : VReg) (mk : MkField) : LaneOp :=
  fpOp .passA false false (fun vt _ a _ _ => .plain (a ^^^ topBit vt)) vd va va .none mk
/-- vfneg issued by a thread (R224). -/
def execVfneg (vd va : VReg) (mk : MkField) (s : State) : Out := issueLane (opVfneg vd va mk) s
/-- vfsgnj (R224). -/
def opVfsgnj (vd va vb : VReg) (rep : Rep) (mk : MkField) : LaneOp :=
  fpOp .passA true false (fun vt _ a b _ => .plain (a % topBit vt + b / topBit vt * topBit vt)) vd va vb rep mk
/-- vfsgnj issued by a thread (R224). -/
def execVfsgnj (vd va vb : VReg) (rep : Rep) (mk : MkField) (s : State) : Out := issueLane (opVfsgnj vd va vb rep mk) s
/-- vfexp2 (R224). -/
def opVfexp2 (vd va : VReg) (mk : MkField) : LaneOp :=
  fpOp .expB false false (fun vt tag a _ _ => fpElem vt (fun t _ x _ _ => exp2Val tag t x) a 0 0) vd va va .none mk
/-- vfexp2 issued by a thread (R224). -/
def execVfexp2 (vd va : VReg) (mk : MkField) (s : State) : Out := issueLane (opVfexp2 vd va mk) s
/-- vfrcp (R224). -/
def opVfrcp (vd va : VReg) (mk : MkField) : LaneOp :=
  fpOp .inf false false (fun vt tag a _ _ => fpElem vt (fun t _ x _ _ => rcpVal tag t x) a 0 0) vd va va .none mk
/-- vfrcp issued by a thread (R224). -/
def execVfrcp (vd va : VReg) (mk : MkField) (s : State) : Out := issueLane (opVfrcp vd va mk) s
/-- vfclass (R224). -/
def opVfclass (vd va : VReg) (mk : MkField) : LaneOp :=
  fpOp .int false false (fun vt _ a _ _ => classElem vt a) vd va va .none mk
/-- vfclass issued by a thread (R224). -/
def execVfclass (vd va : VReg) (mk : MkField) (s : State) : Out := issueLane (opVfclass vd va mk) s

/-! ## Comparisons (R225) -/

/-- A comparison member: bit i of md for each executing element; no tags. -/
def cmpOp (f : BitVec 11 → Nat → Nat → Bool × BitVec 5) (md : MReg) (va vb : VReg) (rep : Rep) (mk : MkField) : LaneOp where
  dest := none
  srcs := [va, vb]
  rep := if rep = .none then none else some vb
  run := fun e s =>
    let v := s.curC.vec
    let w := e.n
    let r := runElems e.fexc (fun i =>
      let (b, fl) := f e.vtype (elemGet v.regs[va].bits w i) (elemGet v.regs[vb].bits w (repIndex rep i))
      ⟨if b then 1 else 0, fl, false, false, false, false⟩) (e.elems v mk e.vl)
    let s := s.accrue r.flags
    let s := if r.outs.isEmpty then s else s.modM md (fun x => ⟨BitVec.ofNat 4096
      (r.vals.foldl (fun a p => if a.testBit p.1 == (p.2 == 1) then a else a ^^^ 2 ^ p.1) x.bits.toNat), true⟩)
    match r.trap with
    | some (i, fl) => .stop s (mkTrap 0x12 (fl.zeroExtend 64) (BitVec.ofNat 64 i)) i
    | none => .done s

/-- An integer relation. -/
def cmpInt (f : Nat → Nat → Nat → Bool) (vt : BitVec 11) (a b : Nat) : Bool × BitVec 5 := (f (8 * sewOf vt) a b, 0)
/-- A floating relation: `quiet` raises NV on a signalling NaN only. -/
def cmpFp (quiet : Bool) (nanResult : Bool) (f : FVal → FVal → Bool) (vt : BitVec 11) (a b : Nat) : Bool × BitVec 5 :=
  let t := calcFmt vt
  let x := fval t (fpIn vt a).1
  let y := fval t (fpIn vt b).1
  if x.isNan || y.isNan then (nanResult, if quiet then snanFlags [x, y] else flNV) else (f x y, 0)

/-- vcmpeq (R225). -/
def opVcmpeq (md : MReg) (va vb : VReg) (rep : Rep) (mk : MkField) : LaneOp := cmpOp (cmpInt (fun _ a b => a == b)) md va vb rep mk
/-- vcmpeq issued by a thread (R225). -/
def execVcmpeq (md : MReg) (va vb : VReg) (rep : Rep) (mk : MkField) (s : State) : Out := issueLane (opVcmpeq md va vb rep mk) s
/-- vcmpne (R225). -/
def opVcmpne (md : MReg) (va vb : VReg) (rep : Rep) (mk : MkField) : LaneOp := cmpOp (cmpInt (fun _ a b => a != b)) md va vb rep mk
/-- vcmpne issued by a thread (R225). -/
def execVcmpne (md : MReg) (va vb : VReg) (rep : Rep) (mk : MkField) (s : State) : Out := issueLane (opVcmpne md va vb rep mk) s
/-- vcmplt (R225). -/
def opVcmplt (md : MReg) (va vb : VReg) (rep : Rep) (mk : MkField) : LaneOp := cmpOp (cmpInt (fun n a b => decide (signedOf n a < signedOf n b))) md va vb rep mk
/-- vcmplt issued by a thread (R225). -/
def execVcmplt (md : MReg) (va vb : VReg) (rep : Rep) (mk : MkField) (s : State) : Out := issueLane (opVcmplt md va vb rep mk) s
/-- vcmple (R225). -/
def opVcmple (md : MReg) (va vb : VReg) (rep : Rep) (mk : MkField) : LaneOp := cmpOp (cmpInt (fun n a b => decide (signedOf n a ≤ signedOf n b))) md va vb rep mk
/-- vcmple issued by a thread (R225). -/
def execVcmple (md : MReg) (va vb : VReg) (rep : Rep) (mk : MkField) (s : State) : Out := issueLane (opVcmple md va vb rep mk) s
/-- vcmpgt (R225). -/
def opVcmpgt (md : MReg) (va vb : VReg) (rep : Rep) (mk : MkField) : LaneOp := cmpOp (cmpInt (fun n a b => decide (signedOf n b < signedOf n a))) md va vb rep mk
/-- vcmpgt issued by a thread (R225). -/
def execVcmpgt (md : MReg) (va vb : VReg) (rep : Rep) (mk : MkField) (s : State) : Out := issueLane (opVcmpgt md va vb rep mk) s
/-- vcmpge (R225). -/
def opVcmpge (md : MReg) (va vb : VReg) (rep : Rep) (mk : MkField) : LaneOp := cmpOp (cmpInt (fun n a b => decide (signedOf n b ≤ signedOf n a))) md va vb rep mk
/-- vcmpge issued by a thread (R225). -/
def execVcmpge (md : MReg) (va vb : VReg) (rep : Rep) (mk : MkField) (s : State) : Out := issueLane (opVcmpge md va vb rep mk) s
/-- vcmpltw (R225). -/
def opVcmpltw (md : MReg) (va vb : VReg) (rep : Rep) (mk : MkField) : LaneOp := cmpOp (cmpInt (fun _ a b => decide (a < b))) md va vb rep mk
/-- vcmpltw issued by a thread (R225). -/
def execVcmpltw (md : MReg) (va vb : VReg) (rep : Rep) (mk : MkField) (s : State) : Out := issueLane (opVcmpltw md va vb rep mk) s
/-- vcmplew (R225). -/
def opVcmplew (md : MReg) (va vb : VReg) (rep : Rep) (mk : MkField) : LaneOp := cmpOp (cmpInt (fun _ a b => decide (a ≤ b))) md va vb rep mk
/-- vcmplew issued by a thread (R225). -/
def execVcmplew (md : MReg) (va vb : VReg) (rep : Rep) (mk : MkField) (s : State) : Out := issueLane (opVcmplew md va vb rep mk) s
/-- vcmpgtw (R225). -/
def opVcmpgtw (md : MReg) (va vb : VReg) (rep : Rep) (mk : MkField) : LaneOp := cmpOp (cmpInt (fun _ a b => decide (b < a))) md va vb rep mk
/-- vcmpgtw issued by a thread (R225). -/
def execVcmpgtw (md : MReg) (va vb : VReg) (rep : Rep) (mk : MkField) (s : State) : Out := issueLane (opVcmpgtw md va vb rep mk) s
/-- vcmpgew (R225). -/
def opVcmpgew (md : MReg) (va vb : VReg) (rep : Rep) (mk : MkField) : LaneOp := cmpOp (cmpInt (fun _ a b => decide (b ≤ a))) md va vb rep mk
/-- vcmpgew issued by a thread (R225). -/
def execVcmpgew (md : MReg) (va vb : VReg) (rep : Rep) (mk : MkField) (s : State) : Out := issueLane (opVcmpgew md va vb rep mk) s
/-- vfcmpeq (R225). -/
def opVfcmpeq (md : MReg) (va vb : VReg) (rep : Rep) (mk : MkField) : LaneOp := cmpOp (cmpFp true false ieeeEq) md va vb rep mk
/-- vfcmpeq issued by a thread (R225). -/
def execVfcmpeq (md : MReg) (va vb : VReg) (rep : Rep) (mk : MkField) (s : State) : Out := issueLane (opVfcmpeq md va vb rep mk) s
/-- vfcmpne (R225). -/
def opVfcmpne (md : MReg) (va vb : VReg) (rep : Rep) (mk : MkField) : LaneOp := cmpOp (cmpFp true true (fun x y => !ieeeEq x y)) md va vb rep mk
/-- vfcmpne issued by a thread (R225). -/
def execVfcmpne (md : MReg) (va vb : VReg) (rep : Rep) (mk : MkField) (s : State) : Out := issueLane (opVfcmpne md va vb rep mk) s
/-- vfcmplt (R225). -/
def opVfcmplt (md : MReg) (va vb : VReg) (rep : Rep) (mk : MkField) : LaneOp := cmpOp (cmpFp false false ieeeLt) md va vb rep mk
/-- vfcmplt issued by a thread (R225). -/
def execVfcmplt (md : MReg) (va vb : VReg) (rep : Rep) (mk : MkField) (s : State) : Out := issueLane (opVfcmplt md va vb rep mk) s
/-- vfcmple (R225). -/
def opVfcmple (md : MReg) (va vb : VReg) (rep : Rep) (mk : MkField) : LaneOp := cmpOp (cmpFp false false (fun x y => ieeeLt x y || ieeeEq x y)) md va vb rep mk
/-- vfcmple issued by a thread (R225). -/
def execVfcmple (md : MReg) (va vb : VReg) (rep : Rep) (mk : MkField) (s : State) : Out := issueLane (opVfcmple md va vb rep mk) s
/-- vfcmpgt (R225). -/
def opVfcmpgt (md : MReg) (va vb : VReg) (rep : Rep) (mk : MkField) : LaneOp := cmpOp (cmpFp false false (fun x y => ieeeLt y x)) md va vb rep mk
/-- vfcmpgt issued by a thread (R225). -/
def execVfcmpgt (md : MReg) (va vb : VReg) (rep : Rep) (mk : MkField) (s : State) : Out := issueLane (opVfcmpgt md va vb rep mk) s
/-- vfcmpge (R225). -/
def opVfcmpge (md : MReg) (va vb : VReg) (rep : Rep) (mk : MkField) : LaneOp := cmpOp (cmpFp false false (fun x y => ieeeLt y x || ieeeEq x y)) md va vb rep mk
/-- vfcmpge issued by a thread (R225). -/
def execVfcmpge (md : MReg) (va vb : VReg) (rep : Rep) (mk : MkField) (s : State) : Out := issueLane (opVfcmpge md va vb rep mk) s

/-! ## vcvt (R245 to R247) -/

/-- Flushed input of a conversion: f16, bf16, f32 and f64 subnormals under flush 01 (R243). -/
def cvtIn (vt : BitVec 11) (t : ElemType) (x : Nat) : Nat × Bool := flushBits t (flushOf vt = 1) x

/-- Converts one element (R247). -/
def cvtElem (vt : BitVec 11) (src dst : ElemType) (sat : Bool) (rm : Rounding) (x : Nat) : EOut :=
  if src.isInt then
    if dst.isInt then
      let r := convIntInt src dst sat x
      ⟨r.bits, r.flags, r.vsat, r.clamped, false, false⟩
    else
      let r := convFromInt dst rm sat (intVal src x)
      ⟨r.bits, r.flags, r.vsat, r.clamped, false, false⟩
  else
    let (y, fi) := cvtIn vt src x
    if dst.isInt then
      let r := convToInt dst rm sat (fval src y)
      ⟨r.bits, r.flags, r.vsat, r.clamped, fi, false⟩
    else
      let r := convFloat dst rm sat (fval src y)
      let (b, fo) := flushBits dst (flushOf vt != 0) r.bits
      ⟨b, if fo then r.flags ||| flUF ||| flNX else r.flags, r.vsat, r.clamped, fi, fo⟩

/-- The destination holds every value of the source type exactly (R290). -/
def cvtExact (src dst : ElemType) : Bool :=
  if src.isNarrow then true
  else if src.isInt then
    decide ((fmtOf dst).fbits + 1 ≥ src.bits - (if src.isSigned then 1 else 0))
  else match src, dst with
    | .bf16, .f32 | .bf16, .f64 | .f16, .f32 | .f16, .f64 | .f32, .f64 => true
    | _, _ => false

/-- Tags of a conversion: a flushed input adds the source format's term, a flushed output the destination's (R247, R290). -/
def cvtTag (src dst : ElemType) (rm : Rounding) (ta : VTag) (r : ElemRun) (old : VecReg) (w : Nat) : VTag :=
  if dst.isInt then
    if src.isInt then intTag r.clamped
    else
      -- the result's G is computed from the integers written
      let big := r.vals.foldl (fun a p => max a (intVal dst p.2).natAbs) 0
      let g := magOf ⟨big, 0⟩
      let add : Dy := match rm with | .rne => ⟨1, -1⟩ | .rna => ⟨1, -1⟩ | _ => ⟨1, 0⟩
      let b := if ta.big || g = 255 then none else Bound.add ta.bnd (some add)
      let b := Bnd.flush b r.flushed src
      let b := if r.clamped then none else b
      trackTag old w r.vals ⟨Bound.toBits b, BitVec.ofNat 8 g, if r.clamped then ta.flags ||| 4 else ta.flags⟩
  else
    let t := trackedTag dst { r with outs := r.outs.map (fun p => (p.1, { p.2 with flushed := false })) } ta.flags ta.big
      (fun m =>
        let b := if cvtExact src dst then ta.bnd else Bound.add ta.bnd (roundTerm dst m)
        Bnd.flush (Bnd.flush b r.flushed src) r.flushedOut dst)
    trackTag old w r.vals t

/-- vcvt (R245, R247): elements below n at the widths of the two types. -/
def opVcvt (vd va : VReg) (src : ElemType) (sat : Bool) (rm : RmField) (mk : MkField) (dst : ElemType) : LaneOp where
  dest := some vd
  srcs := [va]
  rep := none
  run := fun e s =>
    let v := s.curC.vec
    let m := RmField.get rm (rmOf e.vtype)
    let n := min e.vl (32768 / max src.bits dst.bits)
    let r := runElems e.fexc (fun i => cvtElem e.vtype src dst sat m (elemGet v.regs[va].bits src.bits i)) (e.elems v mk n)
    finishElems e s vd dst.bits r (fun old => cvtTag src dst m v.regs[va].tag r old dst.bits)
/-- vcvt issued by a thread (R245). -/
def execVcvt (vd va : VReg) (src : ElemType) (sat : Bool) (rm : RmField) (mk : MkField) (dst : ElemType) (s : State) : Out :=
  issueLane (opVcvt vd va src sat rm mk dst) s

end Sys2Proof.Machine
end

