-- ==== Sys2Proof/Machine/VecInt.lean ====
section
/-!
DEFINITION. Vector integer arithmetic with vector and immediate operands (spec 12 R218 to R223).
-/

namespace Sys2Proof.Machine

/-- Signed reading of an n-bit element. -/
def sgn (n x : Nat) : Int := signedOf n x
/-- An element result modulo 2^n. -/
def eInt (n : Nat) (x : Int) : EOut := .plain (wrapInt n x)
/-- A clamped result: saturates when the exact value leaves the range (R222). -/
def eClamp (n : Nat) (lo hi x : Int) : EOut :=
  if x < lo then ⟨wrapInt n lo, 0, true, true, false, false⟩
  else if x > hi then ⟨wrapInt n hi, 0, true, true, false, false⟩
  else .plain (wrapInt n x)
/-- Signed range of n bits. -/
def sLo (n : Nat) : Int := -(2 ^ (n - 1) : Nat)
/-- Largest signed value of n bits. -/
def sHi (n : Nat) : Int := (2 ^ (n - 1) : Nat) - 1
/-- Largest unsigned value of n bits. -/
def uHi (n : Nat) : Int := (2 ^ n : Nat) - 1
/-- Rounded arithmetic right shift: floor((a + 2^(sh−1)) / 2^sh), a for sh = 0 (R222 vrshr). -/
def rshr (a : Int) (sh : Nat) : Int := if sh = 0 then a else (a + (2 ^ (sh - 1) : Nat)).fdiv (2 ^ sh : Nat)
/-- Σ of the four products of quarter-width sub-elements (R222 vdot4). -/
def dot4 (signed : Bool) (n a b : Nat) : Int :=
  let q := n / 4
  let rd (x j : Nat) : Int := if signed then sgn q (bitsOf x (j * q) q) else (bitsOf x (j * q) q : Nat)
  (List.range 4).foldl (fun acc j => acc + rd a j * rd b j) 0

/-- A member of two vector operands (R221, R222): f of width, a, b and the old destination. -/
def intVV (f : Nat → Nat → Nat → Nat → EOut) (readsVd : Bool) (vd va vb : VReg) (rep : Rep) (mk : MkField) : LaneOp :=
  intOp vd va (vb :: (if readsVd then [vd] else [])) mk (if rep = .none then none else some vb)
    (fun e v i a d => f e.n a (loopSource e v mk vd vb rep
      (fun k x => (f e.n (elemGet v.regs[va].bits e.n k) x (elemGet v.regs[vd].bits e.n k)).bits) i) d)
/-- A member of a vector and an immediate (R223). -/
def intVI (f : Nat → Nat → Nat → EOut) (vd va : VReg) (imm : BitVec 8) (mk : MkField) : LaneOp :=
  intOp vd va [] mk none (fun e _ _ a _ => f e.n a imm.toNat)

/-- vadd (R218, R221). -/
def opVadd (vd va vb : VReg) (rep : Rep) (mk : MkField) : LaneOp :=
  intVV (fun n a b _ => eInt n (a + b : Nat)) false vd va vb rep mk
/-- vadd issued by a thread (R221). -/
def execVadd (vd va vb : VReg) (rep : Rep) (mk : MkField) (s : State) : Out := issueLane (opVadd vd va vb rep mk) s
/-- vsub (R218, R221). -/
def opVsub (vd va vb : VReg) (rep : Rep) (mk : MkField) : LaneOp :=
  intVV (fun n a b _ => eInt n ((a : Int) - b)) false vd va vb rep mk
/-- vsub issued by a thread (R221). -/
def execVsub (vd va vb : VReg) (rep : Rep) (mk : MkField) (s : State) : Out := issueLane (opVsub vd va vb rep mk) s
/-- vrsub (R218, R221). -/
def opVrsub (vd va vb : VReg) (rep : Rep) (mk : MkField) : LaneOp :=
  intVV (fun n a b _ => eInt n ((b : Int) - a)) false vd va vb rep mk
/-- vrsub issued by a thread (R221). -/
def execVrsub (vd va vb : VReg) (rep : Rep) (mk : MkField) (s : State) : Out := issueLane (opVrsub vd va vb rep mk) s
/-- vmul (R218, R221). -/
def opVmul (vd va vb : VReg) (rep : Rep) (mk : MkField) : LaneOp :=
  intVV (fun n a b _ => eInt n (a * b : Nat)) false vd va vb rep mk
/-- vmul issued by a thread (R221). -/
def execVmul (vd va vb : VReg) (rep : Rep) (mk : MkField) (s : State) : Out := issueLane (opVmul vd va vb rep mk) s
/-- vmulh (R218, R221). -/
def opVmulh (vd va vb : VReg) (rep : Rep) (mk : MkField) : LaneOp :=
  intVV (fun n a b _ => eInt n ((sgn n a * sgn n b) / (2 ^ n : Nat))) false vd va vb rep mk
/-- vmulh issued by a thread (R221). -/
def execVmulh (vd va vb : VReg) (rep : Rep) (mk : MkField) (s : State) : Out := issueLane (opVmulh vd va vb rep mk) s
/-- vmulhw (R218, R221). -/
def opVmulhw (vd va vb : VReg) (rep : Rep) (mk : MkField) : LaneOp :=
  intVV (fun n a b _ => .plain (a * b / 2 ^ n)) false vd va vb rep mk
/-- vmulhw issued by a thread (R221). -/
def execVmulhw (vd va vb : VReg) (rep : Rep) (mk : MkField) (s : State) : Out := issueLane (opVmulhw vd va vb rep mk) s
/-- vand (R218, R221). -/
def opVand (vd va vb : VReg) (rep : Rep) (mk : MkField) : LaneOp :=
  intVV (fun _ a b _ => .plain (a &&& b)) false vd va vb rep mk
/-- vand issued by a thread (R221). -/
def execVand (vd va vb : VReg) (rep : Rep) (mk : MkField) (s : State) : Out := issueLane (opVand vd va vb rep mk) s
/-- vor (R218, R221). -/
def opVor (vd va vb : VReg) (rep : Rep) (mk : MkField) : LaneOp :=
  intVV (fun _ a b _ => .plain (a ||| b)) false vd va vb rep mk
/-- vor issued by a thread (R221). -/
def execVor (vd va vb : VReg) (rep : Rep) (mk : MkField) (s : State) : Out := issueLane (opVor vd va vb rep mk) s
/-- vxor (R218, R221). -/
def opVxor (vd va vb : VReg) (rep : Rep) (mk : MkField) : LaneOp :=
  intVV (fun _ a b _ => .plain (a ^^^ b)) false vd va vb rep mk
/-- vxor issued by a thread (R221). -/
def execVxor (vd va vb : VReg) (rep : Rep) (mk : MkField) (s : State) : Out := issueLane (opVxor vd va vb rep mk) s
/-- vsll (R218, R221). -/
def opVsll (vd va vb : VReg) (rep : Rep) (mk : MkField) : LaneOp :=
  intVV (fun n a b _ => .plain (a * 2 ^ (b % n) % 2 ^ n)) false vd va vb rep mk
/-- vsll issued by a thread (R221). -/
def execVsll (vd va vb : VReg) (rep : Rep) (mk : MkField) (s : State) : Out := issueLane (opVsll vd va vb rep mk) s
/-- vsrl (R218, R221). -/
def opVsrl (vd va vb : VReg) (rep : Rep) (mk : MkField) : LaneOp :=
  intVV (fun n a b _ => .plain (a / 2 ^ (b % n))) false vd va vb rep mk
/-- vsrl issued by a thread (R221). -/
def execVsrl (vd va vb : VReg) (rep : Rep) (mk : MkField) (s : State) : Out := issueLane (opVsrl vd va vb rep mk) s
/-- vsra (R218, R221). -/
def opVsra (vd va vb : VReg) (rep : Rep) (mk : MkField) : LaneOp :=
  intVV (fun n a b _ => eInt n ((sgn n a).fdiv (2 ^ (b % n) : Nat))) false vd va vb rep mk
/-- vsra issued by a thread (R221). -/
def execVsra (vd va vb : VReg) (rep : Rep) (mk : MkField) (s : State) : Out := issueLane (opVsra vd va vb rep mk) s
/-- vmin (R218, R221). -/
def opVmin (vd va vb : VReg) (rep : Rep) (mk : MkField) : LaneOp :=
  intVV (fun n a b _ => if sgn n a < sgn n b then .plain a else .plain b) false vd va vb rep mk
/-- vmin issued by a thread (R221). -/
def execVmin (vd va vb : VReg) (rep : Rep) (mk : MkField) (s : State) : Out := issueLane (opVmin vd va vb rep mk) s
/-- vmax (R218, R221). -/
def opVmax (vd va vb : VReg) (rep : Rep) (mk : MkField) : LaneOp :=
  intVV (fun n a b _ => if sgn n a < sgn n b then .plain b else .plain a) false vd va vb rep mk
/-- vmax issued by a thread (R221). -/
def execVmax (vd va vb : VReg) (rep : Rep) (mk : MkField) (s : State) : Out := issueLane (opVmax vd va vb rep mk) s
/-- vminw (R218, R221). -/
def opVminw (vd va vb : VReg) (rep : Rep) (mk : MkField) : LaneOp :=
  intVV (fun _ a b _ => .plain (min a b)) false vd va vb rep mk
/-- vminw issued by a thread (R221). -/
def execVminw (vd va vb : VReg) (rep : Rep) (mk : MkField) (s : State) : Out := issueLane (opVminw vd va vb rep mk) s
/-- vmaxw (R218, R221). -/
def opVmaxw (vd va vb : VReg) (rep : Rep) (mk : MkField) : LaneOp :=
  intVV (fun _ a b _ => .plain (max a b)) false vd va vb rep mk
/-- vmaxw issued by a thread (R221). -/
def execVmaxw (vd va vb : VReg) (rep : Rep) (mk : MkField) (s : State) : Out := issueLane (opVmaxw vd va vb rep mk) s
/-- vabsd (R218, R222). -/
def opVabsd (vd va vb : VReg) (rep : Rep) (mk : MkField) : LaneOp :=
  intVV (fun n a b _ => .plain (sgn n a - sgn n b).natAbs) false vd va vb rep mk
/-- vabsd issued by a thread (R222). -/
def execVabsd (vd va vb : VReg) (rep : Rep) (mk : MkField) (s : State) : Out := issueLane (opVabsd vd va vb rep mk) s
/-- vsadd (R218, R222). -/
def opVsadd (vd va vb : VReg) (rep : Rep) (mk : MkField) : LaneOp :=
  intVV (fun n a b _ => eClamp n (sLo n) (sHi n) (sgn n a + sgn n b)) false vd va vb rep mk
/-- vsadd issued by a thread (R222). -/
def execVsadd (vd va vb : VReg) (rep : Rep) (mk : MkField) (s : State) : Out := issueLane (opVsadd vd va vb rep mk) s
/-- vssub (R218, R222). -/
def opVssub (vd va vb : VReg) (rep : Rep) (mk : MkField) : LaneOp :=
  intVV (fun n a b _ => eClamp n (sLo n) (sHi n) (sgn n a - sgn n b)) false vd va vb rep mk
/-- vssub issued by a thread (R222). -/
def execVssub (vd va vb : VReg) (rep : Rep) (mk : MkField) (s : State) : Out := issueLane (opVssub vd va vb rep mk) s
/-- vsaddw (R218, R222). -/
def opVsaddw (vd va vb : VReg) (rep : Rep) (mk : MkField) : LaneOp :=
  intVV (fun n a b _ => eClamp n 0 (uHi n) ((a : Int) + b)) false vd va vb rep mk
/-- vsaddw issued by a thread (R222). -/
def execVsaddw (vd va vb : VReg) (rep : Rep) (mk : MkField) (s : State) : Out := issueLane (opVsaddw vd va vb rep mk) s
/-- vssubw (R218, R222). -/
def opVssubw (vd va vb : VReg) (rep : Rep) (mk : MkField) : LaneOp :=
  intVV (fun n a b _ => eClamp n 0 (uHi n) ((a : Int) - b)) false vd va vb rep mk
/-- vssubw issued by a thread (R222). -/
def execVssubw (vd va vb : VReg) (rep : Rep) (mk : MkField) (s : State) : Out := issueLane (opVssubw vd va vb rep mk) s
/-- vmacc (R218, R222). -/
def opVmacc (vd va vb : VReg) (rep : Rep) (mk : MkField) : LaneOp :=
  intVV (fun n a b d => eInt n (d + a * b : Nat)) true vd va vb rep mk
/-- vmacc issued by a thread (R222). -/
def execVmacc (vd va vb : VReg) (rep : Rep) (mk : MkField) (s : State) : Out := issueLane (opVmacc vd va vb rep mk) s
/-- vnmsac (R218, R222). -/
def opVnmsac (vd va vb : VReg) (rep : Rep) (mk : MkField) : LaneOp :=
  intVV (fun n a b d => eInt n ((d : Int) - (a * b : Nat))) true vd va vb rep mk
/-- vnmsac issued by a thread (R222). -/
def execVnmsac (vd va vb : VReg) (rep : Rep) (mk : MkField) (s : State) : Out := issueLane (opVnmsac vd va vb rep mk) s
/-- vdot4 (R218, R222). -/
def opVdot4 (vd va vb : VReg) (rep : Rep) (mk : MkField) : LaneOp :=
  intVV (fun n a b d => eInt n ((d : Int) + dot4 true n a b)) true vd va vb rep mk
/-- vdot4 issued by a thread (R222). -/
def execVdot4 (vd va vb : VReg) (rep : Rep) (mk : MkField) (s : State) : Out := issueLane (opVdot4 vd va vb rep mk) s
/-- vdot4w (R218, R222). -/
def opVdot4w (vd va vb : VReg) (rep : Rep) (mk : MkField) : LaneOp :=
  intVV (fun n a b d => eInt n ((d : Int) + dot4 false n a b)) true vd va vb rep mk
/-- vdot4w issued by a thread (R222). -/
def execVdot4w (vd va vb : VReg) (rep : Rep) (mk : MkField) (s : State) : Out := issueLane (opVdot4w vd va vb rep mk) s
/-- vrshr (R218, R222). -/
def opVrshr (vd va vb : VReg) (rep : Rep) (mk : MkField) : LaneOp :=
  intVV (fun n a b _ => eInt n (rshr (sgn n a) (b % n))) false vd va vb rep mk
/-- vrshr issued by a thread (R222). -/
def execVrshr (vd va vb : VReg) (rep : Rep) (mk : MkField) (s : State) : Out := issueLane (opVrshr vd va vb rep mk) s
/-- vnclip (R218, R222). -/
def opVnclip (vd va vb : VReg) (rep : Rep) (mk : MkField) : LaneOp :=
  intVV (fun n a b _ => eClamp n (sLo (n / 2)) (sHi (n / 2)) (rshr (sgn n a) (b % n))) false vd va vb rep mk
/-- vnclip issued by a thread (R222). -/
def execVnclip (vd va vb : VReg) (rep : Rep) (mk : MkField) (s : State) : Out := issueLane (opVnclip vd va vb rep mk) s
/-- vnclipw (R218, R222). -/
def opVnclipw (vd va vb : VReg) (rep : Rep) (mk : MkField) : LaneOp :=
  intVV (fun n a b _ => eClamp n 0 (uHi (n / 2)) (rshr (sgn n a) (b % n))) false vd va vb rep mk
/-- vnclipw issued by a thread (R222). -/
def execVnclipw (vd va vb : VReg) (rep : Rep) (mk : MkField) (s : State) : Out := issueLane (opVnclipw vd va vb rep mk) s
/-- vaddi (R223). -/
def opVaddi (vd va : VReg) (imm : BitVec 8) (mk : MkField) : LaneOp := intVI (fun n a x => eInt n ((a : Int) + sgn 8 x)) vd va imm mk
/-- vaddi issued by a thread (R223). -/
def execVaddi (vd va : VReg) (imm : BitVec 8) (mk : MkField) (s : State) : Out := issueLane (opVaddi vd va imm mk) s
/-- vrsubi (R223). -/
def opVrsubi (vd va : VReg) (imm : BitVec 8) (mk : MkField) : LaneOp := intVI (fun n a x => eInt n (sgn 8 x - a)) vd va imm mk
/-- vrsubi issued by a thread (R223). -/
def execVrsubi (vd va : VReg) (imm : BitVec 8) (mk : MkField) (s : State) : Out := issueLane (opVrsubi vd va imm mk) s
/-- vandi (R223). -/
def opVandi (vd va : VReg) (imm : BitVec 8) (mk : MkField) : LaneOp := intVI (fun n a x => .plain (a &&& wrapInt n (sgn 8 x))) vd va imm mk
/-- vandi issued by a thread (R223). -/
def execVandi (vd va : VReg) (imm : BitVec 8) (mk : MkField) (s : State) : Out := issueLane (opVandi vd va imm mk) s
/-- vori (R223). -/
def opVori (vd va : VReg) (imm : BitVec 8) (mk : MkField) : LaneOp := intVI (fun n a x => .plain (a ||| wrapInt n (sgn 8 x))) vd va imm mk
/-- vori issued by a thread (R223). -/
def execVori (vd va : VReg) (imm : BitVec 8) (mk : MkField) (s : State) : Out := issueLane (opVori vd va imm mk) s
/-- vxori (R223). -/
def opVxori (vd va : VReg) (imm : BitVec 8) (mk : MkField) : LaneOp := intVI (fun n a x => .plain (a ^^^ wrapInt n (sgn 8 x))) vd va imm mk
/-- vxori issued by a thread (R223). -/
def execVxori (vd va : VReg) (imm : BitVec 8) (mk : MkField) (s : State) : Out := issueLane (opVxori vd va imm mk) s
/-- vslli (R223). -/
def opVslli (vd va : VReg) (imm : BitVec 8) (mk : MkField) : LaneOp := intVI (fun n a x => .plain (a * 2 ^ (x % n) % 2 ^ n)) vd va imm mk
/-- vslli issued by a thread (R223). -/
def execVslli (vd va : VReg) (imm : BitVec 8) (mk : MkField) (s : State) : Out := issueLane (opVslli vd va imm mk) s
/-- vsrli (R223). -/
def opVsrli (vd va : VReg) (imm : BitVec 8) (mk : MkField) : LaneOp := intVI (fun n a x => .plain (a / 2 ^ (x % n))) vd va imm mk
/-- vsrli issued by a thread (R223). -/
def execVsrli (vd va : VReg) (imm : BitVec 8) (mk : MkField) (s : State) : Out := issueLane (opVsrli vd va imm mk) s
/-- vsrai (R223). -/
def opVsrai (vd va : VReg) (imm : BitVec 8) (mk : MkField) : LaneOp := intVI (fun n a x => eInt n ((sgn n a).fdiv (2 ^ (x % n) : Nat))) vd va imm mk
/-- vsrai issued by a thread (R223). -/
def execVsrai (vd va : VReg) (imm : BitVec 8) (mk : MkField) (s : State) : Out := issueLane (opVsrai vd va imm mk) s
/-- vrshri (R223). -/
def opVrshri (vd va : VReg) (imm : BitVec 8) (mk : MkField) : LaneOp := intVI (fun n a x => eInt n (rshr (sgn n a) (x % n))) vd va imm mk
/-- vrshri issued by a thread (R223). -/
def execVrshri (vd va : VReg) (imm : BitVec 8) (mk : MkField) (s : State) : Out := issueLane (opVrshri vd va imm mk) s
/-- vmvi (R223): no vector source. -/
def opVmvi (vd : VReg) (imm : BitVec 8) (mk : MkField) : LaneOp :=
  { intVI (fun n _ x => eInt n (sgn 8 x)) vd vd imm mk with srcs := [] }
/-- vmvi issued by a thread (R223). -/
def execVmvi (vd : VReg) (imm : BitVec 8) (mk : MkField) (s : State) : Out := issueLane (opVmvi vd imm mk) s

end Sys2Proof.Machine
end

