-- ==== Sys2Proof/Machine/VecMask.lean ====
section
/-!
DEFINITION. Mask instructions (spec 12 R226). None of them uses vstart; a stop waits until the member completes.
-/

namespace Sys2Proof.Machine

/-- A number whose bit i is f i, for i below n. -/
def bitsBelow (n : Nat) (f : Nat → Bool) : Nat := (List.range n).foldl (fun a i => if f i then a + 2 ^ i else a) 0

/-- A mask-writing member: bits 0 to VL − 1 of md; the rest unchanged. -/
def maskOp (md : MReg) (f : VecUnit → Nat → Bool) : LaneOp where
  dest := none
  srcs := []
  rep := none
  split := false
  run := fun e s =>
    let v := s.curC.vec
    if e.vl = 0 then .done s
    else .done (s.modM md (fun x =>
      ⟨BitVec.ofNat 4096 (x.bits.toNat / 2 ^ e.vl * 2 ^ e.vl + bitsBelow e.vl (f v)), true⟩))

/-- Bit i of a mask register. -/
def VecUnit.mbit (v : VecUnit) (m : MReg) (i : Nat) : Bool := v.masks[m].bits.getLsbD i

/-- vmand (R226). -/
def opVmand (md ma mb : MReg) : LaneOp := maskOp md (fun v i => v.mbit ma i && v.mbit mb i)
/-- vmand issued by a thread (R226). -/
def execVmand (md ma mb : MReg) (s : State) : Out := issueLane (opVmand md ma mb) s
/-- vmor (R226). -/
def opVmor (md ma mb : MReg) : LaneOp := maskOp md (fun v i => v.mbit ma i || v.mbit mb i)
/-- vmor issued by a thread (R226). -/
def execVmor (md ma mb : MReg) (s : State) : Out := issueLane (opVmor md ma mb) s
/-- vmxor (R226). -/
def opVmxor (md ma mb : MReg) : LaneOp := maskOp md (fun v i => v.mbit ma i != v.mbit mb i)
/-- vmxor issued by a thread (R226). -/
def execVmxor (md ma mb : MReg) (s : State) : Out := issueLane (opVmxor md ma mb) s
/-- vmandn (R226). -/
def opVmandn (md ma mb : MReg) : LaneOp := maskOp md (fun v i => v.mbit ma i && !v.mbit mb i)
/-- vmandn issued by a thread (R226). -/
def execVmandn (md ma mb : MReg) (s : State) : Out := issueLane (opVmandn md ma mb) s
/-- vmnot (R226). -/
def opVmnot (md ma : MReg) : LaneOp := maskOp md (fun v i => !v.mbit ma i)
/-- vmnot issued by a thread (R226). -/
def execVmnot (md ma : MReg) (s : State) : Out := issueLane (opVmnot md ma) s
/-- vmset (R226). -/
def opVmset (md : MReg) : LaneOp := maskOp md (fun _ _ => true)
/-- vmset issued by a thread (R226). -/
def execVmset (md : MReg) (s : State) : Out := issueLane (opVmset md) s
/-- vmclr (R226). -/
def opVmclr (md : MReg) : LaneOp := maskOp md (fun _ _ => false)
/-- vmclr issued by a thread (R226). -/
def execVmclr (md : MReg) (s : State) : Out := issueLane (opVmclr md) s
/-- vmsbf (R226): 1 before the first set bit. -/
def opVmsbf (md ma : MReg) : LaneOp := maskOp md (fun v i => (List.range (i + 1)).all (fun j => !v.mbit ma j))
/-- vmsbf issued by a thread (R226). -/
def execVmsbf (md ma : MReg) (s : State) : Out := issueLane (opVmsbf md ma) s
/-- vmfm (R226): the whole fault mask. -/
def opVmfm (md : MReg) : LaneOp where
  dest := none
  srcs := []
  rep := none
  split := false
  run := fun _ s => .done (s.modM md (fun _ => ⟨s.curC.vec.faultMask, true⟩))
/-- vmfm issued by a thread (R226). -/
def execVmfm (md : MReg) (s : State) : Out := issueLane (opVmfm md) s

/-- Set bits of a mask below n. -/
def VecUnit.countMask (v : VecUnit) (m : MReg) (n : Nat) : Nat := (List.range n).countP (fun i => v.mbit m i)

/-- viota (R226): set bits below each element, modulo 2^n; tags int. -/
def opViota (vd : VReg) (ma : MReg) : LaneOp where
  dest := some vd
  srcs := []
  rep := none
  split := false
  run := fun e s =>
    let v := s.curC.vec
    let w := e.n
    let outs := (List.range e.vl).map (fun i => (i, EOut.plain (v.countMask ma i % 2 ^ w)))
    finishElems e s vd w ⟨outs, 0, none, false⟩ (fun _ => intTag false)
/-- viota issued by a thread (R226). -/
def execViota (vd : VReg) (ma : MReg) (s : State) : Out := issueLane (opViota vd ma) s

/-- A member that carries a mask to a scalar register. -/
def maskScalar (d : SReg) (f : VecUnit → Nat → Word) : LaneOp where
  dest := none
  srcs := []
  rep := none
  split := false
  run := fun e s => .done (s.setSreg d (f s.curC.vec e.vl))

/-- vmcnt (R226). -/
def opVmcnt (d : SReg) (ma : MReg) : LaneOp := maskScalar d (fun v n => BitVec.ofNat 64 (v.countMask ma n))
/-- vmcnt issued by a thread (R226). -/
def execVmcnt (d : SReg) (ma : MReg) (s : State) : Out := issueLane (opVmcnt d ma) s
/-- vmany (R226). -/
def opVmany (d : SReg) (ma : MReg) : LaneOp := maskScalar d (fun v n => ofBool ((List.range n).any (fun i => v.mbit ma i)))
/-- vmany issued by a thread (R226). -/
def execVmany (d : SReg) (ma : MReg) (s : State) : Out := issueLane (opVmany d ma) s
/-- vmfirst (R226): all ones when none is set. -/
def opVmfirst (d : SReg) (ma : MReg) : LaneOp :=
  maskScalar d (fun v n => match (List.range n).find? (fun i => v.mbit ma i) with
    | some i => BitVec.ofNat 64 i | none => BitVec.allOnes 64)
/-- vmfirst issued by a thread (R226). -/
def execVmfirst (d : SReg) (ma : MReg) (s : State) : Out := issueLane (opVmfirst d ma) s

end Sys2Proof.Machine
end

