-- ==== Sys2Proof/Machine/VecPerm.lean ====
section
/-!
DEFINITION. Permutes and moves (spec 12 R229), the immediate slides (R223).
-/

namespace Sys2Proof.Machine

/-- A permute over the executing elements: `f` gives the new element, or none where it stays (R229). Bound and magnitude are
each the larger of the sources' and the old ones. -/
def permOp (vd : VReg) (srcs : List VReg) (mk : MkField) (tag : VecUnit → VTag)
    (f : LaneEnv → VecUnit → Nat → Option Nat) : LaneOp where
  dest := some vd
  srcs := srcs
  rep := none
  run := fun e s =>
    let v := s.curC.vec
    let w := e.n
    let ex := e.elems v mk e.vl
    let outs := ex.filterMap (fun i => (f e v i).map (fun x => (i, EOut.plain (x % 2 ^ w))))
    finishRun e s vd w ⟨outs, 0, none, false⟩ (!ex.isEmpty) (fun _ => tag v)

/-- Larger of the source's and the destination's old tags, flags by R288. -/
def permTag (v : VecUnit) (va vd : VReg) : VTag := v.regs[va].tag.join v.regs[vd].tag

/-- A slide up by n (R229). -/
def slideUp (e : LaneEnv) (v : VecUnit) (va : VReg) (n i : Nat) : Option Nat :=
  if i ≥ n then some (elemGet v.regs[va].bits e.n (i - n)) else none
/-- A slide down by n (R229). -/
def slideDown (e : LaneEnv) (v : VecUnit) (va : VReg) (n i : Nat) : Option Nat :=
  some (if i + n < vlmaxOf e.vtype then elemGet v.regs[va].bits e.n (i + n) else 0)

/-- vslideup (R229). -/
def opVslideup (vd va : VReg) (b : SReg) (mk : MkField) : LaneOp :=
  permOp vd [va] mk (fun v => permTag v va vd) (fun e v i => slideUp e v va (e.sreg b).toNat i)
/-- vslideup issued by a thread (R229). -/
def execVslideup (vd va : VReg) (b : SReg) (mk : MkField) (s : State) : Out := issueLane (opVslideup vd va b mk) s
/-- vslidedn (R229). -/
def opVslidedn (vd va : VReg) (b : SReg) (mk : MkField) : LaneOp :=
  permOp vd [va] mk (fun v => permTag v va vd) (fun e v i => slideDown e v va (e.sreg b).toNat i)
/-- vslidedn issued by a thread (R229). -/
def execVslidedn (vd va : VReg) (b : SReg) (mk : MkField) (s : State) : Out := issueLane (opVslidedn vd va b mk) s
/-- vslideupi (R223). -/
def opVslideupi (vd va : VReg) (imm : BitVec 8) (mk : MkField) : LaneOp :=
  permOp vd [va] mk (fun v => permTag v va vd) (fun e v i => slideUp e v va imm.toNat i)
/-- vslideupi issued by a thread (R223). -/
def execVslideupi (vd va : VReg) (imm : BitVec 8) (mk : MkField) (s : State) : Out := issueLane (opVslideupi vd va imm mk) s
/-- vslidedni (R223). -/
def opVslidedni (vd va : VReg) (imm : BitVec 8) (mk : MkField) : LaneOp :=
  permOp vd [va] mk (fun v => permTag v va vd) (fun e v i => slideDown e v va imm.toNat i)
/-- vslidedni issued by a thread (R223). -/
def execVslidedni (vd va : VReg) (imm : BitVec 8) (mk : MkField) (s : State) : Out := issueLane (opVslidedni vd va imm mk) s
/-- vrgather (R229). -/
def opVrgather (vd va vb : VReg) (mk : MkField) : LaneOp :=
  permOp vd [va, vb] mk (fun v =>
      { permTag v va vd with flags := (permTag v va vd).flags ||| v.regs[vb].tag.flags }) (fun e v i =>
    let j := elemGet v.regs[vb].bits e.n i
    some (if j < vlmaxOf e.vtype then elemGet v.regs[va].bits e.n j else 0))
/-- vrgather issued by a thread (R229). -/
def execVrgather (vd va vb : VReg) (mk : MkField) (s : State) : Out := issueLane (opVrgather vd va vb mk) s

/-- vcompress (R229): restarts at element 0, packs the selected elements below VL. -/
def opVcompress (vd va : VReg) (mb : MReg) : LaneOp where
  dest := some vd
  srcs := [va]
  rep := none
  split := false
  run := fun e s =>
    let v := s.curC.vec
    let w := e.n
    let sel := (List.range e.vl).filter (fun i => v.masks[mb].bits.getLsbD i)
    let outs := (List.range sel.length).zip (sel.map (fun i => EOut.plain (elemGet v.regs[va].bits w i)))
    finishRun e s vd w ⟨outs, 0, none, false⟩ (e.vl != 0) (fun _ => permTag v va vd)
/-- vcompress issued by a thread (R229). -/
def execVcompress (vd va : VReg) (mb : MReg) (s : State) : Out := issueLane (opVcompress vd va mb) s

/-- vmv (R229): the tags pass. -/
def opVmv (vd va : VReg) (mk : MkField) : LaneOp where
  dest := some vd
  srcs := [va]
  rep := none
  run := fun e s =>
    let v := s.curC.vec
    let w := e.n
    let outs := (e.elems v mk e.vl).map (fun i => (i, EOut.plain (elemGet v.regs[va].bits w i)))
    finishElems e s vd w ⟨outs, 0, none, false⟩ (fun old => trackTag old w (outs.map (fun p => (p.1, p.2.bits))) v.regs[va].tag)
/-- vmv issued by a thread (R229). -/
def execVmv (vd va : VReg) (mk : MkField) (s : State) : Out := issueLane (opVmv vd va mk) s

/-- The tags of a written scalar value (R229): bound 0 and its magnitude, or +∞ with G = 255; flags 0. -/
def scalarTag (t : ElemType) (x : Nat) : VTag :=
  match fval t x with
  | .fin n m e => ⟨0, BitVec.ofNat 8 (magOf (Dyadic.abs (FVal.fin n m e).dy)), 0⟩
  | _ => ⟨infBound, 255, 0⟩

/-- vmvsx (R229): the low n bits of a scalar register in every executing element. -/
def opVmvsx (vd : VReg) (a : SReg) (mk : MkField) : LaneOp where
  dest := some vd
  srcs := []
  rep := none
  run := fun e s =>
    let v := s.curC.vec
    let w := e.n
    let x := (e.sreg a).toNat % 2 ^ w
    let outs := (e.elems v mk e.vl).map (fun i => (i, EOut.plain x))
    finishElems e s vd w ⟨outs, 0, none, false⟩ (fun _ => scalarTag (fmtOfVt e.vtype) x)
/-- vmvsx issued by a thread (R229). -/
def execVmvsx (vd : VReg) (a : SReg) (mk : MkField) (s : State) : Out := issueLane (opVmvsx vd a mk) s

/-- vmerge (R229): every element below VL, from vb where the mask admits it and from va elsewhere. -/
def opVmerge (vd va vb : VReg) (mk : MkField) : LaneOp :=
  permOp vd [va, vb] 0 (fun v => v.regs[va].tag.join v.regs[vb].tag) (fun e v i =>
    some (if maskOn v mk i then elemGet v.regs[vb].bits e.n i else elemGet v.regs[va].bits e.n i))
/-- vmerge issued by a thread (R229). -/
def execVmerge (vd va vb : VReg) (mk : MkField) (s : State) : Out := issueLane (opVmerge vd va vb mk) s

end Sys2Proof.Machine
end

