-- ==== Sys2Proof/Machine/VecRed.lean ====
section
/-!
DEFINITION. Reductions and block scales (spec 12 R227, R228; 13 R239, R248). A reduction has no restart point.
-/

namespace Sys2Proof.Machine

/-- The executing elements of vb: every element below VL that its mask admits. -/
def redElems (e : LaneEnv) (v : VecUnit) (mk : MkField) : List Nat :=
  (List.range e.vl).filter (fun i => e.ext.getLsbD i && maskOn v mk i)

/-- An integer reduction: tags int. -/
def redInt (f : Nat → Nat → Nat → Nat) (vd va vb : VReg) (mk : MkField) : LaneOp where
  dest := some vd
  srcs := [va, vb]
  rep := none
  split := false
  run := fun e s =>
    let v := s.curC.vec
    let w := e.n
    if e.vl = 0 then .done s
    else
      let r := (redElems e v mk).foldl (fun a i => f w a (elemGet v.regs[vb].bits w i)) (elemGet v.regs[va].bits w 0)
      finishElems e s vd w ⟨[(0, EOut.plain (r % 2 ^ w))], 0, none, false⟩ (fun _ => intTag false)

/-- The state of a floating reduction: accumulator, flags, and the trap with its vb element. -/
structure RedAcc where
  acc : Nat
  flags : BitVec 5
  trap : Option (Nat × BitVec 5)

/-- One addition (or comparison) naming vb element i: stops at the first enabled flag. -/
def RedAcc.step (fexc : BitVec 5) (r : RedAcc) (i : Nat) (o : Nat → EOut) : RedAcc :=
  match r.trap with
  | some _ => r
  | none =>
    let x := o r.acc
    ⟨x.bits, r.flags ||| x.flags, if x.flags &&& fexc != 0 then some (i, x.flags) else none⟩

/-- Finishes a floating reduction (R227): element 0 with bound +∞, or the trap with vd unchanged. -/
def redDone (e : LaneEnv) (s : State) (vd va vb : VReg) (r : RedAcc) : LaneRes :=
  let v := s.curC.vec
  let w := e.n
  match r.trap with
  | some (i, fl) => .whole (s.accrue r.flags) (mkTrap 0x12 (fl.zeroExtend 64) (BitVec.ofNat 64 i))
  | none =>
    finishElems e s vd w ⟨[(0, EOut.plain r.acc)], r.flags, none, false⟩ (fun old =>
      infTag old w [(0, r.acc)] (v.regs[va].tag.flags ||| v.regs[vb].tag.flags))

/-- Floating addition of two elements under VTYPE (R228). -/
def redAdd (vt : BitVec 11) (a b : Nat) : EOut := fpElem vt (fun t rm x y _ => addVal t rm x y) a b 0

/-- A floating reduction that folds element by element; with nothing executing, v[va][0] + −0 (R227). -/
def redFold (f : BitVec 11 → Nat → Nat → EOut) (vd va vb : VReg) (mk : MkField) : LaneOp where
  dest := some vd
  srcs := [va, vb]
  rep := none
  split := false
  run := fun e s =>
    let v := s.curC.vec
    let w := e.n
    let start : RedAcc := ⟨elemGet v.regs[va].bits w 0, 0, none⟩
    if e.vl = 0 then .done s
    else match redElems e v mk with
      | [] => redDone e s vd va vb (start.step e.fexc 0 (fun a => redAdd e.vtype a (topBit e.vtype)))
      | l => redDone e s vd va vb (l.foldl (fun r i => r.step e.fexc i (fun a => f e.vtype a (elemGet v.regs[vb].bits w i))) start)

/-- The smallest power of two that is at least n, given n below 2^fuel. -/
def powUp (n : Nat) : Nat → Nat → Nat
  | 0, p => p
  | k + 1, p => if n ≤ p then p else powUp n k (2 * p)

/-- The vb element named by an addition that joins the partial sums at i and i + h: the first executing one that the upper term
holds, else the first that the lower one does; padding is no element (R227, R228; log 51). -/
def treeElem (ex : List Nat) (h i : Nat) : Nat :=
  match ex.find? (fun j => decide (j % (2 * h) = i + h)) with
  | some j => j
  | none => (ex.find? (fun j => decide (j % (2 * h) = i))).getD i

/-- One pass of the tree over the lower half (R228): t[i] + t[i + h] for i below h. -/
def treePass (vt : BitVec 11) (fexc : BitVec 5) (ex : List Nat) (h : Nat) (t : List Nat) (st : BitVec 5 × Option (Nat × BitVec 5)) :
    List Nat × BitVec 5 × Option (Nat × BitVec 5) :=
  let lo := t.take h
  let hi := t.drop h
  ((List.range h).zip (lo.zip hi)).foldl (fun (acc : List Nat × BitVec 5 × Option (Nat × BitVec 5)) p =>
    match acc.2.2 with
    | some _ => acc
    | none =>
      let x := redAdd vt p.2.1 p.2.2
      (acc.1 ++ [x.bits], acc.2.1 ||| x.flags, if x.flags &&& fexc != 0 then some (treeElem ex h p.1, x.flags) else none)) ([], st.1, st.2)

/-- The tree of vfredusum: halves h down to 1. -/
def treeSum (vt : BitVec 11) (fexc : BitVec 5) (ex : List Nat) : Nat → List Nat → BitVec 5 × Option (Nat × BitVec 5) → RedAcc
  | 0, t, st => ⟨t.headD 0, st.1, st.2⟩
  | k + 1, t, st =>
    match t with
    | [x] => ⟨x, st.1, st.2⟩
    | _ =>
      let (t', fl, tr) := treePass vt fexc ex (t.length / 2) t st
      match tr with
      | some x => ⟨0, fl, some x⟩
      | none => treeSum vt fexc ex k t' (fl, none)

/-- vredsum (R227). -/
def opVredsum (vd va vb : VReg) (mk : MkField) : LaneOp := redInt (fun _ a b => a + b) vd va vb mk
/-- vredsum issued by a thread (R227). -/
def execVredsum (vd va vb : VReg) (mk : MkField) (s : State) : Out := issueLane (opVredsum vd va vb mk) s
/-- vredmax (R227). -/
def opVredmax (vd va vb : VReg) (mk : MkField) : LaneOp := redInt (fun w a b => if sgn w a < sgn w b then b else a) vd va vb mk
/-- vredmax issued by a thread (R227). -/
def execVredmax (vd va vb : VReg) (mk : MkField) (s : State) : Out := issueLane (opVredmax vd va vb mk) s
/-- vredmin (R227). -/
def opVredmin (vd va vb : VReg) (mk : MkField) : LaneOp := redInt (fun w a b => if sgn w b < sgn w a then b else a) vd va vb mk
/-- vredmin issued by a thread (R227). -/
def execVredmin (vd va vb : VReg) (mk : MkField) (s : State) : Out := issueLane (opVredmin vd va vb mk) s
/-- vredmaxw (R227). -/
def opVredmaxw (vd va vb : VReg) (mk : MkField) : LaneOp := redInt (fun _ a b => max a b) vd va vb mk
/-- vredmaxw issued by a thread (R227). -/
def execVredmaxw (vd va vb : VReg) (mk : MkField) (s : State) : Out := issueLane (opVredmaxw vd va vb mk) s
/-- vredminw (R227). -/
def opVredminw (vd va vb : VReg) (mk : MkField) : LaneOp := redInt (fun _ a b => min a b) vd va vb mk
/-- vredminw issued by a thread (R227). -/
def execVredminw (vd va vb : VReg) (mk : MkField) (s : State) : Out := issueLane (opVredminw vd va vb mk) s
/-- vredand (R227). -/
def opVredand (vd va vb : VReg) (mk : MkField) : LaneOp := redInt (fun _ a b => a &&& b) vd va vb mk
/-- vredand issued by a thread (R227). -/
def execVredand (vd va vb : VReg) (mk : MkField) (s : State) : Out := issueLane (opVredand vd va vb mk) s
/-- vredor (R227). -/
def opVredor (vd va vb : VReg) (mk : MkField) : LaneOp := redInt (fun _ a b => a ||| b) vd va vb mk
/-- vredor issued by a thread (R227). -/
def execVredor (vd va vb : VReg) (mk : MkField) (s : State) : Out := issueLane (opVredor vd va vb mk) s

/-- vfredsum (R228): element order. -/
def opVfredsum (vd va vb : VReg) (mk : MkField) : LaneOp := redFold redAdd vd va vb mk
/-- vfredsum issued by a thread (R228). -/
def execVfredsum (vd va vb : VReg) (mk : MkField) (s : State) : Out := issueLane (opVfredsum vd va vb mk) s
/-- vfredmax (R227). -/
def opVfredmax (vd va vb : VReg) (mk : MkField) : LaneOp :=
  redFold (fun vt a b => fpElemBits vt (fun t x y => minMaxBits t true x y) a b) vd va vb mk
/-- vfredmax issued by a thread (R227). -/
def execVfredmax (vd va vb : VReg) (mk : MkField) (s : State) : Out := issueLane (opVfredmax vd va vb mk) s
/-- vfredmin (R227). -/
def opVfredmin (vd va vb : VReg) (mk : MkField) : LaneOp :=
  redFold (fun vt a b => fpElemBits vt (fun t x y => minMaxBits t false x y) a b) vd va vb mk
/-- vfredmin issued by a thread (R227). -/
def execVfredmin (vd va vb : VReg) (mk : MkField) (s : State) : Out := issueLane (opVfredmin vd va vb mk) s
/-- vfredusum (R228): the pairwise tree over the next power of two, then v[va][0]. -/
def opVfredusum (vd va vb : VReg) (mk : MkField) : LaneOp where
  dest := some vd
  srcs := [va, vb]
  rep := none
  split := false
  run := fun e s =>
    let v := s.curC.vec
    let w := e.n
    if e.vl = 0 then .done s
    else
      let ex := redElems e v mk
      let t := (List.range (powUp e.vl 12 1)).map (fun i =>
        if ex.contains i then elemGet v.regs[vb].bits w i else topBit e.vtype)
      let r := treeSum e.vtype e.fexc ex 13 t (0, none)
      redDone e s vd va vb (r.step e.fexc 0 (fun a => redAdd e.vtype (elemGet v.regs[va].bits w 0) a))
/-- vfredusum issued by a thread (R228). -/
def execVfredusum (vd va vb : VReg) (mk : MkField) (s : State) : Out := issueLane (opVfredusum vd va vb mk) s

/-! ## vbscale (R248) -/

/-- The format of a block scale (R239). -/
def scaleFmt : Fmt := ⟨8, 11, 127⟩
/-- The scale a / F rounded up, at least 2^−126; a NaN and OF beyond the largest (R248). -/
def scaleOf (a f : Dy) : Nat × BitVec 5 :=
  let w := packFields scaleFmt (roundFmt scaleFmt .rup false ⟨a.m.natAbs, f.m.natAbs, a.e - f.e⟩)
  if w < 2 ^ 11 then (2 ^ 11, 0) else if w ≥ 255 * 2 ^ 11 then (0x7FC00, flOF) else (w, 0)

/-- One block: its scale, its flags and the element that they name. -/
def blockScale (vt : BitVec 11) (fmax : FVal) (l : List (Nat × Nat)) : Nat × BitVec 5 × Nat :=
  let t := fmtOfVt vt
  let vals := l.map (fun p => (p.1, fval t (flushBits t (flushOf vt = 1) p.2).1))
  let first := match l with | p :: _ => p.1 | [] => 0
  let goodF := match fmax with | .fin n m _ => !n && m != 0 | _ => false
  let sn := vals.find? (fun p => p.2.isSnan)
  let fl := if !goodF || sn.isSome then flNV else 0
  let at_ := match sn with | some p => p.1 | none => first
  if !goodF || vals.any (fun p => !p.2.isFin) then (0x7FC00, fl, at_)
  else
    let a := vals.foldl (fun m p => Dyadic.max m (Dyadic.abs p.2.dy)) Dyadic.zero
    if a.m = 0 then (0x3F800, 0, first)
    else
      let (sc, ofl) := scaleOf a fmax.dy
      (sc, ofl, first)

/-- The blocks in order, until one raises an enabled flag. -/
def scaleBlocks (fexc : BitVec 5) (f : Nat → Nat × BitVec 5 × Nat) : List Nat → List (Nat × Nat) × BitVec 5 × Option (Nat × BitVec 5)
  | [] => ([], 0, none)
  | b :: t =>
    let (sc, fl, at_) := f b
    if fl &&& fexc != 0 then ([], fl, some (at_, fl))
    else
      let (l, fl', tr) := scaleBlocks fexc f t
      ((b, sc) :: l, fl ||| fl', tr)

/-- A free 20-bit scale for each block, where the width is neither 16 nor 32 (R248; log 22). -/
def freeScales (s : State) : List Nat → State × List (Nat × Nat)
  | [] => (s, [])
  | b :: t =>
    let (n, s) := s.draw
    let (s, l) := freeScales s t
    (s, (b, (Config.freeValue n).toNat % 2 ^ 20) :: l)

/-- vbscale (R248): one scale for each block of 32 elements of vb. -/
def opVbscale (vd va vb : VReg) (mk : MkField) : LaneOp where
  dest := some vd
  srcs := [va, vb]
  rep := none
  split := false
  run := fun e s =>
    let v := s.curC.vec
    let w := e.n
    let blocks := List.range ((e.vl + 31) / 32)
    let fin (s : State) (l : List (Nat × Nat)) (fl : BitVec 5) : LaneRes :=
      finishElems e s vd 32 ⟨l.map (fun p => (p.1, EOut.plain p.2)), fl, none, false⟩ (fun _ => ⟨0, 0, 0⟩)
    if e.vl = 0 then .done s
    else if w = 16 || w = 32 then
      let ex := redElems e v mk
      let fmax := fval (fmtOfVt e.vtype) (elemGet v.regs[va].bits w 0)
      let (l, fl, tr) := scaleBlocks e.fexc (fun b => blockScale e.vtype fmax
        ((ex.filter (fun i => i / 32 = b)).map (fun i => (i, elemGet v.regs[vb].bits w i)))) blocks
      match tr with
      | some (i, f) => .whole (s.accrue fl) (mkTrap 0x12 (f.zeroExtend 64) (BitVec.ofNat 64 i))
      | none => fin s l fl
    else
      let (s, l) := freeScales s blocks
      let (n, s) := s.draw
      fin s l ((Config.freeValue n).setWidth 5)
/-- vbscale issued by a thread (R248). -/
def execVbscale (vd va vb : VReg) (mk : MkField) (s : State) : Out := issueLane (opVbscale vd va vb mk) s

end Sys2Proof.Machine
end

