-- ==== Sys2Proof/Machine/Rpt.lean ====
section
/-!
DEFINITION. The lane words that frames and blocks run, and rpt (spec 02 R30, R31; 12 R230, R231).
-/

namespace Sys2Proof.Machine

/-- The effect of a lane word that a frame or a block may run: V3 and VI words, and the scratchpad accesses of blocks. -/
def laneOpOf (i : Instr) : Option LaneOp :=
  match i with
  | .vadd vd va vb rep mk => some (opVadd vd va vb rep mk)
  | .vsub vd va vb rep mk => some (opVsub vd va vb rep mk)
  | .vrsub vd va vb rep mk => some (opVrsub vd va vb rep mk)
  | .vmul vd va vb rep mk => some (opVmul vd va vb rep mk)
  | .vmulh vd va vb rep mk => some (opVmulh vd va vb rep mk)
  | .vmulhw vd va vb rep mk => some (opVmulhw vd va vb rep mk)
  | .vand vd va vb rep mk => some (opVand vd va vb rep mk)
  | .vor vd va vb rep mk => some (opVor vd va vb rep mk)
  | .vxor vd va vb rep mk => some (opVxor vd va vb rep mk)
  | .vsll vd va vb rep mk => some (opVsll vd va vb rep mk)
  | .vsrl vd va vb rep mk => some (opVsrl vd va vb rep mk)
  | .vsra vd va vb rep mk => some (opVsra vd va vb rep mk)
  | .vmin vd va vb rep mk => some (opVmin vd va vb rep mk)
  | .vmax vd va vb rep mk => some (opVmax vd va vb rep mk)
  | .vminw vd va vb rep mk => some (opVminw vd va vb rep mk)
  | .vmaxw vd va vb rep mk => some (opVmaxw vd va vb rep mk)
  | .vabsd vd va vb rep mk => some (opVabsd vd va vb rep mk)
  | .vsadd vd va vb rep mk => some (opVsadd vd va vb rep mk)
  | .vssub vd va vb rep mk => some (opVssub vd va vb rep mk)
  | .vsaddw vd va vb rep mk => some (opVsaddw vd va vb rep mk)
  | .vssubw vd va vb rep mk => some (opVssubw vd va vb rep mk)
  | .vmacc vd va vb rep mk => some (opVmacc vd va vb rep mk)
  | .vnmsac vd va vb rep mk => some (opVnmsac vd va vb rep mk)
  | .vdot4 vd va vb rep mk => some (opVdot4 vd va vb rep mk)
  | .vdot4w vd va vb rep mk => some (opVdot4w vd va vb rep mk)
  | .vrshr vd va vb rep mk => some (opVrshr vd va vb rep mk)
  | .vnclip vd va vb rep mk => some (opVnclip vd va vb rep mk)
  | .vnclipw vd va vb rep mk => some (opVnclipw vd va vb rep mk)
  | .vfadd vd va vb rep mk => some (opVfadd vd va vb rep mk)
  | .vfsub vd va vb rep mk => some (opVfsub vd va vb rep mk)
  | .vfmul vd va vb rep mk => some (opVfmul vd va vb rep mk)
  | .vfdiv vd va vb rep mk => some (opVfdiv vd va vb rep mk)
  | .vfsqrt vd va mk => some (opVfsqrt vd va mk)
  | .vfmin vd va vb rep mk => some (opVfmin vd va vb rep mk)
  | .vfmax vd va vb rep mk => some (opVfmax vd va vb rep mk)
  | .vfmacc vd va vb rep mk => some (opVfmacc vd va vb rep mk)
  | .vfnmacc vd va vb rep mk => some (opVfnmacc vd va vb rep mk)
  | .vfmsac vd va vb rep mk => some (opVfmsac vd va vb rep mk)
  | .vfabs vd va mk => some (opVfabs vd va mk)
  | .vfneg vd va mk => some (opVfneg vd va mk)
  | .vfsgnj vd va vb rep mk => some (opVfsgnj vd va vb rep mk)
  | .vfexp2 vd va mk => some (opVfexp2 vd va mk)
  | .vfrcp vd va mk => some (opVfrcp vd va mk)
  | .vfclass vd va mk => some (opVfclass vd va mk)
  | .vcmpeq md va vb rep mk => some (opVcmpeq md va vb rep mk)
  | .vcmpne md va vb rep mk => some (opVcmpne md va vb rep mk)
  | .vcmplt md va vb rep mk => some (opVcmplt md va vb rep mk)
  | .vcmple md va vb rep mk => some (opVcmple md va vb rep mk)
  | .vcmpgt md va vb rep mk => some (opVcmpgt md va vb rep mk)
  | .vcmpge md va vb rep mk => some (opVcmpge md va vb rep mk)
  | .vcmpltw md va vb rep mk => some (opVcmpltw md va vb rep mk)
  | .vcmplew md va vb rep mk => some (opVcmplew md va vb rep mk)
  | .vcmpgtw md va vb rep mk => some (opVcmpgtw md va vb rep mk)
  | .vcmpgew md va vb rep mk => some (opVcmpgew md va vb rep mk)
  | .vfcmpeq md va vb rep mk => some (opVfcmpeq md va vb rep mk)
  | .vfcmpne md va vb rep mk => some (opVfcmpne md va vb rep mk)
  | .vfcmplt md va vb rep mk => some (opVfcmplt md va vb rep mk)
  | .vfcmple md va vb rep mk => some (opVfcmple md va vb rep mk)
  | .vfcmpgt md va vb rep mk => some (opVfcmpgt md va vb rep mk)
  | .vfcmpge md va vb rep mk => some (opVfcmpge md va vb rep mk)
  | .vmand md ma mb => some (opVmand md ma mb)
  | .vmor md ma mb => some (opVmor md ma mb)
  | .vmxor md ma mb => some (opVmxor md ma mb)
  | .vmandn md ma mb => some (opVmandn md ma mb)
  | .vmnot md ma => some (opVmnot md ma)
  | .vmset md => some (opVmset md)
  | .vmclr md => some (opVmclr md)
  | .vmsbf md ma => some (opVmsbf md ma)
  | .viota vd ma => some (opViota vd ma)
  | .vmcnt d ma => some (opVmcnt d ma)
  | .vmany d ma => some (opVmany d ma)
  | .vmfirst d ma => some (opVmfirst d ma)
  | .vmfm md => some (opVmfm md)
  | .vredsum vd va vb mk => some (opVredsum vd va vb mk)
  | .vredmax vd va vb mk => some (opVredmax vd va vb mk)
  | .vredmin vd va vb mk => some (opVredmin vd va vb mk)
  | .vredmaxw vd va vb mk => some (opVredmaxw vd va vb mk)
  | .vredminw vd va vb mk => some (opVredminw vd va vb mk)
  | .vredand vd va vb mk => some (opVredand vd va vb mk)
  | .vredor vd va vb mk => some (opVredor vd va vb mk)
  | .vfredsum vd va vb mk => some (opVfredsum vd va vb mk)
  | .vfredusum vd va vb mk => some (opVfredusum vd va vb mk)
  | .vfredmax vd va vb mk => some (opVfredmax vd va vb mk)
  | .vfredmin vd va vb mk => some (opVfredmin vd va vb mk)
  | .vbscale vd va vb mk => some (opVbscale vd va vb mk)
  | .vslideup vd va b mk => some (opVslideup vd va b mk)
  | .vslidedn vd va b mk => some (opVslidedn vd va b mk)
  | .vrgather vd va vb mk => some (opVrgather vd va vb mk)
  | .vcompress vd va mb => some (opVcompress vd va mb)
  | .vmv vd va mk => some (opVmv vd va mk)
  | .vmvsx vd a mk => some (opVmvsx vd a mk)
  | .vmerge vd va vb mk => some (opVmerge vd va vb mk)
  | .vcvt vd va src sat rm mk dst => some (opVcvt vd va src sat rm mk dst)
  | .vaddi vd va imm mk => some (opVaddi vd va imm mk)
  | .vrsubi vd va imm mk => some (opVrsubi vd va imm mk)
  | .vandi vd va imm mk => some (opVandi vd va imm mk)
  | .vori vd va imm mk => some (opVori vd va imm mk)
  | .vxori vd va imm mk => some (opVxori vd va imm mk)
  | .vslli vd va imm mk => some (opVslli vd va imm mk)
  | .vsrli vd va imm mk => some (opVsrli vd va imm mk)
  | .vsrai vd va imm mk => some (opVsrai vd va imm mk)
  | .vrshri vd va imm mk => some (opVrshri vd va imm mk)
  | .vslideupi vd va imm mk => some (opVslideupi vd va imm mk)
  | .vslidedni vd va imm mk => some (opVslidedni vd va imm mk)
  | .vmvi vd imm mk => some (opVmvi vd imm mk)
  | .vbget vd va => some (opVbget vd va)
  | .vbset vd va => some (opVbset vd va)
  | .vlp vd a ew qf mk => some (opVloadSpad vd a .unit false ew qf mk)
  | .vlpk vd a x ew qf mk => some (opVloadSpad vd a (.strided x) false ew qf mk)
  | .vlpx vd a vx ew qf mk => some (opVloadSpad vd a (.indexed vx) false ew qf mk)
  | .vlpl vd a ew qf mk => some (opVloadSpad vd a .unit true ew qf mk)
  | .vsp vd a ew qf mk => some (opVstoreSpad vd a .unit false true ew qf mk)
  | .vspk vd a x ew qf mk => some (opVstoreSpad vd a (.strided x) false true ew qf mk)
  | .vspx vd a vx ew qf mk => some (opVstoreSpad vd a (.indexed vx) false false ew qf mk)
  | .vspxo vd a vx ew qf mk => some (opVstoreSpad vd a (.indexed vx) false true ew qf mk)
  | .vspl vd a ew qf mk => some (opVstoreSpad vd a .unit true true ew qf mk)
  | _ => none

/-- A register number staggered within its kind (R30). -/
def shift {m : Nat} (f : Fin m) (k step : Nat) : Fin m := ⟨(f.val + k * step) % m, Nat.mod_lt _ (Nat.lt_of_le_of_lt (Nat.zero_le _) f.isLt)⟩

/-- A captured word with the fields of execution k (R30): V3 and VI words, less vstb and vldb (R294), and mmac; none for any
other. Fields that a member does not use stay 0. -/
def stagger (dd da db k : Nat) (i : Instr) : Option Instr :=
  match i with
  | .vadd vd va vb rep mk => some (.vadd (shift vd k dd) (shift va k da) (shift vb k db) rep mk)
  | .vsub vd va vb rep mk => some (.vsub (shift vd k dd) (shift va k da) (shift vb k db) rep mk)
  | .vrsub vd va vb rep mk => some (.vrsub (shift vd k dd) (shift va k da) (shift vb k db) rep mk)
  | .vmul vd va vb rep mk => some (.vmul (shift vd k dd) (shift va k da) (shift vb k db) rep mk)
  | .vmulh vd va vb rep mk => some (.vmulh (shift vd k dd) (shift va k da) (shift vb k db) rep mk)
  | .vmulhw vd va vb rep mk => some (.vmulhw (shift vd k dd) (shift va k da) (shift vb k db) rep mk)
  | .vand vd va vb rep mk => some (.vand (shift vd k dd) (shift va k da) (shift vb k db) rep mk)
  | .vor vd va vb rep mk => some (.vor (shift vd k dd) (shift va k da) (shift vb k db) rep mk)
  | .vxor vd va vb rep mk => some (.vxor (shift vd k dd) (shift va k da) (shift vb k db) rep mk)
  | .vsll vd va vb rep mk => some (.vsll (shift vd k dd) (shift va k da) (shift vb k db) rep mk)
  | .vsrl vd va vb rep mk => some (.vsrl (shift vd k dd) (shift va k da) (shift vb k db) rep mk)
  | .vsra vd va vb rep mk => some (.vsra (shift vd k dd) (shift va k da) (shift vb k db) rep mk)
  | .vmin vd va vb rep mk => some (.vmin (shift vd k dd) (shift va k da) (shift vb k db) rep mk)
  | .vmax vd va vb rep mk => some (.vmax (shift vd k dd) (shift va k da) (shift vb k db) rep mk)
  | .vminw vd va vb rep mk => some (.vminw (shift vd k dd) (shift va k da) (shift vb k db) rep mk)
  | .vmaxw vd va vb rep mk => some (.vmaxw (shift vd k dd) (shift va k da) (shift vb k db) rep mk)
  | .vabsd vd va vb rep mk => some (.vabsd (shift vd k dd) (shift va k da) (shift vb k db) rep mk)
  | .vsadd vd va vb rep mk => some (.vsadd (shift vd k dd) (shift va k da) (shift vb k db) rep mk)
  | .vssub vd va vb rep mk => some (.vssub (shift vd k dd) (shift va k da) (shift vb k db) rep mk)
  | .vsaddw vd va vb rep mk => some (.vsaddw (shift vd k dd) (shift va k da) (shift vb k db) rep mk)
  | .vssubw vd va vb rep mk => some (.vssubw (shift vd k dd) (shift va k da) (shift vb k db) rep mk)
  | .vmacc vd va vb rep mk => some (.vmacc (shift vd k dd) (shift va k da) (shift vb k db) rep mk)
  | .vnmsac vd va vb rep mk => some (.vnmsac (shift vd k dd) (shift va k da) (shift vb k db) rep mk)
  | .vdot4 vd va vb rep mk => some (.vdot4 (shift vd k dd) (shift va k da) (shift vb k db) rep mk)
  | .vdot4w vd va vb rep mk => some (.vdot4w (shift vd k dd) (shift va k da) (shift vb k db) rep mk)
  | .vrshr vd va vb rep mk => some (.vrshr (shift vd k dd) (shift va k da) (shift vb k db) rep mk)
  | .vnclip vd va vb rep mk => some (.vnclip (shift vd k dd) (shift va k da) (shift vb k db) rep mk)
  | .vnclipw vd va vb rep mk => some (.vnclipw (shift vd k dd) (shift va k da) (shift vb k db) rep mk)
  | .vfadd vd va vb rep mk => some (.vfadd (shift vd k dd) (shift va k da) (shift vb k db) rep mk)
  | .vfsub vd va vb rep mk => some (.vfsub (shift vd k dd) (shift va k da) (shift vb k db) rep mk)
  | .vfmul vd va vb rep mk => some (.vfmul (shift vd k dd) (shift va k da) (shift vb k db) rep mk)
  | .vfdiv vd va vb rep mk => some (.vfdiv (shift vd k dd) (shift va k da) (shift vb k db) rep mk)
  | .vfsqrt vd va mk => some (.vfsqrt (shift vd k dd) (shift va k da) mk)
  | .vfmin vd va vb rep mk => some (.vfmin (shift vd k dd) (shift va k da) (shift vb k db) rep mk)
  | .vfmax vd va vb rep mk => some (.vfmax (shift vd k dd) (shift va k da) (shift vb k db) rep mk)
  | .vfmacc vd va vb rep mk => some (.vfmacc (shift vd k dd) (shift va k da) (shift vb k db) rep mk)
  | .vfnmacc vd va vb rep mk => some (.vfnmacc (shift vd k dd) (shift va k da) (shift vb k db) rep mk)
  | .vfmsac vd va vb rep mk => some (.vfmsac (shift vd k dd) (shift va k da) (shift vb k db) rep mk)
  | .vfabs vd va mk => some (.vfabs (shift vd k dd) (shift va k da) mk)
  | .vfneg vd va mk => some (.vfneg (shift vd k dd) (shift va k da) mk)
  | .vfsgnj vd va vb rep mk => some (.vfsgnj (shift vd k dd) (shift va k da) (shift vb k db) rep mk)
  | .vfexp2 vd va mk => some (.vfexp2 (shift vd k dd) (shift va k da) mk)
  | .vfrcp vd va mk => some (.vfrcp (shift vd k dd) (shift va k da) mk)
  | .vfclass vd va mk => some (.vfclass (shift vd k dd) (shift va k da) mk)
  | .vcmpeq md va vb rep mk => some (.vcmpeq (shift md k dd) (shift va k da) (shift vb k db) rep mk)
  | .vcmpne md va vb rep mk => some (.vcmpne (shift md k dd) (shift va k da) (shift vb k db) rep mk)
  | .vcmplt md va vb rep mk => some (.vcmplt (shift md k dd) (shift va k da) (shift vb k db) rep mk)
  | .vcmple md va vb rep mk => some (.vcmple (shift md k dd) (shift va k da) (shift vb k db) rep mk)
  | .vcmpgt md va vb rep mk => some (.vcmpgt (shift md k dd) (shift va k da) (shift vb k db) rep mk)
  | .vcmpge md va vb rep mk => some (.vcmpge (shift md k dd) (shift va k da) (shift vb k db) rep mk)
  | .vcmpltw md va vb rep mk => some (.vcmpltw (shift md k dd) (shift va k da) (shift vb k db) rep mk)
  | .vcmplew md va vb rep mk => some (.vcmplew (shift md k dd) (shift va k da) (shift vb k db) rep mk)
  | .vcmpgtw md va vb rep mk => some (.vcmpgtw (shift md k dd) (shift va k da) (shift vb k db) rep mk)
  | .vcmpgew md va vb rep mk => some (.vcmpgew (shift md k dd) (shift va k da) (shift vb k db) rep mk)
  | .vfcmpeq md va vb rep mk => some (.vfcmpeq (shift md k dd) (shift va k da) (shift vb k db) rep mk)
  | .vfcmpne md va vb rep mk => some (.vfcmpne (shift md k dd) (shift va k da) (shift vb k db) rep mk)
  | .vfcmplt md va vb rep mk => some (.vfcmplt (shift md k dd) (shift va k da) (shift vb k db) rep mk)
  | .vfcmple md va vb rep mk => some (.vfcmple (shift md k dd) (shift va k da) (shift vb k db) rep mk)
  | .vfcmpgt md va vb rep mk => some (.vfcmpgt (shift md k dd) (shift va k da) (shift vb k db) rep mk)
  | .vfcmpge md va vb rep mk => some (.vfcmpge (shift md k dd) (shift va k da) (shift vb k db) rep mk)
  | .vmand md ma mb => some (.vmand (shift md k dd) (shift ma k da) (shift mb k db))
  | .vmor md ma mb => some (.vmor (shift md k dd) (shift ma k da) (shift mb k db))
  | .vmxor md ma mb => some (.vmxor (shift md k dd) (shift ma k da) (shift mb k db))
  | .vmandn md ma mb => some (.vmandn (shift md k dd) (shift ma k da) (shift mb k db))
  | .vmnot md ma => some (.vmnot (shift md k dd) (shift ma k da))
  | .vmset md => some (.vmset (shift md k dd))
  | .vmclr md => some (.vmclr (shift md k dd))
  | .vmsbf md ma => some (.vmsbf (shift md k dd) (shift ma k da))
  | .viota vd ma => some (.viota (shift vd k dd) (shift ma k da))
  | .vmcnt d ma => some (.vmcnt (shift d k dd) (shift ma k da))
  | .vmany d ma => some (.vmany (shift d k dd) (shift ma k da))
  | .vmfirst d ma => some (.vmfirst (shift d k dd) (shift ma k da))
  | .vmfm md => some (.vmfm (shift md k dd))
  | .vredsum vd va vb mk => some (.vredsum (shift vd k dd) (shift va k da) (shift vb k db) mk)
  | .vredmax vd va vb mk => some (.vredmax (shift vd k dd) (shift va k da) (shift vb k db) mk)
  | .vredmin vd va vb mk => some (.vredmin (shift vd k dd) (shift va k da) (shift vb k db) mk)
  | .vredmaxw vd va vb mk => some (.vredmaxw (shift vd k dd) (shift va k da) (shift vb k db) mk)
  | .vredminw vd va vb mk => some (.vredminw (shift vd k dd) (shift va k da) (shift vb k db) mk)
  | .vredand vd va vb mk => some (.vredand (shift vd k dd) (shift va k da) (shift vb k db) mk)
  | .vredor vd va vb mk => some (.vredor (shift vd k dd) (shift va k da) (shift vb k db) mk)
  | .vfredsum vd va vb mk => some (.vfredsum (shift vd k dd) (shift va k da) (shift vb k db) mk)
  | .vfredusum vd va vb mk => some (.vfredusum (shift vd k dd) (shift va k da) (shift vb k db) mk)
  | .vfredmax vd va vb mk => some (.vfredmax (shift vd k dd) (shift va k da) (shift vb k db) mk)
  | .vfredmin vd va vb mk => some (.vfredmin (shift vd k dd) (shift va k da) (shift vb k db) mk)
  | .vbscale vd va vb mk => some (.vbscale (shift vd k dd) (shift va k da) (shift vb k db) mk)
  | .vslideup vd va b mk => some (.vslideup (shift vd k dd) (shift va k da) (shift b k db) mk)
  | .vslidedn vd va b mk => some (.vslidedn (shift vd k dd) (shift va k da) (shift b k db) mk)
  | .vrgather vd va vb mk => some (.vrgather (shift vd k dd) (shift va k da) (shift vb k db) mk)
  | .vcompress vd va mb => some (.vcompress (shift vd k dd) (shift va k da) (shift mb k db))
  | .vmv vd va mk => some (.vmv (shift vd k dd) (shift va k da) mk)
  | .vmvsx vd a mk => some (.vmvsx (shift vd k dd) (shift a k da) mk)
  | .vmerge vd va vb mk => some (.vmerge (shift vd k dd) (shift va k da) (shift vb k db) mk)
  | .vcvt vd va src sat rm mk dst => some (.vcvt (shift vd k dd) (shift va k da) src sat rm mk dst)
  | .vaddi vd va imm mk => some (.vaddi (shift vd k dd) (shift va k da) imm mk)
  | .vrsubi vd va imm mk => some (.vrsubi (shift vd k dd) (shift va k da) imm mk)
  | .vandi vd va imm mk => some (.vandi (shift vd k dd) (shift va k da) imm mk)
  | .vori vd va imm mk => some (.vori (shift vd k dd) (shift va k da) imm mk)
  | .vxori vd va imm mk => some (.vxori (shift vd k dd) (shift va k da) imm mk)
  | .vslli vd va imm mk => some (.vslli (shift vd k dd) (shift va k da) imm mk)
  | .vsrli vd va imm mk => some (.vsrli (shift vd k dd) (shift va k da) imm mk)
  | .vsrai vd va imm mk => some (.vsrai (shift vd k dd) (shift va k da) imm mk)
  | .vrshri vd va imm mk => some (.vrshri (shift vd k dd) (shift va k da) imm mk)
  | .vslideupi vd va imm mk => some (.vslideupi (shift vd k dd) (shift va k da) imm mk)
  | .vslidedni vd va imm mk => some (.vslidedni (shift vd k dd) (shift va k da) imm mk)
  | .vmvi vd imm mk => some (.vmvi (shift vd k dd) imm mk)
  | .vbget vd va => some (.vbget (shift vd k dd) (shift va k da))
  | .vbset vd va => some (.vbset (shift vd k dd) (shift va k da))
  | .mmac p q c t rs x z => some (.mmac (shift p k dd) (shift q k da) (shift c k db) t rs x z)
  | _ => none

/-! ## rpt -/

/-- Fetches the words of a frame or block. -/
def fetchWords (s : State) (va : Word) : Nat → State × Except (State → Out) (List Word32)
  | 0 => (s, .ok [])
  | n + 1 =>
    match fetchWord s va with
    | (s, .error k) => (s, .error k)
    | (s, .ok w) =>
      match fetchWords s (va + 4) n with
      | (s, .error k) => (s, .error k)
      | (s, .ok l) => (s, .ok (w :: l))

/-- The instruction of a captured word, when it may be captured. -/
def captured (w : Word32) : Option Instr :=
  match decodeLow w with
  | .ok i => if (stagger 0 0 0 0 i).isSome && i.wellFormed then some i else none
  | .error _ => none
/-- The first execution at which a captured word's staggered form is illegal (R31). -/
def staggerFault (dd da db reps : Nat) (i : Instr) : Option Nat :=
  (List.range reps).find? (fun k => match stagger dd da db k i with | some x => !x.wellFormed | none => true)
/-- The upper bits of tval for a frame that is illegal (R31): positions in order. A word that stands at le and also has an illegal
staggered form is reported as the first, with tval [45:40] = 0 (log 70). -/
def frameFault (dd da db reps : Nat) (atLe : Nat → Bool) : Nat → List Word32 → Option Nat
  | _, [] => none
  | j, w :: l =>
    match captured w with
    | none => some (j + 1)
    | some i =>
      if atLe j then some (j + 1)
      else match staggerFault dd da db reps i with
        | some k => some (j + 1 + k * 256)
        | none => frameFault dd da db reps atLe (j + 1) l

/-- rptst of a position (R231). -/
def rptWord (j k : Nat) : Word := BitVec.ofNat 64 (1 + 2 * j + 32 * k)
/-- A captured word has completed: the next one, or the end of the frame, whose words are then forgotten (R230). -/
def rptNext (n reps j k : Nat) (s : State) : State :=
  s.modCur (fun t =>
    if j + 1 < n then { t with rptst := rptWord (j + 1) k, vstart := 0 }
    else if k + 1 < reps then { t with rptst := rptWord 0 (k + 1), vstart := 0 }
    else { t with rptst := 0, vstart := 0, frame := [], pc := t.pc + BitVec.ofNat 64 (4 + 4 * n) })

/-- Runs one captured word, staggered; it lies at `pc`. -/
def runCaptured (i : Instr) (pc : Word) (fin : State → State) (s : State) : Out :=
  match i with
  | .mmac p q c t rs x z => mmacWith fin pc p q c t rs x z s
  | i => match laneOpOf i with
    | some op => runLane op s fin
    | none => .next (fin s)

/-- The illegal-instruction trap of a frame: the rpt word with position and execution (R31). -/
def badFrame (word : Word) (x : Nat) (s : State) : Out := raise s 0x01 (word + BitVec.ofNat 64 (x * 2 ^ 32)) 0

/-- The words of the frame at pc: those captured before, or fetched now and checked under R31. All n are fetched before any is checked,
so a fetch fault on one goes before an illegal other (log 70). A captured frame keeps the rpt word at its head: the frame at pc is not
fetched again until a trap, switch or return has ended the capture (R30, R230). -/
def captureFrame (word : Word) (n reps dd da db : Nat) (s : State) (cont : List Word32 → State → Out) : Out :=
  let t := s.cur
  match t.frame with
  | _ :: ws => cont ws s
  | [] =>
    if t.loopActive && t.le == t.pc then badFrame word 0 s
    else match fetchWords s (t.pc + 4) n with
      | (s, .error k) => k s
      | (s, .ok ws) =>
        match frameFault dd da db reps (fun j => t.loopActive && t.le == t.pc + BitVec.ofNat 64 (4 + 4 * j)) 0 ws with
        | some x => badFrame word x s
        | none => cont ws (s.modCur (fun t => { t with frame := word.setWidth 32 :: ws }))

/-- rpt (R30, R31, R177, R230): a lane instruction; one captured word a step. -/
def execRpt (n : Fin 16) (reps : Fin 64) (dd da db : Fin 8) (s : State) : Out :=
  let word := wordOf (.rpt n reps dd da db)
  let n := n.val + 1
  let reps := reps.val + 1
  captureFrame word n reps dd.val da.val db.val s (fun ws s => withLanes s (fun s =>
    let t := s.cur
    let j := if rptActive t.rptst then bitsOf t.rptst.toNat 1 4 else 0
    let k := if rptActive t.rptst then bitsOf t.rptst.toNat 5 6 else 0
    if j ≥ n || k ≥ reps then badFrame word 0xFF s
    else
      let s := s.modCur (fun t => { t with rptst := rptWord j k })
      match (captured (ws.getD j 0)).bind (stagger dd.val da.val db.val k) with
      | none => badFrame word (j + 1) s
      | some x => runCaptured x (t.pc + BitVec.ofNat 64 (4 + 4 * j)) (rptNext n reps j k) s))

end Sys2Proof.Machine
end

