-- ==== Sys2Proof/Machine/Block.lean ====
section
/-!
DEFINITION. Vector-fetch blocks and the VTHR group (spec 10 R184 to R188), and the lanes' events (10 R177, R187).
-/

namespace Sys2Proof.Machine

/-! ## Words of a block (R184) -/

/-- A signed word offset from position p lands inside a block of n words. -/
def jumpIn (n p : Nat) (off : BitVec 13) : Option Nat :=
  let x := (p : Int) + off.toInt
  if 0 ≤ x ∧ x < (n : Int) then some x.toNat else none

/-- The replicate modifier is absent (R184). -/
def Rep.isNone (r : Rep) : Bool := match r with | .none => true | _ => false

/-- Words that a block may hold: the majors of R184, with rp = 0. -/
def blockLane (w : Word32) (i : Instr) : Bool :=
  let m := (fld w 26 6).toNat
  let rp := w.getLsbD 10
  (laneOpOf i).isSome && ((0x1D ≤ m && m ≤ 0x20 && !rp) || m = 0x24 || m = 0x28 || m = 0x29
    || (m = 0x25 && (match i with | .vslideupi _ _ _ _ => false | .vslidedni _ _ _ _ => false | _ => true)))

/-- Word w at position p of a block of n words is legal there (R184, R16). -/
def blockWordOk (n p : Nat) (w : Word32) : Bool :=
  match decodeLow w with
  | .ok i => i.wellFormed && (match i with
    | .vpbr _ _ off => (jumpIn n p off).isSome
    | .vpjmp off => (jumpIn n p off).isSome
    | .vpstop => true
    | i => blockLane w i)
  | .error _ => false
/-- The first position whose word is illegal. -/
def blockFault (n : Nat) : Nat → List Word32 → Option Nat
  | _, [] => none
  | p, w :: l => if blockWordOk n p w then blockFault n (p + 1) l else some p

/-- The register or mask that a block word writes, by its number among registers and masks. -/
def blockWrite (w : Word32) : BitVec 48 :=
  match decodeLow w with
  | .error _ => 0
  | .ok i => match laneOpOf i with
    | none => 0
    | some op => match op.dest with
      | some n => BitVec.ofNat 48 (2 ^ n.val)
      | none => if fld w 26 6 = 0x20 then BitVec.ofNat 48 (2 ^ (32 + (fld w 21 5).toNat % 16)) else 0
/-- What the words of a block write. -/
def blockWrites (ws : List Word32) : BitVec 48 := ws.foldl (fun a w => a ||| blockWrite w) 0

/-! ## vf (R185, R188) -/

/-- A thread has a block that has not joined, running, stopped or set aside. -/
def Core.unjoined (c : Core) (t : Tid) : Bool := (c.vec.block.toList ++ c.vec.parked).any (fun b => b.tid == t)

/-- Fetches and checks the words of the vf at pc (R185): the trap stands at the vf. -/
def blockFetch (count : Fin 32) (off : BitVec 13) (s : State) (cont : List Word32 → State → Out) : Out :=
  let n := count.val + 1
  match fetchWords s (s.cur.pc + wordOff off) n with
  | (s, .error k) => k s
  | (s, .ok ws) =>
    match blockFault n 0 ws with
    | some p => raise s 0x01 (wordOf (.vf count off) + BitVec.ofNat 64 ((p + 1) * 2 ^ 32)) 0
    | none => cont ws s

/-- A block takes or takes back the vector unit: the registers that it writes are unfinished (R186). -/
def VecUnit.runBlock (v : VecUnit) (b : Block) : VecUnit :=
  { v with
    block := some b
    regs := Vector.ofFn (fun (n : Fin 32) => if b.writes.getLsbD n.val then { v.regs[n] with vpx := 0 } else v.regs[n]) }
/-- A vf has completed: its block has joined, or had no virtual processor (R185). -/
def finishVf (s : State) : State := (s.modCur (fun t => { t with vstart := 0 })).advance.count 3 1

/-- vf: the thread stands at it until its block joins (log 30). A stopped block of this very vf resumes, its words fetched again where
they have been dropped; any other is set aside (R188). -/
def execVf (count : Fin 32) (off : BitVec 13) (s : State) : Out :=
  withLanes s (fun s =>
    let t := s.cur
    let base := t.pc + wordOff off
    let run (b : Block) (s : State) : Out := .next (s.modVec (fun v => v.runBlock b))
    match (match s.curC.vec.block with | some b => if b.pc == t.pc && b.tid == s.curTid then some b else none | none => none) with
    | some b =>
      if b.words.isEmpty then
        blockFetch count off s (fun ws s => run
          { b with
            words := ws, base := base, writes := blockWrites ws, stopped := false
            vps := b.vps.map (fun p => if p.pos ≥ ws.length then { p with stopped := true } else p) } s)
      else run { b with stopped := false } s
    | none =>
      blockFetch count off s (fun ws s =>
        if t.vl = 0 then .next (finishVf s)
        else run
          { tid := s.curTid, pc := t.pc, base := base, words := ws, writes := blockWrites ws, sregs := t.sregs, vl := t.vl.toNat
            vtype := t.vtype, vps := List.replicate t.vl.toNat ⟨0, false⟩, dying := 0, stopped := false, threaded := false
            last := [], passes := false }
          (s.modVec (fun v => { v with parked := v.block.toList ++ v.parked }))))

/-- vpbr outside a block is illegal by place (R184). -/
def execVpbr (ma : MReg) (clr : Bool) (off : BitVec 13) (s : State) : Out := illegal s (.vpbr ma clr off)
/-- vpjmp outside a block is illegal by place (R184). -/
def execVpjmp (off : BitVec 13) (s : State) : Out := illegal s (.vpjmp off)
/-- vpstop outside a block is illegal by place (R184). -/
def execVpstop (s : State) : Out := illegal s .vpstop

/-- vjoin (R177, R187): it waits for every block of the thread, a stopped one's too. -/
def execVjoin (s : State) : Out :=
  match acquireLanes s with
  | none => .next (s.block .lanes)
  | some s => if s.curC.unjoined s.curTid then .next (s.block .join) else .next (finishVf s)

/-- vrel (R187): it takes effect by the event LANE_RELEASE; a thread that holds no lanes does nothing. -/
def execVrel (s : State) : Out :=
  let s := if s.curC.vec.holder = some s.curTid then s.modCur (fun t => { t with relPending := true }) else s
  .next (finishVf s)

/-- A vrel takes effect once the thread's earlier lane instructions, its blocks' joins among them, have completed (R187). -/
def execLaneRelease (k : CoreId) (t : Tid) (s : State) : Out :=
  if (s.thr k t).relPending && !(s.core k).unjoined t then
    let s := if s.holdsLanes k t then s.freeLanesOf k t else s
    .next (s.modThr k t (fun x => { x with relPending := false }))
  else .next s

/-- A waiting thread acquires free lanes (R177, R315). -/
def execLanesAcquired (k : CoreId) (t : Tid) (s : State) : Out :=
  if (s.thr k t).wait != .lanes then .next s
  else match acquireLanes { s with curCore := k, curTid := t } with
    | some s' => .next ({ s' with curCore := s.curCore, curTid := s.curTid }.modThr k t (fun x => { x with wait := .none }))
    | none => .next s

/-! ## Running a block (R184, R186, R188) -/

/-- Every virtual processor has stopped. -/
def Block.finished (b : Block) : Bool := b.vps.all (·.stopped)
/-- The live virtual processors, by number. -/
def Block.live (b : Block) : List (Nat × VpState) := (b.vps.zipIdx.filter (fun p => !p.1.stopped)).map (fun p => (p.2, p.1))
/-- The lane that holds a virtual processor (R179). -/
def Block.lane (b : Block) (vp : Nat) : Nat := vp * sewOf b.vtype / 4 % 64
/-- The virtual processors that run next: in lane-threaded mode the next one in turn of the lane that `vp` lies on, else those at the
lowest live word (R186). -/
def Block.turn (b : Block) (vp : Nat) : List Nat :=
  if b.threaded then
    let l := ((b.live.map (·.1)).filter (fun j => b.lane j = b.lane vp))
    match (b.last.find? (fun x => x.1 = b.lane vp)).bind (fun x => l.find? (fun j => decide (x.2 < j))) with
    | some j => [j]
    | none => l.take 1
  else
    let low := b.live.foldl (fun m p => min m p.2.pos) 32
    (b.live.filter (fun p => p.2.pos = low)).map (·.1)
/-- Moves virtual processors; one that runs past the last word stops, and each has had its lane's turn. -/
def Block.move (b : Block) (l : List Nat) (f : Nat → Nat → Nat) : Block :=
  { b with
    passes := false
    last := if b.threaded then l.map (fun j => (b.lane j, j)) ++ b.last.filter (fun x => !l.any (fun j => b.lane j = x.1)) else b.last
    vps := b.vps.zipIdx.map (fun p =>
      if l.contains p.2 then
        let q := f p.2 p.1.pos
        if q ≥ b.words.length then ⟨p.1.pos, true⟩ else ⟨q, false⟩
      else p.1) }
/-- A branch that sends virtual processors to different words enters lane-threaded mode (R186). -/
def Block.spread (b : Block) : Block :=
  match b.live with
  | [] => b
  | p :: l => if l.any (fun q => q.2.pos != p.2.pos) then { b with threaded := true } else b

/-- Replaces the block of core k. -/
def State.setBlock (s : State) (k : CoreId) (b : Block) : State := s.modCore k (fun c => { c with vec := { c.vec with block := some b } })

/-- A fault stops the block: the trap stands at the vf, with the faulting processor's number, and keeps the VL and VTYPE that the vf
captured (R188, R244). -/
def blockTrap (s : State) (k : CoreId) (b : Block) (tr : Trap) (vp : Nat) : State :=
  let tr := { tr with telem := BitVec.ofNat 64 vp, stop := true, vblk := true }
  let lvl := trapLevel s (s.thr k b.tid) tr
  ((s.setBlock k { b with stopped := true }).trapThr k b.tid tr b.pc).modThr k b.tid
    (fun t => t.modTrapSet lvl (fun x => { x with tvtype := b.vtype, tvl := BitVec.ofNat 13 b.vl }))

/-- Runs a lane word for the processors of `run`: it pops, checks and writes as a vector instruction over them (R184, R186); each word
that a lone processor runs pops a strip of its own (log 21). A guard access counts as one of the vf (log 65). -/
def blockLaneStep (s : State) (k : CoreId) (b : Block) (op : LaneOp) (run : List Nat) : State :=
  let t := s.thr k b.tid
  let live := b.live.map (·.1)
  let e : LaneEnv :=
    { vl := b.vl, vtype := b.vtype, start := 0, ext := maskOf run, sregs := b.sregs, fexc := t.fexc, pc := b.pc
      peers := if b.threaded then 0 else maskOf live, full := b.vl }
  let first := run.headD 0
  let stops (s : State) (tr : Trap) (n : Nat) : State :=
    blockTrap s k (b.move (run.filter (· < n)) (fun _ p => p + 1)) tr n
  let back (s' : State) : State := { s' with curCore := s.curCore, curTid := s.curTid }
  let s' := ({ s with curCore := k, curTid := b.tid } : State)
  match laneCheck s' op e with
  | some tr => stops s tr first
  | none =>
    match popAll s' b.vl (sewOf b.vtype) op.srcs.eraseDups with
    | (s', some (.trap tr)) => stops (back (s'.modCur (fun t => { t with answered := t.answered.filter (fun x => x.2) }))) tr first
    | (s', some (.absent p)) => back ((requestPage s' s'.curPart p).block (.hostPage p true))
    | (s', none) =>
      let zero (s : State) : State := match op.dest with | some n => s.modV n (fun x => { x with vpx := 0 }) | none => s
      let done (s : State) : State := (back ((zero s).modVec VecUnit.release)).setBlock k (b.move run (fun _ p => p + 1))
      match op.run e (s'.modCur (fun t => { t with wait := .none })) with
      | .done s' => done s'
      | .doneThen s' post => done (post s')
      | .wait s' _ n => (back (zero s')).setBlock k (b.move (run.filter (· < n)) (fun _ p => p + 1))
      | .part s' n => (back (zero s')).setBlock k (b.move (run.filter (· < n)) (fun _ p => p + 1))
      | .stop s' tr n => stops (back (zero s')) tr n
      | .whole s' tr => stops (back s') tr first
      | .early s' tr => stops (back s') tr first
      | .other _ => s
      | .batch s' _ _ _ _ => back s'

/-- What a trigger leaves of a turn at the word at `addr` (R349, R350): nothing, when it stops the core before the word or before the
lowest processor that is to run; else those below the element that it names. -/
def Core.blockCut (c : Core) (b : Block) (addr : Word) (run : List Nat) : List Nat :=
  let here := c.triggers.toList.filter (fun x => x.control.getLsbD 0 && x.addr == addr)
  if b.passes then run
  else if here.any (fun x => !x.control.getLsbD 13) then []
  else
    let at_ := (here.map (fun x => bitsOf x.control.toNat 1 12)).filter (fun e => run.contains e)
    match at_ with
    | [] => run
    | e :: l => run.filter (fun j => decide (j < l.foldl min e))

/-- A word for the processors of `run`, which stand at it. -/
def blockWord (s : State) (k : CoreId) (b : Block) (pos : Nat) (run : List Nat) : State :=
  match decodeLow (b.words.getD pos 0) with
  | .error _ => s
  | .ok i => match i with
    | .vpstop => s.setBlock k (b.move run (fun _ _ => b.words.length))
    | .vpjmp off => s.setBlock k (b.move run (fun _ p => (jumpIn b.words.length p off).getD b.words.length))
    | .vpbr ma clr off =>
      let v := (s.core k).vec
      s.setBlock k (b.move run (fun j p =>
        if v.masks[ma].bits.getLsbD j != clr then (jumpIn b.words.length p off).getD b.words.length else p + 1)).spread
    | i => match laneOpOf i with
      | some op => blockLaneStep s k b op run
      | none => s

/-- One step of the block of core k: a word for the processors whose turn it is (R186). A halted core's blocks do not step, nor any
after a fatal error (R342, R350), nor those of a core that its partition's halt has taken; a trigger at the word, or a step, halts the
core between words (R312, R350). -/
def blockStep (s : State) (k : CoreId) (vp : Nat) : State :=
  match (s.core k).vec.block with
  | none => s
  | some b =>
    let run := b.turn vp
    if s.fatal || b.stopped || b.finished || (s.core k).halted || (s.part (s.corePart k)).halt != 0 || run.isEmpty then s
    else
      let pos := match b.vps[run.headD 0]? with | some p => p.pos | none => 0
      match (s.core k).blockCut b (b.base + BitVec.ofNat 64 (4 * pos)) run with
      | [] => ((closeQueries s k).setBlock k { b with passes := true }).modCore k (fun c => c.debugHalt 3)
      | run =>
        let s := blockWord s k b pos run
        let more := match (s.core k).vec.block with | some b => !b.stopped && !b.finished | none => false
        if (s.core k).step && more then (closeQueries s k).modCore k (fun c => c.debugHalt 4) else s

/-- The block of core k joins once every processor has stopped (R186): the registers that it wrote are complete, those that a
vsetvl made dead meanwhile die, a block that it set aside stands again, and its vf has completed. -/
def execBlockJoin (k : CoreId) (s : State) : Out :=
  match (s.core k).vec.block with
  | none => .next s
  | some b =>
    if s.fatal || !b.finished || b.stopped || (s.core k).halted || (s.part (s.corePart k)).halt != 0 then .next s
    else
      let s := s.modCore k (fun c => { c with
        vec := { c.vec with
          block := c.vec.parked.head?
          parked := c.vec.parked.tail
          regs := Vector.ofFn (fun (n : Fin 32) => if b.writes.getLsbD n.val then { c.vec.regs[n] with vpx := 4096 } else c.vec.regs[n]) } })
      let s := s.asThread k b.tid (fun s =>
        let s := if b.dying = 0 then s else killRegs s (fun n => !b.dying.getLsbD n.val) (fun m => !b.dying.getLsbD (32 + m.val))
        finishVf (s.modCur (fun t => { t.reissued with wait := .none })))
      .next (if (s.core k).step then (closeQueries s k).modCore k (fun c => c.debugHalt 4) else s)

end Sys2Proof.Machine
end

