-- ==== Sys2Proof/Machine/Engine.lean ====
section
/-!
DEFINITION. Stream engines (spec 07 R121 to R128, R132; 22 R360): segments, their commands, the strips that land, the end of a
segment and command faults. Each event is one action of engine k; where its conditions do not hold it changes nothing.
-/

namespace Sys2Proof.Machine

/-- A fault: reason, page reason, faulting address (R127, R128). -/
abbrev EngFault := Nat × Nat × Word

/-- Who an engine translates for (R122). -/
def Segment.req (g : Segment) : XReq := ⟨g.part, g.asn, g.priv, g.ctx⟩
/-- Changes the running segment of engine k. -/
def State.modRun (s : State) (k : EngineId) (f : SegRun → SegRun) : State :=
  s.modEngine k (fun e => { e with running := e.running.map f })
/-- The reason and address of a failed transfer; an absent page is dealt with before (R332). -/
def engFaultOf (e : XferFail × Word) : EngFault :=
  match e.1 with | .fault r p => (r, p, e.2) | .absent _ => (7, 0, e.2)

/-- The command at `cmd` has faulted: later commands are given up, earlier ones go on landing (R127; log 32). -/
def engFail (s : State) (k : EngineId) (cmd : Word) (f : EngFault) (landed : Nat) (keep : Nat) : State :=
  s.modRun k (fun r => { r with fault := some (cmd, f.1, f.2.1, f.2.2, landed), flight := r.flight.take keep })
/-- The same for a command that has not started. -/
def engFailHere (s : State) (k : EngineId) (r : SegRun) (f : EngFault) : State := engFail s k r.cmdAddr f 0 r.flight.length

/-- Reads generic bytes as engine k does: never from the host (R37, R121). -/
def engRead (s : State) (k : EngineId) (g : Segment) (used : List UsedPage) :
    Nat → Word → Nat → State × Except (XferFail × Word) (List Byte × Bool × List UsedPage)
  | 0, _, _ => (s, .ok ([], false, used))
  | fuel + 1, va, n =>
    if n = 0 then (s, .ok ([], false, used))
    else
      let m := min n 4096
      match xferPieces s (.engine k) g.req .load false used va m with
      | (s, .error e) => (s, .error e)
      | (s, .ok (l, used)) =>
        let (bs, bad) := readPieces s l
        match engRead s k g used fuel (va + BitVec.ofNat 64 m) (n - m) with
        | (s, .error e) => (s, .error e)
        | (s, .ok (r, q, used)) => (s, .ok (bs ++ r, bad.isSome || q, used))

/-! ## Segments and commands (R123 to R125) -/

/-- SEGMENT_START: the engine reads the header of its oldest segment (R121, R123, R126). -/
def execSegmentStart (k : EngineId) (s : State) : Out :=
  let e := s.engines[k]
  match e.running, e.chain with
  | none, g :: _ =>
    if e.faulted then .next s
    else
      let run (ctr frec : Word) (f : Option EngFault) : SegRun :=
        ⟨ctr, frec, g.addr + 64, none, [], false, false, f.map (fun x => (g.addr, x.1, x.2.1, x.2.2, 0)), none⟩
      let start (s : State) (r : SegRun) : State := s.modEngine k (fun e => { e with running := some r })
      if g.addr.toNat % 64 != 0 then .next (start s (run 0 0 (some (1, 0, g.addr))))
      else match engRead s k g [] 2 g.addr 64 with
      | (s, .error x) => .next (start s (run 0 0 (some (engFaultOf x))))
      | (s, .ok (bs, _, _)) =>
        let ctr := fieldAt bs 0 8
        let frec := fieldAt bs 8 8
        -- a counter or record that is misaligned is not used (R123)
        let bad := ctr % 8 != 0 || frec % 64 != 0 || fieldAt bs 16 48 != 0
        .next (start s (run (BitVec.ofNat 64 (if ctr % 8 = 0 then ctr else 0)) (BitVec.ofNat 64 (if frec % 64 = 0 then frec else 0))
          (if bad then some (1, 0, g.addr) else none)))
  | _, _ => .next s

/-- The next command of engine k, when the chain may start one: its 64 bytes. A command that cannot be read faults. -/
def withCommand (k : EngineId) (s : State) (f : State → Segment → SegRun → Nat → State) : Out :=
  let e := s.engines[k]
  match e.running, e.chain with
  | some r, g :: _ =>
    if (r.fault.isSome || r.waiting || r.stopped) = true then .next s
    else match engRead s k g [] 2 r.cmdAddr 64 with
      | (s, .error x) => .next (engFailHere s k r (engFaultOf x))
      | (s, .ok (bs, _, _)) => .next (f s g r (leNat bs))
  | _, _ => .next s

/-- Field of a command: n bytes from an offset. -/
def cmdField (c o n : Nat) : Nat := bitsOf c (8 * o) (8 * n)
/-- Operation byte. -/
def cmdOp (c : Nat) : Nat := cmdField c 0 1
/-- Flags byte. -/
def cmdFlags (c : Nat) : Nat := cmdField c 1 1
/-- A command fault with reason 1. -/
def badCommand (r : SegRun) : EngFault := (1, 0, r.cmdAddr)

/-- The chain passes to the next command, within a REPEAT in its order (R125). -/
def SegRun.nextCmd (r : SegRun) : SegRun :=
  match r.rep with
  | none => { r with cmdAddr := r.cmdAddr + 64 }
  | some p =>
    if p.idx + 1 < p.len then { r with cmdAddr := r.cmdAddr + 64, rep := some { p with idx := p.idx + 1 } }
    else if p.pass + 1 < p.n then { r with cmdAddr := p.start, rep := some { p with idx := 0, pass := p.pass + 1 } }
    else { r with cmdAddr := r.cmdAddr + 64, rep := none }

/-- A STREAM or FOLD as its pass of a REPEAT runs it: source and destination, whose address does not wrap at 32 bits (R125, R41). -/
def SegRun.effective (r : SegRun) (c : Nat) : Word × Int :=
  let src := BitVec.ofNat 64 (cmdField c 8 8)
  let dst : Int := cmdField c 4 4
  match r.rep with
  | none => (src, dst)
  | some p => (src + BitVec.ofNat 64 p.pass * p.sadv, dst + p.pass * p.dadv.toInt)

/-! ## STREAM and FOLD (R124, R132, R360) -/

/-- Destination kind: 0 scratchpad, 1 multicast, 2 slot. -/
def cmdKind (c : Nat) : Nat := cmdField c 2 1
/-- Extent d: bytes of the run, then counts. -/
def cmdExt (c d : Nat) : Nat := cmdField c (16 + 4 * d) 4
/-- Bytes of the command. -/
def cmdTotal (c : Nat) : Nat := cmdExt c 0 * cmdExt c 1 * cmdExt c 2 * cmdExt c 3
/-- Stride of dimension d, 1 to 3. -/
def cmdStride (c d : Nat) : Word := BitVec.ofNat 64 (cmdField c (32 + 8 * (d - 1)) 8)
/-- The command names a barrier. -/
def cmdHasBar (c : Nat) : Bool := (cmdFlags c).testBit 6
/-- Bounded. -/
def cmdBounded (c : Nat) : Bool := (cmdFlags c).testBit 5
/-- The barrier's address. -/
def cmdBar (c : Nat) : Nat := cmdField c 60 4
/-- Source address of byte p in box order. -/
def cmdAddrOf (c : Nat) (src : Word) (p : Nat) : Word :=
  let run := p / cmdExt c 0
  src + BitVec.ofNat 64 (p % cmdExt c 0) + BitVec.ofNat 64 (run % cmdExt c 1) * cmdStride c 1
    + BitVec.ofNat 64 (run / cmdExt c 1 % cmdExt c 2) * cmdStride c 2
    + BitVec.ofNat 64 (run / cmdExt c 1 / cmdExt c 2) * cmdStride c 3
/-- Scale words of a slot fill: one per 32 elements of an 8-bit or 4-bit type (R124). -/
def cmdScales (c : Nat) : Nat :=
  let w := (elemOfCode (cmdField c 3 1)).bits
  if w ≤ 8 then (cmdTotal c * 8 / w + 31) / 32 else 0

/-- A nonzero reserved field, or a value outside its range (R124). -/
def streamBad (c : Nat) (fold : Bool) (src : Word) (dst : Int) : Bool :=
  let fl := cmdFlags c
  let dk := cmdKind c
  let et := cmdField c 3 1
  fl.testBit 7 || decide (bitsOf fl 2 3 > 5) || decide (dk > 2) || decide (et > 15) || src.toNat % 16 != 0
    || cmdExt c 0 = 0 || cmdExt c 0 % 16 != 0 || (List.range 3).any (fun d => cmdExt c (d + 1) = 0 || (cmdStride c (d + 1)).toNat % 16 != 0)
    || cmdField c 58 2 != 0 || (cmdBar c != 0 && !cmdHasBar c)
    || (dk != 1 && cmdField c 56 1 != 0)
    || (dk = 2 && (cmdHasBar c || decide (dst < 0) || decide (dst > 15) || decide (cmdTotal c > 32768)))
    || (if fold then dk != 0 || !foldType (elemOfCode et) || cmdField c 57 1 = 0 || decide (cmdField c 57 1 > 3)
        else cmdField c 57 1 != 0 || (dk < 2 && et != 0))

/-- How a FOLD combines (R124); none for a STREAM. -/
def foldKindOf (c : Nat) : Option FoldKind :=
  match cmdOp c, cmdField c 57 1 with | 2, 1 => some .add | 2, 2 => some .max | 2, _ => some .min | _, _ => none

/-- Cores whose scratchpads a command writes. -/
def cmdTargets (g : Segment) (c : Nat) : List CoreId := if cmdKind c = 1 then multicastCores g.core (cmdField c 56 1) else [g.core]

/-- A command's fields suit a ring barrier (R132). -/
def cmdSuitsRing (c : Nat) (dst : Int) : Bool := cmdOp c = 1 && cmdKind c = 0 && dst = 0 && !cmdBounded c
/-- The slot that a command fills. -/
def slotOf (dst : Int) : Slot := ⟨dst.toNat % 16, by omega⟩
/-- The barrier of a command on one target (R128, R131, R132). -/
def cmdBarFault (s : State) (g : Segment) (c : Nat) (dst : Int) (k : CoreId) : Option EngFault :=
  let bar := cmdBar c
  let at_ : Word := BitVec.ofNat 64 bar
  let l := (s.core k).allocsOf g.part g.launch
  if (placeTrap at_ 32 32).isSome then some (8, 0, at_)
  else if !rangeInAllocs l bar 32 then some (4, 0, at_)
  else
    let b := (s.core k).bar bar
    if b.size = 0 then none
    else if !b.ringOk || !cmdSuitsRing c dst then some (8, 0, at_)
    else if !rangeInAllocs l b.base b.size then some (4, 0, BitVec.ofNat 64 b.base)
    else none

/-- The checks of a STREAM or FOLD when it starts. -/
def streamFault (s : State) (g : Segment) (r : SegRun) (c : Nat) (fold : Bool) : Option EngFault :=
  let (src, dst) := r.effective c
  if streamBad c fold src dst then some (badCommand r)
  else if cmdKind c = 1 && (cmdTargets g c).any (fun k => !crossbarAllows s g.part k) then some (6, 0, BitVec.ofInt 64 dst)
  else if cmdKind c = 2 && !((s.core g.core).mat.slots[slotOf dst]).heldBy g.ctx then some (6, 0, BitVec.ofInt 64 dst)
  else if cmdHasBar c then (cmdTargets g c).findSome? (cmdBarFault s g c dst)
  else none

/-- The fill of a command's slot begins, when no matrix instruction uses the slot: gen advances, and the slot is busy (R80, R261). -/
def EngCmd.tryOpen (x : EngCmd) (u : MatUnit) : MatUnit × EngCmd :=
  let c := x.cmd.toNat
  let p := slotOf x.dst
  if cmdKind c = 2 && x.claim.isNone && u.slotFree p then
    (u.modSlot p (fun sl =>
        { sl.openFill with type := BitVec.ofNat 4 (cmdField c 3 1), scaled := false, bounded := cmdBounded c }),
      { x with claim := some u.slots[p].claim })
  else (u, x)
/-- The fill of a command's slot, if it has begun, is over: it has landed or faulted (R261). -/
def EngCmd.closeSlot (s : State) (k : CoreId) (x : EngCmd) : State :=
  if x.claim.isNone then s
  else s.modCore k (fun c => { c with mat := c.mat.modSlot (slotOf x.dst) SlotSt.closeFill })

/-- A STREAM or FOLD starts: checked, then in flight; the chain goes on (R124, R126). -/
def startStream (k : EngineId) (fold : Bool) (s : State) : Out :=
  withCommand k s (fun s g r c =>
    if cmdOp c != (if fold then 2 else 1) then s
    else match streamFault s g r c fold with
      | some f => engFailHere s k r f
      | none =>
        let (src, dst) := r.effective c
        let (u, x) := (⟨r.cmdAddr, BitVec.ofNat 512 c, src, dst, 0, none, [], none, none⟩ : EngCmd).tryOpen (s.core g.core).mat
        (s.modCore g.core (fun y => { y with mat := u })).modRun k (fun r => { r.nextCmd with flight := r.flight ++ [x] }))

/-- STREAM (R124). -/
def execCmdStream (k : EngineId) (s : State) : Out := startStream k false s
/-- FOLD (R124). -/
def execCmdFold (k : EngineId) (s : State) : Out := startStream k true s

/-- Engine bytes landed for a segment, counted for the thread that runs its context (R352). -/
def countLanded (s : State) (g : Segment) (n : Nat) : State :=
  let t : Tid := if (s.thr g.core 1).isCtx g.part g.ctx then 1 else 0
  s.modCore g.core (fun c => c.count 8 t n)
/-- Changes the j-th command in flight, or drops it when it has landed whole. -/
def putFlight (s : State) (k : EngineId) (g : Segment) (j : Nat) (x : EngCmd) : State :=
  let done := decide (x.landed = cmdTotal x.cmd.toNat)
  let s := if done then x.closeSlot s g.core else s
  s.modRun k (fun r => { r with flight := if done then r.flight.eraseIdx j else r.flight.set j x })

/-- The j-th command in flight faults; slots that it or a later one fills are no longer busy (R127, R261). -/
def strikeFlight (s : State) (k : EngineId) (g : Segment) (r : SegRun) (j : Nat) (x : EngCmd) (f : EngFault) : State :=
  let s := ((x :: r.flight.drop (j + 1))).foldl (fun s y => y.closeSlot s g.core) s
  engFail s k x.addr f x.landed j

/-- The first byte of a scratchpad run that may not be written in core k (R128 reasons 5 and 4). -/
def runFault (s : State) (g : Segment) (k : CoreId) (a : Int) (n : Nat) : Option EngFault :=
  if a < 0 || a + (n : Int) > (laneBase : Int) then some (5, 0, BitVec.ofInt 64 a)
  else
    let l := (s.core k).allocsOf g.part g.launch
    if rangeInAllocs l a.toNat n then none
    else some (4, 0, BitVec.ofNat 64 (((firstGuard l a.toNat n).getD a.toNat)))

/-- Runs of one poison state: their offset in what the command moves, bytes, and whether they are poisoned (R341). -/
abbrev Runs := List (Nat × List Byte × Bool)

/-- A piece as its granules, `skip` bytes of the first being left out. -/
def granuleRuns (s : State) (o : Nat) (t : Tgt) (skip : Nat) : Nat → Nat → Runs
  | 0, _ => []
  | fuel + 1, n =>
    if n = 0 then []
    else
      let m := min n (16 - skip)
      let (bs, bad) := tgtRead s t m
      (o, bs, bad) :: granuleRuns s (o + m) (t.plus m) 0 fuel (n - m)

/-- Reads n bytes from position pos of what a command moves; `place` gives a position's address and the bytes that follow it there. -/
def engRuns (s : State) (k : EngineId) (g : Segment) (place : Nat → Word × Nat) (used : List UsedPage) :
    Nat → Nat → Nat → State × Except (XferFail × Word) (Runs × List UsedPage)
  | 0, _, _ => (s, .ok ([], used))
  | fuel + 1, pos, n =>
    if n = 0 then (s, .ok ([], used))
    else
      let (va, room) := place pos
      let m := min n (min room 4096)
      match xferPieces s (.engine k) g.req .load false used va m with
      | (s, .error e) => (s, .error e)
      | (s, .ok (l, used)) =>
        let here := l.foldl (fun (x : Nat × Runs) p =>
          (x.1 + p.2, x.2 ++ granuleRuns s (pos + x.1) p.1 ((va.toNat + x.1) % 16) p.2 p.2)) (0, [])
        match engRuns s k g place used fuel (pos + m) (n - m) with
        | (s, .error e) => (s, .error e)
        | (s, .ok (r, used)) => (s, .ok (here.2 ++ r, used))
/-- n bytes of a command's box from byte pos on (R124). -/
def boxRuns (s : State) (k : EngineId) (g : Segment) (x : EngCmd) (used : List UsedPage) (pos n : Nat) :
    State × Except (XferFail × Word) (Runs × List UsedPage) :=
  let c := x.cmd.toNat
  engRuns s k g (fun p => (cmdAddrOf c x.src p, cmdExt c 0 - p % cmdExt c 0)) used n pos n
/-- n consecutive bytes from an address, as runs. -/
def lineRuns (s : State) (k : EngineId) (g : Segment) (used : List UsedPage) (va : Word) (n : Nat) :
    State × Except (XferFail × Word) (Runs × List UsedPage) :=
  engRuns s k g (fun p => (va + BitVec.ofNat 64 p, 4096)) used n 0 n

/-- The next strip's bytes: at most 256, ending on a granule of the destination or with the command, so that each granule lands whole
(R72, R138); a fold's strip is of whole elements. -/
def EngCmd.strip (x : EngCmd) : Nat :=
  let c := x.cmd.toNat
  let left := cmdTotal c - x.landed
  let start := ((x.dst + (x.landed : Int)) % 16).toNat
  if left ≤ 256 then left else if cmdOp c = 2 || cmdKind c = 2 then 256 else (start + 256) / 16 * 16 - start

/-- A strip to scratchpads (R124, R128, R132, R360). -/
def scratchStrip (s : State) (k : EngineId) (g : Segment) (r : SegRun) (j : Nat) (x : EngCmd) (l side : Runs) (used : List UsedPage) : State :=
  let c := x.cmd.toNat
  let n := x.strip
  let targets := cmdTargets g c
  let sideAt : Int := x.dst - 8
  let fault := targets.findSome? (fun t => match (if side.isEmpty then none else runFault s g t sideAt 8) with
    | some f => some f
    | none => runFault s g t (x.dst + (x.landed : Int)) n)
  match fault with
  | some f => strikeFlight s k g r j x f
  | none =>
    let fold : Option FoldKind := foldKindOf c
    let t := elemOfCode (cmdField c 3 1)
    let stop := (x.dst + ((x.landed + n : Nat) : Int)).toNat
    let hold := if x.landed + n < cmdTotal c && stop % 16 != 0 then some (stop / 16) else none
    let one (y : Core) : Core :=
      let y := side.foldl (fun y r => y.landRun t none (sideAt.toNat + r.1) r.2.1 r.2.2 none) y
      let y := (mergeRuns l).foldl (fun y r => y.landRun t fold (x.dst.toNat + r.1) r.2.1 r.2.2 hold) y
      let y := if cmdHasBar c then y.barAdd (cmdBar c) n else y
      y.noteWake g.crit
    putFlight (countLanded (targets.foldl (fun s t => s.modCore t one) s) g n) k g j { x with landed := x.landed + n, pages := used }

/-- The granules of slot data whose scales come from poisoned bytes; w is the width of an element (R124, R341). -/
def scalePoison (w : Nat) (l : Runs) : List Nat :=
  ((l.filter (fun r => r.2.2)).map (fun r => (granulesOf (r.1 / 4 * (4 * w)) ((r.2.1.length + 3) / 4 * (4 * w))))).flatten

/-- A strip of a slot fill (R124, R261); the scales come with the last. -/
def slotStrip (s : State) (k : EngineId) (g : Segment) (r : SegRun) (j : Nat) (x : EngCmd) (l side : Runs) (used : List UsedPage) : State :=
  let c := x.cmd.toNat
  let p := slotOf x.dst
  let n := x.strip
  let last := decide (x.landed + n = cmdTotal c)
  let (u, x) := x.tryOpen (s.core g.core).mat
  let lost : EngFault := (6, 0, BitVec.ofInt 64 x.dst)
  if !u.slots[p].heldBy g.ctx then strikeFlight s k g r j x lost
  else match x.claim with
  | none => s
  | some m =>
    if m != u.slots[p].claim then strikeFlight s k g r j x lost
    else
      let scales := cmdScales c
      match lineRuns s k g used (x.src + BitVec.ofNat 64 (cmdTotal c)) (if last then 4 * scales else 0) with
      | (s, .error e) => strikeFlight s k g r j x (engFaultOf e)
      | (s, .ok (sc, used)) =>
        let bytes (l : Runs) : List Byte := (l.map (fun r => r.2.1)).flatten
        let s := s.modCore g.core (fun y => { y with mat := u.modSlot p (fun sl =>
          let sl := (mergeRuns l).foldl (fun sl r => sl.putBytes r.1 r.2.1 r.2.2) sl
          let sl := if side.isEmpty then sl
            else { sl with sidecar := if side.any (fun r => r.2.2) then BitVec.ofNat 64 (tagBytes ⟨infBound, 0, 9⟩) else BitVec.ofNat 64 (leNat (bytes side)) }
          if last && scales != 0 then
            { sl.setScales (words32 (bytes sc)) with
              scaled := true, poison := (scalePoison (elemOfCode (cmdField c 3 1)).bits sc).foldl NatSet.add sl.poison }
          else sl) })
        putFlight (countLanded s g n) k g j { x with landed := x.landed + n, pages := used }

/-- A strip through a ring barrier, ending on a granule of the ring or with the command (R132, R72). -/
def engRingStrip (s : State) (k : EngineId) (g : Segment) (r : SegRun) (j : Nat) (x : EngCmd) : State :=
  let c := x.cmd.toNat
  let bar := cmdBar c
  let (s, x) := match x.ringAt with
    | some _ => (s, x)
    | none => let x := { x with ringAt := some s.nextId }; (putFlight { s with nextId := s.nextId + 1 } k g j x, x)
  let b := (s.core g.core).bar bar
  if !ringFirst s g.core bar (x.ringAt.getD 0) then s
  else if !b.ringOk || !cmdSuitsRing c x.dst then strikeFlight s k g r j x (8, 0, BitVec.ofNat 64 bar)
  else
    let left := cmdTotal c - x.landed
    let room := min 256 (b.released + b.window - b.arrived)
    let n := if left ≤ room then left else (b.arrived + room) / 16 * 16 - b.arrived
    if n = 0 then s
    else match boxRuns s k g x x.pages x.landed n with
      | (s, .error e) => strikeFlight s k g r j x (engFaultOf e)
      | (s, .ok (l, used)) =>
        let s := s.modCore g.core (fun y =>
          (((mergeRuns l).foldl (fun y r => y.ringWrite b (b.arrived + (r.1 - x.landed)) r.2.1 r.2.2) y).barAdd bar n).noteWake g.crit)
        putFlight (countLanded s g n) k g j { x with landed := x.landed + n, pages := used }

/-- ENGINE_STRIP_LANDS: the next strip, of at most 256 bytes, of the j-th command in flight (R124, R132); a barrier that has become a
ring is named by commands that suit it (reason 8), and a command whose translations a beacon found skewed faults (R63). -/
def execEngineStripLands (k : EngineId) (j : Nat) (s : State) : Out :=
  let e := s.engines[k]
  match e.running, e.chain with
  | some r, g :: _ =>
    match r.flight[j]? with
    | none => .next s
    | some x =>
      let c := x.cmd.toNat
      let rings := cmdHasBar c && (cmdTargets g c).any (fun t => ((s.core t).bar (cmdBar c)).size != 0)
      match x.skew with
      | some d => .next ((strikeFlight s k g r j x (0, 0, cmdAddrOf c x.src x.landed)).modRun k (fun r => { r with skew := some d }))
      | none =>
        if x.ringAt.isSome || (rings && cmdSuitsRing c x.dst) then .next (engRingStrip s k g r j x)
        else if rings then .next (strikeFlight s k g r j x (8, 0, BitVec.ofNat 64 (cmdBar c)))
        else
          match lineRuns s k g x.pages (x.src - 8) (if x.landed = 0 && cmdBounded c then 8 else 0) with
          | (s, .error f) => .next (strikeFlight s k g r j x (engFaultOf f))
          | (s, .ok (side, used)) =>
            match boxRuns s k g x used x.landed x.strip with
            | (s, .error f) => .next (strikeFlight s k g r j x (engFaultOf f))
            | (s, .ok (l, used)) =>
              .next (if cmdKind c = 2 then slotStrip s k g r j x l side used else scratchStrip s k g r j x l side used)
  | _, _ => .next s

/-! ## The other commands (R125) -/

/-- Fields of a SIGNAL or WAIT that must be 0, and its counter's alignment. -/
def syncBad (c reserved : Nat) : Bool :=
  Nat.land (cmdFlags c) reserved != 0 || decide (bitsOf (cmdFlags c) 2 3 > 5) || cmdField c 2 6 != 0 || cmdField c 24 40 != 0
    || cmdField c 8 8 % 8 != 0

/-- SIGNAL: an atomic add once every earlier command has landed (R125, R126). -/
def execCmdSignal (k : EngineId) (s : State) : Out :=
  withCommand k s (fun s g r c =>
    if cmdOp c != 3 then s
    else if syncBad c 0xE1 then engFailHere s k r (badCommand r)
    else if !r.flight.isEmpty then s
    else
      let va : Word := BitVec.ofNat 64 (cmdField c 8 8)
      match xferAccess s (.engine k) g.req .atomic true [] va with
      | (s, .error (.absent p)) => awaitPage s g.part p (fun s => engFailHere s k r (2, 7, va))
      | (s, .error (.fault a b)) => engFailHere s k r (a, b, va)
      | (s, .ok (t, _)) => ((addAt s t (cmdField c 16 8)).noteCounterWake g.crit).modRun k SegRun.nextCmd)

/-- The counter of a WAIT, read as unsigned, has reached its value: the chain goes on, or is held (R125). -/
def tryWait (k : EngineId) (s : State) (g : Segment) (r : SegRun) (c : Nat) : State :=
  let va : Word := BitVec.ofNat 64 (cmdField c 8 8)
  match xferAccess s (.engine k) g.req .load true [] va with
  | (s, .error (.absent p)) => awaitPage s g.part p (fun s => engFailHere (s.modRun k (fun r => { r with waiting := false })) k r (2, 7, va))
  | (s, .error (.fault a b)) => engFailHere (s.modRun k (fun r => { r with waiting := false })) k r (a, b, va)
  | (s, .ok (t, _)) =>
    if cmdField c 16 8 ≤ leNat (tgtRead s t 8).1 then s.modRun k (fun r => { r.nextCmd with waiting := false })
    else s.modRun k (fun r => { r with waiting := true })

/-- WAIT (R125, R126). -/
def execCmdWait (k : EngineId) (s : State) : Out :=
  withCommand k s (fun s g r c =>
    if cmdOp c != 4 then s
    else if syncBad c 0xE2 then engFailHere s k r (badCommand r)
    else if !r.flight.isEmpty then s
    else tryWait k s g r c)

/-- ENGINE_WAIT_SATISFIED: a held chain looks at its counter again (R125). -/
def execEngineWaitSatisfied (k : EngineId) (s : State) : Out :=
  let e := s.engines[k]
  match e.running, e.chain with
  | some r, g :: _ =>
    if !r.waiting || r.fault.isSome then .next s
    else match engRead s k g [] 2 r.cmdAddr 64 with
      | (s, .error x) => .next (engFailHere (s.modRun k (fun r => { r with waiting := false })) k r (engFaultOf x))
      | (s, .ok (bs, _, _)) => .next (tryWait k s g r (leNat bs))
  | _, _ => .next s

/-- REPEAT (R125). -/
def execCmdRepeat (k : EngineId) (s : State) : Out :=
  withCommand k s (fun s _ r c =>
    if cmdOp c != 5 then s
    else
      let len := cmdField c 1 1
      let n := cmdField c 4 4
      if r.rep.isSome || len = 0 || len > 16 || n = 0 || cmdField c 2 2 != 0 || cmdField c 20 44 != 0 then engFailHere s k r (badCommand r)
      else s.modRun k (fun r => { r with
        cmdAddr := r.cmdAddr + 64
        rep := some ⟨r.cmdAddr + 64, len, 0, 0, n, BitVec.ofNat 64 (cmdField c 8 8), BitVec.ofNat 32 (cmdField c 16 4)⟩ }))

/-- LINK (R125). -/
def execCmdLink (k : EngineId) (s : State) : Out :=
  withCommand k s (fun s _ r c =>
    if cmdOp c != 6 then s
    else if r.rep.isSome || cmdField c 1 7 != 0 || cmdField c 16 48 != 0 || cmdField c 8 8 % 64 != 0 then engFailHere s k r (badCommand r)
    else s.modRun k (fun r => { r with cmdAddr := BitVec.ofNat 64 (cmdField c 8 8) }))

/-- STOP (R125). -/
def execCmdStop (k : EngineId) (s : State) : Out :=
  withCommand k s (fun s _ r c =>
    if cmdOp c != 7 then s
    else if r.rep.isSome || cmdField c 1 63 != 0 then engFailHere s k r (badCommand r)
    else s.modRun k (fun r => { r with stopped := true }))

/-! ## The end of a segment (R126, R127) -/

/-- Stores a segment's counter; none, when there is none. -/
def storeCounter (s : State) (k : EngineId) (g : Segment) (ctr v : Word) : State × Option XferFail :=
  if ctr = 0 then (s, none)
  else match xferAccess s (.engine k) g.req .store true [] ctr with
    | (s, .error f) => (s, some f)
    | (s, .ok (t, _)) => ((tgtWrite s t (leBytes 8 v.toNat)).noteCounterWake g.crit, none)

/-- SEGMENT_END: STOP has been reached and everything has landed (R126). -/
def execSegmentEnd (k : EngineId) (s : State) : Out :=
  let e := s.engines[k]
  match e.running, e.chain with
  | some r, g :: _ =>
    if !r.stopped || !r.flight.isEmpty || r.fault.isSome then .next s
    else match storeCounter s k g r.counter (e.done + 1) with
      | (s, some (.absent p)) => .next (awaitPage s g.part p (fun s =>
          engFailHere (s.modRun k (fun r => { r with stopped := false })) k r (2, 7, r.counter)))
      | (s, some (.fault a b)) => .next (engFailHere (s.modRun k (fun r => { r with stopped := false })) k r (a, b, r.counter))
      | (s, none) => .next (s.modEngine k (fun e => { e with done := e.done + 1, running := none, chain := e.chain.drop 1 }))
  | _, _ => .next s

/-- The 64 bytes of a fault record (R127). -/
def faultRecord (g : Segment) (f : Word × Nat × Nat × Word × Nat) (time : Nat) (n : Word) : List Byte :=
  leBytes 8 g.addr.toNat ++ leBytes 8 f.1.toNat ++ leBytes 1 f.2.1 ++ leBytes 1 f.2.2.1 ++ leBytes 6 0 ++ leBytes 8 f.2.2.2.1.toNat
    ++ leBytes 8 f.2.2.2.2 ++ leBytes 8 time ++ leBytes 8 n.toNat ++ leBytes 8 0

/-- The engine enters the faulted state, and the issuing context has a copy fault to report (R127), or a lease-skew fault (R63). -/
def takeCommandFault (s : State) (k : EngineId) (g : Segment) (r : SegRun) (f : Word × Nat × Nat × Word × Nat) : State :=
  (s.modEngine k (fun e => { e with done := e.done + 1, faulted := true, running := none })).modCtx g.part g.ctx (fun t =>
    match r.skew with
    | some d => { t with skewFault := some d }
    | none => { t with copyFaults := t.copyFaults ++ [⟨if r.frec = 0 then f.1 else r.frec, f.2.1, none⟩] })

/-- COMMAND_FAULT: once the commands before it have landed, the faulting command stops the chain (R127). A command with an
unknown operation faults here (R125). -/
def execCommandFault (k : EngineId) (s : State) : Out :=
  let e := s.engines[k]
  match e.running, e.chain with
  | some r, g :: _ =>
    match r.fault with
    | none => withCommand k s (fun s _ r c => if cmdOp c = 0 || cmdOp c > 7 then engFailHere s k r (badCommand r) else s)
    | some f =>
      if !r.flight.isEmpty then .next s
      else
        let n := e.done + 1
        -- the reason that a record holds for a lease-skew fault is open (R63, R127)
        let (x, s) := s.draw
        let f := if r.skew.isSome then (f.1, (Config.freeValue x).toNat % 256, f.2.2) else f
        let bs := faultRecord g f (unitTime s (.engine k)) n
        -- a record never goes to a host page (R46)
        let (s, rec) : State × Option XferFail := if r.frec = 0 then (s, none)
          else match xferAccess s (.engine k) g.req .store false [] r.frec with
            | (s, .ok (t, _)) => (tgtWrite s t bs, none)
            | (s, .error f) => (s, some f)
        let (s, ctr) := storeCounter s k g r.counter (0x8000000000000000#64 + n)
        -- an absent host page is asked for and waited for (R332); a record or counter that faults is left alone
        match rec, ctr with
        | some (.absent p), _ => .next (awaitPage s g.part p (fun s => takeCommandFault s k g r f))
        | _, some (.absent p) => .next (awaitPage s g.part p (fun s => takeCommandFault s k g r f))
        | _, _ => .next (takeCommandFault s k g r f)
  | _, _ => .next s

end Sys2Proof.Machine
end

