-- ==== Sys2Proof/Machine/Sync.lean ====
section
/-!
DEFINITION. fence (spec 08 R160), the SYNC group and hierarchy barriers (08 R161 to R165), and the events that end blocked waits.
-/

namespace Sys2Proof.Machine

/-! ## fence -/

/-- Queries and page operations of thread t of core k that have not completed (R160, R174). -/
def queriesBusy (s : State) (k : CoreId) (t : Tid) : Bool :=
  let th := s.thr k t
  let p := th.partOf (s.corePart k)
  s.queries.any (fun q => q.part == p && q.ctx == th.ctxOf) || s.pageOps.any (fun o => o.part == p && o.ctx == th.ctxOf)
/-- Copies of thread t of core k that have not landed (R160). -/
def copiesBusyOf (s : State) (k : CoreId) (t : Tid) : Bool := (s.core k).copies.any (fun c => c.tid == t)

/-- fence (R160): accesses are performed one step at a time in order (log 1), so only the copy and query kinds wait. -/
def execFence (kind : FenceKind) (_ : Scope) (s : State) : Out :=
  match kind with
  | .copy => if copiesBusyOf s s.curCore s.curTid then .next (s.block (.fence false)) else .next s.advance
  | .query => if queriesBusy s s.curCore s.curTid then .next (s.block (.fence true)) else .next s.advance
  | _ => .next s.advance

/-! ## Hierarchy barriers (R162) -/

/-- Changes a launch of a partition. -/
def State.modLaunch (s : State) (f : FuncId) (n : BitVec 16) (g : Launch → Launch) : State :=
  { s with disp := { s.disp with launches := s.disp.launches.map (fun l => if l.part == f && l.num == n then g l else l) } }

/-- The indices that name an instance of a level: those of the level and of every level above it. -/
def TaskRec.instOf (t : TaskRec) (level : Nat) : List Word32 := t.idx.toList.drop level
/-- The barrier of an instance; phase 0 with no arrivals before the first. -/
def Launch.bar (l : Launch) (level : Fin 8) (inst : List Word32) : BarInst :=
  match l.bars.find? (fun b => b.level == level && b.inst == inst) with
  | some b => b
  | none => ⟨level, inst, 0, [], false⟩
/-- Replaces a barrier. -/
def Launch.putBar (l : Launch) (b : BarInst) : Launch :=
  { l with bars := l.bars.filter (fun x => !(x.level == b.level && x.inst == b.inst)) ++ [b] }

/-- A task of a node that has not started will belong to an instance (R299): indices below the node's level run to the extent of
the level above them, the top level's is the ordinal, every other is 0. -/
def NodeRec.joins (levels : List Level) (n : NodeRec) (b : BarInst) : Bool :=
  (n.stat == .waiting || n.stat == .ready) && b.inst.zipIdx.all (fun x =>
    let j := b.level.val + x.2
    if j + 1 = levels.length then x.1.toNat == n.ordinal
    else if j < n.lv then decide (x.1.toNat < max 1 (levels.getD (j + 1) ⟨0, .core, 0⟩).extent)
    else x.1 == 0)
/-- Every participant has arrived at the current phase, or has executed tdone; the tasks of nodes that have not started are
participants too (R162; log 27). -/
def Launch.allArrived (l : Launch) (b : BarInst) : Bool :=
  let ts := l.tasks.zipIdx.filter (fun x => x.1.instOf b.level.val == b.inst)
  !ts.isEmpty && ts.all (fun x => (x.1.ended && !x.1.halted) || b.arrived.contains x.2) && !l.nodes.any (fun n => n.joins l.levels b)
/-- A barrier whose participants have all arrived completes its phase. -/
def Launch.complete (l : Launch) (b : BarInst) : BarInst :=
  if l.allArrived b then { b with phase := b.phase + 1, arrived := [] } else b

/-- The place in the launch's list of the running or suspended task with a context number. -/
def Launch.taskAt (l : Launch) (ctx : BitVec 16) : Option Nat := l.tasks.findIdx? (fun t => t.ctx == ctx && !t.ended)
/-- The barrier of a level that a task of a launch belongs to. -/
def Launch.barOf (l : Launch) (ctx : BitVec 16) (level : Fin 8) : Option BarInst :=
  (((l.taskAt ctx).bind (fun i => l.tasks[i]?))).map (fun t => l.bar level (t.instOf level.val))
/-- The task with a context number has arrived at a barrier's current phase. -/
def Launch.hasArrived (l : Launch) (b : BarInst) (ctx : BitVec 16) : Bool :=
  match l.taskAt ctx with | some i => b.arrived.contains i | none => false

/-- A blocked thread waits for a phase that its instance has completed. -/
def barrierMet (s : State) (t : Thread) : Option Bool :=
  match t.wait, t.task with
  | .barrier lv p, some x =>
    match s.launch x.part x.launch with
    | some l => match l.barOf x.ctx lv with
      | some b => if p < b.phase then some b.crit else none
      | none => none
    | none => none
  | _, _ => none
/-- Threads whose barrier wait has just been met note the last arriver's critical bit (R355). -/
def State.noteBarrierWake (s : State) : State :=
  { s with cores := s.cores.map (fun c => { c with threads := c.threads.map (fun t =>
    if t.wakeC.isNone then (match barrierMet s t with | some b => { t with wakeC := some b } | none => t) else t) }) }

/-- The level that s[a] names: 1 to the launch's top (R162). -/
def barLevel (l : Launch) (v : Word) : Option (Fin 8) :=
  let n := v.toNat
  if h : n < 8 then if n = 0 || n ≥ l.levels.length then none else some ⟨n, h⟩ else none

/-- The launch, context, level and barrier of a barrier instruction, or the access fault of R162. -/
def withBarrier (a : SReg) (s : State) (k : State → Launch → BitVec 16 → Fin 8 → BarInst → Out) : Out :=
  let v := s.sreg a
  match s.cur.task with
  | none => raise s 0x04 v 0
  | some x =>
    match s.launch x.part x.launch with
    | none => raise s 0x04 v 0
    | some l => match barLevel l v with
      | none => raise s 0x04 v 0
      | some lv => match l.barOf x.ctx lv with
        | none => raise s 0x04 v 0
        | some b => k s l x.ctx lv b

/-- The current task arrives at the current phase, once; a last arrival completes it. -/
def arrive (s : State) (l : Launch) (ctx : BitVec 16) (b : BarInst) : State :=
  match l.taskAt ctx with
  | none => s
  | some i =>
    if b.arrived.contains i then s
    else
      let b := l.complete { b with arrived := b.arrived ++ [i], crit := s.cur.cbit }
      (s.modLaunch l.part l.num (fun l => l.putBar b)).noteBarrierWake

/-- A reissued bar's phase at a level. -/
def Thread.joined (t : Thread) (lv : Fin 8) : Option Nat := (t.arrivals.find? (fun a => a.level == lv)).map (·.phase)
/-- Forgets it. -/
def Thread.unjoin (t : Thread) (lv : Fin 8) : Thread := { t with arrivals := t.arrivals.filter (fun a => a.level != lv) }

/-- barr (R162). -/
def execBarr (d a : SReg) (s : State) : Out :=
  withBarrier a s (fun s l ctx lv b =>
    .next (((arrive s l ctx b).modCur (fun t => t.unjoin lv)).finish d (BitVec.ofNat 64 b.phase)))

/-- bar (R162): a reissued bar waits for the phase that it joined before (log 28). -/
def execBar (a : SReg) (s : State) : Out :=
  match reportAll s with
  | some s' => .next s'
  | none => withBarrier a s (fun s l ctx lv b =>
    let p := (s.cur.joined lv).getD b.phase
    let s := if (s.cur.joined lv).isNone then arrive s l ctx b else s
    let now := match (match s.launch l.part l.num with | some l => l.barOf ctx lv | none => none) with | some b => b.phase | none => b.phase
    if p < now then .next ((s.takeC.modCur (fun t => t.unjoin lv))).advance
    else .next ((s.modCur (fun t => { t.unjoin lv with arrivals := (t.unjoin lv).arrivals ++ [⟨lv, p⟩] })).block (.barrier lv p)))

/-- barw (R162). -/
def execBarw (a b : SReg) (s : State) : Out :=
  match reportAll s with
  | some s' => .next s'
  | none => withBarrier a s (fun s l ctx lv bar =>
    let p := (s.sreg b).toNat
    if p < bar.phase then .next (s.takeC.modCur (fun t => t.unjoin lv)).advance
    else if p > bar.phase || !l.hasArrived bar ctx then raise s 0x04 (s.sreg b) 0
    else .next (s.block (.barrier lv p)))

/-- A barrier phase is complete (R162): its instance advances when every participant has arrived or ended, and the threads that
wait for it go on. -/
def execBarrierPhaseComplete (launch : BitVec 16) (level : Fin 8) (inst : List (BitVec 32)) (s : State) : Out :=
  match s.disp.launches.find? (fun l => l.num == launch) with
  | none => .next s
  | some l =>
    let s := (s.modLaunch l.part l.num (fun l => l.putBar (l.complete (l.bar level inst)))).noteBarrierWake
    .next { s with cores := s.cores.map (fun c => { c with threads := c.threads.map (fun t =>
      let here := match t.task, t.wait with
        | some x, .barrier lv _ => x.part == l.part && x.launch == launch && lv == level && (barrierMet s t).isSome
        | _, _ => false
      if here then { t with wait := .none } else t) }) }

/-! ## Counters and time (R163 to R165) -/

/-- A counter wait is satisfied (R163), a window register's included (R324). -/
def counterDue (s : State) (w : Wait) : Bool :=
  match w with
  | .counter (.window f o) target => decide (target.toNat ≤ (windowRead s f o).toNat)
  | w => counterMet s w
/-- waitge (R163, R77): its counter is read as an 8-byte load reads it (R81), so a window register may be one (R324). -/
def execWaitge (a b : SReg) (s : State) : Out :=
  match reportAll s with
  | some s' => .next s'
  | none =>
    let addr := s.sreg a
    withGeneric s .load addr 8 true (fun s t =>
      let go (s : State) (x : Nat) : Out :=
        if (s.sreg b).toNat ≤ x then .next s.takeC.advance else .next (s.block (.counter t (s.sreg b)))
      match t with
      | .window f o => windowAccess s (.waitge a b) addr 8 f o (some (windowLevels f o).1) (fun s => go s (windowRead s f o).toNat)
      | t =>
        let (s, x) := readTgt s t 8
        go s x)

/-- sigadd (R164): the checks of amoadd.d. -/
def execSigadd (a b : SReg) (s : State) : Out :=
  let addr := s.sreg a
  withGeneric s .atomic addr 8 AtomOp.add.onHost (fun s t =>
    if atomicMayName t then .next (atomAt s t .add 8 (s.sreg b).toNat 0).1.advance else raise s 0x04 addr 0)

/-- waitt (R165). -/
def execWaitt (a : SReg) (s : State) : Out :=
  if (s.sreg a).toNat ≤ s.coreTime s.curCore then .next s.advance else .next (s.block (.time (s.sreg a)))

/-! ## Ends of waits -/

/-- A thread's wait is over. -/
def endWait (s : State) (k : CoreId) (t : Tid) : Out := .next (s.modThr k t (fun x => { x with wait := .none }))

/-- The granules that a wait or take access needs are F (R75). -/
def execFullEmptyWaitReady (k : CoreId) (t : Tid) (s : State) : Out :=
  match (s.thr k t).wait with
  | .granule gs => if (s.core k).waitMet (.granule gs) then endWait s k t else .next s
  | _ => .next s
/-- What a copy or query fence waits for has landed or completed (R160). -/
def execFenceComplete (k : CoreId) (t : Tid) (s : State) : Out :=
  match (s.thr k t).wait with
  | .fence q => if (if q then queriesBusy s k t else copiesBusyOf s k t) then .next s else endWait s k t
  | _ => .next s
/-- A waitge's counter has reached its target (R163). -/
def execWaitgeWake (k : CoreId) (t : Tid) (s : State) : Out :=
  match (s.thr k t).wait with
  | .counter at_ target => if counterDue s (.counter at_ target) then endWait s k t else .next s
  | _ => .next s
/-- A waitt's time has come (R165). -/
def execWaittComplete (k : CoreId) (t : Tid) (s : State) : Out :=
  match (s.thr k t).wait with
  | .time target => if target.toNat ≤ s.coreTime k then endWait s k t else .next s
  | _ => .next s

end Sys2Proof.Machine
end

