-- ==== Sys2Proof/Machine/Sched.lean ====
section
/-!
DEFINITION. The node dispatcher (spec 16 R298 to R302, R304; 10 R189; 17 R314): node records, readiness, placements in physical
groups, starting tasks, and the return of suspended ones.
-/

namespace Sys2Proof.Machine

/-! ## Generic memory as the device reads and writes it -/

/-- A unit for the device's own accesses on behalf of a partition (log 33). -/
def schedUnit (s : State) (f : FuncId) : XUnit := .vector ((coresOf (s.part f)).headD 0)
/-- Who the device acts for in a launch's records. -/
def Launch.req (l : Launch) : XReq := ⟨l.part, l.asn, .kernel, 0⟩

/-- Reads n generic bytes, piece by piece: bytes, or the failure with its address. -/
def devRead (s : State) (u : XUnit) (rq : XReq) : Nat → Word → Nat → State × Except (XFail × Word) (List Byte)
  | 0, _, _ => (s, .ok [])
  | fuel + 1, va, n =>
    if n = 0 then (s, .ok [])
    else if !canonical va then (s, .error (.access, va))
    else
      let m := min n (4096 - va.toNat % 4096)
      match translate s u rq .load va true with
      | (s, .error f) => (s, .error (f, va))
      | (s, .ok (t, _)) =>
        match t with
        | .window _ _ => (s, .error (.access, va))
        | t =>
          match devRead s u rq fuel (va + BitVec.ofNat 64 m) (n - m) with
          | (s, .error e) => (s, .error e)
          | (s, .ok r) => (s, .ok ((tgtRead s t m).1 ++ r))
/-- The same with enough fuel. -/
def devBytes (s : State) (u : XUnit) (rq : XReq) (va : Word) (n : Nat) : State × Except (XFail × Word) (List Byte) :=
  devRead s u rq (n / 4096 + 2) va n
/-- Adds a write of the device to those that an absent host page holds up, and asks for the page (R332). -/
def State.owe (s : State) (a : OwedAdd) (page : Nat) : State :=
  let s := requestPage s a.part page
  { s with disp := { s.disp with owed := s.disp.owed ++ [a] } }
/-- Makes one owed write: it waits on while its page is absent, and is dropped when the page is refused or no longer translates
(R305, R332; log 45). -/
def payOne (s : State) (a : OwedAdd) : State :=
  let rq : XReq := ⟨a.part, a.asn, a.priv, 0⟩
  let u := schedUnit s a.part
  let later (s : State) (p : Nat) : State := if (s.part a.part).refusing = some p then s else s.owe a p
  match a.put with
  | none =>
    match counterAdd s u rq a.addr 1 with
    | (s, none) => s.noteCounterWake a.crit
    | (s, some (.absent p)) => later s p
    | (s, some _) => s
  | some bs =>
    match translate s u rq .store a.addr true with
    | (s, .ok (t, _)) => tgtWrite s t bs
    | (s, .error (.absent p)) => later s p
    | (s, .error _) => s
/-- Makes the owed writes of a function, oldest first. -/
def payOwed (s : State) (f : FuncId) : State :=
  let l := s.disp.owed
  (l.filter (fun a => a.part == f)).foldl payOne { s with disp := { s.disp with owed := l.filter (fun a => a.part != f) } }
/-- Writes generic bytes within a granule; a write whose translation fails is dropped (R305), one on an absent host page is owed. -/
def devStore (s : State) (u : XUnit) (rq : XReq) (va : Word) (bs : List Byte) : State :=
  if !canonical va then s
  else match translate s u rq .store va true with
    | (s, .ok (t, _)) => tgtWrite s t bs
    | (s, .error (.absent p)) => s.owe ⟨rq.part, rq.asn, rq.priv, va, false, some bs⟩ p
    | (s, .error _) => s

/-! ## Node records (R298) -/

/-- A node record as read. -/
structure NodeRow where
  pc : Word
  pending : Nat
  cls : Nat
  req : Nat
  lv : Nat
  nop : Nat
  ordinal : Nat
  nsucc : Nat
  zero : Nat
  succ : Word
  prologue : Word
  ops : Word
  arg : Word
  slots : Nat
deriving DecidableEq, Repr

/-- A record from its 64 bytes. -/
def NodeRow.ofBytes (b : List Byte) : NodeRow where
  pc := BitVec.ofNat 64 (fieldAt b 0 8)
  pending := fieldAt b 8 4
  cls := fieldAt b 12 1
  req := fieldAt b 13 1
  lv := fieldAt b 14 1
  nop := fieldAt b 15 1
  ordinal := fieldAt b 16 4
  nsucc := fieldAt b 20 2
  zero := fieldAt b 22 2
  succ := BitVec.ofNat 64 (fieldAt b 24 8)
  prologue := BitVec.ofNat 64 (fieldAt b 32 8)
  ops := BitVec.ofNat 64 (fieldAt b 40 8)
  arg := BitVec.ofNat 64 (fieldAt b 48 8)
  slots := fieldAt b 60 4
/-- The record breaks R298. -/
def NodeRow.bad (r : NodeRow) (nlev : Nat) : Bool :=
  decide (r.cls ≥ 64) || decide (r.req ≥ 4) || decide (r.lv ≥ nlev) || decide (r.nop > 8) || r.zero != 0 || decide (r.slots ≥ 65536)
/-- Priority, 7 highest. -/
def NodeRow.prio (r : NodeRow) : Nat := bitsOf r.cls 0 3
/-- µJ per interval of an energy class (R302). -/
def classCost (c : Nat) : Nat :=
  match c with | 0 => 4 | 1 => 8 | 2 => 16 | 3 => 24 | 4 => 32 | 5 => 40 | 6 => 52 | _ => 64
/-- Cost of one task of a node with a class byte. -/
def clsCost (cls : Nat) : Nat := classCost (bitsOf cls 3 3)

/-- Reads a node record of a launch; an absent host page is asked for (R332). -/
def readNode (s : State) (l : Launch) (addr : Word) : State × Except (XFail × Word) NodeRow :=
  match devBytes s (schedUnit s l.part) l.req addr 64 with
  | (s, .error (.absent p, va)) => (requestPage s l.part p, .error (.absent p, va))
  | (s, .error e) => (s, .error e)
  | (s, .ok b) => (s, .ok (NodeRow.ofBytes b))

/-- The code of a node state (R298). -/
def NodeStat.code : NodeStat → Nat
  | .waiting => 0 | .ready => 1 | .dispatched => 2 | .done => 3 | .halted => 4 | .faulted => 5
/-- A launch by number. -/
def State.launchNum (s : State) (n : BitVec 16) : Option Launch := s.disp.launches.find? (fun l => l.num == n)
/-- Changes node i of a launch. -/
def modNode (s : State) (l : Launch) (i : Nat) (g : NodeRec → NodeRec) : State :=
  s.modLaunch l.part l.num (fun l => match l.nodes[i]? with | some n => { l with nodes := l.nodes.set i (g n) } | none => l)
/-- Sets a node's state, in the device and in its record (R298, R305). -/
def setNode (s : State) (l : Launch) (i : Nat) (st : NodeStat) : State :=
  let s := modNode s l i (fun n => { n with stat := st })
  match l.nodes[i]? with
  | some n => devStore s (schedUnit s l.part) l.req (n.addr + 56) (leBytes 4 st.code)
  | none => s

/-- A waiting node becomes ready now: its ready time is stamped and it joins the ready nodes (R300). -/
def makeReady (s : State) (l : Launch) (i : Nat) (crit : Bool) : State :=
  match (s.launch l.part l.num).bind (fun l => l.nodes[i]?) with
  | none => s
  | some n =>
    if n.stat != .waiting then s
    else
      let (s, cls) := match readNode s l n.addr with | (s, .ok r) => (s, r.cls) | (s, .error _) => (s, 0)
      let s := modNode s l i (fun n => { n with readyAt := s.time.toNat, crit := crit, cls := BitVec.ofNat 8 cls })
      let s := setNode s l i .ready
      { s with disp := { s.disp with ready := s.disp.ready ++ [(l.num, i)] } }

/-! ## Placements (R189, R298, R300) -/

/-- The physical group of a domain that a core belongs to (R11, R189). -/
def groupOf (d : Nat) (k : CoreId) : Nat :=
  match d with | 0 => k.val | 1 => k.val | 2 => k.val / 2 | 3 => k.val / 4 | 4 => k.val / 8 | 5 => k.val / 48 | _ => 0
/-- Cores by groups of a domain, in the order in which they appear; a core is two groups of domain 0, one a thread. -/
def groupsIn (d : Nat) (cores : List CoreId) : List (List CoreId) :=
  if d = 0 then (cores.map (fun k => [[k], [k]])).flatten
  else ((cores.map (groupOf d)).eraseDups).map (fun g => cores.filter (fun k => groupOf d k == g))

/-- Threads for an instance of a level, with each task's indices at the levels below it, level 0 first (R189, R299). -/
abbrev Placement := List (CoreId × Tid × List Nat)

/-- Fills one instance of a level from cores: level 0 takes a thread; a level above takes its extent of instances of the level
below, each in a group of its own; the top level takes one. -/
def fillInst (levels : List Level) (ok : CoreId → Tid → Bool) : Nat → List CoreId → List (CoreId × Tid) → Option Placement
  | 0, cores, used =>
    ((cores.map (fun k => [(k, (0 : Tid)), (k, (1 : Tid))])).flatten.find? (fun x => ok x.1 x.2 && !used.contains x)).map
      (fun x => [(x.1, x.2, [])])
  | lv + 1, cores, used =>
    let top : Level := ⟨0, .core, 0⟩
    let e := max 1 (levels.getD (lv + 1) top).extent
    let d := (levels.getD lv top).domain
    let (n, out) := (groupsIn d cores).foldl (fun (x : Nat × Placement) g =>
      if x.1 = e then x
      else match fillInst levels ok lv g (used ++ x.2.map (fun y => (y.1, y.2.1))) with
        | none => x
        | some r => (x.1 + 1, x.2 ++ r.map (fun y => (y.1, y.2.1, y.2.2 ++ [x.1])))) (0, [])
    if n = e then some out else none
/-- Fills an instance of a node's level within one group of the level's domain. -/
def fillNode (levels : List Level) (ok : CoreId → Tid → Bool) (lv : Nat) (pref : List CoreId) : Option Placement :=
  (groupsIn (levels.getD lv ⟨0, .core, 0⟩).domain pref).findSome? (fun g => fillInst levels ok lv g [])

/-- A thread holds no task, on a core whose partition is not halted. -/
def threadFree (s : State) (k : CoreId) (t : Tid) : Bool := (s.thr k t).task.isNone
/-- Core c holds the launch's allocations. -/
def Core.hosts (c : Core) (l : Launch) : Bool := c.residents.any (fun r => r.part == l.part && r.launch == l.num)
/-- Thread t of core k may take a task of a node (R298, R300). -/
def threadFits (s : State) (l : Launch) (r : NodeRow) (k : CoreId) (t : Tid) : Bool :=
  let c := s.core k
  threadFree s k t && (!r.req.testBit 0 || (threadFree s k 0 && threadFree s k 1))
    && (List.finRange 16).all (fun p => !(r.slots.testBit p.val && c.mat.slots[p].claimed))
    && (c.hosts l || c.hasRoom l.allocs)

/-- The channel of operand 0's first row, when it translates to working memory (R301). -/
def homeOf (s : State) (l : Launch) (r : NodeRow) : State × Option CoreId :=
  if r.nop = 0 then (s, none)
  else
    let u := schedUnit s l.part
    match devBytes s u l.req r.ops 8 with
    | (s, .error _) => (s, none)
    | (s, .ok b) =>
      let va : Word := BitVec.ofNat 64 (leNat b)
      if !canonical va then (s, none)
      else match translate s u l.req .load va true with
        | (s, .ok (.wm pa, _)) => if h : pa / 0x100000000 < 384 then (s, some ⟨pa / 0x100000000, h⟩) else (s, none)
        | (s, _) => (s, none)

/-- A partition's cores in physical order. -/
def coresSorted (p : Part) : List CoreId := (List.finRange 384).filter (fun k => (coresOf p).contains k)

/-- A placement of a node whose task 0 lies on die d, taking in a given thread when one is given (R301). -/
def placeOn (s : State) (l : Launch) (r : NodeRow) (home : Option CoreId) (must : Option (CoreId × Tid)) (d : DieId) : Option Placement :=
  let cores := coresSorted (s.part l.part)
  let first (k : CoreId) : Bool := (match must with | some x => k == x.1 | none => false)
  let isHome (k : CoreId) : Bool := home == some k && k.die == d
  let rest := cores.filter (fun k => !first k)
  let pref := cores.filter first ++ rest.filter isHome ++ rest.filter (fun k => !isHome k && k.die == d) ++ rest.filter (fun k => k.die != d)
  match fillNode l.levels (threadFits s l r) r.lv pref with
  | none => none
  | some pl =>
    let k0 := (pl.map (·.1)).headD 0
    let homeOk := !r.req.testBit 1 || (match home with | some h => k0 == h | none => true)
    let mustOk := match must with | some x => pl.any (fun y => (y.1, y.2.1) == x) | none => true
    if k0.die = d && homeOk && mustOk then some pl else none

/-! ## Starting tasks (R72, R299, R304) -/

/-- Changes what is left of a die's budget (R302). -/
def addLeft (s : State) (d : DieId) (n : Int) : State :=
  { s with dies := s.dies.set d { s.dies[d] with left := s.dies[d].left + n } }

/-- The records of an image of initial contents: address and bytes (R296). -/
def sdataRecords : Nat → List Byte → List (Nat × Nat × List Byte)
  | 0, _ => []
  | fuel + 1, b =>
    if b.length < 8 then []
    else
      let n := fieldAt b 4 4
      (fieldAt b 0 4, n, (b.drop 8).take n) :: sdataRecords fuel (b.drop ((8 + n + 15) / 16 * 16))

/-- Establishes a launch's allocations on core k: zero bytes, E granules, then the initial contents, whose granules are F (R72). -/
def establish (s : State) (l : Launch) (k : CoreId) : State :=
  if (s.core k).hosts l then s
  else
    let (s, img) := if l.sdata = 0 || l.sdsize = 0 then (s, []) else
      match devBytes s (schedUnit s l.part) l.req l.sdata l.sdsize with | (s, .ok b) => (s, b) | (s, .error _) => (s, [])
    s.modCore k (fun c =>
      let c := { c with residents := c.residents ++ [⟨l.part, l.num, l.allocs⟩] }
      let c := (l.allocs.map Alloc.runs).flatten.foldl (fun c (r : Nat × Nat) =>
        { c with spad := Mem.clear c.spad r.1 r.2, full := NatSet.clear c.full (r.1 / 16) (r.2 / 16)
                 spadPoison := NatSet.clear c.spadPoison (r.1 / 16) (r.2 / 16) }) c
      (sdataRecords (img.length / 16 + 1) img).foldl (fun c r => if r.2.2.isEmpty then c else c.engineWrite r.1 r.2.2) c)

/-- A context number that no running or suspended task of the partition has (R314). -/
def freeCtx (s : State) (f : FuncId) : BitVec 16 :=
  let taken := ((s.disp.launches.filter (fun l => l.part == f)).map (fun l => (l.tasks.filter (fun t => !t.ended)).map (·.ctx))).flatten
  match (List.range 65535).find? (fun i => !taken.contains (BitVec.ofNat 16 (i + 1)) && !s.holdsCtx f (BitVec.ofNat 16 (i + 1))) with
  | some i => BitVec.ofNat 16 (i + 1)
  | none => 0

/-- The prologue of task n: appended as senq would, and its status (R304). -/
def appendPrologue (s : State) (l : Launch) (r : NodeRow) (crit : Bool) (k : CoreId) (ctx : BitVec 16) (n : Nat) : State × Word :=
  if r.prologue = 0 then (s, 0)
  else match devBytes s (schedUnit s l.part) l.req (r.prologue + BitVec.ofNat 64 (8 * n)) 8 with
    | (s, .error _) => (s, 3)
    | (s, .ok b) =>
      let seg : Word := BitVec.ofNat 64 (leNat b)
      let e := s.engines[k]
      if seg = 0 then (s, 0)
      else if e.faulted then (s, 2)
      else if e.chain.length ≥ 64 then (s, 1)
      else
        let c := e.done + BitVec.ofNat 64 e.chain.length + 1
        let g : Segment := ⟨seg, k, ctx, l.part, l.asn, l.num, .user, crit, c⟩
        (s.modEngine k (fun e => { e with chain := e.chain ++ [g] }), c <<< 8)

/-- The level indices of a task (R299). -/
def taskLevels (l : Launch) (r : NodeRow) (idx : List Nat) : Vector Word32 8 :=
  Vector.ofFn (fun (i : Fin 8) =>
    if i.val + 1 = l.levels.length then BitVec.ofNat 32 r.ordinal
    else if i.val < idx.length then BitVec.ofNat 32 (idx.getD i.val 0) else 0)

/-- The state in which a task starts (R299, R355). -/
def Thread.begin (h : Thread) (p : Part) (l : Launch) (r : NodeRow) (node : Nat) (ctx : BitVec 16) (s5 : Word)
    (levels : Vector Word32 8) (crit : Bool) (now : Nat) : Thread :=
  let t : Thread := { h.vacated with
    pc := r.pc, task := some ⟨l.part, ctx, l.num, node, l.asn⟩, levels := levels, cbit := crit, since := now }
  ((({ t with ktrap := { t.ktrap with tvec := p.kvec }, htrap := { t.htrap with tvec := p.hvec } }.setSreg 4 r.arg).setSreg 5 s5).setSreg 6
    (BitVec.ofNat 64 node))

/-- Task n of node i starts on a thread (R304). -/
def startTask (s : State) (l : Launch) (i : Nat) (r : NodeRow) (crit : Bool) (k : CoreId) (t : Tid) (idx : List Nat) (n : Nat) : State :=
  let ctx := freeCtx s l.part
  let s := establish s l k
  let s := s.modCore k (fun c => { c with mat := (c.mat.claimMask ctx r.slots).1 })
  let lv := taskLevels l r idx
  let s := s.modLaunch l.part l.num (fun l => { l with tasks := l.tasks ++ [⟨ctx, i, lv, false, false⟩] })
  let (s, s5) := appendPrologue s l r crit k ctx n
  s.modThr k t (fun h => h.begin (s.part l.part) l r i ctx s5 lv crit s.time.toNat)

/-- A node is dispatched at a placement (R301). -/
def startNode (s : State) (l : Launch) (i : Nat) (r : NodeRow) (crit : Bool) (pl : Placement) : State :=
  let s := setNode s l i .dispatched
  let s := modNode s l i (fun n => { n with live := pl.length })
  let s := { s with disp := { s.disp with ready := s.disp.ready.filter (fun x => x != (l.num, i)) } }
  pl.zipIdx.foldl (fun s x => startTask s l i r crit x.1.1 x.1.2.1 x.1.2.2 x.2) s

/-! ## The dispatcher (R301) -/

/-- What waits for a thread: a ready node, or a suspended task in a hamper. -/
structure Cand where
  aged : Bool
  prio : Nat
  ready : Nat
  node : Nat
  launch : BitVec 16
  part : FuncId
  /-- Core and context of a suspended task. -/
  image : Option (CoreId × BitVec 16)
  cls : Nat
deriving DecidableEq, Repr

/-- R301's order. -/
def Cand.before (a b : Cand) : Bool :=
  if a.aged != b.aged then a.aged
  else if a.prio != b.prio then decide (b.prio < a.prio)
  else if a.ready != b.ready then decide (a.ready < b.ready)
  else decide (a.node ≤ b.node)
/-- Inserts a candidate in order. -/
def insertCand (c : Cand) : List Cand → List Cand
  | [] => [c]
  | d :: t => if c.before d then c :: d :: t else d :: insertCand c t

/-- A node that has been ready for 256 µs is aged (R300). -/
def agedAt (now ready : Nat) : Bool := decide (ready + 256000 ≤ now)

/-- The ready pool, of at most 4,096 nodes, and the suspended tasks, in R301's order. -/
def candidates (s : State) : List Cand :=
  let now := s.time.toNat
  let nodes := (s.disp.ready.take 4096).filterMap (fun x =>
    match s.launchNum x.1 with
    | some l => (l.nodes[x.2]?).map (fun n =>
        (⟨agedAt now n.readyAt, bitsOf n.cls.toNat 0 3, n.readyAt, x.2, x.1, l.part, none, n.cls.toNat⟩ : Cand))
    | none => none)
  let images := ((List.finRange 384).map (fun k => (s.core k).hamper.images.filterMap (fun i => i.thread.task.map (fun x =>
    let cls := match (s.launchNum x.launch).bind (fun l => l.nodes[x.node]?) with | some n => n.cls.toNat | none => 0
    (⟨agedAt now i.ready, i.prio, i.ready, x.node, x.launch, x.part, some (k, x.ctx), cls⟩ : Cand))))).flatten
  (nodes ++ images).foldr insertCand []

/-- The die that R301 places on: operand 0's, or the one with the most left, the lowest on a tie. -/
def chooseDie (s : State) (home : Option CoreId) (l : List (DieId × Placement)) : Option (DieId × Placement) :=
  match (match home with | some h => l.find? (fun x => x.1 == h.die) | none => none) with
  | some x => some x
  | none => l.foldl (fun acc x => match acc with
    | none => some x
    | some y => if s.dies[y.1].left < s.dies[x.1].left then some x else some y) none

/-- Places a candidate if it can be placed, on a given thread when one is given; whether it was. -/
def tryPlace (s : State) (c : Cand) (must : Option (CoreId × Tid)) : State × Bool :=
  if (s.part c.part).halt != 0 then (s, false)
  else match c.image with
  | some (k, ctx) =>
    let t := (match must with | some x => if x.1 = k then [x.2] else [] | none => [0, 1]).find? (fun t => threadFree s k t)
    let cost := clsCost c.cls
    match t, (s.core k).hamper.images.find? (fun i => i.thread.isCtx c.part ctx) with
    | some t, some i =>
      if !(s.core k).residents.any (fun r => r.part == c.part && r.launch == c.launch) then (s, false)
      else if !c.aged && s.dies[k.die].left < cost then (s, false)
      else
        let s := s.modCore k (fun x => { x with hamper := { x.hamper with images := x.hamper.images.filter (fun y => !(y.thread.isCtx c.part ctx)) } })
        (addLeft (placeImage s k t i) k.die (-cost), true)
    | _, _ => (s, false)
  | none =>
    match s.launchNum c.launch with
    | none => (s, false)
    | some l =>
      match l.nodes[c.node]? with
      | none => (s, false)
      | some n =>
        match readNode s l n.addr with
        | (s, .error _) => (s, false)
        | (s, .ok r) =>
          if r.bad l.levels.length then (s, false)
          else
            let (s, home) := homeOf s l r
            let all := (List.finRange 8).filterMap (fun d => (placeOn s l r home must d).map (fun pl => (d, pl)))
            let cost (pl : Placement) : Int := clsCost r.cls * pl.length
            let able := all.filter (fun x => c.aged || decide (s.dies[x.1].left ≥ cost x.2))
            match chooseDie s home able with
            | none => (s, false)
            | some (d, pl) => (startNode (addLeft s d (-(cost pl))) l c.node r n.crit pl, true)

/-- The dispatcher runs once over its candidates in order (R301). -/
def dispatch (s : State) : State := (candidates s).foldl (fun s c => (tryPlace s c none).1) s

/-- The nodes of a launch with pending count 0 become ready, in order (R300). -/
def readyAll (s : State) (l : Launch) (crit : Bool) : State :=
  l.nodes.zipIdx.foldl (fun s x =>
    match readNode s l x.1.addr with
    | (s, .ok r) => if r.pending = 0 then makeReady s l x.2 crit else s
    | (s, .error _) => s) s

/-- LAUNCH_START_TICK (R300, R305, R355): tasks that it makes ready start critical. -/
def execLaunchStartTick (launch : BitVec 16) (s : State) : Out :=
  match s.launchNum launch with
  | none => .next s
  | some l =>
    if l.started || s.time.toNat < l.start then .next s
    else
      let s := s.modLaunch l.part l.num (fun l => { l with started := true })
      let s := { s with disp := { s.disp with gangs := s.disp.gangs.map (fun g =>
        if g.launch.map (·.num) = some launch && g.result.isNone then { g with result := some (launch.zeroExtend 64) } else g) } }
      .next (dispatch (readyAll s l true))

/-- NODE_AGED (R300): age is the time since the ready time, so the node stands first in the dispatcher's order and above the
energy budget when the dispatcher runs. -/
def execNodeAged (launch : BitVec 16) (node : Nat) (s : State) : Out :=
  match (s.launchNum launch).bind (fun l => l.nodes[node]?) with
  | some n => if n.stat = .ready && agedAt s.time.toNat n.readyAt then .next (dispatch s) else .next s
  | none => .next s

/-- A ready node of another partition, of equal or higher priority than a thread's task, has no placement (R302). -/
def starved (s : State) (f : FuncId) (prio : Nat) : Bool :=
  (candidates s).any (fun c => c.image.isNone && c.part != f && decide (prio ≤ c.prio) && !(tryPlace s c none).2)

/-- SLICE_END (R302): the end is taken at the thread's next vsetvl; the dispatcher runs. -/
def execSliceEnd (k : CoreId) (t : Tid) (s : State) : Out :=
  let th := s.thr k t
  match th.task with
  | none => .next s
  | some x =>
    let q := (s.part x.part).xslice.toNat
    let prio := match (s.launch x.part x.launch).bind (fun l => l.nodes[x.node]?) with | some n => bitsOf n.cls.toNat 0 3 | none => 0
    if q = 0 || s.time.toNat < th.since + 1000 * q || !starved s x.part prio then .next s
    else .next (dispatch (s.modThr k t (fun h => { h with sliceOver := true })))

end Sys2Proof.Machine
end

