-- ==== Sys2Proof/Machine/Task.lean ====
section
/-!
DEFINITION. Launches and tasks (spec 16 R296, R297, R305; 11 R211 halt; 18 R331): the checks of a launch record, gang agreement,
the TSK group, and host submission.
-/

namespace Sys2Proof.Machine

/-! ## Launch records (R296, R297) -/

/-- Why a launch is not made: a reason of R297, or an absent host page to wait for. -/
inductive LaunchStop where
  | reason (n : Nat)
  | absent (page : Nat)
deriving DecidableEq, Repr

/-- A failed read of a record is reason 7 (R297), or a wait. -/
def launchStop (e : XFail × Word) : LaunchStop := match e.1 with | .absent p => .absent p | _ => .reason 7

/-- Units of domain a + 1 … b in one unit of b (R189). -/
def unitRatio (gsize : Nat) (a b : Nat) : Nat :=
  ((List.range 8).filter (fun d => decide (a < d) && decide (d ≤ b))).foldl (fun n d =>
    n * (match d with | 1 => 2 | 2 => 2 | 3 => 2 | 4 => 2 | 5 => 6 | 6 => 8 | _ => gsize)) 1
/-- Lowest scope code of a domain (R189). -/
def minScope (d : Nat) : Nat := match d with | 0 => 0 | 1 => 0 | 2 => 1 | 3 => 1 | 4 => 1 | 5 => 2 | 6 => 3 | _ => 4

/-- Level entry n breaks R189. -/
def levelBad (gsize nlev : Nat) (b : List Byte) (n : Nat) : Bool :=
  let d := fieldAt b (8 * n) 1
  let sc := fieldAt b (8 * n + 1) 1
  let e := fieldAt b (8 * n + 2) 4
  let below := fieldAt b (8 * (n - 1)) 1
  decide (d > 7) || decide (sc > 5) || decide (sc < minScope d)
    || (if n = 0 then d != 0 || e != 0
        else decide (d ≤ below) || (if n + 1 = nlev then e != 0 else e = 0 || decide (e > unitRatio gsize below d)))

/-- The scope of a code (R26). -/
def scopeCode (c : Nat) : Scope := scopeOfCode c

/-- Allocation entries of a record, from offset 128. -/
def allocsOfBytes (b : List Byte) (n : Nat) : List Alloc :=
  (List.range n).map (fun j => ⟨fieldAt b (16 * j) 4, fieldAt b (16 * j + 4) 4, fieldAt b (16 * j + 8) 1 = 1⟩)
/-- A reserved field or an alignment of an allocation entry is broken. -/
def allocReserved (b : List Byte) (j : Nat) : Bool :=
  decide (fieldAt b (16 * j + 8) 1 > 1) || fieldAt b (16 * j + 9) 7 != 0 || fieldAt b (16 * j) 4 % 16 != 0 || fieldAt b (16 * j + 4) 4 % 16 != 0
/-- Allocations break reason 3: an empty one, one whose guards leave its region, or two that meet. -/
def allocsBad : List Alloc → Bool
  | [] => false
  | a :: t => a.size = 0 || decide (a.base < 16) || decide (a.base + a.size + 16 > (if a.lane then 0x2000 else laneBase)) || t.any a.clash
    || allocsBad t

/-- The records of an image lie each within one allocation (R296). -/
def imageBad (l : List Alloc) : Nat → List Byte → Bool
  | 0, _ => false
  | fuel + 1, b =>
    if b.isEmpty then false
    else
      let a := fieldAt b 0 4
      let n := fieldAt b 4 4
      decide (8 + n > b.length) || !l.any (fun x => !x.lane && decide (x.base ≤ a) && decide (a + n ≤ x.base + x.size))
        || imageBad l fuel (b.drop ((8 + n + 15) / 16 * 16))

/-- The nodes of a table: records checked, successor and operand tables read (R297 reasons 5 and 7). -/
def checkNodes (s : State) (u : XUnit) (rq : XReq) (nlev nnodes : Nat) (nodes : Word) : Nat → Nat → State × Except LaunchStop (List NodeRow)
  | 0, _ => (s, .ok [])
  | fuel + 1, i =>
    match devBytes s u rq (nodes + BitVec.ofNat 64 (64 * i)) 64 with
    | (s, .error e) => (s, .error (launchStop e))
    | (s, .ok b) =>
      let r := NodeRow.ofBytes b
      if r.bad nlev then (s, .error (.reason 5))
      else match devBytes s u rq r.succ (4 * r.nsucc) with
        | (s, .error e) => (s, .error (launchStop e))
        | (s, .ok sb) =>
          if (List.range r.nsucc).any (fun j => decide (fieldAt sb (4 * j) 4 ≥ nnodes)) then (s, .error (.reason 5))
          else match devBytes s u rq r.ops (32 * r.nop) with
            | (s, .error e) => (s, .error (launchStop e))
            | (s, .ok _) =>
              match checkNodes s u rq nlev nnodes nodes fuel (i + 1) with
              | (s, .error e) => (s, .error e)
              | (s, .ok l) => (s, .ok (r :: l))

/-- The ASN has a valid address-space table entry (R48, R297 reason 8). -/
def asnValid (s : State) (f : FuncId) (asn : Nat) : Bool :=
  let pt := s.part f
  match stage2 s f s.time.toNat (bitsOf pt.xastb.toNat 19 33 * 0x80000 + 8 * asn) ⟨0, none, 0, []⟩ with
  | .ok (_, _, pa, _) => pteV (readPte s (hostKeyed f pa))
  | .error _ => false

/-- A launch record at an address read under `rq`, checked (R297, R328): the launch, and its gang members. -/
def checkLaunch (s : State) (u : XUnit) (rq : XReq) (rec : Word) (gang : Bool) : State × Except LaunchStop (Launch × Nat) :=
  let cores := coresOf (s.part rq.part)
  if (s.part rq.part).resetSt = .resetting || (s.part rq.part).resetSt = .scrubbing then (s, .error (.reason 6))
  -- two XLMAP entries that name one core refuse every launch (R326)
  else if cores.eraseDups.length != cores.length then (s, .error (.reason 6))
  else if rec.toNat % 64 != 0 then (s, .error (.reason 1))
  else match devBytes s u rq rec 64 with
    | (s, .error e) => (s, .error (launchStop e))
    | (s, .ok h) =>
      let nlev := fieldAt h 4 1
      let nalloc := fieldAt h 5 1
      let nnodes := fieldAt h 16 4
      let gtag := fieldAt h 20 4
      let sdsize := fieldAt h 32 4
      let gm := fieldAt h 36 2
      let nodes : Word := BitVec.ofNat 64 (fieldAt h 8 8)
      let sdata : Word := BitVec.ofNat 64 (fieldAt h 24 8)
      let asn := fieldAt h 2 2
      let gsize := (s.part rq.part).gsize.toNat
      if fieldAt h 0 2 != 1 || fieldAt h 6 2 != 0 || fieldAt h 38 2 != 0 || fieldAt h 48 16 != 0 || nodes.toNat % 64 != 0
          || fieldAt h 40 8 % 8 != 0 || sdsize % 16 != 0 || nalloc > 32 || nnodes = 0 || nnodes > 2 ^ 20 || gm = 0 || gm > 64
          || (!gang && (gtag != 0 || gm != 1)) then (s, .error (.reason 1))
      else match devBytes s u rq (rec + 64) (64 + 16 * nalloc) with
        | (s, .error e) => (s, .error (launchStop e))
        | (s, .ok b) =>
          let ab := b.drop 64
          if (List.range 8).any (fun n => fieldAt b (8 * n + 6) 2 != 0) || (List.range nalloc).any (allocReserved ab) then (s, .error (.reason 1))
          else if nlev = 0 || nlev > 8 || (List.range nlev).any (levelBad gsize nlev b) then (s, .error (.reason 2))
          else
            let allocs := allocsOfBytes ab nalloc
            if allocsBad allocs then (s, .error (.reason 3))
            else if !asnValid s rq.part asn then (s, .error (.reason 8))
            else
              let rq2 : XReq := ⟨rq.part, BitVec.ofNat 16 asn, .kernel, 0⟩
              match (if sdata = 0 then (s, .ok []) else devBytes s u rq2 sdata sdsize) with
              | (s, .error e) => (s, .error (launchStop e))
              | (s, .ok img) =>
                if imageBad allocs (img.length / 16 + 1) img then (s, .error (.reason 4))
                else match checkNodes s u rq2 nlev nnodes nodes nnodes 0 with
                  | (s, .error e) => (s, .error e)
                  | (s, .ok rows) =>
                    let levels : List Level := (List.range nlev).map (fun n =>
                      ⟨fieldAt b (8 * n) 1, scopeCode (fieldAt b (8 * n + 1) 1), fieldAt b (8 * n + 2) 4⟩)
                    let shape (lv : Nat) : Bool := (fillNode levels (fun _ _ => true) lv cores).isSome
                    if (List.range nlev).any (fun lv => !shape lv) then (s, .error (.reason 6))
                    else
                      let recs := rows.zipIdx.map (fun x =>
                        (⟨nodes + BitVec.ofNat 64 (64 * x.2), .waiting, 0, 0, false, 0, x.1.lv, x.1.ordinal⟩ : NodeRec))
                      (s, .ok (⟨0, rq.part, rec, BitVec.ofNat 16 asn, levels, allocs, sdata, sdsize, BitVec.ofNat 64 (fieldAt h 40 8),
                        BitVec.ofNat 32 gtag, 0, false, recs, [], []⟩, gm))

/-- The refusal of a launch (R305). -/
def refusal (reason : Nat) : Word := 0x8000000000000000#64 + BitVec.ofNat 64 reason
/-- A launch number, nonzero and not in use (log 10). -/
def freshLaunch (s : State) : BitVec 16 :=
  match (List.range 65536).find? (fun i => let n := s.disp.nextNum + BitVec.ofNat 16 i; n != 0 && (s.launchNum n).isNone) with
  | some i => s.disp.nextNum + BitVec.ofNat 16 i
  | none => 0
/-- A checked launch joins the device's launches, to start at a tick. -/
def addLaunch (s : State) (l : Launch) (start : Nat) : State × BitVec 16 :=
  let n := freshLaunch s
  ({ s with disp := { s.disp with launches := s.disp.launches ++ [{ l with num := n, start := start }], nextNum := n + 1 } }, n)

/-! ## Gang launches (R305) -/

/-- What a launch request answers: its result, a wait for the other members, or a wait for a page. -/
inductive LaunchAns where
  | result (v : Word)
  | waits (gtag : Word32)
  | absent (page : Nat)
deriving DecidableEq, Repr

/-- The record of a gang tag. -/
def State.gang (s : State) (gtag : Word32) : Option GangRec := s.disp.gangs.find? (fun g => g.gtag == gtag)
/-- Replaces the record of a gang tag, or adds it. -/
def State.putGang (s : State) (g : GangRec) : State :=
  { s with disp := { s.disp with gangs := s.disp.gangs.filter (fun x => x.gtag != g.gtag) ++ [g] } }
/-- Removes the record of a gang tag. -/
def State.dropGang (s : State) (gtag : Word32) : State :=
  { s with disp := { s.disp with gangs := s.disp.gangs.filter (fun x => x.gtag != gtag) } }

/-- A member that holds every proposal fixes the start tick: the largest proposal + 2,000 ns. -/
def agree (s : State) (g : GangRec) : State :=
  match g.own, g.launch with
  | some _, some l =>
    if g.result.isSome || g.cancelled || l.num != 0 || g.props.length < g.members then s
    else
      let tick := g.props.foldl (fun m p => max m p.2) 0 + 2000
      let (s, n) := addLaunch s l tick
      s.putGang { g with launch := some { l with num := n, start := tick } }
  | _, _ => s

/-- A member refuses: the launch does not start (R305). -/
def refuseGang (s : State) (g : GangRec) : State :=
  let s := match g.launch with
    | some l => { s with disp := { s.disp with launches := s.disp.launches.filter (fun x => l.num = 0 || x.num != l.num) } }
    | none => s
  s.putGang { g with cancelled := true, result := some (refusal 9) }

/-- A launch request (R305): a local launch at once; a gang launch once its outcome is known, so that a cancel before the start
tick can still refuse it. -/
def requestLaunch (s : State) (u : XUnit) (rq : XReq) (rec : Word) (prop : Nat) (gang : Bool) : State × LaunchAns :=
  let prop := max prop s.time.toNat
  let pending := if gang then s.disp.gangs.find? (fun g => g.own.isSome && g.part == rq.part
    && (match g.launch with | some l => l.addr == rec | none => false)) else none
  match pending with
  | some g =>
    match g.result with
    | some v => (s.dropGang g.gtag, .result v)
    | none => (s, .waits g.gtag)
  | none =>
    match checkLaunch s u rq rec gang with
    | (s, .error (.absent p)) => (s, .absent p)
    | (s, .error (.reason n)) => (s, .result (refusal n))
    | (s, .ok (l, gm)) =>
      if !gang then
        let (s, n) := addLaunch s l prop
        (s, .result (n.zeroExtend 64))
      else
        let pos := (s.part rq.part).gpos.toNat
        let g : GangRec := (s.gang l.gtag).getD ⟨l.gtag, rq.part, none, 0, gm, [], false, none, none⟩
        if g.cancelled then (s.dropGang l.gtag, .result (refusal 9))
        else
          let props := g.props.filter (fun p => p.1 != pos) ++ [(pos, prop)]
          let g := { g with part := rq.part, own := some prop, ownAt := s.time.toNat, members := gm, props := props, launch := some l }
          (agree (s.putGang g) g, .waits l.gtag)

/-- GANG_PROPOSAL: another member's proposal arrives (R305). -/
def execGangProposal (gtag : Word32) (member : Fin 64) (tick : Word) (s : State) : Out :=
  let g : GangRec := (s.gang gtag).getD ⟨gtag, 0, none, 0, 0, [], false, none, none⟩
  if g.props.any (fun p => p.1 == member.val) then .next s
  else
    let g := { g with props := g.props ++ [(member.val, tick.toNat)] }
    .next (agree (s.putGang g) g)

/-- GANG_CANCEL: a cancel that arrives before the start tick refuses the launch (R305). -/
def execGangCancel (gtag : Word32) (s : State) : Out :=
  match s.gang gtag with
  | none => .next (s.putGang ⟨gtag, 0, none, 0, 0, [], true, none, none⟩)
  | some g => if g.result.isSome then .next s else .next (if g.own.isSome then refuseGang s g else s.putGang { g with cancelled := true })

/-- GANG_PROPOSAL_TIMEOUT: a proposal is missing 10 ms after the member's own (R305). -/
def execGangProposalTimeout (gtag : Word32) (s : State) : Out :=
  match s.gang gtag with
  | none => .next s
  | some g =>
    let agreed := match g.launch with | some l => l.num != 0 | none => false
    if g.own.isNone || g.result.isSome || agreed || s.time.toNat < g.ownAt + 10000000 then .next s else .next (refuseGang s g)

/-! ## Task ends (R211, R305) -/

/-- Matrix work that thread t of core k has set off is not over: a re-issue, or an mfill that waits (R284, R264). -/
def matrixBusyOf (s : State) (k : CoreId) (t : Tid) : Bool :=
  (match (s.core k).mat.pendReissue with | some x => x.1 == t | none => false)
    || (match (s.core k).mat.filling with | some f => f.tid == t | none => false)
/-- Earlier work of the thread that a task end awaits (R305 step 1). -/
def drainBusy (s : State) (k : CoreId) (t : Tid) : Bool := copiesBusyOf s k t || matrixBusyOf s k t

/-- A task has ended for its launch's barriers: after a tdone it counts as arrived at every later phase (R162). -/
def endInBarriers (s : State) (x : Task) (halted crit : Bool) : State :=
  (s.modLaunch x.part x.launch (fun l =>
    let l : Launch := { l with tasks := l.tasks.map (fun (t : TaskRec) =>
      if t.ctx == x.ctx && !t.ended then { t with ended := true, halted := halted } else t) }
    { l with bars := l.bars.map (fun (b : BarInst) => if !b.arrived.isEmpty && l.allArrived b then l.complete { b with crit := crit } else b) })).noteBarrierWake

/-- Frees what the ending task holds: lanes, slots, acown fields, its thread and its cost (R177, R302, R305 step 3). -/
def leaveTask (s : State) (x : Task) (halted : Bool) : State :=
  let crit := s.cur.cbit
  let cost := match (s.launch x.part x.launch).bind (fun l => l.nodes[x.node]?) with | some n => clsCost n.cls.toNat | none => 0
  let s := if s.holdsLanes s.curCore s.curTid then freeLanes s else s
  let s := s.modMat (fun u =>
    let u := u.releaseMask x.ctx 0xFFFF
    { u with acown := u.acown.map (fun o => if o == x.ctx then 0 else o) })
  let s := addLeft (s.modCur Thread.vacated) s.curCore.die cost
  endInBarriers s x halted crit

/-- One task of the node has ended. -/
def lessLive (s : State) (l : Launch) (i : Nat) : State := modNode s l i (fun n => { n with live := n.live - 1 })

/-- A launch whose last node is done or halted gives up its allocations (R300). -/
def endLaunch (s : State) (f : FuncId) (n : BitVec 16) : State :=
  match s.launch f n with
  | none => s
  | some l =>
    if l.nodes.all (fun x => (x.stat == .done || x.stat == .halted) && x.live = 0) then
      { s with
        cores := s.cores.map (fun c => { c with residents := c.residents.filter (fun r => !(r.part == f && r.launch == n)) })
        disp := { s.disp with launches := s.disp.launches.filter (fun l => !(l.part == f && l.num == n)) } }
    else s

/-- A task fault (R305). -/
def taskFault (s : State) (tval telem : Word) : Out := raise s 0x18 tval telem
/-- A failed access of a task end: the task fault, or a wait for an absent host page (R305, R332). -/
def taskFail (s : State) (e : XFail × Word) : Out :=
  match e.1 with
  | .absent p =>
    if s.cur.answered.contains (p, false) then
      taskFault (s.modCur (fun t => { t with answered := t.answered.filter (· != (p, false)) })) e.2 7
    else .next ((requestPage s s.curPart p).block (.hostPage p false))
  | _ => taskFault s e.2 7

/-- Translates the pending count of every successor. -/
def pendingTargets (s : State) (u : XUnit) (rq : XReq) (nodes : List NodeRec) : List Nat → State × Except (XFail × Word) (List (Nat × Tgt))
  | [] => (s, .ok [])
  | i :: t =>
    let va : Word := (match nodes[i]? with | some n => n.addr | none => 0) + 8
    match translate s u rq .atomic va true with
    | (s, .error f) => (s, .error (f, va))
    | (s, .ok (x, _)) =>
      match pendingTargets s u rq nodes t with
      | (s, .error e) => (s, .error e)
      | (s, .ok l) => (s, .ok ((i, x) :: l))

/-- The node's last task has ended: successors, state 3, the launch counter (R305 step 4). -/
def finishNode (s : State) (l : Launch) (i : Nat) (targets : List (Nat × Tgt)) (crit : Bool) : State :=
  let s := targets.foldl (fun s x =>
    let v := (leNat (tgtRead s x.2 4).1 + 0xFFFFFFFF) % 2 ^ 32
    let s := tgtWrite s x.2 (leBytes 4 v)
    if v = 0 then makeReady s l x.1 crit else s) s
  let s := setNode s l i .done
  match counterAdd s (schedUnit s l.part) l.req l.counter 1 with
  | (s, none) => s.noteCounterWake crit
  | (s, some (.absent p)) => s.owe ⟨l.part, l.asn, .kernel, l.counter, crit, none⟩ p
  | (s, some _) => s

/-- tdone (R305). -/
def execTdone (s : State) : Out :=
  if drainBusy s s.curCore s.curTid then .next (s.block .drain)
  else match reportAll s with
  | some s' => .next s'
  | none =>
    match s.cur.task with
    | none => .next (s.modCur Thread.vacated)
    | some x =>
      match s.launch x.part x.launch with
      | none => .next (dispatch (leaveTask s x false))
      | some l =>
        let crit := s.cur.cbit
        match l.nodes[x.node]? with
        | none => .next (dispatch (leaveTask s x false))
        | some n =>
          if n.live > 1 || n.stat == .halted then
            .next (dispatch (endLaunch (lessLive (leaveTask s x false) l x.node) l.part l.num))
          else
            let u : XUnit := .scalar s.curCore
            match devBytes s u l.req n.addr 64 with
            | (s, .error e) => taskFail s e
            | (s, .ok b) =>
              let r := NodeRow.ofBytes b
              match devBytes s u l.req r.succ (4 * r.nsucc) with
              | (s, .error e) => taskFail s e
              | (s, .ok sb) =>
                let idx := (List.range r.nsucc).map (fun j => fieldAt sb (4 * j) 4)
                match idx.zipIdx.find? (fun p => decide (p.1 ≥ l.nodes.length)) with
                | some p => taskFault s (r.succ + BitVec.ofNat 64 (4 * p.2)) (BitVec.ofNat 64 p.1)
                | none =>
                  match pendingTargets s u l.req l.nodes idx with
                  | (s, .error e) => taskFail s e
                  | (s, .ok targets) =>
                    let s := finishNode (lessLive (leaveTask s x false) l x.node) l x.node targets crit
                    .next (dispatch (endLaunch s l.part l.num))

/-- halt (R211, R305): the node is halted; its successors are not released. -/
def execHalt (s : State) : Out :=
  if drainBusy s s.curCore s.curTid then .next (s.block .drain)
  else match reportAll s with
  | some s' => .next s'
  | none =>
    match s.cur.task with
    | none => .next (s.modCur Thread.vacated)
    | some x =>
      match s.launch x.part x.launch with
      | none => .next (dispatch (leaveTask s x true))
      | some l => .next (dispatch (endLaunch (setNode (lessLive (leaveTask s x true) l x.node) l x.node .halted) l.part l.num))

/-! ## tspawn, tyield, tlaunch (R305) -/

/-- tspawn (R305): the record is read as a load reads it. -/
def execTspawn (a c : SReg) (s : State) : Out :=
  let addr := s.sreg a
  withGeneric s .load addr 64 true (fun s t =>
    match t with
    | .window _ _ => raise s 0x04 addr 0
    | t =>
      match s.cur.task with
      | none => raise s 0x04 addr 0
      | some x =>
        match s.launch x.part x.launch with
        | none => raise s 0x04 addr 0
        | some l =>
          let (bs, bad) := tgtRead s t 64
          let s := if bad then s.poisonRead (tgtBank t) else s
          let r := NodeRow.ofBytes (if bad then List.replicate 64 0 else bs)
          if r.bad l.levels.length then taskFault s addr 5
          else if l.nodes.length ≥ 2 ^ 20 then .next (s.finish c 0xFFFFFFFFFFFFFFFF#64)
          else
            let i := l.nodes.length
            let s := s.modLaunch l.part l.num (fun l => { l with nodes := l.nodes ++ [⟨addr, .waiting, 0, 0, false, 0, r.lv, r.ordinal⟩] })
            let s := s.finish c (BitVec.ofNat 64 i)
            match s.launch x.part x.launch with
            | some l => .next (if r.pending = 0 then dispatch (makeReady s l i s.cur.cbit) else s)
            | none => .next s)

/-- The first candidate of the partition, but the task itself, that a thread can take (R305). -/
def placeFirst (s : State) (must : CoreId × Tid) : List Cand → Option State
  | [] => none
  | c :: t => match tryPlace s c (some must) with
    | (s, true) => some s
    | (s, false) => placeFirst s must t

/-- tyield (R305, R315): from a handler it yields the interrupted task as tret would resume it. It waits for matrix work that the
thread has set off; a full hamper takes the context in exchange for one that it gives back (R318; log 42). -/
def execTyield (s : State) : Out :=
  match s.cur.task with
  | none => .next s.advance
  | some x =>
    let k := s.curCore
    let t := s.cur
    let h := (s.core k).hamper
    let tight := decide (h.images.length ≥ hamperImages)
    if h.full.isSome || (s.part x.part).halt != 0 then .next s.advance
    else if matrixBusyOf s k s.curTid then .next (s.block (.slotBusy []))
    else
      let s1 := if t.priv != .user && (t.trapSet t.priv).hdl then s.modCur (fun t => t.returnTrap t.priv) else s.advance
      let cls := match (s.launch x.part x.launch).bind (fun l => l.nodes[x.node]?) with | some n => n.cls.toNat | none => 0
      let s2 := addLeft (suspendThread s1 k s.curTid s.time.toNat (bitsOf cls 0 3)) k.die (clsCost cls)
      let cs := (candidates s2).filter (fun c => c.part == x.part && c.image != some (k, x.ctx)
        && (!tight || (match c.image with | some i => i.1 == k | none => false)))
      match placeFirst s2 (k, s.curTid) cs with
      | some s3 => .next (dispatch s3)
      | none => .next s.advance

/-- tlaunch (R305). -/
def execTlaunch (a b c : SReg) (gang : Bool) (s : State) : Out :=
  atKernelWord (fmtQE 0x31 3 (enc5 a) (enc5 b) (enc5 c) (if gang then 1 else 0)) s (fun s =>
    match requestLaunch s (.scalar s.curCore) ⟨s.curPart, s.cur.asnOf, .kernel, s.cur.ctxOf⟩ (s.sreg a) (s.sreg b).toNat gang with
    | (s, .result v) => .next (s.finish c v)
    | (s, .waits g) => .next (s.block (.gang g))
    | (s, .absent p) =>
      if s.cur.answered.contains (p, false) then
        .next ((s.modCur (fun t => { t with answered := t.answered.filter (· != (p, false)) })).finish c (refusal 7))
      else .next ((requestPage s s.curPart p).block (.hostPage p false)))

/-! ## Host submission (R331) -/

/-- The physical address of the oldest entry of a function's chain; none when the chain is empty or has no translation. -/
def entryAt (s : State) (f : FuncId) : Option Nat :=
  let p := s.part f
  if p.xsubt = p.xsubh then none
  else
    let n := 2 ^ (bitsOf p.xsubb.toNat 52 4 + 6)
    let gpa := bitsOf p.xsubb.toNat 12 40 * 0x1000 + 64 * (p.xsubh.toNat % n)
    match stage2 s f s.time.toNat gpa ⟨0, none, 0, []⟩ with
    | .ok (_, _, pa, _) => if pa + 64 ≤ wmSize then some pa else none
    | .error _ => none
/-- The result is written and head advances (R331). -/
def entryDone (s : State) (f : FuncId) (pa : Nat) (v : Word) : State :=
  (tgtWrite s (.wm (pa + 24)) (leBytes 8 v.toNat)).modPart f (fun p => { p with xsubh := p.xsubh + 1 })

/-- The oldest entry, when it is of a kind: record address and proposal. A malformed entry is refused (R331). -/
def withEntry (f : FuncId) (kind : Nat) (s : State) (cont : State → Nat → Word → Nat → State) : Out :=
  match entryAt s f with
  | none => .next s
  | some pa =>
    let b := (tgtRead s (.wm pa) 64).1
    let k := fieldAt b 0 1
    if k = 0 || k > 4 || fieldAt b 1 7 != 0 || fieldAt b 32 32 != 0 then .next (entryDone s f pa (refusal 1))
    else if k != kind then .next s
    else .next (cont s pa (BitVec.ofNat 64 (fieldAt b 8 8)) (fieldAt b 16 8))

/-- A launch entry: performed as tlaunch would, in address space 0 (log 34). -/
def submitLaunchAs (gang : Bool) (f : FuncId) (s : State) : Out :=
  withEntry f (if gang then 2 else 1) s (fun s pa rec prop =>
    match requestLaunch s (schedUnit s f) ⟨f, 0, .kernel, 0⟩ rec prop gang with
    | (s, .result v) => entryDone s f pa v
    | (s, .waits _) => s
    | (s, .absent p) => awaitPage s f p (fun s => entryDone s f pa (refusal 7)))
/-- SUBMIT_LAUNCH (R331). -/
def execSubmitLaunch (f : FuncId) (s : State) : Out := submitLaunchAs false f s
/-- SUBMIT_GANG_LAUNCH (R331). -/
def execSubmitGangLaunch (f : FuncId) (s : State) : Out := submitLaunchAs true f s

/-- An entry performed as a register write: its result value is not stated, so it is a free value (log 34). -/
def submitWrite (f : FuncId) (kind : Nat) (act : State → Out) (s : State) : Out :=
  withEntry f kind s (fun s pa _ _ =>
    let (n, s) := (match act s with | .next s' => s' | _ => s).draw
    entryDone s f pa (Config.freeValue n))
/-- SUBMIT_PARTITION_HALT (R331, R318). -/
def execSubmitPartitionHalt (f : FuncId) (s : State) : Out := submitWrite f 3 (execPartitionHalt f) s
/-- SUBMIT_PARTITION_RESUME (R331, R320). -/
def execSubmitPartitionResume (f : FuncId) (s : State) : Out := submitWrite f 4 (execPartitionResume f) s

end Sys2Proof.Machine
end

