-- ==== Sys2Proof/Machine/Events.lean ====
section
/-!
DEFINITION. Events of the module as a whole: expiry, renewal and skew (spec 04 R57, R62, R63; 18 R335), the budget unit (16 R302),
page request responses (18 R332, R333), errors (19 R340 to R345), links, start-up (18 R337, R338) and accesses from outside
(08 R167, R169; 04 R61).
-/

namespace Sys2Proof.Machine

/-! ## Expiry and renewal -/

/-- TRANSLATION_EXPIRY: the agent drops its dead entries (R57). -/
def execTranslationExpiry (ag : XAgent) (s : State) : Out :=
  match ag with
  | .core k =>
    let now := s.coreTime k
    let live (l : List TlbEntry) : List TlbEntry := l.filter (fun e => decide (now < e.expiry))
    .next (s.modCore k (fun c => { c with scalarTlb := live c.scalarTlb, vectorTlb := live c.vectorTlb, gatherTlb := live c.gatherTlb }))
  | .cluster c =>
    let now := copyOfTime s s.clusters[c].skew
    .next (s.modCluster c (fun x => { x with
      tlb := x.tlb.filter (fun e => decide (now < e.expiry)), walks := x.walks.filter (fun e => decide (now < e.expiry)) }))
  | .engine k =>
    let now := copyOfTime s s.engines[k].skew
    .next (s.modEngine k (fun e => { e with tlb := e.tlb.filter (fun x => decide (now < x.expiry)) }))
  | .stack d =>
    let now := s.dieTime d
    .next (s.modDie d (fun b => { b with cache := b.cache.filter (fun x => decide (now < x.expiry)) }))

/-- The renewal time of an entry: t_s + 3·(E − t_s)/4 (R62). -/
def renewAt (ts expiry : Nat) : Nat := ts + 3 * (expiry - ts) / 4
/-- A page of a transfer is marked: the transfer stops where it leaves it. -/
def markPage (vpn : Nat) (l : List UsedPage) : List UsedPage := l.map (fun p => if p.covers vpn then { p with stop := true } else p)

/-- One transfer's page is renewed: the leaf as the transfer used it is compared with a new walk. With no change the entry takes
the walk's expiry; otherwise the old entry stays, for the rest of the page (R62). The walk's accessed bits stand either way (R53). -/
def renewPage (s : State) (u : XUnit) (rq : XReq) (p : UsedPage) (vpn : Nat) (changed : State → State) : State :=
  match (unitTlb s u).find? (fun e => e.serves rq vpn) with
  | none => s
  | some e =>
    if unitTime s u < renewAt e.ts e.expiry then s
    else match walkLeaf s u rq p.wr true (vpn * 0x10000) with
      | (s, .ok w) => if (p.leaf.at vpn).sameAs w.leaf then cacheWalk (unitDrop s u rq vpn) u rq (vpn * 0x10000) w else changed s
      | (s, .error _) => changed s

/-- LEASE_RENEWAL: an agent renews a page for its transfers in progress (R62). -/
def execLeaseRenewal (ag : XAgent) (vpn : Nat) (s : State) : Out :=
  match ag with
  | .core k =>
    let s := (s.core k).copies.foldl (fun s c =>
      match c.pages.find? (fun p => p.covers vpn) with
      | some p => renewPage s (.vector k) c.req p vpn (fun s =>
          s.modCore k (fun x => { x with copies := x.copies.map (fun y => if y.id = c.id then { y with pages := markPage vpn y.pages } else y) }))
      | none => s) s
    let ctx := match (s.core k).vec.holder with | some t => (s.thr k t).ctxOf | none => 0
    .next ((List.finRange 8).foldl (fun s r =>
      match (s.core k).vec.binds[r] with
      | some b =>
        match b.pages.find? (fun p => p.covers vpn) with
        | some p => renewPage s (.vector k) ⟨b.part, b.asn, b.priv, ctx⟩ p vpn (fun s =>
            s.modCore k (fun x => { x with vec := { x.vec with binds := x.vec.binds.set r (some { b with pages := markPage vpn b.pages }) } }))
        | none => s
      | none => s) s)
  | .engine k =>
    match s.engines[k].running, s.engines[k].chain with
    | some r, g :: _ =>
      .next (r.flight.zipIdx.foldl (fun s x =>
        match x.1.pages.find? (fun p => p.covers vpn) with
        | some p => renewPage s (.engine k) g.req p vpn (fun s =>
            s.modRun k (fun r => match r.flight[x.2]? with
              | some y => { r with flight := r.flight.set x.2 { y with pages := markPage vpn y.pages } }
              | none => r))
        | none => s) s)
    | _, _ => .next s
  | .stack d =>
    -- a base die renews the Q pages of sub-commands in progress; a changed entry is left to expire (log 55)
    .next (s.baseDies[d].cache.foldl (fun s e =>
      let used := s.queries.any (fun q => q.part == e.part && q.subs.any (fun x => !x.done && x.qpage == vpn))
      if e.qpage != vpn || !used || s.dieTime d < renewAt e.ts e.expiry then s
      else match qWalk s e.part (s.dieTime d) vpn with
        | .ok w => if BitVec.ofNat 64 w.pte = e.pte then (qWalkCached s e.part vpn).1 else (qWalkMarked s e.part vpn).1
        | .error _ => (qWalkMarked s e.part vpn).1) s)
  | .cluster _ => .next s

/-! ## The time base (R54, R63, R335) -/

/-- A behind-drift is logged in the bank of the agent's die, bank 7 (R63, R343). -/
def logSkew (s : State) (d : DieId) (k : CoreId) (drift : Int) : State :=
  s.modBank d 7 (fun b => b.log
    { die := d, bank := 7, sev := .contained, kind := 7, part := 0, ctx := 0, addr := none, core := k, thread := 0, index := 0
      synd := BitVec.ofInt 64 drift, poison := .none } s.time.toNat)
/-- A lease-skew fault for a thread that runs a task (R63). -/
def Thread.addSkew (t : Thread) (drift : Int) : Thread := if t.task.isSome then { t with skewFault := some drift } else t
/-- Drift beyond 1 ns discards entries; behind, it is also reported (R63). -/
def skewed (d : Int) : Bool := decide (d > 1) || decide (d < -1)

/-- The drift of an agent's copy, and where a behind-drift is logged: die and core (R63, R343). -/
def skewOf (s : State) (ag : XAgent) : Int × DieId × CoreId :=
  match ag with
  | .core k => ((s.core k).skew, k.die, k)
  | .cluster c => (s.clusters[c].skew, (ClusterId.core c 0).die, ClusterId.core c 0)
  | .engine k => (s.engines[k].skew, CoreId.die k, k)
  | .stack d => (s.baseDies[d].skew, ⟨d.val / 6, by omega⟩, 0)
/-- The agent discards every leased entry and takes the beacon's value (R63). -/
def discardAll (s : State) (ag : XAgent) : State :=
  match ag with
  | .core k => s.modCore k (fun c => { c with skew := 0, scalarTlb := [], vectorTlb := [], gatherTlb := [] })
  | .cluster c => s.modCluster c (fun _ => ⟨[], [], 0⟩)
  | .engine k => s.modEngine k (fun e => { e with tlb := [], skew := 0 })
  | .stack d => s.modDie d (fun _ => ⟨[], 0⟩)
/-- The transfers in progress that a behind-drift affects fault at their next strip (R63): those that have used a translation of the
agent, for a context that translated through it. -/
def skewTransfers (s : State) (ag : XAgent) (d : Int) : State :=
  let copies (k : CoreId) (ag : XAgent) (s : State) : State := s.modCore k (fun x => { x with copies := x.copies.map (fun c =>
    if !c.pages.isEmpty && s.users.contains (ag, c.part, c.ctx) then { c with skew := some d } else c) })
  match ag with
  | .core k => copies k ag s
  | .cluster c => (List.finRange 8).foldl (fun s j => copies (ClusterId.core c j) ag s) s
  | .engine k => s.modRun k (fun r => { r with flight := r.flight.map (fun x => if x.pages.isEmpty then x else { x with skew := some d }) })
  | .stack _ => s
/-- An agent meets the beacon: a drift beyond 1 ns discards; one behind is reported to every context that has translated through the
agent since the last beacon, wherever it is now (R63; log 35). -/
def meetBeacon (s : State) (ag : XAgent) : State :=
  let (d, die, k) := skewOf s ag
  if !skewed d then s
  else
    let s := discardAll s ag
    if 0 ≤ d then s
    else
      let s := (s.users.filter (fun x => x.1 == ag)).foldl (fun s x => s.modCtx x.2.1 x.2.2 (fun t => t.addSkew d)) s
      logSkew (skewTransfers s ag d) die k d

/-- The agents that translate, each with a copy of the time base (R54). -/
def agents : List XAgent :=
  (List.finRange 384).map .core ++ (List.finRange 48).map .cluster ++ (List.finRange 384).map .engine ++ (List.finRange 48).map .stack
/-- Every agent compares its copy with the beacon (R63). -/
def State.beacon (s : State) : State := { agents.foldl meetBeacon s with users := [] }
/-- TIME_BEACON (R63): at every microsecond of the module's time base (R54), where `passTime` also sends it. -/
def execTimeBeacon (s : State) : Out := .next (if s.time.toNat % 1000 = 0 then s.beacon else s)

/-- GANG_TIME_BEACON: the module time base, off by a drift, is corrected to within 25 ns of the beacon; where within is left
open. The agents' copies follow with the next beacon of the module (R54, R335). -/
def execGangTimeBeacon (drift : Int) (s : State) : Out :=
  let (n, s) := s.draw
  let rest : Int := ((Config.freeValue n).toNat % 51 : Nat) - 25
  let now : Int := s.time.toNat
  let d : Int := if drift > 25 || drift < -25 then max (rest - drift) (-now) else 0
  .next { s with
    time := BitVec.ofInt 64 (now + d)
    cores := s.cores.map (fun c => { c with skew := c.skew - d })
    clusters := s.clusters.map (fun c => { c with skew := c.skew - d })
    engines := s.engines.map (fun e => { e with skew := e.skew - d })
    baseDies := s.baseDies.map (fun b => { b with skew := b.skew - d }) }

/-! ## The budget unit (R302) -/

/-- The cost of the tasks that run on die d. -/
def runningCost (s : State) (d : DieId) : Nat :=
  (List.finRange 384).foldl (fun n k =>
    if k.die = d then (s.core k).threads.toList.foldl (fun n t => match t.task with
      | some x => n + (match (s.launch x.part x.launch).bind (fun l => l.nodes[x.node]?) with | some y => clsCost y.cls.toNat | none => 0)
      | none => n) n
    else n) 0

/-- Budgets are published: never above the cap; left is the budget minus what runs; the dispatcher runs (R301, R302). -/
def State.publish (s : State) (budgets : Vector (BitVec 24) 8) : State :=
  let dies : Vector DieBudget 8 := Vector.ofFn (fun d =>
    let x := s.dies[d]
    let b := if x.cap < budgets[d] then x.cap else budgets[d]
    { x with budget := b, left := (b.toNat : Int) - (runningCost s d : Int) })
  dispatch { s with dies := dies }
/-- BUDGET_PUBLICATION: at a multiple of 8,000 ns of the time base (R302), where `passTime` also publishes. -/
def execBudgetPublication (budgets : Vector (BitVec 24) 8) (s : State) : Out :=
  .next (if s.time.toNat % 8000 = 0 then s.publish budgets else s)

/-- THROTTLE_RAISE (R302). -/
def execThrottleRaise (d : DieId) (lvl : BitVec 3) (s : State) : Out :=
  let x := s.dies[d]
  .next { s with dies := s.dies.set d { x with throttle := if x.throttle < lvl then lvl else x.throttle } }
/-- THROTTLE_STEP_DOWN (R302). -/
def execThrottleStepDown (d : DieId) (s : State) : Out :=
  let x := s.dies[d]
  .next { s with dies := s.dies.set d { x with throttle := if x.throttle = 0 then 0 else x.throttle - 1 } }

/-! ## Page requests (R332, R333) -/

/-- A discarded response adds 1 to XPRI, saturating (R333). -/
def countDiscard (s : State) (f : FuncId) : State :=
  s.modPart f (fun p => { p with xpri := if p.xpri = 0xFFFFFFFF#32 then p.xpri else p.xpri + 1 })

/-- Applies an action to a state in which page `page` is refused when the action would have asked for it. -/
def ifAsks (s : State) (f : FuncId) (page : Nat) (act : State → State) : State :=
  let asks := (act (s.modPart f (fun p => { p with groups := [] }))).part f
  if asks.asked page then
    (act (s.modPart f (fun p => { p with refusing := some page }))).modPart f (fun p => { p with refusing := none })
  else s

/-- The state after an event, or the state itself where it answers no next state. -/
def afterOut (s : State) (o : Out) : State := match o with | .next s' => s' | _ => s

/-- Every action of a function's transfers that may wait for a page, or have asked for one (R332). -/
def askers (s : State) (f : FuncId) : List (State → Out) :=
  ((List.finRange 384).map (fun k =>
    (List.finRange 4).filterMap (fun j => match (s.core k).copies[j.val]? with
      | some c => if c.part == f then some (execCopyStripLands k j) else none
      | none => none))).flatten
  ++ ((List.finRange 384).map (fun k => match s.engines[k].chain with
    | g :: _ => if g.part == f then [execCmdSignal k, execCmdWait k, execEngineWaitSatisfied k, execSegmentEnd k, execCommandFault k] else []
    | [] => [])).flatten
  ++ ((s.queries.filter (fun q => q.part == f)).map (fun q => (List.range q.subs.length).map (fun j => execQuerySubcommandComplete q.id j))).flatten
  ++ ((s.pageOps.filter (fun o => o.part == f)).map (fun o =>
    ([execMigrationCommit o.id, execSealImageWritten o.id, execUnsealVerified o.id] : List (State → Out)))).flatten
  ++ [execSubmitLaunch f, execSubmitGangLaunch f, execHamperExchangeComplete f, fun s => .next (retryMove s f), fun s => .next (payOwed s f)]
/-- Transfers of a function that wait for a page whose request was refused go on without it (R332). -/
def refuseTransfers (s : State) (f : FuncId) (page : Nat) : State :=
  (askers s f).foldl (fun s act => ifAsks s f page (fun s => afterOut s (act s))) s

/-- An answer reaches a thread that waits for the page, or that was switched out while it waited. -/
def Thread.answer (t : Thread) (page : Nat) (ok : Bool) : Thread :=
  if t.wait = .hostPage page false || t.wait = .hostPage page true || t.asked = some page then
    { t with asked := none, answered := if ok then t.answered else t.answered ++ [(page, false)] }
  else t
/-- An answer reaches every thread of a function, in a hamper too (R332). -/
def answerAll (s : State) (f : FuncId) (page : Nat) (ok : Bool) : State :=
  let tell (t : Thread) : Thread := if t.partOf 0 == f then t.answer page ok else t
  { s with
    sysCores := s.sysCores.map (fun c => { c with threads := c.threads.map tell })
    cores := s.cores.map (fun c => { c with
      threads := c.threads.map tell
      hamper :=
        { full := c.hamper.full.map (fun i => { i with threads := i.threads.map tell })
          images := c.hamper.images.map (fun i => { i with thread := tell i.thread }) } }) }

/-- PAGE_REQUEST_RESPONSE: success makes the page present and its accesses are made again; any other answer faults them with
reason 7; a response for no outstanding group of the current generation is discarded (R332, R333). -/
def execPageRequestResponse (f : FuncId) (grp : Fin 32) (gen : BitVec 4) (ok : Bool) (s : State) : Out :=
  let p := s.part f
  match (if gen = p.gen then p.groups.find? (fun g => g.index == grp) else none) with
  | none => .next (countDiscard s f)
  | some g =>
    let s := answerAll (s.modPart f (fun p => { p with groups := p.groups.filter (fun x => x.index != grp) })) f g.page ok
    let s := if ok then payOwed { s with hostAbsent := NatSet.del s.hostAbsent g.page } f else refuseTransfers s f g.page
    -- a suspended access that found no group free asks now
    let others := (s.cores.toList.map (fun c => c.threads.toList.filterMap (fun t =>
      match t.wait with | .hostPage q _ => if t.partOf 0 == f && q != g.page then some q else none | _ => none))).flatten
    .next (others.foldl (fun s q => requestPage s f q) s)

/-! ## Errors and links (R340 to R345, R335) -/

/-- A start has failed (R337, R338): counted and recorded; the next start begins. -/
def failStart (s : State) (stage reason : Nat) (digest : BitVec 512) : State :=
  let n := s.boot.failures + 1
  { s with boot := { s.boot with
      stage := 1, since := s.time.toNat, failures := n, minimal := decide (n ≥ 3), lastStage := stage, lastReason := reason
      lastDigest := digest, measurements := [] } }
/-- The stage under way has failed by itself: its image is the one measured last; the ROM's digest is in no register (R338; log 56). -/
def failStage (s : State) (reason : Nat) : State :=
  let (n, s) := s.draw
  failStart s s.boot.stage.val reason ((s.boot.measurements.getLast?).getD (Config.freeDigest n))

/-- MACHINE_CHECK_LOG (R342, R345); a fatal check before the module is ready fails the start (R337). -/
def execMachineCheckLog (e : McEvent) (s : State) : Out :=
  let s := logError s e
  .next (if e.sev = .fatal && s.boot.stage.val < 5 then failStage s 3 else s)

/-- Thread t of core k takes an asynchronous trap at its instruction boundary: a running block of its stops first, and an
instruction that waits part way through stops with stop = 1 (R311, R312, R188). -/
def asyncTrap (s : State) (k : CoreId) (t : Tid) (cause : BitVec 8) (tval : Word) : State :=
  let mine := match (s.core k).vec.block with | some b => b.tid == t && !b.stopped | none => false
  let s := if mine then s.modCore k Core.stopBlock else s
  let th := s.thr k t
  s.trapThr k t { mkTrap cause tval 0 with stop := th.vstart != 0, vblk := mine } th.pc

/-- The instruction of a thread does not stop for an asynchronous trap: a query part of which has been accepted (R100), or an mfill that
has begun (R312). -/
def State.occupied (s : State) (k : CoreId) (t : Tid) : Bool :=
  (s.accepting k t).isSome
    || (match (s.core k).mat.filling with | some f => f.tid == t | none => false)

/-- CONTAINED_MACHINE_CHECK: the oldest check of a thread is delivered as cause 0x17 (R341, R345). -/
def execContainedMachineCheck (k : CoreId) (t : Tid) (s : State) : Out :=
  match (s.thr k t).checks with
  | [] => .next s
  | c :: rest =>
    if s.occupied k t then .next s
    else
    let s := s.modThr k t (fun x => { x with checks := rest })
    .next (asyncTrap s k t 0x17 (BitVec.ofNat 64 (c.1.val + c.2.val * 8)))

/-- The lease-skew fault of a thread, as cause 0x08 (R63). -/
def deliverSkew (s : State) (k : CoreId) (t : Tid) : State :=
  match (s.thr k t).skewFault with
  | none => s
  | some d => if s.occupied k t then s else asyncTrap (s.modThr k t (fun x => { x with skewFault := none })) k t 0x08 (BitVec.ofInt 64 d)

/-- LINK_FAILURE: the link is down and a fatal machine check is logged (R335, R340, R343). -/
def execLinkFailure (port : Fin 17) (s : State) : Out :=
  let d : DieId := if h : port.val < 16 then ⟨port.val / 2, by omega⟩ else 0
  let s := if s.linksDown.contains port then s else { s with linksDown := s.linksDown ++ [port] }
  execMachineCheckLog { die := d, bank := 14, sev := .fatal, kind := 10, part := 0, ctx := 0, addr := none, core := 0, thread := 0
                        index := 0, synd := 0, poison := .none } s

/-- BACKGROUND_SCRUB: reads memory and writes back corrected data, so what memory holds does not change; corrected errors older than
its period no longer count (R340). -/
def execBackgroundScrub (s : State) : Out :=
  let recent (x : Corrected) : Corrected := { x with times := x.times.filter (fun t => decide (s.time.toNat < t + scrubPeriod)) }
  .next { s with corrected := (s.corrected.map recent).filter (fun x => !x.times.isEmpty) }

/-! ## Start-up (R54, R72, R337, R338, R342) -/

/-- The module after a reset: what lies outside it, or in non-volatile storage, is kept. -/
def restart (s : State) (banks : Vector (Vector Bank 16) 8) : State :=
  { State.reset with
    agenda := s.agenda, fresh := s.fresh, host := s.host, hostAbsent := s.hostAbsent, peers := s.peers, banks := banks
    seals := s.seals
    parts := State.reset.parts.zipWith (fun p q => { p with ivCtr := q.ivCtr }) s.parts
    boot := { Boot.reset with
      failures := s.boot.failures, minimal := decide (s.boot.failures ≥ 3), lastStage := s.boot.lastStage
      lastReason := s.boot.lastReason, lastDigest := s.boot.lastDigest } }

/-- POWER_ON_RESET: every register and granule at its reset value; start-up begins (R3, R72, R337). -/
def execPowerOnReset (s : State) : Out := .next (restart s State.reset.banks)
/-- MODULE_RESET: the module restarts; the banks keep their contents (R342). -/
def execModuleReset (s : State) : Out := .next (restart s s.banks)

/-- A stage must report ready within 30 s of its start (R337). -/
def stageLate (s : State) : Bool := decide (s.boot.since + 30000000000 ≤ s.time.toNat)
/-- BOOT_STAGE_TIMEOUT: the stage under way has not reported ready within 30 s (R337). -/
def execBootStageTimeout (s : State) : Out :=
  if s.boot.stage.val = 0 || s.boot.stage.val ≥ 5 || !stageLate s then .next s else .next (failStage s 2)

/-- BOOT_STAGE_READY: the stage under way reports the images that it has verified: the trusted firmware, the untrusted firmware, or
every option image. Their digests are extended into the measurement registers; the untrusted firmware's report makes the module ready
and clears the count. When `verified` is false, the last of the images has failed (R337, R338; log 56). -/
def execBootStageReady (images : List (BitVec 512)) (verified : Bool) (s : State) : Out :=
  let b := s.boot
  if b.stage.val = 0 || b.stage.val > 3 || (b.stage.val < 3 && images.length != 1) then .next s
  else if stageLate s then .next (failStage s 2)
  else if !verified then
    match images.getLast? with
    | some d => .next (failStart s (if b.stage = 3 then 4 else b.stage.val) 1 d)
    | none => .next s
  else
    let b := { b with since := s.time.toNat, measurements := b.measurements ++ images }
    .next { s with boot := if b.stage = 3 then { b with stage := 5, failures := 0, minimal := false } else { b with stage := b.stage + 1 } }

/-! ## Accesses from outside (R61, R167, R169, R347) -/

/-- INBOUND_POSTED_WRITE: the endpoint performs a posted write that it has received: one without Relaxed Ordering only once no earlier
such write of its function is left (R169). -/
def execInboundPostedWrite (f : FuncId) (pa : Nat) (bytes : List Byte) (relaxed : Bool) (s : State) : Out :=
  match s.inbound.findIdx? (fun x => x == ⟨f, pa, bytes, relaxed⟩) with
  | none => .next s
  | some i =>
    if !relaxed && (s.inbound.take i).any (fun x => x.fn == f && !x.relaxed) then .next s
    else .next (outsideWrite { s with inbound := s.inbound.eraseIdx i } pa bytes)

/-- A peer's access as an atomic: member, address, width, operand and comparand; none for a plain read or write. -/
def peerAtomic (o : PeerOp) : Option (AtomOp × Nat × Width × Word × Word) :=
  match o with
  | .read _ _ => none | .write _ _ _ => none
  | .add pa w v => some (.add, pa, w, v, 0) | .swap pa w v => some (.swap, pa, w, v, 0)
  | .and pa w v => some (.and, pa, w, v, 0) | .or pa w v => some (.or, pa, w, v, 0) | .xor pa w v => some (.xor, pa, w, v, 0)
  | .min pa w v => some (.min, pa, w, v, 0) | .max pa w v => some (.max, pa, w, v, 0)
  | .minw pa w v => some (.minw, pa, w, v, 0) | .maxw pa w v => some (.maxw, pa, w, v, 0)
  | .cas pa w c v => some (.cas, pa, w, v, c)

/-- CHOAH_PEER_ACCESS: a peer's access, performed at this module's memory (R39, R157, R167); a link that is down carries none, and in
minimal mode the links are off (R335, R338). -/
def execChoahPeerAccess (port : Fin 16) (op : PeerOp) (s : State) : Out :=
  if s.boot.minimal || s.linksDown.contains ⟨port.val, by omega⟩ then .next s
  else match op, peerAtomic op with
    | .write pa w v, _ => .next (outsideWrite s pa (leBytes (Width.bytes w) v.toNat))
    | _, some (o, pa, w, v, c) =>
      let n := Width.bytes w
      let m := 2 ^ (8 * n)
      match o.value (8 * n) (leNat (tgtRead s (.wm pa) n).1) (v.toNat % m) (c.toNat % m) with
      | some x => .next (outsideWrite s pa (leBytes n x))
      | none => .next s
    | _, none => .next s

/-- ATS_INVALIDATION (R61): of a page of the function's address space. -/
def execAtsInvalidation (f : FuncId) (page : Nat) (s : State) : Out :=
  .next { s with ats := s.ats.filter (fun x => x != (f, hostKey f (page * 4096) / 4096)) }

/-- DEBUG_ENABLE_REQUEST: debug of a partition's cores is enabled in answer to an authenticated request (R347). -/
def execDebugEnableRequest (f : FuncId) (authentic : Bool) (s : State) : Out :=
  if authentic then .next (s.modPart f (fun p => { p with debugOn := true })) else .next s

end Sys2Proof.Machine
end

