-- ==== Sys2Proof/Machine/Scalar.lean ====
section
/-!
DEFINITION. Scalar integer instructions, control transfer, the hardware loop and bstrip (spec 11 R191 to R203).
-/

namespace Sys2Proof.Machine

/-- Full signed product (R192 mulh). -/
def mulhS (a b : Word) : Word := BitVec.ofInt 64 (a.toInt * b.toInt / (2 ^ 64 : Nat))
/-- Full unsigned product (R192 mulhw). -/
def mulhU (a b : Word) : Word := BitVec.ofNat 64 (a.toNat * b.toNat / 2 ^ 64)
/-- Signed quotient (R192): all ones for a zero divisor. -/
def divS (a b : Word) : Word := if b = 0 then BitVec.allOnes 64 else BitVec.ofInt 64 (a.toInt.tdiv b.toInt)
/-- Unsigned quotient (R192). -/
def divU (a b : Word) : Word := if b = 0 then BitVec.allOnes 64 else BitVec.ofNat 64 (a.toNat / b.toNat)
/-- Signed remainder (R192): a for a zero divisor. -/
def remS (a b : Word) : Word := if b = 0 then a else BitVec.ofInt 64 (a.toInt.tmod b.toInt)
/-- Unsigned remainder (R192). -/
def remU (a b : Word) : Word := if b = 0 then a else BitVec.ofNat 64 (a.toNat % b.toNat)
/-- A shift count: the low six bits (R192). -/
def shCount (b : Word) : Nat := b.toNat % 64

/-- add (R192). -/
def execAdd (d a b : SReg) (s : State) : Out := alu2 d a b (fun x y => x + y) s
/-- sub (R192). -/
def execSub (d a b : SReg) (s : State) : Out := alu2 d a b (fun x y => x - y) s
/-- mul (R192). -/
def execMul (d a b : SReg) (s : State) : Out := alu2 d a b (fun x y => x * y) s
/-- mulh (R192). -/
def execMulh (d a b : SReg) (s : State) : Out := alu2 d a b mulhS s
/-- mulhw (R192). -/
def execMulhw (d a b : SReg) (s : State) : Out := alu2 d a b mulhU s
/-- div (R192). -/
def execDiv (d a b : SReg) (s : State) : Out := alu2 d a b divS s
/-- divw (R192). -/
def execDivw (d a b : SReg) (s : State) : Out := alu2 d a b divU s
/-- rem (R192). -/
def execRem (d a b : SReg) (s : State) : Out := alu2 d a b remS s
/-- remw (R192). -/
def execRemw (d a b : SReg) (s : State) : Out := alu2 d a b remU s
/-- and (R192). -/
def execAnd (d a b : SReg) (s : State) : Out := alu2 d a b (fun x y => x &&& y) s
/-- or (R192). -/
def execOr (d a b : SReg) (s : State) : Out := alu2 d a b (fun x y => x ||| y) s
/-- xor (R192). -/
def execXor (d a b : SReg) (s : State) : Out := alu2 d a b (fun x y => x ^^^ y) s
/-- andn (R192). -/
def execAndn (d a b : SReg) (s : State) : Out := alu2 d a b (fun x y => x &&& ~~~y) s
/-- sll (R192). -/
def execSll (d a b : SReg) (s : State) : Out := alu2 d a b (fun x y => x <<< shCount y) s
/-- srl (R192). -/
def execSrl (d a b : SReg) (s : State) : Out := alu2 d a b (fun x y => x >>> shCount y) s
/-- sra (R192). -/
def execSra (d a b : SReg) (s : State) : Out := alu2 d a b (fun x y => x.sshiftRight (shCount y)) s
/-- rotl (R192). -/
def execRotl (d a b : SReg) (s : State) : Out := alu2 d a b (fun x y => x.rotateLeft (shCount y)) s
/-- slt (R192). -/
def execSlt (d a b : SReg) (s : State) : Out := alu2 d a b (fun x y => ofBool (x.slt y)) s
/-- sltw (R192). -/
def execSltw (d a b : SReg) (s : State) : Out := alu2 d a b (fun x y => ofBool (x.ult y)) s
/-- min (R192). -/
def execMin (d a b : SReg) (s : State) : Out := alu2 d a b (fun x y => if x.slt y then x else y) s
/-- max (R192). -/
def execMax (d a b : SReg) (s : State) : Out := alu2 d a b (fun x y => if x.slt y then y else x) s
/-- minw (R192). -/
def execMinw (d a b : SReg) (s : State) : Out := alu2 d a b (fun x y => if x.ult y then x else y) s
/-- maxw (R192). -/
def execMaxw (d a b : SReg) (s : State) : Out := alu2 d a b (fun x y => if x.ult y then y else x) s

/-- slli (R193). -/
def execSlli (d a : SReg) (sh : BitVec 6) (s : State) : Out := alu1 d a (fun x => x <<< sh.toNat) s
/-- srli (R193). -/
def execSrli (d a : SReg) (sh : BitVec 6) (s : State) : Out := alu1 d a (fun x => x >>> sh.toNat) s
/-- srai (R193). -/
def execSrai (d a : SReg) (sh : BitVec 6) (s : State) : Out := alu1 d a (fun x => x.sshiftRight sh.toNat) s
/-- rotli (R193). -/
def execRotli (d a : SReg) (sh : BitVec 6) (s : State) : Out := alu1 d a (fun x => x.rotateLeft sh.toNat) s

/-- Zero bits of the low n bits of x above its top set bit (R194 clz). -/
def clzOf (n x : Nat) : Nat := if x = 0 then n else n - 1 - Nat.log2 x
/-- Zero bits of x below its lowest set bit, n for none (R194 ctz). -/
def ctzOf : Nat → Nat → Nat
  | 0, _ => 0
  | n + 1, x => if x % 2 = 1 then 0 else 1 + ctzOf n (x / 2)
/-- Set bits among the low n (R194 popc). -/
def popcOf : Nat → Nat → Nat
  | 0, _ => 0
  | n + 1, x => x % 2 + popcOf n (x / 2)
/-- The eight bytes in reverse order (R194 bswap). -/
def byteSwap (x : Word) : Word := BitVec.ofNat 64 (leNat (leBytes 8 x.toNat).reverse)

/-- clz (R194). -/
def execClz (d a : SReg) (s : State) : Out := alu1 d a (fun x => BitVec.ofNat 64 (clzOf 64 x.toNat)) s
/-- ctz (R194). -/
def execCtz (d a : SReg) (s : State) : Out := alu1 d a (fun x => BitVec.ofNat 64 (ctzOf 64 x.toNat)) s
/-- popc (R194). -/
def execPopc (d a : SReg) (s : State) : Out := alu1 d a (fun x => BitVec.ofNat 64 (popcOf 64 x.toNat)) s
/-- sextb (R194). -/
def execSextb (d a : SReg) (s : State) : Out := alu1 d a (fun x => (x.truncate 8).signExtend 64) s
/-- sexth (R194). -/
def execSexth (d a : SReg) (s : State) : Out := alu1 d a (fun x => (x.truncate 16).signExtend 64) s
/-- sextw (R194). -/
def execSextw (d a : SReg) (s : State) : Out := alu1 d a (fun x => (x.truncate 32).signExtend 64) s
/-- zextw (R194). -/
def execZextw (d a : SReg) (s : State) : Out := alu1 d a (fun x => (x.truncate 32).zeroExtend 64) s
/-- bswap (R194). -/
def execBswap (d a : SReg) (s : State) : Out := alu1 d a byteSwap s

/-- addi (R195). -/
def execAddi (d a : SReg) (imm : BitVec 16) (s : State) : Out := alu1 d a (fun x => x + simm imm) s
/-- andi (R195). -/
def execAndi (d a : SReg) (imm : BitVec 16) (s : State) : Out := alu1 d a (fun x => x &&& uimm imm) s
/-- ori (R195). -/
def execOri (d a : SReg) (imm : BitVec 16) (s : State) : Out := alu1 d a (fun x => x ||| uimm imm) s
/-- xori (R195). -/
def execXori (d a : SReg) (imm : BitVec 16) (s : State) : Out := alu1 d a (fun x => x ^^^ uimm imm) s
/-- slti (R195). -/
def execSlti (d a : SReg) (imm : BitVec 16) (s : State) : Out := alu1 d a (fun x => ofBool (x.slt (simm imm))) s
/-- sltwi (R195). -/
def execSltwi (d a : SReg) (imm : BitVec 16) (s : State) : Out := alu1 d a (fun x => ofBool (x.ult (uimm imm))) s

/-- lui (R196). -/
def execLui (d : SReg) (imm : BitVec 21) (s : State) : Out := .next (s.finish d (simm imm <<< 16))
/-- aupc (R196). -/
def execAupc (d : SReg) (imm : BitVec 21) (s : State) : Out := .next (s.finish d (s.cur.pc + simm imm <<< 16))

/-- jal (R197, R199). -/
def execJal (d : SReg) (off : BitVec 21) (s : State) : Out := transfer s (s.cur.pc + wordOff off) (some d) false
/-- jalr (R197, R199). -/
def execJalr (d a : SReg) (off : BitVec 16) (s : State) : Out := transfer s (s.sreg a + simm off) (some d) true

/-- beq (R198). -/
def execBeq (a b : SReg) (off : BitVec 13) (s : State) : Out := branch (fun x y => x == y) a b off s
/-- bne (R198). -/
def execBne (a b : SReg) (off : BitVec 13) (s : State) : Out := branch (fun x y => x != y) a b off s
/-- blt (R198). -/
def execBlt (a b : SReg) (off : BitVec 13) (s : State) : Out := branch (fun x y => x.slt y) a b off s
/-- bge (R198). -/
def execBge (a b : SReg) (off : BitVec 13) (s : State) : Out := branch (fun x y => !x.slt y) a b off s
/-- bltw (R198). -/
def execBltw (a b : SReg) (off : BitVec 13) (s : State) : Out := branch (fun x y => x.ult y) a b off s
/-- bgew (R198). -/
def execBgew (a b : SReg) (off : BitVec 13) (s : State) : Out := branch (fun x y => !x.ult y) a b off s

/-- loop (R200): a zero count skips the body, otherwise the loop CSRs are set and the loop is active. -/
def execLoop (a : SReg) (off : BitVec 16) (s : State) : Out :=
  let n := s.sreg a
  let pc := s.cur.pc
  let last := pc + uimm off * 4
  if n = 0 then transfer s (last + 4) none false
  else .next (s.modCur (fun t => { t with lc := n - 1, ls := pc + 4, le := last, loopOff := false, pc := pc + 4 }))

/-- bstrip (R203). -/
def execBstrip (a : SReg) (off : BitVec 13) (s : State) : Out :=
  let n := s.sreg a
  let head := s.cur.pc + wordOff off
  if n = 0 then .next (s.modCur (fun t => { t with spv := BitVec.allOnes 64, spn := 0 })).advance
  else
    let spn : BitVec 2 := if n.ult s.cur.spv then 0 else s.cur.spn + 1
    if spn = 2 then raise (s.modCur (fun t => { t with spn := 0 })) 0x10 head (s.cur.vl.zeroExtend 64)
    else if !canonical head then raise s 0x0C head 0
    else .next ((s.modCur (fun t => { t with spn := spn, spv := n })).jump head)

end Sys2Proof.Machine
end

