-- ==== Sys2Proof/Machine/ScalarFp.lean ====
section
/-!
DEFINITION. Scalar floating point (spec 11 R204 to R207).
-/

namespace Sys2Proof.Machine

/-- The operand bits of a scalar floating type (R204). -/
def fpBits (t : SfpType) (x : Word) : Nat := x.toNat % 2 ^ t.elem.bits
/-- The operand's value. -/
def fpVal (t : SfpType) (x : Word) : FVal := fval t.elem (fpBits t x)

/-- A rounding member of two operands. -/
def fpArith2 (f : ElemType → Rounding → FVal → FVal → NRes) (d a b : SReg) (t : SfpType) (rm : RmField) (s : State) : Out :=
  let r := f t.elem (RmField.get rm (frmMode s.cur.frm)) (fpVal t (s.sreg a)) (fpVal t (s.sreg b))
  finishFp s d r.bits r.flags

/-- fadd (R205). -/
def execFadd (d a b : SReg) (t : SfpType) (rm : RmField) (s : State) : Out := fpArith2 addVal d a b t rm s
/-- fsub (R205). -/
def execFsub (d a b : SReg) (t : SfpType) (rm : RmField) (s : State) : Out := fpArith2 subVal d a b t rm s
/-- fmul (R205). -/
def execFmul (d a b : SReg) (t : SfpType) (rm : RmField) (s : State) : Out := fpArith2 mulVal d a b t rm s
/-- fdiv (R205). -/
def execFdiv (d a b : SReg) (t : SfpType) (rm : RmField) (s : State) : Out := fpArith2 divVal d a b t rm s
/-- fsqrt (R205). -/
def execFsqrt (d a : SReg) (t : SfpType) (rm : RmField) (s : State) : Out :=
  let r := sqrtVal t.elem (RmField.get rm (frmMode s.cur.frm)) (fpVal t (s.sreg a))
  finishFp s d r.bits r.flags
/-- fmin (R205). -/
def execFmin (d a b : SReg) (t : SfpType) (s : State) : Out :=
  let r := minMaxBits t.elem false (fpBits t (s.sreg a)) (fpBits t (s.sreg b))
  finishFp s d r.bits r.flags
/-- fmax (R205). -/
def execFmax (d a b : SReg) (t : SfpType) (s : State) : Out :=
  let r := minMaxBits t.elem true (fpBits t (s.sreg a)) (fpBits t (s.sreg b))
  finishFp s d r.bits r.flags
/-- fmacc: s[d] + a·b, fused (R205). -/
def execFmacc (d a b : SReg) (t : SfpType) (rm : RmField) (s : State) : Out :=
  let r := fmaVal t.elem (RmField.get rm (frmMode s.cur.frm)) (fpVal t (s.sreg a)) (fpVal t (s.sreg b)) (fpVal t (s.sreg d))
  finishFp s d r.bits r.flags
/-- A comparison: equality signals on a signalling NaN only, the others on any NaN (R205). -/
def fpCompare (c : FVal → FVal → Bool) (quiet : Bool) (d a b : SReg) (t : SfpType) (s : State) : Out :=
  let x := fpVal t (s.sreg a)
  let y := fpVal t (s.sreg b)
  let nan := x.isNan || y.isNan
  let fl := if quiet then snanFlags [x, y] else if nan then flNV else 0
  finishFp s d (if !nan && c x y then 1 else 0) fl
/-- fcmpeq (R205). -/
def execFcmpeq (d a b : SReg) (t : SfpType) (s : State) : Out := fpCompare ieeeEq true d a b t s
/-- fcmplt (R205). -/
def execFcmplt (d a b : SReg) (t : SfpType) (s : State) : Out := fpCompare ieeeLt false d a b t s
/-- fcmple (R205). -/
def execFcmple (d a b : SReg) (t : SfpType) (s : State) : Out := fpCompare (fun x y => ieeeLt x y || ieeeEq x y) false d a b t s
/-- fclass (R205). -/
def execFclass (d a : SReg) (t : SfpType) (s : State) : Out :=
  finishFp s d (classMask t.elem (fpBits t (s.sreg a))) 0
/-- fcvt (R206). A 32-bit signed result is sign-extended into the register. -/
def execFcvt (d a : SReg) (other : ElemType) (toInt : Bool) (t : SfpType) (rm : RmField) (s : State) : Out :=
  let m := RmField.get rm (frmMode s.cur.frm)
  let x := s.sreg a
  if toInt then
    let r := convToInt other m false (fpVal t x)
    let v := if other = .i32 then (sext64 32 r.bits).toNat else r.bits
    finishFp s d v r.flags
  else if other.isInt then
    let r := convFromInt t.elem m false (intVal other (x.toNat % 2 ^ other.bits))
    finishFp s d r.bits r.flags
  else
    let r := convFloat t.elem m false (fval other (x.toNat % 2 ^ other.bits))
    finishFp s d r.bits r.flags

end Sys2Proof.Machine
end

