-- ==== Sys2Proof/Machine/Dispatch.lean ====
section
/-!
DEFINITION. The one match from an instruction or event to its meaning.
-/

namespace Sys2Proof.Machine

/-- The meaning of an instruction executed by the current thread, or of an event of the module. -/
def exec (i : Instr) (s : State) : Host.Outcome State Fault Refusal :=
  match i with
  | .add d a b => Sys2Proof.Machine.execAdd d a b s
  | .sub d a b => Sys2Proof.Machine.execSub d a b s
  | .mul d a b => Sys2Proof.Machine.execMul d a b s
  | .mulh d a b => Sys2Proof.Machine.execMulh d a b s
  | .mulhw d a b => Sys2Proof.Machine.execMulhw d a b s
  | .div d a b => Sys2Proof.Machine.execDiv d a b s
  | .divw d a b => Sys2Proof.Machine.execDivw d a b s
  | .rem d a b => Sys2Proof.Machine.execRem d a b s
  | .remw d a b => Sys2Proof.Machine.execRemw d a b s
  | .and d a b => Sys2Proof.Machine.execAnd d a b s
  | .or d a b => Sys2Proof.Machine.execOr d a b s
  | .xor d a b => Sys2Proof.Machine.execXor d a b s
  | .andn d a b => Sys2Proof.Machine.execAndn d a b s
  | .sll d a b => Sys2Proof.Machine.execSll d a b s
  | .srl d a b => Sys2Proof.Machine.execSrl d a b s
  | .sra d a b => Sys2Proof.Machine.execSra d a b s
  | .rotl d a b => Sys2Proof.Machine.execRotl d a b s
  | .slt d a b => Sys2Proof.Machine.execSlt d a b s
  | .sltw d a b => Sys2Proof.Machine.execSltw d a b s
  | .min d a b => Sys2Proof.Machine.execMin d a b s
  | .max d a b => Sys2Proof.Machine.execMax d a b s
  | .minw d a b => Sys2Proof.Machine.execMinw d a b s
  | .maxw d a b => Sys2Proof.Machine.execMaxw d a b s
  | .slli d a sh => Sys2Proof.Machine.execSlli d a sh s
  | .srli d a sh => Sys2Proof.Machine.execSrli d a sh s
  | .srai d a sh => Sys2Proof.Machine.execSrai d a sh s
  | .rotli d a sh => Sys2Proof.Machine.execRotli d a sh s
  | .clz d a => Sys2Proof.Machine.execClz d a s
  | .ctz d a => Sys2Proof.Machine.execCtz d a s
  | .popc d a => Sys2Proof.Machine.execPopc d a s
  | .sextb d a => Sys2Proof.Machine.execSextb d a s
  | .sexth d a => Sys2Proof.Machine.execSexth d a s
  | .sextw d a => Sys2Proof.Machine.execSextw d a s
  | .zextw d a => Sys2Proof.Machine.execZextw d a s
  | .bswap d a => Sys2Proof.Machine.execBswap d a s
  | .addi d a imm => Sys2Proof.Machine.execAddi d a imm s
  | .andi d a imm => Sys2Proof.Machine.execAndi d a imm s
  | .ori d a imm => Sys2Proof.Machine.execOri d a imm s
  | .xori d a imm => Sys2Proof.Machine.execXori d a imm s
  | .slti d a imm => Sys2Proof.Machine.execSlti d a imm s
  | .sltwi d a imm => Sys2Proof.Machine.execSltwi d a imm s
  | .lui d imm => Sys2Proof.Machine.execLui d imm s
  | .aupc d imm => Sys2Proof.Machine.execAupc d imm s
  | .jal d off => Sys2Proof.Machine.execJal d off s
  | .jalr d a off => Sys2Proof.Machine.execJalr d a off s
  | .beq a b off => Sys2Proof.Machine.execBeq a b off s
  | .bne a b off => Sys2Proof.Machine.execBne a b off s
  | .blt a b off => Sys2Proof.Machine.execBlt a b off s
  | .bge a b off => Sys2Proof.Machine.execBge a b off s
  | .bltw a b off => Sys2Proof.Machine.execBltw a b off s
  | .bgew a b off => Sys2Proof.Machine.execBgew a b off s
  | .loop a off => Sys2Proof.Machine.execLoop a off s
  | .bstrip a off => Sys2Proof.Machine.execBstrip a off s
  | .mark a => Sys2Proof.Machine.execMark a s
  | .csrr d csr => Sys2Proof.Machine.execCsrr d csr s
  | .csrw d a csr => Sys2Proof.Machine.execCsrw d a csr s
  | .csrs d a csr => Sys2Proof.Machine.execCsrs d a csr s
  | .csrc d a csr => Sys2Proof.Machine.execCsrc d a csr s
  | .fadd d a b t rm => Sys2Proof.Machine.execFadd d a b t rm s
  | .fsub d a b t rm => Sys2Proof.Machine.execFsub d a b t rm s
  | .fmul d a b t rm => Sys2Proof.Machine.execFmul d a b t rm s
  | .fdiv d a b t rm => Sys2Proof.Machine.execFdiv d a b t rm s
  | .fsqrt d a t rm => Sys2Proof.Machine.execFsqrt d a t rm s
  | .fmin d a b t => Sys2Proof.Machine.execFmin d a b t s
  | .fmax d a b t => Sys2Proof.Machine.execFmax d a b t s
  | .fmacc d a b t rm => Sys2Proof.Machine.execFmacc d a b t rm s
  | .fcmpeq d a b t => Sys2Proof.Machine.execFcmpeq d a b t s
  | .fcmplt d a b t => Sys2Proof.Machine.execFcmplt d a b t s
  | .fcmple d a b t => Sys2Proof.Machine.execFcmple d a b t s
  | .fclass d a t => Sys2Proof.Machine.execFclass d a t s
  | .fcvt d a other toInt t rm => Sys2Proof.Machine.execFcvt d a other toInt t rm s
  | .ld d a sz off => Sys2Proof.Machine.execLd d a sz off s
  | .ldz d a sz off => Sys2Proof.Machine.execLdz d a sz off s
  | .st d a sz off => Sys2Proof.Machine.execSt d a sz off s
  | .lds d a sz qf off => Sys2Proof.Machine.execLds d a sz qf off s
  | .sts d a sz qf off => Sys2Proof.Machine.execSts d a sz qf off s
  | .amoswap d a b ord sc dbl spad => Sys2Proof.Machine.execAmoswap d a b ord sc dbl spad s
  | .amoadd d a b ord sc dbl spad => Sys2Proof.Machine.execAmoadd d a b ord sc dbl spad s
  | .amoand d a b ord sc dbl spad => Sys2Proof.Machine.execAmoand d a b ord sc dbl spad s
  | .amoor d a b ord sc dbl spad => Sys2Proof.Machine.execAmoor d a b ord sc dbl spad s
  | .amoxor d a b ord sc dbl spad => Sys2Proof.Machine.execAmoxor d a b ord sc dbl spad s
  | .amomin d a b ord sc dbl spad => Sys2Proof.Machine.execAmomin d a b ord sc dbl spad s
  | .amomax d a b ord sc dbl spad => Sys2Proof.Machine.execAmomax d a b ord sc dbl spad s
  | .amominw d a b ord sc dbl spad => Sys2Proof.Machine.execAmominw d a b ord sc dbl spad s
  | .amomaxw d a b ord sc dbl spad => Sys2Proof.Machine.execAmomaxw d a b ord sc dbl spad s
  | .amocas d a b ord sc dbl spad => Sys2Proof.Machine.execAmocas d a b ord sc dbl spad s
  | .fence kind sc => Sys2Proof.Machine.execFence kind sc s
  | .bar a => Sys2Proof.Machine.execBar a s
  | .barr d a => Sys2Proof.Machine.execBarr d a s
  | .barw a b => Sys2Proof.Machine.execBarw a b s
  | .waitge a b => Sys2Proof.Machine.execWaitge a b s
  | .sigadd a b => Sys2Proof.Machine.execSigadd a b s
  | .waitt a => Sys2Proof.Machine.execWaitt a s
  | .vsetvl d a vt => Sys2Proof.Machine.execVsetvl d a vt s
  | .vadd vd va vb rep mk => Sys2Proof.Machine.execVadd vd va vb rep mk s
  | .vsub vd va vb rep mk => Sys2Proof.Machine.execVsub vd va vb rep mk s
  | .vrsub vd va vb rep mk => Sys2Proof.Machine.execVrsub vd va vb rep mk s
  | .vmul vd va vb rep mk => Sys2Proof.Machine.execVmul vd va vb rep mk s
  | .vmulh vd va vb rep mk => Sys2Proof.Machine.execVmulh vd va vb rep mk s
  | .vmulhw vd va vb rep mk => Sys2Proof.Machine.execVmulhw vd va vb rep mk s
  | .vand vd va vb rep mk => Sys2Proof.Machine.execVand vd va vb rep mk s
  | .vor vd va vb rep mk => Sys2Proof.Machine.execVor vd va vb rep mk s
  | .vxor vd va vb rep mk => Sys2Proof.Machine.execVxor vd va vb rep mk s
  | .vsll vd va vb rep mk => Sys2Proof.Machine.execVsll vd va vb rep mk s
  | .vsrl vd va vb rep mk => Sys2Proof.Machine.execVsrl vd va vb rep mk s
  | .vsra vd va vb rep mk => Sys2Proof.Machine.execVsra vd va vb rep mk s
  | .vmin vd va vb rep mk => Sys2Proof.Machine.execVmin vd va vb rep mk s
  | .vmax vd va vb rep mk => Sys2Proof.Machine.execVmax vd va vb rep mk s
  | .vminw vd va vb rep mk => Sys2Proof.Machine.execVminw vd va vb rep mk s
  | .vmaxw vd va vb rep mk => Sys2Proof.Machine.execVmaxw vd va vb rep mk s
  | .vabsd vd va vb rep mk => Sys2Proof.Machine.execVabsd vd va vb rep mk s
  | .vsadd vd va vb rep mk => Sys2Proof.Machine.execVsadd vd va vb rep mk s
  | .vssub vd va vb rep mk => Sys2Proof.Machine.execVssub vd va vb rep mk s
  | .vsaddw vd va vb rep mk => Sys2Proof.Machine.execVsaddw vd va vb rep mk s
  | .vssubw vd va vb rep mk => Sys2Proof.Machine.execVssubw vd va vb rep mk s
  | .vmacc vd va vb rep mk => Sys2Proof.Machine.execVmacc vd va vb rep mk s
  | .vnmsac vd va vb rep mk => Sys2Proof.Machine.execVnmsac vd va vb rep mk s
  | .vdot4 vd va vb rep mk => Sys2Proof.Machine.execVdot4 vd va vb rep mk s
  | .vdot4w vd va vb rep mk => Sys2Proof.Machine.execVdot4w vd va vb rep mk s
  | .vrshr vd va vb rep mk => Sys2Proof.Machine.execVrshr vd va vb rep mk s
  | .vnclip vd va vb rep mk => Sys2Proof.Machine.execVnclip vd va vb rep mk s
  | .vnclipw vd va vb rep mk => Sys2Proof.Machine.execVnclipw vd va vb rep mk s
  | .vfadd vd va vb rep mk => Sys2Proof.Machine.execVfadd vd va vb rep mk s
  | .vfsub vd va vb rep mk => Sys2Proof.Machine.execVfsub vd va vb rep mk s
  | .vfmul vd va vb rep mk => Sys2Proof.Machine.execVfmul vd va vb rep mk s
  | .vfdiv vd va vb rep mk => Sys2Proof.Machine.execVfdiv vd va vb rep mk s
  | .vfsqrt vd va mk => Sys2Proof.Machine.execVfsqrt vd va mk s
  | .vfmin vd va vb rep mk => Sys2Proof.Machine.execVfmin vd va vb rep mk s
  | .vfmax vd va vb rep mk => Sys2Proof.Machine.execVfmax vd va vb rep mk s
  | .vfmacc vd va vb rep mk => Sys2Proof.Machine.execVfmacc vd va vb rep mk s
  | .vfnmacc vd va vb rep mk => Sys2Proof.Machine.execVfnmacc vd va vb rep mk s
  | .vfmsac vd va vb rep mk => Sys2Proof.Machine.execVfmsac vd va vb rep mk s
  | .vfabs vd va mk => Sys2Proof.Machine.execVfabs vd va mk s
  | .vfneg vd va mk => Sys2Proof.Machine.execVfneg vd va mk s
  | .vfsgnj vd va vb rep mk => Sys2Proof.Machine.execVfsgnj vd va vb rep mk s
  | .vfexp2 vd va mk => Sys2Proof.Machine.execVfexp2 vd va mk s
  | .vfrcp vd va mk => Sys2Proof.Machine.execVfrcp vd va mk s
  | .vfclass vd va mk => Sys2Proof.Machine.execVfclass vd va mk s
  | .vcmpeq md va vb rep mk => Sys2Proof.Machine.execVcmpeq md va vb rep mk s
  | .vcmpne md va vb rep mk => Sys2Proof.Machine.execVcmpne md va vb rep mk s
  | .vcmplt md va vb rep mk => Sys2Proof.Machine.execVcmplt md va vb rep mk s
  | .vcmple md va vb rep mk => Sys2Proof.Machine.execVcmple md va vb rep mk s
  | .vcmpgt md va vb rep mk => Sys2Proof.Machine.execVcmpgt md va vb rep mk s
  | .vcmpge md va vb rep mk => Sys2Proof.Machine.execVcmpge md va vb rep mk s
  | .vcmpltw md va vb rep mk => Sys2Proof.Machine.execVcmpltw md va vb rep mk s
  | .vcmplew md va vb rep mk => Sys2Proof.Machine.execVcmplew md va vb rep mk s
  | .vcmpgtw md va vb rep mk => Sys2Proof.Machine.execVcmpgtw md va vb rep mk s
  | .vcmpgew md va vb rep mk => Sys2Proof.Machine.execVcmpgew md va vb rep mk s
  | .vfcmpeq md va vb rep mk => Sys2Proof.Machine.execVfcmpeq md va vb rep mk s
  | .vfcmpne md va vb rep mk => Sys2Proof.Machine.execVfcmpne md va vb rep mk s
  | .vfcmplt md va vb rep mk => Sys2Proof.Machine.execVfcmplt md va vb rep mk s
  | .vfcmple md va vb rep mk => Sys2Proof.Machine.execVfcmple md va vb rep mk s
  | .vfcmpgt md va vb rep mk => Sys2Proof.Machine.execVfcmpgt md va vb rep mk s
  | .vfcmpge md va vb rep mk => Sys2Proof.Machine.execVfcmpge md va vb rep mk s
  | .vmand md ma mb => Sys2Proof.Machine.execVmand md ma mb s
  | .vmor md ma mb => Sys2Proof.Machine.execVmor md ma mb s
  | .vmxor md ma mb => Sys2Proof.Machine.execVmxor md ma mb s
  | .vmandn md ma mb => Sys2Proof.Machine.execVmandn md ma mb s
  | .vmnot md ma => Sys2Proof.Machine.execVmnot md ma s
  | .vmset md => Sys2Proof.Machine.execVmset md s
  | .vmclr md => Sys2Proof.Machine.execVmclr md s
  | .vmsbf md ma => Sys2Proof.Machine.execVmsbf md ma s
  | .viota vd ma => Sys2Proof.Machine.execViota vd ma s
  | .vmcnt d ma => Sys2Proof.Machine.execVmcnt d ma s
  | .vmany d ma => Sys2Proof.Machine.execVmany d ma s
  | .vmfirst d ma => Sys2Proof.Machine.execVmfirst d ma s
  | .vmfm md => Sys2Proof.Machine.execVmfm md s
  | .vredsum vd va vb mk => Sys2Proof.Machine.execVredsum vd va vb mk s
  | .vredmax vd va vb mk => Sys2Proof.Machine.execVredmax vd va vb mk s
  | .vredmin vd va vb mk => Sys2Proof.Machine.execVredmin vd va vb mk s
  | .vredmaxw vd va vb mk => Sys2Proof.Machine.execVredmaxw vd va vb mk s
  | .vredminw vd va vb mk => Sys2Proof.Machine.execVredminw vd va vb mk s
  | .vredand vd va vb mk => Sys2Proof.Machine.execVredand vd va vb mk s
  | .vredor vd va vb mk => Sys2Proof.Machine.execVredor vd va vb mk s
  | .vfredsum vd va vb mk => Sys2Proof.Machine.execVfredsum vd va vb mk s
  | .vfredusum vd va vb mk => Sys2Proof.Machine.execVfredusum vd va vb mk s
  | .vfredmax vd va vb mk => Sys2Proof.Machine.execVfredmax vd va vb mk s
  | .vfredmin vd va vb mk => Sys2Proof.Machine.execVfredmin vd va vb mk s
  | .vbscale vd va vb mk => Sys2Proof.Machine.execVbscale vd va vb mk s
  | .vslideup vd va b mk => Sys2Proof.Machine.execVslideup vd va b mk s
  | .vslidedn vd va b mk => Sys2Proof.Machine.execVslidedn vd va b mk s
  | .vrgather vd va vb mk => Sys2Proof.Machine.execVrgather vd va vb mk s
  | .vcompress vd va mb => Sys2Proof.Machine.execVcompress vd va mb s
  | .vmv vd va mk => Sys2Proof.Machine.execVmv vd va mk s
  | .vmvsx vd a mk => Sys2Proof.Machine.execVmvsx vd a mk s
  | .vmerge vd va vb mk => Sys2Proof.Machine.execVmerge vd va vb mk s
  | .vcvt vd va src sat rm mk dst => Sys2Proof.Machine.execVcvt vd va src sat rm mk dst s
  | .vaddi vd va imm mk => Sys2Proof.Machine.execVaddi vd va imm mk s
  | .vrsubi vd va imm mk => Sys2Proof.Machine.execVrsubi vd va imm mk s
  | .vandi vd va imm mk => Sys2Proof.Machine.execVandi vd va imm mk s
  | .vori vd va imm mk => Sys2Proof.Machine.execVori vd va imm mk s
  | .vxori vd va imm mk => Sys2Proof.Machine.execVxori vd va imm mk s
  | .vslli vd va imm mk => Sys2Proof.Machine.execVslli vd va imm mk s
  | .vsrli vd va imm mk => Sys2Proof.Machine.execVsrli vd va imm mk s
  | .vsrai vd va imm mk => Sys2Proof.Machine.execVsrai vd va imm mk s
  | .vrshri vd va imm mk => Sys2Proof.Machine.execVrshri vd va imm mk s
  | .vslideupi vd va imm mk => Sys2Proof.Machine.execVslideupi vd va imm mk s
  | .vslidedni vd va imm mk => Sys2Proof.Machine.execVslidedni vd va imm mk s
  | .vmvi vd imm mk => Sys2Proof.Machine.execVmvi vd imm mk s
  | .vld vd a ew mk => Sys2Proof.Machine.execVld vd a ew mk s
  | .vldk vd a x ew mk => Sys2Proof.Machine.execVldk vd a x ew mk s
  | .vldx vd a vx ew mk => Sys2Proof.Machine.execVldx vd a vx ew mk s
  | .vst vd a ew mk => Sys2Proof.Machine.execVst vd a ew mk s
  | .vstk vd a x ew mk => Sys2Proof.Machine.execVstk vd a x ew mk s
  | .vstx vd a vx ew mk => Sys2Proof.Machine.execVstx vd a vx ew mk s
  | .vstxo vd a vx ew mk => Sys2Proof.Machine.execVstxo vd a vx ew mk s
  | .vlp vd a ew qf mk => Sys2Proof.Machine.execVlp vd a ew qf mk s
  | .vlpk vd a x ew qf mk => Sys2Proof.Machine.execVlpk vd a x ew qf mk s
  | .vlpx vd a vx ew qf mk => Sys2Proof.Machine.execVlpx vd a vx ew qf mk s
  | .vlpl vd a ew qf mk => Sys2Proof.Machine.execVlpl vd a ew qf mk s
  | .vsp vd a ew qf mk => Sys2Proof.Machine.execVsp vd a ew qf mk s
  | .vspk vd a x ew qf mk => Sys2Proof.Machine.execVspk vd a x ew qf mk s
  | .vspx vd a vx ew qf mk => Sys2Proof.Machine.execVspx vd a vx ew qf mk s
  | .vspxo vd a vx ew qf mk => Sys2Proof.Machine.execVspxo vd a vx ew qf mk s
  | .vspl vd a ew qf mk => Sys2Proof.Machine.execVspl vd a ew qf mk s
  | .vsbind r a => Sys2Proof.Machine.execVsbind r a s
  | .vsunbind vd => Sys2Proof.Machine.execVsunbind vd s
  | .vspill vd a => Sys2Proof.Machine.execVspill vd a s
  | .vfill vd a => Sys2Proof.Machine.execVfill vd a s
  | .vf count off => Sys2Proof.Machine.execVf count off s
  | .vpbr ma clr off => Sys2Proof.Machine.execVpbr ma clr off s
  | .vpjmp off => Sys2Proof.Machine.execVpjmp off s
  | .rpt n reps dd da db => Sys2Proof.Machine.execRpt n reps dd da db s
  | .mshape d a cls => Sys2Proof.Machine.execMshape d a cls s
  | .mclaim d a => Sys2Proof.Machine.execMclaim d a s
  | .mrelease a => Sys2Proof.Machine.execMrelease a s
  | .mfill p a c t scl bnd wait => Sys2Proof.Machine.execMfill p a c t scl bnd wait s
  | .mwload p => Sys2Proof.Machine.execMwload p s
  | .mmac p q c t rs x z => Sys2Proof.Machine.execMmac p q c t rs x z s
  | .mzero p => Sys2Proof.Machine.execMzero p s
  | .msoft p q c => Sys2Proof.Machine.execMsoft p q c s
  | .mdrain vd q c t sat => Sys2Proof.Machine.execMdrain vd q c t sat s
  | .mdrainSpad q c t sat bnd => Sys2Proof.Machine.execMdrainSpad q c t sat bnd s
  | .mdrainc vd q c t sat => Sys2Proof.Machine.execMdrainc vd q c t sat s
  | .mnorm p => Sys2Proof.Machine.execMnorm p s
  | .msaveTile a q => Sys2Proof.Machine.execMsaveTile a q s
  | .msaveSlot a c => Sys2Proof.Machine.execMsaveSlot a c s
  | .mrestTile a q => Sys2Proof.Machine.execMrestTile a q s
  | .mrestSlot a c => Sys2Proof.Machine.execMrestSlot a c s
  | .mbread vd q f => Sys2Proof.Machine.execMbread vd q f s
  | .vbget vd va => Sys2Proof.Machine.execVbget vd va s
  | .vbset vd va => Sys2Proof.Machine.execVbset vd va s
  | .vstb vd a spad => Sys2Proof.Machine.execVstb vd a spad s
  | .vldb vd a spad => Sys2Proof.Machine.execVldb vd a spad s
  | .cpa a b c fl => Sys2Proof.Machine.execCpa a b c fl s
  | .cpaRes a fl => Sys2Proof.Machine.execCpaRes a fl s
  | .senq a b c => Sys2Proof.Machine.execSenq a b c s
  | .abinit a b c => Sys2Proof.Machine.execAbinit a b c s
  | .abwait a b => Sys2Proof.Machine.execAbwait a b s
  | .abrel a b => Sys2Proof.Machine.execAbrel a b s
  | .cpq a c => Sys2Proof.Machine.execCpq a c s
  | .qwr a b fl => Sys2Proof.Machine.execQwr a b fl s
  | .qfold a b fl => Sys2Proof.Machine.execQfold a b fl s
  | .qdot a b c fl => Sys2Proof.Machine.execQdot a b c fl s
  | .qfsum a b c fl => Sys2Proof.Machine.execQfsum a b c fl s
  | .qcnt a b c fl => Sys2Proof.Machine.execQcnt a b c fl s
  | .qmaxi a b c fl => Sys2Proof.Machine.execQmaxi a b c fl s
  | .qtopk a b c fl => Sys2Proof.Machine.execQtopk a b c fl s
  | .qattn a b c fl => Sys2Proof.Machine.execQattn a b c fl s
  | .qupd a b c fl => Sys2Proof.Machine.execQupd a b c fl s
  | .qmig a b c fl => Sys2Proof.Machine.execQmig a b c fl s
  | .qseal a b c fl => Sys2Proof.Machine.execQseal a b c fl s
  | .qunseal a b c fl => Sys2Proof.Machine.execQunseal a b c fl s
  | .tspawn a c => Sys2Proof.Machine.execTspawn a c s
  | .tlaunch a b c gang => Sys2Proof.Machine.execTlaunch a b c gang s
  | .fullEmptyWaitReady k t => Sys2Proof.Machine.execFullEmptyWaitReady k t s
  | .fenceComplete k t => Sys2Proof.Machine.execFenceComplete k t s
  | .barrierPhaseComplete launch level inst => Sys2Proof.Machine.execBarrierPhaseComplete launch level inst s
  | .waitgeWake k t => Sys2Proof.Machine.execWaitgeWake k t s
  | .waittComplete k t => Sys2Proof.Machine.execWaittComplete k t s
  | .streamRefill k r => Sys2Proof.Machine.execStreamRefill k r s
  | .laneRelease k t => Sys2Proof.Machine.execLaneRelease k t s
  | .lanesAcquired k t => Sys2Proof.Machine.execLanesAcquired k t s
  | .blockJoin k => Sys2Proof.Machine.execBlockJoin k s
  | .autoReissue k => Sys2Proof.Machine.execAutoReissue k s
  | .copyStripLands k j => Sys2Proof.Machine.execCopyStripLands k j s
  | .abwaitComplete k t => Sys2Proof.Machine.execAbwaitComplete k t s
  | .querySubcommandComplete q sub => Sys2Proof.Machine.execQuerySubcommandComplete q sub s
  | .migrationCopyStart op => Sys2Proof.Machine.execMigrationCopyStart op s
  | .migrationCommit op => Sys2Proof.Machine.execMigrationCommit op s
  | .sealImageWritten op => Sys2Proof.Machine.execSealImageWritten op s
  | .unsealVerified op => Sys2Proof.Machine.execUnsealVerified op s
  | .launchStartTick launch => Sys2Proof.Machine.execLaunchStartTick launch s
  | .nodeAged launch node => Sys2Proof.Machine.execNodeAged launch node s
  | .gangProposal gtag member tick => Sys2Proof.Machine.execGangProposal gtag member tick s
  | .gangCancel gtag => Sys2Proof.Machine.execGangCancel gtag s
  | .gangProposalTimeout gtag => Sys2Proof.Machine.execGangProposalTimeout gtag s
  | .segmentStart k => Sys2Proof.Machine.execSegmentStart k s
  | .cmdStream k => Sys2Proof.Machine.execCmdStream k s
  | .cmdFold k => Sys2Proof.Machine.execCmdFold k s
  | .cmdSignal k => Sys2Proof.Machine.execCmdSignal k s
  | .cmdWait k => Sys2Proof.Machine.execCmdWait k s
  | .engineWaitSatisfied k => Sys2Proof.Machine.execEngineWaitSatisfied k s
  | .cmdRepeat k => Sys2Proof.Machine.execCmdRepeat k s
  | .cmdLink k => Sys2Proof.Machine.execCmdLink k s
  | .cmdStop k => Sys2Proof.Machine.execCmdStop k s
  | .engineStripLands k j => Sys2Proof.Machine.execEngineStripLands k j s
  | .segmentEnd k => Sys2Proof.Machine.execSegmentEnd k s
  | .commandFault k => Sys2Proof.Machine.execCommandFault k s
  | .translationExpiry ag => Sys2Proof.Machine.execTranslationExpiry ag s
  | .leaseRenewal ag vpn => Sys2Proof.Machine.execLeaseRenewal ag vpn s
  | .timeBeacon => Sys2Proof.Machine.execTimeBeacon s
  | .gangTimeBeacon drift => Sys2Proof.Machine.execGangTimeBeacon drift s
  | .budgetPublication budgets => Sys2Proof.Machine.execBudgetPublication budgets s
  | .throttleRaise d lvl => Sys2Proof.Machine.execThrottleRaise d lvl s
  | .throttleStepDown d => Sys2Proof.Machine.execThrottleStepDown d s
  | .sliceEnd k t => Sys2Proof.Machine.execSliceEnd k t s
  | .leWrite k t v => Sys2Proof.Machine.execLeWrite k t v s
  | .lsWrite k t v => Sys2Proof.Machine.execLsWrite k t v s
  | .tfbufWrite k t v => Sys2Proof.Machine.execTfbufWrite k t v s
  | .counterConfigure k n v => Sys2Proof.Machine.execCounterConfigure k n v s
  | .counterCountWrite k n v => Sys2Proof.Machine.execCounterCountWrite k n v s
  | .counterSample k => Sys2Proof.Machine.execCounterSample k s
  | .registerWrite f off v level => Sys2Proof.Machine.execRegisterWrite f off v level s
  | .xyieldWrite f v => Sys2Proof.Machine.execXyieldWrite f v s
  | .partitionHalt f => Sys2Proof.Machine.execPartitionHalt f s
  | .partitionResume f => Sys2Proof.Machine.execPartitionResume f s
  | .moveOut f => Sys2Proof.Machine.execMoveOut f s
  | .moveIn f => Sys2Proof.Machine.execMoveIn f s
  | .partitionReset f => Sys2Proof.Machine.execPartitionReset f s
  | .scrubComplete f => Sys2Proof.Machine.execScrubComplete f s
  | .functionLevelReset f => Sys2Proof.Machine.execFunctionLevelReset f s
  | .submissionDoorbell f tail => Sys2Proof.Machine.execSubmissionDoorbell f tail s
  | .submitLaunch f => Sys2Proof.Machine.execSubmitLaunch f s
  | .submitGangLaunch f => Sys2Proof.Machine.execSubmitGangLaunch f s
  | .submitPartitionHalt f => Sys2Proof.Machine.execSubmitPartitionHalt f s
  | .submitPartitionResume f => Sys2Proof.Machine.execSubmitPartitionResume f s
  | .pageRequestResponse f grp gen ok => Sys2Proof.Machine.execPageRequestResponse f grp gen ok s
  | .hypervisorClaim k bank trace => Sys2Proof.Machine.execHypervisorClaim k bank trace s
  | .hypervisorRelease k bank trace => Sys2Proof.Machine.execHypervisorRelease k bank trace s
  | .debugHaltRequest k => Sys2Proof.Machine.execDebugHaltRequest k s
  | .debugResumeRequest k => Sys2Proof.Machine.execDebugResumeRequest k s
  | .triggerHit k t n => Sys2Proof.Machine.execTriggerHit k t n s
  | .abstractRegister => Sys2Proof.Machine.execAbstractRegister s
  | .abstractMemory => Sys2Proof.Machine.execAbstractMemory s
  | .abstractElementRange => Sys2Proof.Machine.execAbstractElementRange s
  | .abstractGranule => Sys2Proof.Machine.execAbstractGranule s
  | .abstractAccumulatorRow => Sys2Proof.Machine.execAbstractAccumulatorRow s
  | .mcstatClear d b => Sys2Proof.Machine.execMcstatClear d b s
  | .machineCheckLog e => Sys2Proof.Machine.execMachineCheckLog e s
  | .containedMachineCheck k t => Sys2Proof.Machine.execContainedMachineCheck k t s
  | .linkFailure port => Sys2Proof.Machine.execLinkFailure port s
  | .backgroundScrub => Sys2Proof.Machine.execBackgroundScrub s
  | .powerOnReset => Sys2Proof.Machine.execPowerOnReset s
  | .moduleReset => Sys2Proof.Machine.execModuleReset s
  | .bootStageTimeout => Sys2Proof.Machine.execBootStageTimeout s
  | .illegalInstruction w => Sys2Proof.Machine.execIllegalInstruction w s
  | .instructionFetchFault => Sys2Proof.Machine.execInstructionFetchFault s
  | .inboundPostedWrite f pa bytes relaxed => Sys2Proof.Machine.execInboundPostedWrite f pa bytes relaxed s
  | .choahPeerAccess port op => Sys2Proof.Machine.execChoahPeerAccess port op s
  | .atsInvalidation f page => Sys2Proof.Machine.execAtsInvalidation f page s
  | .debugEnableRequest f authentic => Sys2Proof.Machine.execDebugEnableRequest f authentic s
  | .bootStageReady images verified => Sys2Proof.Machine.execBootStageReady images verified s
  | .hamperExchangeComplete f => Sys2Proof.Machine.execHamperExchangeComplete f s
  | .contextMoveComplete f => Sys2Proof.Machine.execContextMoveComplete f s
  | .svc => Sys2Proof.Machine.execSvc s
  | .tret => Sys2Proof.Machine.execTret s
  | .brk => Sys2Proof.Machine.execBrk s
  | .halt => Sys2Proof.Machine.execHalt s
  | .idle => Sys2Proof.Machine.execIdle s
  | .fencei => Sys2Proof.Machine.execFencei s
  | .vpstop => Sys2Proof.Machine.execVpstop s
  | .vjoin => Sys2Proof.Machine.execVjoin s
  | .vrel => Sys2Proof.Machine.execVrel s
  | .tdone => Sys2Proof.Machine.execTdone s
  | .tyield => Sys2Proof.Machine.execTyield s

end Sys2Proof.Machine
end

