-- ==== Sys2Proof/Machine/Run.lean ====
section
/-!
DEFINITION. One step of the module (log 1): which agent moves, when a blocked thread may issue again (spec 17 R312, R313), fetching
and issuing one instruction, what the agenda's other entries do, and the placing of a word to be fetched next.
-/

namespace Sys2Proof.Machine

/-! ## Waits and issue -/

/-- What thread t of core k waits for has come, so that its instruction may be tried again (R312). -/
def waitOver (s : State) (k : CoreId) (t : Tid) : Bool :=
  let c := s.core k
  let th := s.thr k t
  let here : State := { s with curCore := k, curTid := t }
  match th.wait with
  | .none => true
  | .granule gs => c.waitMet (.granule gs)
  | .arrival bar target => c.waitMet (.arrival bar target)
  | .fence query => !(if query then queriesBusy s k t else copiesBusyOf s k t)
  | .barrier _ _ =>
    match th.task with
    | some x => (barrierMet s th).isSome || (s.launch x.part x.launch).isNone
    | none => true
  | .counter at_ target => counterDue s (.counter at_ target)
  | .time target => decide (target.toNat ≤ s.coreTime k)
  | .lanes => (acquireLanes here).isSome
  | .block => !here.unitsBusy && !here.copiesBusy && !here.blockRuns
  | .join => !c.unjoined t
  | .copyQueue => decide (c.copies.length < 16)
  | .hostPage page _ =>
    !NatSet.has s.hostAbsent page || s.ats.contains (th.partOf (s.corePart k), page) || th.answered.contains (page, false)
  | .slotBusy ps => !c.mat.engaged t && ps.all (fun p => !c.mat.slots[p].busy)
  | .drain => !drainBusy s k t
  | .gang g => match s.gang g with | some r => r.result.isSome | none => true
  | .ack => true

/-- The block that thread t of core k started is running: the thread stands behind it until the join (log 30). -/
def ownBlock (s : State) (k : CoreId) (t : Tid) : Bool :=
  match (s.core k).vec.block with | some b => b.tid == t && !b.stopped | none => false

/-- A machine check or a lease-skew fault waits for the thread's next instruction boundary (R311). -/
def Thread.asyncPending (t : Thread) : Bool := t.skewFault.isSome || !t.checks.isEmpty

/-- An idle thread goes on at a request to yield or the end of its slice (R211). -/
def Thread.roused (t : Thread) : Bool := !t.idling || t.yreq || t.sliceOver

/-- Thread t of core k may issue: it holds a task, neither its core nor its partition is halted, and the module has met no fatal error
(R342, R318, R350). -/
def issues (s : State) (k : CoreId) (t : Tid) : Bool :=
  let th := s.thr k t
  th.task.isSome && !s.fatal && !(s.core k).halted && (s.part (th.partOf (s.corePart k))).halt = 0
    && ((th.asyncPending && !s.occupied k t) || (waitOver s k t && !ownBlock s k t && th.roused))
/-- The same for a compute core: in minimal mode only a system core runs (R338). -/
def runnable (s : State) (k : CoreId) (t : Tid) : Bool := issues s k t && !s.boot.minimal

/-! ## One instruction of a thread -/

/-- Changes the state in an outcome. -/
def thenDo (o : Out) (f : State → State) : Out :=
  match o with
  | .next s => .next (f s)
  | .fault r => .fault r
  | .refused r => .refused r

/-- The thread took a trap between two states: it stands at the handler of its level with newly written trap registers. -/
def trapped (a b : Thread) : Bool :=
  let x := b.trapSet b.priv
  x.hdl && b.loopOff && b.pc == sext64 57 x.tvec.toNat && (x != a.trapSet b.priv || b.pc != a.pc)

/-- The instruction has completed a part of its work and stands where it was: a lane word stopped for debug, a word of a frame, some
sub-commands of a query. -/
def partDone (a b : Thread) : Bool := b.pc == a.pc && b.lc == a.lc && (b.vstart != a.vstart || b.rptst != a.rptst)

/-- What follows an instruction: a retired one is counted (R352), and a reissue under the fault mask is over (R309); one that has begun
leaves the stop that it passed; a stepped core halts at the stop point, unless an event that goes before the halt is due (R313, R350). A
vf retires when its block joins. -/
def afterIssue (before : Thread) (s : State) : State :=
  let th := s.cur
  let waits := th.wait != .none
  let stands := ownBlock s s.curCore s.curTid
  let whole := !waits && !stands && !partDone before th
  let retired := whole && !trapped before th
  let s := if retired then s.count 2 1 else s
  let s := if retired && before.reissue.isSome && th.reissue == before.reissue then s.modCur Thread.reissued else s
  let s := if whole || stands then s.modCur (fun t => { t with dcause := if s.curC.halted then t.dcause else 0 }) else s
  if s.curC.step && !s.curC.halted && !waits && !stands && !th.asyncPending then
    (closeQueries s s.curCore).modCurC (fun c => c.debugHalt 4)
  else s

/-- The word that the current thread issues next: the captured rpt of its running frame (R30), or what it fetches at pc. -/
def nextWord (s : State) : State × Except (State → Out) Word32 :=
  match s.cur.frame with
  | w :: _ => (s, .ok w)
  | [] => fetchWord s s.cur.pc

/-- The instruction at the current thread's pc is fetched, decoded and executed (R16, R199). -/
noncomputable def fetchExec (s : State) : Out :=
  match nextWord s with
  | (s, .error cont) => cont s
  | (s, .ok w) =>
    match decode w with
    | .ok i => exec i s
    | .error _ => execIllegalInstruction w s

/-- The trigger that stops the core before the current thread's instruction (R350). -/
def hitTrigger (s : State) : Option (Fin 4) := (List.finRange 4).find? (fun n => triggerMatches s.cur s.curC.triggers[n])

/-- What the current thread does at an instruction boundary, in the order of R313: a lease-skew fault or a machine check; a yield that a
debug halt went before; the next sub-command of its query; a trigger; or its next instruction, by `issue`. -/
noncomputable def boundaryBy (issue : State → Out) (s : State) : Out :=
  let t := s.cur
  let free := !s.occupied s.curCore s.curTid
  if free && t.skewFault.isSome then .next (afterIssue t (deliverSkew s s.curCore s.curTid))
  else if free && !t.checks.isEmpty then thenDo (execContainedMachineCheck s.curCore s.curTid s) (afterIssue t)
  else if free && t.yieldDue && !t.inHandler then .next (afterIssue t (takeYield s))
  else match s.accepting s.curCore s.curTid with
    | some q => thenDo (acceptSubs s q) (afterIssue t)
    | none => match hitTrigger s with
      | some n => execTriggerHit s.curCore s.curTid n s
      | none => thenDo (issue s) (afterIssue t)
/-- The same for a compute core. -/
noncomputable def boundary (s : State) : Out := boundaryBy fetchExec s

/-- The state in which thread t of core k issues: it is the current thread and no longer waits. -/
def State.focus (s : State) (k : CoreId) (t : Tid) : State :=
  ({ s with curCore := k, curTid := t } : State).modThr k t (fun x => { x with wait := .none, idling := false })

/-- Thread t of core k moves, when it can. -/
noncomputable def runThread (s : State) (k : CoreId) (t : Tid) : Out :=
  if runnable s k t then boundary (s.focus k t) else .next s

/-! ## System cores (R10, R336, R338; log 66) -/

/-- The core number under which the system core of a die stands while it acts. -/
def sysSlot (d : DieId) : CoreId := ⟨48 * d.val, by omega⟩
/-- The system core of die d and the core whose number it takes change places. -/
def State.swapSys (s : State) (d : DieId) : State :=
  { s with cores := s.cores.set (sysSlot d) s.sysCores[d], sysCores := s.sysCores.set d s.cores[sysSlot d] }

/-- A word of the scalar majors (R15, R10). -/
def scalarWord (w : Word32) : Bool := (fld w 26 6).toNat ≤ 0x1C
/-- The halt of a system core's thread: it runs no task of a launch, and issues no more. -/
def sysHalt (s : State) : State := s.modCur (fun t => { t with task := none, wait := .none })
/-- The system core of die d, which stands in its slot, executes the instruction at its thread's pc: a scalar one; any other word is
illegal. Windows are reached with every compute core in its place. -/
noncomputable def sysExec (d : DieId) (s : State) : Out :=
  match fetchWord s s.cur.pc with
  | (s, .error cont) => cont s
  | (s, .ok w) =>
    match (if scalarWord w then decode w else .error .reservedMajor) with
    | .error _ => execIllegalInstruction w s
    | .ok i => match i with
      | .halt => .next (sysHalt s)
      | .ld x a sz off => loadWith (fun s => windowRead (s.swapSys d)) i x a sz off true s
      | .ldz x a sz off => loadWith (fun s => windowRead (s.swapSys d)) i x a sz off false s
      | .st x a sz off => storeWith (fun s f o v => (windowWrite (s.swapSys d) f o v).swapSys d) x a sz off s
      | i => exec i s

/-- Thread t of the system core of die d moves, when it can: once the untrusted firmware runs (R337), in minimal mode on die 0 alone. -/
noncomputable def runSystem (s : State) (d : DieId) (t : Tid) : Out :=
  let k := sysSlot d
  let inside := s.swapSys d
  if s.boot.stage.val < 3 || (s.boot.minimal && d != 0) || !issues inside k t then .next s
  else thenDo (boundaryBy (sysExec d) (inside.focus k t))
    (fun r => { (r.swapSys d).noteCounterWake false with curCore := s.curCore, curTid := s.curTid })

/-! ## Time (R54, R63, R302, R351) -/

/-- The wait counts as an arrival stall (R351). -/
def Wait.stalls (w : Wait) : Bool :=
  match w with
  | .granule _ => true | .arrival _ _ => true | .fence _ => true | .counter _ _ => true | .copyQueue => true | .hostPage _ p => p
  | _ => false

/-- Cycles pass for a thread that holds a task: each lies in one of four counters; how the cycles of a thread in no counted wait
are classified is open (R351). -/
def Thread.pass (t : Thread) (cycles kind : Nat) : Thread :=
  if t.task.isNone then t
  else if t.wait.stalls then { t with astl := t.astl + BitVec.ofNat 64 cycles }
  else match kind % 3 with
    | 0 => { t with scyc := t.scyc + BitVec.ofNat 64 cycles }
    | 1 => { t with vcyc := t.vcyc + BitVec.ofNat 64 cycles }
    | _ => { t with mcyc := t.mcyc + BitVec.ofNat 64 cycles }

/-- Cycles pass on core k: its threads, and the events cycles and bank-conflict cycles (R351, R352). -/
def Core.pass (c : Core) (n k : Nat) : Core :=
  let x (j : Nat) : Nat := Config.stepCycles n (8 * k + j)
  let c := { c with threads := Vector.ofFn (fun (t : Fin 2) => c.threads[t].pass (x t.val) (x (2 + t.val))) }
  let c := ((c.count 1 0 (x 0)).count 1 1 (x 1))
  (c.count 5 0 (x 4)).count 5 1 (x 5)

/-- A multiple of a period lies among the times after the first, up to the second. -/
def reaches (period a b : Nat) : Bool := decide (a / period < b / period)
/-- The module time base advances, and cycles pass on every core. At each microsecond its beacon goes out (R54, R63), and every eighth the
budgets, which the budget unit is free to form (R302); however many of them lie in one passing of time, nothing moves between. -/
def passTime (s : State) (ns : Nat) : State :=
  let (n, s) := s.draw
  let a := s.time.toNat
  let b := a + ns
  let s := { s with
    time := BitVec.ofNat 64 b
    cores := Vector.ofFn (fun (k : Fin 384) => s.cores[k].pass n k.val)
    sysCores := Vector.ofFn (fun (d : Fin 8) => s.sysCores[d].pass n (384 + d.val)) }
  let s := if reaches 1000 a b then s.beacon else s
  if reaches 8000 a b then s.publish (Vector.ofFn (fun d => Config.freeBudget n d.val)) else s

/-! ## The agenda's other entries -/

/-- A write by the host to its own memory satisfies waits as any other (R163, R166). -/
def hostWrites (s : State) (iova : Nat) (bytes : List Byte) : State := (tgtWrite s (.host iova) bytes).noteCounterWake false
/-- A peer's own agents write its memory (R38, R167). -/
def peerWrites (s : State) (pos pa : Nat) (bytes : List Byte) : State :=
  if pa + bytes.length ≤ wmSize then (tgtWrite s (.peer pos pa) bytes).noteCounterWake false else s
/-- An agent's time-base copy drifts (R54, R63). -/
def drifts (s : State) (ag : XAgent) (d : Int) : State :=
  match ag with
  | .core k => s.modCore k (fun c => { c with skew := c.skew + d })
  | .cluster c => s.modCluster c (fun x => { x with skew := x.skew + d })
  | .engine k => s.modEngine k (fun e => { e with skew := e.skew + d })
  | .stack b => s.modDie b (fun x => { x with skew := x.skew + d })
/-- An agent loses cached translations: of a page, or all (R57, R60). -/
def evicts (s : State) (ag : XAgent) (vpn : Option Nat) : State :=
  let keep (x : Nat) : Bool := match vpn with | some v => x != v | none => false
  match ag with
  | .core k => s.modCore k (fun c => { c with
      scalarTlb := c.scalarTlb.filter (fun e => keep e.vpn), vectorTlb := c.vectorTlb.filter (fun e => keep e.vpn)
      gatherTlb := c.gatherTlb.filter (fun e => keep e.vpn) })
  | .cluster c => s.modCluster c (fun x => { x with
      tlb := x.tlb.filter (fun e => keep e.vpn), walks := if vpn.isSome then x.walks else [] })
  | .engine k => s.modEngine k (fun e => { e with tlb := e.tlb.filter (fun x => keep x.vpn) })
  | .stack b => s.modDie b (fun x => { x with cache := x.cache.filter (fun e => keep e.qpage) })
/-- A vector residue mismatch on an element marks the register's tag and is a contained error of the context that holds the lanes; the
record holds the element and the two residues (R340, R344). -/
def vecResidue (s : State) (k : CoreId) (v : VReg) (elem : Nat) (synd : Word) : State :=
  let s := s.modCore k (fun c => { c with vec := { c.vec with
    regs := c.vec.regs.set v { c.vec.regs[v] with tag := { c.vec.regs[v].tag with bound := infBound, flags := c.vec.regs[v].tag.flags ||| 8 } } } })
  logError s (coreError s k ((s.core k).vec.holder.getD 0) .contained 6 elem synd)

/-- The endpoint receives a posted write of a function; in minimal mode only the physical function is there (R169, R338). -/
def receivePosted (s : State) (f : FuncId) (pa : Nat) (bytes : List Byte) (relaxed : Bool) : State :=
  if f != 0 && s.boot.minimal then s else { s with inbound := s.inbound ++ [⟨f, pa, bytes, relaxed⟩] }

/-- One entry of the agenda. -/
noncomputable def applyTurn (s : State) (x : Turn) : Out :=
  match x with
  | .run k t => runThread s k t
  | .event i => if (encode i).isSome then .fault .notAnEvent else exec i s
  | .sys d t => runSystem s d t
  | .block k vp => .next (blockStep s k vp)
  | .elapse ns => .next (passTime s ns)
  | .drift ag d => .next (drifts s ag d)
  | .evict ag vpn => .next (evicts s ag vpn)
  | .hostPage page absent => .next { s with hostAbsent := NatSet.put s.hostAbsent page absent }
  | .hostWrite iova bytes => .next (hostWrites s iova bytes)
  | .peerWrite pos pa bytes => .next (peerWrites s pos pa bytes)
  | .barAssign f base => .next { s with bars := s.bars.set f (some (base / 0x10000 * 0x10000)) }
  | .setHandlers f kvec hvec => .next (s.modPart f (fun p => { p with kvec := kvec, hvec := hvec }))
  | .poison p => .next (placePoison s p)
  | .residue k t tile rows synd => .next (residueMismatch s k t tile rows synd)
  | .posted f pa bytes relaxed => .next (receivePosted s f pa bytes relaxed)
  | .vecResidue k v elem synd => .next (vecResidue s k v elem synd)
  | .jtag ir dr => .next (jtagShift s ir dr)

/-! ## An empty agenda: a fixed order (log 1) -/

/-- A move that an agent of the module makes by itself. -/
abbrev Move := State → Out

/-- The cached entries of a unit whose renewal is due for a transfer in progress, by page (R62). -/
def renewals (s : State) (u : XUnit) (pages : List UsedPage) : List Nat :=
  ((unitTlb s u).filter (fun e => decide (renewAt e.ts e.expiry ≤ unitTime s u) && decide (unitTime s u < e.expiry)
    && pages.any (fun p => !p.stop && p.covers e.vpn))).map (·.vpn)
/-- The moves of core k's units. -/
def coreMoves (s : State) (k : CoreId) : List Move :=
  let c := s.core k
  let block : List Move := match c.vec.block with
    | some b =>
      if s.fatal || b.stopped || c.halted then []
      else if b.finished then [execBlockJoin k]
      else [fun s => .next (blockStep s k ((b.live.map (·.1)).getD (s.fresh % b.live.length) 0))]
    | none => []
  let rel : List Move := ((List.finRange 2).filter (fun t => c.threads[t].relPending && !c.unjoined t)).map (fun t => execLaneRelease k t)
  let re : List Move := if c.mat.pendReissue.isSome then [execAutoReissue k] else []
  let cp : List Move := ((List.finRange 4).filter (fun j => decide (j.val < c.copies.length))).map (fun j => execCopyStripLands k j)
  let bound : List UsedPage := (c.vec.binds.toList.map (fun b => match b with | some b => b.pages | none => [])).flatten
  let renew : List Move := (renewals s (.vector k) ((c.copies.map (·.pages)).flatten ++ bound)).map (fun v => execLeaseRenewal (.core k) v)
  let sample : List Move := if c.counters[6].samples = 0 then [] else [execCounterSample k]
  block ++ rel ++ re ++ cp ++ renew ++ sample

/-- The moves of engine k. -/
def engineMoves (s : State) (k : EngineId) : List Move :=
  let e := s.engines[k]
  match e.running with
  | none => if e.chain.isEmpty || e.faulted then [] else [execSegmentStart k]
  | some r =>
    let strips : List Move := (List.range r.flight.length).map (fun j => execEngineStripLands k j)
    let next : List Move :=
      if r.fault.isSome then [execCommandFault k]
      else if r.waiting then [execEngineWaitSatisfied k]
      else if r.stopped then [execSegmentEnd k]
      else [execCmdStream k, execCmdFold k, execCmdSignal k, execCmdWait k, execCmdRepeat k, execCmdLink k, execCmdStop k, execCommandFault k]
    let renew : List Move := (renewals s (.engine k) ((r.flight.map (·.pages)).flatten)).map (fun v => execLeaseRenewal (.engine k) v)
    strips ++ next ++ renew

/-- The moves of the query units and of page operations. -/
def queryMoves (s : State) : List Move :=
  (s.queries.map (fun q => ((List.range q.subs.length).filter (fun j => match q.subs[j]? with | some c => !c.done | none => false)).map
    (fun j => (execQuerySubcommandComplete q.id j : Move)))).flatten
  ++ (s.pageOps.map (fun o => ([execMigrationCopyStart o.id, execMigrationCommit o.id, execSealImageWritten o.id, execUnsealVerified o.id] : List Move))).flatten

/-- The moves of the system cores. -/
noncomputable def systemMoves (s : State) : List Move :=
  (List.finRange 8).flatMap (fun d => ((List.finRange 2).filter (fun t => s.boot.stage.val ≥ 3 && issues (s.swapSys d) (sysSlot d) t)).map
    (fun t => (fun s => runSystem s d t)))

/-- The moves of the dispatcher, of partitions and of the endpoint. -/
def moduleMoves (s : State) : List Move :=
  (s.inbound.map (fun x => (execInboundPostedWrite x.fn x.pa x.bytes x.relaxed : Move))) ++
  ((s.disp.launches.filter (fun l => !l.started)).map (fun l => (execLaunchStartTick l.num : Move)))
  ++ ((s.disp.gangs.filter (fun g => g.own.isSome && g.result.isNone)).map (fun g => (execGangProposalTimeout g.gtag : Move)))
  ++ ((List.finRange 65).filter (fun f => (s.part f).halt = 1)).map (fun f => (execHamperExchangeComplete f : Move))
  ++ ((List.finRange 65).filter (fun f => (s.part f).movStat = 1)).map (fun f => (execContextMoveComplete f : Move))
  ++ ((List.finRange 65).filter (fun f => (s.part f).resetSt = .resetting)).map (fun f => (execPartitionReset f : Move))
  ++ ((List.finRange 65).filter (fun f => (s.part f).resetSt = .scrubbing)).map (fun f => (execScrubComplete f : Move))
  ++ (((List.finRange 65).filter (fun f => f != 0 && (s.part f).xsubt != (s.part f).xsubh)).map (fun f =>
    ([execSubmitLaunch f, execSubmitGangLaunch f, execSubmitPartitionHalt f, execSubmitPartitionResume f] : List Move))).flatten

/-- Every move that some agent but a compute core's thread can make. -/
noncomputable def moves (s : State) : List Move :=
  systemMoves s ++ ((List.finRange 384).map (coreMoves s)).flatten ++ ((List.finRange 384).map (engineMoves s)).flatten ++ queryMoves s ++ moduleMoves s

/-- The thread that issues next when the agenda names none: the current one when it can, else the first that can. -/
def nextThread (s : State) : Option (CoreId × Tid) :=
  if runnable s s.curCore s.curTid then some (s.curCore, s.curTid)
  else
    match (List.finRange 384).find? (fun k => runnable s k 0 || runnable s k 1) with
    | some k => some (k, if runnable s k 0 then 0 else 1)
    | none => none

/-- A free amount of time passes. -/
def idleTime (s : State) : State :=
  let (n, s) := s.draw
  passTime s (Config.stepTicks n)

/-- With an empty agenda a thread issues when one can; else one of the other agents moves, in turn; and time passes. -/
noncomputable def idleStep (s : State) : Out :=
  match nextThread s with
  | some (k, t) => thenDo (runThread s k t) idleTime
  | none =>
    match moves s with
    | [] => .next (idleTime s)
    | m :: l => thenDo (((m :: l).getD (s.fresh % (l.length + 1)) m) s) idleTime

/-- One step of the module. -/
noncomputable def runStep (s : State) : Out :=
  match s.agenda with
  | [] => idleStep s
  | x :: rest => applyTurn { s with agenda := rest } x

/-! ## Placing a word (log 36) -/

/-- The translation under which a placed word is fetched: its page lies at the start of working memory, executable at the
thread's level. -/
def placedEntry (s : State) (k : CoreId) (part : FuncId) (asn : BitVec 16) (pv : Priv) (va : Nat) : TlbEntry :=
  let now := s.coreTime k
  ⟨part, asn, bitsOf va 16 41,
   ⟨true, true, true, decide (pv = .user), 0, true, true, true, 0, none, 0, 0, 0, 0, true, false, 16, 0, 0, 0, none⟩, now, now + 8000000⟩

/-- The thread that is to fetch a placed word: a task, no wait, nothing pending, and a pc that can be fetched at. -/
def Thread.ready (t : Thread) : Thread :=
  { t with
    task := some (t.task.getD ⟨1, 1, 1, 0, 0⟩), wait := .none, idling := false, skewFault := none, checks := []
    frame := [], yieldDue := false
    pc := if canonical t.pc && decide (t.pc.toNat % 4 = 0) then t.pc else 0 }

/-- The state with a word stored where the current thread, whose turn it is, fetches its next instruction. -/
def placeWord (s : State) (nbits w : Nat) : State :=
  let k := s.curCore
  let t := s.curTid
  let s := s.modThr k t Thread.ready
  let th := s.thr k t
  let entry := placedEntry s k (th.partOf 0) th.asnOf th.priv th.pc.toNat
  let s := s.modCore k (fun c =>
    { c with
      halted := false
      triggers := c.triggers.map (fun x => { x with control := x.control &&& 0x3FFE#14 })
      scalarTlb := entry :: c.scalarTlb
      vec := { c.vec with block := c.vec.block.map (fun b => if b.tid = t then { b with stopped := true } else b) } })
  let s := s.modPart (th.partOf (s.corePart k)) (fun p => { p with halt := 0 })
  let at_ := th.pc.toNat % 0x10000
  { s with
    agenda := [.run k t], fatal := false, boot := { s.boot with minimal := false }
    queries := s.queries.map (fun q => if q.core == k && q.tid == t then { q with more := false } else q)
    wm := Mem.setBytes s.wm at_ (leBytes 4 (w % 2 ^ nbits))
    wmPoison := NatSet.del s.wmPoison (at_ / 16) }

end Sys2Proof.Machine
end

