-- ==== Sys2Proof/Safety.lean ====
section
/-!
DEFINITION. What the statements about the machine are said in: the read of one byte, what an instruction leaves alone, when a lane
word runs to its end and what it then has written, and the invariant of the machine's memories.
-/

namespace Sys2Proof.Machine

/-! ## Bytes -/

/-- A byte of memory: local working memory, host memory, query memory, a peer's working memory, a core's scratchpad. -/
inductive Place where
  | wm (a : Nat) | host (a : Nat) | query (a : Nat) | peer (pos : Nat) (a : Nat) | spad (k : CoreId) (a : Nat)
deriving DecidableEq, Repr

/-- The read of one byte. -/
def State.byteAt (s : State) (p : Place) : Byte :=
  match p with
  | .wm a => Mem.get s.wm a
  | .host a => Mem.get s.host a
  | .query a => Mem.get s.qmem a
  | .peer pos a => Mem.get (s.peerMem pos) a
  | .spad k a => Mem.get (s.core k).spad a

/-- Every byte of memory reads as before. -/
def SameBytes (s t : State) : Prop := ∀ p, t.byteAt p = s.byteAt p

/-- The place of byte i of a target. -/
def Tgt.place (t : Tgt) (i : Nat) : Option Place :=
  match t with
  | .wm pa => some (.wm (pa + i))
  | .host a => some (.host (a + i))
  | .peer p pa => some (.peer p (pa + i))
  | .window _ _ => none

/-- Byte p lies among the n bytes of a target. -/
def Tgt.covers (t : Tgt) (n : Nat) (p : Place) : Prop := ∃ i, i < n ∧ t.place i = some p

/-! ## The memories' canonical form -/

/-- Every memory is in its canonical form. -/
def MemInv (s : State) : Prop :=
  Mem.wf s.wm = true ∧ Mem.wf s.host = true ∧ Mem.wf s.qmem = true ∧ (∀ x ∈ s.peers, Mem.wf x.2 = true)
    ∧ ∀ k : CoreId, Mem.wf (s.core k).spad = true

/-! ## Frames -/

/-- What every instruction of a thread that only computes leaves alone: all of the module but the current core, all of that core
but the current thread. -/
def OutsideThread (s t : State) : Prop :=
  { t with cores := s.cores } = s ∧ (∀ k, k ≠ s.curCore → t.core k = s.core k)
    ∧ { t.core s.curCore with threads := (s.core s.curCore).threads } = s.core s.curCore
    ∧ ∀ u, u ≠ s.curTid → t.thr s.curCore u = s.thr s.curCore u

/-- The frame of an instruction whose only destinations are scalar registers: beside them only pc and, at the last word of an
active loop, lc and le change (R201). -/
def ScalarFrame (s t : State) (dests : List SReg) : Prop :=
  OutsideThread s t ∧ SameBytes s t
    ∧ { t.cur with pc := s.cur.pc, lc := s.cur.lc, le := s.cur.le, sregs := s.cur.sregs } = s.cur
    ∧ ∀ r, r ∉ dests → t.sreg r = s.sreg r

/-- The same for scalar floating point, which may also set accrued flags. -/
def FloatFrame (s t : State) (dests : List SReg) : Prop :=
  OutsideThread s t ∧ SameBytes s t
    ∧ { t.cur with pc := s.cur.pc, lc := s.cur.lc, le := s.cur.le, sregs := s.cur.sregs, fflags := s.cur.fflags } = s.cur
    ∧ ∀ r, r ∉ dests → t.sreg r = s.sreg r

/-! ## Lane words -/

/-- A lane word of the current thread is issued and runs to its end: the thread holds the lanes or acquires them, giving s0; no
block runs; its stream registers are used as R139 allows and their strips are popped, giving s1; and no debug stop falls inside.
dest, srcs and rep are the word's destination, sources and replicated operand, split whether a debug stop may fall inside it (R312),
and e is what the word captures (R178). -/
def LaneGo (s : State) (dest : Option VReg) (srcs : List VReg) (rep : Option VReg) (split : Bool) (e : LaneEnv) (s1 : State) : Prop :=
  ∃ s0, acquireLanes s = some s0 ∧ s0.blockRuns = false ∧ e = laneEnv s0
    ∧ (∀ n, dest = some n → s0.curC.vec.bound n = none) ∧ (∀ n, rep = some n → s0.curC.vec.bound n = none)
    ∧ popCheck s0 e.vl (sewOf e.vtype) srcs.eraseDups = none
    ∧ popAll s0 e.vl (sewOf e.vtype) srcs.eraseDups = (s1, none)
    ∧ (split = true → debugStop s1 (sewOf e.vtype) e.vl = none)

/-- The replicated operand of a word, when it has one (R24). -/
def repOf (rep : Rep) (vb : VReg) : Option VReg := if rep = .none then none else some vb

/-- Element i executes (R218, R23): from vstart up, below VL, admitted by the mask, and by the fault mask on a reissue. -/
abbrev Executes (e : LaneEnv) (v : VecUnit) (mk : MkField) (i : Nat) : Prop :=
  e.start ≤ i ∧ i < e.vl ∧ e.ext.getLsbD i = true ∧ maskOn v mk i = true

/-- Outside the current thread and the vector unit of its core nothing has changed but the counters of that core. -/
def LaneOutside (s t : State) : Prop :=
  { t with cores := s.cores, fresh := s.fresh } = s ∧ (∀ k, k ≠ s.curCore → t.core k = s.core k)
    ∧ (∀ u, u ≠ s.curTid → t.thr s.curCore u = s.thr s.curCore u)
    ∧ { t.curC with threads := s.curC.threads, vec := s.curC.vec, counters := s.curC.counters } = s.curC

/-- A completed lane word's effect outside its own destinations (a vector register, a mask, a scalar register): the thread goes on with
vstart 0, a reissue over with its tstat.fmask (R309); the accrued flags and vsat are spoken of elsewhere; the thread's other registers, every byte, the other vector
registers and masks, and all outside are as before. -/
def LaneFrame (s1 t : State) (vd : Option VReg) (md : Option MReg) (sd : Option SReg) : Prop :=
  t.cur.pc = s1.cur.advance.pc ∧ t.cur.vstart = 0 ∧ t.cur.reissue = none
    ∧ { t.cur with
        pc := s1.cur.pc, lc := s1.cur.lc, le := s1.cur.le, vstart := s1.cur.vstart
        sregs := s1.cur.sregs, fflags := s1.cur.fflags, vsat := s1.cur.vsat } = s1.cur.reissued
    ∧ (∀ r, some r ≠ sd → t.sreg r = s1.sreg r)
    ∧ SameBytes s1 t ∧ (∀ r, some r ≠ vd → t.vreg r = s1.vreg r) ∧ (∀ m, some m ≠ md → t.curC.vec.masks[m] = s1.curC.vec.masks[m])
    ∧ LaneOutside s1 t

/-- An elementwise word of n-bit elements has completed: an executing element of vd holds f, every other its old value. -/
def LaneWrote (s1 t : State) (e : LaneEnv) (vd : VReg) (n : Nat) (mk : MkField) (f : Nat → Nat) : Prop :=
  LaneFrame s1 t (some vd) none none
    ∧ ∀ i, i < 32768 / n →
        (Executes e s1.curC.vec mk i → elemGet (t.vreg vd).bits n i = f i % 2 ^ n)
        ∧ (¬ Executes e s1.curC.vec mk i → elemGet (t.vreg vd).bits n i = elemGet (s1.vreg vd).bits n i)

/-- A comparison has completed: an executing element's bit of md holds f, every other its old value. -/
def LaneCompared (s1 t : State) (e : LaneEnv) (md : MReg) (mk : MkField) (f : Nat → Bool) : Prop :=
  LaneFrame s1 t none (some md) none
    ∧ ∀ i, i < 4096 →
        (Executes e s1.curC.vec mk i → t.curC.vec.masks[md].bits.getLsbD i = f i)
        ∧ (¬ Executes e s1.curC.vec mk i → t.curC.vec.masks[md].bits.getLsbD i = s1.curC.vec.masks[md].bits.getLsbD i)

/-- Operand elements of a lane word. -/
def srcElem (s : State) (e : LaneEnv) (v : VReg) (i : Nat) : Nat := elemGet (s.vreg v).bits e.n i

/-- Element i of the second source as the loop of R218 reads it: replicated (R24); where it is the destination too, an executing
element below i has its new value by then, `new` of its index and its old value. -/
def loopElem (s : State) (e : LaneEnv) (mk : MkField) (vd vb : VReg) (rep : Rep) (new : Nat → Nat → Nat) (i : Nat) : Nat :=
  if vd = vb ∧ repIndex rep i < i ∧ Executes e s.curC.vec mk (repIndex rep i) then
    new (repIndex rep i) (srcElem s e vb (repIndex rep i)) % 2 ^ e.n
  else srcElem s e vb (repIndex rep i)

/-- A completed storing lane word's effect outside memory, full-empty bits and poison: the thread goes on with vstart 0, a reissue over;
every register and mask, the thread's other registers and all outside are as before, but for the note of who satisfied a wait (R355). -/
def StoreFrame (s1 t : State) : Prop :=
  t.cur.pc = s1.cur.advance.pc ∧ t.cur.vstart = 0 ∧ t.cur.reissue = none
    ∧ { t.cur with
        pc := s1.cur.pc, lc := s1.cur.lc, le := s1.cur.le, vstart := s1.cur.vstart
        wakeC := s1.cur.wakeC } = s1.cur.reissued
    ∧ (∀ r, t.vreg r = s1.vreg r) ∧ (∀ m : MReg, t.curC.vec.masks[m] = s1.curC.vec.masks[m])
    ∧ { t with cores := s1.cores, fresh := s1.fresh, wm := s1.wm, wmPoison := s1.wmPoison, host := s1.host, peers := s1.peers } = s1
    ∧ (∀ k, k ≠ s1.curCore → { t.core k with threads := (s1.core k).threads } = s1.core k)
    ∧ (∀ k u, ¬ (k = s1.curCore ∧ u = s1.curTid) → { t.thr k u with wakeC := (s1.thr k u).wakeC } = s1.thr k u)
    ∧ { t.curC with
        threads := s1.curC.threads, vec := s1.curC.vec, counters := s1.curC.counters
        spad := s1.curC.spad, spadPoison := s1.curC.spadPoison, full := s1.curC.full } = s1.curC

/-- The byte of the scratchpad that holds byte b of element j: at its address, or in its lane's slice (R78). -/
def spadByte (lane : Bool) (base addr : Word) (w j b : Nat) : Nat :=
  if lane then 0x380000 + 0x2000 * ((j * w + b) / 4 % 64) + (laneOffset base (j * w)).toNat + b % 4 else addr.toNat + b

/-- Element j's scratchpad place is one that a vector access may touch (R84, R78). -/
def spadPlaceOk (lane : Bool) (base addr : Word) (w j : Nat) : Prop :=
  if lane then base.toNat % 4 = 0 ∧ (laneOffset base (j * w)).toNat < 0x2000 else addr.toNat < 0x380000 ∧ addr.toNat % w = 0

/-- Element j's scratchpad place is allocated to the context: no guard access (R76). -/
def spadOwn (s : State) (lane : Bool) (base addr : Word) (w j : Nat) : Bool :=
  if lane then inLaneAllocs s.curAllocs (laneOffset base (j * w)).toNat else inAllocs s.curAllocs addr.toNat

end Sys2Proof.Machine
end

