-- ==== Sys2Proof/Certificates/Slice0/Obligations.lean ====
section
/-!
DEFINITION. The statements for the provers. Each docstring names the rules of spec/ that it formalises; where a statement rests on a
choice of the model's own, it says so.
-/

section Statements

open Sys2Proof Sys2Proof.Machine

/-! ## Scalar integer instructions (spec 11) -/

/-- R192: what each SALU member writes, over all operands; division by zero and −2^63 by −1 included; nothing traps; and the word of
each member. -/
def Obligations.ScalarAluResults : Prop :=
  ∀ (s : State) (d a b : SReg),
    let x := s.sreg a
    let y := s.sreg b
    let word (code : Nat) : Word32 := BitVec.ofNat 32 (0x01 * 2 ^ 26 + d.val * 2 ^ 21 + a.val * 2 ^ 16 + b.val * 2 ^ 11 + code * 2 ^ 6)
    (∀ p ∈ [(Instr.add d a b, 0), (.sub d a b, 1), (.mul d a b, 2), (.mulh d a b, 3), (.mulhw d a b, 4), (.div d a b, 5), (.divw d a b, 6),
        (.rem d a b, 7), (.remw d a b, 8), (.and d a b, 9), (.or d a b, 10), (.xor d a b, 11), (.andn d a b, 12), (.sll d a b, 13),
        (.srl d a b, 14), (.sra d a b, 15), (.rotl d a b, 16), (.slt d a b, 17), (.sltw d a b, 18), (.min d a b, 19), (.max d a b, 20),
        (.minw d a b, 21), (.maxw d a b, 22)], decode (word p.2) = .ok p.1) ∧
    exec (.add d a b) s = .next (s.finish d (x + y)) ∧ exec (.sub d a b) s = .next (s.finish d (x - y))
    ∧ exec (.mul d a b) s = .next (s.finish d (x * y))
    ∧ exec (.mulh d a b) s = .next (s.finish d ((x.signExtend 128 * y.signExtend 128).extractLsb' 64 64))
    ∧ exec (.mulhw d a b) s = .next (s.finish d ((x.zeroExtend 128 * y.zeroExtend 128).extractLsb' 64 64))
    ∧ exec (.div d a b) s = .next (s.finish d (if y = 0 then BitVec.allOnes 64 else x.sdiv y))
    ∧ exec (.divw d a b) s = .next (s.finish d (if y = 0 then BitVec.allOnes 64 else x / y))
    ∧ exec (.rem d a b) s = .next (s.finish d (if y = 0 then x else x.srem y))
    ∧ exec (.remw d a b) s = .next (s.finish d (if y = 0 then x else x % y))
    ∧ exec (.and d a b) s = .next (s.finish d (x &&& y)) ∧ exec (.or d a b) s = .next (s.finish d (x ||| y))
    ∧ exec (.xor d a b) s = .next (s.finish d (x ^^^ y)) ∧ exec (.andn d a b) s = .next (s.finish d (x &&& ~~~y))
    ∧ exec (.sll d a b) s = .next (s.finish d (x <<< (y.extractLsb' 0 6).toNat))
    ∧ exec (.srl d a b) s = .next (s.finish d (x >>> (y.extractLsb' 0 6).toNat))
    ∧ exec (.sra d a b) s = .next (s.finish d (x.sshiftRight (y.extractLsb' 0 6).toNat))
    ∧ exec (.rotl d a b) s = .next (s.finish d (x <<< (y.extractLsb' 0 6).toNat ||| x >>> (64 - (y.extractLsb' 0 6).toNat)))
    ∧ exec (.slt d a b) s = .next (s.finish d (if x.toInt < y.toInt then 1 else 0))
    ∧ exec (.sltw d a b) s = .next (s.finish d (if x.toNat < y.toNat then 1 else 0))
    ∧ exec (.min d a b) s = .next (s.finish d (if x.toInt ≤ y.toInt then x else y))
    ∧ exec (.max d a b) s = .next (s.finish d (if x.toInt ≤ y.toInt then y else x))
    ∧ exec (.minw d a b) s = .next (s.finish d (if x.toNat ≤ y.toNat then x else y))
    ∧ exec (.maxw d a b) s = .next (s.finish d (if x.toNat ≤ y.toNat then y else x))

/-- R193 to R196: the immediate shifts as SALU's; the members of one operand, each count characterised by what it counts; the
immediate members, lui and aupc; and the words of all of them. -/
def Obligations.ScalarShiftUnaryImmediateResults : Prop :=
  (∀ (d a : SReg) (sh : BitVec 6) (imm : BitVec 16) (wide : BitVec 21),
    let head (op : Nat) : Nat := op * 2 ^ 26 + d.val * 2 ^ 21
    (∀ p ∈ [(Instr.slli d a sh, 0), (.srli d a sh, 1), (.srai d a sh, 2), (.rotli d a sh, 3)],
      decode (BitVec.ofNat 32 (head 0x02 + a.val * 2 ^ 16 + sh.toNat % 32 * 2 ^ 11 + p.2 * 2 ^ 6 + sh.toNat / 32)) = .ok p.1)
    ∧ (∀ p ∈ [(Instr.clz d a, 0), (.ctz d a, 1), (.popc d a, 2), (.sextb d a, 3), (.sexth d a, 4), (.sextw d a, 5), (.zextw d a, 6), (.bswap d a, 7)],
      decode (BitVec.ofNat 32 (head 0x03 + a.val * 2 ^ 16 + p.2 * 2 ^ 6)) = .ok p.1)
    ∧ (∀ p ∈ [(Instr.addi d a imm, 0x04), (.andi d a imm, 0x05), (.ori d a imm, 0x06), (.xori d a imm, 0x07), (.slti d a imm, 0x08), (.sltwi d a imm, 0x09)],
      decode (BitVec.ofNat 32 (head p.2 + a.val * 2 ^ 16 + imm.toNat)) = .ok p.1)
    ∧ decode (BitVec.ofNat 32 (head 0x0A + wide.toNat)) = .ok (.lui d wide) ∧ decode (BitVec.ofNat 32 (head 0x0B + wide.toNat)) = .ok (.aupc d wide))
  ∧ (∀ (s : State) (d a : SReg) (sh : BitVec 6),
    let x := s.sreg a
    exec (.slli d a sh) s = .next (s.finish d (x <<< sh.toNat)) ∧ exec (.srli d a sh) s = .next (s.finish d (x >>> sh.toNat))
    ∧ exec (.srai d a sh) s = .next (s.finish d (x.sshiftRight sh.toNat))
    ∧ exec (.rotli d a sh) s = .next (s.finish d (x <<< sh.toNat ||| x >>> (64 - sh.toNat)))
    ∧ (∃ n : Nat, exec (.clz d a) s = .next (s.finish d (BitVec.ofNat 64 n)) ∧ n ≤ 64 ∧ x.toNat < 2 ^ (64 - n)
        ∧ (n < 64 → x.getLsbD (63 - n) = true))
    ∧ (∃ n : Nat, exec (.ctz d a) s = .next (s.finish d (BitVec.ofNat 64 n)) ∧ n ≤ 64 ∧ (∀ j, j < n → x.getLsbD j = false)
        ∧ (n < 64 → x.getLsbD n = true))
    ∧ exec (.popc d a) s = .next (s.finish d (BitVec.ofNat 64 ((List.range 64).countP (fun i => x.getLsbD i))))
    ∧ exec (.sextb d a) s = .next (s.finish d ((x.extractLsb' 0 8).signExtend 64))
    ∧ exec (.sexth d a) s = .next (s.finish d ((x.extractLsb' 0 16).signExtend 64))
    ∧ exec (.sextw d a) s = .next (s.finish d ((x.extractLsb' 0 32).signExtend 64))
    ∧ exec (.zextw d a) s = .next (s.finish d ((x.extractLsb' 0 32).zeroExtend 64))
    ∧ (∃ v : Word, exec (.bswap d a) s = .next (s.finish d v)
        ∧ ∀ i, i < 8 → v.extractLsb' (8 * i) 8 = x.extractLsb' (8 * (7 - i)) 8))
  ∧ (∀ (s : State) (d a : SReg) (imm : BitVec 16) (wide : BitVec 21),
    let x := s.sreg a
    let se : Word := imm.signExtend 64
    let ze : Word := imm.zeroExtend 64
    exec (.addi d a imm) s = .next (s.finish d (x + se)) ∧ exec (.andi d a imm) s = .next (s.finish d (x &&& ze))
    ∧ exec (.ori d a imm) s = .next (s.finish d (x ||| ze)) ∧ exec (.xori d a imm) s = .next (s.finish d (x ^^^ ze))
    ∧ exec (.slti d a imm) s = .next (s.finish d (if x.toInt < imm.toInt then 1 else 0))
    ∧ exec (.sltwi d a imm) s = .next (s.finish d (if x.toNat < imm.toNat then 1 else 0))
    ∧ exec (.lui d wide) s = .next (s.finish d (BitVec.ofInt 64 (wide.toInt * 65536)))
    ∧ exec (.aupc d wide) s = .next (s.finish d (s.cur.pc + BitVec.ofInt 64 (wide.toInt * 65536))))

/-- R22, R191, R201: what completing a scalar instruction with a result does: the register holds it unless it is s0, which reads 0
and discards the write; every other register, every byte, flag and special register and every other thread are as before; pc goes to
the next word, or back to ls at the last word of an active loop with iterations left. The SALU, SSHI, SUN and immediate instructions and lui and aupc change nothing but their destination, pc and the loop counters:
whatever next state they answer. -/
def Obligations.ScalarFrames : Prop :=
  (∀ (s : State) (d : SReg) (v : Word),
    let t := s.finish d v
    t.sreg d = (if d = 0 then 0 else v) ∧ t.sreg 0 = 0 ∧ ScalarFrame s t [d]
    ∧ (s.cur.le ≠ 0 ∧ s.cur.loopOff = false ∧ s.cur.pc = s.cur.le →
        (s.cur.lc ≠ 0 → t.cur.pc = s.cur.ls ∧ t.cur.lc = s.cur.lc - 1 ∧ t.cur.le = s.cur.le)
        ∧ (s.cur.lc = 0 → t.cur.pc = s.cur.pc + 4 ∧ t.cur.lc = 0 ∧ t.cur.le = 0))
    ∧ (¬ (s.cur.le ≠ 0 ∧ s.cur.loopOff = false ∧ s.cur.pc = s.cur.le) →
        t.cur.pc = s.cur.pc + 4 ∧ t.cur.lc = s.cur.lc ∧ t.cur.le = s.cur.le))
  ∧ (∀ (i : Instr) (d : SReg) (s t : State),
    (match i with
      | .add x _ _ | .sub x _ _ | .mul x _ _ | .mulh x _ _ | .mulhw x _ _ | .div x _ _ | .divw x _ _ | .rem x _ _ | .remw x _ _
      | .and x _ _ | .or x _ _ | .xor x _ _ | .andn x _ _ | .sll x _ _ | .srl x _ _ | .sra x _ _ | .rotl x _ _ | .slt x _ _
      | .sltw x _ _ | .min x _ _ | .max x _ _ | .minw x _ _ | .maxw x _ _ | .slli x _ _ | .srli x _ _ | .srai x _ _ | .rotli x _ _
      | .clz x _ | .ctz x _ | .popc x _ | .sextb x _ | .sexth x _ | .sextw x _ | .zextw x _ | .bswap x _ | .addi x _ _ | .andi x _ _
      | .ori x _ _ | .xori x _ _ | .slti x _ _ | .sltwi x _ _ | .lui x _ | .aupc x _ => x = d
      | _ => False) →
    exec i s = .next t → ScalarFrame s t [d])

/-- R197 to R199: each branch continues at pc + 4·off13 exactly when its condition holds, and otherwise with the next word; a taken
branch makes no end check. jal and jalr check the target, then write the link and go. A target that is not canonical takes the
address-range fault, and a misaligned one of jalr the misaligned-access trap, with nothing written. And the words of all of them. -/
def Obligations.BranchAndJumpResults : Prop :=
  (∀ (d a b : SReg) (off13 : BitVec 13) (off : BitVec 21) (imm : BitVec 16),
    (∀ p ∈ [(Instr.beq a b off13, 0), (.bne a b off13, 1), (.blt a b off13, 2), (.bge a b off13, 3), (.bltw a b off13, 4), (.bgew a b off13, 5)],
      decode (BitVec.ofNat 32 (0x0E * 2 ^ 26 + a.val * 2 ^ 21 + b.val * 2 ^ 16 + p.2 * 2 ^ 13 + off13.toNat)) = .ok p.1)
    ∧ decode (BitVec.ofNat 32 (0x0C * 2 ^ 26 + d.val * 2 ^ 21 + off.toNat)) = .ok (.jal d off)
    ∧ decode (BitVec.ofNat 32 (0x0D * 2 ^ 26 + d.val * 2 ^ 21 + a.val * 2 ^ 16 + imm.toNat)) = .ok (.jalr d a imm)) ∧
  (∀ (s : State) (a b : SReg) (off : BitVec 13),
    let x := s.sreg a
    let y := s.sreg b
    let tgt := s.cur.pc + BitVec.ofInt 64 (off.toInt * 4)
    let go (c : Prop) [Decidable c] : Host.Outcome State Fault Refusal :=
      if c then (if canonical tgt then .next (s.jump tgt) else .next (s.trap (mkTrap 0x0C tgt 0))) else .next s.advance
    exec (.beq a b off) s = go (x = y) ∧ exec (.bne a b off) s = go (x ≠ y)
    ∧ exec (.blt a b off) s = go (x.toInt < y.toInt) ∧ exec (.bge a b off) s = go (y.toInt ≤ x.toInt)
    ∧ exec (.bltw a b off) s = go (x.toNat < y.toNat) ∧ exec (.bgew a b off) s = go (y.toNat ≤ x.toNat))
  ∧ (∀ (s : State) (d a : SReg) (off : BitVec 21) (imm : BitVec 16),
    let t1 := s.cur.pc + BitVec.ofInt 64 (off.toInt * 4)
    let t2 := s.sreg a + BitVec.ofInt 64 imm.toInt
    exec (.jal d off) s = (if canonical t1 then .next ((s.setSreg d (s.cur.pc + 4)).jump t1) else .next (s.trap (mkTrap 0x0C t1 0)))
    ∧ exec (.jalr d a imm) s =
        (if !canonical t2 then .next (s.trap (mkTrap 0x0C t2 0))
         else if t2.extractLsb' 0 2 ≠ 0 then .next (s.trap (mkTrap 0x03 t2 0))
         else .next ((s.setSreg d (s.cur.pc + 4)).jump t2)))

/-- R200, R203: loop and bstrip, each branch of their rules: a zero count skips the body or ends the strip loop, and the second pass
in which bstrip's count does not fall takes the no-progress trap; a target that is not canonical takes the address-range fault with
nothing written (R199); and their words: loop's offset of 0 is illegal. -/
def Obligations.LoopInstructions : Prop :=
  ∀ (s : State) (a : SReg) (off : BitVec 16) (off13 : BitVec 13),
    (off ≠ 0 → decode (BitVec.ofNat 32 (0x0F * 2 ^ 26 + a.val * 2 ^ 16 + off.toNat)) = .ok (.loop a off)) ∧
    (∃ e, decode (BitVec.ofNat 32 (0x0F * 2 ^ 26 + a.val * 2 ^ 16)) = .error e) ∧
    decode (BitVec.ofNat 32 (0x10 * 2 ^ 26 + a.val * 2 ^ 21 + off13.toNat)) = .ok (.bstrip a off13) ∧
    let n := s.sreg a
    let last := s.cur.pc + BitVec.ofNat 64 (4 * off.toNat)
    let head := s.cur.pc + BitVec.ofInt 64 (off13.toInt * 4)
    let c := s.cur
    (n = 0 → canonical (last + 4) = true → exec (.loop a off) s = .next (s.jump (last + 4)))
    ∧ (n = 0 → canonical (last + 4) = false → exec (.loop a off) s = .next (s.trap (mkTrap 0x0C (last + 4) 0)))
    ∧ (n ≠ 0 → exec (.loop a off) s = .next (s.modCur (fun t =>
        { t with lc := n - 1, ls := c.pc + 4, le := last, loopOff := false, pc := c.pc + 4 })))
    ∧ (n = 0 → exec (.bstrip a off13) s = .next (s.modCur (fun t => { t with spv := BitVec.allOnes 64, spn := 0 })).advance)
    ∧ (n ≠ 0 → n.toNat < c.spv.toNat → canonical head = true →
        exec (.bstrip a off13) s = .next (s.modCur (fun t => { t with spv := n, spn := 0, pc := head })))
    ∧ (n ≠ 0 → ¬ n.toNat < c.spv.toNat → c.spn ≠ 1 → canonical head = true →
        exec (.bstrip a off13) s = .next (s.modCur (fun t => { t with spv := n, spn := c.spn + 1, pc := head })))
    ∧ (n ≠ 0 → ¬ n.toNat < c.spv.toNat → c.spn = 1 →
        exec (.bstrip a off13) s = .next ((s.modCur (fun t => { t with spn := 0 })).trap (mkTrap 0x10 head (c.vl.zeroExtend 64))))
    ∧ (n ≠ 0 → (n.toNat < c.spv.toNat ∨ c.spn ≠ 1) → canonical head = false →
        exec (.bstrip a off13) s = .next (s.trap (mkTrap 0x0C head 0)))

/-! ## Decoding and stepping (spec 02, 95) -/

/-- Words written out in the spec's own encoding examples decode to the instructions that they stand for (R192 to R198, R203, R204,
R208, R211), and the word of all zeros is illegal (R28). -/
def Obligations.DecodeWords : Prop :=
  decode 0x04E84980#32 = .ok (.divw 7 8 9) ∧ decode 0x08854081#32 = .ok (.srai 4 5 40) ∧ decode 0x10800004#32 = .ok (.addi 4 0 4)
  ∧ decode 0x28801234#32 = .ok (.lui 4 0x1234) ∧ decode 0x34010000#32 = .ok (.jalr 0 1 0) ∧ decode 0x30200002#32 = .ok (.jal 1 2)
  ∧ decode 0x38855FFD#32 = .ok (.blt 4 5 0x1FFD) ∧ decode 0x40801FFA#32 = .ok (.bstrip 4 0x1FFA)
  ∧ decode 0x4CE849C9#32 = .ok (.fmacc 7 8 9 .f64 (.mode .rtz)) ∧ decode 0x48800000#32 = .ok (.csrr 4 0)
  ∧ decode 0x480540C8#32 = .ok (.csrw 0 5 0x0C8) ∧ decode 0x44000000#32 = .ok .svc ∧ decode 0x44000040#32 = .ok .tret
  ∧ decode 0x44040180#32 = .ok (.mark 4) ∧ (∃ e, decode 0#32 = .error e)

/-- Decoding the word of a well-formed instruction gives the instruction back, with every operand at every value that it admits. -/
def Obligations.DecodeOfEncode : Prop :=
  ∀ (i : Instr) (w : Word32), i.wellFormed = true → encode i = some w → decode w = .ok i

/-- A legal word is the word of exactly the instruction that it decodes to, which is well-formed: no bit of it is ignored, so a word
with a reserved bit or code set is illegal (R16, R29). -/
def Obligations.EncodeOfDecode : Prop :=
  ∀ (w : Word32) (i : Instr), decode w = .ok i → i.wellFormed = true ∧ encode i = some w

/-- A step in which thread t of core k moves, with no event of R313 due before the instruction, runs the instruction that the word at
its pc decodes to (a running repeat frame's is the captured one, R30), and an illegal word takes the illegal-instruction trap with the
word in tval; what the step adds counts the instruction, ends a reissue and keeps the debugger's single step (R352, R309, R350; which
agent moves is the agenda's, log 1). -/
def Obligations.StepRunsDecoded : Prop :=
  ∀ (s : State) (k : CoreId) (t : Tid) (rest : List Turn) (s1 : State) (w : Word32),
    s.agenda = .run k t :: rest →
    let s0 : State := { s with agenda := rest }
    let f := s0.focus k t
    runnable s0 k t = true → f.cur.skewFault = none → f.cur.checks = [] → f.cur.yieldDue = false → f.accepting k t = none →
    hitTrigger f = none → nextWord f = (s1, .ok w) →
    (∀ i, decode w = .ok i → step s = thenDo (exec i s1) (afterIssue f.cur))
    ∧ (∀ e, decode w = .error e → step s = .next (afterIssue f.cur (s1.trap (mkTrap 0x01 (w.zeroExtend 64) 0))))

/-- What a fetch reads: with a live translation of the pc's page in the core's scalar TLB that grants execution at the thread's level,
the four bytes at the physical address, least significant first (R1, R47, R60, R199), and the fetch changes nothing but the list of
contexts that have translated since the last beacon (R63). A thread that waits, idles, stands behind its running block or holds no task
issues nothing: its turn changes nothing (R312). -/
def Obligations.FetchAndBlocking : Prop :=
  (∀ (s : State) (e : TlbEntry),
    let pc := s.cur.pc
    let pa := e.leaf.frame + pc.toNat % 0x10000
    canonical pc = true → pc.toNat % 4 = 0 →
    tlbHit s.curC.scalarTlb (s.coreTime s.curCore) s.curReq (bitsOf pc.toNat 16 41) = some e →
    permFail e.leaf .fetch s.cur.priv = none → e.leaf.kind ≠ 3 → e.leaf.stripe = none → e.leaf.frame % 0x10000 = 0 → pa < wmSize →
    NatSet.has s.wmPoison (pa / 16) = false →
    ∃ w : Word32, fetchWord s pc = (s.noteUse (.core s.curCore) s.curReq, .ok w)
      ∧ ∀ i, i < 4 → w.extractLsb' (8 * i) 8 = s.byteAt (.wm (pa + i)))
  ∧ (∀ (s : State) (k : CoreId) (t : Tid) (rest : List Turn),
    s.agenda = .run k t :: rest →
    let s0 : State := { s with agenda := rest }
    let th := s0.thr k t
    (th.task = none ∨ (s0.core k).halted = true ∨ s0.fatal = true ∨ s0.boot.minimal = true
      ∨ (th.skewFault = none ∧ th.checks = []
          ∧ (waitOver s0 k t = false ∨ ownBlock s0 k t = true ∨ (th.idling = true ∧ th.yreq = false ∧ th.sliceOver = false)))) →
    step s = .next s0)

/-! ## Memory (spec 03) -/

/-- After reset every memory is in its canonical form. -/
def Obligations.ResetMemoryCanonical : Prop := MemInv State.reset

/-- Every step keeps every memory in its canonical form, so that equal memories are equal data. -/
def Obligations.StepKeepsMemoryCanonical : Prop := ∀ s t : State, MemInv s → step s = .next t → MemInv t

/-- A write and then a read: the written bytes are read, little-endian, and no other byte changes, at every target that is memory. -/
def Obligations.TargetReadAfterWrite : Prop :=
  ∀ (s : State) (t : Tgt) (bs : List Byte), (∀ f o, t ≠ .window f o) →
    (tgtRead (tgtWrite s t bs) t bs.length).1 = bs
    ∧ (∀ p, ¬ t.covers bs.length p → (tgtWrite s t bs).byteAt p = s.byteAt p)
    ∧ (∀ n v, leNat (tgtRead (tgtWrite s t (leBytes n v)) t n).1 = v % 256 ^ n)

/-! ## Numbers and scalar floating point (spec 11, 13) -/

/-- R240: a value that the type holds is its own rounding, under every mode and with or without saturation, and raises nothing. R204, R205, R207, R234: special operands: a NaN result is the canonical one, an invalid operation raises NV, and a finite nonzero
dividend over zero raises DZ. -/
def Obligations.FloatRounding : Prop :=
  (∀ (t : ElemType) (rm : Rounding) (sat : Bool) (x : Nat) (n : Bool) (m : Nat) (e : Int),
    t.isInt = false → t ≠ .ds8 → x < 2 ^ t.bits → fval t x = .fin n m e →
    roundDy t rm sat n (FVal.fin n m e).dy = ⟨x, 0, false, false⟩)
  ∧ (∀ (t : SfpType) (rm : Rounding) (a b c : FVal),
    let nan : Nat := match t with | .f32 => 0x7FC00000 | .f64 => 0x7FF8000000000000 | .bf16 => 0x7FC0 | .f16 => 0x7E00
    let nv (l : List FVal) : BitVec 5 := if l.any FVal.isSnan then 0x10 else 0
    (a.isNan = true ∨ b.isNan = true → addVal t.elem rm a b = ⟨nan, nv [a, b], false, false⟩ ∧ mulVal t.elem rm a b = ⟨nan, nv [a, b], false, false⟩
        ∧ divVal t.elem rm a b = ⟨nan, nv [a, b], false, false⟩)
    ∧ (∀ n, addVal t.elem rm (.inf n) (.inf (!n)) = ⟨nan, 0x10, false, false⟩)
    ∧ (∀ n n' e, mulVal t.elem rm (.fin n 0 e) (.inf n') = ⟨nan, 0x10, false, false⟩
        ∧ mulVal t.elem rm (.inf n') (.fin n 0 e) = ⟨nan, 0x10, false, false⟩)
    ∧ (∀ n n' e e', divVal t.elem rm (.fin n 0 e) (.fin n' 0 e') = ⟨nan, 0x10, false, false⟩
        ∧ divVal t.elem rm (.inf n) (.inf n') = ⟨nan, 0x10, false, false⟩)
    ∧ (∀ n m e n' e', m ≠ 0 → divVal t.elem rm (.fin n m e) (.fin n' 0 e') = ⟨infBits t.elem (n != n'), 8, false, false⟩)
    ∧ (∀ m e, m ≠ 0 → sqrtVal t.elem rm (.fin true m e) = ⟨nan, 0x10, false, false⟩)
    ∧ (∀ e, (sqrtVal t.elem rm (.fin true 0 e)).bits = 2 ^ (t.elem.bits - 1))
    ∧ (∀ n n' e, (fmaVal t.elem rm (.fin n 0 e) (.inf n') c).bits = nan
        ∧ (fmaVal t.elem rm (.fin n 0 e) (.inf n') c).flags &&& 0x10 = 0x10))

/-- R204 to R207: each scalar floating instruction writes its member's result, zero-extended, and accrues its flags; when one of them
is enabled it traps instead, with the flags accrued, the register unchanged and the flags in tval. What a scalar floating instruction changes: its destination, the accrued flags, pc and the loop counters; or it takes the
floating-point exception trap with its register unchanged (R207). -/
def Obligations.ScalarFloatInstructions : Prop :=
  (∀ (s : State) (d a b : SReg) (t : SfpType) (rm : RmField) (other : ElemType),
    let bitsOfReg (r : SReg) : Nat := (s.sreg r).toNat % 2 ^ t.elem.bits
    let x := fval t.elem (bitsOfReg a)
    let y := fval t.elem (bitsOfReg b)
    let z := fval t.elem (bitsOfReg d)
    let m : Rounding := match rm with | .mode q => q | .dflt => frmMode s.cur.frm
    let fin (v : Nat) (fl : BitVec 5) : Host.Outcome State Fault Refusal :=
      if s.cur.fexc &&& fl = 0 then .next ((s.accrue fl).finish d (BitVec.ofNat 64 v))
      else .next ((s.accrue fl).trap (mkTrap 0x12 (fl.zeroExtend 64) 0))
    let num (r : NRes) : Host.Outcome State Fault Refusal := fin r.bits r.flags
    let cmp (c : Bool) (nv : Bool) : Host.Outcome State Fault Refusal :=
      fin (if x.isNan = false ∧ y.isNan = false ∧ c = true then 1 else 0) (if nv then 0x10 else 0)
    exec (.fadd d a b t rm) s = num (addVal t.elem m x y) ∧ exec (.fsub d a b t rm) s = num (subVal t.elem m x y)
    ∧ exec (.fmul d a b t rm) s = num (mulVal t.elem m x y) ∧ exec (.fdiv d a b t rm) s = num (divVal t.elem m x y)
    ∧ exec (.fsqrt d a t rm) s = num (sqrtVal t.elem m x) ∧ exec (.fmacc d a b t rm) s = num (fmaVal t.elem m x y z)
    ∧ exec (.fmin d a b t) s = num (minMaxBits t.elem false (bitsOfReg a) (bitsOfReg b))
    ∧ exec (.fmax d a b t) s = num (minMaxBits t.elem true (bitsOfReg a) (bitsOfReg b))
    ∧ exec (.fcmpeq d a b t) s = cmp (ieeeEq x y) (x.isSnan || y.isSnan)
    ∧ exec (.fcmplt d a b t) s = cmp (ieeeLt x y) (x.isNan || y.isNan)
    ∧ exec (.fcmple d a b t) s = cmp (ieeeLt x y || ieeeEq x y) (x.isNan || y.isNan)
    ∧ exec (.fclass d a t) s = fin (classMask t.elem (bitsOfReg a)) 0
    ∧ exec (.fcvt d a other true t rm) s =
        fin (if other = .i32 then (sext64 32 (convToInt other m false x).bits).toNat else (convToInt other m false x).bits)
          (convToInt other m false x).flags
    ∧ (other.isInt = true →
        exec (.fcvt d a other false t rm) s = num (convFromInt t.elem m false (intVal other ((s.sreg a).toNat % 2 ^ other.bits))))
    ∧ (other.isInt = false →
        exec (.fcvt d a other false t rm) s = num (convFloat t.elem m false (fval other ((s.sreg a).toNat % 2 ^ other.bits)))))
  ∧ (∀ (i : Instr) (d : SReg) (s t : State),
    (match i with
      | .fadd x _ _ _ _ | .fsub x _ _ _ _ | .fmul x _ _ _ _ | .fdiv x _ _ _ _ | .fsqrt x _ _ _ | .fmin x _ _ _ | .fmax x _ _ _
      | .fmacc x _ _ _ _ | .fcmpeq x _ _ _ | .fcmplt x _ _ _ | .fcmple x _ _ _ | .fclass x _ _ | .fcvt x _ _ _ _ _ => x = d
      | _ => False) →
    exec i s = .next t →
    FloatFrame s t [d] ∨ ∃ fl : BitVec 5, s.cur.fexc &&& fl ≠ 0 ∧ t = (s.accrue fl).trap (mkTrap 0x12 (fl.zeroExtend 64) 0))

/-! ## Traps and system instructions (spec 00, 11, 17) -/

/-- R306, R307: the level at which a trap is taken, what trap entry writes in the set of that level, and what it keeps. A reissue under
the fault mask that has not issued goes with the new trap, whose tstat.fmask names it (R309). -/
def Obligations.TrapEntry : Prop :=
  (∀ (s : State) (tr : Trap),
    let lvl := trapLevel s s.cur tr
    let old := s.cur.trapSet lvl
    let t := s.trap tr
    let ts := t.cur.trapSet lvl
    ts.nest = old.hdl ∧ ts.tcause = tr.cause ∧ ts.tpc = s.cur.pc ∧ ts.tval = tr.tval ∧ ts.telem = tr.telem ∧ ts.tvtype = s.cur.vtype
    ∧ ts.ppl = (match s.cur.priv with | .user => 0#2 | .kernel => 1#2 | .hyper => 2#2) ∧ ts.tvl = s.cur.vl
    ∧ ts.loop = decide (s.cur.le ≠ 0) ∧ ts.stop = tr.stop ∧ ts.fmask = (tr.fmask || s.cur.reissue.isSome) ∧ ts.rpt = s.cur.rptst.getLsbD 0
    ∧ ts.vblk = tr.vblk ∧ ts.hdl = true ∧ ts.ctx = s.cur.ctxOf ∧ ts.tvec = old.tvec ∧ ts.tscratch = old.tscratch ∧ ts.tfbuf = old.tfbuf
    ∧ t.cur.priv = lvl ∧ t.cur.loopOff = true ∧ t.cur.reissue = none ∧ t.cur.pc = sext64 57 old.tvec.toNat
    ∧ t.cur.vl = s.cur.vl ∧ t.cur.vtype = s.cur.vtype ∧ t.cur.vstart = s.cur.vstart ∧ t.cur.rptst = s.cur.rptst
    ∧ t.cur.lc = s.cur.lc ∧ t.cur.ls = s.cur.ls ∧ t.cur.le = s.cur.le ∧ t.cur.fflags = s.cur.fflags
    ∧ (∀ r, t.sreg r = s.sreg r) ∧ t.curC.vec = s.curC.vec ∧ t.curC.mat = s.curC.mat
    ∧ OutsideThread s t ∧ SameBytes s t)
  ∧ (∀ (s : State) (t : Thread) (tr : Trap),
    (t.priv = .hyper → trapLevel s t tr = .hyper)
    ∧ (t.priv = .kernel → tr.cause = 0x14 → trapLevel s t tr = .hyper)
    ∧ (t.priv = .user → tr.cause = 0x14 → trapLevel s t tr = .kernel)
    ∧ (t.priv ≠ .hyper → tr.cause ≠ 0x14 → tr.stage2 = true → trapLevel s t tr = .hyper)
    ∧ (t.priv ≠ .hyper → tr.cause ≠ 0x14 → tr.stage2 = false → tr.hreg = false → trapLevel s t tr = .kernel))

/-- R309: tret at kernel level or above, with a legal ppl: pc, VTYPE (its reserved bits read 0), VL and privilege come back from the set
of the running level, end checks resume when tstat.loop says so, hdl is cleared, and the instruction at pc is reissued under the fault
mask when fmask is set, which stays until it has issued. With ppl 11 it takes an illegal-instruction trap that leaves both sets of trap
CSRs unchanged, and at user level the privileged-instruction trap. R211, R348, R354: the other SYS instructions but halt. The trap of
svc has tpc at the address that the loop's end check selects; a debug halt takes the place of brk's trap when brkhalt is set; fencei
discards the words of the thread's blocks that are not running; mark writes a trace record where the trace unit records the thread. -/
def Obligations.ReturnAndSystem : Prop :=
  (∀ s : State,
    let lvl := s.cur.priv
    let old := s.cur.trapSet lvl
    (lvl ≠ .user → old.ppl ≠ 3#2 →
      ∃ t, exec .tret s = .next t ∧ t.cur.pc = old.tpc ∧ t.cur.vtype = old.tvtype &&& 0x7F8#11 ∧ t.cur.vl = old.tvl
        ∧ t.cur.priv = (if old.ppl = 0#2 then .user else if old.ppl = 1#2 then .kernel else .hyper)
        ∧ t.cur.loopOff = (s.cur.loopOff && !old.loop) ∧ t.cur.reissue = (if old.fmask then some lvl else none)
        ∧ (t.cur.trapSet lvl) = { old with hdl := false }
        ∧ t.cur.lc = s.cur.lc ∧ t.cur.ls = s.cur.ls ∧ t.cur.le = s.cur.le ∧ (∀ r, t.sreg r = s.sreg r) ∧ OutsideThread s t ∧ SameBytes s t)
    ∧ (lvl ≠ .user → old.ppl = 3#2 →
      ∃ t, exec .tret s = .next t ∧ t.cur.pc = sext64 57 old.tvec.toNat ∧ t.cur.priv = lvl ∧ t.cur.loopOff = true
        ∧ t.cur.ktrap = s.cur.ktrap ∧ t.cur.htrap = s.cur.htrap ∧ (∀ r, t.sreg r = s.sreg r) ∧ OutsideThread s t ∧ SameBytes s t)
    ∧ (lvl = .user → exec .tret s = .next (s.trap (mkTrap 0x02 0x44000040 0))))
  ∧ (∀ (s : State) (a : SReg),
    exec .svc s = .next (s.advance.trap (mkTrap 0x14 0 0))
    ∧ (s.curC.brkhalt = false → exec .brk s = .next (s.trap (mkTrap 0x13 0 0)))
    ∧ (s.curC.brkhalt = true → ∃ t, exec .brk s = .next t ∧ t.curC.halted = true
        ∧ ∀ u, (t.thr s.curCore u).dcause = 2 ∧ ((t.thr s.curCore u).dpc = (t.thr s.curCore u).pc) ∧ (t.thr s.curCore u).wait = .none
            ∧ (t.thr s.curCore u).ktrap = (s.thr s.curCore u).ktrap ∧ (t.thr s.curCore u).htrap = (s.thr s.curCore u).htrap)
    ∧ (s.cur.priv ≠ .user → exec .idle s = .next (s.modCur (fun t => { t with idling := true })).advance)
    ∧ (s.cur.priv = .user → exec .idle s = .next (s.trap (mkTrap 0x02 0x44000100 0)))
    ∧ (∃ t, exec .fencei s = .next t ∧ t.cur = s.cur.advance ∧ SameBytes s t
        ∧ (∀ b, s.curC.vec.block = some b → t.curC.vec.block = some (if b.tid = s.curTid ∧ b.stopped = true then { b with words := [] } else b))
        ∧ (s.curC.vec.block = none → t.curC.vec.block = none)
        ∧ ∀ b ∈ t.curC.vec.parked, b.tid = s.curTid → b.stopped = true → b.words = [])
    ∧ (s.curC.traces s.curTid = false → exec (.mark a) s = .next s.advance)
    ∧ (s.curC.traces s.curTid = true → ∃ t, exec (.mark a) s = .next t ∧ t.curC.ring.seq = s.curC.ring.seq + 1
        ∧ t.cur.pc = s.advance.cur.pc
        ∧ let at_ := s.curC.ring.base + 32 * (s.curC.ring.seq.toNat % 2 ^ (s.curC.ring.size + 6))
          at_ + 32 ≤ 0x18000000000 → leNat (Mem.bytes t.wm at_ 8) = s.coreTime s.curCore % 2 ^ 64 ∧ leNat (Mem.bytes t.wm (at_ + 8) 8) = s.cur.pc.toNat
          ∧ leNat (Mem.bytes t.wm (at_ + 16) 8) = (s.sreg a).toNat ∧ leNat (Mem.bytes t.wm (at_ + 24) 1) = 1))

/-! ## Control and status registers (spec 11) -/

/-- R208, R209: each CSR instruction reads the old value into s[d], and where it writes, writes its own value; csrs and csrc with a = 0
only read. It completes for a CSR of the map at a level that may, when no earlier lane, matrix or copy work of the thread that the CSR
waits for is unfinished, and otherwise waits at its pc. R4, R208, R29: a CSR access below its level, or a write of a CSR that has no write level, takes cause 0x02 and a number outside the
map cause 0x01, with the instruction's word in tval and nothing read or written. -/
def Obligations.CsrInstructions : Prop :=
  (∀ (s : State) (d a : SReg) (csr : BitVec 12),
    let n := csr.toNat
    let v := csrRead s s.curCore s.curTid s.cur.priv n
    let write (x : Word) : Host.Outcome State Fault Refusal :=
      match csrWrite s s.curCore s.curTid s.cur.priv n x with
      | some t => .next (t.finish d v)
      | none => .next (s.trap (mkTrap 0x0F x 0))
    csrExists csr = true → (csrLevels n).1.le s.cur.priv = true →
    (csrWaits n = true → s.unitsBusy = false ∧ s.copiesBusy = false) →
    exec (.csrr d csr) s = .next (s.finish d v)
    ∧ exec (.csrs d 0 csr) s = .next (s.finish d v) ∧ exec (.csrc d 0 csr) s = .next (s.finish d v)
    ∧ (∀ l, (csrLevels n).2 = some l → l.le s.cur.priv = true →
        exec (.csrw d a csr) s = write (s.sreg a)
        ∧ (a ≠ 0 → exec (.csrs d a csr) s = write (v ||| s.sreg a) ∧ exec (.csrc d a csr) s = write (v &&& ~~~(s.sreg a)))))
  ∧ (∀ (s : State) (d a : SReg) (csr : BitVec 12),
    csrExists csr = true → (csrLevels csr.toNat).1.le s.cur.priv = true →
    csrWaits csr.toNat = true → (s.unitsBusy = true ∨ s.copiesBusy = true) →
    exec (.csrr d csr) s = .next (s.block .block)
    ∧ ∀ l, (csrLevels csr.toNat).2 = some l → l.le s.cur.priv = true →
        exec (.csrw d a csr) s = .next (s.block .block) ∧ exec (.csrs d a csr) s = .next (s.block .block)
        ∧ exec (.csrc d a csr) s = .next (s.block .block))
  ∧ (∀ (s : State) (d a : SReg) (csr : BitVec 12),
    let n := csr.toNat
    (csrExists csr = true → (csrLevels n).1.le s.cur.priv = false →
      exec (.csrr d csr) s = .next (s.trap (mkTrap 0x02 (wordOf (.csrr d csr)) 0)))
    ∧ (csrExists csr = true → (csrLevels n).2 = none → exec (.csrw d a csr) s = .next (s.trap (mkTrap 0x02 (wordOf (.csrw d a csr)) 0)))
    ∧ (∀ l, csrExists csr = true → (csrLevels n).2 = some l → l.le s.cur.priv = false →
        exec (.csrw d a csr) s = .next (s.trap (mkTrap 0x02 (wordOf (.csrw d a csr)) 0)))
    ∧ (csrExists csr = false → exec (.csrr d csr) s = .next (s.trap (mkTrap 0x01 (wordOf (.csrr d csr)) 0))))

/-- R202, R208, R210: what the CSRs of the running thread hold, at the privilege at which they are read (R306 for the trap set), and
what a write leaves in the plain ones; a reserved value in frm or bmode leaves the field as it was. -/
def Obligations.CsrMap : Prop :=
  (∀ (s : State) (pv : Priv),
    let c := s.cur
    let ts := c.trapSet pv
    let rd (n : Nat) : Word := csrRead s s.curCore s.curTid pv n
    rd 0x00 = c.vl.zeroExtend 64 ∧ rd 0x01 = c.vtype.zeroExtend 64 ∧ rd 0x02 = 4096 ∧ rd 0x03 = c.vstart.zeroExtend 64
    ∧ rd 0x05 = c.vlive.zeroExtend 64 ∧ (∀ r : VReg, rd (0x20 + r.val) = (s.vreg r).vpx.zeroExtend 64)
    ∧ (∀ r : VReg, rd (0x40 + r.val) = (s.vreg r).vhw.zeroExtend 64) ∧ rd 0x60 = c.lc ∧ rd 0x61 = c.ls ∧ rd 0x62 = c.le ∧ rd 0x63 = c.spv
    ∧ rd 0x64 = c.spn.zeroExtend 64 ∧ rd 0x65 = c.rptst ∧ rd 0x70 = BitVec.ofNat 64 (s.coreTime s.curCore)
    ∧ (∀ l : Fin 8, rd (0x73 + l.val) = c.levels[l].zeroExtend 64) ∧ rd 0x80 = ts.tcause.zeroExtend 64 ∧ rd 0x81 = ts.tpc ∧ rd 0x82 = ts.tval
    ∧ rd 0x83 = ts.telem ∧ rd 0x84 = ts.tvtype.zeroExtend 64 ∧ rd 0x85 = ts.tstat ∧ rd 0x86 = ts.tvec ∧ rd 0x87 = ts.tscratch
    ∧ rd 0x88 = ts.tfbuf ∧ rd 0x90 = c.msh.zeroExtend 64 ∧ rd 0x91 = s.curC.mat.acownWord
    ∧ (∀ q : Tile, rd (0x92 + q.val) = s.curC.mat.tiles[q].aext.word) ∧ rd 0x98 = c.bthr.zeroExtend 64 ∧ rd 0x99 = c.bthra.zeroExtend 64
    ∧ rd 0x9A = c.bmode.zeroExtend 64 ∧ rd 0x9B = c.besc ∧ rd 0xB0 = c.scyc ∧ rd 0xB1 = c.vcyc ∧ rd 0xB2 = c.mcyc ∧ rd 0xB3 = c.astl
    ∧ (∀ j : Fin 8, rd (0xB4 + j.val) = s.curC.counters[j].word) ∧ rd 0xC8 = c.frm.zeroExtend 64 ∧ rd 0xC9 = c.fflags.zeroExtend 64
    ∧ rd 0xCA = c.fexc.zeroExtend 64 ∧ (rd 0xCB = 1 ↔ c.vsat = true))
  ∧ (∀ (s : State) (pv : Priv) (v : Word),
    let wr (n : Nat) (f : Thread → Thread) : Prop := csrWrite s s.curCore s.curTid pv n v = some (s.modCur f)
    let ts (f : TrapSet → TrapSet) (t : Thread) : Thread := t.modTrapSet pv f
    wr 0x03 (fun t => { t with vstart := v.extractLsb' 0 12 }) ∧ wr 0x05 (fun t => { t with vlive := v.extractLsb' 0 48 })
    ∧ wr 0x60 (fun t => { t with lc := v }) ∧ wr 0x63 (fun t => { t with spv := v }) ∧ wr 0x64 (fun t => { t with spn := v.extractLsb' 0 2 })
    ∧ wr 0x80 (ts (fun x => { x with tcause := v.extractLsb' 0 8 })) ∧ wr 0x81 (ts (fun x => { x with tpc := v }))
    ∧ wr 0x82 (ts (fun x => { x with tval := v })) ∧ wr 0x83 (ts (fun x => { x with telem := v }))
    ∧ wr 0x84 (ts (fun x => { x with tvtype := v.extractLsb' 0 11 })) ∧ wr 0x87 (ts (fun x => { x with tscratch := v }))
    ∧ wr 0x98 (fun t => { t with bthr := v.extractLsb' 0 32 }) ∧ wr 0x99 (fun t => { t with bthra := v.extractLsb' 0 32 })
    ∧ (v.extractLsb' 0 2 ≠ 3#2 → wr 0x9A (fun t => { t with bmode := v.extractLsb' 0 2 })) ∧ (v.extractLsb' 0 2 = 3#2 → wr 0x9A (fun t => t))
    ∧ wr 0x9B (fun t => { t with besc := v }) ∧ wr 0xB0 (fun t => { t with scyc := v }) ∧ wr 0xB1 (fun t => { t with vcyc := v })
    ∧ wr 0xB2 (fun t => { t with mcyc := v }) ∧ wr 0xB3 (fun t => { t with astl := v })
    ∧ ((v.extractLsb' 0 3).toNat ≤ 4 → wr 0xC8 (fun t => { t with frm := v.extractLsb' 0 3 }))
    ∧ (4 < (v.extractLsb' 0 3).toNat → wr 0xC8 (fun t => t))
    ∧ wr 0xC9 (fun t => { t with fflags := v.extractLsb' 0 5 }) ∧ wr 0xCA (fun t => { t with fexc := v.extractLsb' 0 5 })
    ∧ wr 0xCB (fun t => { t with vsat := v.getLsbD 0 })
    ∧ (s.cur.le = 0 → wr 0x61 (fun t => { t with ls := v }) ∧ (v ≠ 0 → wr 0x62 (fun t => { t with le := v, loopOff := false })))
    ∧ (v = 0 → wr 0x62 (fun t => { t with le := 0 }))
    ∧ (s.cur.le ≠ 0 → s.cur.loopOff = false → csrWrite s s.curCore s.curTid pv 0x61 v = none
        ∧ (v ≠ 0 → csrWrite s s.curCore s.curTid pv 0x62 v = none)))

/-! ## Translation (spec 04) -/

/-- R52, R53, R60, R374: an access that finds a live cached translation makes no walk: it goes to the byte that the leaf names, or is
denied with the reason of R68; a write may use the entry only when its leaf's dirty bit was set; the state notes the context as one that
has translated (R63). R55, R56: no lease outlives 8 ms from the walk that read it, and no entry serves an access at or after its expiry. R53: translating an access changes no byte of any memory but by setting A and D bits in table entries, and no register, mask or
thread. -/
def Obligations.TranslationCaching : Prop :=
  ((∀ (s : State) (u : XUnit) (rq : XReq) (k : AccKind) (va : Word) (hostOk : Bool) (e : TlbEntry),
    tlbHit (unitTlb s u) (unitTime s u) rq (bitsOf va.toNat 16 41) = some e →
    (k = .store ∨ k = .atomic → e.leaf.dirty = true) →
    let s' := s.noteUse (unitAgent u) rq
    (∀ r w, permFail e.leaf k rq.priv = some (r, w) → translate s u rq k va hostOk = (s', .error (.page r w)))
    ∧ (permFail e.leaf k rq.priv = none →
        (∀ f, leafTarget s rq e.leaf va.toNat hostOk (k != .fetch) = .error f → translate s u rq k va hostOk = (s', .error f))
        ∧ (∀ t, leafTarget s rq e.leaf va.toNat hostOk (k != .fetch) = .ok t →
            translate s u rq k va hostOk = (s'.noteAts rq.part t, .ok (t, e.leaf)))))
  ∧ ((∀ (s : State) (rq : XReq) (now va : Nat) (wc : List WalkEntry) (w : Walked) (x : Nat),
    walkPage s rq now va wc = .ok w → w.acc.path.exp = some x → x ≤ now + 8000000)
  ∧ (∀ (l : List TlbEntry) (now : Nat) (rq : XReq) (vpn : Nat) (e : TlbEntry), tlbHit l now rq vpn = some e →
      e ∈ l ∧ now < e.expiry ∧ e.part = rq.part ∧ e.vpn = vpn ∧ (e.asn = rq.asn ∨ e.leaf.global = true))))
  ∧ (∀ (s s1 : State) (u : XUnit) (rq : XReq) (k : AccKind) (va : Word) (hostOk : Bool) (r : Except XFail (Tgt × LeafInfo)),
    translate s u rq k va hostOk = (s1, r) →
    (∀ p, ∃ m : Byte, m &&& 0x3F = 0 ∧ s1.byteAt p = s.byteAt p ||| m)
    ∧ (∀ c t, s1.thr c t = s.thr c t) ∧ (∀ c, (s1.core c).vec = (s.core c).vec ∧ (s1.core c).mat = (s.core c).mat)
    ∧ (∀ c a, s1.byteAt (.spad c a) = s.byteAt (.spad c a))
    ∧ s1.curCore = s.curCore ∧ s1.curTid = s.curTid ∧ s1.time = s.time)

/-! ## Scalar memory accesses (spec 05, 08) -/

/-- R81, R341: ld and ldz write the bytes at the address, sign- or zero-extended; poisoned bytes read zero and leave a contained check
for the context; a register of a window is read whole, at a level that may (R324); s1 is the state after the translation, which has set
table bits, caches and notes only (TranslationCaching). R81, R163: st writes the low bytes of s[d] at the address, little-endian, and
every other byte of every memory, every register and every other part of the thread is as before; a register of a window is written
whole, at a level that may, once the instruction has completed. -/
def Obligations.ScalarAccesses : Prop :=
  (∀ (s s1 : State) (d a : SReg) (sz : Width) (off : BitVec 14) (t : Tgt) (lf : LeafInfo),
    let w := Width.bytes sz
    let addr := s.sreg a + BitVec.ofInt 64 (off.toInt * w)
    canonical addr = true → addr.toNat % w = 0 → translate s (.scalar s.curCore) s.curReq .load addr true = (s1, .ok (t, lf)) →
    ((∀ f o, t ≠ .window f o) → (tgtRead s1 t w).2 = false →
      exec (.ld d a sz off) s = .next (s1.finish d (sext64 (8 * w) (leNat (tgtRead s1 t w).1)))
      ∧ exec (.ldz d a sz off) s = .next (s1.finish d (zext64 (8 * w) (leNat (tgtRead s1 t w).1))))
    ∧ ((∀ f o, t ≠ .window f o) → (tgtRead s1 t w).2 = true →
      exec (.ld d a sz off) s = .next ((s1.poisonRead (tgtBank t)).finish d 0)
      ∧ exec (.ldz d a sz off) s = .next ((s1.poisonRead (tgtBank t)).finish d 0)
      ∧ ((s1.poisonRead (tgtBank t)).finish d 0).cur.checks = s1.cur.checks ++ [tgtBank t])
    ∧ (∀ f o, t = .window f o → w = 8 → o % 8 = 0 → (windowLevels f o).1.le s1.cur.priv = true →
      exec (.ld d a sz off) s = .next (s1.finish d (windowRead s1 f o)) ∧ exec (.ldz d a sz off) s = .next (s1.finish d (windowRead s1 f o))))
  ∧ (∀ (s s1 : State) (d a : SReg) (sz : Width) (off : BitVec 14) (t : Tgt) (lf : LeafInfo),
    let w := Width.bytes sz
    let addr := s.sreg a + BitVec.ofInt 64 (off.toInt * w)
    canonical addr = true → addr.toNat % w = 0 → translate s (.scalar s.curCore) s.curReq .store addr true = (s1, .ok (t, lf)) →
    (∀ f o l, t = .window f o → w = 8 → o % 8 = 0 → (windowLevels f o).2 = some l → l.le s1.cur.priv = true →
      exec (.st d a sz off) s = .next (windowWrite s1.advance f o (s.sreg d)))
    ∧ ((∀ f o, t ≠ .window f o) →
    ∃ u, exec (.st d a sz off) s = .next u ∧ (tgtRead u t w).1 = leBytes w (s.sreg d).toNat
      ∧ (∀ p, ¬ t.covers w p → u.byteAt p = s1.byteAt p) ∧ u.cur.pc = s1.cur.advance.pc ∧ (∀ r, u.sreg r = s1.sreg r)
      ∧ { u.cur with pc := s1.cur.pc, lc := s1.cur.lc, le := s1.cur.le, wakeC := s1.cur.wakeC } = s1.cur))

/-- R34, R37, R66, R67, R81, R82, R158: the faults of the scalar and atomic accesses, in their order, with no register written: in
generic space address range, misalignment, then what the translation answers, an atomic that no host page carries being refused one; in
the scratchpad range, misalignment, the lane-local region. The tval of a page fault of these accesses is the address (R81, R158;
log 37). -/
def Obligations.ScalarAccessFaults : Prop :=
  (∀ (s : State) (i : Instr) (k : AccKind) (addr : Word) (w : Nat) (host : Bool),
    (match i with
      | .ld _ a sz off | .ldz _ a sz off => k = .load ∧ w = Width.bytes sz ∧ addr = s.sreg a + BitVec.ofInt 64 (off.toInt * w) ∧ host = true
      | .st _ a sz off => k = .store ∧ w = Width.bytes sz ∧ addr = s.sreg a + BitVec.ofInt 64 (off.toInt * w) ∧ host = true
      | .amoswap _ a _ _ _ dbl false | .amoadd _ a _ _ _ dbl false | .amocas _ a _ _ _ dbl false =>
        k = .atomic ∧ w = (if dbl then 8 else 4) ∧ addr = s.sreg a ∧ host = true
      | .amoand _ a _ _ _ dbl false | .amoor _ a _ _ _ dbl false | .amoxor _ a _ _ _ dbl false | .amomin _ a _ _ _ dbl false
      | .amomax _ a _ _ _ dbl false | .amominw _ a _ _ _ dbl false | .amomaxw _ a _ _ _ dbl false =>
        k = .atomic ∧ w = (if dbl then 8 else 4) ∧ addr = s.sreg a ∧ host = false
      | .sigadd a _ => k = .atomic ∧ w = 8 ∧ addr = s.sreg a ∧ host = true
      | _ => False) →
    (canonical addr = false → exec i s = .next (s.trap (mkTrap 0x0C addr 0)))
    ∧ (canonical addr = true → addr.toNat % w ≠ 0 → exec i s = .next (s.trap (mkTrap 0x03 addr 0)))
    ∧ (∀ s1, canonical addr = true → addr.toNat % w = 0 → translate s (.scalar s.curCore) s.curReq k addr host = (s1, .error .access) →
        exec i s = .next (s1.trap (mkTrap 0x04 addr 0)))
    ∧ (∀ s1 r loc, canonical addr = true → addr.toNat % w = 0 →
        translate s (.scalar s.curCore) s.curReq k addr host = (s1, .error (.page r loc)) →
        ∃ t, exec i s = .next t ∧ (t.cur.trapSet t.cur.priv).tcause = 0x05 ∧ (t.cur.trapSet t.cur.priv).tpc = s1.cur.pc
          ∧ (t.cur.trapSet t.cur.priv).tval = addr ∧ (∀ r, t.sreg r = s1.sreg r)))
  ∧ (∀ (s : State) (i : Instr) (addr : Word) (w : Nat),
    (match i with
      | .lds _ a sz _ off | .sts _ a sz _ off => w = Width.bytes sz ∧ addr = s.sreg a + BitVec.ofInt 64 (off.toInt * w)
      | .amoswap _ a _ _ _ dbl true | .amoadd _ a _ _ _ dbl true | .amoand _ a _ _ _ dbl true | .amoor _ a _ _ _ dbl true
      | .amoxor _ a _ _ _ dbl true | .amomin _ a _ _ _ dbl true | .amomax _ a _ _ _ dbl true | .amominw _ a _ _ _ dbl true
      | .amomaxw _ a _ _ _ dbl true | .amocas _ a _ _ _ dbl true => w = (if dbl then 8 else 4) ∧ addr = s.sreg a
      | _ => False) →
    (0x400000 ≤ addr.toNat → exec i s = .next (s.trap (mkTrap 0x06 addr 0)))
    ∧ (addr.toNat < 0x400000 → addr.toNat % w ≠ 0 → exec i s = .next (s.trap (mkTrap 0x03 addr 0)))
    ∧ (addr.toNat < 0x400000 → addr.toNat % w = 0 → 0x380000 ≤ addr.toNat → exec i s = .next (s.trap (mkTrap 0x04 addr 0))))

/-- R82, R73, R76: lds from an allocated granule: the bytes, sign-extended; .take empties the granule and the other forms leave its
bit; .wait and .take of an empty granule wait there; poison reads zero and leaves a contained check (R341). A guard access reads zero
without waiting. R82, R74, R76: sts to an allocated granule: the low bytes of s[d]; .fill sets the granule's bit, .drain clears it; every other byte
and bit is as before. A guard access is discarded. -/
def Obligations.ScratchpadAccesses : Prop :=
  (∀ (s : State) (d a : SReg) (sz : Width) (qf : LoadQual) (off : BitVec 12),
    let w := Width.bytes sz
    let addr := s.sreg a + BitVec.ofInt 64 (off.toInt * w)
    let g := addr.toNat / 16
    addr.toNat < 0x380000 → addr.toNat % w = 0 →
    (inAllocs s.curAllocs addr.toNat = true → s.curC.spadPoisoned addr.toNat w = false → (qf = .plain ∨ s.curC.isFull g = true) →
      ∃ t, exec (.lds d a sz qf off) s = .next t
        ∧ t.sreg d = (if d = 0 then 0 else sext64 (8 * w) (leNat (Mem.bytes s.curC.spad addr.toNat w)))
        ∧ (∀ r, r ≠ d → t.sreg r = s.sreg r) ∧ t.cur.pc = s.cur.advance.pc ∧ SameBytes s t
        ∧ t.curC.full = (if qf = .take then NatSet.del s.curC.full g else s.curC.full))
    ∧ (inAllocs s.curAllocs addr.toNat = true → s.curC.spadPoisoned addr.toNat w = true → (qf = .plain ∨ s.curC.isFull g = true) →
      ∃ t, exec (.lds d a sz qf off) s = .next t ∧ t.sreg d = 0 ∧ (∀ r, r ≠ d → t.sreg r = s.sreg r) ∧ t.cur.pc = s.cur.advance.pc
        ∧ t.cur.checks = s.cur.checks ++ [coreBank s.curCore] ∧ SameBytes s t
        ∧ t.curC.full = (if qf = .take then NatSet.del s.curC.full g else s.curC.full))
    ∧ (inAllocs s.curAllocs addr.toNat = true → qf ≠ .plain → s.curC.isFull g = false →
      exec (.lds d a sz qf off) s = .next (s.block (.granule [g])))
    ∧ (inAllocs s.curAllocs addr.toNat = false → exec (.lds d a sz qf off) s = .next ((s.noteGuardAt addr.toNat).finish d 0)))
  ∧ (∀ (s : State) (d a : SReg) (sz : Width) (qf : StoreQual) (off : BitVec 12),
    let w := Width.bytes sz
    let addr := s.sreg a + BitVec.ofInt 64 (off.toInt * w)
    let g := addr.toNat / 16
    addr.toNat < 0x380000 → addr.toNat % w = 0 →
    (inAllocs s.curAllocs addr.toNat = true →
      ∃ t, exec (.sts d a sz qf off) s = .next t ∧ Mem.bytes t.curC.spad addr.toNat w = leBytes w (s.sreg d).toNat
        ∧ (∀ p, (∀ i, i < w → p ≠ .spad s.curCore (addr.toNat + i)) → t.byteAt p = s.byteAt p)
        ∧ (∀ r, t.sreg r = s.sreg r) ∧ t.cur.pc = s.cur.advance.pc
        ∧ t.curC.full = (match qf with | .plain => s.curC.full | .fill => NatSet.add s.curC.full g | .drain => NatSet.del s.curC.full g))
    ∧ (inAllocs s.curAllocs addr.toNat = false → exec (.sts d a sz qf off) s = .next (s.noteGuardAt addr.toNat).advance))

/-- R157: each atomic on a generic address reads the old value into s[d], sign-extended, and writes its member's new value, or nothing
(a failing amocas); every other byte and register is as before. The old value of poisoned bytes is zero, with a contained check (R341).
A host page carries amoswap, amoadd and amocas only (R37, R158): every other member takes the access fault there, whether the page is
absent or not (R374). R157, R72, R76: the same in the scratchpad space, where full-empty bits are unchanged and a guard access returns
zero and writes nothing. -/
def Obligations.AtomicInstructions : Prop :=
  (∀ (s s1 : State) (d a b : SReg) (o : Order) (sc : Scope) (dbl : Bool) (t : Tgt) (lf : LeafInfo),
    let w := if dbl then 8 else 4
    let addr := s.sreg a
    let x := (s.sreg b).toNat % 2 ^ (8 * w)
    canonical addr = true → addr.toNat % w = 0 → (∀ f p, t ≠ .window f p) →
    let bad := (tgtRead s1 t w).2
    let old := if bad then 0 else leNat (tgtRead s1 t w).1
    let did (i : Instr) (new : Option Nat) : Prop :=
      ∃ u, exec i s = .next u ∧ u.sreg d = (if d = 0 then 0 else sext64 (8 * w) old) ∧ (∀ r, r ≠ d → u.sreg r = s1.sreg r)
        ∧ (∀ v, new = some v → leNat (tgtRead u t w).1 = v) ∧ (new = none → ∀ p, u.byteAt p = s1.byteAt p)
        ∧ (∀ p, ¬ t.covers w p → u.byteAt p = s1.byteAt p) ∧ u.cur.pc = s1.cur.advance.pc
        ∧ u.cur.checks = s1.cur.checks ++ (if bad then [tgtBank t] else [])
    let sold := signedOf (8 * w) old
    let sx := signedOf (8 * w) x
    (translate s (.scalar s.curCore) s.curReq .atomic addr true = (s1, .ok (t, lf)) →
      did (.amoswap d a b o sc dbl false) (some x) ∧ did (.amoadd d a b o sc dbl false) (some ((old + x) % 2 ^ (8 * w)))
      ∧ did (.amocas d a b o sc dbl false) (if old = (s.sreg d).toNat % 2 ^ (8 * w) then some x else none))
    ∧ (translate s (.scalar s.curCore) s.curReq .atomic addr false = (s1, .ok (t, lf)) →
      did (.amoand d a b o sc dbl false) (some (old &&& x)) ∧ did (.amoor d a b o sc dbl false) (some (old ||| x))
      ∧ did (.amoxor d a b o sc dbl false) (some (old ^^^ x)) ∧ did (.amomin d a b o sc dbl false) (some (if sx < sold then x else old))
      ∧ did (.amomax d a b o sc dbl false) (some (if sold < sx then x else old))
      ∧ did (.amominw d a b o sc dbl false) (some (min old x)) ∧ did (.amomaxw d a b o sc dbl false) (some (max old x))))
  ∧ (∀ (s s1 : State) (d a b : SReg) (o : Order) (sc : Scope) (dbl : Bool) (r : Except XFail (Tgt × LeafInfo)),
    let w := if dbl then 8 else 4
    let addr := s.sreg a
    canonical addr = true → addr.toNat % w = 0 →
    ((∃ h lf, r = .ok (.host h, lf)) ∨ ∃ p, r = .error (.absent p)) → translate s (.scalar s.curCore) s.curReq .atomic addr true = (s1, r) →
    ∀ i ∈ [Instr.amoand d a b o sc dbl false, .amoor d a b o sc dbl false, .amoxor d a b o sc dbl false, .amomin d a b o sc dbl false,
        .amomax d a b o sc dbl false, .amominw d a b o sc dbl false, .amomaxw d a b o sc dbl false],
      ∃ u : State, exec i s = .next (u.trap (mkTrap 0x04 addr 0)) ∧ ∀ q, u.sreg q = s.sreg q)
  ∧ (∀ (s : State) (d a b : SReg) (o : Order) (sc : Scope) (dbl : Bool),
    let w := if dbl then 8 else 4
    let addr := (s.sreg a).toNat
    addr < 0x380000 → addr % w = 0 →
    let bad := s.curC.spadPoisoned addr w
    let old := if bad then 0 else leNat (Mem.bytes s.curC.spad addr w)
    let x := (s.sreg b).toNat % 2 ^ (8 * w)
    let did (i : Instr) (new : Option Nat) : Prop :=
      ∃ u, exec i s = .next u ∧ u.sreg d = (if d = 0 then 0 else sext64 (8 * w) old) ∧ (∀ r, r ≠ d → u.sreg r = s.sreg r)
        ∧ (∀ v, new = some v → leNat (Mem.bytes u.curC.spad addr w) = v) ∧ (new = none → SameBytes s u)
        ∧ u.curC.full = s.curC.full ∧ u.cur.pc = s.cur.advance.pc
        ∧ (∀ p, (∀ i, i < w → p ≠ .spad s.curCore (addr + i)) → u.byteAt p = s.byteAt p)
        ∧ u.cur.checks = s.cur.checks ++ (if bad then [coreBank s.curCore] else [])
    let sold := signedOf (8 * w) old
    let sx := signedOf (8 * w) x
    (inAllocs s.curAllocs addr = true →
      did (.amoswap d a b o sc dbl true) (some x) ∧ did (.amoadd d a b o sc dbl true) (some ((old + x) % 2 ^ (8 * w)))
      ∧ did (.amocas d a b o sc dbl true) (if old = (s.sreg d).toNat % 2 ^ (8 * w) then some x else none)
      ∧ did (.amoand d a b o sc dbl true) (some (old &&& x)) ∧ did (.amoor d a b o sc dbl true) (some (old ||| x))
      ∧ did (.amoxor d a b o sc dbl true) (some (old ^^^ x)) ∧ did (.amomin d a b o sc dbl true) (some (if sx < sold then x else old))
      ∧ did (.amomax d a b o sc dbl true) (some (if sold < sx then x else old))
      ∧ did (.amominw d a b o sc dbl true) (some (min old x)) ∧ did (.amomaxw d a b o sc dbl true) (some (max old x)))
    ∧ (inAllocs s.curAllocs addr = false →
      ∀ i ∈ [Instr.amoswap d a b o sc dbl true, .amoadd d a b o sc dbl true, .amoand d a b o sc dbl true, .amoor d a b o sc dbl true,
          .amoxor d a b o sc dbl true, .amomin d a b o sc dbl true, .amomax d a b o sc dbl true, .amominw d a b o sc dbl true,
          .amomaxw d a b o sc dbl true, .amocas d a b o sc dbl true],
        exec i s = .next ((s.noteGuardAt addr).finish d 0)))

/-! ## Synchronization (spec 08) -/

/-- R160, R163, R164, R165, R77: fences, counters and time: each completes when what it waits for has come, and otherwise waits at its
pc (that the other fences only complete is the model's: its agents move one at a time, log 1). waitge reports a pending record first; its
counter may be a window register that the level may read (R81, R324), which sigadd may not add to (R37). Poisoned bytes read zero, with a
contained check (R341). -/
def Obligations.FencesAndCounters : Prop :=
  ∀ (s : State) (a b : SReg) (sc : Scope),
    exec (.fence .full sc) s = .next s.advance ∧ exec (.fence .acquire sc) s = .next s.advance ∧ exec (.fence .release sc) s = .next s.advance
    ∧ ((∀ c ∈ s.curC.copies, c.tid ≠ s.curTid) → exec (.fence .copy sc) s = .next s.advance)
    ∧ ((∃ c ∈ s.curC.copies, c.tid = s.curTid) → exec (.fence .copy sc) s = .next (s.block (.fence false)))
    ∧ (queriesBusy s s.curCore s.curTid = false → exec (.fence .query sc) s = .next s.advance)
    ∧ (queriesBusy s s.curCore s.curTid = true → exec (.fence .query sc) s = .next (s.block (.fence true)))
    ∧ ((s.sreg a).toNat ≤ s.coreTime s.curCore → exec (.waitt a) s = .next s.advance)
    ∧ (s.coreTime s.curCore < (s.sreg a).toNat → exec (.waitt a) s = .next (s.block (.time (s.sreg a))))
    ∧ (∀ s', reportAll s = some s' → exec (.waitge a b) s = .next s')
    ∧ (∀ s1 t lf, canonical (s.sreg a) = true → (s.sreg a).toNat % 8 = 0 →
        let bad := (tgtRead s1 t 8).2
        let s2 := if bad then s1.poisonRead (tgtBank t) else s1
        let x := if bad then 0 else leNat (tgtRead s1 t 8).1
        let goes (v : Nat) (s2 : State) : Prop :=
          ((s.sreg b).toNat ≤ v → ∃ u, exec (.waitge a b) s = .next u ∧ u.cur.pc = s2.cur.advance.pc
            ∧ (∀ r, u.sreg r = s2.sreg r) ∧ SameBytes s2 u ∧ u.cur.checks = s2.cur.checks)
          ∧ (v < (s.sreg b).toNat → exec (.waitge a b) s = .next (s2.block (.counter t (s.sreg b))))
        (translate s (.scalar s.curCore) s.curReq .load (s.sreg a) true = (s1, .ok (t, lf)) → reportAll s = none →
          ((∀ f o, t ≠ .window f o) → goes x s2)
          ∧ (∀ f o, t = .window f o → o % 8 = 0 → (windowLevels f o).1.le s1.cur.priv = true → goes (windowRead s1 f o).toNat s1))
        ∧ (translate s (.scalar s.curCore) s.curReq .atomic (s.sreg a) true = (s1, .ok (t, lf)) →
          ((∀ f o, t ≠ .window f o) →
            ∃ u, exec (.sigadd a b) s = .next u ∧ leNat (tgtRead u t 8).1 = (x + (s.sreg b).toNat) % 2 ^ 64
              ∧ (∀ p, ¬ t.covers 8 p → u.byteAt p = s1.byteAt p) ∧ u.cur.pc = s1.cur.advance.pc ∧ (∀ r, u.sreg r = s1.sreg r)
              ∧ u.cur.checks = s2.cur.checks)
          ∧ (∀ f o, t = .window f o → exec (.sigadd a b) s = .next (s1.trap (mkTrap 0x04 (s.sreg a) 0)))))

/-- R162: barr arrives and gives the phase that it joined; bar arrives, and goes on when that was the last arrival and waits
otherwise, a reissued one for the phase that it joined before (log 28); barw goes on when its phase has completed and waits for the
phase that the task has joined; and their access faults. bar, barw and abwait report a pending record first (R77). R133, R131: abinit
writes a barrier, abwait goes on when its count has been reached and waits for it otherwise, abrel releases bytes, with their faults; a
byte that the context does not own reads zero, is not written and leaves a guard record (R76); and the end of abwait's wait. -/
def Obligations.Barriers : Prop :=
  (∀ (s : State) (d a b : SReg) (x : Task) (l : Launch) (lv : Fin 8) (bar : BarInst),
    (∀ s', reportAll s = some s' → exec (.bar a) s = .next s' ∧ exec (.barw a b) s = .next s') ∧
    (s.cur.task = some x → s.launch x.part x.launch = some l →
    ((s.sreg a = 0 ∨ l.levels.length ≤ (s.sreg a).toNat ∨ 8 ≤ (s.sreg a).toNat) →
      exec (.barr d a) s = .next (s.trap (mkTrap 0x04 (s.sreg a) 0))
      ∧ (reportAll s = none → exec (.bar a) s = .next (s.trap (mkTrap 0x04 (s.sreg a) 0))
          ∧ exec (.barw a b) s = .next (s.trap (mkTrap 0x04 (s.sreg a) 0))))
    ∧ ((s.sreg a).toNat = lv.val → lv ≠ 0 → lv.val < l.levels.length → l.barOf x.ctx lv = some bar →
      ∃ i, l.taskAt x.ctx = some i ∧
      let joined : BarInst := { bar with arrived := bar.arrived ++ [i], crit := s.cur.cbit }
      (∃ t l' bar', exec (.barr d a) s = .next t ∧ t.sreg d = (if d = 0 then 0 else BitVec.ofNat 64 bar.phase) ∧ t.cur.pc = s.cur.advance.pc
        ∧ t.launch x.part x.launch = some l' ∧ l'.barOf x.ctx lv = some bar'
        ∧ ((bar'.phase = bar.phase ∧ i ∈ bar'.arrived) ∨ (bar'.phase = bar.phase + 1 ∧ bar'.arrived = [] ∧ l.allArrived joined = true)))
      ∧ (∀ p, reportAll s = none → s.cur.joined lv = some p →
          (p < bar.phase → ∃ t, exec (.bar a) s = .next t ∧ t.cur.pc = s.cur.advance.pc ∧ ∀ r, t.sreg r = s.sreg r)
          ∧ (bar.phase ≤ p → ∃ t, exec (.bar a) s = .next t ∧ t.cur.pc = s.cur.pc ∧ t.cur.wait = .barrier lv p))
      ∧ (reportAll s = none → i ∈ bar.arrived → s.cur.joined lv = none →
          ∃ t, exec (.bar a) s = .next t ∧ t.cur.pc = s.cur.pc ∧ t.cur.wait = .barrier lv bar.phase)
      ∧ (reportAll s = none → i ∉ bar.arrived → s.cur.joined lv = none →
          (l.allArrived joined = true → ∃ t, exec (.bar a) s = .next t ∧ t.cur.pc = s.cur.advance.pc ∧ ∀ r, t.sreg r = s.sreg r)
          ∧ (l.allArrived joined = false → ∃ t, exec (.bar a) s = .next t ∧ t.cur.pc = s.cur.pc ∧ t.cur.wait = .barrier lv bar.phase))
      ∧ (reportAll s = none →
          ((s.sreg b).toNat < bar.phase → ∃ t, exec (.barw a b) s = .next t ∧ t.cur.pc = s.cur.advance.pc ∧ ∀ r, t.sreg r = s.sreg r)
          ∧ ((s.sreg b).toNat = bar.phase → i ∈ bar.arrived → exec (.barw a b) s = .next (s.block (.barrier lv bar.phase)))
          ∧ ((bar.phase < (s.sreg b).toNat ∨ ((s.sreg b).toNat = bar.phase ∧ i ∉ bar.arrived)) →
              exec (.barw a b) s = .next (s.trap (mkTrap 0x04 (s.sreg b) 0)))))))
  ∧ ((∀ (s : State) (a b c : SReg),
    let addr := (s.sreg a).toNat
    let own := ∀ i, i < 32 → inAllocs s.curAllocs (addr + i) = true ∧ NatSet.has s.curC.spadPoison ((addr + i) / 16) = false
    let w := (s.sreg b).toNat
    let x := (s.sreg c).toNat
    let base := x % 2 ^ 22
    let size := x / 2 ^ 32
    let wrong := 2 ^ 32 ≤ w ∨ x / 2 ^ 22 % 2 ^ 10 ≠ 0 ∨ 2 ^ 54 ≤ x ∨ (size = 0 ∧ base ≠ 0)
      ∨ (size ≠ 0 ∧ (w % 16 ≠ 0 ∨ size < w ∨ base % 16 ≠ 0 ∨ size % 16 ≠ 0))
    let arrived := Mem.num s.curC.spad addr 8
    let released := Mem.num s.curC.spad (addr + 8) 8
    let each (i : Instr) (cause : BitVec 8) : Prop := exec i s = .next (s.trap (mkTrap cause (s.sreg a) 0))
    (∀ s', reportAll s = some s' → exec (.abwait a b) s = .next s')
    ∧ (addr % 32 ≠ 0 → exec (.abinit a b c) s = .next (s.trap (mkTrap 0x03 (s.sreg a) 0)) ∧ exec (.abrel a b) s = .next (s.trap (mkTrap 0x03 (s.sreg a) 0))
      ∧ (reportAll s = none → exec (.abwait a b) s = .next (s.trap (mkTrap 0x03 (s.sreg a) 0))))
    ∧ (addr % 32 = 0 → 0x400000 < addr + 32 →
      each (.abinit a b c) 0x06 ∧ each (.abrel a b) 0x06 ∧ (reportAll s = none → each (.abwait a b) 0x06))
    ∧ (addr % 32 = 0 → addr + 32 ≤ 0x400000 → 0x380000 < addr + 32 →
      each (.abinit a b c) 0x04 ∧ each (.abrel a b) 0x04 ∧ (reportAll s = none → each (.abwait a b) 0x04))
    ∧ (∀ s1 bs bad, addr % 32 = 0 → addr + 32 ≤ 0x380000 → s.guardRead addr 32 = (s1, bs, bad) →
      let has := leNat (bs.take 8)
      let gone := leNat ((bs.drop 8).take 8)
      (reportAll s = none →
        (w ≤ has → ∃ t, exec (.abwait a b) s = .next t ∧ t.cur.pc = s.cur.advance.pc ∧ (∀ r, t.sreg r = s.sreg r) ∧ SameBytes s t
          ∧ t.cur.guard = s1.cur.guard ∧ t.cur.checks = s1.cur.checks)
        ∧ (has < w → exec (.abwait a b) s = .next (s1.block (.arrival addr (s.sreg b)))))
      ∧ (has < gone + w → exec (.abrel a b) s = .next (s1.trap (mkTrap 0x04 (s.sreg a) 0)))
      ∧ (gone + w ≤ has → exec (.abrel a b) s = .next (s1.guardWrite (addr + 8) (leBytes 8 (gone + w))).advance))
    ∧ (∀ x0, addr % 32 = 0 → addr + 32 ≤ 0x380000 → firstGuard s.curAllocs addr 28 = some x0 → ¬ wrong →
      ∃ t, exec (.abinit a b c) s = .next t ∧ t.cur.pc = s.cur.advance.pc ∧ (∀ r, t.sreg r = s.sreg r)
        ∧ t.cur.guard = (s.cur.noteGuard s.cur.pc x0).guard
        ∧ (∀ i, i < 28 → inAllocs s.curAllocs (addr + i) = true →
            t.byteAt (.spad s.curCore (addr + i)) = (leBytes 16 0 ++ leBytes 4 w ++ leBytes 4 base ++ leBytes 4 size).getD i 0)
        ∧ ∀ p, (∀ i, i < 28 → p = .spad s.curCore (addr + i) → inAllocs s.curAllocs (addr + i) = false) → t.byteAt p = s.byteAt p)
    ∧ (addr % 32 = 0 → addr + 32 ≤ 0x380000 → own →
      (wrong → exec (.abinit a b c) s = .next (s.trap (mkTrap 0x04 (s.sreg a) 0)))
      ∧ (¬ wrong → ∃ t, exec (.abinit a b c) s = .next t ∧ t.cur.pc = s.cur.advance.pc ∧ (∀ r, t.sreg r = s.sreg r)
          ∧ Mem.num t.curC.spad addr 8 = 0 ∧ Mem.num t.curC.spad (addr + 8) 8 = 0 ∧ Mem.num t.curC.spad (addr + 16) 4 = w
          ∧ Mem.num t.curC.spad (addr + 20) 4 = base ∧ Mem.num t.curC.spad (addr + 24) 4 = size
          ∧ ∀ p, (∀ i, i < 28 → p ≠ .spad s.curCore (addr + i)) → t.byteAt p = s.byteAt p)
      ∧ (reportAll s = none →
        (w ≤ arrived → ∃ t, exec (.abwait a b) s = .next t ∧ t.cur.pc = s.cur.advance.pc ∧ (∀ r, t.sreg r = s.sreg r) ∧ SameBytes s t)
        ∧ (arrived < w → exec (.abwait a b) s = .next (s.block (.arrival addr (s.sreg b)))))
      ∧ (arrived < released + w → exec (.abrel a b) s = .next (s.trap (mkTrap 0x04 (s.sreg a) 0)))
      ∧ (released + w ≤ arrived → ∃ t, exec (.abrel a b) s = .next t ∧ t.cur.pc = s.cur.advance.pc ∧ (∀ r, t.sreg r = s.sreg r)
          ∧ Mem.num t.curC.spad (addr + 8) 8 = released + w
          ∧ ∀ p, (∀ i, i < 8 → p ≠ .spad s.curCore (addr + 8 + i)) → t.byteAt p = s.byteAt p)))
  ∧ (∀ (s : State) (k : CoreId) (th : Tid) (bar : Nat) (target : Word), (s.thr k th).wait = .arrival bar target →
    (target.toNat ≤ Mem.num (s.core k).spad bar 8 → exec (.abwaitComplete k th) s = .next (s.modThr k th (fun x => { x with wait := .none })))
    ∧ (Mem.num (s.core k).spad bar 8 < target.toNat → exec (.abwaitComplete k th) s = .next s)))

/-! ## Vector configuration and arithmetic (spec 12, 13) -/

/-- R213, R214, R183, R215, R313: vsetvl sets VTYPE, VL, vstart and s[d]; a thread that holds the lanes makes the registers and masks
that vlive leaves out dead, at once or, of a register that a block writes, at that block's join; and when a yield is asked for outside a
handler, and no machine check or lease-skew fault is pending, it then takes the yield trap, with tpc behind it, or under a debugger's
single step leaves it to the next boundary, behind the debug halt. -/
def Obligations.VsetvlResults : Prop :=
  ∀ (s : State) (d a : SReg) (vt : VtypeField),
    let v := vtypeOf vt
    let vl := min (s.sreg a).toNat (4096 / Width.bytes vt.ew)
    let asked := (s.cur.yreq = true ∨ s.cur.sliceOver = true) ∧ s.cur.ktrap.hdl = false ∧ s.cur.htrap.hdl = false
      ∧ s.cur.skewFault = none ∧ s.cur.checks = []
    let blocks := s.curC.vec.block.toList ++ s.curC.vec.parked
    let stays (n : Nat) : Prop := s.cur.vlive.getLsbD n = true ∨ ∃ b ∈ blocks, b.writes.getLsbD n = true
    let doomed (b : Block) : Block := { b with dying := b.dying ||| (b.writes &&& ~~~s.cur.vlive) }
    ∃ t, exec (.vsetvl d a vt) s = .next t ∧ sewOf v = Width.bytes vt.ew
      ∧ t.cur.vtype = v ∧ t.cur.vl = BitVec.ofNat 13 vl ∧ t.cur.vstart = 0 ∧ t.sreg d = (if d = 0 then 0 else BitVec.ofNat 64 vl)
      ∧ (∀ r, r ≠ d → t.sreg r = s.sreg r) ∧ SameBytes s t
      ∧ (s.curC.vec.holder ≠ some s.curTid → t.curC.vec = s.curC.vec)
      ∧ (s.curC.vec.holder = some s.curTid →
          t.curC.vec.block = s.curC.vec.block.map doomed ∧ t.curC.vec.parked = s.curC.vec.parked.map doomed
          ∧ (∀ n : VReg, stays n.val → t.vreg n = s.vreg n)
          ∧ (∀ n : VReg, ¬ stays n.val →
              (t.vreg n).dirty = false ∧ (t.vreg n).vhw = 0 ∧ (t.vreg n).tag = ⟨0x7F800000#32, 0, 1⟩ ∧ t.curC.vec.bound n = none)
          ∧ (∀ m : MReg, stays (32 + m.val) → t.curC.vec.masks[m] = s.curC.vec.masks[m])
          ∧ (∀ m : MReg, ¬ stays (32 + m.val) → t.curC.vec.masks[m].dirty = false))
      ∧ (¬ asked → t.cur.pc = s.cur.advance.pc ∧ t.cur.yreq = s.cur.yreq ∧ t.cur.priv = s.cur.priv ∧ t.cur.yieldDue = s.cur.yieldDue)
      ∧ (asked → s.curC.step = true → t.cur.pc = s.cur.advance.pc ∧ t.cur.yreq = s.cur.yreq ∧ t.cur.priv = s.cur.priv ∧ t.cur.yieldDue = true)
      ∧ (asked → s.curC.step = false → t.cur.yreq = false ∧ t.cur.sliceOver = false ∧ (t.cur.trapSet t.cur.priv).tcause = 0x15
          ∧ (t.cur.trapSet t.cur.priv).tpc = s.cur.advance.pc ∧ t.cur.pc = sext64 57 ((s.cur.trapSet t.cur.priv).tvec).toNat)

/-- R25, R139, R177, R185: a lane instruction whose thread can not have the lanes, or meets a running block, waits for them at its
pc; a destination or a replicated operand that is bound to a stream takes cause 0x11 before any element, and so does a source whose
elements have another width than VTYPE's or that would pop more elements than remain; a strip that does not translate takes the copy
fault, and one on an absent host page waits for the page (R332). -/
def Obligations.LaneWaitsAndStreamMisuse : Prop :=
  (∀ (s s0 : State) (vd va vb : VReg) (rep : Rep) (mk : MkField) (md ma : MReg) (d : SReg),
    (acquireLanes s = none → exec (.vadd vd va vb rep mk) s = .next (s.block .lanes) ∧ exec (.vfadd vd va vb rep mk) s = .next (s.block .lanes)
      ∧ exec (.vcmpeq md va vb rep mk) s = .next (s.block .lanes) ∧ exec (.vmnot md ma) s = .next (s.block .lanes)
      ∧ exec (.vredsum vd va vb mk) s = .next (s.block .lanes) ∧ exec (.vmcnt d ma) s = .next (s.block .lanes))
    ∧ (acquireLanes s = some s0 → s0.blockRuns = true →
      exec (.vadd vd va vb rep mk) s = .next (s0.block .block) ∧ exec (.vfadd vd va vb rep mk) s = .next (s0.block .block)
      ∧ exec (.vcmpeq md va vb rep mk) s = .next (s0.block .block) ∧ exec (.vmnot md ma) s = .next (s0.block .block)))
  ∧ (∀ (s s0 : State) (vd va vb : VReg) (rep : Rep) (mk : MkField) (b : Binding),
    acquireLanes s = some s0 → s0.blockRuns = false →
    (s0.curC.vec.bound vd = some b → exec (.vadd vd va vb rep mk) s = .next (s0.trap (mkTrap 0x11 (BitVec.ofNat 64 vd.val) 0))
      ∧ exec (.vmvi vd 0 mk) s = .next (s0.trap (mkTrap 0x11 (BitVec.ofNat 64 vd.val) 0)))
    ∧ (s0.curC.vec.bound vd = none → rep ≠ .none → s0.curC.vec.bound vb = some b →
      exec (.vadd vd va vb rep mk) s = .next (s0.trap (mkTrap 0x11 (BitVec.ofNat 64 vb.val) 0)))
    ∧ (s0.curC.vec.bound vd = none → s0.curC.vec.bound va = some b → b.held = false →
      (sewOf s0.cur.vtype ≠ blkEs b.block ∨ blkCount b.block < b.popped + s0.cur.vl.toNat) →
      exec (.vmv vd va mk) s = .next (s0.trap (mkTrap 0x11 (BitVec.ofNat 64 va.val) 0)))
    ∧ (∀ s1, s0.curC.vec.bound vd = none → popCheck s0 s0.cur.vl.toNat (sewOf s0.cur.vtype) [va] = none →
      (∀ p, popAll s0 s0.cur.vl.toNat (sewOf s0.cur.vtype) [va] = (s1, some (.absent p)) →
        exec (.vmv vd va mk) s = .next ((requestPage s1 s1.curPart p).block (.hostPage p true)))
      ∧ (∀ tr, popAll s0 s0.cur.vl.toNat (sewOf s0.cur.vtype) [va] = (s1, some (.trap tr)) →
        ∃ t, exec (.vmv vd va mk) s = .next t ∧ (t.cur.trapSet t.cur.priv).tcause = tr.cause ∧ (t.cur.trapSet t.cur.priv).tval = tr.tval
          ∧ (t.cur.trapSet t.cur.priv).tpc = s1.cur.pc ∧ ∀ r, t.vreg r = s1.vreg r)))

/-- R218, R220 to R222: the integer members of two vectors over every executing element; the rest of the register as before; the clamped
members set vsat and the saturated tag when an executing element was clamped, before an earlier stop of the instruction too, and every
other leaves the tags of exact integers. -/
def Obligations.VectorIntegerResults : Prop :=
  ∀ (s s1 : State) (e : LaneEnv) (vd va vb : VReg) (rep : Rep) (mk : MkField),
    let n := e.n
    let S (x : Nat) : Int := signedOf n x
    let quarter (sgd : Bool) (x : Nat) (j : Nat) : Int :=
      if sgd then signedOf (n / 4) (x / 2 ^ (j * (n / 4))) else ((x / 2 ^ (j * (n / 4)) % 2 ^ (n / 4) : Nat) : Int)
    let dot (sgd : Bool) (x y : Nat) : Int := quarter sgd x 0 * quarter sgd y 0 + quarter sgd x 1 * quarter sgd y 1
      + quarter sgd x 2 * quarter sgd y 2 + quarter sgd x 3 * quarter sgd y 3
    let half (x : Int) (sh : Nat) : Int := if sh = 0 then x else (x + 2 ^ (sh - 1)) / 2 ^ sh
    let before := e.earlier s1.curC.vec mk vd = true ∧ (s1.vreg vd).tag.flags.getLsbD 2 = true
    let wrote (t : State) (f : Nat → Int) (sat : Prop) : Prop :=
      LaneWrote s1 t e vd n mk (fun i => wrapInt n (f i)) ∧ t.cur.fflags = s1.cur.fflags
      ∧ (t.cur.vsat = true ↔ s1.cur.vsat = true ∨ sat)
      ∧ ((∃ i, Executes e s1.curC.vec mk i) →
          (sat ∨ before → (t.vreg vd).tag = ⟨0x7F800000#32, 0, 4⟩) ∧ (¬ (sat ∨ before) → (t.vreg vd).tag = ⟨0, 0, 0⟩))
    -- element i of f, a function of an element of va, of vb and of the old vd, where an executing element k gets g of f
    let elem (f : Nat → Nat → Nat → Int) (g : Int → Int) (i : Nat) : Int :=
      f (srcElem s1 e va i) (loopElem s1 e mk vd vb rep (fun k y => wrapInt n (g (f (srcElem s1 e va k) y (srcElem s1 e vd k)))) i)
        (srcElem s1 e vd i)
    let did (i : Instr) (f : Nat → Nat → Nat → Int) : Prop := ∃ t, exec i s = .next t ∧ wrote t (elem f id) False
    let clamped (i : Instr) (lo hi : Int) (f : Nat → Nat → Nat → Int) : Prop :=
      let clamp (x : Int) : Int := max lo (min hi x)
      ∃ t, exec i s = .next t
        ∧ wrote t (fun j => clamp (elem f clamp j)) (∃ j, Executes e s1.curC.vec mk j ∧ (elem f clamp j < lo ∨ hi < elem f clamp j))
    (LaneGo s (some vd) [va, vb] (repOf rep vb) true e s1 →
      did (.vadd vd va vb rep mk) (fun x y _ => x + y) ∧ did (.vsub vd va vb rep mk) (fun x y _ => x - y)
      ∧ did (.vrsub vd va vb rep mk) (fun x y _ => y - x) ∧ did (.vmul vd va vb rep mk) (fun x y _ => x * y)
      ∧ did (.vmulh vd va vb rep mk) (fun x y _ => S x * S y / 2 ^ n) ∧ did (.vmulhw vd va vb rep mk) (fun x y _ => (x * y / 2 ^ n : Nat))
      ∧ did (.vand vd va vb rep mk) (fun x y _ => (x &&& y : Nat)) ∧ did (.vor vd va vb rep mk) (fun x y _ => (x ||| y : Nat))
      ∧ did (.vxor vd va vb rep mk) (fun x y _ => (x ^^^ y : Nat)) ∧ did (.vsll vd va vb rep mk) (fun x y _ => x * 2 ^ (y % n))
      ∧ did (.vsrl vd va vb rep mk) (fun x y _ => (x / 2 ^ (y % n) : Nat)) ∧ did (.vsra vd va vb rep mk) (fun x y _ => S x / 2 ^ (y % n))
      ∧ did (.vmin vd va vb rep mk) (fun x y _ => min (S x) (S y)) ∧ did (.vmax vd va vb rep mk) (fun x y _ => max (S x) (S y))
      ∧ did (.vminw vd va vb rep mk) (fun x y _ => (min x y : Nat)) ∧ did (.vmaxw vd va vb rep mk) (fun x y _ => (max x y : Nat))
      ∧ did (.vabsd vd va vb rep mk) (fun x y _ => (S x - S y).natAbs)
      ∧ clamped (.vsadd vd va vb rep mk) (-2 ^ (n - 1)) (2 ^ (n - 1) - 1) (fun x y _ => S x + S y)
      ∧ clamped (.vssub vd va vb rep mk) (-2 ^ (n - 1)) (2 ^ (n - 1) - 1) (fun x y _ => S x - S y)
      ∧ clamped (.vsaddw vd va vb rep mk) 0 (2 ^ n - 1) (fun x y _ => x + y)
      ∧ clamped (.vssubw vd va vb rep mk) 0 (2 ^ n - 1) (fun x y _ => x - y)
      ∧ did (.vrshr vd va vb rep mk) (fun x y _ => half (S x) (y % n))
      ∧ clamped (.vnclip vd va vb rep mk) (-2 ^ (n / 2 - 1)) (2 ^ (n / 2 - 1) - 1) (fun x y _ => half (S x) (y % n))
      ∧ clamped (.vnclipw vd va vb rep mk) 0 (2 ^ (n / 2) - 1) (fun x y _ => half (S x) (y % n)))
    ∧ (LaneGo s (some vd) [va, vb, vd] (repOf rep vb) true e s1 →
      did (.vmacc vd va vb rep mk) (fun x y z => z + x * y) ∧ did (.vnmsac vd va vb rep mk) (fun x y z => z - x * y)
      ∧ did (.vdot4 vd va vb rep mk) (fun x y z => z + dot true x y) ∧ did (.vdot4w vd va vb rep mk) (fun x y z => z + dot false x y))

/-- R223: the integer members of a vector and an immediate. R223, R229: permutes and moves: which element, if any, each executing element receives; vcompress packs the selected elements. -/
def Obligations.VectorImmediatesAndPermutes : Prop :=
  (∀ (s s1 : State) (e : LaneEnv) (vd va : VReg) (imm : BitVec 8) (mk : MkField),
    let n := e.n
    let a (i : Nat) : Nat := srcElem s1 e va i
    let sa (i : Nat) : Int := signedOf n (a i)
    let x := imm.toInt
    let sh := imm.toNat % n
    let did (i : Instr) (f : Nat → Int) : Prop :=
      ∃ t, exec i s = .next t ∧ LaneWrote s1 t e vd n mk (fun i => wrapInt n (f i)) ∧ t.cur.fflags = s1.cur.fflags ∧ t.cur.vsat = s1.cur.vsat
        ∧ ((∃ i, Executes e s1.curC.vec mk i) → (e.earlier s1.curC.vec mk vd = false ∨ (s1.vreg vd).tag.flags.getLsbD 2 = false) →
            (t.vreg vd).tag = ⟨0, 0, 0⟩)
    (LaneGo s (some vd) [va] none true e s1 →
      did (.vaddi vd va imm mk) (fun i => a i + x) ∧ did (.vrsubi vd va imm mk) (fun i => x - a i)
      ∧ did (.vandi vd va imm mk) (fun i => (a i &&& wrapInt n x : Nat)) ∧ did (.vori vd va imm mk) (fun i => (a i ||| wrapInt n x : Nat))
      ∧ did (.vxori vd va imm mk) (fun i => (a i ^^^ wrapInt n x : Nat)) ∧ did (.vslli vd va imm mk) (fun i => a i * 2 ^ sh)
      ∧ did (.vsrli vd va imm mk) (fun i => (a i / 2 ^ sh : Nat)) ∧ did (.vsrai vd va imm mk) (fun i => sa i / 2 ^ sh)
      ∧ did (.vrshri vd va imm mk) (fun i => if sh = 0 then sa i else (sa i + 2 ^ (sh - 1)) / 2 ^ sh))
    ∧ (LaneGo s (some vd) [] none true e s1 → did (.vmvi vd imm mk) (fun _ => x)))
  ∧ (∀ (s s1 : State) (e : LaneEnv) (vd va vb : VReg) (b : SReg) (imm : BitVec 8) (mk : MkField) (mb : MReg),
    let n := e.n
    let a (i : Nat) : Nat := srcElem s1 e va i
    let d (i : Nat) : Nat := srcElem s1 e vd i
    let vlmax := 4096 / sewOf e.vtype
    let did (i : Instr) (m : MkField) (f : Nat → Nat) : Prop := ∃ t, exec i s = .next t ∧ LaneWrote s1 t e vd n m f
    let up (o i : Nat) : Nat := if o ≤ i then a (i - o) else d i
    let dn (o i : Nat) : Nat := if i + o < vlmax then a (i + o) else 0
    (LaneGo s (some vd) [va] none true e s1 →
      did (.vslideup vd va b mk) mk (up (e.sreg b).toNat) ∧ did (.vslidedn vd va b mk) mk (dn (e.sreg b).toNat)
      ∧ did (.vslideupi vd va imm mk) mk (up imm.toNat) ∧ did (.vslidedni vd va imm mk) mk (dn imm.toNat)
      ∧ did (.vmv vd va mk) mk a)
    ∧ (LaneGo s (some vd) [] none true e s1 → did (.vmvsx vd b mk) mk (fun _ => (e.sreg b).toNat))
    ∧ (LaneGo s (some vd) [va, vb] none true e s1 →
      did (.vrgather vd va vb mk) mk (fun i => if srcElem s1 e vb i < vlmax then a (srcElem s1 e vb i) else 0)
      ∧ did (.vmerge vd va vb mk) 0 (fun i => if maskOn s1.curC.vec mk i then srcElem s1 e vb i else a i))
    ∧ (LaneGo s (some vd) [va] none false e s1 →
      let sel := (List.range e.vl).filter (fun i => s1.curC.vec.masks[mb].bits.getLsbD i)
      ∃ t, exec (.vcompress vd va mb) s = .next t ∧ LaneFrame s1 t (some vd) none none
        ∧ ∀ j, j < 32768 / n → elemGet (t.vreg vd).bits n j = (match sel[j]? with | some i => a i | none => d j)))

/-- R226: the mask instructions: bits below VL, the others as before; a scalar result in s[d]. R225: comparisons; a floating comparison with no exception enabled: false with a NaN but for vfcmpne, NV on a NaN for the ordered
relations. -/
def Obligations.MasksAndCompares : Prop :=
  (∀ (s s1 : State) (e : LaneEnv) (md ma mb : MReg) (vd : VReg) (d : SReg),
    let bit (m : MReg) (i : Nat) : Bool := s1.curC.vec.masks[m].bits.getLsbD i
    let did (i : Instr) (f : Nat → Bool) : Prop :=
      ∃ t, exec i s = .next t ∧ LaneFrame s1 t none (some md) none ∧ t.cur.fflags = s1.cur.fflags ∧ t.cur.vsat = s1.cur.vsat
        ∧ ∀ i, i < 4096 → t.curC.vec.masks[md].bits.getLsbD i = (if i < e.vl then f i else bit md i)
    let scalar (i : Instr) (v : Word) : Prop :=
      ∃ t, exec i s = .next t ∧ LaneFrame s1 t none none (some d) ∧ t.sreg d = (if d = 0 then 0 else v)
    let count := (List.range e.vl).countP (fun i => bit ma i)
    (LaneGo s none [] none false e s1 →
      did (.vmand md ma mb) (fun i => bit ma i && bit mb i) ∧ did (.vmor md ma mb) (fun i => bit ma i || bit mb i)
      ∧ did (.vmxor md ma mb) (fun i => bit ma i ^^ bit mb i) ∧ did (.vmandn md ma mb) (fun i => bit ma i && !bit mb i)
      ∧ did (.vmnot md ma) (fun i => !bit ma i) ∧ did (.vmset md) (fun _ => true) ∧ did (.vmclr md) (fun _ => false)
      ∧ did (.vmsbf md ma) (fun i => (List.range (i + 1)).all (fun j => !bit ma j))
      ∧ (∃ t, exec (.vmfm md) s = .next t ∧ LaneFrame s1 t none (some md) none ∧ t.curC.vec.masks[md].bits = s1.curC.vec.faultMask)
      ∧ scalar (.vmcnt d ma) (BitVec.ofNat 64 count)
      ∧ scalar (.vmany d ma) (if (List.range e.vl).any (bit ma) then 1 else 0)
      ∧ (∀ i, i < e.vl → bit ma i = true → (∀ j, j < i → bit ma j = false) → scalar (.vmfirst d ma) (BitVec.ofNat 64 i))
      ∧ ((∀ i, i < e.vl → bit ma i = false) → scalar (.vmfirst d ma) (BitVec.allOnes 64)))
    ∧ (LaneGo s (some vd) [] none false e s1 →
      ∃ t, exec (.viota vd ma) s = .next t ∧ LaneFrame s1 t (some vd) none none
        ∧ ∀ i, i < 32768 / e.n → elemGet (t.vreg vd).bits e.n i
            = (if i < e.vl then (List.range i).countP (fun j => bit ma j) % 2 ^ e.n else srcElem s1 e vd i)))
  ∧ (∀ (s s1 : State) (e : LaneEnv) (md : MReg) (va vb : VReg) (rep : Rep) (mk : MkField),
    let n := e.n
    let a (i : Nat) : Nat := srcElem s1 e va i
    let b (i : Nat) : Nat := srcElem s1 e vb (repIndex rep i)
    let sa (i : Nat) : Int := signedOf n (a i)
    let sb (i : Nat) : Int := signedOf n (b i)
    let x (i : Nat) : FVal := fval (calcFmt e.vtype) (fpIn e.vtype (a i)).1
    let y (i : Nat) : FVal := fval (calcFmt e.vtype) (fpIn e.vtype (b i)).1
    let num (i : Nat) : Bool := !(x i).isNan && !(y i).isNan
    let did (i : Instr) (f : Nat → Bool) : Prop := ∃ t, exec i s = .next t ∧ LaneCompared s1 t e md mk f
    LaneGo s none [va, vb] (repOf rep vb) true e s1 →
    did (.vcmpeq md va vb rep mk) (fun i => decide (a i = b i)) ∧ did (.vcmpne md va vb rep mk) (fun i => decide (a i ≠ b i))
    ∧ did (.vcmplt md va vb rep mk) (fun i => decide (sa i < sb i)) ∧ did (.vcmple md va vb rep mk) (fun i => decide (sa i ≤ sb i))
    ∧ did (.vcmpgt md va vb rep mk) (fun i => decide (sb i < sa i)) ∧ did (.vcmpge md va vb rep mk) (fun i => decide (sb i ≤ sa i))
    ∧ did (.vcmpltw md va vb rep mk) (fun i => decide (a i < b i)) ∧ did (.vcmplew md va vb rep mk) (fun i => decide (a i ≤ b i))
    ∧ did (.vcmpgtw md va vb rep mk) (fun i => decide (b i < a i)) ∧ did (.vcmpgew md va vb rep mk) (fun i => decide (b i ≤ a i))
    ∧ (e.fexc = 0 →
      did (.vfcmpeq md va vb rep mk) (fun i => num i && ieeeEq (x i) (y i)) ∧ did (.vfcmpne md va vb rep mk) (fun i => !(num i && ieeeEq (x i) (y i)))
      ∧ did (.vfcmplt md va vb rep mk) (fun i => num i && ieeeLt (x i) (y i))
      ∧ did (.vfcmple md va vb rep mk) (fun i => num i && (ieeeLt (x i) (y i) || ieeeEq (x i) (y i)))
      ∧ did (.vfcmpgt md va vb rep mk) (fun i => num i && ieeeLt (y i) (x i))
      ∧ did (.vfcmpge md va vb rep mk) (fun i => num i && (ieeeLt (y i) (x i) || ieeeEq (y i) (x i)))))

/-- R219, R224: floating members with no exception enabled: each executing element holds its member's result in the format of VTYPE,
rounded once, flushed as VTYPE says, and the flags of the executing elements accrue. vfexp2 and vfrcp take one of the values within
1 ulp that the rule allows (a free value, log 15). R219: an executing element that raises an enabled flag stops the instruction: the elements below it are written, it and those above
are not, its flags and theirs have accrued, and the trap has its index in telem and vstart and its flags in tval. -/
def Obligations.VectorFloatInstructions : Prop :=
  (∀ (s s1 : State) (e : LaneEnv) (vd va vb : VReg) (rep : Rep) (mk : MkField),
    let vt := e.vtype
    let top := 2 ^ (e.n - 1)
    let a (i : Nat) : Nat := srcElem s1 e va i
    let d (i : Nat) : Nat := srcElem s1 e vd i
    let did (i : Instr) (f : Nat → EOut) : Prop :=
      ∃ t, exec i s = .next t ∧ LaneWrote s1 t e vd e.n mk (fun i => (f i).bits) ∧ t.cur.vsat = s1.cur.vsat
        ∧ ∀ j, t.cur.fflags.getLsbD j = true ↔ s1.cur.fflags.getLsbD j = true ∨ ∃ i, Executes e s1.curC.vec mk i ∧ (f i).flags.getLsbD j = true
    let did2 (i : Instr) (f : Nat → Nat → Nat → EOut) : Prop :=
      did i (fun j => f (a j) (loopElem s1 e mk vd vb rep (fun k y => (f (a k) y (d k)).bits) j) (d j))
    e.fexc = 0 →
    (LaneGo s (some vd) [va, vb] (repOf rep vb) true e s1 →
      did2 (.vfadd vd va vb rep mk) (fun x y _ => fpElem vt (fun t rm p q _ => addVal t rm p q) x y 0)
      ∧ did2 (.vfsub vd va vb rep mk) (fun x y _ => fpElem vt (fun t rm p q _ => addVal t rm p q.negate) x y 0)
      ∧ did2 (.vfmul vd va vb rep mk) (fun x y _ => fpElem vt (fun t rm p q _ => mulVal t rm p q) x y 0)
      ∧ did2 (.vfdiv vd va vb rep mk) (fun x y _ => fpElem vt (fun t rm p q _ => divVal t rm p q) x y 0)
      ∧ did2 (.vfmin vd va vb rep mk) (fun x y _ => fpElemBits vt (fun t p q => minMaxBits t false p q) x y)
      ∧ did2 (.vfmax vd va vb rep mk) (fun x y _ => fpElemBits vt (fun t p q => minMaxBits t true p q) x y)
      ∧ did2 (.vfsgnj vd va vb rep mk) (fun x y _ => .plain (x % top + (if top ≤ y then top else 0))))
    ∧ (LaneGo s (some vd) [va, vb, vd] (repOf rep vb) true e s1 →
      did2 (.vfmacc vd va vb rep mk) (fun x y z => fpElem vt (fun t rm p q r => fmaVal t rm p q r) x y z)
      ∧ did2 (.vfnmacc vd va vb rep mk) (fun x y z => fpElem vt (fun t rm p q r => fmaVal t rm p.negate q r.negate) x y z)
      ∧ did2 (.vfmsac vd va vb rep mk) (fun x y z => fpElem vt (fun t rm p q r => fmaVal t rm p q r.negate) x y z))
    ∧ (LaneGo s (some vd) [va] none true e s1 →
      did (.vfsqrt vd va mk) (fun i => fpElem vt (fun t rm x _ _ => sqrtVal t rm x) (a i) 0 0)
      ∧ did (.vfabs vd va mk) (fun i => .plain (a i % top))
      ∧ did (.vfneg vd va mk) (fun i => .plain (if top ≤ a i then a i - top else a i + top))
      ∧ did (.vfclass vd va mk) (fun i => classElem vt (a i))
      ∧ (∃ free : Nat → Nat, did (.vfexp2 vd va mk) (fun i => fpElem vt (fun t _ x _ _ => exp2Val (free i) t x) (a i) 0 0))
      ∧ (∃ free : Nat → Nat, did (.vfrcp vd va mk) (fun i => fpElem vt (fun t _ x _ _ => rcpVal (free i) t x) (a i) 0 0))))
  ∧ (∀ (s s1 : State) (e : LaneEnv) (vd va vb : VReg) (rep : Rep) (mk : MkField) (i : Instr)
    (f : ElemType → Rounding → FVal → FVal → FVal → NRes) (x : Nat),
    (i = .vfadd vd va vb rep mk ∧ f = (fun t rm x y _ => addVal t rm x y)) ∨ (i = .vfmul vd va vb rep mk ∧ f = (fun t rm x y _ => mulVal t rm x y))
      ∨ (i = .vfdiv vd va vb rep mk ∧ f = (fun t rm x y _ => divVal t rm x y)) →
    LaneGo s (some vd) [va, vb] (repOf rep vb) true e s1 →
    let out (i : Nat) : EOut := fpElem e.vtype f (srcElem s1 e va i)
      (loopElem s1 e mk vd vb rep (fun k y => (fpElem e.vtype f (srcElem s1 e va k) y 0).bits) i) 0
    Executes e s1.curC.vec mk x → (out x).flags &&& e.fexc ≠ 0 →
    (∀ j, j < x → Executes e s1.curC.vec mk j → (out j).flags &&& e.fexc = 0) →
    ∃ t, exec i s = .next t ∧ (t.cur.trapSet t.cur.priv).tcause = 0x12 ∧ (t.cur.trapSet t.cur.priv).tpc = s1.cur.pc
      ∧ (t.cur.trapSet t.cur.priv).tval = (out x).flags.zeroExtend 64 ∧ (t.cur.trapSet t.cur.priv).telem = BitVec.ofNat 64 x
      ∧ (t.cur.trapSet t.cur.priv).stop = true ∧ t.cur.vstart = BitVec.ofNat 12 x ∧ (t.vreg vd).vpx = BitVec.ofNat 13 x
      ∧ (∀ j, t.cur.fflags.getLsbD j = true ↔ s1.cur.fflags.getLsbD j = true
          ∨ ∃ i, i ≤ x ∧ Executes e s1.curC.vec mk i ∧ (out i).flags.getLsbD j = true)
      ∧ ∀ j, j < 32768 / e.n →
          (j < x → Executes e s1.curC.vec mk j → elemGet (t.vreg vd).bits e.n j = (out j).bits % 2 ^ e.n)
          ∧ (¬ (j < x ∧ Executes e s1.curC.vec mk j) → elemGet (t.vreg vd).bits e.n j = srcElem s1 e vd j))

/-- R245 to R247: vcvt converts each executing element at the widths of the two types, for the elements that both registers hold,
with no exception enabled. -/
def Obligations.ConversionResults : Prop :=
  ∀ (s s1 : State) (e : LaneEnv) (vd va : VReg) (src dst : ElemType) (sat : Bool) (rm : RmField) (mk : MkField),
    let m : Rounding := match rm with | .mode q => q | .dflt => rmOf e.vtype
    let a (i : Nat) : Nat := elemGet (s1.vreg va).bits src.bits i
    let out (i : Nat) : EOut := cvtElem e.vtype src dst sat m (a i)
    LaneGo s (some vd) [va] none true e s1 → e.fexc = 0 →
    ∃ t, exec (.vcvt vd va src sat rm mk dst) s = .next t ∧ LaneFrame s1 t (some vd) none none
      ∧ ∀ i, i < 32768 / dst.bits →
          (Executes e s1.curC.vec mk i → i < 32768 / max src.bits dst.bits →
            elemGet (t.vreg vd).bits dst.bits i = (out i).bits % 2 ^ dst.bits)
          ∧ (¬ (Executes e s1.curC.vec mk i ∧ i < 32768 / max src.bits dst.bits) →
            elemGet (t.vreg vd).bits dst.bits i = elemGet (s1.vreg vd).bits dst.bits i)

/-- R227, R228: the reductions: element 0 of vd, the others as before; with VL = 0 vd is as before; the ordered floating sum adds in
element order and the tree sum in halves, with no exception enabled. A block scale of elements of 8 or 64 bits, which R248 does not give,
writes free values in the blocks' elements alone (log 22). -/
def Obligations.ReductionResults : Prop :=
  ∀ (s s1 : State) (e : LaneEnv) (vd va vb : VReg) (mk : MkField),
    let n := e.n
    let ex := (List.range e.vl).filter (fun i => e.ext.getLsbD i && maskOn s1.curC.vec mk i)
    let b (i : Nat) : Nat := srcElem s1 e vb i
    let a0 := srcElem s1 e va 0
    let sgd (x : Nat) : Int := signedOf n x
    let did (i : Instr) (v : Nat) : Prop :=
      ∃ t, exec i s = .next t ∧ LaneFrame s1 t (some vd) none none
        ∧ ∀ j, j < 32768 / n → elemGet (t.vreg vd).bits n j = (if j = 0 ∧ e.vl ≠ 0 then v % 2 ^ n else srcElem s1 e vd j)
    let add (x y : Nat) : Nat := (redAdd e.vtype x y).bits
    let tree := (List.range (powUp e.vl 12 1)).map (fun i => if ex.contains i then b i else 2 ^ (n - 1))
    LaneGo s (some vd) [va, vb] none false e s1 →
    did (.vredsum vd va vb mk) (ex.foldl (fun x i => x + b i) a0)
    ∧ did (.vredmax vd va vb mk) (ex.foldl (fun x i => if sgd x < sgd (b i) then b i else x) a0)
    ∧ did (.vredmin vd va vb mk) (ex.foldl (fun x i => if sgd (b i) < sgd x then b i else x) a0)
    ∧ did (.vredmaxw vd va vb mk) (ex.foldl (fun x i => max x (b i)) a0) ∧ did (.vredminw vd va vb mk) (ex.foldl (fun x i => min x (b i)) a0)
    ∧ did (.vredand vd va vb mk) (ex.foldl (fun x i => x &&& b i) a0) ∧ did (.vredor vd va vb mk) (ex.foldl (fun x i => x ||| b i) a0)
    ∧ (e.fexc = 0 →
      did (.vfredsum vd va vb mk) (if ex = [] then add a0 (2 ^ (n - 1)) else ex.foldl (fun x i => add x (b i)) a0)
      ∧ did (.vfredusum vd va vb mk) (add a0 (treeSum e.vtype 0 ex 13 tree (0, none)).acc)
      ∧ did (.vfredmax vd va vb mk) (if ex = [] then add a0 (2 ^ (n - 1))
          else ex.foldl (fun x i => (fpElemBits e.vtype (fun t p q => minMaxBits t true p q) x (b i)).bits) a0)
      ∧ did (.vfredmin vd va vb mk) (if ex = [] then add a0 (2 ^ (n - 1))
          else ex.foldl (fun x i => (fpElemBits e.vtype (fun t p q => minMaxBits t false p q) x (b i)).bits) a0)
      ∧ (n = 16 ∨ n = 32 → ∃ t, exec (.vbscale vd va vb mk) s = .next t ∧ LaneFrame s1 t (some vd) none none
          ∧ ∀ k, k < 1024 → elemGet (t.vreg vd).bits 32 k =
              (if 32 * k < e.vl then (blockScale e.vtype (fval (fmtOfVt e.vtype) a0)
                ((ex.filter (fun i => i / 32 = k)).map (fun i => (i, b i)))).1 % 2 ^ 32
               else elemGet (s1.vreg vd).bits 32 k)))
    ∧ (n ≠ 16 → n ≠ 32 → ∃ t, exec (.vbscale vd va vb mk) s = .next t ∧ LaneFrame s1 t (some vd) none none
        ∧ ∀ k, k < 1024 → ¬ 32 * k < e.vl → elemGet (t.vreg vd).bits 32 k = elemGet (s1.vreg vd).bits 32 k)

/-! ## Vector memory accesses (spec 05) -/

/-- R83: a vector load, every executing element placed: unit, strided and indexed in generic space; unit, strided, indexed and lane-local
in the scratchpad, where .wait and .take need their granules full, .take empties them (R73, R75), and a guard access reads zero (R76).
Poisoned bytes read zero and set the residue flag, with a contained check (R341); a residue flag of the load's own earlier part stays. In
generic space s2 is the state after the elements' translations. -/
def Obligations.VectorLoads : Prop :=
  (∀ (s s1 s2 : State) (e : LaneEnv) (vd vx : VReg) (a x : SReg) (ew : Width) (mk : MkField) (i : Instr) (m : VMode) (tgt : Nat → Tgt)
    (lf : Nat → LeafInfo),
    (i = .vld vd a ew mk ∧ m = .unit) ∨ (i = .vldk vd a x ew mk ∧ m = .strided x) ∨ (i = .vldx vd a vx ew mk ∧ m = .indexed vx) →
    LaneGo s (some vd) m.index none true e s1 →
    let w := Width.bytes ew
    let u : XUnit := match m with | .indexed _ => .gather s1.curCore | _ => .vector s1.curCore
    let val (j : Nat) : Nat := match tgt j with | .window f o => (windowRead s2 f o).toNat | t => leNat (tgtRead s2 t w).1
    genericElems s1 u (wordOf i) .load w (256 / sewOf e.vtype) (m.addr e s1.curC.vec (e.sreg a) w) [] (e.elems s1.curC.vec mk e.vl)
      = (s2, (e.elems s1.curC.vec mk e.vl).map (fun j => (j, .ok (tgt j, lf j)))) →
    let ex (j : Nat) : Prop := Executes e s1.curC.vec mk j
    let bad (j : Nat) : Bool := (tgtRead s2 (tgt j) w).2
    let before := e.earlier s1.curC.vec mk vd = true ∧ (s1.vreg vd).tag.flags.getLsbD 3 = true
    ((∀ j, ex j → bad j = false) →
      ∃ t, exec i s = .next t ∧ LaneWrote s2 t e vd e.n mk (fun j => wrapInt e.n (signedOf (8 * w) (val j)))
        ∧ t.cur.fflags = s2.cur.fflags ∧ t.cur.vsat = s2.cur.vsat
        ∧ ((∃ j, ex j) → (before → (t.vreg vd).tag = ⟨0x7F800000#32, 0, 9⟩) ∧ (¬ before → (t.vreg vd).tag = ⟨0x7F800000#32, 0, 1⟩)))
    ∧ ((∀ j, ex j → ∀ f o, tgt j ≠ .window f o) → (∃ j, ex j ∧ bad j = true) →
      ∃ t, exec i s = .next t ∧ SameBytes s2 t ∧ t.cur.pc = s2.cur.advance.pc ∧ t.cur.vstart = 0 ∧ (t.vreg vd).tag = ⟨0x7F800000#32, 0, 9⟩
        ∧ t.cur.checks ≠ []
        ∧ ∀ j, j < 32768 / e.n →
            (ex j → elemGet (t.vreg vd).bits e.n j = (if bad j then 0 else wrapInt e.n (signedOf (8 * w) (val j)) % 2 ^ e.n))
            ∧ (¬ ex j → elemGet (t.vreg vd).bits e.n j = srcElem s1 e vd j)))
  ∧ (∀ (s s1 : State) (e : LaneEnv) (vd vx : VReg) (a x : SReg) (ew : Width) (qf : LoadQual) (mk : MkField) (i : Instr) (m : VMode) (lane : Bool),
    (i = .vlp vd a ew qf mk ∧ m = .unit ∧ lane = false) ∨ (i = .vlpk vd a x ew qf mk ∧ m = .strided x ∧ lane = false)
      ∨ (i = .vlpx vd a vx ew qf mk ∧ m = .indexed vx ∧ lane = false) ∨ (i = .vlpl vd a ew qf mk ∧ m = .unit ∧ lane = true) →
    LaneGo s (some vd) m.index none true e s1 →
    let w := Width.bytes ew
    let base := e.sreg a
    let addr := m.addr e s1.curC.vec base w
    let ex (j : Nat) : Prop := Executes e s1.curC.vec mk j
    let own (j : Nat) : Bool := spadOwn s1 lane base (addr j) w j
    let pl (j b : Nat) : Nat := spadByte lane base (addr j) w j b
    let val (j : Nat) : Nat := wrapInt e.n (signedOf (8 * w) (leNat ((List.range w).map (fun b => Mem.get s1.curC.spad (pl j b)))))
    -- every element that the mask admits executes: no earlier part of the load has been done
    let fresh : Prop := ∀ k, k < e.vl → maskOn s1.curC.vec mk k = true → ex k
    let before := e.earlier s1.curC.vec mk vd = true ∧ (s1.vreg vd).tag.flags.getLsbD 3 = true
    let bad (j : Nat) : Bool := (List.range w).any (fun b => s1.curC.spadPoisoned (pl j b) 1)
    (∀ j, ex j → spadPlaceOk lane base (addr j) w j) →
    ((∀ j, ex j → own j = true ∧ bad j = false) → (qf = .plain ∨ ∀ j b, ex j → b < w → s1.curC.isFull (pl j b / 16) = true) →
      ∃ (t s2 : State) (gs : List Nat), exec i s = .next t ∧ (s2 = s1 ∨ (qf ≠ .plain ∧ s2 = s1.takeC))
        ∧ LaneWrote (s2.modCurC (fun c => { c with full := gs.foldl NatSet.del c.full })) t e vd e.n mk val
        ∧ t.cur.fflags = s1.cur.fflags ∧ t.cur.vsat = s1.cur.vsat
        ∧ ((∃ j, ex j) → (before → (t.vreg vd).tag = ⟨0x7F800000#32, 0, 9⟩) ∧ (¬ before → (t.vreg vd).tag = ⟨0x7F800000#32, 0, 1⟩))
        ∧ (qf ≠ .take → gs = []) ∧ (qf = .take → fresh → ∀ g, g ∈ gs ↔ ∃ j b, ex j ∧ b < w ∧ pl j b / 16 = g))
    ∧ ((qf = .plain ∨ ∀ j b, ex j → own j = true → b < w → s1.curC.isFull (pl j b / 16) = true) →
      ∃ t, exec i s = .next t ∧ SameBytes s1 t ∧ t.cur.pc = s1.cur.advance.pc ∧ t.cur.vstart = 0
        ∧ ((∃ j, ex j ∧ own j = true ∧ bad j = true) → (t.vreg vd).tag = ⟨0x7F800000#32, 0, 9⟩ ∧ t.cur.checks ≠ [])
        ∧ ((∃ j, ex j ∧ own j = false) → t.cur.guard ≠ none)
        ∧ ∀ j, j < 32768 / e.n →
            (ex j → elemGet (t.vreg vd).bits e.n j = (if own j = true ∧ bad j = false then val j else 0))
            ∧ (¬ ex j → elemGet (t.vreg vd).bits e.n j = srcElem s1 e vd j))
    ∧ (∀ j, qf ≠ .plain → fresh → ex j → (∀ k, k < j → ¬ ex k) → own j = true → s1.curC.isFull (pl j 0 / 16) = false →
        ∃ t gs, exec i s = .next t ∧ t.cur.wait = .granule gs ∧ pl j 0 / 16 ∈ gs ∧ t.cur.pc = s1.cur.pc ∧ SameBytes s1 t
          ∧ t.curC.full = s1.curC.full ∧ ∀ r, (t.vreg r).bits = (s1.vreg r).bits))

/-- R83, R86: a vector store, every executing element placed: the ordered members leave in each byte what the highest element that wrote
it stored, the unordered ones what one of the elements that wrote it stored, and elements at one place one of their values whole; every
other byte is as before. Window registers are written in element order once the instruction has completed (R4, R324). .fill fills the
granules written, .drain empties them (R74), and guard accesses are discarded and recorded (R76). -/
def Obligations.VectorStores : Prop :=
  (∀ (s s1 s2 : State) (e : LaneEnv) (vd vx : VReg) (a x : SReg) (ew : Width) (mk : MkField) (i : Instr) (m : VMode) (ordered : Bool)
    (tgt : Nat → Tgt) (lf : Nat → LeafInfo),
    (i = .vst vd a ew mk ∧ m = .unit ∧ ordered = true) ∨ (i = .vstk vd a x ew mk ∧ m = .strided x ∧ ordered = true)
      ∨ (i = .vstx vd a vx ew mk ∧ m = .indexed vx ∧ ordered = false) ∨ (i = .vstxo vd a vx ew mk ∧ m = .indexed vx ∧ ordered = true) →
    LaneGo s none (vd :: m.index) none true e s1 →
    let w := Width.bytes ew
    let u : XUnit := match m with | .indexed _ => .gather s1.curCore | _ => .vector s1.curCore
    let ex (j : Nat) : Prop := Executes e s1.curC.vec mk j
    let val (j : Nat) : List Byte := leBytes w (wrapInt (8 * w) (signedOf e.n (srcElem s1 e vd j)))
    genericElems s1 u (wordOf i) .store w (256 / sewOf e.vtype) (m.addr e s1.curC.vec (e.sreg a) w) [] (e.elems s1.curC.vec mk e.vl)
      = (s2, (e.elems s1.curC.vec mk e.vl).map (fun j => (j, .ok (tgt j, lf j)))) →
    let windows (u : State) : State := (e.elems s1.curC.vec mk e.vl).foldl (fun u j =>
      match tgt j with | .window f o => windowWrite u f o (BitVec.ofNat 64 (leNat (val j))) | _ => u) u
    (ordered = true ∨ ∀ j, ex j → ∀ f o, tgt j ≠ .window f o) →
    ∃ t, exec i s = .next (if ordered then windows t else t) ∧ StoreFrame s2 t
      ∧ (∀ p, (∀ j, ex j → ¬ (tgt j).covers w p) → t.byteAt p = s2.byteAt p)
      ∧ (ordered = true → ∀ j b p, ex j → b < w → (tgt j).place b = some p → (∀ k, j < k → ex k → ¬ (tgt k).covers w p) →
          t.byteAt p = (val j).getD b 0)
      ∧ (∀ j p, ex j → (tgt j).covers w p → ∃ k b, ex k ∧ b < w ∧ (tgt k).place b = some p ∧ t.byteAt p = (val k).getD b 0)
      ∧ ((∀ j k p, ex j → ex k → (tgt j).covers w p → (tgt k).covers w p → tgt j = tgt k) →
          ∀ j, ex j → (∀ f o, tgt j ≠ .window f o) → ∃ k, ex k ∧ tgt k = tgt j ∧ (tgtRead t (tgt j) w).1 = val k))
  ∧ (∀ (s s1 : State) (e : LaneEnv) (vd vx : VReg) (a x : SReg) (ew : Width) (qf : StoreQual) (mk : MkField) (i : Instr) (m : VMode)
    (lane ordered : Bool),
    (i = .vsp vd a ew qf mk ∧ m = .unit ∧ lane = false ∧ ordered = true)
      ∨ (i = .vspk vd a x ew qf mk ∧ m = .strided x ∧ lane = false ∧ ordered = true)
      ∨ (i = .vspx vd a vx ew qf mk ∧ m = .indexed vx ∧ lane = false ∧ ordered = false)
      ∨ (i = .vspxo vd a vx ew qf mk ∧ m = .indexed vx ∧ lane = false ∧ ordered = true)
      ∨ (i = .vspl vd a ew qf mk ∧ m = .unit ∧ lane = true ∧ ordered = true) →
    LaneGo s none (vd :: m.index) none true e s1 →
    let w := Width.bytes ew
    let base := e.sreg a
    let addr := m.addr e s1.curC.vec base w
    let pl (j b : Nat) : Nat := spadByte lane base (addr j) w j b
    let ex (j : Nat) : Prop := Executes e s1.curC.vec mk j
    let wr (j : Nat) : Prop := ex j ∧ spadOwn s1 lane base (addr j) w j = true
    let val (j : Nat) : List Byte := leBytes w (wrapInt (8 * w) (signedOf e.n (srcElem s1 e vd j)))
    (∀ j, ex j → spadPlaceOk lane base (addr j) w j) →
    ∃ (t : State) (gs : List Nat), exec i s = .next t ∧ ((∀ j, ex j → wr j) → StoreFrame s1 t) ∧ t.cur.pc = s1.cur.advance.pc
      ∧ t.cur.vstart = 0 ∧ (∀ r, t.vreg r = s1.vreg r) ∧ ((∃ j, ex j ∧ ¬ wr j) → t.cur.guard ≠ none)
      ∧ (∀ p, (∀ j b, wr j → b < w → p ≠ .spad s1.curCore (pl j b)) → t.byteAt p = s1.byteAt p)
      ∧ (ordered = true → ∀ j b, wr j → b < w → (∀ k c, j < k → wr k → c < w → pl k c ≠ pl j b) →
          Mem.get t.curC.spad (pl j b) = (val j).getD b 0)
      ∧ (∀ j b, wr j → b < w → ∃ k c, wr k ∧ c < w ∧ pl k c = pl j b ∧ Mem.get t.curC.spad (pl j b) = (val k).getD c 0)
      ∧ ((∀ j k b c, wr j → wr k → b < w → c < w → pl j b = pl k c → b = c) →
          ∀ j, wr j → ∃ k, wr k ∧ (∀ b, b < w → pl k b = pl j b ∧ Mem.get t.curC.spad (pl j b) = (val k).getD b 0))
      ∧ (∀ g, g ∈ gs ↔ ∃ j b, wr j ∧ b < w ∧ pl j b / 16 = g)
      ∧ t.curC.full = (match qf with | .plain => s1.curC.full | .fill => gs.foldl NatSet.add s1.curC.full | .drain => gs.foldl NatSet.del s1.curC.full))

/-! ## Streams, spill frames and tags (spec 05, 07, 15) -/

/-- R139, R140: binding a stream register to a checked block, with the tags of its sidecar where it is bounded, and the faults of the
block; what a pop brings; dropping the binding; and fetching ahead. The block is read as the context's own access (R76). -/
def Obligations.StreamBindings : Prop :=
  (∀ (s s1 : State) (e : LaneEnv) (r : Fin 8) (a : SReg) (vd : VReg),
    let reg : VReg := ⟨24 + r.val, by omega⟩
    let addr := (e.sreg a).toNat
    let wrong (b : BitVec 512) : Prop := blkReserved b = true ∨ blkFold b ≠ 0 ∨ blkDspace b ≠ 0 ∨ blkBits b 8 0 57 ≠ 0
    LaneGo s none [] none false e s1 →
    (addr % 64 ≠ 0 → exec (.vsbind r a) s = .next (s1.trap (mkTrap 0x03 (e.sreg a) 0)))
    ∧ (addr % 64 = 0 → 0x400000 < addr + 64 → exec (.vsbind r a) s = .next (s1.trap (mkTrap 0x06 (e.sreg a) 0)))
    ∧ (addr % 64 = 0 → addr + 64 ≤ 0x400000 → 0x380000 < addr + 64 → exec (.vsbind r a) s = .next (s1.trap (mkTrap 0x04 (e.sreg a) 0)))
    ∧ ((∀ i, i < 64 → inAllocs s1.curAllocs (addr + i) = true ∧ NatSet.has s1.curC.spadPoison ((addr + i) / 16) = false) →
        s1.guardRead addr 64 = (s1, Mem.bytes s1.curC.spad addr 64, false))
    ∧ (∀ s2 bs poisoned, addr % 64 = 0 → addr + 64 ≤ 0x380000 → s1.guardRead addr 64 = (s2, bs, poisoned) →
        let b := BitVec.ofNat 512 (leNat bs)
        let bound (s3 : State) (tag : VTag) : Prop :=
          ∃ t x, exec (.vsbind r a) s = .next t ∧ t.cur.pc = s1.cur.advance.pc ∧ t.cur.vstart = 0 ∧ t.curC.vec.binds[r] = some x ∧ x.block = b
            ∧ x.popped = 0 ∧ x.ahead = [] ∧ x.part = s1.curPart ∧ x.asn = s1.cur.asnOf ∧ x.priv = s1.cur.priv ∧ (t.vreg reg).tag = tag
            ∧ (t.vreg reg).bits = (s1.vreg reg).bits ∧ (∀ n, n ≠ reg → t.vreg n = s1.vreg n) ∧ SameBytes s3 t
        (wrong b → exec (.vsbind r a) s = .next (s2.trap (mkTrap 0x0B (e.sreg a) 1)))
        ∧ (∀ tr, ¬ wrong b → blkRangeTrap b false = some tr → exec (.vsbind r a) s = .next (s2.trap tr))
        ∧ (¬ wrong b → blkBounded b = false → blkRangeTrap b false = none → bound s2 ⟨0x7F800000#32, 0, 1⟩)
        ∧ (∀ s3 x bank used, ¬ wrong b → blkBounded b = true → blkRangeTrap b false = none →
          sidecarRead s2 s2.curCore s2.curReq b [] = (s3, .ok (x, bank, used)) →
          bound s3 (if bank.isSome then ⟨0x7F800000#32, 0, 9⟩ else tagOfBytes x))
        ∧ (∀ s3 va reason loc, ¬ wrong b → blkBounded b = true → blkRangeTrap b false = none →
          sidecarRead s2 s2.curCore s2.curReq b [] = (s3, .error (.fault reason loc, va)) →
          exec (.vsbind r a) s = .next (s3.trap (mkTrap 0x0B va (BitVec.ofNat 64 reason)))))
    ∧ (s1.curC.vec.bound vd = none → ∃ t, exec (.vsunbind vd) s = .next t ∧ t.cur.pc = s1.cur.advance.pc
        ∧ (∀ n, t.vreg n = s1.vreg n) ∧ SameBytes s1 t)
    ∧ (∀ b, s1.curC.vec.binds[r] = some b → ∃ t, exec (.vsunbind reg) s = .next t ∧ t.cur.pc = s1.cur.advance.pc
        ∧ t.curC.vec.binds[r] = none ∧ (t.vreg reg).bits = (s1.vreg reg).bits ∧ (t.vreg reg).dirty = true
        ∧ (t.vreg reg).vhw = BitVec.ofNat 13 b.last ∧ (∀ n, n ≠ reg → t.vreg n = s1.vreg n) ∧ SameBytes s1 t))
  ∧ (∀ (s s1 : State) (r : Fin 8) (b : Binding) (vl : Nat) (more : List Byte) (bad : Option (DieId × Fin 16)) (pages : List UsedPage),
    let reg : VReg := ⟨24 + r.val, by omega⟩
    let es := blkEs b.block
    let got := b.ahead.take (vl * es)
    b.held = false → b.popped + vl ≤ blkCount b.block →
    boxReadRun s s.curCore ⟨b.part, b.asn, b.priv, s.cur.ctxOf⟩ b.block b.pages (b.popped + got.length / es) (vl - got.length / es)
      = (s1, .ok (more, bad, pages)) →
    ∃ t x, popStrip s reg r b vl es = (t, none) ∧ t.curC.vec.binds[r] = some x ∧ x.popped = b.popped + vl ∧ x.ahead = b.ahead.drop (vl * es)
      ∧ (t.vreg reg).tag = (if bad.isSome then ⟨0x7F800000#32, 0, b.tag.flags ||| 8⟩ else b.tag)
      ∧ (∀ i, i < (got ++ more).length → i < 4096 → elemGet (t.vreg reg).bits 8 i = ((got ++ more).getD i 0).toNat) ∧ SameBytes s1 t)
  ∧ (∀ (s s1 : State) (k : CoreId) (r : Fin 8) (b : Binding) (th : Tid) (bs : List Byte) (bad : Option (DieId × Fin 16))
    (pages : List UsedPage),
    let vl := (s.thr k th).vl.toNat
    let es := blkEs b.block
    let first := b.popped + b.ahead.length / es
    let n := min vl (blkCount b.block - first)
    (s.core k).vec.binds[r] = some b → (s.core k).vec.holder = some th → n ≠ 0 → b.ahead.length + n * es ≤ 2 * vl * es →
    boxReadRun s k ⟨b.part, b.asn, b.priv, (s.thr k th).ctxOf⟩ b.block b.pages first n = (s1, .ok (bs, bad, pages)) →
    ∃ t x, exec (.streamRefill k r) s = .next t ∧ (t.core k).vec.binds[r] = some x ∧ x.ahead = b.ahead ++ bs ∧ x.popped = b.popped
      ∧ SameBytes s1 t ∧ (∀ i j, (t.thr i j).pc = (s1.thr i j).pc))

/-- R88, R89: vspill writes the header and the elements from vstart to VL and nothing else; vfill restores the bytes that the header
covers, the tags, the high-water mark and the dirty bit, and takes an access fault on a header that is none; both take the faults of their
place and of a bound register first (their order is log 64's). R295, R291: vbget and vbset move a tag state as the 8-byte image of a
sidecar; vstb and vldb store and load it 8 bytes below s[a], in the scratchpad or, translated to s2, in generic space. A byte that the
context does not own reads zero and is not written (R76), and poison sets +∞ and the residue flag (R341). -/
def Obligations.SpillsAndTags : Prop :=
  (∀ (s s1 : State) (e : LaneEnv) (vd : VReg) (a : SReg),
    let addr := (e.sreg a).toNat
    let w := sewOf e.vtype
    let m := s1.curC.spad
    let faults (c : BitVec 8) (i : Instr) : Prop := exec i s = .next (s1.trap (mkTrap c (e.sreg a) 0))
    LaneGo s none [] none false e s1 →
    (addr % 32 ≠ 0 → faults 0x03 (.vspill vd a) ∧ faults 0x03 (.vfill vd a))
    ∧ (addr % 32 = 0 → 0x400000 < addr + 4128 → faults 0x06 (.vspill vd a) ∧ faults 0x06 (.vfill vd a))
    ∧ (addr % 32 = 0 → addr + 4128 ≤ 0x400000 → 0x380000 < addr + 4128 → faults 0x04 (.vspill vd a) ∧ faults 0x04 (.vfill vd a))
    ∧ (∀ b, addr % 32 = 0 → addr + 4128 ≤ 0x380000 → s1.curC.vec.bound vd = some b →
      exec (.vspill vd a) s = .next (s1.trap (mkTrap 0x11 (BitVec.ofNat 64 vd.val) 0)))
    ∧ (addr % 32 = 0 → addr + 4128 ≤ 0x380000 → s1.curC.vec.bound vd = none → debugStop s1 w e.vl = none →
      let own (i : Nat) : Bool := inAllocs s1.curAllocs (addr + i)
      ∃ t, exec (.vspill vd a) s = .next t ∧ t.cur.pc = s1.cur.advance.pc ∧ t.cur.vstart = 0 ∧ t.curC.full = s1.curC.full
        ∧ (∀ r, t.vreg r = s1.vreg r)
        ∧ ((∀ i, i < 4128 → own i = true) → StoreFrame s1 t
          ∧ Mem.num t.curC.spad addr 4 = e.vl ∧ Mem.num t.curC.spad (addr + 4) 2 = e.vtype.toNat
          ∧ Mem.num t.curC.spad (addr + 6) 1 = vd.val ∧ Mem.num t.curC.spad (addr + 7) 1 = 0
          ∧ Mem.num t.curC.spad (addr + 8) 8 = tagBytes (s1.vreg vd).tag ∧ Mem.num t.curC.spad (addr + 16) 16 = 0)
        ∧ (∀ i, e.start * w ≤ i → i < e.vl * w → own (32 + i) = true →
            (Mem.get t.curC.spad (addr + 32 + i)).toNat = elemGet (s1.vreg vd).bits 8 i)
        ∧ ∀ p, (∀ i, i < 32 ∨ (32 + e.start * w ≤ i ∧ i < 32 + e.vl * w) → own i = true → p ≠ .spad s1.curCore (addr + i)) →
            t.byteAt p = s1.byteAt p)
    ∧ (∀ s2 hd poison, addr % 32 = 0 → addr + 4128 ≤ 0x380000 → s1.guardRead addr 32 = (s2, hd, poison) →
      let field (o n : Nat) : Nat := leNat ((hd.drop o).take n)
      let hvl := field 0 4
      let hvt := field 4 2
      let hsew := 2 ^ (hvt / 2 ^ 9 % 4)
      let lo := e.start * hsew
      let bad := vtypeImageOk hvt = false ∨ field 7 1 ≠ 0 ∨ field 16 16 ≠ 0 ∨ 4096 < hvl * hsew
      (bad → exec (.vfill vd a) s = .next (s2.trap (mkTrap 0x04 (e.sreg a) 0)))
      ∧ (∀ b, ¬ bad → s1.curC.vec.bound vd = some b → exec (.vfill vd a) s = .next (s2.trap (mkTrap 0x11 (BitVec.ofNat 64 vd.val) 0)))
      ∧ (∀ s3 bs poisons, ¬ bad → s1.curC.vec.bound vd = none → debugStop s1 hsew hvl = none →
        s2.guardRead (addr + 32 + lo) (hvl * hsew - lo) = (s3, bs, poisons) →
        let tag := tagOfBytes (field 8 8)
        ∃ t, exec (.vfill vd a) s = .next t ∧ t.cur.pc = s1.cur.advance.pc ∧ t.cur.vstart = 0 ∧ SameBytes s1 t
          ∧ (∀ r, r ≠ vd → t.vreg r = s1.vreg r)
          ∧ (t.vreg vd).tag = (if poison || poisons then ⟨0x7F800000#32, tag.mag, tag.flags ||| 8⟩ else tag)
          ∧ (t.vreg vd).vhw = BitVec.ofNat 13 (hvl * hsew) ∧ (t.vreg vd).dirty = true ∧ (t.vreg vd).vpx = 4096
          ∧ (∀ i, i < 4096 → elemGet (t.vreg vd).bits 8 i =
              (if lo ≤ i ∧ i < hvl * hsew then (bs.getD (i - lo) 0).toNat else elemGet (s1.vreg vd).bits 8 i))
          ∧ ((∀ i, i < 4128 → inAllocs s1.curAllocs (addr + i) = true ∧ NatSet.has s1.curC.spadPoison ((addr + i) / 16) = false) →
              hd = Mem.bytes m addr 32 ∧ bs = Mem.bytes m (addr + 32 + lo) (hvl * hsew - lo) ∧ LaneFrame s1 t (some vd) none none))))
  ∧ (∀ (s s1 : State) (e : LaneEnv) (vd va : VReg) (a : SReg),
    let at8 := e.sreg a - 8
    let x := at8.toNat
    let inside := x < 0x380000 ∧ x % 8 = 0
    let own := ∀ i, i < 8 → inAllocs s1.curAllocs (x + i) = true
    (LaneGo s (some vd) [] none false e s1 →
      (∃ t, exec (.vbget vd va) s = .next t ∧ LaneFrame s1 t (some vd) none none
        ∧ elemGet (t.vreg vd).bits 64 0 = (s1.vreg va).tag.bound.toNat + (s1.vreg va).tag.mag.toNat * 2 ^ 32 + (s1.vreg va).tag.flags.toNat * 2 ^ 40
        ∧ (∀ i, 0 < i → i < 512 → elemGet (t.vreg vd).bits 64 i = elemGet (s1.vreg vd).bits 64 i)
        ∧ (t.vreg vd).tag = ⟨0, 0, 0⟩ ∧ (t.vreg vd).vhw = BitVec.ofNat 13 (max (s1.vreg vd).vhw.toNat 8) ∧ (t.vreg vd).dirty = true
        ∧ (t.vreg vd).vpx = 4096)
      ∧ (∀ s2 bs poison, inside → s1.guardRead x 8 = (s2, bs, poison) →
        ∃ t, exec (.vldb vd a true) s = .next t ∧ t.cur.pc = s1.cur.advance.pc ∧ t.cur.vstart = 0 ∧ SameBytes s1 t
          ∧ (∀ r, r ≠ vd → t.vreg r = s1.vreg r) ∧ (t.vreg vd).bits = (s1.vreg vd).bits
          ∧ (t.vreg vd).tag = (if poison then ⟨0x7F800000#32, 0, 8⟩ else tagOfBytes (leNat bs))
          ∧ (own → (∀ i, i < 8 → NatSet.has s1.curC.spadPoison ((x + i) / 16) = false) →
              bs = Mem.bytes s1.curC.spad x 8 ∧ LaneFrame s1 t (some vd) none none))
      ∧ (∀ s2 tg lf, canonical at8 = true → x % 8 = 0 → translate s1 (.vector s1.curCore) s1.curReq .load at8 true = (s2, .ok (tg, lf)) →
          ((∀ f o, tg ≠ .window f o) → (tgtRead s2 tg 8).2 = false →
            ∃ t, exec (.vldb vd a false) s = .next t ∧ LaneFrame s2 t (some vd) none none
              ∧ (t.vreg vd).bits = (s2.vreg vd).bits ∧ (t.vreg vd).tag = tagOfBytes (leNat (tgtRead s2 tg 8).1))
          ∧ ((tgtRead s2 tg 8).2 = true →
            ∃ t, exec (.vldb vd a false) s = .next t ∧ t.cur.pc = s2.cur.advance.pc ∧ (t.vreg vd).bits = (s2.vreg vd).bits
              ∧ (t.vreg vd).tag = ⟨0x7F800000#32, 0, 8⟩ ∧ t.cur.checks ≠ [])
          ∧ (∀ f o, tg = .window f o → o % 8 = 0 → (windowLevels f o).1.le s2.cur.priv = true →
            ∃ t, exec (.vldb vd a false) s = .next t ∧ LaneFrame s2 t (some vd) none none
              ∧ (t.vreg vd).bits = (s2.vreg vd).bits ∧ (t.vreg vd).tag = tagOfBytes (windowRead s2 f o).toNat)))
    ∧ (LaneGo s (some vd) [va] none false e s1 →
      ∃ t, exec (.vbset vd va) s = .next t ∧ LaneFrame s1 t (some vd) none none ∧ (t.vreg vd).bits = (s1.vreg vd).bits
        ∧ (t.vreg vd).tag = tagOfBytes (elemGet (s1.vreg va).bits 64 0))
    ∧ (LaneGo s none [] none false e s1 →
      (inside → own → ∃ t, exec (.vstb vd a true) s = .next t ∧ StoreFrame s1 t ∧ t.curC.full = s1.curC.full
        ∧ Mem.num t.curC.spad x 8 = tagBytes (s1.vreg vd).tag
        ∧ ∀ p, (∀ i, i < 8 → p ≠ .spad s1.curCore (x + i)) → t.byteAt p = s1.byteAt p)
      ∧ (inside → ¬ own → ∃ t, exec (.vstb vd a true) s = .next t ∧ t.cur.pc = s1.cur.advance.pc ∧ t.cur.guard ≠ none
        ∧ (∀ r, t.vreg r = s1.vreg r)
        ∧ ∀ p, (∀ i, i < 8 → inAllocs s1.curAllocs (x + i) = true → p ≠ .spad s1.curCore (x + i)) → t.byteAt p = s1.byteAt p)
      ∧ (∀ s2 tg lf, canonical at8 = true → x % 8 = 0 → translate s1 (.vector s1.curCore) s1.curReq .store at8 true = (s2, .ok (tg, lf)) →
          ((∀ f o, tg ≠ .window f o) →
            ∃ t, exec (.vstb vd a false) s = .next t ∧ StoreFrame s2 t ∧ leNat (tgtRead t tg 8).1 = tagBytes (s1.vreg vd).tag
              ∧ ∀ p, ¬ tg.covers 8 p → t.byteAt p = s2.byteAt p)
          ∧ (∀ f o l, tg = .window f o → o % 8 = 0 → (windowLevels f o).2 = some l → l.le s2.cur.priv = true →
            ∃ t, StoreFrame s2 t ∧ SameBytes s2 t
              ∧ exec (.vstb vd a false) s = .next (windowWrite t f o (BitVec.ofNat 64 (tagBytes (s1.vreg vd).tag)))))))

/-! ## Blocks, frames and the lanes (spec 02, 10, 12) -/

/-- R185 to R188, R177, R211: vf starts a checked block, resumes a stopped one of its own (fetching its words again where fencei has
dropped them), sets any other aside, and traps on an illegal word; its thread stands at it until the block joins (log 30). vpbr, vpjmp and
vpstop are illegal outside a block and move virtual processors inside one; a trigger at a block's word halts the core before it (R350).
vjoin waits for the thread's blocks; vrel takes effect by its event; the join; and a waiting thread's acquisition of free lanes. -/
def Obligations.BlocksAndLanes : Prop :=
  (∀ (s s0 s1 : State) (count : Fin 32) (off : BitVec 13) (ws : List Word32),
    let n := count.val + 1
    let i : Instr := .vf count off
    let base := s0.cur.pc + BitVec.ofInt 64 (4 * off.toInt)
    let began (u : State) (b : Block) : Prop :=
      ∃ t, exec i s = .next t ∧ t.curC.vec.block = some b ∧ t.cur.pc = s0.cur.pc ∧ SameBytes u t
        ∧ ∀ r : VReg, t.vreg r = (if b.writes.getLsbD r.val then { u.vreg r with vpx := 0 } else u.vreg r)
    (acquireLanes s = none → exec i s = .next (s.block .lanes)) ∧
    (acquireLanes s = some s0 → s0.blockRuns = true → exec i s = .next (s0.block .block)) ∧
    (acquireLanes s = some s0 → s0.blockRuns = false →
      let illegal : Prop := ∀ p, p < ws.length → blockWordOk n p (ws.getD p 0) = false → (∀ q, q < p → blockWordOk n q (ws.getD q 0) = true) →
        exec i s = .next (s1.trap (mkTrap 0x01 (wordOf i + BitVec.ofNat 64 ((p + 1) * 2 ^ 32)) 0))
      let legal : Prop := ∀ p, p < ws.length → blockWordOk n p (ws.getD p 0) = true
      (∀ b, s0.curC.vec.block = some b → b.pc = s0.cur.pc → b.tid = s0.curTid →
        (b.words ≠ [] → began s0 { b with stopped := false })
        ∧ (b.words = [] → fetchWords s0 base n = (s1, .ok ws) →
          illegal ∧ (legal → began s1
            { b with
              words := ws, base := base, writes := blockWrites ws, stopped := false
              vps := b.vps.map (fun p => if ws.length ≤ p.pos then { p with stopped := true } else p) })))
      ∧ ((∀ b, s0.curC.vec.block = some b → b.pc ≠ s0.cur.pc ∨ b.tid ≠ s0.curTid) →
        (∀ k, fetchWords s0 base n = (s1, .error k) → exec i s = k s1) ∧
        (fetchWords s0 base n = (s1, .ok ws) →
          illegal
          ∧ (legal → s0.cur.vl = 0 → ∃ t, exec i s = .next t ∧ t.cur.pc = s1.cur.advance.pc ∧ t.cur.vstart = 0 ∧ t.curC.vec = s1.curC.vec ∧ SameBytes s1 t)
          ∧ (legal → s0.cur.vl ≠ 0 →
            began s1
              { tid := s0.curTid, pc := s0.cur.pc, base := base, words := ws, writes := blockWrites ws, sregs := s0.cur.sregs
                vl := s0.cur.vl.toNat, vtype := s0.cur.vtype, vps := List.replicate s0.cur.vl.toNat ⟨0, false⟩, dying := 0
                stopped := false, threaded := false, last := [], passes := false }
            ∧ ∃ t, exec i s = .next t ∧ t.curC.vec.parked = s1.curC.vec.block.toList ++ s1.curC.vec.parked)))))
  ∧ (∀ (s : State) (ma : MReg) (clr : Bool) (off : BitVec 13),
    exec (.vpbr ma clr off) s = .next (s.trap (mkTrap 0x01 (wordOf (.vpbr ma clr off)) 0))
    ∧ exec (.vpjmp off) s = .next (s.trap (mkTrap 0x01 (wordOf (.vpjmp off)) 0)) ∧ exec .vpstop s = .next (s.trap (mkTrap 0x01 (wordOf .vpstop) 0)))
  ∧ (∀ (s : State) (k : CoreId) (vp p : Nat) (b : Block) (ma : MReg) (clr : Bool) (off : BitVec 13),
    (s.core k).vec.block = some b → b.stopped = false → (s.core k).halted = false → s.fatal = false → (s.part (s.corePart k)).halt = 0 →
    b.turn vp ≠ [] → (∀ j, j ∈ b.turn vp → b.vps[j]? = some ⟨p, false⟩) →
    (b.passes = false →
      (∃ x ∈ (s.core k).triggers.toList, x.control.getLsbD 0 = true ∧ x.control.getLsbD 13 = false ∧ x.addr = b.base + BitVec.ofNat 64 (4 * p)) →
      ((blockStep s k vp).core k).halted = true ∧ (∀ th, ((blockStep s k vp).thr k th).dcause = 3)
        ∧ ∃ b' : Block, ((blockStep s k vp).core k).vec.block = some b' ∧ b'.stopped = true ∧ b'.vps = b.vps) ∧
    ((s.core k).step = false → (∀ x ∈ (s.core k).triggers.toList, x.control.getLsbD 0 = false) →
    let moved (f : Nat → VpState) : Prop :=
      ∃ b' : Block, ((blockStep s k vp).core k).vec.block = some b' ∧ (∀ j, j ∈ b.turn vp → b'.vps[j]? = some (f j))
        ∧ (∀ j, j ∉ b.turn vp → b'.vps[j]? = b.vps[j]?)
        ∧ ((∃ (i j x y : Nat), b'.vps[i]? = some ⟨x, false⟩ ∧ b'.vps[j]? = some ⟨y, false⟩ ∧ x ≠ y) → b.vps.all (fun v => v.stopped || v.pos == p) = true →
            b'.threaded = true)
    let next : VpState := if p + 1 < b.words.length then ⟨p + 1, false⟩ else ⟨p, true⟩
    (decodeLow (b.words.getD p 0) = .ok .vpstop → moved (fun _ => ⟨p, true⟩))
    ∧ (∀ q, jumpIn b.words.length p off = some q →
        (decodeLow (b.words.getD p 0) = .ok (.vpjmp off) → moved (fun _ => ⟨q, false⟩))
        ∧ (decodeLow (b.words.getD p 0) = .ok (.vpbr ma clr off) →
            moved (fun j => if (s.core k).vec.masks[ma].bits.getLsbD j = !clr then ⟨q, false⟩ else next)))))
  ∧ (∀ (s s0 : State),
    (acquireLanes s = none → exec .vjoin s = .next (s.block .lanes))
    ∧ (acquireLanes s = some s0 →
      ((∃ b ∈ s0.curC.vec.block.toList ++ s0.curC.vec.parked, b.tid = s0.curTid) → exec .vjoin s = .next (s0.block .join))
      ∧ ((∀ b ∈ s0.curC.vec.block.toList ++ s0.curC.vec.parked, b.tid ≠ s0.curTid) →
        exec .vjoin s = .next ((s0.modCur (fun x => { x with vstart := 0 })).advance.count 3 1)))
    ∧ (s.curC.vec.holder = some s.curTid →
        exec .vrel s = .next ((s.modCur (fun x => { x with relPending := true, vstart := 0 })).advance.count 3 1))
    ∧ (s.curC.vec.holder ≠ some s.curTid → exec .vrel s = .next ((s.modCur (fun x => { x with vstart := 0 })).advance.count 3 1)))
  ∧ (∀ (s : State) (k : CoreId) (t o : Tid),
    let mine := (s.core k).vec.block.toList ++ (s.core k).vec.parked
    ((s.thr k t).relPending = true → (∀ b ∈ mine, b.tid ≠ t) → o ≠ t →
      ∃ u, exec (.laneRelease k t) s = .next u ∧ (u.thr k t).relPending = false ∧ SameBytes s u
        ∧ ((s.core k).vec.holder = some t →
            ((s.thr k o).wait ≠ .lanes → (u.core k).vec.holder = none)
            ∧ ((s.thr k o).wait = .lanes → (u.core k).vec.holder = some o ∧ (u.thr k o).vecSaved = none
                ∧ ∀ v, (s.thr k o).vecSaved = some v → (u.core k).vec.regs = v.regs ∧ (u.core k).vec.masks = v.masks)
            ∧ ((s.thr k o).wait ≠ .lanes ∨ (s.thr k o).vecSaved = none →
                (u.core k).vec.block = none ∧ (u.core k).vec.parked = []
                ∧ (∀ n : VReg, (u.core k).vec.regs[n].dirty = false ∧ (u.core k).vec.regs[n].vhw = 0
                    ∧ (u.core k).vec.regs[n].tag = ⟨0x7F800000#32, 0, 1⟩)
                ∧ (∀ m : MReg, (u.core k).vec.masks[m].dirty = false) ∧ (∀ r : Fin 8, (u.core k).vec.binds[r] = none)))
        ∧ ((s.core k).vec.holder ≠ some t → (u.core k).vec = (s.core k).vec))
    ∧ ((s.thr k t).relPending = false ∨ (∃ b ∈ mine, b.tid = t) → exec (.laneRelease k t) s = .next s)
    ∧ ((s.thr k t).wait = .lanes → (s.thr k t).relPending = false → (s.core k).vec.holder = none →
      ∃ u, exec (.lanesAcquired k t) s = .next u ∧ (u.thr k t).wait = .none ∧ (u.thr k t).vecSaved = none ∧ (u.core k).vec.holder = some t
        ∧ (∀ v, (s.thr k t).vecSaved = some v → (u.core k).vec.regs = v.regs ∧ (u.core k).vec.masks = v.masks)
        ∧ ((s.thr k t).vecSaved = none → (u.core k).vec.regs = (s.core k).vec.regs))
    ∧ (∀ h, (s.core k).vec.holder = some h → h ≠ t → exec (.lanesAcquired k t) s = .next s)
    ∧ (∀ b, (s.core k).vec.block = some b →
      (b.stopped = true ∨ (∃ v, v ∈ b.vps ∧ v.stopped = false) ∨ s.fatal = true ∨ (s.core k).halted = true ∨ (s.part (s.corePart k)).halt ≠ 0 →
        exec (.blockJoin k) s = .next s)
      ∧ (b.stopped = false → (∀ v, v ∈ b.vps → v.stopped = true) → s.fatal = false → (s.core k).halted = false →
          (s.part (s.corePart k)).halt = 0 → (s.core k).step = false →
        ∃ u, exec (.blockJoin k) s = .next u ∧ (u.core k).vec.block = (s.core k).vec.parked.head? ∧ (u.core k).vec.parked = (s.core k).vec.parked.tail
          ∧ SameBytes s u
          ∧ (∀ n : VReg, b.dying.getLsbD n.val = false → (u.core k).vec.regs[n].bits = (s.core k).vec.regs[n].bits
              ∧ (b.writes.getLsbD n.val = true → (u.core k).vec.regs[n].vpx = 4096))
          ∧ (∀ n : VReg, b.dying.getLsbD n.val = true → (u.core k).vec.regs[n].dirty = false ∧ (u.core k).vec.regs[n].vhw = 0
              ∧ (u.core k).vec.regs[n].tag = ⟨0x7F800000#32, 0, 1⟩)
          ∧ (u.thr k b.tid).wait = .none ∧ (u.thr k b.tid).vstart = 0 ∧ (u.thr k b.tid).pc = (s.thr k b.tid).advance.pc
          ∧ ∀ th, th ≠ b.tid → u.thr k th = s.thr k th)))

/-- R30, R31, R177, R230, R231: a repeat frame: which words make it illegal, with the position and execution in tval and nothing executed
(which of a word's two faults is given is the model's choice, log 70); a captured frame goes on from the words that it holds, with no fetch;
it waits for the lanes; and the run of one captured word, here an addition: its fields staggered by the execution, then the next word, the
next execution, or the end. -/
def Obligations.RepeatFrames : Prop :=
  ∀ (s s1 sF : State) (n : Fin 16) (reps : Fin 64) (dd da db : Fin 8) (ws : List Word32),
    let i : Instr := .rpt n reps dd da db
    let len := n.val + 1
    let rounds := reps.val + 1
    let atLe (j : Nat) : Prop := s.cur.le ≠ 0 ∧ s.cur.loopOff = false ∧ s.cur.le = s.cur.pc + BitVec.ofNat 64 (4 + 4 * j)
    let headAtLe : Prop := s.cur.le ≠ 0 ∧ s.cur.loopOff = false ∧ s.cur.le = s.cur.pc
    let form (j k : Nat) : Option Instr := (captured (ws.getD j 0)).bind (stagger dd.val da.val db.val k)
    let good (j k : Nat) : Prop := ∃ x, form j k = some x ∧ x.wellFormed = true
    let fits (j : Nat) : Prop := ¬ atLe j ∧ ∀ k, k < rounds → good j k
    let wrong (u : State) (x : Nat) : Prop := exec i s = .next (u.trap (mkTrap 0x01 (wordOf i + BitVec.ofNat 64 (x * 2 ^ 32)) 0))
    (s.cur.frame = [] → headAtLe → wrong s 0)
    ∧ (∀ k, s.cur.frame = [] → ¬ headAtLe → fetchWords s (s.cur.pc + 4) len = (s1, .error k) → exec i s = k s1)
    ∧ (s.cur.frame = [] → ¬ headAtLe → fetchWords s (s.cur.pc + 4) len = (s1, .ok ws) →
      ∀ j, j < ws.length → (∀ q, q < j → fits q) →
        (captured (ws.getD j 0) = none ∨ atLe j → wrong s1 (j + 1))
        ∧ (∀ k, (captured (ws.getD j 0)).isSome = true → ¬ atLe j → k < rounds → ¬ good j k → (∀ q, q < k → good j q) → wrong s1 (j + 1 + k * 256)))
    ∧ ((s.cur.frame = [] ∧ ¬ headAtLe ∧ fetchWords s (s.cur.pc + 4) len = (s1, .ok ws) ∧ (∀ q, q < ws.length → fits q)
          ∧ sF = s1.modCur (fun t => { t with frame := (wordOf i).setWidth 32 :: ws }))
        ∨ ((∃ h, s.cur.frame = h :: ws) ∧ sF = s) →
      (acquireLanes sF = none → exec i s = .next (sF.block .lanes))
      ∧ (∀ s0 j k, acquireLanes sF = some s0 → s0.blockRuns = false → s.cur.rptst = BitVec.ofNat 64 (1 + 2 * j + 32 * k) → j < 16 → k < 64 →
          (len ≤ j ∨ rounds ≤ k) → wrong s0 0xFF)
      ∧ (∀ j k vd va vb rep mk e s2, ws.length = len → j < len → k < rounds →
          ((s.cur.rptst.getLsbD 0 = false ∧ j = 0 ∧ k = 0) ∨ s.cur.rptst = BitVec.ofNat 64 (1 + 2 * j + 32 * k)) →
          captured (ws.getD j 0) = some (.vadd vd va vb rep mk) →
          let st (r : VReg) (step : Nat) : VReg := ⟨(r.val + k * step) % 32, Nat.mod_lt _ (by decide)⟩
          let d := st vd dd.val
          let x := st va da.val
          let y := st vb db.val
          LaneGo (sF.modCur (fun t => { t with rptst := BitVec.ofNat 64 (1 + 2 * j + 32 * k) })) (some d) [x, y] (repOf rep y) true e s2 →
          ∃ t, exec i s = .next t ∧ t.cur.vstart = 0 ∧ SameBytes s2 t ∧ (∀ r, r ≠ d → t.vreg r = s2.vreg r)
            ∧ (∀ m, m < 32768 / e.n →
                (Executes e s2.curC.vec mk m → elemGet (t.vreg d).bits e.n m =
                  (srcElem s2 e x m + loopElem s2 e mk d y rep (fun q z => srcElem s2 e x q + z) m) % 2 ^ e.n)
                ∧ (¬ Executes e s2.curC.vec mk m → elemGet (t.vreg d).bits e.n m = srcElem s2 e d m))
            ∧ (j + 1 < len → t.cur.rptst = BitVec.ofNat 64 (1 + 2 * (j + 1) + 32 * k) ∧ t.cur.pc = sF.cur.pc ∧ t.cur.frame = sF.cur.frame)
            ∧ (j + 1 = len → k + 1 < rounds →
                t.cur.rptst = BitVec.ofNat 64 (1 + 32 * (k + 1)) ∧ t.cur.pc = sF.cur.pc ∧ t.cur.frame = sF.cur.frame)
            ∧ (j + 1 = len → k + 1 = rounds →
                t.cur.rptst = 0 ∧ t.cur.pc = sF.cur.pc + BitVec.ofNat 64 (4 + 4 * len) ∧ t.cur.frame = [])))

/-! ## The matrix unit (spec 14, 15) -/

/-- R260, R284, R285: a matrix instruction waits for a re-issue and for the other thread's mfill, and then reports a bound record. R256,
R257, R262 to R265, R269, R276: shape, claims, weights, zeroing, fills and reads of a tile's side values, and the operand faults of R259
that stop them. An mfill reads what the context does not own, and poison, as zero (R76, R341), and with .wait stands at its first empty
granule with the slot busy and gen advanced (R73, R80, R261). -/
def Obligations.MatrixSetup : Prop :=
  (∀ (s : State) (d a c : SReg) (vd : VReg) (p : Slot) (q r : Tile) (cls : MatClass) (ft : FillType) (act : ActType) (dt : DrainType)
    (f : BreadField) (b1 b2 b3 : Bool),
    ∀ i ∈ [Instr.mshape d a cls, .mclaim d a, .mrelease a, .mfill p a c ft b1 b2 b3, .mwload p, .mmac q p r act b1 b2 b3, .mzero q,
        .msoft q p r, .mnorm q, .mdrain vd q c dt b1, .mdrainc vd q c dt b1, .mdrainSpad q c dt b1 b2, .mbread vd q f],
      (s.curC.mat.pendReissue ≠ none ∨ (∃ x, s.curC.mat.filling = some x ∧ x.tid ≠ s.curTid) → exec i s = .next (s.block (.slotBusy [])))
      ∧ (∀ s', s.curC.mat.pendReissue = none → s.curC.mat.filling = none → takeBound s = some s' → exec i s = .next s'))
  ∧ ∀ (s : State) (d a c : SReg) (p : Slot) (q : Tile) (cls : MatClass),
    s.curC.mat.pendReissue = none → s.curC.mat.filling = none → s.cur.boundRep = none →
    let x := (s.sreg a).toNat
    let u := s.curC.mat
    let ctx := s.cur.ctxOf
    let mine (q : Tile) : Prop := u.acown[q] = 0 ∨ u.acown[q] = ctx
    let others : Prop := ∃ i : Slot, x.testBit i.val = true ∧ u.slots[i].claimed = true ∧ u.slots[i].owner ≠ ctx
    (let cap := match cls with | .e16 => 128 | .e8 => 256 | .e4 => 512
     let g := min (x % 2 ^ 16) 128 + min (x / 2 ^ 16 % 2 ^ 16) 128 * 2 ^ 16 + min (x / 2 ^ 32 % 2 ^ 16) cap * 2 ^ 32
     exec (.mshape d a cls) s = .next ((s.modCur (fun t => { t with msh := BitVec.ofNat 48 g })).finish d (BitVec.ofNat 64 g)))
    ∧ (2 ^ 16 ≤ x → exec (.mclaim d a) s = .next (s.trap (mkTrap 0x04 6 0)) ∧ exec (.mrelease a) s = .next (s.trap (mkTrap 0x04 6 0)))
    ∧ (x < 2 ^ 16 →
      (∃ t, exec (.mclaim d a) s = .next t ∧ t.cur.pc = s.cur.advance.pc ∧ (∀ r, r ≠ d → t.sreg r = s.sreg r) ∧ SameBytes s t
        ∧ (∀ i : Slot, d ≠ 0 → ((t.sreg d).getLsbD i.val = true ↔ x.testBit i.val = true ∧ u.slots[i].claimed = true ∧ u.slots[i].owner ≠ ctx))
        ∧ (t.sreg d).toNat < 2 ^ 16
        ∧ (others → t.curC.mat = u)
        ∧ (¬ others → t.curC.mat.tiles = u.tiles ∧ ∀ i : Slot,
            (x.testBit i.val = true ∧ u.slots[i].claimed = false →
              t.curC.mat.slots[i].claimed = true ∧ t.curC.mat.slots[i].owner = ctx ∧ t.curC.mat.slots[i].gen = u.slots[i].gen
              ∧ t.curC.mat.slots[i].data = Vector.replicate 128 0 ∧ t.curC.mat.slots[i].trailer = 0 ∧ t.curC.mat.slots[i].sidecar = 0
              ∧ t.curC.mat.slots[i].scaled = false ∧ t.curC.mat.slots[i].bounded = false)
            ∧ (¬ (x.testBit i.val = true ∧ u.slots[i].claimed = false) → t.curC.mat.slots[i] = u.slots[i])))
      ∧ (∃ t, exec (.mrelease a) s = .next t ∧ t.cur.pc = s.cur.advance.pc ∧ (∀ r, t.sreg r = s.sreg r) ∧ SameBytes s t
        ∧ (∀ i : Slot,
            (x.testBit i.val = true ∧ u.slots[i].claimed = true ∧ u.slots[i].owner = ctx →
              t.curC.mat.slots[i] = { u.slots[i] with claimed := false, owner := 0 })
            ∧ (¬ (x.testBit i.val = true ∧ u.slots[i].claimed = true ∧ u.slots[i].owner = ctx) → t.curC.mat.slots[i] = u.slots[i]))
        ∧ (∀ (q : Tile) (i : Slot) (e : RecipeEntry), e ∈ u.tiles[q].recipe → x.testBit i.val = true → u.slots[i].claimed = true →
            u.slots[i].owner = ctx → (e.slot = i ∨ e.latch.slot = i) → t.curC.mat.tiles[q].lost = true)
        ∧ (∀ (q : Tile), t.curC.mat.tiles[q].rows = u.tiles[q].rows)))
    ∧ (let ty := elemOfCode u.slots[p].type.toNat
       let kw := min (s.cur.msh.toNat / 2 ^ 32 % 2 ^ 16) (latchCap ty)
       let holds (p : Slot) : Prop := u.slots[p].claimed = true ∧ u.slots[p].owner = ctx
       let held := holds p
       (∀ p2, nextSlot p = some p2 → ty = .ds8 → 256 < kw → held →
        (¬ holds p2 → exec (.mwload p) s = .next (s.trap (mkTrap 0x04 (BitVec.ofNat 64 (1 + p2.val * 256)) 0)))
        ∧ (holds p2 → u.slots[p].busy = true ∨ u.slots[p2].busy = true → exec (.mwload p) s = .next (s.block (.slotBusy [p, p2])))
        ∧ (holds p2 → u.slots[p].busy = false → u.slots[p2].busy = false →
          (p.val % 2 = 1 → exec (.mwload p) s = .next (s.trap (mkTrap 0x04 (BitVec.ofNat 64 (3 + p.val * 256)) 0)))
          ∧ (p.val % 2 = 0 → u.slots[p2].type ≠ u.slots[p].type →
              exec (.mwload p) s = .next (s.trap (mkTrap 0x04 (BitVec.ofNat 64 (3 + p2.val * 256)) 0)))
          ∧ (p.val % 2 = 0 → u.slots[p2].type = u.slots[p].type →
            ∃ t l, exec (.mwload p) s = .next t ∧ t.cur.pc = s.cur.advance.pc ∧ (∀ r, t.sreg r = s.sreg r) ∧ t.cur.latch = some l
              ∧ l.slot = p ∧ l.pair = true ∧ l.gen = u.slots[p].gen ∧ l.gen2 = u.slots[p2].gen ∧ l.type = u.slots[p].type ∧ l.kw = kw
              ∧ l.nw = s.cur.msh.toNat / 2 ^ 16 % 2 ^ 16
              ∧ t.curC.mat.array = some ⟨l, u.slots[p].read, some u.slots[p2].read⟩ ∧ t.curC.mat.slots = u.slots)))
       ∧ (nextSlot p = none → ty = .ds8 → 256 < kw → held → u.slots[p].busy = false →
          exec (.mwload p) s = .next (s.trap (mkTrap 0x04 (BitVec.ofNat 64 (3 + p.val * 256)) 0)))
       ∧ ((ty ≠ .ds8 ∨ kw ≤ 256) →
        (¬ held → exec (.mwload p) s = .next (s.trap (mkTrap 0x04 (BitVec.ofNat 64 (1 + p.val * 256)) 0)))
        ∧ (held → u.slots[p].busy = true → exec (.mwload p) s = .next (s.block (.slotBusy [p])))
        ∧ (held → u.slots[p].busy = false →
          ∃ t l, exec (.mwload p) s = .next t ∧ t.cur.pc = s.cur.advance.pc ∧ (∀ r, t.sreg r = s.sreg r) ∧ t.cur.latch = some l
            ∧ l.slot = p ∧ l.pair = false ∧ l.gen = u.slots[p].gen ∧ l.type = u.slots[p].type ∧ l.kw = kw
            ∧ l.nw = s.cur.msh.toNat / 2 ^ 16 % 2 ^ 16 ∧ t.curC.mat.array = some ⟨l, u.slots[p].read, none⟩
            ∧ t.curC.mat.slots = u.slots)))
    ∧ (mine q →
      ∃ t, exec (.mzero q) s = .next t ∧ t.cur.pc = s.cur.advance.pc ∧ (∀ r, t.sreg r = s.sreg r) ∧ t.curC.mat.acown[q] = ctx
        ∧ t.curC.mat.slots = u.slots ∧ t.curC.mat.tiles[q] = { TileSt.zero with startPc := s.cur.pc }
        ∧ ∀ o : Tile, o ≠ q → t.curC.mat.tiles[o].rows = u.tiles[o].rows ∧ t.curC.mat.tiles[o].bound = u.tiles[o].bound
            ∧ (u.tiles[q].aext.hi = true ∨ u.tiles[q].aext.lo = true → u.tiles[q].aext.partner = o → u.tiles[o].aext.partner = q →
                (u.tiles[o].aext.hi = true ∨ u.tiles[o].aext.lo = true) → t.curC.mat.tiles[o].aext.hi = false ∧ t.curC.mat.tiles[o].aext.lo = false))
    ∧ (¬ mine q → exec (.mzero q) s = .next (s.trap (mkTrap 0x0E (BitVec.ofNat 64 q.val) (u.acown[q].zeroExtend 64))))
    ∧ (∀ (s1 : State) (e : LaneEnv) (vd : VReg) (f : BreadField), LaneGo s (some vd) [] none false e s1 → ¬ mine q →
        exec (.mbread vd q f) s = .next (s1.trap (mkTrap 0x0E (BitVec.ofNat 64 q.val) (u.acown[q].zeroExtend 64))))
    ∧ (∀ (s1 : State) (e : LaneEnv) (vd : VReg) (f : BreadField), LaneGo s (some vd) [] none false e s1 → mine q →
        let v := match f with | .bnd => u.tiles[q].bound | .max => u.tiles[q].max | .sum => u.tiles[q].sum | .res => u.tiles[q].rescale
        ∃ t, exec (.mbread vd q f) s = .next t ∧ LaneFrame (s1.modMat (fun m => { m with acown := m.acown.set q ctx })) t (some vd) none none
          ∧ (∀ m : Fin 128, elemGet (t.vreg vd).bits 32 m.val = v[m].toNat)
          ∧ ∀ m, 128 ≤ m → m < 1024 → elemGet (t.vreg vd).bits 32 m = elemGet (s1.vreg vd).bits 32 m)
    ∧ (∀ (ty : FillType) (scl bnd wait : Bool),
        let w := (s.sreg c).toNat
        let pitch := w % 2 ^ 22
        let rows := w / 2 ^ 22 % 2 ^ 8
        let sa := w / 2 ^ 32 % 2 ^ 22
        let blocks := 64 / ty.elem.bits
        let instr : Instr := .mfill p a c ty scl bnd wait
        let place (l n : Nat) : Prop := l + n ≤ 0x380000
        -- what n bytes from l on read as (R76, R341)
        let read (l n : Nat) : Nat := leNat ((List.range n).map (fun i =>
          if inAllocs s.curAllocs (l + i) = true ∧ NatSet.has s.curC.spadPoison ((l + i) / 16) = false then Mem.get s.curC.spad (l + i) else 0))
        let empty (g : Nat) : Prop := inAllocs s.curAllocs (16 * g) = true ∧ s.curC.isFull g = false
        let touched (g : Nat) : Prop := (∃ r i, r < rows ∧ i < 256 ∧ g = (x + r * pitch + i) / 16)
          ∨ (scl = true ∧ ∃ i, i < 4 * rows * blocks ∧ g = (sa + i) / 16) ∨ (bnd = true ∧ g = (x - 8) / 16)
        let fields := w / 2 ^ 30 % 4 = 0 ∧ w / 2 ^ 54 = 0 ∧ pitch % 16 = 0 ∧ 256 ≤ pitch ∧ 0 < rows ∧ rows ≤ 128 ∧ sa % 16 = 0 ∧ (scl = false → sa = 0)
        let held := u.slots[p].claimed = true ∧ u.slots[p].owner = ctx
        (¬ held → exec instr s = .next (s.trap (mkTrap 0x04 (BitVec.ofNat 64 (1 + p.val * 256)) 0)))
        ∧ (held → ¬ fields → exec instr s = .next (s.trap (mkTrap 0x04 (BitVec.ofNat 64 (6 + p.val * 256)) 0)))
        ∧ (held → fields → x % 16 = 0 → (∀ r, r < rows → place (x + r * pitch) 256) → (scl = true → place sa (4 * rows * blocks)) →
          (bnd = true → 8 ≤ x) →
          (u.slots[p].busy = true → exec instr s = .next (s.block (.slotBusy [p])))
          ∧ (u.slots[p].busy = false → (wait = true → ∀ g, touched g → ¬ empty g) →
            ∃ t, exec instr s = .next t ∧ t.cur.pc = s.cur.advance.pc ∧ (∀ r, t.sreg r = s.sreg r) ∧ SameBytes s t
              ∧ t.curC.full = s.curC.full ∧ t.curC.mat.tiles = u.tiles ∧ (∀ i : Slot, i ≠ p → t.curC.mat.slots[i] = u.slots[i])
              ∧ t.curC.mat.slots[p].gen = u.slots[p].gen + 1 ∧ t.curC.mat.slots[p].claimed = true ∧ t.curC.mat.slots[p].busy = false
              ∧ t.curC.mat.slots[p].type = BitVec.ofNat 4 (codeOfElem ty.elem) ∧ t.curC.mat.slots[p].scaled = scl ∧ t.curC.mat.slots[p].bounded = bnd
              ∧ (∀ r : Fin 128, t.curC.mat.slots[p].data[r] = (if r.val < rows then BitVec.ofNat 2048 (read (x + r.val * pitch) 256) else 0))
              ∧ (scl = true → ∀ i, i < rows * blocks → t.curC.mat.slots[p].scale i = read (sa + 4 * i) 4 % 2 ^ 20)
              ∧ t.curC.mat.slots[p].sidecar = (if bnd then BitVec.ofNat 64 (read (x - 8) 8) else u.slots[p].sidecar))
          ∧ (u.slots[p].busy = false → wait = true → (∃ g, touched g ∧ empty g) →
            ∃ t g f, exec instr s = .next t ∧ t.cur.wait = .granule [g] ∧ touched g ∧ empty g ∧ t.cur.pc = s.cur.pc ∧ (∀ r, t.sreg r = s.sreg r)
              ∧ SameBytes s t ∧ t.curC.mat.slots[p].gen = u.slots[p].gen + 1 ∧ t.curC.mat.slots[p].busy = true
              ∧ t.curC.mat.slots[p].data = u.slots[p].data ∧ t.curC.mat.filling = some f ∧ f.tid = s.curTid ∧ f.slot = p)))

/-- R266 to R269: an mmac, over one activation slot or a pair of them: each element of the granted rows and columns takes its old value
(zero under .z, rescaled first under .rs) plus the windowed sum of products, rounded once to f32. In the high half of a pair the old value
is hi + lo, and the pair folds and ends. With .x the value is held in two tiles, which are a pair from then on. Every other element stays;
and the operand faults of R256, R257 and R259. -/
def Obligations.MatrixMultiply : Prop :=
  ∀ (s : State) (p c : Tile) (q : Slot) (ty : ActType) (rs x z : Bool),
    s.curC.mat.pendReissue = none → s.curC.mat.filling = none → s.cur.boundRep = none →
    let u := s.curC.mat
    let ctx := s.cur.ctxOf
    let mine (t : Tile) : Prop := u.acown[t] = 0 ∨ u.acown[t] = ctx
    let holds (i : Slot) : Prop := u.slots[i].claimed = true ∧ u.slots[i].owner = ctx
    let held := holds q
    let rows := s.cur.msh.toNat % 2 ^ 16
    let mmac : Instr := .mmac p q c ty rs x z
    let faults (reason : Nat) (i : Slot) : Prop := exec mmac s = .next (s.trap (mkTrap 0x04 (BitVec.ofNat 64 (reason + i.val * 256)) 0))
    (s.cur.latch = none → held → faults 4 q) ∧ (s.cur.latch = none → ¬ held → faults 1 q)
    ∧ (∀ (l : Latch), s.cur.latch = some l → pairKmax (elemOfCode l.type.toNat) ty.elem = none → held → u.slots[q].busy = false → faults 2 q)
    ∧ (∀ (l : Latch) (km : Nat) (arr : ArraySt),
      let wt := elemOfCode l.type.toNat
      let k := min l.kw km
      let two := 2048 < k * ty.elem.bits
      s.cur.latch = some l → pairKmax wt ty.elem = some km →
      (¬ held → faults 1 q)
      ∧ (∀ q2, two → nextSlot q = some q2 → held → ¬ holds q2 → faults 1 q2)
      ∧ (∀ q2, two → nextSlot q = some q2 → held → holds q2 → u.slots[q].busy = false → u.slots[q2].busy = false →
          (q.val % 2 = 1 → faults 3 q) ∧ (q.val % 2 = 0 → u.slots[q2].type ≠ u.slots[q].type → faults 3 q2))
      ∧ (¬ two → held → u.slots[q].busy = true → exec mmac s = .next (s.block (.slotBusy [q])))
      ∧ (held → u.slots[q].busy = false →
        (two → q.val % 2 = 0 ∧ ∃ q2, nextSlot q = some q2 ∧ holds q2 ∧ u.slots[q2].busy = false ∧ u.slots[q2].type = u.slots[q].type) →
      (u.slots[q].type ≠ BitVec.ofNat 4 (codeOfElem ty.elem) → faults 2 q)
      ∧ (u.slots[q].type = BitVec.ofNat 4 (codeOfElem ty.elem) →
        ((∀ a, u.array = some a → a.latch ≠ l) → latchValid u ctx l = false → faults 4 l.slot) ∧
        (((u.array = some arr ∧ arr.latch = l)
          ∨ ((∀ a, u.array = some a → a.latch ≠ l) ∧ latchValid u ctx l = true ∧ (u.load l).array = some arr)) →
        let live := rows ≠ 0 ∧ l.nw ≠ 0 ∧ k ≠ 0
        let a1 := u.slots[q].read
        let a2 := (match nextSlot q with | some q2 => u.slots[q2] | none => u.slots[q]).read
        let sum (win m n : Nat) : FVal := (windowSum win (ty.elem.isInt && wt.isInt) ((List.range k).map (fun j =>
          (operandAt a1 a2 ty.elem m j, operandAt arr.w (arr.w2.getD arr.w) wt n j)))).1
        let rho (m : Nat) : Word32 := (u.tiles[p].rescale[m]?).getD 0x3F800000#32
        let scaled (m n : Nat) : Prop := rs = true ∧ m < u.tiles[p].aext.mrows.toNat ∧ n < u.tiles[p].aext.ncols.toNat ∧ rho m ≠ 0x3F800000#32
        -- p is the high half of a pair whose low half is o
        let hiOf (o : Tile) : Prop := u.tiles[p].aext.hi = true ∧ u.tiles[p].aext.lo = false ∧ u.tiles[p].aext.partner = o
          ∧ ¬ (u.tiles[o].aext.hi = true ∧ u.tiles[o].aext.partner = p)
        -- an element of p as z and rs leave it where p is no high half
        let old (m n : Nat) : Nat := if z then 0 else if scaled m n then (FVal.mulX (f32Val (u.tiles[p].elem m n)) (f32Val (rho m).toNat)).f32 % 2 ^ 32
          else u.tiles[p].elem m n
        let both (o : Tile) (m n : Nat) : FVal := FVal.addX (f32Val (u.tiles[p].elem m n)) (f32Val (u.tiles[o].elem m n))
        (¬ mine p → exec mmac s = .next (s.trap (mkTrap 0x0E (BitVec.ofNat 64 p.val) (u.acown[p].zeroExtend 64))))
        ∧ (x = true → mine p → ¬ mine c → exec mmac s = .next (s.trap (mkTrap 0x0E (BitVec.ofNat 64 c.val) (u.acown[c].zeroExtend 64))))
        ∧ (x = false → mine p → rows ≤ 128 → l.nw ≤ 128 →
          ∃ t, exec mmac s = .next t ∧ t.cur.pc = s.cur.advance.pc ∧ (∀ r, t.sreg r = s.sreg r) ∧ SameBytes s t
            ∧ t.curC.mat.slots = u.slots ∧ t.curC.mat.acown[p] = ctx
            ∧ (live → t.curC.mat.tiles[p].aext.hi = false ∧ t.curC.mat.tiles[p].aext.lo = false)
            ∧ (u.tiles[p].aext.hi = false ∨ z = true →
              (∀ o : Tile, o ≠ p → t.curC.mat.tiles[o].rows = u.tiles[o].rows)
              ∧ (u.tiles[p].aext.hi = false → u.tiles[p].aext.lo = false → ∀ o : Tile, o ≠ p → t.curC.mat.tiles[o] = u.tiles[o])
              ∧ (∀ m n, m < 128 → n < 128 → t.curC.mat.tiles[p].elem m n =
                  (if live ∧ m < rows ∧ n < l.nw then (FVal.addX (f32Val (old m n)) (sum 47 m n)).f32 % 2 ^ 32 else old m n))
              ∧ (live → t.curC.mat.tiles[p].aext.mrows.toNat = max (if z then 0 else u.tiles[p].aext.mrows.toNat) rows
                  ∧ t.curC.mat.tiles[p].aext.ncols.toNat = max (if z then 0 else u.tiles[p].aext.ncols.toNat) l.nw))
            ∧ (∀ o, o ≠ p → hiOf o → z = false → rs = false → live →
              let R := max (max u.tiles[p].aext.mrows.toNat rows) u.tiles[o].aext.mrows.toNat
              let C := max (max u.tiles[p].aext.ncols.toNat l.nw) u.tiles[o].aext.ncols.toNat
              t.curC.mat.tiles[o].rows = Vector.replicate 128 0
              ∧ ∀ m n, m < 128 → n < 128 → t.curC.mat.tiles[p].elem m n =
                (if m < rows ∧ n < l.nw then (FVal.addX (both o m n) (sum 47 m n)).f32 % 2 ^ 32
                 else if m < R ∧ n < C then (both o m n).f32 % 2 ^ 32 else u.tiles[p].elem m n)))
        ∧ (x = true → p ≠ c → mine p → mine c → live → rows ≤ 128 → l.nw ≤ 128 →
          let start (m n : Nat) : FVal :=
            if z = false ∧ scaled m n ∧ hiOf c then
              let v := splitPair (FVal.mulX (both c m n) (f32Val (rho m).toNat))
              FVal.addX (f32Val (v.1 % 2 ^ 32)) (f32Val (v.2 % 2 ^ 32))
            else FVal.addX (f32Val (old m n)) (f32Val (u.tiles[c].elem m n))
          ∃ t, exec mmac s = .next t ∧ t.cur.pc = s.cur.advance.pc ∧ (∀ r, t.sreg r = s.sreg r) ∧ SameBytes s t
            ∧ t.curC.mat.slots = u.slots ∧ t.curC.mat.tiles[p].aext.hi = true ∧ t.curC.mat.tiles[p].aext.partner = c
            ∧ t.curC.mat.tiles[c].aext.lo = true ∧ t.curC.mat.tiles[c].aext.partner = p
            ∧ (∀ o, o ≠ p → o ≠ c → t.curC.mat.tiles[o].rows = u.tiles[o].rows)
            ∧ ∀ m n, m < 128 → n < 128 →
              (let v := splitPair (FVal.addX (start m n) (sum 95 m n))
               m < rows → n < l.nw → t.curC.mat.tiles[p].elem m n = v.1 % 2 ^ 32 ∧ t.curC.mat.tiles[c].elem m n = v.2 % 2 ^ 32)
              ∧ (¬ (m < rows ∧ n < l.nw) → ¬ (z = false ∧ scaled m n ∧ hiOf c) →
                  t.curC.mat.tiles[p].elem m n = old m n ∧ t.curC.mat.tiles[c].elem m n = u.tiles[c].elem m n))))))

/-- R268 to R274, R284: the online softmax of score rows; normalising rows, of a pair's hi + lo in its high half, which ends the pair
(log 53); drains into a register and into the scratchpad, with their operand faults; and an automatic re-issue. -/
def Obligations.MatrixResults : Prop :=
  (∀ (s : State) (p c : Tile) (q : Slot),
    s.curC.mat.pendReissue = none → s.curC.mat.filling = none → s.cur.boundRep = none →
    let u := s.curC.mat
    let ctx := s.cur.ctxOf
    let mine (t : Tile) : Prop := u.acown[t] = 0 ∨ u.acown[t] = ctx
    (¬ (u.slots[q].claimed = true ∧ u.slots[q].owner = ctx) →
      exec (.msoft p q c) s = .next (s.trap (mkTrap 0x04 (BitVec.ofNat 64 (1 + q.val * 256)) 0)))
    ∧ (u.slots[q].claimed = true → u.slots[q].owner = ctx → u.slots[q].busy = true → exec (.msoft p q c) s = .next (s.block (.slotBusy [q])))
    ∧ (u.slots[q].claimed = true → u.slots[q].owner = ctx → u.slots[q].busy = false → mine p → mine c →
      ∃ t tag, exec (.msoft p q c) s = .next t ∧ t.cur.pc = s.cur.advance.pc ∧ (∀ r, t.sreg r = s.sreg r) ∧ SameBytes s t
        ∧ t.curC.mat.slots[q].type = 8 ∧ t.curC.mat.slots[q].scaled = false ∧ t.curC.mat.slots[q].bounded = false
        ∧ t.curC.mat.slots[q].gen = u.slots[q].gen + 1 ∧ (∀ o : Tile, t.curC.mat.tiles[o].rows = u.tiles[o].rows)
        ∧ ∀ m : Fin 128,
          (let scores := (List.range u.tiles[p].aext.ncols.toNat).map (fun n => u.tiles[p].elem m.val n)
           let r := softRow (tag + 256 * m.val) scores u.tiles[c].max[m].toNat u.tiles[c].sum[m].toNat u.tiles[c].rescale[m].toNat
           (m.val < u.tiles[p].aext.mrows.toNat → t.curC.mat.tiles[c].max[m] = BitVec.ofNat 32 r.max
              ∧ t.curC.mat.tiles[c].sum[m] = BitVec.ofNat 32 r.sum ∧ t.curC.mat.tiles[c].rescale[m] = BitVec.ofNat 32 r.rescale
              ∧ t.curC.mat.slots[q].data[m] = BitVec.ofNat 2048 (r.ps.foldr (fun x acc => x + 2 ^ 16 * acc) 0))
           ∧ (u.tiles[p].aext.mrows.toNat ≤ m.val → t.curC.mat.slots[q].data[m] = 0)))
    ∧ (¬ mine p → exec (.mnorm p) s = .next (s.trap (mkTrap 0x0E (BitVec.ofNat 64 p.val) (u.acown[p].zeroExtend 64))))
    ∧ (mine p →
      let tp := u.tiles[p]
      let hi := tp.aext.hi = true ∧ tp.aext.lo = false ∧ tp.aext.partner ≠ p
      -- an element once the pending rescale has been applied (R269), on hi + lo in the high half of a pair
      let base (m : Fin 128) (n : Nat) : FVal :=
        let v := f32Val (tp.elem m.val n)
        let w := FVal.addX v (f32Val (u.tiles[tp.aext.partner].elem m.val n))
        let r := f32Val tp.rescale[m].toNat
        if hi then
          (if tp.rescale[m] = 0x3F800000#32 then w
           else let h := splitPair (FVal.mulX w r); FVal.addX (f32Val (h.1 % 2 ^ 32)) (f32Val (h.2 % 2 ^ 32)))
        else if tp.rescale[m] = 0x3F800000#32 then v else f32Val ((FVal.mulX v r).f32 % 2 ^ 32)
      (hi ∨ tp.aext.hi = false ∨ tp.aext.lo = true) →
      ∃ t, exec (.mnorm p) s = .next t ∧ t.cur.pc = s.cur.advance.pc ∧ (∀ r, t.sreg r = s.sreg r) ∧ SameBytes s t
        ∧ t.curC.mat.tiles[p].sum = tp.sum ∧ t.curC.mat.tiles[p].max = tp.max ∧ t.curC.mat.tiles[p].aext.hi = false
        ∧ t.curC.mat.tiles[p].aext.lo = false
        ∧ ∀ (m : Fin 128) (n : Nat), n < 128 → t.curC.mat.tiles[p].elem m.val n =
            (if m.val < tp.aext.mrows.toNat ∧ n < tp.aext.ncols.toNat then
              (if tp.sum[m] = 0 then 0 else (divVal .f32 .rne (base m n) (f32Val tp.sum[m].toNat)).bits % 2 ^ 32)
             else tp.elem m.val n)))
  ∧ (∀ (s s1 : State) (e : LaneEnv) (vd : VReg) (q : Tile) (c : SReg) (ty : DrainType) (sat : Bool),
    s.curC.mat.pendReissue = none → s.curC.mat.filling = none → s.cur.boundRep = none → LaneGo s (some vd) [] none false e s1 →
    let u := s.curC.mat
    let ctx := s.cur.ctxOf
    let row0 := (e.sreg c).toNat
    let w := ty.elem.bits
    let both (f : Instr → Prop) : Prop := f (.mdrain vd q c ty sat) ∧ f (.mdrainc vd q c ty sat)
    (row0 < 128 → u.acown[q] = 0 ∨ u.acown[q] = ctx → both (fun i =>
      ∃ t, exec i s = .next t ∧ LaneFrame (s1.modMat (fun m => { m with acown := m.acown.set q ctx })) t (some vd) none none
        ∧ (t.vreg vd).vpx = 4096 ∧ (t.vreg vd).dirty = true
        ∧ ∀ k, k < 32768 / w → elemGet (t.vreg vd).bits w k =
            (if k / 128 < 8 ∧ row0 + k / 128 < 128 then (drainElem e.vtype ty.elem sat (u.value q (row0 + k / 128) (k % 128))).bits % 2 ^ w
             else elemGet (s1.vreg vd).bits w k)))
    ∧ (row0 < 128 → ¬ (u.acown[q] = 0 ∨ u.acown[q] = ctx) → both (fun i =>
      exec i s = .next (s1.trap (mkTrap 0x0E (BitVec.ofNat 64 q.val) (u.acown[q].zeroExtend 64)))))
    ∧ (128 ≤ row0 → both (fun i => exec i s = .next (s1.trap (mkTrap 0x04 (BitVec.ofNat 64 (6 + q.val * 256)) 0)))))
  ∧ (∀ (s s2 : State) (q : Tile) (c : SReg) (ty : DrainType) (sat bnd poison : Bool) (bs : List Byte),
    s.curC.mat.pendReissue = none → s.curC.mat.filling = none → s.cur.boundRep = none →
    let u := s.curC.mat
    let ctx := s.cur.ctxOf
    let i : Instr := .mdrainSpad q c ty sat bnd
    let d := (s.sreg c).toNat
    let field (o n : Nat) : Nat := leNat ((bs.drop o).take n)
    let dst := field 0 4
    let row0 := field 4 2
    let rows := field 6 2
    let pitch := field 8 4
    let w := ty.elem.bits / 8
    let cols := u.tiles[q].aext.ncols.toNat
    let rb := (cols * w + 15) / 16 * 16
    let place (l n : Nat) : Prop := l + n ≤ 0x380000
    let own (g : Nat) : Bool := inAllocs s.curAllocs (16 * g)
    let written (a : Nat) : Prop := (∃ i b, i < rows ∧ b < rb ∧ a = dst + i * pitch + b) ∨ (bnd = true ∧ ∃ b, b < 8 ∧ a = dst - 8 + b)
    let fields := dst < 2 ^ 22 ∧ dst % 16 = 0 ∧ row0 ≤ 127 ∧ 0 < rows ∧ row0 + rows ≤ 128 ∧ pitch % 16 = 0 ∧ rb ≤ pitch ∧ field 12 4 = 0
    (d % 16 ≠ 0 → d + 16 ≤ 0x400000 → exec i s = .next (s.trap (mkTrap 0x03 (s.sreg c) 0))) ∧
    (d % 16 = 0 → place d 16 → s.guardRead d 16 = (s2, bs, poison) →
    (¬ fields → exec i s = .next (s2.trap (mkTrap 0x04 (BitVec.ofNat 64 (6 + q.val * 256)) 0)))
    ∧ (fields → (∀ i, i < rows → place (dst + i * pitch) rb) → (bnd = true → 8 ≤ dst) →
      ((∃ a, written a ∧ own (a / 16) = false) →
        ∃ g, own g = false ∧ (∃ a, written a ∧ a / 16 = g)
          ∧ exec i s = .next (s2.trap (mkTrap 0x04 (BitVec.ofNat 64 (7 + q.val * 256)) (BitVec.ofNat 64 (16 * g)))))
      ∧ ((∀ a, written a → own (a / 16) = true) → ¬ (u.acown[q] = 0 ∨ u.acown[q] = ctx) →
        exec i s = .next (s2.trap (mkTrap 0x0E (BitVec.ofNat 64 q.val) (u.acown[q].zeroExtend 64))))
      ∧ ((∀ a, written a → own (a / 16) = true) → u.acown[q] = 0 ∨ u.acown[q] = ctx →
      let el (i j : Nat) : Nat := (drainElem s.cur.vtype ty.elem sat (u.value q (row0 + i) j)).bits
      ∃ t, exec (.mdrainSpad q c ty sat bnd) s = .next t ∧ t.cur.pc = s.cur.advance.pc ∧ (∀ r, t.sreg r = s.sreg r)
        ∧ t.curC.mat.tiles = u.tiles ∧ t.curC.mat.acown[q] = ctx
        ∧ (∀ i b, i < rows → b < rb → Mem.get t.curC.spad (dst + i * pitch + b) = (if b / w < cols then (leBytes w (el i (b / w))).getD (b % w) 0 else 0))
        ∧ (bnd = true → Mem.num t.curC.spad (dst - 8) 8 = tagBytes (drainRows u q s.cur.vtype ty.elem sat row0 rows cols).2)
        ∧ (∀ a, written a → t.curC.isFull (a / 16) = true)
        ∧ ∀ y, (∀ a, written a → y ≠ .spad s.curCore a) → t.byteAt y = s.byteAt y))))
  ∧ (∀ (s : State) (k : CoreId) (tid : Tid) (p : Tile),
    let u := (s.core k).mat
    (u.pendReissue = none → exec (.autoReissue k) s = .next s)
    ∧ (u.pendReissue = some (tid, p) → canReissue u (s.thr k tid).ctxOf p = true →
      ∃ t, exec (.autoReissue k) s = .next t ∧ (t.core k).mat.pendReissue = none ∧ (t.core k).mat.tiles[p].escalated = true
        ∧ (t.core k).mat.tiles[p].recipe = u.tiles[p].recipe ∧ (t.thr k tid).besc = (s.thr k tid).besc + 1 ∧ SameBytes s t)
    ∧ (u.pendReissue = some (tid, p) → canReissue u (s.thr k tid).ctxOf p = false →
      ∃ t, exec (.autoReissue k) s = .next t ∧ (t.core k).mat = { u with pendReissue := none } ∧ (t.thr k tid).besc = (s.thr k tid).besc ∧ SameBytes s t))

/-- R275, R259, R261: a save writes the image of a tile or slot, of the layout given here, at its translated pieces, and a restore reads it
back; both are privileged, and those of a slot check that the context holds it and wait while it is busy. Poison of a slot's granules goes
with their bytes (R341; log 68). -/
def Obligations.MatrixImages : Prop :=
  (∀ (t : TileSt), t.aext.mrows.toNat ≤ 128 → t.aext.ncols.toNat ≤ 128 →
    let rows := t.aext.mrows.toNat
    let cols := t.aext.ncols.toNat
    let img := tileImage t
    img.length = 64 + rows * (4 * cols + 16) ∧ fieldAt img 0 2 = 1 ∧ fieldAt img 2 2 = rows ∧ fieldAt img 4 2 = cols ∧ fieldAt img 16 8 = t.startPc.toNat
    ∧ (∀ m n, m < rows → n < cols → fieldAt img (64 + 4 * (m * cols + n)) 4 = t.elem m n)
    ∧ ∀ m : Fin 128, m.val < rows → fieldAt img (64 + 4 * (rows * cols + m.val)) 4 = t.bound[m].toNat
        ∧ fieldAt img (64 + 4 * (rows * cols + rows + m.val)) 4 = t.max[m].toNat
        ∧ fieldAt img (64 + 4 * (rows * cols + 2 * rows + m.val)) 4 = t.sum[m].toNat
        ∧ fieldAt img (64 + 4 * (rows * cols + 3 * rows + m.val)) 4 = t.rescale[m].toNat)
  ∧ (∀ (x : SlotSt),
    let img := slotImage x
    img.length = 64 + 32768 + (if x.scaled then 8192 else 0) ∧ fieldAt img 0 2 = 2 ∧ fieldAt img 8 8 = x.word ∧ fieldAt img 16 8 = x.sidecar.toNat
    ∧ (∀ r : Fin 128, fieldAt img (64 + 256 * r.val) 256 = x.data[r].toNat)
    ∧ (x.scaled = true → ∀ i, i < 2048 → fieldAt img (64 + 32768 + 4 * i) 4 = x.scale i))
  ∧ (∀ (s s1 s2 : State) (a : SReg) (q : Tile) (c : Slot) (l l2 : List Tgt) (hd bs : List Byte)
    (b0 b1 : Option (DieId × Fin 16)),
    let va := s.sreg a
    let u := s.curC.mat
    let held := u.slots[c].claimed = true ∧ u.slots[c].owner = s.cur.ctxOf
    let run (s : State) (k : AccKind) (n : Nat) : State × Except (XFail × Word) (List Tgt) := translateRun s (.vector s.curCore) s.curReq k ((n + 63) / 64) va
    (s.cur.priv = .user → ∀ i, i = .msaveTile a q ∨ i = .msaveSlot a c ∨ i = .mrestTile a q ∨ i = .mrestSlot a c →
      exec i s = .next (s.trap (mkTrap 0x02 (wordOf i) 0)))
    ∧ (s.cur.priv ≠ .user → u.pendReissue = none → u.filling = none → s.cur.boundRep = none →
      (¬ held → ∀ i, i = .msaveSlot a c ∨ i = .mrestSlot a c → exec i s = .next (s.trap (mkTrap 0x04 (BitVec.ofNat 64 (1 + c.val * 256)) 0)))
      ∧ (held → u.slots[c].busy = true → exec (.msaveSlot a c) s = .next (s.block (.slotBusy [c])))
      ∧ (∀ i, i = .msaveTile a q ∨ i = .mrestTile a q ∨ (held ∧ u.slots[c].busy = false ∧ (i = .msaveSlot a c ∨ i = .mrestSlot a c)) →
        (canonical va = false → exec i s = .next (s.trap (mkTrap 0x0C va 0)))
        ∧ (canonical va = true → va.toNat % 64 ≠ 0 → exec i s = .next (s.trap (mkTrap 0x03 va 0)))))
    ∧ (s.cur.priv ≠ .user → u.pendReissue = none → u.filling = none → s.cur.boundRep = none → canonical va = true → va.toNat % 64 = 0 →
      (run s .store (tileImage u.tiles[q]).length = (s1, .ok l) → exec (.msaveTile a q) s = .next (writeRun s1 (tileImage u.tiles[q]) l).advance)
      ∧ (held → u.slots[c].busy = false → run s .store (slotImage u.slots[c]).length = (s1, .ok l) →
          exec (.msaveSlot a c) s = .next (poisonImage (writeRun s1 (slotImage u.slots[c]) l) l u.slots[c].poison).advance)
      ∧ (run s .load 64 = (s1, .ok l) → readRun s1 l = (hd, b0) →
        let rows := fieldAt hd 2 2
        let cols := fieldAt hd 4 2
        let okTile := fieldAt hd 0 2 = 1 ∧ rows ≤ 128 ∧ cols ≤ 128 ∧ fieldAt hd 6 2 = 0 ∧ fieldAt hd 24 40 = 0 ∧ fieldAt hd 8 8 < 2 ^ 20
          ∧ fieldAt hd 8 8 % 256 = rows ∧ fieldAt hd 8 8 / 256 % 256 = cols
        let word := fieldAt hd 8 8
        let okSlot := fieldAt hd 0 2 = 2 ∧ fieldAt hd 2 6 = 0 ∧ fieldAt hd 24 40 = 0 ∧ word < 2 ^ 55
        (¬ okTile → exec (.mrestTile a q) s = .next (s1.trap (mkTrap 0x04 (BitVec.ofNat 64 (5 + q.val * 256)) 0)))
        ∧ (held → okSlot → u.slots[c].busy = true → exec (.mrestSlot a c) s = .next (s1.block (.slotBusy [c])))
        ∧ (held → ¬ okSlot → exec (.mrestSlot a c) s = .next (s1.trap (mkTrap 0x04 (BitVec.ofNat 64 (5 + c.val * 256)) 0)))
        ∧ (okTile → run s1 .load (64 + rows * (4 * cols + 16)) = (s2, .ok l2) → readRun s2 l2 = (bs, b1) → fieldAt bs 2 2 = rows → fieldAt bs 4 2 = cols →
          ∃ t, exec (.mrestTile a q) s = .next t ∧ t.cur.pc = s2.cur.advance.pc ∧ (∀ r, t.sreg r = s2.sreg r) ∧ SameBytes s2 t
            ∧ t.curC.mat.slots = u.slots ∧ t.curC.mat.tiles[q].lost = true ∧ t.curC.mat.tiles[q].startPc = BitVec.ofNat 64 (fieldAt bs 16 8)
            ∧ t.curC.mat.tiles[q].aext = ⟨BitVec.ofNat 8 rows, BitVec.ofNat 8 cols, false, false, 0⟩
            ∧ (∀ m n, m < 128 → n < 128 → t.curC.mat.tiles[q].elem m n =
                (if m < rows ∧ n < cols then fieldAt bs (64 + 4 * (m * cols + n)) 4 else 0))
            ∧ ∀ m : Fin 128, t.curC.mat.tiles[q].bound[m] = (if m.val < rows then BitVec.ofNat 32 (fieldAt bs (64 + 4 * (rows * cols + m.val)) 4) else 0))
        ∧ (held → okSlot → u.slots[c].busy = false → run s1 .load (64 + 32768 + (if word.testBit 53 then 8192 else 0)) = (s2, .ok l2) →
          readRun s2 l2 = (bs, b1) →
          ∃ t, exec (.mrestSlot a c) s = .next t ∧ t.cur.pc = s2.cur.advance.pc ∧ (∀ r, t.sreg r = s2.sreg r) ∧ SameBytes s2 t
            ∧ t.curC.mat.tiles = u.tiles ∧ (∀ i : Slot, i ≠ c → t.curC.mat.slots[i] = u.slots[i])
            ∧ t.curC.mat.slots[c].claimed = word.testBit 0 ∧ t.curC.mat.slots[c].owner = BitVec.ofNat 16 (word / 2)
            ∧ t.curC.mat.slots[c].gen = BitVec.ofNat 32 (word / 2 ^ 17) ∧ t.curC.mat.slots[c].type = BitVec.ofNat 4 (word / 2 ^ 49)
            ∧ t.curC.mat.slots[c].sidecar = BitVec.ofNat 64 (fieldAt bs 16 8)
            ∧ ∀ r : Fin 128, t.curC.mat.slots[c].data[r] = BitVec.ofNat 2048 (fieldAt bs (64 + 256 * r.val) 256)))))

/-! ## Copies, arrival barriers and engines (spec 07) -/

/-- R137, R141, R151: cpa reads its block and cpa.res its entry; either waits for room, makes its checks in their order, and queues the
copy, whose source bytes are read ahead as they stand at issue; a fill of a free slot begins. cpq empties the copy unit and the bindings
into a save area. A strip of a copy between places of one scratchpad lands, ending on a granule or with the copy, so that each granule
lands whole from one copy (R134, R135, R132, R138); a copy that a beacon found skewed faults instead (R63). -/
def Obligations.CopyUnit : Prop :=
  (∀ (s s0 s1 : State) (a b c : SReg) (fl : CmdFlags) (bs : List Byte) (hit : Bool),
    let addr := (s.sreg a).toNat
    let issues (i : Instr) (blk : BitVec 512) (ctr bar : Option Word) (fl : CmdFlags) (next landed : Nat) (parts : List Word) : Prop :=
      let ring := namesRing s0 bar
      (blkReserved blk = true → exec i s = .next (s0.trap (mkTrap 0x0B (s.sreg a) 1)))
      ∧ (blkReserved blk = false → (∀ tr, blkRangeTrap blk (!ring) = some tr → exec i s = .next (s0.trap tr))
        ∧ (blkRangeTrap blk (!ring) = none →
          (∀ r v, ring = false → copyDstFault s0 blk s0.cur.ctxOf = some (r, v) → exec i s = .next (s0.trap (mkTrap 0x0B v (BitVec.ofNat 64 r))))
          ∧ ((ring = false → copyDstFault s0 blk s0.cur.ctxOf = none) →
            (∀ va, ctr = some va → canonical va = false → exec i s = .next (s0.trap (mkTrap 0x0C va 0)))
            ∧ (∀ va, ctr = some va → canonical va = true → va.toNat % 8 ≠ 0 → exec i s = .next (s0.trap (mkTrap 0x03 va 0)))
            ∧ (∀ va f, ctr = some va → canonical va = true → va.toNat % 8 = 0 →
                translate s0 (.scalar s0.curCore) s0.curReq .store va true = (s1, .error f) → exec i s = scalarFail s1 .store va f)
            ∧ ((ctr = none → s1 = s0) →
              (∀ va, ctr = some va → canonical va = true ∧ va.toNat % 8 = 0
                ∧ ∃ t lf, translate s0 (.scalar s0.curCore) s0.curReq .store va true = (s1, .ok (t, lf))) →
              (∀ x tr, bar = some x → copyBarTrap s1 blk x = some tr → exec i s = .next (s1.trap tr))
              ∧ ((∀ x, bar = some x → copyBarTrap s1 blk x = none) → ∀ (s2 : State) (x : CopyCmd),
                enterCopy { s1 with nextId := s1.nextId + 1 } s1.curCore
                  { id := s1.nextId, block := blk, fl := fl, counter := ctr, barrier := bar.map BitVec.toNat, part := s1.curPart, asn := s0.cur.asnOf,
                    priv := s0.cur.priv, ctx := s0.cur.ctxOf, tid := s1.curTid, launch := s0.cur.launchOf, next := next, landed := landed, parts := parts,
                    ring := ring, ringAt := none, pages := [], crit := s0.cur.cbit, ahead := [], side := none, claim := none, skew := none } = (s2, x) →
                let p := blkSlot blk
                ∃ t y, exec i s = .next t ∧ t.cur.pc = s2.cur.advance.pc ∧ (∀ r, t.sreg r = s2.sreg r) ∧ SameBytes s2 t
                  ∧ t.curC.copies = s2.curC.copies ++ [y] ∧ y.block = blk ∧ y.next = next ∧ y.landed = landed ∧ y.ahead = x.ahead
                  ∧ (blkDspace blk ≠ 3 → y = x ∧ t.curC.mat = s2.curC.mat)
                  ∧ (blkDspace blk = 3 → s2.curC.mat.slotFree p = true → y.claim = some s2.curC.mat.slots[p].claim
                    ∧ t.curC.mat.slots[p].fills = s2.curC.mat.slots[p].fills + 1
                    ∧ (landed = 0 → t.curC.mat.slots[p].gen = s2.curC.mat.slots[p].gen + 1))
                  ∧ (blkSspace blk = 1 → blkBounded blk = false → SameBytes s1 t
                    ∧ ∀ m, m < blkCount blk - next → blkInb blk (next + m) = true → ∃ z, y.ahead[m]? = some z
                      ∧ z.1 = Mem.bytes s1.curC.spad (blkAddr blk (next + m)).toNat (blkEs blk)))))))
    takeCopyFault s = none →
    (16 ≤ s.curC.copies.length → exec (.cpa a b c fl) s = .next (s.block .copyQueue) ∧ exec (.cpaRes a fl) s = .next (s.block .copyQueue))
    ∧ (s.curC.copies.length < 16 →
      (addr % 64 ≠ 0 → exec (.cpa a b c fl) s = .next (s.trap (mkTrap 0x03 (s.sreg a) 0)) ∧ exec (.cpaRes a fl) s = .next (s.trap (mkTrap 0x03 (s.sreg a) 0)))
      ∧ (addr % 64 = 0 → 0x400000 < addr + 64 → exec (.cpa a b c fl) s = .next (s.trap (mkTrap 0x06 (s.sreg a) 0)))
      ∧ (addr % 64 = 0 → 0x400000 < addr + 128 → exec (.cpaRes a fl) s = .next (s.trap (mkTrap 0x06 (s.sreg a) 0)))
      ∧ (addr % 64 = 0 → 0x380000 < addr + 64 → addr + 64 ≤ 0x400000 → exec (.cpa a b c fl) s = .next (s.trap (mkTrap 0x04 (s.sreg a) 0)))
      ∧ (addr % 64 = 0 → 0x380000 < addr + 128 → addr + 128 ≤ 0x400000 → exec (.cpaRes a fl) s = .next (s.trap (mkTrap 0x04 (s.sreg a) 0)))
      ∧ (addr % 64 = 0 → addr + 64 ≤ 0x380000 → s.guardRead addr 64 = (s0, bs, hit) →
        issues (.cpa a b c fl) (BitVec.ofNat 512 (leNat bs)) (if b = 0 then none else some (s.sreg b)) (if c = 0 then none else some (s.sreg c)) fl 0 0 [])
      ∧ (addr % 64 = 0 → addr + 128 ≤ 0x380000 → s.guardRead addr 128 = (s0, bs, hit) →
         let blk := BitVec.ofNat 512 (leNat (bs.take 64))
         let f (o n : Nat) : Nat := fieldAt (bs.drop 64) o n
         let code := f 36 1
         let fine := (∀ d, d < 4 → f (4 * d) 4 < blkX blk d) ∧ code % 2 = 0 ∧ code < 64 ∧ code / 2 % 8 ≤ 5 ∧ f 37 1 = 0 ∧ f 38 1 = 0 ∧ f 39 1 ≤ 1
         let next := f 0 4 + blkX blk 0 * (f 4 4 + blkX blk 1 * (f 8 4 + blkX blk 2 * f 12 4))
         (¬ fine → exec (.cpaRes a fl) s = .next (s0.trap (mkTrap 0x0B (s.sreg a) 1)))
         ∧ (fine → issues (.cpaRes a fl) blk (if f 24 8 = 0 then none else some (BitVec.ofNat 64 (f 24 8)))
            (if f 32 4 = 0 then none else some (BitVec.ofNat 64 (f 32 4)))
            ⟨decide (code / 32 % 2 = 1), decide (code / 16 % 2 = 1), scopeOfCode (code / 2 % 8)⟩ next (f 16 8)
            (if (blkFold blk = 3 ∨ blkFold blk = 4) ∧ next ≠ 0 then [BitVec.ofNat 64 (f 40 8)] else [])))))
  ∧ (∀ (s : State) (a c : SReg),
    let addr := (s.sreg a).toNat
    let n := s.curC.copies.length + (List.finRange 8).countP (fun r => (s.curC.vec.binds[r]).isSome)
    let drawn := { s with fresh := s.fresh + 1 }
    (s.cur.priv = .user → exec (.cpq a c) s = .next (s.trap (mkTrap 0x02 (wordOf (.cpq a c)) 0)))
    ∧ (s.cur.priv ≠ .user → addr % 64 ≠ 0 → exec (.cpq a c) s = .next (drawn.trap (mkTrap 0x03 (s.sreg a) 0)))
    ∧ (s.cur.priv ≠ .user → addr % 64 = 0 → 0x400000 < addr + 64 + 128 * n → exec (.cpq a c) s = .next (drawn.trap (mkTrap 0x06 (s.sreg a) 0)))
    ∧ (s.cur.priv ≠ .user → addr % 64 = 0 → 0x380000 < addr + 64 + 128 * n → addr + 64 + 128 * n ≤ 0x400000 →
        exec (.cpq a c) s = .next (drawn.trap (mkTrap 0x04 (s.sreg a) 0)))
    ∧ (s.cur.priv ≠ .user → addr % 64 = 0 → addr + 64 + 128 * n ≤ 0x380000 →
      let mine (i : Nat) : Prop := inAllocs s.curAllocs (addr + i) = true
      ∃ t, exec (.cpq a c) s = .next t ∧ t.cur.pc = s.cur.advance.pc ∧ t.sreg c = (if c = 0 then 0 else BitVec.ofNat 64 n)
        ∧ (∀ r, r ≠ c → t.sreg r = s.sreg r) ∧ t.curC.copies = [] ∧ (∀ r : Fin 8, t.curC.vec.binds[r] = none)
        ∧ (∀ p, (∀ i, i < 64 + 128 * n → mine i → p ≠ .spad s.curCore (addr + i)) → t.byteAt p = s.byteAt p)
        ∧ ((∀ i, i < 64 + 128 * n → mine i) →
          Mem.num t.curC.spad addr 4 = n % 2 ^ 32 ∧ Mem.num t.curC.spad (addr + 8) 8 = s.coreTime s.curCore % 2 ^ 64
          ∧ (∀ i x, s.curC.copies[i]? = some x →
              let e := addr + 64 + 128 * i
              Mem.num t.curC.spad e 64 = x.block.toNat ∧ Mem.num t.curC.spad (e + 80) 8 = x.landed % 2 ^ 64
              ∧ Mem.num t.curC.spad (e + 88) 8 = (match x.counter with | some v => v.toNat | none => 0)
              ∧ Mem.num t.curC.spad (e + 96) 4 = x.barrier.getD 0 % 2 ^ 32))))
  ∧ (∀ (s : State) (k : CoreId) (j : Fin 4) (x : CopyCmd),
    (s.core k).copies[j.val]? = some x → copyMayLand ((s.core k).copies.take j.val) x = true →
    (∀ d, x.skew = some d → ∃ t, exec (.copyStripLands k j) s = .next t ∧ SameBytes s t ∧ (∀ y ∈ (t.core k).copies, y.id ≠ x.id)
      ∧ ∀ i th, (s.thr i th).isCtx x.part x.ctx = true → (t.thr i th).skewFault = some d)
    ∧ (let b := x.block
      let es := blkEs b
      let total := blkCount b * es
      let dst := blkBits b 8 0 22
      let m := (s.core k).spad
      let lo := if x.next * es ≤ x.landed ∧ x.landed < x.next * es + es then x.landed else x.next * es
      let hi := if total ≤ lo + 256 then total else (dst % 16 + lo + 256) / 16 * 16 - dst % 16
      let hole (o : Nat) : Prop := blkInb b (o / es) = false ∧ blkOob b = 0
      let from_ (o : Nat) : Byte := match x.ahead[o / es - x.next]? with
        | some z => z.1.getD (o % es) 0
        | none => if blkInb b (o / es) = true then Mem.get m ((blkAddr b (o / es)).toNat + o % es)
                  else (leBytes es (padBits (blkOob b) (blkEtype b))).getD (o % es) 0
      x.skew = none → x.ring = false → x.counter = none → x.next < blkCount b → blkDspace b = 1 → blkSspace b = 1 → blkFold b = 0 →
      blkBounded b = false → blkEtype b ≠ .e2m1 → (∀ z ∈ x.ahead, z.1.length = es ∧ z.2 = none) →
      (∀ n i, n < blkCount b → blkInb b n = true → i < es → NatSet.has (s.core k).spadPoison (((blkAddr b n).toNat + i) / 16) = false) →
      (∀ bar, x.barrier = some bar → bar + 8 ≤ dst ∨ dst + total ≤ bar) →
      ∃ t, exec (.copyStripLands k j) s = .next t
        ∧ (∀ o, lo ≤ o → o < hi → ¬ hole o → Mem.get (t.core k).spad (dst + o) = from_ o ∧ (t.core k).isFull ((dst + o) / 16) = true)
        ∧ (∀ o, lo ≤ o → o < hi → hole o → Mem.get (t.core k).spad (dst + o) = Mem.get m (dst + o))
        ∧ (∀ bar, x.barrier = some bar → Mem.num (t.core k).spad bar 8 = (Mem.num m bar 8 + (hi - lo)) % 2 ^ 64)
        ∧ (∀ p, (∀ o, lo ≤ o → o < hi → p ≠ .spad k (dst + o)) → (∀ bar i, x.barrier = some bar → i < 8 → p ≠ .spad k (bar + i)) →
            t.byteAt p = s.byteAt p)
        ∧ (hi = total → ∀ y, y ∈ (t.core k).copies → y.id ≠ x.id)
        ∧ (hi ≠ total → ∃ y, y ∈ (t.core k).copies ∧ y.id = x.id ∧ y.next = hi / es ∧ y.landed = x.landed + (hi - lo) ∧ y.block = b)))

/-- R123 to R127: an engine's events. Engine k runs segment g as far as r says; the command at r is read, giving s1 and c (fields by offset);
each event of the chain has the effect of its command, and none where the chain is held. R124, R126 to R128: a strip of a STREAM into the issuing core's scratchpad lands, or stops at a fault with what had landed; the end of a
segment stores its count; and a command fault writes its record, counts the segment, and is reported to the issuing context. -/
def Obligations.EngineInstructions : Prop :=
  ((∀ (s s1 : State) (k : EngineId) (g : Segment) (rest : List Segment) (bs : List Byte) (bad : Bool) (used : List UsedPage),
    s.engines[k].running = none → s.engines[k].chain = g :: rest → s.engines[k].faulted = false → g.addr.toNat % 64 = 0 →
    engRead s k g [] 2 g.addr 64 = (s1, .ok (bs, bad, used)) →
    let fine := fieldAt bs 0 8 % 8 = 0 ∧ fieldAt bs 8 8 % 64 = 0 ∧ fieldAt bs 16 48 = 0
    ∃ t r, exec (.segmentStart k) s = .next t ∧ t.engines[k].running = some r ∧ t.engines[k].chain = g :: rest ∧ SameBytes s1 t
      ∧ r.cmdAddr = g.addr + 64 ∧ r.rep = none ∧ r.flight = [] ∧ r.waiting = false ∧ r.stopped = false
      ∧ (fine → r.fault = none ∧ r.counter.toNat = fieldAt bs 0 8 ∧ r.frec.toNat = fieldAt bs 8 8)
      ∧ (¬ fine → r.fault = some (g.addr, 1, 0, g.addr, 0)))
  ∧ (∀ (s s1 : State) (k : EngineId) (g : Segment) (rest : List Segment) (r : SegRun) (bs : List Byte) (bad : Bool) (used : List UsedPage),
    s.engines[k].running = some r → s.engines[k].chain = g :: rest → r.fault = none → r.waiting = false → r.stopped = false →
    engRead s k g [] 2 r.cmdAddr 64 = (s1, .ok (bs, bad, used)) →
    let c := leNat bs
    let op := c % 256
    let field (o n : Nat) : Nat := c / 2 ^ (8 * o) % 2 ^ (8 * n)
    let goes (i : Instr) (f : SegRun → Prop) : Prop :=
      ∃ t r', exec i s = .next t ∧ t.engines[k].running = some r' ∧ f r' ∧ t.engines[k].chain = g :: rest ∧ t.engines[k].done = s1.engines[k].done
    let fails (i : Instr) : Prop := goes i (fun r' => r'.fault = some (r.cmdAddr, 1, 0, r.cmdAddr, 0) ∧ r'.flight = r.flight)
    let next (r' : SegRun) : Prop := (r.rep = none → r'.cmdAddr = r.cmdAddr + 64 ∧ r'.rep = none)
      ∧ (∀ p, r.rep = some p → (p.idx + 1 < p.len → r'.cmdAddr = r.cmdAddr + 64 ∧ r'.rep = some { p with idx := p.idx + 1 })
          ∧ (p.len ≤ p.idx + 1 → p.pass + 1 < p.n → r'.cmdAddr = p.start ∧ r'.rep = some { p with idx := 0, pass := p.pass + 1 })
          ∧ (p.len ≤ p.idx + 1 → p.n ≤ p.pass + 1 → r'.cmdAddr = r.cmdAddr + 64 ∧ r'.rep = none))
    let pass := match r.rep with | some p => p.pass | none => 0
    let sadv : Word := match r.rep with | some p => p.sadv | none => 0
    let dadv : Word32 := match r.rep with | some p => p.dadv | none => 0
    let src : Word := BitVec.ofNat 64 (field 8 8) + BitVec.ofNat 64 pass * sadv
    let dst : Int := (field 4 4 : Int) + (pass : Int) * dadv.toInt
    let started (i : Instr) : Prop := ∃ t r' x, exec i s = .next t ∧ t.engines[k].running = some r' ∧ next r' ∧ r'.fault = none
      ∧ r'.flight = r.flight ++ [x] ∧ SameBytes s1 t ∧ x.addr = r.cmdAddr ∧ x.cmd.toNat = c % 2 ^ 512 ∧ x.src = src ∧ x.dst = dst ∧ x.landed = 0
      ∧ (field 2 1 ≠ 2 → x.claim = none ∧ (t.core g.core).mat = (s1.core g.core).mat)
      ∧ (field 2 1 = 2 → (s1.core g.core).mat.slotFree (slotOf dst) = true → x.claim = some (s1.core g.core).mat.slots[slotOf dst].claim
        ∧ (t.core g.core).mat.slots[slotOf dst].fills = (s1.core g.core).mat.slots[slotOf dst].fills + 1
        ∧ (t.core g.core).mat.slots[slotOf dst].gen = (s1.core g.core).mat.slots[slotOf dst].gen + 1)
    (op = 1 → streamFault s1 g r c false = none → started (.cmdStream k)) ∧ (op = 2 → streamFault s1 g r c true = none → started (.cmdFold k))
    ∧ (∀ f, op = 1 → streamFault s1 g r c false = some f → goes (.cmdStream k) (fun r' => r'.fault = some (r.cmdAddr, f.1, f.2.1, f.2.2, 0)))
    ∧ (∀ f, op = 2 → streamFault s1 g r c true = some f → goes (.cmdFold k) (fun r' => r'.fault = some (r.cmdAddr, f.1, f.2.1, f.2.2, 0)))
    ∧ (op = 1 → streamBad c false src dst = true → fails (.cmdStream k)) ∧ (op = 2 → streamBad c true src dst = true → fails (.cmdFold k))
    ∧ (op = 3 → syncBad c 0xE1 = true → fails (.cmdSignal k)) ∧ (op = 4 → syncBad c 0xE2 = true → fails (.cmdWait k))
    ∧ (op = 3 → syncBad c 0xE1 = false → r.flight ≠ [] → exec (.cmdSignal k) s = .next s1)
    ∧ (op = 4 → syncBad c 0xE2 = false → r.flight ≠ [] → exec (.cmdWait k) s = .next s1)
    ∧ (∀ s2 tg us, op = 3 → syncBad c 0xE1 = false → r.flight = [] →
        xferAccess s1 (.engine k) g.req .atomic true [] (BitVec.ofNat 64 (field 8 8)) = (s2, .ok (tg, us)) →
        ∃ t r', exec (.cmdSignal k) s = .next t ∧ t.engines[k].running = some r' ∧ next r' ∧ r'.fault = none
          ∧ leNat (tgtRead t tg 8).1 = (leNat (tgtRead s2 tg 8).1 + field 16 8) % 2 ^ 64 ∧ ∀ p, ¬ tg.covers 8 p → t.byteAt p = s2.byteAt p)
    ∧ (∀ s2 a b, op = 3 → syncBad c 0xE1 = false → r.flight = [] →
        xferAccess s1 (.engine k) g.req .atomic true [] (BitVec.ofNat 64 (field 8 8)) = (s2, .error (.fault a b)) →
        ∃ t r', exec (.cmdSignal k) s = .next t ∧ t.engines[k].running = some r' ∧ SameBytes s2 t
          ∧ r'.fault = some (r.cmdAddr, a, b, BitVec.ofNat 64 (field 8 8), 0))
    ∧ (∀ s2 tg us, op = 4 → syncBad c 0xE2 = false → r.flight = [] →
        xferAccess s1 (.engine k) g.req .load true [] (BitVec.ofNat 64 (field 8 8)) = (s2, .ok (tg, us)) →
        (field 16 8 ≤ leNat (tgtRead s2 tg 8).1 → goes (.cmdWait k) (fun r' => next r' ∧ r'.waiting = false))
        ∧ (leNat (tgtRead s2 tg 8).1 < field 16 8 → goes (.cmdWait k) (fun r' => r'.waiting = true ∧ r'.cmdAddr = r.cmdAddr)))
    ∧ (op = 5 → (r.rep ≠ none ∨ field 1 1 = 0 ∨ 16 < field 1 1 ∨ field 4 4 = 0 ∨ field 2 2 ≠ 0 ∨ field 20 44 ≠ 0) → fails (.cmdRepeat k))
    ∧ (op = 5 → r.rep = none → 0 < field 1 1 → field 1 1 ≤ 16 → field 4 4 ≠ 0 → field 2 2 = 0 → field 20 44 = 0 →
        goes (.cmdRepeat k) (fun r' => r'.cmdAddr = r.cmdAddr + 64 ∧ r'.rep = some ⟨r.cmdAddr + 64, field 1 1, 0, 0, field 4 4, BitVec.ofNat 64 (field 8 8),
          BitVec.ofNat 32 (field 16 4)⟩))
    ∧ (op = 6 → (r.rep ≠ none ∨ field 1 7 ≠ 0 ∨ field 16 48 ≠ 0 ∨ field 8 8 % 64 ≠ 0) → fails (.cmdLink k))
    ∧ (op = 6 → r.rep = none → field 1 7 = 0 → field 16 48 = 0 → field 8 8 % 64 = 0 →
        goes (.cmdLink k) (fun r' => r'.cmdAddr = BitVec.ofNat 64 (field 8 8) ∧ r'.fault = none))
    ∧ (op = 7 → (r.rep ≠ none ∨ field 1 63 ≠ 0) → fails (.cmdStop k))
    ∧ (op = 7 → r.rep = none → field 1 63 = 0 → goes (.cmdStop k) (fun r' => r'.stopped = true ∧ r'.flight = r.flight))
    ∧ (op = 0 ∨ 7 < op → fails (.commandFault k)))
  ∧ (∀ (s s1 s2 : State) (k : EngineId) (g : Segment) (rest : List Segment) (r : SegRun) (bs : List Byte) (bad : Bool) (used us : List UsedPage) (tg : Tgt),
    s.engines[k].running = some r → s.engines[k].chain = g :: rest → r.fault = none → r.waiting = true →
    engRead s k g [] 2 r.cmdAddr 64 = (s1, .ok (bs, bad, used)) →
    xferAccess s1 (.engine k) g.req .load true [] (BitVec.ofNat 64 (fieldAt bs 8 8)) = (s2, .ok (tg, us)) → bs.length = 64 →
    ∃ t r', exec (.engineWaitSatisfied k) s = .next t ∧ t.engines[k].running = some r' ∧ SameBytes s2 t
      ∧ (fieldAt bs 16 8 ≤ leNat (tgtRead s2 tg 8).1 → r'.waiting = false ∧ (r.rep = none → r'.cmdAddr = r.cmdAddr + 64))
      ∧ (leNat (tgtRead s2 tg 8).1 < fieldAt bs 16 8 → r'.waiting = true ∧ r'.cmdAddr = r.cmdAddr)))
  ∧ ((∀ (s s1 : State) (k : EngineId) (g : Segment) (rest : List Segment) (r : SegRun) (j : Nat) (x : EngCmd) (l : Runs) (used : List UsedPage),
    let c := x.cmd.toNat
    let left := cmdTotal c - x.landed
    let a : Int := x.dst + (x.landed : Int)
    let n := if left ≤ 256 then left else ((a % 16).toNat + 256) / 16 * 16 - (a % 16).toNat
    let targets := cmdTargets g c
    let at_ (o : Nat) : Nat := (x.dst + (o : Int)).toNat
    s.engines[k].running = some r → s.engines[k].chain = g :: rest → r.flight[j]? = some x → r.skew = none →
    (∀ d, x.skew = some d → ∃ t r', exec (.engineStripLands k j) s = .next t ∧ SameBytes s t ∧ t.engines[k].running = some r' ∧ r'.skew = some d
      ∧ r'.fault.isSome = true ∧ r'.flight = r.flight.take j)
    ∧ (x.skew = none → cmdOp c = 1 → cmdKind c < 2 → cmdBounded c = false → cmdHasBar c = false → x.ringAt = none → x.landed < cmdTotal c →
      (∀ e, boxRuns s k g x x.pages x.landed n = (s1, .error e) →
        ∃ t r', exec (.engineStripLands k j) s = .next t ∧ t.engines[k].running = some r'
          ∧ r'.fault = some (x.addr, (engFaultOf e).1, (engFaultOf e).2.1, (engFaultOf e).2.2, x.landed)
          ∧ r'.flight = r.flight.take j ∧ SameBytes s1 t)
      ∧ (boxRuns s k g x x.pages x.landed n = (s1, .ok (l, used)) →
        (targets ≠ [] → a < 0 ∨ 0x380000 < a + (n : Int) → ∃ t r', exec (.engineStripLands k j) s = .next t ∧ t.engines[k].running = some r'
          ∧ r'.fault = some (x.addr, 5, 0, BitVec.ofInt 64 a, x.landed) ∧ r'.flight = r.flight.take j ∧ SameBytes s1 t)
        ∧ (∀ y f, targets.head? = some y → 0 ≤ a → a + (n : Int) ≤ 0x380000 → firstGuard ((s1.core y).allocsOf g.part g.launch) a.toNat n = some f →
          ∃ t r', exec (.engineStripLands k j) s = .next t ∧ t.engines[k].running = some r'
            ∧ r'.fault = some (x.addr, 4, 0, BitVec.ofNat 64 f, x.landed) ∧ r'.flight = r.flight.take j ∧ SameBytes s1 t)
        ∧ (0 ≤ x.dst → a + (n : Int) ≤ 0x380000 →
          (∀ y ∈ targets, rangeInAllocs ((s1.core y).allocsOf g.part g.launch) a.toNat n = true) →
          ∃ t r', exec (.engineStripLands k j) s = .next t ∧ t.engines[k].running = some r' ∧ r'.fault = r.fault
            ∧ (∀ y ∈ targets, ∀ q ∈ l, ∀ i, i < q.2.1.length → Mem.get (t.core y).spad (at_ (q.1 + i)) = q.2.1.getD i 0
                ∧ (t.core y).isFull (at_ (q.1 + i) / 16) = true
                ∧ (q.2.2 = true → NatSet.has (t.core y).spadPoison (at_ (q.1 + i) / 16) = true))
            ∧ (∀ p, (∀ y ∈ targets, ∀ i, i < n → p ≠ .spad y (at_ (x.landed + i))) → t.byteAt p = s1.byteAt p)
            ∧ r'.flight = (if x.landed + n = cmdTotal c then r.flight.eraseIdx j else r.flight.set j { x with landed := x.landed + n, pages := used })))))
  ∧ (∀ (s s1 : State) (k : EngineId) (g : Segment) (rest : List Segment) (r : SegRun) (tg : Tgt) (us : List UsedPage),
    s.engines[k].running = some r → s.engines[k].chain = g :: rest → r.flight = [] →
    (r.fault = none → r.stopped = true → r.counter ≠ 0 → xferAccess s (.engine k) g.req .store true [] r.counter = (s1, .ok (tg, us)) →
      ∃ t, exec (.segmentEnd k) s = .next t ∧ leNat (tgtRead t tg 8).1 = (s.engines[k].done + 1).toNat ∧ t.engines[k].done = s.engines[k].done + 1
        ∧ t.engines[k].running = none ∧ t.engines[k].chain = rest ∧ ∀ p, ¬ tg.covers 8 p → t.byteAt p = s1.byteAt p)
    ∧ (r.fault = none → r.stopped = true → r.counter = 0 → ∃ t, exec (.segmentEnd k) s = .next t ∧ t.engines[k].done = s.engines[k].done + 1
        ∧ t.engines[k].running = none ∧ t.engines[k].chain = rest ∧ SameBytes s t)
    ∧ (r.stopped = false → exec (.segmentEnd k) s = .next s)
    ∧ (∀ cmd rs pr va landed, r.fault = some (cmd, rs, pr, va, landed) →
      let reports (t : State) (tval : Word) : Prop := ∀ i th, (s.thr i th).isCtx g.part g.ctx = true →
        (t.thr i th).copyFaults = (s.thr i th).copyFaults ++ [⟨tval, rs, none⟩]
      let after (t : State) : Prop := t.engines[k].done = s.engines[k].done + 1 ∧ t.engines[k].faulted = true ∧ t.engines[k].running = none
        ∧ t.engines[k].chain = g :: rest
      let drawn := { s with fresh := s.fresh + 1 }
      (∀ d, r.skew = some d → r.counter = 0 → r.frec = 0 → ∃ t, exec (.commandFault k) s = .next t ∧ after t ∧ SameBytes s t
        ∧ ∀ i th, (s.thr i th).isCtx g.part g.ctx = true → (t.thr i th).skewFault = some d ∧ (t.thr i th).copyFaults = (s.thr i th).copyFaults)
      ∧ (r.skew = none →
        (r.counter = 0 → r.frec = 0 → ∃ t, exec (.commandFault k) s = .next t ∧ after t ∧ reports t cmd ∧ SameBytes s t)
        ∧ (r.counter ≠ 0 → r.frec = 0 → xferAccess drawn (.engine k) g.req .store true [] r.counter = (s1, .ok (tg, us)) →
          ∃ t, exec (.commandFault k) s = .next t ∧ after t ∧ reports t cmd
            ∧ leNat (tgtRead t tg 8).1 = (0x8000000000000000#64 + (s.engines[k].done + 1)).toNat ∧ ∀ p, ¬ tg.covers 8 p → t.byteAt p = s1.byteAt p)
        ∧ (r.counter = 0 → r.frec ≠ 0 → rs < 256 → pr < 256 → landed < 2 ^ 64 →
          (∀ a b, xferAccess drawn (.engine k) g.req .store false [] r.frec = (s1, .error (.fault a b)) →
            ∃ t, exec (.commandFault k) s = .next t ∧ after t ∧ reports t r.frec ∧ SameBytes s1 t)
          ∧ (xferAccess drawn (.engine k) g.req .store false [] r.frec = (s1, .ok (tg, us)) →
            ∃ t, exec (.commandFault k) s = .next t ∧ after t ∧ reports t r.frec
              ∧ (let b := (tgtRead t tg 64).1
                 fieldAt b 0 8 = g.addr.toNat ∧ fieldAt b 8 8 = cmd.toNat ∧ fieldAt b 16 1 = rs ∧ fieldAt b 17 1 = pr ∧ fieldAt b 18 6 = 0
                 ∧ fieldAt b 24 8 = va.toNat ∧ fieldAt b 32 8 = landed ∧ fieldAt b 40 8 = unitTime s (.engine k) % 2 ^ 64
                 ∧ fieldAt b 48 8 = (s.engines[k].done + 1).toNat ∧ fieldAt b 56 8 = 0)
              ∧ ∀ p, ¬ tg.covers 64 p → t.byteAt p = s1.byteAt p)))))
  ∧ (∀ (s : State) (a b c : SReg) (k : CoreId),
    let x := (s.sreg b).toNat
    let e := s.engines[k]
    (canonical (s.sreg a) = false → exec (.senq a b c) s = .next (s.trap (mkTrap 0x0C (s.sreg a) 0)))
    ∧ (canonical (s.sreg a) = true → (s.sreg a).toNat % 64 ≠ 0 → exec (.senq a b c) s = .next (s.trap (mkTrap 0x03 (s.sreg a) 0)))
    ∧ (canonical (s.sreg a) = true → (s.sreg a).toNat % 64 = 0 →
      (512 ≤ x ∨ (s.part s.curPart).physical x = none → exec (.senq a b c) s = .next (s.trap (mkTrap 0x04 (s.sreg b) 0)))
      ∧ (x < 512 → (s.part s.curPart).physical x = some k →
        (s.sreg a = 0 → s.cur.priv = .user → exec (.senq a b c) s = .next (s.trap (mkTrap 0x04 0 0)))
        ∧ (s.sreg a = 0 → s.cur.priv ≠ .user →
          ∃ t, exec (.senq a b c) s = .next t ∧ t.cur.pc = s.cur.advance.pc ∧ t.sreg c = 0 ∧ t.engines[k].faulted = false
            ∧ t.engines[k].chain = (if e.faulted then e.chain.drop 1 else e.chain))
        ∧ (s.sreg a ≠ 0 → e.faulted = true → exec (.senq a b c) s = .next (s.finish c 2))
        ∧ (s.sreg a ≠ 0 → e.faulted = false → 64 ≤ e.chain.length → exec (.senq a b c) s = .next (s.finish c 1))
        ∧ (s.sreg a ≠ 0 → e.faulted = false → e.chain.length < 64 →
          ∃ (t : State) (g : Segment), exec (.senq a b c) s = .next t ∧ t.cur.pc = s.cur.advance.pc
            ∧ t.sreg c = ((if c = 0 then 0 else (e.done + BitVec.ofNat 64 e.chain.length + 1) <<< (8 : Nat)) : Word) ∧ t.engines[k].chain = e.chain ++ [g]
            ∧ g.addr = s.sreg a ∧ g.core = s.curCore ∧ g.ctx = s.cur.ctxOf ∧ g.part = s.curPart ∧ g.asn = s.cur.asnOf ∧ g.priv = s.cur.priv
            ∧ SameBytes s t)))))

/-! ## Queries (spec 06) -/

/-- R94 to R98, R100, R113, R115: each query's checks in order, and its acceptance when its Q pages have live cached entries that permit it:
one sub-command a page, everything read at issue held; a query that modifies accepts its sub-commands one at a time, so that a stop may come
between two; a missing permission faults, and a query of no modification then starts nothing. -/
def Obligations.QueryIssue : Prop :=
  ∀ (s s1 : State) (a b c : SReg) (fl : QueryFlags) (i : Instr) (fn : Nat),
    (i, fn) ∈ [(.qwr a b fl, 0), (.qfold a b fl, 1), (.qdot a b c fl, 2), (.qfsum a b c fl, 3), (.qcnt a b c fl, 4), (.qmaxi a b c fl, 5),
      (.qtopk a b c fl, 6), (.qattn a b c fl, 7), (.qupd a b c fl, 8)] →
    let x := (s.sreg a).toNat
    let blk := BitVec.ofNat 512 (Mem.num s.curC.spad x 64)
    let q := QBlk.ofBits blk
    let own (s : State) (p n : Nat) : Prop := p % 16 = 0 ∧ p + n ≤ 0x380000
      ∧ ∀ j, j < n → inAllocs s.curAllocs (p + j) = true ∧ NatSet.has s.curC.spadPoison ((p + j) / 16) = false
    let vecLen := if fn ≤ 1 then q.rows * q.rlen else if q.readsVec fn then q.nq * q.rlen else 0
    let pages := q.pagesOf q.base
    let first := if fn ≤ 1 ∨ fn = 8 then min s.cur.vstart.toNat pages.length else 0
    let need := if fn ≤ 1 then 2 else if fn = 8 then 4 else 3
    let cached (pg : Nat) (e : QTlbEntry) : Prop := s1.baseDies[qDie pg].cache.find?
      (fun y => y.part == s1.curPart && y.qpage == pg && decide (s1.dieTime (qDie pg) < y.expiry)) = some e
    let permits (pg : Nat) : Prop := ∃ e, cached pg e ∧ e.pte.toNat.testBit need = true
      ∧ (qpteState e.pte.toNat = 0 ∨ (qpteState e.pte.toNat = 1 ∧ 2 ≤ fn ∧ fn ≠ 8))
    (x % 64 ≠ 0 → exec i s = .next (s.trap (mkTrap 0x03 (s.sreg a) 0)))
    ∧ (x % 64 = 0 → own s x 64 →
      (∀ r, shapeFault fn q fl.bnd = some r → exec i s = .next (s.trap (mkTrap 0x09 (BitVec.ofNat 64 r) 0)))
      ∧ (shapeFault fn q fl.bnd = none →
        (vecLen ≠ 0 → q.vec % 16 ≠ 0 → exec i s = .next (s.trap (mkTrap 0x03 (BitVec.ofNat 64 q.vec) 0)))
        ∧ (vecLen = 0 → 2 ≤ fn → fn ≠ 8 → (s.sreg c).toNat % 16 ≠ 0 → exec i s = .next (s.trap (mkTrap 0x03 (s.sreg c) 0)))
        ∧ ((vecLen ≠ 0 → own s q.vec vecLen) → (fn = 8 → own s q.aux2 32) →
          (2 ≤ fn → (s.sreg c).toNat % 16 = 0 ∧ (s.sreg c).toNat + q.y fn fl.bnd ≤ 0x380000) →
          (2 ≤ fn → rangeInAllocs s.curAllocs (s.sreg c).toNat (q.y fn fl.bnd) = false → exec i s = .next (s.trap (mkTrap 0x09 9 0)))
          ∧ ((2 ≤ fn → rangeInAllocs s.curAllocs (s.sreg c).toNat (q.y fn fl.bnd) = true) →
            (b ≠ 0 → canonical (s.sreg b) = false → exec i s = .next (s.trap (mkTrap 0x0C (s.sreg b) 0)))
            ∧ (b ≠ 0 → canonical (s.sreg b) = true → (s.sreg b).toNat % 8 ≠ 0 → exec i s = .next (s.trap (mkTrap 0x03 (s.sreg b) 0)))
            ∧ (∀ f, b ≠ 0 → canonical (s.sreg b) = true → (s.sreg b).toNat % 8 = 0 →
                translate s (.scalar s.curCore) s.curReq .store (s.sreg b) true = (s1, .error f) → exec i s = scalarFail s1 .store (s.sreg b) f)
            ∧ ((b = 0 → s1 = s) →
              (b ≠ 0 → canonical (s.sreg b) = true ∧ (s.sreg b).toNat % 8 = 0
                ∧ ∃ tg lf, translate s (.scalar s.curCore) s.curReq .store (s.sreg b) true = (s1, .ok (tg, lf)) ∧ ∀ f o, tg ≠ .window f o) →
              (vecLen ≠ 0 → own s1 q.vec vecLen) → (fn = 8 → q.xfmt = 0 ∧ own s1 q.aux2 32) →
              let left := pages.drop first
              -- how many are accepted now: all, or the next of a query that modifies, so that a stop may come between two
              let now := if fn ≤ 1 ∨ fn = 8 then (if s1.curC.step = true then left.length else min 1 left.length) else left.length
              ((∀ p ∈ left, permits p.1 ∧ (fn = 7 → ∀ pg ∈ q.rowPages q.aux1 p.2.1 p.2.2, permits pg)) →
                ∃ t : State, exec i s = .next t ∧ (∀ y, t.sreg y = s1.sreg y) ∧ SameBytes s1 t
                  ∧ (now = left.length → t.cur.pc = s1.cur.advance.pc ∧ t.cur.vstart = 0)
                  ∧ (now < left.length → t.cur.pc = s1.cur.pc ∧ t.cur.vstart.toNat = (first + now) % 4096)
                  ∧ (left = [] → t.queries = s1.queries)
                  ∧ (left ≠ [] → ∃ r : QueryRun, t.queries = s1.queries.filter (fun y => y.id != s1.nextId) ++ [r] ∧ r.id = s1.nextId ∧ r.fn = fn
                    ∧ r.fl = fl ∧ r.block = blk ∧ r.core = s1.curCore ∧ r.tid = s1.curTid ∧ r.part = s1.curPart ∧ r.ctx = s1.cur.ctxOf
                    ∧ r.launch = s1.cur.launchOf ∧ r.first = first ∧ r.total = pages.length ∧ r.read = [] ∧ (r.more = true ↔ now < left.length)
                    ∧ r.counter = (if b = 0 then none else some (s.sreg b)) ∧ (2 ≤ fn → r.reply = (s.sreg c).toNat)
                    ∧ (2 ≤ fn → r.vec = Mem.bytes s1.curC.spad q.vec vecLen) ∧ (fn = 8 → r.params = Mem.bytes s1.curC.spad q.aux2 32)
                    ∧ r.subs.map (fun y => y.qpage) = (left.take now).map (fun p => p.1)
                    ∧ ∀ y ∈ r.subs, y.done = false ∧ ∃ e, cached y.qpage e ∧ y.stack = qpteStack e.pte.toNat ∧ y.frame = qpteFrame e.pte.toNat))
              ∧ (∀ pg lo hi e, pages = [(pg, lo, hi)] → 2 ≤ fn → fn < 7 → cached pg e → e.pte.toNat.testBit 3 = false →
                exec i s = .next (queryPageFault
                  ((({ s1 with nextId := s1.nextId + 1 }).noteUse (.stack (qDie pg)) s1.curReq).modCur (fun t => { t with vstart := 0 }))
                  fn [(0, pg, 10, 0)] false)))))))

/-- R98 to R100, R103, R105, R170, R174: a query's last sub-command completes: qcnt replies with how many rows match, qwr writes its rows and
every other byte of query memory stays; a sub-command that has completed or is no longer there does nothing, nor does one that an acquire
holds back, one of a qupd before an earlier one, or one whose counter's page has yet to come. -/
def Obligations.QueryCompletion : Prop :=
  (∀ (s : State) (id j : Nat), s.queries.find? (fun x => x.id == id) = none → exec (.querySubcommandComplete id j) s = .next s)
  ∧ (∀ (s : State) (id j : Nat) (q : QueryRun) (c : SubCmd), s.queries.find? (fun x => x.id == id) = some q → q.subs[j]? = some c →
    (c.done = true ∨ (∃ x ∈ s.queries, q.fl.acq = true ∧ x.id < q.id ∧ x.part = q.part ∧ x.ctx = q.ctx ∧ x.fl.rel = true)
      ∨ (q.fn = 8 ∧ ∃ i d, i < j ∧ q.subs[i]? = some d ∧ d.done = false)) →
    exec (.querySubcommandComplete id j) s = .next s)
  ∧ (∀ (s s1 : State) (id j : Nat) (q : QueryRun) (c : SubCmd), s.queries.find? (fun x => x.id == id) = some q → q.subs[j]? = some c →
    c.done = false → acquireHolds s q = false → q.fn ≠ 8 → counterReady s q.core q.rq q.counter = (s1, false) →
    exec (.querySubcommandComplete id j) s = .next s1)
  ∧ (∀ (s : State) (id : Nat) (q : QueryRun) (c : SubCmd),
    let b := QBlk.ofBits q.block
    let lo := (b.rowsOf 0).1
    let hi := (b.rowsOf 0).2
    s.queries.find? (fun x => x.id == id) = some q → q.fn = 4 → q.first = 0 → q.total = 1 → q.read = [] → q.subs = [c] → c.done = false →
    q.bad = [] → q.counter = none → q.more = false → acquireHolds s q = false → q.fl.bnd = false → (∀ g, NatSet.has s.qPoison g = false) →
    rangeInAllocs ((s.core q.core).allocsOf q.part q.launch) q.reply 8 = true →
    ∃ t, exec (.querySubcommandComplete id 0) s = .next t
      ∧ Mem.num (t.core q.core).spad q.reply 8
        = ((List.range (hi - lo)).countP (fun r => matchesRow b (Mem.bytes s.qmem (b.rowAddr b.base (lo + r) c.stack c.frame) b.rlen))) % 2 ^ 64
      ∧ (t.core q.core).isFull (q.reply / 16) = true ∧ (∀ y ∈ t.queries, y.id ≠ q.id)
      ∧ ∀ p, (∀ k, k < 8 → p ≠ .spad q.core (q.reply + k)) → t.byteAt p = s.byteAt p)
  ∧ (∀ (s : State) (id j : Nat) (q : QueryRun) (c : SubCmd),
    let b := QBlk.ofBits q.block
    let lo := (b.rowsOf (q.first + j)).1
    let hi := (b.rowsOf (q.first + j)).2
    let at_ (r : Nat) : Nat := b.rowAddr b.base r c.stack c.frame
    s.queries.find? (fun x => x.id == id) = some q → q.fn = 0 → q.subs[j]? = some c → c.done = false → q.counter = none →
    acquireHolds s q = false → shapeFault 0 b false = none →
    ∃ t, exec (.querySubcommandComplete id j) s = .next t
      ∧ (∀ r k, lo ≤ r → r < hi → k < b.rlen → Mem.get t.qmem (at_ r + k) = Mem.get (s.core q.core).spad (b.vec + r * b.rlen + k))
      ∧ (∀ p, (∀ r k, lo ≤ r → r < hi → k < b.rlen → p ≠ .query (at_ r + k)) → t.byteAt p = s.byteAt p)
      ∧ ∀ y ∈ t.queries, y.id = q.id → ∃ d, y.subs[j]? = some d ∧ d.done = true)

/-- R117 to R119, R365, R366: a page operation's checks and its issue, which marks the page's Q PTE migrating before the next
instruction for qmig and qseal; the start of the copy; and the commits of the three: the reply's status, the frame and the state that
the Q PTE takes. The keystream, tag and IV of a seal are uninterpreted (log 9). -/
def Obligations.PageOperations : Prop :=
  (∀ (s s0 s1 s2 : State) (a b c : SReg) (fl : CmdFlags) (i : Instr) (fn : Nat) (pgs : List UsedPage),
    (i, fn) ∈ [(.qmig a b c fl, 9), (.qseal a b c fl, 10), (.qunseal a b c fl, 11)] →
    let x := (s.sreg a).toNat
    let q := QBlk.ofBits (BitVec.ofNat 512 (Mem.num s.curC.spad x 64))
    let own (p n : Nat) : Prop := p % 16 = 0 ∧ p + n ≤ 0x380000
      ∧ ∀ j, j < n → inAllocs s.curAllocs (p + j) = true ∧ NatSet.has s.curC.spadPoison ((p + j) / 16) = false
    let qp := q.base / 0x200000
    let at_ : Int := signedOf 64 q.aux1
    let run (acc : AccKind) : Prop := canonInt at_ = true ∧ canonInt (at_ + 0x200040 - 1) = true ∧ q.aux1 % 64 = 0
      ∧ areaPages s0 (.engine s0.curCore) s0.curReq acc false [] (wrapInt 64 at_) (0x200040 / 4096 + 2) 0x200040 = (s1, .ok pgs)
    (s.cur.priv = .user → exec i s = .next (s.trap (mkTrap 0x02 (wordOf i) 0)))
    ∧ (s.cur.priv ≠ .user → x % 64 ≠ 0 → exec i s = .next (s.trap (mkTrap 0x03 (s.sreg a) 0)))
    ∧ (s.cur.priv ≠ .user → x % 64 = 0 → own x 64 →
      (∀ r, pageShape fn q = some r → exec i s = .next (s.trap (mkTrap 0x09 (BitVec.ofNat 64 r) 0)))
      ∧ (pageShape fn q = none → (s.sreg c).toNat % 16 = 0 → (s.sreg c).toNat + 16 ≤ 0x380000 → rangeInAllocs s.curAllocs (s.sreg c).toNat 16 = true →
        (b ≠ 0 → canonical (s.sreg b) = false → exec i s = .next (s.trap (mkTrap 0x0C (s.sreg b) 0)))
        ∧ (b ≠ 0 → canonical (s.sreg b) = true → (s.sreg b).toNat % 8 ≠ 0 → exec i s = .next (s.trap (mkTrap 0x03 (s.sreg b) 0)))
        ∧ ((b = 0 → s0 = s) →
          (b ≠ 0 → canonical (s.sreg b) = true ∧ (s.sreg b).toNat % 8 = 0
            ∧ ∃ tg lf, translate s (.scalar s.curCore) s.curReq .store (s.sreg b) true = (s0, .ok (tg, lf)) ∧ ∀ f o, tg ≠ .window f o) →
          (fn ≠ 9 → canonInt at_ = true → canonInt (at_ + 0x200040 - 1) = true → q.aux1 % 64 ≠ 0 →
            exec i s = .next (s0.trap (mkTrap 0x03 (BitVec.ofNat 64 q.aux1) 0)))
          ∧ ((fn = 9 → s1 = s0 ∧ pgs = []) → (fn = 10 → run .store) → (fn = 11 → run .load) →
            (∀ r w, qWalkMarked (s1.noteUse (.stack (qDie qp)) s1.curReq) s1.curPart qp = (s2, .error (r, w)) →
              exec i s = .next (queryPageFault s2 fn [(0, qp, r, w)] false))
            ∧ (∀ w, qWalkMarked (s1.noteUse (.stack (qDie qp)) s1.curReq) s1.curPart qp = (s2, .ok w) →
              let same := fn = 9 ∧ q.aux1 = qpteStack w.pte + qpteFrame w.pte * 64
              (qpteState w.pte ≠ (if fn = 11 then 2 else 0) → exec i s = .next (queryPageFault s2 fn [(0, qp, 12, 0)] false))
              ∧ (qpteState w.pte = (if fn = 11 then 2 else 0) → same → b = 0 →
                ∃ t : State, exec i s = .next t ∧ t.cur.pc = s2.cur.advance.pc ∧ Mem.num t.curC.spad (s.sreg c).toNat 4 = 5
                  ∧ Mem.num t.curC.spad ((s.sreg c).toNat + 8) 8 = s2.time.toNat ∧ t.pageOps = s2.pageOps.filter (fun y => y.id != s2.nextId)
                  ∧ ∀ p, (∀ k, k < 16 → p ≠ .spad s.curCore ((s.sreg c).toNat + k)) → t.byteAt p = s2.byteAt p)
              ∧ (qpteState w.pte = (if fn = 11 then 2 else 0) → ¬ same → w.addr + 8 ≤ 0x18000000000 →
                ∃ (t : State) (o : PageOpRun), exec i s = .next t ∧ t.cur.pc = s2.cur.advance.pc ∧ (∀ r, t.sreg r = s2.sreg r)
                  ∧ t.pageOps = s2.pageOps ++ [o] ∧ o.fn = fn ∧ o.qpage = qp ∧ o.aux1.toNat = q.aux1 ∧ o.aux2.toNat = q.aux2
                  ∧ o.counter = (if b = 0 then none else some (s.sreg b)) ∧ o.reply = (s.sreg c).toNat ∧ o.pteAddr = w.addr
                  ∧ o.copied = false ∧ o.part = s1.curPart ∧ o.ctx = s1.cur.ctxOf ∧ o.until_ = s2.time.toNat + w.path.most + 4
                  ∧ (fn = 11 → SameBytes s2 t)
                  ∧ (fn ≠ 11 → Mem.num t.wm w.addr 8 = qpteWith w.pte 1 (qpteStack w.pte) (qpteFrame w.pte) (qpteGen w.pte)
                      ∧ ∀ p, (∀ k, k < 8 → p ≠ .wm (w.addr + k)) → t.byteAt p = s2.byteAt p))))))))
  ∧ (∀ (s : State) (id : Nat) (o : PageOpRun), s.pageOps.find? (fun x => x.id == id) = some o →
    let e := readPte s o.pteAddr
    let src := qAddr (qpteStack e) (qpteFrame e) 0
    let dstOf (v : Word) : Nat := qAddr (v.toNat % 64) (v.toNat / 64 % 2 ^ 17) 0
    let reply (t : State) (code : Nat) : Prop := Mem.num (t.core o.core).spad o.reply 4 = code ∧ Mem.num (t.core o.core).spad (o.reply + 4) 4 = 0
      ∧ Mem.num (t.core o.core).spad (o.reply + 8) 8 = s.time.toNat ∧ (∀ y ∈ t.pageOps, y.id ≠ o.id)
    let room : Prop := rangeInAllocs ((s.core o.core).allocsOf o.part o.launch) o.reply 16 = true
    (o.fn ≠ 11 → (s.time.toNat < o.until_ ∨ pendingWrites s o = true) → exec (.migrationCopyStart id) s = .next s)
    ∧ (o.fn = 9 → o.copied = false → o.until_ ≤ s.time.toNat → pendingWrites s o = false → qPoisoned s src 0x200000 = false → src ≠ dstOf o.aux1 →
      ∃ t, exec (.migrationCopyStart id) s = .next t ∧ (∃ y, t.pageOps.find? (fun x => x.id == id) = some y ∧ y.copied = true)
        ∧ (∀ k, k < 0x200000 → Mem.get t.qmem (dstOf o.aux1 + k) = Mem.get s.qmem (src + k))
        ∧ ∀ p, (∀ k, k < 0x200000 → p ≠ .query (dstOf o.aux1 + k)) → t.byteAt p = s.byteAt p)
    ∧ (o.fn = 9 → o.copied = true → qPoisoned s src 0x200000 = false → o.counter = none → o.pteAddr + 8 ≤ 0x18000000000 → room →
      ∃ t, exec (.migrationCommit id) s = .next t ∧ reply t 0
        ∧ Mem.num t.wm o.pteAddr 8 = qpteWith e 0 (o.aux1.toNat % 64) (o.aux1.toNat / 64 % 2 ^ 17) (qpteGen e + 1)
        ∧ ∀ p, (∀ k, k < 8 → p ≠ .wm (o.pteAddr + k)) → (∀ k, k < 16 → p ≠ .spad o.core (o.reply + k)) → t.byteAt p = s.byteAt p)
    ∧ (∀ s1, o.fn = 10 → o.copied = true → qPoisoned s src 0x200000 = false →
      let gen := sealGenOf s o.part o.qpage + 1
      let iv := Config.sealIv o.part.val (s.part o.part).ivCtr
      let head := leBytes 2 1 ++ leBytes 2 o.part.val ++ leBytes 4 0 ++ leBytes 8 (o.qpage * 0x200000) ++ leBytes 8 gen ++ leBytes 8 0
      let cipher := sealCrypt o.part iv (Mem.bytes s.qmem src 0x200000)
      let img := head ++ leBytes 12 iv.toNat ++ leBytes 4 0 ++ leBytes 16 (Config.sealTag o.part.val iv.toNat head cipher).toNat ++ cipher
      imageWrite s (.engine o.core) o.rq o.pages o.aux1 1024 img = (s1, none) → s1.time = s.time → s1.pageOps = s.pageOps → o.counter = none →
      o.pteAddr + 8 ≤ 0x18000000000 → rangeInAllocs ((s1.core o.core).allocsOf o.part o.launch) o.reply 16 = true →
      ∃ t, exec (.sealImageWritten id) s = .next t ∧ reply t 0 ∧ (t.part o.part).ivCtr = (s1.part o.part).ivCtr + 1
        ∧ sealGenOf t o.part o.qpage = gen % 2 ^ 64 ∧ Mem.num t.wm o.pteAddr 8 = qpteWith e 2 (qpteStack e) (qpteFrame e) (qpteGen e + 1)
        ∧ ∀ p, (∀ k, k < 8 → p ≠ .wm (o.pteAddr + k)) → (∀ k, k < 16 → p ≠ .spad o.core (o.reply + k)) → t.byteAt p = s1.byteAt p)
    ∧ (∀ s1 img, o.fn = 11 → imageRead s (.engine o.core) o.rq o.pages o.aux1 1024 0x200040 = (s1, .ok (img, false)) → SameBytes s s1 →
      s1.time = s.time → s1.pageOps = s.pageOps → s1.seals = s.seals → o.counter = none → o.pteAddr + 8 ≤ 0x18000000000 →
      rangeInAllocs ((s1.core o.core).allocsOf o.part o.launch) o.reply 16 = true →
      let iv := fieldAt img 32 12
      let cipher := img.drop 64
      let own := fieldAt img 2 2 = o.part.val ∧ fieldAt img 8 8 = o.qpage * 0x200000
      let latest := fieldAt img 16 8 = sealGenOf s o.part o.qpage
      let good := (Config.sealTag o.part.val iv (img.take 32) cipher).toNat = fieldAt img 48 16
      ∃ t, exec (.unsealVerified id) s = .next t
        ∧ (¬ own → reply t 3 ∧ t.qmem = s1.qmem) ∧ (own → ¬ latest → reply t 2 ∧ t.qmem = s1.qmem)
        ∧ (own → latest → ¬ good → reply t 1 ∧ t.qmem = s1.qmem)
        ∧ (own → latest → good → cipher.length = 0x200000 → reply t 0
            ∧ (∀ k, k < 0x200000 → Mem.get t.qmem (dstOf o.aux2 + k) = (sealCrypt o.part (BitVec.ofNat 96 iv) cipher).getD k 0)
            ∧ Mem.num t.wm o.pteAddr 8 = qpteWith (readPte s1 o.pteAddr) 0 (o.aux2.toNat % 64) (o.aux2.toNat / 64 % 2 ^ 17) (qpteGen (readPte s1 o.pteAddr) + 1)))
    ∧ (∀ s1, counterReady s o.core o.rq o.counter = (s1, false) → (o.fn = 9 → o.copied = true → exec (.migrationCommit id) s = .next s1)
        ∧ (o.fn = 10 → o.copied = true → exec (.sealImageWritten id) s = .next s1) ∧ (o.fn = 11 → exec (.unsealVerified id) s = .next s1))
    ∧ (o.fn ≠ 9 ∨ o.copied = false → exec (.migrationCommit id) s = .next s)
    ∧ (o.fn ≠ 10 ∨ o.copied = false → exec (.sealImageWritten id) s = .next s)
    ∧ (o.fn ≠ 11 → exec (.unsealVerified id) s = .next s))


/-! ## Launches and tasks (spec 16, 11) -/

/-- R211, R305, R312: the ends of a task. While earlier copies of the thread or a re-issue run, tdone and halt wait. halt vacates the
thread, frees its lanes, slots and acown fields, and halts its node; tdone of a node's last task also does the node, after its successor
list has been read and checked; a task whose peers still run only leaves. The dispatcher, which runs after each, has nothing to place here. R298, R305, R314, R319: tspawn appends a node whose record it checks; tyield waits for matrix work that the
thread has set off, goes on when the core holds a full image or nothing else can be placed, and otherwise exchanges the task for the suspended
one that the dispatcher's order names. -/
def Obligations.TaskInstructions : Prop :=
  (∀ (s : State),
    let busy := copiesBusyOf s s.curCore s.curTid = true ∨ (∃ x, s.curC.mat.pendReissue = some x ∧ x.1 = s.curTid)
      ∨ ∃ f, s.curC.mat.filling = some f ∧ f.tid = s.curTid
    (busy → exec .tdone s = .next (s.block .drain) ∧ exec .halt s = .next (s.block .drain))
    ∧ (¬ busy → reportAll s = none → ∀ (x : Task) (l : Launch) (n : NodeRec),
      s.cur.task = some x → s.launch x.part x.launch = some l → l.nodes[x.node]? = some n → s.disp.ready = [] →
      (∀ k : CoreId, (s.core k).hamper.images = []) →
      let gone (t : State) : Prop := t.cur = s.cur.vacated ∧ t.curC.vec.holder ≠ some s.curTid
        ∧ (∀ p : Slot, s.curC.mat.slots[p].owner = x.ctx → t.curC.mat.slots[p].claimed = false)
        ∧ (∀ q : Tile, s.curC.mat.acown[q] = x.ctx → t.curC.mat.acown[q] = 0)
      let node (t : State) (st : NodeStat) (live : Nat) : Prop := ∀ l', t.launch x.part x.launch = some l' →
        ∃ m, l'.nodes[x.node]? = some m ∧ m.stat = st ∧ m.live = live ∧ m.addr = n.addr
      (∃ t, exec .halt s = .next t ∧ gone t ∧ node t .halted (n.live - 1))
      ∧ (1 < n.live ∧ n.stat ≠ .halted → ∃ t, exec .tdone s = .next t ∧ gone t ∧ node t n.stat (n.live - 1))
      ∧ (n.live ≤ 1 → n.stat ≠ .halted → ∀ (s1 s2 : State) (b sb : List Byte),
        devBytes s (.scalar s.curCore) l.req n.addr 64 = (s1, .ok b) →
        devBytes s1 (.scalar s.curCore) l.req (BitVec.ofNat 64 (fieldAt b 24 8)) (4 * fieldAt b 20 2) = (s2, .ok sb) →
        s2.disp = s.disp → s2.cur = s.cur → s2.curC.mat = s.curC.mat → s2.curC.vec = s.curC.vec → s2.parts = s.parts →
        (∀ k : CoreId, (s2.core k).hamper.images = []) →
        (fieldAt b 20 2 = 0 → ∃ t, exec .tdone s = .next t ∧ gone t ∧ node t .done (n.live - 1))
        ∧ (∀ j, j < fieldAt b 20 2 → l.nodes.length ≤ fieldAt sb (4 * j) 4 → (∀ i, i < j → fieldAt sb (4 * i) 4 < l.nodes.length) →
          exec .tdone s = .next (s2.trap (mkTrap 0x18 (BitVec.ofNat 64 (fieldAt b 24 8) + BitVec.ofNat 64 (4 * j)) (BitVec.ofNat 64 (fieldAt sb (4 * j) 4))))))))
  ∧ ((∀ (s s1 : State) (a c : SReg) (tg : Tgt) (lf : LeafInfo) (x : Task) (l : Launch),
    let addr := s.sreg a
    (canonical addr = false → exec (.tspawn a c) s = .next (s.trap (mkTrap 0x0C addr 0)))
    ∧ (canonical addr = true → addr.toNat % 64 ≠ 0 → exec (.tspawn a c) s = .next (s.trap (mkTrap 0x03 addr 0)))
    ∧ (canonical addr = true → addr.toNat % 64 = 0 → translate s (.scalar s.curCore) s.curReq .load addr true = (s1, .ok (tg, lf)) →
      (∀ f o, tg ≠ .window f o) → (tgtRead s1 tg 64).2 = false → s1.cur.task = some x → s1.launch x.part x.launch = some l →
      let b := (tgtRead s1 tg 64).1
      let fine := fieldAt b 12 1 < 64 ∧ fieldAt b 13 1 < 4 ∧ fieldAt b 14 1 < l.levels.length ∧ fieldAt b 15 1 ≤ 8 ∧ fieldAt b 22 2 = 0 ∧ fieldAt b 60 4 < 65536
      (¬ fine → exec (.tspawn a c) s = .next (s1.trap (mkTrap 0x18 addr 5)))
      ∧ (fine → 2 ^ 20 ≤ l.nodes.length → exec (.tspawn a c) s = .next (s1.finish c 0xFFFFFFFFFFFFFFFF#64))
      ∧ (fine → l.nodes.length < 2 ^ 20 → fieldAt b 8 4 ≠ 0 →
        ∃ t, exec (.tspawn a c) s = .next t ∧ t.cur.pc = s1.cur.advance.pc ∧ t.sreg c = (if c = 0 then 0 else BitVec.ofNat 64 l.nodes.length)
          ∧ (∀ r, r ≠ c → t.sreg r = s1.sreg r) ∧ SameBytes s1 t
          ∧ t.launch x.part x.launch
            = some { l with nodes := l.nodes ++ [⟨addr, .waiting, 0, 0, false, 0, fieldAt b 14 1, fieldAt b 16 4⟩] })))
  ∧ (∀ (s : State) (x : Task), s.cur.task = some x →
    (s.curC.hamper.full ≠ none ∨ (s.part x.part).halt ≠ 0 → exec .tyield s = .next s.advance)
    ∧ (s.curC.hamper.full = none → (s.part x.part).halt = 0 → matrixBusyOf s s.curCore s.curTid = true → exec .tyield s = .next (s.block (.slotBusy [])))
    ∧ (matrixBusyOf s s.curCore s.curTid = false → (∀ k : CoreId, (s.core k).hamper.images = []) → s.disp.ready = [] → exec .tyield s = .next s.advance)
    ∧ (∀ (i : ThreadImage) (y : Task), s.cur.priv = .user → matrixBusyOf s s.curCore s.curTid = false → s.curC.hamper.images = [i] → s.curC.hamper.full = none → (s.part x.part).halt = 0 →
      (∀ k : CoreId, k ≠ s.curCore → (s.core k).hamper.images = []) → s.disp.ready = [] → (∀ u : Tid, u ≠ s.curTid → (s.thr s.curCore u).task ≠ none) →
      i.thread.task = some y → y.part = x.part → y.ctx ≠ x.ctx → (64 : Int) ≤ s.dies[s.curCore.die].left →
      s.curC.residents.any (fun r => r.part == y.part && r.launch == y.launch) = true → s.curC.copies = [] → i.copies = [] →
      ∃ (t : State) (j : ThreadImage), exec .tyield s = .next t ∧ t.cur.task = some y ∧ t.cur.pc = i.thread.pc ∧ t.cur.sregs = i.thread.sregs
        ∧ t.cur.vecSaved = i.vec ∧ t.cur.since = s.time.toNat ∧ t.curC.hamper.images = [j] ∧ j.thread.task = some x ∧ j.thread.pc = s.cur.advance.pc
        ∧ j.thread.sregs = s.cur.sregs)))

/-- R297, R300, R305: tlaunch is privileged; it answers a local launch's number, to start at the proposed time or now if that is later, a
refusal with its reason, or, for a gang, waits until its outcome is known; a launch starts at its tick, not before and once; and its nodes
of pending count 0 are then ready. R300, R302, R305, R319: the dispatcher runs when a node ages; a slice ends for a thread whose slice has run while a node of another
partition and no lower priority waits; and a gang launch agrees on the largest proposal + 2,000 ns, or is refused with reason 9 by a cancel
or 10 ms after its own proposal. -/
def Obligations.LaunchesAndGangs : Prop :=
  ((∀ (s s1 : State) (a b c : SReg) (gang : Bool) (l : Launch) (gm : Nat),
    let rq : XReq := ⟨s.curPart, s.cur.asnOf, .kernel, s.cur.ctxOf⟩
    let addr := s.sreg a
    let twice := (coresOf (s.part s.curPart)).eraseDups.length ≠ (coresOf (s.part s.curPart)).length
    let prop := max (s.sreg b).toNat s.time.toNat
    let pends (g : GangRec) : Bool := g.own.isSome && g.part == s.curPart && (match g.launch with | some l => l.addr == addr | none => false)
    let check := checkLaunch s (.scalar s.curCore) rq addr gang
    let no (n : Nat) : Word := 0x8000000000000000#64 + BitVec.ofNat 64 n
    (s.cur.priv = .user → exec (.tlaunch a b c gang) s = .next (s.trap (mkTrap 0x02 (wordOf (.tlaunch a b c gang)) 0)))
    ∧ (s.cur.priv ≠ .user → (gang = true → s.disp.gangs.find? pends = none) →
      ((s.part s.curPart).resetSt = .resetting ∨ (s.part s.curPart).resetSt = .scrubbing ∨ twice →
        exec (.tlaunch a b c gang) s = .next (s.finish c (no 6)))
      ∧ ((s.part s.curPart).resetSt ≠ .resetting → (s.part s.curPart).resetSt ≠ .scrubbing → ¬ twice → addr.toNat % 64 ≠ 0 →
        exec (.tlaunch a b c gang) s = .next (s.finish c (no 1)))
      ∧ (∀ n, check = (s1, .error (.reason n)) → exec (.tlaunch a b c gang) s = .next (s1.finish c (no n)))
      ∧ (check = (s1, .ok (l, gm)) → s1.time = s.time → gang = false →
        (∃ n : BitVec 16, n ≠ 0 ∧ ∀ y ∈ s1.disp.launches, y.num ≠ n) →
        ∃ (t : State) (n : BitVec 16), exec (.tlaunch a b c false) s = .next t ∧ n ≠ 0 ∧ (∀ y ∈ s1.disp.launches, y.num ≠ n)
          ∧ t.sreg c = (if c = 0 then 0 else n.zeroExtend 64) ∧ t.cur.pc = s1.cur.advance.pc ∧ (∀ r, r ≠ c → t.sreg r = s1.sreg r)
          ∧ t.disp.launches = s1.disp.launches ++ [{ l with num := n, start := prop }] ∧ SameBytes s1 t)
      ∧ (check = (s1, .ok (l, gm)) → s1.time = s.time → s1.part s.curPart = s.part s.curPart → gang = true → s1.gang l.gtag = none → 1 < gm →
        ∃ t, exec (.tlaunch a b c true) s = .next t ∧ t.cur.wait = .gang l.gtag ∧ t.cur.pc = s1.cur.pc ∧ t.gang l.gtag =
          some ⟨l.gtag, s.curPart, some prop, s1.time.toNat, gm, [((s.part s.curPart).gpos.toNat, prop)], false, some l, none⟩))
    ∧ (∀ g v, s.cur.priv ≠ .user → gang = true → s.disp.gangs.find? pends = some g → g.result = some v →
      ∃ t, exec (.tlaunch a b c true) s = .next t ∧ t.sreg c = (if c = 0 then 0 else v) ∧ t.cur.pc = s.cur.advance.pc ∧ t.gang g.gtag = none)
    ∧ (∀ g, s.cur.priv ≠ .user → gang = true → s.disp.gangs.find? pends = some g → g.result = none →
      exec (.tlaunch a b c true) s = .next (s.block (.gang g.gtag))))
  ∧ (∀ (s s1 : State) (n : BitVec 16) (l : Launch),
    (s.launchNum n = none → exec (.launchStartTick n) s = .next s)
    ∧ (s.launchNum n = some l → (l.started = true ∨ s.time.toNat < l.start) → exec (.launchStartTick n) s = .next s)
    ∧ (s.launchNum n = some l → l.started = false → l.start ≤ s.time.toNat → ∀ (m : NodeRec) (r : NodeRow),
      let s0 := { s.modLaunch l.part l.num (fun l => { l with started := true }) with
        disp := { (s.modLaunch l.part l.num (fun l => { l with started := true })).disp with gangs := s.disp.gangs.map (fun g =>
          if g.launch.map (fun l => l.num) = some n && g.result.isNone then { g with result := some (n.zeroExtend 64) } else g) } }
      l.nodes = [m] → m.stat = .waiting → readNode s0 l m.addr = (s1, .ok r) → s1.disp = s0.disp → s1.parts = s0.parts → s1.time = s0.time →
      (s.part l.part).halt ≠ 0 → s.disp.ready = [] → (∀ k : CoreId, (s1.core k).hamper.images = []) →
      (∀ y ∈ s.disp.launches, y.num = n → y = l) →
      ∃ (t : State) (l' : Launch) (m' : NodeRec), exec (.launchStartTick n) s = .next t ∧ t.launchNum n = some l' ∧ l'.started = true ∧ l'.nodes = [m']
        ∧ (r.pending = 0 → m'.stat = .ready ∧ m'.readyAt = s.time.toNat ∧ m'.crit = true ∧ t.disp.ready = [(n, 0)])
        ∧ (r.pending ≠ 0 → m' = m ∧ t.disp.ready = []))))
  ∧ ((∀ (s : State) (g : Word32) (m : Fin 64) (tick : Word),
    let r : GangRec := (s.gang g).getD ⟨g, 0, none, 0, 0, [], false, none, none⟩
    let r1 := { r with props := r.props ++ [(m.val, tick.toNat)] }
    (r.props.any (fun p => p.1 == m.val) = true → exec (.gangProposal g m tick) s = .next s)
    ∧ (r.props.any (fun p => p.1 == m.val) = false → r.gtag = g →
      (r.own = none ∨ r.launch = none ∨ r.result ≠ none ∨ r1.props.length < r.members →
        ∃ t, exec (.gangProposal g m tick) s = .next t ∧ t.gang g = some r1 ∧ t.disp.launches = s.disp.launches)
      ∧ (∀ p l, r.own = some p → r.launch = some l → r.result = none → r.cancelled = false → l.num = 0 → r.members ≤ r1.props.length →
        let start := (r1.props.map (fun p => p.2)).foldl max 0 + 2000
        ∃ (t : State) (n : BitVec 16), exec (.gangProposal g m tick) s = .next t
          ∧ t.gang g = some { r1 with launch := some { l with num := n, start := start } }
          ∧ t.disp.launches = s.disp.launches ++ [{ l with num := n, start := start }])))
  ∧ (∀ (s : State) (g : Word32),
    (s.gang g = none → ∃ t, exec (.gangCancel g) s = .next t ∧ t.gang g = some ⟨g, 0, none, 0, 0, [], true, none, none⟩)
    ∧ (∀ r, s.gang g = some r →
      (r.result ≠ none → exec (.gangCancel g) s = .next s)
      ∧ (r.result = none → r.own = none → ∃ t, exec (.gangCancel g) s = .next t ∧ t.gang g = some { r with cancelled := true })
      ∧ (r.result = none → r.own ≠ none → ∃ t, exec (.gangCancel g) s = .next t
          ∧ t.gang g = some { r with cancelled := true, result := some 0x8000000000000009#64 }
          ∧ ∀ l, r.launch = some l → l.num ≠ 0 → ∀ y ∈ t.disp.launches, y.num ≠ l.num)
      ∧ (let late := r.own ≠ none ∧ r.result = none ∧ (∀ l, r.launch = some l → l.num = 0) ∧ r.ownAt + 10000000 ≤ s.time.toNat
         (¬ late → exec (.gangProposalTimeout g) s = .next s)
         ∧ (late → ∃ t, exec (.gangProposalTimeout g) s = .next t ∧ t.gang g = some { r with cancelled := true, result := some 0x8000000000000009#64 }))))
  ∧ (∀ (s : State) (n : BitVec 16) (i : Nat) (l : Launch) (m : NodeRec), s.launchNum n = some l → l.nodes[i]? = some m →
    let aged := m.stat = .ready ∧ m.readyAt + 256000 ≤ s.time.toNat
    (¬ aged → exec (.nodeAged n i) s = .next s) ∧ (aged → exec (.nodeAged n i) s = .next (dispatch s)))
  ∧ (∀ (s : State) (k : CoreId) (u : Tid) (x : Task), (s.thr k u).task = some x →
    let q := (s.part x.part).xslice.toNat
    (q = 0 ∨ s.time.toNat < (s.thr k u).since + 1000 * q → exec (.sliceEnd k u) s = .next s)
    ∧ (∀ (n : BitVec 16) (i : Nat) (l : Launch) (m : NodeRec) (own : Launch) (o : NodeRec), q ≠ 0 → (s.thr k u).since + 1000 * q ≤ s.time.toNat →
      s.disp.ready = [(n, i)] → s.launchNum n = some l → l.nodes[i]? = some m → l.part ≠ x.part → (s.part l.part).halt ≠ 0 →
      s.launch x.part x.launch = some own → own.nodes[x.node]? = some o → (∀ j : CoreId, (s.core j).hamper.images = []) →
      (o.cls.toNat % 8 ≤ m.cls.toNat % 8 → exec (.sliceEnd k u) s = .next (s.modThr k u (fun h => { h with sliceOver := true })))
      ∧ (m.cls.toNat % 8 < o.cls.toNat % 8 → exec (.sliceEnd k u) s = .next s))))

/-! ## Waits, time and budgets (spec 04, 05, 08, 16) -/

/-- R75, R160, R162, R163, R165: each wait ends when what it waits for holds, and not before; the instruction at pc then executes again. A
barrier phase completes when every task of its instance has arrived or executed tdone and no node has yet to start one (log 27). R54, R335, R302: a gang beacon corrects a time base that is off by more than 25 ns to within 25 ns, where within is left open (log 2);
budgets are published at multiples of 8,000 ns and never pass the cap, and left is the budget less what runs; the throttle code rises to what is asked and falls step by step. -/
def Obligations.WaitsAndBudgets : Prop :=
  ((∀ (s : State) (k : CoreId) (u : Tid),
    let woken := s.modThr k u (fun x => { x with wait := .none })
    let ends (i : Instr) (met : Prop) : Prop := (met → exec i s = .next woken) ∧ (¬ met → exec i s = .next s)
    (∀ gs, (s.thr k u).wait = .granule gs → ends (.fullEmptyWaitReady k u) (∀ g ∈ gs, (s.core k).isFull g = true))
    ∧ ((s.thr k u).wait = .fence false → ends (.fenceComplete k u) (∀ c ∈ (s.core k).copies, c.tid ≠ u))
    ∧ ((s.thr k u).wait = .fence true → ends (.fenceComplete k u)
        ((∀ q ∈ s.queries, ¬ (q.part = (s.thr k u).partOf (s.corePart k) ∧ q.ctx = (s.thr k u).ctxOf))
          ∧ ∀ o ∈ s.pageOps, ¬ (o.part = (s.thr k u).partOf (s.corePart k) ∧ o.ctx = (s.thr k u).ctxOf)))
    ∧ (∀ tg target, (s.thr k u).wait = .counter tg target → ends (.waitgeWake k u)
        (target.toNat ≤ (match tg with | .window f o => (windowRead s f o).toNat | _ => leNat (tgtRead s tg 8).1)))
    ∧ (∀ target, (s.thr k u).wait = .time target → ends (.waittComplete k u) (target.toNat ≤ s.coreTime k))
    ∧ ((s.thr k u).wait = .none → exec (.fullEmptyWaitReady k u) s = .next s ∧ exec (.fenceComplete k u) s = .next s
        ∧ exec (.waitgeWake k u) s = .next s ∧ exec (.waittComplete k u) s = .next s))
  ∧ (∀ (s : State) (n : BitVec 16) (lv : Fin 8) (inst : List (BitVec 32)),
    (s.disp.launches.find? (fun l => l.num == n) = none → exec (.barrierPhaseComplete n lv inst) s = .next s)
    ∧ (∀ l, s.disp.launches.find? (fun l => l.num == n) = some l →
      let b := l.bar lv inst
      let of_ (x : TaskRec) : Prop := x.idx.toList.drop lv.val = inst
      let all := (∃ x ∈ l.tasks, of_ x)
        ∧ (∀ i x, l.tasks[i]? = some x → of_ x → (x.ended = true ∧ x.halted = false) ∨ i ∈ b.arrived) ∧ ∀ m ∈ l.nodes, m.joins l.levels b = false
      ∃ (t : State) (l' : Launch), exec (.barrierPhaseComplete n lv inst) s = .next t ∧ SameBytes s t ∧ t.launch l.part n = some l'
        ∧ (all → (l'.bar lv inst).phase = b.phase + 1 ∧ (l'.bar lv inst).arrived = [])
        ∧ (¬ all → (l'.bar lv inst).phase = b.phase ∧ (l'.bar lv inst).arrived = b.arrived)
        ∧ ∀ (k : CoreId) (u : Tid) (x : Task) (y : TaskRec) (p : Nat), (s.thr k u).task = some x → x.part = l.part → x.launch = n →
            l.tasks.find? (fun t => t.ctx == x.ctx && !t.ended) = some y → of_ y → (s.thr k u).wait = .barrier lv p →
            (t.thr k u).pc = (s.thr k u).pc
              ∧ (t.thr k u).wait = (if p < (l'.bar lv inst).phase then .none else .barrier lv p))))
  ∧ ((∀ (s : State) (drift : Int),
    ∃ t, exec (.gangTimeBeacon drift) s = .next t ∧ SameBytes s t ∧ (∀ k u, t.thr k u = s.thr k u)
      ∧ (-25 ≤ drift → drift ≤ 25 → t.time = s.time ∧ ∀ k : CoreId, (t.core k).skew = (s.core k).skew)
      ∧ (drift < -25 ∨ 25 < drift → drift + 25 ≤ s.time.toNat →
          ∃ rest : Int, -25 ≤ rest ∧ rest ≤ 25 ∧ t.time = BitVec.ofInt 64 ((s.time.toNat : Int) - drift + rest)
            ∧ ∀ k : CoreId, (t.core k).skew = (s.core k).skew + drift - rest))
  ∧ (∀ (s : State) (b : Vector (BitVec 24) 8), s.disp.ready = [] → (∀ k : CoreId, (s.core k).hamper.images = []) →
    (s.time.toNat % 8000 ≠ 0 → exec (.budgetPublication b) s = .next s)
    ∧ (s.time.toNat % 8000 = 0 → ∃ t, exec (.budgetPublication b) s = .next t ∧ SameBytes s t ∧ (∀ k u, t.thr k u = s.thr k u)
      ∧ ∀ d : DieId, t.dies[d].cap = s.dies[d].cap ∧ t.dies[d].throttle = s.dies[d].throttle
          ∧ t.dies[d].budget.toNat = min b[d].toNat s.dies[d].cap.toNat
          ∧ t.dies[d].left = (t.dies[d].budget.toNat : Int) - (runningCost s d : Int)
          ∧ ((∀ k : CoreId, k.die = d → ∀ u : Tid, (s.thr k u).task = none) → t.dies[d].left = (t.dies[d].budget.toNat : Int))))
  ∧ (∀ (s : State) (d : DieId) (lvl : BitVec 3),
    (∃ t, exec (.throttleRaise d lvl) s = .next t ∧ t.dies[d] = { s.dies[d] with throttle := if s.dies[d].throttle.toNat < lvl.toNat then lvl else s.dies[d].throttle }
      ∧ (∀ e : DieId, e ≠ d → t.dies[e] = s.dies[e]) ∧ { t with dies := s.dies } = s)
    ∧ (∃ t, exec (.throttleStepDown d) s = .next t ∧ t.dies[d].throttle.toNat = s.dies[d].throttle.toNat - 1
      ∧ { t.dies[d] with throttle := s.dies[d].throttle } = s.dies[d] ∧ (∀ e : DieId, e ≠ d → t.dies[e] = s.dies[e]) ∧ { t with dies := s.dies } = s)))

/-- R57, R62, R63: every agent drops the entries that have expired by its own time-base copy; a transfer's page is renewed from three
quarters of its lease on, and a changed leaf stops the transfer where it leaves the page; the beacon, at each microsecond, resets a copy that
is off by more than 1 ns and discards what was cached with it, and a copy that was behind gives the contexts that translated through it since
the last beacon a lease-skew fault, and the transfers that used it a fault at their next strip. -/
def Obligations.ExpiryAndRenewal : Prop :=
  (∀ (s : State),
    (∀ k : CoreId, ∃ t, exec (.translationExpiry (.core k)) s = .next t ∧ SameBytes s t
      ∧ (t.core k).scalarTlb = (s.core k).scalarTlb.filter (fun e => decide (s.coreTime k < e.expiry))
      ∧ (t.core k).vectorTlb = (s.core k).vectorTlb.filter (fun e => decide (s.coreTime k < e.expiry))
      ∧ (t.core k).gatherTlb = (s.core k).gatherTlb.filter (fun e => decide (s.coreTime k < e.expiry)) ∧ (t.core k).threads = (s.core k).threads)
    ∧ (∀ c : ClusterId, ∃ t, exec (.translationExpiry (.cluster c)) s = .next t ∧ SameBytes s t
      ∧ t.clusters[c].tlb = s.clusters[c].tlb.filter (fun e => decide (copyOfTime s s.clusters[c].skew < e.expiry))
      ∧ t.clusters[c].walks = s.clusters[c].walks.filter (fun e => decide (copyOfTime s s.clusters[c].skew < e.expiry)))
    ∧ (∀ k : EngineId, ∃ t, exec (.translationExpiry (.engine k)) s = .next t ∧ SameBytes s t
      ∧ t.engines[k] = { s.engines[k] with tlb := s.engines[k].tlb.filter (fun e => decide (copyOfTime s s.engines[k].skew < e.expiry)) })
    ∧ (∀ d : StackId, ∃ t, exec (.translationExpiry (.stack d)) s = .next t ∧ SameBytes s t
      ∧ t.baseDies[d] = { s.baseDies[d] with cache := s.baseDies[d].cache.filter (fun e => decide (copyOfTime s s.baseDies[d].skew < e.expiry)) }))
  ∧ (∀ (s s1 : State) (k : CoreId) (c : CopyCmd) (p : UsedPage) (e : TlbEntry) (w : Walked) (vpn : Nat), (s.core k).copies = [c] → c.pages = [p] →
    p.covers vpn = true → (∀ r : Fin 8, (s.core k).vec.binds[r] = none) →
    (unitTlb s (.vector k)).find? (fun e => e.serves c.req vpn) = some e →
    let due := e.ts + 3 * (e.expiry - e.ts) / 4
    let walk := walkLeaf s (.vector k) c.req p.wr true (vpn * 0x10000)
    let marks : Prop := ∃ t, exec (.leaseRenewal (.core k) vpn) s = .next t ∧ SameBytes s1 t
      ∧ (t.core k).copies = [{ c with pages := [{ p with stop := true }] }]
    (s.coreTime k < due → exec (.leaseRenewal (.core k) vpn) s = .next s)
    ∧ (due ≤ s.coreTime k →
      (walk = (s1, .ok w) → (p.leaf.at vpn).sameAs w.leaf = true → (∀ r : Fin 8, (s1.core k).vec.binds[r] = none) →
        exec (.leaseRenewal (.core k) vpn) s = .next (cacheWalk (unitDrop s1 (.vector k) c.req vpn) (.vector k) c.req (vpn * 0x10000) w))
      ∧ (walk = (s1, .ok w) → (p.leaf.at vpn).sameAs w.leaf = false → (∀ r : Fin 8, (s1.core k).vec.binds[r] = none) → (s1.core k).copies = [c] → marks)
      ∧ (∀ x, walk = (s1, .error x) → (∀ r : Fin 8, (s1.core k).vec.binds[r] = none) → (s1.core k).copies = [c] → marks)))
  ∧ (∀ (s s1 : State) (k : EngineId) (g : Segment) (rest : List Segment) (r : SegRun) (x : EngCmd) (p : UsedPage) (e : TlbEntry) (w : Walked) (vpn : Nat),
    s.engines[k].running = some r → s.engines[k].chain = g :: rest → r.flight = [x] → x.pages = [p] → p.covers vpn = true →
    (unitTlb s (.engine k)).find? (fun e => e.serves g.req vpn) = some e → e.ts + 3 * (e.expiry - e.ts) / 4 ≤ copyOfTime s s.engines[k].skew →
    walkLeaf s (.engine k) g.req p.wr true (vpn * 0x10000) = (s1, .ok w) →
    ((p.leaf.at vpn).sameAs w.leaf = true →
      exec (.leaseRenewal (.engine k) vpn) s = .next (cacheWalk (unitDrop s1 (.engine k) g.req vpn) (.engine k) g.req (vpn * 0x10000) w))
    ∧ ((p.leaf.at vpn).sameAs w.leaf = false → s1.engines[k].running = some r → ∃ t, exec (.leaseRenewal (.engine k) vpn) s = .next t ∧ SameBytes s1 t
        ∧ t.engines[k].running = some { r with flight := [{ x with pages := [{ p with stop := true }] }] }))
  ∧ (∀ (s : State) (c : ClusterId) (vpn : Nat), exec (.leaseRenewal (.cluster c) vpn) s = .next s)
  ∧ (∀ (s : State) (d : StackId) (vpn : Nat),
    (s.baseDies[d].cache = [] → exec (.leaseRenewal (.stack d) vpn) s = .next s)
    ∧ (∀ (e : QTlbEntry) (w : QWalk), s.baseDies[d].cache = [e] → e.qpage = vpn →
      (∃ q ∈ s.queries, q.part = e.part ∧ ∃ x ∈ q.subs, x.done = false ∧ x.qpage = vpn) →
      (s.dieTime d < e.ts + 3 * (e.expiry - e.ts) / 4 → exec (.leaseRenewal (.stack d) vpn) s = .next s)
      ∧ (e.ts + 3 * (e.expiry - e.ts) / 4 ≤ s.dieTime d → qWalk s e.part (s.dieTime d) vpn = .ok w →
        (BitVec.ofNat 64 w.pte = e.pte → exec (.leaseRenewal (.stack d) vpn) s = .next (qWalkCached s e.part vpn).1)
        ∧ (BitVec.ofNat 64 w.pte ≠ e.pte → exec (.leaseRenewal (.stack d) vpn) s = .next (qWalkMarked s e.part vpn).1))))
  ∧ (∀ (s : State), (s.time.toNat % 1000 ≠ 0 → exec .timeBeacon s = .next s)
    ∧ (s.time.toNat % 1000 = 0 → ∃ t, exec .timeBeacon s = .next t ∧ SameBytes s t ∧ t.time = s.time ∧ t.users = []
    ∧ (∀ (ag : XAgent) (f : FuncId) (ctx : BitVec 16), (ag, f, ctx) ∈ s.users → (skewOf s ag).1 < -1 →
        ∀ k u, (s.thr k u).isCtx f ctx = true → (t.thr k u).skewFault ≠ none)
    ∧ (∀ k : CoreId, let d := (s.core k).skew
        (-1 ≤ d → d ≤ 1 → (t.core k).skew = d ∧ (t.core k).scalarTlb = (s.core k).scalarTlb ∧ (t.core k).vectorTlb = (s.core k).vectorTlb)
        ∧ (d < -1 ∨ 1 < d → (t.core k).skew = 0 ∧ (t.core k).scalarTlb = [] ∧ (t.core k).vectorTlb = [] ∧ (t.core k).gatherTlb = [])
        ∧ (d < -1 → ∀ (i : Nat) (x : CopyCmd), (s.core k).copies[i]? = some x → x.pages ≠ [] → (.core k, x.part, x.ctx) ∈ s.users →
            ∃ y, (t.core k).copies[i]? = some y ∧ y.id = x.id ∧ y.skew ≠ none))
    ∧ (∀ c : ClusterId, let d := s.clusters[c].skew
        (-1 ≤ d → d ≤ 1 → t.clusters[c] = s.clusters[c]) ∧ (d < -1 ∨ 1 < d → t.clusters[c].skew = 0 ∧ t.clusters[c].tlb = [] ∧ t.clusters[c].walks = []))
    ∧ (∀ k : EngineId, let d := s.engines[k].skew
        (-1 ≤ d → d ≤ 1 → t.engines[k] = s.engines[k]) ∧ (1 < d → t.engines[k] = { s.engines[k] with tlb := [], skew := 0 })
        ∧ (d < -1 → t.engines[k].tlb = [] ∧ t.engines[k].skew = 0 ∧ t.engines[k].chain = s.engines[k].chain
          ∧ ∀ r, s.engines[k].running = some r → ∃ q, t.engines[k].running = some q ∧ q.flight.length = r.flight.length
            ∧ ∀ (i : Nat) (x : EngCmd), r.flight[i]? = some x → x.pages ≠ [] → ∃ y, q.flight[i]? = some y ∧ y.addr = x.addr ∧ y.skew = some d))
    ∧ (∀ c : StackId, let d := s.baseDies[c].skew
        (-1 ≤ d → d ≤ 1 → t.baseDies[c] = s.baseDies[c]) ∧ (d < -1 ∨ 1 < d → t.baseDies[c].skew = 0 ∧ t.baseDies[c].cache = []))))

/-! ## Registers, windows and partitions (spec 10, 17, 18, 19) -/

/-- R69, R202, R352 to R354: software's writes of le and ls, with the loop-state trap while a loop is active; of tfbuf, whose en stays 0
where the buffer leaves the general region; of a counter's configuration and count; and a sample of the trace unit,
which is taken once counter 6 has crossed a multiple of its period. -/
def Obligations.ControlWrites : Prop :=
  (∀ (s : State) (k : CoreId) (u : Tid) (v : Word),
    let th := s.thr k u
    let active := th.le ≠ 0 ∧ th.loopOff = false
    let b := (v.toNat / 32) % 2 ^ 17
    let fb (t : TrapSet) : TrapSet := { t with fbBase := BitVec.ofNat 17 b, fbEn := v.getLsbD 0 && decide (b * 32 + 544 ≤ 0x380000) }
    (v = 0 → exec (.leWrite k u v) s = .next (s.modThr k u (fun x => { x with le := 0 })))
    ∧ (v ≠ 0 → active → exec (.leWrite k u v) s = .next (s.trapThr k u (mkTrap 0x0F v 0) th.pc))
    ∧ (v ≠ 0 → ¬ active → exec (.leWrite k u v) s = .next (s.modThr k u (fun x => { x with le := v, loopOff := false })))
    ∧ (active → exec (.lsWrite k u v) s = .next (s.trapThr k u (mkTrap 0x0F v 0) th.pc))
    ∧ (¬ active → exec (.lsWrite k u v) s = .next (s.modThr k u (fun x => { x with ls := v })))
    ∧ (th.priv = .hyper → exec (.tfbufWrite k u v) s = .next (s.modThr k u (fun x => { x with htrap := fb x.htrap })))
    ∧ (th.priv ≠ .hyper → exec (.tfbufWrite k u v) s = .next (s.modThr k u (fun x => { x with ktrap := fb x.ktrap }))))
  ∧ (∀ (s : State) (k : CoreId) (n : Fin 8) (v : Word),
    let c := s.core k
    let ev := v.toNat % 256
    let ignored := c.bank = .hyper ∨ 14 < ev ∨ (ev = 14 ∧ n ≠ 7)
    (ignored → exec (.counterConfigure k n v) s = .next (s.modCore k (fun c => c)))
    ∧ (¬ ignored → exec (.counterConfigure k n v) s = .next (s.modCore k (fun c => { c with
        counters := c.counters.set n ⟨0, c.counters[n].displaced, BitVec.ofNat 8 ev, BitVec.ofNat 2 (v.toNat / 256),
          if n = 6 then BitVec.ofNat 4 (v.toNat / 1024) else c.counters[n].shift, 0⟩
        bank := .guest, trace := if ev = 14 ∧ c.trace = .free then .guest else c.trace })))
    ∧ exec (.counterCountWrite k n v) s = .next (s.modCore k (fun c => { c with
        counters := c.counters.set n { c.counters[n] with count := BitVec.ofNat 63 v.toNat, displaced := false } })))
  ∧ (∀ (s : State) (k : CoreId),
    let c := s.core k
    let on := c.counters[7].event = 14 ∧ c.trace = .guest
    let due := c.counters[6].samples ≠ 0
    let s1 := s.modCore k (fun c => { c with counters := c.counters.set 6 { c.counters[6] with samples := c.counters[6].samples - 1 } })
    (¬ due → exec (.counterSample k) s = .next s)
    ∧ (due → ¬ on → exec (.counterSample k) s = .next s1)
    ∧ (due → on → c.counters[7].filter = 1 → (s.thr k 0).task = none → exec (.counterSample k) s = .next s1)
    ∧ (due → on → c.counters[7].filter = 1 → (s.thr k 0).task ≠ none →
      let slot := c.ring.seq.toNat % 2 ^ (c.ring.size + 6)
      let at_ := c.ring.base + 32 * slot
      ((s.thr k 0).cbit = false → exec (.counterSample k) s = .next (s1.modCore k (fun c => c.count 12 0 1)))
      ∧ ((s.thr k 0).cbit = true → at_ + 32 ≤ 0x18000000000 →
        ∃ t, exec (.counterSample k) s = .next t ∧ (t.core k).ring = { c.ring with seq := c.ring.seq + 1 } ∧ (∀ j u, t.thr j u = s.thr j u)
          ∧ Mem.num t.wm at_ 8 = s.coreTime k % 2 ^ 64 ∧ Mem.num t.wm (at_ + 8) 8 = (s.thr k 0).pc.toNat
          ∧ Mem.num t.wm (at_ + 16) 8 = (s.thr k 0).vstart.toNat ∧ Mem.num t.wm (at_ + 24) 1 = 2 ∧ Mem.num t.wm (at_ + 25) 1 = 2
          ∧ Mem.num t.wm (at_ + 26) 2 = (s.thr k 0).ctxOf.toNat ∧ Mem.num t.wm (at_ + 28) 4 = c.ring.seq.toNat % 2 ^ 32
          ∧ ∀ p, (∀ i, i < 32 → p ≠ .wm (at_ + i)) → t.byteAt p = s.byteAt p)))

/-- R3, R324 to R326, R331, R332, R303: a host-side write of a window register acts at the level that the register asks for and does nothing
from below it or off a register's address; the plain registers of a partition read back what was written of their fields; a doorbell's tail
never passes the ring's size beyond the head; XYIELD asks the tasks of its partition on the named core to yield. -/
def Obligations.WindowRegisters : Prop :=
  (∀ (s : State) (f : FuncId) (off : BitVec 16) (v : Word) (lv : Priv),
    let may := off.toNat % 8 = 0 ∧ (f = 0 ∨ s.boot.minimal = false) ∧ lv ≠ .user ∧ (f ≠ 0 ∨ lv = .hyper) ∧ ∃ l, (windowLevels f off.toNat).2 = some l ∧ l.le lv = true
    (¬ may → exec (.registerWrite f off v lv) s = .next s)
    ∧ (may → f ≠ 0 →
      let took (p : Part) : Prop := exec (.registerWrite f off v lv) s = .next (s.modPart f (fun _ => p))
      let q := s.part f
      (off = 0x00 → took { q with xastb := v &&& 0x000FFFFFFFF80000#64 })
      ∧ (off = 0x08 → lv = .hyper ∧ took { q with xs2ctl := v &&& 0xE00FFFFFFFFF0001#64 })
      ∧ (off = 0x10 → took { q with xqtb := v &&& 0x000FFFFFFFFE0001#64 })
      ∧ (off = 0x18 → lv = .hyper ∧ took { q with xslice := BitVec.ofNat 32 v.toNat })
      ∧ (off = 0x30 → took { q with xmova := v &&& 0x000FFFFFFFFFFFC0#64 })
      ∧ (off = 0x40 → lv = .hyper ∧ took { q with ncores := BitVec.ofNat 9 v.toNat, gpos := BitVec.ofNat 6 (v.toNat / 2 ^ 9), gsize := BitVec.ofNat 7 (v.toNat / 2 ^ 15) })
      ∧ (off = 0x48 → lv = .hyper ∧ took { q with xxbar := v })
      ∧ (off = 0x60 → took { q with xsubb := v &&& 0x00FFFFFFFFFFF000#64 })
      ∧ (off = 0x78 → took { q with xpri := BitVec.ofNat 32 v.toNat })
      ∧ (off = 0x38 → exec (.registerWrite f off v lv) s = exec (.xyieldWrite f v) s)
      ∧ (off = 0x68 → exec (.registerWrite f off v lv) s = exec (.submissionDoorbell f (BitVec.ofNat 32 v.toNat)) s)
      ∧ (off = 0x20 → v = 1 → exec (.registerWrite f off v lv) s = exec (.partitionHalt f) s)
      ∧ (off = 0x20 → v = 2 → exec (.registerWrite f off v lv) s = exec (.partitionResume f) s)
      ∧ (off = 0x20 → v = 0 → exec (.registerWrite f off v lv) s = .next s)))
  ∧ (∀ (s : State) (f : FuncId) (tail : Word32),
    (f = 0 ∨ s.boot.minimal = true → exec (.submissionDoorbell f tail) s = .next s)
    ∧ (f ≠ 0 → s.boot.minimal = false →
      let p := s.part f
      let n := 2 ^ (p.xsubb.toNat / 2 ^ 52 % 16 + 6)
      let last := if n < (tail - p.xsubh).toNat then p.xsubh + BitVec.ofNat 32 n else tail
      ((∀ x ∈ s.inbound, x.fn = f → x.relaxed = true) →
        exec (.submissionDoorbell f tail) s = .next (s.modPart f (fun p => { p with xsubt := last })))
      ∧ (∀ x, s.inbound = [x] → x.fn = f → x.relaxed = false → x.pa + x.bytes.length ≤ 0x18000000000 →
        ∃ t, exec (.submissionDoorbell f tail) s = .next t ∧ (t.part f).xsubt = last ∧ t.inbound = [] ∧ Mem.bytes t.wm x.pa x.bytes.length = x.bytes
          ∧ ∀ q, (∀ j, j < x.bytes.length → q ≠ .wm (x.pa + j)) → t.byteAt q = s.byteAt q)))
  ∧ (∀ (s : State) (f : FuncId) (v : Word),
    ((s.part f).physical (v.toNat % 512) = none → exec (.xyieldWrite f v) s = .next s)
    ∧ (∀ k, (s.part f).physical (v.toNat % 512) = some k →
      ∃ t, exec (.xyieldWrite f v) s = .next t ∧ SameBytes s t ∧ (∀ j, j ≠ k → t.core j = s.core j)
        ∧ ∀ u : Tid, t.thr k u = (if v.getLsbD (9 + u.val) = true ∧ (∃ x, (s.thr k u).task = some x ∧ x.part = f) then { s.thr k u with yreq := true } else s.thr k u)))

/-- R320, R321, R375, R318, R328, R330: a partition halt puts the context of each of its cores into the core's hamper and vacates it, and a
resumption puts it back; the exchange and a move each complete; a move with nothing to move is refused, and one done moves a context's image
out of the hamper and in again; a reset clears the partition's cores, launches and queries and zeroes its channels, and ends with its scrub. -/
def Obligations.PartitionControl : Prop :=
  (∀ (s : State) (f : FuncId) (k : CoreId), (s.part f).halt = 0 → coresOf (s.part f) = [k] → (s.core k).hamper = ⟨none, []⟩ → (s.core k).copies = [] →
    (s.core k).mat.pendReissue = none → s.accepting k 0 = none → s.accepting k 1 = none →
    ∃ (t : State) (img : FullImage), exec (.partitionHalt f) s = .next t ∧ SameBytes s t ∧ (t.part f).halt = 1
      ∧ (t.part f).haltNext = (if (s.core k).threads.any (fun x => x.task.isSome) then 2 else 3)
      ∧ (t.core k).hamper = ⟨some img, []⟩ ∧ img.copies = [] ∧ img.mat = (s.core k).mat.saved
      ∧ img.threads = (s.core k).threads.map Thread.unissued ∧ img.bad = []
      ∧ (∀ u : Tid, (t.thr k u).task = none) ∧ (t.core k).mat = MatUnit.reset ∧ (∀ j, j ≠ k → t.core j = s.core j))
  ∧ (∀ (s : State) (f : FuncId), (s.part f).halt ≠ 0 → exec (.partitionHalt f) s = .next s)
  ∧ (∀ (s : State) (f : FuncId), (s.part f).halt.val < 2 → exec (.partitionResume f) s = .next s)
  ∧ (∀ (s : State) (f : FuncId) (k : CoreId) (img : FullImage), 2 ≤ (s.part f).halt.val → coresOf (s.part f) = [k] → (s.core k).hamper = ⟨some img, []⟩ →
    img.copies = [] → img.bad = [] →
    ∃ t, exec (.partitionResume f) s = .next t ∧ SameBytes s t ∧ (t.part f).halt = 1 ∧ (t.part f).haltNext = 0 ∧ (t.core k).threads = img.threads.map (fun x => { x with asked := none })
      ∧ (t.core k).vec = img.vec ∧ (t.core k).mat = img.mat ∧ (t.core k).hamper = ⟨none, []⟩)
  ∧ (∀ (s : State) (f : FuncId),
    let p := s.part f
    (p.halt = 0 → exec (.partitionHalt f) s = .next (haltPartition s f))
    ∧ (p.halt ≠ 1 → exec (.hamperExchangeComplete f) s = .next s)
    ∧ (p.halt = 1 → p.haltNext = 1 → exec (.hamperExchangeComplete f) s = .next (haltPartition s f))
    ∧ (p.halt = 1 → p.haltNext ≠ 1 → exec (.hamperExchangeComplete f) s = .next (s.modPart f (fun p => { p with halt := p.haltNext })))
    ∧ (p.movStat ≠ 1 → exec (.contextMoveComplete f) s = .next s)
    ∧ (p.movStat = 1 → p.movWait = false → exec (.contextMoveComplete f) s = .next (s.modPart f (fun p => { p with movStat := 2, movOp := 0 })))
    ∧ (p.movStat = 1 → p.movWait = true → exec (.contextMoveComplete f) s = .next (retryMove s f))
    ∧ (p.movStat = 1 → exec (.moveOut f) s = .next s ∧ exec (.moveIn f) s = .next s)
    ∧ (p.movStat ≠ 1 → p.physical p.movCore.toNat = none →
      exec (.moveOut f) s = .next (s.modPart f (fun p => { p with movOp := 1, movStat := 3, movWait := false }))
      ∧ exec (.moveIn f) s = .next (s.modPart f (fun p => { p with movOp := 2, movStat := 3, movWait := false })))
    ∧ (∀ k, p.movStat ≠ 1 → p.physical p.movCore.toNat = some k →
      let area (s : State) (acc : AccKind) := areaPages s (.vector k) ⟨f, 0, .kernel, 0⟩ acc true [] p.xmova.toNat (0x24000 / 4096 + 2) 0x24000
      let stops (i : Instr) (s1 : State) (e : XFail × Word) : Prop :=
        (∀ page, e.1 = .absent page → (s1.part f).refusing ≠ some page →
          exec i s = .next ((requestPage s1 f page).modPart f (fun p => { p with movStat := 1, movWait := true })))
        ∧ (∀ page, e.1 = .absent page → (s1.part f).refusing = some page → exec i s = .next (s1.modPart f (fun p => { p with movStat := 3, movWait := false })))
        ∧ ((∀ page, e.1 ≠ .absent page) → exec i s = .next (s1.modPart f (fun p => { p with movStat := 3, movWait := false })))
      let so := s.modPart f (fun p => { p with movOp := 1 })
      let si := s.modPart f (fun p => { p with movOp := 2 })
      ((∀ i ∈ (s.core k).hamper.images, i.thread.isCtx f p.movCtx = false) →
        exec (.moveOut f) s = .next (s.modPart f (fun p => { p with movOp := 1, movStat := 3, movWait := false })))
      ∧ (∀ (s1 : State) (i : ThreadImage), (s.core k).hamper.images = [i] → i.thread.isCtx f p.movCtx = true → i.tooWide = false →
        (s.core k).allocsOf f i.thread.launchOf = [] →
        (∀ e, area so .store = (s1, .error e) → stops (.moveOut f) s1 e)
        ∧ (∀ pgs, area so .store = (s1, .ok pgs) → s1.part f = so.part f → (s1.core k).hamper = (s.core k).hamper →
          ∃ t, exec (.moveOut f) s = .next t ∧ (t.part f).movStat = 1 ∧ (t.part f).movWait = false ∧ (t.part f).movOp = 1 ∧ (t.core k).hamper.images = []
            ∧ ∀ q, (∀ a, q ≠ .wm a ∧ q ≠ .host a ∧ ∀ pos, q ≠ .peer pos a) → t.byteAt q = s1.byteAt q))
      ∧ (s.holdsCtx f p.movCtx = true → exec (.moveIn f) s = .next (s.modPart f (fun p => { p with movOp := 2, movStat := 3, movWait := false })))
      ∧ (∀ (s1 : State), s.holdsCtx f p.movCtx = false →
        (∀ e, area si .load = (s1, .error e) → stops (.moveIn f) s1 e)
        ∧ (∀ (s2 s3 : State) (bs : List Byte) (i : ThreadImage) (pgs pgs' : List UsedPage), area si .load = (s1, .ok pgs) →
          areaRead s1 (.vector k) ⟨f, 0, .kernel, 0⟩ p.xmova.toNat (0x24000 / 16) 0 = (s2, bs, []) →
          imageOf s2 k f p.movCtx ((bs.zipIdx.filter (fun x => x.1 != 0)).map (fun x => (x.2, x.1))) = some i →
          (∀ la, s2.launch f i.thread.launchOf = some la → la.allocs = []) → area s2 .load = (s3, .ok pgs') →
          ((7 ≤ (s3.core k).hamper.images.length ∨ (s3.core k).hamper.full ≠ none) →
            exec (.moveIn f) s = .next (s3.modPart f (fun p => { p with movStat := 1, movWait := true })))
          ∧ ((s3.core k).hamper.images.length < 7 → (s3.core k).hamper.full = none →
            ∃ t, exec (.moveIn f) s = .next t ∧ (t.part f).movStat = 1 ∧ (t.part f).movWait = false
              ∧ (t.core k).hamper.images = (s3.core k).hamper.images ++ [{ i with bad := [] }]
              ∧ (t.core k).residents = (s3.core k).residents.filter (fun r => !(r.part == f && r.launch == i.thread.launchOf)) ++ [⟨f, i.thread.launchOf, []⟩]
              ∧ SameBytes s3 t)))))
  ∧ (∀ (s : State) (f : FuncId),
    ((s.part f).resetSt = .scrubbing → exec (.partitionReset f) s = .next s
      ∧ exec (.scrubComplete f) s = .next (s.modPart f (fun p => { p with resetSt := .done })))
    ∧ ((s.part f).resetSt ≠ .scrubbing → exec (.scrubComplete f) s = .next s)
    ∧ (f = 0 → exec (.functionLevelReset f) s = .next s) ∧ (f ≠ 0 → exec (.functionLevelReset f) s = exec (.partitionReset f) s)
    ∧ ((s.part f).resetSt ≠ .scrubbing → (s.part f).resetSt ≠ .resetting → (s.part f).xqtb.getLsbD 0 = false → (∀ q ∈ s.queries, q.part ≠ f) →
      ∃ t, exec (.partitionReset f) s = .next t ∧ (t.part f).resetSt = .scrubbing ∧ (t.part f).gen = (s.part f).gen + 1 ∧ (t.part f).xastb = 0
        ∧ (∀ l ∈ t.disp.launches, l.part ≠ f) ∧ (∀ o ∈ t.pageOps, o.part ≠ f)
        ∧ (∀ k ∈ coresOf (s.part f), (t.core k) = { Core.reset with skew := (s.core k).skew }
            ∧ ∀ a, k.val * 0x100000000 ≤ a → a < (k.val + 1) * 0x100000000 → Mem.get t.wm a = 0)
        ∧ (∀ k, k ∉ coresOf (s.part f) → (t.core k).spad = (s.core k).spad ∧ ∀ a, k.val * 0x100000000 ≤ a → a < (k.val + 1) * 0x100000000 → Mem.get t.wm a = Mem.get s.wm a)
        ∧ t.host = s.host ∧ t.qmem = s.qmem))

/-- R331 to R333: the oldest entry of a function's submission chain is performed, its result written to the entry and the head advanced: a
launch as tlaunch would, a halt or resumption as a register write would (log 34); a malformed entry is refused; and a page request response
ends its group: the page is present again, or the thread that waits for it learns of the refusal; a response for no group is counted. -/
def Obligations.Submission : Prop :=
  (∀ (s : State) (f : FuncId) (i : Instr) (kind : Nat),
    (i, kind) ∈ [(.submitLaunch f, 1), (.submitGangLaunch f, 2), (.submitPartitionHalt f, 3), (.submitPartitionResume f, 4)] →
    let rd (pa o n : Nat) : Nat := Mem.num s.wm (pa + o) n
    ((s.part f).xsubt = (s.part f).xsubh → exec i s = .next s)
    ∧ (∀ pa, entryAt s f = some pa →
      let fine := 1 ≤ rd pa 0 1 ∧ rd pa 0 1 ≤ 4 ∧ rd pa 1 7 = 0 ∧ rd pa 32 32 = 0
      let done (t : State) : Prop := (t.part f).xsubh = (s.part f).xsubh + 1
      (¬ fine → ∃ t, exec i s = .next t ∧ done t ∧ Mem.num t.wm (pa + 24) 8 = 0x8000000000000001
        ∧ ∀ p, (∀ j, j < 8 → p ≠ .wm (pa + 24 + j)) → t.byteAt p = s.byteAt p)
      ∧ (fine → rd pa 0 1 ≠ kind → exec i s = .next s)
      ∧ (fine → rd pa 0 1 = kind → kind ≤ 2 → (s.part f).resetSt ≠ .resetting → (s.part f).resetSt ≠ .scrubbing → rd pa 8 8 % 64 ≠ 0 →
        (coresOf (s.part f)).eraseDups.length = (coresOf (s.part f)).length → (kind = 2 → ∀ g ∈ s.disp.gangs, g.own = none) →
        ∃ t, exec i s = .next t ∧ done t ∧ Mem.num t.wm (pa + 24) 8 = 0x8000000000000001
          ∧ ∀ p, (∀ j, j < 8 → p ≠ .wm (pa + 24 + j)) → t.byteAt p = s.byteAt p)
      ∧ (∀ (s1 : State) (l : Launch) (gm : Nat), fine → rd pa 0 1 = kind → kind = 1 →
        checkLaunch s (schedUnit s f) ⟨f, 0, .kernel, 0⟩ (BitVec.ofNat 64 (rd pa 8 8)) false = (s1, .ok (l, gm)) → s1.part f = s.part f → s1.time = s.time →
        ∃ (t : State) (n : BitVec 16), exec i s = .next t ∧ done t ∧ Mem.num t.wm (pa + 24) 8 = n.toNat
          ∧ t.disp.launches = s1.disp.launches ++ [{ l with num := n, start := max (rd pa 16 8) s.time.toNat }]
          ∧ ∀ p, (∀ j, j < 8 → p ≠ .wm (pa + 24 + j)) → t.byteAt p = s1.byteAt p)
      ∧ (∀ (s1 : State) (page : Nat), fine → rd pa 0 1 = kind → kind = 1 →
        checkLaunch s (schedUnit s f) ⟨f, 0, .kernel, 0⟩ (BitVec.ofNat 64 (rd pa 8 8)) false = (s1, .error (.absent page)) →
        ((s1.part f).refusing ≠ some page → exec i s = .next (requestPage s1 f page))
        ∧ ((s1.part f).refusing = some page → ∃ t, exec i s = .next t ∧ (t.part f).xsubh = (s1.part f).xsubh + 1
            ∧ Mem.num t.wm (pa + 24) 8 = 0x8000000000000007))
      ∧ (∀ (s1 : State) (l : Launch) (gm : Nat), fine → rd pa 0 1 = kind → kind = 2 → (∀ g ∈ s.disp.gangs, g.own = none) →
        checkLaunch s (schedUnit s f) ⟨f, 0, .kernel, 0⟩ (BitVec.ofNat 64 (rd pa 8 8)) true = (s1, .ok (l, gm)) → s1.part f = s.part f → s1.time = s.time →
        s1.gang l.gtag = none → 1 < gm →
        ∃ (t : State) (g : GangRec), exec i s = .next t ∧ (t.part f).xsubh = (s.part f).xsubh ∧ t.gang l.gtag = some g
          ∧ g.own = some (max (rd pa 16 8) s.time.toNat) ∧ g.launch = some l ∧ g.result = none)
      ∧ (fine → rd pa 0 1 = kind → kind = 3 → (s.part f).halt ≠ 0 → ∃ t, exec i s = .next t ∧ done t ∧ (t.part f).halt = (s.part f).halt
          ∧ ∀ p, (∀ j, j < 8 → p ≠ .wm (pa + 24 + j)) → t.byteAt p = s.byteAt p)
      ∧ (fine → rd pa 0 1 = kind → kind = 3 → (s.part f).halt = 0 → coresOf (s.part f) = [] → ∃ t, exec i s = .next t ∧ done t ∧ (t.part f).halt = 1)
      ∧ (fine → rd pa 0 1 = kind → kind = 4 → 2 ≤ (s.part f).halt.val → coresOf (s.part f) = [] → ∃ t, exec i s = .next t ∧ done t ∧ (t.part f).halt = 1
          ∧ (t.part f).haltNext = 0)))
  ∧ (∀ (s : State) (f : FuncId) (grp : Fin 32) (gen : BitVec 4) (ok : Bool),
    (gen ≠ (s.part f).gen ∨ (∀ g ∈ (s.part f).groups, g.index ≠ grp) →
      exec (.pageRequestResponse f grp gen ok) s = .next (s.modPart f (fun p => { p with xpri := if p.xpri = 0xFFFFFFFF#32 then p.xpri else p.xpri + 1 })))
    ∧ (∀ g, gen = (s.part f).gen → (s.part f).groups.find? (fun x => x.index == grp) = some g →
      (∀ (k : CoreId) (u : Tid) (q : Nat) (b : Bool), (s.thr k u).wait = .hostPage q b → (s.thr k u).partOf 0 = f → q = g.page) → (∀ a ∈ s.disp.owed, a.part ≠ f) →
      let told (x : Thread) : Prop := x.partOf 0 = f ∧ (x.wait = .hostPage g.page false ∨ x.wait = .hostPage g.page true ∨ x.asked = some g.page)
      let ends (t : State) : Prop := SameBytes s t ∧ (t.part f).groups = (s.part f).groups.filter (fun x => x.index != grp)
      (ok = true → ∃ t, exec (.pageRequestResponse f grp gen ok) s = .next t ∧ ends t ∧ t.hostAbsent = NatSet.del s.hostAbsent g.page
        ∧ ∀ k u, (told (s.thr k u) → t.thr k u = { s.thr k u with asked := none }) ∧ (¬ told (s.thr k u) → t.thr k u = s.thr k u))
      ∧ (ok = false → (∀ k : CoreId, (s.core k).copies = [] ∧ s.engines[k].chain = []) → (∀ q ∈ s.queries, q.part ≠ f) → (∀ o ∈ s.pageOps, o.part ≠ f) →
        (s.part f).xsubt = (s.part f).xsubh → (s.part f).halt ≠ 1 → ¬ ((s.part f).movStat = 1 ∧ (s.part f).movWait = true) →
        ∃ t, exec (.pageRequestResponse f grp gen ok) s = .next t ∧ ends t ∧ t.hostAbsent = s.hostAbsent
          ∧ ∀ k u, (told (s.thr k u) → t.thr k u = { s.thr k u with asked := none, answered := (s.thr k u).answered ++ [(g.page, false)] })
            ∧ (¬ told (s.thr k u) → t.thr k u = s.thr k u))))

/-! ## Reliability, debug, start-up, outside (spec 18, 19, 08) -/

/-- R346 to R350, R353: claims and releases of the counters and the trace unit; halt and resume requests; a trigger that matches halts the
core before the instruction; and every abstract command moves the data of its kind between the core and DDATA, on a halted core whose
partition has debug enabled, with the error code of the first rule broken otherwise. -/
def Obligations.DebugCommands : Prop :=
  (∀ (s : State) (k : CoreId) (b t : Bool),
    (∃ u, exec (.hypervisorClaim k b t) s = .next u ∧ (b = true → (u.core k).bank = .hyper ∧ (∀ n : Fin 8, (u.core k).counters[n].count = (s.core k).counters[n].count
        ∧ ((s.core k).bank = .guest → (u.core k).counters[n].displaced = true)))
      ∧ (t = true → (u.core k).trace = .hyper) ∧ (b = false → (u.core k).bank = (s.core k).bank) ∧ (t = false → (u.core k).trace = (s.core k).trace)
      ∧ (u.core k).threads = (s.core k).threads ∧ SameBytes s u)
    ∧ (∃ u, exec (.hypervisorRelease k b t) s = .next u ∧ (b = true → (u.core k).bank ≠ .hyper) ∧ (t = true → (u.core k).trace ≠ .hyper)
      ∧ (u.core k).counters = (s.core k).counters ∧ (u.core k).threads = (s.core k).threads ∧ SameBytes s u))
  ∧ (∀ (s : State) (k : CoreId),
    let on := (s.part (s.corePart k)).debugOn = true
    let stopped (t : State) (why : BitVec 3) : Prop := (t.core k).halted = true ∧ ∀ u : Tid, (t.thr k u).dcause = why ∧ (t.thr k u).wait = .none
      ∧ (t.thr k u).delem = (s.thr k u).vstart.zeroExtend 64 ∧ (t.thr k u).sregs = (s.thr k u).sregs ∧ (t.thr k u).ktrap = (s.thr k u).ktrap
      ∧ (t.thr k u).dpc = (s.thr k u).pc
    let err (e : Fin 8) : State := { s with dbg := { s.dbg with cmderr := e } }
    (¬ on → exec (.debugHaltRequest k) s = .next (err 2) ∧ exec (.debugResumeRequest k) s = .next (err 2))
    ∧ (on → (s.core k).halted = true → exec (.debugHaltRequest k) s = .next s)
    ∧ (on → (s.core k).halted = false → (∃ t, exec (.debugHaltRequest k) s = .next t ∧ stopped t 1) ∧ exec (.debugResumeRequest k) s = .next s)
    ∧ (on → (s.core k).halted = true → exec (.debugResumeRequest k) s
        = .next (s.modCore k (fun c => { c with halted := false, threads := c.threads.map (fun t => { t with pc := t.dpc, frame := if t.pc = t.dpc then t.frame else [] }) })))
    ∧ (∀ (u : Tid) (n : Fin 4),
      let x := (s.core k).triggers[n]
      let th := s.thr k u
      let hit := x.control.getLsbD 0 = true ∧ x.addr = th.pc ∧ (x.control.getLsbD 13 = true → x.control.toNat / 2 % 4096 = th.vstart.toNat)
      let passed := th.dcause = 3 ∧ th.dpc = th.pc ∧ (x.control.getLsbD 13 = true → th.delem = th.vstart.zeroExtend 64)
      ((s.core k).halted = false → hit → ¬ passed → ∃ t, exec (.triggerHit k u n) s = .next t ∧ stopped t 3)
      ∧ ((s.core k).halted = true ∨ ¬ hit ∨ passed → exec (.triggerHit k u n) s = .next s)))
  ∧ (∀ (s : State) (i : Instr) (ty : Nat),
    (i, ty) ∈ [(.abstractRegister, 0), (.abstractMemory, 1), (.abstractElementRange, 2), (.abstractGranule, 3), (.abstractAccumulatorRow, 4)] →
    let cmd := s.dbg.dcmd.toNat
    let arg := cmd % 2 ^ 22
    let err (e : Fin 8) : State := { s with dbg := { s.dbg with cmderr := e } }
    (cmd / 2 ^ 24 ≠ ty → exec i s = .next s)
    ∧ (cmd / 2 ^ 24 = ty → 384 ≤ s.dbg.core.toNat → exec i s = .next (err 6))
    ∧ (∀ k : CoreId, cmd / 2 ^ 24 = ty → s.dbg.core.toNat = k.val →
      let u := s.dbg.thread
      let v := s.dbg.ddata[(0 : Fin 4)]
      let w := s.dbg.dcmd.getLsbD 23 = true
      let got (x : Nat) (n : Nat) (adv : Bool) : Prop := ∃ t, exec i s = .next t ∧ t.dbg.ddata[(0 : Fin 4)] = BitVec.ofNat 64 x ∧ SameBytes s t
        ∧ t.dbg.daddr = (if adv ∧ s.dbg.dcmd.getLsbD 22 = true then s.dbg.daddr + BitVec.ofNat 64 n else s.dbg.daddr)
      let put (f : State → Prop) : Prop := ∃ t, exec i s = .next t ∧ f t ∧ t.dbg.cmderr = s.dbg.cmderr
      ((s.part (s.corePart k)).debugOn = false → exec i s = .next (err 2))
      ∧ ((s.part (s.corePart k)).debugOn = true → ty ≠ 1 → (s.core k).halted = false → exec i s = .next (err 4))
      ∧ ((s.part (s.corePart k)).debugOn = true → (s.core k).halted = true →
        (∀ r : SReg, ty = 0 → arg = 0x1000 + r.val →
          (¬ w → got ((s.thr k u).sreg r).toNat 0 false) ∧ (w → put (fun t => (t.thr k u).sreg r = (if r = 0 then 0 else v) ∧ SameBytes s t)))
        ∧ (ty = 0 → arg = 0x2000 → (¬ w → got (s.thr k u).dpc.toNat 0 false) ∧ (w → put (fun t => (t.thr k u).dpc = v)))
        ∧ (∀ a, ty = 1 → arg = 7 → s.dbg.daddr.toNat = a → a % 8 = 0 → a + 8 ≤ 0x18000000000 → NatSet.has s.wmPoison (a / 16) = false →
          (¬ w → got (Mem.num s.wm a 8) 8 true)
          ∧ (w → put (fun t => Mem.num t.wm a 8 = v.toNat ∧ ∀ p, (∀ j, j < 8 → p ≠ .wm (a + j)) → t.byteAt p = s.byteAt p)))
        ∧ (∀ r : VReg, ty = 2 → arg % 64 = r.val → arg < 2 ^ 15 →
          (¬ w → ∃ t, exec i s = .next t ∧ t.dbg.ddata[(0 : Fin 4)] = BitVec.ofNat 64 (elemGet (s.core k).vec.regs[r].bits 64 (arg / 64)))
          ∧ (w → put (fun t => elemGet (t.core k).vec.regs[r].bits 64 (arg / 64) = v.toNat)))
        ∧ (∀ a, ty = 3 → arg = 0 → s.dbg.daddr.toNat = a → a % 16 = 0 → a < 0x400000 → NatSet.has (s.core k).spadPoison (a / 16) = false →
          (¬ w → ∃ t, exec i s = .next t ∧ t.dbg.ddata[(0 : Fin 4)].toNat = Mem.num (s.core k).spad a 8 ∧ t.dbg.ddata[(1 : Fin 4)].toNat = Mem.num (s.core k).spad (a + 8) 8
            ∧ t.dbg.ddata[(2 : Fin 4)] = (if (s.core k).isFull (a / 16) then 1 else 0))
          ∧ (w → put (fun t => Mem.num (t.core k).spad a 8 = v.toNat ∧ Mem.num (t.core k).spad (a + 8) 8 = s.dbg.ddata[(1 : Fin 4)].toNat
              ∧ (t.core k).isFull (a / 16) = s.dbg.ddata[(2 : Fin 4)].getLsbD 0 ∧ ∀ p, (∀ j, j < 16 → p ≠ .spad k (a + j)) → t.byteAt p = s.byteAt p)))
        ∧ (∀ (q : Tile) (m : Fin 128) (x : Nat), ty = 4 → arg = q.val + 4 * m.val + 512 * x →
          (x < 64 → ¬ w → ∃ t, exec i s = .next t ∧ t.dbg.ddata[(0 : Fin 4)] = BitVec.ofNat 64 (((s.core k).mat.tiles[q].elem m (2 * x)) + ((s.core k).mat.tiles[q].elem m (2 * x + 1)) * 2 ^ 32))
          ∧ (x < 64 → w → put (fun t => (t.core k).mat.tiles[q].elem m (2 * x) = v.toNat % 2 ^ 32 ∧ (t.core k).mat.tiles[q].elem m (2 * x + 1) = v.toNat / 2 ^ 32))
          ∧ (x = 64 → w → put (fun t => (t.core k).mat.tiles[q].bound[m].toNat = v.toNat % 2 ^ 32 ∧ (t.core k).mat.tiles[q].max[m].toNat = v.toNat / 2 ^ 32))
          ∧ (65 < x → x < 128 → exec i s = .next (err 6))))))

/-- R340 to R345, R199, R16, R311: errors are logged in their bank, their poison placed, and by their severity counted, delivered to the
context, or fatal for the module; clearing a bank; a contained check at its thread's boundary; a link failure; a scrub; and the traps of an
illegal word and of a fetch that fails. -/
def Obligations.MachineChecks : Prop :=
  (∀ (s : State) (e : McEvent),
    let b := s.bank e.die e.bank
    let sev := match e.sev with | .corrected => 1 | .contained => 2 | .fatal => 3
    let counted := e.sev = .corrected ∧ e.kind = 1 ∧ 8 ≤ e.bank.val ∧ e.bank.val ≤ 13 ∧ e.addr ≠ none
    let page := if e.bank.val < 12 then (e.addr.getD 0).toNat / 0x10000 else (e.addr.getD 0).toNat
    let same (x : Corrected) : Bool := x.die == e.die && x.bank == e.bank && x.page == page
    let recent := ((s.corrected.find? same).elim [] (fun x => x.times)).filter (fun x => decide (s.time.toNat < x + 86400000000000))
    let once := ¬ counted ∨ recent.length < 15
    ∃ t, exec (.machineCheckLog e) s = .next t ∧ SameBytes s t
      ∧ (¬ counted → t.corrected = s.corrected)
      ∧ (counted → recent.length < 15 → t.corrected = s.corrected.filter (fun x => !same x) ++ [⟨e.die, e.bank, page, recent ++ [s.time.toNat]⟩])
      ∧ (counted → 15 ≤ recent.length → t.corrected = s.corrected.filter (fun x => !same x) ∧ (t.bank e.die e.bank).mcstat.getLsbD 0 = true
          ∧ (t.bank e.die e.bank).mcstat.getLsbD 3 = true)
      ∧ (once → b.mcstat.getLsbD 0 = false ∨ b.mcstat.toNat / 2 % 4 < sev →
          (t.bank e.die e.bank).mcstat.getLsbD 0 = true ∧ (t.bank e.die e.bank).mcstat.toNat / 2 % 4 = sev
          ∧ (t.bank e.die e.bank).mcstat.toNat / 2 ^ 8 % 256 = e.kind.toNat ∧ (t.bank e.die e.bank).mcstat.toNat / 2 ^ 32 % 256 = e.part.val
          ∧ (t.bank e.die e.bank).mcstat.toNat / 2 ^ 40 % 2 ^ 16 = e.ctx.toNat
          ∧ (t.bank e.die e.bank).mcstat.getLsbD 3 = b.mcstat.getLsbD 0 ∧ (t.bank e.die e.bank).mcaddr = e.addr.getD 0 ∧ (t.bank e.die e.bank).mcsynd = e.synd)
      ∧ (once → b.mcstat.getLsbD 0 = true → sev ≤ b.mcstat.toNat / 2 % 4 → (t.bank e.die e.bank).mcstat.getLsbD 3 = true
          ∧ (t.bank e.die e.bank).mcaddr = b.mcaddr ∧ (t.bank e.die e.bank).mcsynd = b.mcsynd)
      ∧ (∀ g, e.poison = .wm g → NatSet.has t.wmPoison g = true) ∧ (∀ g, e.poison = .query g → NatSet.has t.qPoison g = true)
      ∧ (∀ k g, e.poison = .spad k g → NatSet.has (t.core k).spadPoison g = true)
      ∧ (∀ k n g, e.poison = .slot k n g → g < 2048 → NatSet.has (t.core k).mat.slots[n].poison g = true)
      ∧ (∀ k g x, e.poison = .hamper k none g → (s.core k).hamper.full = some x → ∃ y, (t.core k).hamper.full = some y ∧ NatSet.has y.bad g = true)
      ∧ (∀ k j g x, e.poison = .hamper k (some j) g → (s.core k).hamper.images[j]? = some x →
          ∃ y, (t.core k).hamper.images[j]? = some y ∧ NatSet.has y.bad g = true)
      ∧ (∀ k p m, e.poison = .acc k p m → (t.core k).mat.tiles[p].bound[m] = 0x7F800000#32)
      ∧ (e.sev = .fatal → t.fatal = true) ∧ (e.sev ≠ .fatal → t.fatal = s.fatal ∧ t.boot = s.boot)
      ∧ (e.sev = .contained → ∀ u x, (s.thr e.core u).task = some x → x.part = e.part → x.ctx = e.ctx → (e.die, e.bank) ∈ (t.thr e.core u).checks)
      ∧ (e.sev = .fatal → s.boot.stage.val < 5 → t.boot.failures = s.boot.failures + 1 ∧ t.boot.lastReason = 3 ∧ t.boot.lastStage = s.boot.stage.val))
  ∧ (∀ (s : State) (d : DieId) (b : Fin 16), ∃ t, exec (.mcstatClear d b) s = .next t ∧ (t.bank d b).mcstat = (s.bank d b).mcstat &&& ~~~9#64
    ∧ (t.bank d b).mcaddr = (s.bank d b).mcaddr ∧ ∀ d' b', (d', b') ≠ (d, b) → t.bank d' b' = s.bank d' b')
  ∧ (∀ (s : State) (k : CoreId) (u : Tid),
    ((s.thr k u).checks = [] → exec (.containedMachineCheck k u) s = .next s)
    ∧ (s.occupied k u = true → exec (.containedMachineCheck k u) s = .next s)
    ∧ (∀ d b rest, (s.thr k u).checks = (d, b) :: rest → s.occupied k u = false → (∀ x, (s.core k).vec.block = some x → x.tid ≠ u ∨ x.stopped = true) →
      let s0 := s.modThr k u (fun x => { x with checks := rest })
      exec (.containedMachineCheck k u) s = .next (s0.trapThr k u { mkTrap 0x17 (BitVec.ofNat 64 (d.val + 8 * b.val)) 0 with stop := (s.thr k u).vstart != 0 } (s.thr k u).pc)))
  ∧ (∀ (s : State) (p : Fin 17), ∃ t, exec (.linkFailure p) s = .next t ∧ SameBytes s t ∧ p ∈ t.linksDown ∧ (∀ q, q ≠ p → (q ∈ t.linksDown ↔ q ∈ s.linksDown))
    ∧ t.fatal = true ∧ (t.bank (if h : p.val < 16 then ⟨p.val / 2, by omega⟩ else 0) 14).mcstat.getLsbD 0 = true)
  ∧ (∀ (s : State), ∃ t, exec .backgroundScrub s = .next t ∧ SameBytes s t ∧ t = { s with corrected := t.corrected }
    ∧ ∀ x, x ∈ t.corrected ↔ x.times ≠ [] ∧ ∃ y ∈ s.corrected, x = { y with times := y.times.filter (fun n => decide (s.time.toNat < n + 86400000000000)) })
  ∧ (∀ (s : State) (w : Word32), exec (.illegalInstruction w) s = .next (s.trap (mkTrap 0x01 (w.zeroExtend 64) 0)))
  ∧ (∀ (s s1 : State),
    (canonical s.cur.pc = false → exec .instructionFetchFault s = .next (s.trap (mkTrap 0x0C s.cur.pc 0)))
    ∧ (canonical s.cur.pc = true → s.cur.pc.toNat % 4 ≠ 0 → exec .instructionFetchFault s = .next (s.trap (mkTrap 0x03 s.cur.pc 0)))
    ∧ (canonical s.cur.pc = true → s.cur.pc.toNat % 4 = 0 →
      (∀ r w, translate s (.scalar s.curCore) s.curReq .fetch s.cur.pc false = (s1, .error (.page r w)) →
        exec .instructionFetchFault s = .next (scalarPageFault s1 .fetch s.cur.pc r w))
      ∧ (translate s (.scalar s.curCore) s.curReq .fetch s.cur.pc false = (s1, .error .access) →
        exec .instructionFetchFault s = .next (s1.trap (mkTrap 0x04 s.cur.pc 0)))))

/-- R337, R338, R342: power-on leaves the module at its reset values and a module reset as well, but for its error banks; the start-up
stages, each of which verifies and measures, fails, or times out after 30 s. R61, R167, R169, R335, R347: writes and accesses from outside,
an ATS invalidation, and the enabling of debug. -/
def Obligations.StartUpAndOutside : Prop :=
  (∀ (s : State),
    ∃ t u, exec .powerOnReset s = .next t ∧ exec .moduleReset s = .next u
      ∧ (∀ k, t.core k = State.reset.core k ∧ u.core k = State.reset.core k) ∧ t.engines = State.reset.engines ∧ t.disp = State.reset.disp
      ∧ t.wm = [] ∧ t.qmem = [] ∧ t.host = s.host ∧ t.time = State.reset.time ∧ t.banks = State.reset.banks ∧ u.banks = s.banks ∧ t.fatal = false ∧ u.fatal = false
      ∧ (∀ f, (t.part f) = { State.reset.part f with ivCtr := (s.part f).ivCtr }) ∧ t.boot.failures = s.boot.failures)
  ∧ (∀ (s : State) (imgs : List (BitVec 512)) (ok : Bool),
    let b := s.boot
    let stage := b.stage.val
    let late := b.since + 30000000000 ≤ s.time.toNat
    let due := 1 ≤ stage ∧ stage ≤ 3 ∧ (stage < 3 → imgs.length = 1)
    let failed (t : State) (at_ why : Nat) : Prop := t.boot.stage = 1 ∧ t.boot.since = s.time.toNat ∧ t.boot.failures = b.failures + 1
      ∧ t.boot.minimal = decide (3 ≤ b.failures + 1) ∧ t.boot.lastStage = at_ ∧ t.boot.lastReason = why ∧ t.boot.measurements = []
    (stage = 0 ∨ stage = 5 ∨ ¬ late → exec .bootStageTimeout s = .next s)
    ∧ (stage ≠ 0 → stage ≠ 5 → late → ∃ t, exec .bootStageTimeout s = .next t ∧ failed t stage 2
        ∧ ∀ d, b.measurements.getLast? = some d → t.boot.lastDigest = d)
    ∧ (¬ due → exec (.bootStageReady imgs ok) s = .next s)
    ∧ (due → late → ∃ t, exec (.bootStageReady imgs ok) s = .next t ∧ failed t stage 2 ∧ ∀ d, b.measurements.getLast? = some d → t.boot.lastDigest = d)
    ∧ (due → ¬ late → ok = false →
      (imgs = [] → exec (.bootStageReady imgs ok) s = .next s)
      ∧ (∀ d, imgs.getLast? = some d →
        ∃ t, exec (.bootStageReady imgs ok) s = .next t ∧ failed t (if stage = 3 then 4 else stage) 1 ∧ t.boot.lastDigest = d))
    ∧ (due → ¬ late → ok = true → ∃ t, exec (.bootStageReady imgs ok) s = .next t ∧ t.boot.measurements = b.measurements ++ imgs
        ∧ t.boot.since = s.time.toNat ∧ (stage < 3 → t.boot.stage.val = stage + 1 ∧ t.boot.failures = b.failures ∧ t.boot.minimal = b.minimal)
        ∧ (stage = 3 → t.boot.stage = 5 ∧ t.boot.failures = 0 ∧ t.boot.minimal = false)))
  ∧ (∀ (s : State) (f : FuncId) (pa : Nat) (bs : List Byte) (ro : Bool),
    let x : Posted := ⟨f, pa, bs, ro⟩
    let earlier := ∃ (i : Nat) (y : Posted), s.inbound[i]? = some y ∧ y.fn = f ∧ y.relaxed = false ∧ ∀ j, j ≤ i → s.inbound[j]? ≠ some x
    (x ∉ s.inbound → exec (.inboundPostedWrite f pa bs ro) s = .next s)
    ∧ (x ∈ s.inbound → ro = false → earlier → exec (.inboundPostedWrite f pa bs ro) s = .next s)
    ∧ (x ∈ s.inbound → (ro = true ∨ ¬ earlier) → ∃ t, exec (.inboundPostedWrite f pa bs ro) s = .next t ∧ t.inbound = s.inbound.erase x
        ∧ (0x18000000000 < pa + bs.length → SameBytes s t)
        ∧ (pa + bs.length ≤ 0x18000000000 → Mem.bytes t.wm pa bs.length = bs ∧ ∀ p, (∀ j, j < bs.length → p ≠ .wm (pa + j)) → t.byteAt p = s.byteAt p)))
  ∧ (∀ (s : State) (port : Fin 16) (pa : Nat) (w : Width) (v c : Word) (op : PeerOp),
    let n := Width.bytes w
    let off := s.boot.minimal = true ∨ ⟨port.val, by omega⟩ ∈ s.linksDown
    (off → exec (.choahPeerAccess port op) s = .next s)
    ∧ (¬ off → pa + n ≤ 0x18000000000 →
      let does (o : PeerOp) (x : Nat) : Prop := ∃ t, exec (.choahPeerAccess port o) s = .next t ∧ Mem.num t.wm pa n = x % 256 ^ n
        ∧ ∀ p, (∀ j, j < n → p ≠ .wm (pa + j)) → t.byteAt p = s.byteAt p
      let old := Mem.num s.wm pa n
      let x := v.toNat % 256 ^ n
      let sg (y : Nat) : Int := if y < 256 ^ n / 2 then y else (y : Int) - (256 ^ n : Nat)
      exec (.choahPeerAccess port (.read pa w)) s = .next s ∧ does (.write pa w v) x ∧ does (.swap pa w v) x
      ∧ does (.add pa w v) (old + x) ∧ does (.and pa w v) (old &&& x) ∧ does (.or pa w v) (old ||| x) ∧ does (.xor pa w v) (old ^^^ x)
      ∧ does (.min pa w v) (if sg x < sg old then x else old) ∧ does (.max pa w v) (if sg old < sg x then x else old)
      ∧ does (.minw pa w v) (min x old) ∧ does (.maxw pa w v) (max x old)
      ∧ (old = c.toNat % 256 ^ n → does (.cas pa w c v) x) ∧ (old ≠ c.toNat % 256 ^ n → exec (.choahPeerAccess port (.cas pa w c v)) s = .next s)))
  ∧ (∀ (s : State) (f : FuncId) (page : Nat),
    exec (.atsInvalidation f page) s = .next { s with ats := s.ats.filter (fun x => x != (f, hostKey f (page * 4096) / 4096)) }
    ∧ exec (.debugEnableRequest f true) s = .next (s.modPart f (fun p => { p with debugOn := true })) ∧ exec (.debugEnableRequest f false) s = .next s)

end Statements
end

