-- ==== Sys2Proof/Laws/Memory.lean ====
section
/-!
SUPPORT. Laws of byte memories, of granule sets and of little-endian numbers: the canonical form is kept by every operation,
and a read after a write gives the byte written there and the old byte elsewhere.
-/

namespace Sys2Proof.Machine

/-! ## Canonical form -/

theorem Mem.above_mono {a b : Nat} {m : Memory} (h : Mem.above b m = true) (hab : a ≤ b) : Mem.above a m = true := by
  cases m with
  | nil => rfl
  | cons c t => simp only [Mem.above, Bool.and_eq_true, decide_eq_true_eq] at h ⊢; exact ⟨⟨by omega, h.1.2⟩, h.2⟩

theorem Mem.above_wf {a : Nat} {m : Memory} (h : Mem.above a m = true) : Mem.wf m = true := by
  cases m with
  | nil => rfl
  | cons c t => simp only [Mem.above, Mem.wf, Bool.and_eq_true] at h ⊢; exact ⟨h.1.2, h.2⟩

theorem Mem.above_filter {k : Nat} {m : Memory} {p : Host.Cell → Bool} (h : Mem.above k m = true) :
    Mem.above k (m.filter p) = true := by
  induction m generalizing k with
  | nil => rfl
  | cons c t ih =>
    simp only [Mem.above, Bool.and_eq_true, decide_eq_true_eq] at h
    by_cases hp : p c = true
    · simp [List.filter, hp, Mem.above, h.1.1, ih h.2]; simpa using h.1.2
    · simp only [Bool.not_eq_true] at hp
      simpa [List.filter, hp] using Mem.above_mono (ih h.2) (Nat.le_of_lt h.1.1)

/-- Dropping entries keeps the canonical form. -/
theorem Mem.filter_wf {m : Memory} {p : Host.Cell → Bool} (h : Mem.wf m = true) : Mem.wf (m.filter p) = true := by
  cases m with
  | nil => rfl
  | cons c t =>
    simp only [Mem.wf, Bool.and_eq_true] at h
    by_cases hp : p c = true
    · simp [List.filter, hp, Mem.wf, Mem.above_filter h.2]; simpa using h.1
    · simp only [Bool.not_eq_true] at hp
      simpa [List.filter, hp] using Mem.above_wf (Mem.above_filter (p := p) h.2)

theorem Mem.above_ins {a k : Nat} {m : Memory} {v : Byte} (h : Mem.above k m = true) (hk : k < a) (hv : v ≠ 0)
    (hm : ∀ c ∈ m, c.1 ≠ a) : Mem.above k (Mem.ins m a v) = true := by
  induction m generalizing k with
  | nil => simp [Mem.ins, Mem.above, hk]; simpa using hv
  | cons c t ih =>
    simp only [Mem.above, Bool.and_eq_true, decide_eq_true_eq, bne_iff_ne] at h
    have hc := hm c (by simp)
    by_cases h1 : a < c.1
    · simp only [Mem.ins, h1, ↓reduceIte, Mem.above, Bool.and_eq_true, decide_eq_true_eq, bne_iff_ne]
      exact ⟨⟨hk, hv⟩, ⟨trivial, h.1.2⟩, h.2⟩
    · simp only [Mem.ins, h1, ↓reduceIte, Mem.above, Bool.and_eq_true, decide_eq_true_eq, bne_iff_ne]
      exact ⟨h.1, ih h.2 (by omega) (fun x hx => hm x (by simp [hx]))⟩

theorem Mem.ins_wf {a : Nat} {m : Memory} {v : Byte} (h : Mem.wf m = true) (hv : v ≠ 0) (hm : ∀ c ∈ m, c.1 ≠ a) :
    Mem.wf (Mem.ins m a v) = true := by
  cases m with
  | nil => simp [Mem.ins, Mem.wf, Mem.above]; simpa using hv
  | cons c t =>
    simp only [Mem.wf, Bool.and_eq_true, bne_iff_ne] at h
    have hc := hm c (by simp)
    by_cases h1 : a < c.1
    · simp only [Mem.ins, h1, ↓reduceIte, Mem.wf, Mem.above, Bool.and_eq_true, decide_eq_true_eq, bne_iff_ne]
      exact ⟨hv, ⟨trivial, h.1⟩, h.2⟩
    · simp only [Mem.ins, h1, ↓reduceIte, Mem.wf, Bool.and_eq_true, bne_iff_ne]
      exact ⟨h.1, Mem.above_ins h.2 (by omega) hv (fun x hx => hm x (by simp [hx]))⟩

/-- Writing a byte keeps the canonical form. -/
theorem Mem.set_wf {a : Nat} {m : Memory} {v : Byte} (h : Mem.wf m = true) : Mem.wf (Mem.set m a v) = true := by
  unfold Mem.set
  by_cases hv : v = 0
  · rw [if_pos hv]; exact Mem.filter_wf h
  · rw [if_neg hv]; exact Mem.ins_wf (Mem.filter_wf h) hv (fun c hc => by simpa using (List.mem_filter.mp hc).2)

/-- Writing bytes keeps the canonical form. -/
theorem Mem.setBytes_wf {m : Memory} {a : Nat} {bs : List Byte} (h : Mem.wf m = true) : Mem.wf (Mem.setBytes m a bs) = true := by
  induction bs generalizing m a with
  | nil => exact h
  | cons b t ih => exact ih (Mem.set_wf h)

/-- Writing a number keeps the canonical form. -/
theorem Mem.setNum_wf {m : Memory} {a n v : Nat} (h : Mem.wf m = true) : Mem.wf (Mem.setNum m a n v) = true :=
  Mem.setBytes_wf h

/-- Zeroing a range keeps the canonical form. -/
theorem Mem.clear_wf {m : Memory} {a n : Nat} (h : Mem.wf m = true) : Mem.wf (Mem.clear m a n) = true := Mem.filter_wf h

theorem Mem.above_slice {m : Memory} {k a n b j : Nat} (h : Mem.above k m = true) (hj : k < a → j < b)
    (hk : a ≤ k → j ≤ k - a + b) : Mem.above j (Mem.slice m a n b) = true := by
  induction m generalizing k j with
  | nil => rfl
  | cons c t ih =>
    simp only [Mem.above, Bool.and_eq_true, decide_eq_true_eq, bne_iff_ne, ne_eq, BitVec.ofNat_eq_ofNat] at h
    by_cases hp : a ≤ c.1 ∧ c.1 < a + n
    · have := ih (k := c.1) (j := c.1 - a + b) h.2 (by omega) (by omega)
      simp only [Mem.slice] at this ⊢
      simp only [List.filter_cons, hp.1, hp.2, decide_true, Bool.and_self, ↓reduceIte, List.map_cons, Mem.above, this,
        Bool.and_true, Bool.and_eq_true, decide_eq_true_eq, bne_iff_ne, ne_eq, BitVec.ofNat_eq_ofNat]
      exact ⟨by omega, h.1.2⟩
    · have := ih (k := c.1) (j := j) h.2 (by omega) (by omega)
      simp only [Mem.slice] at this ⊢
      have hq : (decide (a ≤ c.1) && decide (c.1 < a + n)) = false := by
        simp only [Bool.and_eq_false_imp, decide_eq_true_eq, decide_eq_false_iff_not]; omega
      rw [List.filter_cons, hq]; simpa using this

/-- Cutting out a range keeps the canonical form. -/
theorem Mem.slice_wf {m : Memory} {a n b : Nat} (h : Mem.wf m = true) : Mem.wf (Mem.slice m a n b) = true := by
  induction m with
  | nil => rfl
  | cons c t ih =>
    simp only [Mem.wf, Bool.and_eq_true, bne_iff_ne, ne_eq, BitVec.ofNat_eq_ofNat] at h
    by_cases hp : a ≤ c.1 ∧ c.1 < a + n
    · have := Mem.above_slice (a := a) (n := n) (b := b) (j := c.1 - a + b) h.2 (by omega) (by omega)
      simp only [Mem.slice] at this ⊢
      simp only [List.filter_cons, hp.1, hp.2, decide_true, Bool.and_self, ↓reduceIte, List.map_cons, Mem.wf, this,
        Bool.and_true, bne_iff_ne, ne_eq, BitVec.ofNat_eq_ofNat]
      exact h.1
    · have := ih (Mem.above_wf h.2)
      simp only [Mem.slice] at this ⊢
      have hq : (decide (a ≤ c.1) && decide (c.1 < a + n)) = false := by
        simp only [Bool.and_eq_false_imp, decide_eq_true_eq, decide_eq_false_iff_not]; omega
      rw [List.filter_cons, hq]; simpa using this

/-- Writing a list of cells keeps the canonical form. -/
theorem Mem.blit_wf {m cells : Memory} (h : Mem.wf m = true) : Mem.wf (Mem.blit m cells) = true := by
  unfold Mem.blit
  induction cells with
  | nil => exact h
  | cons c t ih => exact Mem.set_wf ih

/-! ## Read after write -/

theorem Mem.get_ins {a b : Nat} {m : Memory} {v : Byte} (hm : ∀ c ∈ m, c.1 ≠ a) :
    Mem.get (Mem.ins m a v) b = if b = a then v else Mem.get m b := by
  induction m with
  | nil => simp [Mem.ins, Mem.get]
  | cons c t ih =>
    have hc := hm c (by simp)
    by_cases h1 : a < c.1
    · simp [Mem.ins, h1, Mem.get]
    · simp only [Mem.ins, h1, ↓reduceIte, Mem.get, ih (fun x hx => hm x (by simp [hx]))]
      by_cases hb : b = c.1
      · simp [hb, hc]
      · simp [hb]

theorem Mem.get_filter {m : Memory} {p : Host.Cell → Bool} {b : Nat} (q : Nat → Bool) (hp : ∀ c, p c = q c.1) :
    Mem.get (m.filter p) b = if q b then Mem.get m b else 0 := by
  induction m with
  | nil => simp [Mem.get]
  | cons c t ih =>
    rw [List.filter_cons, hp]
    by_cases hb : b = c.1
    · subst hb; cases hq : q c.1 <;> simp [Mem.get, ih, hq]
    · cases hq : q c.1 <;> simp [Mem.get, ih, hb]

/-- The byte written is read where it was written, and every other byte is as before. -/
theorem Mem.get_set {m : Memory} {a b : Nat} {v : Byte} : Mem.get (Mem.set m a v) b = if b = a then v else Mem.get m b := by
  have hf : ∀ x, Mem.get (m.filter (fun c => c.1 != a)) x = if x = a then 0 else Mem.get m x := fun x => by
    rw [Mem.get_filter (fun k => k != a) (fun _ => rfl)]; by_cases hx : x = a <;> simp [hx]
  unfold Mem.set
  by_cases hv : v = 0
  · rw [if_pos hv, hf, hv]
  · rw [if_neg hv, Mem.get_ins (fun c hc => by simpa using (List.mem_filter.mp hc).2), hf]
    by_cases hb : b = a <;> simp [hb]

/-- Bytes outside a written range are as before. -/
theorem Mem.get_setBytes_out {m : Memory} {a b : Nat} {bs : List Byte}
    (hb : b < a ∨ a + bs.length ≤ b) : Mem.get (Mem.setBytes m a bs) b = Mem.get m b := by
  induction bs generalizing m a with
  | nil => rfl
  | cons x t ih =>
    simp only [List.length_cons] at hb
    rw [Mem.setBytes, ih (by omega), Mem.get_set, if_neg (by omega)]

/-- A byte inside a written range is the byte written there. -/
theorem Mem.get_setBytes_in {m : Memory} {a i : Nat} {bs : List Byte} (hi : i < bs.length) :
    Mem.get (Mem.setBytes m a bs) (a + i) = bs[i] := by
  induction bs generalizing m a i with
  | nil => simp at hi
  | cons x t ih =>
    cases i with
    | zero =>
      rw [Mem.setBytes, Mem.get_setBytes_out (by omega), Mem.get_set]; simp
    | succ j =>
      have := ih (m := Mem.set m a x) (a := a + 1) (i := j) (by simpa using hi)
      rw [Mem.setBytes, show a + (j + 1) = a + 1 + j by omega, this]; simp

@[simp] theorem Mem.bytes_length {m : Memory} {a n : Nat} : (Mem.bytes m a n).length = n := by
  induction n generalizing a with
  | zero => rfl
  | succ n ih => simp [Mem.bytes, ih]

/-- Byte i of a read is the byte at that address. -/
theorem Mem.bytes_getElem {m : Memory} {a n i : Nat} (hi : i < (Mem.bytes m a n).length) :
    (Mem.bytes m a n)[i] = Mem.get m (a + i) := by
  induction n generalizing a i with
  | zero => simp [Mem.bytes] at hi
  | succ n ih =>
    cases i with
    | zero => simp [Mem.bytes]
    | succ j =>
      simp only [Mem.bytes, List.length_cons, Nat.add_lt_add_iff_right] at hi
      simp only [Mem.bytes, List.getElem_cons_succ, ih hi]; congr 1; omega

/-- What was written is read back. -/
theorem Mem.bytes_setBytes {m : Memory} {a : Nat} {bs : List Byte} :
    Mem.bytes (Mem.setBytes m a bs) a bs.length = bs := by
  apply List.ext_getElem Mem.bytes_length
  intro i h1 h2
  rw [Mem.bytes_getElem, Mem.get_setBytes_in h2]

/-- A read that meets no written byte is as before. -/
theorem Mem.bytes_setBytes_out {m : Memory} {a b n : Nat} {bs : List Byte}
    (hd : b + n ≤ a ∨ a + bs.length ≤ b) : Mem.bytes (Mem.setBytes m a bs) b n = Mem.bytes m b n := by
  apply List.ext_getElem (by simp)
  intro i h1 h2
  simp only [Mem.bytes_length] at h1
  rw [Mem.bytes_getElem, Mem.bytes_getElem, Mem.get_setBytes_out (by omega)]

/-- A zeroed byte reads 0, every other byte as before. -/
theorem Mem.get_clear {m : Memory} {a n b : Nat} :
    Mem.get (Mem.clear m a n) b = if a ≤ b ∧ b < a + n then 0 else Mem.get m b := by
  rw [Mem.clear, Mem.get_filter (fun k => !(decide (a ≤ k) && decide (k < a + n))) (fun _ => rfl)]
  by_cases h : a ≤ b ∧ b < a + n <;> simp [h]

/-! ## Little-endian numbers -/

@[simp] theorem leBytes_length {n v : Nat} : (leBytes n v).length = n := by
  induction n generalizing v with
  | zero => rfl
  | succ n ih => simp [leBytes, ih]

/-- A number is read back from its bytes. -/
theorem leNat_leBytes {n v : Nat} : leNat (leBytes n v) = v % 256 ^ n := by
  induction n generalizing v with
  | zero => simp [leBytes, leNat, Nat.mod_one]
  | succ n ih =>
    simp only [leBytes, leNat, ih, BitVec.toNat_ofNat, Nat.reducePow]
    rw [Nat.pow_succ, Nat.mul_comm (256 ^ n) 256, Nat.mod_mul]

theorem leNat_lt {l : List Byte} : leNat l < 256 ^ l.length := by
  induction l with
  | nil => simp [leNat]
  | cons b t ih =>
    simp only [leNat, List.length_cons, Nat.pow_succ]
    have := b.isLt
    omega

/-- A number written to memory is read back. -/
theorem Mem.num_setNum {m : Memory} {a n v : Nat} : Mem.num (Mem.setNum m a n v) a n = v % 256 ^ n := by
  have := Mem.bytes_setBytes (m := m) (a := a) (bs := leBytes n v)
  rw [leBytes_length] at this
  rw [Mem.num, Mem.setNum, this, leNat_leBytes]

/-! ## Sets -/

theorem NatSet.above_mono {a b : Nat} {s : GSet} (h : NatSet.above b s = true) (hab : a ≤ b) : NatSet.above a s = true := by
  cases s with
  | nil => rfl
  | cons k t => simp only [NatSet.above, Bool.and_eq_true, decide_eq_true_eq] at h ⊢; exact ⟨by omega, h.2⟩

theorem NatSet.above_wf {a : Nat} {s : GSet} (h : NatSet.above a s = true) : NatSet.wf s = true := by
  cases s with
  | nil => rfl
  | cons k t => simp only [NatSet.above, NatSet.wf, Bool.and_eq_true] at h ⊢; exact h.2

theorem NatSet.above_ins {k a : Nat} {s : GSet} (h : NatSet.above k s = true) (hk : k < a) (hs : NatSet.has s a = false) :
    NatSet.above k (NatSet.ins s a) = true := by
  induction s generalizing k with
  | nil => simp [NatSet.ins, NatSet.above, hk]
  | cons c t ih =>
    simp only [NatSet.above, Bool.and_eq_true, decide_eq_true_eq] at h
    have hc : ¬ a = c := by rintro rfl; simp [NatSet.has] at hs
    simp only [NatSet.has, hc, ↓reduceIte] at hs
    by_cases h1 : a < c
    · simp [NatSet.ins, NatSet.above, h1, h, hk]
    · simp only [NatSet.ins, h1, ↓reduceIte, NatSet.above, Bool.and_eq_true, decide_eq_true_eq]
      exact ⟨h.1, ih h.2 (by omega) hs⟩

/-- Insertion keeps the canonical form. -/
theorem NatSet.add_wf {a : Nat} {s : GSet} (h : NatSet.wf s = true) : NatSet.wf (NatSet.add s a) = true := by
  unfold NatSet.add
  cases hs : NatSet.has s a with
  | true => exact h
  | false =>
    cases s with
    | nil => rfl
    | cons c t =>
      have hc : ¬ a = c := by rintro rfl; simp [NatSet.has] at hs
      simp only [NatSet.has, hc, ↓reduceIte] at hs
      simp only [NatSet.wf] at h
      by_cases h1 : a < c
      · simp [NatSet.ins, NatSet.wf, NatSet.above, h1, h]
      · simp only [Bool.false_eq_true, ↓reduceIte, NatSet.ins, h1, NatSet.wf]; exact NatSet.above_ins h (by omega) hs

theorem NatSet.above_filter {k : Nat} {s : GSet} {p : Nat → Bool} (h : NatSet.above k s = true) :
    NatSet.above k (s.filter p) = true := by
  induction s generalizing k with
  | nil => rfl
  | cons c t ih =>
    simp only [NatSet.above, Bool.and_eq_true, decide_eq_true_eq] at h
    by_cases hp : p c = true
    · simp [List.filter, hp, NatSet.above, h.1, ih h.2]
    · simp only [Bool.not_eq_true] at hp
      simpa [List.filter, hp] using NatSet.above_mono (ih h.2) (Nat.le_of_lt h.1)

/-- Dropping elements keeps the canonical form. -/
theorem NatSet.filter_wf {s : GSet} {p : Nat → Bool} (h : NatSet.wf s = true) : NatSet.wf (s.filter p) = true := by
  cases s with
  | nil => rfl
  | cons c t =>
    simp only [NatSet.wf] at h
    by_cases hp : p c = true
    · simp [List.filter, hp, NatSet.wf, NatSet.above_filter h]
    · simp only [Bool.not_eq_true] at hp
      simpa [List.filter, hp] using NatSet.above_wf (NatSet.above_filter (p := p) h)

/-- Removal keeps the canonical form. -/
theorem NatSet.del_wf {s : GSet} {a : Nat} (h : NatSet.wf s = true) : NatSet.wf (NatSet.del s a) = true := NatSet.filter_wf h
/-- Clearing a range keeps the canonical form. -/
theorem NatSet.clear_wf {s : GSet} {a n : Nat} (h : NatSet.wf s = true) : NatSet.wf (NatSet.clear s a n) = true := NatSet.filter_wf h
/-- Adding or removing keeps the canonical form. -/
theorem NatSet.put_wf {s : GSet} {a : Nat} {on : Bool} (h : NatSet.wf s = true) : NatSet.wf (NatSet.put s a on) = true := by
  cases on
  · exact NatSet.del_wf h
  · exact NatSet.add_wf h

theorem NatSet.has_ins {s : GSet} {a b : Nat} : NatSet.has (NatSet.ins s a) b = if b = a then true else NatSet.has s b := by
  induction s with
  | nil => simp [NatSet.ins, NatSet.has]
  | cons c t ih =>
    by_cases h1 : a < c
    · simp [NatSet.ins, h1, NatSet.has]
    · by_cases hb : b = c <;> simp [NatSet.ins, h1, NatSet.has, ih, hb]

/-- An element added is there, every other as before. -/
theorem NatSet.has_add {s : GSet} {a b : Nat} : NatSet.has (NatSet.add s a) b = if b = a then true else NatSet.has s b := by
  unfold NatSet.add
  cases hs : NatSet.has s a with
  | true => by_cases hb : b = a <;> simp [hb, hs]
  | false => simp [NatSet.has_ins]

theorem NatSet.has_filter {s : GSet} {p : Nat → Bool} {b : Nat} : NatSet.has (s.filter p) b = (p b && NatSet.has s b) := by
  induction s with
  | nil => simp [NatSet.has]
  | cons c t ih =>
    rw [List.filter_cons]
    by_cases hb : b = c
    · subst hb; cases hp : p b <;> simp [NatSet.has, ih, hp]
    · cases hp : p c <;> simp [NatSet.has, ih, hb]

/-- An element removed is gone, every other as before. -/
theorem NatSet.has_del {s : GSet} {a b : Nat} : NatSet.has (NatSet.del s a) b = if b = a then false else NatSet.has s b := by
  rw [NatSet.del, NatSet.has_filter]; by_cases hb : b = a <;> simp [hb]

/-- A range removed is gone, every other element as before. -/
theorem NatSet.has_clear {s : GSet} {a n b : Nat} :
    NatSet.has (NatSet.clear s a n) b = if a ≤ b ∧ b < a + n then false else NatSet.has s b := by
  rw [NatSet.clear, NatSet.has_filter]
  by_cases h : a ≤ b ∧ b < a + n
  · simp [h]
  · have : (decide (a ≤ b) && decide (b < a + n)) = false := by
      simp only [Bool.and_eq_false_imp, decide_eq_true_eq, decide_eq_false_iff_not]; omega
    simp [h, this]

end Sys2Proof.Machine
end

