-- ==== Sys2Proof/Laws/State.lean ====
section
/-!
SUPPORT. One lemma per field per update of the state, and what the accessors read after an update of the same or another place.
-/

namespace Sys2Proof.Machine

/-! ## What an update leaves alone -/

/-! modCore -/
@[simp] theorem State.modCore_curCore (s : State) (k : CoreId) (f : Core → Core) : (s.modCore k f).curCore = s.curCore := rfl
@[simp] theorem State.modCore_curTid (s : State) (k : CoreId) (f : Core → Core) : (s.modCore k f).curTid = s.curTid := rfl
@[simp] theorem State.modCore_agenda (s : State) (k : CoreId) (f : Core → Core) : (s.modCore k f).agenda = s.agenda := rfl
@[simp] theorem State.modCore_fresh (s : State) (k : CoreId) (f : Core → Core) : (s.modCore k f).fresh = s.fresh := rfl
@[simp] theorem State.modCore_time (s : State) (k : CoreId) (f : Core → Core) : (s.modCore k f).time = s.time := rfl
@[simp] theorem State.modCore_wm (s : State) (k : CoreId) (f : Core → Core) : (s.modCore k f).wm = s.wm := rfl
@[simp] theorem State.modCore_host (s : State) (k : CoreId) (f : Core → Core) : (s.modCore k f).host = s.host := rfl
@[simp] theorem State.modCore_hostAbsent (s : State) (k : CoreId) (f : Core → Core) : (s.modCore k f).hostAbsent = s.hostAbsent := rfl
@[simp] theorem State.modCore_ats (s : State) (k : CoreId) (f : Core → Core) : (s.modCore k f).ats = s.ats := rfl
@[simp] theorem State.modCore_bars (s : State) (k : CoreId) (f : Core → Core) : (s.modCore k f).bars = s.bars := rfl
@[simp] theorem State.modCore_peers (s : State) (k : CoreId) (f : Core → Core) : (s.modCore k f).peers = s.peers := rfl
@[simp] theorem State.modCore_linksDown (s : State) (k : CoreId) (f : Core → Core) : (s.modCore k f).linksDown = s.linksDown := rfl
@[simp] theorem State.modCore_inbound (s : State) (k : CoreId) (f : Core → Core) : (s.modCore k f).inbound = s.inbound := rfl
@[simp] theorem State.modCore_corrected (s : State) (k : CoreId) (f : Core → Core) : (s.modCore k f).corrected = s.corrected := rfl
@[simp] theorem State.modCore_jtagIr (s : State) (k : CoreId) (f : Core → Core) : (s.modCore k f).jtagIr = s.jtagIr := rfl
@[simp] theorem State.modCore_jtagDr (s : State) (k : CoreId) (f : Core → Core) : (s.modCore k f).jtagDr = s.jtagDr := rfl
@[simp] theorem State.modCore_sysCores (s : State) (k : CoreId) (f : Core → Core) : (s.modCore k f).sysCores = s.sysCores := rfl
@[simp] theorem State.modCore_users (s : State) (k : CoreId) (f : Core → Core) : (s.modCore k f).users = s.users := rfl
@[simp] theorem State.modCore_qmem (s : State) (k : CoreId) (f : Core → Core) : (s.modCore k f).qmem = s.qmem := rfl
@[simp] theorem State.modCore_wmPoison (s : State) (k : CoreId) (f : Core → Core) : (s.modCore k f).wmPoison = s.wmPoison := rfl
@[simp] theorem State.modCore_qPoison (s : State) (k : CoreId) (f : Core → Core) : (s.modCore k f).qPoison = s.qPoison := rfl
@[simp] theorem State.modCore_fatal (s : State) (k : CoreId) (f : Core → Core) : (s.modCore k f).fatal = s.fatal := rfl
@[simp] theorem State.modCore_boot (s : State) (k : CoreId) (f : Core → Core) : (s.modCore k f).boot = s.boot := rfl
@[simp] theorem State.modCore_banks (s : State) (k : CoreId) (f : Core → Core) : (s.modCore k f).banks = s.banks := rfl
@[simp] theorem State.modCore_dbg (s : State) (k : CoreId) (f : Core → Core) : (s.modCore k f).dbg = s.dbg := rfl
@[simp] theorem State.modCore_xhclm (s : State) (k : CoreId) (f : Core → Core) : (s.modCore k f).xhclm = s.xhclm := rfl
@[simp] theorem State.modCore_xtrcore (s : State) (k : CoreId) (f : Core → Core) : (s.modCore k f).xtrcore = s.xtrcore := rfl
@[simp] theorem State.modCore_dies (s : State) (k : CoreId) (f : Core → Core) : (s.modCore k f).dies = s.dies := rfl
@[simp] theorem State.modCore_parts (s : State) (k : CoreId) (f : Core → Core) : (s.modCore k f).parts = s.parts := rfl
@[simp] theorem State.modCore_seals (s : State) (k : CoreId) (f : Core → Core) : (s.modCore k f).seals = s.seals := rfl
@[simp] theorem State.modCore_disp (s : State) (k : CoreId) (f : Core → Core) : (s.modCore k f).disp = s.disp := rfl
@[simp] theorem State.modCore_queries (s : State) (k : CoreId) (f : Core → Core) : (s.modCore k f).queries = s.queries := rfl
@[simp] theorem State.modCore_pageOps (s : State) (k : CoreId) (f : Core → Core) : (s.modCore k f).pageOps = s.pageOps := rfl
@[simp] theorem State.modCore_nextId (s : State) (k : CoreId) (f : Core → Core) : (s.modCore k f).nextId = s.nextId := rfl
@[simp] theorem State.modCore_clusters (s : State) (k : CoreId) (f : Core → Core) : (s.modCore k f).clusters = s.clusters := rfl
@[simp] theorem State.modCore_baseDies (s : State) (k : CoreId) (f : Core → Core) : (s.modCore k f).baseDies = s.baseDies := rfl
@[simp] theorem State.modCore_engines (s : State) (k : CoreId) (f : Core → Core) : (s.modCore k f).engines = s.engines := rfl

/-! modThr -/
@[simp] theorem State.modThr_curCore (s : State) (k : CoreId) (t : Tid) (f : Thread → Thread) : (s.modThr k t f).curCore = s.curCore := rfl
@[simp] theorem State.modThr_curTid (s : State) (k : CoreId) (t : Tid) (f : Thread → Thread) : (s.modThr k t f).curTid = s.curTid := rfl
@[simp] theorem State.modThr_agenda (s : State) (k : CoreId) (t : Tid) (f : Thread → Thread) : (s.modThr k t f).agenda = s.agenda := rfl
@[simp] theorem State.modThr_fresh (s : State) (k : CoreId) (t : Tid) (f : Thread → Thread) : (s.modThr k t f).fresh = s.fresh := rfl
@[simp] theorem State.modThr_time (s : State) (k : CoreId) (t : Tid) (f : Thread → Thread) : (s.modThr k t f).time = s.time := rfl
@[simp] theorem State.modThr_wm (s : State) (k : CoreId) (t : Tid) (f : Thread → Thread) : (s.modThr k t f).wm = s.wm := rfl
@[simp] theorem State.modThr_host (s : State) (k : CoreId) (t : Tid) (f : Thread → Thread) : (s.modThr k t f).host = s.host := rfl
@[simp] theorem State.modThr_hostAbsent (s : State) (k : CoreId) (t : Tid) (f : Thread → Thread) : (s.modThr k t f).hostAbsent = s.hostAbsent := rfl
@[simp] theorem State.modThr_ats (s : State) (k : CoreId) (t : Tid) (f : Thread → Thread) : (s.modThr k t f).ats = s.ats := rfl
@[simp] theorem State.modThr_bars (s : State) (k : CoreId) (t : Tid) (f : Thread → Thread) : (s.modThr k t f).bars = s.bars := rfl
@[simp] theorem State.modThr_peers (s : State) (k : CoreId) (t : Tid) (f : Thread → Thread) : (s.modThr k t f).peers = s.peers := rfl
@[simp] theorem State.modThr_linksDown (s : State) (k : CoreId) (t : Tid) (f : Thread → Thread) : (s.modThr k t f).linksDown = s.linksDown := rfl
@[simp] theorem State.modThr_inbound (s : State) (k : CoreId) (t : Tid) (f : Thread → Thread) : (s.modThr k t f).inbound = s.inbound := rfl
@[simp] theorem State.modThr_corrected (s : State) (k : CoreId) (t : Tid) (f : Thread → Thread) : (s.modThr k t f).corrected = s.corrected := rfl
@[simp] theorem State.modThr_jtagIr (s : State) (k : CoreId) (t : Tid) (f : Thread → Thread) : (s.modThr k t f).jtagIr = s.jtagIr := rfl
@[simp] theorem State.modThr_jtagDr (s : State) (k : CoreId) (t : Tid) (f : Thread → Thread) : (s.modThr k t f).jtagDr = s.jtagDr := rfl
@[simp] theorem State.modThr_sysCores (s : State) (k : CoreId) (t : Tid) (f : Thread → Thread) : (s.modThr k t f).sysCores = s.sysCores := rfl
@[simp] theorem State.modThr_users (s : State) (k : CoreId) (t : Tid) (f : Thread → Thread) : (s.modThr k t f).users = s.users := rfl
@[simp] theorem State.modThr_qmem (s : State) (k : CoreId) (t : Tid) (f : Thread → Thread) : (s.modThr k t f).qmem = s.qmem := rfl
@[simp] theorem State.modThr_wmPoison (s : State) (k : CoreId) (t : Tid) (f : Thread → Thread) : (s.modThr k t f).wmPoison = s.wmPoison := rfl
@[simp] theorem State.modThr_qPoison (s : State) (k : CoreId) (t : Tid) (f : Thread → Thread) : (s.modThr k t f).qPoison = s.qPoison := rfl
@[simp] theorem State.modThr_fatal (s : State) (k : CoreId) (t : Tid) (f : Thread → Thread) : (s.modThr k t f).fatal = s.fatal := rfl
@[simp] theorem State.modThr_boot (s : State) (k : CoreId) (t : Tid) (f : Thread → Thread) : (s.modThr k t f).boot = s.boot := rfl
@[simp] theorem State.modThr_banks (s : State) (k : CoreId) (t : Tid) (f : Thread → Thread) : (s.modThr k t f).banks = s.banks := rfl
@[simp] theorem State.modThr_dbg (s : State) (k : CoreId) (t : Tid) (f : Thread → Thread) : (s.modThr k t f).dbg = s.dbg := rfl
@[simp] theorem State.modThr_xhclm (s : State) (k : CoreId) (t : Tid) (f : Thread → Thread) : (s.modThr k t f).xhclm = s.xhclm := rfl
@[simp] theorem State.modThr_xtrcore (s : State) (k : CoreId) (t : Tid) (f : Thread → Thread) : (s.modThr k t f).xtrcore = s.xtrcore := rfl
@[simp] theorem State.modThr_dies (s : State) (k : CoreId) (t : Tid) (f : Thread → Thread) : (s.modThr k t f).dies = s.dies := rfl
@[simp] theorem State.modThr_parts (s : State) (k : CoreId) (t : Tid) (f : Thread → Thread) : (s.modThr k t f).parts = s.parts := rfl
@[simp] theorem State.modThr_seals (s : State) (k : CoreId) (t : Tid) (f : Thread → Thread) : (s.modThr k t f).seals = s.seals := rfl
@[simp] theorem State.modThr_disp (s : State) (k : CoreId) (t : Tid) (f : Thread → Thread) : (s.modThr k t f).disp = s.disp := rfl
@[simp] theorem State.modThr_queries (s : State) (k : CoreId) (t : Tid) (f : Thread → Thread) : (s.modThr k t f).queries = s.queries := rfl
@[simp] theorem State.modThr_pageOps (s : State) (k : CoreId) (t : Tid) (f : Thread → Thread) : (s.modThr k t f).pageOps = s.pageOps := rfl
@[simp] theorem State.modThr_nextId (s : State) (k : CoreId) (t : Tid) (f : Thread → Thread) : (s.modThr k t f).nextId = s.nextId := rfl
@[simp] theorem State.modThr_clusters (s : State) (k : CoreId) (t : Tid) (f : Thread → Thread) : (s.modThr k t f).clusters = s.clusters := rfl
@[simp] theorem State.modThr_baseDies (s : State) (k : CoreId) (t : Tid) (f : Thread → Thread) : (s.modThr k t f).baseDies = s.baseDies := rfl
@[simp] theorem State.modThr_engines (s : State) (k : CoreId) (t : Tid) (f : Thread → Thread) : (s.modThr k t f).engines = s.engines := rfl

/-! modCur -/
@[simp] theorem State.modCur_curCore (s : State) (f : Thread → Thread) : (s.modCur f).curCore = s.curCore := rfl
@[simp] theorem State.modCur_curTid (s : State) (f : Thread → Thread) : (s.modCur f).curTid = s.curTid := rfl
@[simp] theorem State.modCur_agenda (s : State) (f : Thread → Thread) : (s.modCur f).agenda = s.agenda := rfl
@[simp] theorem State.modCur_fresh (s : State) (f : Thread → Thread) : (s.modCur f).fresh = s.fresh := rfl
@[simp] theorem State.modCur_time (s : State) (f : Thread → Thread) : (s.modCur f).time = s.time := rfl
@[simp] theorem State.modCur_wm (s : State) (f : Thread → Thread) : (s.modCur f).wm = s.wm := rfl
@[simp] theorem State.modCur_host (s : State) (f : Thread → Thread) : (s.modCur f).host = s.host := rfl
@[simp] theorem State.modCur_hostAbsent (s : State) (f : Thread → Thread) : (s.modCur f).hostAbsent = s.hostAbsent := rfl
@[simp] theorem State.modCur_ats (s : State) (f : Thread → Thread) : (s.modCur f).ats = s.ats := rfl
@[simp] theorem State.modCur_bars (s : State) (f : Thread → Thread) : (s.modCur f).bars = s.bars := rfl
@[simp] theorem State.modCur_peers (s : State) (f : Thread → Thread) : (s.modCur f).peers = s.peers := rfl
@[simp] theorem State.modCur_linksDown (s : State) (f : Thread → Thread) : (s.modCur f).linksDown = s.linksDown := rfl
@[simp] theorem State.modCur_inbound (s : State) (f : Thread → Thread) : (s.modCur f).inbound = s.inbound := rfl
@[simp] theorem State.modCur_corrected (s : State) (f : Thread → Thread) : (s.modCur f).corrected = s.corrected := rfl
@[simp] theorem State.modCur_jtagIr (s : State) (f : Thread → Thread) : (s.modCur f).jtagIr = s.jtagIr := rfl
@[simp] theorem State.modCur_jtagDr (s : State) (f : Thread → Thread) : (s.modCur f).jtagDr = s.jtagDr := rfl
@[simp] theorem State.modCur_sysCores (s : State) (f : Thread → Thread) : (s.modCur f).sysCores = s.sysCores := rfl
@[simp] theorem State.modCur_users (s : State) (f : Thread → Thread) : (s.modCur f).users = s.users := rfl
@[simp] theorem State.modCur_qmem (s : State) (f : Thread → Thread) : (s.modCur f).qmem = s.qmem := rfl
@[simp] theorem State.modCur_wmPoison (s : State) (f : Thread → Thread) : (s.modCur f).wmPoison = s.wmPoison := rfl
@[simp] theorem State.modCur_qPoison (s : State) (f : Thread → Thread) : (s.modCur f).qPoison = s.qPoison := rfl
@[simp] theorem State.modCur_fatal (s : State) (f : Thread → Thread) : (s.modCur f).fatal = s.fatal := rfl
@[simp] theorem State.modCur_boot (s : State) (f : Thread → Thread) : (s.modCur f).boot = s.boot := rfl
@[simp] theorem State.modCur_banks (s : State) (f : Thread → Thread) : (s.modCur f).banks = s.banks := rfl
@[simp] theorem State.modCur_dbg (s : State) (f : Thread → Thread) : (s.modCur f).dbg = s.dbg := rfl
@[simp] theorem State.modCur_xhclm (s : State) (f : Thread → Thread) : (s.modCur f).xhclm = s.xhclm := rfl
@[simp] theorem State.modCur_xtrcore (s : State) (f : Thread → Thread) : (s.modCur f).xtrcore = s.xtrcore := rfl
@[simp] theorem State.modCur_dies (s : State) (f : Thread → Thread) : (s.modCur f).dies = s.dies := rfl
@[simp] theorem State.modCur_parts (s : State) (f : Thread → Thread) : (s.modCur f).parts = s.parts := rfl
@[simp] theorem State.modCur_seals (s : State) (f : Thread → Thread) : (s.modCur f).seals = s.seals := rfl
@[simp] theorem State.modCur_disp (s : State) (f : Thread → Thread) : (s.modCur f).disp = s.disp := rfl
@[simp] theorem State.modCur_queries (s : State) (f : Thread → Thread) : (s.modCur f).queries = s.queries := rfl
@[simp] theorem State.modCur_pageOps (s : State) (f : Thread → Thread) : (s.modCur f).pageOps = s.pageOps := rfl
@[simp] theorem State.modCur_nextId (s : State) (f : Thread → Thread) : (s.modCur f).nextId = s.nextId := rfl
@[simp] theorem State.modCur_clusters (s : State) (f : Thread → Thread) : (s.modCur f).clusters = s.clusters := rfl
@[simp] theorem State.modCur_baseDies (s : State) (f : Thread → Thread) : (s.modCur f).baseDies = s.baseDies := rfl
@[simp] theorem State.modCur_engines (s : State) (f : Thread → Thread) : (s.modCur f).engines = s.engines := rfl

/-! modCurC -/
@[simp] theorem State.modCurC_curCore (s : State) (f : Core → Core) : (s.modCurC f).curCore = s.curCore := rfl
@[simp] theorem State.modCurC_curTid (s : State) (f : Core → Core) : (s.modCurC f).curTid = s.curTid := rfl
@[simp] theorem State.modCurC_agenda (s : State) (f : Core → Core) : (s.modCurC f).agenda = s.agenda := rfl
@[simp] theorem State.modCurC_fresh (s : State) (f : Core → Core) : (s.modCurC f).fresh = s.fresh := rfl
@[simp] theorem State.modCurC_time (s : State) (f : Core → Core) : (s.modCurC f).time = s.time := rfl
@[simp] theorem State.modCurC_wm (s : State) (f : Core → Core) : (s.modCurC f).wm = s.wm := rfl
@[simp] theorem State.modCurC_host (s : State) (f : Core → Core) : (s.modCurC f).host = s.host := rfl
@[simp] theorem State.modCurC_hostAbsent (s : State) (f : Core → Core) : (s.modCurC f).hostAbsent = s.hostAbsent := rfl
@[simp] theorem State.modCurC_ats (s : State) (f : Core → Core) : (s.modCurC f).ats = s.ats := rfl
@[simp] theorem State.modCurC_bars (s : State) (f : Core → Core) : (s.modCurC f).bars = s.bars := rfl
@[simp] theorem State.modCurC_peers (s : State) (f : Core → Core) : (s.modCurC f).peers = s.peers := rfl
@[simp] theorem State.modCurC_linksDown (s : State) (f : Core → Core) : (s.modCurC f).linksDown = s.linksDown := rfl
@[simp] theorem State.modCurC_inbound (s : State) (f : Core → Core) : (s.modCurC f).inbound = s.inbound := rfl
@[simp] theorem State.modCurC_corrected (s : State) (f : Core → Core) : (s.modCurC f).corrected = s.corrected := rfl
@[simp] theorem State.modCurC_jtagIr (s : State) (f : Core → Core) : (s.modCurC f).jtagIr = s.jtagIr := rfl
@[simp] theorem State.modCurC_jtagDr (s : State) (f : Core → Core) : (s.modCurC f).jtagDr = s.jtagDr := rfl
@[simp] theorem State.modCurC_sysCores (s : State) (f : Core → Core) : (s.modCurC f).sysCores = s.sysCores := rfl
@[simp] theorem State.modCurC_users (s : State) (f : Core → Core) : (s.modCurC f).users = s.users := rfl
@[simp] theorem State.modCurC_qmem (s : State) (f : Core → Core) : (s.modCurC f).qmem = s.qmem := rfl
@[simp] theorem State.modCurC_wmPoison (s : State) (f : Core → Core) : (s.modCurC f).wmPoison = s.wmPoison := rfl
@[simp] theorem State.modCurC_qPoison (s : State) (f : Core → Core) : (s.modCurC f).qPoison = s.qPoison := rfl
@[simp] theorem State.modCurC_fatal (s : State) (f : Core → Core) : (s.modCurC f).fatal = s.fatal := rfl
@[simp] theorem State.modCurC_boot (s : State) (f : Core → Core) : (s.modCurC f).boot = s.boot := rfl
@[simp] theorem State.modCurC_banks (s : State) (f : Core → Core) : (s.modCurC f).banks = s.banks := rfl
@[simp] theorem State.modCurC_dbg (s : State) (f : Core → Core) : (s.modCurC f).dbg = s.dbg := rfl
@[simp] theorem State.modCurC_xhclm (s : State) (f : Core → Core) : (s.modCurC f).xhclm = s.xhclm := rfl
@[simp] theorem State.modCurC_xtrcore (s : State) (f : Core → Core) : (s.modCurC f).xtrcore = s.xtrcore := rfl
@[simp] theorem State.modCurC_dies (s : State) (f : Core → Core) : (s.modCurC f).dies = s.dies := rfl
@[simp] theorem State.modCurC_parts (s : State) (f : Core → Core) : (s.modCurC f).parts = s.parts := rfl
@[simp] theorem State.modCurC_seals (s : State) (f : Core → Core) : (s.modCurC f).seals = s.seals := rfl
@[simp] theorem State.modCurC_disp (s : State) (f : Core → Core) : (s.modCurC f).disp = s.disp := rfl
@[simp] theorem State.modCurC_queries (s : State) (f : Core → Core) : (s.modCurC f).queries = s.queries := rfl
@[simp] theorem State.modCurC_pageOps (s : State) (f : Core → Core) : (s.modCurC f).pageOps = s.pageOps := rfl
@[simp] theorem State.modCurC_nextId (s : State) (f : Core → Core) : (s.modCurC f).nextId = s.nextId := rfl
@[simp] theorem State.modCurC_clusters (s : State) (f : Core → Core) : (s.modCurC f).clusters = s.clusters := rfl
@[simp] theorem State.modCurC_baseDies (s : State) (f : Core → Core) : (s.modCurC f).baseDies = s.baseDies := rfl
@[simp] theorem State.modCurC_engines (s : State) (f : Core → Core) : (s.modCurC f).engines = s.engines := rfl

/-! modVec -/
@[simp] theorem State.modVec_curCore (s : State) (f : VecUnit → VecUnit) : (s.modVec f).curCore = s.curCore := rfl
@[simp] theorem State.modVec_curTid (s : State) (f : VecUnit → VecUnit) : (s.modVec f).curTid = s.curTid := rfl
@[simp] theorem State.modVec_agenda (s : State) (f : VecUnit → VecUnit) : (s.modVec f).agenda = s.agenda := rfl
@[simp] theorem State.modVec_fresh (s : State) (f : VecUnit → VecUnit) : (s.modVec f).fresh = s.fresh := rfl
@[simp] theorem State.modVec_time (s : State) (f : VecUnit → VecUnit) : (s.modVec f).time = s.time := rfl
@[simp] theorem State.modVec_wm (s : State) (f : VecUnit → VecUnit) : (s.modVec f).wm = s.wm := rfl
@[simp] theorem State.modVec_host (s : State) (f : VecUnit → VecUnit) : (s.modVec f).host = s.host := rfl
@[simp] theorem State.modVec_hostAbsent (s : State) (f : VecUnit → VecUnit) : (s.modVec f).hostAbsent = s.hostAbsent := rfl
@[simp] theorem State.modVec_ats (s : State) (f : VecUnit → VecUnit) : (s.modVec f).ats = s.ats := rfl
@[simp] theorem State.modVec_bars (s : State) (f : VecUnit → VecUnit) : (s.modVec f).bars = s.bars := rfl
@[simp] theorem State.modVec_peers (s : State) (f : VecUnit → VecUnit) : (s.modVec f).peers = s.peers := rfl
@[simp] theorem State.modVec_linksDown (s : State) (f : VecUnit → VecUnit) : (s.modVec f).linksDown = s.linksDown := rfl
@[simp] theorem State.modVec_inbound (s : State) (f : VecUnit → VecUnit) : (s.modVec f).inbound = s.inbound := rfl
@[simp] theorem State.modVec_corrected (s : State) (f : VecUnit → VecUnit) : (s.modVec f).corrected = s.corrected := rfl
@[simp] theorem State.modVec_jtagIr (s : State) (f : VecUnit → VecUnit) : (s.modVec f).jtagIr = s.jtagIr := rfl
@[simp] theorem State.modVec_jtagDr (s : State) (f : VecUnit → VecUnit) : (s.modVec f).jtagDr = s.jtagDr := rfl
@[simp] theorem State.modVec_sysCores (s : State) (f : VecUnit → VecUnit) : (s.modVec f).sysCores = s.sysCores := rfl
@[simp] theorem State.modVec_users (s : State) (f : VecUnit → VecUnit) : (s.modVec f).users = s.users := rfl
@[simp] theorem State.modVec_qmem (s : State) (f : VecUnit → VecUnit) : (s.modVec f).qmem = s.qmem := rfl
@[simp] theorem State.modVec_wmPoison (s : State) (f : VecUnit → VecUnit) : (s.modVec f).wmPoison = s.wmPoison := rfl
@[simp] theorem State.modVec_qPoison (s : State) (f : VecUnit → VecUnit) : (s.modVec f).qPoison = s.qPoison := rfl
@[simp] theorem State.modVec_fatal (s : State) (f : VecUnit → VecUnit) : (s.modVec f).fatal = s.fatal := rfl
@[simp] theorem State.modVec_boot (s : State) (f : VecUnit → VecUnit) : (s.modVec f).boot = s.boot := rfl
@[simp] theorem State.modVec_banks (s : State) (f : VecUnit → VecUnit) : (s.modVec f).banks = s.banks := rfl
@[simp] theorem State.modVec_dbg (s : State) (f : VecUnit → VecUnit) : (s.modVec f).dbg = s.dbg := rfl
@[simp] theorem State.modVec_xhclm (s : State) (f : VecUnit → VecUnit) : (s.modVec f).xhclm = s.xhclm := rfl
@[simp] theorem State.modVec_xtrcore (s : State) (f : VecUnit → VecUnit) : (s.modVec f).xtrcore = s.xtrcore := rfl
@[simp] theorem State.modVec_dies (s : State) (f : VecUnit → VecUnit) : (s.modVec f).dies = s.dies := rfl
@[simp] theorem State.modVec_parts (s : State) (f : VecUnit → VecUnit) : (s.modVec f).parts = s.parts := rfl
@[simp] theorem State.modVec_seals (s : State) (f : VecUnit → VecUnit) : (s.modVec f).seals = s.seals := rfl
@[simp] theorem State.modVec_disp (s : State) (f : VecUnit → VecUnit) : (s.modVec f).disp = s.disp := rfl
@[simp] theorem State.modVec_queries (s : State) (f : VecUnit → VecUnit) : (s.modVec f).queries = s.queries := rfl
@[simp] theorem State.modVec_pageOps (s : State) (f : VecUnit → VecUnit) : (s.modVec f).pageOps = s.pageOps := rfl
@[simp] theorem State.modVec_nextId (s : State) (f : VecUnit → VecUnit) : (s.modVec f).nextId = s.nextId := rfl
@[simp] theorem State.modVec_clusters (s : State) (f : VecUnit → VecUnit) : (s.modVec f).clusters = s.clusters := rfl
@[simp] theorem State.modVec_baseDies (s : State) (f : VecUnit → VecUnit) : (s.modVec f).baseDies = s.baseDies := rfl
@[simp] theorem State.modVec_engines (s : State) (f : VecUnit → VecUnit) : (s.modVec f).engines = s.engines := rfl

/-! modMat -/
@[simp] theorem State.modMat_curCore (s : State) (f : MatUnit → MatUnit) : (s.modMat f).curCore = s.curCore := rfl
@[simp] theorem State.modMat_curTid (s : State) (f : MatUnit → MatUnit) : (s.modMat f).curTid = s.curTid := rfl
@[simp] theorem State.modMat_agenda (s : State) (f : MatUnit → MatUnit) : (s.modMat f).agenda = s.agenda := rfl
@[simp] theorem State.modMat_fresh (s : State) (f : MatUnit → MatUnit) : (s.modMat f).fresh = s.fresh := rfl
@[simp] theorem State.modMat_time (s : State) (f : MatUnit → MatUnit) : (s.modMat f).time = s.time := rfl
@[simp] theorem State.modMat_wm (s : State) (f : MatUnit → MatUnit) : (s.modMat f).wm = s.wm := rfl
@[simp] theorem State.modMat_host (s : State) (f : MatUnit → MatUnit) : (s.modMat f).host = s.host := rfl
@[simp] theorem State.modMat_hostAbsent (s : State) (f : MatUnit → MatUnit) : (s.modMat f).hostAbsent = s.hostAbsent := rfl
@[simp] theorem State.modMat_ats (s : State) (f : MatUnit → MatUnit) : (s.modMat f).ats = s.ats := rfl
@[simp] theorem State.modMat_bars (s : State) (f : MatUnit → MatUnit) : (s.modMat f).bars = s.bars := rfl
@[simp] theorem State.modMat_peers (s : State) (f : MatUnit → MatUnit) : (s.modMat f).peers = s.peers := rfl
@[simp] theorem State.modMat_linksDown (s : State) (f : MatUnit → MatUnit) : (s.modMat f).linksDown = s.linksDown := rfl
@[simp] theorem State.modMat_inbound (s : State) (f : MatUnit → MatUnit) : (s.modMat f).inbound = s.inbound := rfl
@[simp] theorem State.modMat_corrected (s : State) (f : MatUnit → MatUnit) : (s.modMat f).corrected = s.corrected := rfl
@[simp] theorem State.modMat_jtagIr (s : State) (f : MatUnit → MatUnit) : (s.modMat f).jtagIr = s.jtagIr := rfl
@[simp] theorem State.modMat_jtagDr (s : State) (f : MatUnit → MatUnit) : (s.modMat f).jtagDr = s.jtagDr := rfl
@[simp] theorem State.modMat_sysCores (s : State) (f : MatUnit → MatUnit) : (s.modMat f).sysCores = s.sysCores := rfl
@[simp] theorem State.modMat_users (s : State) (f : MatUnit → MatUnit) : (s.modMat f).users = s.users := rfl
@[simp] theorem State.modMat_qmem (s : State) (f : MatUnit → MatUnit) : (s.modMat f).qmem = s.qmem := rfl
@[simp] theorem State.modMat_wmPoison (s : State) (f : MatUnit → MatUnit) : (s.modMat f).wmPoison = s.wmPoison := rfl
@[simp] theorem State.modMat_qPoison (s : State) (f : MatUnit → MatUnit) : (s.modMat f).qPoison = s.qPoison := rfl
@[simp] theorem State.modMat_fatal (s : State) (f : MatUnit → MatUnit) : (s.modMat f).fatal = s.fatal := rfl
@[simp] theorem State.modMat_boot (s : State) (f : MatUnit → MatUnit) : (s.modMat f).boot = s.boot := rfl
@[simp] theorem State.modMat_banks (s : State) (f : MatUnit → MatUnit) : (s.modMat f).banks = s.banks := rfl
@[simp] theorem State.modMat_dbg (s : State) (f : MatUnit → MatUnit) : (s.modMat f).dbg = s.dbg := rfl
@[simp] theorem State.modMat_xhclm (s : State) (f : MatUnit → MatUnit) : (s.modMat f).xhclm = s.xhclm := rfl
@[simp] theorem State.modMat_xtrcore (s : State) (f : MatUnit → MatUnit) : (s.modMat f).xtrcore = s.xtrcore := rfl
@[simp] theorem State.modMat_dies (s : State) (f : MatUnit → MatUnit) : (s.modMat f).dies = s.dies := rfl
@[simp] theorem State.modMat_parts (s : State) (f : MatUnit → MatUnit) : (s.modMat f).parts = s.parts := rfl
@[simp] theorem State.modMat_seals (s : State) (f : MatUnit → MatUnit) : (s.modMat f).seals = s.seals := rfl
@[simp] theorem State.modMat_disp (s : State) (f : MatUnit → MatUnit) : (s.modMat f).disp = s.disp := rfl
@[simp] theorem State.modMat_queries (s : State) (f : MatUnit → MatUnit) : (s.modMat f).queries = s.queries := rfl
@[simp] theorem State.modMat_pageOps (s : State) (f : MatUnit → MatUnit) : (s.modMat f).pageOps = s.pageOps := rfl
@[simp] theorem State.modMat_nextId (s : State) (f : MatUnit → MatUnit) : (s.modMat f).nextId = s.nextId := rfl
@[simp] theorem State.modMat_clusters (s : State) (f : MatUnit → MatUnit) : (s.modMat f).clusters = s.clusters := rfl
@[simp] theorem State.modMat_baseDies (s : State) (f : MatUnit → MatUnit) : (s.modMat f).baseDies = s.baseDies := rfl
@[simp] theorem State.modMat_engines (s : State) (f : MatUnit → MatUnit) : (s.modMat f).engines = s.engines := rfl

/-! setSreg -/
@[simp] theorem State.setSreg_curCore (s : State) (r : SReg) (v : Word) : (s.setSreg r v).curCore = s.curCore := rfl
@[simp] theorem State.setSreg_curTid (s : State) (r : SReg) (v : Word) : (s.setSreg r v).curTid = s.curTid := rfl
@[simp] theorem State.setSreg_agenda (s : State) (r : SReg) (v : Word) : (s.setSreg r v).agenda = s.agenda := rfl
@[simp] theorem State.setSreg_fresh (s : State) (r : SReg) (v : Word) : (s.setSreg r v).fresh = s.fresh := rfl
@[simp] theorem State.setSreg_time (s : State) (r : SReg) (v : Word) : (s.setSreg r v).time = s.time := rfl
@[simp] theorem State.setSreg_wm (s : State) (r : SReg) (v : Word) : (s.setSreg r v).wm = s.wm := rfl
@[simp] theorem State.setSreg_host (s : State) (r : SReg) (v : Word) : (s.setSreg r v).host = s.host := rfl
@[simp] theorem State.setSreg_hostAbsent (s : State) (r : SReg) (v : Word) : (s.setSreg r v).hostAbsent = s.hostAbsent := rfl
@[simp] theorem State.setSreg_ats (s : State) (r : SReg) (v : Word) : (s.setSreg r v).ats = s.ats := rfl
@[simp] theorem State.setSreg_bars (s : State) (r : SReg) (v : Word) : (s.setSreg r v).bars = s.bars := rfl
@[simp] theorem State.setSreg_peers (s : State) (r : SReg) (v : Word) : (s.setSreg r v).peers = s.peers := rfl
@[simp] theorem State.setSreg_linksDown (s : State) (r : SReg) (v : Word) : (s.setSreg r v).linksDown = s.linksDown := rfl
@[simp] theorem State.setSreg_inbound (s : State) (r : SReg) (v : Word) : (s.setSreg r v).inbound = s.inbound := rfl
@[simp] theorem State.setSreg_corrected (s : State) (r : SReg) (v : Word) : (s.setSreg r v).corrected = s.corrected := rfl
@[simp] theorem State.setSreg_jtagIr (s : State) (r : SReg) (v : Word) : (s.setSreg r v).jtagIr = s.jtagIr := rfl
@[simp] theorem State.setSreg_jtagDr (s : State) (r : SReg) (v : Word) : (s.setSreg r v).jtagDr = s.jtagDr := rfl
@[simp] theorem State.setSreg_sysCores (s : State) (r : SReg) (v : Word) : (s.setSreg r v).sysCores = s.sysCores := rfl
@[simp] theorem State.setSreg_users (s : State) (r : SReg) (v : Word) : (s.setSreg r v).users = s.users := rfl
@[simp] theorem State.setSreg_qmem (s : State) (r : SReg) (v : Word) : (s.setSreg r v).qmem = s.qmem := rfl
@[simp] theorem State.setSreg_wmPoison (s : State) (r : SReg) (v : Word) : (s.setSreg r v).wmPoison = s.wmPoison := rfl
@[simp] theorem State.setSreg_qPoison (s : State) (r : SReg) (v : Word) : (s.setSreg r v).qPoison = s.qPoison := rfl
@[simp] theorem State.setSreg_fatal (s : State) (r : SReg) (v : Word) : (s.setSreg r v).fatal = s.fatal := rfl
@[simp] theorem State.setSreg_boot (s : State) (r : SReg) (v : Word) : (s.setSreg r v).boot = s.boot := rfl
@[simp] theorem State.setSreg_banks (s : State) (r : SReg) (v : Word) : (s.setSreg r v).banks = s.banks := rfl
@[simp] theorem State.setSreg_dbg (s : State) (r : SReg) (v : Word) : (s.setSreg r v).dbg = s.dbg := rfl
@[simp] theorem State.setSreg_xhclm (s : State) (r : SReg) (v : Word) : (s.setSreg r v).xhclm = s.xhclm := rfl
@[simp] theorem State.setSreg_xtrcore (s : State) (r : SReg) (v : Word) : (s.setSreg r v).xtrcore = s.xtrcore := rfl
@[simp] theorem State.setSreg_dies (s : State) (r : SReg) (v : Word) : (s.setSreg r v).dies = s.dies := rfl
@[simp] theorem State.setSreg_parts (s : State) (r : SReg) (v : Word) : (s.setSreg r v).parts = s.parts := rfl
@[simp] theorem State.setSreg_seals (s : State) (r : SReg) (v : Word) : (s.setSreg r v).seals = s.seals := rfl
@[simp] theorem State.setSreg_disp (s : State) (r : SReg) (v : Word) : (s.setSreg r v).disp = s.disp := rfl
@[simp] theorem State.setSreg_queries (s : State) (r : SReg) (v : Word) : (s.setSreg r v).queries = s.queries := rfl
@[simp] theorem State.setSreg_pageOps (s : State) (r : SReg) (v : Word) : (s.setSreg r v).pageOps = s.pageOps := rfl
@[simp] theorem State.setSreg_nextId (s : State) (r : SReg) (v : Word) : (s.setSreg r v).nextId = s.nextId := rfl
@[simp] theorem State.setSreg_clusters (s : State) (r : SReg) (v : Word) : (s.setSreg r v).clusters = s.clusters := rfl
@[simp] theorem State.setSreg_baseDies (s : State) (r : SReg) (v : Word) : (s.setSreg r v).baseDies = s.baseDies := rfl
@[simp] theorem State.setSreg_engines (s : State) (r : SReg) (v : Word) : (s.setSreg r v).engines = s.engines := rfl

/-! advance -/
@[simp] theorem State.advance_curCore (s : State) : (s.advance).curCore = s.curCore := rfl
@[simp] theorem State.advance_curTid (s : State) : (s.advance).curTid = s.curTid := rfl
@[simp] theorem State.advance_agenda (s : State) : (s.advance).agenda = s.agenda := rfl
@[simp] theorem State.advance_fresh (s : State) : (s.advance).fresh = s.fresh := rfl
@[simp] theorem State.advance_time (s : State) : (s.advance).time = s.time := rfl
@[simp] theorem State.advance_wm (s : State) : (s.advance).wm = s.wm := rfl
@[simp] theorem State.advance_host (s : State) : (s.advance).host = s.host := rfl
@[simp] theorem State.advance_hostAbsent (s : State) : (s.advance).hostAbsent = s.hostAbsent := rfl
@[simp] theorem State.advance_ats (s : State) : (s.advance).ats = s.ats := rfl
@[simp] theorem State.advance_bars (s : State) : (s.advance).bars = s.bars := rfl
@[simp] theorem State.advance_peers (s : State) : (s.advance).peers = s.peers := rfl
@[simp] theorem State.advance_linksDown (s : State) : (s.advance).linksDown = s.linksDown := rfl
@[simp] theorem State.advance_inbound (s : State) : (s.advance).inbound = s.inbound := rfl
@[simp] theorem State.advance_corrected (s : State) : (s.advance).corrected = s.corrected := rfl
@[simp] theorem State.advance_jtagIr (s : State) : (s.advance).jtagIr = s.jtagIr := rfl
@[simp] theorem State.advance_jtagDr (s : State) : (s.advance).jtagDr = s.jtagDr := rfl
@[simp] theorem State.advance_sysCores (s : State) : (s.advance).sysCores = s.sysCores := rfl
@[simp] theorem State.advance_users (s : State) : (s.advance).users = s.users := rfl
@[simp] theorem State.advance_qmem (s : State) : (s.advance).qmem = s.qmem := rfl
@[simp] theorem State.advance_wmPoison (s : State) : (s.advance).wmPoison = s.wmPoison := rfl
@[simp] theorem State.advance_qPoison (s : State) : (s.advance).qPoison = s.qPoison := rfl
@[simp] theorem State.advance_fatal (s : State) : (s.advance).fatal = s.fatal := rfl
@[simp] theorem State.advance_boot (s : State) : (s.advance).boot = s.boot := rfl
@[simp] theorem State.advance_banks (s : State) : (s.advance).banks = s.banks := rfl
@[simp] theorem State.advance_dbg (s : State) : (s.advance).dbg = s.dbg := rfl
@[simp] theorem State.advance_xhclm (s : State) : (s.advance).xhclm = s.xhclm := rfl
@[simp] theorem State.advance_xtrcore (s : State) : (s.advance).xtrcore = s.xtrcore := rfl
@[simp] theorem State.advance_dies (s : State) : (s.advance).dies = s.dies := rfl
@[simp] theorem State.advance_parts (s : State) : (s.advance).parts = s.parts := rfl
@[simp] theorem State.advance_seals (s : State) : (s.advance).seals = s.seals := rfl
@[simp] theorem State.advance_disp (s : State) : (s.advance).disp = s.disp := rfl
@[simp] theorem State.advance_queries (s : State) : (s.advance).queries = s.queries := rfl
@[simp] theorem State.advance_pageOps (s : State) : (s.advance).pageOps = s.pageOps := rfl
@[simp] theorem State.advance_nextId (s : State) : (s.advance).nextId = s.nextId := rfl
@[simp] theorem State.advance_clusters (s : State) : (s.advance).clusters = s.clusters := rfl
@[simp] theorem State.advance_baseDies (s : State) : (s.advance).baseDies = s.baseDies := rfl
@[simp] theorem State.advance_engines (s : State) : (s.advance).engines = s.engines := rfl

/-! jump -/
@[simp] theorem State.jump_curCore (s : State) (pc : Word) : (s.jump pc).curCore = s.curCore := rfl
@[simp] theorem State.jump_curTid (s : State) (pc : Word) : (s.jump pc).curTid = s.curTid := rfl
@[simp] theorem State.jump_agenda (s : State) (pc : Word) : (s.jump pc).agenda = s.agenda := rfl
@[simp] theorem State.jump_fresh (s : State) (pc : Word) : (s.jump pc).fresh = s.fresh := rfl
@[simp] theorem State.jump_time (s : State) (pc : Word) : (s.jump pc).time = s.time := rfl
@[simp] theorem State.jump_wm (s : State) (pc : Word) : (s.jump pc).wm = s.wm := rfl
@[simp] theorem State.jump_host (s : State) (pc : Word) : (s.jump pc).host = s.host := rfl
@[simp] theorem State.jump_hostAbsent (s : State) (pc : Word) : (s.jump pc).hostAbsent = s.hostAbsent := rfl
@[simp] theorem State.jump_ats (s : State) (pc : Word) : (s.jump pc).ats = s.ats := rfl
@[simp] theorem State.jump_bars (s : State) (pc : Word) : (s.jump pc).bars = s.bars := rfl
@[simp] theorem State.jump_peers (s : State) (pc : Word) : (s.jump pc).peers = s.peers := rfl
@[simp] theorem State.jump_linksDown (s : State) (pc : Word) : (s.jump pc).linksDown = s.linksDown := rfl
@[simp] theorem State.jump_inbound (s : State) (pc : Word) : (s.jump pc).inbound = s.inbound := rfl
@[simp] theorem State.jump_corrected (s : State) (pc : Word) : (s.jump pc).corrected = s.corrected := rfl
@[simp] theorem State.jump_jtagIr (s : State) (pc : Word) : (s.jump pc).jtagIr = s.jtagIr := rfl
@[simp] theorem State.jump_jtagDr (s : State) (pc : Word) : (s.jump pc).jtagDr = s.jtagDr := rfl
@[simp] theorem State.jump_sysCores (s : State) (pc : Word) : (s.jump pc).sysCores = s.sysCores := rfl
@[simp] theorem State.jump_users (s : State) (pc : Word) : (s.jump pc).users = s.users := rfl
@[simp] theorem State.jump_qmem (s : State) (pc : Word) : (s.jump pc).qmem = s.qmem := rfl
@[simp] theorem State.jump_wmPoison (s : State) (pc : Word) : (s.jump pc).wmPoison = s.wmPoison := rfl
@[simp] theorem State.jump_qPoison (s : State) (pc : Word) : (s.jump pc).qPoison = s.qPoison := rfl
@[simp] theorem State.jump_fatal (s : State) (pc : Word) : (s.jump pc).fatal = s.fatal := rfl
@[simp] theorem State.jump_boot (s : State) (pc : Word) : (s.jump pc).boot = s.boot := rfl
@[simp] theorem State.jump_banks (s : State) (pc : Word) : (s.jump pc).banks = s.banks := rfl
@[simp] theorem State.jump_dbg (s : State) (pc : Word) : (s.jump pc).dbg = s.dbg := rfl
@[simp] theorem State.jump_xhclm (s : State) (pc : Word) : (s.jump pc).xhclm = s.xhclm := rfl
@[simp] theorem State.jump_xtrcore (s : State) (pc : Word) : (s.jump pc).xtrcore = s.xtrcore := rfl
@[simp] theorem State.jump_dies (s : State) (pc : Word) : (s.jump pc).dies = s.dies := rfl
@[simp] theorem State.jump_parts (s : State) (pc : Word) : (s.jump pc).parts = s.parts := rfl
@[simp] theorem State.jump_seals (s : State) (pc : Word) : (s.jump pc).seals = s.seals := rfl
@[simp] theorem State.jump_disp (s : State) (pc : Word) : (s.jump pc).disp = s.disp := rfl
@[simp] theorem State.jump_queries (s : State) (pc : Word) : (s.jump pc).queries = s.queries := rfl
@[simp] theorem State.jump_pageOps (s : State) (pc : Word) : (s.jump pc).pageOps = s.pageOps := rfl
@[simp] theorem State.jump_nextId (s : State) (pc : Word) : (s.jump pc).nextId = s.nextId := rfl
@[simp] theorem State.jump_clusters (s : State) (pc : Word) : (s.jump pc).clusters = s.clusters := rfl
@[simp] theorem State.jump_baseDies (s : State) (pc : Word) : (s.jump pc).baseDies = s.baseDies := rfl
@[simp] theorem State.jump_engines (s : State) (pc : Word) : (s.jump pc).engines = s.engines := rfl

/-! finish -/
@[simp] theorem State.finish_curCore (s : State) (d : SReg) (v : Word) : (s.finish d v).curCore = s.curCore := rfl
@[simp] theorem State.finish_curTid (s : State) (d : SReg) (v : Word) : (s.finish d v).curTid = s.curTid := rfl
@[simp] theorem State.finish_agenda (s : State) (d : SReg) (v : Word) : (s.finish d v).agenda = s.agenda := rfl
@[simp] theorem State.finish_fresh (s : State) (d : SReg) (v : Word) : (s.finish d v).fresh = s.fresh := rfl
@[simp] theorem State.finish_time (s : State) (d : SReg) (v : Word) : (s.finish d v).time = s.time := rfl
@[simp] theorem State.finish_wm (s : State) (d : SReg) (v : Word) : (s.finish d v).wm = s.wm := rfl
@[simp] theorem State.finish_host (s : State) (d : SReg) (v : Word) : (s.finish d v).host = s.host := rfl
@[simp] theorem State.finish_hostAbsent (s : State) (d : SReg) (v : Word) : (s.finish d v).hostAbsent = s.hostAbsent := rfl
@[simp] theorem State.finish_ats (s : State) (d : SReg) (v : Word) : (s.finish d v).ats = s.ats := rfl
@[simp] theorem State.finish_bars (s : State) (d : SReg) (v : Word) : (s.finish d v).bars = s.bars := rfl
@[simp] theorem State.finish_peers (s : State) (d : SReg) (v : Word) : (s.finish d v).peers = s.peers := rfl
@[simp] theorem State.finish_linksDown (s : State) (d : SReg) (v : Word) : (s.finish d v).linksDown = s.linksDown := rfl
@[simp] theorem State.finish_inbound (s : State) (d : SReg) (v : Word) : (s.finish d v).inbound = s.inbound := rfl
@[simp] theorem State.finish_corrected (s : State) (d : SReg) (v : Word) : (s.finish d v).corrected = s.corrected := rfl
@[simp] theorem State.finish_jtagIr (s : State) (d : SReg) (v : Word) : (s.finish d v).jtagIr = s.jtagIr := rfl
@[simp] theorem State.finish_jtagDr (s : State) (d : SReg) (v : Word) : (s.finish d v).jtagDr = s.jtagDr := rfl
@[simp] theorem State.finish_sysCores (s : State) (d : SReg) (v : Word) : (s.finish d v).sysCores = s.sysCores := rfl
@[simp] theorem State.finish_users (s : State) (d : SReg) (v : Word) : (s.finish d v).users = s.users := rfl
@[simp] theorem State.finish_qmem (s : State) (d : SReg) (v : Word) : (s.finish d v).qmem = s.qmem := rfl
@[simp] theorem State.finish_wmPoison (s : State) (d : SReg) (v : Word) : (s.finish d v).wmPoison = s.wmPoison := rfl
@[simp] theorem State.finish_qPoison (s : State) (d : SReg) (v : Word) : (s.finish d v).qPoison = s.qPoison := rfl
@[simp] theorem State.finish_fatal (s : State) (d : SReg) (v : Word) : (s.finish d v).fatal = s.fatal := rfl
@[simp] theorem State.finish_boot (s : State) (d : SReg) (v : Word) : (s.finish d v).boot = s.boot := rfl
@[simp] theorem State.finish_banks (s : State) (d : SReg) (v : Word) : (s.finish d v).banks = s.banks := rfl
@[simp] theorem State.finish_dbg (s : State) (d : SReg) (v : Word) : (s.finish d v).dbg = s.dbg := rfl
@[simp] theorem State.finish_xhclm (s : State) (d : SReg) (v : Word) : (s.finish d v).xhclm = s.xhclm := rfl
@[simp] theorem State.finish_xtrcore (s : State) (d : SReg) (v : Word) : (s.finish d v).xtrcore = s.xtrcore := rfl
@[simp] theorem State.finish_dies (s : State) (d : SReg) (v : Word) : (s.finish d v).dies = s.dies := rfl
@[simp] theorem State.finish_parts (s : State) (d : SReg) (v : Word) : (s.finish d v).parts = s.parts := rfl
@[simp] theorem State.finish_seals (s : State) (d : SReg) (v : Word) : (s.finish d v).seals = s.seals := rfl
@[simp] theorem State.finish_disp (s : State) (d : SReg) (v : Word) : (s.finish d v).disp = s.disp := rfl
@[simp] theorem State.finish_queries (s : State) (d : SReg) (v : Word) : (s.finish d v).queries = s.queries := rfl
@[simp] theorem State.finish_pageOps (s : State) (d : SReg) (v : Word) : (s.finish d v).pageOps = s.pageOps := rfl
@[simp] theorem State.finish_nextId (s : State) (d : SReg) (v : Word) : (s.finish d v).nextId = s.nextId := rfl
@[simp] theorem State.finish_clusters (s : State) (d : SReg) (v : Word) : (s.finish d v).clusters = s.clusters := rfl
@[simp] theorem State.finish_baseDies (s : State) (d : SReg) (v : Word) : (s.finish d v).baseDies = s.baseDies := rfl
@[simp] theorem State.finish_engines (s : State) (d : SReg) (v : Word) : (s.finish d v).engines = s.engines := rfl

/-! block -/
@[simp] theorem State.block_curCore (s : State) (w : Wait) : (s.block w).curCore = s.curCore := rfl
@[simp] theorem State.block_curTid (s : State) (w : Wait) : (s.block w).curTid = s.curTid := rfl
@[simp] theorem State.block_agenda (s : State) (w : Wait) : (s.block w).agenda = s.agenda := rfl
@[simp] theorem State.block_fresh (s : State) (w : Wait) : (s.block w).fresh = s.fresh := rfl
@[simp] theorem State.block_time (s : State) (w : Wait) : (s.block w).time = s.time := rfl
@[simp] theorem State.block_wm (s : State) (w : Wait) : (s.block w).wm = s.wm := rfl
@[simp] theorem State.block_host (s : State) (w : Wait) : (s.block w).host = s.host := rfl
@[simp] theorem State.block_hostAbsent (s : State) (w : Wait) : (s.block w).hostAbsent = s.hostAbsent := rfl
@[simp] theorem State.block_ats (s : State) (w : Wait) : (s.block w).ats = s.ats := rfl
@[simp] theorem State.block_bars (s : State) (w : Wait) : (s.block w).bars = s.bars := rfl
@[simp] theorem State.block_peers (s : State) (w : Wait) : (s.block w).peers = s.peers := rfl
@[simp] theorem State.block_linksDown (s : State) (w : Wait) : (s.block w).linksDown = s.linksDown := rfl
@[simp] theorem State.block_inbound (s : State) (w : Wait) : (s.block w).inbound = s.inbound := rfl
@[simp] theorem State.block_corrected (s : State) (w : Wait) : (s.block w).corrected = s.corrected := rfl
@[simp] theorem State.block_jtagIr (s : State) (w : Wait) : (s.block w).jtagIr = s.jtagIr := rfl
@[simp] theorem State.block_jtagDr (s : State) (w : Wait) : (s.block w).jtagDr = s.jtagDr := rfl
@[simp] theorem State.block_sysCores (s : State) (w : Wait) : (s.block w).sysCores = s.sysCores := rfl
@[simp] theorem State.block_users (s : State) (w : Wait) : (s.block w).users = s.users := rfl
@[simp] theorem State.block_qmem (s : State) (w : Wait) : (s.block w).qmem = s.qmem := rfl
@[simp] theorem State.block_wmPoison (s : State) (w : Wait) : (s.block w).wmPoison = s.wmPoison := rfl
@[simp] theorem State.block_qPoison (s : State) (w : Wait) : (s.block w).qPoison = s.qPoison := rfl
@[simp] theorem State.block_fatal (s : State) (w : Wait) : (s.block w).fatal = s.fatal := rfl
@[simp] theorem State.block_boot (s : State) (w : Wait) : (s.block w).boot = s.boot := rfl
@[simp] theorem State.block_banks (s : State) (w : Wait) : (s.block w).banks = s.banks := rfl
@[simp] theorem State.block_dbg (s : State) (w : Wait) : (s.block w).dbg = s.dbg := rfl
@[simp] theorem State.block_xhclm (s : State) (w : Wait) : (s.block w).xhclm = s.xhclm := rfl
@[simp] theorem State.block_xtrcore (s : State) (w : Wait) : (s.block w).xtrcore = s.xtrcore := rfl
@[simp] theorem State.block_dies (s : State) (w : Wait) : (s.block w).dies = s.dies := rfl
@[simp] theorem State.block_parts (s : State) (w : Wait) : (s.block w).parts = s.parts := rfl
@[simp] theorem State.block_seals (s : State) (w : Wait) : (s.block w).seals = s.seals := rfl
@[simp] theorem State.block_disp (s : State) (w : Wait) : (s.block w).disp = s.disp := rfl
@[simp] theorem State.block_queries (s : State) (w : Wait) : (s.block w).queries = s.queries := rfl
@[simp] theorem State.block_pageOps (s : State) (w : Wait) : (s.block w).pageOps = s.pageOps := rfl
@[simp] theorem State.block_nextId (s : State) (w : Wait) : (s.block w).nextId = s.nextId := rfl
@[simp] theorem State.block_clusters (s : State) (w : Wait) : (s.block w).clusters = s.clusters := rfl
@[simp] theorem State.block_baseDies (s : State) (w : Wait) : (s.block w).baseDies = s.baseDies := rfl
@[simp] theorem State.block_engines (s : State) (w : Wait) : (s.block w).engines = s.engines := rfl

/-! accrue -/
@[simp] theorem State.accrue_curCore (s : State) (x : BitVec 5) : (s.accrue x).curCore = s.curCore := rfl
@[simp] theorem State.accrue_curTid (s : State) (x : BitVec 5) : (s.accrue x).curTid = s.curTid := rfl
@[simp] theorem State.accrue_agenda (s : State) (x : BitVec 5) : (s.accrue x).agenda = s.agenda := rfl
@[simp] theorem State.accrue_fresh (s : State) (x : BitVec 5) : (s.accrue x).fresh = s.fresh := rfl
@[simp] theorem State.accrue_time (s : State) (x : BitVec 5) : (s.accrue x).time = s.time := rfl
@[simp] theorem State.accrue_wm (s : State) (x : BitVec 5) : (s.accrue x).wm = s.wm := rfl
@[simp] theorem State.accrue_host (s : State) (x : BitVec 5) : (s.accrue x).host = s.host := rfl
@[simp] theorem State.accrue_hostAbsent (s : State) (x : BitVec 5) : (s.accrue x).hostAbsent = s.hostAbsent := rfl
@[simp] theorem State.accrue_ats (s : State) (x : BitVec 5) : (s.accrue x).ats = s.ats := rfl
@[simp] theorem State.accrue_bars (s : State) (x : BitVec 5) : (s.accrue x).bars = s.bars := rfl
@[simp] theorem State.accrue_peers (s : State) (x : BitVec 5) : (s.accrue x).peers = s.peers := rfl
@[simp] theorem State.accrue_linksDown (s : State) (x : BitVec 5) : (s.accrue x).linksDown = s.linksDown := rfl
@[simp] theorem State.accrue_inbound (s : State) (x : BitVec 5) : (s.accrue x).inbound = s.inbound := rfl
@[simp] theorem State.accrue_corrected (s : State) (x : BitVec 5) : (s.accrue x).corrected = s.corrected := rfl
@[simp] theorem State.accrue_jtagIr (s : State) (x : BitVec 5) : (s.accrue x).jtagIr = s.jtagIr := rfl
@[simp] theorem State.accrue_jtagDr (s : State) (x : BitVec 5) : (s.accrue x).jtagDr = s.jtagDr := rfl
@[simp] theorem State.accrue_sysCores (s : State) (x : BitVec 5) : (s.accrue x).sysCores = s.sysCores := rfl
@[simp] theorem State.accrue_users (s : State) (x : BitVec 5) : (s.accrue x).users = s.users := rfl
@[simp] theorem State.accrue_qmem (s : State) (x : BitVec 5) : (s.accrue x).qmem = s.qmem := rfl
@[simp] theorem State.accrue_wmPoison (s : State) (x : BitVec 5) : (s.accrue x).wmPoison = s.wmPoison := rfl
@[simp] theorem State.accrue_qPoison (s : State) (x : BitVec 5) : (s.accrue x).qPoison = s.qPoison := rfl
@[simp] theorem State.accrue_fatal (s : State) (x : BitVec 5) : (s.accrue x).fatal = s.fatal := rfl
@[simp] theorem State.accrue_boot (s : State) (x : BitVec 5) : (s.accrue x).boot = s.boot := rfl
@[simp] theorem State.accrue_banks (s : State) (x : BitVec 5) : (s.accrue x).banks = s.banks := rfl
@[simp] theorem State.accrue_dbg (s : State) (x : BitVec 5) : (s.accrue x).dbg = s.dbg := rfl
@[simp] theorem State.accrue_xhclm (s : State) (x : BitVec 5) : (s.accrue x).xhclm = s.xhclm := rfl
@[simp] theorem State.accrue_xtrcore (s : State) (x : BitVec 5) : (s.accrue x).xtrcore = s.xtrcore := rfl
@[simp] theorem State.accrue_dies (s : State) (x : BitVec 5) : (s.accrue x).dies = s.dies := rfl
@[simp] theorem State.accrue_parts (s : State) (x : BitVec 5) : (s.accrue x).parts = s.parts := rfl
@[simp] theorem State.accrue_seals (s : State) (x : BitVec 5) : (s.accrue x).seals = s.seals := rfl
@[simp] theorem State.accrue_disp (s : State) (x : BitVec 5) : (s.accrue x).disp = s.disp := rfl
@[simp] theorem State.accrue_queries (s : State) (x : BitVec 5) : (s.accrue x).queries = s.queries := rfl
@[simp] theorem State.accrue_pageOps (s : State) (x : BitVec 5) : (s.accrue x).pageOps = s.pageOps := rfl
@[simp] theorem State.accrue_nextId (s : State) (x : BitVec 5) : (s.accrue x).nextId = s.nextId := rfl
@[simp] theorem State.accrue_clusters (s : State) (x : BitVec 5) : (s.accrue x).clusters = s.clusters := rfl
@[simp] theorem State.accrue_baseDies (s : State) (x : BitVec 5) : (s.accrue x).baseDies = s.baseDies := rfl
@[simp] theorem State.accrue_engines (s : State) (x : BitVec 5) : (s.accrue x).engines = s.engines := rfl

/-! count -/
@[simp] theorem State.count_curCore (s : State) (ev n : Nat) : (s.count ev n).curCore = s.curCore := rfl
@[simp] theorem State.count_curTid (s : State) (ev n : Nat) : (s.count ev n).curTid = s.curTid := rfl
@[simp] theorem State.count_agenda (s : State) (ev n : Nat) : (s.count ev n).agenda = s.agenda := rfl
@[simp] theorem State.count_fresh (s : State) (ev n : Nat) : (s.count ev n).fresh = s.fresh := rfl
@[simp] theorem State.count_time (s : State) (ev n : Nat) : (s.count ev n).time = s.time := rfl
@[simp] theorem State.count_wm (s : State) (ev n : Nat) : (s.count ev n).wm = s.wm := rfl
@[simp] theorem State.count_host (s : State) (ev n : Nat) : (s.count ev n).host = s.host := rfl
@[simp] theorem State.count_hostAbsent (s : State) (ev n : Nat) : (s.count ev n).hostAbsent = s.hostAbsent := rfl
@[simp] theorem State.count_ats (s : State) (ev n : Nat) : (s.count ev n).ats = s.ats := rfl
@[simp] theorem State.count_bars (s : State) (ev n : Nat) : (s.count ev n).bars = s.bars := rfl
@[simp] theorem State.count_peers (s : State) (ev n : Nat) : (s.count ev n).peers = s.peers := rfl
@[simp] theorem State.count_linksDown (s : State) (ev n : Nat) : (s.count ev n).linksDown = s.linksDown := rfl
@[simp] theorem State.count_inbound (s : State) (ev n : Nat) : (s.count ev n).inbound = s.inbound := rfl
@[simp] theorem State.count_corrected (s : State) (ev n : Nat) : (s.count ev n).corrected = s.corrected := rfl
@[simp] theorem State.count_jtagIr (s : State) (ev n : Nat) : (s.count ev n).jtagIr = s.jtagIr := rfl
@[simp] theorem State.count_jtagDr (s : State) (ev n : Nat) : (s.count ev n).jtagDr = s.jtagDr := rfl
@[simp] theorem State.count_sysCores (s : State) (ev n : Nat) : (s.count ev n).sysCores = s.sysCores := rfl
@[simp] theorem State.count_users (s : State) (ev n : Nat) : (s.count ev n).users = s.users := rfl
@[simp] theorem State.count_qmem (s : State) (ev n : Nat) : (s.count ev n).qmem = s.qmem := rfl
@[simp] theorem State.count_wmPoison (s : State) (ev n : Nat) : (s.count ev n).wmPoison = s.wmPoison := rfl
@[simp] theorem State.count_qPoison (s : State) (ev n : Nat) : (s.count ev n).qPoison = s.qPoison := rfl
@[simp] theorem State.count_fatal (s : State) (ev n : Nat) : (s.count ev n).fatal = s.fatal := rfl
@[simp] theorem State.count_boot (s : State) (ev n : Nat) : (s.count ev n).boot = s.boot := rfl
@[simp] theorem State.count_banks (s : State) (ev n : Nat) : (s.count ev n).banks = s.banks := rfl
@[simp] theorem State.count_dbg (s : State) (ev n : Nat) : (s.count ev n).dbg = s.dbg := rfl
@[simp] theorem State.count_xhclm (s : State) (ev n : Nat) : (s.count ev n).xhclm = s.xhclm := rfl
@[simp] theorem State.count_xtrcore (s : State) (ev n : Nat) : (s.count ev n).xtrcore = s.xtrcore := rfl
@[simp] theorem State.count_dies (s : State) (ev n : Nat) : (s.count ev n).dies = s.dies := rfl
@[simp] theorem State.count_parts (s : State) (ev n : Nat) : (s.count ev n).parts = s.parts := rfl
@[simp] theorem State.count_seals (s : State) (ev n : Nat) : (s.count ev n).seals = s.seals := rfl
@[simp] theorem State.count_disp (s : State) (ev n : Nat) : (s.count ev n).disp = s.disp := rfl
@[simp] theorem State.count_queries (s : State) (ev n : Nat) : (s.count ev n).queries = s.queries := rfl
@[simp] theorem State.count_pageOps (s : State) (ev n : Nat) : (s.count ev n).pageOps = s.pageOps := rfl
@[simp] theorem State.count_nextId (s : State) (ev n : Nat) : (s.count ev n).nextId = s.nextId := rfl
@[simp] theorem State.count_clusters (s : State) (ev n : Nat) : (s.count ev n).clusters = s.clusters := rfl
@[simp] theorem State.count_baseDies (s : State) (ev n : Nat) : (s.count ev n).baseDies = s.baseDies := rfl
@[simp] theorem State.count_engines (s : State) (ev n : Nat) : (s.count ev n).engines = s.engines := rfl

/-! trapThr -/
@[simp] theorem State.trapThr_curCore (s : State) (k : CoreId) (t : Tid) (tr : Trap) (pc : Word) : (s.trapThr k t tr pc).curCore = s.curCore := rfl
@[simp] theorem State.trapThr_curTid (s : State) (k : CoreId) (t : Tid) (tr : Trap) (pc : Word) : (s.trapThr k t tr pc).curTid = s.curTid := rfl
@[simp] theorem State.trapThr_agenda (s : State) (k : CoreId) (t : Tid) (tr : Trap) (pc : Word) : (s.trapThr k t tr pc).agenda = s.agenda := rfl
@[simp] theorem State.trapThr_fresh (s : State) (k : CoreId) (t : Tid) (tr : Trap) (pc : Word) : (s.trapThr k t tr pc).fresh = s.fresh := rfl
@[simp] theorem State.trapThr_time (s : State) (k : CoreId) (t : Tid) (tr : Trap) (pc : Word) : (s.trapThr k t tr pc).time = s.time := rfl
@[simp] theorem State.trapThr_wm (s : State) (k : CoreId) (t : Tid) (tr : Trap) (pc : Word) : (s.trapThr k t tr pc).wm = s.wm := rfl
@[simp] theorem State.trapThr_host (s : State) (k : CoreId) (t : Tid) (tr : Trap) (pc : Word) : (s.trapThr k t tr pc).host = s.host := rfl
@[simp] theorem State.trapThr_hostAbsent (s : State) (k : CoreId) (t : Tid) (tr : Trap) (pc : Word) : (s.trapThr k t tr pc).hostAbsent = s.hostAbsent := rfl
@[simp] theorem State.trapThr_ats (s : State) (k : CoreId) (t : Tid) (tr : Trap) (pc : Word) : (s.trapThr k t tr pc).ats = s.ats := rfl
@[simp] theorem State.trapThr_bars (s : State) (k : CoreId) (t : Tid) (tr : Trap) (pc : Word) : (s.trapThr k t tr pc).bars = s.bars := rfl
@[simp] theorem State.trapThr_peers (s : State) (k : CoreId) (t : Tid) (tr : Trap) (pc : Word) : (s.trapThr k t tr pc).peers = s.peers := rfl
@[simp] theorem State.trapThr_linksDown (s : State) (k : CoreId) (t : Tid) (tr : Trap) (pc : Word) : (s.trapThr k t tr pc).linksDown = s.linksDown := rfl
@[simp] theorem State.trapThr_inbound (s : State) (k : CoreId) (t : Tid) (tr : Trap) (pc : Word) : (s.trapThr k t tr pc).inbound = s.inbound := rfl
@[simp] theorem State.trapThr_corrected (s : State) (k : CoreId) (t : Tid) (tr : Trap) (pc : Word) : (s.trapThr k t tr pc).corrected = s.corrected := rfl
@[simp] theorem State.trapThr_jtagIr (s : State) (k : CoreId) (t : Tid) (tr : Trap) (pc : Word) : (s.trapThr k t tr pc).jtagIr = s.jtagIr := rfl
@[simp] theorem State.trapThr_jtagDr (s : State) (k : CoreId) (t : Tid) (tr : Trap) (pc : Word) : (s.trapThr k t tr pc).jtagDr = s.jtagDr := rfl
@[simp] theorem State.trapThr_sysCores (s : State) (k : CoreId) (t : Tid) (tr : Trap) (pc : Word) : (s.trapThr k t tr pc).sysCores = s.sysCores := rfl
@[simp] theorem State.trapThr_users (s : State) (k : CoreId) (t : Tid) (tr : Trap) (pc : Word) : (s.trapThr k t tr pc).users = s.users := rfl
@[simp] theorem State.trapThr_qmem (s : State) (k : CoreId) (t : Tid) (tr : Trap) (pc : Word) : (s.trapThr k t tr pc).qmem = s.qmem := rfl
@[simp] theorem State.trapThr_wmPoison (s : State) (k : CoreId) (t : Tid) (tr : Trap) (pc : Word) : (s.trapThr k t tr pc).wmPoison = s.wmPoison := rfl
@[simp] theorem State.trapThr_qPoison (s : State) (k : CoreId) (t : Tid) (tr : Trap) (pc : Word) : (s.trapThr k t tr pc).qPoison = s.qPoison := rfl
@[simp] theorem State.trapThr_fatal (s : State) (k : CoreId) (t : Tid) (tr : Trap) (pc : Word) : (s.trapThr k t tr pc).fatal = s.fatal := rfl
@[simp] theorem State.trapThr_boot (s : State) (k : CoreId) (t : Tid) (tr : Trap) (pc : Word) : (s.trapThr k t tr pc).boot = s.boot := rfl
@[simp] theorem State.trapThr_banks (s : State) (k : CoreId) (t : Tid) (tr : Trap) (pc : Word) : (s.trapThr k t tr pc).banks = s.banks := rfl
@[simp] theorem State.trapThr_dbg (s : State) (k : CoreId) (t : Tid) (tr : Trap) (pc : Word) : (s.trapThr k t tr pc).dbg = s.dbg := rfl
@[simp] theorem State.trapThr_xhclm (s : State) (k : CoreId) (t : Tid) (tr : Trap) (pc : Word) : (s.trapThr k t tr pc).xhclm = s.xhclm := rfl
@[simp] theorem State.trapThr_xtrcore (s : State) (k : CoreId) (t : Tid) (tr : Trap) (pc : Word) : (s.trapThr k t tr pc).xtrcore = s.xtrcore := rfl
@[simp] theorem State.trapThr_dies (s : State) (k : CoreId) (t : Tid) (tr : Trap) (pc : Word) : (s.trapThr k t tr pc).dies = s.dies := rfl
@[simp] theorem State.trapThr_parts (s : State) (k : CoreId) (t : Tid) (tr : Trap) (pc : Word) : (s.trapThr k t tr pc).parts = s.parts := rfl
@[simp] theorem State.trapThr_seals (s : State) (k : CoreId) (t : Tid) (tr : Trap) (pc : Word) : (s.trapThr k t tr pc).seals = s.seals := rfl
@[simp] theorem State.trapThr_disp (s : State) (k : CoreId) (t : Tid) (tr : Trap) (pc : Word) : (s.trapThr k t tr pc).disp = s.disp := rfl
@[simp] theorem State.trapThr_queries (s : State) (k : CoreId) (t : Tid) (tr : Trap) (pc : Word) : (s.trapThr k t tr pc).queries = s.queries := rfl
@[simp] theorem State.trapThr_pageOps (s : State) (k : CoreId) (t : Tid) (tr : Trap) (pc : Word) : (s.trapThr k t tr pc).pageOps = s.pageOps := rfl
@[simp] theorem State.trapThr_nextId (s : State) (k : CoreId) (t : Tid) (tr : Trap) (pc : Word) : (s.trapThr k t tr pc).nextId = s.nextId := rfl
@[simp] theorem State.trapThr_clusters (s : State) (k : CoreId) (t : Tid) (tr : Trap) (pc : Word) : (s.trapThr k t tr pc).clusters = s.clusters := rfl
@[simp] theorem State.trapThr_baseDies (s : State) (k : CoreId) (t : Tid) (tr : Trap) (pc : Word) : (s.trapThr k t tr pc).baseDies = s.baseDies := rfl
@[simp] theorem State.trapThr_engines (s : State) (k : CoreId) (t : Tid) (tr : Trap) (pc : Word) : (s.trapThr k t tr pc).engines = s.engines := rfl

/-! trap -/
@[simp] theorem State.trap_curCore (s : State) (tr : Trap) : (s.trap tr).curCore = s.curCore := rfl
@[simp] theorem State.trap_curTid (s : State) (tr : Trap) : (s.trap tr).curTid = s.curTid := rfl
@[simp] theorem State.trap_agenda (s : State) (tr : Trap) : (s.trap tr).agenda = s.agenda := rfl
@[simp] theorem State.trap_fresh (s : State) (tr : Trap) : (s.trap tr).fresh = s.fresh := rfl
@[simp] theorem State.trap_time (s : State) (tr : Trap) : (s.trap tr).time = s.time := rfl
@[simp] theorem State.trap_wm (s : State) (tr : Trap) : (s.trap tr).wm = s.wm := rfl
@[simp] theorem State.trap_host (s : State) (tr : Trap) : (s.trap tr).host = s.host := rfl
@[simp] theorem State.trap_hostAbsent (s : State) (tr : Trap) : (s.trap tr).hostAbsent = s.hostAbsent := rfl
@[simp] theorem State.trap_ats (s : State) (tr : Trap) : (s.trap tr).ats = s.ats := rfl
@[simp] theorem State.trap_bars (s : State) (tr : Trap) : (s.trap tr).bars = s.bars := rfl
@[simp] theorem State.trap_peers (s : State) (tr : Trap) : (s.trap tr).peers = s.peers := rfl
@[simp] theorem State.trap_linksDown (s : State) (tr : Trap) : (s.trap tr).linksDown = s.linksDown := rfl
@[simp] theorem State.trap_inbound (s : State) (tr : Trap) : (s.trap tr).inbound = s.inbound := rfl
@[simp] theorem State.trap_corrected (s : State) (tr : Trap) : (s.trap tr).corrected = s.corrected := rfl
@[simp] theorem State.trap_jtagIr (s : State) (tr : Trap) : (s.trap tr).jtagIr = s.jtagIr := rfl
@[simp] theorem State.trap_jtagDr (s : State) (tr : Trap) : (s.trap tr).jtagDr = s.jtagDr := rfl
@[simp] theorem State.trap_sysCores (s : State) (tr : Trap) : (s.trap tr).sysCores = s.sysCores := rfl
@[simp] theorem State.trap_users (s : State) (tr : Trap) : (s.trap tr).users = s.users := rfl
@[simp] theorem State.trap_qmem (s : State) (tr : Trap) : (s.trap tr).qmem = s.qmem := rfl
@[simp] theorem State.trap_wmPoison (s : State) (tr : Trap) : (s.trap tr).wmPoison = s.wmPoison := rfl
@[simp] theorem State.trap_qPoison (s : State) (tr : Trap) : (s.trap tr).qPoison = s.qPoison := rfl
@[simp] theorem State.trap_fatal (s : State) (tr : Trap) : (s.trap tr).fatal = s.fatal := rfl
@[simp] theorem State.trap_boot (s : State) (tr : Trap) : (s.trap tr).boot = s.boot := rfl
@[simp] theorem State.trap_banks (s : State) (tr : Trap) : (s.trap tr).banks = s.banks := rfl
@[simp] theorem State.trap_dbg (s : State) (tr : Trap) : (s.trap tr).dbg = s.dbg := rfl
@[simp] theorem State.trap_xhclm (s : State) (tr : Trap) : (s.trap tr).xhclm = s.xhclm := rfl
@[simp] theorem State.trap_xtrcore (s : State) (tr : Trap) : (s.trap tr).xtrcore = s.xtrcore := rfl
@[simp] theorem State.trap_dies (s : State) (tr : Trap) : (s.trap tr).dies = s.dies := rfl
@[simp] theorem State.trap_parts (s : State) (tr : Trap) : (s.trap tr).parts = s.parts := rfl
@[simp] theorem State.trap_seals (s : State) (tr : Trap) : (s.trap tr).seals = s.seals := rfl
@[simp] theorem State.trap_disp (s : State) (tr : Trap) : (s.trap tr).disp = s.disp := rfl
@[simp] theorem State.trap_queries (s : State) (tr : Trap) : (s.trap tr).queries = s.queries := rfl
@[simp] theorem State.trap_pageOps (s : State) (tr : Trap) : (s.trap tr).pageOps = s.pageOps := rfl
@[simp] theorem State.trap_nextId (s : State) (tr : Trap) : (s.trap tr).nextId = s.nextId := rfl
@[simp] theorem State.trap_clusters (s : State) (tr : Trap) : (s.trap tr).clusters = s.clusters := rfl
@[simp] theorem State.trap_baseDies (s : State) (tr : Trap) : (s.trap tr).baseDies = s.baseDies := rfl
@[simp] theorem State.trap_engines (s : State) (tr : Trap) : (s.trap tr).engines = s.engines := rfl

/-! focus -/
@[simp] theorem State.focus_agenda (s : State) (k : CoreId) (t : Tid) : (s.focus k t).agenda = s.agenda := rfl
@[simp] theorem State.focus_fresh (s : State) (k : CoreId) (t : Tid) : (s.focus k t).fresh = s.fresh := rfl
@[simp] theorem State.focus_time (s : State) (k : CoreId) (t : Tid) : (s.focus k t).time = s.time := rfl
@[simp] theorem State.focus_wm (s : State) (k : CoreId) (t : Tid) : (s.focus k t).wm = s.wm := rfl
@[simp] theorem State.focus_host (s : State) (k : CoreId) (t : Tid) : (s.focus k t).host = s.host := rfl
@[simp] theorem State.focus_hostAbsent (s : State) (k : CoreId) (t : Tid) : (s.focus k t).hostAbsent = s.hostAbsent := rfl
@[simp] theorem State.focus_ats (s : State) (k : CoreId) (t : Tid) : (s.focus k t).ats = s.ats := rfl
@[simp] theorem State.focus_bars (s : State) (k : CoreId) (t : Tid) : (s.focus k t).bars = s.bars := rfl
@[simp] theorem State.focus_peers (s : State) (k : CoreId) (t : Tid) : (s.focus k t).peers = s.peers := rfl
@[simp] theorem State.focus_linksDown (s : State) (k : CoreId) (t : Tid) : (s.focus k t).linksDown = s.linksDown := rfl
@[simp] theorem State.focus_inbound (s : State) (k : CoreId) (t : Tid) : (s.focus k t).inbound = s.inbound := rfl
@[simp] theorem State.focus_corrected (s : State) (k : CoreId) (t : Tid) : (s.focus k t).corrected = s.corrected := rfl
@[simp] theorem State.focus_jtagIr (s : State) (k : CoreId) (t : Tid) : (s.focus k t).jtagIr = s.jtagIr := rfl
@[simp] theorem State.focus_jtagDr (s : State) (k : CoreId) (t : Tid) : (s.focus k t).jtagDr = s.jtagDr := rfl
@[simp] theorem State.focus_sysCores (s : State) (k : CoreId) (t : Tid) : (s.focus k t).sysCores = s.sysCores := rfl
@[simp] theorem State.focus_users (s : State) (k : CoreId) (t : Tid) : (s.focus k t).users = s.users := rfl
@[simp] theorem State.focus_qmem (s : State) (k : CoreId) (t : Tid) : (s.focus k t).qmem = s.qmem := rfl
@[simp] theorem State.focus_wmPoison (s : State) (k : CoreId) (t : Tid) : (s.focus k t).wmPoison = s.wmPoison := rfl
@[simp] theorem State.focus_qPoison (s : State) (k : CoreId) (t : Tid) : (s.focus k t).qPoison = s.qPoison := rfl
@[simp] theorem State.focus_fatal (s : State) (k : CoreId) (t : Tid) : (s.focus k t).fatal = s.fatal := rfl
@[simp] theorem State.focus_boot (s : State) (k : CoreId) (t : Tid) : (s.focus k t).boot = s.boot := rfl
@[simp] theorem State.focus_banks (s : State) (k : CoreId) (t : Tid) : (s.focus k t).banks = s.banks := rfl
@[simp] theorem State.focus_dbg (s : State) (k : CoreId) (t : Tid) : (s.focus k t).dbg = s.dbg := rfl
@[simp] theorem State.focus_xhclm (s : State) (k : CoreId) (t : Tid) : (s.focus k t).xhclm = s.xhclm := rfl
@[simp] theorem State.focus_xtrcore (s : State) (k : CoreId) (t : Tid) : (s.focus k t).xtrcore = s.xtrcore := rfl
@[simp] theorem State.focus_dies (s : State) (k : CoreId) (t : Tid) : (s.focus k t).dies = s.dies := rfl
@[simp] theorem State.focus_parts (s : State) (k : CoreId) (t : Tid) : (s.focus k t).parts = s.parts := rfl
@[simp] theorem State.focus_seals (s : State) (k : CoreId) (t : Tid) : (s.focus k t).seals = s.seals := rfl
@[simp] theorem State.focus_disp (s : State) (k : CoreId) (t : Tid) : (s.focus k t).disp = s.disp := rfl
@[simp] theorem State.focus_queries (s : State) (k : CoreId) (t : Tid) : (s.focus k t).queries = s.queries := rfl
@[simp] theorem State.focus_pageOps (s : State) (k : CoreId) (t : Tid) : (s.focus k t).pageOps = s.pageOps := rfl
@[simp] theorem State.focus_nextId (s : State) (k : CoreId) (t : Tid) : (s.focus k t).nextId = s.nextId := rfl
@[simp] theorem State.focus_clusters (s : State) (k : CoreId) (t : Tid) : (s.focus k t).clusters = s.clusters := rfl
@[simp] theorem State.focus_baseDies (s : State) (k : CoreId) (t : Tid) : (s.focus k t).baseDies = s.baseDies := rfl
@[simp] theorem State.focus_engines (s : State) (k : CoreId) (t : Tid) : (s.focus k t).engines = s.engines := rfl

/-! modPart -/
@[simp] theorem State.modPart_curCore (s : State) (p : FuncId) (f : Part → Part) : (s.modPart p f).curCore = s.curCore := rfl
@[simp] theorem State.modPart_curTid (s : State) (p : FuncId) (f : Part → Part) : (s.modPart p f).curTid = s.curTid := rfl
@[simp] theorem State.modPart_agenda (s : State) (p : FuncId) (f : Part → Part) : (s.modPart p f).agenda = s.agenda := rfl
@[simp] theorem State.modPart_fresh (s : State) (p : FuncId) (f : Part → Part) : (s.modPart p f).fresh = s.fresh := rfl
@[simp] theorem State.modPart_time (s : State) (p : FuncId) (f : Part → Part) : (s.modPart p f).time = s.time := rfl
@[simp] theorem State.modPart_wm (s : State) (p : FuncId) (f : Part → Part) : (s.modPart p f).wm = s.wm := rfl
@[simp] theorem State.modPart_host (s : State) (p : FuncId) (f : Part → Part) : (s.modPart p f).host = s.host := rfl
@[simp] theorem State.modPart_hostAbsent (s : State) (p : FuncId) (f : Part → Part) : (s.modPart p f).hostAbsent = s.hostAbsent := rfl
@[simp] theorem State.modPart_ats (s : State) (p : FuncId) (f : Part → Part) : (s.modPart p f).ats = s.ats := rfl
@[simp] theorem State.modPart_bars (s : State) (p : FuncId) (f : Part → Part) : (s.modPart p f).bars = s.bars := rfl
@[simp] theorem State.modPart_peers (s : State) (p : FuncId) (f : Part → Part) : (s.modPart p f).peers = s.peers := rfl
@[simp] theorem State.modPart_linksDown (s : State) (p : FuncId) (f : Part → Part) : (s.modPart p f).linksDown = s.linksDown := rfl
@[simp] theorem State.modPart_inbound (s : State) (p : FuncId) (f : Part → Part) : (s.modPart p f).inbound = s.inbound := rfl
@[simp] theorem State.modPart_corrected (s : State) (p : FuncId) (f : Part → Part) : (s.modPart p f).corrected = s.corrected := rfl
@[simp] theorem State.modPart_jtagIr (s : State) (p : FuncId) (f : Part → Part) : (s.modPart p f).jtagIr = s.jtagIr := rfl
@[simp] theorem State.modPart_jtagDr (s : State) (p : FuncId) (f : Part → Part) : (s.modPart p f).jtagDr = s.jtagDr := rfl
@[simp] theorem State.modPart_sysCores (s : State) (p : FuncId) (f : Part → Part) : (s.modPart p f).sysCores = s.sysCores := rfl
@[simp] theorem State.modPart_users (s : State) (p : FuncId) (f : Part → Part) : (s.modPart p f).users = s.users := rfl
@[simp] theorem State.modPart_qmem (s : State) (p : FuncId) (f : Part → Part) : (s.modPart p f).qmem = s.qmem := rfl
@[simp] theorem State.modPart_wmPoison (s : State) (p : FuncId) (f : Part → Part) : (s.modPart p f).wmPoison = s.wmPoison := rfl
@[simp] theorem State.modPart_qPoison (s : State) (p : FuncId) (f : Part → Part) : (s.modPart p f).qPoison = s.qPoison := rfl
@[simp] theorem State.modPart_fatal (s : State) (p : FuncId) (f : Part → Part) : (s.modPart p f).fatal = s.fatal := rfl
@[simp] theorem State.modPart_boot (s : State) (p : FuncId) (f : Part → Part) : (s.modPart p f).boot = s.boot := rfl
@[simp] theorem State.modPart_banks (s : State) (p : FuncId) (f : Part → Part) : (s.modPart p f).banks = s.banks := rfl
@[simp] theorem State.modPart_dbg (s : State) (p : FuncId) (f : Part → Part) : (s.modPart p f).dbg = s.dbg := rfl
@[simp] theorem State.modPart_xhclm (s : State) (p : FuncId) (f : Part → Part) : (s.modPart p f).xhclm = s.xhclm := rfl
@[simp] theorem State.modPart_xtrcore (s : State) (p : FuncId) (f : Part → Part) : (s.modPart p f).xtrcore = s.xtrcore := rfl
@[simp] theorem State.modPart_dies (s : State) (p : FuncId) (f : Part → Part) : (s.modPart p f).dies = s.dies := rfl
@[simp] theorem State.modPart_seals (s : State) (p : FuncId) (f : Part → Part) : (s.modPart p f).seals = s.seals := rfl
@[simp] theorem State.modPart_disp (s : State) (p : FuncId) (f : Part → Part) : (s.modPart p f).disp = s.disp := rfl
@[simp] theorem State.modPart_queries (s : State) (p : FuncId) (f : Part → Part) : (s.modPart p f).queries = s.queries := rfl
@[simp] theorem State.modPart_pageOps (s : State) (p : FuncId) (f : Part → Part) : (s.modPart p f).pageOps = s.pageOps := rfl
@[simp] theorem State.modPart_nextId (s : State) (p : FuncId) (f : Part → Part) : (s.modPart p f).nextId = s.nextId := rfl
@[simp] theorem State.modPart_clusters (s : State) (p : FuncId) (f : Part → Part) : (s.modPart p f).clusters = s.clusters := rfl
@[simp] theorem State.modPart_baseDies (s : State) (p : FuncId) (f : Part → Part) : (s.modPart p f).baseDies = s.baseDies := rfl
@[simp] theorem State.modPart_engines (s : State) (p : FuncId) (f : Part → Part) : (s.modPart p f).engines = s.engines := rfl
@[simp] theorem State.modPart_cores (s : State) (p : FuncId) (f : Part → Part) : (s.modPart p f).cores = s.cores := rfl

/-! modEngine -/
@[simp] theorem State.modEngine_curCore (s : State) (k : EngineId) (f : Engine → Engine) : (s.modEngine k f).curCore = s.curCore := rfl
@[simp] theorem State.modEngine_curTid (s : State) (k : EngineId) (f : Engine → Engine) : (s.modEngine k f).curTid = s.curTid := rfl
@[simp] theorem State.modEngine_agenda (s : State) (k : EngineId) (f : Engine → Engine) : (s.modEngine k f).agenda = s.agenda := rfl
@[simp] theorem State.modEngine_fresh (s : State) (k : EngineId) (f : Engine → Engine) : (s.modEngine k f).fresh = s.fresh := rfl
@[simp] theorem State.modEngine_time (s : State) (k : EngineId) (f : Engine → Engine) : (s.modEngine k f).time = s.time := rfl
@[simp] theorem State.modEngine_wm (s : State) (k : EngineId) (f : Engine → Engine) : (s.modEngine k f).wm = s.wm := rfl
@[simp] theorem State.modEngine_host (s : State) (k : EngineId) (f : Engine → Engine) : (s.modEngine k f).host = s.host := rfl
@[simp] theorem State.modEngine_hostAbsent (s : State) (k : EngineId) (f : Engine → Engine) : (s.modEngine k f).hostAbsent = s.hostAbsent := rfl
@[simp] theorem State.modEngine_ats (s : State) (k : EngineId) (f : Engine → Engine) : (s.modEngine k f).ats = s.ats := rfl
@[simp] theorem State.modEngine_bars (s : State) (k : EngineId) (f : Engine → Engine) : (s.modEngine k f).bars = s.bars := rfl
@[simp] theorem State.modEngine_peers (s : State) (k : EngineId) (f : Engine → Engine) : (s.modEngine k f).peers = s.peers := rfl
@[simp] theorem State.modEngine_linksDown (s : State) (k : EngineId) (f : Engine → Engine) : (s.modEngine k f).linksDown = s.linksDown := rfl
@[simp] theorem State.modEngine_inbound (s : State) (k : EngineId) (f : Engine → Engine) : (s.modEngine k f).inbound = s.inbound := rfl
@[simp] theorem State.modEngine_corrected (s : State) (k : EngineId) (f : Engine → Engine) : (s.modEngine k f).corrected = s.corrected := rfl
@[simp] theorem State.modEngine_jtagIr (s : State) (k : EngineId) (f : Engine → Engine) : (s.modEngine k f).jtagIr = s.jtagIr := rfl
@[simp] theorem State.modEngine_jtagDr (s : State) (k : EngineId) (f : Engine → Engine) : (s.modEngine k f).jtagDr = s.jtagDr := rfl
@[simp] theorem State.modEngine_sysCores (s : State) (k : EngineId) (f : Engine → Engine) : (s.modEngine k f).sysCores = s.sysCores := rfl
@[simp] theorem State.modEngine_users (s : State) (k : EngineId) (f : Engine → Engine) : (s.modEngine k f).users = s.users := rfl
@[simp] theorem State.modEngine_qmem (s : State) (k : EngineId) (f : Engine → Engine) : (s.modEngine k f).qmem = s.qmem := rfl
@[simp] theorem State.modEngine_wmPoison (s : State) (k : EngineId) (f : Engine → Engine) : (s.modEngine k f).wmPoison = s.wmPoison := rfl
@[simp] theorem State.modEngine_qPoison (s : State) (k : EngineId) (f : Engine → Engine) : (s.modEngine k f).qPoison = s.qPoison := rfl
@[simp] theorem State.modEngine_fatal (s : State) (k : EngineId) (f : Engine → Engine) : (s.modEngine k f).fatal = s.fatal := rfl
@[simp] theorem State.modEngine_boot (s : State) (k : EngineId) (f : Engine → Engine) : (s.modEngine k f).boot = s.boot := rfl
@[simp] theorem State.modEngine_banks (s : State) (k : EngineId) (f : Engine → Engine) : (s.modEngine k f).banks = s.banks := rfl
@[simp] theorem State.modEngine_dbg (s : State) (k : EngineId) (f : Engine → Engine) : (s.modEngine k f).dbg = s.dbg := rfl
@[simp] theorem State.modEngine_xhclm (s : State) (k : EngineId) (f : Engine → Engine) : (s.modEngine k f).xhclm = s.xhclm := rfl
@[simp] theorem State.modEngine_xtrcore (s : State) (k : EngineId) (f : Engine → Engine) : (s.modEngine k f).xtrcore = s.xtrcore := rfl
@[simp] theorem State.modEngine_dies (s : State) (k : EngineId) (f : Engine → Engine) : (s.modEngine k f).dies = s.dies := rfl
@[simp] theorem State.modEngine_parts (s : State) (k : EngineId) (f : Engine → Engine) : (s.modEngine k f).parts = s.parts := rfl
@[simp] theorem State.modEngine_seals (s : State) (k : EngineId) (f : Engine → Engine) : (s.modEngine k f).seals = s.seals := rfl
@[simp] theorem State.modEngine_disp (s : State) (k : EngineId) (f : Engine → Engine) : (s.modEngine k f).disp = s.disp := rfl
@[simp] theorem State.modEngine_queries (s : State) (k : EngineId) (f : Engine → Engine) : (s.modEngine k f).queries = s.queries := rfl
@[simp] theorem State.modEngine_pageOps (s : State) (k : EngineId) (f : Engine → Engine) : (s.modEngine k f).pageOps = s.pageOps := rfl
@[simp] theorem State.modEngine_nextId (s : State) (k : EngineId) (f : Engine → Engine) : (s.modEngine k f).nextId = s.nextId := rfl
@[simp] theorem State.modEngine_clusters (s : State) (k : EngineId) (f : Engine → Engine) : (s.modEngine k f).clusters = s.clusters := rfl
@[simp] theorem State.modEngine_baseDies (s : State) (k : EngineId) (f : Engine → Engine) : (s.modEngine k f).baseDies = s.baseDies := rfl
@[simp] theorem State.modEngine_cores (s : State) (k : EngineId) (f : Engine → Engine) : (s.modEngine k f).cores = s.cores := rfl

/-! modCluster -/
@[simp] theorem State.modCluster_curCore (s : State) (c : ClusterId) (f : ClusterX → ClusterX) : (s.modCluster c f).curCore = s.curCore := rfl
@[simp] theorem State.modCluster_curTid (s : State) (c : ClusterId) (f : ClusterX → ClusterX) : (s.modCluster c f).curTid = s.curTid := rfl
@[simp] theorem State.modCluster_agenda (s : State) (c : ClusterId) (f : ClusterX → ClusterX) : (s.modCluster c f).agenda = s.agenda := rfl
@[simp] theorem State.modCluster_fresh (s : State) (c : ClusterId) (f : ClusterX → ClusterX) : (s.modCluster c f).fresh = s.fresh := rfl
@[simp] theorem State.modCluster_time (s : State) (c : ClusterId) (f : ClusterX → ClusterX) : (s.modCluster c f).time = s.time := rfl
@[simp] theorem State.modCluster_wm (s : State) (c : ClusterId) (f : ClusterX → ClusterX) : (s.modCluster c f).wm = s.wm := rfl
@[simp] theorem State.modCluster_host (s : State) (c : ClusterId) (f : ClusterX → ClusterX) : (s.modCluster c f).host = s.host := rfl
@[simp] theorem State.modCluster_hostAbsent (s : State) (c : ClusterId) (f : ClusterX → ClusterX) : (s.modCluster c f).hostAbsent = s.hostAbsent := rfl
@[simp] theorem State.modCluster_ats (s : State) (c : ClusterId) (f : ClusterX → ClusterX) : (s.modCluster c f).ats = s.ats := rfl
@[simp] theorem State.modCluster_bars (s : State) (c : ClusterId) (f : ClusterX → ClusterX) : (s.modCluster c f).bars = s.bars := rfl
@[simp] theorem State.modCluster_peers (s : State) (c : ClusterId) (f : ClusterX → ClusterX) : (s.modCluster c f).peers = s.peers := rfl
@[simp] theorem State.modCluster_linksDown (s : State) (c : ClusterId) (f : ClusterX → ClusterX) : (s.modCluster c f).linksDown = s.linksDown := rfl
@[simp] theorem State.modCluster_inbound (s : State) (c : ClusterId) (f : ClusterX → ClusterX) : (s.modCluster c f).inbound = s.inbound := rfl
@[simp] theorem State.modCluster_corrected (s : State) (c : ClusterId) (f : ClusterX → ClusterX) : (s.modCluster c f).corrected = s.corrected := rfl
@[simp] theorem State.modCluster_jtagIr (s : State) (c : ClusterId) (f : ClusterX → ClusterX) : (s.modCluster c f).jtagIr = s.jtagIr := rfl
@[simp] theorem State.modCluster_jtagDr (s : State) (c : ClusterId) (f : ClusterX → ClusterX) : (s.modCluster c f).jtagDr = s.jtagDr := rfl
@[simp] theorem State.modCluster_sysCores (s : State) (c : ClusterId) (f : ClusterX → ClusterX) : (s.modCluster c f).sysCores = s.sysCores := rfl
@[simp] theorem State.modCluster_users (s : State) (c : ClusterId) (f : ClusterX → ClusterX) : (s.modCluster c f).users = s.users := rfl
@[simp] theorem State.modCluster_qmem (s : State) (c : ClusterId) (f : ClusterX → ClusterX) : (s.modCluster c f).qmem = s.qmem := rfl
@[simp] theorem State.modCluster_wmPoison (s : State) (c : ClusterId) (f : ClusterX → ClusterX) : (s.modCluster c f).wmPoison = s.wmPoison := rfl
@[simp] theorem State.modCluster_qPoison (s : State) (c : ClusterId) (f : ClusterX → ClusterX) : (s.modCluster c f).qPoison = s.qPoison := rfl
@[simp] theorem State.modCluster_fatal (s : State) (c : ClusterId) (f : ClusterX → ClusterX) : (s.modCluster c f).fatal = s.fatal := rfl
@[simp] theorem State.modCluster_boot (s : State) (c : ClusterId) (f : ClusterX → ClusterX) : (s.modCluster c f).boot = s.boot := rfl
@[simp] theorem State.modCluster_banks (s : State) (c : ClusterId) (f : ClusterX → ClusterX) : (s.modCluster c f).banks = s.banks := rfl
@[simp] theorem State.modCluster_dbg (s : State) (c : ClusterId) (f : ClusterX → ClusterX) : (s.modCluster c f).dbg = s.dbg := rfl
@[simp] theorem State.modCluster_xhclm (s : State) (c : ClusterId) (f : ClusterX → ClusterX) : (s.modCluster c f).xhclm = s.xhclm := rfl
@[simp] theorem State.modCluster_xtrcore (s : State) (c : ClusterId) (f : ClusterX → ClusterX) : (s.modCluster c f).xtrcore = s.xtrcore := rfl
@[simp] theorem State.modCluster_dies (s : State) (c : ClusterId) (f : ClusterX → ClusterX) : (s.modCluster c f).dies = s.dies := rfl
@[simp] theorem State.modCluster_parts (s : State) (c : ClusterId) (f : ClusterX → ClusterX) : (s.modCluster c f).parts = s.parts := rfl
@[simp] theorem State.modCluster_seals (s : State) (c : ClusterId) (f : ClusterX → ClusterX) : (s.modCluster c f).seals = s.seals := rfl
@[simp] theorem State.modCluster_disp (s : State) (c : ClusterId) (f : ClusterX → ClusterX) : (s.modCluster c f).disp = s.disp := rfl
@[simp] theorem State.modCluster_queries (s : State) (c : ClusterId) (f : ClusterX → ClusterX) : (s.modCluster c f).queries = s.queries := rfl
@[simp] theorem State.modCluster_pageOps (s : State) (c : ClusterId) (f : ClusterX → ClusterX) : (s.modCluster c f).pageOps = s.pageOps := rfl
@[simp] theorem State.modCluster_nextId (s : State) (c : ClusterId) (f : ClusterX → ClusterX) : (s.modCluster c f).nextId = s.nextId := rfl
@[simp] theorem State.modCluster_baseDies (s : State) (c : ClusterId) (f : ClusterX → ClusterX) : (s.modCluster c f).baseDies = s.baseDies := rfl
@[simp] theorem State.modCluster_engines (s : State) (c : ClusterId) (f : ClusterX → ClusterX) : (s.modCluster c f).engines = s.engines := rfl
@[simp] theorem State.modCluster_cores (s : State) (c : ClusterId) (f : ClusterX → ClusterX) : (s.modCluster c f).cores = s.cores := rfl

/-! modDie -/
@[simp] theorem State.modDie_curCore (s : State) (d : StackId) (f : BaseDie → BaseDie) : (s.modDie d f).curCore = s.curCore := rfl
@[simp] theorem State.modDie_curTid (s : State) (d : StackId) (f : BaseDie → BaseDie) : (s.modDie d f).curTid = s.curTid := rfl
@[simp] theorem State.modDie_agenda (s : State) (d : StackId) (f : BaseDie → BaseDie) : (s.modDie d f).agenda = s.agenda := rfl
@[simp] theorem State.modDie_fresh (s : State) (d : StackId) (f : BaseDie → BaseDie) : (s.modDie d f).fresh = s.fresh := rfl
@[simp] theorem State.modDie_time (s : State) (d : StackId) (f : BaseDie → BaseDie) : (s.modDie d f).time = s.time := rfl
@[simp] theorem State.modDie_wm (s : State) (d : StackId) (f : BaseDie → BaseDie) : (s.modDie d f).wm = s.wm := rfl
@[simp] theorem State.modDie_host (s : State) (d : StackId) (f : BaseDie → BaseDie) : (s.modDie d f).host = s.host := rfl
@[simp] theorem State.modDie_hostAbsent (s : State) (d : StackId) (f : BaseDie → BaseDie) : (s.modDie d f).hostAbsent = s.hostAbsent := rfl
@[simp] theorem State.modDie_ats (s : State) (d : StackId) (f : BaseDie → BaseDie) : (s.modDie d f).ats = s.ats := rfl
@[simp] theorem State.modDie_bars (s : State) (d : StackId) (f : BaseDie → BaseDie) : (s.modDie d f).bars = s.bars := rfl
@[simp] theorem State.modDie_peers (s : State) (d : StackId) (f : BaseDie → BaseDie) : (s.modDie d f).peers = s.peers := rfl
@[simp] theorem State.modDie_linksDown (s : State) (d : StackId) (f : BaseDie → BaseDie) : (s.modDie d f).linksDown = s.linksDown := rfl
@[simp] theorem State.modDie_inbound (s : State) (d : StackId) (f : BaseDie → BaseDie) : (s.modDie d f).inbound = s.inbound := rfl
@[simp] theorem State.modDie_corrected (s : State) (d : StackId) (f : BaseDie → BaseDie) : (s.modDie d f).corrected = s.corrected := rfl
@[simp] theorem State.modDie_jtagIr (s : State) (d : StackId) (f : BaseDie → BaseDie) : (s.modDie d f).jtagIr = s.jtagIr := rfl
@[simp] theorem State.modDie_jtagDr (s : State) (d : StackId) (f : BaseDie → BaseDie) : (s.modDie d f).jtagDr = s.jtagDr := rfl
@[simp] theorem State.modDie_sysCores (s : State) (d : StackId) (f : BaseDie → BaseDie) : (s.modDie d f).sysCores = s.sysCores := rfl
@[simp] theorem State.modDie_users (s : State) (d : StackId) (f : BaseDie → BaseDie) : (s.modDie d f).users = s.users := rfl
@[simp] theorem State.modDie_qmem (s : State) (d : StackId) (f : BaseDie → BaseDie) : (s.modDie d f).qmem = s.qmem := rfl
@[simp] theorem State.modDie_wmPoison (s : State) (d : StackId) (f : BaseDie → BaseDie) : (s.modDie d f).wmPoison = s.wmPoison := rfl
@[simp] theorem State.modDie_qPoison (s : State) (d : StackId) (f : BaseDie → BaseDie) : (s.modDie d f).qPoison = s.qPoison := rfl
@[simp] theorem State.modDie_fatal (s : State) (d : StackId) (f : BaseDie → BaseDie) : (s.modDie d f).fatal = s.fatal := rfl
@[simp] theorem State.modDie_boot (s : State) (d : StackId) (f : BaseDie → BaseDie) : (s.modDie d f).boot = s.boot := rfl
@[simp] theorem State.modDie_banks (s : State) (d : StackId) (f : BaseDie → BaseDie) : (s.modDie d f).banks = s.banks := rfl
@[simp] theorem State.modDie_dbg (s : State) (d : StackId) (f : BaseDie → BaseDie) : (s.modDie d f).dbg = s.dbg := rfl
@[simp] theorem State.modDie_xhclm (s : State) (d : StackId) (f : BaseDie → BaseDie) : (s.modDie d f).xhclm = s.xhclm := rfl
@[simp] theorem State.modDie_xtrcore (s : State) (d : StackId) (f : BaseDie → BaseDie) : (s.modDie d f).xtrcore = s.xtrcore := rfl
@[simp] theorem State.modDie_dies (s : State) (d : StackId) (f : BaseDie → BaseDie) : (s.modDie d f).dies = s.dies := rfl
@[simp] theorem State.modDie_parts (s : State) (d : StackId) (f : BaseDie → BaseDie) : (s.modDie d f).parts = s.parts := rfl
@[simp] theorem State.modDie_seals (s : State) (d : StackId) (f : BaseDie → BaseDie) : (s.modDie d f).seals = s.seals := rfl
@[simp] theorem State.modDie_disp (s : State) (d : StackId) (f : BaseDie → BaseDie) : (s.modDie d f).disp = s.disp := rfl
@[simp] theorem State.modDie_queries (s : State) (d : StackId) (f : BaseDie → BaseDie) : (s.modDie d f).queries = s.queries := rfl
@[simp] theorem State.modDie_pageOps (s : State) (d : StackId) (f : BaseDie → BaseDie) : (s.modDie d f).pageOps = s.pageOps := rfl
@[simp] theorem State.modDie_nextId (s : State) (d : StackId) (f : BaseDie → BaseDie) : (s.modDie d f).nextId = s.nextId := rfl
@[simp] theorem State.modDie_clusters (s : State) (d : StackId) (f : BaseDie → BaseDie) : (s.modDie d f).clusters = s.clusters := rfl
@[simp] theorem State.modDie_engines (s : State) (d : StackId) (f : BaseDie → BaseDie) : (s.modDie d f).engines = s.engines := rfl
@[simp] theorem State.modDie_cores (s : State) (d : StackId) (f : BaseDie → BaseDie) : (s.modDie d f).cores = s.cores := rfl

/-! modBank -/
@[simp] theorem State.modBank_curCore (s : State) (d : DieId) (b : Fin 16) (f : Bank → Bank) : (s.modBank d b f).curCore = s.curCore := rfl
@[simp] theorem State.modBank_curTid (s : State) (d : DieId) (b : Fin 16) (f : Bank → Bank) : (s.modBank d b f).curTid = s.curTid := rfl
@[simp] theorem State.modBank_agenda (s : State) (d : DieId) (b : Fin 16) (f : Bank → Bank) : (s.modBank d b f).agenda = s.agenda := rfl
@[simp] theorem State.modBank_fresh (s : State) (d : DieId) (b : Fin 16) (f : Bank → Bank) : (s.modBank d b f).fresh = s.fresh := rfl
@[simp] theorem State.modBank_time (s : State) (d : DieId) (b : Fin 16) (f : Bank → Bank) : (s.modBank d b f).time = s.time := rfl
@[simp] theorem State.modBank_wm (s : State) (d : DieId) (b : Fin 16) (f : Bank → Bank) : (s.modBank d b f).wm = s.wm := rfl
@[simp] theorem State.modBank_host (s : State) (d : DieId) (b : Fin 16) (f : Bank → Bank) : (s.modBank d b f).host = s.host := rfl
@[simp] theorem State.modBank_hostAbsent (s : State) (d : DieId) (b : Fin 16) (f : Bank → Bank) : (s.modBank d b f).hostAbsent = s.hostAbsent := rfl
@[simp] theorem State.modBank_ats (s : State) (d : DieId) (b : Fin 16) (f : Bank → Bank) : (s.modBank d b f).ats = s.ats := rfl
@[simp] theorem State.modBank_bars (s : State) (d : DieId) (b : Fin 16) (f : Bank → Bank) : (s.modBank d b f).bars = s.bars := rfl
@[simp] theorem State.modBank_peers (s : State) (d : DieId) (b : Fin 16) (f : Bank → Bank) : (s.modBank d b f).peers = s.peers := rfl
@[simp] theorem State.modBank_linksDown (s : State) (d : DieId) (b : Fin 16) (f : Bank → Bank) : (s.modBank d b f).linksDown = s.linksDown := rfl
@[simp] theorem State.modBank_inbound (s : State) (d : DieId) (b : Fin 16) (f : Bank → Bank) : (s.modBank d b f).inbound = s.inbound := rfl
@[simp] theorem State.modBank_corrected (s : State) (d : DieId) (b : Fin 16) (f : Bank → Bank) : (s.modBank d b f).corrected = s.corrected := rfl
@[simp] theorem State.modBank_jtagIr (s : State) (d : DieId) (b : Fin 16) (f : Bank → Bank) : (s.modBank d b f).jtagIr = s.jtagIr := rfl
@[simp] theorem State.modBank_jtagDr (s : State) (d : DieId) (b : Fin 16) (f : Bank → Bank) : (s.modBank d b f).jtagDr = s.jtagDr := rfl
@[simp] theorem State.modBank_sysCores (s : State) (d : DieId) (b : Fin 16) (f : Bank → Bank) : (s.modBank d b f).sysCores = s.sysCores := rfl
@[simp] theorem State.modBank_users (s : State) (d : DieId) (b : Fin 16) (f : Bank → Bank) : (s.modBank d b f).users = s.users := rfl
@[simp] theorem State.modBank_qmem (s : State) (d : DieId) (b : Fin 16) (f : Bank → Bank) : (s.modBank d b f).qmem = s.qmem := rfl
@[simp] theorem State.modBank_wmPoison (s : State) (d : DieId) (b : Fin 16) (f : Bank → Bank) : (s.modBank d b f).wmPoison = s.wmPoison := rfl
@[simp] theorem State.modBank_qPoison (s : State) (d : DieId) (b : Fin 16) (f : Bank → Bank) : (s.modBank d b f).qPoison = s.qPoison := rfl
@[simp] theorem State.modBank_fatal (s : State) (d : DieId) (b : Fin 16) (f : Bank → Bank) : (s.modBank d b f).fatal = s.fatal := rfl
@[simp] theorem State.modBank_boot (s : State) (d : DieId) (b : Fin 16) (f : Bank → Bank) : (s.modBank d b f).boot = s.boot := rfl
@[simp] theorem State.modBank_dbg (s : State) (d : DieId) (b : Fin 16) (f : Bank → Bank) : (s.modBank d b f).dbg = s.dbg := rfl
@[simp] theorem State.modBank_xhclm (s : State) (d : DieId) (b : Fin 16) (f : Bank → Bank) : (s.modBank d b f).xhclm = s.xhclm := rfl
@[simp] theorem State.modBank_xtrcore (s : State) (d : DieId) (b : Fin 16) (f : Bank → Bank) : (s.modBank d b f).xtrcore = s.xtrcore := rfl
@[simp] theorem State.modBank_dies (s : State) (d : DieId) (b : Fin 16) (f : Bank → Bank) : (s.modBank d b f).dies = s.dies := rfl
@[simp] theorem State.modBank_parts (s : State) (d : DieId) (b : Fin 16) (f : Bank → Bank) : (s.modBank d b f).parts = s.parts := rfl
@[simp] theorem State.modBank_seals (s : State) (d : DieId) (b : Fin 16) (f : Bank → Bank) : (s.modBank d b f).seals = s.seals := rfl
@[simp] theorem State.modBank_disp (s : State) (d : DieId) (b : Fin 16) (f : Bank → Bank) : (s.modBank d b f).disp = s.disp := rfl
@[simp] theorem State.modBank_queries (s : State) (d : DieId) (b : Fin 16) (f : Bank → Bank) : (s.modBank d b f).queries = s.queries := rfl
@[simp] theorem State.modBank_pageOps (s : State) (d : DieId) (b : Fin 16) (f : Bank → Bank) : (s.modBank d b f).pageOps = s.pageOps := rfl
@[simp] theorem State.modBank_nextId (s : State) (d : DieId) (b : Fin 16) (f : Bank → Bank) : (s.modBank d b f).nextId = s.nextId := rfl
@[simp] theorem State.modBank_clusters (s : State) (d : DieId) (b : Fin 16) (f : Bank → Bank) : (s.modBank d b f).clusters = s.clusters := rfl
@[simp] theorem State.modBank_baseDies (s : State) (d : DieId) (b : Fin 16) (f : Bank → Bank) : (s.modBank d b f).baseDies = s.baseDies := rfl
@[simp] theorem State.modBank_engines (s : State) (d : DieId) (b : Fin 16) (f : Bank → Bank) : (s.modBank d b f).engines = s.engines := rfl
@[simp] theorem State.modBank_cores (s : State) (d : DieId) (b : Fin 16) (f : Bank → Bank) : (s.modBank d b f).cores = s.cores := rfl

/-! poisonRead -/
@[simp] theorem State.poisonRead_curCore (s : State) (b : DieId × Fin 16) : (s.poisonRead b).curCore = s.curCore := rfl
@[simp] theorem State.poisonRead_curTid (s : State) (b : DieId × Fin 16) : (s.poisonRead b).curTid = s.curTid := rfl
@[simp] theorem State.poisonRead_agenda (s : State) (b : DieId × Fin 16) : (s.poisonRead b).agenda = s.agenda := rfl
@[simp] theorem State.poisonRead_fresh (s : State) (b : DieId × Fin 16) : (s.poisonRead b).fresh = s.fresh := rfl
@[simp] theorem State.poisonRead_time (s : State) (b : DieId × Fin 16) : (s.poisonRead b).time = s.time := rfl
@[simp] theorem State.poisonRead_wm (s : State) (b : DieId × Fin 16) : (s.poisonRead b).wm = s.wm := rfl
@[simp] theorem State.poisonRead_host (s : State) (b : DieId × Fin 16) : (s.poisonRead b).host = s.host := rfl
@[simp] theorem State.poisonRead_hostAbsent (s : State) (b : DieId × Fin 16) : (s.poisonRead b).hostAbsent = s.hostAbsent := rfl
@[simp] theorem State.poisonRead_ats (s : State) (b : DieId × Fin 16) : (s.poisonRead b).ats = s.ats := rfl
@[simp] theorem State.poisonRead_bars (s : State) (b : DieId × Fin 16) : (s.poisonRead b).bars = s.bars := rfl
@[simp] theorem State.poisonRead_peers (s : State) (b : DieId × Fin 16) : (s.poisonRead b).peers = s.peers := rfl
@[simp] theorem State.poisonRead_linksDown (s : State) (b : DieId × Fin 16) : (s.poisonRead b).linksDown = s.linksDown := rfl
@[simp] theorem State.poisonRead_inbound (s : State) (b : DieId × Fin 16) : (s.poisonRead b).inbound = s.inbound := rfl
@[simp] theorem State.poisonRead_corrected (s : State) (b : DieId × Fin 16) : (s.poisonRead b).corrected = s.corrected := rfl
@[simp] theorem State.poisonRead_jtagIr (s : State) (b : DieId × Fin 16) : (s.poisonRead b).jtagIr = s.jtagIr := rfl
@[simp] theorem State.poisonRead_jtagDr (s : State) (b : DieId × Fin 16) : (s.poisonRead b).jtagDr = s.jtagDr := rfl
@[simp] theorem State.poisonRead_sysCores (s : State) (b : DieId × Fin 16) : (s.poisonRead b).sysCores = s.sysCores := rfl
@[simp] theorem State.poisonRead_users (s : State) (b : DieId × Fin 16) : (s.poisonRead b).users = s.users := rfl
@[simp] theorem State.poisonRead_qmem (s : State) (b : DieId × Fin 16) : (s.poisonRead b).qmem = s.qmem := rfl
@[simp] theorem State.poisonRead_wmPoison (s : State) (b : DieId × Fin 16) : (s.poisonRead b).wmPoison = s.wmPoison := rfl
@[simp] theorem State.poisonRead_qPoison (s : State) (b : DieId × Fin 16) : (s.poisonRead b).qPoison = s.qPoison := rfl
@[simp] theorem State.poisonRead_fatal (s : State) (b : DieId × Fin 16) : (s.poisonRead b).fatal = s.fatal := rfl
@[simp] theorem State.poisonRead_boot (s : State) (b : DieId × Fin 16) : (s.poisonRead b).boot = s.boot := rfl
@[simp] theorem State.poisonRead_dbg (s : State) (b : DieId × Fin 16) : (s.poisonRead b).dbg = s.dbg := rfl
@[simp] theorem State.poisonRead_xhclm (s : State) (b : DieId × Fin 16) : (s.poisonRead b).xhclm = s.xhclm := rfl
@[simp] theorem State.poisonRead_xtrcore (s : State) (b : DieId × Fin 16) : (s.poisonRead b).xtrcore = s.xtrcore := rfl
@[simp] theorem State.poisonRead_dies (s : State) (b : DieId × Fin 16) : (s.poisonRead b).dies = s.dies := rfl
@[simp] theorem State.poisonRead_parts (s : State) (b : DieId × Fin 16) : (s.poisonRead b).parts = s.parts := rfl
@[simp] theorem State.poisonRead_seals (s : State) (b : DieId × Fin 16) : (s.poisonRead b).seals = s.seals := rfl
@[simp] theorem State.poisonRead_disp (s : State) (b : DieId × Fin 16) : (s.poisonRead b).disp = s.disp := rfl
@[simp] theorem State.poisonRead_queries (s : State) (b : DieId × Fin 16) : (s.poisonRead b).queries = s.queries := rfl
@[simp] theorem State.poisonRead_pageOps (s : State) (b : DieId × Fin 16) : (s.poisonRead b).pageOps = s.pageOps := rfl
@[simp] theorem State.poisonRead_nextId (s : State) (b : DieId × Fin 16) : (s.poisonRead b).nextId = s.nextId := rfl
@[simp] theorem State.poisonRead_clusters (s : State) (b : DieId × Fin 16) : (s.poisonRead b).clusters = s.clusters := rfl
@[simp] theorem State.poisonRead_baseDies (s : State) (b : DieId × Fin 16) : (s.poisonRead b).baseDies = s.baseDies := rfl
@[simp] theorem State.poisonRead_engines (s : State) (b : DieId × Fin 16) : (s.poisonRead b).engines = s.engines := rfl

/-! modV -/
@[simp] theorem State.modV_curCore (s : State) (n : VReg) (f : VecReg → VecReg) : (s.modV n f).curCore = s.curCore := rfl
@[simp] theorem State.modV_curTid (s : State) (n : VReg) (f : VecReg → VecReg) : (s.modV n f).curTid = s.curTid := rfl
@[simp] theorem State.modV_agenda (s : State) (n : VReg) (f : VecReg → VecReg) : (s.modV n f).agenda = s.agenda := rfl
@[simp] theorem State.modV_fresh (s : State) (n : VReg) (f : VecReg → VecReg) : (s.modV n f).fresh = s.fresh := rfl
@[simp] theorem State.modV_time (s : State) (n : VReg) (f : VecReg → VecReg) : (s.modV n f).time = s.time := rfl
@[simp] theorem State.modV_wm (s : State) (n : VReg) (f : VecReg → VecReg) : (s.modV n f).wm = s.wm := rfl
@[simp] theorem State.modV_host (s : State) (n : VReg) (f : VecReg → VecReg) : (s.modV n f).host = s.host := rfl
@[simp] theorem State.modV_hostAbsent (s : State) (n : VReg) (f : VecReg → VecReg) : (s.modV n f).hostAbsent = s.hostAbsent := rfl
@[simp] theorem State.modV_ats (s : State) (n : VReg) (f : VecReg → VecReg) : (s.modV n f).ats = s.ats := rfl
@[simp] theorem State.modV_bars (s : State) (n : VReg) (f : VecReg → VecReg) : (s.modV n f).bars = s.bars := rfl
@[simp] theorem State.modV_peers (s : State) (n : VReg) (f : VecReg → VecReg) : (s.modV n f).peers = s.peers := rfl
@[simp] theorem State.modV_linksDown (s : State) (n : VReg) (f : VecReg → VecReg) : (s.modV n f).linksDown = s.linksDown := rfl
@[simp] theorem State.modV_inbound (s : State) (n : VReg) (f : VecReg → VecReg) : (s.modV n f).inbound = s.inbound := rfl
@[simp] theorem State.modV_corrected (s : State) (n : VReg) (f : VecReg → VecReg) : (s.modV n f).corrected = s.corrected := rfl
@[simp] theorem State.modV_jtagIr (s : State) (n : VReg) (f : VecReg → VecReg) : (s.modV n f).jtagIr = s.jtagIr := rfl
@[simp] theorem State.modV_jtagDr (s : State) (n : VReg) (f : VecReg → VecReg) : (s.modV n f).jtagDr = s.jtagDr := rfl
@[simp] theorem State.modV_sysCores (s : State) (n : VReg) (f : VecReg → VecReg) : (s.modV n f).sysCores = s.sysCores := rfl
@[simp] theorem State.modV_users (s : State) (n : VReg) (f : VecReg → VecReg) : (s.modV n f).users = s.users := rfl
@[simp] theorem State.modV_qmem (s : State) (n : VReg) (f : VecReg → VecReg) : (s.modV n f).qmem = s.qmem := rfl
@[simp] theorem State.modV_wmPoison (s : State) (n : VReg) (f : VecReg → VecReg) : (s.modV n f).wmPoison = s.wmPoison := rfl
@[simp] theorem State.modV_qPoison (s : State) (n : VReg) (f : VecReg → VecReg) : (s.modV n f).qPoison = s.qPoison := rfl
@[simp] theorem State.modV_fatal (s : State) (n : VReg) (f : VecReg → VecReg) : (s.modV n f).fatal = s.fatal := rfl
@[simp] theorem State.modV_boot (s : State) (n : VReg) (f : VecReg → VecReg) : (s.modV n f).boot = s.boot := rfl
@[simp] theorem State.modV_banks (s : State) (n : VReg) (f : VecReg → VecReg) : (s.modV n f).banks = s.banks := rfl
@[simp] theorem State.modV_dbg (s : State) (n : VReg) (f : VecReg → VecReg) : (s.modV n f).dbg = s.dbg := rfl
@[simp] theorem State.modV_xhclm (s : State) (n : VReg) (f : VecReg → VecReg) : (s.modV n f).xhclm = s.xhclm := rfl
@[simp] theorem State.modV_xtrcore (s : State) (n : VReg) (f : VecReg → VecReg) : (s.modV n f).xtrcore = s.xtrcore := rfl
@[simp] theorem State.modV_dies (s : State) (n : VReg) (f : VecReg → VecReg) : (s.modV n f).dies = s.dies := rfl
@[simp] theorem State.modV_parts (s : State) (n : VReg) (f : VecReg → VecReg) : (s.modV n f).parts = s.parts := rfl
@[simp] theorem State.modV_seals (s : State) (n : VReg) (f : VecReg → VecReg) : (s.modV n f).seals = s.seals := rfl
@[simp] theorem State.modV_disp (s : State) (n : VReg) (f : VecReg → VecReg) : (s.modV n f).disp = s.disp := rfl
@[simp] theorem State.modV_queries (s : State) (n : VReg) (f : VecReg → VecReg) : (s.modV n f).queries = s.queries := rfl
@[simp] theorem State.modV_pageOps (s : State) (n : VReg) (f : VecReg → VecReg) : (s.modV n f).pageOps = s.pageOps := rfl
@[simp] theorem State.modV_nextId (s : State) (n : VReg) (f : VecReg → VecReg) : (s.modV n f).nextId = s.nextId := rfl
@[simp] theorem State.modV_clusters (s : State) (n : VReg) (f : VecReg → VecReg) : (s.modV n f).clusters = s.clusters := rfl
@[simp] theorem State.modV_baseDies (s : State) (n : VReg) (f : VecReg → VecReg) : (s.modV n f).baseDies = s.baseDies := rfl
@[simp] theorem State.modV_engines (s : State) (n : VReg) (f : VecReg → VecReg) : (s.modV n f).engines = s.engines := rfl

/-! modM -/
@[simp] theorem State.modM_curCore (s : State) (n : MReg) (f : MaskReg → MaskReg) : (s.modM n f).curCore = s.curCore := rfl
@[simp] theorem State.modM_curTid (s : State) (n : MReg) (f : MaskReg → MaskReg) : (s.modM n f).curTid = s.curTid := rfl
@[simp] theorem State.modM_agenda (s : State) (n : MReg) (f : MaskReg → MaskReg) : (s.modM n f).agenda = s.agenda := rfl
@[simp] theorem State.modM_fresh (s : State) (n : MReg) (f : MaskReg → MaskReg) : (s.modM n f).fresh = s.fresh := rfl
@[simp] theorem State.modM_time (s : State) (n : MReg) (f : MaskReg → MaskReg) : (s.modM n f).time = s.time := rfl
@[simp] theorem State.modM_wm (s : State) (n : MReg) (f : MaskReg → MaskReg) : (s.modM n f).wm = s.wm := rfl
@[simp] theorem State.modM_host (s : State) (n : MReg) (f : MaskReg → MaskReg) : (s.modM n f).host = s.host := rfl
@[simp] theorem State.modM_hostAbsent (s : State) (n : MReg) (f : MaskReg → MaskReg) : (s.modM n f).hostAbsent = s.hostAbsent := rfl
@[simp] theorem State.modM_ats (s : State) (n : MReg) (f : MaskReg → MaskReg) : (s.modM n f).ats = s.ats := rfl
@[simp] theorem State.modM_bars (s : State) (n : MReg) (f : MaskReg → MaskReg) : (s.modM n f).bars = s.bars := rfl
@[simp] theorem State.modM_peers (s : State) (n : MReg) (f : MaskReg → MaskReg) : (s.modM n f).peers = s.peers := rfl
@[simp] theorem State.modM_linksDown (s : State) (n : MReg) (f : MaskReg → MaskReg) : (s.modM n f).linksDown = s.linksDown := rfl
@[simp] theorem State.modM_inbound (s : State) (n : MReg) (f : MaskReg → MaskReg) : (s.modM n f).inbound = s.inbound := rfl
@[simp] theorem State.modM_corrected (s : State) (n : MReg) (f : MaskReg → MaskReg) : (s.modM n f).corrected = s.corrected := rfl
@[simp] theorem State.modM_jtagIr (s : State) (n : MReg) (f : MaskReg → MaskReg) : (s.modM n f).jtagIr = s.jtagIr := rfl
@[simp] theorem State.modM_jtagDr (s : State) (n : MReg) (f : MaskReg → MaskReg) : (s.modM n f).jtagDr = s.jtagDr := rfl
@[simp] theorem State.modM_sysCores (s : State) (n : MReg) (f : MaskReg → MaskReg) : (s.modM n f).sysCores = s.sysCores := rfl
@[simp] theorem State.modM_users (s : State) (n : MReg) (f : MaskReg → MaskReg) : (s.modM n f).users = s.users := rfl
@[simp] theorem State.modM_qmem (s : State) (n : MReg) (f : MaskReg → MaskReg) : (s.modM n f).qmem = s.qmem := rfl
@[simp] theorem State.modM_wmPoison (s : State) (n : MReg) (f : MaskReg → MaskReg) : (s.modM n f).wmPoison = s.wmPoison := rfl
@[simp] theorem State.modM_qPoison (s : State) (n : MReg) (f : MaskReg → MaskReg) : (s.modM n f).qPoison = s.qPoison := rfl
@[simp] theorem State.modM_fatal (s : State) (n : MReg) (f : MaskReg → MaskReg) : (s.modM n f).fatal = s.fatal := rfl
@[simp] theorem State.modM_boot (s : State) (n : MReg) (f : MaskReg → MaskReg) : (s.modM n f).boot = s.boot := rfl
@[simp] theorem State.modM_banks (s : State) (n : MReg) (f : MaskReg → MaskReg) : (s.modM n f).banks = s.banks := rfl
@[simp] theorem State.modM_dbg (s : State) (n : MReg) (f : MaskReg → MaskReg) : (s.modM n f).dbg = s.dbg := rfl
@[simp] theorem State.modM_xhclm (s : State) (n : MReg) (f : MaskReg → MaskReg) : (s.modM n f).xhclm = s.xhclm := rfl
@[simp] theorem State.modM_xtrcore (s : State) (n : MReg) (f : MaskReg → MaskReg) : (s.modM n f).xtrcore = s.xtrcore := rfl
@[simp] theorem State.modM_dies (s : State) (n : MReg) (f : MaskReg → MaskReg) : (s.modM n f).dies = s.dies := rfl
@[simp] theorem State.modM_parts (s : State) (n : MReg) (f : MaskReg → MaskReg) : (s.modM n f).parts = s.parts := rfl
@[simp] theorem State.modM_seals (s : State) (n : MReg) (f : MaskReg → MaskReg) : (s.modM n f).seals = s.seals := rfl
@[simp] theorem State.modM_disp (s : State) (n : MReg) (f : MaskReg → MaskReg) : (s.modM n f).disp = s.disp := rfl
@[simp] theorem State.modM_queries (s : State) (n : MReg) (f : MaskReg → MaskReg) : (s.modM n f).queries = s.queries := rfl
@[simp] theorem State.modM_pageOps (s : State) (n : MReg) (f : MaskReg → MaskReg) : (s.modM n f).pageOps = s.pageOps := rfl
@[simp] theorem State.modM_nextId (s : State) (n : MReg) (f : MaskReg → MaskReg) : (s.modM n f).nextId = s.nextId := rfl
@[simp] theorem State.modM_clusters (s : State) (n : MReg) (f : MaskReg → MaskReg) : (s.modM n f).clusters = s.clusters := rfl
@[simp] theorem State.modM_baseDies (s : State) (n : MReg) (f : MaskReg → MaskReg) : (s.modM n f).baseDies = s.baseDies := rfl
@[simp] theorem State.modM_engines (s : State) (n : MReg) (f : MaskReg → MaskReg) : (s.modM n f).engines = s.engines := rfl

/-! ## Cores, threads and registers after an update -/

@[simp] theorem State.core_modCore_same (s : State) (k : CoreId) (f : Core → Core) : (s.modCore k f).core k = f (s.core k) := by
  simp [State.core, State.modCore]
theorem State.core_modCore_other (s : State) {k j : CoreId} (f : Core → Core) (h : j ≠ k) : (s.modCore k f).core j = s.core j := by
  have h' : k.val ≠ j.val := fun e => h (Fin.ext e.symm)
  simp [State.core, State.modCore, Vector.getElem_set_ne, h']
@[simp] theorem State.thr_modThr_same (s : State) (k : CoreId) (t : Tid) (f : Thread → Thread) :
    (s.modThr k t f).thr k t = f (s.thr k t) := by
  simp [State.thr, State.modThr]
theorem State.thr_modThr_other (s : State) {k : CoreId} {t u : Tid} (f : Thread → Thread) (h : u ≠ t) :
    (s.modThr k t f).thr k u = s.thr k u := by
  have h' : t.val ≠ u.val := fun e => h (Fin.ext e.symm)
  simp [State.thr, State.modThr, Vector.getElem_set_ne, h']
theorem State.thr_modThr_core (s : State) {k j : CoreId} {t u : Tid} (f : Thread → Thread) (h : j ≠ k) :
    (s.modThr k t f).thr j u = s.thr j u := by
  simp [State.thr, State.modThr, State.core_modCore_other _ _ h]
@[simp] theorem State.cur_modCur (s : State) (f : Thread → Thread) : (s.modCur f).cur = f s.cur := by
  simp [State.cur, State.modCur]
@[simp] theorem State.curC_modCurC (s : State) (f : Core → Core) : (s.modCurC f).curC = f s.curC := by
  simp [State.curC, State.modCurC]
@[simp] theorem State.modCur_modCur (s : State) (f g : Thread → Thread) : (s.modCur f).modCur g = s.modCur (fun t => g (f t)) := by
  simp [State.modCur, State.modThr, State.modCore, Vector.set_set]
@[simp] theorem State.cur_modVec (s : State) (f : VecUnit → VecUnit) : (s.modVec f).cur = s.cur := by
  simp [State.modVec, State.modCurC, State.cur, State.thr]
@[simp] theorem State.cur_modMat (s : State) (f : MatUnit → MatUnit) : (s.modMat f).cur = s.cur := by
  simp [State.modMat, State.modCurC, State.cur, State.thr]
@[simp] theorem State.curC_modVec (s : State) (f : VecUnit → VecUnit) : (s.modVec f).curC = { s.curC with vec := f s.curC.vec } := by
  simp [State.modVec]
@[simp] theorem State.curC_modMat (s : State) (f : MatUnit → MatUnit) : (s.modMat f).curC = { s.curC with mat := f s.curC.mat } := by
  simp [State.modMat]
@[simp] theorem State.curC_modCur (s : State) (f : Thread → Thread) :
    (s.modCur f).curC = { s.curC with threads := s.curC.threads.set s.curTid (f s.curC.threads[s.curTid]) } := by
  simp [State.modCur, State.modThr, State.curC]
theorem State.core_modCur_other (s : State) {k : CoreId} (f : Thread → Thread) (h : k ≠ s.curCore) : (s.modCur f).core k = s.core k := by
  simp [State.modCur, State.modThr, State.core_modCore_other _ _ h]
theorem State.core_modCurC_other (s : State) {k : CoreId} (f : Core → Core) (h : k ≠ s.curCore) : (s.modCurC f).core k = s.core k := by
  simp [State.modCurC, State.core_modCore_other _ _ h]

@[simp] theorem Thread.sreg_zero (t : Thread) : t.sreg 0 = 0 := rfl
@[simp] theorem Thread.setSreg_zero (t : Thread) (v : Word) : t.setSreg 0 v = t := rfl
theorem Thread.sreg_setSreg_same (t : Thread) {r : SReg} (v : Word) (h : r ≠ 0) : (t.setSreg r v).sreg r = v := by
  simp [Thread.sreg, Thread.setSreg, h]
theorem Thread.sreg_setSreg_other (t : Thread) {r q : SReg} (v : Word) (h : q ≠ r) : (t.setSreg r v).sreg q = t.sreg q := by
  have h' : r.val ≠ q.val := fun e => h (Fin.ext e.symm)
  by_cases hr : r = 0 <;> by_cases hq : q = 0 <;> simp [Thread.sreg, Thread.setSreg, hr, hq, Vector.getElem_set_ne, h']
@[simp] theorem State.sreg_zero (s : State) : s.sreg 0 = 0 := rfl
theorem State.sreg_setSreg_same (s : State) {r : SReg} (v : Word) (h : r ≠ 0) : (s.setSreg r v).sreg r = v := by
  simp [State.sreg, State.setSreg, Thread.sreg_setSreg_same _ _ h]
theorem State.sreg_setSreg_other (s : State) {r q : SReg} (v : Word) (h : q ≠ r) : (s.setSreg r v).sreg q = s.sreg q := by
  simp [State.sreg, State.setSreg, Thread.sreg_setSreg_other _ _ h]
/-- A write of s0 changes nothing. -/
theorem State.setSreg_zero (s : State) (v : Word) : s.setSreg 0 v = s := by
  have h1 (c : Core) (t : Tid) : c.threads.set t c.threads[t] = c.threads := Vector.set_getElem_self t.isLt
  have h2 : s.cores.set s.curCore s.cores[s.curCore] = s.cores := Vector.set_getElem_self s.curCore.isLt
  simp only [State.setSreg, State.modCur, State.modThr, State.modCore, Thread.setSreg_zero, h1, h2]

@[simp] theorem Thread.sreg_advance (t : Thread) (r : SReg) : t.advance.sreg r = t.sreg r := by
  unfold Thread.advance; split <;> (try split) <;> rfl
@[simp] theorem Thread.setSreg_pc (t : Thread) (r : SReg) (v : Word) : (t.setSreg r v).pc = t.pc := by unfold Thread.setSreg; split <;> rfl
@[simp] theorem Thread.setSreg_priv (t : Thread) (r : SReg) (v : Word) : (t.setSreg r v).priv = t.priv := by unfold Thread.setSreg; split <;> rfl
@[simp] theorem Thread.setSreg_vl (t : Thread) (r : SReg) (v : Word) : (t.setSreg r v).vl = t.vl := by unfold Thread.setSreg; split <;> rfl
@[simp] theorem Thread.setSreg_le (t : Thread) (r : SReg) (v : Word) : (t.setSreg r v).le = t.le := by unfold Thread.setSreg; split <;> rfl
@[simp] theorem Thread.setSreg_ls (t : Thread) (r : SReg) (v : Word) : (t.setSreg r v).ls = t.ls := by unfold Thread.setSreg; split <;> rfl
@[simp] theorem Thread.setSreg_lc (t : Thread) (r : SReg) (v : Word) : (t.setSreg r v).lc = t.lc := by unfold Thread.setSreg; split <;> rfl
@[simp] theorem Thread.setSreg_loopOff (t : Thread) (r : SReg) (v : Word) : (t.setSreg r v).loopOff = t.loopOff := by
  unfold Thread.setSreg; split <;> rfl
@[simp] theorem Thread.setSreg_fflags (t : Thread) (r : SReg) (v : Word) : (t.setSreg r v).fflags = t.fflags := by
  unfold Thread.setSreg; split <;> rfl
/-- What an advance leaves alone: everything but pc, lc and le. -/
theorem Thread.advance_frame (t : Thread) : { t.advance with pc := t.pc, lc := t.lc, le := t.le } = t := by
  unfold Thread.advance; split <;> (try split) <;> rfl
/-- An advance outside the last word of an active loop. -/
theorem Thread.advance_plain (t : Thread) (h : t.le = 0 ∨ t.loopOff = true ∨ t.pc ≠ t.le) : t.advance = { t with pc := t.pc + 4 } := by
  unfold Thread.advance
  split
  · rename_i h1; simp only [Bool.and_eq_true, bne_iff_ne, ne_eq, Bool.not_eq_eq_eq_not, Bool.not_true, beq_iff_eq] at h1
    rcases h with h | h | h <;> simp_all
  · rfl

@[simp] theorem State.cur_advance (s : State) : s.advance.cur = s.cur.advance := by simp [State.advance]
@[simp] theorem State.cur_jump (s : State) (pc : Word) : (s.jump pc).cur = { s.cur with pc := pc } := by simp [State.jump]
@[simp] theorem State.cur_setSreg (s : State) (r : SReg) (v : Word) : (s.setSreg r v).cur = s.cur.setSreg r v := by simp [State.setSreg]
@[simp] theorem State.cur_finish (s : State) (d : SReg) (v : Word) : (s.finish d v).cur = (s.cur.setSreg d v).advance := by
  simp [State.finish]
/-- The register written by a completed instruction, and the others. -/
theorem State.sreg_finish_same (s : State) {d : SReg} (v : Word) (h : d ≠ 0) : (s.finish d v).sreg d = v := by
  simp [State.sreg, Thread.sreg_setSreg_same _ _ h]
theorem State.sreg_finish_other (s : State) {d r : SReg} (v : Word) (h : r ≠ d) : (s.finish d v).sreg r = s.sreg r := by
  simp [State.sreg, Thread.sreg_setSreg_other _ _ h]

/-! ## Free values -/

theorem State.draw_state (s : State) : s.draw.2 = { s with fresh := s.fresh + 1 } := rfl

end Sys2Proof.Machine
end

