-- ==== Sys2Proof/Laws/Lane.lean ====
section
/-!
SUPPORT. Laws of vector elements, of the template words and of issuing a lane word: what an issued word can do is said once here.
-/

namespace Sys2Proof.Machine

/-! ## Elements -/

theorem elemGet_lt (v : VecBits) (w i : Nat) : elemGet v w i < 2 ^ w := (v.extractLsb' (i * w) w).isLt

theorem elemGet_testBit (v : VecBits) (w i k : Nat) : (elemGet v w i).testBit k = (decide (k < w) && v.getLsbD (i * w + k)) := by
  rw [elemGet, ← BitVec.getLsbD, BitVec.getLsbD_extractLsb']

/-- A replaced element reads as the new value, every other as before. -/
theorem elemGet_elemSet (v : VecBits) {w i j x : Nat} (hi : (i + 1) * w ≤ 32768) :
    elemGet (elemSet v w i x) w j = if j = i then x % 2 ^ w else elemGet v w j := by
  apply Nat.eq_of_testBit_eq
  intro k
  rw [elemGet_testBit]
  by_cases hk : k < w
  · have hb : (BitVec.ofNat 32768 ((elemGet v w i ^^^ x % 2 ^ w) * 2 ^ (i * w))).getLsbD (j * w + k)
        = if j = i then (elemGet v w i).testBit k ^^ (x % 2 ^ w).testBit k else false := by
      rw [BitVec.getLsbD_ofNat, Nat.testBit_mul_two_pow]
      by_cases hj : j = i
      · subst hj
        have : j * w + k < 32768 := by rw [Nat.add_mul] at hi; omega
        simp [this, Nat.testBit_xor]
      · rw [if_neg hj]
        by_cases hlt : j < i
        · have : j * w + k < i * w := by
            have := Nat.mul_le_mul_right w (show j + 1 ≤ i from hlt)
            rw [Nat.add_mul] at this; omega
          simp [show ¬ i * w ≤ j * w + k by omega]
        · have hle := Nat.mul_le_mul_right w (show i + 1 ≤ j by omega)
          rw [Nat.add_mul] at hle
          have h1 : (elemGet v w i ^^^ x % 2 ^ w).testBit (j * w + k - i * w) = false :=
            Nat.testBit_lt_two_pow (Nat.lt_of_lt_of_le
              (Nat.xor_lt_two_pow (elemGet_lt v w i) (Nat.mod_lt _ (Nat.two_pow_pos w)))
              (Nat.pow_le_pow_right (by decide) (by omega)))
          simp [h1]
    simp only [elemSet, hk, decide_true, Bool.true_and, BitVec.getLsbD_xor, hb]
    by_cases hj : j = i
    · subst hj; simp [elemGet_testBit, hk]
    · simp [hj, elemGet_testBit, hk]
  · have h2 : (x % 2 ^ w).testBit k = false :=
      Nat.testBit_lt_two_pow (Nat.lt_of_lt_of_le (Nat.mod_lt _ (Nat.two_pow_pos w)) (Nat.pow_le_pow_right (by decide) (by omega)))
    by_cases hj : j = i <;> simp [hk, hj, h2, elemGet_testBit]

/-- Elements outside a list of replaced ones are as before. -/
theorem elemGet_elemsSet_out {w j : Nat} (l : List (Nat × Nat)) (v : VecBits) (hl : ∀ p ∈ l, (p.1 + 1) * w ≤ 32768)
    (hj : ∀ p ∈ l, p.1 ≠ j) : elemGet (elemsSet v w l) w j = elemGet v w j := by
  unfold elemsSet
  induction l generalizing v with
  | nil => rfl
  | cons p t ih =>
    rw [List.foldl_cons, ih _ (fun q hq => hl q (.tail _ hq)) (fun q hq => hj q (.tail _ hq)),
      elemGet_elemSet _ (hl p (.head _)), if_neg (fun h => hj p (.head _) h.symm)]

/-- A replaced element reads as its value, when each element is replaced once. -/
theorem elemGet_elemsSet_in {w j x : Nat} (l : List (Nat × Nat)) (v : VecBits) (hl : ∀ p ∈ l, (p.1 + 1) * w ≤ 32768)
    (hd : l.Pairwise (fun p q => p.1 ≠ q.1)) (hj : (j, x) ∈ l) : elemGet (elemsSet v w l) w j = x % 2 ^ w := by
  unfold elemsSet
  induction l generalizing v with
  | nil => simp at hj
  | cons p t ih =>
    rw [List.foldl_cons]
    rw [List.pairwise_cons] at hd
    rcases List.mem_cons.mp hj with h | h
    · subst h
      have := elemGet_elemsSet_out (w := w) (j := j) t (elemSet v w j x) (fun q hq => hl q (.tail _ hq))
        (fun q hq => (hd.1 q hq).symm)
      rw [elemsSet] at this
      rw [this, elemGet_elemSet _ (hl (j, x) (.head _)), if_pos rfl]
    · exact ih _ (fun q hq => hl q (.tail _ hq)) hd.2 h

/-! ## Runs of elements -/

/-- With no exception enabled a run computes every element. -/
theorem runElems_all (f : Nat → EOut) (l : List Nat) :
    (runElems 0 f l).outs = l.map (fun i => (i, f i)) ∧ (runElems 0 f l).trap = none := by
  induction l with
  | nil => exact ⟨rfl, rfl⟩
  | cons i t ih =>
    have h0 : ((f i).flags &&& 0 != 0) = false := by simp
    simp only [runElems, h0, Bool.false_eq_true, ↓reduceIte, ih.1, ih.2, List.map_cons, and_self]

theorem runElems_vals (f : Nat → EOut) (l : List Nat) : (runElems 0 f l).vals = l.map (fun i => (i, (f i).bits)) := by
  rw [ElemRun.vals, (runElems_all f l).1, List.map_map]; rfl

/-- What an element list holds: the executing elements, each once. -/
theorem mem_elems {e : LaneEnv} {v : VecUnit} {mk : MkField} {i : Nat} : i ∈ e.elems v mk e.vl ↔ Executes e v mk i := by
  unfold LaneEnv.elems Executes
  simp only [List.mem_filter, List.mem_map, List.mem_range, Bool.and_eq_true]
  constructor
  · rintro ⟨⟨a, ha, rfl⟩, h1, h2⟩; exact ⟨by omega, by omega, h1, h2⟩
  · rintro ⟨h1, h2, h3, h4⟩; exact ⟨⟨i - e.start, by omega, by omega⟩, h3, h4⟩

theorem elems_pairwise (e : LaneEnv) (v : VecUnit) (mk : MkField) (n : Nat) : (e.elems v mk n).Pairwise (· ≠ ·) := by
  unfold LaneEnv.elems
  apply List.Pairwise.filter
  rw [List.pairwise_map]
  exact List.nodup_range.imp (fun h h2 => h (Nat.add_right_cancel h2))

/-! ## Issue -/

theorem laneCheck_none {s : State} {op : LaneOp} {e : LaneEnv} (h1 : ∀ n, op.dest = some n → s.curC.vec.bound n = none)
    (h2 : ∀ n, op.rep = some n → s.curC.vec.bound n = none) (h3 : popCheck s e.vl (sewOf e.vtype) op.srcs.eraseDups = none) :
    laneCheck s op e = none := by
  have h (o : Option VReg) (ho : ∀ n, o = some n → s.curC.vec.bound n = none) : boundTrap s o = none := by
    cases o with
    | none => rfl
    | some n => simp [boundTrap, ho n rfl]
  simp only [laneCheck, h _ h1, h _ h2, h3]

theorem cut_none {b : Bool} {o : Option Nat} (h : b = true → o = none) : (if b = true then o else none) = none := by
  split <;> simp_all

/-- A lane word that is issued and whose effect runs to its end completes. -/
theorem issueLane_done {s s1 s2 : State} {op : LaneOp} {e : LaneEnv} (h : LaneGo s op.dest op.srcs op.rep op.split e s1) (hd : op.run e s1 = .done s2) :
    issueLane op s = .next (laneFinish s2 State.advance) := by
  obtain ⟨s0, ha, hb, rfl, h1, h2, h3, h4, h5⟩ := h
  have h5 := cut_none h5
  simp only [issueLane, withLanes, ha, hb, Bool.false_eq_true, ↓reduceIte, runLane, laneCheck_none h1 h2 h3, h4, h5, hd]

/-- The same for a word whose window writes come after it. -/
theorem issueLane_doneThen {s s1 s2 : State} {op : LaneOp} {e : LaneEnv} {post : State → State} (h : LaneGo s op.dest op.srcs op.rep op.split e s1)
    (hd : op.run e s1 = .doneThen s2 post) : issueLane op s = .next (post (laneFinish s2 State.advance)) := by
  obtain ⟨s0, ha, hb, rfl, h1, h2, h3, h4, h5⟩ := h
  have h5 := cut_none h5
  simp only [issueLane, withLanes, ha, hb, Bool.false_eq_true, ↓reduceIte, runLane, laneCheck_none h1 h2 h3, h4, h5, hd]

/-- A lane word that stops at element i traps there, with vstart and its destination's vpx at i (R181). -/
theorem issueLane_stop {s s1 s2 : State} {op : LaneOp} {e : LaneEnv} {tr : Trap} {i : Nat} (h : LaneGo s op.dest op.srcs op.rep op.split e s1)
    (hd : op.run e s1 = .stop s2 tr i) :
    issueLane op s = .next (((markStop s2 op.dest i).modCur (fun t => { t with vstart := BitVec.ofNat 12 i })).trap { tr with stop := true }) := by
  obtain ⟨s0, ha, hb, rfl, h1, h2, h3, h4, h5⟩ := h
  have h5 := cut_none h5
  simp only [issueLane, withLanes, ha, hb, Bool.false_eq_true, ↓reduceIte, runLane, laneCheck_none h1 h2 h3, h4, h5, hd]

/-- Without the lanes the thread waits for them (R177). -/
theorem issueLane_waits {s : State} {op : LaneOp} (h : acquireLanes s = none) : issueLane op s = .next (s.block .lanes) := by
  simp only [issueLane, withLanes, h]

/-! ## Template words -/

/-- An element beyond the register is not there to replace. -/
theorem elemSet_out (v : VecBits) {w i x : Nat} (hi : 32768 ≤ i * w) : elemSet v w i x = v := by
  have h : BitVec.ofNat 32768 ((elemGet v w i ^^^ x % 2 ^ w) * 2 ^ (i * w)) = 0 := by
    apply BitVec.eq_of_getLsbD_eq
    intro k hk
    rw [BitVec.getLsbD_ofNat, Nat.testBit_mul_two_pow]
    simp [show ¬ i * w ≤ k by omega]
  rw [elemSet, h]; exact BitVec.xor_zero

theorem elemsSet_filter {w : Nat} (hw : 32768 % w = 0) (l : List (Nat × Nat)) (v : VecBits) :
    elemsSet v w l = elemsSet v w (l.filter (fun p => decide ((p.1 + 1) * w ≤ 32768))) := by
  unfold elemsSet
  induction l generalizing v with
  | nil => rfl
  | cons p t ih =>
    by_cases hp : (p.1 + 1) * w ≤ 32768
    · simp only [List.filter_cons, hp, decide_true, ↓reduceIte, List.foldl_cons, ih]
    · have h1 : 32768 ≤ p.1 * w := by
        obtain ⟨k, hk⟩ := Nat.dvd_of_mod_eq_zero hw
        have h2 : k ≤ p.1 := by
          rcases Nat.lt_or_ge p.1 k with h | h
          · have := Nat.mul_le_mul_right w (show p.1 + 1 ≤ k from h); rw [Nat.mul_comm k w] at this; omega
          · exact h
        have := Nat.mul_le_mul_right w h2; rw [Nat.mul_comm k w] at this; omega
      simp only [List.filter_cons, hp, decide_false, Bool.false_eq_true, ↓reduceIte, List.foldl_cons, elemSet_out _ h1, ih]

/-- The element width in bits divides the register. -/
theorem LaneEnv.n_pos (e : LaneEnv) : 0 < e.n ∧ 32768 % e.n = 0 := by
  unfold LaneEnv.n sewOf bitsOf
  have h : e.vtype.toNat / 2 ^ 9 % 2 ^ 2 < 4 := Nat.mod_lt _ (by decide)
  generalize e.vtype.toNat / 2 ^ 9 % 2 ^ 2 = x at h
  rcases (show x = 0 ∨ x = 1 ∨ x = 2 ∨ x = 3 by omega) with rfl | rfl | rfl | rfl <;> decide

/-- What a list of computed elements leaves in a register. -/
theorem elemsSet_spec {w : Nat} (hw : 32768 % w = 0) (h0 : 0 < w) (v : VecBits) (l : List Nat) (f : Nat → Nat)
    (hd : l.Pairwise (· ≠ ·)) {j : Nat} (hj : j < 32768 / w) :
    elemGet (elemsSet v w (l.map (fun i => (i, f i)))) w j = if j ∈ l then f j % 2 ^ w else elemGet v w j := by
  rw [elemsSet_filter hw]
  have hl : ∀ p ∈ (l.map (fun i => (i, f i))).filter (fun p => decide ((p.1 + 1) * w ≤ 32768)), (p.1 + 1) * w ≤ 32768 := by
    intro p hp; simpa using (List.mem_filter.mp hp).2
  by_cases hm : j ∈ l
  · rw [if_pos hm]
    apply elemGet_elemsSet_in _ _ hl
    · exact List.Pairwise.filter _ (List.pairwise_map.mpr hd)
    · have h3 : (j + 1) * w ≤ 32768 := (Nat.le_div_iff_mul_le h0).mp hj
      simp only [List.mem_filter, List.mem_map, decide_eq_true_eq]
      exact ⟨⟨j, hm, rfl⟩, h3⟩
  · rw [if_neg hm]
    apply elemGet_elemsSet_out _ _ hl
    intro p hp h
    obtain ⟨i, hi, rfl⟩ := List.mem_map.mp (List.mem_filter.mp hp).1
    exact hm (h ▸ hi)

theorem State.byteAt_modVec (s : State) (f : VecUnit → VecUnit) : SameBytes s (s.modVec f) := by
  intro p
  cases p with
  | spad k a =>
    by_cases h : k = s.curCore
    · subst h; simp [State.byteAt, State.modVec, State.modCurC]
    · simp [State.byteAt, State.modVec, State.core_modCurC_other _ _ h]
  | _ => rfl
theorem State.byteAt_modCur (s : State) (f : Thread → Thread) : SameBytes s (s.modCur f) := by
  intro p
  cases p with
  | spad k a =>
    by_cases h : k = s.curCore
    · subst h; simp [State.byteAt, State.modCur, State.modThr]
    · simp [State.byteAt, State.core_modCur_other _ _ h]
  | _ => rfl
theorem Core.count_spad (c : Core) (ev : Nat) (t : Tid) (n : Nat) : (c.count ev t n).spad = c.spad := by
  unfold Core.count; split <;> rfl
theorem Core.count_vec (c : Core) (ev : Nat) (t : Tid) (n : Nat) : (c.count ev t n).vec = c.vec := by
  unfold Core.count; split <;> rfl
theorem Core.count_threads (c : Core) (ev : Nat) (t : Tid) (n : Nat) : (c.count ev t n).threads = c.threads := by
  unfold Core.count; split <;> rfl
theorem State.byteAt_count (s : State) (ev n : Nat) : SameBytes s (s.count ev n) := by
  intro p
  cases p with
  | spad k a =>
    by_cases h : k = s.curCore
    · subst h; simp [State.byteAt, State.count, State.modCurC, Core.count_spad]
    · simp [State.byteAt, State.count, State.core_modCurC_other _ _ h]
  | _ => rfl
theorem SameBytes.trans {a b c : State} (h1 : SameBytes a b) (h2 : SameBytes b c) : SameBytes a c :=
  fun p => (h2 p).trans (h1 p)
@[simp] theorem State.cur_count (s : State) (ev n : Nat) : (s.count ev n).cur = s.cur := by
  simp [State.count, State.modCurC, State.cur, State.thr, Core.count_threads]
@[simp] theorem State.vec_count (s : State) (ev n : Nat) : (s.count ev n).curC.vec = s.curC.vec := by
  simp [State.count, Core.count_vec]

theorem sreg_of_sregs {a b : Thread} (h : b.sregs = a.sregs) (r : SReg) : b.sreg r = a.sreg r := by simp [Thread.sreg, h]
theorem LaneOutside.trans {a b c : State} (h1 : LaneOutside a b) (h2 : LaneOutside b c) : LaneOutside a c := by
  obtain ⟨x1, x2, x3, x4⟩ := h1
  obtain ⟨y1, y2, y3, y4⟩ := h2
  have hk : b.curCore = a.curCore := by have := congrArg State.curCore x1; exact this
  have ht : b.curTid = a.curTid := by have := congrArg State.curTid x1; exact this
  refine ⟨?_, fun k h => (y2 k (hk ▸ h)).trans (x2 k h), fun u h => ?_, ?_⟩
  · have := congrArg (fun s : State => { s with cores := a.cores, fresh := a.fresh }) y1
    exact this.trans x1
  · have := y3 u (ht ▸ h); rw [hk] at this; exact this.trans (x3 u h)
  · have := congrArg (fun x : Core => { x with threads := a.curC.threads, vec := a.curC.vec, counters := a.curC.counters }) y4
    exact this.trans x4

theorem LaneOutside.modVec (s : State) (f : VecUnit → VecUnit) : LaneOutside s (s.modVec f) := by
  refine ⟨rfl, fun k h => State.core_modCore_other _ _ h, fun u h => ?_, ?_⟩
  · simp [State.modVec, State.thr, State.modCurC]
  · simp [State.modVec]
theorem LaneOutside.modCur (s : State) (f : Thread → Thread) : LaneOutside s (s.modCur f) := by
  refine ⟨rfl, fun k h => State.core_modCore_other _ _ h, fun u h => State.thr_modThr_other _ _ h, ?_⟩
  have h : (s.modCur f).curC = { s.curC with threads := s.curC.threads.set s.curTid (f s.curC.threads[s.curTid]) } := State.core_modCore_same _ _ _
  rw [h]
theorem LaneOutside.count (s : State) (ev n : Nat) : LaneOutside s (s.count ev n) := by
  refine ⟨rfl, fun k h => State.core_modCore_other _ _ h, fun u h => ?_, ?_⟩
  · simp [State.count, State.thr, State.modCurC, Core.count_threads]
  · simp only [State.count, State.curC_modCurC]
    unfold Core.count; split <;> rfl

/-- The end of a reissue touches nothing but the reissue and its tstat.fmask (R309). -/
theorem Thread.reissued_with (t : Thread) (a : Vector Word 32) (b : BitVec 5) (c : Bool) :
    ({ t with sregs := a, fflags := b, vsat := c } : Thread).reissued = { t.reissued with sregs := a, fflags := b, vsat := c } := by
  unfold Thread.reissued Thread.modTrapSet
  rcases t with ⟨⟩
  dsimp only
  split
  · split <;> rfl
  · rfl
theorem Thread.reissued_keeps (t : Thread) :
    t.reissued.vstart = t.vstart ∧ t.reissued.pc = t.pc ∧ t.reissued.le = t.le ∧ t.reissued.lc = t.lc ∧ t.reissued.ls = t.ls ∧ t.reissued.loopOff = t.loopOff
      ∧ t.reissued.sregs = t.sregs ∧ t.reissued.fflags = t.fflags ∧ t.reissued.vsat = t.vsat ∧ t.reissued.reissue = none := by
  unfold Thread.reissued Thread.modTrapSet
  split
  · split <;> exact ⟨rfl, rfl, rfl, rfl, rfl, rfl, rfl, rfl, rfl, rfl⟩
  · rename_i h; exact ⟨rfl, rfl, rfl, rfl, rfl, rfl, rfl, rfl, rfl, h⟩

/-- What completing a lane word leaves: its frame, from the state in which its effect is done. -/
theorem laneFinish_frame {s1 s2 : State} {vd : Option VReg} {md : Option MReg} {sd : Option SReg}
    (hc : { s2.cur with sregs := s1.cur.sregs, fflags := s1.cur.fflags, vsat := s1.cur.vsat } = s1.cur)
    (hr : ∀ r, some r ≠ sd → s2.sreg r = s1.sreg r) (hb : SameBytes s1 s2)
    (hv : ∀ r, some r ≠ vd → s2.vreg r = s1.vreg r)
    (hm : ∀ m, some m ≠ md → s2.curC.vec.masks[m] = s1.curC.vec.masks[m]) (ho : LaneOutside s1 s2) :
    LaneFrame s1 (laneFinish s2 State.advance) vd md sd
      ∧ (∀ r, ((laneFinish s2 State.advance).vreg r) = s2.vreg r)
      ∧ (∀ r, ((laneFinish s2 State.advance).sreg r) = s2.sreg r)
      ∧ (∀ m : MReg, (laneFinish s2 State.advance).curC.vec.masks[m] = s2.curC.vec.masks[m])
      ∧ (laneFinish s2 State.advance).cur.fflags = s2.cur.fflags ∧ (laneFinish s2 State.advance).cur.vsat = s2.cur.vsat := by
  obtain ⟨k0, k1, k2, k3, k4, k5, k6, k7, k8, k9⟩ := s2.cur.reissued_keeps
  have hcur : (laneFinish s2 State.advance).cur = ({ s2.cur.reissued with vstart := 0 } : Thread).advance := by
    simp only [laneFinish, State.cur_count, State.cur_advance, State.cur_modCur, State.cur_modVec]
  have hvr : ∀ r, ((laneFinish s2 State.advance).vreg r) = s2.vreg r := by
    intro r; simp [laneFinish, State.vreg, State.advance, VecUnit.release]
  have hmr : ∀ m : MReg, (laneFinish s2 State.advance).curC.vec.masks[m] = s2.curC.vec.masks[m] := by
    intro m; simp [laneFinish, State.advance, VecUnit.release]
  have hsr : ∀ r, ((laneFinish s2 State.advance).sreg r) = s2.sreg r := by
    intro r; simp only [State.sreg, hcur]; apply sreg_of_sregs; unfold Thread.advance; split <;> (try split) <;> exact k6
  have hp : s2.cur.pc = s1.cur.pc := by have := congrArg Thread.pc hc; exact this
  have hle : s2.cur.le = s1.cur.le := by have := congrArg Thread.le hc; exact this
  have hlc : s2.cur.lc = s1.cur.lc := by have := congrArg Thread.lc hc; exact this
  have hls : s2.cur.ls = s1.cur.ls := by have := congrArg Thread.ls hc; exact this
  have hvs : s2.cur.vstart = s1.cur.vstart := by have := congrArg Thread.vstart hc; exact this
  have hlo : s2.cur.loopOff = s1.cur.loopOff := by have := congrArg Thread.loopOff hc; exact this
  refine ⟨⟨?_, ?_, ?_, ?_, fun r h => (hsr r).trans (hr r h), ?_, fun r h => (hvr r).trans (hv r h),
    fun m h => (hmr m).trans (hm m h), ?_⟩, hvr, hsr, hmr, ?_, ?_⟩
  · rw [hcur]; simp only [Thread.advance, k1, k2, k3, k4, k5, hp, hle, hlc, hls, hlo]; split <;> (try split) <;> rfl
  · rw [hcur]; unfold Thread.advance; split <;> (try split) <;> rfl
  · rw [hcur]; unfold Thread.advance; split <;> (try split) <;> exact k9
  · have e := Thread.reissued_with s2.cur s1.cur.sregs s1.cur.fflags s1.cur.vsat
    rw [hc] at e
    rw [hcur, e, ← hp, ← hlc, ← hle, ← hvs, ← k1, ← k2, ← k3, ← k0]
    generalize s2.cur.reissued = r
    unfold Thread.advance; split <;> (try split) <;> rfl
  · exact hb.trans ((State.byteAt_modVec _ _).trans ((State.byteAt_modCur _ _).trans ((State.byteAt_modCur _ _).trans (State.byteAt_count _ _ _))))
  · exact ho.trans ((LaneOutside.modVec _ _).trans ((LaneOutside.modCur _ _).trans ((LaneOutside.modCur _ _).trans (LaneOutside.count _ _ _))))
  · rw [hcur]; unfold Thread.advance; split <;> (try split) <;> exact k7
  · rw [hcur]; unfold Thread.advance; split <;> (try split) <;> exact k8

theorem State.byteAt_modV (s : State) (n : VReg) (f : VecReg → VecReg) : SameBytes s (s.modV n f) := State.byteAt_modVec _ _
theorem State.vreg_modV_same (s : State) (n : VReg) (f : VecReg → VecReg) : (s.modV n f).vreg n = f (s.vreg n) := by
  simp [State.vreg, State.modV]
theorem State.vreg_modV_other (s : State) {n r : VReg} (f : VecReg → VecReg) (h : r ≠ n) : (s.modV n f).vreg r = s.vreg r := by
  have h' : n.val ≠ r.val := fun e => h (Fin.ext e.symm)
  simp [State.vreg, State.modV, Vector.getElem_set_ne, h']
@[simp] theorem State.cur_modV (s : State) (n : VReg) (f : VecReg → VecReg) : (s.modV n f).cur = s.cur := by simp [State.modV]
@[simp] theorem State.masks_modV (s : State) (n : VReg) (f : VecReg → VecReg) : (s.modV n f).curC.vec.masks = s.curC.vec.masks := by
  simp [State.modV]
@[simp] theorem State.vec_modCur (s : State) (f : Thread → Thread) : (s.modCur f).curC.vec = s.curC.vec := by simp
theorem State.vreg_modCur (s : State) (f : Thread → Thread) (r : VReg) : (s.modCur f).vreg r = s.vreg r := by simp [State.vreg]

/-- The thread's part of a floating word: flags and saturation. -/
theorem accrue_saturate (s : State) (f : BitVec 5) (b : Bool) :
    (s.accrue f).saturate b = s.modCur (fun t => { t with fflags := t.fflags ||| f, vsat := t.vsat || b }) := by
  cases b <;> simp [State.saturate, State.accrue]

/-- An elementwise word that meets no enabled exception: its destination's bits, flags, and the rest of the frame. -/
theorem finishElems_done {e : LaneEnv} {s : State} {vd : VReg} {w : Nat} {r : ElemRun} {tag : VecReg → VTag} (ht : r.trap = none) :
    ∃ s2, finishElems e s vd w r tag = .done s2
      ∧ LaneFrame s (laneFinish s2 State.advance) (some vd) none none
      ∧ ((laneFinish s2 State.advance).vreg vd).bits = elemsSet (s.vreg vd).bits w r.vals
      ∧ (laneFinish s2 State.advance).cur.fflags = s.cur.fflags ||| r.flags
      ∧ (laneFinish s2 State.advance).cur.vsat = (s.cur.vsat || r.sat)
      ∧ ((laneFinish s2 State.advance).vreg vd).tag = (if r.outs.isEmpty then (s.vreg vd).tag else tag (s.vreg vd)) := by
  refine ⟨((if r.outs.isEmpty then (s.accrue r.flags).saturate r.sat
      else ((s.accrue r.flags).saturate r.sat).modV vd (fun old => { old.write w r.vals with tag := tag old })).modV vd
        (fun x => if r.outs.isEmpty && e.vl = 0 then x else { x with vpx := 4096 })), by simp only [finishElems, finishRun, ht, Bool.not_not], ?_⟩
  rw [accrue_saturate]
  generalize hg : (fun t : Thread => { t with fflags := t.fflags ||| r.flags, vsat := t.vsat || r.sat }) = g
  have hbits : ∀ s2 : State, (s2 = (if r.outs.isEmpty then s.modCur g
      else (s.modCur g).modV vd (fun old => { old.write w r.vals with tag := tag old })).modV vd
        (fun x => if r.outs.isEmpty && e.vl = 0 then x else { x with vpx := 4096 })) →
      (s2.vreg vd).bits = elemsSet (s.vreg vd).bits w r.vals
        ∧ (s2.vreg vd).tag = (if r.outs.isEmpty then (s.vreg vd).tag else tag (s.vreg vd)) ∧ s2.cur = g s.cur := by
    rintro s2 rfl
    rw [State.vreg_modV_same]
    by_cases ho : r.outs.isEmpty = true
    · have : r.vals = [] := by rw [ElemRun.vals, List.isEmpty_iff.mp ho]; rfl
      rw [this, if_pos ho, if_pos ho]
      have h1 : elemsSet (s.vreg vd).bits w [] = (s.vreg vd).bits := rfl
      rw [h1]
      refine ⟨?_, ?_, by simp⟩ <;> split <;> simp [State.vreg_modCur]
    · have hne : r.vals.isEmpty = false := by
        rw [ElemRun.vals]; cases hx : r.outs with
        | nil => simp [hx] at ho
        | cons a b => rfl
      rw [if_neg ho, if_neg ho, State.vreg_modV_same]
      refine ⟨?_, ?_, by simp⟩ <;> split <;> simp [State.vreg_modCur, VecReg.write, hne]
  have hb := hbits _ rfl
  have hf := laneFinish_frame (s1 := s) (s2 := (if r.outs.isEmpty then s.modCur g
      else (s.modCur g).modV vd (fun old => { old.write w r.vals with tag := tag old })).modV vd
        (fun x => if r.outs.isEmpty && e.vl = 0 then x else { x with vpx := 4096 })) (vd := some vd) (md := none) (sd := none)
      (by rw [hb.2.2, ← hg])
      (by intro q _; simp only [State.sreg]; apply sreg_of_sregs; rw [hb.2.2, ← hg])
      (by
        refine SameBytes.trans ?_ (State.byteAt_modV _ _ _)
        split
        · exact State.byteAt_modCur _ _
        · exact (State.byteAt_modCur _ _).trans (State.byteAt_modV _ _ _))
      (by
        intro q hq
        have hq' : q ≠ vd := fun h => hq (by rw [h])
        rw [State.vreg_modV_other _ _ hq']
        split
        · rw [State.vreg_modCur]
        · rw [State.vreg_modV_other _ _ hq', State.vreg_modCur])
      (by intro m _; split <;> simp)
      (by
        refine LaneOutside.trans ?_ (LaneOutside.modVec _ _)
        split
        · exact LaneOutside.modCur _ _
        · exact (LaneOutside.modCur _ _).trans (LaneOutside.modVec _ _))
  refine ⟨hf.1, by rw [hf.2.1, hb.1], ?_, ?_, by rw [hf.2.1, hb.2.1]⟩
  · rw [hf.2.2.2.2.1, hb.2.2, ← hg]
  · rw [hf.2.2.2.2.2, hb.2.2, ← hg]

theorem LaneFrame.ofFresh {s t : State} {n : Nat} {vd : Option VReg} {md : Option MReg} {sd : Option SReg}
    (h : LaneFrame { s with fresh := n } t vd md sd) : LaneFrame s t vd md sd := by
  obtain ⟨h1, h2, h3, h4, h5, h6, h7, h8, h9, h10⟩ := h
  refine ⟨h1, h2, h3, h4, h5, h6, h7, h8, ?_, h10⟩
  have := congrArg (fun x : State => { x with fresh := s.fresh }) h9
  exact this

/-- A word of the template runs to its end where no enabled exception is raised: executing elements hold what it computes; flags,
saturation and tags are those of the run. -/
theorem template_done {s s1 : State} {op : LaneOp} {e : LaneEnv} {vd : VReg} {mk : MkField} {f : Nat → EOut} {tag : VecReg → VTag}
    {s1' : State} (h : LaneGo s op.dest op.srcs op.rep op.split e s1) (hs : ∃ n, s1' = { s1 with fresh := n })
    (hr : op.run e s1 = finishElems e s1' vd e.n (runElems 0 f (e.elems s1.curC.vec mk e.vl)) tag) :
    ∃ t, issueLane op s = .next t ∧ LaneWrote s1 t e vd e.n mk (fun i => (f i).bits)
      ∧ t.cur.fflags = s1.cur.fflags ||| (runElems 0 f (e.elems s1.curC.vec mk e.vl)).flags
      ∧ t.cur.vsat = (s1.cur.vsat || (runElems 0 f (e.elems s1.curC.vec mk e.vl)).sat)
      ∧ (t.vreg vd).tag = (if (e.elems s1.curC.vec mk e.vl).isEmpty then (s1.vreg vd).tag else tag (s1.vreg vd)) := by
  obtain ⟨n, rfl⟩ := hs
  obtain ⟨s2, h2, h4, h5, h6, h7, h8⟩ := finishElems_done (e := e) (s := { s1 with fresh := n }) (vd := vd) (w := e.n) (tag := tag)
    (runElems_all f (e.elems s1.curC.vec mk e.vl)).2
  refine ⟨_, issueLane_done h (hr.trans h2), ⟨h4.ofFresh, ?_⟩, h6, h7, ?_⟩
  · intro i hi
    rw [h5, runElems_vals]
    have hp := e.n_pos
    have := elemsSet_spec hp.2 hp.1 (s1.vreg vd).bits (e.elems s1.curC.vec mk e.vl) (fun i => (f i).bits) (elems_pairwise _ _ _ _) hi
    constructor
    · intro hx
      exact this.trans (if_pos (mem_elems.mpr hx))
    · intro hx
      exact this.trans (if_neg (fun hm => hx (mem_elems.mp hm)))
  · rw [h8, (runElems_all f _).1]
    cases e.elems s1.curC.vec mk e.vl <;> rfl

/-- Integer words (R218): no flag is raised. -/
theorem intOp_done {s s1 : State} {vd va : VReg} {srcs : List VReg} {mk : MkField} {rep : Option VReg}
    {f : LaneEnv → VecUnit → Nat → Nat → Nat → EOut} {e : LaneEnv} (h : LaneGo s (intOp vd va srcs mk rep f).dest (intOp vd va srcs mk rep f).srcs (intOp vd va srcs mk rep f).rep (intOp vd va srcs mk rep f).split e s1) :
    ∃ t, issueLane (intOp vd va srcs mk rep f) s = .next t
      ∧ LaneWrote s1 t e vd e.n mk (fun i => (f e s1.curC.vec i (srcElem s1 e va i) (srcElem s1 e vd i)).bits) :=
  have ⟨t, h1, h2, _⟩ := template_done h ⟨s1.fresh, rfl⟩ rfl
  ⟨t, h1, h2⟩

/-- Floating words with no exception enabled (R219). -/
theorem fpOp_done {s s1 : State} {rule : TagRule} {rb rd : Bool} {f : BitVec 11 → Nat → Nat → Nat → Nat → EOut} {vd va vb : VReg}
    {rep : Rep} {mk : MkField} {e : LaneEnv} (h : LaneGo s (fpOp rule rb rd f vd va vb rep mk).dest (fpOp rule rb rd f vd va vb rep mk).srcs (fpOp rule rb rd f vd va vb rep mk).rep (fpOp rule rb rd f vd va vb rep mk).split e s1) (hx : e.fexc = 0) :
    let out (i x : Nat) : EOut := f e.vtype (4096 * s1.fresh + i) (srcElem s1 e va i) x (srcElem s1 e vd i)
    ∃ t, issueLane (fpOp rule rb rd f vd va vb rep mk) s = .next t
      ∧ LaneWrote s1 t e vd e.n mk
        (fun i => (out i (loopSource e s1.curC.vec mk vd vb rep (fun k x => (out k x).bits) i)).bits) := by
  intro out
  let val (i : Nat) : EOut := out i (loopSource e s1.curC.vec mk vd vb rep (fun k x => (out k x).bits) i)
  have := template_done h (s1' := { s1 with fresh := s1.fresh + 1 }) ⟨_, rfl⟩ (mk := mk) (vd := vd) (f := val)
    (tag := fun old => fpTag (fmtOfVt e.vtype) rule ⟨(s1.vreg va).tag, (s1.vreg vb).tag, (s1.vreg vd).tag⟩ rb rd
      (runElems 0 val (e.elems s1.curC.vec mk e.vl)) old e.n)
    (by simp only [fpOp, hx]; rfl)
  exact this.imp fun t h => ⟨h.1, h.2.1⟩

/-- What the machine reads for the second source of an executing element is what the loop reads. -/
theorem loopSource_eq {s : State} {e : LaneEnv} {mk : MkField} {vd vb : VReg} {rep : Rep} {new : Nat → Nat → Nat} {i : Nat}
    (h : Executes e s.curC.vec mk i) :
    loopSource e s.curC.vec mk vd vb rep new i = loopElem s e mk vd vb rep new i := by
  have h2 := h.2.1
  simp only [loopSource, loopElem, srcElem, State.vreg]
  by_cases hk : repIndex rep i < i
  · have : repIndex rep i < e.vl := by omega
    simp [Executes, hk, this, and_assoc]
  · simp [hk]

end Sys2Proof.Machine
end

