-- ==== Sys2Proof/Laws/PerInstr.lean ====
section
/-!
SUPPORT. One family over the syntax: the word of an instruction bears an assigned major, 0x01 to 0x31 (spec 02 R16, R28); an event
has no word.
-/

namespace Sys2Proof.Laws

/-- The major of a word is assigned (R28). -/
def assignedMajor (w : Word32) : Prop := 1 ≤ (fld w 26 6).toNat ∧ (fld w 26 6).toNat ≤ 0x31

theorem assignedMajor_of_high (op : BitVec 6) (low : BitVec 26) (h : 1 ≤ op.toNat ∧ op.toNat ≤ 0x31) : assignedMajor (op ++ low) := by
  have e : fld (op ++ low) 26 6 = op := by
    simp only [fld]; ext i hi; simp only [BitVec.getElem_extractLsb', BitVec.getLsbD_append]; simp [hi]
  unfold assignedMajor; rw [e]; exact h

theorem fmtS3_major (op : BitVec 6) (d a b : BitVec 5) (fn : BitVec 11) (h : 1 ≤ op.toNat ∧ op.toNat ≤ 0x31) : assignedMajor (fmtS3 op d a b fn) := by
  have e : fmtS3 op d a b fn = op ++ (d ++ a ++ b ++ fn) := by
    simp only [fmtS3]; apply BitVec.eq_of_toNat_eq; simp only [BitVec.toNat_append, Nat.shiftLeft_or_distrib, ← Nat.shiftLeft_add, Nat.or_assoc]
  rw [e]; exact assignedMajor_of_high _ _ h

theorem fmtSI_major (op : BitVec 6) (d a : BitVec 5) (imm : BitVec 16) (h : 1 ≤ op.toNat ∧ op.toNat ≤ 0x31) : assignedMajor (fmtSI op d a imm) := by
  have e : fmtSI op d a imm = op ++ (d ++ a ++ imm) := by
    simp only [fmtSI]; apply BitVec.eq_of_toNat_eq; simp only [BitVec.toNat_append, Nat.shiftLeft_or_distrib, ← Nat.shiftLeft_add, Nat.or_assoc]
  rw [e]; exact assignedMajor_of_high _ _ h

theorem fmtSU_major (op : BitVec 6) (d : BitVec 5) (imm : BitVec 21) (h : 1 ≤ op.toNat ∧ op.toNat ≤ 0x31) : assignedMajor (fmtSU op d imm) := by
  have e : fmtSU op d imm = op ++ (d ++ imm) := by
    simp only [fmtSU]; apply BitVec.eq_of_toNat_eq; simp only [BitVec.toNat_append, Nat.shiftLeft_or_distrib, ← Nat.shiftLeft_add, Nat.or_assoc]
  rw [e]; exact assignedMajor_of_high _ _ h

theorem fmtSB_major (op : BitVec 6) (a b : BitVec 5) (cond : BitVec 3) (off : BitVec 13) (h : 1 ≤ op.toNat ∧ op.toNat ≤ 0x31) : assignedMajor (fmtSB op a b cond off) := by
  have e : fmtSB op a b cond off = op ++ (a ++ b ++ cond ++ off) := by
    simp only [fmtSB]; apply BitVec.eq_of_toNat_eq; simp only [BitVec.toNat_append, Nat.shiftLeft_or_distrib, ← Nat.shiftLeft_add, Nat.or_assoc]
  rw [e]; exact assignedMajor_of_high _ _ h

theorem fmtSM_major (op : BitVec 6) (d a : BitVec 5) (sz : BitVec 2) (off : BitVec 14) (h : 1 ≤ op.toNat ∧ op.toNat ≤ 0x31) : assignedMajor (fmtSM op d a sz off) := by
  have e : fmtSM op d a sz off = op ++ (d ++ a ++ sz ++ off) := by
    simp only [fmtSM]; apply BitVec.eq_of_toNat_eq; simp only [BitVec.toNat_append, Nat.shiftLeft_or_distrib, ← Nat.shiftLeft_add, Nat.or_assoc]
  rw [e]; exact assignedMajor_of_high _ _ h

theorem fmtSMQ_major (op : BitVec 6) (d a : BitVec 5) (sz qf : BitVec 2) (off : BitVec 12) (h : 1 ≤ op.toNat ∧ op.toNat ≤ 0x31) : assignedMajor (fmtSMQ op d a sz qf off) := by
  have e : fmtSMQ op d a sz qf off = op ++ (d ++ a ++ sz ++ qf ++ off) := by
    simp only [fmtSMQ]; apply BitVec.eq_of_toNat_eq; simp only [BitVec.toNat_append, Nat.shiftLeft_or_distrib, ← Nat.shiftLeft_add, Nat.or_assoc]
  rw [e]; exact assignedMajor_of_high _ _ h

theorem fmtV3_major (op : BitVec 6) (vd va vb : BitVec 5) (rprs : BitVec 3) (mk fn : BitVec 4) (h : 1 ≤ op.toNat ∧ op.toNat ≤ 0x31) : assignedMajor (fmtV3 op vd va vb rprs mk fn) := by
  have e : fmtV3 op vd va vb rprs mk fn = op ++ (vd ++ va ++ vb ++ rprs ++ mk ++ fn) := by
    simp only [fmtV3]; apply BitVec.eq_of_toNat_eq; simp only [BitVec.toNat_append, Nat.shiftLeft_or_distrib, ← Nat.shiftLeft_add, Nat.or_assoc]
  rw [e]; exact assignedMajor_of_high _ _ h

theorem fmtVI_major (op : BitVec 6) (vd va : BitVec 5) (imm : BitVec 8) (mk fn : BitVec 4) (h : 1 ≤ op.toNat ∧ op.toNat ≤ 0x31) : assignedMajor (fmtVI op vd va imm mk fn) := by
  have e : fmtVI op vd va imm mk fn = op ++ (vd ++ va ++ imm ++ mk ++ fn) := by
    simp only [fmtVI]; apply BitVec.eq_of_toNat_eq; simp only [BitVec.toNat_append, Nat.shiftLeft_or_distrib, ← Nat.shiftLeft_add, Nat.or_assoc]
  rw [e]; exact assignedMajor_of_high _ _ h

theorem fmtVM_major (op : BitVec 6) (vd a x : BitVec 5) (ew qf : BitVec 2) (mk : BitVec 4) (md : BitVec 3) (h : 1 ≤ op.toNat ∧ op.toNat ≤ 0x31) : assignedMajor (fmtVM op vd a x ew qf mk md) := by
  have e : fmtVM op vd a x ew qf mk md = op ++ (vd ++ a ++ x ++ ew ++ qf ++ mk ++ md) := by
    simp only [fmtVM]; apply BitVec.eq_of_toNat_eq; simp only [BitVec.toNat_append, Nat.shiftLeft_or_distrib, ← Nat.shiftLeft_add, Nat.or_assoc]
  rw [e]; exact assignedMajor_of_high _ _ h

theorem fmtVT_major (op : BitVec 6) (fn : BitVec 3) (a b : BitVec 5) (off : BitVec 13) (h : 1 ≤ op.toNat ∧ op.toNat ≤ 0x31) : assignedMajor (fmtVT op fn a b off) := by
  have e : fmtVT op fn a b off = op ++ (fn ++ a ++ b ++ off) := by
    simp only [fmtVT]; apply BitVec.eq_of_toNat_eq; simp only [BitVec.toNat_append, Nat.shiftLeft_or_distrib, ← Nat.shiftLeft_add, Nat.or_assoc]
  rw [e]; exact assignedMajor_of_high _ _ h

theorem fmtMX_major (op : BitVec 6) (fn : BitVec 4) (p q c : BitVec 5) (fl : BitVec 7) (h : 1 ≤ op.toNat ∧ op.toNat ≤ 0x31) : assignedMajor (fmtMX op fn p q c fl) := by
  have e : fmtMX op fn p q c fl = op ++ (fn ++ p ++ q ++ c ++ fl) := by
    simp only [fmtMX]; apply BitVec.eq_of_toNat_eq; simp only [BitVec.toNat_append, Nat.shiftLeft_or_distrib, ← Nat.shiftLeft_add, Nat.or_assoc]
  rw [e]; exact assignedMajor_of_high _ _ h

theorem fmtQE_major (op : BitVec 6) (fn a b c : BitVec 5) (fl : BitVec 6) (h : 1 ≤ op.toNat ∧ op.toNat ≤ 0x31) : assignedMajor (fmtQE op fn a b c fl) := by
  have e : fmtQE op fn a b c fl = op ++ (fn ++ a ++ b ++ c ++ fl) := by
    simp only [fmtQE]; apply BitVec.eq_of_toNat_eq; simp only [BitVec.toNat_append, Nat.shiftLeft_or_distrib, ← Nat.shiftLeft_add, Nat.or_assoc]
  rw [e]; exact assignedMajor_of_high _ _ h

theorem fmtRP_major (op : BitVec 6) (n : BitVec 4) (reps : BitVec 6) (dd da db : BitVec 3) (h : 1 ≤ op.toNat ∧ op.toNat ≤ 0x31) : assignedMajor (fmtRP op n reps dd da db) := by
  have e : fmtRP op n reps dd da db = op ++ (n ++ reps ++ dd ++ da ++ db ++ (0 : BitVec 7)) := by
    simp only [fmtRP]; apply BitVec.eq_of_toNat_eq; simp only [BitVec.toNat_append, Nat.shiftLeft_or_distrib, ← Nat.shiftLeft_add, Nat.or_assoc]
  rw [e]; exact assignedMajor_of_high _ _ h

namespace WordMajor

/-- The word of `i`, where it has one, bears an assigned major. -/
def Statement (i : Instr) : Prop := ∀ w, encode i = some w → assignedMajor w

theorem add (d a b : SReg) : Statement (.add d a b) := fun _ h => by cases h; exact fmtS3_major _ _ _ _ _ (by decide)
theorem sub (d a b : SReg) : Statement (.sub d a b) := fun _ h => by cases h; exact fmtS3_major _ _ _ _ _ (by decide)
theorem mul (d a b : SReg) : Statement (.mul d a b) := fun _ h => by cases h; exact fmtS3_major _ _ _ _ _ (by decide)
theorem mulh (d a b : SReg) : Statement (.mulh d a b) := fun _ h => by cases h; exact fmtS3_major _ _ _ _ _ (by decide)
theorem mulhw (d a b : SReg) : Statement (.mulhw d a b) := fun _ h => by cases h; exact fmtS3_major _ _ _ _ _ (by decide)
theorem div (d a b : SReg) : Statement (.div d a b) := fun _ h => by cases h; exact fmtS3_major _ _ _ _ _ (by decide)
theorem divw (d a b : SReg) : Statement (.divw d a b) := fun _ h => by cases h; exact fmtS3_major _ _ _ _ _ (by decide)
theorem rem (d a b : SReg) : Statement (.rem d a b) := fun _ h => by cases h; exact fmtS3_major _ _ _ _ _ (by decide)
theorem remw (d a b : SReg) : Statement (.remw d a b) := fun _ h => by cases h; exact fmtS3_major _ _ _ _ _ (by decide)
theorem and (d a b : SReg) : Statement (.and d a b) := fun _ h => by cases h; exact fmtS3_major _ _ _ _ _ (by decide)
theorem or (d a b : SReg) : Statement (.or d a b) := fun _ h => by cases h; exact fmtS3_major _ _ _ _ _ (by decide)
theorem xor (d a b : SReg) : Statement (.xor d a b) := fun _ h => by cases h; exact fmtS3_major _ _ _ _ _ (by decide)
theorem andn (d a b : SReg) : Statement (.andn d a b) := fun _ h => by cases h; exact fmtS3_major _ _ _ _ _ (by decide)
theorem sll (d a b : SReg) : Statement (.sll d a b) := fun _ h => by cases h; exact fmtS3_major _ _ _ _ _ (by decide)
theorem srl (d a b : SReg) : Statement (.srl d a b) := fun _ h => by cases h; exact fmtS3_major _ _ _ _ _ (by decide)
theorem sra (d a b : SReg) : Statement (.sra d a b) := fun _ h => by cases h; exact fmtS3_major _ _ _ _ _ (by decide)
theorem rotl (d a b : SReg) : Statement (.rotl d a b) := fun _ h => by cases h; exact fmtS3_major _ _ _ _ _ (by decide)
theorem slt (d a b : SReg) : Statement (.slt d a b) := fun _ h => by cases h; exact fmtS3_major _ _ _ _ _ (by decide)
theorem sltw (d a b : SReg) : Statement (.sltw d a b) := fun _ h => by cases h; exact fmtS3_major _ _ _ _ _ (by decide)
theorem min (d a b : SReg) : Statement (.min d a b) := fun _ h => by cases h; exact fmtS3_major _ _ _ _ _ (by decide)
theorem max (d a b : SReg) : Statement (.max d a b) := fun _ h => by cases h; exact fmtS3_major _ _ _ _ _ (by decide)
theorem minw (d a b : SReg) : Statement (.minw d a b) := fun _ h => by cases h; exact fmtS3_major _ _ _ _ _ (by decide)
theorem maxw (d a b : SReg) : Statement (.maxw d a b) := fun _ h => by cases h; exact fmtS3_major _ _ _ _ _ (by decide)
theorem slli (d a : SReg) (sh : BitVec 6) : Statement (.slli d a sh) := fun _ h => by cases h; exact fmtS3_major _ _ _ _ _ (by decide)
theorem srli (d a : SReg) (sh : BitVec 6) : Statement (.srli d a sh) := fun _ h => by cases h; exact fmtS3_major _ _ _ _ _ (by decide)
theorem srai (d a : SReg) (sh : BitVec 6) : Statement (.srai d a sh) := fun _ h => by cases h; exact fmtS3_major _ _ _ _ _ (by decide)
theorem rotli (d a : SReg) (sh : BitVec 6) : Statement (.rotli d a sh) := fun _ h => by cases h; exact fmtS3_major _ _ _ _ _ (by decide)
theorem clz (d a : SReg) : Statement (.clz d a) := fun _ h => by cases h; exact fmtS3_major _ _ _ _ _ (by decide)
theorem ctz (d a : SReg) : Statement (.ctz d a) := fun _ h => by cases h; exact fmtS3_major _ _ _ _ _ (by decide)
theorem popc (d a : SReg) : Statement (.popc d a) := fun _ h => by cases h; exact fmtS3_major _ _ _ _ _ (by decide)
theorem sextb (d a : SReg) : Statement (.sextb d a) := fun _ h => by cases h; exact fmtS3_major _ _ _ _ _ (by decide)
theorem sexth (d a : SReg) : Statement (.sexth d a) := fun _ h => by cases h; exact fmtS3_major _ _ _ _ _ (by decide)
theorem sextw (d a : SReg) : Statement (.sextw d a) := fun _ h => by cases h; exact fmtS3_major _ _ _ _ _ (by decide)
theorem zextw (d a : SReg) : Statement (.zextw d a) := fun _ h => by cases h; exact fmtS3_major _ _ _ _ _ (by decide)
theorem bswap (d a : SReg) : Statement (.bswap d a) := fun _ h => by cases h; exact fmtS3_major _ _ _ _ _ (by decide)
theorem addi (d a : SReg) (imm : BitVec 16) : Statement (.addi d a imm) := fun _ h => by cases h; exact fmtSI_major _ _ _ _ (by decide)
theorem andi (d a : SReg) (imm : BitVec 16) : Statement (.andi d a imm) := fun _ h => by cases h; exact fmtSI_major _ _ _ _ (by decide)
theorem ori (d a : SReg) (imm : BitVec 16) : Statement (.ori d a imm) := fun _ h => by cases h; exact fmtSI_major _ _ _ _ (by decide)
theorem xori (d a : SReg) (imm : BitVec 16) : Statement (.xori d a imm) := fun _ h => by cases h; exact fmtSI_major _ _ _ _ (by decide)
theorem slti (d a : SReg) (imm : BitVec 16) : Statement (.slti d a imm) := fun _ h => by cases h; exact fmtSI_major _ _ _ _ (by decide)
theorem sltwi (d a : SReg) (imm : BitVec 16) : Statement (.sltwi d a imm) := fun _ h => by cases h; exact fmtSI_major _ _ _ _ (by decide)
theorem lui (d : SReg) (imm : BitVec 21) : Statement (.lui d imm) := fun _ h => by cases h; exact fmtSU_major _ _ _ (by decide)
theorem aupc (d : SReg) (imm : BitVec 21) : Statement (.aupc d imm) := fun _ h => by cases h; exact fmtSU_major _ _ _ (by decide)
theorem jal (d : SReg) (off : BitVec 21) : Statement (.jal d off) := fun _ h => by cases h; exact fmtSU_major _ _ _ (by decide)
theorem jalr (d a : SReg) (off : BitVec 16) : Statement (.jalr d a off) := fun _ h => by cases h; exact fmtSI_major _ _ _ _ (by decide)
theorem beq (a b : SReg) (off : BitVec 13) : Statement (.beq a b off) := fun _ h => by cases h; exact fmtSB_major _ _ _ _ _ (by decide)
theorem bne (a b : SReg) (off : BitVec 13) : Statement (.bne a b off) := fun _ h => by cases h; exact fmtSB_major _ _ _ _ _ (by decide)
theorem blt (a b : SReg) (off : BitVec 13) : Statement (.blt a b off) := fun _ h => by cases h; exact fmtSB_major _ _ _ _ _ (by decide)
theorem bge (a b : SReg) (off : BitVec 13) : Statement (.bge a b off) := fun _ h => by cases h; exact fmtSB_major _ _ _ _ _ (by decide)
theorem bltw (a b : SReg) (off : BitVec 13) : Statement (.bltw a b off) := fun _ h => by cases h; exact fmtSB_major _ _ _ _ _ (by decide)
theorem bgew (a b : SReg) (off : BitVec 13) : Statement (.bgew a b off) := fun _ h => by cases h; exact fmtSB_major _ _ _ _ _ (by decide)
theorem loop (a : SReg) (off : BitVec 16) : Statement (.loop a off) := fun _ h => by cases h; exact fmtSI_major _ _ _ _ (by decide)
theorem bstrip (a : SReg) (off : BitVec 13) : Statement (.bstrip a off) := fun _ h => by cases h; exact fmtSB_major _ _ _ _ _ (by decide)
theorem svc : Statement .svc := fun _ h => by cases h; exact fmtS3_major _ _ _ _ _ (by decide)
theorem tret : Statement .tret := fun _ h => by cases h; exact fmtS3_major _ _ _ _ _ (by decide)
theorem brk : Statement .brk := fun _ h => by cases h; exact fmtS3_major _ _ _ _ _ (by decide)
theorem halt : Statement .halt := fun _ h => by cases h; exact fmtS3_major _ _ _ _ _ (by decide)
theorem idle : Statement .idle := fun _ h => by cases h; exact fmtS3_major _ _ _ _ _ (by decide)
theorem fencei : Statement .fencei := fun _ h => by cases h; exact fmtS3_major _ _ _ _ _ (by decide)
theorem mark (a : SReg) : Statement (.mark a) := fun _ h => by cases h; exact fmtS3_major _ _ _ _ _ (by decide)
theorem csrr (d : SReg) (csr : BitVec 12) : Statement (.csrr d csr) := fun _ h => by cases h; exact fmtSI_major _ _ _ _ (by decide)
theorem csrw (d a : SReg) (csr : BitVec 12) : Statement (.csrw d a csr) := fun _ h => by cases h; exact fmtSI_major _ _ _ _ (by decide)
theorem csrs (d a : SReg) (csr : BitVec 12) : Statement (.csrs d a csr) := fun _ h => by cases h; exact fmtSI_major _ _ _ _ (by decide)
theorem csrc (d a : SReg) (csr : BitVec 12) : Statement (.csrc d a csr) := fun _ h => by cases h; exact fmtSI_major _ _ _ _ (by decide)
theorem fadd (d a b : SReg) (t : SfpType) (rm : RmField) : Statement (.fadd d a b t rm) := fun _ h => by cases h; exact fmtS3_major _ _ _ _ _ (by decide)
theorem fsub (d a b : SReg) (t : SfpType) (rm : RmField) : Statement (.fsub d a b t rm) := fun _ h => by cases h; exact fmtS3_major _ _ _ _ _ (by decide)
theorem fmul (d a b : SReg) (t : SfpType) (rm : RmField) : Statement (.fmul d a b t rm) := fun _ h => by cases h; exact fmtS3_major _ _ _ _ _ (by decide)
theorem fdiv (d a b : SReg) (t : SfpType) (rm : RmField) : Statement (.fdiv d a b t rm) := fun _ h => by cases h; exact fmtS3_major _ _ _ _ _ (by decide)
theorem fsqrt (d a : SReg) (t : SfpType) (rm : RmField) : Statement (.fsqrt d a t rm) := fun _ h => by cases h; exact fmtS3_major _ _ _ _ _ (by decide)
theorem fmin (d a b : SReg) (t : SfpType) : Statement (.fmin d a b t) := fun _ h => by cases h; exact fmtS3_major _ _ _ _ _ (by decide)
theorem fmax (d a b : SReg) (t : SfpType) : Statement (.fmax d a b t) := fun _ h => by cases h; exact fmtS3_major _ _ _ _ _ (by decide)
theorem fmacc (d a b : SReg) (t : SfpType) (rm : RmField) : Statement (.fmacc d a b t rm) := fun _ h => by cases h; exact fmtS3_major _ _ _ _ _ (by decide)
theorem fcmpeq (d a b : SReg) (t : SfpType) : Statement (.fcmpeq d a b t) := fun _ h => by cases h; exact fmtS3_major _ _ _ _ _ (by decide)
theorem fcmplt (d a b : SReg) (t : SfpType) : Statement (.fcmplt d a b t) := fun _ h => by cases h; exact fmtS3_major _ _ _ _ _ (by decide)
theorem fcmple (d a b : SReg) (t : SfpType) : Statement (.fcmple d a b t) := fun _ h => by cases h; exact fmtS3_major _ _ _ _ _ (by decide)
theorem fclass (d a : SReg) (t : SfpType) : Statement (.fclass d a t) := fun _ h => by cases h; exact fmtS3_major _ _ _ _ _ (by decide)
theorem fcvt (d a : SReg) (other : ElemType) (toInt : Bool) (t : SfpType) (rm : RmField) : Statement (.fcvt d a other toInt t rm) := fun _ h => by cases h; exact fmtS3_major _ _ _ _ _ (by decide)
theorem ld (d a : SReg) (sz : Width) (off : BitVec 14) : Statement (.ld d a sz off) := fun _ h => by cases h; exact fmtSM_major _ _ _ _ _ (by decide)
theorem ldz (d a : SReg) (sz : Width) (off : BitVec 14) : Statement (.ldz d a sz off) := fun _ h => by cases h; exact fmtSM_major _ _ _ _ _ (by decide)
theorem st (d a : SReg) (sz : Width) (off : BitVec 14) : Statement (.st d a sz off) := fun _ h => by cases h; exact fmtSM_major _ _ _ _ _ (by decide)
theorem lds (d a : SReg) (sz : Width) (qf : LoadQual) (off : BitVec 12) : Statement (.lds d a sz qf off) := fun _ h => by cases h; exact fmtSMQ_major _ _ _ _ _ _ (by decide)
theorem sts (d a : SReg) (sz : Width) (qf : StoreQual) (off : BitVec 12) : Statement (.sts d a sz qf off) := fun _ h => by cases h; exact fmtSMQ_major _ _ _ _ _ _ (by decide)
theorem amoswap (d a b : SReg) (ord : Order) (sc : Scope) (dbl spad : Bool) : Statement (.amoswap d a b ord sc dbl spad) := fun _ h => by cases h; exact fmtS3_major _ _ _ _ _ (by decide)
theorem amoadd (d a b : SReg) (ord : Order) (sc : Scope) (dbl spad : Bool) : Statement (.amoadd d a b ord sc dbl spad) := fun _ h => by cases h; exact fmtS3_major _ _ _ _ _ (by decide)
theorem amoand (d a b : SReg) (ord : Order) (sc : Scope) (dbl spad : Bool) : Statement (.amoand d a b ord sc dbl spad) := fun _ h => by cases h; exact fmtS3_major _ _ _ _ _ (by decide)
theorem amoor (d a b : SReg) (ord : Order) (sc : Scope) (dbl spad : Bool) : Statement (.amoor d a b ord sc dbl spad) := fun _ h => by cases h; exact fmtS3_major _ _ _ _ _ (by decide)
theorem amoxor (d a b : SReg) (ord : Order) (sc : Scope) (dbl spad : Bool) : Statement (.amoxor d a b ord sc dbl spad) := fun _ h => by cases h; exact fmtS3_major _ _ _ _ _ (by decide)
theorem amomin (d a b : SReg) (ord : Order) (sc : Scope) (dbl spad : Bool) : Statement (.amomin d a b ord sc dbl spad) := fun _ h => by cases h; exact fmtS3_major _ _ _ _ _ (by decide)
theorem amomax (d a b : SReg) (ord : Order) (sc : Scope) (dbl spad : Bool) : Statement (.amomax d a b ord sc dbl spad) := fun _ h => by cases h; exact fmtS3_major _ _ _ _ _ (by decide)
theorem amominw (d a b : SReg) (ord : Order) (sc : Scope) (dbl spad : Bool) : Statement (.amominw d a b ord sc dbl spad) := fun _ h => by cases h; exact fmtS3_major _ _ _ _ _ (by decide)
theorem amomaxw (d a b : SReg) (ord : Order) (sc : Scope) (dbl spad : Bool) : Statement (.amomaxw d a b ord sc dbl spad) := fun _ h => by cases h; exact fmtS3_major _ _ _ _ _ (by decide)
theorem amocas (d a b : SReg) (ord : Order) (sc : Scope) (dbl spad : Bool) : Statement (.amocas d a b ord sc dbl spad) := fun _ h => by cases h; exact fmtS3_major _ _ _ _ _ (by decide)
theorem fence (kind : FenceKind) (sc : Scope) : Statement (.fence kind sc) := fun _ h => by cases h; exact fmtS3_major _ _ _ _ _ (by decide)
theorem bar (a : SReg) : Statement (.bar a) := fun _ h => by cases h; exact fmtS3_major _ _ _ _ _ (by decide)
theorem barr (d a : SReg) : Statement (.barr d a) := fun _ h => by cases h; exact fmtS3_major _ _ _ _ _ (by decide)
theorem barw (a b : SReg) : Statement (.barw a b) := fun _ h => by cases h; exact fmtS3_major _ _ _ _ _ (by decide)
theorem waitge (a b : SReg) : Statement (.waitge a b) := fun _ h => by cases h; exact fmtS3_major _ _ _ _ _ (by decide)
theorem sigadd (a b : SReg) : Statement (.sigadd a b) := fun _ h => by cases h; exact fmtS3_major _ _ _ _ _ (by decide)
theorem waitt (a : SReg) : Statement (.waitt a) := fun _ h => by cases h; exact fmtS3_major _ _ _ _ _ (by decide)
theorem vsetvl (d a : SReg) (vt : VtypeField) : Statement (.vsetvl d a vt) := fun _ h => by cases h; exact fmtS3_major _ _ _ _ _ (by decide)
theorem vadd (vd va vb : VReg) (rep : Rep) (mk : MkField) : Statement (.vadd vd va vb rep mk) := fun _ h => by cases h; exact fmtV3_major _ _ _ _ _ _ _ (by decide)
theorem vsub (vd va vb : VReg) (rep : Rep) (mk : MkField) : Statement (.vsub vd va vb rep mk) := fun _ h => by cases h; exact fmtV3_major _ _ _ _ _ _ _ (by decide)
theorem vrsub (vd va vb : VReg) (rep : Rep) (mk : MkField) : Statement (.vrsub vd va vb rep mk) := fun _ h => by cases h; exact fmtV3_major _ _ _ _ _ _ _ (by decide)
theorem vmul (vd va vb : VReg) (rep : Rep) (mk : MkField) : Statement (.vmul vd va vb rep mk) := fun _ h => by cases h; exact fmtV3_major _ _ _ _ _ _ _ (by decide)
theorem vmulh (vd va vb : VReg) (rep : Rep) (mk : MkField) : Statement (.vmulh vd va vb rep mk) := fun _ h => by cases h; exact fmtV3_major _ _ _ _ _ _ _ (by decide)
theorem vmulhw (vd va vb : VReg) (rep : Rep) (mk : MkField) : Statement (.vmulhw vd va vb rep mk) := fun _ h => by cases h; exact fmtV3_major _ _ _ _ _ _ _ (by decide)
theorem vand (vd va vb : VReg) (rep : Rep) (mk : MkField) : Statement (.vand vd va vb rep mk) := fun _ h => by cases h; exact fmtV3_major _ _ _ _ _ _ _ (by decide)
theorem vor (vd va vb : VReg) (rep : Rep) (mk : MkField) : Statement (.vor vd va vb rep mk) := fun _ h => by cases h; exact fmtV3_major _ _ _ _ _ _ _ (by decide)
theorem vxor (vd va vb : VReg) (rep : Rep) (mk : MkField) : Statement (.vxor vd va vb rep mk) := fun _ h => by cases h; exact fmtV3_major _ _ _ _ _ _ _ (by decide)
theorem vsll (vd va vb : VReg) (rep : Rep) (mk : MkField) : Statement (.vsll vd va vb rep mk) := fun _ h => by cases h; exact fmtV3_major _ _ _ _ _ _ _ (by decide)
theorem vsrl (vd va vb : VReg) (rep : Rep) (mk : MkField) : Statement (.vsrl vd va vb rep mk) := fun _ h => by cases h; exact fmtV3_major _ _ _ _ _ _ _ (by decide)
theorem vsra (vd va vb : VReg) (rep : Rep) (mk : MkField) : Statement (.vsra vd va vb rep mk) := fun _ h => by cases h; exact fmtV3_major _ _ _ _ _ _ _ (by decide)
theorem vmin (vd va vb : VReg) (rep : Rep) (mk : MkField) : Statement (.vmin vd va vb rep mk) := fun _ h => by cases h; exact fmtV3_major _ _ _ _ _ _ _ (by decide)
theorem vmax (vd va vb : VReg) (rep : Rep) (mk : MkField) : Statement (.vmax vd va vb rep mk) := fun _ h => by cases h; exact fmtV3_major _ _ _ _ _ _ _ (by decide)
theorem vminw (vd va vb : VReg) (rep : Rep) (mk : MkField) : Statement (.vminw vd va vb rep mk) := fun _ h => by cases h; exact fmtV3_major _ _ _ _ _ _ _ (by decide)
theorem vmaxw (vd va vb : VReg) (rep : Rep) (mk : MkField) : Statement (.vmaxw vd va vb rep mk) := fun _ h => by cases h; exact fmtV3_major _ _ _ _ _ _ _ (by decide)
theorem vabsd (vd va vb : VReg) (rep : Rep) (mk : MkField) : Statement (.vabsd vd va vb rep mk) := fun _ h => by cases h; exact fmtV3_major _ _ _ _ _ _ _ (by decide)
theorem vsadd (vd va vb : VReg) (rep : Rep) (mk : MkField) : Statement (.vsadd vd va vb rep mk) := fun _ h => by cases h; exact fmtV3_major _ _ _ _ _ _ _ (by decide)
theorem vssub (vd va vb : VReg) (rep : Rep) (mk : MkField) : Statement (.vssub vd va vb rep mk) := fun _ h => by cases h; exact fmtV3_major _ _ _ _ _ _ _ (by decide)
theorem vsaddw (vd va vb : VReg) (rep : Rep) (mk : MkField) : Statement (.vsaddw vd va vb rep mk) := fun _ h => by cases h; exact fmtV3_major _ _ _ _ _ _ _ (by decide)
theorem vssubw (vd va vb : VReg) (rep : Rep) (mk : MkField) : Statement (.vssubw vd va vb rep mk) := fun _ h => by cases h; exact fmtV3_major _ _ _ _ _ _ _ (by decide)
theorem vmacc (vd va vb : VReg) (rep : Rep) (mk : MkField) : Statement (.vmacc vd va vb rep mk) := fun _ h => by cases h; exact fmtV3_major _ _ _ _ _ _ _ (by decide)
theorem vnmsac (vd va vb : VReg) (rep : Rep) (mk : MkField) : Statement (.vnmsac vd va vb rep mk) := fun _ h => by cases h; exact fmtV3_major _ _ _ _ _ _ _ (by decide)
theorem vdot4 (vd va vb : VReg) (rep : Rep) (mk : MkField) : Statement (.vdot4 vd va vb rep mk) := fun _ h => by cases h; exact fmtV3_major _ _ _ _ _ _ _ (by decide)
theorem vdot4w (vd va vb : VReg) (rep : Rep) (mk : MkField) : Statement (.vdot4w vd va vb rep mk) := fun _ h => by cases h; exact fmtV3_major _ _ _ _ _ _ _ (by decide)
theorem vrshr (vd va vb : VReg) (rep : Rep) (mk : MkField) : Statement (.vrshr vd va vb rep mk) := fun _ h => by cases h; exact fmtV3_major _ _ _ _ _ _ _ (by decide)
theorem vnclip (vd va vb : VReg) (rep : Rep) (mk : MkField) : Statement (.vnclip vd va vb rep mk) := fun _ h => by cases h; exact fmtV3_major _ _ _ _ _ _ _ (by decide)
theorem vnclipw (vd va vb : VReg) (rep : Rep) (mk : MkField) : Statement (.vnclipw vd va vb rep mk) := fun _ h => by cases h; exact fmtV3_major _ _ _ _ _ _ _ (by decide)
theorem vfadd (vd va vb : VReg) (rep : Rep) (mk : MkField) : Statement (.vfadd vd va vb rep mk) := fun _ h => by cases h; exact fmtV3_major _ _ _ _ _ _ _ (by decide)
theorem vfsub (vd va vb : VReg) (rep : Rep) (mk : MkField) : Statement (.vfsub vd va vb rep mk) := fun _ h => by cases h; exact fmtV3_major _ _ _ _ _ _ _ (by decide)
theorem vfmul (vd va vb : VReg) (rep : Rep) (mk : MkField) : Statement (.vfmul vd va vb rep mk) := fun _ h => by cases h; exact fmtV3_major _ _ _ _ _ _ _ (by decide)
theorem vfdiv (vd va vb : VReg) (rep : Rep) (mk : MkField) : Statement (.vfdiv vd va vb rep mk) := fun _ h => by cases h; exact fmtV3_major _ _ _ _ _ _ _ (by decide)
theorem vfsqrt (vd va : VReg) (mk : MkField) : Statement (.vfsqrt vd va mk) := fun _ h => by cases h; exact fmtV3_major _ _ _ _ _ _ _ (by decide)
theorem vfmin (vd va vb : VReg) (rep : Rep) (mk : MkField) : Statement (.vfmin vd va vb rep mk) := fun _ h => by cases h; exact fmtV3_major _ _ _ _ _ _ _ (by decide)
theorem vfmax (vd va vb : VReg) (rep : Rep) (mk : MkField) : Statement (.vfmax vd va vb rep mk) := fun _ h => by cases h; exact fmtV3_major _ _ _ _ _ _ _ (by decide)
theorem vfmacc (vd va vb : VReg) (rep : Rep) (mk : MkField) : Statement (.vfmacc vd va vb rep mk) := fun _ h => by cases h; exact fmtV3_major _ _ _ _ _ _ _ (by decide)
theorem vfnmacc (vd va vb : VReg) (rep : Rep) (mk : MkField) : Statement (.vfnmacc vd va vb rep mk) := fun _ h => by cases h; exact fmtV3_major _ _ _ _ _ _ _ (by decide)
theorem vfmsac (vd va vb : VReg) (rep : Rep) (mk : MkField) : Statement (.vfmsac vd va vb rep mk) := fun _ h => by cases h; exact fmtV3_major _ _ _ _ _ _ _ (by decide)
theorem vfabs (vd va : VReg) (mk : MkField) : Statement (.vfabs vd va mk) := fun _ h => by cases h; exact fmtV3_major _ _ _ _ _ _ _ (by decide)
theorem vfneg (vd va : VReg) (mk : MkField) : Statement (.vfneg vd va mk) := fun _ h => by cases h; exact fmtV3_major _ _ _ _ _ _ _ (by decide)
theorem vfsgnj (vd va vb : VReg) (rep : Rep) (mk : MkField) : Statement (.vfsgnj vd va vb rep mk) := fun _ h => by cases h; exact fmtV3_major _ _ _ _ _ _ _ (by decide)
theorem vfexp2 (vd va : VReg) (mk : MkField) : Statement (.vfexp2 vd va mk) := fun _ h => by cases h; exact fmtV3_major _ _ _ _ _ _ _ (by decide)
theorem vfrcp (vd va : VReg) (mk : MkField) : Statement (.vfrcp vd va mk) := fun _ h => by cases h; exact fmtV3_major _ _ _ _ _ _ _ (by decide)
theorem vfclass (vd va : VReg) (mk : MkField) : Statement (.vfclass vd va mk) := fun _ h => by cases h; exact fmtV3_major _ _ _ _ _ _ _ (by decide)
theorem vcmpeq (md : MReg) (va vb : VReg) (rep : Rep) (mk : MkField) : Statement (.vcmpeq md va vb rep mk) := fun _ h => by cases h; exact fmtV3_major _ _ _ _ _ _ _ (by decide)
theorem vcmpne (md : MReg) (va vb : VReg) (rep : Rep) (mk : MkField) : Statement (.vcmpne md va vb rep mk) := fun _ h => by cases h; exact fmtV3_major _ _ _ _ _ _ _ (by decide)
theorem vcmplt (md : MReg) (va vb : VReg) (rep : Rep) (mk : MkField) : Statement (.vcmplt md va vb rep mk) := fun _ h => by cases h; exact fmtV3_major _ _ _ _ _ _ _ (by decide)
theorem vcmple (md : MReg) (va vb : VReg) (rep : Rep) (mk : MkField) : Statement (.vcmple md va vb rep mk) := fun _ h => by cases h; exact fmtV3_major _ _ _ _ _ _ _ (by decide)
theorem vcmpgt (md : MReg) (va vb : VReg) (rep : Rep) (mk : MkField) : Statement (.vcmpgt md va vb rep mk) := fun _ h => by cases h; exact fmtV3_major _ _ _ _ _ _ _ (by decide)
theorem vcmpge (md : MReg) (va vb : VReg) (rep : Rep) (mk : MkField) : Statement (.vcmpge md va vb rep mk) := fun _ h => by cases h; exact fmtV3_major _ _ _ _ _ _ _ (by decide)
theorem vcmpltw (md : MReg) (va vb : VReg) (rep : Rep) (mk : MkField) : Statement (.vcmpltw md va vb rep mk) := fun _ h => by cases h; exact fmtV3_major _ _ _ _ _ _ _ (by decide)
theorem vcmplew (md : MReg) (va vb : VReg) (rep : Rep) (mk : MkField) : Statement (.vcmplew md va vb rep mk) := fun _ h => by cases h; exact fmtV3_major _ _ _ _ _ _ _ (by decide)
theorem vcmpgtw (md : MReg) (va vb : VReg) (rep : Rep) (mk : MkField) : Statement (.vcmpgtw md va vb rep mk) := fun _ h => by cases h; exact fmtV3_major _ _ _ _ _ _ _ (by decide)
theorem vcmpgew (md : MReg) (va vb : VReg) (rep : Rep) (mk : MkField) : Statement (.vcmpgew md va vb rep mk) := fun _ h => by cases h; exact fmtV3_major _ _ _ _ _ _ _ (by decide)
theorem vfcmpeq (md : MReg) (va vb : VReg) (rep : Rep) (mk : MkField) : Statement (.vfcmpeq md va vb rep mk) := fun _ h => by cases h; exact fmtV3_major _ _ _ _ _ _ _ (by decide)
theorem vfcmpne (md : MReg) (va vb : VReg) (rep : Rep) (mk : MkField) : Statement (.vfcmpne md va vb rep mk) := fun _ h => by cases h; exact fmtV3_major _ _ _ _ _ _ _ (by decide)
theorem vfcmplt (md : MReg) (va vb : VReg) (rep : Rep) (mk : MkField) : Statement (.vfcmplt md va vb rep mk) := fun _ h => by cases h; exact fmtV3_major _ _ _ _ _ _ _ (by decide)
theorem vfcmple (md : MReg) (va vb : VReg) (rep : Rep) (mk : MkField) : Statement (.vfcmple md va vb rep mk) := fun _ h => by cases h; exact fmtV3_major _ _ _ _ _ _ _ (by decide)
theorem vfcmpgt (md : MReg) (va vb : VReg) (rep : Rep) (mk : MkField) : Statement (.vfcmpgt md va vb rep mk) := fun _ h => by cases h; exact fmtV3_major _ _ _ _ _ _ _ (by decide)
theorem vfcmpge (md : MReg) (va vb : VReg) (rep : Rep) (mk : MkField) : Statement (.vfcmpge md va vb rep mk) := fun _ h => by cases h; exact fmtV3_major _ _ _ _ _ _ _ (by decide)
theorem vmand (md ma mb : MReg) : Statement (.vmand md ma mb) := fun _ h => by cases h; exact fmtV3_major _ _ _ _ _ _ _ (by decide)
theorem vmor (md ma mb : MReg) : Statement (.vmor md ma mb) := fun _ h => by cases h; exact fmtV3_major _ _ _ _ _ _ _ (by decide)
theorem vmxor (md ma mb : MReg) : Statement (.vmxor md ma mb) := fun _ h => by cases h; exact fmtV3_major _ _ _ _ _ _ _ (by decide)
theorem vmandn (md ma mb : MReg) : Statement (.vmandn md ma mb) := fun _ h => by cases h; exact fmtV3_major _ _ _ _ _ _ _ (by decide)
theorem vmnot (md ma : MReg) : Statement (.vmnot md ma) := fun _ h => by cases h; exact fmtV3_major _ _ _ _ _ _ _ (by decide)
theorem vmset (md : MReg) : Statement (.vmset md) := fun _ h => by cases h; exact fmtV3_major _ _ _ _ _ _ _ (by decide)
theorem vmclr (md : MReg) : Statement (.vmclr md) := fun _ h => by cases h; exact fmtV3_major _ _ _ _ _ _ _ (by decide)
theorem vmsbf (md ma : MReg) : Statement (.vmsbf md ma) := fun _ h => by cases h; exact fmtV3_major _ _ _ _ _ _ _ (by decide)
theorem viota (vd : VReg) (ma : MReg) : Statement (.viota vd ma) := fun _ h => by cases h; exact fmtV3_major _ _ _ _ _ _ _ (by decide)
theorem vmcnt (d : SReg) (ma : MReg) : Statement (.vmcnt d ma) := fun _ h => by cases h; exact fmtV3_major _ _ _ _ _ _ _ (by decide)
theorem vmany (d : SReg) (ma : MReg) : Statement (.vmany d ma) := fun _ h => by cases h; exact fmtV3_major _ _ _ _ _ _ _ (by decide)
theorem vmfirst (d : SReg) (ma : MReg) : Statement (.vmfirst d ma) := fun _ h => by cases h; exact fmtV3_major _ _ _ _ _ _ _ (by decide)
theorem vmfm (md : MReg) : Statement (.vmfm md) := fun _ h => by cases h; exact fmtV3_major _ _ _ _ _ _ _ (by decide)
theorem vredsum (vd va vb : VReg) (mk : MkField) : Statement (.vredsum vd va vb mk) := fun _ h => by cases h; exact fmtV3_major _ _ _ _ _ _ _ (by decide)
theorem vredmax (vd va vb : VReg) (mk : MkField) : Statement (.vredmax vd va vb mk) := fun _ h => by cases h; exact fmtV3_major _ _ _ _ _ _ _ (by decide)
theorem vredmin (vd va vb : VReg) (mk : MkField) : Statement (.vredmin vd va vb mk) := fun _ h => by cases h; exact fmtV3_major _ _ _ _ _ _ _ (by decide)
theorem vredmaxw (vd va vb : VReg) (mk : MkField) : Statement (.vredmaxw vd va vb mk) := fun _ h => by cases h; exact fmtV3_major _ _ _ _ _ _ _ (by decide)
theorem vredminw (vd va vb : VReg) (mk : MkField) : Statement (.vredminw vd va vb mk) := fun _ h => by cases h; exact fmtV3_major _ _ _ _ _ _ _ (by decide)
theorem vredand (vd va vb : VReg) (mk : MkField) : Statement (.vredand vd va vb mk) := fun _ h => by cases h; exact fmtV3_major _ _ _ _ _ _ _ (by decide)
theorem vredor (vd va vb : VReg) (mk : MkField) : Statement (.vredor vd va vb mk) := fun _ h => by cases h; exact fmtV3_major _ _ _ _ _ _ _ (by decide)
theorem vfredsum (vd va vb : VReg) (mk : MkField) : Statement (.vfredsum vd va vb mk) := fun _ h => by cases h; exact fmtV3_major _ _ _ _ _ _ _ (by decide)
theorem vfredusum (vd va vb : VReg) (mk : MkField) : Statement (.vfredusum vd va vb mk) := fun _ h => by cases h; exact fmtV3_major _ _ _ _ _ _ _ (by decide)
theorem vfredmax (vd va vb : VReg) (mk : MkField) : Statement (.vfredmax vd va vb mk) := fun _ h => by cases h; exact fmtV3_major _ _ _ _ _ _ _ (by decide)
theorem vfredmin (vd va vb : VReg) (mk : MkField) : Statement (.vfredmin vd va vb mk) := fun _ h => by cases h; exact fmtV3_major _ _ _ _ _ _ _ (by decide)
theorem vbscale (vd va vb : VReg) (mk : MkField) : Statement (.vbscale vd va vb mk) := fun _ h => by cases h; exact fmtV3_major _ _ _ _ _ _ _ (by decide)
theorem vslideup (vd va : VReg) (b : SReg) (mk : MkField) : Statement (.vslideup vd va b mk) := fun _ h => by cases h; exact fmtV3_major _ _ _ _ _ _ _ (by decide)
theorem vslidedn (vd va : VReg) (b : SReg) (mk : MkField) : Statement (.vslidedn vd va b mk) := fun _ h => by cases h; exact fmtV3_major _ _ _ _ _ _ _ (by decide)
theorem vrgather (vd va vb : VReg) (mk : MkField) : Statement (.vrgather vd va vb mk) := fun _ h => by cases h; exact fmtV3_major _ _ _ _ _ _ _ (by decide)
theorem vcompress (vd va : VReg) (mb : MReg) : Statement (.vcompress vd va mb) := fun _ h => by cases h; exact fmtV3_major _ _ _ _ _ _ _ (by decide)
theorem vmv (vd va : VReg) (mk : MkField) : Statement (.vmv vd va mk) := fun _ h => by cases h; exact fmtV3_major _ _ _ _ _ _ _ (by decide)
theorem vmvsx (vd : VReg) (a : SReg) (mk : MkField) : Statement (.vmvsx vd a mk) := fun _ h => by cases h; exact fmtV3_major _ _ _ _ _ _ _ (by decide)
theorem vmerge (vd va vb : VReg) (mk : MkField) : Statement (.vmerge vd va vb mk) := fun _ h => by cases h; exact fmtV3_major _ _ _ _ _ _ _ (by decide)
theorem vcvt (vd va : VReg) (src : ElemType) (sat : Bool) (rm : RmField) (mk : MkField) (dst : ElemType) : Statement (.vcvt vd va src sat rm mk dst) := fun _ h => by cases h; exact fmtV3_major _ _ _ _ _ _ _ (by decide)
theorem vaddi (vd va : VReg) (imm : BitVec 8) (mk : MkField) : Statement (.vaddi vd va imm mk) := fun _ h => by cases h; exact fmtVI_major _ _ _ _ _ _ (by decide)
theorem vrsubi (vd va : VReg) (imm : BitVec 8) (mk : MkField) : Statement (.vrsubi vd va imm mk) := fun _ h => by cases h; exact fmtVI_major _ _ _ _ _ _ (by decide)
theorem vandi (vd va : VReg) (imm : BitVec 8) (mk : MkField) : Statement (.vandi vd va imm mk) := fun _ h => by cases h; exact fmtVI_major _ _ _ _ _ _ (by decide)
theorem vori (vd va : VReg) (imm : BitVec 8) (mk : MkField) : Statement (.vori vd va imm mk) := fun _ h => by cases h; exact fmtVI_major _ _ _ _ _ _ (by decide)
theorem vxori (vd va : VReg) (imm : BitVec 8) (mk : MkField) : Statement (.vxori vd va imm mk) := fun _ h => by cases h; exact fmtVI_major _ _ _ _ _ _ (by decide)
theorem vslli (vd va : VReg) (imm : BitVec 8) (mk : MkField) : Statement (.vslli vd va imm mk) := fun _ h => by cases h; exact fmtVI_major _ _ _ _ _ _ (by decide)
theorem vsrli (vd va : VReg) (imm : BitVec 8) (mk : MkField) : Statement (.vsrli vd va imm mk) := fun _ h => by cases h; exact fmtVI_major _ _ _ _ _ _ (by decide)
theorem vsrai (vd va : VReg) (imm : BitVec 8) (mk : MkField) : Statement (.vsrai vd va imm mk) := fun _ h => by cases h; exact fmtVI_major _ _ _ _ _ _ (by decide)
theorem vrshri (vd va : VReg) (imm : BitVec 8) (mk : MkField) : Statement (.vrshri vd va imm mk) := fun _ h => by cases h; exact fmtVI_major _ _ _ _ _ _ (by decide)
theorem vslideupi (vd va : VReg) (imm : BitVec 8) (mk : MkField) : Statement (.vslideupi vd va imm mk) := fun _ h => by cases h; exact fmtVI_major _ _ _ _ _ _ (by decide)
theorem vslidedni (vd va : VReg) (imm : BitVec 8) (mk : MkField) : Statement (.vslidedni vd va imm mk) := fun _ h => by cases h; exact fmtVI_major _ _ _ _ _ _ (by decide)
theorem vmvi (vd : VReg) (imm : BitVec 8) (mk : MkField) : Statement (.vmvi vd imm mk) := fun _ h => by cases h; exact fmtVI_major _ _ _ _ _ _ (by decide)
theorem vld (vd : VReg) (a : SReg) (ew : Width) (mk : MkField) : Statement (.vld vd a ew mk) := fun _ h => by cases h; exact fmtVM_major _ _ _ _ _ _ _ _ (by decide)
theorem vldk (vd : VReg) (a x : SReg) (ew : Width) (mk : MkField) : Statement (.vldk vd a x ew mk) := fun _ h => by cases h; exact fmtVM_major _ _ _ _ _ _ _ _ (by decide)
theorem vldx (vd : VReg) (a : SReg) (vx : VReg) (ew : Width) (mk : MkField) : Statement (.vldx vd a vx ew mk) := fun _ h => by cases h; exact fmtVM_major _ _ _ _ _ _ _ _ (by decide)
theorem vst (vd : VReg) (a : SReg) (ew : Width) (mk : MkField) : Statement (.vst vd a ew mk) := fun _ h => by cases h; exact fmtVM_major _ _ _ _ _ _ _ _ (by decide)
theorem vstk (vd : VReg) (a x : SReg) (ew : Width) (mk : MkField) : Statement (.vstk vd a x ew mk) := fun _ h => by cases h; exact fmtVM_major _ _ _ _ _ _ _ _ (by decide)
theorem vstx (vd : VReg) (a : SReg) (vx : VReg) (ew : Width) (mk : MkField) : Statement (.vstx vd a vx ew mk) := fun _ h => by cases h; exact fmtVM_major _ _ _ _ _ _ _ _ (by decide)
theorem vstxo (vd : VReg) (a : SReg) (vx : VReg) (ew : Width) (mk : MkField) : Statement (.vstxo vd a vx ew mk) := fun _ h => by cases h; exact fmtVM_major _ _ _ _ _ _ _ _ (by decide)
theorem vlp (vd : VReg) (a : SReg) (ew : Width) (qf : LoadQual) (mk : MkField) : Statement (.vlp vd a ew qf mk) := fun _ h => by cases h; exact fmtVM_major _ _ _ _ _ _ _ _ (by decide)
theorem vlpk (vd : VReg) (a x : SReg) (ew : Width) (qf : LoadQual) (mk : MkField) : Statement (.vlpk vd a x ew qf mk) := fun _ h => by cases h; exact fmtVM_major _ _ _ _ _ _ _ _ (by decide)
theorem vlpx (vd : VReg) (a : SReg) (vx : VReg) (ew : Width) (qf : LoadQual) (mk : MkField) : Statement (.vlpx vd a vx ew qf mk) := fun _ h => by cases h; exact fmtVM_major _ _ _ _ _ _ _ _ (by decide)
theorem vlpl (vd : VReg) (a : SReg) (ew : Width) (qf : LoadQual) (mk : MkField) : Statement (.vlpl vd a ew qf mk) := fun _ h => by cases h; exact fmtVM_major _ _ _ _ _ _ _ _ (by decide)
theorem vsp (vd : VReg) (a : SReg) (ew : Width) (qf : StoreQual) (mk : MkField) : Statement (.vsp vd a ew qf mk) := fun _ h => by cases h; exact fmtVM_major _ _ _ _ _ _ _ _ (by decide)
theorem vspk (vd : VReg) (a x : SReg) (ew : Width) (qf : StoreQual) (mk : MkField) : Statement (.vspk vd a x ew qf mk) := fun _ h => by cases h; exact fmtVM_major _ _ _ _ _ _ _ _ (by decide)
theorem vspx (vd : VReg) (a : SReg) (vx : VReg) (ew : Width) (qf : StoreQual) (mk : MkField) : Statement (.vspx vd a vx ew qf mk) := fun _ h => by cases h; exact fmtVM_major _ _ _ _ _ _ _ _ (by decide)
theorem vspxo (vd : VReg) (a : SReg) (vx : VReg) (ew : Width) (qf : StoreQual) (mk : MkField) : Statement (.vspxo vd a vx ew qf mk) := fun _ h => by cases h; exact fmtVM_major _ _ _ _ _ _ _ _ (by decide)
theorem vspl (vd : VReg) (a : SReg) (ew : Width) (qf : StoreQual) (mk : MkField) : Statement (.vspl vd a ew qf mk) := fun _ h => by cases h; exact fmtVM_major _ _ _ _ _ _ _ _ (by decide)
theorem vsbind (r : Fin 8) (a : SReg) : Statement (.vsbind r a) := fun _ h => by cases h; exact fmtVM_major _ _ _ _ _ _ _ _ (by decide)
theorem vsunbind (vd : VReg) : Statement (.vsunbind vd) := fun _ h => by cases h; exact fmtVM_major _ _ _ _ _ _ _ _ (by decide)
theorem vspill (vd : VReg) (a : SReg) : Statement (.vspill vd a) := fun _ h => by cases h; exact fmtVM_major _ _ _ _ _ _ _ _ (by decide)
theorem vfill (vd : VReg) (a : SReg) : Statement (.vfill vd a) := fun _ h => by cases h; exact fmtVM_major _ _ _ _ _ _ _ _ (by decide)
theorem vf (count : Fin 32) (off : BitVec 13) : Statement (.vf count off) := fun _ h => by cases h; exact fmtVT_major _ _ _ _ _ (by decide)
theorem vpbr (ma : MReg) (clr : Bool) (off : BitVec 13) : Statement (.vpbr ma clr off) := fun _ h => by cases h; exact fmtVT_major _ _ _ _ _ (by decide)
theorem vpjmp (off : BitVec 13) : Statement (.vpjmp off) := fun _ h => by cases h; exact fmtVT_major _ _ _ _ _ (by decide)
theorem vpstop : Statement .vpstop := fun _ h => by cases h; exact fmtVT_major _ _ _ _ _ (by decide)
theorem vjoin : Statement .vjoin := fun _ h => by cases h; exact fmtVT_major _ _ _ _ _ (by decide)
theorem vrel : Statement .vrel := fun _ h => by cases h; exact fmtVT_major _ _ _ _ _ (by decide)
theorem rpt (n : Fin 16) (reps : Fin 64) (dd da db : Fin 8) : Statement (.rpt n reps dd da db) := fun _ h => by cases h; exact fmtRP_major _ _ _ _ _ _ (by decide)
theorem mshape (d a : SReg) (cls : MatClass) : Statement (.mshape d a cls) := fun _ h => by cases h; exact fmtMX_major _ _ _ _ _ _ (by decide)
theorem mclaim (d a : SReg) : Statement (.mclaim d a) := fun _ h => by cases h; exact fmtMX_major _ _ _ _ _ _ (by decide)
theorem mrelease (a : SReg) : Statement (.mrelease a) := fun _ h => by cases h; exact fmtMX_major _ _ _ _ _ _ (by decide)
theorem mfill (p : Slot) (a c : SReg) (t : FillType) (scl bnd wait : Bool) : Statement (.mfill p a c t scl bnd wait) := fun _ h => by cases h; exact fmtMX_major _ _ _ _ _ _ (by decide)
theorem mwload (p : Slot) : Statement (.mwload p) := fun _ h => by cases h; exact fmtMX_major _ _ _ _ _ _ (by decide)
theorem mmac (p : Tile) (q : Slot) (c : Tile) (t : ActType) (rs x z : Bool) : Statement (.mmac p q c t rs x z) := fun _ h => by cases h; exact fmtMX_major _ _ _ _ _ _ (by decide)
theorem mzero (p : Tile) : Statement (.mzero p) := fun _ h => by cases h; exact fmtMX_major _ _ _ _ _ _ (by decide)
theorem msoft (p : Tile) (q : Slot) (c : Tile) : Statement (.msoft p q c) := fun _ h => by cases h; exact fmtMX_major _ _ _ _ _ _ (by decide)
theorem mdrain (vd : VReg) (q : Tile) (c : SReg) (t : DrainType) (sat : Bool) : Statement (.mdrain vd q c t sat) := fun _ h => by cases h; exact fmtMX_major _ _ _ _ _ _ (by decide)
theorem mdrainSpad (q : Tile) (c : SReg) (t : DrainType) (sat bnd : Bool) : Statement (.mdrainSpad q c t sat bnd) := fun _ h => by cases h; exact fmtMX_major _ _ _ _ _ _ (by decide)
theorem mdrainc (vd : VReg) (q : Tile) (c : SReg) (t : DrainType) (sat : Bool) : Statement (.mdrainc vd q c t sat) := fun _ h => by cases h; exact fmtMX_major _ _ _ _ _ _ (by decide)
theorem mnorm (p : Tile) : Statement (.mnorm p) := fun _ h => by cases h; exact fmtMX_major _ _ _ _ _ _ (by decide)
theorem msaveTile (a : SReg) (q : Tile) : Statement (.msaveTile a q) := fun _ h => by cases h; exact fmtMX_major _ _ _ _ _ _ (by decide)
theorem msaveSlot (a : SReg) (c : Slot) : Statement (.msaveSlot a c) := fun _ h => by cases h; exact fmtMX_major _ _ _ _ _ _ (by decide)
theorem mrestTile (a : SReg) (q : Tile) : Statement (.mrestTile a q) := fun _ h => by cases h; exact fmtMX_major _ _ _ _ _ _ (by decide)
theorem mrestSlot (a : SReg) (c : Slot) : Statement (.mrestSlot a c) := fun _ h => by cases h; exact fmtMX_major _ _ _ _ _ _ (by decide)
theorem mbread (vd : VReg) (q : Tile) (f : BreadField) : Statement (.mbread vd q f) := fun _ h => by cases h; exact fmtMX_major _ _ _ _ _ _ (by decide)
theorem vbget (vd va : VReg) : Statement (.vbget vd va) := fun _ h => by cases h; exact fmtV3_major _ _ _ _ _ _ _ (by decide)
theorem vbset (vd va : VReg) : Statement (.vbset vd va) := fun _ h => by cases h; exact fmtV3_major _ _ _ _ _ _ _ (by decide)
theorem vstb (vd : VReg) (a : SReg) (spad : Bool) : Statement (.vstb vd a spad) := fun _ h => by cases h; exact fmtV3_major _ _ _ _ _ _ _ (by decide)
theorem vldb (vd : VReg) (a : SReg) (spad : Bool) : Statement (.vldb vd a spad) := fun _ h => by cases h; exact fmtV3_major _ _ _ _ _ _ _ (by decide)
theorem cpa (a b c : SReg) (fl : CmdFlags) : Statement (.cpa a b c fl) := fun _ h => by cases h; exact fmtQE_major _ _ _ _ _ _ (by decide)
theorem cpaRes (a : SReg) (fl : CmdFlags) : Statement (.cpaRes a fl) := fun _ h => by cases h; exact fmtQE_major _ _ _ _ _ _ (by decide)
theorem senq (a b c : SReg) : Statement (.senq a b c) := fun _ h => by cases h; exact fmtQE_major _ _ _ _ _ _ (by decide)
theorem abinit (a b c : SReg) : Statement (.abinit a b c) := fun _ h => by cases h; exact fmtQE_major _ _ _ _ _ _ (by decide)
theorem abwait (a b : SReg) : Statement (.abwait a b) := fun _ h => by cases h; exact fmtQE_major _ _ _ _ _ _ (by decide)
theorem abrel (a b : SReg) : Statement (.abrel a b) := fun _ h => by cases h; exact fmtQE_major _ _ _ _ _ _ (by decide)
theorem cpq (a c : SReg) : Statement (.cpq a c) := fun _ h => by cases h; exact fmtQE_major _ _ _ _ _ _ (by decide)
theorem qwr (a b : SReg) (fl : QueryFlags) : Statement (.qwr a b fl) := fun _ h => by cases h; exact fmtQE_major _ _ _ _ _ _ (by decide)
theorem qfold (a b : SReg) (fl : QueryFlags) : Statement (.qfold a b fl) := fun _ h => by cases h; exact fmtQE_major _ _ _ _ _ _ (by decide)
theorem qdot (a b c : SReg) (fl : QueryFlags) : Statement (.qdot a b c fl) := fun _ h => by cases h; exact fmtQE_major _ _ _ _ _ _ (by decide)
theorem qfsum (a b c : SReg) (fl : QueryFlags) : Statement (.qfsum a b c fl) := fun _ h => by cases h; exact fmtQE_major _ _ _ _ _ _ (by decide)
theorem qcnt (a b c : SReg) (fl : QueryFlags) : Statement (.qcnt a b c fl) := fun _ h => by cases h; exact fmtQE_major _ _ _ _ _ _ (by decide)
theorem qmaxi (a b c : SReg) (fl : QueryFlags) : Statement (.qmaxi a b c fl) := fun _ h => by cases h; exact fmtQE_major _ _ _ _ _ _ (by decide)
theorem qtopk (a b c : SReg) (fl : QueryFlags) : Statement (.qtopk a b c fl) := fun _ h => by cases h; exact fmtQE_major _ _ _ _ _ _ (by decide)
theorem qattn (a b c : SReg) (fl : QueryFlags) : Statement (.qattn a b c fl) := fun _ h => by cases h; exact fmtQE_major _ _ _ _ _ _ (by decide)
theorem qupd (a b c : SReg) (fl : QueryFlags) : Statement (.qupd a b c fl) := fun _ h => by cases h; exact fmtQE_major _ _ _ _ _ _ (by decide)
theorem qmig (a b c : SReg) (fl : CmdFlags) : Statement (.qmig a b c fl) := fun _ h => by cases h; exact fmtQE_major _ _ _ _ _ _ (by decide)
theorem qseal (a b c : SReg) (fl : CmdFlags) : Statement (.qseal a b c fl) := fun _ h => by cases h; exact fmtQE_major _ _ _ _ _ _ (by decide)
theorem qunseal (a b c : SReg) (fl : CmdFlags) : Statement (.qunseal a b c fl) := fun _ h => by cases h; exact fmtQE_major _ _ _ _ _ _ (by decide)
theorem tspawn (a c : SReg) : Statement (.tspawn a c) := fun _ h => by cases h; exact fmtQE_major _ _ _ _ _ _ (by decide)
theorem tdone : Statement .tdone := fun _ h => by cases h; exact fmtQE_major _ _ _ _ _ _ (by decide)
theorem tyield : Statement .tyield := fun _ h => by cases h; exact fmtQE_major _ _ _ _ _ _ (by decide)
theorem tlaunch (a b c : SReg) (gang : Bool) : Statement (.tlaunch a b c gang) := fun _ h => by cases h; exact fmtQE_major _ _ _ _ _ _ (by decide)
theorem fullEmptyWaitReady (k : CoreId) (t : Tid) : Statement (.fullEmptyWaitReady k t) := fun _ h => nomatch h
theorem fenceComplete (k : CoreId) (t : Tid) : Statement (.fenceComplete k t) := fun _ h => nomatch h
theorem barrierPhaseComplete (launch : BitVec 16) (level : Fin 8) (inst : List (BitVec 32)) : Statement (.barrierPhaseComplete launch level inst) := fun _ h => nomatch h
theorem waitgeWake (k : CoreId) (t : Tid) : Statement (.waitgeWake k t) := fun _ h => nomatch h
theorem waittComplete (k : CoreId) (t : Tid) : Statement (.waittComplete k t) := fun _ h => nomatch h
theorem streamRefill (k : CoreId) (r : Fin 8) : Statement (.streamRefill k r) := fun _ h => nomatch h
theorem laneRelease (k : CoreId) (t : Tid) : Statement (.laneRelease k t) := fun _ h => nomatch h
theorem lanesAcquired (k : CoreId) (t : Tid) : Statement (.lanesAcquired k t) := fun _ h => nomatch h
theorem blockJoin (k : CoreId) : Statement (.blockJoin k) := fun _ h => nomatch h
theorem autoReissue (k : CoreId) : Statement (.autoReissue k) := fun _ h => nomatch h
theorem copyStripLands (k : CoreId) (j : Fin 4) : Statement (.copyStripLands k j) := fun _ h => nomatch h
theorem abwaitComplete (k : CoreId) (t : Tid) : Statement (.abwaitComplete k t) := fun _ h => nomatch h
theorem querySubcommandComplete (q : Nat) (sub : Nat) : Statement (.querySubcommandComplete q sub) := fun _ h => nomatch h
theorem migrationCopyStart (op : Nat) : Statement (.migrationCopyStart op) := fun _ h => nomatch h
theorem migrationCommit (op : Nat) : Statement (.migrationCommit op) := fun _ h => nomatch h
theorem sealImageWritten (op : Nat) : Statement (.sealImageWritten op) := fun _ h => nomatch h
theorem unsealVerified (op : Nat) : Statement (.unsealVerified op) := fun _ h => nomatch h
theorem launchStartTick (launch : BitVec 16) : Statement (.launchStartTick launch) := fun _ h => nomatch h
theorem nodeAged (launch : BitVec 16) (node : Nat) : Statement (.nodeAged launch node) := fun _ h => nomatch h
theorem gangProposal (gtag : Word32) (member : Fin 64) (tick : Word) : Statement (.gangProposal gtag member tick) := fun _ h => nomatch h
theorem gangCancel (gtag : Word32) : Statement (.gangCancel gtag) := fun _ h => nomatch h
theorem gangProposalTimeout (gtag : Word32) : Statement (.gangProposalTimeout gtag) := fun _ h => nomatch h
theorem segmentStart (k : EngineId) : Statement (.segmentStart k) := fun _ h => nomatch h
theorem cmdStream (k : EngineId) : Statement (.cmdStream k) := fun _ h => nomatch h
theorem cmdFold (k : EngineId) : Statement (.cmdFold k) := fun _ h => nomatch h
theorem cmdSignal (k : EngineId) : Statement (.cmdSignal k) := fun _ h => nomatch h
theorem cmdWait (k : EngineId) : Statement (.cmdWait k) := fun _ h => nomatch h
theorem engineWaitSatisfied (k : EngineId) : Statement (.engineWaitSatisfied k) := fun _ h => nomatch h
theorem cmdRepeat (k : EngineId) : Statement (.cmdRepeat k) := fun _ h => nomatch h
theorem cmdLink (k : EngineId) : Statement (.cmdLink k) := fun _ h => nomatch h
theorem cmdStop (k : EngineId) : Statement (.cmdStop k) := fun _ h => nomatch h
theorem engineStripLands (k : EngineId) (j : Nat) : Statement (.engineStripLands k j) := fun _ h => nomatch h
theorem segmentEnd (k : EngineId) : Statement (.segmentEnd k) := fun _ h => nomatch h
theorem commandFault (k : EngineId) : Statement (.commandFault k) := fun _ h => nomatch h
theorem translationExpiry (ag : XAgent) : Statement (.translationExpiry ag) := fun _ h => nomatch h
theorem leaseRenewal (ag : XAgent) (vpn : Nat) : Statement (.leaseRenewal ag vpn) := fun _ h => nomatch h
theorem timeBeacon : Statement .timeBeacon := fun _ h => nomatch h
theorem gangTimeBeacon (drift : Int) : Statement (.gangTimeBeacon drift) := fun _ h => nomatch h
theorem budgetPublication (budgets : Vector (BitVec 24) 8) : Statement (.budgetPublication budgets) := fun _ h => nomatch h
theorem throttleRaise (d : DieId) (lvl : BitVec 3) : Statement (.throttleRaise d lvl) := fun _ h => nomatch h
theorem throttleStepDown (d : DieId) : Statement (.throttleStepDown d) := fun _ h => nomatch h
theorem sliceEnd (k : CoreId) (t : Tid) : Statement (.sliceEnd k t) := fun _ h => nomatch h
theorem leWrite (k : CoreId) (t : Tid) (v : Word) : Statement (.leWrite k t v) := fun _ h => nomatch h
theorem lsWrite (k : CoreId) (t : Tid) (v : Word) : Statement (.lsWrite k t v) := fun _ h => nomatch h
theorem tfbufWrite (k : CoreId) (t : Tid) (v : Word) : Statement (.tfbufWrite k t v) := fun _ h => nomatch h
theorem counterConfigure (k : CoreId) (n : Fin 8) (v : Word) : Statement (.counterConfigure k n v) := fun _ h => nomatch h
theorem counterCountWrite (k : CoreId) (n : Fin 8) (v : Word) : Statement (.counterCountWrite k n v) := fun _ h => nomatch h
theorem counterSample (k : CoreId) : Statement (.counterSample k) := fun _ h => nomatch h
theorem registerWrite (f : FuncId) (off : BitVec 16) (v : Word) (level : Priv) : Statement (.registerWrite f off v level) := fun _ h => nomatch h
theorem xyieldWrite (f : FuncId) (v : Word) : Statement (.xyieldWrite f v) := fun _ h => nomatch h
theorem partitionHalt (f : FuncId) : Statement (.partitionHalt f) := fun _ h => nomatch h
theorem partitionResume (f : FuncId) : Statement (.partitionResume f) := fun _ h => nomatch h
theorem moveOut (f : FuncId) : Statement (.moveOut f) := fun _ h => nomatch h
theorem moveIn (f : FuncId) : Statement (.moveIn f) := fun _ h => nomatch h
theorem partitionReset (f : FuncId) : Statement (.partitionReset f) := fun _ h => nomatch h
theorem scrubComplete (f : FuncId) : Statement (.scrubComplete f) := fun _ h => nomatch h
theorem functionLevelReset (f : FuncId) : Statement (.functionLevelReset f) := fun _ h => nomatch h
theorem submissionDoorbell (f : FuncId) (tail : Word32) : Statement (.submissionDoorbell f tail) := fun _ h => nomatch h
theorem submitLaunch (f : FuncId) : Statement (.submitLaunch f) := fun _ h => nomatch h
theorem submitGangLaunch (f : FuncId) : Statement (.submitGangLaunch f) := fun _ h => nomatch h
theorem submitPartitionHalt (f : FuncId) : Statement (.submitPartitionHalt f) := fun _ h => nomatch h
theorem submitPartitionResume (f : FuncId) : Statement (.submitPartitionResume f) := fun _ h => nomatch h
theorem pageRequestResponse (f : FuncId) (grp : Fin 32) (gen : BitVec 4) (ok : Bool) : Statement (.pageRequestResponse f grp gen ok) := fun _ h => nomatch h
theorem hypervisorClaim (k : CoreId) (bank trace : Bool) : Statement (.hypervisorClaim k bank trace) := fun _ h => nomatch h
theorem hypervisorRelease (k : CoreId) (bank trace : Bool) : Statement (.hypervisorRelease k bank trace) := fun _ h => nomatch h
theorem debugHaltRequest (k : CoreId) : Statement (.debugHaltRequest k) := fun _ h => nomatch h
theorem debugResumeRequest (k : CoreId) : Statement (.debugResumeRequest k) := fun _ h => nomatch h
theorem triggerHit (k : CoreId) (t : Tid) (n : Fin 4) : Statement (.triggerHit k t n) := fun _ h => nomatch h
theorem abstractRegister : Statement .abstractRegister := fun _ h => nomatch h
theorem abstractMemory : Statement .abstractMemory := fun _ h => nomatch h
theorem abstractElementRange : Statement .abstractElementRange := fun _ h => nomatch h
theorem abstractGranule : Statement .abstractGranule := fun _ h => nomatch h
theorem abstractAccumulatorRow : Statement .abstractAccumulatorRow := fun _ h => nomatch h
theorem mcstatClear (d : DieId) (b : Fin 16) : Statement (.mcstatClear d b) := fun _ h => nomatch h
theorem machineCheckLog (e : McEvent) : Statement (.machineCheckLog e) := fun _ h => nomatch h
theorem containedMachineCheck (k : CoreId) (t : Tid) : Statement (.containedMachineCheck k t) := fun _ h => nomatch h
theorem linkFailure (port : Fin 17) : Statement (.linkFailure port) := fun _ h => nomatch h
theorem backgroundScrub : Statement .backgroundScrub := fun _ h => nomatch h
theorem powerOnReset : Statement .powerOnReset := fun _ h => nomatch h
theorem moduleReset : Statement .moduleReset := fun _ h => nomatch h
theorem bootStageTimeout : Statement .bootStageTimeout := fun _ h => nomatch h
theorem illegalInstruction (w : Word32) : Statement (.illegalInstruction w) := fun _ h => nomatch h
theorem instructionFetchFault : Statement .instructionFetchFault := fun _ h => nomatch h
theorem inboundPostedWrite (f : FuncId) (pa : Nat) (bytes : List Byte) (relaxed : Bool) : Statement (.inboundPostedWrite f pa bytes relaxed) := fun _ h => nomatch h
theorem choahPeerAccess (port : Fin 16) (op : PeerOp) : Statement (.choahPeerAccess port op) := fun _ h => nomatch h
theorem atsInvalidation (f : FuncId) (page : Nat) : Statement (.atsInvalidation f page) := fun _ h => nomatch h
theorem debugEnableRequest (f : FuncId) (authentic : Bool) : Statement (.debugEnableRequest f authentic) := fun _ h => nomatch h
theorem bootStageReady (images : List (BitVec 512)) (verified : Bool) : Statement (.bootStageReady images verified) := fun _ h => nomatch h
theorem hamperExchangeComplete (f : FuncId) : Statement (.hamperExchangeComplete f) := fun _ h => nomatch h
theorem contextMoveComplete (f : FuncId) : Statement (.contextMoveComplete f) := fun _ h => nomatch h

end WordMajor

end Sys2Proof.Laws
end

