-- ==== Sys2Proof/Tests/Slice0.lean ====
section
/-!
SUPPORT. Tests. Every expected value is the manual's (its worked encodings and examples) or worked out by hand from its text. First
the checks of well-formedness and decoding; then single steps on small states; then, for every statement that has hypotheses, a state
and operands that meet them.
-/

namespace Sys2Proof.Tests

set_option Elab.async false

open Sys2Proof Sys2Proof.Machine

/-! ## Well-formedness: one ill-formed term for each check -/

theorem illFormed_loop : (Instr.loop 4 0).wellFormed = false ∧ (Instr.loop 4 1).wellFormed = true := by decide
theorem illFormed_csr : (Instr.csrr 4 0x1F).wellFormed = false ∧ (Instr.csrw 4 5 0x06).wellFormed = false
    ∧ (Instr.csrs 4 5 0x66).wellFormed = false ∧ (Instr.csrc 4 5 0xFFF).wellFormed = false ∧ (Instr.csrr 4 0).wellFormed = true := by decide
theorem illFormed_fcvt : (Instr.fcvt 4 5 .i8 true .f32 .dflt).wellFormed = false ∧ (Instr.fcvt 4 5 .f32 false .f32 .dflt).wellFormed = false
    ∧ (Instr.fcvt 4 5 .f64 true .f32 .dflt).wellFormed = false ∧ (Instr.fcvt 4 5 .i32 true .f32 .dflt).wellFormed = true := by decide
theorem illFormed_vsetvl : (Instr.vsetvl 4 5 ⟨.b4, true, 0, .rne⟩).wellFormed = false
    ∧ (Instr.vsetvl 4 5 ⟨.b2, true, 0, .rne⟩).wellFormed = true := by decide
theorem illFormed_permutes : (Instr.vslideup 3 3 5 0).wellFormed = false ∧ (Instr.vslidedn 3 3 5 0).wellFormed = false
    ∧ (Instr.vrgather 3 3 4 0).wellFormed = false ∧ (Instr.vrgather 3 4 3 0).wellFormed = false ∧ (Instr.vcompress 3 3 1).wellFormed = false
    ∧ (Instr.vslideupi 3 3 1 0).wellFormed = false ∧ (Instr.vslidedni 3 3 1 0).wellFormed = false
    ∧ (Instr.vrgather 3 4 5 0).wellFormed = true := by decide
theorem illFormed_vcvt : (Instr.vcvt 6 2 .f32 true .dflt 0 .f32).wellFormed = false ∧ (Instr.vcvt 6 2 .f64 true .dflt 0 .e4m3).wellFormed = false
    ∧ (Instr.vcvt 6 6 .f32 true .dflt 0 .e4m3).wellFormed = false ∧ (Instr.vcvt 6 6 .f32 true .dflt 0 .i32).wellFormed = true := by decide
theorem illFormed_vf : (Instr.vf 5 0).wellFormed = false ∧ (Instr.vf 5 2).wellFormed = true := by decide
theorem illFormed_matrix : (Instr.mfill 3 5 6 .i8 true false false).wellFormed = false ∧ (Instr.mmac 0 2 0 .e4m3 false true false).wellFormed = false
    ∧ (Instr.msoft 2 4 2).wellFormed = false ∧ (Instr.mmac 0 2 1 .e4m3 false true false).wellFormed = true := by decide

/-! ## Decoding: the manual's worked encodings, at least one for each family -/

/-- The word decodes to the instruction. -/
abbrev Reads (w : Word32) (i : Instr) : Prop := (decode w).toOption = some i

/-- SALU, SSHI, SUN, immediates, jumps, branches, loops (R192 to R203); the words that R28's worked table names. -/
theorem decode_scalar : Reads 0x04853000#32 (.add 4 5 6) ∧ Reads 0x04E84980#32 (.divw 7 8 9)
    ∧ Reads 0x08854081#32 (.srai 4 5 40) ∧ Reads 0x0C220000#32 (.clz 1 2) ∧ Reads 0x10800004#32 (.addi 4 0 4)
    ∧ Reads 0x34010000#32 (.jalr 0 1 0) ∧ Reads 0x30200002#32 (.jal 1 2) ∧ Reads 0x38855FFD#32 (.blt 4 5 0x1FFD)
    ∧ Reads 0x3C040004#32 (.loop 4 4) ∧ Reads 0x40801FFA#32 (.bstrip 4 0x1FFA) := by decide +kernel
/-- SYS, CSR, SFP (R204, R208, R211). -/
theorem decode_system : Reads 0x44000040#32 .tret ∧ Reads 0x48800000#32 (.csrr 4 0)
    ∧ Reads 0x480540C8#32 (.csrw 0 5 0x0C8) ∧ Reads 0x4CE849C9#32 (.fmacc 7 8 9 .f64 (.mode .rtz)) := by decide +kernel
/-- Scalar memory, atomics, fences, SYNC (R81, R82, R156, R159, R161). -/
theorem decode_memory : Reads 0x5085C002#32 (.ld 4 5 .b8 2) ∧ Reads 0x5CC7A010#32 (.lds 6 7 .b4 .take 16)
    ∧ Reads 0x648530A6#32 (.amoadd 4 5 6 .acquire .cluster true false) ∧ Reads 0x680000A0#32 (.fence .full .system)
    ∧ Reads 0x6C030140#32 (.waitt 3) := by decide +kernel
/-- Vector arithmetic (R25, R214, R221 to R229, R245). -/
theorem decode_vector : Reads 0x70850400#32 (.vsetvl 4 5 ⟨.b4, false, 0, .rne⟩) ∧ Reads 0x74611650#32 (.vadd 3 1 2 .rep16 5)
    ∧ Reads 0x7904F525#32 (.vmacc 8 4 30 .rep4 2) ∧ Reads 0x7D008007#32 (.vfmacc 8 0 16 .none 0)
    ∧ Reads 0x7C22003F#32 (.vfclass 1 2 3) ∧ Reads 0x80611500#32 (.vcmpeq 3 1 2 .rep4 0)
    ∧ Reads 0x84830009#32 (.vmcnt 4 3) ∧ Reads 0x88A63807#32 (.vfredsum 5 6 7 0) ∧ Reads 0x8942200B#32 (.vbscale 10 2 4 0)
    ∧ Reads 0x90C2AF0C#32 (.vcvt 6 2 .f32 true .dflt 0 .e4m3) ∧ Reads 0x9103E00A#32 (.vcvt 8 3 .e2m1 false (.mode .rne) 0 .f32)
    ∧ Reads 0x9463FF00#32 (.vaddi 3 3 0xFF 0) := by decide +kernel
/-- Vector memory, streams, blocks, frames (R85, R89, R139, R185, R30). -/
theorem decode_vectorMemory : Reads 0xA0480498#32 (.vlp 2 8 .b4 .wait 3) ∧ Reads 0x9D253C03#32 (.vstxo 9 5 7 .b4 0)
    ∧ Reads 0xAB090000#32 (.vsbind 0 9) ∧ Reads 0xAB000001#32 (.vsunbind 24) ∧ Reads 0xAA8C0002#32 (.vspill 20 12)
    ∧ Reads 0xAC00C002#32 (.vf 5 2) ∧ Reads 0xAC8C2003#32 (.vpbr 3 true 3) ∧ Reads 0xAD800000#32 .vpstop
    ∧ Reads 0xB0844800#32 (.rpt 1 3 2 2 0) := by decide +kernel
/-- The matrix unit (R258 to R271). -/
theorem decode_matrix : Reads 0xB4085000#32 (.mshape 4 5 .e16) ∧ Reads 0xB5423018#32 (.mmac 1 3 0 .bf16 true false false)
    ∧ Reads 0xB54020AC#32 (.mmac 0 2 1 .e4m3 false true false) ∧ Reads 0xB5C44080#32 (.msoft 2 4 1)
    ∧ Reads 0xB6101308#32 (.mdrain 8 1 6 .bf16 false) := by decide +kernel
/-- Copies, barriers, segments, queries, tasks (R93, R129, R133, R137, R305). -/
theorem decode_units : Reads 0xBC084A92#32 (.cpa 8 9 10 ⟨false, true, .cluster⟩) ∧ Reads 0xBC663800#32 (.abwait 6 7)
    ∧ Reads 0xBC242B00#32 (.senq 4 5 12) ∧ Reads 0xC0442986#32 (.qdot 4 5 6 ⟨false, false, .package, false⟩)
    ∧ Reads 0xC4090200#32 (.tspawn 9 8) ∧ Reads 0xC4653101#32 (.tlaunch 5 6 4 true) := by decide +kernel
/-- R16, R25, R28: reserved majors, function codes and bits; rs without rp; a register kind out of range. -/
theorem decode_illegal : (decode 0#32).toOption = none ∧ (decode 0xFFFFFFFF#32).toOption = none ∧ (decode 0xC8000000#32).toOption = none
    ∧ (decode 0x048535C0#32).toOption = none ∧ (decode 0x74610250#32).toOption = none ∧ (decode 0x82200000#32).toOption = none
    ∧ (decode 0x04853001#32).toOption = none := by decide +kernel

/-! ## Small states -/

/-- Page 0 of generic space, wholly accessible, at frame 0 of working memory; the lease runs to 8 ms. -/
def leaf0 : LeafInfo := ⟨true, true, true, true, 0, true, true, true, 0, none, 0, 0, 0, 0, true, false, 16, 0, 0, 0, none⟩
/-- Its cached translation for address space 0 of partition 1. -/
def entry0 : TlbEntry := ⟨1, 0, 0, leaf0, 0, 8000000⟩

/-- Core 0 belongs to partition 1; its thread 0 runs task 1 of launch 1 at user level, at pc 0x1000, with s1, s2, ... as given; bytes
0x100 to 0x30FF of its scratchpad are the launch's, and its translation structures and engine 0's hold `entry0`. -/
def base (l : List Nat) : State :=
  let s := (State.reset.modPart 1 (fun p => { p with ncores := 1 })).modEngine 0 (fun e => { e with tlb := [entry0] })
  let s := s.modCore 0 (fun c => { c with
    residents := [⟨1, 1, [⟨0x100, 0x3000, false⟩, ⟨0x100, 0x100, true⟩]⟩], scalarTlb := [entry0], vectorTlb := [entry0], gatherTlb := [entry0] })
  s.modThr 0 0 (fun t => { t with
    task := some ⟨1, 1, 1, 0, 0⟩, pc := 0x1000
    sregs := Vector.ofFn (fun (i : Fin 32) => if i = 0 then 0 else BitVec.ofNat 64 (l.getD (i.val - 1) 0)) })
/-- Every core of `base` but core 0 is as after reset, and so a fact of all of them. -/
theorem base_core (l : List Nat) {k : CoreId} (h : k ≠ 0) : (base l).core k = Core.reset := by
  show (State.modThr _ 0 0 _).core k = _
  rw [State.modThr, State.core_modCore_other _ _ h, State.core_modCore_other _ _ h]
  simp [State.core, State.modEngine, State.modPart, State.reset]
theorem base_sweep (l : List Nat) (p : Core → Prop) (h0 : p ((base l).core 0)) (h : p Core.reset) (k : CoreId) : p ((base l).core k) := by
  by_cases e : k = 0
  · subst e; exact h0
  · rw [base_core l e]; exact h
/-- The same at kernel level. -/
def kernel (l : List Nat) : State := (base l).modCur (fun t => { t with priv := .kernel })
/-- `base` with bytes of the scratchpad written from an address up. -/
def spadded (l : List Nat) (a n v : Nat) : State := (base l).modCurC (fun c => { c with spad := Mem.setNum c.spad a n v })
/-- What `f` finds in the next state of instruction i. -/
def next {α : Type} (i : Instr) (s : State) (f : State → α) : Option α := match exec i s with | .next t => some (f t) | _ => none
/-- The trap registers at the level now running: cause, tval, pc. -/
def trapNow (s : State) : Nat × Nat × Nat :=
  let x := s.cur.trapSet s.cur.priv
  (x.tcause.toNat, x.tval.toNat, x.tpc.toNat)

/-! ## Single steps -/

/-- R192: the product of two negative numbers, high half; the quotient and remainder of division by zero. -/
theorem test_mulh : next (.mulh 4 1 2) (base [2 ^ 64 - 1, 2 ^ 64 - 2]) (fun t => (t.sreg 4).toNat) = some 0 := by decide +kernel
theorem test_div : next (.div 4 1 0) (base [7]) (fun t => (t.sreg 4).toNat) = some (2 ^ 64 - 1)
    ∧ next (.rem 4 1 0) (base [7]) (fun t => (t.sreg 4).toNat) = some 7 := by decide +kernel
/-- R192: −2^63 divided by −1 is −2^63 with remainder 0. -/
theorem test_divOverflow : next (.div 4 1 2) (base [2 ^ 63, 2 ^ 64 - 1]) (fun t => (t.sreg 4).toNat) = some (2 ^ 63)
    ∧ next (.rem 4 1 2) (base [2 ^ 63, 2 ^ 64 - 1]) (fun t => (t.sreg 4).toNat) = some 0 := by decide +kernel
/-- R22: s0 discards its write and the pc advances. -/
theorem test_zero : next (.addi 0 1 5) (base [7]) (fun t => ((t.sreg 0).toNat, t.cur.pc.toNat)) = some (0, 0x1004) := by decide +kernel
/-- R194: clz and ctz of 0 are 64; bswap reverses the bytes. -/
theorem test_clz : next (.clz 4 0) (base []) (fun t => (t.sreg 4).toNat) = some 64
    ∧ next (.ctz 4 0) (base []) (fun t => (t.sreg 4).toNat) = some 64 := by decide +kernel
theorem test_bswap : next (.bswap 4 1) (base [0x0102030405060708]) (fun t => (t.sreg 4).toNat) = some 0x0807060504030201 := by decide +kernel
/-- R196: lui extends the sign of its 21 bits and shifts by 16. -/
theorem test_lui : next (.lui 4 0x100000) (base []) (fun t => (t.sreg 4).toNat) = some (2 ^ 64 - 2 ^ 36) := by decide +kernel
/-- R198: blt is signed, bltw is not. -/
theorem test_blt : next (.blt 1 2 0x1FFD) (base [2 ^ 64 - 1, 1]) (fun t => t.cur.pc.toNat) = some 0xFF4
    ∧ next (.bltw 1 2 0x1FFD) (base [2 ^ 64 - 1, 1]) (fun t => t.cur.pc.toNat) = some 0x1004 := by decide +kernel
/-- R199: a misaligned target of jalr takes cause 0x03 and writes no link. -/
theorem test_jalr : next (.jalr 4 1 2) (base [0x2000]) (fun t => (trapNow t, (t.sreg 4).toNat)) = some ((3, 0x2002, 0x1000), 0) := by decide +kernel
/-- R201: the last word of a loop goes back while iterations are left. -/
theorem test_loopEnd : next (.addi 4 0 1) ((base []).modCur (fun t => { t with le := 0x1000, ls := 0xF00, lc := 2 }))
    (fun t => (t.cur.pc.toNat, t.cur.lc.toNat)) = some (0xF00, 1) := by decide +kernel
/-- R203: the second pass whose count does not fall traps with cause 0x10. -/
theorem test_bstrip : next (.bstrip 1 0x1FFF) ((base [8]).modCur (fun t => { t with spv := 8, spn := 1 })) (fun t => trapNow t)
    = some (0x10, 0xFFC, 0x1000) := by decide +kernel
/-- R82, R73: .take of a full granule empties it and extends the sign. -/
theorem test_ldsTake : next (.lds 4 1 .b4 .take 0) ((spadded [0x200] 0x200 4 0xFFFFFFFE).modCurC (fun c => { c with full := [0x20] }))
    (fun t => ((t.sreg 4).toNat, t.curC.full)) = some (2 ^ 64 - 2, []) := by decide +kernel
/-- R74: .fill sets the granule's bit. -/
theorem test_stsFill : next (.sts 2 1 .b2 .fill 0) (base [0x200, 0x1234]) (fun t => (Mem.num t.curC.spad 0x200 8, t.curC.full))
    = some (0x1234, [0x20]) := by decide +kernel
/-- R81: ld extends the sign, ldz does not; a misaligned address traps. -/
theorem test_ld : next (.ld 4 1 .b1 0) ({ base [0x20] with wm := [(0x20, 0x80)] }) (fun t => (t.sreg 4).toNat) = some (2 ^ 64 - 128)
    ∧ next (.ldz 4 1 .b1 0) ({ base [0x20] with wm := [(0x20, 0x80)] }) (fun t => (t.sreg 4).toNat) = some 128 := by decide +kernel
theorem test_stMisaligned : next (.st 4 1 .b8 0) (base [0x24]) (fun t => trapNow t) = some (3, 0x24, 0x1000) := by decide +kernel
/-- R157: amocas writes only when the old value is what s[d] held. -/
theorem test_amocas : next (.amocas 4 1 2 .relaxed .core true false) ({ base [0x20, 9, 0, 5] with wm := [(0x20, 5)] })
    (fun t => ((t.sreg 4).toNat, Mem.num t.wm 0x20 8)) = some (5, 9)
    ∧ next (.amocas 4 1 2 .relaxed .core true false) ({ base [0x20, 9, 0, 6] with wm := [(0x20, 5)] })
    (fun t => ((t.sreg 4).toNat, Mem.num t.wm 0x20 8)) = some (5, 5) := by decide +kernel
/-- R205: 1.0 + 1.0 is 2.0; R234: 0·∞ gives the canonical NaN and NV. -/
theorem test_fadd : next (.fadd 4 1 1 .f32 .dflt) (base [0x3F800000]) (fun t => ((t.sreg 4).toNat, t.cur.fflags.toNat)) = some (0x40000000, 0)
    ∧ next (.fmul 4 1 0 .f32 .dflt) (base [0x7F800000]) (fun t => ((t.sreg 4).toNat, t.cur.fflags.toNat)) = some (0x7FC00000, 0x10) := by
  decide +kernel
/-- R214: vsetvl grants at most 4,096 / SEW elements. -/
theorem test_vsetvl : next (.vsetvl 4 1 ⟨.b4, false, 0, .rne⟩) (base [5000]) (fun t => ((t.sreg 4).toNat, t.cur.vl.toNat)) = some (1024, 1024) := by
  decide +kernel
/-- Three byte elements. -/
def lanes3 (l : List Nat) : State := ((base l).modCur (fun t => { t with vl := 3 })).modVec (fun v => { v with holder := some 0 })
/-- R221: vadd wraps at the element's width; elements at and above VL keep their values. -/
theorem test_vadd : next (.vadd 1 2 2 .none 0) ((lanes3 []).modVec (fun v => { v with
      regs := (v.regs.set 2 { v.regs[2] with bits := 0x80804080#32768 }).set 1 { v.regs[1] with bits := 0xFF000000#32768 } }))
    (fun t => (t.vreg 1).bits.toNat) = some 0xFF008000 := by decide +kernel
/-- R225: a comparison writes one mask bit per element. -/
theorem test_vcmpltw : next (.vcmpltw 3 1 2 .none 0) ((lanes3 []).modVec (fun v => { v with
      regs := (v.regs.set 1 { v.regs[1] with bits := 0x01FF02#32768 }).set 2 { v.regs[2] with bits := 0x020103#32768 } }))
    (fun t => t.curC.vec.masks[3].bits.toNat) = some 5 := by decide +kernel
/-- R262: mshape grants at most 128 rows and columns, and 128 of K for 16-bit classes. -/
theorem test_mshape : next (.mshape 4 1 .e16) (base [200 + 5 * 2 ^ 16 + 300 * 2 ^ 32]) (fun t => (t.sreg 4).toNat)
    = some (128 + 5 * 2 ^ 16 + 128 * 2 ^ 32) := by decide +kernel
/-- R133, R131: abinit writes window, base and size. -/
theorem test_abinit : next (.abinit 1 2 3) (base [0x200, 0x40, 0x1000 + 0x80 * 2 ^ 32])
    (fun t => (Mem.num t.curC.spad 0x210 4, Mem.num t.curC.spad 0x214 4, Mem.num t.curC.spad 0x218 4)) = some (0x40, 0x1000, 0x80) := by decide +kernel
/-- R129: senq answers the count that the segment's counter will receive. -/
theorem test_senq : next (.senq 1 2 3) (base [0x40, 0]) (fun t => ((t.sreg 3).toNat, t.engines[(0 : EngineId)].chain.length)) = some (0x100, 1) := by
  decide +kernel
/-- R211, R306: svc goes to the kernel's handler with tpc behind it; R4: a privileged instruction at user level takes cause 0x02. -/
theorem test_svc : next .svc (base []) (fun t => (trapNow t, t.cur.priv)) = some ((0x14, 0, 0x1004), .kernel)
    ∧ next .tret (base []) (fun t => (trapNow t, t.cur.priv)) = some ((2, 0x44000040, 0x1000), .kernel) := by decide +kernel
/-- R309: tret restores the pc and the level. -/
theorem test_tret : next .tret ((kernel []).modCur (fun t => { t with ktrap := { t.ktrap with tpc := 0x2000, ppl := 0 } }))
    (fun t => (t.cur.pc.toNat, t.cur.priv)) = some (0x2000, .user) := by decide +kernel

/-! ## Witnesses: states and operands that meet the hypotheses of the statements -/

theorem eq_ok {σ ε α : Type} {x : σ × Except ε α} {b : α} (h : x.2.toOption = some b) : x = (x.1, .ok b) := by
  obtain ⟨s, r⟩ := x; cases r <;> simp_all [Except.toOption]
/-- The error of an answer. -/
def errOf {ε α : Type} : Except ε α → Option ε
  | .error e => some e
  | .ok _ => none
theorem eq_error {σ ε α : Type} {x : σ × Except ε α} {e : ε} (h : errOf x.2 = some e) : x = (x.1, .error e) := by
  obtain ⟨s, r⟩ := x; cases r <;> simp_all [errOf]
theorem ok_of {ε α : Type} {x : Except ε α} {b : α} (h : x.toOption = some b) : x = .ok b := by cases x <;> simp_all [Except.toOption]
/-- Instruction i answers a next state. -/
def goes (i : Instr) (s : State) : Bool := match exec i s with | .next _ => true | _ => false
theorem goes_next {i : Instr} {s : State} (h : goes i s = true) : ∃ t, exec i s = .next t := by
  unfold goes at h; cases e : exec i s with | next t => exact ⟨t, rfl⟩ | fault _ => simp [e] at h | refused _ => simp [e] at h

/-- The state in which the lanes are held, and what a pop leaves. -/
def laneS0 (s : State) : State := (acquireLanes s).getD s
/-- The state after the pops of a word's sources. -/
def laneS1 (s : State) (srcs : List VReg) : State :=
  (popAll (laneS0 s) (laneEnv (laneS0 s)).vl (sewOf (laneEnv (laneS0 s)).vtype) srcs.eraseDups).1
/-- The conditions of `LaneGo`, evaluated. -/
def laneOk (s : State) (dest : Option VReg) (srcs : List VReg) (rep : Option VReg) (split : Bool) : Bool :=
  let s0 := laneS0 s
  let e := laneEnv s0
  (acquireLanes s).isSome && !s0.blockRuns && dest.all (fun n => s0.curC.vec.bound n == none) && rep.all (fun n => s0.curC.vec.bound n == none)
    && (popCheck s0 e.vl (sewOf e.vtype) srcs.eraseDups).isNone && (popAll s0 e.vl (sewOf e.vtype) srcs.eraseDups).2.isNone
    && (!split || (debugStop (laneS1 s srcs) (sewOf e.vtype) e.vl).isNone)
theorem laneGo {s : State} {dest : Option VReg} {srcs : List VReg} {rep : Option VReg} {split : Bool} (h : laneOk s dest srcs rep split = true) :
    LaneGo s dest srcs rep split (laneEnv (laneS0 s)) (laneS1 s srcs) := by
  simp only [laneOk, Bool.and_eq_true] at h
  obtain ⟨⟨⟨⟨⟨⟨h1, h2⟩, h3⟩, h4⟩, h5⟩, h6⟩, h7⟩ := h
  refine ⟨laneS0 s, ?_, by simpa using h2, rfl, ?_, ?_, by simpa using h5, ?_, fun hs => by simpa [hs] using h7⟩
  · obtain ⟨x, hx⟩ := Option.isSome_iff_exists.1 h1; simp [laneS0, hx]
  · rintro n rfl; simpa using h3
  · rintro n rfl; simpa using h4
  · exact Prod.ext rfl (by simpa using h6)

/-- ScalarFrames: an active loop's last word, with and without iterations left, and another word; an instruction of the list. -/
def looped (lc : Nat) : State := (base [3, 4]).modCur (fun t => { t with le := 0x1000, ls := 0xF00, lc := BitVec.ofNat 64 lc })
theorem witness_ScalarFrames : ((looped 1).cur.le ≠ 0 ∧ (looped 1).cur.loopOff = false ∧ (looped 1).cur.pc = (looped 1).cur.le ∧ (looped 1).cur.lc ≠ 0)
    ∧ ((looped 0).cur.le ≠ 0 ∧ (looped 0).cur.loopOff = false ∧ (looped 0).cur.pc = (looped 0).cur.le ∧ (looped 0).cur.lc = 0)
    ∧ ¬ ((base []).cur.le ≠ 0 ∧ (base []).cur.loopOff = false ∧ (base []).cur.pc = (base []).cur.le) := by decide +kernel
theorem witness_ScalarFrames_next : (∃ t, exec (.add 4 1 2) (base [3, 4]) = .next t) ∧ ∃ t, exec (.add 0 1 2) (base [3, 4]) = .next t :=
  ⟨goes_next (by decide +kernel), goes_next (by decide +kernel)⟩
/-- LoopInstructions: each branch. -/
theorem witness_LoopInstructions :
    ((base [0]).sreg 1 = 0 ∧ canonical ((base [0]).cur.pc + BitVec.ofNat 64 (4 * 4) + 4) = true) ∧ (base [5]).sreg 1 ≠ 0
    ∧ (let s := (base [5]).modCur (fun t => { t with spv := 6 })
       s.sreg 1 ≠ 0 ∧ (s.sreg 1).toNat < s.cur.spv.toNat ∧ canonical (s.cur.pc + BitVec.ofInt 64 ((0x1FFA : BitVec 13).toInt * 4)) = true)
    ∧ (let s := (base [5]).modCur (fun t => { t with spv := 5 })
       s.sreg 1 ≠ 0 ∧ ¬ (s.sreg 1).toNat < s.cur.spv.toNat ∧ s.cur.spn ≠ 1 ∧ canonical (s.cur.pc + BitVec.ofInt 64 ((0x1FFA : BitVec 13).toInt * 4)) = true)
    ∧ (let s := (base [5]).modCur (fun t => { t with spv := 5, spn := 1 })
       s.sreg 1 ≠ 0 ∧ ¬ (s.sreg 1).toNat < s.cur.spv.toNat ∧ s.cur.spn = 1) := by decide +kernel
theorem witness_DecodeOfEncode : (Instr.vrgather 3 4 5 0).wellFormed = true ∧ encode (.vrgather 3 4 5 0) = some 0x8C642802#32 := by decide +kernel
theorem witness_EncodeOfDecode : decode 0x8C642802#32 = .ok (.vrgather 3 4 5 0) := ok_of (by decide +kernel)
/-- StepRunsDecoded: an addition at pc, the thread's turn; and a word that is no instruction. -/
def fetching (w : Nat) : State := { base [3, 4] with agenda := [.run 0 0], wm := Mem.setBytes [] 0x1000 (leBytes 4 w) }
theorem witness_StepRunsDecoded (w : Nat) (h : w = 0x04853000 ∨ w = 0) :
    let s0 : State := { fetching w with agenda := [] }
    let f := s0.focus 0 0
    (fetching w).agenda = .run 0 0 :: [] ∧ runnable s0 0 0 = true ∧ f.cur.skewFault = none ∧ f.cur.checks = []
    ∧ f.cur.yieldDue = false ∧ f.accepting 0 0 = none ∧ hitTrigger f = none ∧ ∃ s1, nextWord f = (s1, .ok (BitVec.ofNat 32 w)) := by
  rcases h with rfl | rfl <;>
    exact ⟨by rfl, by decide +kernel, by decide +kernel, by decide +kernel, by decide +kernel, by decide +kernel, by decide +kernel, _,
      eq_ok (by decide +kernel)⟩
theorem witness_StepRunsDecoded_words : decode 0x04853000#32 = .ok (.add 4 5 6) ∧ (decode 0#32).toOption = none :=
  ⟨ok_of (by decide +kernel), by decide +kernel⟩
/-- FetchAndBlocking: the page is cached, live and executable; and each way in which a thread does not issue. -/
theorem witness_FetchAndBlocking : let s := fetching 0x04853000
    canonical s.cur.pc = true ∧ s.cur.pc.toNat % 4 = 0
    ∧ tlbHit s.curC.scalarTlb (s.coreTime s.curCore) s.curReq (bitsOf s.cur.pc.toNat 16 41) = some entry0
    ∧ permFail leaf0 .fetch s.cur.priv = none ∧ leaf0.kind ≠ 3 ∧ leaf0.stripe = none ∧ leaf0.frame % 0x10000 = 0 ∧ leaf0.frame + s.cur.pc.toNat % 0x10000 < wmSize
    ∧ NatSet.has s.wmPoison ((leaf0.frame + s.cur.pc.toNat % 0x10000) / 16) = false := by decide +kernel
theorem witness_FetchAndBlocking_waits :
    (let s0 : State := { State.reset with agenda := [] }; (s0.thr 0 0).task = none) ∧ (((base []).modCore 0 (fun c => { c with halted := true })).core 0).halted = true
    ∧ ({ base [] with fatal := true } : State).fatal = true ∧ ({ base [] with boot := { (base []).boot with minimal := true } } : State).boot.minimal = true
    ∧ (let s := (base []).modCur (fun t => { t with wait := .time 5 }); (s.thr 0 0).skewFault = none ∧ (s.thr 0 0).checks = [] ∧ waitOver s 0 0 = false)
    ∧ (let s := (base []).modCur (fun t => { t with idling := true })
       (s.thr 0 0).checks = [] ∧ (s.thr 0 0).idling = true ∧ (s.thr 0 0).yreq = false ∧ (s.thr 0 0).sliceOver = false) := by decide +kernel
/-- StepKeepsMemoryCanonical: a step in which time passes. -/
theorem witness_StepKeepsMemoryCanonical : MemInv State.reset ∧ ∃ t, step { State.reset with agenda := [.elapse 1] } = .next t :=
  ⟨by unfold MemInv; decide +kernel, _, rfl⟩
theorem witness_TargetReadAfterWrite : ∀ f o, Tgt.wm 0x20 ≠ .window f o := by intro f o h; cases h
/-- FloatRounding: 1.0 and 0 in f32; NaN operands. -/
theorem witness_FloatRounding : ElemType.isInt .f32 = false ∧ ElemType.f32 ≠ .ds8 ∧ 0x3F800000 < 2 ^ ElemType.bits .f32
    ∧ fval .f32 0x3F800000 = .fin false 0x800000 (-23) ∧ (fval .f32 0x7FC00000).isNan = true := by decide +kernel
theorem witness_ScalarFloatInstructions : (∃ t, exec (.fadd 4 1 2 .f32 .dflt) (base [0x3F800000, 0x7F800001]) = .next t)
    ∧ ElemType.isInt .i32 = true ∧ ElemType.isInt .f64 = false := ⟨goes_next (by decide +kernel), by decide, by decide⟩
/-- TrapEntry: the levels. -/
theorem witness_TrapEntry : ((base []).modCur (fun t => { t with priv := .hyper })).cur.priv = .hyper ∧ (kernel []).cur.priv = .kernel
    ∧ (mkTrap 0x14 0 0).cause = 0x14 ∧ (base []).cur.priv = .user ∧ ({ mkTrap 0x05 0 0 with stage2 := true } : Trap).stage2 = true
    ∧ (mkTrap 0x01 0 0).stage2 = false ∧ (mkTrap 0x01 0 0).hreg = false ∧ (mkTrap 0x01 0 0).cause ≠ 0x14 := by decide +kernel
/-- ReturnAndSystem: tret in each of its three cases; brk with and without brkhalt; a traced thread and one that is not. -/
theorem witness_ReturnAndSystem :
    (kernel []).cur.priv ≠ .user ∧ ((kernel []).cur.trapSet .kernel).ppl ≠ 3#2
    ∧ (((kernel []).modCur (fun t => { t with ktrap := { t.ktrap with ppl := 3 } })).cur.trapSet .kernel).ppl = 3#2 ∧ (base []).cur.priv = .user
    ∧ (base []).curC.brkhalt = false ∧ ((base []).modCurC (fun c => { c with brkhalt := true })).curC.brkhalt = true
    ∧ (base []).curC.traces 0 = false
    ∧ ((base []).modCurC (fun c => { c with trace := .guest, counters := c.counters.set 7 { c.counters[7] with event := 14 } })).curC.traces 0 = true
    ∧ (base []).curC.ring.base + 32 * ((base []).curC.ring.seq.toNat % 2 ^ ((base []).curC.ring.size + 6)) + 32 ≤ 0x18000000000 := by
  decide +kernel
/-- CsrInstructions: vl and vtype are read at user level; frm written; tpc is not reachable from user level; cause of a number without a CSR. -/
theorem witness_CsrInstructions :
    csrExists 0xC8 = true ∧ (csrLevels 0xC8).1.le (base []).cur.priv = true ∧ csrWaits 0xC8 = false
    ∧ (csrLevels 0xC8).2 = some .user ∧ Priv.le .user (base []).cur.priv = true
    ∧ csrExists 0x81 = true ∧ (csrLevels 0x81).1.le (base []).cur.priv = false
    ∧ csrExists 0x00 = true ∧ (csrLevels 0x00).2 = none
    ∧ (csrLevels 0x81).2 = some .kernel ∧ Priv.le .kernel (base []).cur.priv = false ∧ csrExists 0x1F = false := by decide +kernel
theorem witness_CsrInstructions_waits : csrWaits 0x20 = true ∧ (base []).unitsBusy = false ∧ (base []).copiesBusy = false := by decide +kernel
theorem witness_CsrMap : (0 : Word).extractLsb' 0 2 ≠ 3#2 ∧ (3 : Word).extractLsb' 0 2 = 3#2 ∧ ((4 : Word).extractLsb' 0 3).toNat ≤ 4
    ∧ 4 < ((5 : Word).extractLsb' 0 3).toNat ∧ (base []).cur.le = 0 ∧ (looped 1).cur.le ≠ 0 ∧ (looped 1).cur.loopOff = false := by decide +kernel

theorem exists_ok {ε α : Type} {x : Except ε α} (p : α → Bool) (h : x.toOption.any p = true) : ∃ b, x = .ok b ∧ p b = true := by
  cases x <;> simp_all [Except.toOption]
theorem exists_okS {σ ε α : Type} {x : σ × Except ε α} (p : α → Bool) (h : x.2.toOption.any p = true) : ∃ s b, x = (s, .ok b) ∧ p b = true := by
  obtain ⟨s, r⟩ := x
  cases r with
  | error _ => simp [Except.toOption] at h
  | ok b => exact ⟨s, b, rfl, by simpa [Except.toOption] using h⟩

/-- A page table of five levels that maps page 0 to frame 0; every entry carries the 8 ms lease code. -/
def tabled (l : List Nat) : State :=
  let e (at_ frame flags : Nat) (m : Memory) : Memory := Mem.setNum m at_ 8 (7 * 2 ^ 61 + frame + flags)
  ({ base l with wm := e 0x80000 0x90000 1 (e 0x90000 0xA0000 1 (e 0xA0000 0xB0000 1 (e 0xB0000 0xC0000 1 (e 0xC0000 0 0x3F [])))) }).modPart 1
    (fun p => { p with xastb := 0x80000 })
/-- Page 1 of generic space at BAR0 of partition 1, page 2 at host memory, page 3 read-only, page 4 of the reserved ordering kind; kernel level. -/
def mapped (l : List Nat) : State :=
  let e (n : Nat) (lf : LeafInfo) : TlbEntry := ⟨1, 0, n, lf, 0, 8000000⟩
  let t := [entry0, e 1 { leaf0 with frame := hostBase }, e 2 { leaf0 with frame := hostBase + 0x20000 }, e 3 { leaf0 with w := false }, e 4 { leaf0 with kind := 3 }]
  { (kernel l).modCore 0 (fun c => { c with scalarTlb := t, vectorTlb := t, gatherTlb := t }) with bars := (base l).bars.set 1 (some 0) }

/-- TranslationCaching: a live entry that permits, one that denies, a target that is none; a write through a dirty leaf; a walk with its expiry. -/
theorem witness_TranslationCaching :
    tlbHit (unitTlb (mapped []) (.scalar 0)) (unitTime (mapped []) (.scalar 0)) (mapped []).curReq (bitsOf 0x20 16 41) = some entry0
    ∧ entry0.leaf.dirty = true ∧ permFail entry0.leaf .store .kernel = none
    ∧ (leafTarget (mapped []) (mapped []).curReq entry0.leaf 0x20 true true).toOption = some (.wm 0x20)
    ∧ permFail { leaf0 with w := false } .store .kernel = some (3, 0)
    ∧ errOf (leafTarget (mapped []) (mapped []).curReq { leaf0 with kind := 3 } 0x40000 true true) = some .access := by decide +kernel
theorem witness_TranslationCaching_walk : ∃ w, walkPage (tabled []) ⟨1, 0, .user, 1⟩ 0 0x20 [] = .ok w ∧ (w.acc.path.exp == some 8000000) = true :=
  exists_ok _ (by decide +kernel)
theorem witness_TranslationCaching_frame : ∃ s1 r, translate (mapped []) (.scalar 0) (mapped []).curReq .store 0x20 true = (s1, r) := ⟨_, _, rfl⟩
/-- ScalarAccesses: an eight-byte word of working memory, and a window register at kernel level. -/
theorem witness_ScalarAccesses : let s := mapped [0x20, 0x10000]
    canonical (s.sreg 1 + BitVec.ofInt 64 ((0 : BitVec 14).toInt * 8)) = true ∧ (s.sreg 1 + BitVec.ofInt 64 ((0 : BitVec 14).toInt * 8)).toNat % 8 = 0
    ∧ (tgtRead s (.wm 0x20) 8).2 = false ∧ (tgtRead { s with wmPoison := [2] } (.wm 0x20) 8).2 = true ∧ (windowLevels 1 0).2 = some .kernel ∧ (0 : Nat) % 8 = 0 ∧ (windowLevels 1 0).1.le s.cur.priv = true := by decide +kernel
theorem witness_ScalarAccesses_translate : let s := mapped [0x20, 0x10000]
    (∃ s1, translate s (.scalar s.curCore) s.curReq .load 0x20 true = (s1, .ok (.wm 0x20, leaf0)))
    ∧ (∃ s1, translate s (.scalar s.curCore) s.curReq .load 0x10000 true = (s1, .ok (.window 1 0, { leaf0 with frame := hostBase })))
    ∧ ∃ s1, translate s (.scalar s.curCore) s.curReq .store 0x20 true = (s1, .ok (.wm 0x20, leaf0)) :=
  ⟨⟨_, eq_ok (by decide +kernel)⟩, ⟨_, eq_ok (by decide +kernel)⟩, _, eq_ok (by decide +kernel)⟩
/-- ScalarAccessFaults: each clause, at the bounds. -/
theorem witness_ScalarAccessFaults : canonical (2 ^ 56 : Word) = false ∧ canonical (2 ^ 56 - 1 : Word) = true ∧ (0x21 : Word).toNat % 2 ≠ 0
    ∧ 0x400000 ≤ (0x400000 : Word).toNat ∧ (0x3FFFFF : Word).toNat < 0x400000 ∧ (0x3FFFFF : Word).toNat % 8 ≠ 0
    ∧ ((0x380000 : Word).toNat < 0x400000 ∧ (0x380000 : Word).toNat % 8 = 0 ∧ 0x380000 ≤ (0x380000 : Word).toNat) := by decide
theorem witness_ScalarAccessFaults_translate : let s := mapped []
    (∃ s1, translate s (.scalar s.curCore) s.curReq .load 0x40000 true = (s1, .error .access))
    ∧ ∃ s1, translate s (.scalar s.curCore) s.curReq .store 0x30000 true = (s1, .error (.page 3 0)) :=
  ⟨⟨_, eq_error (by decide +kernel)⟩, _, eq_error (by decide +kernel)⟩
/-- ScratchpadAccesses: an allocated granule that is full, one that is empty, and a guard address. -/
theorem witness_ScratchpadAccesses : let s := (base [0x100, 0x3100]).modCurC (fun c => { c with full := [0x10] })
    (s.sreg 1).toNat < 0x380000 ∧ (s.sreg 1).toNat % 4 = 0 ∧ inAllocs s.curAllocs 0x100 = true ∧ s.curC.spadPoisoned 0x100 4 = false
    ∧ (s.modCurC (fun c => { c with spadPoison := [0x10] })).curC.spadPoisoned 0x100 4 = true
    ∧ s.curC.isFull 0x10 = true ∧ inAllocs s.curAllocs 0x110 = true ∧ LoadQual.wait ≠ .plain ∧ s.curC.isFull 0x11 = false
    ∧ inAllocs s.curAllocs 0x3100 = false := by decide +kernel
/-- AtomicInstructions: working memory, host memory, the scratchpad. -/
theorem witness_AtomicInstructions : let s := mapped [0x20, 0x20000]
    ((tgtRead s (.wm 0x20) 8).2 = false ∧ (tgtRead s (.host (hostKey 1 0x20000)) 8).2 = false ∧ (tgtRead { s with wmPoison := [2] } (.wm 0x20) 8).2 = true)
    ∧ inAllocs (base [0x3100]).curAllocs 0x3100 = false ∧ ((base [0x200]).modCurC (fun c => { c with spadPoison := [0x20] })).curC.spadPoisoned 0x200 8 = true
    ∧ (let t := base [0x200]; 0x200 < 0x380000 ∧ 0x200 % 8 = 0 ∧ inAllocs t.curAllocs 0x200 = true ∧ t.curC.spadPoisoned 0x200 8 = false) := by
  decide +kernel
theorem witness_AtomicInstructions_translate : let s := mapped [0x20, 0x20000]
    (∃ s1, translate s (.scalar s.curCore) s.curReq .atomic 0x20 true = (s1, .ok (.wm 0x20, leaf0)))
    ∧ (∃ s1, translate s (.scalar s.curCore) s.curReq .atomic 0x20 false = (s1, .ok (.wm 0x20, leaf0)))
    ∧ (∃ s1, translate s (.scalar s.curCore) s.curReq .atomic 0x20000 true = (s1, .ok (.host (hostKey 1 0x20000), { leaf0 with frame := hostBase + 0x20000 })))
    ∧ (let t : State := { s with hostAbsent := [hostKey 1 0x20000 / 4096] }
       ∃ s1, translate t (.scalar t.curCore) t.curReq .atomic 0x20000 true = (s1, .error (.absent (hostKey 1 0x20000 / 4096)))) :=
  ⟨⟨_, eq_ok (by decide +kernel)⟩, ⟨_, eq_ok (by decide +kernel)⟩, ⟨_, eq_ok (by decide +kernel)⟩, _, eq_error (by decide +kernel)⟩

/-- A queued copy of thread 0, and a query of its context. -/
def copy0 : CopyCmd := ⟨1, 0, ⟨false, false, .core⟩, none, none, 1, 0, .user, 1, 0, 1, 0, 0, [], false, none, [], false, [], none, none, none⟩
/-- A counting query accepted and not finished. -/
def query0 : QueryRun := ⟨1, 4, ⟨false, false, .core, false⟩, 0, [], [], none, 0x200, 0, 0, 1, 0, 1, 1, .user, [], 0, [], 1, 0, 0, 0, [], [], false, false⟩
theorem witness_FencesAndCounters : let s := base [5, 6]
    (∀ c ∈ s.curC.copies, c.tid ≠ s.curTid) ∧ queriesBusy s s.curCore s.curTid = false
    ∧ (let t := s.modCurC (fun c => { c with copies := [copy0] }); ∃ c ∈ t.curC.copies, c.tid = t.curTid)
    ∧ (let t : State := { s with queries := [query0] }; queriesBusy t t.curCore t.curTid = true)
    ∧ s.coreTime s.curCore < (s.sreg 1).toNat ∧ (let t : State := { s with time := 5 }; (t.sreg 1).toNat ≤ t.coreTime t.curCore) := by decide +kernel
theorem witness_FencesAndCounters_waitge : let s := { base [0x20, 6] with wm := [(0x20, 6)] }
    canonical (s.sreg 1) = true ∧ (s.sreg 1).toNat % 8 = 0 ∧ (reportAll s).isNone = true ∧ (tgtRead s (.wm 0x20) 8).2 = false
    ∧ (s.sreg 2).toNat ≤ leNat (tgtRead s (.wm 0x20) 8).1 ∧ leNat (tgtRead (base []) (.wm 0x20) 8).1 < (s.sreg 2).toNat := by decide +kernel
/-- A pending guard record is reported first; poison at the counter; a window register. -/
theorem witness_FencesAndCounters_others :
    (reportAll ((base [0x20, 6]).modCur (fun t => t.noteGuard 0x1000 0x50))).isSome = true ∧ (tgtRead { base [] with wmPoison := [2] } (.wm 0x20) 8).2 = true
    ∧ (windowLevels 1 0).1.le (mapped []).cur.priv = true ∧ 0 % 8 = 0 := by decide +kernel
theorem witness_FencesAndCounters_window : let s := mapped [0x10000, 6]
    canonical (s.sreg 1) = true ∧ (s.sreg 1).toNat % 8 = 0 ∧ (reportAll s).isNone = true
    ∧ (∃ s1, translate s (.scalar s.curCore) s.curReq .load (s.sreg 1) true = (s1, .ok (.window 1 0, { leaf0 with frame := hostBase })))
    ∧ ∃ s1, translate s (.scalar s.curCore) s.curReq .atomic (s.sreg 1) true = (s1, .ok (.window 1 0, { leaf0 with frame := hostBase })) :=
  ⟨by decide +kernel, by decide +kernel, by decide +kernel, ⟨_, eq_ok (by decide +kernel)⟩, _, eq_ok (by decide +kernel)⟩
theorem witness_FencesAndCounters_translate : let s := base [0x20, 6]
    (∃ s1, translate s (.scalar s.curCore) s.curReq .load (s.sreg 1) true = (s1, .ok (.wm 0x20, leaf0)))
    ∧ ∃ s1, translate s (.scalar s.curCore) s.curReq .atomic (s.sreg 1) true = (s1, .ok (.wm 0x20, leaf0)) :=
  ⟨⟨_, eq_ok (by decide +kernel)⟩, _, eq_ok (by decide +kernel)⟩

/-- A started launch of partition 1 with three levels, whose one node has a live task 1, and a second task 2 when `two`. -/
def launch0 (two : Bool) : Launch :=
  { num := 1, part := 1, addr := 0x40, asn := 0, levels := [⟨0, .core, 1⟩, ⟨1, .core, 4⟩, ⟨2, .die, 4⟩], allocs := [⟨0x100, 0x3000, false⟩], sdata := 0, sdsize := 0
    counter := 0, gtag := 7, start := 0, started := true, nodes := [⟨0x1000, .dispatched, 0, if two then 2 else 1, false, 0, 0, 0⟩]
    tasks := ⟨1, 0, Vector.replicate 8 0, false, false⟩ :: (if two then [⟨2, 0, Vector.replicate 8 0, false, false⟩] else []), bars := [] }
/-- `base` with that launch. -/
def launched (two : Bool) (l : List Nat) : State := { base l with disp := { (base l).disp with launches := [launch0 two], nextNum := 2 } }
/-- Barriers, first part: the level's bounds; the last arrival, one that is not; each branch of barw. -/
theorem witness_Barriers : (launched false [1, 0]).cur.task = some ⟨1, 1, 1, 0, 0⟩ ∧ (launched false [1, 0]).launch 1 1 = some (launch0 false)
    ∧ ((0 : Word) = 0 ∧ (launch0 false).levels.length ≤ (3 : Word).toNat ∧ 8 ≤ (8 : Word).toNat)
    ∧ ((1 : Word).toNat = (1 : Fin 8).val ∧ (2 : Fin 8).val < (launch0 false).levels.length)
    ∧ (launch0 false).barOf 1 1 = some ⟨1, List.replicate 7 0, 0, [], false⟩
    ∧ (launch0 false).taskAt 1 = some 0
    ∧ (launch0 false).allArrived ⟨1, List.replicate 7 0, 0, [0], false⟩ = true ∧ (launch0 true).allArrived ⟨1, List.replicate 7 0, 0, [0], false⟩ = false
    ∧ (reportAll (launched false [1, 0])).isNone = true ∧ (launched false [1, 0]).cur.joined 1 = none := by decide +kernel
theorem witness_Barriers_barw :
    (let l := { launch0 true with bars := [⟨1, List.replicate 7 0, 3, [0], false⟩] }
     l.barOf 1 1 = some ⟨1, List.replicate 7 0, 3, [0], false⟩ ∧ (2 : Word).toNat < 3 ∧ (3 : Word).toNat = 3 ∧ 0 ∈ [0] ∧ 3 < (4 : Word).toNat)
    ∧ 0 ∉ [1] := by decide +kernel
/-- Barriers, second part: an arrival barrier at 0x200 (window 0x40, ring of 0x80 at 0x1000), its bad places and operands, its two outcomes each. -/
theorem witness_Barriers_arrival : let s := spadded [0x200, 0x40, 0x1000 + 0x80 * 2 ^ 32] 0x200 8 0x30
    (reportAll s).isNone = true ∧ (0x210 : Nat) % 32 ≠ 0 ∧ ((0x3FFFE0 + 0x20 : Nat) % 32 = 0 ∧ 0x400000 < 0x400000 + 32)
    ∧ (s.sreg 1).toNat % 32 = 0 ∧ (s.sreg 1).toNat + 32 ≤ 0x380000
    ∧ (∀ i, i < 32 → inAllocs s.curAllocs (0x200 + i) = true ∧ NatSet.has s.curC.spadPoison ((0x200 + i) / 16) = false)
    ∧ ¬ (2 ^ 32 ≤ (s.sreg 2).toNat) ∧ (s.sreg 3).toNat / 2 ^ 22 % 2 ^ 10 = 0 ∧ (s.sreg 3).toNat < 2 ^ 54 ∧ (s.sreg 3).toNat / 2 ^ 32 = 0x80
    ∧ (s.sreg 2).toNat % 16 = 0 ∧ (s.sreg 2).toNat ≤ 0x80 ∧ (s.sreg 3).toNat % 2 ^ 22 % 16 = 0
    ∧ Mem.num s.curC.spad 0x200 8 = 0x30 ∧ Mem.num s.curC.spad 0x208 8 = 0 := by decide +kernel
/-- A barrier at a guard address whose first owned byte is not its first. -/
theorem witness_Barriers_guard : let s := base [0xE0, 0x40, 0x1000 + 0x80 * 2 ^ 32]
    (s.sreg 1).toNat % 32 = 0 ∧ firstGuard s.curAllocs 0xE0 28 = some 0xE0 ∧ (reportAll s).isNone = true ∧ (s.guardRead 0xE0 32).2.1 = List.replicate 32 0
    ∧ (reportAll ((base []).modCur (fun t => t.noteGuard 0x1000 0x50))).isSome = true := by decide +kernel
theorem witness_Barriers_complete : ((base []).modCur (fun t => { t with wait := .arrival 0x200 0x40 })).cur.wait = .arrival 0x200 0x40 := by decide +kernel



/-- A unit-stride block of bytes at 0 of generic space, of n elements, bound to v24. -/
def bound24 (n : Nat) : Binding := ⟨BitVec.ofNat 512 (n * 2 ^ 192 + 2 ^ 224 + 2 ^ 256 + 2 ^ 288 + 2 ^ 320), 1, 0, .user, 0, [], ⟨0x7F800000#32, 0, 1⟩, 0, false, []⟩
/-- `lanes3` with that binding. -/
def streamed (n : Nat) : State := (lanes3 []).modVec (fun v => { v with binds := v.binds.set 0 (some (bound24 n)) })
/-- A block of two words of three virtual processors, all at word p. -/
def block3 (ws : List Word32) (p : Nat) (stopped : Bool) : Block :=
  ⟨0, 0x1000, 0x1000, ws, 6 + 2 ^ 34, Vector.replicate 32 0, 3, 0, List.replicate 3 ⟨p, false⟩, 0, stopped, false, [], false⟩
/-- `lanes3` with that block. -/
def blocked (ws : List Word32) (p : Nat) (stopped : Bool) : State := (lanes3 []).modVec (fun v => { v with block := some (block3 ws p stopped) })
/-- VsetvlResults: a register and a mask that live, that a kept block writes, and that are dropped; a yield that is asked for and taken,
one that a debug step holds back, and none. -/
theorem witness_VsetvlResults :
    (let s := (blocked [0] 0 true).modCur (fun t => { t with vlive := 1 + 2 ^ 32 })
     let blocks := s.curC.vec.block.toList ++ s.curC.vec.parked
     let stays (n : Nat) : Prop := s.cur.vlive.getLsbD n = true ∨ ∃ b ∈ blocks, b.writes.getLsbD n = true
     s.curC.vec.holder = some s.curTid ∧ s.curC.vec.block ≠ none ∧ stays 0 ∧ stays 2 ∧ ¬ stays 3 ∧ ¬ stays 31
     ∧ stays (32 + 0) ∧ stays (32 + 2) ∧ ¬ stays (32 + 3) ∧ ¬ stays (32 + 15)
     ∧ ¬ ((s.cur.yreq = true ∨ s.cur.sliceOver = true) ∧ s.cur.ktrap.hdl = false ∧ s.cur.htrap.hdl = false))
    ∧ (base []).curC.vec.holder ≠ some (base []).curTid
    ∧ (let s := (base []).modCur (fun t => { t with yreq := true })
       ((s.cur.yreq = true ∨ s.cur.sliceOver = true) ∧ s.cur.ktrap.hdl = false ∧ s.cur.htrap.hdl = false
         ∧ s.cur.skewFault = none ∧ s.cur.checks = [])
       ∧ s.curC.step = false ∧ (s.modCurC (fun c => { c with step := true })).curC.step = true) := by decide +kernel
theorem acq {s : State} (h : (acquireLanes s).isSome = true) : acquireLanes s = some (laneS0 s) := by
  obtain ⟨x, hx⟩ := Option.isSome_iff_exists.1 h; simp [laneS0, hx]
theorem witness_LaneWaitsAndStreamMisuse :
    acquireLanes ((base []).modVec (fun v => { v with holder := some 1 })) = none
    ∧ (acquireLanes (blocked [0] 0 false) = some (laneS0 (blocked [0] 0 false)) ∧ (laneS0 (blocked [0] 0 false)).blockRuns = true)
    ∧ (acquireLanes (streamed 2) = some (laneS0 (streamed 2)) ∧ (laneS0 (streamed 2)).blockRuns = false
        ∧ (laneS0 (streamed 2)).curC.vec.bound 24 = some (bound24 2) ∧ (laneS0 (streamed 2)).curC.vec.bound 3 = none ∧ Rep.rep4 ≠ .none
        ∧ (bound24 2).held = false ∧ blkCount (bound24 2).block < (bound24 2).popped + (laneS0 (streamed 2)).cur.vl.toNat) :=
  ⟨by rfl, ⟨acq (by decide +kernel), by decide +kernel⟩, acq (by decide +kernel), by decide +kernel⟩
/-- `lanes3` with three bytes at a bound to v24, the vector structure holding host page 0x20000 at generic page 2, which is absent. -/
def streamedAt (a : Nat) : State :=
  let b : Binding := { bound24 3 with block := (bound24 3).block + BitVec.ofNat 512 a }
  let s := (lanes3 []).modCurC (fun c => { c with vectorTlb := [entry0, ⟨1, 0, 2, { leaf0 with frame := hostBase + 0x20000 }, 0, 8000000⟩] })
  { s.modVec (fun v => { v with binds := v.binds.set 0 (some b) }) with hostAbsent := [hostKey 1 0x20000 / 4096] }
/-- LaneWaitsAndStreamMisuse: a source on an absent host page, and one on a page that does not translate. -/
theorem witness_LaneWaitsAndStreamMisuse_pages :
    (let s0 := laneS0 (streamedAt 0x20000)
     acquireLanes (streamedAt 0x20000) = some s0 ∧ s0.blockRuns = false ∧ s0.curC.vec.bound 1 = none
     ∧ popCheck s0 s0.cur.vl.toNat (sewOf s0.cur.vtype) [24] = none
     ∧ ∃ s1, popAll s0 s0.cur.vl.toNat (sewOf s0.cur.vtype) [24] = (s1, some (.absent (hostKey 1 0x20000 / 4096))))
    ∧ (let s0 := laneS0 (streamedAt 0x50000)
     acquireLanes (streamedAt 0x50000) = some s0 ∧ s0.blockRuns = false ∧ s0.curC.vec.bound 1 = none
     ∧ popCheck s0 s0.cur.vl.toNat (sewOf s0.cur.vtype) [24] = none
     ∧ ∃ s1, popAll s0 s0.cur.vl.toNat (sewOf s0.cur.vtype) [24] = (s1, some (.trap (mkTrap 0x0B 0x50000 2)))) :=
  ⟨⟨acq (by decide +kernel), by decide +kernel, by decide +kernel, by decide +kernel, _, Prod.ext rfl (by decide +kernel)⟩,
   acq (by decide +kernel), by decide +kernel, by decide +kernel, by decide +kernel, _, Prod.ext rfl (by decide +kernel)⟩
/-- The words of two sources, of three and of one, with and without a replicated operand; a popped source. -/
theorem witness_VectorIntegerResults :
    (∃ e s1, LaneGo (lanes3 []) (some 1) [2, 3] (repOf .none 3) true e s1) ∧ (∃ e s1, LaneGo (lanes3 []) (some 1) [2, 2] (repOf .rep16 2) true e s1)
    ∧ (∃ e s1, LaneGo (lanes3 []) (some 1) [2, 3, 1] (repOf .none 3) true e s1) ∧ ∃ e s1, LaneGo (streamed 3) (some 1) [24, 3] (repOf .rep1 3) true e s1 :=
  ⟨⟨_, _, laneGo (by decide +kernel)⟩, ⟨_, _, laneGo (by decide +kernel)⟩, ⟨_, _, laneGo (by decide +kernel)⟩, _, _, laneGo (by decide +kernel)⟩
theorem witness_VectorImmediatesAndPermutes :
    (∃ e s1, LaneGo (lanes3 []) (some 1) [2] none true e s1) ∧ (∃ e s1, LaneGo (lanes3 []) (some 1) [] none true e s1)
    ∧ (∃ e s1, LaneGo (lanes3 []) (some 1) [2, 3] none true e s1) ∧ ∃ e s1, LaneGo (lanes3 []) (some 1) [2] none false e s1 :=
  ⟨⟨_, _, laneGo (by decide +kernel)⟩, ⟨_, _, laneGo (by decide +kernel)⟩, ⟨_, _, laneGo (by decide +kernel)⟩, _, _, laneGo (by decide +kernel)⟩
/-- MasksAndCompares: the words; a mask whose first bit set is bit 1 of three, and one with none; no exception enabled. -/
theorem witness_MasksAndCompares :
    (∃ e s1, LaneGo (lanes3 []) none [] none false e s1) ∧ (∃ e s1, LaneGo (lanes3 []) (some 1) [] none false e s1)
    ∧ (∃ e s1, LaneGo (lanes3 []) none [2, 3] (repOf .rep4 3) true e s1 ∧ e.fexc = 0) :=
  ⟨⟨_, _, laneGo (by decide +kernel)⟩, ⟨_, _, laneGo (by decide +kernel)⟩, _, _, laneGo (by decide +kernel), by decide +kernel⟩
theorem witness_MasksAndCompares_first : let e := laneEnv (laneS0 (lanes3 []))
    (1 < e.vl ∧ (6#4096).getLsbD 1 = true ∧ ∀ j, j < 1 → (6#4096).getLsbD j = false) ∧ ∀ i, i < e.vl → (0#4096).getLsbD i = false := by decide +kernel
/-- VectorFloatInstructions: no exception enabled. -/
theorem witness_VectorFloatInstructions :
    (∃ e s1, LaneGo (lanes3 []) (some 1) [2, 3] (repOf .none 3) true e s1 ∧ e.fexc = 0)
    ∧ (∃ e s1, LaneGo (lanes3 []) (some 1) [2, 3, 1] (repOf .none 3) true e s1 ∧ e.fexc = 0)
    ∧ (∃ e s1, LaneGo (lanes3 []) (some 1) [2] none true e s1 ∧ e.fexc = 0) :=
  ⟨⟨_, _, laneGo (by decide +kernel), by decide +kernel⟩, ⟨_, _, laneGo (by decide +kernel), by decide +kernel⟩, _, _, laneGo (by decide +kernel), by decide +kernel⟩
/-- The second part: f32 elements 1/1 and 1/0, division by zero enabled: element 1 is the first that traps. -/
def dividing : State := ((lanes3 []).modCur (fun t => { t with vtype := 0x400, fexc := 0x1F })).modVec (fun v => { v with
  regs := (v.regs.set 2 { v.regs[2] with bits := 0x3F8000003F800000#32768 }).set 3 { v.regs[3] with bits := 0x3F800000#32768 } })
theorem witness_VectorFloatInstructions_trap : (∃ e s1, LaneGo dividing (some 1) [2, 3] (repOf .none 3) true e s1)
    ∧ (let e := laneEnv (laneS0 dividing)
       let s1 := laneS1 dividing [2, 3]
       let out (i : Nat) : EOut := fpElem e.vtype (fun t rm x y _ => divVal t rm x y) (srcElem s1 e 2 i)
         (loopElem s1 e 0 1 3 .none (fun k y => (fpElem e.vtype (fun t rm x y _ => divVal t rm x y) (srcElem s1 e 2 k) y 0).bits) i) 0
       Executes e s1.curC.vec 0 1 ∧ (out 1).flags &&& e.fexc ≠ 0 ∧ ∀ j, j < 1 → Executes e s1.curC.vec 0 j → (out j).flags &&& e.fexc = 0) :=
  ⟨⟨_, _, laneGo (by decide +kernel)⟩, by decide +kernel⟩
theorem witness_ConversionResults : ∃ e s1, LaneGo (lanes3 []) (some 1) [2] none true e s1 ∧ e.fexc = 0 :=
  ⟨_, _, laneGo (by decide +kernel), by decide +kernel⟩
/-- ReductionResults: no exception enabled, 8-bit and 16-bit elements. -/
theorem witness_ReductionResults : (∃ e s1, LaneGo (lanes3 []) (some 1) [2, 3] none false e s1 ∧ e.fexc = 0 ∧ e.vl ≠ 0)
    ∧ ∃ e s1, LaneGo ((lanes3 []).modCur (fun t => { t with vtype := 0x200 })) (some 1) [2, 3] none false e s1 ∧ e.fexc = 0 ∧ e.n = 16 :=
  ⟨⟨_, _, laneGo (by decide +kernel), by decide +kernel⟩, _, _, laneGo (by decide +kernel), by decide +kernel⟩

theorem eq_snd {σ α : Type} {x : σ × α} {b : α} (h : x.2 = b) : x = (x.1, b) := Prod.ext rfl h
theorem all_below {n : Nat} {p : Nat → Prop} {q : Nat → Prop} (h : ∀ j, j < n → p j) (hq : ∀ j, q j → j < n) : ∀ j, q j → p j := fun j hj => h j (hq j hj)

/-- The elements of an access at bytes 0x20 up of page 0, translated; the granule poisoned or not. -/
def loading (p : List Nat) : State := { lanes3 [0x20] with wmPoison := p }
theorem witness_VectorLoads : (∃ e s1, LaneGo (loading []) (some 1) [] none true e s1) ∧
    (let e := laneEnv (laneS0 (loading []))
     let s1 := laneS1 (loading []) []
     ∃ s2, genericElems s1 (.vector s1.curCore) (wordOf (.vld 1 1 .b1 0)) .load 1 (256 / sewOf e.vtype)
          (VMode.unit.addr e s1.curC.vec (e.sreg 1) 1) [] (e.elems s1.curC.vec 0 e.vl)
        = (s2, (e.elems s1.curC.vec 0 e.vl).map (fun j => (j, .ok (.wm (0x20 + j), leaf0))))
      ∧ ∀ j, Executes e s1.curC.vec 0 j → (tgtRead s2 (.wm (0x20 + j)) 1).2 = false) :=
  ⟨⟨_, _, laneGo (by decide +kernel)⟩, _, eq_snd (by decide +kernel), all_below (by decide +kernel) (fun _ h => h.2.1)⟩
theorem witness_VectorLoads_poisoned : (∃ e s1, LaneGo (loading [2]) (some 1) [] none true e s1) ∧
    (let e := laneEnv (laneS0 (loading [2]))
     let s1 := laneS1 (loading [2]) []
     ∃ s2, genericElems s1 (.vector s1.curCore) (wordOf (.vld 1 1 .b1 0)) .load 1 (256 / sewOf e.vtype)
          (VMode.unit.addr e s1.curC.vec (e.sreg 1) 1) [] (e.elems s1.curC.vec 0 e.vl)
        = (s2, (e.elems s1.curC.vec 0 e.vl).map (fun j => (j, .ok (.wm (0x20 + j), leaf0))))
      ∧ Executes e s1.curC.vec 0 0 ∧ (tgtRead s2 (.wm (0x20 + 0)) 1).2 = true) :=
  ⟨⟨_, _, laneGo (by decide +kernel)⟩, _, eq_snd (by decide +kernel), by decide +kernel, by decide +kernel⟩
/-- A load of window registers at kernel level: the first of BAR0, at generic page 1. -/
def windowed : State := ({ lanes3 [0x10000] with bars := (base []).bars.set 1 (some 0) }.modCurC (fun c => { c with
    vectorTlb := [entry0, ⟨1, 0, 1, { leaf0 with frame := hostBase }, 0, 8000000⟩] })).modCur
  (fun t => { t with priv := .kernel, vtype := 0x600, vl := 1 })
theorem witness_VectorLoads_window : (∃ e s1, LaneGo windowed (some 1) [] none true e s1) ∧
    (let e := laneEnv (laneS0 windowed)
     let s1 := laneS1 windowed []
     ∃ s2, genericElems s1 (.vector s1.curCore) (wordOf (.vld 1 1 .b8 0)) .load 8 (256 / sewOf e.vtype)
          (VMode.unit.addr e s1.curC.vec (e.sreg 1) 8) [] (e.elems s1.curC.vec 0 e.vl)
        = (s2, (e.elems s1.curC.vec 0 e.vl).map (fun j => (j, .ok (.window 1 (8 * j), { leaf0 with frame := hostBase }))))
      ∧ ∀ j, Executes e s1.curC.vec 0 j → (tgtRead s2 (.window 1 (8 * j)) 8).2 = false) :=
  ⟨⟨_, _, laneGo (by decide +kernel)⟩, _, eq_snd (by decide +kernel), all_below (by decide +kernel) (fun _ h => h.2.1)⟩

/-- VectorLoads, second part: three allocated bytes at 0x200 of the scratchpad, their granule full; with an empty one; a guard address; the slices. -/
def vspad : State := (lanes3 [0x200]).modCurC (fun c => { c with full := [0x20] })
theorem witness_VectorLoads_spad : (∃ e s1, LaneGo vspad (some 1) [] none true e s1) ∧
    (let e := laneEnv (laneS0 vspad)
     let s1 := laneS1 vspad []
     let addr := VMode.unit.addr e s1.curC.vec (e.sreg 1) 1
     let ex (j : Nat) : Prop := Executes e s1.curC.vec 0 j
     (∀ j, ex j → spadPlaceOk false (e.sreg 1) (addr j) 1 j) ∧ (∀ j, ex j → ∀ b, b < 1 → s1.curC.spadPoisoned (spadByte false (e.sreg 1) (addr j) 1 j b) 1 = false)
     ∧ (∀ j, ex j → spadOwn s1 false (e.sreg 1) (addr j) 1 j = true)
     ∧ (∀ j, ex j → ∀ b, b < 1 → s1.curC.isFull (spadByte false (e.sreg 1) (addr j) 1 j b / 16) = true)
     ∧ (∀ k, k < e.vl → maskOn s1.curC.vec 0 k = true → ex k) ∧ ex 0) :=
  ⟨⟨_, _, laneGo (by decide +kernel)⟩, all_below (by unfold spadPlaceOk; decide +kernel) (fun _ h => h.2.1),
    all_below (by decide +kernel) (fun _ h => h.2.1), all_below (by decide +kernel) (fun _ h => h.2.1), all_below (by decide +kernel) (fun _ h => h.2.1),
    by decide +kernel, by decide +kernel⟩
theorem witness_VectorLoads_waits : (∃ e s1, LaneGo (lanes3 [0x200]) (some 1) [] none true e s1) ∧
    (let e := laneEnv (laneS0 (lanes3 [0x200]))
     let s1 := laneS1 (lanes3 [0x200]) []
     Executes e s1.curC.vec 0 0 ∧ (∀ k, k < 0 → ¬ Executes e s1.curC.vec 0 k) ∧ spadOwn s1 false (e.sreg 1) 0x200 1 0 = true
     ∧ s1.curC.isFull (spadByte false (e.sreg 1) 0x200 1 0 0 / 16) = false
     ∧ (∀ k, k < e.vl → maskOn s1.curC.vec 0 k = true → Executes e s1.curC.vec 0 k) ∧ LoadQual.take ≠ .plain) :=
  ⟨⟨_, _, laneGo (by decide +kernel)⟩, by decide +kernel⟩
theorem witness_VectorLoads_slices : (∃ e s1, LaneGo (lanes3 [0]) (some 1) [] none true e s1) ∧
    (let e := laneEnv (laneS0 (lanes3 [0]))
     let s1 := laneS1 (lanes3 [0]) []
     let addr := VMode.unit.addr e s1.curC.vec (e.sreg 1) 1
     (∀ j, Executes e s1.curC.vec 0 j → spadPlaceOk true (e.sreg 1) (addr j) 1 j)
     ∧ ∀ j, Executes e s1.curC.vec 0 j → spadOwn s1 true (e.sreg 1) (addr j) 1 j = false) :=
  ⟨⟨_, _, laneGo (by decide +kernel)⟩, all_below (by unfold spadPlaceOk; decide +kernel) (fun _ h => h.2.1), all_below (by decide +kernel) (fun _ h => h.2.1)⟩

/-- VectorStores: elements at bytes 0x20 up of page 0; and in the scratchpad. -/
theorem witness_VectorStores : (∃ e s1, LaneGo (lanes3 [0x20]) none [1] none true e s1) ∧
    (let e := laneEnv (laneS0 (lanes3 [0x20]))
     let s1 := laneS1 (lanes3 [0x20]) [1]
     (∃ s2, genericElems s1 (.vector s1.curCore) (wordOf (.vst 1 1 .b1 0)) .store 1 (256 / sewOf e.vtype)
          (VMode.unit.addr e s1.curC.vec (e.sreg 1) 1) [] (e.elems s1.curC.vec 0 e.vl)
        = (s2, (e.elems s1.curC.vec 0 e.vl).map (fun j => (j, .ok (.wm (0x20 + j), leaf0)))))
     ∧ ∀ j, Executes e s1.curC.vec 0 j → ∀ f o, Tgt.wm (0x20 + j) ≠ .window f o) :=
  ⟨⟨_, _, laneGo (by decide +kernel)⟩, ⟨_, eq_snd (by decide +kernel)⟩, by intro j _ f o h; cases h⟩
/-- A window register as the target of an ordered store, and stores to a guard address. -/
theorem witness_VectorStores_window : (∃ e s1, LaneGo windowed none [1] none true e s1) ∧
    (let e := laneEnv (laneS0 windowed)
     let s1 := laneS1 windowed [1]
     (∃ s2, genericElems s1 (.vector s1.curCore) (wordOf (.vst 1 1 .b8 0)) .store 8 (256 / sewOf e.vtype)
          (VMode.unit.addr e s1.curC.vec (e.sreg 1) 8) [] (e.elems s1.curC.vec 0 e.vl)
        = (s2, (e.elems s1.curC.vec 0 e.vl).map (fun j => (j, .ok (.window 1 0, { leaf0 with frame := hostBase })))))
     ∧ Executes e s1.curC.vec 0 0) :=
  ⟨⟨_, _, laneGo (by decide +kernel)⟩, ⟨_, eq_snd (by decide +kernel)⟩, by decide +kernel⟩
theorem witness_VectorStores_guard : (∃ e s1, LaneGo (lanes3 [0x30FF]) none [1] none true e s1) ∧
    (let e := laneEnv (laneS0 (lanes3 [0x30FF]))
     let s1 := laneS1 (lanes3 [0x30FF]) [1]
     let addr := VMode.unit.addr e s1.curC.vec (e.sreg 1) 1
     (∀ j, Executes e s1.curC.vec 0 j → spadPlaceOk false (e.sreg 1) (addr j) 1 j)
     ∧ (Executes e s1.curC.vec 0 0 ∧ spadOwn s1 false (e.sreg 1) (addr 0) 1 0 = true)
     ∧ Executes e s1.curC.vec 0 1 ∧ ¬ (Executes e s1.curC.vec 0 1 ∧ spadOwn s1 false (e.sreg 1) (addr 1) 1 1 = true)) :=
  ⟨⟨_, _, laneGo (by decide +kernel)⟩, all_below (by unfold spadPlaceOk; decide +kernel) (fun _ h => h.2.1), by decide +kernel, by decide +kernel⟩
theorem witness_VectorStores_spad : (∃ e s1, LaneGo (lanes3 [0x200]) none [1] none true e s1) ∧
    (let e := laneEnv (laneS0 (lanes3 [0x200]))
     let s1 := laneS1 (lanes3 [0x200]) [1]
     let addr := VMode.unit.addr e s1.curC.vec (e.sreg 1) 1
     (∀ j, Executes e s1.curC.vec 0 j → spadPlaceOk false (e.sreg 1) (addr j) 1 j)
     ∧ ∀ j, Executes e s1.curC.vec 0 j → spadOwn s1 false (e.sreg 1) (addr j) 1 j = true) :=
  ⟨⟨_, _, laneGo (by decide +kernel)⟩, all_below (by unfold spadPlaceOk; decide +kernel) (fun _ h => h.2.1), all_below (by decide +kernel) (fun _ h => h.2.1)⟩

/-- VectorLoads, second part: a poisoned granule of bytes owned; an earlier part done, with the residue flag set. -/
theorem witness_VectorLoads_spadPoisoned : let s := (lanes3 [0x200]).modCurC (fun c => { c with spadPoison := [0x20] })
    (∃ e s1, LaneGo s (some 1) [] none true e s1) ∧
    (let e := laneEnv (laneS0 s)
     let s1 := laneS1 s []
     Executes e s1.curC.vec 0 0 ∧ spadOwn s1 false (e.sreg 1) 0x200 1 0 = true ∧ s1.curC.spadPoisoned (spadByte false (e.sreg 1) 0x200 1 0 0) 1 = true) :=
  ⟨⟨_, _, laneGo (by decide +kernel)⟩, by decide +kernel⟩
theorem witness_VectorLoads_earlier : let s := ((lanes3 [0x200]).modCur (fun t => { t with vstart := 1 })).modVec (fun v => { v with
      regs := v.regs.set 1 { v.regs[1] with tag := ⟨0x7F800000#32, 0, 9⟩, vpx := 1 } })
    (∃ e s1, LaneGo s (some 1) [] none true e s1) ∧ (let e := laneEnv (laneS0 s)
      let s1 := laneS1 s []
      (e.earlier s1.curC.vec 0 1 = true ∧ (s1.vreg 1).tag.flags.getLsbD 3 = true) ∧ Executes e s1.curC.vec 0 1 ∧ ¬ Executes e s1.curC.vec 0 0) :=
  ⟨⟨_, _, laneGo (by decide +kernel)⟩, by decide +kernel⟩

/-- StreamBindings: a copy block at 0x200 (three bytes at 0 of generic space, to the scratchpad), one with a reserved field, no block. -/
def blockAt (a v : Nat) : State := (lanes3 [a]).modCurC (fun c => { c with spad := Mem.setNum c.spad 0x200 64 v })
def block24 : Nat := (bound24 3).block.toNat
theorem witness_StreamBindings : (∃ e s1, LaneGo (blockAt 0x200 block24) none [] none false e s1) ∧
    (let e := laneEnv (laneS0 (blockAt 0x200 block24))
     let s1 := laneS1 (blockAt 0x200 block24) []
     let b := BitVec.ofNat 512 (Mem.num s1.curC.spad 0x200 64)
     (e.sreg 1).toNat = 0x200 ∧ (s1.guardRead 0x200 64).2.2 = false ∧ (∀ i, i < 64 → inAllocs s1.curAllocs (0x200 + i) = true ∧ NatSet.has s1.curC.spadPoison ((0x200 + i) / 16) = false)
     ∧ ¬ (blkReserved b = true ∨ blkFold b ≠ 0 ∨ blkDspace b ≠ 0 ∨ blkBits b 8 0 57 ≠ 0) ∧ blkBounded b = false ∧ blkRangeTrap b false = none)
    ∧ (∃ e s1, LaneGo (blockAt 0x201 0) none [] none false e s1) ∧ (∃ e s1, LaneGo (blockAt 0x200 (2 ^ 128 - 1)) none [] none false e s1)
    ∧ ((laneEnv (laneS0 (blockAt 0x201 0))).sreg 1).toNat % 64 ≠ 0
    ∧ blkDspace (BitVec.ofNat 512 (Mem.num (laneS1 (blockAt 0x200 (2 ^ 128 - 1)) []).curC.spad 0x200 64)) ≠ 0
    ∧ (∃ e s1, LaneGo (streamed 3) none [] none false e s1) ∧ (laneS1 (streamed 3) []).curC.vec.bound 2 = none
    ∧ (laneS1 (streamed 3) []).curC.vec.binds[0] = some (bound24 3) :=
  ⟨⟨_, _, laneGo (by decide +kernel)⟩, by decide +kernel, ⟨_, _, laneGo (by decide +kernel)⟩, ⟨_, _, laneGo (by decide +kernel)⟩, by decide +kernel,
    by decide +kernel, ⟨_, _, laneGo (by decide +kernel)⟩, by decide +kernel, by decide +kernel⟩
/-- StreamBindings: the bounds of the address checks; a source that leaves canonical space; a sidecar read, and one that does not translate. -/
theorem witness_StreamBindings_bounds : let go (a : Nat) : Prop := (laneOk (lanes3 [a]) none [] none false = true ∧ ((laneEnv (laneS0 (lanes3 [a]))).sreg 1).toNat = a)
    (go 0x400000 ∧ 0x400000 % 64 = 0 ∧ 0x400000 < 0x400000 + 64) ∧ (go 0x3FFFC0 ∧ 0x3FFFC0 % 64 = 0 ∧ 0x3FFFC0 + 64 ≤ 0x400000 ∧ 0x380000 < 0x3FFFC0 + 64)
    ∧ (go 0x380000 ∧ 0x380000 % 64 = 0 ∧ 0x380000 + 64 ≤ 0x400000 ∧ 0x380000 < 0x380000 + 64) ∧ go 0x37FFC0 ∧ 0x37FFC0 + 64 ≤ 0x380000 := by decide +kernel
theorem witness_StreamBindings_blocks :
    (let s := blockAt 0x200 (block24 + 2 ^ 56 - 1)
     let b := BitVec.ofNat 512 (leNat ((laneS1 s []).guardRead 0x200 64).2.1)
     laneOk s none [] none false = true ∧ ¬ (blkReserved b = true ∨ blkFold b ≠ 0 ∨ blkDspace b ≠ 0 ∨ blkBits b 8 0 57 ≠ 0)
     ∧ (blkRangeTrap b false).isSome = true)
    ∧ (let s := blockAt 0x200 (block24 + 2 ^ 122 + 8)
     let s2 := ((laneS1 s []).guardRead 0x200 64).1
     let b := BitVec.ofNat 512 (leNat ((laneS1 s []).guardRead 0x200 64).2.1)
     laneOk s none [] none false = true ∧ ¬ (blkReserved b = true ∨ blkFold b ≠ 0 ∨ blkDspace b ≠ 0 ∨ blkBits b 8 0 57 ≠ 0)
     ∧ blkBounded b = true ∧ blkRangeTrap b false = none ∧ (sidecarRead s2 s2.curCore s2.curReq b []).2.toOption.any (fun x => x.1 == 0 && x.2.1 == none) = true)
    ∧ (let s := blockAt 0x200 (block24 + 2 ^ 122 + 0x50008)
     let s2 := ((laneS1 s []).guardRead 0x200 64).1
     let b := BitVec.ofNat 512 (leNat ((laneS1 s []).guardRead 0x200 64).2.1)
     laneOk s none [] none false = true ∧ ¬ (blkReserved b = true ∨ blkFold b ≠ 0 ∨ blkDspace b ≠ 0 ∨ blkBits b 8 0 57 ≠ 0)
     ∧ blkBounded b = true ∧ blkRangeTrap b false = none
     ∧ errOf (sidecarRead s2 s2.curCore s2.curReq b []).2 = some (.fault 2 1, 0x50000)) := by decide +kernel
theorem witness_StreamBindings_pop : (bound24 3).held = false ∧ (bound24 3).popped + 3 ≤ blkCount (bound24 3).block ∧ blkEs (bound24 3).block = 1
    ∧ ((streamed 3).core 0).vec.binds[0] = some (bound24 3) ∧ ((streamed 3).core 0).vec.holder = some 0 ∧ min 3 (blkCount (bound24 3).block - 0) ≠ 0
    ∧ ((streamed 3).thr 0 0).vl.toNat = 3 ∧ (bound24 3).ahead.length + 3 ≤ 2 * 3 := by decide +kernel
theorem witness_StreamBindings_read : ∃ s1 pages, boxReadRun (streamed 3) (streamed 3).curCore ⟨1, 0, .user, 1⟩ (bound24 3).block [] 0 3
    = (s1, .ok ([0, 0, 0], none, pages)) := by
  obtain ⟨s, b, h, hb⟩ := exists_okS (x := boxReadRun (streamed 3) (streamed 3).curCore ⟨1, 0, .user, 1⟩ (bound24 3).block [] 0 3)
    (fun r => r.1 == [0, 0, 0] && r.2.1 == none) (by decide +kernel)
  obtain ⟨x, y, z⟩ := b
  simp only [Bool.and_eq_true, beq_iff_eq] at hb
  exact ⟨s, z, by rw [h, hb.1, hb.2]⟩

/-- SpillsAndTags: an aligned allocated frame holding a good header, and a bad one; a misaligned frame, one beyond the end. -/
theorem witness_SpillsAndTags : (∃ e s1, LaneGo (lanes3 [0x200]) none [] none false e s1) ∧
    (let e := laneEnv (laneS0 (lanes3 [0x200]))
     let s1 := laneS1 (lanes3 [0x200]) []
     let m := s1.curC.spad
     (e.sreg 1).toNat % 32 = 0 ∧ (e.sreg 1).toNat + 4128 ≤ 0x380000 ∧ s1.curC.vec.bound 2 = none
     ∧ debugStop s1 (sewOf e.vtype) e.vl = none ∧ debugStop s1 (2 ^ (Mem.num m (0x200 + 4) 2 / 2 ^ 9 % 4)) (Mem.num m 0x200 4) = none
     ∧ ¬ (vtypeImageOk (Mem.num m (0x200 + 4) 2) = false ∨ Mem.num m (0x200 + 7) 1 ≠ 0 ∨ Mem.num m (0x200 + 16) 16 ≠ 0
         ∨ 4096 < Mem.num m 0x200 4 * 2 ^ (Mem.num m (0x200 + 4) 2 / 2 ^ 9 % 4)))
    ∧ (0x210 % 32 ≠ 0 ∧ (0x3FFFE0 % 32 = 0 ∧ 0x400000 < 0x3FFFE0 + 4128))
    ∧ vtypeImageOk (Mem.num (blockAt 0x200 (2 ^ 512 - 1)).curC.spad (0x200 + 4) 2) = false :=
  ⟨⟨_, _, laneGo (by decide +kernel)⟩, by decide +kernel, by decide, by decide +kernel⟩
theorem witness_SpillsAndTags_bad : let s := blockAt 0x200 (2 ^ 512 - 1)
    laneOk s none [] none false = true ∧ vtypeImageOk (leNat ((((laneS1 s []).guardRead 0x200 32).2.1.drop 4).take 2)) = false
    ∧ (laneOk (streamedAt 0x20000) none [] none false = true ∧ (laneS1 (streamedAt 0x20000) []).curC.vec.bound 24 ≠ none) := by decide +kernel
/-- SpillsAndTags: the tag of a window register, of a poisoned word, and a sidecar outside the allocations. -/
theorem witness_SpillsAndTags_tagPlaces :
    (let s := windowed.modCur (fun t => { t with sregs := t.sregs.set 1 0x10008 })
     let s1 := laneS1 s []
     let e := laneEnv (laneS0 s)
     laneOk s (some 1) [] none false = true ∧ laneOk s none [] none false = true ∧ canonical (e.sreg 1 - 8) = true ∧ (e.sreg 1 - 8).toNat % 8 = 0
     ∧ (∃ s2, translate s1 (.vector s1.curCore) s1.curReq .load (e.sreg 1 - 8) true = (s2, .ok (.window 1 0, { leaf0 with frame := hostBase })))
     ∧ (∃ s2, translate s1 (.vector s1.curCore) s1.curReq .store (e.sreg 1 - 8) true = (s2, .ok (.window 1 0, { leaf0 with frame := hostBase })))
     ∧ (0 : Nat) % 8 = 0 ∧ (windowLevels 1 0).1.le .kernel = true ∧ (windowLevels 1 0).2 = some .kernel ∧ Priv.kernel.le .kernel = true)
    ∧ (let s := { lanes3 [0x208] with wmPoison := [0x20] }
     let s1 := laneS1 s []
     laneOk s (some 1) [] none false = true
     ∧ ∃ s2, translate s1 (.vector s1.curCore) s1.curReq .load 0x200 true = (s2, .ok (.wm 0x200, leaf0)) ∧ (tgtRead s2 (.wm 0x200) 8).2 = true)
    ∧ (let s := lanes3 [0x3108]
     let s1 := laneS1 s []
     laneOk s none [] none false = true ∧ 0x3100 < 0x380000 ∧ 0x3100 % 8 = 0 ∧ ¬ ∀ i, i < 8 → inAllocs s1.curAllocs (0x3100 + i) = true)
    ∧ ((laneS1 (blockAt 0x208 0) []).guardRead 0x200 8).2.2 = false :=
  ⟨⟨by decide +kernel, by decide +kernel, by decide +kernel, by decide +kernel, ⟨_, eq_ok (by decide +kernel)⟩, ⟨_, eq_ok (by decide +kernel)⟩, by decide +kernel⟩,
   ⟨by decide +kernel, _, eq_ok (by decide +kernel), by decide +kernel⟩, by decide +kernel, by decide +kernel⟩
theorem witness_SpillsAndTags_frame : let s1 := laneS1 (lanes3 [0x200]) []
    ∀ i, i < 4128 → inAllocs s1.curAllocs (0x200 + i) = true ∧ NatSet.has s1.curC.spadPoison ((0x200 + i) / 16) = false := by
  have h : (laneS1 (lanes3 [0x200]) []).curAllocs = [⟨0x100, 0x3000, false⟩, ⟨0x100, 0x100, true⟩] := by decide +kernel
  have h2 : (laneS1 (lanes3 [0x200]) []).curC.spadPoison = [] := by decide +kernel
  intro s1 i hi
  refine ⟨?_, by show NatSet.has (laneS1 (lanes3 [0x200]) []).curC.spadPoison _ = false; rw [h2]; rfl⟩
  show inAllocs (laneS1 (lanes3 [0x200]) []).curAllocs _ = true
  rw [h]
  simp [inAllocs]
  omega
theorem witness_SpillsAndTags_tags : (∃ e s1, LaneGo (lanes3 [0x208]) (some 1) [] none false e s1)
    ∧ (∃ e s1, LaneGo (lanes3 [0x208]) (some 1) [2] none false e s1) ∧ (∃ e s1, LaneGo (lanes3 [0x208]) none [] none false e s1)
    ∧ (let s1 := laneS1 (lanes3 [0x208]) []
       let e := laneEnv (laneS0 (lanes3 [0x208]))
       (e.sreg 1 - 8).toNat = 0x200
       ∧ (∀ i, i < 8 → inAllocs s1.curAllocs (0x200 + i) = true ∧ NatSet.has s1.curC.spadPoison ((0x200 + i) / 16) = false)
       ∧ canonical (e.sreg 1 - 8) = true ∧ (e.sreg 1 - 8).toNat % 8 = 0
       ∧ (∃ s2, translate s1 (.vector s1.curCore) s1.curReq .load 0x200 true = (s2, .ok (.wm 0x200, leaf0)))
       ∧ (∃ s2, translate s1 (.vector s1.curCore) s1.curReq .store 0x200 true = (s2, .ok (.wm 0x200, leaf0)))) :=
  ⟨⟨_, _, laneGo (by decide +kernel)⟩, ⟨_, _, laneGo (by decide +kernel)⟩, ⟨_, _, laneGo (by decide +kernel)⟩, by decide +kernel, by decide +kernel,
    by decide +kernel, by decide +kernel, ⟨_, eq_ok (by decide +kernel)⟩, _, eq_ok (by decide +kernel)⟩

/-- BlocksAndLanes: no block and two good words fetched; a block of the thread stopped at this vf; one of another vf. -/
theorem witness_BlocksAndLanes :
    (let s := { lanes3 [] with wm := Mem.setBytes [] 0x1000 (leBytes 4 ((encode (.vadd 1 2 3 .none 0)).getD 0).toNat ++ leBytes 4 ((encode .vpstop).getD 0).toNat) }
     acquireLanes s = some (laneS0 s) ∧ (laneS0 s).blockRuns = false ∧ (laneS0 s).curC.vec.block = none
     ∧ (∃ s1, fetchWords (laneS0 s) ((laneS0 s).cur.pc + BitVec.ofInt 64 (4 * (0 : BitVec 13).toInt)) 2 = (s1, .ok [(encode (.vadd 1 2 3 .none 0)).getD 0, (encode .vpstop).getD 0]))
     ∧ (∀ p, p < 2 → blockWordOk 2 p ([(encode (.vadd 1 2 3 .none 0)).getD 0, (encode .vpstop).getD 0].getD p 0) = true)
     ∧ blockWordOk 2 0 0 = false ∧ (laneS0 s).cur.vl ≠ 0 ∧ (laneS0 (base [])).cur.vl = 0)
    ∧ (let s := blocked [0, 0] 0 true
       (laneS0 s).blockRuns = false ∧ (laneS0 s).curC.vec.block = some (block3 [0, 0] 0 true) ∧ (block3 [0, 0] 0 true).pc = (laneS0 s).cur.pc
       ∧ (block3 [0, 0] 0 true).tid = (laneS0 s).curTid ∧ (block3 [0, 0] 0 true).tid ≠ 1) :=
  ⟨⟨acq (by decide +kernel), by decide +kernel, by decide +kernel, ⟨_, eq_ok (by decide +kernel)⟩, by decide +kernel, by decide +kernel, by decide +kernel,
    by decide +kernel⟩, by decide +kernel⟩
/-- The words of a vf fetched: where a stopped block has lost its own, where the thread has a block of another vf, with VL = 0; a word
that does not translate. -/
def codeAt (s : State) : State := { s with wm := Mem.setBytes [] 0x1000 (leBytes 4 ((encode (.vadd 1 2 3 .none 0)).getD 0).toNat ++ leBytes 4 ((encode .vpstop).getD 0).toNat) }
theorem witness_BlocksAndLanes_fetch :
    let ws := [(encode (.vadd 1 2 3 .none 0)).getD 0, (encode .vpstop).getD 0]
    (let s := codeAt (blocked [] 0 true)
     acquireLanes s = some (laneS0 s) ∧ (laneS0 s).blockRuns = false ∧ (laneS0 s).curC.vec.block = some (block3 [] 0 true)
     ∧ (block3 [] 0 true).pc = (laneS0 s).cur.pc ∧ (block3 [] 0 true).tid = (laneS0 s).curTid ∧ (block3 [] 0 true).words = []
     ∧ ∃ s1, fetchWords (laneS0 s) ((laneS0 s).cur.pc + BitVec.ofInt 64 (4 * (0 : BitVec 13).toInt)) 2 = (s1, .ok ws))
    ∧ (let s := codeAt ((lanes3 []).modVec (fun v => { v with block := some { block3 [0] 0 true with pc := 0x1010 } }))
     acquireLanes s = some (laneS0 s) ∧ (laneS0 s).blockRuns = false ∧ (laneS0 s).curC.vec.block = some { block3 [0] 0 true with pc := 0x1010 }
     ∧ { block3 [0] 0 true with pc := 0x1010 }.pc ≠ (laneS0 s).cur.pc
     ∧ ∃ s1, fetchWords (laneS0 s) ((laneS0 s).cur.pc + BitVec.ofInt 64 (4 * (0 : BitVec 13).toInt)) 2 = (s1, .ok ws))
    ∧ (let s := codeAt (base [])
     acquireLanes s = some (laneS0 s) ∧ (laneS0 s).blockRuns = false ∧ (laneS0 s).curC.vec.block = none ∧ (laneS0 s).cur.vl = 0
     ∧ ∃ s1, fetchWords (laneS0 s) ((laneS0 s).cur.pc + BitVec.ofInt 64 (4 * (0 : BitVec 13).toInt)) 2 = (s1, .ok ws))
    ∧ (let s := (lanes3 []).modCur (fun t => { t with pc := 0x50000 })
     acquireLanes s = some (laneS0 s) ∧ (laneS0 s).blockRuns = false ∧ (laneS0 s).curC.vec.block = none
     ∧ ∃ s1 k, fetchWords (laneS0 s) ((laneS0 s).cur.pc + BitVec.ofInt 64 (4 * (0 : BitVec 13).toInt)) 2 = (s1, .error k)) := by
  intro ws
  refine ⟨⟨acq (by decide +kernel), by decide +kernel, by decide +kernel, by decide +kernel, by decide +kernel, by decide +kernel, _, eq_ok (by decide +kernel)⟩,
    ⟨acq (by decide +kernel), by decide +kernel, by decide +kernel, by decide +kernel, _, eq_ok (by decide +kernel)⟩,
    ⟨acq (by decide +kernel), by decide +kernel, by decide +kernel, by decide +kernel, _, eq_ok (by decide +kernel)⟩,
    acq (by decide +kernel), by decide +kernel, by decide +kernel, ?_⟩
  have h : (fetchWords (laneS0 ((lanes3 []).modCur (fun t => { t with pc := 0x50000 }))) 0x50000 2).2.toOption = none := by decide +kernel
  cases hx : fetchWords (laneS0 ((lanes3 []).modCur (fun t => { t with pc := 0x50000 }))) 0x50000 2 with
  | mk a r => cases r with
    | error k => exact ⟨a, k, hx⟩
    | ok l => rw [hx] at h; cases h
/-- A trigger at the block's next word; no trigger; virtual processors that part at a branch. -/
theorem witness_BlocksAndLanes_trigger :
    (let s := (blocked [0] 0 false).modCurC (fun c => { c with triggers := c.triggers.set 0 ⟨0x1000, 1⟩ })
     (block3 [0] 0 false).passes = false ∧ s.fatal = false ∧ (s.part (s.corePart 0)).halt = 0 ∧ (block3 [0] 0 false).turn 0 ≠ []
     ∧ ∃ x ∈ (s.core 0).triggers.toList, x.control.getLsbD 0 = true ∧ x.control.getLsbD 13 = false
        ∧ x.addr = (block3 [0] 0 false).base + BitVec.ofNat 64 (4 * 0))
    ∧ (let s := blocked [0] 0 false
       s.fatal = false ∧ (s.part (s.corePart 0)).halt = 0 ∧ (s.core 0).step = false ∧ (∀ x ∈ (s.core 0).triggers.toList, x.control.getLsbD 0 = false)
       ∧ (block3 [0] 0 false).vps.all (fun v => v.stopped || v.pos == 0) = true) := by decide +kernel
/-- A block's turn at vpstop, vpjmp and vpbr; a join with and without words left; a release and an acquisition waited for. -/
theorem witness_BlocksAndLanes_turns :
    (let ws := [(encode .vpstop).getD 0, (encode (.vpjmp 1)).getD 0, (encode (.vpbr 3 false 0x1FFE)).getD 0]
     ∀ p, p < 3 → (let b := block3 ws p false
       ((blocked ws p false).core 0).vec.block = some b ∧ b.stopped = false ∧ ((blocked ws p false).core 0).halted = false ∧ b.turn 0 = [0, 1, 2]
       ∧ (∀ j, j ∈ b.turn 0 → b.vps[j]? = some ⟨p, false⟩)))
    ∧ decodeLow ((encode .vpstop).getD 0) = .ok .vpstop ∧ decodeLow ((encode (.vpjmp 1)).getD 0) = .ok (.vpjmp 1)
    ∧ decodeLow ((encode (.vpbr 3 false 0x1FFE)).getD 0) = .ok (.vpbr 3 false 0x1FFE) ∧ jumpIn 3 1 1 = some 2 ∧ jumpIn 3 2 0x1FFE = some 0 :=
  ⟨by decide +kernel, ok_of (by decide +kernel), ok_of (by decide +kernel), ok_of (by decide +kernel), by decide +kernel, by decide +kernel⟩
theorem witness_BlocksAndLanes_events :
    (let b := { block3 [0] 0 false with vps := List.replicate 3 ⟨0, true⟩ }
     b.stopped = false ∧ (∀ v, v ∈ b.vps → v.stopped = true) ∧ b.dying = 0 ∧ b.tid = (lanes3 []).curTid
     ∧ (lanes3 []).fatal = false ∧ ((lanes3 []).core 0).halted = false ∧ ((lanes3 []).part ((lanes3 []).corePart 0)).halt = 0
     ∧ ((lanes3 []).core 0).step = false)
    ∧ (let s := (lanes3 []).modVec (fun v => { v with block := some { block3 [0] 0 false with vps := List.replicate 3 ⟨0, true⟩, dying := 4 } })
       s.curC.vec.block = some { block3 [0] 0 false with vps := List.replicate 3 ⟨0, true⟩, dying := 4 }
       ∧ (4 : BitVec 48).getLsbD 2 = true ∧ (block3 [0] 0 false).writes.getLsbD 1 = true)
    ∧ (let s := (blocked [0] 0 false).modCur (fun t => { t with relPending := true })
       acquireLanes (blocked [0] 0 true) ≠ none ∧ (laneS0 (blocked [0] 0 true)).curC.vec.block.toList ≠ []
       ∧ (∃ b ∈ (s.core 0).vec.block.toList ++ (s.core 0).vec.parked, b.tid = 0)
       ∧ acquireLanes (lanes3 []) ≠ none ∧ (lanes3 []).curC.vec.holder = some (lanes3 []).curTid ∧ (base []).curC.vec.holder ≠ some (base []).curTid)
    ∧ (let s := ((lanes3 []).modCur (fun t => { t with relPending := true })).modThr 0 1 (fun t => { t with wait := .lanes, vecSaved := some (base []).curC.vec })
       (s.thr 0 0).relPending = true ∧ (∀ b ∈ (s.core 0).vec.block.toList ++ (s.core 0).vec.parked, b.tid ≠ 0) ∧ (1 : Tid) ≠ 0
       ∧ (s.core 0).vec.holder = some 0 ∧ (s.thr 0 1).wait = .lanes ∧ (s.thr 0 1).vecSaved ≠ none)
    ∧ (∃ v, v ∈ (block3 [0] 0 false).vps ∧ v.stopped = false)
    ∧ (let s := (lanes3 []).modCur (fun t => { t with relPending := true })
       (s.thr 0 0).relPending = true ∧ (s.core 0).vec.block = none ∧ (s.core 0).vec.holder = some 0)
    ∧ (let s := (base []).modCur (fun t => { t with wait := .lanes })
       (s.thr 0 0).wait = .lanes ∧ (s.thr 0 0).relPending = false ∧ (s.core 0).vec.holder = none ∧ (s.thr 0 0).vecSaved = none) := by decide +kernel
/-- RepeatFrames: one addition at 0x1004, run once; a word that may not be captured; a loop end at the frame; a state past the frame. -/
theorem witness_RepeatFrames :
    (let s := { lanes3 [] with wm := Mem.setBytes [] 0x1004 (leBytes 4 ((encode (.vadd 1 2 3 .none 0)).getD 0).toNat) }
     s.cur.le = 0 ∧ (∃ s1, fetchWords s (s.cur.pc + 4) 1 = (s1, .ok [(encode (.vadd 1 2 3 .none 0)).getD 0])
        ∧ ∃ e s2, LaneGo (s1.modCur (fun t => { t with rptst := BitVec.ofNat 64 (1 + 2 * 0 + 32 * 0) })) (some 1) [2, 3] (repOf .none 3) true e s2)
     ∧ s.cur.rptst.getLsbD 0 = false)
    ∧ captured ((encode (.vadd 1 2 3 .none 0)).getD 0) = some (.vadd 1 2 3 .none 0) ∧ (Instr.vadd 1 2 3 .none 0).wellFormed = true
    ∧ stagger 1 1 1 0 (.vadd 1 2 3 .none 0) = some (.vadd 1 2 3 .none 0) ∧ captured 0 = none
    ∧ ((looped 1).cur.le ≠ 0 ∧ (looped 1).cur.loopOff = false ∧ (looped 1).cur.le = (looped 1).cur.pc)
    ∧ (let s := (base []).modCur (fun t => { t with rptst := BitVec.ofNat 64 (1 + 2 * 1 + 32 * 0) })
       s.cur.rptst = BitVec.ofNat 64 (1 + 2 * 1 + 32 * 0) ∧ 0 + 1 ≤ 1 ∧ s.cur.le = 0) :=
  ⟨⟨by decide +kernel, ⟨_, eq_ok (by decide +kernel), _, _, laneGo (by decide +kernel)⟩, by decide +kernel⟩, by decide +kernel⟩

/-- RepeatFrames: a frame captured earlier; the lanes held elsewhere; a word at le, one whose second execution is illegal, one not fetched. -/
theorem witness_RepeatFrames_more :
    (let s := (lanes3 []).modCur (fun t => { t with rptst := 1, frame := [0, (encode (.vadd 1 2 3 .none 0)).getD 0] })
     (∃ h, s.cur.frame = h :: [(encode (.vadd 1 2 3 .none 0)).getD 0]) ∧ (∃ e s2, LaneGo s (some 1) [2, 3] (repOf .none 3) true e s2)
     ∧ s.cur.rptst = BitVec.ofNat 64 (1 + 2 * 0 + 32 * 0)
     ∧ acquireLanes (s.modVec (fun v => { v with holder := some 1 })) = none)
    ∧ (let s := (base []).modCur (fun t => { t with le := 0x1004 })
       ¬ (s.cur.le ≠ 0 ∧ s.cur.loopOff = false ∧ s.cur.le = s.cur.pc) ∧ s.cur.le ≠ 0 ∧ s.cur.loopOff = false ∧ s.cur.le = s.cur.pc + BitVec.ofNat 64 (4 + 4 * 0))
    ∧ (let w := (encode (.vcvt 2 1 .bf16 false .dflt 0 .f32)).getD 0
       captured w = some (.vcvt 2 1 .bf16 false .dflt 0 .f32) ∧ (stagger 0 1 0 0 (.vcvt 2 1 .bf16 false .dflt 0 .f32)) = some (.vcvt 2 1 .bf16 false .dflt 0 .f32)
       ∧ (Instr.vcvt 2 1 .bf16 false .dflt 0 .f32).wellFormed = true
       ∧ stagger 0 1 0 1 (.vcvt 2 1 .bf16 false .dflt 0 .f32) = some (.vcvt 2 2 .bf16 false .dflt 0 .f32) ∧ (Instr.vcvt 2 2 .bf16 false .dflt 0 .f32).wellFormed = false)
    ∧ (let s := (lanes3 []).modCur (fun t => { t with pc := 0x50000 })
       s.cur.frame = [] ∧ s.cur.le = 0 ∧ (fetchWords s (s.cur.pc + 4) 1).2.toOption = none) :=
  ⟨⟨⟨_, rfl⟩, ⟨_, _, laneGo (by decide +kernel)⟩, by decide +kernel, by rfl⟩, by decide +kernel, by decide +kernel, by decide +kernel⟩

/-- Slot 2 of core 0 claimed by thread 0's context, holding `data` in its rows, of a type. -/
def slotted (l : List Nat) (ty data : Nat) : State := (base l).modMat (fun m => { m with slots := m.slots.set 2 { m.slots[2] with
  claimed := true, owner := (base l).cur.ctxOf, type := BitVec.ofNat 4 ty, data := Vector.replicate 128 (BitVec.ofNat 2048 data) } })
/-- MatrixSetup: a re-issue due, another thread's fill under way, a bound report due. -/
theorem witness_MatrixSetup_first : let s := base []
    (s.modMat (fun m => { m with pendReissue := some (0, 0) })).curC.mat.pendReissue ≠ none
    ∧ (∃ x, (s.modMat (fun m => { m with filling := some ⟨1, 2, []⟩ })).curC.mat.filling = some x ∧ x.tid ≠ s.curTid)
    ∧ (s.curC.mat.pendReissue = none ∧ s.curC.mat.filling = none
       ∧ (takeBound (s.modCur (fun t => { t with boundRep := some ⟨0, 0, 0, false, false, false⟩ }))).isSome = true) := by decide +kernel
/-- Two slots of microscaled data for a wide shape; and the last slot. -/
def wideSlots (second : Bool) (ty2 : Nat) (p : Slot) : State :=
  let p2 : Slot := p + 1
  let c := (base []).cur.ctxOf
  let s := (base []).modMat (fun m => { m with slots := m.slots.set p { m.slots[p] with claimed := true, owner := c, type := 15 } })
  let s := s.modMat (fun m => { m with slots := m.slots.set p2 { m.slots[p2] with claimed := second, owner := c, type := BitVec.ofNat 4 ty2 } })
  s.modCur (fun t => { t with msh := 4 + 4 * 2 ^ 16 + 512 * 2 ^ 32 })
theorem witness_MatrixSetup_wide :
    (nextSlot 2 = some 3 ∧ nextSlot 15 = none ∧ elemOfCode 15 = .ds8)
    ∧ (let u := (wideSlots true 15 2).curC.mat
       256 < min ((wideSlots true 15 2).cur.msh.toNat / 2 ^ 32 % 2 ^ 16) (latchCap .ds8) ∧ u.slots[(2 : Slot)].claimed = true
       ∧ u.slots[(3 : Slot)].claimed = true ∧ u.slots[(2 : Slot)].busy = false ∧ u.slots[(3 : Slot)].busy = false ∧ u.slots[(3 : Slot)].type = u.slots[(2 : Slot)].type)
    ∧ (wideSlots false 15 2).curC.mat.slots[(3 : Slot)].claimed = false
    ∧ (wideSlots true 8 2).curC.mat.slots[(3 : Slot)].type ≠ (wideSlots true 8 2).curC.mat.slots[(2 : Slot)].type
    ∧ ((wideSlots true 15 3).curC.mat.slots[(3 : Slot)].claimed = true ∧ (3 : Slot).val % 2 = 1)
    ∧ (let u := (wideSlots false 15 15).curC.mat; u.slots[(15 : Slot)].claimed = true ∧ u.slots[(15 : Slot)].busy = false) := by decide +kernel
/-- MatrixSetup: nothing due first; a free tile and one of another context; slots that are another's, and one's own; a fill's operands. -/
theorem witness_MatrixSetup :
    (let s := slotted [4, 2 ^ 16] 8 0
     s.curC.mat.pendReissue = none ∧ s.cur.boundRep = none ∧ 2 ^ 16 ≤ (s.sreg 2).toNat ∧ (s.sreg 1).toNat < 2 ^ 16
     ∧ (s.curC.mat.slots[2].claimed = true ∧ s.curC.mat.slots[2].owner = s.cur.ctxOf) ∧ s.curC.mat.slots[2].busy = false
     ∧ ¬ (s.curC.mat.slots[3].claimed = true ∧ s.curC.mat.slots[3].owner = s.cur.ctxOf) ∧ elemOfCode s.curC.mat.slots[2].type.toNat ≠ .ds8
     ∧ s.curC.mat.acown[(0 : Tile)] = 0
     ∧ (let t := s.modMat (fun m => { m with acown := m.acown.set 1 7 }); ¬ (t.curC.mat.acown[(1 : Tile)] = 0 ∨ t.curC.mat.acown[(1 : Tile)] = t.cur.ctxOf))
     ∧ (let t := s.modMat (fun m => { m with slots := m.slots.set 2 { m.slots[2] with owner := 7 } })
        ∃ i : Slot, (t.sreg 1).toNat.testBit i.val = true ∧ t.curC.mat.slots[i].claimed = true ∧ t.curC.mat.slots[i].owner ≠ t.cur.ctxOf)) := by decide +kernel
theorem witness_MatrixSetup_bread : (∃ e s1, LaneGo (lanes3 []) (some 1) [] none false e s1) ∧ (lanes3 []).curC.mat.acown[(0 : Tile)] = 0
    ∧ (lanes3 []).curC.mat.pendReissue = none ∧ (lanes3 []).cur.boundRep = none := ⟨⟨_, _, laneGo (by decide +kernel)⟩, by decide +kernel⟩
/-- One row of 256 bytes at 0x200, pitch 256. -/
theorem witness_MatrixSetup_fill : let s := slotted [0x200, 256 + 2 ^ 22] 8 0
    let w := (s.sreg 2).toNat
    (w / 2 ^ 30 % 4 = 0 ∧ w / 2 ^ 54 = 0 ∧ w % 2 ^ 22 % 16 = 0 ∧ 256 ≤ w % 2 ^ 22 ∧ 0 < w / 2 ^ 22 % 2 ^ 8 ∧ w / 2 ^ 22 % 2 ^ 8 ≤ 128 ∧ w / 2 ^ 32 % 2 ^ 22 % 16 = 0)
    ∧ (s.sreg 1).toNat % 16 = 0 ∧ w / 2 ^ 22 % 2 ^ 8 = 1 ∧ 0x200 + 256 ≤ 0x380000
    ∧ s.curC.mat.filling = none ∧ ((base [0x200, 255]).sreg 2).toNat % 2 ^ 22 % 16 ≠ 0
    ∧ (∃ i, i < 256 ∧ 0x20 = (0x200 + i) / 16 ∧ inAllocs s.curAllocs (16 * 0x20) = true ∧ s.curC.isFull 0x20 = false)
    ∧ (let t := s.modCurC (fun c => { c with full := (List.range 16).map (fun g => 0x20 + g) }); ∀ i, i < 256 → t.curC.isFull ((0x200 + i) / 16) = true)
    ∧ (∀ i, i < 256 → inAllocs s.curAllocs (0x200 + i) = true ∧ inAllocs s.curAllocs ((0x200 + i) / 16 * 16) = true
        ∧ NatSet.has s.curC.spadPoison ((0x200 + i) / 16) = false ∧ s.curC.isFull ((0x200 + i) / 16) = false) := by decide +kernel
/-- MatrixMultiply: a latched 16-bit type and a slot of it; no latch; a slot of another type. -/
def latched (ty : Nat) : State :=
  let s := slotted [] ty 0
  let l : Latch := ⟨2, false, s.curC.mat.slots[2].gen, 0, s.curC.mat.slots[2].type, 4, 4⟩
  (s.modMat (fun m => { m with array := some ⟨l, m.slots[2], none⟩ })).modCur (fun t => { t with latch := some l, msh := 4 + 4 * 2 ^ 16 + 4 * 2 ^ 32 })
theorem witness_MatrixMultiply : let s := latched 8
    ∃ l arr, s.cur.latch = some l ∧ s.curC.mat.array = some arr ∧ arr.latch = l ∧ elemOfCode l.type.toNat = .bf16 ∧ pairKmax .bf16 .bf16 = some 128
      ∧ min l.kw 128 * 16 ≤ 2048 ∧ s.curC.mat.slots[2].claimed = true ∧ s.curC.mat.slots[2].owner = s.cur.ctxOf ∧ s.curC.mat.slots[2].busy = false
      ∧ s.curC.mat.slots[2].type = BitVec.ofNat 4 (codeOfElem ActType.bf16.elem) ∧ s.curC.mat.slots[2].type ≠ BitVec.ofNat 4 (codeOfElem ActType.i8.elem)
      ∧ s.cur.msh.toNat % 2 ^ 16 = 4 ∧ l.nw = 4 ∧ s.curC.mat.acown[(0 : Tile)] = 0 ∧ s.curC.mat.acown[(1 : Tile)] = 0
      ∧ s.curC.mat.tiles[(0 : Tile)].aext.hi = false ∧ s.curC.mat.tiles[(0 : Tile)].aext.lo = false ∧ s.curC.mat.tiles[(1 : Tile)].aext.hi = false
      ∧ s.curC.mat.tiles[(1 : Tile)].aext.lo = false ∧ s.curC.mat.pendReissue = none ∧ s.cur.boundRep = none :=
  ⟨_, _, rfl, rfl, by decide +kernel⟩
/-- A latch of microscaled weights 512 deep and activations of eight bits, that take slots p and p + 1. -/
def wideMul (second : Bool) (ty2 : Nat) (p : Slot) : State :=
  let p2 : Slot := p + 1
  let c := (base []).cur.ctxOf
  let s := (base []).modMat (fun m => { m with slots := m.slots.set p { m.slots[p] with claimed := true, owner := c, type := 12 } })
  let s := s.modMat (fun m => { m with slots := m.slots.set p2 { m.slots[p2] with claimed := second, owner := c, type := BitVec.ofNat 4 ty2 } })
  let l : Latch := ⟨6, false, 0, 0, 15, 512, 4⟩
  (s.modMat (fun m => { m with array := some ⟨l, m.slots[6], none⟩ })).modCur (fun t => { t with latch := some l, msh := 4 + 4 * 2 ^ 16 + 512 * 2 ^ 32 })
/-- MatrixMultiply: no latch; types that do not pair; two slots of activations; a latch that is lost and one that loads again. -/
theorem witness_MatrixMultiply_more :
    ((slotted [] 8 0).cur.latch = none ∧ pairKmax .bf16 .i8 = none)
    ∧ (pairKmax .ds8 .e4m3 = some 512 ∧ 2048 < 512 * ActType.e4m3.elem.bits ∧ nextSlot 2 = some 3 ∧ elemOfCode 15 = .ds8)
    ∧ (let u := (wideMul true 12 2).curC.mat
       u.slots[(2 : Slot)].claimed = true ∧ u.slots[(3 : Slot)].claimed = true ∧ u.slots[(3 : Slot)].busy = false
       ∧ u.slots[(3 : Slot)].type = u.slots[(2 : Slot)].type ∧ u.slots[(2 : Slot)].type = BitVec.ofNat 4 (codeOfElem ActType.e4m3.elem))
    ∧ (wideMul false 12 2).curC.mat.slots[(3 : Slot)].claimed = false
    ∧ (wideMul true 8 2).curC.mat.slots[(3 : Slot)].type ≠ (wideMul true 8 2).curC.mat.slots[(2 : Slot)].type
    ∧ ((wideMul true 12 3).curC.mat.slots[(3 : Slot)].claimed = true ∧ nextSlot 3 = some 4 ∧ (3 : Slot).val % 2 = 1)
    ∧ (let s := (latched 8).modMat (fun m => { m with array := none })
       ∃ l, s.cur.latch = some l ∧ s.curC.mat.array = none ∧ latchValid s.curC.mat s.cur.ctxOf l = true ∧ (s.curC.mat.load l).array ≠ none
         ∧ latchValid (base []).curC.mat s.cur.ctxOf l = false) := by
  refine ⟨by decide +kernel, by decide +kernel, by decide +kernel, by decide +kernel, by decide +kernel, by decide +kernel, _, rfl, by decide +kernel⟩
/-- MatrixMultiply and MatrixResults: tile 0 the high half and tile 1 the low half of a pair; a pending rescale; a tile of another context. -/
def paired : State := (latched 8).modMat (fun m => { m with tiles :=
  (m.tiles.set 0 { m.tiles[0] with aext := ⟨4, 4, true, false, 1⟩, rescale := Vector.replicate 128 0x3F000000#32 }).set 1 { m.tiles[1] with aext := ⟨4, 4, false, true, 0⟩ } })
theorem witness_MatrixMultiply_pair : let u := paired.curC.mat
    (u.tiles[(0 : Tile)].aext.hi = true ∧ u.tiles[(0 : Tile)].aext.lo = false ∧ u.tiles[(0 : Tile)].aext.partner = 1
      ∧ ¬ (u.tiles[(1 : Tile)].aext.hi = true ∧ u.tiles[(1 : Tile)].aext.partner = 0)) ∧ u.tiles[(0 : Tile)].aext.partner ≠ 0
    ∧ u.tiles[(0 : Tile)].rescale[(0 : Fin 128)] ≠ 0x3F800000#32 ∧ 0 < u.tiles[(0 : Tile)].aext.mrows.toNat ∧ 0 < u.tiles[(0 : Tile)].aext.ncols.toNat
    ∧ (u.tiles[(1 : Tile)].aext.hi = false ∧ u.tiles[(1 : Tile)].aext.lo = true)
    ∧ u.acown[(0 : Tile)] = 0 ∧ u.acown[(1 : Tile)] = 0
    ∧ (let v := (paired.modMat (fun m => { m with acown := m.acown.set 1 7 })).curC.mat; ¬ (v.acown[(1 : Tile)] = 0 ∨ v.acown[(1 : Tile)] = paired.cur.ctxOf)) := by
  decide +kernel

/-- MatrixResults: a slot held and two free tiles; a normalised tile; a drain's row in range; a description of one row of no columns at 0x200. -/
theorem witness_MatrixResults : let s := slotted [] 8 0
    (s.curC.mat.pendReissue = none ∧ s.cur.boundRep = none ∧ s.curC.mat.slots[2].claimed = true ∧ s.curC.mat.slots[2].owner = s.cur.ctxOf
      ∧ s.curC.mat.slots[2].busy = false ∧ s.curC.mat.acown[(0 : Tile)] = 0 ∧ s.curC.mat.acown[(1 : Tile)] = 0)
    ∧ (let t := s.modMat (fun m => { m with tiles := m.tiles.set 0 { m.tiles[0] with rescale := Vector.replicate 128 0x3F800000#32 } })
       t.curC.mat.tiles[(0 : Tile)].aext.hi = false ∧ t.curC.mat.tiles[(0 : Tile)].aext.lo = false
       ∧ (∀ m : Fin 128, t.curC.mat.tiles[(0 : Tile)].rescale[m] = 0x3F800000#32) ∧ t.curC.mat.tiles[(0 : Tile)].aext.mrows.toNat ≤ 128
       ∧ t.curC.mat.tiles[(0 : Tile)].aext.ncols.toNat ≤ 128 ∧ t.curC.mat.acown[(0 : Tile)] = 0) := by decide +kernel
theorem witness_MatrixResults_drain : (∃ e s1, LaneGo (lanes3 [127, 128]) (some 1) [] none false e s1) ∧ (lanes3 [127, 128]).curC.mat.pendReissue = none
    ∧ (let e := laneEnv (laneS0 (lanes3 [127, 128])); (e.sreg 1).toNat < 128 ∧ 128 ≤ (e.sreg 2).toNat) ∧ (lanes3 [127, 128]).curC.mat.acown[(0 : Tile)] = 0 :=
  ⟨⟨_, _, laneGo (by decide +kernel)⟩, by decide +kernel⟩
theorem witness_MatrixResults_spad : let s := spadded [0x200] 0x200 16 (0x400 + 127 * 2 ^ 32 + 1 * 2 ^ 48 + 16 * 2 ^ 64)
    let m := s.curC.spad
    let u := s.curC.mat
    let rb := (u.tiles[(0 : Tile)].aext.ncols.toNat * 4 + 15) / 16 * 16
    0x200 % 16 = 0 ∧ 0x200 + 16 ≤ 0x380000 ∧ (∀ i, i < 16 → inAllocs s.curAllocs (0x200 + i) = true ∧ inAllocs s.curAllocs ((0x200 + i) / 16 * 16) = true
      ∧ NatSet.has s.curC.spadPoison ((0x200 + i) / 16) = false)
    ∧ (Mem.num m 0x200 4 < 2 ^ 22 ∧ Mem.num m 0x200 4 % 16 = 0 ∧ Mem.num m (0x200 + 4) 2 ≤ 127 ∧ 0 < Mem.num m (0x200 + 6) 2
      ∧ Mem.num m (0x200 + 4) 2 + Mem.num m (0x200 + 6) 2 ≤ 128 ∧ Mem.num m (0x200 + 8) 4 % 16 = 0 ∧ rb ≤ Mem.num m (0x200 + 8) 4 ∧ Mem.num m (0x200 + 12) 4 = 0)
    ∧ rb = 0 ∧ 8 ≤ 0x400 ∧ (∀ i, i < 8 → inAllocs s.curAllocs (0x3F8 + i) = true) ∧ u.acown[(0 : Tile)] = 0
    ∧ ¬ (0 < Mem.num (base [0x200]).curC.spad (0x200 + 6) 2) := by decide +kernel
/-- An automatic re-issue that may run, one that may not, and none. -/
theorem witness_MatrixResults_reissue :
    (let s := (base []).modMat (fun m => { m with pendReissue := some (0, 0) })
     (s.core 0).mat.pendReissue = some (0, 0) ∧ canReissue (s.core 0).mat (s.thr 0 0).ctxOf 0 = true)
    ∧ (let s := (base []).modMat (fun m => { m with pendReissue := some (0, 0), tiles := m.tiles.set 0 { m.tiles[0] with lost := true } })
       canReissue (s.core 0).mat (s.thr 0 0).ctxOf 0 = false) ∧ ((base []).core 0).mat.pendReissue = none := by decide +kernel

/-- MatrixResults: a drain's row out of range, a tile of another context, a description that is misaligned or names memory not allocated. -/
theorem witness_MatrixResults_traps :
    (laneOk (lanes3 [127, 128]) (some 1) [] none false = true
      ∧ laneOk ((lanes3 [127, 128]).modMat (fun m => { m with acown := m.acown.set 0 7 })) (some 1) [] none false = true)
    ∧ (let s := (base [0x208]).modMat (fun m => { m with acown := m.acown.set 0 7 })
       (s.sreg 1).toNat % 16 ≠ 0 ∧ (s.sreg 1).toNat + 16 ≤ 0x400000 ∧ ¬ (s.curC.mat.acown[(0 : Tile)] = 0 ∨ s.curC.mat.acown[(0 : Tile)] = s.cur.ctxOf))
    ∧ (let s := spadded [0x200] 0x200 16 (0x3100 + 127 * 2 ^ 32 + 1 * 2 ^ 48 + 16 * 2 ^ 64)
       let bs := (s.guardRead 0x200 16).2.1
       leNat ((bs.drop 0).take 4) = 0x3100 ∧ inAllocs s.curAllocs (16 * (0x30F8 / 16)) = true ∧ inAllocs s.curAllocs (16 * (0x3100 / 16)) = false
       ∧ (∀ b, b < 8 → inAllocs s.curAllocs (16 * ((0x3100 - 8 + b) / 16)) = true))
    ∧ (let s := spadded [0x200] 0x200 16 (0x3100 + 127 * 2 ^ 32 + 1 * 2 ^ 48 + 16 * 2 ^ 64)
       let s := s.modMat (fun m => { m with tiles := m.tiles.set 0 { m.tiles[0] with aext := ⟨128, 4, false, false, 0⟩ } })
       let rb := (s.curC.mat.tiles[(0 : Tile)].aext.ncols.toNat * 4 + 15) / 16 * 16
       rb ≤ 16 ∧ 0 < rb ∧ inAllocs s.curAllocs (16 * ((0x3100 + 0 * 16 + 0) / 16)) = false) := by decide +kernel
/-- MatrixImages: a slot not held, a busy one, an address that is not canonical and one that is misaligned. -/
theorem witness_MatrixImages_traps : let s := kernel [2 ^ 56, 0x20]
    s.cur.priv ≠ .user ∧ s.curC.mat.pendReissue = none ∧ s.curC.mat.filling = none ∧ s.cur.boundRep = none
    ∧ canonical (s.sreg 1) = false ∧ canonical (s.sreg 2) = true ∧ (s.sreg 2).toNat % 64 ≠ 0 ∧ s.curC.mat.slots[(0 : Slot)].claimed = false
    ∧ (let t := (slotted [] 8 0).modCur (fun t => { t with priv := .kernel })
       let t := t.modMat (fun m => { m with slots := m.slots.set 2 { m.slots[2] with fills := 1 } })
       t.cur.priv ≠ .user ∧ t.curC.mat.slots[(2 : Slot)].claimed = true ∧ t.curC.mat.slots[(2 : Slot)].owner = t.cur.ctxOf
       ∧ t.curC.mat.slots[(2 : Slot)].busy = true) := by decide +kernel
/-- MatrixImages: an empty tile's save and restore at 0 of generic space, at kernel level; an image that is none; a slot. -/
theorem witness_MatrixImages : (TileSt.zero.aext.mrows.toNat ≤ 128 ∧ TileSt.zero.aext.ncols.toNat ≤ 128) ∧ (base []).cur.priv = .user
    ∧ (let s := { kernel [] with wm := [(0, 1)] }
       s.cur.priv ≠ .user ∧ s.curC.mat.pendReissue = none ∧ s.cur.boundRep = none ∧ canonical (s.sreg 1) = true ∧ (s.sreg 1).toNat % 64 = 0
       ∧ (∃ s1 l, translateRun s (.vector s.curCore) s.curReq .store (((tileImage s.curC.mat.tiles[(0 : Tile)]).length + 63) / 64) (s.sreg 1) = (s1, .ok l))
       ∧ (∃ s1 l, translateRun s (.vector s.curCore) s.curReq .load ((64 + 63) / 64) (s.sreg 1) = (s1, .ok l) ∧ ∃ hd, readRun s1 l = (hd, none)
          ∧ fieldAt hd 0 2 = 1 ∧ fieldAt hd 2 2 = 0 ∧ fieldAt hd 4 2 = 0 ∧ fieldAt hd 6 2 = 0 ∧ fieldAt hd 24 40 = 0 ∧ fieldAt hd 8 8 = 0 ∧ ¬ fieldAt hd 0 2 = 2)
       ∧ s.curC.mat.filling = none) := by
  refine ⟨by decide +kernel, by decide +kernel, by decide +kernel, by decide +kernel, by decide +kernel, by decide +kernel, by decide +kernel, ?_, ?_,
    by decide +kernel⟩
  · exact ⟨_, [.wm 0], eq_ok (by decide +kernel)⟩
  · exact ⟨_, [.wm 0], eq_ok (by decide +kernel), _, Prod.ext rfl (by decide +kernel), by decide +kernel⟩

theorem fits {σ ε α : Type} {x : σ × Except ε α} {b : α} (h : x.2.toOption = some b) : ∃ s1, x = (s1, .ok b) := ⟨_, eq_ok h⟩
/-- A slot's image at 0 of generic space: its places, and its read. -/
def slotState : State :=
  { (kernel []).modMat (fun m => { m with slots := m.slots.set 0 { m.slots[0] with claimed := true, owner := (kernel []).cur.ctxOf } }) with wm := [(0, 2)] }
def slotRun (k : AccKind) (n : Nat) : State × Except (XFail × Word) (List Tgt) :=
  let s := slotState
  translateRun s (.vector s.curCore) s.curReq k n (s.sreg 1)
theorem witness_MatrixImages_slot : let l := (List.range 513).map (fun i => Tgt.wm (64 * i))
    (slotImage slotState.curC.mat.slots[(0 : Slot)]).length = 64 * 513
    ∧ (slotState.curC.mat.slots[(0 : Slot)].claimed = true ∧ slotState.curC.mat.slots[(0 : Slot)].owner = slotState.cur.ctxOf
      ∧ slotState.curC.mat.slots[(0 : Slot)].busy = false)
    ∧ (∃ s1, slotRun .store 513 = (s1, .ok l)) ∧ (∃ s1, slotRun .load 513 = (s1, .ok l)) := by
  refine ⟨by decide +kernel, by decide +kernel, fits (by decide +kernel), fits (by decide +kernel)⟩
theorem witness_MatrixImages_read : let x := readRun (slotRun .load 513).1 ((List.range 513).map (fun i => Tgt.wm (64 * i)))
    x.2 = none ∧ fieldAt x.1 0 2 = 2 ∧ fieldAt x.1 2 6 = 0 ∧ fieldAt x.1 24 40 = 0 ∧ fieldAt x.1 8 8 < 2 ^ 55 ∧ (fieldAt x.1 8 8).testBit 53 = false := by
  decide +kernel

/-- A copy of three bytes from 0x100 to 0x200 of the scratchpad, and its block. -/
def copyBlock : BitVec 512 := BitVec.ofNat 512 (0x100 + (0x200 + 2 ^ 61 + 2 ^ 62) * 2 ^ 64 + 3 * 2 ^ 192 + 2 ^ 224 + 2 ^ 256 + 2 ^ 288)
/-- `base` with a number at 0x200 of the scratchpad, as a copy block's place. -/
def copied (l : List Nat) (v : Nat) : State := spadded l 0x200 64 v
/-- CopyUnit: room, an aligned owned block that is good, one with a reserved field; a full queue; a counter and a barrier; a resume entry. -/
theorem witness_CopyUnit : let s := copied [0x200, 0x20, 0x300] copyBlock.toNat
    let b := BitVec.ofNat 512 (Mem.num s.curC.spad 0x200 64)
    (takeCopyFault s).isNone = true ∧ s.curC.copies.length < 16 ∧ (s.sreg 1).toNat % 64 = 0
    ∧ (∀ i, i < 128 → inAllocs s.curAllocs (0x200 + i) = true ∧ NatSet.has s.curC.spadPoison ((0x200 + i) / 16) = false)
    ∧ blkReserved b = false ∧ blkRangeTrap b true = none ∧ copyDstFault s b s.cur.ctxOf = none
    ∧ blkReserved (BitVec.ofNat 512 (Mem.num (copied [0x200] 0).curC.spad 0x200 64)) = true
    ∧ (let t := s.modCurC (fun c => { c with copies := List.replicate 16 copy0 }); 16 ≤ t.curC.copies.length ∧ (takeCopyFault t).isNone = true)
    ∧ 0x201 % 64 ≠ 0 ∧ canonical (s.sreg 2) = true ∧ (s.sreg 2).toNat % 8 = 0 ∧ (s.sreg 3).toNat % 32 = 0
    ∧ rangeInAllocs s.curAllocs (s.sreg 3).toNat 32 = true ∧ Mem.num s.curC.spad ((s.sreg 3).toNat + 24) 4 = 0
    ∧ (let f (o n : Nat) : Nat := Mem.num s.curC.spad (0x200 + 64 + o) n
       (∀ d, d < 4 → f (4 * d) 4 < blkX b d) ∧ f 36 1 = 0 ∧ f 37 1 = 0 ∧ f 38 1 = 0 ∧ f 39 1 = 0 ∧ f 24 8 = 0 ∧ f 32 4 = 0) := by decide +kernel
theorem witness_CopyUnit_counter : let s := copied [0x200, 0x20, 0x300] copyBlock.toNat
    ∃ s1, translate s (.scalar s.curCore) s.curReq .store (s.sreg 2) true = (s1, .ok (.wm 0x20, leaf0)) := fits (by decide +kernel)
/-- CopyUnit: the trap of each check: a range, a destination that is not owned, a counter that is not canonical, misaligned, or not translated,
a barrier outside the allocations; a fill of a slot that is one's own; a resume entry that is none; the bounds of the block's place. -/
theorem witness_CopyUnit_checks : let s := copied [0x200] copyBlock.toNat
    (let b := copyBlock + (0x400000 - 2 - 0x200) * 2 ^ 64; blkReserved b = false ∧ (blkRangeTrap b true).isSome = true)
    ∧ (let b := copyBlock + (0x3100 - 0x200) * 2 ^ 64; blkReserved b = false ∧ blkRangeTrap b true = none ∧ copyDstFault s b s.cur.ctxOf = some (4, 0x3100))
    ∧ canonical (BitVec.ofNat 64 (2 ^ 56)) = false ∧ canonical (0x24 : Word) = true ∧ (0x24 : Word).toNat % 8 ≠ 0
    ∧ errOf (translate s (.scalar s.curCore) s.curReq .store 0x50000 true).2 = some (.page 1 4)
    ∧ (copyBarTrap s copyBlock 0x3100).isSome = true ∧ copyBarTrap s copyBlock 0x300 = none
    ∧ (let t := slotted [] 8 0
       let b := copyBlock + (2 - 0x200) * 2 ^ 64 + 2 ^ 127
       blkDspace b = 3 ∧ blkSlot b = 2 ∧ t.curC.mat.slotFree 2 = true ∧ blkReserved b = false ∧ copyDstFault t b t.cur.ctxOf = none)
    ∧ (0x400000 < 0x3FFFC0 + 128 ∧ ¬ 0x400000 < 0x3FFFC0 + 64 ∧ 0x380000 < 0x37FFC0 + 128 ∧ 0x37FFC0 + 64 ≤ 0x380000)
    ∧ ¬ (∀ d, d < 4 → Mem.num (spadded [0x200] 0x200 128 (copyBlock.toNat + 3 * 2 ^ 512)).curC.spad 0x240 4 < blkX copyBlock 0) := by decide +kernel
/-- A copy that a beacon found skewed. -/
theorem witness_CopyUnit_skew : let x := { copy0 with block := copyBlock, skew := some 3 }
    let s := (base []).modCurC (fun c => { c with copies := [x] })
    (s.core 0).copies[(0 : Fin 4).val]? = some x ∧ copyMayLand ((s.core 0).copies.take 0) x = true ∧ x.skew = some 3
    ∧ (s.thr 0 0).isCtx x.part x.ctx = true := by decide +kernel
/-- cpq at kernel level with one copy queued, the area allocated. -/
theorem witness_CopyUnit_cpq : let s := (kernel [0x400]).modCurC (fun c => { c with copies := [copy0] })
    s.cur.priv ≠ .user ∧ (s.sreg 1).toNat % 64 = 0 ∧ s.curC.copies.length + (List.finRange 8).countP (fun r => (s.curC.vec.binds[r]).isSome) = 1
    ∧ ∀ i, i < 64 + 128 * 1 → inAllocs s.curAllocs (0x400 + i) = true := by decide +kernel
/-- The copy in the unit, with its last strip to land and an arrival barrier at 0x300. -/
theorem witness_CopyUnit_strip : let x := { copy0 with block := copyBlock, barrier := some 0x300 }
    let s := (base []).modCurC (fun c => { c with copies := [x] })
    (s.core 0).copies[(0 : Fin 4).val]? = some x ∧ copyMayLand ((s.core 0).copies.take 0) x = true ∧ x.ring = false ∧ x.counter = none
    ∧ blkDspace x.block = 1 ∧ blkSspace x.block = 1 ∧ blkFold x.block = 0 ∧ blkBounded x.block = false ∧ blkEtype x.block ≠ .e2m1
    ∧ blkCount x.block = 3 ∧ (s.core 0).spadPoison = [] ∧ (∀ bar, x.barrier = some bar → bar + 8 ≤ 0x200 ∨ 0x200 + 3 ≤ bar)
    ∧ x.next + min (256 / 1) (blkCount x.block - x.next) = blkCount x.block := by
  refine ⟨by decide +kernel, by decide +kernel, rfl, rfl, by decide +kernel, by decide +kernel, by decide +kernel, by decide +kernel, by decide +kernel,
    by decide +kernel, by decide +kernel, ?_, by decide +kernel⟩
  rintro bar ⟨⟩; right; decide

/-- A segment at 0x400 of generic space, of thread 0's context. -/
def seg0 : Segment := ⟨0x400, 0, 1, 1, 0, 1, .user, false, 1⟩
/-- Engine 0 with that segment, its command or prologue a number at 0x400 of working memory, and running as r says. -/
def engined (v : Nat) (r : Option SegRun) : State :=
  { (base []).modEngine 0 (fun e => { e with chain := [seg0], running := r }) with wm := Mem.setNum [] 0x400 64 v }
def run0 : SegRun := ⟨0, 0, 0x400, none, [], false, false, none, none⟩
/-- An engine's read of the 64 bytes at 0x400. -/
theorem engRead_ok (v : Nat) (r : Option SegRun) (p : List Byte → Bool)
    (h : (engRead (engined v r) 0 seg0 [] 2 0x400 64).2.toOption.any (fun x => p x.1 && !x.2.1 && x.1.length == 64) = true) :
    ∃ s1 bs used, engRead (engined v r) 0 seg0 [] 2 0x400 64 = (s1, .ok (bs, false, used)) ∧ p bs = true ∧ bs.length = 64 := by
  obtain ⟨s, b, h, hb⟩ := exists_okS _ h
  obtain ⟨x, y, z⟩ := b
  simp only [Bool.and_eq_true, Bool.not_eq_true', beq_iff_eq] at hb
  exact ⟨s, x, z, by rw [h, hb.1.2], hb.1.1, hb.2⟩
/-- EngineInstructions: an engine with one segment that has not started: a good prologue, and one whose counter is misaligned. -/
theorem witness_EngineInstructions : (let s := engined (8 + 0x40 * 2 ^ 64) none
     s.engines[(0 : EngineId)].running = none ∧ s.engines[(0 : EngineId)].chain = [seg0] ∧ s.engines[(0 : EngineId)].faulted = false ∧ seg0.addr.toNat % 64 = 0)
    ∧ (∃ s1 bs used, engRead (engined (8 + 0x40 * 2 ^ 64) none) 0 seg0 [] 2 0x400 64 = (s1, .ok (bs, false, used))
      ∧ (fieldAt bs 0 8 % 8 == 0 && fieldAt bs 8 8 % 64 == 0 && fieldAt bs 16 48 == 0) = true ∧ bs.length = 64)
    ∧ (∃ s1 bs used, engRead (engined 7 none) 0 seg0 [] 2 0x400 64 = (s1, .ok (bs, false, used)) ∧ (fieldAt bs 0 8 % 8 == 7) = true ∧ bs.length = 64) :=
  ⟨by decide +kernel, engRead_ok _ _ _ (by decide +kernel), engRead_ok _ _ _ (by decide +kernel)⟩
/-- A running chain whose next command is one of each op: good and bad STREAM and FOLD, SIGNAL, WAIT, REPEAT, LINK, STOP, no command. -/
def stream0 (op : Nat) : Nat := op + (if op = 2 then 6 else 0) * 2 ^ 24 + 0x200 * 2 ^ 32 + 0x500 * 2 ^ 64 + 16 * 2 ^ 128 + 2 ^ 160 + 2 ^ 192 + 2 ^ 224 + (if op = 2 then 2 ^ 456 else 0)
def commands : List Nat := [stream0 1, stream0 2, 1, 2, 3 + 0x500 * 2 ^ 64 + 5 * 2 ^ 128, 3 + 2 ^ 8, 4 + 0x500 * 2 ^ 64, 4 + 2 ^ 9, 4 + 0x500 * 2 ^ 64 + 5 * 2 ^ 128,
  5 + 2 ^ 8 + 2 ^ 32, 5, 6 + 0x800 * 2 ^ 64, 6 + 2 ^ 8, 7, 7 + 2 ^ 8, 0, 8]
theorem witness_EngineInstructions_commands : ∀ v ∈ commands,
    ((engined v (some run0)).engines[(0 : EngineId)].running = some run0 ∧ (engined v (some run0)).engines[(0 : EngineId)].chain = [seg0]
      ∧ run0.fault = none ∧ run0.waiting = false ∧ run0.stopped = false ∧ run0.flight = [] ∧ run0.rep = none)
    ∧ (engRead (engined v (some run0)) 0 seg0 [] 2 run0.cmdAddr 64).2.toOption.any (fun x => leNat x.1 == v) = true := by decide +kernel
theorem witness_EngineInstructions_ops :
    streamFault (engined (stream0 1) (some run0)) seg0 run0 (stream0 1) false = none ∧ streamFault (engined (stream0 2) (some run0)) seg0 run0 (stream0 2) true = none
    ∧ streamBad 1 false 0 0 = true ∧ streamBad 2 true 0 0 = true
    ∧ syncBad (3 + 0x500 * 2 ^ 64 + 5 * 2 ^ 128) 0xE1 = false ∧ syncBad (3 + 2 ^ 8) 0xE1 = true ∧ syncBad (4 + 0x500 * 2 ^ 64) 0xE2 = false
    ∧ syncBad (4 + 2 ^ 9) 0xE2 = true ∧ ([⟨0x400, 0, 0, 0, 0, none, [], none, none⟩] : List EngCmd) ≠ []
    ∧ (let s := engined 0 none
       (∃ s2, xferAccess s (.engine 0) seg0.req .atomic true [] 0x500 = (s2, .ok (.wm 0x500, [⟨0, leaf0, true, false⟩])))
       ∧ (∃ s2, xferAccess s (.engine 0) seg0.req .load true [] 0x500 = (s2, .ok (.wm 0x500, [⟨0, leaf0, false, false⟩])))
       ∧ leNat (tgtRead s (.wm 0x500) 8).1 = 0) :=
  ⟨by decide +kernel, by decide +kernel, by decide +kernel, by decide +kernel, by decide +kernel, by decide +kernel, by decide +kernel, by decide +kernel,
    by decide, fits (by decide +kernel), fits (by decide +kernel), by decide +kernel⟩
/-- A WAIT that holds the chain. -/
theorem witness_EngineInstructions_wait : let r := { run0 with waiting := true }
    ((engined (4 + 0x500 * 2 ^ 64) (some r)).engines[(0 : EngineId)].running = some r ∧ r.fault = none ∧ r.waiting = true)
    ∧ (∃ s1 bs used, engRead (engined (4 + 0x500 * 2 ^ 64) (some r)) 0 seg0 [] 2 r.cmdAddr 64 = (s1, .ok (bs, false, used))
      ∧ (fieldAt bs 8 8 == 0x500) = true ∧ bs.length = 64) := ⟨by decide +kernel, engRead_ok _ _ _ (by decide +kernel)⟩
/-- A STREAM in flight: 16 bytes from 0x500 to 0x200 of the scratchpad, to its end, and past it; and from where no page is. -/
def flown (dst src : Nat) : SegRun := { run0 with flight := [⟨0x400, BitVec.ofNat 512 (stream0 1), BitVec.ofNat 64 src, dst, 0, none, [], none, none⟩] }
theorem witness_EngineInstructions_strip :
    (cmdOp (stream0 1) = 1 ∧ cmdKind (stream0 1) = 0 ∧ cmdBounded (stream0 1) = false ∧ cmdHasBar (stream0 1) = false
      ∧ min 256 (cmdExt (stream0 1) 0 - 0 % cmdExt (stream0 1) 0) = 16 ∧ cmdTotal (stream0 1) = 16)
    ∧ (let s := engined 0 (some (flown 0x200 0x500))
       s.engines[(0 : EngineId)].running = some (flown 0x200 0x500) ∧ rangeInAllocs ((s.core seg0.core).allocsOf seg0.part seg0.launch) 0x200 16 = true)
    ∧ 0x380000 < 0x37FFF8 + 16
    ∧ (engRead (engined 0 (some (flown 0x200 0x500))) 0 seg0 [] 2 (cmdAddrOf (stream0 1) 0x500 0) 16).2.toOption.any (fun x => !x.2.1 && x.1.length == 16) = true
    ∧ (match (engRead (engined 0 (some (flown 0x200 (2 ^ 60)))) 0 seg0 [] 2 (cmdAddrOf (stream0 1) (BitVec.ofNat 64 (2 ^ 60)) 0) 16).2 with
       | .error (.fault _ _, _) => true | _ => false) = true := by decide +kernel
/-- A command and a segment found skewed; a guard address; a destination that is a slot. -/
theorem witness_EngineInstructions_skew :
    (let r := { run0 with flight := [⟨0x400, BitVec.ofNat 512 (stream0 1), 0x500, 0x200, 0, none, [], none, some 3⟩] }
     (engined 0 (some r)).engines[(0 : EngineId)].running = some r ∧ r.skew = none
     ∧ r.flight[0]? = some ⟨0x400, BitVec.ofNat 512 (stream0 1), 0x500, 0x200, 0, none, [], none, some 3⟩)
    ∧ (let r := { run0 with fault := some (0x400, 9, 0, 0x400, 0), skew := some 3 }; r.skew = some 3 ∧ r.counter = 0 ∧ r.frec = 0)
    ∧ firstGuard (((engined 0 none).core 0).allocsOf 1 1) 0x30F8 16 = some 0x3100
    ∧ firstGuard (((engined 0 none).core 0).allocsOf 1 1) 0x30F0 16 = none ∧ cmdTargets seg0 (stream0 1) ≠ []
    ∧ (let e := engined 0 none
       let s := e.modCore 0 (fun c => { c with mat := (slotted [] 8 0).curC.mat })
       (s.core seg0.core).mat.slotFree (slotOf 2) = true ∧ bitsOf (stream0 1 + 2 * 2 ^ 16) 16 8 = 2)
    ∧ streamFault (engined 0 (some run0)) seg0 run0 (stream0 1 + 2 * 2 ^ 16 - (0x200 - 3) * 2 ^ 32) false = some (6, 0, 3) := by decide +kernel
theorem witness_EngineInstructions_runs : let x : EngCmd := ⟨0x400, BitVec.ofNat 512 (stream0 1), 0x500, 0x200, 0, none, [], none, none⟩
    (∃ s1 l used, boxRuns (engined 0 none) 0 seg0 x x.pages x.landed 16 = (s1, .ok (l, used)) ∧ 0 < l.length)
    ∧ (∃ s1 e, boxRuns (engined 0 none) 0 seg0 { x with src := BitVec.ofNat 64 (2 ^ 60) } x.pages x.landed 16 = (s1, .error e)) := by
  intro x
  constructor
  · obtain ⟨s, b, h, hb⟩ := exists_okS (x := boxRuns (engined 0 none) 0 seg0 x x.pages x.landed 16) (fun r => decide (0 < r.1.length)) (by decide +kernel)
    exact ⟨s, b.1, b.2, h, of_decide_eq_true hb⟩
  · have h : (boxRuns (engined 0 none) 0 seg0 { x with src := BitVec.ofNat 64 (2 ^ 60) } x.pages x.landed 16).2.toOption.isNone = true := by decide +kernel
    cases hx : boxRuns (engined 0 none) 0 seg0 { x with src := BitVec.ofNat 64 (2 ^ 60) } x.pages x.landed 16 with
    | mk a r => cases r with
      | error k => exact ⟨a, k, rfl⟩
      | ok l => rw [hx] at h; simp [Except.toOption] at h
/-- An engine's target that does not translate. -/
theorem witness_EngineInstructions_fails : let s := engined 0 none
    (∃ a b, errOf (xferAccess s (.engine 0) seg0.req .atomic true [] 0x50000).2 = some (.fault a b))
    ∧ (∃ a b, errOf (xferAccess { s with fresh := s.fresh + 1 } (.engine 0) seg0.req .store false [] 0x50000).2 = some (.fault a b)) :=
  ⟨⟨2, 1, by decide +kernel⟩, 2, 1, by decide +kernel⟩
/-- A segment at its end, with and without a counter; a command fault with and without a record and a counter. -/
theorem witness_EngineInstructions_ends :
    (let r := { run0 with stopped := true }
     (engined 0 (some r)).engines[(0 : EngineId)].running = some r ∧ r.flight = [] ∧ r.fault = none ∧ r.stopped = true ∧ r.counter = 0
     ∧ ({ r with counter := 0x500 } : SegRun).counter ≠ 0)
    ∧ (let r := { run0 with fault := some (0x400, 1, 0, 0x400, 0) }
       r.flight = [] ∧ r.fault = some (0x400, 1, 0, 0x400, 0) ∧ r.counter = 0 ∧ r.frec = 0 ∧ ({ r with frec := 0x540 } : SegRun).frec ≠ 0 ∧ r.stopped = false)
    ∧ (∃ s1, xferAccess (engined 0 none) (.engine 0) seg0.req .store true [] 0x500 = (s1, .ok (.wm 0x500, [⟨0, leaf0, true, false⟩])))
    ∧ (∃ s1, xferAccess (engined 0 none) (.engine 0) seg0.req .store true [] 0x540 = (s1, .ok (.wm 0x540, [⟨0, leaf0, true, false⟩])))
    ∧ ((base []).thr 0 0).isCtx seg0.part seg0.ctx = true :=
  ⟨by decide +kernel, by decide +kernel, fits (by decide +kernel), fits (by decide +kernel), by decide +kernel⟩
/-- senq's operands: a bad address, a bad engine; each state of the engine. -/
theorem witness_EngineInstructions_senq : let s := base [0x400, 0]
    canonical (BitVec.ofNat 64 (2 ^ 60)) = false ∧ (0x401 : Nat) % 64 ≠ 0 ∧ canonical (s.sreg 1) = true ∧ (s.sreg 1).toNat % 64 = 0
    ∧ (s.part s.curPart).physical 0 = some 0 ∧ (s.part s.curPart).physical 1 = none ∧ s.sreg 1 ≠ 0 ∧ s.cur.priv = .user ∧ (kernel []).cur.priv ≠ .user
    ∧ s.engines[(0 : CoreId)].faulted = false ∧ s.engines[(0 : CoreId)].chain.length < 64 ∧ 64 ≤ (List.replicate 64 seg0).length
    ∧ ((base []).modEngine 0 (fun e => { e with faulted := true })).engines[(0 : CoreId)].faulted = true := by decide +kernel

/-- A query over eight rows of sixteen bytes of bf16 at 0 of query space. -/
def qrows : BitVec 512 := BitVec.ofNat 512 (8 * 2 ^ 64 + 16 * 2 ^ 96 + 16 * 2 ^ 128 + 8 * 2 ^ 192)
/-- Its block at 0x200, Q page 0 cached with a Q PTE at base die 0; s1 the block, s2 the counter, s3 the reply. -/
def querying (pte : Nat) : State := { copied [0x200, 0x20, 0x300] qrows.toNat with
  baseDies := State.reset.baseDies.set 0 { State.reset.baseDies[0] with cache := [⟨1, 0, BitVec.ofNat 64 pte, 0, 8000000⟩] } }
/-- QueryIssue: a good qcnt, its operands; each bad operand; a page that permits it and one that does not. -/
theorem witness_QueryIssue : let s := querying 0x1F
    let q := QBlk.ofBits (BitVec.ofNat 512 (Mem.num s.curC.spad 0x200 64))
    (s.sreg 1).toNat % 64 = 0 ∧ 0x201 % 64 ≠ 0
    ∧ (∀ j, j < 64 → inAllocs s.curAllocs (0x200 + j) = true ∧ NatSet.has s.curC.spadPoison ((0x200 + j) / 16) = false)
    ∧ shapeFault 4 q false = none ∧ shapeFault 2 q false = some 3 ∧ ¬ QBlk.readsVec q 4 ∧ shapeFault 0 q false = none
    ∧ ((s.sreg 3).toNat % 16 = 0 ∧ (s.sreg 3).toNat + q.y 4 false ≤ 0x380000 ∧ rangeInAllocs s.curAllocs (s.sreg 3).toNat (q.y 4 false) = true)
    ∧ rangeInAllocs s.curAllocs 0x3100 (q.y 4 false) = false ∧ (0x301 : Nat) % 16 ≠ 0
    ∧ canonical (s.sreg 2) = true ∧ (s.sreg 2).toNat % 8 = 0 ∧ canonical (BitVec.ofNat 64 (2 ^ 60)) = false
    ∧ q.pagesOf q.base = [(0, 0, 8)]
    ∧ (∀ p ∈ (q.pagesOf q.base).drop 0, s.baseDies[qDie p.1].cache.find?
        (fun y => y.part == s.curPart && y.qpage == p.1 && decide (s.dieTime (qDie p.1) < y.expiry)) = some ⟨1, 0, 0x1F, 0, 8000000⟩)
    ∧ (0x1F : Nat).testBit 3 = true ∧ qpteState 0x1F = 0 ∧ (0x17 : Nat).testBit 3 = false := by decide +kernel
theorem witness_QueryIssue_counter : let s := querying 0x1F
    ∃ s1, translate s (.scalar s.curCore) s.curReq .store (s.sreg 2) true = (s1, .ok (.wm 0x20, leaf0)) := fits (by decide +kernel)
/-- qwr's rows at 0x400 of the scratchpad, aligned, and not. -/
theorem witness_QueryIssue_rows : let b := QBlk.ofBits (BitVec.ofNat 512 (qrows.toNat + 0x400 * 2 ^ 224))
    shapeFault 0 b false = none ∧ b.rows * b.rlen ≠ 0 ∧ b.vec % 16 = 0 ∧ rangeInAllocs (base []).curAllocs b.vec (b.rows * b.rlen) = true
    ∧ (let c := QBlk.ofBits (BitVec.ofNat 512 (qrows.toNat + 0x401 * 2 ^ 224)); shapeFault 0 c false = none ∧ c.vec % 16 ≠ 0) := by decide +kernel
/-- QueryIssue: a qwr of two pages, both of which permit it, whole or one at a time; none left; a counter that does not translate. -/
def qrows2 : BitVec 512 := BitVec.ofNat 512 (0x200000 - 64 + 8 * 2 ^ 64 + 16 * 2 ^ 96 + 16 * 2 ^ 128 + 8 * 2 ^ 192 + 0x400 * 2 ^ 224)
def querying2 : State := { copied [0x200, 0x50000, 0x300] qrows2.toNat with
  baseDies := (State.reset.baseDies.set 0 { State.reset.baseDies[0] with cache := [⟨1, 0, 0x1F, 0, 8000000⟩] }).set 1
    { State.reset.baseDies[1] with cache := [⟨1, 1, 0x1F, 0, 8000000⟩] } }
theorem witness_QueryIssue_pages : let s := querying2
    let q := QBlk.ofBits (BitVec.ofNat 512 (Mem.num s.curC.spad 0x200 64))
    q.pagesOf q.base = [(0, 0, 4), (1, 4, 8)] ∧ shapeFault 0 q false = none ∧ q.vec % 16 = 0 ∧ q.vec + q.rows * q.rlen ≤ 0x380000 ∧ q.rows * q.rlen ≠ 0
    ∧ (∀ j, j < q.rows * q.rlen → inAllocs s.curAllocs (q.vec + j) = true ∧ NatSet.has s.curC.spadPoison ((q.vec + j) / 16) = false)
    ∧ (∀ p ∈ q.pagesOf q.base, s.baseDies[qDie p.1].cache.find?
        (fun y => y.part == s.curPart && y.qpage == p.1 && decide (s.dieTime (qDie p.1) < y.expiry)) = some ⟨1, p.1, 0x1F, 0, 8000000⟩)
    ∧ (0x1F : Nat).testBit 2 = true ∧ qpteState 0x1F = 0 ∧ s.curC.step = false ∧ min 1 (q.pagesOf q.base).length < (q.pagesOf q.base).length
    ∧ min s.cur.vstart.toNat 2 = 0 ∧ (q.pagesOf q.base).drop (min 2 2) = []
    ∧ canonical (s.sreg 2) = true ∧ (s.sreg 2).toNat % 8 = 0 ∧ errOf (translate s (.scalar s.curCore) s.curReq .store (s.sreg 2) true).2 = some (.page 1 4) := by
  decide +kernel
/-- QueryCompletion: a qcnt of one sub-command not done, one done, and none; a qwr. -/
def count0 (fn : Nat) (done : Bool) : QueryRun := { query0 with fn := fn, block := qrows, first := 0, total := 1, subs := [⟨0, 0, 0, [], done⟩] }
theorem witness_QueryCompletion : let q := count0 4 false
    let s : State := { base [] with queries := [q] }
    s.queries.find? (fun x => x.id == q.id) = some q ∧ s.queries.find? (fun x => x.id == 77) = none ∧ q.fn = 4 ∧ q.first = 0 ∧ q.total = 1 ∧ q.read = []
    ∧ q.subs = [⟨0, 0, 0, [], false⟩] ∧ q.bad = [] ∧ q.counter = none ∧ q.more = false ∧ acquireHolds s q = false ∧ q.fl.bnd = false ∧ s.qPoison = []
    ∧ rangeInAllocs ((s.core q.core).allocsOf q.part q.launch) q.reply 8 = true ∧ (count0 4 true).subs[0]? = some ⟨0, 0, 0, [], true⟩
    ∧ (count0 0 false).subs[0]? = some ⟨0, 0, 0, [], false⟩ ∧ shapeFault 0 (QBlk.ofBits (count0 0 false).block) false = none := by decide +kernel

/-- A query that an earlier release holds back; one whose counter lies on an absent host page. -/
theorem witness_QueryCompletion_held :
    (let a := { count0 4 false with id := 0, fl := ⟨false, true, .core, false⟩ }
     let q := { count0 4 false with fl := ⟨true, false, .core, false⟩ }
     let s : State := { base [] with queries := [a, q] }
     s.queries.find? (fun x => x.id == q.id) = some q ∧ q.subs[0]? = some ⟨0, 0, 0, [], false⟩
     ∧ (∃ x ∈ s.queries, q.fl.acq = true ∧ x.id < q.id ∧ x.part = q.part ∧ x.ctx = q.ctx ∧ x.fl.rel = true))
    ∧ (let q := { count0 4 false with counter := some 0x20000 }
     let s : State := { mapped [] with queries := [q], hostAbsent := [hostKey 1 0x20000 / 4096] }
     s.queries.find? (fun x => x.id == q.id) = some q ∧ q.subs[0]? = some ⟨0, 0, 0, [], false⟩ ∧ acquireHolds s q = false ∧ q.fn ≠ 8
     ∧ ∃ s1, counterReady s q.core q.rq q.counter = (s1, false)) := by
  refine ⟨by decide +kernel, by decide +kernel, by decide +kernel, by decide +kernel, by decide +kernel, _, Prod.ext rfl (by decide +kernel)⟩
/-- A page operation's block: Q page 0, to frame 1 of stack 0, at 0x200; the Q tables of partition 1 name Q page 0 with a Q PTE at 0x40000. -/
def paging (state aux1 aux2 : Nat) : State :=
  let s := { (copied [0x200, 0, 0x300] (2 ^ 64 + aux1 * 2 ^ 384 + aux2 * 2 ^ 448)).modCur (fun t => { t with priv := .kernel }) with
    wm := Mem.setNum (Mem.setNum [] 0x20000 8 (7 * 2 ^ 61 + 0x40000 + 1)) 0x40000 8 (7 * 2 ^ 61 + state * 2 ^ 55 + 0x1F) }
  s.modPart 1 (fun p => { p with xqtb := 0x20001 })
theorem witness_PageOperations : let s := paging 0 0x40 0
    s.cur.priv ≠ .user ∧ (base []).cur.priv = .user ∧ (s.sreg 1).toNat % 64 = 0 ∧ 0x201 % 64 ≠ 0
    ∧ (∀ j, j < 64 → inAllocs s.curAllocs (0x200 + j) = true ∧ NatSet.has s.curC.spadPoison ((0x200 + j) / 16) = false)
    ∧ pageShape 9 (QBlk.ofBits (BitVec.ofNat 512 (Mem.num s.curC.spad 0x200 64))) = none
    ∧ pageShape 9 (QBlk.ofBits (BitVec.ofNat 512 (Mem.num (copied [0x200] 0).curC.spad 0x200 64))) = some 3
    ∧ (∀ j, j < 16 → inAllocs s.curAllocs (0x300 + j) = true ∧ NatSet.has s.curC.spadPoison ((0x300 + j) / 16) = false) ∧ (0x300 : Nat) % 16 = 0
    ∧ 0x40000 + 8 ≤ 0x18000000000 ∧ (0x40 : Nat) ≠ qpteStack 0x1F + qpteFrame 0x1F * 64
    ∧ pageShape 10 (QBlk.ofBits (BitVec.ofNat 512 (Mem.num (paging 0 0 0).curC.spad 0x200 64))) = none
    ∧ pageShape 11 (QBlk.ofBits (BitVec.ofNat 512 (Mem.num (paging 2 0 0x40).curC.spad 0x200 64))) = none := by decide +kernel
/-- The walk, of a present page and of a sealed one. -/
theorem witness_PageOperations_walk (k : Nat) (h : k = 0 ∨ k = 2) : let s := paging k 0x40 0
    ∃ w, qWalk s s.curPart (s.dieTime (qDie 0)) 0 = .ok w ∧ (w.path.marks.isEmpty && qpteState w.pte == k && w.addr == 0x40000) = true := by
  rcases h with rfl | rfl <;> exact exists_ok _ (by decide +kernel)
/-- The walk with its marks, and one that fails; a counter that is not canonical, misaligned or good; an image that is misaligned. -/
theorem witness_PageOperations_marked : let s := paging 0 0x40 0
    let s1 := s.noteUse (.stack (qDie 0)) s.curReq
    (∃ s2 w, qWalkMarked s1 s1.curPart 0 = (s2, .ok w) ∧ (qpteState w.pte == 0 && w.addr == 0x40000) = true)
    ∧ errOf (qWalkMarked s1 s1.curPart 5).2 = some (1, 0)
    ∧ canonical (BitVec.ofNat 64 (2 ^ 56)) = false ∧ (0x24 : Word).toNat % 8 ≠ 0
    ∧ (∃ s0, translate s (.scalar s.curCore) s.curReq .store 0x20 true = (s0, .ok (.wm 0x20, leaf0)))
    ∧ (canonInt (signedOf 64 0x41) = true ∧ canonInt (signedOf 64 0x41 + 0x200040 - 1) = true ∧ 0x41 % 64 ≠ 0) :=
  ⟨exists_okS _ (by decide +kernel), by decide +kernel, by decide +kernel, by decide, fits (by decide +kernel), by decide +kernel⟩
/-- A page operation of core 0 in flight, copied or not. -/
def pageOp (fn : Nat) (copied : Bool) : PageOpRun :=
  ⟨5, fn, ⟨false, false, .core⟩, 0, 0x40, 0x40, none, 0x300, 0, 0, 1, 0, 1, 1, .kernel, [], 0x40000, 0, copied, false⟩
theorem witness_PageOperations_runs : let s := paging 0 0x40 0
    (∀ o ∈ [pageOp 9 false, pageOp 9 true, pageOp 10 true, pageOp 11 false],
      ({ s with pageOps := [o] } : State).pageOps.find? (fun x => x.id == 5) = some o ∧ o.until_ ≤ s.time.toNat ∧ o.counter = none ∧ o.pteAddr + 8 ≤ 0x18000000000
      ∧ pendingWrites s o = false ∧ rangeInAllocs ((s.core o.core).allocsOf o.part o.launch) o.reply 16 = true)
    ∧ qAddr (qpteStack (readPte s 0x40000)) (qpteFrame (readPte s 0x40000)) 0 = 0 ∧ qAddr (0x40 % 64) (0x40 / 64 % 2 ^ 17) 0 ≠ 0
    ∧ s.time.toNat < ({ pageOp 10 false with until_ := 9 } : PageOpRun).until_ := by decide +kernel
theorem witness_PageOperations_clean : qPoisoned (paging 0 0x40 0) 0 0x200000 = false := by
  have h : (paging 0 0x40 0).qPoison = [] := by decide +kernel
  simp [qPoisoned, h, NatSet.has]
/-- The image area at 0 of generic space: thirty-three pages cached by engine 0, page n at frame n. -/
def imaged : State := (paging 0 0 0).modEngine 0 (fun e => { e with tlb := (List.range 33).map (fun n => ⟨1, 0, n, { leaf0 with frame := 0x10000 * n }, 0, 8000000⟩) })
def areaRun (k : AccKind) : State × Except (XFail × Word) (List UsedPage) :=
  areaPages imaged (.engine imaged.curCore) imaged.curReq k false [] 0 (0x200040 / 4096 + 2) 0x200040
theorem witness_PageOperations_area : ((∃ s1, areaRun .store = (s1, .ok ((List.range 33).map (fun n => ⟨n, { leaf0 with frame := 0x10000 * n }, false, false⟩))))
      ∧ ∃ s1, areaRun .load = (s1, .ok ((List.range 33).map (fun n => ⟨n, { leaf0 with frame := 0x10000 * n }, false, false⟩))))
    ∧ canonical (0 : Word) = true ∧ canonical (BitVec.ofNat 64 (0x200040 - 1)) = true := ⟨⟨fits (by decide +kernel), fits (by decide +kernel)⟩, by decide⟩

/-- TaskInstructions: a task of a started launch, the last of its node or not; its copies run; no successor, and a bad one. -/
theorem witness_TaskInstructions : let s := launched false []
    (copiesBusyOf s s.curCore s.curTid = false ∧ s.curC.mat.pendReissue = none ∧ (reportAll s).isNone = true
      ∧ s.cur.task = some ⟨1, 1, 1, 0, 0⟩ ∧ s.launch 1 1 = some (launch0 false) ∧ (launch0 false).nodes[0]? = some ⟨0x1000, .dispatched, 0, 1, false, 0, 0, 0⟩
      ∧ s.disp.ready = [])
    ∧ (launch0 true).nodes[0]? = some ⟨0x1000, .dispatched, 0, 2, false, 0, 0, 0⟩
    ∧ copiesBusyOf (s.modCurC (fun c => { c with copies := [copy0] })) 0 0 = true := by decide +kernel
/-- Work that a task's end awaits; a successor's record; a hamper in use, a halted partition, matrix work under way. -/
theorem witness_TaskInstructions_busy : let s := launched false []
    (∃ x, (s.modMat (fun m => { m with pendReissue := some (0, 0) })).curC.mat.pendReissue = some x ∧ x.1 = s.curTid)
    ∧ (∃ f, (s.modMat (fun m => { m with filling := some ⟨0, 2, []⟩ })).curC.mat.filling = some f ∧ f.tid = s.curTid)
    ∧ matrixBusyOf (s.modMat (fun m => { m with filling := some ⟨0, 2, []⟩ })) s.curCore s.curTid = true ∧ matrixBusyOf s s.curCore s.curTid = false
    ∧ (s.part 1).halt = 0 ∧ s.curC.hamper.full = none ∧ ((s.modPart 1 (fun p => { p with halt := 2 })).part 1).halt ≠ 0
    ∧ 1 < ({ (⟨0x1000, .dispatched, 0, 2, false, 0, 0, 0⟩ : NodeRec) with live := 2 }).live := by decide +kernel
theorem witness_TaskInstructions_full : 2 ^ 20 ≤ ({ launch0 false with nodes := List.replicate (2 ^ 20) ⟨0x1000, .waiting, 0, 0, false, 0, 0, 0⟩ } : Launch).nodes.length
    ∧ (let b := (tgtRead { launched false [0x400] with wm := Mem.setNum [] 0x400 64 (2 ^ 512 - 1) } (.wm 0x400) 64).1; ¬ fieldAt b 12 1 < 64) :=
  ⟨by show 2 ^ 20 ≤ (List.replicate (2 ^ 20) _).length; rw [List.length_replicate], by decide +kernel⟩
theorem witness_TaskInstructions_done (v : Nat) (h : v = 0 ∨ v = 2 ^ 160) : let s := { launched false [] with wm := Mem.setNum (Mem.setNum [] 0x1000 64 v) 0 8 9 }
    ∃ s1 b, devBytes s (.scalar s.curCore) (launch0 false).req 0x1000 64 = (s1, .ok b) ∧ (fieldAt b 20 2 == v / 2 ^ 160 && fieldAt b 24 8 == 0) = true := by
  rcases h with rfl | rfl <;> exact exists_okS _ (by decide +kernel)
theorem witness_TaskInstructions_list : let s := { launched false [] with wm := Mem.setNum (Mem.setNum [] 0x1000 64 (2 ^ 160)) 0 8 9 }
    let s1 := (devBytes s (.scalar s.curCore) (launch0 false).req 0x1000 64).1
    (∃ s2 sb, devBytes s1 (.scalar s.curCore) (launch0 false).req 0 4 = (s2, .ok sb) ∧ (fieldAt sb 0 4 == 9) = true)
    ∧ (launch0 false).nodes.length ≤ 9 := ⟨exists_okS _ (by decide +kernel), by decide⟩
/-- tspawn: a good record and a bad one at 0x400. -/
theorem witness_TaskInstructions_spawn : let s := { launched false [0x400] with wm := Mem.setNum [] 0x400 64 (2 ^ 64) }
    canonical (s.sreg 1) = true ∧ (s.sreg 1).toNat % 64 = 0 ∧ canonical (BitVec.ofNat 64 (2 ^ 60)) = false ∧ (0x401 : Nat) % 64 ≠ 0
    ∧ (∃ s1, translate s (.scalar s.curCore) s.curReq .load (s.sreg 1) true = (s1, .ok (.wm 0x400, leaf0)))
    ∧ (let b := (tgtRead s (.wm 0x400) 64).1
       (tgtRead s (.wm 0x400) 64).2 = false ∧ fieldAt b 12 1 < 64 ∧ fieldAt b 13 1 < 4 ∧ fieldAt b 14 1 < (launch0 false).levels.length ∧ fieldAt b 15 1 ≤ 8
       ∧ fieldAt b 22 2 = 0 ∧ fieldAt b 60 4 < 65536 ∧ fieldAt b 8 4 ≠ 0 ∧ (launch0 false).nodes.length < 2 ^ 20) :=
  ⟨by decide +kernel, by decide +kernel, by decide, by decide, fits (by decide +kernel), by decide +kernel⟩
/-- tyield: a full hamper, an empty one, and one image of another task of the partition with thread 1 busy. -/
def otherImage : ThreadImage := ⟨1, { (base []).cur with task := some ⟨1, 2, 1, 0, 0⟩ }, none, [], 0, 0, []⟩
theorem witness_TaskInstructions_yield : let s := launched false []
    s.cur.task = some ⟨1, 1, 1, 0, 0⟩ ∧ s.curC.hamper.images = [] ∧ s.disp.ready = []
    ∧ 7 ≤ (List.replicate 7 otherImage).length
    ∧ (let t := (s.modThr 0 1 (fun x => { x with task := some ⟨1, 3, 1, 0, 0⟩ })).modCurC (fun c => { c with hamper := { c.hamper with images := [otherImage] } })
       t.cur.priv = .user ∧ t.curC.hamper.images = [otherImage] ∧ t.curC.hamper.full = none ∧ (t.part 1).halt = 0
       ∧ (∀ k : CoreId, k ≠ t.curCore → (t.core k).hamper.images = []) ∧ (∀ u : Tid, u ≠ t.curTid → (t.thr t.curCore u).task ≠ none)
       ∧ otherImage.thread.task = some ⟨1, 2, 1, 0, 0⟩ ∧ (64 : Int) ≤ t.dies[t.curCore.die].left
       ∧ t.curC.residents.any (fun r => r.part == 1 && r.launch == 1) = true ∧ t.curC.copies = [] ∧ otherImage.copies = []) := by decide +kernel

/-- LaunchesAndGangs: a launch record of one level, one node and no allocation at 0x400. -/
def recorded (l : List Nat) : State := { (kernel l).modPart 1 (fun p => { p with xastb := 0x80000 }) with
  wm := Mem.setNum (Mem.setNum (Mem.setNum [] 0x80000 8 1) 0x600 64 0) 0x400 64 (1 + 2 ^ 32 + 0x600 * 2 ^ 64 + 2 ^ 128 + 2 ^ 288) }
theorem witness_LaunchesAndGangs : let s := recorded [0x400, 50]
    s.cur.priv ≠ .user ∧ (base []).cur.priv = .user ∧ s.disp.gangs = [] ∧ (s.part s.curPart).resetSt = .idle ∧ (s.sreg 1).toNat % 64 = 0
    ∧ (∃ s1 l gm, checkLaunch s (.scalar s.curCore) ⟨s.curPart, s.cur.asnOf, .kernel, s.cur.ctxOf⟩ (s.sreg 1) false = (s1, .ok (l, gm)))
    ∧ (∃ s1, checkLaunch s (.scalar s.curCore) ⟨s.curPart, s.cur.asnOf, .kernel, s.cur.ctxOf⟩ 0x600 false = (s1, .error (.reason 1)))
    ∧ (∀ y ∈ s.disp.launches, y.num ≠ 1) ∧ (1 : BitVec 16) ≠ 0 := by
  refine ⟨by decide +kernel, by decide +kernel, by decide +kernel, by decide +kernel, by decide +kernel, ?_, ⟨_, eq_error (by decide +kernel)⟩,
    by decide +kernel, by decide⟩
  obtain ⟨s1, b, h, -⟩ := exists_okS (x := checkLaunch (recorded [0x400, 50]) (.scalar (recorded [0x400, 50]).curCore)
    ⟨(recorded [0x400, 50]).curPart, (recorded [0x400, 50]).cur.asnOf, .kernel, (recorded [0x400, 50]).cur.ctxOf⟩ ((recorded [0x400, 50]).sreg 1) false) (fun _ => true) (by decide +kernel)
  exact ⟨s1, b.1, b.2, h⟩
/-- A partition being reset or scrubbed, a core listed twice, a record that is misaligned. -/
theorem witness_LaunchesAndGangs_refused : let s := recorded [0x401, 50]
    ((s.modPart s.curPart (fun p => { p with resetSt := .resetting })).part s.curPart).resetSt = .resetting
    ∧ ((s.modPart s.curPart (fun p => { p with resetSt := .scrubbing })).part s.curPart).resetSt = .scrubbing
    ∧ (let p := { s.part s.curPart with ncores := 2, lmap := Vector.replicate 384 0 }; (coresOf p).eraseDups.length ≠ (coresOf p).length)
    ∧ ¬ ((coresOf (s.part s.curPart)).eraseDups.length ≠ (coresOf (s.part s.curPart)).length) ∧ (s.sreg 1).toNat % 64 ≠ 0 := by decide +kernel
/-- A gang launch of two members with tag 9, its record, and the device's record of it. -/
def gangRecorded : State := { recorded [0x400, 50] with
  wm := Mem.setNum (recorded []).wm 0x400 64 (1 + 2 ^ 32 + 0x600 * 2 ^ 64 + 2 ^ 128 + 9 * 2 ^ 160 + 2 * 2 ^ 288) }
theorem witness_LaunchesAndGangs_gang : let s := gangRecorded
    (∃ s1 l, checkLaunch s (.scalar s.curCore) ⟨s.curPart, s.cur.asnOf, .kernel, s.cur.ctxOf⟩ (s.sreg 1) true = (s1, .ok l) ∧ (l.2 == 2 && l.1.gtag == 9) = true)
    ∧ s.gang 9 = none := ⟨exists_okS _ (by decide +kernel), by decide +kernel⟩
def gang0 (r : Option Word) : GangRec := ⟨9, 1, some 50, 0, 2, [(0, 50)], false, some { launch0 false with num := 0, addr := 0x400 }, r⟩
def ganged (r : Option Word) : State := { gangRecorded with disp := { gangRecorded.disp with gangs := [gang0 r] } }
theorem witness_LaunchesAndGangs_agreed_of (r : Option Word) (h : r = none ∨ r = some 3) : let s := ganged r
      s.disp.gangs.find? (fun g => g.own.isSome && g.part == s.curPart && (match g.launch with | some l => l.addr == s.sreg 1 | none => false)) = some (gang0 r)
      ∧ (gang0 r).result = r ∧ s.gang 9 = some (gang0 r) := by
  rcases h with rfl | rfl <;> decide +kernel
theorem witness_LaunchesAndGangs_agreed :
    (gang0 none).props.any (fun p => p.1 == 1) = false ∧ (gang0 none).props.any (fun p => p.1 == 0) = true
    ∧ (gang0 none).members ≤ ((gang0 none).props ++ [(1, 60)]).length ∧ (gang0 none).cancelled = false
    ∧ (let s := { ganged none with time := 10000000 }
       (gang0 none).own ≠ none ∧ (gang0 none).result = none ∧ (∀ l, (gang0 none).launch = some l → l.num = 0) ∧ (gang0 none).ownAt + 10000000 ≤ s.time.toNat) := by
  refine ⟨by decide +kernel, by decide +kernel, by decide +kernel, by decide +kernel, by decide +kernel, by decide +kernel, ?_, by decide +kernel⟩
  rintro l ⟨⟩; rfl
/-- A launch at its start tick: its one node's record names no predecessor; the partition is halted, so that nothing is placed. -/
def starting : State :=
  let l : Launch := { launch0 false with started := false, nodes := [⟨0x1000, .waiting, 0, 0, false, 0, 0, 0⟩], tasks := [] }
  { (base []).modPart 1 (fun p => { p with halt := 2 }) with disp := { (base []).disp with launches := [l], nextNum := 2 } }
theorem witness_LaunchesAndGangs_start : let s := starting
    (s.launchNum 1).isSome = true ∧ s.launchNum 2 = none ∧ s.disp.launches.all (fun l => !l.started && decide (l.start ≤ s.time.toNat)) = true
    ∧ (s.part 1).halt ≠ 0 ∧ s.disp.ready = [] := by decide +kernel
theorem witness_LaunchesAndGangs_start_read : let s := starting
    let s0 := s.modLaunch 1 1 (fun l => { l with started := true })
    ∃ s1 r, readNode s0 (launch0 false) 0x1000 = (s1, .ok r) ∧ (r.pending == 0) = true := exists_okS _ (by decide +kernel)
/-- A ready node that has aged; a slice that has run while a node of another partition waits. -/
def sliced : State :=
  let m : NodeRec := ⟨0x1000, .ready, 0, 0, false, 0, 0, 0⟩
  let other : Launch := { launch0 false with num := 2, part := 2, nodes := [m], tasks := [] }
  let s := { ((launched false []).modPart 2 (fun p => { p with halt := 2 })) with time := 5000000 }
  { s with disp := { s.disp with launches := [launch0 false, other], ready := [(2, 0)] } }
theorem witness_LaunchesAndGangs_slice : let s := sliced
    (s.thr 0 0).task = some ⟨1, 1, 1, 0, 0⟩ ∧ (s.part 1).xslice.toNat ≠ 0 ∧ (s.thr 0 0).since + 1000 * (s.part 1).xslice.toNat ≤ s.time.toNat
    ∧ s.disp.ready = [(2, 0)] ∧ (s.launchNum 2).map (fun l => (l.part, l.nodes)) = some (2, [⟨0x1000, .ready, 0, 0, false, 0, 0, 0⟩]) ∧ (s.part 2).halt ≠ 0
    ∧ s.launch 1 1 = some (launch0 false) ∧ 0 + 256000 ≤ s.time.toNat
    ∧ (base []).time.toNat < ((base []).thr 0 0).since + 1000 * ((base []).part 1).xslice.toNat := by decide +kernel
/-- The same with a waiting node of a class above the running task's. -/
theorem witness_LaunchesAndGangs_classes : (0 : BitVec 8).toNat % 8 ≤ (0 : BitVec 8).toNat % 8 ∧ (0 : BitVec 8).toNat % 8 < (9 : BitVec 8).toNat % 8
    ∧ ¬ ((⟨0x1000, .ready, 5000000, 0, false, 0, 0, 0⟩ : NodeRec).readyAt + 256000 ≤ sliced.time.toNat) := by decide +kernel
/-- No core of these states holds a suspended task. -/
theorem hampers_empty : ∀ k : CoreId, ((base []).core k).hamper.images = [] := base_sweep [] (fun c => c.hamper.images = []) (by decide +kernel) (by decide +kernel)
theorem witness_hampers : (∀ k : CoreId, ((launched false []).core k).hamper.images = []) ∧ (∀ k : CoreId, (starting.core k).hamper.images = [])
    ∧ ∀ k : CoreId, (sliced.core k).hamper.images = [] := ⟨hampers_empty, hampers_empty, hampers_empty⟩

/-- WaitsAndBudgets: each wait, over and not over. -/
def waiting (w : Wait) : State := (base []).modCur (fun t => { t with wait := w })
theorem witness_WaitsAndBudgets :
    (((waiting (.granule [3])).thr 0 0).wait = .granule [3] ∧ ((waiting (.granule [3])).core 0).isFull 3 = false)
    ∧ ((waiting (.fence false)).thr 0 0).wait = .fence false ∧ ((waiting (.fence true)).thr 0 0).wait = .fence true
    ∧ (((waiting (.counter (.wm 0x20) 1)).thr 0 0).wait = .counter (.wm 0x20) 1 ∧ leNat (tgtRead (waiting .none) (.wm 0x20) 8).1 < 1)
    ∧ (((waiting (.time 0)).thr 0 0).wait = .time 0 ∧ (waiting (.time 0)).coreTime 0 < 1) ∧ ((waiting .none).thr 0 0).wait = .none
    ∧ (waiting (.granule [])).disp.launches = [] := by decide +kernel
/-- A barrier of level 1 at which the one task has arrived, and one that waits for it. -/
theorem witness_WaitsAndBudgets_barrier :
    let l := { launch0 false with bars := [⟨1, List.replicate 7 0, 0, [0], false⟩] }
    let s := { (launched false []).modCur (fun t => { t with wait := .barrier 1 0 }) with disp := { (launched false []).disp with launches := [l] } }
    s.disp.launches.find? (fun l => l.num == 1) = some l ∧ (l.bar 1 (List.replicate 7 0)).arrived = [0]
    ∧ (∃ x ∈ l.tasks, x.idx.toList.drop 1 = List.replicate 7 0) ∧ (∀ i, i < l.tasks.length → i ∈ [0]) ∧ (l.nodes.all (fun m => !m.joins l.levels (l.bar 1 (List.replicate 7 0)))) = true
    ∧ (s.thr 0 0).task = some ⟨1, 1, 1, 0, 0⟩ ∧ l.tasks.find? (fun t => t.ctx == 1 && !t.ended) = some ⟨1, 0, Vector.replicate 8 0, false, false⟩
    ∧ (s.thr 0 0).wait = .barrier 1 0 := by decide +kernel
/-- Drifts inside and beyond 25 ns; a die that runs nothing. -/
theorem witness_WaitsAndBudgets_time : let s := { base [] with time := 100 }
    (25 < (26 : Int) ∧ (26 : Int) + 25 ≤ s.time.toNat) ∧ (-25 ≤ (25 : Int) ∧ (25 : Int) ≤ 25) ∧ (-26 : Int) < -25 ∧ s.disp.ready = []
    ∧ s.time.toNat % 8000 ≠ 0 ∧ ({ base [] with time := 16000 } : State).time.toNat % 8000 = 0 := by decide +kernel

/-- ExpiryAndRenewal: a copy that has used page 0, before its renewal is due and after, its leaf walked again as before, and changed. -/
def renewing (t : Nat) (lf : LeafInfo) : State :=
  { (tabled []).modCurC (fun c => { c with copies := [{ copy0 with pages := [⟨0, lf, false, false⟩] }] }) with time := BitVec.ofNat 64 t }
/-- The leaf of page 0 in `tabled`. -/
def leaf1 : LeafInfo := match (walkLeaf (tabled []) (.vector 0) ⟨1, 0, .user, 1⟩ false true 0).2 with | .ok w => w.leaf | .error _ => leaf0
theorem witness_ExpiryAndRenewal : let s := renewing 6000000 leaf1
    (s.core 0).copies = [{ copy0 with pages := [⟨0, leaf1, false, false⟩] }] ∧ (∀ r : Fin 8, (s.core 0).vec.binds[r] = none)
    ∧ (unitTlb s (.vector 0)).find? (fun e => e.serves ⟨1, 0, .user, 1⟩ 0) = some entry0 ∧ entry0.ts + 3 * (entry0.expiry - entry0.ts) / 4 ≤ s.coreTime 0
    ∧ (renewing 5999999 leaf1).coreTime 0 < entry0.ts + 3 * (entry0.expiry - entry0.ts) / 4
    ∧ (∃ s1 w, walkLeaf s (.vector 0) ⟨1, 0, .user, 1⟩ false true (0 * 0x10000) = (s1, .ok w)
      ∧ ((leaf1.at 0).sameAs w.leaf && !(({ leaf1 with gframe := 0x10000 } : LeafInfo).at 0).sameAs w.leaf) = true) := by
  refine ⟨by decide +kernel, by decide +kernel, by decide +kernel, by decide +kernel, by decide +kernel, exists_okS _ (by decide +kernel)⟩
/-- A page used that no table maps any more; a page of 512 MiB, covered by its one entry. -/
theorem witness_ExpiryAndRenewal_gone : let s : State := { renewing 6000000 leaf1 with wm := [] }
    errOf (walkLeaf s (.vector 0) ⟨1, 0, .user, 1⟩ false true (0 * 0x10000)).2 = some (1, 4)
    ∧ (unitTlb s (.vector 0)).find? (fun e => e.serves ⟨1, 0, .user, 1⟩ 0) = some entry0 ∧ copy0.req = ⟨1, 0, .user, 1⟩
    ∧ (⟨0, leaf1, false, false⟩ : UsedPage).covers 0 = true ∧ (⟨0, { leaf1 with span := 29 }, false, false⟩ : UsedPage).covers 0x1FFF = true
    ∧ (⟨0, { leaf1 with span := 29 }, false, false⟩ : UsedPage).covers 0x2000 = false := by decide +kernel
/-- An engine's STREAM that has used page 0. -/
theorem witness_ExpiryAndRenewal_engine : let x : EngCmd := ⟨0x400, BitVec.ofNat 512 (stream0 1), 0, 0x200, 0, none, [⟨0, leaf1, false, false⟩], none, none⟩
    let r := { run0 with flight := [x] }
    let s := { (tabled []).modEngine 0 (fun e => { e with chain := [seg0], running := some r }) with time := 6000000 }
    s.engines[(0 : EngineId)].running = some r ∧ s.engines[(0 : EngineId)].chain = [seg0]
    ∧ (unitTlb s (.engine 0)).find? (fun e => e.serves seg0.req 0) = some entry0
    ∧ entry0.ts + 3 * (entry0.expiry - entry0.ts) / 4 ≤ copyOfTime s s.engines[(0 : EngineId)].skew
    ∧ (walkLeaf s (.engine 0) seg0.req false true 0).2.toOption.any (fun w => (leaf1.at 0).sameAs w.leaf) = true := by decide +kernel
/-- A base die's one entry, its page in use, before its renewal is due and after, its Q PTE as before and changed. -/
theorem witness_ExpiryAndRenewal_stack (t : Nat) (h : t = 0 ∨ t = 6000000) :
    let e : QTlbEntry := ⟨1, 0, BitVec.ofNat 64 (7 * 2 ^ 61 + 0x1F), 0, 8000000⟩
    let s : State := { paging 0 0x40 0 with queries := [count0 4 false], time := BitVec.ofNat 64 t
                                            baseDies := State.reset.baseDies.set 0 { State.reset.baseDies[0] with cache := [e] } }
    s.baseDies[(0 : StackId)].cache = [e] ∧ e.qpage = 0 ∧ (∃ q ∈ s.queries, q.part = e.part ∧ ∃ x ∈ q.subs, x.done = false ∧ x.qpage = 0)
    ∧ (if t = 0 then s.dieTime 0 < e.ts + 3 * (e.expiry - e.ts) / 4 else e.ts + 3 * (e.expiry - e.ts) / 4 ≤ s.dieTime 0)
    ∧ (∃ w, qWalk s e.part (s.dieTime 0) 0 = .ok w ∧ (BitVec.ofNat 64 w.pte == e.pte && BitVec.ofNat 64 w.pte != 0x1F) = true)
    ∧ (base []).baseDies[(0 : StackId)].cache = [] := by
  rcases h with rfl | rfl <;>
    exact ⟨by decide +kernel, by decide +kernel, by decide +kernel, by decide +kernel, exists_ok _ (by decide +kernel), by decide +kernel⟩
/-- Time-base copies that are off by more than 1 ns, either way. -/
theorem witness_ExpiryAndRenewal_beacon : let s := (base []).modCurC (fun c => { c with skew := -2 })
    (s.core 0).skew < -1 ∧ (s.thr 0 0).task ≠ none ∧ -1 ≤ ((base []).core 0).skew ∧ ((base []).core 0).skew ≤ 1
    ∧ 1 < (((base []).modCurC (fun c => { c with skew := 2 })).core 0).skew := by decide +kernel

/-- A beacon at its time, and none; contexts that have used a core and an engine that are behind, with a copy and a command of theirs. -/
theorem witness_ExpiryAndRenewal_users : let s : State := { (base []).modCurC (fun c =>
        { c with skew := -2, copies := [{ copy0 with pages := [⟨0, leaf0, false, false⟩] }] }) with time := 1000, users := [(.core 0, 1, 1)] }
    s.time.toNat % 1000 = 0 ∧ ({ s with time := 1001 } : State).time.toNat % 1000 ≠ 0 ∧ (skewOf s (.core 0)).1 < -1 ∧ (s.thr 0 0).isCtx 1 1 = true
    ∧ (∃ x, (s.core 0).copies[0]? = some x ∧ x.pages ≠ [] ∧ (XAgent.core 0, x.part, x.ctx) ∈ s.users)
    ∧ (let x : EngCmd := ⟨0x400, BitVec.ofNat 512 (stream0 1), 0, 0x200, 0, none, [⟨0, leaf1, false, false⟩], none, none⟩
       let t := s.modEngine 0 (fun e => { e with chain := [seg0], running := some { run0 with flight := [x] }, skew := -2 })
       t.engines[(0 : EngineId)].skew < -1 ∧ t.engines[(0 : EngineId)].running = some { run0 with flight := [x] } ∧ x.pages ≠ []) :=
  ⟨by decide +kernel, by decide +kernel, by decide +kernel, by decide +kernel, ⟨_, rfl, by decide +kernel, by decide +kernel⟩, by decide +kernel⟩

/-- ControlWrites: an active loop and none; a counter of the guest's, one of the hypervisor's, a reserved event; a trace unit sampling thread 0. -/
def traced (filter : BitVec 2) : State := (base []).modCurC (fun c =>
  let l := (c.counters.set 7 { c.counters[7] with event := 14, filter := filter }).set 6 { c.counters[6] with samples := 1 }
  { c with trace := .guest, bank := .guest, counters := l })
theorem witness_ControlWrites : (((looped 1).thr 0 0).le ≠ 0 ∧ ((looped 1).thr 0 0).loopOff = false) ∧ ((base []).thr 0 0).le = 0
    ∧ ((base []).thr 0 0).priv ≠ .hyper ∧ (((base []).modCur (fun t => { t with priv := .hyper })).thr 0 0).priv = .hyper
    ∧ ((base []).core 0).bank = .free ∧ (((base []).modCurC (fun c => { c with bank := .hyper })).core 0).bank = .hyper
    ∧ (15 : Word).toNat % 256 > 14 ∧ (14 : Word).toNat % 256 = 14
    ∧ (((traced 1).core 0).counters[7].event = 14 ∧ ((traced 1).core 0).trace = .guest ∧ ((traced 1).core 0).counters[7].filter = 1)
    ∧ ((traced 1).thr 0 0).task ≠ none ∧ ((traced 1).thr 0 0).cbit = false
    ∧ (let s := (traced 1).modCur (fun t => { t with cbit := true })
       (s.thr 0 0).cbit = true
       ∧ (s.core 0).ring.base + 32 * ((s.core 0).ring.seq.toNat % 2 ^ ((s.core 0).ring.size + 6)) + 32 ≤ 0x18000000000)
    ∧ (((traced 1).modCur (fun t => { t with task := none })).thr 0 0).task = none ∧ ((base []).core 0).counters[7].event ≠ 14
    ∧ ((traced 1).core 0).counters[6].samples ≠ 0 ∧ ((base []).core 0).counters[6].samples = 0 := by decide +kernel
/-- WindowRegisters: each register at a level that may write it, and below; a place that is no register's; a core and none for XYIELD. -/
theorem witness_WindowRegisters :
    (∀ off ∈ [0x00, 0x08, 0x10, 0x18, 0x20, 0x30, 0x38, 0x40, 0x48, 0x60, 0x68, 0x78],
      off % 8 = 0 ∧ Priv.hyper ≠ .user ∧ (1 : FuncId) ≠ 0 ∧ (windowLevels 1 off).2.any (fun l => l.le .hyper) = true)
    ∧ (windowLevels 1 0x00).2 = some .kernel ∧ Priv.le .kernel .user = false ∧ (windowLevels 1 0x70).2 = none
    ∧ ((base []).part 1).physical 0 = some 0 ∧ ((base []).part 1).physical 1 = none
    ∧ (9 : Nat) % 8 ≠ 0 ∧ (base []).cur.task = some ⟨1, 1, 1, 0, 0⟩ := by decide +kernel
/-- WindowRegisters: minimal mode; posted writes of the function, ordered or relaxed, before a doorbell. -/
theorem witness_WindowRegisters_posted : State.reset.boot.minimal = false ∧ ({ State.reset.boot with minimal := true } : Boot).minimal = true
    ∧ (let s : State := { base [] with inbound := [⟨1, 0x100, [7], true⟩] }; ∀ x ∈ s.inbound, x.fn = 1 → x.relaxed = true)
    ∧ (let s : State := { base [] with inbound := [⟨1, 0x17FFFFFFFFF, [7], false⟩] }
       s.inbound = [⟨1, 0x17FFFFFFFFF, [7], false⟩] ∧ 0x17FFFFFFFFF + [(7 : Byte)].length ≤ 0x18000000000)
    ∧ (2 ^ (((base []).part 1).xsubb.toNat / 2 ^ 52 % 16 + 6) < ((65 : Word32) - ((base []).part 1).xsubh).toNat
       ∧ ¬ 2 ^ (((base []).part 1).xsubb.toNat / 2 ^ 52 % 16 + 6) < ((64 : Word32) - ((base []).part 1).xsubh).toNat) := by decide +kernel
/-- PartitionControl: a partition of one core that runs, one that is halted with the core's image in its hamper, and the states between. -/
def image0 : FullImage := ⟨(base []).curC.threads, (base []).curC.vec, (base []).curC.mat, [], []⟩
def halted0 (h : Fin 4) : State := ((base []).modPart 1 (fun p => { p with halt := h })).modCurC (fun c => { c with hamper := ⟨some image0, []⟩ })
theorem witness_PartitionControl :
    (let s := base []
     (s.part 1).halt = 0 ∧ coresOf (s.part 1) = [0] ∧ s.curC.hamper.images = [] ∧ s.curC.hamper.full.isNone = true ∧ (s.core 0).copies = []
     ∧ s.accepting 0 0 = none ∧ s.accepting 0 1 = none ∧ (s.core 0).mat.pendReissue = none ∧ (s.part 1).resetSt = .idle ∧ (s.part 1).xqtb.getLsbD 0 = false ∧ s.queries = [] ∧ (s.part 1).movStat ≠ 1
     ∧ (s.part 1).physical (s.part 1).movCore.toNat = some 0 ∧ s.holdsCtx 1 2 = false ∧ s.holdsCtx 1 1 = true)
    ∧ ((halted0 2).part 1).halt = 2 ∧ coresOf ((halted0 2).part 1) = [0] ∧ (halted0 2).curC.hamper.images = [] ∧ image0.copies = []
    ∧ ((halted0 1).part 1).halt.val < 2
    ∧ (let s := (base []).modPart 1 (fun p => { p with resetSt := .scrubbing, movStat := 1, movCore := 9 })
       (s.part 1).resetSt = .scrubbing ∧ (s.part 1).movStat = 1 ∧ (s.part 1).movWait = false
       ∧ ((s.modPart 1 (fun p => { p with movWait := true })).part 1).movWait = true
       ∧ (((halted0 1).modPart 1 (fun p => { p with haltNext := 1 })).part 1).haltNext = 1 ∧ ((halted0 1).part 1).haltNext ≠ 1
       ∧ (((base []).modPart 1 (fun p => { p with movCore := 9 })).part 1).movStat ≠ 1 ∧ (s.part 1).physical (s.part 1).movCore.toNat = none) := by decide +kernel
theorem witness_PartitionControl_full : ((halted0 2).core 0).hamper = ⟨some image0, []⟩ := by rfl
/-- A move out of context 2's image, which owns no allocation, into an area of three pages at 0; a move in of an image that is there. -/
def moving : State :=
  let i : ThreadImage := { otherImage with thread := { otherImage.thread with task := some ⟨1, 2, 4, 0, 0⟩ } }
  let t : List TlbEntry := (List.range 3).map (fun n => ⟨1, 0, n, { leaf0 with frame := 0x10000 * n }, 0, 8000000⟩)
  ((base []).modPart 1 (fun p => { p with movCtx := 2, movOp := 1 })).modCurC (fun c => { c with hamper := ⟨none, [i]⟩, vectorTlb := t })
def moveArea (k : AccKind) : State × Except (XFail × Word) (List UsedPage) :=
  areaPages moving (.vector 0) ⟨1, 0, .kernel, 0⟩ k true [] 0 (0x24000 / 4096 + 2) 0x24000
theorem witness_PartitionControl_move : let s := moving
    (s.core 0).hamper.images.length = 1 ∧ (∀ i ∈ (s.core 0).hamper.images, i.thread.isCtx 1 2 = true ∧ i.tooWide = false ∧ i.thread.launchOf = 4)
    ∧ (s.core 0).allocsOf 1 4 = [] ∧ (s.part 1).xmova = 0 ∧ (s.part 1).movCtx = 2
    ∧ (∃ s1, moveArea .store = (s1, .ok ((List.range 3).map (fun n => ⟨n, { leaf0 with frame := 0x10000 * n }, false, false⟩))))
    ∧ ∃ s1, moveArea .load = (s1, .ok ((List.range 3).map (fun n => ⟨n, { leaf0 with frame := 0x10000 * n }, false, false⟩))) :=
  ⟨by decide +kernel, by decide +kernel, by decide +kernel, by decide +kernel, by decide +kernel, fits (by decide +kernel), fits (by decide +kernel)⟩
/-- A move's area that does not translate, and one on a host page that is absent; the hamper's last place; a move in whose image is an empty one. -/
theorem witness_PartitionControl_area :
    errOf (areaPages (base []) (.vector 0) ⟨1, 0, .kernel, 0⟩ .store true [] 0x50000 (0x24000 / 4096 + 2) 0x24000).2 = some (.page 1 4, 0x50000)
    ∧ (let s : State := { mapped [] with hostAbsent := [hostKey 1 0x20000 / 4096] }
       errOf (areaPages s (.vector 0) ⟨1, 0, .kernel, 0⟩ .store true [] 0x20000 (0x24000 / 4096 + 2) 0x24000).2 = some (.absent (hostKey 1 0x20000 / 4096), 0x20000)
       ∧ (s.part 1).refusing = none ∧ ((s.modPart 1 (fun p => { p with refusing := some (hostKey 1 0x20000 / 4096) })).part 1).refusing = some (hostKey 1 0x20000 / 4096))
    ∧ 7 ≤ (List.replicate 7 otherImage).length ∧ (List.replicate 6 otherImage).length < 7
    ∧ (∀ i ∈ (base []).curC.hamper.images, i.thread.isCtx 1 2 = false) ∧ ((base []).holdsCtx 1 2 = false ∧ (base []).launch 1 0 = none) := by decide +kernel
/-- The header of an image of thread 0 for context 2 of partition 1; every other byte zero. -/
theorem witness_PartitionControl_image : (imageOf (base []) 0 1 2 (Mem.setNum [] 0 16 (1 + 2 * 2 ^ 16 + 2 ^ 24 + 2 * 2 ^ 32 + 2 ^ 64))).any
    (fun i => i.thread.launchOf == 0 && i.thread.isCtx 1 2) = true := by decide +kernel

/-- Submission: partition 1's channel holds one entry, of a kind, at 0x3000 of working memory; and an empty channel. -/
def submitted (v : Nat) : State := { (base []).modPart 1 (fun p => { p with xsubb := 0x3000, xsubt := 1, xpri := 0, halt := 0 }) with
  wm := Mem.setNum (recorded []).wm 0x3000 64 v }
theorem witness_Submission :
    (∀ v ∈ [0, 1 + 8 * 2 ^ 64, 2 + 8 * 2 ^ 64, 1 + 0x400 * 2 ^ 64, 3, 4],
      entryAt (submitted v) 1 = some 0x3000 ∧ NatSet.has (submitted v).wmPoison (0x3000 / 16) = false ∧ Mem.num (submitted v).wm 0x3000 1 = v % 256
      ∧ Mem.num (submitted v).wm 0x3001 7 = 0 ∧ Mem.num (submitted v).wm (0x3000 + 32) 32 = 0 ∧ Mem.num (submitted v).wm (0x3000 + 8) 8 = v / 2 ^ 64)
    ∧ ((base []).part 1).xsubt = ((base []).part 1).xsubh ∧ ((submitted 3).part 1).halt = 0 ∧ ((submitted 3).part 1).resetSt = .idle ∧ (submitted 2).disp.gangs = []
    ∧ coresOf (((submitted 3).modPart 1 (fun p => { p with ncores := 0 })).part 1) = []
    ∧ 2 ≤ (((submitted 4).modPart 1 (fun p => { p with ncores := 0, halt := 2 })).part 1).halt.val := by decide +kernel
/-- A launch record on a host page that is absent, asked for or refused; a core listed twice; a gang's record. -/
theorem witness_Submission_absent :
    (let t := [entry0, ⟨1, 0, 2, { leaf0 with frame := hostBase + 0x20000 }, 0, 8000000⟩]
     let s : State := { (submitted (1 + 0x20000 * 2 ^ 64)).modCore 0 (fun c => { c with scalarTlb := t, vectorTlb := t }) with
       hostAbsent := [hostKey 1 0x20000 / 4096] }
     errOf (checkLaunch s (schedUnit s 1) ⟨1, 0, .kernel, 0⟩ 0x20000 false).2 = some (.absent (hostKey 1 0x20000 / 4096))
     ∧ (s.part 1).refusing = none ∧ entryAt s 1 = some 0x3000)
    ∧ (coresOf ((base []).part 1)).eraseDups.length = (coresOf ((base []).part 1)).length
    ∧ (let s := (submitted (2 + 0x400 * 2 ^ 64)).modPart 1 (fun p => { p with xastb := 0x80000 })
       let s := { s with wm := Mem.setNum s.wm 0x400 64 (1 + 2 ^ 32 + 0x600 * 2 ^ 64 + 2 ^ 128 + 9 * 2 ^ 160 + 2 * 2 ^ 288) }
       (checkLaunch s (schedUnit s 1) ⟨1, 0, .kernel, 0⟩ 0x400 true).2.toOption.any (fun x => x.1.gtag == 9 && x.2 == 2)
       ∧ s.gang 9 = none ∧ ∀ g ∈ s.disp.gangs, g.own = none) := by decide +kernel
theorem witness_Submission_launch : let s := { (submitted (1 + 0x400 * 2 ^ 64)).modPart 1 (fun p => { p with xastb := 0x80000 }) with curCore := 0 }
    (checkLaunch s (schedUnit s 1) ⟨1, 0, .kernel, 0⟩ 0x400 false).2.toOption.any (fun x => x.1.part == 1)
    ∧ errOf (checkLaunch s (schedUnit s 1) ⟨1, 0, .kernel, 0⟩ 0x600 false).2 = some (.reason 1) := by decide +kernel
/-- A page request outstanding, waited for, answered and refused; no such group. -/
def requested : State := ((base []).modPart 1 (fun p => { p with groups := [⟨3, 7⟩] })).modCur (fun t => { t with wait := .hostPage 7 false })
theorem witness_Submission_pages : let s := requested
    (s.part 1).groups.find? (fun x => x.index == 3) = some ⟨3, 7⟩ ∧ (∀ g ∈ (s.part 1).groups, g.index ≠ 4) ∧ (s.part 1).gen ≠ (s.part 1).gen + 1
    ∧ (s.thr 0 0).wait = .hostPage 7 false ∧ (s.thr 0 0).partOf 0 = 1 := by decide +kernel
/-- Who is told of an answer: a thread that waits, one that has gone on from its request; nothing else of the partition waits. -/
theorem witness_Submission_told : let s := requested.modThr 0 1 (fun t => { t with task := (base []).cur.task, asked := some 7 })
    (s.thr 0 0).partOf 0 = 1 ∧ (s.thr 0 0).wait = .hostPage 7 false ∧ (s.thr 0 1).asked = some 7 ∧ (s.thr 0 1).partOf 0 = 1
    ∧ (s.thr 1 0).asked = none ∧ (∀ a ∈ s.disp.owed, a.part ≠ 1) ∧ (∀ q ∈ s.queries, q.part ≠ 1) ∧ (∀ o ∈ s.pageOps, o.part ≠ 1)
    ∧ (s.part 1).xsubt = (s.part 1).xsubh ∧ (s.part 1).halt ≠ 1 ∧ ¬ ((s.part 1).movStat = 1 ∧ (s.part 1).movWait = true) := by decide +kernel
theorem requested_core {k : CoreId} (h : k ≠ 0) : requested.core k = Core.reset := by
  show (State.modThr _ 0 0 _).core k = _
  rw [State.modThr, State.core_modCore_other _ _ h]
  exact base_core [] h
theorem requested_wait (k : CoreId) (u : Tid) : (requested.thr k u).wait = .none ∨ (requested.thr k u).wait = .hostPage 7 false := by
  by_cases e : k = 0
  · subst e; revert u; decide +kernel
  · left; rw [State.thr, requested_core e]; revert u; clear e; decide +kernel
theorem witness_Submission_waits (k : CoreId) (u : Tid) (q : Nat) (b : Bool) (hq : (requested.thr k u).wait = .hostPage q b) : q = 7 := by
  rcases requested_wait k u with h | h <;> rw [h] at hq <;> cases hq
  rfl
theorem witness_Submission_idle (k : CoreId) : (requested.core k).copies = [] ∧ requested.engines[k].chain = [] := by
  constructor
  · by_cases e : k = 0
    · subst e; decide +kernel
    · rw [requested_core e]; rfl
  · revert k; decide +kernel

/-- DebugCommands: debug enabled or not, core 0 halted or not, a trigger at the thread's pc. -/
def debugged (halted : Bool) (cmd : Nat) : State :=
  { ((base []).modPart 1 (fun p => { p with debugOn := true })).modCurC (fun c =>
      { c with halted := halted, triggers := c.triggers.set 0 ⟨0x1000, 1⟩ }) with dbg := { State.reset.dbg with dcmd := BitVec.ofNat 32 cmd } }
theorem witness_DebugCommands :
    (∀ h ∈ [true, false], let s := debugged h 0
      (s.part (s.corePart 0)).debugOn = true ∧ (s.core 0).halted = h ∧ (s.core 0).triggers[(0 : Fin 4)].control.getLsbD 0 = true
      ∧ (s.core 0).triggers[(0 : Fin 4)].addr = (s.thr 0 0).pc ∧ (s.core 0).triggers[(0 : Fin 4)].control.getLsbD 13 = false ∧ (s.thr 0 0).dcause ≠ 3
      ∧ s.dbg.core.toNat = (0 : CoreId).val)
    ∧ ((base []).part ((base []).corePart 0)).debugOn = false ∧ (base []).dbg.core.toNat < 384
    ∧ 384 ≤ ({ State.reset.dbg with core := 384 } : Debug).core.toNat ∧ ((base []).core 0).bank ≠ .guest
    ∧ (((base []).modCurC (fun c => { c with bank := .guest })).core 0).bank = .guest ∧ ((base []).core 0).vec.block = none := by decide +kernel
/-- The commands: a register, dpc, eight bytes, an element, a granule, a pair of an accumulator's row, its bound and what has no meaning. -/
theorem witness_DebugCommands_commands :
    (0x1005 % 2 ^ 22 = 0x1000 + 5 ∧ 0x1005 / 2 ^ 24 = 0) ∧ ((0x2000 + 2 ^ 23) % 2 ^ 22 = 0x2000 ∧ ((0x802000 : Word32)).getLsbD 23 = true)
    ∧ ((2 ^ 24 + 7) / 2 ^ 24 = 1 ∧ (2 ^ 24 + 7) % 2 ^ 22 = 7 ∧ (0x18000000000 - 8) % 8 = 0 ∧ 0x18000000000 - 8 + 8 ≤ 0x18000000000)
    ∧ ((2 * 2 ^ 24 + 31 + 64 * 511) / 2 ^ 24 = 2 ∧ (31 + 64 * 511) % 64 = 31 ∧ 31 + 64 * 511 < 2 ^ 15)
    ∧ (3 * 2 ^ 24 / 2 ^ 24 = 3 ∧ 0x3FFFF0 % 16 = 0 ∧ 0x3FFFF0 < 0x400000)
    ∧ ((4 * 2 ^ 24 + (3 + 4 * 127 + 512 * 63)) / 2 ^ 24 = 4 ∧ 63 < 64 ∧ (3 + 4 * 127 + 512 * 66 < 2 ^ 22 ∧ 65 < 66)) ∧ ((0x1005 : Word32).getLsbD 23 = false) := by decide

/-- MachineChecks: events of each severity at a bank that is empty and one that holds a contained error; a check waiting; fetches that fail. -/
def event0 (v : Severity) : McEvent := ⟨3, 2, v, 5, 1, 1, some 0x40, 0, 0, 0, 0, .wm 4⟩
theorem witness_MachineChecks : (State.reset.bank 3 2).mcstat.getLsbD 0 = false
    ∧ (let s := outState (base []) (exec (.machineCheckLog (event0 .contained)) (base []))
       (s.bank 3 2).mcstat.getLsbD 0 = true ∧ 2 ≤ (s.bank 3 2).mcstat.toNat / 2 % 4 ∧ (s.bank 3 2).mcstat.toNat / 2 % 4 < 3 ∧ (s.thr 0 0).checks = [(3, 2)])
    ∧ ((base []).thr 0 0).task = some ⟨1, 1, 1, 0, 0⟩ ∧ ((base []).core 0).vec.block = none ∧ ((base []).thr 0 0).checks = []
    ∧ State.reset.boot.stage.val < 5 := by decide +kernel
/-- A corrected error counted for the first time, one short of a report, and the sixteenth; each place of poison; a thread occupied. -/
theorem witness_MachineChecks_counts : let e : McEvent := { event0 .corrected with bank := 8, kind := 1 }
    (e.sev = .corrected ∧ e.kind = 1 ∧ 8 ≤ e.bank.val ∧ e.bank.val ≤ 13 ∧ e.addr ≠ none)
    ∧ ({ e with bank := 13 } : McEvent).bank.val ≤ 13 ∧ ¬ ((event0 .corrected).kind = 1)
    ∧ (List.replicate 14 0).length < 15 ∧ 15 ≤ (List.replicate 15 0).length
    ∧ (let c : Corrected := ⟨3, 8, 0, List.replicate 15 0⟩
       (([c].find? (fun x => x.die == e.die && x.bank == e.bank && x.page == 0x40 / 0x10000)).elim [] (fun x => x.times)).filter
         (fun x => decide ((base []).time.toNat < x + 86400000000000)) = List.replicate 15 0)
    ∧ ((halted0 2).core 0).hamper.full = some image0 ∧ (moving.core 0).hamper.images[0]?.isSome = true
    ∧ (base []).occupied 0 0 = false ∧ ((base []).modMat (fun m => { m with filling := some ⟨0, 2, []⟩ })).occupied 0 0 = true
    ∧ (((base []).modCur (fun t => { t with checks := [(3, 2)] })).thr 0 0).checks = (3, 2) :: [] := by
  refine ⟨by decide +kernel, by decide +kernel, by decide +kernel, by decide +kernel, by decide +kernel, by decide +kernel, by rfl, by decide +kernel,
    by decide +kernel, by decide +kernel, by decide +kernel⟩
theorem witness_MachineChecks_fetch : canonical ((base []).modCur (fun t => { t with pc := BitVec.ofNat 64 (2 ^ 60) })).cur.pc = false
    ∧ (let s := (mapped []).modCur (fun t => { t with pc := 0x20000, priv := .user })
       canonical s.cur.pc = true ∧ s.cur.pc.toNat % 4 = 0 ∧ ∃ s1, translate s (.scalar s.curCore) s.curReq .fetch s.cur.pc false = (s1, .error .access))
    ∧ (let s := (mapped []).modCur (fun t => { t with pc := 0x50000 })
       s.cur.pc.toNat % 4 = 0 ∧ (match (translate s (.scalar s.curCore) s.curReq .fetch s.cur.pc false).2 with | .error (.page _ _) => true | _ => false) = true) :=
  ⟨by decide +kernel, ⟨by decide +kernel, by decide +kernel, _, eq_error (by decide +kernel)⟩, by decide +kernel⟩

/-- StartUpAndOutside: a stage under way, in time and late, the last stage and none; writes at the end of working memory; a link that is up. -/
theorem witness_StartUpAndOutside :
    (let b := State.reset.boot
     ¬ (b.stage.val = 0 ∨ 5 ≤ b.stage.val) ∧ State.reset.time.toNat < b.since + 30000000000
     ∧ b.since + 30000000000 ≤ ({ State.reset with time := 30000000000 } : State).time.toNat ∧ ({ b with stage := 4 } : Boot).stage.val = 4
     ∧ 5 ≤ ({ b with stage := 5 } : Boot).stage.val)
    ∧ 0x17FFFFFFFFF + [(7 : Byte)].length ≤ 0x18000000000 ∧ 0x18000000000 < 0x18000000000 + [(7 : Byte)].length
    ∧ (5 : Fin 17) ∉ State.reset.linksDown ∧ (5 : Fin 17) ∈ ({ State.reset with linksDown := [5] } : State).linksDown := by decide +kernel
/-- StartUpAndOutside: what is due at each stage; posted writes with and without an earlier one of the function; peers that reach the module. -/
theorem witness_StartUpAndOutside_due :
    (1 ≤ State.reset.boot.stage.val ∧ State.reset.boot.stage.val ≤ 3 ∧ [(7 : BitVec 512)].length = 1 ∧ [(7 : BitVec 512)].getLast? = some 7
      ∧ ([] : List (BitVec 512)).length ≠ 1 ∧ ({ State.reset.boot with stage := 3 } : Boot).stage.val ≤ 3 ∧ State.reset.boot.measurements.getLast? = none
      ∧ ({ State.reset.boot with measurements := [7] } : Boot).measurements.getLast? = some 7)
    ∧ (let a : Posted := ⟨1, 0x100, [7], false⟩
       let b : Posted := ⟨1, 0x200, [8], false⟩
       let s : State := { State.reset with inbound := [a, b] }
       a ∈ s.inbound ∧ b ∈ s.inbound ∧ (⟨1, 0x300, [8], false⟩ : Posted) ∉ s.inbound
       ∧ (s.inbound[0]? = some a ∧ a.fn = 1 ∧ a.relaxed = false ∧ s.inbound[0]? ≠ some b))
    ∧ ¬ (State.reset.boot.minimal = true ∨ (5 : Fin 17) ∈ State.reset.linksDown)
    ∧ Mem.num State.reset.wm 0x100 4 = (0 : Word).toNat % 256 ^ 4 ∧ Mem.num State.reset.wm 0x100 4 ≠ (1 : Word).toNat % 256 ^ 4 := by decide +kernel

/-! ## Transfers of whole images -/

/-- Sixty-four pages of generic space at the first frames of working memory, for engine 0 and core 0's vector unit. -/
def leafAt (n : Nat) : LeafInfo := { leaf0 with frame := 0x10000 * n }
def pages64 : List UsedPage := (List.range 64).map (fun n => ⟨n, leafAt n, false, false⟩)
def tlb64 : List TlbEntry := (List.range 64).map (fun n => ⟨1, 0, n, leafAt n, 0, 8000000⟩)
def rq64 : XReq := ⟨1, 0, .kernel, 0⟩
theorem hit64 : ∀ n, n < 64 → tlbHit tlb64 0 rq64 n = some ⟨1, 0, n, leafAt n, 0, 8000000⟩ := by decide +kernel
theorem used64 : ∀ n, n < 64 → ∃ p ∈ pages64, pages64.find? (fun p => p.covers n) = some p ∧ (p.leaf.at n).sameAs (leafAt n) = true := by decide +kernel

theorem translate64 {s : State} {u : XUnit} {k : AccKind} {hostOk : Bool} (va : Word) (hk : k ≠ .fetch) (h1 : unitTlb s u = tlb64) (h2 : unitTime s u = 0)
    (hv : va.toNat < 2 ^ 22) : Machine.translate s u rq64 k va hostOk = (s, .ok (.wm va.toNat, leafAt (va.toNat / 0x10000))) := by
  have e : bitsOf va.toNat 16 41 = va.toNat / 0x10000 := by simp only [bitsOf]; omega
  have hh := hit64 (va.toNat / 0x10000) (by omega)
  have hd : (leafAt (va.toNat / 0x10000)).dirty = true := rfl
  have hl : leafOf s u rq64 k.writes false va.toNat = (s, .ok (leafAt (va.toNat / 0x10000))) := by
    have hc : s.noteUse (unitAgent u) rq64 = s := by simp [State.noteUse, rq64]
    simp only [leafOf, hc, Bool.false_eq_true, if_false, e]
    rw [h1, h2, hh]
    simp [hd]
  have ht : leafTarget s rq64 (leafAt (va.toNat / 0x10000)) va.toNat hostOk (k != .fetch) = .ok (.wm va.toNat) := by
    have : (0x10000 * (va.toNat / 0x10000) + va.toNat % 0x10000) = va.toNat := by omega
    simp only [leafTarget, leafAt, leaf0]
    simp [this, wmSize]
    omega
  have hp : permFail (leafAt (va.toNat / 0x10000)) k rq64.priv = none := by cases k <;> first | rfl | exact absurd rfl hk
  simp only [Machine.translate, hl, checkLeaf, hp, ht, State.noteAts]

theorem canonical64 {va : Word} (hv : va.toNat < 2 ^ 22) : canonical va = true := by
  have h : bitsOf va.toNat 56 8 = 0 := by simp only [bitsOf]; omega
  simp [canonical, h]
theorem access64 {s : State} {u : XUnit} {k : AccKind} {hostOk : Bool} (va : Word) (hk : k ≠ .fetch) (h1 : unitTlb s u = tlb64) (h2 : unitTime s u = 0)
    (hv : va.toNat < 2 ^ 22) : xferAccess s u rq64 k hostOk pages64 va = (s, .ok (.wm va.toNat, pages64)) := by
  have e : bitsOf va.toNat 16 41 = va.toNat / 0x10000 := by simp only [bitsOf]; omega
  obtain ⟨p, -, hp, hs⟩ := used64 (va.toNat / 0x10000) (by omega)
  simp only [xferAccess, canonical64 hv, Bool.not_true, Bool.false_eq_true, if_false, e, hp, Option.isNone_some, Bool.false_and, translate64 va hk h1 h2 hv, hs, if_true]
theorem pieces64 {s : State} {u : XUnit} {k : AccKind} {hostOk : Bool} {n : Nat} (va : Word) (hk : k ≠ .fetch) (h1 : unitTlb s u = tlb64)
    (h2 : unitTime s u = 0) (hv : va.toNat < 2 ^ 22) (hn : n ≤ 4096 - va.toNat % 4096) :
    xferPieces s u rq64 k hostOk pages64 va n = (s, .ok ([(.wm va.toNat, n)], pages64)) := by
  have e : min n (4096 - va.toNat % 4096) = n := by omega
  simp only [xferPieces, access64 va hk h1 h2 hv, e, if_true]

/-- An image written at page-aligned addresses below 4 MiB lands. -/
theorem write64 (u : XUnit) : ∀ (fuel : Nat) (s : State) (bs : List Byte) (va : Word), va.toNat % 4096 = 0 → va.toNat + 4096 * fuel ≤ 2 ^ 22 →
    unitTlb s u = tlb64 → unitTime s u = 0 →
    ∃ m p, imageWrite s u rq64 pages64 va fuel bs = ({ s with wm := m, wmPoison := p }, none) := by
  intro fuel
  induction fuel with
  | zero => intro s bs va _ _ _ _; exact ⟨s.wm, s.wmPoison, rfl⟩
  | succ fuel ih =>
    intro s bs va ha hf h1 h2
    by_cases hb : bs.isEmpty
    · exact ⟨s.wm, s.wmPoison, by simp [imageWrite, hb]⟩
    · have hp := pieces64 (s := s) (u := u) (k := .store) (hostOk := false) (n := min bs.length (4096 - va.toNat % 4096)) va (by decide) h1 h2 (by omega) (by omega)
      simp only [imageWrite, hb, hp, Bool.false_eq_true, if_false, writePieces, tgtWrite]
      by_cases hl : bs.length < 4096
      · have : bs.drop (min bs.length (4096 - va.toNat % 4096)) = [] := by simp; omega
        rw [this]
        cases fuel with
        | zero => exact ⟨_, _, rfl⟩
        | succ f => exact ⟨_, _, rfl⟩
      · have hm : min bs.length (4096 - va.toNat % 4096) = 4096 := by omega
        rw [hm]
        have hx : (va + BitVec.ofNat 64 4096).toNat = va.toNat + 4096 := by
          rw [BitVec.toNat_add]; simp only [BitVec.toNat_ofNat]; omega
        have h1' : ∀ m p, unitTlb { s with wm := m, wmPoison := p } u = tlb64 := by intro m p; rw [← h1]; cases u <;> rfl
        have h2' : ∀ m p, unitTime { s with wm := m, wmPoison := p } u = 0 := by intro m p; rw [← h2]; cases u <;> rfl
        obtain ⟨m, p, h⟩ := ih { s with wm := _, wmPoison := _ } (bs.drop 4096) (va + BitVec.ofNat 64 4096) (by omega) (by omega) (h1' _ _) (h2' _ _)
        exact ⟨m, p, h⟩

/-- An image read at page-aligned addresses below 4 MiB is read whole and leaves the state as it was. -/
theorem read64 {s : State} (u : XUnit) (h1 : unitTlb s u = tlb64) (h2 : unitTime s u = 0) (hp : s.wmPoison = []) : ∀ (fuel n : Nat) (va : Word),
    va.toNat % 4096 = 0 → va.toNat + 4096 * fuel ≤ 2 ^ 22 → ∃ img, imageRead s u rq64 pages64 va fuel n = (s, .ok (img, false)) := by
  intro fuel
  induction fuel with
  | zero => intro n va _ _; exact ⟨[], rfl⟩
  | succ fuel ih =>
    intro n va ha hf
    by_cases hn : n = 0
    · exact ⟨[], by simp [imageRead, hn]⟩
    · have hq := pieces64 (s := s) (u := u) (k := .load) (hostOk := false) (n := min n (4096 - va.toNat % 4096)) va (by decide) h1 h2 (by omega) (by omega)
      have hb : ((granulesOf va.toNat (min n (4096 - va.toNat % 4096))).any fun g => NatSet.has s.wmPoison g) = false := by
        rw [hp]; simp [NatSet.has]
      simp only [imageRead, hn, if_false, hq, readPieces, tgtRead, hb]
      by_cases hl : n < 4096
      · have e : n - min n (4096 - va.toNat % 4096) = 0 := by omega
        rw [e]
        cases fuel with
        | zero => exact ⟨_, rfl⟩
        | succ f => exact ⟨_, rfl⟩
      · have hm : min n (4096 - va.toNat % 4096) = 4096 := by omega
        have hx : (va + BitVec.ofNat 64 4096).toNat = va.toNat + 4096 := by
          rw [BitVec.toNat_add]; simp only [BitVec.toNat_ofNat]; omega
        obtain ⟨img, h⟩ := ih (n - 4096) (va + BitVec.ofNat 64 4096) (by omega) (by omega)
        rw [hm, h]
        exact ⟨_, rfl⟩

theorem bytes_append (m : Memory) : ∀ (k n a : Nat), Mem.bytes m a (k + n) = Mem.bytes m a k ++ Mem.bytes m (a + k) n
  | 0, n, a => by simp [Mem.bytes]
  | k + 1, n, a => by
    rw [show k + 1 + n = (k + n) + 1 by omega]
    simp [Mem.bytes, bytes_append m k n (a + 1), show a + 1 + k = a + (k + 1) by omega]
/-- An area read below 4 MiB is the bytes of working memory, and leaves the state as it was. -/
theorem area64 {s : State} (u : XUnit) (h1 : unitTlb s u = tlb64) (h2 : unitTime s u = 0) (hp : s.wmPoison = []) : ∀ (fuel o : Nat),
    o + 16 * fuel ≤ 2 ^ 22 → areaRead s u rq64 0 fuel o = (s, Mem.bytes s.wm o (16 * fuel), []) := by
  intro fuel
  induction fuel with
  | zero => intro o _; rfl
  | succ fuel ih =>
    intro o ho
    have hv : (BitVec.ofNat 64 (0 + o)).toNat = o := by simp; omega
    have ht := translate64 (s := s) (u := u) (k := .load) (hostOk := true) (BitVec.ofNat 64 (0 + o)) (by decide) h1 h2 (by omega)
    have hb : ((granulesOf o 16).any fun g => NatSet.has s.wmPoison g) = false := by rw [hp]; simp [NatSet.has]
    rw [areaRead, ht]
    simp only [hv, tgtRead, hb, ih (o + 16) (by omega)]
    rw [show 16 * (fuel + 1) = 16 + 16 * fuel by omega, bytes_append]
    simp
theorem get_above {m : Memory} {a : Nat} (h : ∀ c ∈ m, a < c.1) : Mem.get m a = 0 := by
  induction m with
  | nil => rfl
  | cons c t ih =>
    have := h c (by simp)
    simp only [Mem.get]
    rw [if_neg (by omega)]
    exact ih (fun x hx => h x (by simp [hx]))
theorem bytes_tail {x : Nat} {v : Byte} {t : Memory} : ∀ (n a : Nat), x < a → Mem.bytes ((x, v) :: t) a n = Mem.bytes t a n
  | 0, _, _ => rfl
  | n + 1, a, h => by simp only [Mem.bytes, Mem.get]; rw [if_neg (by omega), bytes_tail n (a + 1) (by omega)]
/-- The listed bytes of a memory are its bytes that are not zero. -/
theorem cells_of_bytes : ∀ (n a : Nat) (m : Memory), m.Pairwise (fun x y => x.1 < y.1) → (∀ c ∈ m, a ≤ c.1 ∧ c.1 < a + n ∧ c.2 ≠ 0) →
    (((Mem.bytes m a n).zipIdx a).filter (fun x => x.1 != 0)).map (fun x => (x.2, x.1)) = m := by
  intro n
  induction n with
  | zero =>
    intro a m _ h
    cases m with
    | nil => rfl
    | cons c t => have := h c (by simp); omega
  | succ n ih =>
    intro a m hs h
    cases m with
    | nil =>
      have e := ih (a + 1) [] List.Pairwise.nil (by simp)
      simpa [Mem.bytes, Mem.get] using e
    | cons c t =>
      obtain ⟨x, v⟩ := c
      have hx := h (x, v) (by simp)
      obtain ⟨hxt, hst⟩ := List.pairwise_cons.1 hs
      have hgt : ∀ c ∈ t, x < c.1 := fun c hc => hxt c hc
      have ht : ∀ c ∈ t, c.1 < a + (n + 1) ∧ c.2 ≠ 0 := fun c hc => (h c (by simp [hc])).2
      have hx1 : a ≤ x := hx.1
      have hx2 : x < a + (n + 1) := hx.2.1
      by_cases hxa : x = a
      · subst hxa
        have e := ih (x + 1) t hst (fun c hc => by
          have h1 := hgt c hc
          obtain ⟨h2, h3⟩ := ht c hc
          exact ⟨by omega, by omega, h3⟩)
        have hg : Mem.get ((x, v) :: t) x = v := by simp [Mem.get]
        have hv : v ≠ 0 := hx.2.2
        simp only [Mem.bytes, hg, bytes_tail (x := x) n (x + 1) (by omega), List.zipIdx_cons]
        rw [List.filter_cons_of_pos (by simpa using hv), List.map_cons, e]
      · have e := ih (a + 1) ((x, v) :: t) hs (fun c hc => by
          rcases List.mem_cons.1 hc with rfl | hc
          · exact ⟨by show a + 1 ≤ x; omega, by show x < a + 1 + n; omega, hx.2.2⟩
          · have h1 := hgt c hc
            obtain ⟨h2, h3⟩ := ht c hc
            exact ⟨by omega, by omega, h3⟩)
        have hz : Mem.get ((x, v) :: t) a = 0 := get_above (fun c hc => by
          rcases List.mem_cons.1 hc with rfl | hc
          · show a < x; omega
          · have h1 := hgt c hc; omega)
        simp only [Mem.bytes, hz, List.zipIdx_cons]
        rw [List.filter_cons_of_neg (by simp)]
        exact e
/-- PageOperations: a sealing whose image is written, and an unsealing whose image is read. -/
def sealing (fn : Nat) : State :=
  let o := { pageOp fn true with ctx := 0, aux1 := 0, pages := pages64 }
  { (paging 0 0x40 0).modEngine 0 (fun e => { e with tlb := tlb64 }) with pageOps := [o] }
theorem witness_PageOperations_images :
    (∀ img, ∃ s1, imageWrite (sealing 10) (.engine 0) rq64 pages64 0 1024 img = (s1, none) ∧ s1.time = (sealing 10).time ∧ s1.pageOps = (sealing 10).pageOps
      ∧ rangeInAllocs ((s1.core 0).allocsOf 1 1) 0x300 16 = true)
    ∧ (∃ img, imageRead (sealing 11) (.engine 0) rq64 pages64 0 1024 0x200040 = (sealing 11, .ok (img, false)))
    ∧ rangeInAllocs (((sealing 11).core 0).allocsOf 1 1) 0x300 16 = true
    ∧ ∃ o, (sealing 10).pageOps.find? (fun x => x.id == 5) = some o ∧ o.rq = rq64 ∧ o.pages = pages64 ∧ o.aux1 = 0 ∧ o.copied = true ∧ o.counter = none := by
  refine ⟨fun img => ?_, read64 _ (by decide +kernel) (by decide +kernel) (by decide +kernel) 1024 _ 0 (by decide) (by decide), by decide +kernel,
    _, rfl, rfl, rfl, rfl, rfl, rfl⟩
  obtain ⟨m, p, h⟩ := write64 (.engine 0) 1024 (sealing 10) img 0 (by decide) (by decide) (by decide +kernel) (by decide +kernel)
  have ha : rangeInAllocs (((sealing 10).core 0).allocsOf 1 1) 0x300 16 = true := by decide +kernel
  refine ⟨_, h, ?_, ?_, ?_⟩ <;> generalize sealing 10 = s at ha ⊢
  · rfl
  · rfl
  · exact ha
/-- PartitionControl: a move in of an image of context 2 that lies at 0. -/
def arriving : State := { (base []).modCurC (fun c => { c with vectorTlb := tlb64 }) with
  wm := [(0, 1), (2, 2), (3, 1), (4, 2), (8, 1)] }
theorem witness_PartitionControl_arriving : let p := (arriving.modPart 1 (fun p => { p with movOp := 2, movCtx := 2 })).part 1
    let si := arriving.modPart 1 (fun p => { p with movOp := 2, movCtx := 2 })
    ∃ i, p.xmova = 0 ∧ arriving.holdsCtx 1 2 = false
      ∧ areaRead si (.vector 0) rq64 0 (0x24000 / 16) 0 = (si, Mem.bytes si.wm 0 (16 * (0x24000 / 16)), [])
      ∧ imageOf si 0 1 2 (((Mem.bytes si.wm 0 (16 * (0x24000 / 16))).zipIdx.filter (fun x => x.1 != 0)).map (fun x => (x.2, x.1))) = some i
      ∧ si.launch 1 i.thread.launchOf = none := by
  have hc := cells_of_bytes (16 * (0x24000 / 16)) 0 arriving.wm (by decide) (by decide)
  have hi : ((imageOf (arriving.modPart 1 (fun p => { p with movOp := 2, movCtx := 2 })) 0 1 2 arriving.wm).any
    (fun i => (arriving.launch 1 i.thread.launchOf).isNone)) = true := by decide +kernel
  intro p si
  cases hx : imageOf si 0 1 2 arriving.wm with
  | none => rw [show imageOf _ 0 1 2 arriving.wm = none from hx] at hi; cases hi
  | some i =>
    refine ⟨i, by decide +kernel, by decide +kernel, area64 _ (by decide +kernel) (by decide +kernel) (by decide +kernel) _ _ (by decide), ?_, ?_⟩
    · exact (congrArg (imageOf si 0 1 2) hc).trans hx
    · rw [show imageOf _ 0 1 2 arriving.wm = some i from hx] at hi
      exact Option.isNone_iff_eq_none.1 hi
end Sys2Proof.Tests
end

section
/-! PROOFS. The memories after reset. -/

namespace Sys2Proof.Machine

/-- No byte of a scratchpad is listed after reset (R72). -/
theorem spad_reset (k : CoreId) : (State.reset.core k).spad = [] := by
  simp [State.core, State.reset, Core.reset]

/-- Settles O11: nothing is listed in any memory after reset. -/
theorem resetMemoryCanonical : Obligations.ResetMemoryCanonical := by
  unfold Obligations.ResetMemoryCanonical MemInv
  refine ⟨rfl, rfl, rfl, ?_, fun k => ?_⟩
  · simp [State.reset]
  · rw [spad_reset k]; rfl

end Sys2Proof.Machine
end

section
/-!
PROOFS. What the tables of memory read after a write at a target, and what a fetch and a thread that cannot issue do.
-/

namespace Sys2Proof.Machine

/-! ## A peer's memory -/

/-- The list that holds a peer's memory: the memory under its position, nothing else of that position. -/
theorem State.peerMem_setPeerMem (s : State) (pos q : Nat) (m : Memory) :
    (s.setPeerMem pos m).peerMem q = if q = pos then m else s.peerMem q := by
  have hdrop (r : Nat → Bool) (hr : ∀ x, x = q → r x = true) :
      (s.peers.filter (fun p => r p.1)).find? (fun p => p.1 == q) = s.peers.find? (fun p => p.1 == q) := by
    rw [List.find?_filter]
    congr 1; funext p
    by_cases h : p.1 = q <;> simp [h, hr]
  have hnone (r : Nat → Bool) (hr : r q = false) : (s.peers.filter (fun p => r p.1)).find? (fun p => p.1 == q) = none := by
    rw [List.find?_eq_none]
    intro p hp h
    obtain ⟨-, h2⟩ := List.mem_filter.1 hp
    rw [beq_iff_eq.1 h, hr] at h2; cases h2
  simp only [State.peerMem, State.setPeerMem, List.filter_filter, List.find?_append]
  rcases Nat.lt_trichotomy q pos with h | h | h
  · rw [hdrop (fun x => decide (x < pos) && x != pos) (by rintro _ rfl; simp; omega), hnone (fun x => decide (pos < x) && x != pos) (by simp; omega)]
    by_cases hm : m.isEmpty <;> simp [hm, Nat.ne_of_lt h, (Nat.ne_of_lt h).symm]
  · subst h
    rw [hnone (fun x => decide (x < q) && x != q) (by simp), hnone (fun x => decide (q < x) && x != q) (by simp)]
    by_cases hm : m.isEmpty
    · simp [List.isEmpty_iff.1 hm]
    · simp [hm]
  · rw [hnone (fun x => decide (x < pos) && x != pos) (by simp; omega), hdrop (fun x => decide (pos < x) && x != pos) (by rintro _ rfl; simp; omega)]
    by_cases hm : m.isEmpty <;> simp [hm, Nat.ne_of_gt h, (Nat.ne_of_lt h)]

/-! ## Targets -/

/-- What was written at a target that is memory is read back (R1). -/
theorem tgtRead_tgtWrite (s : State) {t : Tgt} (bs : List Byte) (ht : ∀ f o, t ≠ .window f o) :
    (tgtRead (tgtWrite s t bs) t bs.length).1 = bs := by
  cases t with
  | wm pa => exact Mem.bytes_setBytes
  | host a => exact Mem.bytes_setBytes
  | peer pos pa => simp [tgtRead, tgtWrite, State.peerMem_setPeerMem, Mem.bytes_setBytes]
  | window f o => exact absurd rfl (ht f o)

/-- A byte that no offset below n from a reaches lies outside the range. -/
theorem outside_of_ne {a b n : Nat} (h : ∀ i, i < n → a + i ≠ b) : b < a ∨ a + n ≤ b := by
  by_contra hc
  exact h (b - a) (by omega) (by omega)

/-- A write at a target changes the bytes that it covers and no other (R35, R163). -/
theorem byteAt_tgtWrite_out (s : State) (t : Tgt) (bs : List Byte) {p : Place} (hp : ¬ t.covers bs.length p) :
    (tgtWrite s t bs).byteAt p = s.byteAt p := by
  have hne (i : Nat) (hi : i < bs.length) : t.place i ≠ some p := fun h => hp ⟨i, hi, h⟩
  cases t with
  | wm pa =>
    cases p with
    | wm b => exact Mem.get_setBytes_out (outside_of_ne fun i hi h => hne i hi (by simp [Tgt.place, h]))
    | _ => rfl
  | host a =>
    cases p with
    | host b => exact Mem.get_setBytes_out (outside_of_ne fun i hi h => hne i hi (by simp [Tgt.place, h]))
    | _ => rfl
  | peer pos pa =>
    cases p with
    | peer q b =>
      simp only [State.byteAt, tgtWrite, State.peerMem_setPeerMem]
      split
      · next h =>
        subst h
        exact Mem.get_setBytes_out (outside_of_ne fun i hi h => hne i hi (by simp [Tgt.place, h]))
      · rfl
    | _ => rfl
  | window f o => rfl

/-- Settles O13: the bytes read back are those written, a number's are its little-endian ones, and no byte outside changes. -/
theorem targetReadAfterWrite : Obligations.TargetReadAfterWrite := by
  intro s t bs ht
  refine ⟨tgtRead_tgtWrite s bs ht, fun p hp => byteAt_tgtWrite_out s t bs hp, fun n v => ?_⟩
  have h := tgtRead_tgtWrite s (leBytes n v) ht
  rw [leBytes_length] at h
  rw [h, leNat_leBytes]

/-! ## Fetching (R47, R60, R199) -/

/-- An aligned word lies in one granule. -/
theorem granulesOf_word {pa : Nat} (h : pa % 4 = 0) : granulesOf pa 4 = [pa / 16] := by
  have h1 : (pa + 4 + 15) / 16 - pa / 16 = 1 := by omega
  simp [granulesOf, h1]

/-- A leaf that is a plain frame of working memory names the byte of the frame (R35). -/
theorem leafTarget_wm (s : State) (rq : XReq) {lf : LeafInfo} {va : Nat} (hostOk stripeOk : Bool) (hk : lf.kind ≠ 3) (hs : lf.stripe = none)
    (hpa : lf.frame + va % 0x10000 < wmSize) : leafTarget s rq lf va hostOk stripeOk = .ok (.wm (lf.frame + va % 0x10000)) := by
  simp [leafTarget, hk, hs, hpa]

/-- A live entry of the scalar TLB serves a read or a fetch as it stands: only the use is noted (R56, R60, R63). -/
theorem leafOf_scalar_hit {s : State} {k : CoreId} {rq : XReq} {va : Nat} {e : TlbEntry}
    (h : tlbHit (s.core k).scalarTlb (s.coreTime k) rq (bitsOf va 16 41) = some e) :
    leafOf s (.scalar k) rq false false va = (s.noteUse (.core k) rq, .ok e.leaf) := by
  have hc (j : CoreId) : (s.noteUse (.core k) rq).core j = s.core j := by unfold State.noteUse; split <;> rfl
  have ht : (s.noteUse (.core k) rq).coreTime k = s.coreTime k := by unfold State.noteUse; split <;> rfl
  simp only [leafOf, unitAgent, unitTlb, unitTime, hc, ht, h, Bool.false_eq_true, ↓reduceIte, Bool.not_false, Bool.true_or]

/-- Byte i of a word made of four bytes is the i-th of them (R1). -/
theorem extractLsb'_leNat {bs : List Byte} (h : bs.length = 4) {i : Nat} (hi : i < bs.length) :
    (BitVec.ofNat 32 (leNat bs)).extractLsb' (8 * i) 8 = bs[i] := by
  obtain ⟨a, b, c, d, rfl⟩ : ∃ a b c d, bs = [a, b, c, d] := by
    match bs, h with
    | [a, b, c, d], _ => exact ⟨a, b, c, d, rfl⟩
  have ha := a.isLt; have hb := b.isLt; have hc := c.isLt; have hd := d.isLt
  apply BitVec.eq_of_toNat_eq
  simp only [List.length_cons, List.length_nil] at hi
  simp only [leNat, BitVec.extractLsb'_toNat, BitVec.toNat_ofNat, Nat.shiftRight_eq_div_pow]
  rcases i with _ | _ | _ | _ | i
  · simp; omega
  · simp; omega
  · simp; omega
  · simp; omega
  · omega

/-- A fetch through a live, permitted, plain entry reads the four bytes of the frame and notes the use (R199). -/
theorem fetchWord_hit {s : State} {pc : Word} {e : TlbEntry} (hcan : canonical pc = true) (hal : pc.toNat % 4 = 0)
    (hhit : tlbHit s.curC.scalarTlb (s.coreTime s.curCore) s.curReq (bitsOf pc.toNat 16 41) = some e)
    (hperm : permFail e.leaf .fetch s.cur.priv = none) (hk : e.leaf.kind ≠ 3) (hs : e.leaf.stripe = none) (hf : e.leaf.frame % 0x10000 = 0)
    (hpa : e.leaf.frame + pc.toNat % 0x10000 < wmSize)
    (hp : NatSet.has s.wmPoison ((e.leaf.frame + pc.toNat % 0x10000) / 16) = false) :
    fetchWord s pc = (s.noteUse (.core s.curCore) s.curReq,
      .ok (BitVec.ofNat 32 (leNat (Mem.bytes s.wm (e.leaf.frame + pc.toNat % 0x10000) 4)))) := by
  have hpriv : permFail e.leaf .fetch s.curReq.priv = none := hperm
  have hwm : (s.noteUse (.core s.curCore) s.curReq).wm = s.wm := by unfold State.noteUse; split <;> rfl
  have hpo : (s.noteUse (.core s.curCore) s.curReq).wmPoison = s.wmPoison := by unfold State.noteUse; split <;> rfl
  have htr : translate s (.scalar s.curCore) s.curReq .fetch pc false
      = (s.noteUse (.core s.curCore) s.curReq, .ok (.wm (e.leaf.frame + pc.toNat % 0x10000), e.leaf)) := by
    simp only [translate, AccKind.writes, leafOf_scalar_hit hhit, checkLeaf, hpriv, leafTarget_wm _ _ _ _ hk hs hpa, State.noteAts]
  simp [fetchWord, hcan, hal, htr, tgtRead, hwm, hpo, granulesOf_word (pa := e.leaf.frame + pc.toNat % 0x10000) (by omega), hp]

/-! ## A thread that issues nothing (R312) -/

/-- A turn of a thread that is not runnable changes nothing but the agenda. -/
theorem step_run_of_not_runnable {s : State} {k : CoreId} {t : Tid} {rest : List Turn} (ha : s.agenda = .run k t :: rest)
    (h : runnable { s with agenda := rest } k t = false) : step s = .next { s with agenda := rest } := by
  simp [step, runStep, ha, applyTurn, runThread, h]

/-- Without a task, halted, after a fatal error or in minimal mode no thread of a compute core is runnable (R318, R338, R342, R350). -/
theorem runnable_of_stopped {s : State} {k : CoreId} {t : Tid}
    (h : (s.thr k t).task = none ∨ (s.core k).halted = true ∨ s.fatal = true ∨ s.boot.minimal = true) : runnable s k t = false := by
  rcases h with h | h | h | h <;> simp [runnable, issues, h]

/-- A thread with no event pending that waits, stands behind its block or idles is not runnable (R312, R211). -/
theorem runnable_of_waiting {s : State} {k : CoreId} {t : Tid} (hs : (s.thr k t).skewFault = none) (hc : (s.thr k t).checks = [])
    (h : waitOver s k t = false ∨ ownBlock s k t = true
      ∨ ((s.thr k t).idling = true ∧ (s.thr k t).yreq = false ∧ (s.thr k t).sliceOver = false)) : runnable s k t = false := by
  have hp : (s.thr k t).asyncPending = false := by simp [Thread.asyncPending, hs, hc]
  rcases h with h | h | ⟨hi, hy, ho⟩
  · simp [runnable, issues, hp, h]
  · simp [runnable, issues, hp, h]
  · simp [runnable, issues, hp, Thread.roused, hi, hy, ho]

/-- Settles O10: a live entry's fetch reads the frame's bytes, and a thread that is not runnable changes nothing in its turn. -/
theorem fetchAndBlocking : Obligations.FetchAndBlocking := by
  refine ⟨?_, ?_⟩
  · intro s e pc pa hcan hal hhit hperm hk hs hf hpa hp
    refine ⟨_, fetchWord_hit hcan hal hhit hperm hk hs hf hpa hp, fun i hi => ?_⟩
    rw [extractLsb'_leNat Mem.bytes_length (by simpa using hi), Mem.bytes_getElem]
    rfl
  · intro s k t rest ha s0 th h
    apply step_run_of_not_runnable ha
    rcases h with h | h | h | h | ⟨hs, hc, h⟩
    · exact runnable_of_stopped (.inl h)
    · exact runnable_of_stopped (.inr (.inl h))
    · exact runnable_of_stopped (.inr (.inr (.inl h)))
    · exact runnable_of_stopped (.inr (.inr (.inr h)))
    · exact runnable_of_waiting hs hc h

end Sys2Proof.Machine
end

section
/-!
PROOFS. A host-side write of a window's register, the doorbell after the function's posted writes, and a request to yield.
-/

namespace Sys2Proof.Machine

/-! ## Levels (R3, R324, R325) -/

/-- A host-side write at a level takes effect: aligned, of a window that is there, from the register's own level. -/
def mayWrite (s : State) (f : FuncId) (off : BitVec 16) (lv : Priv) : Prop :=
  off.toNat % 8 = 0 ∧ (f = 0 ∨ s.boot.minimal = false) ∧ lv ≠ .user ∧ (f ≠ 0 ∨ lv = .hyper) ∧ ∃ l, (windowLevels f off.toNat).2 = some l ∧ l.le lv = true

/-- The model's own test is `mayWrite`. -/
theorem mayWrite_iff (s : State) (f : FuncId) (off : BitVec 16) (lv : Priv) :
    (off.toNat % 8 = 0 && !(f != 0 && s.boot.minimal) && lv != .user && (f != 0 || lv = .hyper)
      && (match (windowLevels f off.toNat).2 with | some l => l.le lv | none => false)) = true ↔ mayWrite s f off lv := by
  rw [mayWrite]
  cases (windowLevels f off.toNat).2 with
  | none => simp
  | some l => by_cases h0 : f = 0 <;> simp [h0, and_assoc]

theorem registerWrite_denied {s : State} {f : FuncId} {off : BitVec 16} {lv : Priv} (v : Word) (h : ¬ mayWrite s f off lv) :
    exec (.registerWrite f off v lv) s = .next s :=
  congrArg Host.Outcome.next (if_neg (mt (mayWrite_iff s f off lv).1 h))

theorem registerWrite_allowed {s : State} {f : FuncId} {off : BitVec 16} {lv : Priv} (v : Word) (h : mayWrite s f off lv) :
    exec (.registerWrite f off v lv) s = .next (windowWrite (if f != 0 && off.toNat = 0x68 then landPosted s f else s) f off.toNat v) :=
  congrArg Host.Outcome.next (if_pos ((mayWrite_iff s f off lv).2 h))

/-- A permitted write of a register of a partition other than the doorbell's. -/
theorem registerWrite_part {s : State} {f : FuncId} {off : BitVec 16} {lv : Priv} (v : Word) (h : mayWrite s f off lv) (hf : f ≠ 0)
    (ho : off.toNat ≠ 0x68) : exec (.registerWrite f off v lv) s = .next (partWrite s f off.toNat v) := by
  rw [registerWrite_allowed v h, if_neg (by simp [ho]), windowWrite, if_neg hf]

/-- A register that only the hypervisor level writes. -/
theorem mayWrite_hyper {s : State} {f : FuncId} {off : BitVec 16} {lv : Priv} (h : mayWrite s f off lv)
    (hl : (windowLevels f off.toNat).2 = some .hyper) : lv = .hyper := by
  obtain ⟨-, -, -, -, l, h1, h2⟩ := h
  rw [hl] at h1
  cases h1
  cases lv with
  | hyper => rfl
  | kernel => cases h2
  | user => cases h2

/-! ## What a write sets off -/

theorem outState_next (s : State) {o : Out} (h : ∃ t, o = .next t) : .next (outState s o) = o := by
  obtain ⟨t, rfl⟩ := h; rfl

theorem execPartitionHalt_next (f : FuncId) (s : State) : ∃ t, execPartitionHalt f s = .next t := by
  unfold execPartitionHalt; split <;> exact ⟨_, rfl⟩
theorem execPartitionResume_next (f : FuncId) (s : State) : ∃ t, execPartitionResume f s = .next t := by
  unfold execPartitionResume; dsimp only; split <;> exact ⟨_, rfl⟩
theorem execXyieldWrite_next (f : FuncId) (v : Word) (s : State) : ∃ t, execXyieldWrite f v s = .next t := by
  unfold execXyieldWrite; dsimp only; split <;> exact ⟨_, rfl⟩

/-- A field of a written word. -/
theorem extractLsb'_eq_ofNat (v : Word) (i n : Nat) : v.extractLsb' i n = BitVec.ofNat n (v.toNat / 2 ^ i) := by
  rw [← Nat.shiftRight_eq_div_pow]; rfl

/-- R303, R320, R326, R331: what each register of a partition's window takes or sets off. -/
theorem partitionRegisterWrite {s : State} {f : FuncId} {off : BitVec 16} {lv : Priv} (v : Word) (h : mayWrite s f off lv) (hf : f ≠ 0) :
    let took (p : Part) : Prop := exec (.registerWrite f off v lv) s = .next (s.modPart f (fun _ => p))
    let q := s.part f
    (off = 0x00 → took { q with xastb := v &&& 0x000FFFFFFFF80000#64 })
    ∧ (off = 0x08 → lv = .hyper ∧ took { q with xs2ctl := v &&& 0xE00FFFFFFFFF0001#64 })
    ∧ (off = 0x10 → took { q with xqtb := v &&& 0x000FFFFFFFFE0001#64 })
    ∧ (off = 0x18 → lv = .hyper ∧ took { q with xslice := BitVec.ofNat 32 v.toNat })
    ∧ (off = 0x30 → took { q with xmova := v &&& 0x000FFFFFFFFFFFC0#64 })
    ∧ (off = 0x40 → lv = .hyper ∧ took { q with ncores := BitVec.ofNat 9 v.toNat, gpos := BitVec.ofNat 6 (v.toNat / 2 ^ 9), gsize := BitVec.ofNat 7 (v.toNat / 2 ^ 15) })
    ∧ (off = 0x48 → lv = .hyper ∧ took { q with xxbar := v })
    ∧ (off = 0x60 → took { q with xsubb := v &&& 0x00FFFFFFFFFFF000#64 })
    ∧ (off = 0x78 → took { q with xpri := BitVec.ofNat 32 v.toNat })
    ∧ (off = 0x38 → exec (.registerWrite f off v lv) s = exec (.xyieldWrite f v) s)
    ∧ (off = 0x68 → exec (.registerWrite f off v lv) s = exec (.submissionDoorbell f (BitVec.ofNat 32 v.toNat)) s)
    ∧ (off = 0x20 → v = 1 → exec (.registerWrite f off v lv) s = exec (.partitionHalt f) s)
    ∧ (off = 0x20 → v = 2 → exec (.registerWrite f off v lv) s = exec (.partitionResume f) s)
    ∧ (off = 0x20 → v = 0 → exec (.registerWrite f off v lv) s = .next s) := by
  intro took q
  have plain (ho : off.toNat ≠ 0x68) := registerWrite_part v h hf ho
  have level (hl : (partLevels off.toNat).2 = some .hyper) : lv = .hyper := mayWrite_hyper h (by rw [windowLevels, if_neg hf]; exact hl)
  refine ⟨?_, ?_, ?_, ?_, ?_, ?_, ?_, ?_, ?_, ?_, ?_, ?_, ?_, ?_⟩
  · rintro rfl; exact plain (by decide)
  · rintro rfl; exact ⟨level rfl, plain (by decide)⟩
  · rintro rfl; exact plain (by decide)
  · rintro rfl; exact ⟨level rfl, plain (by decide)⟩
  · rintro rfl; exact plain (by decide)
  · rintro rfl
    refine ⟨level rfl, ?_⟩
    rw [← extractLsb'_eq_ofNat, ← extractLsb'_eq_ofNat]
    exact plain (by decide)
  · rintro rfl; exact ⟨level rfl, plain (by decide)⟩
  · rintro rfl; exact plain (by decide)
  · rintro rfl; exact plain (by decide)
  · rintro rfl; exact (plain (by decide)).trans (outState_next s (execXyieldWrite_next f v s))
  · rintro rfl
    have hm : s.boot.minimal = false := h.2.1.resolve_left hf
    rw [registerWrite_allowed v h, if_pos (by simp [hf]), windowWrite, if_neg hf]
    show _ = Host.Outcome.next _
    rw [if_neg (by simp [hf, hm])]
    rfl
  · rintro rfl rfl; exact (plain (by decide)).trans (outState_next s (execPartitionHalt_next f s))
  · rintro rfl rfl; exact (plain (by decide)).trans (outState_next s (execPartitionResume_next f s))
  · rintro rfl rfl; exact plain (by decide)

/-! ## The doorbell (R169, R331) -/

/-- The tail that a doorbell leaves: at most the ring's size beyond the head. -/
theorem doorbell_eq (s : State) (f : FuncId) (tail : Word32) :
    let p := s.part f
    let n := 2 ^ (p.xsubb.toNat / 2 ^ 52 % 16 + 6)
    let last := if n < (tail - p.xsubh).toNat then p.xsubh + BitVec.ofNat 32 n else tail
    doorbell s f tail = s.modPart f (fun p => { p with xsubt := last }) := rfl

/-- With none but Relaxed Ordering writes of the function there is nothing to perform before a tail write. -/
theorem landPosted_none {s : State} {f : FuncId} (h : ∀ x ∈ s.inbound, x.fn = f → x.relaxed = true) : landPosted s f = s := by
  have hm (x : Posted) (hx : x ∈ s.inbound) : (x.fn == f && !x.relaxed) = false := by
    by_cases e : x.fn = f
    · simp [h x hx e]
    · simp [e]
  have h1 : s.inbound.filter (fun x => x.fn == f && !x.relaxed) = [] := by
    rw [List.filter_eq_nil_iff]; intro x hx; simp [hm x hx]
  have h2 : s.inbound.filter (fun x => !(x.fn == f && !x.relaxed)) = s.inbound := by
    rw [List.filter_eq_self]; intro x hx; simp [hm x hx]
  simp only [landPosted, h1, h2, List.foldl_nil]

/-- A function's one ordered write is performed. -/
theorem landPosted_one {s : State} {f : FuncId} {x : Posted} (h : s.inbound = [x]) (hf : x.fn = f) (hr : x.relaxed = false) :
    landPosted s f = outsideWrite { s with inbound := [] } x.pa x.bytes := by
  simp [landPosted, h, hf, hr]

/-- Noting who satisfied a counter wait changes no byte (R355). -/
theorem byteAt_noteCounterWake (s : State) (b : Bool) : SameBytes s (s.noteCounterWake b) := by
  intro p
  cases p with
  | spad k a =>
    simp only [State.byteAt, State.core, State.noteCounterWake, Fin.getElem_fin, Vector.getElem_map]
    split <;> rfl
  | _ => rfl

/-- An agent's write inside working memory. -/
theorem outsideWrite_inside {s : State} {pa : Nat} {bs : List Byte} (h : pa + bs.length ≤ wmSize) :
    outsideWrite s pa bs = (tgtWrite s (.wm pa) bs).noteCounterWake false := if_pos h

theorem State.part_modPart_same (s : State) (f : FuncId) (g : Part → Part) : (s.modPart f g).part f = g (s.part f) := by
  simp [State.part, State.modPart]

theorem byteAt_modPart (s : State) (f : FuncId) (g : Part → Part) : SameBytes s (s.modPart f g) := by
  intro p; cases p <;> rfl

/-- A tail write behind one ordered write of the function: the write is performed, then the tail is taken. -/
theorem doorbell_landPosted_one {s : State} {f : FuncId} (tail : Word32) {x : Posted} (h : s.inbound = [x]) (hf : x.fn = f)
    (hr : x.relaxed = false) (hpa : x.pa + x.bytes.length ≤ wmSize) :
    let p := s.part f
    let n := 2 ^ (p.xsubb.toNat / 2 ^ 52 % 16 + 6)
    let last := if n < (tail - p.xsubh).toNat then p.xsubh + BitVec.ofNat 32 n else tail
    let t := doorbell (landPosted s f) f tail
    (t.part f).xsubt = last ∧ t.inbound = [] ∧ Mem.bytes t.wm x.pa x.bytes.length = x.bytes
      ∧ ∀ q, (∀ j, j < x.bytes.length → q ≠ .wm (x.pa + j)) → t.byteAt q = s.byteAt q := by
  intro p n last t
  let s0 : State := { s with inbound := [] }
  have hland : landPosted s f = (tgtWrite s0 (.wm x.pa) x.bytes).noteCounterWake false :=
    (landPosted_one h hf hr).trans (outsideWrite_inside hpa)
  have ht : t = ((tgtWrite s0 (.wm x.pa) x.bytes).noteCounterWake false).modPart f (fun p => { p with xsubt := last }) := by
    show doorbell (landPosted s f) f tail = _
    rw [hland]; exact doorbell_eq _ f tail
  rw [ht]
  refine ⟨?_, rfl, Mem.bytes_setBytes, fun q hq => ?_⟩
  · rw [State.part_modPart_same]
  · rw [byteAt_modPart, byteAt_noteCounterWake, byteAt_tgtWrite_out]
    · cases q <;> rfl
    · rintro ⟨j, hj, e⟩
      exact hq j hj (Option.some.inj e).symm

/-! ## Requests to yield (R303) -/

/-- What XYIELD does for one thread of the core that it names: a task of the partition, when it is selected, is asked to yield. -/
def askYield (f : FuncId) (sel : Bool) (x : Thread) : Thread :=
  if sel = true ∧ (∃ y, x.task = some y ∧ y.part = f) then { x with yreq := true } else x

theorem State.modThr_congr (s : State) (k : CoreId) (t : Tid) {f g : Thread → Thread} (h : f (s.thr k t) = g (s.thr k t)) :
    s.modThr k t f = s.modThr k t g := by
  unfold State.modThr State.modCore
  have h : f s.cores[k].threads[t] = g s.cores[k].threads[t] := h
  simp only [h]

theorem State.modThr_id (s : State) (k : CoreId) (t : Tid) : s.modThr k t (fun x => x) = s := by
  have h1 (c : Core) : c.threads.set t c.threads[t] = c.threads := Vector.set_getElem_self t.isLt
  have h2 : s.cores.set k s.cores[k] = s.cores := Vector.set_getElem_self k.isLt
  simp only [State.modThr, State.modCore, h1, h2]

/-- The model's own test of a selected task is `askYield`'s. -/
theorem State.modThr_askYield (s : State) (k : CoreId) (t : Tid) (f : FuncId) (sel : Bool) :
    s.modThr k t (askYield f sel)
      = if sel && (match (s.thr k t).task with | some x => x.part == f | none => false) then s.modThr k t (fun x => { x with yreq := true }) else s := by
  have hid (h : askYield f sel (s.thr k t) = s.thr k t) : s.modThr k t (askYield f sel) = s :=
    (State.modThr_congr s k t h).trans (State.modThr_id s k t)
  cases hx : (s.thr k t).task with
  | none => simpa using hid (by simp [askYield, hx])
  | some x =>
    by_cases hc : sel = true ∧ x.part = f
    · obtain ⟨rfl, rfl⟩ := hc
      simpa using State.modThr_congr s k t (by simp [askYield, hx])
    · rw [hid (by rw [askYield, hx, if_neg]; simpa using hc), if_neg (by simpa using hc)]

/-- A register write of XYIELD asks both threads of the core in turn. -/
theorem execXyieldWrite_some {s : State} {f : FuncId} {v : Word} {k : CoreId} (h : (s.part f).physical (v.toNat % 512) = some k) :
    exec (.xyieldWrite f v) s
      = .next ((s.modThr k 0 (askYield f (v.getLsbD 9))).modThr k 1 (askYield f (v.getLsbD 10))) := by
  have h' : (s.part f).physical (bitsOf v.toNat 0 9) = some k := by simpa [bitsOf] using h
  show execXyieldWrite f v s = _
  simp only [execXyieldWrite, h', State.modThr_askYield] <;> rfl

theorem byteAt_modThr (s : State) (k : CoreId) (t : Tid) (f : Thread → Thread) : SameBytes s (s.modThr k t f) := by
  intro p
  cases p with
  | spad j a =>
    by_cases h : j = k
    · subst h; simp [State.byteAt, State.modThr]
    · simp [State.byteAt, State.modThr, State.core_modCore_other _ _ h]
  | _ => rfl

theorem State.core_modThr_other (s : State) {k j : CoreId} (t : Tid) (f : Thread → Thread) (h : j ≠ k) : (s.modThr k t f).core j = s.core j :=
  State.core_modCore_other s _ h

/-- Settles O55: a host-side write acts exactly when `mayWrite` holds, each register of a partition takes its fields, a doorbell comes
after the function's ordered writes and is clamped, and XYIELD asks the selected tasks of its partition. -/
theorem windowRegisters : Obligations.WindowRegisters := by
  refine ⟨fun s f off v lv => ⟨registerWrite_denied v, fun h hf => partitionRegisterWrite v h hf⟩, fun s f tail => ⟨?_, ?_⟩,
    fun s f v => ⟨?_, ?_⟩⟩
  · intro h
    show Host.Outcome.next _ = _
    rw [if_pos (by simpa using h)]
  · intro hf hm p n last
    have hex : exec (.submissionDoorbell f tail) s = .next (doorbell (landPosted s f) f tail) := by
      show Host.Outcome.next _ = _
      rw [if_neg (by simp [hf, hm])]
    refine ⟨fun hr => ?_, fun x hx hxf hr hpa => ⟨_, hex, doorbell_landPosted_one tail hx hxf hr hpa⟩⟩
    rw [hex, landPosted_none hr, doorbell_eq]
  · intro h
    have h' : (s.part f).physical (bitsOf v.toNat 0 9) = none := by simpa [bitsOf] using h
    show execXyieldWrite f v s = _
    simp only [execXyieldWrite, h']
  · intro k hk
    refine ⟨_, execXyieldWrite_some hk, (byteAt_modThr s k 0 _).trans (byteAt_modThr _ k 1 _), fun j hj => ?_, fun u => ?_⟩
    · rw [State.core_modThr_other _ _ _ hj, State.core_modThr_other _ _ _ hj]
    · rcases Fin.exists_fin_two.1 ⟨u, rfl⟩ with rfl | rfl
      · rw [State.thr_modThr_other _ _ (by decide), State.thr_modThr_same]; rfl
      · rw [State.thr_modThr_same, State.thr_modThr_other _ _ (by decide)]; rfl

end Sys2Proof.Machine
end

section
/-!
PROOFS. The canonical form of the memories as a property that every operation keeps: what it says of one core, of a state and of an
outcome, and how the operations that every meaning is built from keep it. While a system core stands in the place of a compute core
(R10, log 66) the scratchpad in that place is not one of the memories and that of the compute core, among the system cores, is: the
property is therefore stated for a set P of places of compute cores and a set Q of places of system cores.
-/

namespace Sys2Proof.Machine

/-- Every memory is in canonical form: the scratchpads are those of the cores in the places P and of the system cores in the places Q. -/
def Canon (P : CoreId → Prop) (Q : DieId → Prop) (s : State) : Prop :=
  Mem.wf s.wm = true ∧ Mem.wf s.host = true ∧ Mem.wf s.qmem = true ∧ (∀ x ∈ s.peers, Mem.wf x.2 = true)
    ∧ (∀ k, P k → Mem.wf (s.core k).spad = true) ∧ ∀ d, Q d → Mem.wf s.sysCores[d].spad = true

/-- The same of the state that an outcome leaves. -/
def CanonOut (P : CoreId → Prop) (Q : DieId → Prop) (o : Out) : Prop := ∀ t, o = .next t → Canon P Q t

theorem memInv_iff_canon (s : State) : MemInv s ↔ Canon (fun _ => True) (fun _ => False) s := by
  simp [MemInv, Canon]

variable {P : CoreId → Prop} {Q : DieId → Prop} {s : State}

/-! ## Outcomes -/

theorem canonOut_next (h : Canon P Q s) : CanonOut P Q (.next s) := by rintro t ⟨⟩; exact h
theorem canonOut_fault (r : Fault) : CanonOut P Q (.fault r) := by rintro t ⟨⟩

/-! ## Conditions -/

theorem canonOut_ite {c : Prop} [Decidable c] {a b : Out} (ha : c → CanonOut P Q a) (hb : ¬c → CanonOut P Q b) :
    CanonOut P Q (if c then a else b) := by
  split
  · next hc => exact ha hc
  · next hc => exact hb hc

theorem canon_ite {c : Prop} [Decidable c] {a b : State} (ha : Canon P Q a) (hb : Canon P Q b) : Canon P Q (if c then a else b) := by
  split
  · exact ha
  · exact hb

theorem canon_iteFst {α : Type} {c : Prop} [Decidable c] {x y : State × α} (hx : Canon P Q x.1) (hy : Canon P Q y.1) :
    Canon P Q (if c then x else y).1 := by
  split
  · exact hx
  · exact hy

/-- A change made under a condition only. -/
theorem canon_when {c : Prop} [Decidable c] {a : State} (h : Canon P Q s) (ha : Canon P Q s → Canon P Q a) : Canon P Q (if c then a else s) :=
  canon_ite (ha h) h

/-- A change not made under a condition. -/
theorem canon_unless {c : Prop} [Decidable c] {a : State} (h : Canon P Q s) (ha : Canon P Q s → Canon P Q a) :
    Canon P Q (if c then s else a) :=
  canon_ite h (ha h)

/-! ## Updates of fields that are no memory -/

theorem canon_with (h : Canon P Q s) (cc ct ag fr ti ha ats bars ld ib co ji jd us wp qp fa bo ba db xh xt di pa se dp qu po ni cl bd en) :
    Canon P Q { s with
      curCore := cc, curTid := ct, agenda := ag, fresh := fr, time := ti, hostAbsent := ha, ats := ats, bars := bars, linksDown := ld
      inbound := ib, corrected := co, jtagIr := ji, jtagDr := jd, users := us, wmPoison := wp, qPoison := qp, fatal := fa, boot := bo
      banks := ba, dbg := db, xhclm := xh, xtrcore := xt, dies := di, parts := pa, seals := se, disp := dp, queries := qu, pageOps := po
      nextId := ni, clusters := cl, baseDies := bd, engines := en } := h

theorem canon_modPart {f : FuncId} {g : Part → Part} (h : Canon P Q s) : Canon P Q (s.modPart f g) := h
theorem canon_modEngine {k : EngineId} {g : Engine → Engine} (h : Canon P Q s) : Canon P Q (s.modEngine k g) := h
theorem canon_modCluster {k : ClusterId} {g : ClusterX → ClusterX} (h : Canon P Q s) : Canon P Q (s.modCluster k g) := h
theorem canon_modDie {k : StackId} {g : BaseDie → BaseDie} (h : Canon P Q s) : Canon P Q (s.modDie k g) := h
theorem canon_modBank {d : DieId} {b : Fin 16} {g : Bank → Bank} (h : Canon P Q s) : Canon P Q (s.modBank d b g) := h
theorem canon_draw (h : Canon P Q s) : Canon P Q s.draw.2 := h

/-! ## Updates of memories -/

theorem canon_wm {m : Memory} (h : Canon P Q s) (hm : Mem.wf s.wm = true → Mem.wf m = true) : Canon P Q { s with wm := m } := by
  obtain ⟨hw, hrest⟩ := h; exact ⟨hm hw, hrest⟩
theorem canon_host {m : Memory} (h : Canon P Q s) (hm : Mem.wf s.host = true → Mem.wf m = true) : Canon P Q { s with host := m } := by
  obtain ⟨hw, hh, hrest⟩ := h; exact ⟨hw, hm hh, hrest⟩
theorem canon_qmem {m : Memory} (h : Canon P Q s) (hm : Mem.wf s.qmem = true → Mem.wf m = true) : Canon P Q { s with qmem := m } := by
  obtain ⟨hw, hh, hq, hrest⟩ := h; exact ⟨hw, hh, hm hq, hrest⟩

/-- A peer's memory in a canonical state. -/
theorem peerMem_wf (h : Canon P Q s) (pos : Nat) : Mem.wf (s.peerMem pos) = true := by
  obtain ⟨-, -, -, hp, -⟩ := h
  unfold State.peerMem
  split
  · next x hx => exact hp x (List.mem_of_find?_eq_some hx)
  · rfl

theorem canon_setPeerMem {pos : Nat} {m : Memory} (h : Canon P Q s) (hm : Mem.wf m = true) : Canon P Q (s.setPeerMem pos m) := by
  obtain ⟨hw, hh, hq, hp, hrest⟩ := h
  refine ⟨hw, hh, hq, fun x hx => ?_, hrest⟩
  simp only [State.setPeerMem, List.mem_append, List.mem_filter] at hx
  rcases hx with (hx | hx) | hx
  · exact hp x hx.1.1
  · split at hx
    · cases hx
    · rw [List.mem_singleton.1 hx]; exact hm
  · exact hp x hx.1.1

/-- A write at a target (R35). -/
theorem canon_tgtWrite {t : Tgt} {bs : List Byte} (h : Canon P Q s) : Canon P Q (tgtWrite s t bs) := by
  cases t with
  | wm pa => exact canon_wm h Mem.setBytes_wf
  | host a => exact canon_host h Mem.setBytes_wf
  | peer pos pa => exact canon_setPeerMem h (Mem.setBytes_wf (peerMem_wf h pos))
  | window f o => exact h

/-! ## Updates of cores -/

/-- Every core changed, each in its own way. -/
theorem canon_cores {cs : Vector Core 384} (h : Canon P Q s) (hf : ∀ k : CoreId, Mem.wf (s.core k).spad = true → Mem.wf cs[k].spad = true) :
    Canon P Q { s with cores := cs } := by
  obtain ⟨hw, hh, hq, hp, hc, hsys⟩ := h
  exact ⟨hw, hh, hq, hp, fun k hk => hf k (hc k hk), hsys⟩

theorem canon_mapCores {f : Core → Core} (h : Canon P Q s) (hf : ∀ c, Mem.wf c.spad → Mem.wf (f c).spad) :
    Canon P Q { s with cores := s.cores.map f } :=
  canon_cores h fun k hk => by simpa [State.core] using hf _ hk

theorem canon_mapSysCores {f : Core → Core} (h : Canon P Q s) (hf : ∀ c, Mem.wf c.spad → Mem.wf (f c).spad) :
    Canon P Q { s with sysCores := s.sysCores.map f } := by
  obtain ⟨hw, hh, hq, hp, hc, hsys⟩ := h
  exact ⟨hw, hh, hq, hp, hc, fun d hd => by simpa using hf _ (hsys d hd)⟩

theorem canon_modCore {k : CoreId} {f : Core → Core} (h : Canon P Q s) (hf : ∀ c, Mem.wf c.spad → Mem.wf (f c).spad) :
    Canon P Q (s.modCore k f) := by
  obtain ⟨hw, hh, hq, hp, hc, hsys⟩ := h
  refine ⟨hw, hh, hq, hp, fun j hj => ?_, hsys⟩
  by_cases e : j = k
  · subst e; rw [State.core_modCore_same]; exact hf _ (hc j hj)
  · rw [State.core_modCore_other s f e]; exact hc j hj

theorem canon_modThr {k : CoreId} {t : Tid} {f : Thread → Thread} (h : Canon P Q s) : Canon P Q (s.modThr k t f) :=
  canon_modCore h fun _ hc => hc
theorem canon_modCur {f : Thread → Thread} (h : Canon P Q s) : Canon P Q (s.modCur f) := canon_modThr h
theorem canon_modCurC {f : Core → Core} (h : Canon P Q s) (hf : ∀ c, Mem.wf c.spad → Mem.wf (f c).spad) :
    Canon P Q (s.modCurC f) := canon_modCore h hf
theorem canon_modVec {f : VecUnit → VecUnit} (h : Canon P Q s) : Canon P Q (s.modVec f) := canon_modCore h fun _ hc => hc
theorem canon_modMat {f : MatUnit → MatUnit} (h : Canon P Q s) : Canon P Q (s.modMat f) := canon_modCore h fun _ hc => hc
theorem canon_modV {n : VReg} {f : VecReg → VecReg} (h : Canon P Q s) : Canon P Q (s.modV n f) := canon_modVec h
theorem canon_modM {m : MReg} {f : MaskReg → MaskReg} (h : Canon P Q s) : Canon P Q (s.modM m f) := canon_modVec h

/-! ## Repeated changes -/

theorem canon_foldl {α : Type} {f : State → α → State} {l : List α} (h : Canon P Q s) (hf : ∀ s a, Canon P Q s → Canon P Q (f s a)) :
    Canon P Q (l.foldl f s) := by
  induction l generalizing s with
  | nil => exact h
  | cons a l ih => exact ih (hf s a h)

theorem canon_foldl_mem {α : Type} {f : State → α → State} {l : List α} (h : Canon P Q s)
    (hf : ∀ s, ∀ a ∈ l, Canon P Q s → Canon P Q (f s a)) : Canon P Q (l.foldl f s) := by
  induction l generalizing s with
  | nil => exact h
  | cons a l ih => exact ih (hf s a List.mem_cons_self h) fun s b hb => hf s b (List.mem_cons_of_mem a hb)

/-- A fold that carries something beside the state. -/
theorem canon_foldl_fst {α β : Type} {f : State × β → α → State × β} {l : List α} {x : State × β} (h : Canon P Q x.1)
    (hf : ∀ x a, Canon P Q x.1 → Canon P Q (f x a).1) : Canon P Q (l.foldl f x).1 := by
  induction l generalizing x with
  | nil => exact h
  | cons a l ih => exact ih (hf x a h)

theorem spad_foldl {α : Type} {f : Core → α → Core} {l : List α} {c : Core} (h : Mem.wf c.spad)
    (hf : ∀ c a, Mem.wf c.spad → Mem.wf (f c a).spad) : Mem.wf (l.foldl f c).spad := by
  induction l generalizing c with
  | nil => exact h
  | cons a l ih => exact ih (hf c a h)

/-- A fold that carries something beside the core. -/
theorem spad_foldl_fst {α β : Type} {f : Core × β → α → Core × β} {l : List α} {x : Core × β} (h : Mem.wf x.1.spad)
    (hf : ∀ x a, Mem.wf x.1.spad → Mem.wf (f x a).1.spad) : Mem.wf (l.foldl f x).1.spad := by
  induction l generalizing x with
  | nil => exact h
  | cons a l ih => exact ih (hf x a h)

/-! ## Cores -/

theorem spad_spadWrite {c : Core} {a : Nat} {bs : List Byte} (h : Mem.wf c.spad) : Mem.wf (c.spadWrite a bs).spad := Mem.setBytes_wf h

end Sys2Proof.Machine
end

section
/-! PROOFS. The canonical form of the memories (O12): the register and thread operations. -/

namespace Sys2Proof.Machine

variable {P : CoreId → Prop} {Q : DieId → Prop} {s : State}

theorem canon_setSreg {r : SReg} {v : Word} (h : Canon P Q s) : Canon P Q (State.setSreg s r v) := canon_modCur h

theorem spad_count {c : Core} {ev n : Nat} {t : Tid} (h : Mem.wf c.spad) : Mem.wf (c.count ev t n).spad := by
  rw [Core.count_spad]; exact h

theorem canon_count {ev n : Nat} (h : Canon P Q s) : Canon P Q (State.count s ev n) := canon_modCurC h fun _ => spad_count

theorem canon_accrue {f : BitVec 5} (h : Canon P Q s) : Canon P Q (State.accrue s f) := canon_modCur h

theorem canon_advance (h : Canon P Q s) : Canon P Q (State.advance s) := canon_modCur h

theorem canon_jump {pc : Word} (h : Canon P Q s) : Canon P Q (State.jump s pc) := canon_modCur h

theorem canon_finish {d : SReg} {v : Word} (h : Canon P Q s) : Canon P Q (State.finish s d v) := canon_advance (canon_setSreg h)

theorem canon_block {w : Wait} (h : Canon P Q s) : Canon P Q (State.block s w) := canon_modCur h

theorem canon_trapThr {k : CoreId} {t : Tid} {tr : Trap} {tpc : Word} (h : Canon P Q s) : Canon P Q (State.trapThr s k t tr tpc) :=
  canon_modThr h

theorem canon_trap {tr : Trap} (h : Canon P Q s) : Canon P Q (State.trap s tr) := canon_trapThr h

theorem canon_raise {cause : BitVec 8} {tval telem : Word} (h : Canon P Q s) : CanonOut P Q (raise s cause tval telem) :=
  canonOut_next (canon_trap h)

end Sys2Proof.Machine
end

section
/-! PROOFS. The canonical form of the memories (O12): poison and machine-check records. -/

namespace Sys2Proof.Machine

variable {P : CoreId → Prop} {Q : DieId → Prop} {s : State}

theorem spad_deliverCheck {c : Core} {p : FuncId} {ctx : BitVec 16} {d : DieId} {b : Fin 16} (h : Mem.wf c.spad) :
    Mem.wf (c.deliverCheck p ctx d b).spad := h

theorem canon_placePoison {p : PoisonPlace} (h : Canon P Q s) : Canon P Q (placePoison s p) := by
  unfold placePoison
  grind [canon_with, canon_modCore]

theorem canon_noteCorrected {e : McEvent} (h : Canon P Q s) : Canon P Q (noteCorrected s e) := by
  unfold noteCorrected
  grind [canon_with, canon_modBank]

theorem canon_logError {e : McEvent} (h : Canon P Q s) : Canon P Q (logError s e) := by
  unfold logError
  grind [canon_with, spad_count, spad_deliverCheck, canon_modBank, canon_modCore, canon_noteCorrected, canon_placePoison]

theorem canon_poisonRead {b : DieId × Fin 16} (h : Canon P Q s) : Canon P Q (State.poisonRead s b) := canon_modCur (canon_modBank h)

end Sys2Proof.Machine
end

section
/-! PROOFS. The canonical form of the memories (O12): translation, page requests and walks. -/

namespace Sys2Proof.Machine

variable {P : CoreId → Prop} {Q : DieId → Prop} {s : State}

theorem canon_orPte {bits : Nat} {pa : Nat} (h : Canon P Q s) : Canon P Q (orPte s bits pa) := by
  unfold orPte
  split
  · exact canon_wm h Mem.setNum_wf
  · split
    · exact canon_host h Mem.setNum_wf
    · exact h

theorem canon_unitAdd {u : XUnit} {e : TlbEntry} (h : Canon P Q s) : Canon P Q (unitAdd s u e) := by
  unfold unitAdd
  grind [canon_modCore, canon_modEngine]

theorem canon_unitDrop {u : XUnit} {rq : XReq} {vpn : Nat} (h : Canon P Q s) : Canon P Q (unitDrop s u rq vpn) := by
  unfold unitDrop
  grind [canon_modCore, canon_modEngine]

theorem canon_noteUse {ag : XAgent} {rq : XReq} (h : Canon P Q s) : Canon P Q (State.noteUse s ag rq) := canon_ite (canon_with h ..) h

theorem canon_walkLeaf {u : XUnit} {rq : XReq} {write again : Bool} {va : Nat} (h : Canon P Q s) :
    Canon P Q (walkLeaf s u rq write again va).1 := by
  unfold walkLeaf
  grind [spad_count, canon_foldl, canon_modCore, canon_orPte]

theorem canon_cacheWalk {u : XUnit} {rq : XReq} {va : Nat} {w : Walked} (h : Canon P Q s) : Canon P Q (cacheWalk s u rq va w) := by
  unfold cacheWalk
  grind [canon_modCluster, canon_unitAdd]

theorem canon_leafOf {u : XUnit} {rq : XReq} {write : Bool} {again : Bool} {va : Nat} (h : Canon P Q s) :
    Canon P Q (leafOf s u rq write again va).1 := by
  unfold leafOf
  extract_lets vpn usable s0 walk
  have h0 : Canon P Q s0 := canon_noteUse h
  have hwalk (s : State) (hs : Canon P Q s) : Canon P Q (walk s).1 := by grind [canon_noteUse, canon_walkLeaf, canon_cacheWalk]
  clear_value walk s0
  split
  · exact hwalk _ (canon_unitDrop h0)
  · split
    · grind [canon_unitDrop]
    · have h1 : Canon P Q (match u with | .gather k => s0.modCore k (fun c => c.count 6 (unitTid s0 u) 1) | _ => s0) := by
        grind [canon_modCore, spad_count]
      grind [canon_noteUse, canon_unitAdd]

theorem canon_noteAts {f : FuncId} {t : Tgt} (h : Canon P Q s) : Canon P Q (State.noteAts s f t) := by
  unfold State.noteAts
  grind [canon_with]

theorem canon_checkLeaf {rq : XReq} {k : AccKind} {va : Word} {hostOk : Bool} {lf : LeafInfo} (h : Canon P Q s) :
    Canon P Q (checkLeaf s rq k va hostOk lf).1 := by
  unfold checkLeaf
  grind [canon_noteAts]

theorem canon_translate {u : XUnit} {rq : XReq} {k : AccKind} {va : Word} {hostOk : Bool} (h : Canon P Q s) :
    Canon P Q (translate s u rq k va hostOk).1 := by
  unfold translate
  grind [canon_checkLeaf, canon_leafOf]

theorem canon_tgtPoison {t : Tgt} {n : Nat} (h : Canon P Q s) : Canon P Q (tgtPoison s t n) := by
  unfold tgtPoison
  grind [canon_with]

theorem canon_counterAdd {u : XUnit} {rq : XReq} {va : Word} {v : Nat} (h : Canon P Q s) : Canon P Q (counterAdd s u rq va v).1 := by
  unfold counterAdd
  grind [canon_tgtWrite, canon_translate]

end Sys2Proof.Machine
end

section
/-! PROOFS. The canonical form of the memories (O12): page faults, page requests and the reports of guards. -/

namespace Sys2Proof.Machine

variable {P : CoreId → Prop} {Q : DieId → Prop} {s : State}

theorem canon_writeRecord {k : CoreId} {t : Tid} {lvl : Priv} {bs : List Byte} (h : Canon P Q s) :
    Canon P Q (writeRecord s k t lvl bs) := canon_ite (canon_modCore h fun _ => spad_spadWrite) h

theorem canon_pageFault {cause : BitVec 8} {tval : Word} {kind : Nat} {l : List PageEntry} {held : Bool} {vl nmask : Nat}
    {stop fmask : Bool} (h : Canon P Q s) : Canon P Q (pageFault s cause tval kind l held vl nmask stop fmask) :=
    canon_trap (canon_writeRecord h)

theorem canon_batchFault {cause : BitVec 8} {kind : Nat} {l : List PageEntry} {held : Bool} {vl nmask : Nat}
    {stop fmask : Bool} (h : Canon P Q s) : Canon P Q (batchFault s cause kind l held vl nmask stop fmask) := canon_pageFault h

theorem canon_scalarPageFault {k : AccKind} {va : Word} {reason loc : Nat} (h : Canon P Q s) :
    Canon P Q (scalarPageFault s k va reason loc) := canon_pageFault h

theorem canon_requestPage {f : FuncId} {page : Nat} (h : Canon P Q s) : Canon P Q (requestPage s f page) := by
  unfold requestPage
  grind [canon_modPart]

theorem canon_awaitPage {f : FuncId} {page : Nat} {refused : State → State} (h : Canon P Q s) (hr : ∀ s, Canon P Q s → Canon P Q (refused s)) :
    Canon P Q (awaitPage s f page refused) := by
  unfold awaitPage; grind [canon_requestPage]

theorem canon_hostSuspend {k : AccKind} {va : Word} {page : Nat} (h : Canon P Q s) : Canon P Q (hostSuspend s k va page) := by
  unfold hostSuspend
  grind [canon_block, canon_modCur, canon_requestPage, canon_scalarPageFault]

theorem canon_scalarFail {k : AccKind} {va : Word} {f : XFail} (h : Canon P Q s) : CanonOut P Q (scalarFail s k va f) := by
  unfold scalarFail
  grind [canonOut_next, canon_hostSuspend, canon_raise, canon_scalarPageFault]

theorem canon_pieceFail {k : AccKind} {va : Word} {f : XFail} (h : Canon P Q s) : CanonOut P Q (pieceFail s k va f) := by
  unfold pieceFail
  grind [canonOut_next, canon_block, canon_modCur, canon_pageFault, canon_raise, canon_requestPage]

theorem canon_takeGuard (h : Canon P Q s) : ∀ r, takeGuard s = some r → Canon P Q r := by
  unfold takeGuard
  grind [canon_modCur, canon_trap]

theorem canon_takeCopyFault (h : Canon P Q s) : ∀ r, takeCopyFault s = some r → Canon P Q r := by
  unfold takeCopyFault
  grind [canon_modCur, canon_trap, canon_writeRecord]

theorem canon_takeBound (h : Canon P Q s) : ∀ r, takeBound s = some r → Canon P Q r := by
  unfold takeBound
  grind [canon_modCur, canon_trap]

theorem canon_reportAll (h : Canon P Q s) : ∀ r, reportAll s = some r → Canon P Q r := by
  unfold reportAll
  grind [canon_takeBound, canon_takeCopyFault, canon_takeGuard]

end Sys2Proof.Machine
end

section
/-! PROOFS. The canonical form of the memories (O12): the checks of privilege and the operand forms. -/

namespace Sys2Proof.Machine

variable {P : CoreId → Prop} {Q : DieId → Prop} {s : State}

theorem canon_illegal {i : Instr} (h : Canon P Q s) : CanonOut P Q (illegal s i) := canon_raise h

theorem canon_privileged {i : Instr} (h : Canon P Q s) : CanonOut P Q (privileged s i) := canon_raise h

theorem canon_privilegedH {i : Instr} (h : Canon P Q s) : CanonOut P Q (privilegedH s i) := canonOut_next (canon_trap h)

theorem canon_atKernel {i : Instr} {k : State → Out} (h : Canon P Q s) (hk : ∀ s, Canon P Q s → CanonOut P Q (k s)) :
    CanonOut P Q (atKernel i s k) := by
  unfold atKernel; grind [canon_privileged]

theorem canon_atKernelWord {w : Word32} {k : State → Out} (h : Canon P Q s) (hk : ∀ s, Canon P Q s → CanonOut P Q (k s)) :
    CanonOut P Q (atKernelWord w s k) := by
  unfold atKernelWord; grind [canon_raise]

theorem canon_alu2 {d a b : SReg} {f : Word → Word → Word} (h : Canon P Q s) : CanonOut P Q (alu2 d a b f s) :=
  canonOut_next (canon_finish h)

theorem canon_alu1 {d a : SReg} {f : Word → Word} (h : Canon P Q s) : CanonOut P Q (alu1 d a f s) := canonOut_next (canon_finish h)

theorem canon_transfer {tgt : Word} {link : Option SReg} {aligned : Bool} (h : Canon P Q s) :
    CanonOut P Q (transfer s tgt link aligned) := by
  unfold transfer
  grind [canonOut_next, canon_jump, canon_raise, canon_setSreg]

theorem canon_branch {c : Word → Word → Bool} {a b : SReg} {off : BitVec 13} (h : Canon P Q s) : CanonOut P Q (branch c a b off s) :=
  canonOut_ite (fun _ => canon_transfer h) fun _ => canonOut_next (canon_advance h)

end Sys2Proof.Machine
end

section
/-! PROOFS. The canonical form of the memories (O12): the control and status registers. -/

namespace Sys2Proof.Machine

variable {P : CoreId → Prop} {Q : DieId → Prop} {s : State}

theorem spad_counterConfig {c : Core} {n : Fin 8} {v : Word} (h : Mem.wf c.spad) : Mem.wf (counterConfig c n v).spad := by
  unfold counterConfig; dsimp only; split <;> exact h
theorem spad_counterSet {c : Core} {n : Fin 8} {v : Word} (h : Mem.wf c.spad) : Mem.wf (counterSet c n v).spad := h
theorem spad_counterWrite {c : Core} {n : Fin 8} {v : Word} (h : Mem.wf c.spad) : Mem.wf (counterWrite c n v).spad := by
  unfold counterWrite; split
  · exact spad_counterConfig h
  · exact spad_counterSet h

/-- The same of the state in an optional answer. -/
def CanonOpt (P : CoreId → Prop) (Q : DieId → Prop) (o : Option State) : Prop := ∀ t, o = some t → Canon P Q t

theorem canonOpt_some (h : Canon P Q s) : CanonOpt P Q (some s) := by rintro t ⟨⟩; exact h
theorem canonOpt_none : CanonOpt P Q none := by rintro t ⟨⟩
theorem canonOpt_ite {c : Prop} [Decidable c] {a b : Option State} (ha : CanonOpt P Q a) (hb : CanonOpt P Q b) :
    CanonOpt P Q (if c then a else b) := by split <;> assumption
theorem canon_csrWrite {k : CoreId} {t : Tid} {pv : Priv} {n : Nat} {v : Word} (h : Canon P Q s) :
    ∀ r, csrWrite s k t pv n v = some r → Canon P Q r := by
  show CanonOpt P Q _
  unfold csrWrite
  extract_lets th up core ts vreg
  have hup (f : Thread → Thread) : CanonOpt P Q (up f) := canonOpt_some (canon_modThr h)
  have hts (f : TrapSet → TrapSet) : CanonOpt P Q (ts f) := canonOpt_some (canon_modThr h)
  have hcore (f : Core → Core) (hf : ∀ c, Mem.wf c.spad → Mem.wf (f c).spad) : CanonOpt P Q (core f) := canonOpt_some (canon_modCore h hf)
  have hvreg (i : Nat) (f : VecReg → VecReg) : CanonOpt P Q (vreg i f) := hcore _ fun _ hc => hc
  clear_value up core ts vreg th
  repeat' refine canonOpt_ite ?_ ?_
  all_goals grind [spad_counterWrite, canonOpt_some, canonOpt_none]

theorem canon_csrOp {i : Instr} {d : SReg} {csr : BitVec 12} {write : Option (Word → Word)} (h : Canon P Q s) :
    CanonOut P Q (csrOp i d csr write s) := by
  unfold csrOp
  grind [canonOut_next, canon_block, canon_csrWrite, canon_finish, canon_illegal, canon_privileged, canon_raise]

theorem canon_execCsrw {d a : SReg} {csr : BitVec 12} (h : Canon P Q s) : CanonOut P Q (execCsrw d a csr s) := canon_csrOp h

theorem canon_execCsrs {d a : SReg} {csr : BitVec 12} (h : Canon P Q s) : CanonOut P Q (execCsrs d a csr s) := canon_csrOp h

theorem canon_execCsrc {d a : SReg} {csr : BitVec 12} (h : Canon P Q s) : CanonOut P Q (execCsrc d a csr s) := canon_csrOp h

theorem canon_execLeWrite {k : CoreId} {t : Tid} {v : Word} (h : Canon P Q s) : CanonOut P Q (execLeWrite k t v s) := by
  unfold execLeWrite
  grind [canonOut_next, canon_csrWrite, canon_trapThr]

theorem canon_execLsWrite {k : CoreId} {t : Tid} {v : Word} (h : Canon P Q s) : CanonOut P Q (execLsWrite k t v s) := by
  unfold execLsWrite
  grind [canonOut_next, canon_csrWrite, canon_trapThr]

theorem canon_execTfbufWrite {k : CoreId} {t : Tid} {v : Word} (h : Canon P Q s) : CanonOut P Q (execTfbufWrite k t v s) :=
  canonOut_next (canon_modThr h)

theorem canon_execCounterConfigure {k : CoreId} {n : Fin 8} {v : Word} (h : Canon P Q s) : CanonOut P Q (execCounterConfigure k n v s) :=
  canonOut_next (canon_modCore h fun _ => spad_counterConfig)

theorem canon_execCounterCountWrite {k : CoreId} {n : Fin 8} {v : Word} (h : Canon P Q s) :
    CanonOut P Q (execCounterCountWrite k n v s) := canonOut_next (canon_modCore h fun _ => spad_counterSet)

end Sys2Proof.Machine
end

section
/-! PROOFS. The canonical form of the memories (O12): the floating flags and saturation. -/

namespace Sys2Proof.Machine

variable {P : CoreId → Prop} {Q : DieId → Prop} {s : State}

theorem canon_finishFp {d : SReg} {v : Nat} {f : BitVec 5} (h : Canon P Q s) : CanonOut P Q (finishFp s d v f) := by
  unfold finishFp
  grind [canonOut_next, canon_accrue, canon_finish, canon_raise]

theorem canon_saturate {b : Bool} (h : Canon P Q s) : Canon P Q (State.saturate s b) := canon_when h canon_modCur

end Sys2Proof.Machine
end

section
/-! PROOFS. The canonical form of the memories (O12): the accesses of copies, bindings and engines. -/

namespace Sys2Proof.Machine

variable {P : CoreId → Prop} {Q : DieId → Prop} {s : State}

theorem canon_xferAccess {u : XUnit} {rq : XReq} {k : AccKind} {hostOk : Bool} {used : List UsedPage} {va : Word} (h : Canon P Q s) :
    Canon P Q (xferAccess s u rq k hostOk used va).1 := by
  unfold xferAccess
  grind [canon_translate]

theorem canon_xferPieces {u : XUnit} {rq : XReq} {k : AccKind} {hostOk : Bool} {used : List UsedPage} {va : Word}
    {n : Nat} (h : Canon P Q s) : Canon P Q (xferPieces s u rq k hostOk used va n).1 := by
  unfold xferPieces
  grind [canon_xferAccess]

theorem canon_writePieces {bs : List Byte} {bad : Bool} {l : List (Tgt × Nat)} (h : Canon P Q s) : Canon P Q (writePieces s bs bad l) := by
  induction l generalizing s bs with
  | nil => exact h
  | cons x l ih => unfold writePieces; grind [canon_tgtWrite, canon_tgtPoison]

theorem canon_boxRead {k : CoreId} {rq : XReq} {b : BitVec 512} {used : List UsedPage} {n : Nat} (h : Canon P Q s) :
    Canon P Q (boxRead s k rq b used n).1 := by
  unfold boxRead
  grind [canon_xferPieces]

theorem canon_boxReadRun {k : CoreId} {rq : XReq} {b : BitVec 512} {used : List UsedPage} {n cnt : Nat} (h : Canon P Q s) :
    Canon P Q (boxReadRun s k rq b used n cnt).1 := by
  induction cnt generalizing s used n with
  | zero => exact h
  | succ cnt ih => unfold boxReadRun; grind [canon_boxRead]

theorem canon_noteGuardAt {a : Nat} (h : Canon P Q s) : Canon P Q (State.noteGuardAt s a) := canon_modCur h

theorem canon_guardRead {a n : Nat} (h : Canon P Q s) : Canon P Q (State.guardRead s a n).1 := by
  unfold State.guardRead
  grind [canon_noteGuardAt, canon_poisonRead]

theorem canon_oneAccess {before : Option GuardRec} {again : Bool} (h : Canon P Q s) : Canon P Q (State.oneAccess before again s) :=
  canon_modCur h

theorem canon_guardWrite {a : Nat} {bs : List Byte} (h : Canon P Q s) : Canon P Q (State.guardWrite s a bs) := by
  unfold State.guardWrite
  grind [canon_foldl, canon_modCurC, canon_noteGuardAt, spad_spadWrite]

theorem canon_sidecarRead {k : CoreId} {rq : XReq} {b : BitVec 512} {used : List UsedPage} (h : Canon P Q s) :
    Canon P Q (sidecarRead s k rq b used).1 := by
  unfold sidecarRead
  grind [canon_xferPieces]

end Sys2Proof.Machine
end

section
/-! PROOFS. The canonical form of the memories (O12): the lane unit. -/

namespace Sys2Proof.Machine

variable {P : CoreId → Prop} {Q : DieId → Prop} {s : State}

/-- The states that a lane word's end holds. -/
def CanonRes (P : CoreId → Prop) (Q : DieId → Prop) (r : LaneRes) : Prop :=
  match r with
  | .done s | .stop s _ _ | .wait s _ _ | .whole s _ | .early s _ | .part s _ | .batch s _ _ _ _ => Canon P Q s
  | .doneThen s post => Canon P Q s ∧ ∀ s, Canon P Q s → Canon P Q (post s)
  | .other o => CanonOut P Q o

/-- A lane word whose effect keeps the memories' canonical form. -/
def CanonOp (P : CoreId → Prop) (Q : DieId → Prop) (op : LaneOp) : Prop := ∀ e s, Canon P Q s → CanonRes P Q (op.run e s)

theorem canonRes_finishRun {e : LaneEnv} {vd : VReg} {w : Nat} {r : ElemRun} {ran : Bool} {tag : VecReg → VTag} (h : Canon P Q s) :
    CanonRes P Q (finishRun e s vd w r ran tag) := by
  unfold finishRun; grind [CanonRes, canon_accrue, canon_saturate, canon_modV]
theorem canonRes_finishElems {e : LaneEnv} {vd : VReg} {w : Nat} {r : ElemRun} {tag : VecReg → VTag} (h : Canon P Q s) :
    CanonRes P Q (finishElems e s vd w r tag) := canonRes_finishRun h



theorem canonOp_intOp {vd va : VReg} {srcs : List VReg} {mk : MkField} {rep : Option VReg}
    {f : LaneEnv → VecUnit → Nat → Nat → Nat → EOut} : CanonOp P Q (intOp vd va srcs mk rep f) := by
  intro e s h
  unfold intOp
  grind [CanonRes, canonRes_finishElems]

theorem canon_popStrip {n : VReg} {r : Fin 8} {b : Binding} {vl sew : Nat} (h : Canon P Q s) : Canon P Q (popStrip s n r b vl sew).1 := by
  unfold popStrip
  grind [canon_boxReadRun, canon_modV, canon_modVec, canon_poisonRead]

theorem canon_popAll {vl sew : Nat} {l : List VReg} (h : Canon P Q s) : Canon P Q (popAll s vl sew l).1 := by
  induction l generalizing s with
  | nil => exact h
  | cons n l ih => unfold popAll; grind [canon_popStrip]

theorem canon_takeLanes {t : Tid} (h : Canon P Q s) : Canon P Q (takeLanes s t) := by
  unfold takeLanes
  grind [canon_modThr, canon_modVec]

theorem canon_acquireLanes (h : Canon P Q s) : ∀ r, acquireLanes s = some r → Canon P Q r := by
  unfold acquireLanes
  grind [canon_takeLanes]

theorem canon_markStop {dest : Option VReg} {e : Nat} (h : Canon P Q s) : Canon P Q (markStop s dest e) := by
  unfold markStop
  grind [canon_modV]

theorem canon_laneFinish {fin : State → State} (h : Canon P Q s) (hf : ∀ s, Canon P Q s → Canon P Q (fin s)) : Canon P Q (laneFinish s fin) :=
  canon_count (hf _ (canon_modCur (canon_modVec h)))

theorem canon_lanePart {dest : Option VReg} {n : Nat} (h : Canon P Q s) : Canon P Q (lanePart s dest n) := canon_modCur (canon_markStop h)

theorem canon_runLane {op : LaneOp} {fin : State → State} (h : Canon P Q s) (hop : CanonOp P Q op)
    (hf : ∀ s, Canon P Q s → Canon P Q (fin s)) : CanonOut P Q (runLane op s fin) := by
  unfold runLane
  extract_lets e
  split
  · exact canonOut_next (canon_trap h)
  · have hp := canon_popAll (vl := e.vl) (sew := sewOf e.vtype) (l := op.srcs.eraseDups) h
    split
    · grind [canonOut_next, canon_modCur, canon_trap]
    · grind [canonOut_next, canon_requestPage, canon_block]
    · next s1 hs1 =>
      rw [hs1] at hp
      extract_lets cut
      clear_value cut
      generalize hres : op.run _ s1 = res
      have hr : CanonRes P Q res := hres ▸ hop _ _ hp
      cases res with
      | doneThen s2 post =>
        obtain ⟨hs, hpost⟩ := hr
        dsimp only
        split
        · exact canonOut_next (hpost _ (canon_lanePart hs))
        · exact canonOut_next (hpost _ (canon_laneFinish hs hf))
      | _ =>
        grind [CanonRes, canonOut_next, canon_laneFinish, canon_lanePart, canon_markStop, canon_modCur, canon_modVec, canon_trap,
          canon_block, canon_batchFault]

theorem canon_withLanes {k : State → Out} (h : Canon P Q s) (hk : ∀ s, Canon P Q s → CanonOut P Q (k s)) : CanonOut P Q (withLanes s k) := by
  unfold withLanes; grind [canonOut_next, canon_block, canon_acquireLanes]

theorem canon_issueLane {op : LaneOp} (h : Canon P Q s) (hop : CanonOp P Q op) : CanonOut P Q (issueLane op s) :=
  canon_withLanes h fun _ hs => canon_runLane hs hop fun _ => canon_advance

theorem canon_killRegs {keepV : VReg → Bool} {keepM : MReg → Bool} (h : Canon P Q s) : Canon P Q (killRegs s keepV keepM) :=
  canon_modVec (canon_draw h)

theorem canon_freeLanes (h : Canon P Q s) : Canon P Q (freeLanes s) := by
  unfold freeLanes
  grind [canon_killRegs, canon_modVec, canon_takeLanes]

end Sys2Proof.Machine
end

section
/-! PROOFS. The canonical form of the memories (O12): the notes of satisfied waits, and folds. -/

namespace Sys2Proof.Machine

variable {P : CoreId → Prop} {Q : DieId → Prop} {s : State}

theorem spad_noteWake {c : Core} {b : Bool} (h : Mem.wf c.spad) : Mem.wf (c.noteWake b).spad := h

theorem canon_noteCoreWake {k : CoreId} {b : Bool} (h : Canon P Q s) : Canon P Q (State.noteCoreWake s k b) :=
  canon_modCore h fun _ => spad_noteWake

theorem canon_noteCounterWake {b : Bool} (h : Canon P Q s) : Canon P Q (s.noteCounterWake b) :=
  canon_mapCores h fun c hc => by split <;> exact hc

theorem canon_takeC (h : Canon P Q s) : Canon P Q (State.takeC s) := canon_modCur h

end Sys2Proof.Machine
end

section
/-! PROOFS. The canonical form of the memories (O12): the matrix unit. -/

namespace Sys2Proof.Machine

variable {P : CoreId → Prop} {Q : DieId → Prop} {s : State}

theorem canonOut_nextTrap {t : Trap} (h : Canon P Q s) : CanonOut P Q (.next (s.trap t)) := canonOut_next (canon_trap h)
theorem canonOut_nextBlock {w : Wait} (h : Canon P Q s) : CanonOut P Q (.next (s.block w)) := canonOut_next (canon_block h)

theorem canon_withMatrix {k : State → Out} (h : Canon P Q s) (hk : ∀ s, Canon P Q s → CanonOut P Q (k s)) : CanonOut P Q (withMatrix s k) := by
  unfold withMatrix; grind [canonOut_next, canon_block, canon_takeBound]

theorem canon_ownTiles {l : List Tile} (h : Canon P Q s) : ∀ r, ownTiles s l = .ok r → Canon P Q r := by
  unfold ownTiles; grind [canon_modMat]

theorem canon_execMshape {d a : SReg} {cls : MatClass} (h : Canon P Q s) : CanonOut P Q (execMshape d a cls s) := by
  unfold execMshape
  grind [canonOut_next, canon_finish, canon_modCur, canon_withMatrix]

theorem canon_execMclaim {d a : SReg} (h : Canon P Q s) : CanonOut P Q (execMclaim d a s) := by
  unfold execMclaim
  grind [canonOut_next, canon_finish, canon_modMat, canon_trap, canon_withMatrix]

theorem canon_execMrelease {a : SReg} (h : Canon P Q s) : CanonOut P Q (execMrelease a s) := by
  unfold execMrelease
  grind [canonOut_next, canon_advance, canon_modMat, canon_trap, canon_withMatrix]

theorem canon_fillRead {wait : Bool} {l : List (Nat × Nat)} (h : Canon P Q s) : Canon P Q (fillRead s wait l).1 := by
  induction l generalizing s with
  | nil => exact h
  | cons x l ih => unfold fillRead; grind [canon_guardRead]

theorem canon_execMfill {p : Slot} {a c : SReg} {t : FillType} {scl bnd wait : Bool} (h : Canon P Q s) :
    CanonOut P Q (execMfill p a c t scl bnd wait s) := by
  refine canon_withMatrix h fun s h => ?_
  extract_lets addr w pitch rows sa blocks rowAreas sclArea bndArea under areas pieces old s₁ before
  have h₁ : Canon P Q s₁ := canon_unless h fun h => canon_modMat h
  clear_value rowAreas sclArea bndArea under areas pieces old before s₁
  refine canonOut_ite (fun _ => canonOut_nextTrap h) fun _ => canonOut_ite (fun _ => canonOut_nextTrap h) fun _ => ?_
  split
  · exact canonOut_nextTrap h
  split
  · exact canonOut_nextTrap h
  refine canonOut_ite (fun _ => canonOut_nextBlock h) fun _ => ?_
  have hf := canon_fillRead (wait := wait) (l := dropPieces old.length pieces) h₁
  split
  next r bs stop hr =>
  rw [hr] at hf
  split
  · exact canonOut_nextBlock (canon_modMat (canon_oneAccess hf))
  · exact canonOut_next (canon_advance (canon_modMat (canon_when (canon_oneAccess hf) fun h => canon_takeC h)))

theorem canon_slotsRead {l : List Slot} (h : Canon P Q s) : Canon P Q (State.slotsRead s l) := canon_when h canon_poisonRead

theorem canon_execMwload {p : Slot} (h : Canon P Q s) : CanonOut P Q (execMwload p s) := by
  unfold execMwload
  grind [canonOut_next, canon_advance, canon_block, canon_modCur, canon_modMat, canon_slotsRead, canon_trap, canon_withMatrix]

theorem canon_compareTile {k : CoreId} {tid : Tid} {p : Tile} {rows : List Nat} (h : Canon P Q s) :
    Canon P Q (compareTile s k tid p rows) := by
  unfold compareTile
  grind [canon_modCore, canon_modThr]

theorem canon_mmacWith {fin : State → State} {pc : Word} {p : Tile} {q : Slot} {c : Tile} {t : ActType} {rs x z : Bool} (h : Canon P Q s)
    (hf : ∀ s, Canon P Q s → Canon P Q (fin s)) : CanonOut P Q (mmacWith fin pc p q c t rs x z s) := by
  refine canon_withMatrix h fun s h => ?_
  extract_lets at_ lt wt kmax k two u
  clear_value u lt wt kmax k two
  split
  · exact canonOut_nextTrap h
  split
  · exact canonOut_nextTrap h
  refine canonOut_ite (fun _ => canonOut_nextBlock h) fun _ => ?_
  split
  · exact canonOut_nextTrap h
  refine canonOut_ite (fun _ => canonOut_nextTrap h) fun _ => ?_
  extract_lets same
  clear_value same
  refine canonOut_ite (fun _ => canonOut_nextTrap h) fun _ => ?_
  split
  · exact canonOut_nextTrap h
  next l _ _ _ r hr =>
    extract_lets v w
    have hv : Canon P Q v := canon_unless (canon_ownTiles h r hr) fun h => canon_modMat h
    clear_value v w
    split
    · exact canonOut_nextTrap hv
    exact canonOut_next (hf _ (canon_when (canon_slotsRead (canon_count (canon_modMat hv))) fun h => canon_compareTile h))

theorem canon_execAutoReissue {k : CoreId} (h : Canon P Q s) :
    CanonOut P Q (execAutoReissue k s) := by
  unfold execAutoReissue
  split
  · exact canonOut_next h
  extract_lets th m u t rows note
  have hn : ∀ {s sev}, Canon P Q s → Canon P Q (note s sev) := fun h => canon_ite (canon_logError h) h
  clear_value th u t rows note
  split
  · split
    · exact canonOut_next (canon_modThr (hn (canon_modCore h fun _ hc => hc)))
    · exact canonOut_next (hn (canon_modCore h fun _ hc => hc))
  · extract_lets v₁ v₂ v₃ v₄ beyond v₅ s₁ s₂
    have h₂ : Canon P Q s₂ := hn (canon_modThr (canon_modCore h fun _ hc => by rwa [Core.count_spad]))
    clear_value beyond s₂
    split
    · exact canonOut_next (canon_modThr h₂)
    · exact canonOut_next h₂

theorem canon_residueMismatch {k : CoreId} {tid : Tid} {p : Tile} {rows : List Nat} {synd : Word} (h : Canon P Q s) :
    Canon P Q (residueMismatch s k tid p rows synd) := by
  unfold residueMismatch
  grind [canon_compareTile, canon_logError, canon_modCore]

theorem canon_execMzero {p : Tile} (h : Canon P Q s) : CanonOut P Q (execMzero p s) := by
  unfold execMzero
  grind [canonOut_next, canon_advance, canon_modMat, canon_ownTiles, canon_trap, canon_withMatrix]

theorem canon_execMsoft {p c : Tile} {q : Slot} (h : Canon P Q s) : CanonOut P Q (execMsoft p q c s) := by
  refine canon_withMatrix h fun s h => canonOut_ite (fun _ => canonOut_nextTrap h) fun _ => canonOut_ite (fun _ => canonOut_nextBlock h) fun _ => ?_
  split
  · exact canonOut_nextTrap h
  · next r hr => exact canonOut_next (canon_advance (canon_modMat (canon_draw (canon_ownTiles h r hr))))

theorem canon_execMnorm {p : Tile} (h : Canon P Q s) : CanonOut P Q (execMnorm p s) := by
  unfold execMnorm
  grind [canonOut_next, canon_advance, canon_modMat, canon_ownTiles, canon_trap, canon_withMatrix]

theorem canonOp_opMdrain {vd : VReg} {q : Tile} {c : SReg} {t : DrainType} {sat : Bool} : CanonOp P Q (opMdrain vd q c t sat) := by
  intro e s h
  unfold opMdrain; grind [CanonRes, canon_ownTiles, canon_accrue, canon_saturate, canon_modV]

theorem canon_execMdrain {vd : VReg} {q : Tile} {c : SReg} {t : DrainType} {sat : Bool} (h : Canon P Q s) :
    CanonOut P Q (execMdrain vd q c t sat s) := by
  unfold execMdrain
  grind [canon_issueLane, canonOp_opMdrain, canon_withMatrix]

theorem canon_execMdrainc {vd : VReg} {q : Tile} {c : SReg} {t : DrainType} {sat : Bool} (h : Canon P Q s) :
    CanonOut P Q (execMdrainc vd q c t sat s) := by
  unfold execMdrainc
  grind [canon_issueLane, canonOp_opMdrain, canon_withMatrix]

theorem spad_setFull {c : Core} {g : Nat} {on : Bool} (h : Mem.wf c.spad) : Mem.wf (c.setFull g on).spad := h
theorem spad_engineWrite {c : Core} {a : Nat} {bs : List Byte} (h : Mem.wf c.spad) : Mem.wf (c.engineWrite a bs).spad :=
  spad_foldl (spad_spadWrite h) fun _ _ => spad_setFull

theorem canon_execMdrainSpad {q : Tile} {c : SReg} {t : DrainType} {sat bnd : Bool} (h : Canon P Q s) :
    CanonOut P Q (execMdrainSpad q c t sat bnd s) := by
  refine canon_withMatrix h fun s h => ?_
  extract_lets d
  clear_value d
  split
  · exact canonOut_nextTrap h
  have hg := canon_guardRead (a := d.toNat) (n := 16) h
  split
  next r bs b hr =>
  rw [hr] at hg
  extract_lets dst row0 rows pitch w cols rb side areas
  clear_value dst row0 rows pitch w cols rb side areas
  refine canonOut_ite (fun _ => canonOut_nextTrap hg) fun _ => ?_
  split
  · exact canonOut_nextTrap hg
  split
  · exact canonOut_nextTrap hg
  split
  · exact canonOut_nextTrap hg
  next r hr =>
    have hd := canon_ownTiles hg r hr
    exact canonOut_next (canon_advance (canon_noteCoreWake (canon_when
      (canon_unless (canon_saturate (canon_accrue hd)) fun h => canon_foldl h fun _ _ h => canon_modCurC h fun _ => spad_engineWrite)
      fun h => canon_modCurC h fun _ => spad_engineWrite)))

theorem canon_translateRun {u : XUnit} {rq : XReq} {k : AccKind} {n : Nat} {va : Word} (h : Canon P Q s) :
    Canon P Q (translateRun s u rq k n va).1 := by
  induction n generalizing s va with
  | zero => exact h
  | succ n ih => unfold translateRun; grind [canon_translate]

theorem canon_writeRun {bs : List Byte} {l : List Tgt} (h : Canon P Q s) : Canon P Q (writeRun s bs l) := by
  induction l generalizing s bs with
  | nil => exact h
  | cons t l ih => exact ih (canon_tgtWrite h)

theorem canon_imageRun {va : Word} {k : AccKind} {n : Nat} {f : State → List Tgt → Out} (h : Canon P Q s)
    (hf : ∀ s l, Canon P Q s → CanonOut P Q (f s l)) : CanonOut P Q (imageRun s va k n f) := by
  unfold imageRun; grind [canon_raise, canon_translateRun, canon_pieceFail]

theorem canon_saveImage {va : Word} {bs : List Byte} (h : Canon P Q s) : CanonOut P Q (saveImage s va bs) := by
  unfold saveImage
  grind [canonOut_next, canon_advance, canon_imageRun, canon_writeRun]

theorem canon_execMsaveTile {a : SReg} {q : Tile} (h : Canon P Q s) : CanonOut P Q (execMsaveTile a q s) := by
  unfold execMsaveTile
  grind [canon_atKernel, canon_saveImage, canon_withMatrix]

theorem canon_poisonImage {l : List Tgt} {g : GSet} (h : Canon P Q s) : Canon P Q (poisonImage s l g) := by
  unfold poisonImage
  grind [canon_foldl, canon_tgtPoison]

theorem canon_execMsaveSlot {a : SReg} {c : Slot} (h : Canon P Q s) : CanonOut P Q (execMsaveSlot a c s) := by
  unfold execMsaveSlot
  grind [canonOut_next, canon_advance, canon_atKernel, canon_block, canon_imageRun, canon_poisonImage, canon_trap, canon_withMatrix,
    canon_writeRun]

theorem canon_noteBad {b : Option (DieId × Fin 16)} (h : Canon P Q s) : Canon P Q (State.noteBad s b) := by
  unfold State.noteBad
  grind [canon_poisonRead]

theorem canon_execMrestTile {a : SReg} {q : Tile} (h : Canon P Q s) : CanonOut P Q (execMrestTile a q s) := by
  unfold execMrestTile
  grind [canonOut_next, canon_advance, canon_atKernel, canon_imageRun, canon_modMat, canon_noteBad, canon_trap, canon_withMatrix]

theorem canon_execMrestSlot {a : SReg} {c : Slot} (h : Canon P Q s) : CanonOut P Q (execMrestSlot a c s) := by
  unfold execMrestSlot
  grind [canonOut_next, canon_advance, canon_atKernel, canon_block, canon_imageRun, canon_modMat, canon_noteBad, canon_trap,
    canon_withMatrix]

theorem canonOp_opMbread {vd : VReg} {q : Tile} {f : BreadField} : CanonOp P Q (opMbread vd q f) := by
  intro e s h
  unfold opMbread; grind [CanonRes, canon_ownTiles, canon_modV]

theorem canon_execMbread {vd : VReg} {q : Tile} {f : BreadField} (h : Canon P Q s) : CanonOut P Q (execMbread vd q f s) := by
  unfold execMbread
  grind [canon_issueLane, canonOp_opMbread, canon_withMatrix]

end Sys2Proof.Machine
end

section
/-! PROOFS. The canonical form of the memories (O12): vsetvl, stream bindings and spill frames. -/

namespace Sys2Proof.Machine

variable {P : CoreId → Prop} {Q : DieId → Prop} {s : State}

theorem canon_killNotLive {live : BitVec 48} (h : Canon P Q s) : Canon P Q (killNotLive s live) := canon_killRegs (canon_modVec h)

theorem canon_takeYield (h : Canon P Q s) : Canon P Q (takeYield s) := canon_trapThr (canon_modCur h)

theorem canon_yieldPoint (h : Canon P Q s) : Canon P Q (yieldPoint s) := by
  unfold yieldPoint
  grind [canon_modCur, canon_takeYield]

theorem canon_execVsetvl {d a : SReg} {vt : VtypeField} (h : Canon P Q s) : CanonOut P Q (execVsetvl d a vt s) := by
  unfold execVsetvl
  grind [canonOut_next, canon_finish, canon_killNotLive, canon_modCur, canon_yieldPoint]

theorem canon_bindTag {rq : XReq} {b : BitVec 512} (h : Canon P Q s) : Canon P Q (bindTag s rq b).1 := by
  unfold bindTag
  grind [canon_poisonRead, canon_sidecarRead]

theorem canon_bindStream {r : Fin 8} {b : BitVec 512} {rq : XReq} {tag : VTag} (h : Canon P Q s) : Canon P Q (bindStream s r b rq tag) :=
  canon_modV (canon_modVec h)

theorem canonOp_opVsbind {r : Fin 8} {a : SReg} : CanonOp P Q (opVsbind r a) := by
  intro e s h
  unfold opVsbind
  dsimp only
  split
  · exact h
  have hg := canon_guardRead (a := (e.sreg a).toNat) (n := 64) h
  generalize s.guardRead (e.sreg a).toNat 64 = x at hg ⊢
  obtain ⟨s, bs, b⟩ := x
  grind [CanonRes, canonOut_next, canon_hostSuspend, canon_bindTag, canon_bindStream]

theorem canonOp_opVsunbind {vd : VReg} : CanonOp P Q (opVsunbind vd) := by
  intro e s h
  unfold opVsunbind
  grind [CanonRes, canon_modV, canon_modVec]

theorem canon_execStreamRefill {k : CoreId} {r : Fin 8} (h : Canon P Q s) : CanonOut P Q (execStreamRefill k r s) := by
  unfold execStreamRefill
  grind [canonOut_next, canon_boxReadRun, canon_modCore, canon_modThr]

theorem canonOp_opVspill {vd : VReg} {a : SReg} : CanonOp P Q (opVspill vd a) := by
  intro e s h
  unfold opVspill
  grind [CanonRes, canon_guardWrite, canon_oneAccess]

theorem canonOp_opVfill {vd : VReg} {a : SReg} : CanonOp P Q (opVfill vd a) := by
  intro e s h
  unfold opVfill
  grind [CanonRes, canon_guardRead, canon_modV, canon_oneAccess]

end Sys2Proof.Machine
end

section
/-! PROOFS. The canonical form of the memories (O12): the copy unit. -/

namespace Sys2Proof.Machine

variable {P : CoreId → Prop} {Q : DieId → Prop} {s : State}

theorem canon_withBar {a : SReg} {k : State → Word → Bar → Out} (h : Canon P Q s) (hk : ∀ s w b, Canon P Q s → CanonOut P Q (k s w b)) :
    CanonOut P Q (withBar a s k) := by
  unfold withBar
  grind [canonOut_next, canon_trap, canon_guardRead]

theorem canon_execAbinit {a b c : SReg} (h : Canon P Q s) : CanonOut P Q (execAbinit a b c s) := by
  unfold execAbinit
  grind [canonOut_next, canon_advance, canon_guardWrite, canon_raise, canon_trap]

theorem canon_execAbwait {a b : SReg} (h : Canon P Q s) : CanonOut P Q (execAbwait a b s) := by
  unfold execAbwait
  split
  · next r hr => exact canonOut_next (canon_reportAll h r hr)
  · exact canon_withBar h fun s _ _ h => canonOut_ite (fun _ => canonOut_next (canon_advance (canon_takeC h))) fun _ => canonOut_nextBlock h

theorem canon_execAbrel {a b : SReg} (h : Canon P Q s) : CanonOut P Q (execAbrel a b s) :=
  canon_withBar h fun _ _ _ h => canonOut_ite (fun _ => canon_raise h) fun _ => canonOut_next (canon_advance (canon_guardWrite h))

theorem canon_execAbwaitComplete {k : CoreId} {t : Tid} (h : Canon P Q s) : CanonOut P Q (execAbwaitComplete k t s) := by
  unfold execAbwaitComplete
  grind [canonOut_next, canon_modThr]

theorem canon_execSenq {a b c : SReg} (h : Canon P Q s) : CanonOut P Q (execSenq a b c s) := by
  unfold execSenq
  grind [canonOut_next, canon_finish, canon_modEngine, canon_raise]

theorem canon_readAhead {k : CoreId} {rq : XReq} {b : BitVec 512} {used : List UsedPage} {cnt n : Nat} (h : Canon P Q s) :
    Canon P Q (readAhead s k rq b used cnt n).1 := by
  induction cnt generalizing s used n with
  | zero => exact h
  | succ cnt ih => unfold readAhead; grind [canon_boxRead]

theorem canon_enterCopy {k : CoreId} {c : CopyCmd} (h : Canon P Q s) : Canon P Q (enterCopy s k c).1 := by
  unfold enterCopy
  grind [canon_readAhead, canon_sidecarRead]

theorem canon_issueCopy {a : Word} {i : CopyIssue} (h : Canon P Q s) : CanonOut P Q (issueCopy s a i) := by
  unfold issueCopy
  extract_lets b t ring queue
  have hq : ∀ s, Canon P Q s → CanonOut P Q (queue s) := by
    intro s h
    unfold queue
    split
    · exact canonOut_nextTrap h
    · grind [canonOut_next, canon_advance, canon_modCurC, canon_enterCopy, canon_with]
  clear_value b t ring queue
  refine canonOut_ite (fun _ => canonOut_nextTrap h) fun _ => ?_
  split
  · exact canonOut_nextTrap h
  split
  · exact canonOut_nextTrap h
  split
  · exact hq s h
  · refine canonOut_ite (fun _ => canon_raise h) fun _ => canonOut_ite (fun _ => canon_raise h) fun _ => ?_
    grind [canon_translate, canon_scalarFail]

theorem canon_withCopyUnit {k : State → Out} (h : Canon P Q s) (hk : ∀ s, Canon P Q s → CanonOut P Q (k s)) :
    CanonOut P Q (withCopyUnit s k) := by
  unfold withCopyUnit
  grind [canonOut_next, canon_block, canon_takeCopyFault]

theorem canon_execCpa {a b c : SReg} {fl : CmdFlags} (h : Canon P Q s) : CanonOut P Q (execCpa a b c fl s) := by
  refine canon_withCopyUnit h fun s h => ?_
  extract_lets addr
  clear_value addr
  split
  · exact canonOut_nextTrap h
  · exact canon_issueCopy (canon_guardRead h)

theorem canon_execCpaRes {a : SReg} {f : CmdFlags} (h : Canon P Q s) : CanonOut P Q (execCpaRes a f s) := by
  refine canon_withCopyUnit h fun s h => ?_
  extract_lets addr
  clear_value addr
  split
  · exact canonOut_nextTrap h
  have hg := canon_guardRead (a := addr.toNat) (n := 128) h
  split
  next s bs b hr =>
  rw [hr] at hg
  extract_lets b f j fl inside next ctr bar
  exact canonOut_ite (fun _ => canonOut_nextTrap hg) fun _ => canon_issueCopy hg

theorem canon_modCtx {p : FuncId} {ctx : BitVec 16} {f : Thread → Thread} (h : Canon P Q s) : Canon P Q (s.modCtx p ctx f) :=
  canon_mapCores h fun _ hc => hc

theorem canon_setCopy {k : CoreId} {c : CopyCmd} (h : Canon P Q s) : Canon P Q (State.setCopy s k c) := canon_modCore h fun _ hc => hc

theorem canon_dropCopy {k : CoreId} {c : CopyCmd} (h : Canon P Q s) : Canon P Q (State.dropCopy s k c) := canon_modCore h fun _ hc => hc

theorem canon_stopCopy {k : CoreId} {c : CopyCmd} {reason : Nat} {va : Word} (h : Canon P Q s) : Canon P Q (stopCopy s k c reason va) :=
  canon_draw (canon_modCtx (canon_dropCopy h))

theorem canon_readStrip {k : CoreId} {rq : XReq} {b : BitVec 512} {used : List UsedPage} {ahead : List (List Byte × Option (DieId × Fin 16))}
    {cnt n : Nat} (h : Canon P Q s) : Canon P Q (readStrip s k rq b used ahead cnt n).1 := by
  induction cnt generalizing s used ahead n with
  | zero => unfold readStrip; exact h
  | succ cnt ih => unfold readStrip; grind [canon_boxRead]

theorem canon_landTargets {k : CoreId} {rq : XReq} {acc : AccKind} {used : List UsedPage} {base : Int} {l : List (Nat × List Byte × Bool)}
    (h : Canon P Q s) : Canon P Q (landTargets s k rq acc used base l).1 := by
  induction l generalizing s used with
  | nil => exact h
  | cons x l ih => unfold landTargets; grind [canon_xferPieces]

theorem canon_landGeneric {t : ElemType} {fold : Option FoldKind} {l : List (Nat × List Byte × Bool)}
    {ps : List (List (Tgt × Nat))} (h : Canon P Q s) : Canon P Q (landGeneric s t fold l ps) := canon_foldl h fun _ _ => canon_writePieces

theorem canon_counterAt {u : XUnit} {rq : XReq} {c : Option Word} (h : Canon P Q s) : Canon P Q (counterAt s u rq c).1 := by
  unfold counterAt
  grind [canon_xferAccess]

theorem canon_addAt {t : Tgt} {n : Nat} (h : Canon P Q s) : Canon P Q (addAt s t n) := canon_tgtWrite h

theorem spad_barAdd {c : Core} {a n : Nat} (h : Mem.wf c.spad) : Mem.wf (c.barAdd a n).spad := spad_spadWrite h

theorem canon_countStrip {k : CoreId} {c : CopyCmd} {x : Strip} {ctr : CtrAt} (h : Canon P Q s) : Canon P Q (countStrip s k c x ctr) := by
  unfold countStrip
  extract_lets n c s₁ s₂
  have h₁ : Canon P Q s₁ := by
    unfold s₁; split
    · exact canon_modCore h fun _ => spad_barAdd
    · exact h
  have h₂ : Canon P Q s₂ := by
    unfold s₂; split
    · exact canon_noteCounterWake (canon_addAt h₁)
    · exact h₁
  exact canon_noteCoreWake (canon_ite (canon_dropCopy h₂) (canon_setCopy h₂))

theorem canon_stripSidecar {k : CoreId} {rq : XReq} {c : CopyCmd} {used : List UsedPage} (h : Canon P Q s) :
    Canon P Q (stripSidecar s k rq c used).1 := by
  unfold stripSidecar
  grind [canon_sidecarRead]

theorem canon_copyObstacle {k : CoreId} {c : CopyCmd} {e : XferFail × Word} (h : Canon P Q s) : Canon P Q (copyObstacle s k c e) := by
  unfold copyObstacle
  grind [canon_awaitPage, canon_stopCopy]

theorem spad_ringWrite {c : Core} {b : Bar} {p : Nat} {bs : List Byte} {bad : Bool} (h : Mem.wf c.spad) : Mem.wf (c.ringWrite b p bs bad).spad := by
  unfold Core.ringWrite
  grind [spad_engineWrite]

theorem spad_landRun {c : Core} {t : ElemType} {fold : Option FoldKind} {a : Nat} {bs : List Byte} {bad : Bool} {hold : Option Nat}
    (h : Mem.wf c.spad) : Mem.wf (c.landRun t fold a bs bad hold).spad := by
  unfold Core.landRun
  extract_lets old oldBad bs c₁ c₂
  have h₂ : Mem.wf c₂.spad := spad_foldl (spad_spadWrite h) fun c g hc => by
    split
    · exact hc
    · exact spad_setFull hc
  split
  · exact h₂
  · exact h₂

theorem canon_ringStrip {k : CoreId} {c : CopyCmd} {bar : Nat} {rq : XReq} (h : Canon P Q s) : Canon P Q (ringStrip s k c bar rq) := by
  unfold ringStrip
  split
  next s₁ c₁ hs =>
  have h₁ : Canon P Q s₁ := by grind [canon_setCopy, canon_with]
  clear hs
  extract_lets b x
  clear_value b x
  refine canon_ite h₁ (canon_ite (canon_stopCopy h₁) (canon_ite h₁ ?_))
  have hc := canon_counterAt (u := .vector k) (rq := rq) (c := c₁.counter) h₁
  split
  · next hr => rw [hr] at hc; exact canon_awaitPage hc fun _ => canon_stopCopy
  · next hr => rw [hr] at hc; exact canon_stopCopy hc
  next s₂ ctr _ _ hr =>
  rw [hr] at hc
  have hs := canon_readStrip (k := k) (rq := rq) (b := c₁.block) (used := c₁.pages) (ahead := c₁.ahead) (cnt := x.cnt) (n := c₁.next) hc
  split
  · next hr => rw [hr] at hs; exact canon_copyObstacle hs
  · next hr =>
    rw [hr] at hs
    exact canon_countStrip (canon_modCore hs fun _ hk => spad_foldl hk fun _ _ => spad_ringWrite)

theorem canon_sumStrip {k : CoreId} {c : CopyCmd} {rq : XReq} (h : Canon P Q s) : Canon P Q (sumStrip s k c rq) := by
  unfold sumStrip
  extract_lets b t es cnt dst
  clear_value t es cnt dst
  have hc := canon_counterAt (u := .vector k) (rq := rq) (c := c.counter) h
  split
  · next hr => rw [hr] at hc; exact canon_awaitPage hc fun _ => canon_stopCopy
  · next hr => rw [hr] at hc; exact canon_stopCopy hc
  next s₂ ctr _ _ hr =>
  rw [hr] at hc
  have hs := canon_readStrip (k := k) (rq := rq) (b := b) (used := c.pages) (ahead := c.ahead) (cnt := cnt) (n := c.next) hc
  split
  · next hr => rw [hr] at hs; exact canon_copyObstacle hs
  next s₃ l used hr =>
  rw [hr] at hs
  generalize hx : (if blkDspace b = 0 then landTargets s₃ k rq .atomic used dst [(0, List.replicate es 0, false)] else (s₃, .ok ([], used))) = x
  have hl : Canon P Q x.1 := by rw [← hx]; split; exacts [canon_landTargets hs, hs]
  clear hx
  split
  · exact canon_copyObstacle hl
  next s₄ ps _ =>
  extract_lets pieces old oldBad start terms
  split
  next n s₅ hd =>
  have h₅ : Canon P Q s₅ := by rw [show s₅ = s₄.draw.2 by rw [hd]]; exact canon_draw hl
  extract_lets
  refine canon_countStrip (canon_when h₅ fun h₅ => canon_ite (canon_writePieces h₅) (canon_modCore h₅ fun y hy => ?_))
  split
  · exact spad_landRun hy
  · exact spad_foldl (spad_landRun hy) fun _ _ => spad_setFull

theorem canon_plainStrip {k : CoreId} {c : CopyCmd} {rq : XReq} (h : Canon P Q s) : Canon P Q (plainStrip s k c rq) := by
  unfold plainStrip
  extract_lets b t x fold
  clear_value t x fold
  have hc := canon_counterAt (u := .vector k) (rq := rq) (c := c.counter) h
  split
  · next hr => rw [hr] at hc; exact canon_awaitPage hc fun _ => canon_stopCopy
  · next hr => rw [hr] at hc; exact canon_stopCopy hc
  next s₂ ctr _ _ hr =>
  rw [hr] at hc
  have hs := canon_stripSidecar (k := k) (rq := rq) (c := c) (used := c.pages) hc
  split
  · next hr => rw [hr] at hs; exact canon_copyObstacle hs
  next s₃ side used hr =>
  rw [hr] at hs
  have hs := canon_readStrip (k := k) (rq := rq) (b := b) (used := used) (ahead := c.ahead) (cnt := x.cnt) (n := c.next) hs
  split
  · next hr => rw [hr] at hs; exact canon_copyObstacle hs
  next s₄ l used hr =>
  rw [hr] at hs
  extract_lets runs sideRun
  clear_value runs sideRun
  refine canon_ite ?_ (canon_ite ?_ ?_)
  · have hs := canon_landTargets (k := k) (rq := rq) (acc := .store) (used := used) (base := blkDst b - 8) (l := sideRun) hs
    split
    · next hr => rw [hr] at hs; exact canon_copyObstacle hs
    next s₅ sp used hr =>
    rw [hr] at hs
    have hs := canon_landTargets (k := k) (rq := rq) (acc := if fold.isSome then .atomic else .store) (used := used) (base := blkDst b) (l := runs) hs
    split
    · next hr => rw [hr] at hs; exact canon_copyObstacle hs
    · next hr =>
      rw [hr] at hs
      exact canon_countStrip (canon_noteCounterWake (canon_landGeneric (canon_landGeneric hs)))
  · split
    refine canon_ite (canon_stopCopy hs) ?_
    split
    · exact hs
    · exact canon_ite (canon_stopCopy hs) (canon_countStrip (canon_modCore hs fun _ hy => hy))
  · exact canon_countStrip (canon_foldl hs fun _ _ h => canon_modCore h fun _ hy =>
      spad_noteWake (spad_foldl (spad_foldl hy fun _ _ => spad_landRun) fun _ _ => spad_landRun))

theorem canon_execCopyStripLands {k : CoreId} {j : Fin 4} (h : Canon P Q s) : CanonOut P Q (execCopyStripLands k j s) := by
  unfold execCopyStripLands
  grind [canonOut_next, canon_dropCopy, canon_modCtx, canon_plainStrip, canon_ringStrip, canon_sumStrip]

theorem canon_quiesceEntries {k : CoreId} {pick : CopyCmd → Bool} {binds : Bool} (h : Canon P Q s) :
    Canon P Q (quiesceEntries s k pick binds).1 := canon_draw h

theorem canon_dropCopies {k : CoreId} {pick : CopyCmd → Bool} (h : Canon P Q s) : Canon P Q (dropCopies s k pick) :=
  canon_foldl h fun _ _ => canon_dropCopy

theorem canon_execCpq {a c : SReg} (h : Canon P Q s) : CanonOut P Q (execCpq a c s) := by
  unfold execCpq
  grind [canonOut_next, canon_atKernelWord, canon_dropCopies, canon_finish, canon_guardWrite, canon_modVec, canon_quiesceEntries,
    canon_trap]

end Sys2Proof.Machine
end

section
/-! PROOFS. The canonical form of the memories (O12): translation of query pages. -/

namespace Sys2Proof.Machine

variable {P : CoreId → Prop} {Q : DieId → Prop} {s : State}

theorem canon_qWalkMarked {f : FuncId} {qpage : Nat} (h : Canon P Q s) : Canon P Q (qWalkMarked s f qpage).1 := by
  unfold qWalkMarked
  grind [canon_foldl, canon_orPte]

theorem canon_qWalkCached {f : FuncId} {qpage : Nat} (h : Canon P Q s) : Canon P Q (qWalkCached s f qpage).1 := by
  unfold qWalkCached
  grind [canon_modDie, canon_qWalkMarked]

theorem canon_qEntry {rq : XReq} {qpage : Nat} (h : Canon P Q s) : Canon P Q (qEntry s rq qpage).1 := by
  unfold qEntry
  grind [canon_noteUse, canon_qWalkCached]

theorem canon_qTranslate {rq : XReq} {qpage need : Nat} {mod : Bool} (h : Canon P Q s) : Canon P Q (qTranslate s rq qpage need mod).1 := by
  unfold qTranslate
  grind [canon_qEntry, canon_qWalkCached]

theorem canon_writeQpte {pa e : Nat} (h : Canon P Q s) : Canon P Q (writeQpte s pa e) :=
  canon_ite (canon_wm h Mem.setNum_wf) (canon_ite (canon_host h Mem.setNum_wf) h)

end Sys2Proof.Machine
end

section
/-! PROOFS. The canonical form of the memories (O12): queries. -/

namespace Sys2Proof.Machine

variable {P : CoreId → Prop} {Q : DieId → Prop} {s : State}

theorem canon_qTranslateAll {rq : XReq} {need : Nat} {mod : Bool} {l : List Nat} (h : Canon P Q s) : Canon P Q (qTranslateAll s rq need mod l).1 := by
  induction l generalizing s with
  | nil => exact h
  | cons p l ih => unfold qTranslateAll; grind [canon_qTranslate]

theorem canon_translateSubs {rq : XReq} {fn : Nat} {b : QBlk} {l : List (Nat × Nat × Nat)} (h : Canon P Q s) :
    Canon P Q (translateSubs s rq fn b l).1 := by
  induction l generalizing s with
  | nil => exact h
  | cons x l ih => unfold translateSubs; grind [canon_qTranslateAll]

theorem canon_qWrite {a : Nat} {bs : List Byte} (h : Canon P Q s) : Canon P Q (qWrite s a bs) :=
  canon_qmem (s := { s with qPoison := _ }) h Mem.setBytes_wf

theorem canon_qPoisonAt {a n : Nat} (h : Canon P Q s) : Canon P Q (qPoisonAt s a n) := canon_with h ..

theorem canon_exportWrite {q : QueryRun} {va : Nat} {bs : List Byte} {bad : Bool} (h : Canon P Q s) :
    Canon P Q (exportWrite s q va bs bad) := by
  unfold exportWrite
  grind [canon_modCtx, canon_noteCounterWake, canon_writePieces, canon_xferPieces]

theorem canon_modifyRow {q : QueryRun} {b : QBlk} {r a : Nat} (h : Canon P Q s) : Canon P Q (modifyRow s q b r a).1 := by
  unfold modifyRow
  grind [canon_with, canon_exportWrite, canon_foldl, canon_qPoisonAt, canon_qWrite]

theorem canon_landReply {k : CoreId} {al : List Alloc} {a : Nat} {bs : List Byte} {bad : Nat → Bool} {full crit : Bool} (h : Canon P Q s) :
    Canon P Q (landReply s k al a bs bad full crit) := by
  unfold landReply
  grind [spad_foldl, canon_modCore, spad_noteWake, spad_setFull, spad_spadWrite]

theorem canon_queryCount {k : CoreId} {rq : XReq} {ctr : Option Word} {crit force : Bool} (h : Canon P Q s) :
    Canon P Q (queryCount s k rq ctr crit force).1 := by
  unfold queryCount
  grind [canon_with, canon_addAt, canon_noteCounterWake, canon_requestPage, canon_translate]

theorem canon_counterReady {k : CoreId} {rq : XReq} {ctr : Option Word} (h : Canon P Q s) : Canon P Q (counterReady s k rq ctr).1 := by
  unfold counterReady
  grind [canon_requestPage, canon_translate]

theorem canon_setQuery {q : QueryRun} (h : Canon P Q s) : Canon P Q (State.setQuery s q) := canon_with h ..

theorem canon_readRows {q : QueryRun} {b : QBlk} {i : Nat} {c : SubCmd} (h : Canon P Q s) : Canon P Q (readRows s q b i c).1 := by
  unfold readRows
  grind

theorem canon_runSub {q : QueryRun} {i : Nat} {c : SubCmd} (h : Canon P Q s) : Canon P Q (runSub s q i c).1 := by
  unfold runSub
  grind [canon_modifyRow, canon_readRows, canon_foldl_fst]

theorem canon_landQuery {q : QueryRun} {full : Bool} (h : Canon P Q s) : Canon P Q (landQuery s q full) := by
  unfold landQuery
  grind [canon_draw, canon_landReply]

theorem canon_completeSub {q : QueryRun} {j : Nat} {force : Bool} (h : Canon P Q s) : Canon P Q (completeSub s q j force) := by
  unfold completeSub
  split <;> grind [canon_with, spad_count, canon_counterReady, canon_landQuery, canon_modCore, canon_queryCount, canon_runSub,
    canon_setQuery]

theorem canon_execQuerySubcommandComplete {q sub : Nat} (h : Canon P Q s) : CanonOut P Q (execQuerySubcommandComplete q sub s) := by
  unfold execQuerySubcommandComplete
  grind [canonOut_next, canon_completeSub]

theorem canon_completeQuery {id : Nat} (h : Canon P Q s) : Canon P Q (completeQuery s id) := by
  unfold completeQuery
  grind [canon_completeSub, canon_foldl]

theorem canon_closeQuery {k : CoreId} {t : Tid} (h : Canon P Q s) : Canon P Q (closeQuery s k t) := by
  unfold closeQuery
  grind [canon_with, canon_completeQuery, canon_foldl, canon_landQuery]

theorem canon_closeQueries {k : CoreId} (h : Canon P Q s) : Canon P Q (closeQueries s k) := by
  unfold closeQueries
  grind [canon_closeQuery]

theorem canon_areaPages {u : XUnit} {rq : XReq} {acc : AccKind} {hostOk : Bool} {used : List UsedPage} {va fuel n : Nat} (h : Canon P Q s) :
    Canon P Q (areaPages s u rq acc hostOk used va fuel n).1 := by
  induction fuel generalizing s used va n with
  | zero => exact h
  | succ fuel ih => unfold areaPages; grind [canon_translate]

theorem canon_counterCheck {b : SReg} {k : State → Out} (h : Canon P Q s) (hk : ∀ s, Canon P Q s → CanonOut P Q (k s)) :
    CanonOut P Q (counterCheck s b k) := by
  unfold counterCheck
  grind [canon_raise, canon_translate, canon_scalarFail]

theorem canon_withQBlock {a : SReg} {k : State → BitVec 512 → Out} (h : Canon P Q s) (hk : ∀ s b, Canon P Q s → CanonOut P Q (k s b)) :
    CanonOut P Q (withQBlock a s k) := by
  unfold withQBlock
  grind [canonOut_next, canon_trap, canon_guardRead]

theorem canon_queryPageFault {fn : Nat} {bad : List (Nat × Nat × Nat × Nat)} {stop : Bool} (h : Canon P Q s) :
    Canon P Q (queryPageFault s fn bad stop) := canon_batchFault h

theorem canon_exportCheck {fn a n align : Nat} {acc : AccKind} {k : State → List UsedPage → Out} (h : Canon P Q s)
    (hk : ∀ s l, Canon P Q s → CanonOut P Q (k s l)) : CanonOut P Q (exportCheck s fn a n align acc k) := by
  unfold exportCheck
  grind [canonOut_next, canon_raise, canon_areaPages, canon_batchFault, canon_scalarFail]

theorem canon_acceptSubs {q : QueryRun} (h : Canon P Q s) : CanonOut P Q (acceptSubs s q) := by
  unfold acceptSubs
  extract_lets b done queue retire
  have hqueue : ∀ s q, Canon P Q s → Canon P Q (queue s q) := fun _ _ h => h
  have hretire : ∀ s, Canon P Q s → CanonOut P Q (retire s) := fun _ h => canonOut_next (canon_advance (canon_modCur h))
  clear_value queue retire
  split
  next s₁ res hr =>
  have h₁ : Canon P Q s₁ := by rw [show s₁ = _ from (congrArg Prod.fst hr).symm]; exact canon_translateSubs h
  extract_lets bad oks
  clear_value bad oks
  refine canonOut_ite (fun _ => hretire _ h₁) fun _ => canonOut_ite (fun _ => hretire _ (hqueue _ _ h₁)) fun _ =>
    canonOut_ite (fun _ => canonOut_next (canon_queryPageFault (canon_modCur h₁))) fun _ => ?_
  exact canonOut_ite (fun _ => canonOut_next (canon_modCur (hqueue _ _ h₁))) fun _ => canonOut_ite
    (fun _ => canonOut_next (canon_queryPageFault (canon_closeQuery (canon_modCur (hqueue _ _ h₁)))))
    fun _ => canonOut_next (canon_modCur (hqueue _ _ h₁))

theorem canon_startQuery {fn : Nat} {b : SReg} {fl : QueryFlags} {blk : BitVec 512} {vec params : List Byte} {reply : Nat}
    {pages : List UsedPage} (h : Canon P Q s) : CanonOut P Q (startQuery fn b fl blk vec params reply pages s) :=
    canon_acceptSubs (canon_with h ..)

theorem canon_issueQuery {fn : Nat} {a b c : SReg} {fl : QueryFlags} (h : Canon P Q s) : CanonOut P Q (issueQuery fn a b c fl s) := by
  refine canon_withQBlock h fun s blk h => ?_
  extract_lets q reply vecLen areas go
  clear_value reply areas
  split
  · exact canonOut_nextTrap h
  split
  · exact canonOut_nextTrap h
  refine canon_counterCheck h fun s h => ?_
  have hgo : ∀ s l, Canon P Q s → CanonOut P Q (go s l) := fun s l h => canon_startQuery (canon_when h fun h => canon_poisonRead h)
  exact canonOut_ite (fun _ => hgo s [] h) fun _ => canon_exportCheck h hgo

end Sys2Proof.Machine
end

section
/-! PROOFS. The canonical form of the memories (O12): system instructions and trace records. -/

namespace Sys2Proof.Machine

variable {P : CoreId → Prop} {Q : DieId → Prop} {s : State}

theorem canon_execSvc (h : Canon P Q s) : CanonOut P Q (execSvc s) := canonOut_next (canon_trapThr (canon_advance h))

theorem canon_execTret (h : Canon P Q s) : CanonOut P Q (execTret s) := by
  unfold execTret
  grind [canonOut_next, canon_atKernel, canon_modCur]

theorem spad_debugHalt {c : Core} {cause : BitVec 3} (h : Mem.wf c.spad) : Mem.wf (c.debugHalt cause).spad := h

theorem canon_execBrk (h : Canon P Q s) : CanonOut P Q (execBrk s) :=
  canonOut_ite (fun _ => canonOut_next (canon_modCurC h fun _ => spad_debugHalt)) fun _ => canon_raise h

theorem canon_execIdle (h : Canon P Q s) : CanonOut P Q (execIdle s) := by
  unfold execIdle
  grind [canonOut_next, canon_advance, canon_atKernel, canon_modCur]

theorem canon_execFencei (h : Canon P Q s) : CanonOut P Q (execFencei s) := canonOut_next (canon_advance (canon_modVec h))

theorem canon_traceRecord {k : CoreId} {t : Tid} {kind value : Nat} (h : Canon P Q s) : Canon P Q (traceRecord s k t kind value) := by
  unfold traceRecord
  grind [spad_count, canon_modCore, canon_tgtWrite]

theorem canon_execMark {a : SReg} (h : Canon P Q s) : CanonOut P Q (execMark a s) := by
  unfold execMark
  grind [canonOut_next, canon_advance, canon_traceRecord]

theorem canon_execCounterSample {k : CoreId} (h : Canon P Q s) : CanonOut P Q (execCounterSample k s) := by
  unfold execCounterSample
  extract_lets one s₁
  have hone : ∀ s t, Canon P Q s → Canon P Q (one s t) := fun _ _ h =>
    canon_unless h fun h => canon_ite (canon_traceRecord h) (canon_modCore h fun _ => spad_count)
  exact canonOut_ite (fun _ => canonOut_next h) fun _ => canonOut_next (hone _ _ (hone _ _ (canon_modCore h fun _ hc => hc)))

theorem canon_fetchWord {va : Word} (h : Canon P Q s) : Canon P Q (fetchWord s va).1 := by
  unfold fetchWord
  grind [canon_poisonRead, canon_translate]

theorem canon_execIllegalInstruction {w : Word32} (h : Canon P Q s) : CanonOut P Q (execIllegalInstruction w s) := canon_raise h

/-- What a failed fetch does to a state. -/
theorem canonOut_fetchWordError {va : Word} {s₁ : State} {k : State → Out} (hk : fetchWord s va = (s₁, .error k)) (h : Canon P Q s₁) :
    CanonOut P Q (k s₁) := by
  unfold fetchWord at hk
  grind [canon_raise, canon_scalarFail]

theorem canon_execInstructionFetchFault (h : Canon P Q s) : CanonOut P Q (execInstructionFetchFault s) := by
  have hf := canon_fetchWord (va := s.cur.pc) h
  unfold execInstructionFetchFault
  split
  · next hr => rw [hr] at hf; exact canonOut_fetchWordError hr hf
  · next hr => rw [hr] at hf; exact canonOut_next hf

end Sys2Proof.Machine
end

section
/-! PROOFS. The canonical form of the memories (O12): the marionette and its triggers. -/

namespace Sys2Proof.Machine

variable {P : CoreId → Prop} {Q : DieId → Prop} {s : State}

theorem canon_execHypervisorClaim {k : CoreId} {bank trace : Bool} (h : Canon P Q s) : CanonOut P Q (execHypervisorClaim k bank trace s) :=
  canonOut_next (canon_modCore h fun c hc => by cases bank <;> cases trace <;> exact hc)

theorem spad_releaseBank {c : Core} (h : Mem.wf c.spad) : Mem.wf (releaseBank c).spad := by
  unfold releaseBank
  split
  · exact h
  · exact h

theorem spad_releaseTrace {c : Core} (h : Mem.wf c.spad) : Mem.wf (releaseTrace c).spad := by
  unfold releaseTrace
  split
  · exact h
  · exact h

theorem canon_execHypervisorRelease {k : CoreId} {bank trace : Bool} (h : Canon P Q s) : CanonOut P Q (execHypervisorRelease k bank trace s) := by
  refine canonOut_next (canon_modCore h fun c hc => ?_)
  grind [spad_releaseBank, spad_releaseTrace]

theorem canon_setCmderr {e : Fin 8} (h : Canon P Q s) : Canon P Q (setCmderr s e) := canon_with h ..

theorem canon_execDebugHaltRequest {k : CoreId} (h : Canon P Q s) : CanonOut P Q (execDebugHaltRequest k s) :=
  canonOut_ite (fun _ => canonOut_next (canon_setCmderr h)) fun _ => canonOut_ite (fun _ => canonOut_next h) fun _ =>
    canonOut_next (canon_modCore (canon_closeQueries h) fun _ => spad_debugHalt)

theorem canon_execDebugResumeRequest {k : CoreId} (h : Canon P Q s) : CanonOut P Q (execDebugResumeRequest k s) :=
  canonOut_ite (fun _ => canonOut_next (canon_setCmderr h)) fun _ => canonOut_ite (fun _ => canonOut_next h) fun _ =>
    canonOut_next (canon_modCore h fun _ hc => hc)

theorem canon_execTriggerHit {k : CoreId} {t : Tid} {n : Fin 4} (h : Canon P Q s) : CanonOut P Q (execTriggerHit k t n s) :=
  canonOut_ite (fun _ => canonOut_next (canon_modCore (canon_closeQueries h) fun _ => spad_debugHalt)) fun _ => canonOut_next h

theorem canon_putData0 {v : Word} (h : Canon P Q s) : Canon P Q (putData0 s v) := canon_with h ..

theorem canon_postAddr {n : Nat} (h : Canon P Q s) : Canon P Q (postAddr s n) := canon_ite (canon_with h ..) h

theorem canon_postArg {n : Nat} (h : Canon P Q s) : Canon P Q (postArg s n) := canon_ite (canon_with h ..) h

theorem canon_cmdRegister {k : CoreId} {t : Tid} (h : Canon P Q s) : Canon P Q (cmdRegister s k t).1 := by
  unfold cmdRegister
  extract_lets a w th v get
  have hget : ∀ x put, Canon P Q (get x put).1 := fun x put => by
    unfold get
    split
    · exact canon_modThr h
    · exact canon_putData0 h
  clear_value w th v get
  split
  · grind [canon_putData0, canon_csrWrite]
  split
  · exact hget _ _
  split
  · exact hget _ _
  split
  · exact hget _ _
  split
  · exact hget _ _
  split
  · split
    · exact canon_modCore h fun _ hc => hc
    · exact canon_putData0 h
  split
  · extract_lets n
    split
    · exact canon_modCore h fun _ hc => hc
    · exact canon_putData0 h
  · exact h

/-- Accesses through a port keep the memories' canonical form. -/
def CanonPort (P : CoreId → Prop) (Q : DieId → Prop) (port : Port) : Prop :=
  ∀ f off v pv s x, Canon P Q s → port f off v pv s = some x → Canon P Q x.1

theorem canon_cmdAccess {port : Port} {t : Tgt} {n : Nat} {pv : Priv} (h : Canon P Q s) (hp : CanonPort P Q port) :
    ∀ x, cmdAccess port s t n pv = some x → Canon P Q x.1 := by
  unfold cmdAccess
  cases t with
  | window f off =>
    have hw : ∀ x, port f off (if cmdWrite s then some (data s 0) else none) pv s = some x → Canon P Q x.1 := fun x => hp f off _ pv s x h
    grind [canon_postAddr, canon_putData0]
  | _ => grind [canon_postAddr, canon_putData0, canon_tgtWrite]

theorem canon_cmdMemory {port : Port} {k : CoreId} {t : Tid} (h : Canon P Q s) (hp : CanonPort P Q port) :
    Canon P Q (cmdMemory port s k t).1 := by
  have ha : ∀ s tg n pv e, Canon P Q s → Canon P Q e → Canon P Q ((cmdAccess port s tg n pv).getD (e, 3)).1 := by
    intro s tg n pv e hs he
    cases hr : cmdAccess port s tg n pv with
    | none => exact he
    | some x => exact canon_cmdAccess hs hp x hr
  unfold cmdMemory
  grind [canon_translate]

theorem canon_cmdElements {k : CoreId} (h : Canon P Q s) : Canon P Q (cmdElements s k).1 := by
  unfold cmdElements
  grind [canon_modCore, canon_postArg, canon_putData0]

theorem canon_cmdGranule {k : CoreId} (h : Canon P Q s) : Canon P Q (cmdGranule s k).1 := by
  unfold cmdGranule
  grind [canon_with, canon_modCore, canon_postAddr, spad_setFull, spad_spadWrite]

theorem canon_cmdRow {k : CoreId} (h : Canon P Q s) : Canon P Q (cmdRow s k).1 := by
  unfold cmdRow
  grind [canon_modCore, canon_postArg, canon_putData0]

theorem canon_commandWith {port : Port} (h : Canon P Q s) (hp : CanonPort P Q port) : Canon P Q (commandWith port s) := by
  unfold commandWith
  split
  · extract_lets k ty t r
    clear_value ty t k
    have hr : Canon P Q r.1 := by
      unfold r
      split
      · exact canon_cmdRegister h
      · exact canon_cmdMemory h hp
      · exact canon_cmdElements h
      · exact canon_cmdGranule h
      · exact canon_cmdRow h
      · exact h
    exact canon_ite (canon_setCmderr h) (canon_ite (canon_setCmderr h) (canon_ite hr (canon_setCmderr hr)))
  · exact canon_setCmderr h

end Sys2Proof.Machine
end

section
/-! PROOFS. The canonical form of the memories (O12): leaving a thread. -/

namespace Sys2Proof.Machine

variable {P : CoreId → Prop} {Q : DieId → Prop} {s : State}

theorem canon_asThread {k : CoreId} {t : Tid} {f : State → State} (h : Canon P Q s) (hf : ∀ s, Canon P Q s → Canon P Q (f s)) :
    Canon P Q (s.asThread k t f) := hf _ h

theorem canon_freeLanesOf {k : CoreId} {t : Tid} (h : Canon P Q s) : Canon P Q (s.freeLanesOf k t) :=
  canon_asThread h fun _ => canon_freeLanes

theorem canon_saveThread {k : CoreId} {t : Tid} {ready prio : Nat} (h : Canon P Q s) : Canon P Q (saveThread s k t ready prio).1 := by
  unfold saveThread
  grind [canon_dropCopies, canon_freeLanesOf, canon_modThr, canon_quiesceEntries]

theorem canon_suspendThread {k : CoreId} {t : Tid} {ready prio : Nat} (h : Canon P Q s) : Canon P Q (suspendThread s k t ready prio) := by
  unfold suspendThread
  grind [canon_modCore, canon_saveThread]

theorem canon_haltCore {k : CoreId} (h : Canon P Q s) : Canon P Q (haltCore s k) := by
  unfold haltCore
  have hr : ∀ r, execAutoReissue k s = .next r → Canon P Q r := canon_execAutoReissue h
  grind [canon_quiesceEntries, canon_dropCopies, canon_modCore]

end Sys2Proof.Machine
end

section
/-! PROOFS. The canonical form of the memories (O12): thread images. -/

namespace Sys2Proof.Machine

variable {P : CoreId → Prop} {Q : DieId → Prop} {s : State}

theorem canon_imagePoison {k : CoreId} {t : Tid} (h : Canon P Q s) : Canon P Q (State.imagePoison s k t) :=
  canon_ite h (canon_modThr (canon_modBank h))

theorem canon_reenterCopies {k : CoreId} {l : List CopyCmd} (h : Canon P Q s) : Canon P Q (reenterCopies s k l) := by
  unfold reenterCopies
  grind [canon_enterCopy, canon_foldl, canon_modCore]

theorem canon_reissueCopies {k : CoreId} {t : Tid} {l : List SavedCopy} (h : Canon P Q s) : Canon P Q (reissueCopies s k t l) :=
  canon_reenterCopies h

theorem canon_placeImage {k : CoreId} {t : Tid} {i : ThreadImage} (h : Canon P Q s) : Canon P Q (placeImage s k t i) := by
  unfold placeImage
  grind [canon_imagePoison, canon_modThr, canon_reissueCopies]

theorem canon_resumeCore {k : CoreId} (h : Canon P Q s) : Canon P Q (resumeCore s k) := by
  unfold resumeCore
  grind [canon_imagePoison, canon_modCore, canon_reenterCopies]

end Sys2Proof.Machine
end

section
/-! PROOFS. The canonical form of the memories (O12): operations on query pages. -/

namespace Sys2Proof.Machine

variable {P : CoreId → Prop} {Q : DieId → Prop} {s : State}

theorem canon_finishPageOp {o : PageOpRun} {code : Nat} (h : Canon P Q s) : Canon P Q (finishPageOp s o code) :=
  canon_with (canon_queryCount (canon_landReply h)) ..

theorem canon_withOpCounter {o : PageOpRun} {k : State → Out} (h : Canon P Q s) (hk : ∀ s, Canon P Q s → CanonOut P Q (k s)) :
    CanonOut P Q (withOpCounter s o k) := by
  unfold withOpCounter
  grind [canonOut_next, canon_counterReady]

theorem canon_issuePageOp {fn : Nat} {a b c : SReg} {fl : CmdFlags} (h : Canon P Q s) : CanonOut P Q (issuePageOp fn a b c fl s) := by
  refine canon_withQBlock h fun s blk h => ?_
  extract_lets q qp go
  split
  · exact canonOut_nextTrap h
  split
  · exact canonOut_nextTrap h
  have hgo : ∀ s l, Canon P Q s → CanonOut P Q (go s l) := by
    intro s l h
    have hw := canon_qWalkMarked (f := s.curPart) (qpage := qp) (canon_noteUse (ag := .stack (qDie qp)) (rq := s.curReq) h)
    unfold go
    clear_value qp
    grind [canonOut_next, canon_queryPageFault, canon_with, canon_finishPageOp, canon_advance, canon_writeQpte]
  exact canon_counterCheck h fun s h => canonOut_ite (fun _ => hgo s [] h) fun _ => canon_exportCheck h hgo

theorem canon_execQmig {a b c : SReg} {fl : CmdFlags} (h : Canon P Q s) : CanonOut P Q (execQmig a b c fl s) := by
  unfold execQmig
  grind [canon_atKernelWord, canon_issuePageOp]

theorem canon_execQseal {a b c : SReg} {fl : CmdFlags} (h : Canon P Q s) : CanonOut P Q (execQseal a b c fl s) := by
  unfold execQseal
  grind [canon_atKernelWord, canon_issuePageOp]

theorem canon_execQunseal {a b c : SReg} {fl : CmdFlags} (h : Canon P Q s) : CanonOut P Q (execQunseal a b c fl s) := by
  unfold execQunseal
  grind [canon_atKernelWord, canon_issuePageOp]

theorem canon_copyFrame {src dst : Nat} (h : Canon P Q s) : Canon P Q (copyFrame s src dst) :=
  canon_qmem (s := { s with qPoison := _ }) h fun h => Mem.blit_wf (Mem.clear_wf h)

theorem canon_pageOpError {o : PageOpRun} {st back : Nat} (h : Canon P Q s) : Canon P Q (pageOpError s o st back) :=
  canon_finishPageOp (canon_logError (canon_writeQpte h))

theorem canon_execMigrationCopyStart {op : Nat} (h : Canon P Q s) : CanonOut P Q (execMigrationCopyStart op s) := by
  unfold execMigrationCopyStart
  grind [canon_with, canonOut_next, canon_copyFrame]

theorem canon_execMigrationCommit {op : Nat} (h : Canon P Q s) : CanonOut P Q (execMigrationCommit op s) := by
  unfold execMigrationCommit
  split
  · exact canonOut_next h
  · exact canonOut_ite (fun _ => canonOut_next h) fun _ => canon_withOpCounter h fun s h => canonOut_ite
      (fun _ => canonOut_next (canon_pageOpError h)) fun _ => canonOut_next (canon_finishPageOp (canon_writeQpte h))

theorem canon_imageWrite {u : XUnit} {rq : XReq} {used : List UsedPage} {va : Word} {fuel : Nat} {bs : List Byte} (h : Canon P Q s) :
    Canon P Q (imageWrite s u rq used va fuel bs).1 := by
  induction fuel generalizing s used va bs with
  | zero => exact h
  | succ fuel ih => unfold imageWrite; grind [canon_xferPieces, canon_writePieces]

theorem canon_imageRead {u : XUnit} {rq : XReq} {used : List UsedPage} {va : Word} {fuel n : Nat} (h : Canon P Q s) :
    Canon P Q (imageRead s u rq used va fuel n).1 := by
  induction fuel generalizing s used va n with
  | zero => exact h
  | succ fuel ih => unfold imageRead; grind [canon_xferPieces]

theorem canon_pageOpObstacle {o : PageOpRun} {back : Nat} {e : XferFail × Word} (h : Canon P Q s) :
    Canon P Q (pageOpObstacle s o back e) := by
  unfold pageOpObstacle
  grind [canon_with, canon_modCtx, canon_writeQpte]

theorem canon_execSealImageWritten {op : Nat} (h : Canon P Q s) : CanonOut P Q (execSealImageWritten op s) := by
  unfold execSealImageWritten
  split
  · exact canonOut_next h
  next o _ =>
  refine canonOut_ite (fun _ => canonOut_next h) fun _ => canon_withOpCounter h fun s h => ?_
  extract_lets e src gen iv head cipher tag img
  clear_value img tag cipher head iv gen
  refine canonOut_ite (fun _ => canonOut_next (canon_pageOpError h)) fun _ => ?_
  have hi := canon_imageWrite (u := .engine o.core) (rq := o.rq) (used := o.pages) (va := o.aux1) (fuel := 1024) (bs := img) h
  split
  · next hr => rw [hr] at hi; exact canonOut_next (canon_pageOpObstacle hi)
  · next hr => 
    rw [hr] at hi
    refine canonOut_next (canon_finishPageOp (canon_writeQpte ?_))
    exact canon_with (canon_noteCounterWake (canon_modPart hi)) ..

theorem canon_execUnsealVerified {op : Nat} (h : Canon P Q s) : CanonOut P Q (execUnsealVerified op s) := by
  unfold execUnsealVerified
  split
  · exact canonOut_next h
  next o _ =>
  refine canonOut_ite (fun _ => canonOut_next h) fun _ => canon_withOpCounter h fun s h => ?_
  have hi := canon_imageRead (u := .engine o.core) (rq := o.rq) (used := o.pages) (va := o.aux1) (fuel := 1024) (n := sealSize) h
  split
  · next hr => rw [hr] at hi; exact canonOut_next (canon_pageOpObstacle hi)
  next s img bad hr =>
  rw [hr] at hi
  refine canonOut_ite (fun _ => canonOut_next (canon_pageOpError hi)) fun _ => canonOut_ite (fun _ => canonOut_next (canon_finishPageOp hi)) fun _ =>
    canonOut_ite (fun _ => canonOut_next (canon_finishPageOp hi)) fun _ => canonOut_ite (fun _ => canonOut_next (canon_finishPageOp hi)) fun _ => ?_
  exact canonOut_next (canon_finishPageOp (canon_writeQpte (canon_qmem (s := { s with qPoison := _ }) hi fun h => Mem.blit_wf (Mem.clear_wf h))))

end Sys2Proof.Machine
end

section
/-! PROOFS. The canonical form of the memories (O12): halts, moves and resets of partitions. -/

namespace Sys2Proof.Machine

variable {P : CoreId → Prop} {Q : DieId → Prop} {s : State}

theorem canon_areaWrite {u : XUnit} {rq : XReq} {va fuel : Nat} {bs : List Byte} (h : Canon P Q s) : Canon P Q (areaWrite s u rq va fuel bs) := by
  induction fuel generalizing s va bs with
  | zero => exact h
  | succ fuel ih => unfold areaWrite; grind [canon_translate, canon_tgtWrite]

theorem canon_areaPoison {u : XUnit} {rq : XReq} {va : Nat} (h : Canon P Q s) : Canon P Q (areaPoison s u rq va) := by
  unfold areaPoison
  grind [canon_tgtPoison, canon_translate]

theorem canon_areaRead {u : XUnit} {rq : XReq} {va fuel o : Nat} (h : Canon P Q s) : Canon P Q (areaRead s u rq va fuel o).1 := by
  induction fuel generalizing s o with
  | zero => exact h
  | succ fuel ih => unfold areaRead; grind [canon_translate]

theorem canon_writeParts {u : XUnit} {rq : XReq} {va : Nat} {l : List (Nat × List Byte)} (h : Canon P Q s) : Canon P Q (writeParts s u rq va l) :=
  canon_foldl h fun _ _ => canon_areaWrite

theorem canon_evictReady {f : FuncId} {l : List (CoreId × ThreadImage × Nat)} (h : Canon P Q s) : Canon P Q (evictReady s f l).1 := by
  induction l generalizing s with
  | nil => exact h
  | cons x l ih => unfold evictReady; grind [canon_areaPages, canon_requestPage]

theorem canon_putImage {f : FuncId} {k : CoreId} {i : ThreadImage} {va : Nat} (h : Canon P Q s) : Canon P Q (putImage s f k i va) :=
  canon_foldl (canon_writeParts h) fun _ _ => canon_areaPoison

theorem canon_haltPartition {f : FuncId} (h : Canon P Q s) : Canon P Q (haltPartition s f) := by
  unfold haltPartition
  extract_lets l
  have he := canon_evictReady (f := f) (l := l) h
  split
  · next hr => rw [hr] at he; exact canon_modPart he
  · next hr =>
    rw [hr] at he
    exact canon_modPart (canon_foldl (canon_foldl he fun _ _ => canon_putImage) fun _ _ h =>
      canon_haltCore (canon_modCore (canon_closeQueries h) fun _ hc => hc))

theorem canon_execPartitionHalt {f : FuncId} (h : Canon P Q s) : CanonOut P Q (execPartitionHalt f s) :=
  canonOut_ite (fun _ => canonOut_next h) fun _ => canonOut_next (canon_haltPartition h)

theorem canon_execPartitionResume {f : FuncId} (h : Canon P Q s) : CanonOut P Q (execPartitionResume f s) := by
  unfold execPartitionResume
  grind [canonOut_next, canon_foldl, canon_modPart, canon_resumeCore]

theorem canon_execHamperExchangeComplete {f : FuncId} (h : Canon P Q s) : CanonOut P Q (execHamperExchangeComplete f s) := by
  unfold execHamperExchangeComplete
  grind [canonOut_next, canon_haltPartition, canon_modPart]

theorem canon_refuseMove {f : FuncId} (h : Canon P Q s) : Canon P Q (refuseMove s f) := canon_modPart h

theorem canon_holdMove {f : FuncId} (h : Canon P Q s) : Canon P Q (holdMove s f) := canon_modPart h

theorem canon_madeMove {f : FuncId} (h : Canon P Q s) : Canon P Q (madeMove s f) := canon_modPart h

theorem canon_moveObstacle {f : FuncId} {e : XFail × Word} (h : Canon P Q s) : Canon P Q (moveObstacle s f e) := by
  unfold moveObstacle
  grind [canon_holdMove, canon_refuseMove, canon_requestPage]

theorem canon_moveOutAlloc {k : CoreId} {f : FuncId} {va : Nat} {a : Alloc} (h : Canon P Q s) : Canon P Q (moveOutAlloc s k f va a) :=
  canon_foldl (canon_writeParts h) fun _ _ => canon_areaPoison

theorem canon_moveOut {f : FuncId} (h : Canon P Q s) : Canon P Q (moveOut s f) := by
  unfold moveOut
  extract_lets p va
  split
  · exact canon_refuseMove h
  next k _ =>
  split
  · exact canon_refuseMove h
  next i _ =>
  extract_lets n l size
  refine canon_ite (canon_refuseMove h) ?_
  clear_value va size
  have ha := canon_areaPages (u := .vector k) (rq := moveReq f) (acc := .store) (hostOk := true) (used := []) (va := va)
    (fuel := size / 4096 + 2) (n := size) h
  split
  · next hr => rw [hr] at ha; exact canon_moveObstacle ha
  · next hr =>
    rw [hr] at ha
    exact canon_madeMove (canon_unless (canon_modCore (canon_foldl_fst (canon_putImage ha) fun _ _ => canon_moveOutAlloc) fun _ hc => hc) fun h =>
      canon_modCore h fun _ hc => hc)

theorem canon_execMoveOut {f : FuncId} (h : Canon P Q s) : CanonOut P Q (execMoveOut f s) :=
  canonOut_ite (fun _ => canonOut_next h) fun _ => canonOut_next (canon_moveOut (canon_modPart h))

theorem spad_moveInAlloc {c : Core} {a : Alloc} {bs : List Byte} {bad : Nat → Bool} (h : Mem.wf c.spad) : Mem.wf (moveInAlloc c a bs bad).spad := by
  refine spad_foldl h fun c p hc => ?_
  extract_lets c₁
  have h₁ : Mem.wf c₁.spad := spad_setFull (spad_spadWrite hc)
  split
  · exact h₁
  · exact h₁

theorem canon_moveIn {f : FuncId} (h : Canon P Q s) : Canon P Q (moveIn s f) := by
  unfold moveIn
  extract_lets p va rq
  split
  · exact canon_refuseMove h
  next k _ =>
  refine canon_ite (canon_refuseMove h) ?_
  clear_value va rq
  have ha := canon_areaPages (u := .vector k) (rq := rq) (acc := .load) (hostOk := true) (used := []) (va := va)
    (fuel := imageSize / 4096 + 2) (n := imageSize) h
  split
  · next hr => rw [hr] at ha; exact canon_moveObstacle ha
  next s₁ _ hr =>
  rw [hr] at ha
  have hb := canon_areaRead (u := .vector k) (rq := rq) (va := va) (fuel := imageSize / 16) (o := 0) ha
  split
  next s₂ bs bad hr =>
  rw [hr] at hb
  extract_lets m
  clear_value m
  split
  · exact canon_refuseMove hb
  extract_lets n allocs size
  clear_value allocs size
  refine canon_ite (canon_refuseMove hb) ?_
  have hc := canon_areaPages (u := .vector k) (rq := rq) (acc := .load) (hostOk := true) (used := []) (va := va)
    (fuel := size / 4096 + 2) (n := size) hb
  split
  · next hr => rw [hr] at hc; exact canon_moveObstacle hc
  next s₃ _ hr =>
  rw [hr] at hc
  dsimp only at hc
  extract_lets s₄ s₅
  have h₄ : Canon P Q s₄ := canon_foldl_fst hc fun x a hx => by
    extract_lets n
    exact canon_modCore (canon_areaRead hx) fun _ => spad_moveInAlloc
  have h₅ : Canon P Q s₅ := canon_modCore h₄ fun _ hc => hc
  clear_value s₅
  exact canon_ite (canon_holdMove hc) (canon_madeMove (canon_with h₅ ..))

theorem canon_execMoveIn {f : FuncId} (h : Canon P Q s) : CanonOut P Q (execMoveIn f s) :=
  canonOut_ite (fun _ => canonOut_next h) fun _ => canonOut_next (canon_moveIn (canon_modPart h))

theorem canon_retryMove {f : FuncId} (h : Canon P Q s) : Canon P Q (retryMove s f) := by
  unfold retryMove
  grind [canon_moveIn, canon_moveOut]

theorem canon_execContextMoveComplete {f : FuncId} (h : Canon P Q s) : CanonOut P Q (execContextMoveComplete f s) := by
  unfold execContextMoveComplete
  grind [canonOut_next, canon_modPart, canon_retryMove]

theorem canon_execXyieldWrite {f : FuncId} {v : Word} (h : Canon P Q s) : CanonOut P Q (execXyieldWrite f v s) := by
  unfold execXyieldWrite
  grind [canonOut_next, canon_modThr]

theorem canon_stopPartition {f : FuncId} (h : Canon P Q s) : Canon P Q (stopPartition s f) := by
  unfold stopPartition
  grind [canon_with, canon_completeQuery, canon_foldl, canon_modCore, canon_modEngine, canon_modPart]

theorem canon_startReset {f : FuncId} (h : Canon P Q s) : Canon P Q (startReset s f) := by
  unfold startReset
  grind [canon_stopPartition]

theorem canon_scrubChannel {k : CoreId} (h : Canon P Q s) : Canon P Q (scrubChannel s k) :=
  canon_wm (s := { s with wmPoison := _ }) h Mem.clear_wf

theorem canon_scrubFrame {stack frame : Nat} (h : Canon P Q s) : Canon P Q (scrubFrame s stack frame) :=
  canon_qmem (s := { s with qPoison := _ }) h Mem.clear_wf

theorem canon_execPartitionReset {f : FuncId} (h : Canon P Q s) : CanonOut P Q (execPartitionReset f s) := by
  unfold execPartitionReset
  split
  · exact canonOut_next h
  have hs : Canon P Q (match (s.part f).resetSt with | .resetting => s | _ => stopPartition s f) := by
    split
    · exact h
    · exact canon_stopPartition h
  refine canonOut_next (canon_modPart (canon_foldl (canon_foldl (canon_foldl hs ?_) ?_) ?_))
  · exact fun _ _ h => canon_modCore h fun _ _ => by rfl
  · exact fun _ _ => canon_scrubFrame
  · exact fun _ _ => canon_scrubChannel

theorem canon_execScrubComplete {f : FuncId} (h : Canon P Q s) : CanonOut P Q (execScrubComplete f s) :=
  canonOut_ite (fun _ => canonOut_next (canon_modPart h)) fun _ => canonOut_next h

theorem canon_execFunctionLevelReset {f : FuncId} (h : Canon P Q s) : CanonOut P Q (execFunctionLevelReset f s) :=
  canonOut_ite (fun _ => canonOut_next h) fun _ => canon_execPartitionReset h

end Sys2Proof.Machine
end

section
/-! PROOFS. The canonical form of the memories (O12): the register windows. -/

namespace Sys2Proof.Machine

variable {P : CoreId → Prop} {Q : DieId → Prop} {s : State}

theorem canon_outState {o : Out} (h : Canon P Q s) (ho : CanonOut P Q o) : Canon P Q (outState s o) := by
  unfold outState
  split
  · exact ho _ rfl
  · exact h

theorem canon_doorbell {f : FuncId} {tail : Word32} (h : Canon P Q s) : Canon P Q (doorbell s f tail) := canon_modPart h

theorem canon_partWrite {f : FuncId} {off : Nat} {v : Word} (h : Canon P Q s) : Canon P Q (partWrite s f off v) := by
  unfold partWrite
  extract_lets up s₁ s₂
  have hup : ∀ g, Canon P Q (up g) := fun _ => canon_modPart h
  have h₁ : Canon P Q s₁ := canon_when h fun h => canon_outState h (canon_execPartitionHalt h)
  have h₂ : Canon P Q s₂ := hup _
  clear_value up s₁ s₂
  refine canon_ite (hup _) (canon_ite (hup _) (canon_ite (hup _) (canon_ite (hup _) (canon_ite ?_ (canon_ite ?_ (canon_ite (hup _)
    (canon_ite (canon_outState h (canon_execXyieldWrite h)) (canon_ite (hup _) (canon_ite (hup _) (canon_ite (hup _)
    (canon_ite (canon_when h canon_startReset) (canon_ite (hup _) (canon_ite (canon_doorbell h) (canon_ite (hup _) (canon_ite (hup _)
    (canon_ite (hup _) h))))))))))))))))
  · exact canon_when h₁ fun h => canon_outState h (canon_execPartitionResume h)
  · split
    · exact canon_outState h₂ (canon_execMoveOut h₂)
    · exact canon_outState h₂ (canon_execMoveIn h₂)
    · exact h₂

theorem canon_execMcstatClear {d : DieId} {b : Fin 16} (h : Canon P Q s) : CanonOut P Q (execMcstatClear d b s) :=
  canonOut_next (canon_modBank h)

theorem canon_dctlWrite {v : Word} (h : Canon P Q s) : Canon P Q (dctlWrite s v) := by
  unfold dctlWrite
  extract_lets _ s₁ s₂
  have h₂ : Canon P Q s₂ := canon_when (canon_with h ..) canon_setCmderr
  clear_value s₂
  split
  · exact h₂
  · exact canon_when (canon_when (canon_modCore h₂ fun _ hc => hc) fun h => canon_outState h (canon_execDebugHaltRequest h)) fun h =>
      canon_outState h (canon_execDebugResumeRequest h)

theorem canon_xhclmWrite {v : Word} (h : Canon P Q s) : Canon P Q (xhclmWrite s v) := by
  unfold xhclmWrite
  grind [canon_with, canon_execHypervisorClaim, canon_execHypervisorRelease, canon_outState]

theorem canon_physWriteWith {cmd : State → State} {off : Nat} {v : Word} (h : Canon P Q s) (hcmd : ∀ s, Canon P Q s → Canon P Q (cmd s)) :
    Canon P Q (physWriteWith cmd s off v) := by
  unfold physWriteWith
  extract_lets d
  refine canon_ite (canon_with h ..) (canon_ite (canon_modBank h) (canon_ite (canon_dctlWrite h) (canon_ite (hcmd _ (canon_with h ..))
    (canon_ite (canon_with h ..) (canon_ite (canon_with h ..) (canon_ite (canon_xhclmWrite h) (canon_ite (canon_with h ..) (canon_ite ?_ h))))))))
  split
  · exact canon_modCore h fun _ hc => hc
  · exact h

theorem canonPort_commandPort : CanonPort P Q commandPort := by
  intro f off v pv s x h hx
  unfold commandPort at hx
  grind [canon_physWriteWith, canon_partWrite, canon_setCmderr, busyCommand]

theorem canon_runCommand (h : Canon P Q s) : Canon P Q (runCommand s) := canon_commandWith h canonPort_commandPort

theorem canon_physWrite {off : Nat} {v : Word} (h : Canon P Q s) : Canon P Q (physWrite s off v) := canon_physWriteWith h fun _ => canon_runCommand

theorem canon_windowWrite {f : FuncId} {off : Nat} {v : Word} (h : Canon P Q s) : Canon P Q (windowWrite s f off v) :=
  canon_ite (canon_physWrite h) (canon_partWrite h)

theorem canon_outsideWrite {pa : Nat} {bs : List Byte} (h : Canon P Q s) : Canon P Q (outsideWrite s pa bs) :=
  canon_ite (canon_noteCounterWake (canon_tgtWrite h)) h

theorem canon_landPosted {f : FuncId} (h : Canon P Q s) : Canon P Q (landPosted s f) :=
  canon_foldl (canon_with h ..) fun _ _ => canon_outsideWrite

theorem canon_execRegisterWrite {f : FuncId} {off : BitVec 16} {v : Word} {level : Priv} (h : Canon P Q s) :
    CanonOut P Q (execRegisterWrite f off v level s) := by
  unfold execRegisterWrite
  grind [canonOut_next, canon_landPosted, canon_windowWrite]

theorem canon_execSubmissionDoorbell {f : FuncId} {tail : Word32} (h : Canon P Q s) : CanonOut P Q (execSubmissionDoorbell f tail s) := by
  unfold execSubmissionDoorbell
  grind [canonOut_next, canon_doorbell, canon_landPosted]

theorem canon_runTyped {ty : Nat} (h : Canon P Q s) : CanonOut P Q (runTyped ty s) :=
  canonOut_ite (fun _ => canonOut_next (canon_runCommand h)) fun _ => canonOut_next h

theorem canon_jtagShift {ir : BitVec 8} {dr : BitVec 73} (h : Canon P Q s) : Canon P Q (jtagShift s ir dr) := by
  unfold jtagShift
  grind [canon_with, canon_physWrite]

end Sys2Proof.Machine
end

section
/-! PROOFS. The canonical form of the memories (O12): scalar memory instructions. -/

namespace Sys2Proof.Machine

variable {P : CoreId → Prop} {Q : DieId → Prop} {s : State}

theorem canon_withGeneric {k : AccKind} {addr : Word} {w : Nat} {hostOk : Bool} {cont : State → Tgt → Out} (h : Canon P Q s)
    (hc : ∀ s t, Canon P Q s → CanonOut P Q (cont s t)) : CanonOut P Q (withGeneric s k addr w hostOk cont) := by
  unfold withGeneric
  grind [canon_raise, canon_translate, canon_scalarFail]

theorem canon_readTgt {t : Tgt} {n : Nat} (h : Canon P Q s) : Canon P Q (readTgt s t n).1 := canon_iteFst (canon_poisonRead h) h

theorem canon_writeTgt {t : Tgt} {n v : Nat} (h : Canon P Q s) : Canon P Q (writeTgt s t n v) := canon_noteCounterWake (canon_tgtWrite h)

theorem canon_windowAccess {i : Instr} {addr : Word} {w : Nat} {f : FuncId} {off : Nat} {level : Option Priv} {cont : State → Out} (h : Canon P Q s)
    (hc : CanonOut P Q (cont s)) : CanonOut P Q (windowAccess s i addr w f off level cont) := by
  unfold windowAccess
  grind [canon_raise, canon_privileged, canon_privilegedH]

theorem canon_loadWith {win : State → FuncId → Nat → Word} {i : Instr} {d a : SReg} {sz : Width} {off : BitVec 14} {signed : Bool}
    (h : Canon P Q s) : CanonOut P Q (loadWith win i d a sz off signed s) := by
  refine canon_withGeneric h fun s t h => ?_
  split
  · exact canon_windowAccess h (canonOut_next (canon_finish h))
  · exact canonOut_next (canon_finish (canon_readTgt h))

theorem canon_scalarLoad {i : Instr} {d a : SReg} {sz : Width} {off : BitVec 14} {signed : Bool} (h : Canon P Q s) :
    CanonOut P Q (scalarLoad i d a sz off signed s) := canon_loadWith h

theorem canon_storeWith {win : State → FuncId → Nat → Word → State} {d a : SReg} {sz : Width} {off : BitVec 14} (h : Canon P Q s)
    (hw : ∀ s f o v, Canon P Q s → Canon P Q (win s f o v)) : CanonOut P Q (storeWith win d a sz off s) := by
  refine canon_withGeneric h fun s t h => ?_
  split
  · exact canon_windowAccess h (canonOut_next (hw _ _ _ _ (canon_advance h)))
  · exact canonOut_next (canon_advance (canon_writeTgt h))

theorem canon_spadNum {a w : Nat} (h : Canon P Q s) : Canon P Q (spadNum s a w).1 := canon_iteFst (canon_poisonRead h) h

theorem canon_spadPut {a w v : Nat} (h : Canon P Q s) : Canon P Q (spadPut s a w v) :=
  canon_noteCoreWake (canon_modCurC h fun _ => spad_spadWrite)

theorem canon_execLds {d a : SReg} {sz : Width} {qf : LoadQual} {off : BitVec 12} (h : Canon P Q s) :
    CanonOut P Q (execLds d a sz qf off s) := by
  unfold execLds
  grind [canonOut_next, canon_block, canon_finish, canon_modCurC, canon_noteGuardAt, spad_setFull, canon_spadNum, canon_takeC, canon_trap]

theorem canon_execSts {d a : SReg} {sz : Width} {qf : StoreQual} {off : BitVec 12} (h : Canon P Q s) :
    CanonOut P Q (execSts d a sz qf off s) := by
  unfold execSts
  grind [canonOut_next, canon_advance, canon_modCurC, canon_noteGuardAt, spad_setFull, canon_spadPut, canon_trap]

theorem canon_atomAt {t : Tgt} {o : AtomOp} {w x cmp : Nat} (h : Canon P Q s) : Canon P Q (atomAt s t o w x cmp).1 := by
  unfold atomAt
  grind [canon_readTgt, canon_writeTgt]

theorem canon_atomic {o : AtomOp} {d a b : SReg} {dbl spad : Bool} (h : Canon P Q s) : CanonOut P Q (atomic o d a b dbl spad s) := by
  unfold atomic
  extract_lets w addr x cmp
  refine canonOut_ite (fun _ => ?_) fun _ => ?_
  · split
    · exact canonOut_nextTrap h
    · grind [canonOut_next, canon_finish, canon_noteGuardAt, canon_spadNum, canon_spadPut]
  · exact canon_withGeneric h fun s t h => canonOut_ite (fun _ => canonOut_next (canon_finish (canon_atomAt h))) fun _ => canon_raise h

end Sys2Proof.Machine
end

section
/-! PROOFS. The canonical form of the memories (O12): lane memory instructions. -/

namespace Sys2Proof.Machine

variable {P : CoreId → Prop} {Q : DieId → Prop} {s : State}

theorem canon_putLoaded {vd : VReg} {n : Nat} {l : List (Nat × Nat)} {bad more : Bool} (h : Canon P Q s) :
    Canon P Q (putLoaded s vd n l bad more) := canon_unless h canon_modV

theorem canon_loaded {e : LaneEnv} {vd : VReg} (h : Canon P Q s) : Canon P Q (loaded e s vd) := canon_unless h canon_modV

theorem canon_sharedLeaf {u : XUnit} {write : Bool} {group va : Nat} {known : Lookups} (h : Canon P Q s) :
    Canon P Q (sharedLeaf s u write group va known).1 := by
  unfold sharedLeaf
  grind [canon_leafOf]

theorem canon_genericElem {u : XUnit} {word : Word} {k : AccKind} {w group : Nat} {addr : Word} {known : Lookups} (h : Canon P Q s) :
    Canon P Q (genericElem s u word k w group addr known).1 := by
  unfold genericElem
  grind [canon_checkLeaf, canon_sharedLeaf]

theorem canon_genericElems {u : XUnit} {word : Word} {k : AccKind} {w g : Nat} {f : Nat → Word} {known : Lookups} {l : List Nat}
    (h : Canon P Q s) : Canon P Q (genericElems s u word k w g f known l).1 := by
  induction l generalizing s known with
  | nil => exact h
  | cons i l ih => exact ih (canon_genericElem h)

theorem canon_loadTargets {w n : Nat} {l : List (Nat × Tgt)} (h : Canon P Q s) : Canon P Q (loadTargets s w n l).1 := by
  induction l generalizing s with
  | nil => exact h
  | cons x l ih =>
    obtain ⟨i, t⟩ := x
    unfold loadTargets
    refine ih ?_
    split
    · exact h
    · dsimp only
      split
      · exact canon_poisonRead h
      · exact h

theorem canonRes_ite {c : Prop} [Decidable c] {a b : LaneRes} (ha : CanonRes P Q a) (hb : CanonRes P Q b) : CanonRes P Q (if c then a else b) := by
  split
  · exact ha
  · exact hb

/-- The end of a generic access. -/
theorem canonRes_genericPlan {e : LaneEnv} {k : AccKind} {f : Nat → Word} {ordered : Bool} {l : List (Nat × ElemRes (Tgt × LeafInfo))}
    (h : Canon P Q s) : CanonRes P Q ((genericPlan e k f ordered l).ending s) := by
  unfold genericPlan
  extract_lets pick
  split
  · exact h
  · exact h
  · exact h
  · exact canon_requestPage h
  · exact h

theorem canonRes_dropRefusals {r : LaneRes} (h : CanonRes P Q r) : CanonRes P Q (dropRefusals r) := by
  cases r with
  | batch s k p b m => exact canon_modCur (s := s) h
  | _ => exact h

theorem canonOp_opVload {word : Word} {vd : VReg} {a : SReg} {m : VMode} {ew : Width} {mk : MkField} : CanonOp P Q (opVload word vd a m ew mk) := by
  intro e s h
  unfold opVload
  dsimp only
  generalize hg : dropRefusals _ = r
  have hr : CanonRes P Q r := hg ▸ canonRes_dropRefusals (canonRes_genericPlan (canon_putLoaded (canon_loadTargets (canon_genericElems h))))
  clear hg
  cases r with
  | done s => exact canon_loaded (s := s) hr
  | _ => exact hr



theorem canon_clearCoveredWm {w : Nat} {l : List (Nat × Tgt)} (h : Canon P Q s) : Canon P Q (clearCoveredWm s w l) := canon_with h ..

theorem canon_storeTargets {w : Nat} {l : List (Nat × Tgt)} {val : Nat → Nat} (h : Canon P Q s) : Canon P Q (storeTargets s w l val) := by
  unfold storeTargets
  grind [canon_clearCoveredWm, canon_foldl, canon_tgtWrite]

theorem canon_storeWindows {l : List (Nat × Tgt)} {val : Nat → Nat} (h : Canon P Q s) : Canon P Q (storeWindows l val s) := by
  unfold storeWindows
  grind [canon_foldl, canon_windowWrite]

theorem canonOp_opVstore {word : Word} {vd : VReg} {a : SReg} {m : VMode} {ordered : Bool} {ew : Width} {mk : MkField} :
    CanonOp P Q (opVstore word vd a m ordered ew mk) := by
  intro e s h
  unfold opVstore
  dsimp only
  generalize hg : dropRefusals _ = r
  have hr : CanonRes P Q r := hg ▸ canonRes_dropRefusals (canonRes_genericPlan (canon_draw (canon_genericElems h)))
  clear hg
  cases r with
  | done s =>
    exact canonRes_ite ⟨canon_noteCounterWake (canon_storeTargets (s := s) hr), fun _ => canon_storeWindows⟩
      (canon_noteCounterWake (canon_storeTargets (s := s) hr))
  | stop s | batch s | wait s => exact canon_storeWindows (canon_noteCounterWake (canon_storeTargets (s := s) hr))
  | _ => exact hr

theorem canon_readSpadElem {x : SpadElem} (h : Canon P Q s) : Canon P Q (readSpadElem s x).1 := by
  unfold readSpadElem
  grind [canon_poisonRead]

theorem canon_loadGroup {w n : Nat} {l : List (Nat × SpadElem)} (h : Canon P Q s) : Canon P Q (loadGroup s w n l).1 := by
  induction l generalizing s with
  | nil => exact h
  | cons x l ih => exact ih (canon_readSpadElem h)

theorem canon_noteGuards {pc : Word} {start : Nat} {all done : List (Nat × SpadElem)} (h : Canon P Q s) :
    Canon P Q (noteGuards s pc start all done) := by
  unfold noteGuards
  grind [canon_modCur]

theorem canon_loadGroups {e : LaneEnv} {vd : VReg} {w : Nat} {qf : LoadQual} {all : List (Nat × SpadElem)} {more : Bool}
    {l : List (Nat × List (Nat × SpadElem))} (h : Canon P Q s) : Canon P Q (loadGroups s e vd w qf all more l).1 := by
  induction l generalizing s more with
  | nil => exact h
  | cons x l ih =>
    unfold loadGroups
    extract_lets gs missing s₁
    have h₁ : Canon P Q s₁ := canon_unless h canon_takeC
    clear_value s₁ gs missing
    split
    · exact h
    · exact ih (canon_putLoaded (canon_when (canon_loadGroup h₁) fun h => canon_modCurC h fun _ hc => spad_foldl hc fun _ _ => spad_setFull))

theorem canonOp_opVloadSpad {vd : VReg} {a : SReg} {m : VMode} {lane : Bool} {ew : Width} {qf : LoadQual} {mk : MkField} :
    CanonOp P Q (opVloadSpad vd a m lane ew qf mk) := by
  intro e s h
  unfold opVloadSpad
  dsimp only
  split
  · exact h
  generalize hg : loadGroups _ _ _ _ _ _ _ _ = x
  have hx : Canon P Q x.1 := hg ▸ canon_loadGroups h
  clear hg
  obtain ⟨s, o⟩ := x
  cases o with
  | some y => exact canon_noteGuards (s := s) hx
  | none =>
    have hn : ∀ pc st all done, Canon P Q (noteGuards s pc st all done) := fun _ _ _ _ => canon_noteGuards hx
    dsimp only
    split
    · exact hn _ _ _ _
    · exact canon_loaded (hn _ _ _ _)

theorem spad_writeSpadElem {c : Core} {x : SpadElem} {w v : Nat} {qf : StoreQual} {later : List Nat} (h : Mem.wf c.spad) :
    Mem.wf (writeSpadElem c x w v qf later).spad := by
  unfold writeSpadElem
  split
  · exact h
  extract_lets c₁ gs
  have h₁ : Mem.wf c₁.spad := spad_foldl_fst h fun _ _ => spad_spadWrite
  cases qf with
  | plain => exact h₁
  | fill | drain => exact spad_foldl h₁ fun _ _ => spad_setFull

theorem canonOp_opVstoreSpad {vd : VReg} {a : SReg} {m : VMode} {lane ordered : Bool} {ew : Width} {qf : StoreQual} {mk : MkField} :
    CanonOp P Q (opVstoreSpad vd a m lane ordered ew qf mk) := by
  intro e s h
  unfold opVstoreSpad
  dsimp only
  split
  · exact h
  split
  · exact canon_noteCoreWake (canon_noteGuards (canon_modCurC (canon_draw h) fun _ hc => spad_foldl hc fun _ _ => spad_writeSpadElem))
  · exact canon_noteCoreWake (canon_noteGuards (canon_modCurC (canon_draw h) fun _ hc => spad_foldl hc fun _ _ => spad_writeSpadElem))

end Sys2Proof.Machine
end

section
/-! PROOFS. The canonical form of the memories (O12): the BND group. -/

namespace Sys2Proof.Machine

variable {P : CoreId → Prop} {Q : DieId → Prop} {s : State}

theorem canonOp_opVbget {vd va : VReg} : CanonOp P Q (opVbget vd va) := by
  intro e s h
  unfold opVbget
  grind [CanonRes, canon_modV]

theorem canonOp_opVbset {vd va : VReg} : CanonOp P Q (opVbset vd va) := by
  intro e s h
  unfold opVbset
  grind [CanonRes, canon_modV]

theorem canonRes_sideSpad {addr : Word} {k : State → LaneRes} (h : Canon P Q s) (hk : ∀ s, Canon P Q s → CanonRes P Q (k s)) :
    CanonRes P Q (sideSpad s addr k) := by
  unfold sideSpad
  split
  · exact h
  · exact hk s h

theorem canonRes_sideGeneric {word : Word} {a : AccKind} {addr : Word} {k : State → Tgt → LaneRes} (h : Canon P Q s)
    (hk : ∀ s t, Canon P Q s → CanonRes P Q (k s t)) : CanonRes P Q (sideGeneric s word a addr k) := by
  unfold sideGeneric
  have hg := canon_genericElem (u := .vector s.curCore) (word := word) (k := a) (w := 8) (group := 0) (addr := addr) (known := []) h
  split
  · next hr => rw [hr] at hg; exact hk _ _ hg
  · next hr => rw [hr] at hg; exact canonOut_next (canon_scalarPageFault (canon_modCur hg))
  · next hr => rw [hr] at hg; exact hg
  · next hr => rw [hr] at hg; exact canonOut_next (canon_block (canon_requestPage hg))

theorem canonOp_opVstb {word : Word} {vd : VReg} {a : SReg} {spad : Bool} : CanonOp P Q (opVstb word vd a spad) := by
  intro e s h
  refine canonRes_ite (canonRes_sideSpad h fun s h => canon_noteCoreWake (canon_guardWrite h)) (canonRes_sideGeneric h fun s t h => ?_)
  split
  · exact ⟨h, fun _ => canon_windowWrite⟩
  · exact canon_writeTgt h

theorem canonOp_opVldb {word : Word} {vd : VReg} {a : SReg} {spad : Bool} : CanonOp P Q (opVldb word vd a spad) := by
  intro e s h
  refine canonRes_ite (canonRes_sideSpad h fun s h => canon_modV (canon_guardRead h)) (canonRes_sideGeneric h fun s t h => ?_)
  split
  · exact canon_modV h
  · exact canon_modV (canon_when h canon_poisonRead)

end Sys2Proof.Machine
end

section
/-! PROOFS. The canonical form of the memories (O12): lane floating-point instructions. -/

namespace Sys2Proof.Machine

variable {P : CoreId → Prop} {Q : DieId → Prop} {s : State}

theorem canonOp_fpOp {rule : TagRule} {readsB readsD : Bool} {f : BitVec 11 → Nat → Nat → Nat → Nat → EOut} {vd va vb : VReg}
    {rep : Rep} {mk : MkField} : CanonOp P Q (fpOp rule readsB readsD f vd va vb rep mk) := by
  intro e s h
  unfold fpOp
  grind [CanonRes, canon_draw, canonRes_finishElems]

theorem canonOp_cmpOp {f : BitVec 11 → Nat → Nat → Bool × BitVec 5} {md : MReg} {va vb : VReg} {rep : Rep} {mk : MkField} :
    CanonOp P Q (cmpOp f md va vb rep mk) := by
  intro e s h
  unfold cmpOp
  grind [CanonRes, canon_accrue, canon_modM]

theorem canonOp_opVcvt {vd va : VReg} {src : ElemType} {sat : Bool} {rm : RmField} {mk : MkField} {dst : ElemType} :
    CanonOp P Q (opVcvt vd va src sat rm mk dst) := by
  intro e s h
  unfold opVcvt
  grind [CanonRes, canonRes_finishElems]

end Sys2Proof.Machine
end

section
/-! PROOFS. The canonical form of the memories (O12): lane integer instructions. -/

namespace Sys2Proof.Machine

variable {P : CoreId → Prop} {Q : DieId → Prop} {s : State}

theorem canonOp_intVV {f : Nat → Nat → Nat → Nat → EOut} {b : Bool} {vd va vb : VReg} {rep : Rep} {mk : MkField} :
    CanonOp P Q (intVV f b vd va vb rep mk) := canonOp_intOp

theorem canonOp_intVI {f : Nat → Nat → Nat → EOut} {vd va : VReg} {imm : BitVec 8} {mk : MkField} :
    CanonOp P Q (intVI f vd va imm mk) := canonOp_intOp

end Sys2Proof.Machine
end

section
/-! PROOFS. The canonical form of the memories (O12): mask instructions. -/

namespace Sys2Proof.Machine

variable {P : CoreId → Prop} {Q : DieId → Prop} {s : State}

theorem canonOp_maskOp {md : MReg} {f : VecUnit → Nat → Bool} : CanonOp P Q (maskOp md f) := by
  intro e s h
  unfold maskOp
  grind [CanonRes, canon_modM]

theorem canonOp_opVmfm {md : MReg} : CanonOp P Q (opVmfm md) := by
  intro e s h
  unfold opVmfm
  grind [CanonRes, canon_modM]

theorem canonOp_opViota {vd : VReg} {ma : MReg} : CanonOp P Q (opViota vd ma) := by
  intro e s h
  unfold opViota
  grind [CanonRes, canonRes_finishElems]

theorem canonOp_maskScalar {d : SReg} {f : VecUnit → Nat → Word} : CanonOp P Q (maskScalar d f) := by
  intro e s h
  unfold maskScalar
  grind [CanonRes, canon_setSreg]

end Sys2Proof.Machine
end

section
/-! PROOFS. The canonical form of the memories (O12): lane permutations. -/

namespace Sys2Proof.Machine

variable {P : CoreId → Prop} {Q : DieId → Prop} {s : State}

theorem canonOp_permOp {vd : VReg} {srcs : List VReg} {mk : MkField} {tag : VecUnit → VTag} {f : LaneEnv → VecUnit → Nat → Option Nat} :
    CanonOp P Q (permOp vd srcs mk tag f) := by
  intro e s h
  unfold permOp
  grind [CanonRes, canonRes_finishRun]

theorem canonOp_opVcompress {vd va : VReg} {mb : MReg} : CanonOp P Q (opVcompress vd va mb) := by
  intro e s h
  unfold opVcompress
  grind [CanonRes, canonRes_finishRun]

theorem canonOp_opVmv {vd va : VReg} {mk : MkField} : CanonOp P Q (opVmv vd va mk) := by
  intro e s h
  unfold opVmv
  grind [CanonRes, canonRes_finishElems]

theorem canonOp_opVmvsx {vd : VReg} {a : SReg} {mk : MkField} : CanonOp P Q (opVmvsx vd a mk) := by
  intro e s h
  unfold opVmvsx
  grind [CanonRes, canonRes_finishElems]

end Sys2Proof.Machine
end

section
/-! PROOFS. The canonical form of the memories (O12): lane reductions. -/

namespace Sys2Proof.Machine

variable {P : CoreId → Prop} {Q : DieId → Prop} {s : State}

theorem canonOp_redInt {f : Nat → Nat → Nat → Nat} {vd va vb : VReg} {mk : MkField} : CanonOp P Q (redInt f vd va vb mk) := by
  intro e s h
  unfold redInt
  grind [CanonRes, canonRes_finishElems]

theorem canonRes_redDone {e : LaneEnv} {vd va vb : VReg} {r : RedAcc} (h : Canon P Q s) : CanonRes P Q (redDone e s vd va vb r) := by
  unfold redDone
  extract_lets v w
  split
  · exact canon_accrue h
  · exact canonRes_finishElems h

theorem canonOp_redFold {f : BitVec 11 → Nat → Nat → EOut} {vd va vb : VReg} {mk : MkField} : CanonOp P Q (redFold f vd va vb mk) := by
  intro e s h
  refine canonRes_ite h ?_
  split
  · exact canonRes_redDone h
  · exact canonRes_redDone h

theorem canonOp_opVfredusum {vd va vb : VReg} {mk : MkField} : CanonOp P Q (opVfredusum vd va vb mk) :=
  fun _ _ h => canonRes_ite h (canonRes_redDone h)

theorem canon_freeScales {l : List Nat} (h : Canon P Q s) : Canon P Q (freeScales s l).1 := by
  induction l generalizing s with
  | nil => exact h
  | cons b l ih => exact ih (canon_draw h)

theorem canonOp_opVbscale {vd va vb : VReg} {mk : MkField} : CanonOp P Q (opVbscale vd va vb mk) := by
  intro e s h
  refine canonRes_ite h (canonRes_ite ?_ ?_)
  · extract_lets ex fmax
    split
    split
    · exact canon_accrue h
    · exact canonRes_finishElems h
  · exact canonRes_finishElems (canon_draw (canon_freeScales h))

end Sys2Proof.Machine
end

section
/-! PROOFS. The canonical form of the memories (O12): frames of captured words. -/

namespace Sys2Proof.Machine

variable {P : CoreId → Prop} {Q : DieId → Prop} {s : State}

theorem canon_fetchWords {va : Word} {n : Nat} (h : Canon P Q s) : Canon P Q (fetchWords s va n).1 := by
  induction n generalizing s va with
  | zero => exact h
  | succ n ih => unfold fetchWords; grind [canon_fetchWord]

theorem canonOut_fetchWordsError {va : Word} {n : Nat} {s₁ : State} {k : State → Out} (h : Canon P Q s)
    (hk : fetchWords s va n = (s₁, .error k)) : CanonOut P Q (k s₁) := by
  induction n generalizing s va with
  | zero => cases hk
  | succ n ih =>
    unfold fetchWords at hk
    have hw := canon_fetchWord (va := va) h
    split at hk
    · next hr =>
      rw [hr] at hw
      cases hk
      exact canonOut_fetchWordError hr hw
    · next hr =>
      rw [hr] at hw
      split at hk
      · next hr =>
        cases hk
        exact ih hw hr
      · cases hk

theorem canon_rptNext {n reps j k : Nat} (h : Canon P Q s) : Canon P Q (rptNext n reps j k s) := canon_modCur h

/-- The lane words that a frame or a block may hold. -/
theorem canonOp_laneOpOf {i : Instr} {op : LaneOp} (h : laneOpOf i = some op) : CanonOp P Q op := by
  cases i with
  | vadd | vsub | vrsub | vmul | vmulh | vmulhw | vand | vor | vxor | vsll | vsrl | vsra | vmin | vmax | vminw | vmaxw | vabsd | vsadd
    | vssub | vsaddw | vssubw | vmacc | vnmsac | vdot4 | vdot4w | vrshr | vnclip | vnclipw => cases h; exact canonOp_intVV
  | vfadd | vfsub | vfmul | vfdiv | vfsqrt | vfmin | vfmax | vfmacc | vfnmacc | vfmsac | vfabs | vfneg | vfsgnj | vfexp2 | vfrcp
    | vfclass => cases h; exact canonOp_fpOp
  | vcmpeq | vcmpne | vcmplt | vcmple | vcmpgt | vcmpge | vcmpltw | vcmplew | vcmpgtw | vcmpgew | vfcmpeq | vfcmpne | vfcmplt | vfcmple
    | vfcmpgt | vfcmpge => cases h; exact canonOp_cmpOp
  | vmand | vmor | vmxor | vmandn | vmnot | vmset | vmclr | vmsbf => cases h; exact canonOp_maskOp
  | viota => cases h; exact canonOp_opViota
  | vmcnt | vmany | vmfirst => cases h; exact canonOp_maskScalar
  | vmfm => cases h; exact canonOp_opVmfm
  | vredsum | vredmax | vredmin | vredmaxw | vredminw | vredand | vredor => cases h; exact canonOp_redInt
  | vfredsum | vfredmax | vfredmin => cases h; exact canonOp_redFold
  | vfredusum => cases h; exact canonOp_opVfredusum
  | vbscale => cases h; exact canonOp_opVbscale
  | vslideup | vslidedn | vrgather | vmerge | vslideupi | vslidedni => cases h; exact canonOp_permOp
  | vcompress => cases h; exact canonOp_opVcompress
  | vmv => cases h; exact canonOp_opVmv
  | vmvsx => cases h; exact canonOp_opVmvsx
  | vcvt => cases h; exact canonOp_opVcvt
  | vaddi | vrsubi | vandi | vori | vxori | vslli | vsrli | vsrai | vrshri => cases h; exact canonOp_intVI
  | vmvi => cases h; exact fun _ _ h => canonRes_finishElems h
  | vbget => cases h; exact canonOp_opVbget
  | vbset => cases h; exact canonOp_opVbset
  | vlp | vlpk | vlpx | vlpl => cases h; exact canonOp_opVloadSpad
  | vsp | vspk | vspx | vspxo | vspl => cases h; exact canonOp_opVstoreSpad
  | _ => cases h

theorem canon_runCaptured {i : Instr} {pc : Word} {fin : State → State} (h : Canon P Q s) (hf : ∀ s, Canon P Q s → Canon P Q (fin s)) :
    CanonOut P Q (runCaptured i pc fin s) := by
  unfold runCaptured
  split
  · exact canon_mmacWith h hf
  split
  · next hop => exact canon_runLane h (canonOp_laneOpOf hop) hf
  · exact canonOut_next (hf s h)

theorem canon_badFrame {word : Word} {x : Nat} (h : Canon P Q s) : CanonOut P Q (badFrame word x s) := canon_raise h

theorem canon_captureFrame {word : Word} {n reps dd da db : Nat} {cont : List Word32 → State → Out} (h : Canon P Q s)
    (hc : ∀ ws s, Canon P Q s → CanonOut P Q (cont ws s)) : CanonOut P Q (captureFrame word n reps dd da db s cont) := by
  unfold captureFrame
  extract_lets t
  clear_value t
  split
  · exact hc _ _ h
  refine canonOut_ite (fun _ => canon_badFrame h) fun _ => ?_
  have hw := canon_fetchWords (va := t.pc + 4) (n := n) h
  split
  · next hr => exact canonOut_fetchWordsError h hr
  · next hr =>
    rw [hr] at hw
    split
    · exact canon_badFrame hw
    · exact hc _ _ (canon_modCur hw)

theorem canon_execRpt {n : Fin 16} {reps : Fin 64} {dd da db : Fin 8} (h : Canon P Q s) : CanonOut P Q (execRpt n reps dd da db s) := by
  refine canon_captureFrame h fun ws s h => canon_withLanes h fun s h => ?_
  extract_lets t j k
  clear_value t j k
  refine canonOut_ite (fun _ => canon_badFrame h) fun _ => ?_
  split
  · exact canon_badFrame (canon_modCur h)
  · exact canon_runCaptured (canon_modCur h) fun _ => canon_rptNext

end Sys2Proof.Machine
end

section
/-! PROOFS. The canonical form of the memories (O12): vector-fetch blocks. -/

namespace Sys2Proof.Machine

variable {P : CoreId → Prop} {Q : DieId → Prop} {s : State}

theorem canon_blockFetch {count : Fin 32} {off : BitVec 13} {cont : List Word32 → State → Out} (h : Canon P Q s)
    (hc : ∀ ws s, Canon P Q s → CanonOut P Q (cont ws s)) : CanonOut P Q (blockFetch count off s cont) := by
  unfold blockFetch
  extract_lets n
  have hw := canon_fetchWords (va := s.cur.pc + wordOff off) (n := n) h
  split
  · next hr => exact canonOut_fetchWordsError h hr
  · next hr =>
    rw [hr] at hw
    split
    · exact canon_raise hw
    · exact hc _ _ hw

theorem canon_finishVf (h : Canon P Q s) : Canon P Q (finishVf s) := canon_count (canon_advance (canon_modCur h))

theorem canon_execVf {count : Fin 32} {off : BitVec 13} (h : Canon P Q s) : CanonOut P Q (execVf count off s) := by
  refine canon_withLanes h fun s h => ?_
  extract_lets t base run
  have hrun : ∀ b s, Canon P Q s → CanonOut P Q (run b s) := fun _ _ h => canonOut_next (canon_modVec h)
  clear_value t base run
  split
  · exact canonOut_ite (fun _ => canon_blockFetch h fun _ _ h => hrun _ _ h) fun _ => hrun _ _ h
  · exact canon_blockFetch h fun _ _ h => canonOut_ite (fun _ => canonOut_next (canon_finishVf h)) fun _ => hrun _ _ (canon_modVec h)

theorem canon_execVpbr {ma : MReg} {clr : Bool} {off : BitVec 13} (h : Canon P Q s) : CanonOut P Q (execVpbr ma clr off s) :=
  canon_illegal h

theorem canon_execVpjmp {off : BitVec 13} (h : Canon P Q s) : CanonOut P Q (execVpjmp off s) := canon_illegal h

theorem canon_execVpstop (h : Canon P Q s) : CanonOut P Q (execVpstop s) := canon_illegal h

theorem canon_execVjoin (h : Canon P Q s) : CanonOut P Q (execVjoin s) := by
  unfold execVjoin
  grind [canonOut_next, canon_acquireLanes, canon_block, canon_finishVf]

theorem canon_execVrel (h : Canon P Q s) : CanonOut P Q (execVrel s) := by
  unfold execVrel
  grind [canonOut_next, canon_finishVf, canon_modCur]

theorem canon_execLaneRelease {k : CoreId} {t : Tid} (h : Canon P Q s) : CanonOut P Q (execLaneRelease k t s) := by
  unfold execLaneRelease
  grind [canonOut_next, canon_freeLanesOf, canon_modThr]

theorem canon_execLanesAcquired {k : CoreId} {t : Tid} (h : Canon P Q s) : CanonOut P Q (execLanesAcquired k t s) := by
  refine canonOut_ite (fun _ => canonOut_next h) fun _ => ?_
  split
  · next r hr => exact canonOut_next (canon_modThr (canon_with (canon_acquireLanes (canon_with h ..) r hr) ..))
  · exact canonOut_next h

theorem canon_setBlock {k : CoreId} {b : Block} (h : Canon P Q s) : Canon P Q (State.setBlock s k b) := canon_modCore h fun _ hc => hc

theorem canon_blockTrap {k : CoreId} {b : Block} {tr : Trap} {vp : Nat} (h : Canon P Q s) : Canon P Q (blockTrap s k b tr vp) := by
  unfold blockTrap
  grind [canon_modThr, canon_setBlock, canon_trapThr]

theorem canon_blockLaneStep {k : CoreId} {b : Block} {op : LaneOp} {run : List Nat} (h : Canon P Q s) (hop : CanonOp P Q op) :
    Canon P Q (blockLaneStep s k b op run) := by
  unfold blockLaneStep
  extract_lets t live e first stops back s₁ zero done
  have hstops : ∀ s tr n, Canon P Q s → Canon P Q (stops s tr n) := fun _ _ _ => canon_blockTrap
  have hback : ∀ s, Canon P Q s → Canon P Q (back s) := fun _ h => canon_with h ..
  have h₁ : Canon P Q s₁ := canon_with h ..
  have hzero : ∀ s, Canon P Q s → Canon P Q (zero s) := by
    intro s h
    unfold zero
    split
    · exact canon_modV h
    · exact h
  have hdone : ∀ s, Canon P Q s → Canon P Q (done s) := fun s h => canon_setBlock (hback _ (canon_modVec (hzero s h)))
  clear_value e stops back s₁ zero done
  split
  · exact hstops _ _ _ h
  have hp := canon_popAll (vl := b.vl) (sew := sewOf b.vtype) (l := op.srcs.eraseDups) h₁
  split
  · next hr => rw [hr] at hp; exact hstops _ _ _ (hback _ (canon_modCur hp))
  · next hr => rw [hr] at hp; exact hback _ (canon_block (canon_requestPage hp))
  next s₂ hr =>
  rw [hr] at hp
  generalize hres : op.run _ _ = res
  have hr : CanonRes P Q res := hres ▸ hop _ _ (canon_modCur hp)
  clear hres
  cases res with
  | done => exact hdone _ hr
  | doneThen =>
    obtain ⟨hs, hpost⟩ := hr
    exact hdone _ (hpost _ hs)
  | wait | part => exact canon_setBlock (hback _ (hzero _ hr))
  | stop => exact hstops _ _ _ (hback _ (hzero _ hr))
  | whole | early => exact hstops _ _ _ (hback _ hr)
  | other => exact h
  | batch => exact hback _ hr

theorem canon_blockWord {k : CoreId} {b : Block} {pos : Nat} {run : List Nat} (h : Canon P Q s) : Canon P Q (blockWord s k b pos run) := by
  unfold blockWord
  split
  · exact h
  split
  · exact canon_setBlock h
  · exact canon_setBlock h
  · exact canon_setBlock h
  split
  · next hop => exact canon_blockLaneStep h (canonOp_laneOpOf hop)
  · exact h

theorem canon_blockStep {k : CoreId} {vp : Nat} (h : Canon P Q s) : Canon P Q (blockStep s k vp) := by
  unfold blockStep
  grind [canon_blockWord, canon_closeQueries, spad_debugHalt, canon_modCore, canon_setBlock]

theorem canon_execBlockJoin {k : CoreId} (h : Canon P Q s) : CanonOut P Q (execBlockJoin k s) := by
  unfold execBlockJoin
  split
  · exact canonOut_next h
  refine canonOut_ite (fun _ => canonOut_next h) fun _ => ?_
  extract_lets s₁ s₂
  have h₂ : Canon P Q s₂ := canon_asThread (canon_modCore h fun _ hc => hc)
    fun _ h => canon_finishVf (canon_modCur (canon_unless h canon_killRegs))
  exact canonOut_next (canon_when h₂ fun h => canon_modCore (canon_closeQueries h) fun _ => spad_debugHalt)

end Sys2Proof.Machine
end

section
/-! PROOFS. The canonical form of the memories (O12): the stream engines. -/

namespace Sys2Proof.Machine

variable {P : CoreId → Prop} {Q : DieId → Prop} {s : State}

theorem canon_modRun {k : EngineId} {f : SegRun → SegRun} (h : Canon P Q s) : Canon P Q (State.modRun s k f) := canon_modEngine h

theorem canon_engFail {k : EngineId} {cmd : Word} {f : EngFault} {landed keep : Nat} (h : Canon P Q s) :
    Canon P Q (engFail s k cmd f landed keep) := canon_modRun h

theorem canon_engFailHere {k : EngineId} {r : SegRun} {f : EngFault} (h : Canon P Q s) : Canon P Q (engFailHere s k r f) := canon_engFail h

theorem canon_engRead {k : EngineId} {g : Segment} {used : List UsedPage} {fuel : Nat} {va : Word} {n : Nat} (h : Canon P Q s) :
    Canon P Q (engRead s k g used fuel va n).1 := by
  induction fuel generalizing s used va n with
  | zero => exact h
  | succ fuel ih => unfold engRead; grind [canon_xferPieces]

theorem canon_execSegmentStart {k : EngineId} (h : Canon P Q s) : CanonOut P Q (execSegmentStart k s) := by
  unfold execSegmentStart
  extract_lets e
  split
  next g _ _ _ =>
    have he := canon_engRead (k := k) (g := g) (used := []) (fuel := 2) (va := g.addr) (n := 64) h
    refine canonOut_ite (fun _ => canonOut_next h) fun _ => ?_
    refine canonOut_ite (fun _ => canonOut_next (canon_modEngine h)) fun _ => ?_
    split
    · next hr => rw [hr] at he; exact canonOut_next (canon_modEngine he)
    · next hr => rw [hr] at he; exact canonOut_next (canon_modEngine he)
  · exact canonOut_next h

theorem canon_withCommand {k : EngineId} {f : State → Segment → SegRun → Nat → State} (h : Canon P Q s)
    (hf : ∀ s g r c, Canon P Q s → Canon P Q (f s g r c)) : CanonOut P Q (withCommand k s f) := by
  unfold withCommand
  extract_lets e
  split
  next r g _ _ _ =>
    have he := canon_engRead (k := k) (g := g) (used := []) (fuel := 2) (va := r.cmdAddr) (n := 64) h
    refine canonOut_ite (fun _ => canonOut_next h) fun _ => ?_
    split
    · next hr => rw [hr] at he; exact canonOut_next (canon_engFailHere he)
    · next hr => rw [hr] at he; exact canonOut_next (hf _ _ _ _ he)
  · exact canonOut_next h

theorem canon_closeSlot {k : CoreId} {x : EngCmd} (h : Canon P Q s) : Canon P Q (EngCmd.closeSlot s k x) :=
  canon_ite h (canon_modCore h fun _ hc => hc)

theorem canon_startStream {k : EngineId} {fold : Bool} (h : Canon P Q s) : CanonOut P Q (startStream k fold s) := by
  refine canon_withCommand h fun s g r c h => canon_ite h ?_
  split
  · exact canon_engFailHere h
  · exact canon_modRun (canon_modCore h fun _ hc => hc)

theorem canon_countLanded {g : Segment} {n : Nat} (h : Canon P Q s) : Canon P Q (countLanded s g n) := canon_modCore h fun _ => spad_count

theorem canon_putFlight {k : EngineId} {g : Segment} {j : Nat} {x : EngCmd} (h : Canon P Q s) : Canon P Q (putFlight s k g j x) := by
  unfold putFlight
  grind [canon_closeSlot, canon_modRun]

theorem canon_strikeFlight {k : EngineId} {g : Segment} {r : SegRun} {j : Nat} {x : EngCmd} {f : EngFault} (h : Canon P Q s) :
    Canon P Q (strikeFlight s k g r j x f) := canon_engFail (canon_foldl h fun _ _ => canon_closeSlot)

theorem canon_engRuns {k : EngineId} {g : Segment} {place : Nat → Word × Nat} {used : List UsedPage} {fuel pos n : Nat} (h : Canon P Q s) :
    Canon P Q (engRuns s k g place used fuel pos n).1 := by
  induction fuel generalizing s used pos n with
  | zero => exact h
  | succ fuel ih => unfold engRuns; grind [canon_xferPieces]

theorem canon_boxRuns {k : EngineId} {g : Segment} {x : EngCmd} {used : List UsedPage} {pos n : Nat} (h : Canon P Q s) :
    Canon P Q (boxRuns s k g x used pos n).1 := canon_engRuns h

theorem canon_lineRuns {k : EngineId} {g : Segment} {used : List UsedPage} {va : Word} {n : Nat} (h : Canon P Q s) :
    Canon P Q (lineRuns s k g used va n).1 := canon_engRuns h

theorem canon_scratchStrip {k : EngineId} {g : Segment} {r : SegRun} {j : Nat} {x : EngCmd} {l side : Runs}
    {used : List UsedPage} (h : Canon P Q s) : Canon P Q (scratchStrip s k g r j x l side used) := by
  unfold scratchStrip
  grind [spad_barAdd, canon_countLanded, canon_foldl, spad_foldl, spad_landRun, canon_modCore, spad_noteWake, canon_putFlight,
    canon_strikeFlight]

theorem canon_slotStrip {k : EngineId} {g : Segment} {r : SegRun} {j : Nat} {x : EngCmd} {l side : Runs}
    {used : List UsedPage} (h : Canon P Q s) : Canon P Q (slotStrip s k g r j x l side used) := by
  unfold slotStrip
  grind [canon_countLanded, canon_lineRuns, canon_modCore, canon_putFlight, canon_strikeFlight]

theorem canon_engRingStrip {k : EngineId} {g : Segment} {r : SegRun} {j : Nat} {x : EngCmd} (h : Canon P Q s) :
    Canon P Q (engRingStrip s k g r j x) := by
  unfold engRingStrip
  grind [canon_with, spad_barAdd, canon_boxRuns, canon_countLanded, spad_foldl, canon_modCore, spad_noteWake, canon_putFlight,
    spad_ringWrite, canon_strikeFlight]

theorem canon_execEngineStripLands {k : EngineId} {j : Nat} (h : Canon P Q s) : CanonOut P Q (execEngineStripLands k j s) := by
  unfold execEngineStripLands
  extract_lets e
  split
  next r g _ _ _ =>
    split
    · exact canonOut_next h
    next x _ =>
    extract_lets c rings
    clear_value rings
    split
    · exact canonOut_next (canon_modRun (canon_strikeFlight h))
    refine canonOut_ite (fun _ => canonOut_next (canon_engRingStrip h)) fun _ => ?_
    refine canonOut_ite (fun _ => canonOut_next (canon_strikeFlight h)) fun _ => ?_
    have hl := canon_lineRuns (k := k) (g := g) (used := x.pages) (va := x.src - 8) (n := if x.landed = 0 && cmdBounded c then 8 else 0) h
    split
    · next hr => rw [hr] at hl; exact canonOut_next (canon_strikeFlight hl)
    next used hr =>
    rw [hr] at hl
    have hb := canon_boxRuns (k := k) (g := g) (x := x) (used := used) (pos := x.landed) (n := x.strip) hl
    split
    · next hr => rw [hr] at hb; exact canonOut_next (canon_strikeFlight hb)
    · next hr => rw [hr] at hb; exact canonOut_next (canon_ite (canon_slotStrip hb) (canon_scratchStrip hb))
  · exact canonOut_next h

theorem canon_execCmdSignal {k : EngineId} (h : Canon P Q s) : CanonOut P Q (execCmdSignal k s) := by
  refine canon_withCommand h fun s g r c h => canon_ite h (canon_ite (canon_engFailHere h) (canon_ite h ?_))
  extract_lets va
  have hx := canon_xferAccess (u := .engine k) (rq := g.req) (k := .atomic) (hostOk := true) (used := []) (va := va) h
  split
  · next hr => rw [hr] at hx; exact canon_awaitPage hx fun _ => canon_engFailHere
  · next hr => rw [hr] at hx; exact canon_engFailHere hx
  · next hr => rw [hr] at hx; exact canon_modRun (canon_noteCounterWake (canon_addAt hx))

theorem canon_tryWait {k : EngineId} {g : Segment} {r : SegRun} {c : Nat} (h : Canon P Q s) : Canon P Q (tryWait k s g r c) := by
  unfold tryWait
  grind [canon_awaitPage, canon_engFailHere, canon_modRun, canon_xferAccess]

theorem canon_execCmdWait {k : EngineId} (h : Canon P Q s) : CanonOut P Q (execCmdWait k s) :=
  canon_withCommand h fun _ _ _ _ h => canon_ite h (canon_ite (canon_engFailHere h) (canon_ite h (canon_tryWait h)))

theorem canon_execEngineWaitSatisfied {k : EngineId} (h : Canon P Q s) : CanonOut P Q (execEngineWaitSatisfied k s) := by
  unfold execEngineWaitSatisfied
  extract_lets e
  split
  next r g _ _ _ =>
    have he := canon_engRead (k := k) (g := g) (used := []) (fuel := 2) (va := r.cmdAddr) (n := 64) h
    refine canonOut_ite (fun _ => canonOut_next h) fun _ => ?_
    split
    · next hr => rw [hr] at he; exact canonOut_next (canon_engFailHere (canon_modRun he))
    · next hr => rw [hr] at he; exact canonOut_next (canon_tryWait he)
  · exact canonOut_next h

theorem canon_execCmdRepeat {k : EngineId} (h : Canon P Q s) : CanonOut P Q (execCmdRepeat k s) :=
  canon_withCommand h fun _ _ _ _ h => canon_ite h (canon_ite (canon_engFailHere h) (canon_modRun h))

theorem canon_execCmdLink {k : EngineId} (h : Canon P Q s) : CanonOut P Q (execCmdLink k s) :=
  canon_withCommand h fun _ _ _ _ h => canon_ite h (canon_ite (canon_engFailHere h) (canon_modRun h))

theorem canon_execCmdStop {k : EngineId} (h : Canon P Q s) : CanonOut P Q (execCmdStop k s) :=
  canon_withCommand h fun _ _ _ _ h => canon_ite h (canon_ite (canon_engFailHere h) (canon_modRun h))

theorem canon_storeCounter {k : EngineId} {g : Segment} {ctr v : Word} (h : Canon P Q s) : Canon P Q (storeCounter s k g ctr v).1 := by
  unfold storeCounter
  grind [canon_noteCounterWake, canon_tgtWrite, canon_xferAccess]

theorem canon_execSegmentEnd {k : EngineId} (h : Canon P Q s) : CanonOut P Q (execSegmentEnd k s) := by
  unfold execSegmentEnd
  grind [canonOut_next, canon_awaitPage, canon_engFailHere, canon_modEngine, canon_modRun, canon_storeCounter]

theorem canon_takeCommandFault {k : EngineId} {g : Segment} {r : SegRun} {f : Word × Nat × Nat × Word × Nat} (h : Canon P Q s) :
    Canon P Q (takeCommandFault s k g r f) := canon_modCtx (canon_modEngine h)

theorem canon_execCommandFault {k : EngineId} (h : Canon P Q s) : CanonOut P Q (execCommandFault k s) := by
  unfold execCommandFault
  extract_lets e n
  split
  next r g _ _ _ =>
    split
    · exact canon_withCommand h fun _ _ _ _ h => canon_ite (canon_engFailHere h) h
    next f _ =>
    refine canonOut_ite (fun _ => canonOut_next h) fun _ => ?_
    split
    next x s₁ hd =>
    have h₁ : Canon P Q s₁ := by rw [show s₁ = s.draw.2 by rw [hd]]; exact canon_draw h
    extract_lets f bs
    clear_value f bs
    split
    next s₂ rec hr =>
    have h₂ : Canon P Q s₂ := by grind [canon_xferAccess, canon_tgtWrite]
    have hc := canon_storeCounter (k := k) (g := g) (ctr := r.counter) (v := 0x8000000000000000#64 + n) h₂
    split
    next s₃ ctr hr =>
    rw [hr] at hc
    have ht : ∀ s, Canon P Q s → Canon P Q (takeCommandFault s k g r f) := fun _ => canon_takeCommandFault
    split
    · exact canonOut_next (canon_awaitPage hc ht)
    · exact canonOut_next (canon_awaitPage hc ht)
    · exact canonOut_next (ht _ hc)
  · exact canonOut_next h

end Sys2Proof.Machine
end

section
/-! PROOFS. The canonical form of the memories (O12): fences, barriers and counters. -/

namespace Sys2Proof.Machine

variable {P : CoreId → Prop} {Q : DieId → Prop} {s : State}

theorem canon_execFence {kind : FenceKind} {x1 : Scope} (h : Canon P Q s) : CanonOut P Q (execFence kind x1 s) := by
  unfold execFence
  grind [canonOut_next, canon_advance, canon_block]

theorem canon_modLaunch {f : FuncId} {n : BitVec 16} {g : Launch → Launch} (h : Canon P Q s) : Canon P Q (State.modLaunch s f n g) :=
  canon_with h ..

theorem canon_noteBarrierWake (h : Canon P Q s) : Canon P Q s.noteBarrierWake := canon_mapCores h fun _ hc => hc

theorem canon_withBarrier {a : SReg} {k : State → Launch → BitVec 16 → Fin 8 → BarInst → Out} (h : Canon P Q s)
    (hk : ∀ s l ctx lv b, Canon P Q s → CanonOut P Q (k s l ctx lv b)) : CanonOut P Q (withBarrier a s k) := by
  unfold withBarrier
  extract_lets v
  split
  · exact canon_raise h
  split
  · exact canon_raise h
  split
  · exact canon_raise h
  split
  · exact canon_raise h
  · exact hk _ _ _ _ _ h

theorem canon_arrive {l : Launch} {ctx : BitVec 16} {b : BarInst} (h : Canon P Q s) : Canon P Q (arrive s l ctx b) := by
  unfold arrive
  grind [canon_modLaunch, canon_noteBarrierWake]

theorem canon_execBarr {d a : SReg} (h : Canon P Q s) : CanonOut P Q (execBarr d a s) :=
  canon_withBarrier h fun _ _ _ _ _ h => canonOut_next (canon_finish (canon_modCur (canon_arrive h)))

theorem canon_execBar {a : SReg} (h : Canon P Q s) : CanonOut P Q (execBar a s) := by
  unfold execBar
  split
  · next r hr => exact canonOut_next (canon_reportAll h r hr)
  refine canon_withBarrier h fun s l ctx lv b h => ?_
  extract_lets p s₁ now
  have h₁ : Canon P Q s₁ := canon_when h canon_arrive
  exact canonOut_ite (fun _ => canonOut_next (canon_advance (canon_modCur (canon_takeC h₁)))) fun _ => canonOut_nextBlock (canon_modCur h₁)

theorem canon_execBarw {a b : SReg} (h : Canon P Q s) : CanonOut P Q (execBarw a b s) := by
  unfold execBarw
  split
  · next r hr => exact canonOut_next (canon_reportAll h r hr)
  · exact canon_withBarrier h fun s l ctx lv b h => canonOut_ite (fun _ => canonOut_next (canon_advance (canon_modCur (canon_takeC h)))) fun _ =>
      canonOut_ite (fun _ => canon_raise h) fun _ => canonOut_nextBlock h

theorem canon_execBarrierPhaseComplete {launch : BitVec 16} {level : Fin 8} {inst : List (BitVec 32)} (h : Canon P Q s) :
    CanonOut P Q (execBarrierPhaseComplete launch level inst s) := by
  unfold execBarrierPhaseComplete
  split
  · exact canonOut_next h
  · exact canonOut_next (canon_mapCores (canon_noteBarrierWake (canon_modLaunch h)) fun _ hc => hc)

theorem canon_execWaitge {a b : SReg} (h : Canon P Q s) : CanonOut P Q (execWaitge a b s) := by
  unfold execWaitge
  grind [canonOut_next, canon_advance, canon_block, canon_readTgt, canon_reportAll, canon_takeC, canon_windowAccess, canon_withGeneric]

theorem canon_execSigadd {a b : SReg} (h : Canon P Q s) : CanonOut P Q (execSigadd a b s) := by
  unfold execSigadd
  grind [canonOut_next, canon_advance, canon_atomAt, canon_raise, canon_withGeneric]

theorem canon_execWaitt {a : SReg} (h : Canon P Q s) : CanonOut P Q (execWaitt a s) :=
  canonOut_ite (fun _ => canonOut_next (canon_advance h)) fun _ => canonOut_next (canon_block h)

theorem canon_endWait {k : CoreId} {t : Tid} (h : Canon P Q s) : CanonOut P Q (endWait s k t) := canonOut_next (canon_modThr h)

theorem canon_execFullEmptyWaitReady {k : CoreId} {t : Tid} (h : Canon P Q s) : CanonOut P Q (execFullEmptyWaitReady k t s) := by
  unfold execFullEmptyWaitReady
  grind [canonOut_next, canon_endWait]

theorem canon_execFenceComplete {k : CoreId} {t : Tid} (h : Canon P Q s) : CanonOut P Q (execFenceComplete k t s) := by
  unfold execFenceComplete
  grind [canonOut_next, canon_endWait]

theorem canon_execWaitgeWake {k : CoreId} {t : Tid} (h : Canon P Q s) : CanonOut P Q (execWaitgeWake k t s) := by
  unfold execWaitgeWake
  grind [canonOut_next, canon_endWait]

theorem canon_execWaittComplete {k : CoreId} {t : Tid} (h : Canon P Q s) : CanonOut P Q (execWaittComplete k t s) := by
  unfold execWaittComplete
  grind [canonOut_next, canon_endWait]

end Sys2Proof.Machine
end

section
/-! PROOFS. The canonical form of the memories (O12): the node dispatcher. -/

namespace Sys2Proof.Machine

variable {P : CoreId → Prop} {Q : DieId → Prop} {s : State}

theorem canon_devRead {u : XUnit} {rq : XReq} {fuel : Nat} {va : Word} {n : Nat} (h : Canon P Q s) : Canon P Q (devRead s u rq fuel va n).1 := by
  induction fuel generalizing s va n with
  | zero => exact h
  | succ fuel ih => unfold devRead; grind [canon_translate]

theorem canon_devBytes {u : XUnit} {rq : XReq} {va : Word} {n : Nat} (h : Canon P Q s) : Canon P Q (devBytes s u rq va n).1 := canon_devRead h

theorem canon_owe {a : OwedAdd} {page : Nat} (h : Canon P Q s) : Canon P Q (State.owe s a page) := canon_with (canon_requestPage h) ..

theorem canon_payOne {a : OwedAdd} (h : Canon P Q s) : Canon P Q (payOne s a) := by
  unfold payOne
  grind [canon_counterAdd, canon_noteCounterWake, canon_owe, canon_tgtWrite, canon_translate]

theorem canon_payOwed {f : FuncId} (h : Canon P Q s) : Canon P Q (payOwed s f) := canon_foldl (canon_with h ..) fun _ _ => canon_payOne

theorem canon_devStore {u : XUnit} {rq : XReq} {va : Word} {bs : List Byte} (h : Canon P Q s) : Canon P Q (devStore s u rq va bs) := by
  unfold devStore
  grind [canon_owe, canon_tgtWrite, canon_translate]

theorem canon_readNode {l : Launch} {addr : Word} (h : Canon P Q s) : Canon P Q (readNode s l addr).1 := by
  unfold readNode
  grind [canon_devBytes, canon_requestPage]

theorem canon_modNode {l : Launch} {i : Nat} {g : NodeRec → NodeRec} (h : Canon P Q s) : Canon P Q (modNode s l i g) := canon_modLaunch h

theorem canon_setNode {l : Launch} {i : Nat} {st : NodeStat} (h : Canon P Q s) : Canon P Q (setNode s l i st) := by
  unfold setNode
  grind [canon_devStore, canon_modNode]

theorem canon_makeReady {l : Launch} {i : Nat} {crit : Bool} (h : Canon P Q s) : Canon P Q (makeReady s l i crit) := by
  unfold makeReady
  grind [canon_with, canon_modNode, canon_readNode, canon_setNode]

theorem canon_homeOf {l : Launch} {r : NodeRow} (h : Canon P Q s) : Canon P Q (homeOf s l r).1 := by
  unfold homeOf
  grind [canon_devBytes, canon_translate]

theorem canon_addLeft {d : DieId} {n : Int} (h : Canon P Q s) : Canon P Q (addLeft s d n) := canon_with h ..

theorem canon_establish {l : Launch} {k : CoreId} (h : Canon P Q s) : Canon P Q (establish s l k) := by
  unfold establish
  refine canon_ite h ?_
  split
  next s₁ img hr =>
  have h₁ : Canon P Q s₁ := by grind [canon_devBytes]
  refine canon_modCore h₁ fun c hc => spad_foldl (spad_foldl hc fun _ _ => Mem.clear_wf) fun c r hc => ?_
  split
  · exact hc
  · exact spad_engineWrite hc

theorem canon_appendPrologue {l : Launch} {r : NodeRow} {crit : Bool} {k : CoreId} {ctx : BitVec 16} {n : Nat} (h : Canon P Q s) :
    Canon P Q (appendPrologue s l r crit k ctx n).1 := by
  unfold appendPrologue
  grind [canon_devBytes, canon_modEngine]

theorem canon_startTask {l : Launch} {i : Nat} {r : NodeRow} {crit : Bool} {k : CoreId} {t : Tid} {idx : List Nat}
    {n : Nat} (h : Canon P Q s) : Canon P Q (startTask s l i r crit k t idx n) := by
  unfold startTask
  grind [canon_appendPrologue, canon_establish, canon_modCore, canon_modLaunch, canon_modThr]

theorem canon_startNode {l : Launch} {i : Nat} {r : NodeRow} {crit : Bool} {pl : Placement} (h : Canon P Q s) :
    Canon P Q (startNode s l i r crit pl) := by
  unfold startNode
  grind [canon_with, canon_foldl, canon_modNode, canon_setNode, canon_startTask]

theorem canon_tryPlace {c : Cand} {must : Option (CoreId × Tid)} (h : Canon P Q s) : Canon P Q (tryPlace s c must).1 := by
  unfold tryPlace
  repeat' split
  all_goals grind [canon_addLeft, canon_homeOf, canon_modCore, canon_placeImage, canon_readNode, canon_startNode]

theorem canon_dispatch (h : Canon P Q s) : Canon P Q (dispatch s) := canon_foldl h fun _ _ => canon_tryPlace

theorem canon_readyAll {l : Launch} {crit : Bool} (h : Canon P Q s) : Canon P Q (readyAll s l crit) := by
  unfold readyAll
  grind [canon_foldl, canon_makeReady, canon_readNode]

theorem canon_execLaunchStartTick {launch : BitVec 16} (h : Canon P Q s) : CanonOut P Q (execLaunchStartTick launch s) := by
  unfold execLaunchStartTick
  grind [canon_with, canonOut_next, canon_dispatch, canon_modLaunch, canon_readyAll]

theorem canon_execNodeAged {launch : BitVec 16} {node : Nat} (h : Canon P Q s) : CanonOut P Q (execNodeAged launch node s) := by
  unfold execNodeAged
  grind [canonOut_next, canon_dispatch]

theorem canon_execSliceEnd {k : CoreId} {t : Tid} (h : Canon P Q s) : CanonOut P Q (execSliceEnd k t s) := by
  unfold execSliceEnd
  grind [canonOut_next, canon_dispatch, canon_modThr]

end Sys2Proof.Machine
end

section
/-! PROOFS. The canonical form of the memories (O12): launches, tasks and submissions. -/

namespace Sys2Proof.Machine

variable {P : CoreId → Prop} {Q : DieId → Prop} {s : State}

theorem canon_checkNodes {u : XUnit} {rq : XReq} {nlev nnodes : Nat} {nodes : Word} {fuel i : Nat} (h : Canon P Q s) :
    Canon P Q (checkNodes s u rq nlev nnodes nodes fuel i).1 := by
  induction fuel generalizing s i with
  | zero => exact h
  | succ fuel ih =>
    unfold checkNodes
    have h₁ := canon_devBytes (u := u) (rq := rq) (va := nodes + BitVec.ofNat 64 (64 * i)) (n := 64) h
    split
    · next hr => rw [hr] at h₁; exact h₁
    next b hr =>
    rw [hr] at h₁
    extract_lets r
    clear_value r
    split
    · exact h₁
    have h₂ := canon_devBytes (u := u) (rq := rq) (va := r.succ) (n := 4 * r.nsucc) h₁
    split
    · next hr => rw [hr] at h₂; exact h₂
    next hr =>
    rw [hr] at h₂
    split
    · exact h₂
    have h₃ := canon_devBytes (u := u) (rq := rq) (va := r.ops) (n := 32 * r.nop) h₂
    split
    · next hr => rw [hr] at h₃; exact h₃
    next hr =>
    rw [hr] at h₃
    have h₄ := ih (i := i + 1) h₃
    split
    · next hr => rw [hr] at h₄; exact h₄
    · next hr => rw [hr] at h₄; exact h₄

theorem canon_checkLaunch {u : XUnit} {rq : XReq} {rec : Word} {gang : Bool} (h : Canon P Q s) : Canon P Q (checkLaunch s u rq rec gang).1 := by
  unfold checkLaunch
  extract_lets cores
  clear_value cores
  refine canon_iteFst h (canon_iteFst h (canon_iteFst h ?_))
  have h₁ := canon_devBytes (u := u) (rq := rq) (va := rec) (n := 64) h
  split
  · next hr => rw [hr] at h₁; exact h₁
  next hd hr =>
  rw [hr] at h₁
  extract_lets nlev nalloc nnodes gtag sdsize gm nodes sdata asn gsize rq₂
  clear_value nlev nalloc nnodes gtag sdsize gm nodes sdata asn gsize rq₂
  refine canon_iteFst h₁ ?_
  have h₂ := canon_devBytes (u := u) (rq := rq) (va := rec + 64) (n := 64 + 16 * nalloc) h₁
  split
  · next hr => rw [hr] at h₂; exact h₂
  next b hr =>
  rw [hr] at h₂
  extract_lets ab allocs
  clear_value ab allocs
  refine canon_iteFst h₂ (canon_iteFst h₂ (canon_iteFst h₂ (canon_iteFst h₂ ?_)))
  generalize hx : (if sdata = 0 then _ else devBytes _ u rq₂ sdata sdsize) = x
  have h₃ : Canon P Q x.1 := by rw [← hx]; exact canon_iteFst h₂ (canon_devBytes h₂)
  clear hx
  split
  · exact h₃
  refine canon_iteFst h₃ ?_
  have h₄ := canon_checkNodes (u := u) (rq := rq₂) (nlev := nlev) (nnodes := nnodes) (nodes := nodes) (fuel := nnodes) (i := 0) h₃
  split
  · next hr => rw [hr] at h₄; exact h₄
  next hr =>
  rw [hr] at h₄
  extract_lets
  exact canon_iteFst h₄ h₄

theorem canon_addLaunch {l : Launch} {start : Nat} (h : Canon P Q s) : Canon P Q (addLaunch s l start).1 := canon_with h ..

theorem canon_putGang {g : GangRec} (h : Canon P Q s) : Canon P Q (State.putGang s g) := canon_with h ..

theorem canon_dropGang {gtag : Word32} (h : Canon P Q s) : Canon P Q (State.dropGang s gtag) := canon_with h ..

theorem canon_agree {g : GangRec} (h : Canon P Q s) : Canon P Q (agree s g) := by
  unfold agree
  grind [canon_addLaunch, canon_putGang]

theorem canon_refuseGang {g : GangRec} (h : Canon P Q s) : Canon P Q (refuseGang s g) := by
  unfold refuseGang
  grind [canon_with, canon_putGang]

theorem canon_requestLaunch {u : XUnit} {rq : XReq} {rec : Word} {prop : Nat} {gang : Bool} (h : Canon P Q s) :
    Canon P Q (requestLaunch s u rq rec prop gang).1 := by
  unfold requestLaunch
  grind [canon_addLaunch, canon_agree, canon_checkLaunch, canon_dropGang, canon_putGang]

theorem canon_execGangProposal {gtag : Word32} {member : Fin 64} {tick : Word} (h : Canon P Q s) :
    CanonOut P Q (execGangProposal gtag member tick s) :=
    canonOut_ite (fun _ => canonOut_next h) fun _ => canonOut_next (canon_agree (canon_putGang h))

theorem canon_execGangCancel {gtag : Word32} (h : Canon P Q s) : CanonOut P Q (execGangCancel gtag s) := by
  unfold execGangCancel
  grind [canonOut_next, canon_putGang, canon_refuseGang]

theorem canon_execGangProposalTimeout {gtag : Word32} (h : Canon P Q s) : CanonOut P Q (execGangProposalTimeout gtag s) := by
  unfold execGangProposalTimeout
  grind [canonOut_next, canon_refuseGang]

theorem canon_endInBarriers {x : Task} {halted crit : Bool} (h : Canon P Q s) : Canon P Q (endInBarriers s x halted crit) :=
  canon_noteBarrierWake (canon_modLaunch h)

theorem canon_leaveTask {x : Task} {halted : Bool} (h : Canon P Q s) : Canon P Q (leaveTask s x halted) := by
  unfold leaveTask
  grind [canon_addLeft, canon_endInBarriers, canon_freeLanes, canon_modCur, canon_modMat]

theorem canon_lessLive {l : Launch} {i : Nat} (h : Canon P Q s) : Canon P Q (lessLive s l i) := canon_modNode h

theorem canon_endLaunch {f : FuncId} {n : BitVec 16} (h : Canon P Q s) : Canon P Q (endLaunch s f n) := by
  unfold endLaunch
  split
  · exact h
  · exact canon_when h fun h => canon_mapCores (s := { s with disp := _ }) (canon_with h ..) fun _ hc => hc

theorem canon_taskFault {tval telem : Word} (h : Canon P Q s) : CanonOut P Q (taskFault s tval telem) := canon_raise h

theorem canon_taskFail {e : XFail × Word} (h : Canon P Q s) : CanonOut P Q (taskFail s e) := by
  unfold taskFail
  grind [canonOut_next, canon_block, canon_modCur, canon_requestPage, canon_taskFault]

theorem canon_pendingTargets {u : XUnit} {rq : XReq} {nodes : List NodeRec} {l : List Nat} (h : Canon P Q s) :
    Canon P Q (pendingTargets s u rq nodes l).1 := by
  induction l generalizing s with
  | nil => exact h
  | cons i l ih => unfold pendingTargets; grind [canon_translate]

theorem canon_finishNode {l : Launch} {i : Nat} {targets : List (Nat × Tgt)} {crit : Bool} (h : Canon P Q s) :
    Canon P Q (finishNode s l i targets crit) := by
  unfold finishNode
  extract_lets s₁ s₂
  have h₂ : Canon P Q s₂ := canon_setNode (canon_foldl h fun _ _ h => canon_when (canon_tgtWrite h) canon_makeReady)
  have hc := canon_counterAdd (u := schedUnit s₂ l.part) (rq := l.req) (va := l.counter) (v := 1) h₂
  split
  · next hr => rw [hr] at hc; exact canon_noteCounterWake hc
  · next hr => rw [hr] at hc; exact canon_owe hc
  · next hr => rw [hr] at hc; exact hc

theorem canon_execTdone (h : Canon P Q s) : CanonOut P Q (execTdone s) := by
  unfold execTdone
  refine canonOut_ite (fun _ => canonOut_nextBlock h) fun _ => ?_
  split
  · next r hr => exact canonOut_next (canon_reportAll h r hr)
  split
  · exact canonOut_next (canon_modCur h)
  split
  · exact canonOut_next (canon_dispatch (canon_leaveTask h))
  next l _ =>
  extract_lets crit u
  clear_value crit u
  split
  · exact canonOut_next (canon_dispatch (canon_leaveTask h))
  next n _ =>
  refine canonOut_ite (fun _ => canonOut_next (canon_dispatch (canon_endLaunch (canon_lessLive (canon_leaveTask h))))) fun _ => ?_
  have hb := canon_devBytes (u := u) (rq := l.req) (va := n.addr) (n := 64) h
  split
  · next hr => rw [hr] at hb; exact canon_taskFail hb
  next hr =>
  rw [hr] at hb
  extract_lets r
  clear_value r
  have hs := canon_devBytes (u := u) (rq := l.req) (va := r.succ) (n := 4 * r.nsucc) hb
  split
  · next hr => rw [hr] at hs; exact canon_taskFail hs
  next hr =>
  rw [hr] at hs
  extract_lets idx
  clear_value idx
  split
  · exact canon_taskFault hs
  have ht := canon_pendingTargets (u := u) (rq := l.req) (nodes := l.nodes) (l := idx) hs
  split
  · next hr => rw [hr] at ht; exact canon_taskFail ht
  · next hr => rw [hr] at ht; exact canonOut_next (canon_dispatch (canon_endLaunch (canon_finishNode (canon_lessLive (canon_leaveTask ht)))))

theorem canon_execHalt (h : Canon P Q s) : CanonOut P Q (execHalt s) := by
  unfold execHalt
  refine canonOut_ite (fun _ => canonOut_nextBlock h) fun _ => ?_
  split
  · next r hr => exact canonOut_next (canon_reportAll h r hr)
  split
  · exact canonOut_next (canon_modCur h)
  split
  · exact canonOut_next (canon_dispatch (canon_leaveTask h))
  · exact canonOut_next (canon_dispatch (canon_endLaunch (canon_setNode (canon_lessLive (canon_leaveTask h)))))

theorem canon_execTspawn {a c : SReg} (h : Canon P Q s) : CanonOut P Q (execTspawn a c s) := by
  refine canon_withGeneric h fun s t h => ?_
  split
  · exact canon_raise h
  split
  · exact canon_raise h
  split
  · exact canon_raise h
  split
  next bs bad _ =>
  extract_lets s₁ r i s₂ s₃
  have h₁ : Canon P Q s₁ := canon_when h canon_poisonRead
  have h₃ : Canon P Q s₃ := canon_finish (canon_modLaunch h₁)
  clear_value s₁ s₃
  refine canonOut_ite (fun _ => canon_taskFault h₁) fun _ => canonOut_ite (fun _ => canonOut_next (canon_finish h₁)) fun _ => ?_
  split
  · exact canonOut_next (canon_when h₃ fun h => canon_dispatch (canon_makeReady h))
  · exact canonOut_next h₃

theorem canon_placeFirst {must : CoreId × Tid} {l : List Cand} (h : Canon P Q s) : ∀ r, placeFirst s must l = some r → Canon P Q r := by
  induction l generalizing s with
  | nil => intro r hr; cases hr
  | cons c l ih =>
    intro r hr
    unfold placeFirst at hr
    have ht := canon_tryPlace (c := c) (must := some must) h
    split at hr
    · next he =>
      rw [he] at ht
      cases hr
      exact ht
    · next he =>
      rw [he] at ht
      exact ih ht r hr

theorem canon_execTyield (h : Canon P Q s) : CanonOut P Q (execTyield s) := by
  unfold execTyield
  split
  · exact canonOut_next (canon_advance h)
  extract_lets k t hmp tight s₁ cls s₂ cs
  have h₂ : Canon P Q s₂ := canon_addLeft (canon_suspendThread (canon_ite (canon_modCur h) (canon_advance h)))
  clear_value s₂
  refine canonOut_ite (fun _ => canonOut_next (canon_advance h)) fun _ => canonOut_ite (fun _ => canonOut_nextBlock h) fun _ => ?_
  split
  · next hr => exact canonOut_next (canon_dispatch (canon_placeFirst h₂ _ hr))
  · exact canonOut_next (canon_advance h)

theorem canon_execTlaunch {a b c : SReg} {gang : Bool} (h : Canon P Q s) : CanonOut P Q (execTlaunch a b c gang s) := by
  unfold execTlaunch
  grind [canonOut_next, canon_atKernelWord, canon_block, canon_finish, canon_modCur, canon_requestLaunch, canon_requestPage]

theorem canon_entryDone {f : FuncId} {pa : Nat} {v : Word} (h : Canon P Q s) : Canon P Q (entryDone s f pa v) :=
  canon_modPart (canon_tgtWrite h)

theorem canon_withEntry {f : FuncId} {kind : Nat} {cont : State → Nat → Word → Nat → State} (h : Canon P Q s)
    (hc : ∀ s pa w n, Canon P Q s → Canon P Q (cont s pa w n)) : CanonOut P Q (withEntry f kind s cont) := by
  unfold withEntry
  split
  · exact canonOut_next h
  extract_lets b k
  clear_value b k
  exact canonOut_ite (fun _ => canonOut_next (canon_entryDone h)) fun _ => canonOut_ite (fun _ => canonOut_next h) fun _ =>
    canonOut_next (hc _ _ _ _ h)

theorem canon_submitLaunchAs {gang : Bool} {f : FuncId} (h : Canon P Q s) : CanonOut P Q (submitLaunchAs gang f s) := by
  refine canon_withEntry h fun s pa rec prop h => ?_
  have hr := canon_requestLaunch (u := schedUnit s f) (rq := ⟨f, 0, .kernel, 0⟩) (rec := rec) (prop := prop) (gang := gang) h
  split
  · next he => rw [he] at hr; exact canon_entryDone hr
  · next he => rw [he] at hr; exact hr
  · next he => rw [he] at hr; exact canon_awaitPage hr fun _ => canon_entryDone

theorem canon_submitWrite {f : FuncId} {kind : Nat} {act : State → Out} (h : Canon P Q s) (ha : ∀ s, Canon P Q s → CanonOut P Q (act s)) :
    CanonOut P Q (submitWrite f kind act s) := by
  refine canon_withEntry h fun s pa _ _ h => canon_entryDone (canon_draw ?_)
  split
  · next he => exact ha s h _ he
  · exact h

end Sys2Proof.Machine
end

section
/-! PROOFS. The canonical form of the memories (O12): the events of the module. -/

namespace Sys2Proof.Machine

variable {P : CoreId → Prop} {Q : DieId → Prop} {s : State}

theorem canon_execTranslationExpiry {ag : XAgent} (h : Canon P Q s) : CanonOut P Q (execTranslationExpiry ag s) := by
  unfold execTranslationExpiry
  grind [canonOut_next, canon_modCluster, canon_modCore, canon_modDie, canon_modEngine]

theorem canon_renewPage {u : XUnit} {rq : XReq} {p : UsedPage} {vpn : Nat} {changed : State → State} (h : Canon P Q s)
    (hc : ∀ s, Canon P Q s → Canon P Q (changed s)) : Canon P Q (renewPage s u rq p vpn changed) := by
  unfold renewPage
  split
  · exact h
  refine canon_ite h ?_
  have hw := canon_walkLeaf (u := u) (rq := rq) (write := p.wr) (again := true) (va := vpn * 0x10000) h
  split
  · next hr => rw [hr] at hw; exact canon_ite (canon_cacheWalk (canon_unitDrop hw)) (hc _ hw)
  · next hr => rw [hr] at hw; exact hc _ hw

theorem canon_execLeaseRenewal {ag : XAgent} {vpn : Nat} (h : Canon P Q s) : CanonOut P Q (execLeaseRenewal ag vpn s) := by
  unfold execLeaseRenewal
  cases ag with
  | core k =>
    refine canonOut_next (canon_foldl (canon_foldl h fun s c h => ?_) fun s r h => ?_)
    · split
      · exact canon_renewPage h fun _ h => canon_modCore h fun _ hc => hc
      · exact h
    · split
      · split
        · exact canon_renewPage h fun _ h => canon_modCore h fun _ hc => hc
        · exact h
      · exact h
  | engine k =>
    dsimp only
    split
    · refine canonOut_next (canon_foldl h fun s x h => ?_)
      split
      · exact canon_renewPage h fun _ => canon_modRun
      · exact h
    · exact canonOut_next h
  | stack d =>
    refine canonOut_next (canon_foldl h fun s e h => ?_)
    extract_lets used
    refine canon_ite h ?_
    split
    · exact canon_ite (canon_qWalkCached h) (canon_qWalkMarked h)
    · exact canon_qWalkMarked h
  | cluster c => exact canonOut_next h

theorem canon_logSkew {d : DieId} {k : CoreId} {drift : Int} (h : Canon P Q s) : Canon P Q (logSkew s d k drift) := canon_modBank h

theorem canon_discardAll {ag : XAgent} (h : Canon P Q s) : Canon P Q (discardAll s ag) := by
  unfold discardAll
  grind [canon_modCluster, canon_modCore, canon_modDie, canon_modEngine]

theorem canon_skewTransfers {ag : XAgent} {d : Int} (h : Canon P Q s) : Canon P Q (skewTransfers s ag d) := by
  unfold skewTransfers
  grind [canon_foldl, canon_modCore, canon_modRun]

theorem canon_meetBeacon {ag : XAgent} (h : Canon P Q s) : Canon P Q (meetBeacon s ag) := by
  unfold meetBeacon
  grind [canon_discardAll, canon_foldl, canon_logSkew, canon_modCtx, canon_skewTransfers]

theorem canon_beacon (h : Canon P Q s) : Canon P Q (State.beacon s) := canon_with (canon_foldl h fun _ _ => canon_meetBeacon) ..

theorem canon_execTimeBeacon (h : Canon P Q s) : CanonOut P Q (execTimeBeacon s) := by
  unfold execTimeBeacon
  grind [canonOut_next, canon_beacon]

theorem canon_execGangTimeBeacon {drift : Int} (h : Canon P Q s) : CanonOut P Q (execGangTimeBeacon drift s) :=
  canonOut_next (canon_mapCores (s := { s.draw.2 with time := _, clusters := _, engines := _, baseDies := _ }) (canon_with (canon_draw h) ..)
    fun _ hc => hc)

theorem canon_publish {budgets : Vector (BitVec 24) 8} (h : Canon P Q s) : Canon P Q (State.publish s budgets) :=
  canon_dispatch (canon_with h ..)

theorem canon_execBudgetPublication {budgets : Vector (BitVec 24) 8} (h : Canon P Q s) :
    CanonOut P Q (execBudgetPublication budgets s) := by
  unfold execBudgetPublication
  grind [canonOut_next, canon_publish]

theorem canon_execThrottleRaise {d : DieId} {lvl : BitVec 3} (h : Canon P Q s) : CanonOut P Q (execThrottleRaise d lvl s) :=
  canonOut_next (canon_with h ..)

theorem canon_execThrottleStepDown {d : DieId} (h : Canon P Q s) : CanonOut P Q (execThrottleStepDown d s) :=
  canonOut_next (canon_with h ..)

theorem canon_countDiscard {f : FuncId} (h : Canon P Q s) : Canon P Q (countDiscard s f) := canon_modPart h

theorem canon_ifAsks {f : FuncId} {page : Nat} {act : State → State} (h : Canon P Q s) (ha : ∀ s, Canon P Q s → Canon P Q (act s)) :
    Canon P Q (ifAsks s f page act) := canon_ite (canon_modPart (ha _ (canon_modPart h))) h

theorem canon_afterOut {o : Out} (h : Canon P Q s) (ho : CanonOut P Q o) : Canon P Q (afterOut s o) := canon_outState h ho

theorem canon_askers {f : FuncId} {act : State → Out} {s₀ : State} (ha : act ∈ askers s₀ f) (h : Canon P Q s) : CanonOut P Q (act s) := by
  unfold askers at ha
  rw [List.mem_append, List.mem_append, List.mem_append, List.mem_append] at ha
  obtain (((ha | ha) | ha) | ha) | ha := ha
  · obtain ⟨l, hl, ha⟩ := List.mem_flatten.1 ha
    obtain ⟨k, -, rfl⟩ := List.mem_map.1 hl
    obtain ⟨j, -, hj⟩ := List.mem_filterMap.1 ha
    split at hj
    · split at hj
      · cases hj
        exact canon_execCopyStripLands h
      · cases hj
    · cases hj
  · obtain ⟨l, hl, ha⟩ := List.mem_flatten.1 ha
    obtain ⟨k, -, rfl⟩ := List.mem_map.1 hl
    split at ha
    · split at ha
      · simp only [List.mem_cons, List.not_mem_nil, or_false] at ha
        obtain rfl | rfl | rfl | rfl | rfl := ha
        · exact canon_execCmdSignal h
        · exact canon_execCmdWait h
        · exact canon_execEngineWaitSatisfied h
        · exact canon_execSegmentEnd h
        · exact canon_execCommandFault h
      · cases ha
    · cases ha
  · obtain ⟨l, hl, ha⟩ := List.mem_flatten.1 ha
    obtain ⟨q, -, rfl⟩ := List.mem_map.1 hl
    obtain ⟨j, -, rfl⟩ := List.mem_map.1 ha
    exact canon_execQuerySubcommandComplete h
  · obtain ⟨l, hl, ha⟩ := List.mem_flatten.1 ha
    obtain ⟨o, -, rfl⟩ := List.mem_map.1 hl
    simp only [List.mem_cons, List.not_mem_nil, or_false] at ha
    obtain rfl | rfl | rfl := ha
    · exact canon_execMigrationCommit h
    · exact canon_execSealImageWritten h
    · exact canon_execUnsealVerified h
  · simp only [List.mem_cons, List.not_mem_nil, or_false] at ha
    obtain rfl | rfl | rfl | rfl | rfl := ha
    · exact canon_submitLaunchAs h
    · exact canon_submitLaunchAs h
    · exact canon_execHamperExchangeComplete h
    · exact canonOut_next (canon_retryMove h)
    · exact canonOut_next (canon_payOwed h)

theorem canon_refuseTransfers {f : FuncId} {page : Nat} (h : Canon P Q s) : Canon P Q (refuseTransfers s f page) :=
  canon_foldl_mem h fun _ _ ha h => canon_ifAsks h fun _ h => canon_afterOut h (canon_askers ha h)

theorem canon_answerAll {f : FuncId} {page : Nat} {ok : Bool} (h : Canon P Q s) : Canon P Q (answerAll s f page ok) := by
  unfold answerAll
  extract_lets tell
  exact canon_mapCores (s := { s with sysCores := s.sysCores.map fun c => { c with threads := c.threads.map tell } })
    (canon_mapSysCores h fun _ hc => hc) fun _ hc => hc

theorem canon_execPageRequestResponse {f : FuncId} {grp : Fin 32} {gen : BitVec 4} {ok : Bool} (h : Canon P Q s) :
    CanonOut P Q (execPageRequestResponse f grp gen ok s) := by
  unfold execPageRequestResponse
  grind [canon_with, canonOut_next, canon_answerAll, canon_countDiscard, canon_foldl, canon_modPart, canon_payOwed,
    canon_refuseTransfers, canon_requestPage]

theorem canon_failStart {stage reason : Nat} {digest : BitVec 512} (h : Canon P Q s) : Canon P Q (failStart s stage reason digest) :=
  canon_with h ..

theorem canon_failStage {reason : Nat} (h : Canon P Q s) : Canon P Q (failStage s reason) := canon_failStart (canon_draw h)

theorem canon_execMachineCheckLog {e : McEvent} (h : Canon P Q s) : CanonOut P Q (execMachineCheckLog e s) := by
  unfold execMachineCheckLog
  grind [canonOut_next, canon_failStage, canon_logError]

theorem canon_asyncTrap {k : CoreId} {t : Tid} {cause : BitVec 8} {tval : Word} (h : Canon P Q s) : Canon P Q (asyncTrap s k t cause tval) := by
  unfold asyncTrap
  extract_lets mine s₁
  have h₁ : Canon P Q s₁ := canon_when h fun h => canon_modCore h fun _ hc => hc
  exact canon_trapThr h₁

theorem canon_execContainedMachineCheck {k : CoreId} {t : Tid} (h : Canon P Q s) : CanonOut P Q (execContainedMachineCheck k t s) := by
  unfold execContainedMachineCheck
  grind [canonOut_next, canon_asyncTrap, canon_modThr]

theorem canon_deliverSkew {k : CoreId} {t : Tid} (h : Canon P Q s) : Canon P Q (deliverSkew s k t) := by
  unfold deliverSkew
  grind [canon_asyncTrap, canon_modThr]

theorem canon_execLinkFailure {port : Fin 17} (h : Canon P Q s) : CanonOut P Q (execLinkFailure port s) := by
  unfold execLinkFailure
  grind [canon_with, canon_execMachineCheckLog]

theorem canon_execBackgroundScrub (h : Canon P Q s) : CanonOut P Q (execBackgroundScrub s) := canonOut_next (canon_with h ..)

theorem canon_restart {banks : Vector (Vector Bank 16) 8} (h : Canon P Q s) : Canon P Q (restart s banks) := by
  obtain ⟨-, hh, -, hp, -, -⟩ := h
  refine ⟨rfl, hh, rfl, hp, fun k _ => ?_, fun d _ => ?_⟩
  · rw [show ((restart s banks).core k).spad = [] from spad_reset k]; rfl
  · simp [restart, State.reset]; rfl

theorem canon_execPowerOnReset (h : Canon P Q s) : CanonOut P Q (execPowerOnReset s) := canonOut_next (canon_restart h)

theorem canon_execModuleReset (h : Canon P Q s) : CanonOut P Q (execModuleReset s) := canonOut_next (canon_restart h)

theorem canon_execBootStageTimeout (h : Canon P Q s) : CanonOut P Q (execBootStageTimeout s) :=
  canonOut_ite (fun _ => canonOut_next h) fun _ => canonOut_next (canon_failStage h)

theorem canon_execBootStageReady {images : List (BitVec 512)} {verified : Bool} (h : Canon P Q s) :
    CanonOut P Q (execBootStageReady images verified s) := by
  unfold execBootStageReady
  split <;> grind [canon_with, canonOut_next, canon_failStage, canon_failStart]

theorem canon_execInboundPostedWrite {f : FuncId} {pa : Nat} {bytes : List Byte} {relaxed : Bool} (h : Canon P Q s) :
    CanonOut P Q (execInboundPostedWrite f pa bytes relaxed s) := by
  unfold execInboundPostedWrite
  grind [canon_with, canonOut_next, canon_outsideWrite]

theorem canon_execChoahPeerAccess {port : Fin 16} {op : PeerOp} (h : Canon P Q s) : CanonOut P Q (execChoahPeerAccess port op s) := by
  unfold execChoahPeerAccess
  grind [canonOut_next, canon_outsideWrite]

theorem canon_execAtsInvalidation {f : FuncId} {page : Nat} (h : Canon P Q s) : CanonOut P Q (execAtsInvalidation f page s) :=
  canonOut_next (canon_with h ..)

theorem canon_execDebugEnableRequest {f : FuncId} {authentic : Bool} (h : Canon P Q s) :
    CanonOut P Q (execDebugEnableRequest f authentic s) := canonOut_ite (fun _ => canonOut_next (canon_modPart h)) fun _ => canonOut_next h

end Sys2Proof.Machine
end

section
/-! PROOFS. The canonical form of the memories (O12): control transfer and the hardware loop. -/

namespace Sys2Proof.Machine

variable {P : CoreId → Prop} {Q : DieId → Prop} {s : State}

theorem canon_execJal {d : SReg} {off : BitVec 21} (h : Canon P Q s) : CanonOut P Q (execJal d off s) := canon_transfer h

theorem canon_execJalr {d a : SReg} {off : BitVec 16} (h : Canon P Q s) : CanonOut P Q (execJalr d a off s) := canon_transfer h

theorem canon_execLoop {a : SReg} {off : BitVec 16} (h : Canon P Q s) : CanonOut P Q (execLoop a off s) :=
  canonOut_ite (fun _ => canon_transfer h) fun _ => canonOut_next (canon_modCur h)

theorem canon_execBstrip {a : SReg} {off : BitVec 13} (h : Canon P Q s) : CanonOut P Q (execBstrip a off s) := by
  unfold execBstrip
  grind [canonOut_next, canon_advance, canon_jump, canon_modCur, canon_raise]

end Sys2Proof.Machine
end

section
/-! PROOFS. The canonical form of the memories (O12): scalar floating-point instructions. -/

namespace Sys2Proof.Machine

variable {P : CoreId → Prop} {Q : DieId → Prop} {s : State}

theorem canon_fpArith2 {f : ElemType → Rounding → FVal → FVal → NRes} {d a b : SReg} {t : SfpType} {rm : RmField} (h : Canon P Q s) :
    CanonOut P Q (fpArith2 f d a b t rm s) := canon_finishFp h

theorem canon_execFsqrt {d a : SReg} {t : SfpType} {rm : RmField} (h : Canon P Q s) : CanonOut P Q (execFsqrt d a t rm s) :=
  canon_finishFp h

theorem canon_execFmin {d a b : SReg} {t : SfpType} (h : Canon P Q s) : CanonOut P Q (execFmin d a b t s) := canon_finishFp h

theorem canon_execFmax {d a b : SReg} {t : SfpType} (h : Canon P Q s) : CanonOut P Q (execFmax d a b t s) := canon_finishFp h

theorem canon_execFmacc {d a b : SReg} {t : SfpType} {rm : RmField} (h : Canon P Q s) : CanonOut P Q (execFmacc d a b t rm s) :=
  canon_finishFp h

theorem canon_fpCompare {c : FVal → FVal → Bool} {quiet : Bool} {d a b : SReg} {t : SfpType} (h : Canon P Q s) :
    CanonOut P Q (fpCompare c quiet d a b t s) := canon_finishFp h

theorem canon_execFclass {d a : SReg} {t : SfpType} (h : Canon P Q s) : CanonOut P Q (execFclass d a t s) := canon_finishFp h

theorem canon_execFcvt {d a : SReg} {other : ElemType} {toInt : Bool} {t : SfpType} {rm : RmField} (h : Canon P Q s) :
    CanonOut P Q (execFcvt d a other toInt t rm s) := by
  unfold execFcvt
  grind [canon_finishFp]

end Sys2Proof.Machine
end

section
/-! PROOFS. The canonical form of the memories (O12): an instruction or event by its meaning. -/

namespace Sys2Proof.Machine

variable {P : CoreId → Prop} {Q : DieId → Prop} {s : State}

/-- Every instruction and every event keeps the canonical form. -/
theorem canon_exec {i : Instr} (h : Canon P Q s) : CanonOut P Q (exec i s) := by
  unfold exec
  cases i with
  | add | sub | mul | mulh | mulhw | div | divw | rem | remw | and | or | xor | andn | sll | srl | sra | rotl | slt | sltw | min | max
    | minw | maxw => exact canon_alu2 h
  | slli | srli | srai | rotli | clz | ctz | popc | sextb | sexth | sextw | zextw | bswap | addi | andi | ori | xori | slti | sltwi =>
    exact canon_alu1 h
  | lui | aupc => exact canonOut_next (canon_finish h)
  | beq | bne | blt | bge | bltw | bgew => exact canon_branch h
  | csrr => exact canon_csrOp h
  | fadd | fsub | fmul | fdiv => exact canon_fpArith2 h
  | fcmpeq | fcmplt | fcmple => exact canon_fpCompare h
  | ld | ldz => exact canon_scalarLoad h
  | st => exact canon_storeWith h fun _ _ _ _ => canon_windowWrite
  | amoswap | amoadd | amoand | amoor | amoxor | amomin | amomax | amominw | amomaxw | amocas => exact canon_atomic h
  | vadd | vsub | vrsub | vmul | vmulh | vmulhw | vand | vor | vxor | vsll | vsrl | vsra | vmin | vmax | vminw | vmaxw | vabsd | vsadd
    | vssub | vsaddw | vssubw | vmacc | vnmsac | vdot4 | vdot4w | vrshr | vnclip | vnclipw => exact canon_issueLane h canonOp_intVV
  | vfadd | vfsub | vfmul | vfdiv | vfsqrt | vfmin | vfmax | vfmacc | vfnmacc | vfmsac | vfabs | vfneg | vfsgnj | vfexp2 | vfrcp
    | vfclass => exact canon_issueLane h canonOp_fpOp
  | vcmpeq | vcmpne | vcmplt | vcmple | vcmpgt | vcmpge | vcmpltw | vcmplew | vcmpgtw | vcmpgew | vfcmpeq | vfcmpne | vfcmplt | vfcmple
    | vfcmpgt | vfcmpge => exact canon_issueLane h canonOp_cmpOp
  | vmand | vmor | vmxor | vmandn | vmnot | vmset | vmclr | vmsbf => exact canon_issueLane h canonOp_maskOp
  | viota => exact canon_issueLane h canonOp_opViota
  | vmcnt | vmany | vmfirst => exact canon_issueLane h canonOp_maskScalar
  | vmfm => exact canon_issueLane h canonOp_opVmfm
  | vredsum | vredmax | vredmin | vredmaxw | vredminw | vredand | vredor => exact canon_issueLane h canonOp_redInt
  | vfredsum | vfredmax | vfredmin => exact canon_issueLane h canonOp_redFold
  | vfredusum => exact canon_issueLane h canonOp_opVfredusum
  | vbscale => exact canon_issueLane h canonOp_opVbscale
  | vslideup | vslidedn | vrgather | vmerge | vslideupi | vslidedni => exact canon_issueLane h canonOp_permOp
  | vcompress => exact canon_issueLane h canonOp_opVcompress
  | vmv => exact canon_issueLane h canonOp_opVmv
  | vmvsx => exact canon_issueLane h canonOp_opVmvsx
  | vcvt => exact canon_issueLane h canonOp_opVcvt
  | vaddi | vrsubi | vandi | vori | vxori | vslli | vsrli | vsrai | vrshri => exact canon_issueLane h canonOp_intVI
  | vmvi => exact canon_issueLane h fun _ _ h => canonRes_finishElems h
  | vld | vldk | vldx => exact canon_issueLane h canonOp_opVload
  | vst | vstk | vstx | vstxo => exact canon_issueLane h canonOp_opVstore
  | vlp | vlpk | vlpx | vlpl => exact canon_issueLane h canonOp_opVloadSpad
  | vsp | vspk | vspx | vspxo | vspl => exact canon_issueLane h canonOp_opVstoreSpad
  | vsbind => exact canon_issueLane h canonOp_opVsbind
  | vsunbind => exact canon_issueLane h canonOp_opVsunbind
  | vspill => exact canon_issueLane h canonOp_opVspill
  | vfill => exact canon_issueLane h canonOp_opVfill
  | mmac => exact canon_mmacWith h fun _ => canon_advance
  | vbget => exact canon_issueLane h canonOp_opVbget
  | vbset => exact canon_issueLane h canonOp_opVbset
  | vstb => exact canon_issueLane h canonOp_opVstb
  | vldb => exact canon_issueLane h canonOp_opVldb
  | qwr | qfold | qdot | qfsum | qcnt | qmaxi | qtopk | qattn | qupd => exact canon_issueQuery h
  | cmdStream | cmdFold => exact canon_startStream h
  | submitLaunch | submitGangLaunch => exact canon_submitLaunchAs h
  | submitPartitionHalt => exact canon_submitWrite h fun _ => canon_execPartitionHalt
  | submitPartitionResume => exact canon_submitWrite h fun _ => canon_execPartitionResume
  | abstractRegister | abstractMemory | abstractElementRange | abstractGranule | abstractAccumulatorRow => exact canon_runTyped h
  | jal => exact canon_execJal h
  | jalr => exact canon_execJalr h
  | loop => exact canon_execLoop h
  | bstrip => exact canon_execBstrip h
  | mark => exact canon_execMark h
  | csrw => exact canon_execCsrw h
  | csrs => exact canon_execCsrs h
  | csrc => exact canon_execCsrc h
  | fsqrt => exact canon_execFsqrt h
  | fmin => exact canon_execFmin h
  | fmax => exact canon_execFmax h
  | fmacc => exact canon_execFmacc h
  | fclass => exact canon_execFclass h
  | fcvt => exact canon_execFcvt h
  | lds => exact canon_execLds h
  | sts => exact canon_execSts h
  | fence => exact canon_execFence h
  | bar => exact canon_execBar h
  | barr => exact canon_execBarr h
  | barw => exact canon_execBarw h
  | waitge => exact canon_execWaitge h
  | sigadd => exact canon_execSigadd h
  | waitt => exact canon_execWaitt h
  | vsetvl => exact canon_execVsetvl h
  | vf => exact canon_execVf h
  | vpbr => exact canon_execVpbr h
  | vpjmp => exact canon_execVpjmp h
  | rpt => exact canon_execRpt h
  | mshape => exact canon_execMshape h
  | mclaim => exact canon_execMclaim h
  | mrelease => exact canon_execMrelease h
  | mfill => exact canon_execMfill h
  | mwload => exact canon_execMwload h
  | mzero => exact canon_execMzero h
  | msoft => exact canon_execMsoft h
  | mdrain => exact canon_execMdrain h
  | mdrainSpad => exact canon_execMdrainSpad h
  | mdrainc => exact canon_execMdrainc h
  | mnorm => exact canon_execMnorm h
  | msaveTile => exact canon_execMsaveTile h
  | msaveSlot => exact canon_execMsaveSlot h
  | mrestTile => exact canon_execMrestTile h
  | mrestSlot => exact canon_execMrestSlot h
  | mbread => exact canon_execMbread h
  | cpa => exact canon_execCpa h
  | cpaRes => exact canon_execCpaRes h
  | senq => exact canon_execSenq h
  | abinit => exact canon_execAbinit h
  | abwait => exact canon_execAbwait h
  | abrel => exact canon_execAbrel h
  | cpq => exact canon_execCpq h
  | qmig => exact canon_execQmig h
  | qseal => exact canon_execQseal h
  | qunseal => exact canon_execQunseal h
  | tspawn => exact canon_execTspawn h
  | tlaunch => exact canon_execTlaunch h
  | fullEmptyWaitReady => exact canon_execFullEmptyWaitReady h
  | fenceComplete => exact canon_execFenceComplete h
  | barrierPhaseComplete => exact canon_execBarrierPhaseComplete h
  | waitgeWake => exact canon_execWaitgeWake h
  | waittComplete => exact canon_execWaittComplete h
  | streamRefill => exact canon_execStreamRefill h
  | laneRelease => exact canon_execLaneRelease h
  | lanesAcquired => exact canon_execLanesAcquired h
  | blockJoin => exact canon_execBlockJoin h
  | autoReissue => exact canon_execAutoReissue h
  | copyStripLands => exact canon_execCopyStripLands h
  | abwaitComplete => exact canon_execAbwaitComplete h
  | querySubcommandComplete => exact canon_execQuerySubcommandComplete h
  | migrationCopyStart => exact canon_execMigrationCopyStart h
  | migrationCommit => exact canon_execMigrationCommit h
  | sealImageWritten => exact canon_execSealImageWritten h
  | unsealVerified => exact canon_execUnsealVerified h
  | launchStartTick => exact canon_execLaunchStartTick h
  | nodeAged => exact canon_execNodeAged h
  | gangProposal => exact canon_execGangProposal h
  | gangCancel => exact canon_execGangCancel h
  | gangProposalTimeout => exact canon_execGangProposalTimeout h
  | segmentStart => exact canon_execSegmentStart h
  | cmdSignal => exact canon_execCmdSignal h
  | cmdWait => exact canon_execCmdWait h
  | engineWaitSatisfied => exact canon_execEngineWaitSatisfied h
  | cmdRepeat => exact canon_execCmdRepeat h
  | cmdLink => exact canon_execCmdLink h
  | cmdStop => exact canon_execCmdStop h
  | engineStripLands => exact canon_execEngineStripLands h
  | segmentEnd => exact canon_execSegmentEnd h
  | commandFault => exact canon_execCommandFault h
  | translationExpiry => exact canon_execTranslationExpiry h
  | leaseRenewal => exact canon_execLeaseRenewal h
  | timeBeacon => exact canon_execTimeBeacon h
  | gangTimeBeacon => exact canon_execGangTimeBeacon h
  | budgetPublication => exact canon_execBudgetPublication h
  | throttleRaise => exact canon_execThrottleRaise h
  | throttleStepDown => exact canon_execThrottleStepDown h
  | sliceEnd => exact canon_execSliceEnd h
  | leWrite => exact canon_execLeWrite h
  | lsWrite => exact canon_execLsWrite h
  | tfbufWrite => exact canon_execTfbufWrite h
  | counterConfigure => exact canon_execCounterConfigure h
  | counterCountWrite => exact canon_execCounterCountWrite h
  | counterSample => exact canon_execCounterSample h
  | registerWrite => exact canon_execRegisterWrite h
  | xyieldWrite => exact canon_execXyieldWrite h
  | partitionHalt => exact canon_execPartitionHalt h
  | partitionResume => exact canon_execPartitionResume h
  | moveOut => exact canon_execMoveOut h
  | moveIn => exact canon_execMoveIn h
  | partitionReset => exact canon_execPartitionReset h
  | scrubComplete => exact canon_execScrubComplete h
  | functionLevelReset => exact canon_execFunctionLevelReset h
  | submissionDoorbell => exact canon_execSubmissionDoorbell h
  | pageRequestResponse => exact canon_execPageRequestResponse h
  | hypervisorClaim => exact canon_execHypervisorClaim h
  | hypervisorRelease => exact canon_execHypervisorRelease h
  | debugHaltRequest => exact canon_execDebugHaltRequest h
  | debugResumeRequest => exact canon_execDebugResumeRequest h
  | triggerHit => exact canon_execTriggerHit h
  | mcstatClear => exact canon_execMcstatClear h
  | machineCheckLog => exact canon_execMachineCheckLog h
  | containedMachineCheck => exact canon_execContainedMachineCheck h
  | linkFailure => exact canon_execLinkFailure h
  | backgroundScrub => exact canon_execBackgroundScrub h
  | powerOnReset => exact canon_execPowerOnReset h
  | moduleReset => exact canon_execModuleReset h
  | bootStageTimeout => exact canon_execBootStageTimeout h
  | illegalInstruction => exact canon_execIllegalInstruction h
  | instructionFetchFault => exact canon_execInstructionFetchFault h
  | inboundPostedWrite => exact canon_execInboundPostedWrite h
  | choahPeerAccess => exact canon_execChoahPeerAccess h
  | atsInvalidation => exact canon_execAtsInvalidation h
  | debugEnableRequest => exact canon_execDebugEnableRequest h
  | bootStageReady => exact canon_execBootStageReady h
  | hamperExchangeComplete => exact canon_execHamperExchangeComplete h
  | contextMoveComplete => exact canon_execContextMoveComplete h
  | svc => exact canon_execSvc h
  | tret => exact canon_execTret h
  | brk => exact canon_execBrk h
  | halt => exact canon_execHalt h
  | idle => exact canon_execIdle h
  | fencei => exact canon_execFencei h
  | vpstop => exact canon_execVpstop h
  | vjoin => exact canon_execVjoin h
  | vrel => exact canon_execVrel h
  | tdone => exact canon_execTdone h
  | tyield => exact canon_execTyield h

end Sys2Proof.Machine
end

section
/-! PROOFS. The canonical form of the memories (O12): a step, and the statement. -/

namespace Sys2Proof.Machine

variable {P : CoreId → Prop} {Q : DieId → Prop} {s : State}

/-- What follows an outcome may also move the memories: P' and Q' are the places after it. -/
theorem canon_thenDo {P' : CoreId → Prop} {Q' : DieId → Prop} {o : Out} {f : State → State} (ho : CanonOut P Q o)
    (hf : ∀ s, Canon P Q s → Canon P' Q' (f s)) : CanonOut P' Q' (thenDo o f) := by
  rintro t ht
  cases o with
  | next s => cases ht; exact hf s (ho s rfl)
  | fault r => cases ht
  | refused r => cases ht

theorem canon_afterIssue {before : Thread} (h : Canon P Q s) : Canon P Q (afterIssue before s) := by
  unfold afterIssue
  grind [canon_closeQueries, canon_count, spad_debugHalt, canon_modCur, canon_modCurC]

theorem canon_nextWord (h : Canon P Q s) : Canon P Q (nextWord s).1 := by
  unfold nextWord
  split
  · exact h
  · exact canon_fetchWord h

/-- What a failed fetch of the next word does to a state. -/
theorem canonOut_nextWordError {s₁ : State} {k : State → Out} (hk : nextWord s = (s₁, .error k)) (h : Canon P Q s₁) :
    CanonOut P Q (k s₁) := by
  unfold nextWord at hk
  split at hk
  · cases hk
  · exact canonOut_fetchWordError hk h

theorem canon_fetchExec (h : Canon P Q s) : CanonOut P Q (fetchExec s) := by
  have hf := canon_nextWord h
  unfold fetchExec
  split
  · next hr => rw [hr] at hf; exact canonOut_nextWordError hr hf
  · next hr =>
    rw [hr] at hf
    split
    · exact canon_exec hf
    · exact canon_execIllegalInstruction hf

theorem canon_boundaryBy {issue : State → Out} (h : Canon P Q s) (hi : ∀ s, Canon P Q s → CanonOut P Q (issue s)) :
    CanonOut P Q (boundaryBy issue s) := by
  unfold boundaryBy
  extract_lets t free
  refine canonOut_ite (fun _ => canonOut_next (canon_afterIssue (canon_deliverSkew h))) fun _ => ?_
  refine canonOut_ite (fun _ => canon_thenDo (canon_execContainedMachineCheck h) fun _ => canon_afterIssue) fun _ => ?_
  refine canonOut_ite (fun _ => canonOut_next (canon_afterIssue (canon_takeYield h))) fun _ => ?_
  split
  · exact canon_thenDo (canon_acceptSubs h) fun _ => canon_afterIssue
  · split
    · exact canon_execTriggerHit h
    · exact canon_thenDo (hi s h) fun _ => canon_afterIssue

theorem canon_boundary (h : Canon P Q s) : CanonOut P Q (boundary s) := canon_boundaryBy h fun _ => canon_fetchExec

theorem canon_focus {k : CoreId} {t : Tid} (h : Canon P Q s) : Canon P Q (State.focus s k t) := canon_modThr (canon_with h ..)

theorem canon_runThread {k : CoreId} {t : Tid} (h : Canon P Q s) : CanonOut P Q (runThread s k t) :=
  canonOut_ite (fun _ => canon_boundary (canon_focus h)) fun _ => canonOut_next h

/-- The state between two turns: every compute core is in its place. -/
abbrev CanonAll : State → Prop := Canon (fun _ => True) fun _ => False
abbrev CanonAllOut : Out → Prop := CanonOut (fun _ => True) fun _ => False
/-- The state while the system core of die d stands in its slot (R10, log 66): its own scratchpad lies in the slot and that of the slot's
compute core among the system cores. -/
abbrev CanonInside (d : DieId) : State → Prop := Canon (· ≠ sysSlot d) (· = d)
abbrev CanonInsideOut (d : DieId) : Out → Prop := CanonOut (· ≠ sysSlot d) (· = d)

theorem core_swapSys_same (s : State) (d : DieId) : (s.swapSys d).core (sysSlot d) = s.sysCores[d] := by simp [State.swapSys, State.core]
theorem core_swapSys_other {k : CoreId} (s : State) {d : DieId} (hk : k ≠ sysSlot d) : (s.swapSys d).core k = s.core k := by
  have : (sysSlot d).val ≠ k.val := fun e => hk (Fin.ext e.symm)
  simp [State.swapSys, State.core, this]
theorem sysCore_swapSys_same (s : State) (d : DieId) : (s.swapSys d).sysCores[d] = s.core (sysSlot d) := by simp [State.swapSys, State.core]

theorem canonInside_swapSys {d : DieId} (h : CanonAll s) : CanonInside d (s.swapSys d) := by
  obtain ⟨hw, hh, hq, hp, hc, -⟩ := h
  refine ⟨hw, hh, hq, hp, fun k hk => ?_, ?_⟩
  · rw [core_swapSys_other s hk]; exact hc k trivial
  · rintro _ rfl
    rw [sysCore_swapSys_same]; exact hc _ trivial

theorem canonAll_swapSys {d : DieId} (h : CanonInside d s) : CanonAll (s.swapSys d) := by
  obtain ⟨hw, hh, hq, hp, hc, hsys⟩ := h
  refine ⟨hw, hh, hq, hp, fun k _ => ?_, fun _ => False.elim⟩
  by_cases hk : k = sysSlot d
  · rw [hk, core_swapSys_same]; exact hsys d rfl
  · rw [core_swapSys_other s hk]; exact hc k hk

theorem canon_sysHalt (h : Canon P Q s) : Canon P Q (sysHalt s) := canon_modCur h

theorem canon_sysExec {d : DieId} (h : CanonInside d s) : CanonInsideOut d (sysExec d s) := by
  have hf := canon_fetchWord (va := s.cur.pc) h
  unfold sysExec
  split
  · next hr => rw [hr] at hf; exact canonOut_fetchWordError hr hf
  · next hr =>
    rw [hr] at hf
    split
    · exact canon_execIllegalInstruction hf
    · split
      · exact canonOut_next (canon_sysHalt hf)
      · exact canon_loadWith hf
      · exact canon_loadWith hf
      · exact canon_storeWith hf fun _ _ _ _ h => canonInside_swapSys (canon_windowWrite (canonAll_swapSys h))
      · exact canon_exec hf

theorem canon_runSystem {d : DieId} {t : Tid} (h : CanonAll s) : CanonAllOut (runSystem s d t) := by
  unfold runSystem
  extract_lets k inside
  have hin : CanonInside d inside := canonInside_swapSys h
  refine canonOut_ite (fun _ => canonOut_next h) fun _ => ?_
  have hb := canon_boundaryBy (canon_focus (k := k) (t := t) hin) fun _ => canon_sysExec
  exact canon_thenDo hb fun _ h => canon_with (canon_noteCounterWake (canonAll_swapSys h)) ..

theorem spad_pass {c : Core} {n k : Nat} (h : Mem.wf c.spad) : Mem.wf (c.pass n k).spad :=
  spad_count (spad_count (spad_count (spad_count h)))

theorem canon_passCores {f g : Nat → Core → Core} (h : Canon P Q s) (hf : ∀ k c, Mem.wf c.spad → Mem.wf (f k c).spad)
    (hg : ∀ d c, Mem.wf c.spad → Mem.wf (g d c).spad) :
    Canon P Q { s with
      cores := Vector.ofFn fun (k : Fin 384) => f k s.cores[k], sysCores := Vector.ofFn fun (d : Fin 8) => g d s.sysCores[d] } := by
  obtain ⟨hw, hh, hq, hp, hc, hsys⟩ := h
  refine ⟨hw, hh, hq, hp, fun k hk => ?_, fun d hd => ?_⟩
  · simpa [State.core] using hf k _ (hc k hk)
  · simpa using hg d _ (hsys d hd)

theorem canon_passTime {ns : Nat} (h : Canon P Q s) : Canon P Q (passTime s ns) := by
  have h₁ := canon_draw h
  unfold passTime
  split
  next n s₁ hr =>
    rw [hr] at h₁
    extract_lets a b s₂ s₃
    have h₂ : Canon P Q s₂ := canon_passCores (s := { s₁ with time := BitVec.ofNat 64 b })
      (f := fun k c => c.pass n k) (g := fun d c => c.pass n (384 + d)) (canon_with h₁ ..) (fun _ _ => spad_pass) fun _ _ => spad_pass
    have h₃ : Canon P Q s₃ := canon_when h₂ canon_beacon
    exact canon_when h₃ canon_publish

theorem canon_hostWrites {iova : Nat} {bytes : List Byte} (h : Canon P Q s) : Canon P Q (hostWrites s iova bytes) :=
  canon_noteCounterWake (canon_tgtWrite h)

theorem canon_peerWrites {pos pa : Nat} {bytes : List Byte} (h : Canon P Q s) : Canon P Q (peerWrites s pos pa bytes) :=
  canon_ite (canon_noteCounterWake (canon_tgtWrite h)) h

theorem canon_drifts {ag : XAgent} {d : Int} (h : Canon P Q s) : Canon P Q (drifts s ag d) := by
  unfold drifts
  grind [canon_modCluster, canon_modCore, canon_modDie, canon_modEngine]

theorem canon_evicts {ag : XAgent} {vpn : Option Nat} (h : Canon P Q s) : Canon P Q (evicts s ag vpn) := by
  unfold evicts
  grind [canon_modCluster, canon_modCore, canon_modDie, canon_modEngine]

theorem canon_vecResidue {k : CoreId} {v : VReg} {elem : Nat} {synd : Word} (h : Canon P Q s) : Canon P Q (vecResidue s k v elem synd) :=
  canon_logError (canon_modCore h fun _ hc => hc)

theorem canon_receivePosted {f : FuncId} {pa : Nat} {bytes : List Byte} {relaxed : Bool} (h : Canon P Q s) :
    Canon P Q (receivePosted s f pa bytes relaxed) := canon_ite (canon_with h ..) h

theorem canon_applyTurn {x : Turn} (h : CanonAll s) : CanonAllOut (applyTurn s x) := by
  cases x with
  | run k t => exact canon_runThread h
  | event i => exact canonOut_ite (fun _ => canonOut_fault _) fun _ => canon_exec h
  | sys d t => exact canon_runSystem h
  | block k vp => exact canonOut_next (canon_blockStep h)
  | elapse ns => exact canonOut_next (canon_passTime h)
  | drift ag d => exact canonOut_next (canon_drifts h)
  | evict ag vpn => exact canonOut_next (canon_evicts h)
  | hostPage page absent => exact canonOut_next (canon_with h ..)
  | hostWrite iova bytes => exact canonOut_next (canon_hostWrites h)
  | peerWrite pos pa bytes => exact canonOut_next (canon_peerWrites h)
  | barAssign f base => exact canonOut_next (canon_with h ..)
  | setHandlers f kvec hvec => exact canonOut_next (canon_modPart h)
  | poison p => exact canonOut_next (canon_placePoison h)
  | residue k t tile rows synd => exact canonOut_next (canon_residueMismatch h)
  | posted f pa bytes relaxed => exact canonOut_next (canon_receivePosted h)
  | vecResidue k v elem synd => exact canonOut_next (canon_vecResidue h)
  | jtag ir dr => exact canonOut_next (canon_jtagShift h)

theorem canon_coreMoves {s₀ : State} {k : CoreId} {m : Move} (hm : m ∈ coreMoves s₀ k) (h : Canon P Q s) : CanonOut P Q (m s) := by
  simp only [coreMoves, List.mem_append] at hm
  obtain ((((hm | hm) | hm) | hm) | hm) | hm := hm
  · split at hm
    · split at hm
      · cases hm
      · split at hm
        · rw [List.mem_singleton.1 hm]; exact canon_execBlockJoin h
        · rw [List.mem_singleton.1 hm]; exact canonOut_next (canon_blockStep h)
    · cases hm
  · obtain ⟨t, -, rfl⟩ := List.mem_map.1 hm
    exact canon_execLaneRelease h
  · split at hm
    · rw [List.mem_singleton.1 hm]; exact canon_execAutoReissue h
    · cases hm
  · obtain ⟨j, -, rfl⟩ := List.mem_map.1 hm
    exact canon_execCopyStripLands h
  · obtain ⟨v, -, rfl⟩ := List.mem_map.1 hm
    exact canon_execLeaseRenewal h
  · split at hm
    · cases hm
    · rw [List.mem_singleton.1 hm]; exact canon_execCounterSample h

theorem canon_engineMoves {s₀ : State} {k : EngineId} {m : Move} (hm : m ∈ engineMoves s₀ k) (h : Canon P Q s) : CanonOut P Q (m s) := by
  unfold engineMoves at hm
  extract_lets e at hm
  split at hm
  · split at hm
    · cases hm
    · rw [List.mem_singleton.1 hm]; exact canon_execSegmentStart h
  · next r _ =>
    simp only [List.mem_append] at hm
    obtain (hm | hm) | hm := hm
    · obtain ⟨j, -, rfl⟩ := List.mem_map.1 hm
      exact canon_execEngineStripLands h
    · split at hm
      · rw [List.mem_singleton.1 hm]; exact canon_execCommandFault h
      · split at hm
        · rw [List.mem_singleton.1 hm]; exact canon_execEngineWaitSatisfied h
        · split at hm
          · rw [List.mem_singleton.1 hm]; exact canon_execSegmentEnd h
          · simp only [List.mem_cons, List.not_mem_nil, or_false] at hm
            obtain rfl | rfl | rfl | rfl | rfl | rfl | rfl | rfl := hm
            · exact canon_startStream h
            · exact canon_startStream h
            · exact canon_execCmdSignal h
            · exact canon_execCmdWait h
            · exact canon_execCmdRepeat h
            · exact canon_execCmdLink h
            · exact canon_execCmdStop h
            · exact canon_execCommandFault h
    · obtain ⟨v, -, rfl⟩ := List.mem_map.1 hm
      exact canon_execLeaseRenewal h

theorem canon_queryMoves {s₀ : State} {m : Move} (hm : m ∈ queryMoves s₀) (h : Canon P Q s) : CanonOut P Q (m s) := by
  rw [queryMoves, List.mem_append] at hm
  obtain hm | hm := hm
  · obtain ⟨l, hl, hm⟩ := List.mem_flatten.1 hm
    obtain ⟨q, -, rfl⟩ := List.mem_map.1 hl
    obtain ⟨j, -, rfl⟩ := List.mem_map.1 hm
    exact canon_execQuerySubcommandComplete h
  · obtain ⟨l, hl, hm⟩ := List.mem_flatten.1 hm
    obtain ⟨o, -, rfl⟩ := List.mem_map.1 hl
    simp only [List.mem_cons, List.not_mem_nil, or_false] at hm
    obtain rfl | rfl | rfl | rfl := hm
    · exact canon_execMigrationCopyStart h
    · exact canon_execMigrationCommit h
    · exact canon_execSealImageWritten h
    · exact canon_execUnsealVerified h

theorem canon_systemMoves {s₀ : State} {m : Move} (hm : m ∈ systemMoves s₀) (h : CanonAll s) : CanonAllOut (m s) := by
  obtain ⟨d, -, hm⟩ := List.mem_flatMap.1 hm
  obtain ⟨t, -, rfl⟩ := List.mem_map.1 hm
  exact canon_runSystem h

theorem canon_moduleMoves {s₀ : State} {m : Move} (hm : m ∈ moduleMoves s₀) (h : Canon P Q s) : CanonOut P Q (m s) := by
  simp only [moduleMoves, List.mem_append] at hm
  obtain ((((((hm | hm) | hm) | hm) | hm) | hm) | hm) | hm := hm
  · obtain ⟨x, -, rfl⟩ := List.mem_map.1 hm
    exact canon_execInboundPostedWrite h
  · obtain ⟨l, -, rfl⟩ := List.mem_map.1 hm
    exact canon_execLaunchStartTick h
  · obtain ⟨g, -, rfl⟩ := List.mem_map.1 hm
    exact canon_execGangProposalTimeout h
  · obtain ⟨f, -, rfl⟩ := List.mem_map.1 hm
    exact canon_execHamperExchangeComplete h
  · obtain ⟨f, -, rfl⟩ := List.mem_map.1 hm
    exact canon_execContextMoveComplete h
  · obtain ⟨f, -, rfl⟩ := List.mem_map.1 hm
    exact canon_execPartitionReset h
  · obtain ⟨f, -, rfl⟩ := List.mem_map.1 hm
    exact canon_execScrubComplete h
  · obtain ⟨l, hl, hm⟩ := List.mem_flatten.1 hm
    obtain ⟨f, -, rfl⟩ := List.mem_map.1 hl
    simp only [List.mem_cons, List.not_mem_nil, or_false] at hm
    obtain rfl | rfl | rfl | rfl := hm
    · exact canon_submitLaunchAs h
    · exact canon_submitLaunchAs h
    · exact canon_submitWrite h fun _ => canon_execPartitionHalt
    · exact canon_submitWrite h fun _ => canon_execPartitionResume

theorem canon_moves {s₀ : State} {m : Move} (hm : m ∈ moves s₀) (h : CanonAll s) : CanonAllOut (m s) := by
  simp only [moves, List.mem_append] at hm
  obtain (((hm | hm) | hm) | hm) | hm := hm
  · exact canon_systemMoves hm h
  · obtain ⟨l, hl, hm⟩ := List.mem_flatten.1 hm
    obtain ⟨k, -, rfl⟩ := List.mem_map.1 hl
    exact canon_coreMoves hm h
  · obtain ⟨l, hl, hm⟩ := List.mem_flatten.1 hm
    obtain ⟨k, -, rfl⟩ := List.mem_map.1 hl
    exact canon_engineMoves hm h
  · exact canon_queryMoves hm h
  · exact canon_moduleMoves hm h

theorem canon_idleTime (h : Canon P Q s) : Canon P Q (idleTime s) := canon_draw (canon_passTime h)

theorem canon_idleStep (h : CanonAll s) : CanonAllOut (idleStep s) := by
  unfold idleStep
  split
  · exact canon_thenDo (canon_runThread h) fun _ => canon_idleTime
  · split
    · exact canonOut_next (canon_idleTime h)
    · next m l hm =>
      have hmem : (m :: l).getD (s.fresh % (l.length + 1)) m ∈ moves s := by
        have hi : s.fresh % (l.length + 1) < (m :: l).length := Nat.mod_lt _ (Nat.succ_pos _)
        rw [hm, List.getD_eq_getElem _ _ hi]
        exact List.getElem_mem hi
      exact canon_thenDo (canon_moves hmem h) fun _ => canon_idleTime

theorem canon_runStep (h : CanonAll s) : CanonAllOut (runStep s) := by
  unfold runStep
  split
  · exact canon_idleStep h
  · exact canon_applyTurn (canon_with h ..)



/-- Settles O12: every operation that a step is made of keeps the canonical form of the memories, also while a system core stands in its
slot. -/
theorem stepKeepsMemoryCanonical : Obligations.StepKeepsMemoryCanonical := by
  unfold Obligations.StepKeepsMemoryCanonical
  intro s t hs ht
  rw [memInv_iff_canon] at hs ⊢
  exact canon_runStep hs t ht

end Sys2Proof.Machine
end

section
/-!
PROOFS. Fields of an instruction word: what a word of each format holds (spec 02 R19), what a field's code stands for (R20 to R27), and
what the decoder's conditions say.
-/

namespace Sys2Proof

/-! ## Bits of a word -/

/-- The bits of w from lo up are x. -/
def HasBits (w : Word32) (lo : Nat) {n : Nat} (x : BitVec n) : Prop := fld w lo n = x

/-- Two neighbouring fields are held as their concatenation. -/
theorem hasBits_append {m k : Nat} {w : Word32} {lo : Nat} {x : BitVec m} {y : BitVec k} :
    HasBits w lo (x ++ y) ↔ HasBits w (lo + k) x ∧ HasBits w lo y := by
  unfold HasBits
  constructor
  · intro h
    have hx := BitVec.extractLsb'_append_eq_left (a := x) (b := y)
    have hy := BitVec.extractLsb'_append_eq_right (a := x) (b := y)
    rw [← h] at hx hy
    constructor
    · rw [← hx]; ext i hi
      simp [fld, Nat.add_assoc, show k + i < m + k by omega]
    · rw [← hy]; ext i hi
      simp [fld, show i < m + k by omega]
  · rintro ⟨rfl, rfl⟩
    ext i hi
    simp only [fld, BitVec.getElem_append, BitVec.getElem_extractLsb']
    split
    · rfl
    · congr 1; omega

/-- A word is all of its bits. -/
theorem eq_iff_hasBits {w x : Word32} : x = w ↔ HasBits w 0 x := by
  simp [HasBits, fld, eq_comm]

@[simp] theorem hasBits_fld {w : Word32} {lo n : Nat} : HasBits w lo (fld w lo n) := rfl
@[simp] theorem hasBits_ofBool {w : Word32} {lo : Nat} {b : Bool} : HasBits w lo (BitVec.ofBool b) ↔ w.getLsbD lo = b := by
  have h : fld w lo 1 = BitVec.ofBool (w.getLsbD lo) := by
    ext i hi
    obtain rfl : i = 0 := by omega
    simp [fld]
  rw [HasBits, h]
  cases b <;> cases w.getLsbD lo <;> decide

theorem hasBits_ofNat {w : Word32} {lo n k : Nat} : HasBits w lo (BitVec.ofNat n k) ↔ (fld w lo n).toNat = k % 2 ^ n := by
  rw [HasBits, ← BitVec.toNat_inj, BitVec.toNat_ofNat]

@[simp] theorem zeros_eq_decide {w : Word32} {lo n : Nat} : zeros w lo n = decide ((fld w lo n).toNat = 0) := by
  rw [zeros, Bool.eq_iff_iff, decide_eq_true_iff, beq_iff_eq, ← BitVec.toNat_inj]
  simp

@[simp] theorem toNat_fld_one {w : Word32} {lo : Nat} : (fld w lo 1).toNat = (w.getLsbD lo).toNat := by
  rw [(hasBits_ofBool (w := w) (lo := lo)).2 rfl, BitVec.toNat_ofBool]

/-- A field is zero when its upper and its lower part are. -/
theorem toNat_fld_add_eq_zero {m k : Nat} (w : Word32) (lo : Nat) :
    (fld w lo (m + k)).toNat = 0 ↔ (fld w (lo + k) m).toNat = 0 ∧ (fld w lo k).toNat = 0 := by
  have h := hasBits_append (w := w) (lo := lo) (x := 0#m) (y := 0#k)
  rw [show 0#m ++ 0#k = 0#(m + k) from BitVec.zero_append_zero] at h
  simpa only [hasBits_ofNat, Nat.zero_mod] using h

/-! Fields of zeros that the decoder reads across field borders -/

theorem toNat_fld_12_4 {w : Word32} : (fld w 12 4).toNat = 0 ↔ (fld w 14 2).toNat = 0 ∧ (fld w 12 2).toNat = 0 :=
  toNat_fld_add_eq_zero (m := 2) (k := 2) w 12
theorem toNat_fld_13_8 {w : Word32} : (fld w 13 8).toNat = 0 ↔ (fld w 16 5).toNat = 0 ∧ (fld w 13 3).toNat = 0 :=
  toNat_fld_add_eq_zero (m := 5) (k := 3) w 13
theorem toNat_fld_16_10 {w : Word32} : (fld w 16 10).toNat = 0 ↔ (fld w 21 5).toNat = 0 ∧ (fld w 16 5).toNat = 0 :=
  toNat_fld_add_eq_zero (m := 5) (k := 5) w 16
theorem toNat_fld_11_15 {w : Word32} :
    (fld w 11 15).toNat = 0 ↔ (fld w 21 5).toNat = 0 ∧ (fld w 16 5).toNat = 0 ∧ (fld w 11 5).toNat = 0 := by
  rw [← toNat_fld_add_eq_zero (m := 5) (k := 5) w 11, ← toNat_fld_add_eq_zero (m := 5) (k := 10) w 11]
theorem toNat_fld_8_8 {w : Word32} : (fld w 8 8).toNat = 0 ↔ (fld w 11 5).toNat = 0 ∧ (fld w 8 3).toNat = 0 :=
  toNat_fld_add_eq_zero (m := 5) (k := 3) w 8
theorem toNat_fld_4_7 {w : Word32} : (fld w 4 7).toNat = 0 ↔ (fld w 8 3).toNat = 0 ∧ (fld w 4 4).toNat = 0 :=
  toNat_fld_add_eq_zero (m := 3) (k := 4) w 4
theorem toNat_fld_13_10 {w : Word32} : (fld w 13 10).toNat = 0 ↔ (fld w 18 5).toNat = 0 ∧ (fld w 13 5).toNat = 0 :=
  toNat_fld_add_eq_zero (m := 5) (k := 5) w 13
theorem toNat_fld_0_7 {w : Word32} : (fld w 0 7).toNat = 0 ↔ (fld w 1 6).toNat = 0 ∧ (fld w 0 1).toNat = 0 :=
  toNat_fld_add_eq_zero (m := 6) (k := 1) w 0
theorem toNat_fld_0_7_eq_one {w : Word32} : (fld w 0 7).toNat = 1 ↔ (fld w 1 6).toNat = 0 ∧ w.getLsbD 0 = true := by
  have h := hasBits_append (w := w) (lo := 0) (x := 0#6) (y := 1#1)
  rw [show 0#6 ++ 1#1 = 1#7 by decide] at h
  simpa [hasBits_ofNat] using h
theorem toNat_fld_0_21 {w : Word32} :
    (fld w 0 21).toNat = 0 ↔ (fld w 16 5).toNat = 0 ∧ (fld w 11 5).toNat = 0 ∧ (fld w 6 5).toNat = 0 ∧ (fld w 0 6).toNat = 0 := by
  rw [← toNat_fld_add_eq_zero (m := 5) (k := 6) w 0, ← toNat_fld_add_eq_zero (m := 5) (k := 11) w 0, ← toNat_fld_add_eq_zero (m := 5) (k := 16) w 0]
theorem toNat_fld_0_23 {w : Word32} :
    (fld w 0 23).toNat = 0 ↔ (fld w 18 5).toNat = 0 ∧ (fld w 13 5).toNat = 0 ∧ (fld w 0 13).toNat = 0 := by
  rw [← toNat_fld_add_eq_zero (m := 5) (k := 13) w 0, ← toNat_fld_add_eq_zero (m := 5) (k := 18) w 0]
theorem toNat_fld_3_13 {w : Word32} :
    (fld w 3 13).toNat = 0 ↔ (fld w 11 5).toNat = 0 ∧ (fld w 9 2).toNat = 0 ∧ (fld w 7 2).toNat = 0 ∧ (fld w 3 4).toNat = 0 := by
  rw [← toNat_fld_add_eq_zero (m := 2) (k := 4) w 3, ← toNat_fld_add_eq_zero (m := 2) (k := 6) w 3, ← toNat_fld_add_eq_zero (m := 5) (k := 8) w 3]

/-! ## Formats (R19) -/

section Formats

variable {w : Word32} {op : BitVec 6}

theorem fmtS3_eq_iff {d a b : BitVec 5} {fn : BitVec 11} :
    fmtS3 op d a b fn = w ↔ HasBits w 26 op ∧ HasBits w 21 d ∧ HasBits w 16 a ∧ HasBits w 11 b ∧ HasBits w 0 fn := by
  simp only [eq_iff_hasBits, fmtS3, hasBits_append, and_assoc]
theorem fmtSI_eq_iff {d a : BitVec 5} {imm : BitVec 16} :
    fmtSI op d a imm = w ↔ HasBits w 26 op ∧ HasBits w 21 d ∧ HasBits w 16 a ∧ HasBits w 0 imm := by
  simp only [eq_iff_hasBits, fmtSI, hasBits_append, and_assoc]
theorem fmtSU_eq_iff {d : BitVec 5} {imm : BitVec 21} : fmtSU op d imm = w ↔ HasBits w 26 op ∧ HasBits w 21 d ∧ HasBits w 0 imm := by
  simp only [eq_iff_hasBits, fmtSU, hasBits_append, and_assoc]
theorem fmtSB_eq_iff {a b : BitVec 5} {cond : BitVec 3} {off : BitVec 13} :
    fmtSB op a b cond off = w ↔ HasBits w 26 op ∧ HasBits w 21 a ∧ HasBits w 16 b ∧ HasBits w 13 cond ∧ HasBits w 0 off := by
  simp only [eq_iff_hasBits, fmtSB, hasBits_append, and_assoc]
theorem fmtSM_eq_iff {d a : BitVec 5} {sz : BitVec 2} {off : BitVec 14} :
    fmtSM op d a sz off = w ↔ HasBits w 26 op ∧ HasBits w 21 d ∧ HasBits w 16 a ∧ HasBits w 14 sz ∧ HasBits w 0 off := by
  simp only [eq_iff_hasBits, fmtSM, hasBits_append, and_assoc]
theorem fmtSMQ_eq_iff {d a : BitVec 5} {sz qf : BitVec 2} {off : BitVec 12} :
    fmtSMQ op d a sz qf off = w
      ↔ HasBits w 26 op ∧ HasBits w 21 d ∧ HasBits w 16 a ∧ HasBits w 14 sz ∧ HasBits w 12 qf ∧ HasBits w 0 off := by
  simp only [eq_iff_hasBits, fmtSMQ, hasBits_append, and_assoc]
theorem fmtV3_eq_iff {vd va vb : BitVec 5} {rprs : BitVec 3} {mk fn : BitVec 4} :
    fmtV3 op vd va vb rprs mk fn = w
      ↔ HasBits w 26 op ∧ HasBits w 21 vd ∧ HasBits w 16 va ∧ HasBits w 11 vb ∧ HasBits w 8 rprs ∧ HasBits w 4 mk ∧ HasBits w 0 fn := by
  simp only [eq_iff_hasBits, fmtV3, hasBits_append, and_assoc]
theorem fmtVI_eq_iff {vd va : BitVec 5} {imm : BitVec 8} {mk fn : BitVec 4} :
    fmtVI op vd va imm mk fn = w
      ↔ HasBits w 26 op ∧ HasBits w 21 vd ∧ HasBits w 16 va ∧ HasBits w 8 imm ∧ HasBits w 4 mk ∧ HasBits w 0 fn := by
  simp only [eq_iff_hasBits, fmtVI, hasBits_append, and_assoc]
theorem fmtVM_eq_iff {vd a x : BitVec 5} {ew qf : BitVec 2} {mk : BitVec 4} {md : BitVec 3} :
    fmtVM op vd a x ew qf mk md = w
      ↔ HasBits w 26 op ∧ HasBits w 21 vd ∧ HasBits w 16 a ∧ HasBits w 11 x ∧ HasBits w 9 ew ∧ HasBits w 7 qf ∧ HasBits w 3 mk ∧ HasBits w 0 md := by
  simp only [eq_iff_hasBits, fmtVM, hasBits_append, and_assoc]
theorem fmtVT_eq_iff {fn : BitVec 3} {a b : BitVec 5} {off : BitVec 13} :
    fmtVT op fn a b off = w ↔ HasBits w 26 op ∧ HasBits w 23 fn ∧ HasBits w 18 a ∧ HasBits w 13 b ∧ HasBits w 0 off := by
  simp only [eq_iff_hasBits, fmtVT, hasBits_append, and_assoc]
theorem fmtMX_eq_iff {fn : BitVec 4} {p q c : BitVec 5} {fl : BitVec 7} :
    fmtMX op fn p q c fl = w ↔ HasBits w 26 op ∧ HasBits w 22 fn ∧ HasBits w 17 p ∧ HasBits w 12 q ∧ HasBits w 7 c ∧ HasBits w 0 fl := by
  simp only [eq_iff_hasBits, fmtMX, hasBits_append, and_assoc]
theorem fmtQE_eq_iff {fn a b c : BitVec 5} {fl : BitVec 6} :
    fmtQE op fn a b c fl = w ↔ HasBits w 26 op ∧ HasBits w 21 fn ∧ HasBits w 16 a ∧ HasBits w 11 b ∧ HasBits w 6 c ∧ HasBits w 0 fl := by
  simp only [eq_iff_hasBits, fmtQE, hasBits_append, and_assoc]
theorem fmtRP_eq_iff {n : BitVec 4} {reps : BitVec 6} {dd da db : BitVec 3} :
    fmtRP op n reps dd da db = w
      ↔ HasBits w 26 op ∧ HasBits w 22 n ∧ HasBits w 16 reps ∧ HasBits w 13 dd ∧ HasBits w 10 da ∧ HasBits w 7 db ∧ (fld w 0 7).toNat = 0 := by
  simp only [eq_iff_hasBits, fmtRP, hasBits_append, and_assoc]
  simp [hasBits_ofNat]

end Formats

/-! ## Registers and codes of a field (R20 to R27) -/

section Fields

variable {w : Word32} {lo : Nat}

@[simp] theorem hasBits_enc5 {r : Fin 32} : HasBits w lo (enc5 r) ↔ reg5 w lo = r := by
  rw [HasBits, enc5, reg5, ← BitVec.toFin_inj]
@[simp] theorem hasBits_enc4 {r : Fin 16} : HasBits w lo (enc4 r) ↔ reg4 w lo = r := by
  rw [HasBits, enc4, reg4, ← BitVec.toFin_inj]
@[simp] theorem hasBits_enc2 {r : Fin 4} : HasBits w lo (enc2 r) ↔ reg2 w lo = r := by
  rw [HasBits, enc2, reg2, ← BitVec.toFin_inj]
@[simp] theorem hasBits_wide4 {r : Fin 16} : HasBits w lo (wide4 r) ↔ w.getLsbD (lo + 4) = false ∧ reg4 w lo = r := by
  rw [wide4, hasBits_append, hasBits_enc4]; simp [hasBits_ofNat]
@[simp] theorem hasBits_wide2 {r : Fin 4} : HasBits w lo (wide2 r) ↔ (fld w (lo + 2) 3).toNat = 0 ∧ reg2 w lo = r := by
  rw [wide2, hasBits_append, hasBits_enc2]; simp [hasBits_ofNat]
@[simp] theorem hasBits_fn5 {c : BitVec 5} : HasBits w 0 (fn5 c) ↔ HasBits w 6 c ∧ (fld w 0 6).toNat = 0 := by
  rw [fn5, hasBits_append]; simp [hasBits_ofNat]

/-- A count that is held one higher, and wraps (R30, R185). -/
theorem hasBits_succ {n : Nat} {x : BitVec n} : HasBits w lo (x + 1) ↔ fld w lo n - 1 = x := by
  rw [HasBits, BitVec.sub_eq_iff_eq_add]
theorem hasBits_ofFin {n : Nat} {r : Fin (2 ^ n)} : HasBits w lo (BitVec.ofFin r) ↔ (fld w lo n).toFin = r := by
  rw [HasBits, ← BitVec.toFin_inj]

/-- A code whose reader may refuse it is held where the reader finds its value. -/
theorem hasBits_code {α : Type} {n : Nat} {code : α → BitVec n} {ofCode : BitVec n → Option α} (h : ∀ c x, ofCode c = some x ↔ c = code x) {x : α} :
    HasBits w lo (code x) ↔ ofCode (fld w lo n) = some x := (h _ _).symm

theorem Scope.ofCode_eq_some (c : BitVec 3) (x : Scope) : Scope.ofCode c = some x ↔ c = x.code := by
  revert c; cases x <;> decide
theorem FenceKind.ofCode_eq_some (c : BitVec 3) (x : FenceKind) : FenceKind.ofCode c = some x ↔ c = x.code := by
  revert c; cases x <;> decide
theorem LoadQual.ofCode_eq_some (c : BitVec 2) (x : LoadQual) : LoadQual.ofCode c = some x ↔ c = x.code := by
  revert c; cases x <;> decide
theorem StoreQual.ofCode_eq_some (c : BitVec 2) (x : StoreQual) : StoreQual.ofCode c = some x ↔ c = x.code := by
  revert c; cases x <;> decide
theorem SfpType.ofCode_eq_some (c : BitVec 3) (x : SfpType) : SfpType.ofCode c = some x ↔ c = x.code := by
  revert c; cases x <;> decide
theorem RmField.ofCode_eq_some (c : BitVec 3) (x : RmField) : RmField.ofCode c = some x ↔ c = x.code := by
  revert c; rcases x with m | _
  · cases m <;> decide
  · decide
theorem Rep.ofCode_eq_some (c : BitVec 3) (x : Rep) : Rep.ofCode c = some x ↔ c = x.code := by
  revert c; cases x <;> decide
theorem MatClass.ofCode_eq_some (c : BitVec 2) (x : MatClass) : MatClass.ofCode c = some x ↔ c = x.code := by
  revert c; cases x <;> decide
theorem Width.ofCode_eq (c : BitVec 2) (x : Width) : Width.ofCode c = x ↔ c = x.code := by
  revert c; cases x <;> decide
theorem Order.ofCode_eq (c : BitVec 2) (x : Order) : Order.ofCode c = x ↔ c = x.code := by
  revert c; cases x <;> decide
theorem ElemType.ofCode_eq (c : BitVec 4) (x : ElemType) : ElemType.ofCode c = x ↔ c = x.code := by
  revert c; cases x <;> decide
theorem BreadField.ofCode_eq (c : BitVec 2) (x : BreadField) : BreadField.ofCode c = x ↔ c = x.code := by
  revert c; cases x <;> decide
theorem FillType.ofElem_eq_some (e : ElemType) (x : FillType) : FillType.ofElem e = some x ↔ e = x.elem := by
  cases x <;> cases e <;> decide
theorem DrainType.ofElem_eq_some (e : ElemType) (x : DrainType) : DrainType.ofElem e = some x ↔ e = x.elem := by
  cases x <;> cases e <;> decide
theorem ActType.ofElem_eq_some (e : ElemType) (x : ActType) : ActType.ofElem e = some x ↔ e = x.elem := by
  cases x <;> cases e <;> decide
@[simp] theorem FillType.ofElem_elem (x : FillType) : FillType.ofElem x.elem = some x := (FillType.ofElem_eq_some _ _).2 rfl
@[simp] theorem DrainType.ofElem_elem (x : DrainType) : DrainType.ofElem x.elem = some x := (DrainType.ofElem_eq_some _ _).2 rfl
@[simp] theorem ActType.ofElem_elem (x : ActType) : ActType.ofElem x.elem = some x := (ActType.ofElem_eq_some _ _).2 rfl
/-- VTYPE bits stand for what vsetvl carries exactly when the width admits h (R213, R29). -/
theorem VtypeField.ofCode_eq_some (c : BitVec 8) (x : VtypeField) : VtypeField.ofCode c = some x ↔ c = x.code ∧ x.legal = true := by
  have hread : ∀ c : BitVec 8, (VtypeField.ofCode c).all (fun x => x.code == c && x.legal) = true := by decide
  have hkeep (x : VtypeField) (hx : x.legal = true) : VtypeField.ofCode x.code = some x := by
    obtain ⟨ew, h, flush, rm⟩ := x
    revert hx; revert flush
    cases ew <;> cases h <;> cases rm <;> decide
  constructor
  · intro h
    have hc := hread c
    simp only [h, Option.all_some, Bool.and_eq_true, beq_iff_eq] at hc
    exact ⟨hc.1.symm, hc.2⟩
  · rintro ⟨rfl, hx⟩
    exact hkeep x hx

theorem QueryFlags.ofCode_eq_some (c : BitVec 6) (x : QueryFlags) : QueryFlags.ofCode c = some x ↔ c = x.code := by
  obtain ⟨acq, rel, sc, bnd⟩ := x
  revert c; cases acq <;> cases rel <;> cases sc <;> cases bnd <;> decide
theorem CmdFlags.ofCode_eq_some (c : BitVec 5) (x : CmdFlags) : CmdFlags.ofCode c = some x ↔ c = x.code := by
  obtain ⟨acq, rel, sc⟩ := x
  revert c; cases acq <;> cases rel <;> cases sc <;> decide

@[simp] theorem hasBits_scope {x : Scope} : HasBits w lo x.code ↔ Scope.ofCode (fld w lo 3) = some x := hasBits_code Scope.ofCode_eq_some
@[simp] theorem hasBits_fenceKind {x : FenceKind} : HasBits w lo x.code ↔ FenceKind.ofCode (fld w lo 3) = some x :=
  hasBits_code FenceKind.ofCode_eq_some
@[simp] theorem hasBits_loadQual {x : LoadQual} : HasBits w lo x.code ↔ LoadQual.ofCode (fld w lo 2) = some x :=
  hasBits_code LoadQual.ofCode_eq_some
@[simp] theorem hasBits_storeQual {x : StoreQual} : HasBits w lo x.code ↔ StoreQual.ofCode (fld w lo 2) = some x :=
  hasBits_code StoreQual.ofCode_eq_some
@[simp] theorem hasBits_sfpType {x : SfpType} : HasBits w lo x.code ↔ SfpType.ofCode (fld w lo 3) = some x := hasBits_code SfpType.ofCode_eq_some
@[simp] theorem hasBits_rmField {x : RmField} : HasBits w lo x.code ↔ RmField.ofCode (fld w lo 3) = some x := hasBits_code RmField.ofCode_eq_some
@[simp] theorem hasBits_rep {x : Rep} : HasBits w lo x.code ↔ Rep.ofCode (fld w lo 3) = some x := hasBits_code Rep.ofCode_eq_some
@[simp] theorem hasBits_matClass {x : MatClass} : HasBits w lo x.code ↔ MatClass.ofCode (fld w lo 2) = some x :=
  hasBits_code MatClass.ofCode_eq_some
@[simp] theorem hasBits_width {x : Width} : HasBits w lo x.code ↔ Width.ofCode (fld w lo 2) = x := (Width.ofCode_eq _ _).symm
@[simp] theorem hasBits_order {x : Order} : HasBits w lo x.code ↔ Order.ofCode (fld w lo 2) = x := (Order.ofCode_eq _ _).symm
@[simp] theorem hasBits_elemType {x : ElemType} : HasBits w lo x.code ↔ ElemType.ofCode (fld w lo 4) = x := (ElemType.ofCode_eq _ _).symm
@[simp] theorem hasBits_breadField {x : BreadField} : HasBits w lo x.code ↔ BreadField.ofCode (fld w lo 2) = x := (BreadField.ofCode_eq _ _).symm

/-- Query flags are read where their code stands (R26). -/
@[simp] theorem hasBits_queryFlags {x : QueryFlags} : HasBits w lo x.code ↔ QueryFlags.ofCode (fld w lo 6) = some x :=
  hasBits_code QueryFlags.ofCode_eq_some
@[simp] theorem hasBits_cmdFlags {x : CmdFlags} : HasBits w lo x.code ↔ CmdFlags.ofCode (fld w lo 5) = some x :=
  hasBits_code CmdFlags.ofCode_eq_some
/-- VTYPE bits of a legal field (R213). -/
theorem hasBits_vtypeField {x : VtypeField} (hx : x.legal = true) : HasBits w lo x.code ↔ VtypeField.ofCode (fld w lo 8) = some x := by
  rw [VtypeField.ofCode_eq_some, HasBits]; simp [hx]

end Fields

end Sys2Proof
end

section
/-!
PROOFS. Decoding and encoding agree (spec 02 R16, R19, R28, R29).
-/

namespace Sys2Proof

-- One proof at a time: those that wait for the decoder's equations would each hold a thread and its stack.
set_option Elab.async false

/-! ## What a decoder's answer says -/

/-- Every instruction that x answers has P. -/
def Yields (x : Except DecodeError Instr) (P : Instr → Prop) : Prop := ∀ i, x = .ok i → P i

section Yields

variable {P : Instr → Prop} {i : Instr} {c : Bool} {α : Type} {o : Option α} {f : α → Except DecodeError Instr}

@[simp] theorem yields_ok : Yields (.ok i) P ↔ P i := by simp [Yields]
@[simp] theorem yields_error {e : DecodeError} : Yields (.error e) P ↔ True := by simp [Yields]
@[simp] theorem yields_need : Yields (need c i) P ↔ (c = true → P i) := by cases c <;> simp [need]
@[simp] theorem yields_needSome : Yields (needSome o f) P ↔ ∀ a, o = some a → Yields (f a) P := by cases o <;> simp [needSome]
@[simp] theorem yields_needMember : Yields (needMember o f) P ↔ ∀ a, o = some a → Yields (f a) P := by cases o <;> simp [needMember]

@[simp] theorem yields_ite {p : Prop} [Decidable p] {x y : Except DecodeError Instr} :
    Yields (if p then x else y) P ↔ (p → Yields x P) ∧ (¬ p → Yields y P) := by
  split <;> simp [*]

@[simp] theorem need_eq_ok : need c i = .ok i ↔ c = true := by cases c <;> simp [need]
@[simp] theorem needSome_some {a : α} : needSome (some a) f = f a := rfl
@[simp] theorem needMember_some {a : α} : needMember (some a) f = f a := rfl

end Yields

/-- The instruction is well-formed and w is its word. -/
def Agrees (w : Word32) (i : Instr) : Prop := i.wellFormed = true ∧ encode i = some w

/-! ## The word of a family's member -/

section Members

theorem eq_ofNat_of_toNat {n k : Nat} {c : BitVec n} (h : c.toNat = k) : c = BitVec.ofNat n k := by rw [← h]; simp

theorem encode_saluMember {c : BitVec 5} {m} (h : saluMember c.toNat = some m) (d a b : SReg) :
    (m d a b).wellFormed = true ∧ encode (m d a b) = some (fmtS3 0x01 (enc5 d) (enc5 a) (enc5 b) (fn5 c)) := by
  unfold saluMember at h
  split at h <;> cases h <;> (rename_i hc; rw [eq_ofNat_of_toNat hc]; exact ⟨rfl, rfl⟩)
theorem encode_sshiMember {c : BitVec 5} {m} (h : sshiMember c.toNat = some m) (d a : SReg) (sh : BitVec 6) :
    (m d a sh).wellFormed = true ∧ encode (m d a sh) = some (fmtS3 0x02 (enc5 d) (enc5 a) (sh.extractLsb' 0 5) (c ++ (0 : BitVec 5) ++ sh.extractLsb' 5 1)) := by
  unfold sshiMember at h
  split at h <;> cases h <;> (rename_i hc; rw [eq_ofNat_of_toNat hc]; exact ⟨rfl, rfl⟩)
theorem encode_sunMember {c : BitVec 5} {m} (h : sunMember c.toNat = some m) (d a : SReg) :
    (m d a).wellFormed = true ∧ encode (m d a) = some (fmtS3 0x03 (enc5 d) (enc5 a) 0 (fn5 c)) := by
  unfold sunMember at h
  split at h <;> cases h <;> (rename_i hc; rw [eq_ofNat_of_toNat hc]; exact ⟨rfl, rfl⟩)
theorem encode_branchMember {c : BitVec 3} {m} (h : branchMember c.toNat = some m) (a b : SReg) (off : BitVec 13) :
    (m a b off).wellFormed = true ∧ encode (m a b off) = some (fmtSB 0x0E (enc5 a) (enc5 b) c off) := by
  unfold branchMember at h
  split at h <;> cases h <;> (rename_i hc; rw [eq_ofNat_of_toNat hc]; exact ⟨rfl, rfl⟩)
theorem encode_immMember {c : BitVec 6} {m} (h : immMember c.toNat = some m) (d a : SReg) (imm : BitVec 16) :
    (m d a imm).wellFormed = true ∧ encode (m d a imm) = some (fmtSI c (enc5 d) (enc5 a) imm) := by
  unfold immMember at h
  split at h <;> cases h <;> (rename_i hc; rw [eq_ofNat_of_toNat hc]; exact ⟨rfl, rfl⟩)
theorem encode_atomMember {c : BitVec 4} {m} (h : atomMember c.toNat = some m) (d a b : SReg) (ord : Order) (sc : Scope) (dbl spad : Bool) :
    (m d a b ord sc dbl spad).wellFormed = true ∧ encode (m d a b ord sc dbl spad) = some (encAtom c d a b ord sc dbl spad) := by
  unfold atomMember at h
  split at h <;> cases h <;> (rename_i hc; rw [eq_ofNat_of_toNat hc]; exact ⟨rfl, rfl⟩)
theorem encode_vintaMember {c : BitVec 4} {m} (h : vintaMember c.toNat = some m) (vd va vb : VReg) (rep : Rep) (mk : MkField) :
    (m vd va vb rep mk).wellFormed = true ∧ encode (m vd va vb rep mk) = some (fmtV3 0x1D (enc5 vd) (enc5 va) (enc5 vb) rep.code (enc4 mk) c) := by
  unfold vintaMember at h
  split at h <;> cases h <;> (rename_i hc; rw [eq_ofNat_of_toNat hc]; exact ⟨rfl, rfl⟩)
theorem encode_vintbMember {c : BitVec 4} {m} (h : vintbMember c.toNat = some m) (vd va vb : VReg) (rep : Rep) (mk : MkField) :
    (m vd va vb rep mk).wellFormed = true ∧ encode (m vd va vb rep mk) = some (fmtV3 0x1E (enc5 vd) (enc5 va) (enc5 vb) rep.code (enc4 mk) c) := by
  unfold vintbMember at h
  split at h <;> cases h <;> (rename_i hc; rw [eq_ofNat_of_toNat hc]; exact ⟨rfl, rfl⟩)
theorem encode_vfpa3Member {c : BitVec 4} {m} (h : vfpa3Member c.toNat = some m) (vd va vb : VReg) (rep : Rep) (mk : MkField) :
    (m vd va vb rep mk).wellFormed = true ∧ encode (m vd va vb rep mk) = some (fmtV3 0x1F (enc5 vd) (enc5 va) (enc5 vb) rep.code (enc4 mk) c) := by
  unfold vfpa3Member at h
  split at h <;> cases h <;> (rename_i hc; rw [eq_ofNat_of_toNat hc]; exact ⟨rfl, rfl⟩)
theorem encode_vfpa2Member {c : BitVec 4} {m} (h : vfpa2Member c.toNat = some m) (vd va : VReg) (mk : MkField) :
    (m vd va mk).wellFormed = true ∧ encode (m vd va mk) = some (fmtV3 0x1F (enc5 vd) (enc5 va) 0 0 (enc4 mk) c) := by
  unfold vfpa2Member at h
  split at h <;> cases h <;> (rename_i hc; rw [eq_ofNat_of_toNat hc]; exact ⟨rfl, rfl⟩)
theorem encode_vcmpMember {c : BitVec 4} {m} (h : vcmpMember c.toNat = some m) (md : MReg) (va vb : VReg) (rep : Rep) (mk : MkField) :
    (m md va vb rep mk).wellFormed = true ∧ encode (m md va vb rep mk) = some (fmtV3 0x20 (wide4 md) (enc5 va) (enc5 vb) rep.code (enc4 mk) c) := by
  unfold vcmpMember at h
  split at h <;> cases h <;> (rename_i hc; rw [eq_ofNat_of_toNat hc]; exact ⟨rfl, rfl⟩)
theorem encode_vredMember {c : BitVec 4} {m} (h : vredMember c.toNat = some m) (vd va vb : VReg) (mk : MkField) :
    (m vd va vb mk).wellFormed = true ∧ encode (m vd va vb mk) = some (fmtV3 0x22 (enc5 vd) (enc5 va) (enc5 vb) 0 (enc4 mk) c) := by
  unfold vredMember at h
  split at h <;> cases h <;> (rename_i hc; rw [eq_ofNat_of_toNat hc]; exact ⟨rfl, rfl⟩)
theorem encode_queryMember {n : BitVec 5} {m} (h : queryMember n.toNat = some m) (a b c : SReg) (fl : QueryFlags) :
    (m a b c fl).wellFormed = true ∧ encode (m a b c fl) = some (fmtQE 0x30 n (enc5 a) (enc5 b) (enc5 c) fl.code) := by
  unfold queryMember at h
  split at h <;> cases h <;> (rename_i hc; rw [eq_ofNat_of_toNat hc]; exact ⟨rfl, rfl⟩)
theorem encode_pageOpMember {n : BitVec 5} {m} (h : pageOpMember n.toNat = some m) (a b c : SReg) (fl : CmdFlags) :
    (m a b c fl).wellFormed = true ∧ encode (m a b c fl) = some (fmtQE 0x30 n (enc5 a) (enc5 b) (enc5 c) (fl.code ++ (0 : BitVec 1))) := by
  unfold pageOpMember at h
  split at h <;> cases h <;> (rename_i hc; rw [eq_ofNat_of_toNat hc]; exact ⟨rfl, rfl⟩)

theorem encode_viMember {c : BitVec 4} {m} (h : viMember c.toNat = some m) (h9 : c.toNat = 9 → False) (h10 : c.toNat = 10 → False)
    (vd va : VReg) (imm : BitVec 8) (mk : MkField) :
    (m vd va imm mk).wellFormed = true ∧ encode (m vd va imm mk) = some (fmtVI 0x25 (enc5 vd) (enc5 va) imm (enc4 mk) c) := by
  unfold viMember at h
  split at h
  case h_10 hc => exact (h9 hc).elim
  case h_11 hc => exact (h10 hc).elim
  all_goals cases h
  all_goals (rename_i hc; rw [eq_ofNat_of_toNat hc]; exact ⟨rfl, rfl⟩)
end Members

/-! ## Decoding a word that is known by its fields -/

section DecodeMembers

variable {w : Word32}

theorem decode_sys (h : (fld w 26 6).toNat = 0x11) : decode w = decodeSys w := by simp [decode, decodeLow, h]
theorem decode_csr (h : (fld w 26 6).toNat = 0x12) : decode w = decodeCsr w := by simp [decode, decodeLow, h]
theorem decode_sfp (h : (fld w 26 6).toNat = 0x13) : decode w = decodeSfp w := by simp [decode, decodeLow, h]
theorem decode_sync (h : (fld w 26 6).toNat = 0x1B) : decode w = decodeSync w := by simp [decode, decodeLow, h]
theorem decode_vmask (h : (fld w 26 6).toNat = 0x21) : decode w = decodeVmask w := by simp [decode, decodeLow, h]
theorem decode_vperm (h : (fld w 26 6).toNat = 0x23) : decode w = decodeVperm w := by simp [decode, decodeLow, h]
theorem decode_vi (h : (fld w 26 6).toNat = 0x25) : decode w = decodeVi w := by simp [decode, decodeLow, h]
theorem decode_vstrm (h : (fld w 26 6).toNat = 0x2A) : decode w = decodeVstrm w := by simp [decode, decodeLow, h]
theorem decode_vthr (h : (fld w 26 6).toNat = 0x2B) : decode w = decodeVthr w := by simp [decode, decodeLow, h]
theorem decode_mxa (h : (fld w 26 6).toNat = 0x2D) : decode w = decodeMxa w := by simp [decode, decodeLow, h]
theorem decode_bnd (h : (fld w 26 6).toNat = 0x2E) : decode w = decodeBnd w := by simp [decode, decodeLow, h]
theorem decode_eng (h : (fld w 26 6).toNat = 0x2F) : decode w = decodeEng w := by simp [decode, h]
theorem decode_qry (h : (fld w 26 6).toNat = 0x30) : decode w = decodeQry w := by simp [decode, h]
theorem decode_tsk (h : (fld w 26 6).toNat = 0x31) : decode w = decodeTsk w := by simp [decode, h]
theorem decode_vmem (h : (fld w 26 6).toNat = 0x26 ∨ (fld w 26 6).toNat = 0x27 ∨ (fld w 26 6).toNat = 0x28 ∨ (fld w 26 6).toNat = 0x29) :
    decode w = decodeVmem w := by
  rcases h with h | h | h | h <;> simp [decode, decodeLow, h]


/-- A rounding field of zeros names a mode, as SFP requires of a member that has none (R26, R204). -/
theorem rmField_of_zero (h : (fld w 0 3).toNat = 0) : RmField.ofCode (fld w 0 3) = some (.mode .rne) := by
  simp [RmField.ofCode, Rounding.ofCode, h]

theorem decode_salu {c : BitVec 5} {m} {d a b : SReg} (h : some (fmtS3 0x01 (enc5 d) (enc5 a) (enc5 b) (fn5 c)) = some w)
    (hm : saluMember c.toNat = some m) : decode w = .ok (m d a b) := by
  simp only [Option.some.injEq, fmtS3_eq_iff] at h
  simp [hasBits_ofNat] at h
  obtain ⟨hop, rfl, rfl, rfl, rfl, hz⟩ := h
  simp [decode, decodeLow, hop, hm, hz]
theorem decode_sshi {c : BitVec 5} {m} {d a : SReg} {sh : BitVec 6}
    (h : some (fmtS3 0x02 (enc5 d) (enc5 a) (sh.extractLsb' 0 5) (c ++ (0 : BitVec 5) ++ sh.extractLsb' 5 1)) = some w)
    (hm : sshiMember c.toNat = some m) : decode w = .ok (m d a sh) := by
  simp only [Option.some.injEq, fmtS3_eq_iff, hasBits_append] at h
  simp [hasBits_ofNat] at h
  obtain ⟨hop, rfl, rfl, hlo, ⟨rfl, hz⟩, hhi⟩ := h
  have hsh : fld w 0 1 ++ fld w 11 5 = sh := by
    rw [hlo, hhi]; exact BitVec.extractLsb'_append_extractLsb' (w := 1) (len := 5)
  simp [decode, decodeLow, hop, hm, hz, hsh]
theorem decode_sun {c : BitVec 5} {m} {d a : SReg} (h : some (fmtS3 0x03 (enc5 d) (enc5 a) 0 (fn5 c)) = some w)
    (hm : sunMember c.toNat = some m) : decode w = .ok (m d a) := by
  simp only [Option.some.injEq, fmtS3_eq_iff] at h
  simp [hasBits_ofNat] at h
  obtain ⟨hop, rfl, rfl, h0, rfl, hz⟩ := h
  simp [decode, decodeLow, hop, hm, hz, h0]
theorem decode_branch {c : BitVec 3} {m} {a b : SReg} {off : BitVec 13} (h : some (fmtSB 0x0E (enc5 a) (enc5 b) c off) = some w)
    (hm : branchMember c.toNat = some m) : decode w = .ok (m a b off) := by
  simp only [Option.some.injEq, fmtSB_eq_iff] at h
  simp [hasBits_ofNat] at h
  obtain ⟨hop, rfl, rfl, rfl, rfl⟩ := h
  simp [decode, decodeLow, hop, hm]
theorem decode_imm {c : BitVec 6} {m} {d a : SReg} {imm : BitVec 16} (h : some (fmtSI c (enc5 d) (enc5 a) imm) = some w)
    (hm : immMember c.toNat = some m) : decode w = .ok (m d a imm) := by
  simp only [Option.some.injEq, fmtSI_eq_iff] at h
  simp at h
  obtain ⟨rfl, rfl, rfl, rfl⟩ := h
  unfold immMember at hm
  split at hm <;> cases hm <;> (rename_i hop; simp [decode, decodeLow, hop, immMember])
theorem decode_atom {c : BitVec 4} {m} {d a b : SReg} {ord : Order} {sc : Scope} {dbl spad : Bool}
    (h : some (encAtom c d a b ord sc dbl spad) = some w) (hm : atomMember c.toNat = some m) :
    decode w = .ok (m d a b ord sc dbl spad) := by
  simp only [Option.some.injEq, encAtom, fmtS3_eq_iff, hasBits_append] at h
  simp [hasBits_ofNat] at h
  obtain ⟨hop, rfl, rfl, rfl, ⟨⟨⟨rfl, rfl⟩, hsc⟩, rfl⟩, rfl⟩ := h
  simp [decode, decodeLow, hop, hm, hsc]
theorem decodeV3_word {f : Nat → Option (VReg → VReg → VReg → Rep → MkField → Instr)} {op : BitVec 6} {c : BitVec 4} {m} {vd va vb : VReg}
    {rep : Rep} {mk : MkField} (h : fmtV3 op (enc5 vd) (enc5 va) (enc5 vb) rep.code (enc4 mk) c = w) (hm : f c.toNat = some m) :
    decodeV3 w (f (fld w 0 4).toNat) = .ok (m vd va vb rep mk) := by
  rw [fmtV3_eq_iff] at h
  simp at h
  obtain ⟨-, rfl, rfl, rfl, hrep, rfl, rfl⟩ := h
  simp [decodeV3, hm, hrep]
theorem decode_vinta {c : BitVec 4} {m} {vd va vb : VReg} {rep : Rep} {mk : MkField}
    (h : some (fmtV3 0x1D (enc5 vd) (enc5 va) (enc5 vb) rep.code (enc4 mk) c) = some w) (hm : vintaMember c.toNat = some m) :
    decode w = .ok (m vd va vb rep mk) := by
  have hop := (fmtV3_eq_iff.1 (Option.some.inj h)).1
  rw [← decodeV3_word (Option.some.inj h) hm]
  simp [decode, decodeLow, hasBits_ofNat.1 hop]
theorem decode_vintb {c : BitVec 4} {m} {vd va vb : VReg} {rep : Rep} {mk : MkField}
    (h : some (fmtV3 0x1E (enc5 vd) (enc5 va) (enc5 vb) rep.code (enc4 mk) c) = some w) (hm : vintbMember c.toNat = some m) :
    decode w = .ok (m vd va vb rep mk) := by
  have hop := (fmtV3_eq_iff.1 (Option.some.inj h)).1
  rw [← decodeV3_word (Option.some.inj h) hm]
  simp [decode, decodeLow, hasBits_ofNat.1 hop]
theorem vfpa2Member_of_vfpa3Member {n : Nat} {m} (h : vfpa3Member n = some m) : vfpa2Member n = none := by
  unfold vfpa3Member at h
  split at h <;> cases h <;> rfl
theorem decode_vfpa3 {c : BitVec 4} {m} {vd va vb : VReg} {rep : Rep} {mk : MkField}
    (h : some (fmtV3 0x1F (enc5 vd) (enc5 va) (enc5 vb) rep.code (enc4 mk) c) = some w) (hm : vfpa3Member c.toNat = some m) :
    decode w = .ok (m vd va vb rep mk) := by
  obtain ⟨hop, -, -, -, -, -, hc⟩ := fmtV3_eq_iff.1 (Option.some.inj h)
  rw [← decodeV3_word (Option.some.inj h) hm]
  have hn : vfpa2Member (fld w 0 4).toNat = none := by rw [hc]; exact vfpa2Member_of_vfpa3Member hm
  simp [decode, decodeLow, hasBits_ofNat.1 hop, hn]
theorem decode_vfpa2 {c : BitVec 4} {m} {vd va : VReg} {mk : MkField}
    (h : some (fmtV3 0x1F (enc5 vd) (enc5 va) 0 0 (enc4 mk) c) = some w) (hm : vfpa2Member c.toNat = some m) :
    decode w = .ok (m vd va mk) := by
  rw [Option.some.injEq, fmtV3_eq_iff] at h
  simp [hasBits_ofNat] at h
  obtain ⟨hop, rfl, rfl, hvb, hrep, rfl, rfl⟩ := h
  simp [decode, decodeLow, hop, hm, toNat_fld_8_8, hvb, hrep]
theorem decode_vcmp {c : BitVec 4} {m} {md : MReg} {va vb : VReg} {rep : Rep} {mk : MkField}
    (h : some (fmtV3 0x20 (wide4 md) (enc5 va) (enc5 vb) rep.code (enc4 mk) c) = some w) (hm : vcmpMember c.toNat = some m) :
    decode w = .ok (m md va vb rep mk) := by
  rw [Option.some.injEq, fmtV3_eq_iff] at h
  simp [hasBits_ofNat] at h
  obtain ⟨hop, ⟨hmd, rfl⟩, rfl, rfl, hrep, rfl, rfl⟩ := h
  simp [decode, decodeLow, hop, hm, hrep, hmd]
theorem decode_vred {c : BitVec 4} {m} {vd va vb : VReg} {mk : MkField}
    (h : some (fmtV3 0x22 (enc5 vd) (enc5 va) (enc5 vb) 0 (enc4 mk) c) = some w) (hm : vredMember c.toNat = some m) :
    decode w = .ok (m vd va vb mk) := by
  rw [Option.some.injEq, fmtV3_eq_iff] at h
  simp [hasBits_ofNat] at h
  obtain ⟨hop, rfl, rfl, rfl, hrep, rfl, rfl⟩ := h
  simp [decode, decodeLow, hop, hm, hrep]
theorem decode_query {c : BitVec 5} {m} {a b c' : SReg} {fl : QueryFlags}
    (h : some (fmtQE 0x30 c (enc5 a) (enc5 b) (enc5 c') fl.code) = some w) (hm : queryMember c.toNat = some m) :
    decode w = .ok (m a b c' fl) := by
  rw [Option.some.injEq, fmtQE_eq_iff] at h
  simp [hasBits_ofNat] at h
  obtain ⟨hop, rfl, rfl, rfl, rfl, hfl⟩ := h
  unfold queryMember at hm
  split at hm <;> cases hm <;> (rename_i hc; simp [decode, decodeQry, hop, hc, hfl, queryMember, pageOpMember])
theorem decode_pageOp {c : BitVec 5} {m} {a b c' : SReg} {fl : CmdFlags}
    (h : some (fmtQE 0x30 c (enc5 a) (enc5 b) (enc5 c') (fl.code ++ (0 : BitVec 1))) = some w) (hm : pageOpMember c.toNat = some m) :
    decode w = .ok (m a b c' fl) := by
  simp only [Option.some.injEq, fmtQE_eq_iff, hasBits_append] at h
  simp [hasBits_ofNat] at h
  obtain ⟨hop, rfl, rfl, rfl, rfl, hfl, h0⟩ := h
  unfold pageOpMember at hm
  split at hm <;> cases hm <;> (rename_i hc; simp [decode, decodeQry, hop, hc, hfl, h0, pageOpMember])

end DecodeMembers

/-! ## Decode of encode -/

/-- A well-formed instruction is what its word decodes to: family by family, the word says its fields and they are all that the decoder reads. -/
theorem decode_of_encode {i : Instr} {w : Word32} (hwf : i.wellFormed = true) (h : encode i = some w) : decode w = .ok i := by
  cases i
  case add | sub | mul | mulh | mulhw | div | divw | rem | remw | and | or | xor | andn | sll | srl | sra | rotl | slt | sltw | min | max | minw | maxw =>
    exact decode_salu h rfl
  case slli | srli | srai | rotli => exact decode_sshi h rfl
  case clz | ctz | popc | sextb | sexth | sextw | zextw | bswap => exact decode_sun h rfl
  case addi | andi | ori | xori | slti | sltwi => exact decode_imm h rfl
  case beq | bne | blt | bge | bltw | bgew => exact decode_branch h rfl
  case amoswap | amoadd | amoand | amoor | amoxor | amomin | amomax | amominw | amomaxw | amocas => exact decode_atom h rfl
  case vadd | vsub | vrsub | vmul | vmulh | vmulhw | vand | vor | vxor | vsll | vsrl | vsra | vmin | vmax | vminw | vmaxw => exact decode_vinta h rfl
  case vabsd | vsadd | vssub | vsaddw | vssubw | vmacc | vnmsac | vdot4 | vdot4w | vrshr | vnclip | vnclipw => exact decode_vintb h rfl
  case vfadd | vfsub | vfmul | vfdiv | vfmin | vfmax | vfmacc | vfnmacc | vfmsac | vfsgnj => exact decode_vfpa3 h rfl
  case vfsqrt | vfabs | vfneg | vfexp2 | vfrcp | vfclass => exact decode_vfpa2 h rfl
  case vcmpeq | vcmpne | vcmplt | vcmple | vcmpgt | vcmpge | vcmpltw | vcmplew | vcmpgtw | vcmpgew | vfcmpeq | vfcmpne | vfcmplt | vfcmple | vfcmpgt
      | vfcmpge => exact decode_vcmp h rfl
  case vredsum | vredmax | vredmin | vredmaxw | vredminw | vredand | vredor | vfredsum | vfredusum | vfredmax | vfredmin | vbscale => exact decode_vred h rfl
  case qdot | qfsum | qcnt | qmaxi | qtopk | qattn | qupd => exact decode_query h rfl
  case qmig | qseal | qunseal => exact decode_pageOp h rfl
  case lui | aupc | jal =>
    replace h := fmtSU_eq_iff.1 (Option.some.inj h)
    simp [hasBits_ofNat] at h
    simp only [HasBits] at h
    simp [decode, decodeLow, h]
  case jalr =>
    replace h := fmtSI_eq_iff.1 (Option.some.inj h)
    simp [hasBits_ofNat] at h
    simp only [HasBits] at h
    simp [decode, decodeLow, h]
  case loop =>
    replace h := fmtSI_eq_iff.1 (Option.some.inj h)
    simp [hasBits_ofNat] at h
    simp only [HasBits] at h
    simp [Instr.wellFormed] at hwf
    simp [decode, decodeLow, h, hwf]
  case bstrip =>
    replace h := fmtSB_eq_iff.1 (Option.some.inj h)
    simp [hasBits_ofNat] at h
    simp only [HasBits] at h
    simp [decode, decodeLow, h, toNat_fld_13_8]
  case svc | tret | brk | halt | idle | fencei | vpstop | vjoin | vrel | tdone | tyield => cases h; rfl
  case mark =>
    replace h := fmtS3_eq_iff.1 (Option.some.inj h)
    simp [hasBits_ofNat] at h
    rw [decode_sys h.1]
    simp [decodeSys, h]
  case csrr =>
    replace h := fmtSI_eq_iff.1 (Option.some.inj h)
    simp only [hasBits_append] at h
    simp [hasBits_ofNat, toNat_fld_12_4] at h
    simp only [HasBits] at h
    simp [Instr.wellFormed] at hwf
    rw [decode_csr h.1]
    simp [decodeCsr, h, hwf]
  case csrw | csrs | csrc =>
    replace h := fmtSI_eq_iff.1 (Option.some.inj h)
    simp only [hasBits_append] at h
    simp [hasBits_ofNat] at h
    simp only [HasBits] at h
    simp [Instr.wellFormed] at hwf
    rw [decode_csr h.1]
    simp [decodeCsr, h, hwf]
  case fadd | fsub | fmul | fdiv | fsqrt | fmacc =>
    replace h := fmtS3_eq_iff.1 (Option.some.inj h)
    simp only [hasBits_append] at h
    simp [hasBits_ofNat] at h
    rw [decode_sfp h.1]
    simp [decodeSfp, h]
  case fmin | fmax | fcmpeq | fcmplt | fcmple | fclass =>
    replace h := fmtS3_eq_iff.1 (Option.some.inj h)
    simp only [hasBits_append] at h
    simp [hasBits_ofNat] at h
    rw [decode_sfp h.1]
    simp [decodeSfp, h, rmField_of_zero]
  case fcvt =>
    replace h := fmtS3_eq_iff.1 (Option.some.inj h)
    simp only [hasBits_append] at h
    simp [hasBits_ofNat] at h
    simp [Instr.wellFormed] at hwf
    rw [decode_sfp h.1]
    simp [decodeSfp, h, hwf]
  case ld | ldz | st =>
    replace h := fmtSM_eq_iff.1 (Option.some.inj h)
    simp [hasBits_ofNat] at h
    simp only [HasBits] at h
    simp [decode, decodeLow, h]
  case lds | sts =>
    replace h := fmtSMQ_eq_iff.1 (Option.some.inj h)
    simp [hasBits_ofNat] at h
    simp only [HasBits] at h
    simp [decode, decodeLow, h]
  case fence =>
    replace h := fmtS3_eq_iff.1 (Option.some.inj h)
    simp only [hasBits_append] at h
    simp [hasBits_ofNat] at h
    simp [decode, decodeLow, h, toNat_fld_11_15]
  case bar | barr | barw | waitge | sigadd | waitt =>
    replace h := fmtS3_eq_iff.1 (Option.some.inj h)
    simp [hasBits_ofNat] at h
    rw [decode_sync h.1]
    simp [decodeSync, h]
  case vsetvl =>
    replace h := fmtS3_eq_iff.1 (Option.some.inj h)
    simp only [hasBits_append, hasBits_vtypeField hwf] at h
    simp [hasBits_ofNat] at h
    simp [decode, decodeLow, h]
  case vmand | vmor | vmxor | vmandn | vmnot | vmset | vmclr | vmsbf | viota | vmcnt | vmany | vmfirst | vmfm =>
    replace h := fmtV3_eq_iff.1 (Option.some.inj h)
    simp [hasBits_ofNat] at h
    rw [decode_vmask h.1]
    simp [decodeVmask, h, toNat_fld_4_7]
  case vmv | vmvsx | vmerge =>
    replace h := fmtV3_eq_iff.1 (Option.some.inj h)
    simp [hasBits_ofNat] at h
    rw [decode_vperm h.1]
    simp [decodeVperm, h]
  case vslideup | vslidedn | vrgather | vcompress =>
    replace h := fmtV3_eq_iff.1 (Option.some.inj h)
    simp [hasBits_ofNat] at h
    simp [Instr.wellFormed] at hwf
    rw [decode_vperm h.1]
    simp [decodeVperm, h, hwf]
  case vcvt =>
    replace h := fmtV3_eq_iff.1 (Option.some.inj h)
    simp only [hasBits_append] at h
    simp [hasBits_ofNat] at h
    simp [Instr.wellFormed] at hwf
    simp [decode, decodeLow, h, hwf]
  case vaddi | vrsubi | vandi | vori | vxori | vslli | vsrli | vsrai | vrshri =>
    replace h := fmtVI_eq_iff.1 (Option.some.inj h)
    simp [hasBits_ofNat] at h
    simp only [HasBits] at h
    rw [decode_vi h.1]
    simp [decodeVi, viMember, h]
  case vmvi =>
    replace h := fmtVI_eq_iff.1 (Option.some.inj h)
    simp [hasBits_ofNat] at h
    simp only [HasBits] at h
    rw [decode_vi h.1]
    simp [decodeVi, h]
  case vslideupi | vslidedni =>
    replace h := fmtVI_eq_iff.1 (Option.some.inj h)
    simp [hasBits_ofNat] at h
    simp only [HasBits] at h
    simp [Instr.wellFormed] at hwf
    rw [decode_vi h.1]
    simp [decodeVi, h, hwf]
  case vld | vldk | vldx | vst | vstk | vstx | vstxo | vlp | vlpk | vlpx | vlpl | vsp | vspk | vspx | vspxo | vspl =>
    replace h := fmtVM_eq_iff.1 (Option.some.inj h)
    simp [hasBits_ofNat] at h
    rw [decode_vmem (by simp [h])]
    simp [decodeVmem, h]
  case vsbind =>
    replace h := fmtVM_eq_iff.1 (Option.some.inj h)
    simp only [hasBits_append, hasBits_ofFin] at h
    simp [hasBits_ofNat] at h
    rw [decode_vstrm h.1]
    simp [decodeVstrm, h, toNat_fld_3_13, ← BitVec.toNat_inj]
  case vsunbind | vspill | vfill =>
    replace h := fmtVM_eq_iff.1 (Option.some.inj h)
    simp [hasBits_ofNat] at h
    rw [decode_vstrm h.1]
    simp [decodeVstrm, h, toNat_fld_3_13]
  case vf =>
    replace h := fmtVT_eq_iff.1 (Option.some.inj h)
    rw [hasBits_succ] at h
    simp [hasBits_ofNat] at h
    simp only [HasBits] at h
    simp [Instr.wellFormed] at hwf
    rw [decode_vthr h.1]
    simp [decodeVthr, h, hwf, enc5]
  case vpbr =>
    replace h := fmtVT_eq_iff.1 (Option.some.inj h)
    simp only [hasBits_append] at h
    simp [hasBits_ofNat] at h
    simp only [HasBits] at h
    rw [decode_vthr h.1]
    simp [decodeVthr, h]
  case vpjmp =>
    replace h := fmtVT_eq_iff.1 (Option.some.inj h)
    simp [hasBits_ofNat] at h
    simp only [HasBits] at h
    rw [decode_vthr h.1]
    simp [decodeVthr, h, toNat_fld_13_10]
  case rpt =>
    obtain ⟨hop, hn, hreps, hrest⟩ := fmtRP_eq_iff.1 (Option.some.inj h)
    simp only [hasBits_succ, hasBits_ofFin] at hn hreps hrest
    simp only [decode, decodeLow, hasBits_ofNat.1 hop, hn, hreps, hrest]
    simp [hrest]
  case mclaim | mrelease | mwload | mzero | mnorm =>
    replace h := fmtMX_eq_iff.1 (Option.some.inj h)
    simp [hasBits_ofNat] at h
    rw [decode_mxa h.1]
    simp [decodeMxa, h]
  case mshape | mdrain | mdrainSpad | mdrainc | mbread =>
    replace h := fmtMX_eq_iff.1 (Option.some.inj h)
    simp only [hasBits_append] at h
    simp [hasBits_ofNat] at h
    rw [decode_mxa h.1]
    simp [decodeMxa, h]
  case msoft =>
    replace h := fmtMX_eq_iff.1 (Option.some.inj h)
    simp [hasBits_ofNat] at h
    simp [Instr.wellFormed] at hwf
    rw [decode_mxa h.1]
    simp [decodeMxa, h, hwf]
  case mfill | mmac =>
    replace h := fmtMX_eq_iff.1 (Option.some.inj h)
    simp only [hasBits_append] at h
    simp [hasBits_ofNat] at h
    simp [Instr.wellFormed] at hwf
    rw [decode_mxa h.1]
    simp [decodeMxa, h, hwf]
  case msaveTile | msaveSlot | mrestTile | mrestSlot =>
    replace h := fmtMX_eq_iff.1 (Option.some.inj h)
    simp [hasBits_ofNat, toNat_fld_0_7, toNat_fld_0_7_eq_one] at h
    rw [decode_mxa h.1]
    simp [decodeMxa, h]
  case vbget | vbset =>
    replace h := fmtV3_eq_iff.1 (Option.some.inj h)
    simp [hasBits_ofNat] at h
    rw [decode_bnd h.1]
    simp [decodeBnd, h, toNat_fld_4_7]
  case vstb | vldb =>
    replace h := fmtV3_eq_iff.1 (Option.some.inj h)
    simp only [hasBits_append] at h
    simp [hasBits_ofNat] at h
    rw [decode_bnd h.1]
    simp [decodeBnd, h, toNat_fld_4_7]
  case cpa | cpaRes =>
    replace h := fmtQE_eq_iff.1 (Option.some.inj h)
    simp only [hasBits_append] at h
    simp [hasBits_ofNat] at h
    rw [decode_eng h.1]
    simp [decodeEng, h]
  case senq | abinit | abwait | abrel | cpq =>
    replace h := fmtQE_eq_iff.1 (Option.some.inj h)
    simp [hasBits_ofNat] at h
    rw [decode_eng h.1]
    simp [decodeEng, h]
  case qwr | qfold =>
    replace h := fmtQE_eq_iff.1 (Option.some.inj h)
    simp [hasBits_ofNat] at h
    rw [decode_qry h.1]
    simp [decodeQry, h]
  case tspawn =>
    replace h := fmtQE_eq_iff.1 (Option.some.inj h)
    simp [hasBits_ofNat] at h
    rw [decode_tsk h.1]
    simp [decodeTsk, h]
  case tlaunch =>
    replace h := fmtQE_eq_iff.1 (Option.some.inj h)
    simp only [hasBits_append] at h
    simp [hasBits_ofNat] at h
    rw [decode_tsk h.1]
    simp [decodeTsk, h]
  all_goals cases h

/-! ## What the decoder answers is the instruction of the word -/

section Agreement

variable {w : Word32}

theorem agrees_of_fields {i : Instr} {x : Word32} (h : i.wellFormed = true ∧ encode i = some x) (hx : x = w) : Agrees w i := by
  rw [← hx]; exact h

theorem decodeSys_agrees (hop : (fld w 26 6).toNat = 0x11) : Yields (decodeSys w) (Agrees w) := by
  unfold decodeSys
  split <;> simp +contextual [Agrees, Instr.wellFormed, encode, fmtS3_eq_iff, hasBits_ofNat, toNat_fld_11_15, *]
theorem decodeCsr_agrees (hop : (fld w 26 6).toNat = 0x12) : Yields (decodeCsr w) (Agrees w) := by
  have hlt := (fld w 14 2).isLt
  unfold decodeCsr
  split <;> simp only [yields_need, Agrees, Instr.wellFormed, encode, Option.some.injEq, fmtSI_eq_iff, hasBits_append]
  all_goals simp +contextual [hasBits_ofNat, toNat_fld_12_4, *]
  simp only [imp_false] at *
  intros; omega
theorem decodeSfp_agrees (hop : (fld w 26 6).toNat = 0x13) : Yields (decodeSfp w) (Agrees w) := by
  unfold decodeSfp
  dsimp only
  split
  · exact yields_error.2 trivial
  next hm =>
  simp only [yields_needSome]
  intro t ht rm hrm
  split <;> simp only [Agrees, Instr.wellFormed, encode, Option.some.injEq, fmtS3_eq_iff, hasBits_append, yields_ok, yields_need]
  all_goals simp +contextual [hasBits_ofNat, *]
  simp only [imp_false] at *
  intros; omega
theorem decodeSync_agrees (hop : (fld w 26 6).toNat = 0x1B) : Yields (decodeSync w) (Agrees w) := by
  unfold decodeSync
  split <;> simp +contextual [Agrees, Instr.wellFormed, encode, fmtS3_eq_iff, hasBits_ofNat, *]
theorem decodeVmask_agrees (hop : (fld w 26 6).toNat = 0x21) : Yields (decodeVmask w) (Agrees w) := by
  unfold decodeVmask
  split <;> simp +contextual [Agrees, Instr.wellFormed, encode, fmtV3_eq_iff, hasBits_ofNat, toNat_fld_4_7, *]
theorem decodeVperm_agrees (hop : (fld w 26 6).toNat = 0x23) : Yields (decodeVperm w) (Agrees w) := by
  unfold decodeVperm
  split <;> simp +contextual [Agrees, Instr.wellFormed, encode, fmtV3_eq_iff, hasBits_ofNat, *]
theorem decodeVi_agrees (hop : (fld w 26 6).toNat = 0x25) : Yields (decodeVi w) (Agrees w) := by
  unfold decodeVi
  dsimp only
  split
  case h_4 h11 h9 h10 =>
    simp only [yields_needMember, yields_ok]
    intro m hm
    obtain ⟨hwf, he⟩ := encode_viMember hm h9 h10 (reg5 w 21) (reg5 w 16) (fld w 8 8) (reg4 w 4)
    refine ⟨hwf, he.trans (congrArg some (fmtVI_eq_iff.2 ?_))⟩
    simp [hasBits_ofNat, hop]
  all_goals simp +contextual [Agrees, Instr.wellFormed, encode, fmtVI_eq_iff, hasBits_ofNat, *]
theorem decodeVmem_agrees : Yields (decodeVmem w) (Agrees w) := by
  unfold decodeVmem
  split <;> simp +contextual [Agrees, Instr.wellFormed, encode, fmtVM_eq_iff, hasBits_ofNat, *]
theorem decodeVstrm_agrees (hop : (fld w 26 6).toNat = 0x2A) : Yields (decodeVstrm w) (Agrees w) := by
  unfold decodeVstrm
  split <;> simp only [yields_need, Agrees, Instr.wellFormed, encode, Option.some.injEq, fmtVM_eq_iff, hasBits_append]
  all_goals simp +contextual [hasBits_ofNat, toNat_fld_3_13, *]
theorem decodeVthr_agrees (hop : (fld w 26 6).toNat = 0x2B) : Yields (decodeVthr w) (Agrees w) := by
  unfold decodeVthr
  dsimp only
  split
  case h_1 h0 =>
    refine yields_need.2 fun h => ?_
    simp only [Bool.and_eq_true, zeros_eq_decide, decide_eq_true_eq] at h
    refine ⟨h.2, congrArg some (fmtVT_eq_iff.2 ⟨hasBits_ofNat.2 hop, hasBits_ofNat.2 h0, hasBits_ofNat.2 h.1, hasBits_succ.2 rfl, rfl⟩)⟩
  all_goals simp only [yields_need, yields_error, Agrees, Instr.wellFormed, encode, Option.some.injEq, fmtVT_eq_iff, hasBits_append]
  all_goals simp +contextual [hasBits_ofNat, toNat_fld_13_10, toNat_fld_0_23, *]
theorem decodeMxa_agrees (hop : (fld w 26 6).toNat = 0x2D) : Yields (decodeMxa w) (Agrees w) := by
  unfold decodeMxa
  split <;> simp only [yields_need, yields_needSome, yields_ite, Agrees, Instr.wellFormed, encode, Option.some.injEq, fmtMX_eq_iff, hasBits_append]
  all_goals simp +contextual [hasBits_ofNat, FillType.ofElem_eq_some, DrainType.ofElem_eq_some, ActType.ofElem_eq_some, toNat_fld_0_7, toNat_fld_0_7_eq_one, *]
theorem decodeBnd_agrees (hop : (fld w 26 6).toNat = 0x2E) : Yields (decodeBnd w) (Agrees w) := by
  unfold decodeBnd
  split <;> simp only [yields_need, Agrees, Instr.wellFormed, encode, Option.some.injEq, fmtV3_eq_iff, hasBits_append]
  all_goals simp +contextual [hasBits_ofNat, toNat_fld_4_7, *]
theorem decodeEng_agrees (hop : (fld w 26 6).toNat = 0x2F) : Yields (decodeEng w) (Agrees w) := by
  unfold decodeEng
  split <;> simp only [yields_need, yields_needSome, yields_ite, yields_ok, Agrees, Instr.wellFormed, encode, Option.some.injEq, fmtQE_eq_iff, hasBits_append]
  all_goals simp +contextual [hasBits_ofNat, *]
theorem decodeQry_agrees (hop : (fld w 26 6).toNat = 0x30) : Yields (decodeQry w) (Agrees w) := by
  unfold decodeQry
  dsimp only
  split
  case h_3 =>
    split
    · next m hm =>
      simp only [yields_needSome, yields_need]
      intro fl hfl h0
      obtain ⟨hwf, he⟩ := encode_pageOpMember hm (reg5 w 16) (reg5 w 11) (reg5 w 6) fl
      refine ⟨hwf, he.trans (congrArg some (fmtQE_eq_iff.2 ?_))⟩
      simp only [hasBits_append]
      simp_all [hasBits_ofNat]
    · simp only [yields_needMember, yields_needSome, yields_ok]
      intro m hm fl hfl
      obtain ⟨hwf, he⟩ := encode_queryMember hm (reg5 w 16) (reg5 w 11) (reg5 w 6) fl
      refine ⟨hwf, he.trans (congrArg some (fmtQE_eq_iff.2 ?_))⟩
      simp [hasBits_ofNat, hop, hfl]
  all_goals simp only [yields_needSome, yields_need, Agrees, Instr.wellFormed, encode, Option.some.injEq, fmtQE_eq_iff]
  all_goals simp +contextual [hasBits_ofNat, *]
theorem decodeTsk_agrees (hop : (fld w 26 6).toNat = 0x31) : Yields (decodeTsk w) (Agrees w) := by
  unfold decodeTsk
  split <;> simp only [yields_need, Agrees, Instr.wellFormed, encode, Option.some.injEq, fmtQE_eq_iff, hasBits_append]
  all_goals simp +contextual [hasBits_ofNat, toNat_fld_0_21, *]
/-- A V3 member of a major whose words take the replicate modifier. -/
theorem decodeV3_agrees {op : BitVec 6} {f : Nat → Option (VReg → VReg → VReg → Rep → MkField → Instr)} (hop : HasBits w 26 op)
    (hf : ∀ {c : BitVec 4} {m}, f c.toNat = some m → ∀ (vd va vb : VReg) (rep : Rep) (mk : MkField), (m vd va vb rep mk).wellFormed = true
      ∧ encode (m vd va vb rep mk) = some (fmtV3 op (enc5 vd) (enc5 va) (enc5 vb) rep.code (enc4 mk) c)) :
    Yields (decodeV3 w (f (fld w 0 4).toNat)) (Agrees w) := by
  simp only [decodeV3, yields_needMember, yields_needSome, yields_ok]
  intro m hm rep hrep
  obtain ⟨hwf, he⟩ := hf hm (reg5 w 21) (reg5 w 16) (reg5 w 11) rep (reg4 w 4)
  refine ⟨hwf, he.trans (congrArg some (fmtV3_eq_iff.2 ?_))⟩
  simp [hop, hrep]

theorem decodeLow_agrees : Yields (decodeLow w) (Agrees w) := by
  unfold decodeLow
  dsimp only
  split
  case h_1 hop =>
    simp only [yields_needMember, yields_need, zeros_eq_decide, decide_eq_true_eq]
    intro m hm hz
    obtain ⟨hwf, he⟩ := encode_saluMember hm (reg5 w 21) (reg5 w 16) (reg5 w 11)
    refine ⟨hwf, he.trans (congrArg some (fmtS3_eq_iff.2 ?_))⟩
    simp [hasBits_ofNat, hop, hz]
  case h_2 hop =>
    simp only [yields_needMember, yields_need, zeros_eq_decide, decide_eq_true_eq]
    intro m hm hz
    have hlo : (fld w 0 1 ++ fld w 11 5).extractLsb' 0 5 = fld w 11 5 := BitVec.extractLsb'_append_eq_right
    have hhi : (fld w 0 1 ++ fld w 11 5).extractLsb' 5 1 = fld w 0 1 := BitVec.extractLsb'_append_eq_left
    obtain ⟨hwf, he⟩ := encode_sshiMember hm (reg5 w 21) (reg5 w 16) (fld w 0 1 ++ fld w 11 5)
    refine ⟨hwf, he.trans (congrArg some (fmtS3_eq_iff.2 ?_))⟩
    simp only [hasBits_append]
    simp [hasBits_ofNat, hop, hz, hlo, hhi]
  case h_3 hop =>
    simp only [yields_needMember, yields_need, zeros_eq_decide, decide_eq_true_eq, Bool.and_eq_true]
    intro m hm hz
    obtain ⟨hwf, he⟩ := encode_sunMember hm (reg5 w 21) (reg5 w 16)
    refine ⟨hwf, he.trans (congrArg some (fmtS3_eq_iff.2 ?_))⟩
    simp [hasBits_ofNat, hop, hz]
  case h_8 hop =>
    simp only [yields_needMember, yields_ok]
    intro m hm
    obtain ⟨hwf, he⟩ := encode_branchMember hm (reg5 w 21) (reg5 w 16) (fld w 0 13)
    refine ⟨hwf, he.trans (congrArg some (fmtSB_eq_iff.2 ?_))⟩
    simp [hasBits_ofNat, hop]
  case h_11 hop => exact decodeSys_agrees hop
  case h_12 hop => exact decodeCsr_agrees hop
  case h_13 hop => exact decodeSfp_agrees hop
  case h_19 hop =>
    simp only [yields_needMember, yields_needSome, yields_ok]
    intro m hm sc hsc
    obtain ⟨hwf, he⟩ := encode_atomMember hm (reg5 w 21) (reg5 w 16) (reg5 w 11) (Order.ofCode (fld w 5 2)) sc (w.getLsbD 1) (w.getLsbD 0)
    refine ⟨hwf, he.trans (congrArg some (fmtS3_eq_iff.2 ?_))⟩
    simp only [hasBits_append]
    simp [hasBits_ofNat, hop, hsc]
  case h_21 hop => exact decodeSync_agrees hop
  case h_22 hop =>
    simp only [yields_needSome, yields_need, zeros_eq_decide, Bool.and_eq_true, decide_eq_true_eq]
    intro vt hvt hz
    have hwf := ((VtypeField.ofCode_eq_some _ _).1 hvt).2
    refine ⟨hwf, congrArg some (fmtS3_eq_iff.2 ?_)⟩
    simp only [hasBits_append, hasBits_vtypeField hwf]
    simp [hasBits_ofNat, hop, hvt, hz]
  case h_23 hop => exact decodeV3_agrees (hasBits_ofNat.2 hop) encode_vintaMember
  case h_24 hop => exact decodeV3_agrees (hasBits_ofNat.2 hop) encode_vintbMember
  case h_25 hop =>
    split
    · next m hm =>
      simp only [yields_need, zeros_eq_decide, decide_eq_true_eq, toNat_fld_8_8]
      intro hz
      obtain ⟨hwf, he⟩ := encode_vfpa2Member hm (reg5 w 21) (reg5 w 16) (reg4 w 4)
      refine ⟨hwf, he.trans (congrArg some (fmtV3_eq_iff.2 ?_))⟩
      simp [hasBits_ofNat, hop, hz]
    · exact decodeV3_agrees (hasBits_ofNat.2 hop) encode_vfpa3Member
  case h_26 hop =>
    simp only [yields_needMember, yields_needSome, yields_need, zeros_eq_decide, toNat_fld_one, Bool.toNat_eq_zero, decide_eq_true_eq]
    intro m hm rep hrep hz
    obtain ⟨hwf, he⟩ := encode_vcmpMember hm (reg4 w 21) (reg5 w 16) (reg5 w 11) rep (reg4 w 4)
    refine ⟨hwf, he.trans (congrArg some (fmtV3_eq_iff.2 ?_))⟩
    simpa [hasBits_ofNat, hop, hrep] using hz
  case h_27 hop => exact decodeVmask_agrees hop
  case h_28 hop =>
    simp only [yields_needMember, yields_need, zeros_eq_decide, decide_eq_true_eq]
    intro m hm hz
    obtain ⟨hwf, he⟩ := encode_vredMember hm (reg5 w 21) (reg5 w 16) (reg5 w 11) (reg4 w 4)
    refine ⟨hwf, he.trans (congrArg some (fmtV3_eq_iff.2 ?_))⟩
    simp [hasBits_ofNat, hop, hz]
  case h_29 hop => exact decodeVperm_agrees hop
  case h_31 hop => exact decodeVi_agrees hop
  case h_32 | h_33 | h_34 | h_35 => exact decodeVmem_agrees
  case h_36 hop => exact decodeVstrm_agrees hop
  case h_37 hop => exact decodeVthr_agrees hop
  case h_38 hop =>
    simp only [yields_need, zeros_eq_decide, decide_eq_true_eq]
    exact fun hz => ⟨rfl, congrArg some (fmtRP_eq_iff.2 ⟨hasBits_ofNat.2 hop, hasBits_succ.2 rfl, hasBits_succ.2 rfl, rfl, rfl, rfl, hz⟩)⟩
  case h_39 hop => exact decodeMxa_agrees hop
  case h_40 hop => exact decodeBnd_agrees hop
  case h_41 =>
    split
    · next m hm =>
      obtain ⟨hwf, he⟩ := encode_immMember hm (reg5 w 21) (reg5 w 16) (fld w 0 16)
      exact yields_ok.2 ⟨hwf, he.trans (congrArg some (fmtSI_eq_iff.2 (by simp)))⟩
    · exact yields_error.2 trivial
  case h_4 | h_5 | h_6 => simp [Agrees, Instr.wellFormed, encode, fmtSU_eq_iff, hasBits_ofNat, *]
  case h_7 | h_9 => simp +contextual [Agrees, Instr.wellFormed, encode, fmtSI_eq_iff, hasBits_ofNat, *]
  case h_10 => simp +contextual [Agrees, Instr.wellFormed, encode, fmtSB_eq_iff, hasBits_ofNat, toNat_fld_13_8, *]
  case h_14 | h_15 | h_16 => simp [Agrees, Instr.wellFormed, encode, fmtSM_eq_iff, hasBits_ofNat, *]
  case h_17 | h_18 => simp +contextual [Agrees, Instr.wellFormed, encode, fmtSMQ_eq_iff, hasBits_ofNat, *]
  case h_20 =>
    simp only [yields_needMember, yields_needSome, yields_need, Agrees, Instr.wellFormed, encode, Option.some.injEq, fmtS3_eq_iff, hasBits_append]
    simp +contextual [hasBits_ofNat, toNat_fld_11_15, *]
  case h_30 =>
    simp only [yields_needSome, yields_need, Agrees, Instr.wellFormed, encode, Option.some.injEq, fmtV3_eq_iff, hasBits_append]
    simp +contextual [hasBits_ofNat, *]

theorem decode_agrees : Yields (decode w) (Agrees w) := by
  unfold decode
  split
  case h_1 hop => exact decodeEng_agrees hop
  case h_2 hop => exact decodeQry_agrees hop
  case h_3 hop => exact decodeTsk_agrees hop
  case h_4 => exact decodeLow_agrees

end Agreement

/-- Settles O7: an encoded word is known by its fields, and the decoder of its major reads them back. -/
theorem decodeOfEncode : Obligations.DecodeOfEncode := by
  unfold Obligations.DecodeOfEncode
  exact fun _ _ hwf h => decode_of_encode hwf h

/-- Settles O8: every arm of the decoder requires of the word's fields what the encoder puts there. -/
theorem encodeOfDecode : Obligations.EncodeOfDecode := by
  unfold Obligations.EncodeOfDecode
  exact fun _ i h => decode_agrees i h

end Sys2Proof
end

section
/-!
PROOFS. What the scalar instructions leave alone (spec 02 R22, 11 R191 and R201).
-/

namespace Sys2Proof.Machine

/-- A change of the current thread changes nothing outside it. -/
theorem outsideThread_modCur (s : State) (f : Thread → Thread) : OutsideThread s (s.modCur f) := by
  refine ⟨rfl, fun k hk => State.core_modCur_other _ _ hk, ?_, fun u hu => State.thr_modThr_other _ _ hu⟩
  have h : (s.modCur f).core s.curCore = { s.curC with threads := s.curC.threads.set s.curTid (f s.curC.threads[s.curTid]) } :=
    State.core_modCore_same _ _ _
  rw [h]; rfl

/-- Completing with a result is one change of the current thread. -/
theorem State.finish_eq_modCur (s : State) (d : SReg) (v : Word) : s.finish d v = s.modCur (fun t => (t.setSreg d v).advance) := by
  simp only [State.finish, State.advance, State.setSreg, State.modCur_modCur]

/-- Of a thread, completing with a result changes pc, lc, le and the scalar registers (R201). -/
theorem Thread.setSreg_advance_frame (t : Thread) (d : SReg) (v : Word) :
    { (t.setSreg d v).advance with pc := t.pc, lc := t.lc, le := t.le, sregs := t.sregs } = t := by
  have ha := (t.setSreg d v).advance_frame
  have hs : { t.setSreg d v with sregs := t.sregs } = t := by unfold Thread.setSreg; split <;> rfl
  rw [Thread.setSreg_pc, Thread.setSreg_lc, Thread.setSreg_le] at ha
  rw [← ha] at hs
  exact hs

/-- The frame of an instruction that completes with a result (R22, R191). -/
theorem scalarFrame_finish (s : State) (d : SReg) (v : Word) : ScalarFrame s (s.finish d v) [d] := by
  rw [ScalarFrame, State.finish_eq_modCur]
  refine ⟨outsideThread_modCur _ _, State.byteAt_modCur _ _, ?_, fun r hr => ?_⟩
  · rw [State.cur_modCur]; exact s.cur.setSreg_advance_frame d v
  · rw [← State.finish_eq_modCur]; exact State.sreg_finish_other s v (List.ne_of_not_mem_cons hr)

/-- What the destination reads: s0 reads 0 (R22). -/
theorem sreg_finish_dest (s : State) (d : SReg) (v : Word) : (s.finish d v).sreg d = if d = 0 then 0 else v := by
  by_cases h : d = 0
  · simp [State.sreg, Thread.sreg, h]
  · rw [State.sreg_finish_same s v h, if_neg h]

/-- At the last word of an active loop with iterations left control goes back to ls (R201). -/
theorem Thread.advance_again {t : Thread} (hle : t.le ≠ 0) (hoff : t.loopOff = false) (hpc : t.pc = t.le) (hlc : t.lc ≠ 0) :
    t.advance = { t with lc := t.lc - 1, pc := t.ls } := by
  rw [Thread.advance, if_pos (by rw [hoff, hpc]; simpa using hle), if_pos (by simpa using hlc)]

/-- At the last word of an active loop with no iteration left the loop is over (R201). -/
theorem Thread.advance_exit {t : Thread} (hle : t.le ≠ 0) (hoff : t.loopOff = false) (hpc : t.pc = t.le) (hlc : t.lc = 0) :
    t.advance = { t with le := 0, pc := t.pc + 4 } := by
  rw [Thread.advance, if_pos (by rw [hoff, hpc]; simpa using hle), if_neg (by simpa using hlc)]

/-- Settles O3: every scalar form completes by `State.finish`, which changes its destination, pc and the loop counters. -/
theorem scalarFrames : Obligations.ScalarFrames := by
  unfold Obligations.ScalarFrames
  refine ⟨fun s d v => ⟨sreg_finish_dest s d v, by simp [State.sreg, Thread.sreg], scalarFrame_finish s d v, ?_, ?_⟩, ?_⟩
  · rintro ⟨hle, hoff, hpc⟩
    have hc := State.cur_finish s d v
    refine ⟨fun hlc => ?_, fun hlc => ?_⟩
    · rw [Thread.advance_again (by simpa using hle) (by simpa using hoff) (by simpa using hpc) (by simpa using hlc)] at hc
      simp [hc]
    · rw [Thread.advance_exit (by simpa using hle) (by simpa using hoff) (by simpa using hpc) (by simpa using hlc)] at hc
      simp [hc, hlc]
  · intro h
    have hplain : s.cur.le = 0 ∨ s.cur.loopOff = true ∨ s.cur.pc ≠ s.cur.le := by
      by_contra hn
      push Not at hn
      exact h ⟨hn.1, by simpa using hn.2.1, hn.2.2⟩
    have hc := State.cur_finish s d v
    rw [Thread.advance_plain _ (by simpa using hplain)] at hc
    simp [hc]
  · intro i d s t hi ht
    split at hi
    case h_44 => exact hi.elim
    all_goals
      subst hi
      cases ht
      exact scalarFrame_finish s _ _

end Sys2Proof.Machine
end

section
/-!
PROOFS. A lane word that does not run: the lanes, a running block, stream misuse and a strip that cannot be popped (spec 02 R25, 07 R139,
10 R177 and R185).
-/

namespace Sys2Proof.Machine

/-! ## What a trap leaves -/

/-- A trap is a change of the current thread. -/
theorem State.trap_eq_modCur (s : State) (tr : Trap) :
    s.trap tr = s.modCur (fun t => t.enterTrap (trapLevel s t tr) tr s.cur.pc) := rfl

/-- After a trap the set of the running level is the one that the trap has written (R307). -/
theorem Thread.trapSet_enterTrap (t : Thread) (lvl : Priv) (tr : Trap) (pc : Word) :
    (t.enterTrap lvl tr pc).trapSet (t.enterTrap lvl tr pc).priv = (t.trapSet lvl).enter t tr pc := by
  cases lvl <;> rfl

theorem State.trapSet_trap (s : State) (tr : Trap) :
    (s.trap tr).cur.trapSet (s.trap tr).cur.priv = (s.cur.trapSet (trapLevel s s.cur tr)).enter s.cur tr s.cur.pc := by
  rw [State.trap_eq_modCur, State.cur_modCur, Thread.trapSet_enterTrap]

theorem State.vreg_trap (s : State) (tr : Trap) (r : VReg) : (s.trap tr).vreg r = s.vreg r := by
  rw [State.trap_eq_modCur, State.vreg_modCur]

/-! ## Issue -/

section Issue

variable {s s0 : State} {op : LaneOp}

/-- Behind a running block of its own the thread waits (R185). -/
theorem issueLane_blocked (ha : acquireLanes s = some s0) (hb : s0.blockRuns = true) : issueLane op s = .next (s0.block .block) := by
  simp only [issueLane, withLanes, ha, hb, ↓reduceIte]

/-- With the lanes and no running block the word runs. -/
theorem issueLane_runs (ha : acquireLanes s = some s0) (hb : s0.blockRuns = false) : issueLane op s = runLane op s0 State.advance := by
  simp only [issueLane, withLanes, ha, hb, Bool.false_eq_true, ↓reduceIte]

/-- What the stream checks find is a trap before any element (R139). -/
theorem runLane_misused {fin : State → State} {tr : Trap} (h : laneCheck s op (laneEnv s) = some tr) :
    runLane op s fin = .next (s.trap tr) := by
  simp only [runLane, h]

/-- A word whose source's strip cannot be popped takes the fault, and the refusals that answered it are forgotten (R139, R332). -/
theorem runLane_popTrap {fin : State → State} {s1 : State} {tr : Trap} (h : laneCheck s op (laneEnv s) = none)
    (hp : popAll s (laneEnv s).vl (sewOf (laneEnv s).vtype) op.srcs.eraseDups = (s1, some (.trap tr))) :
    runLane op s fin = .next ((s1.modCur (fun t => { t with answered := t.answered.filter (fun x => x.2) })).trap tr) := by
  simp only [runLane, h, hp]

/-- A word whose source's strip lies on an absent host page waits for the page (R332). -/
theorem runLane_popAbsent {fin : State → State} {s1 : State} {p : Nat} (h : laneCheck s op (laneEnv s) = none)
    (hp : popAll s (laneEnv s).vl (sewOf (laneEnv s).vtype) op.srcs.eraseDups = (s1, some (.absent p))) :
    runLane op s fin = .next ((requestPage s1 s1.curPart p).block (.hostPage p true)) := by
  simp only [runLane, h, hp]

end Issue

/-! ## Stream checks -/

section Checks

variable {s : State} {op : LaneOp} {e : LaneEnv} {n : VReg} {b : Binding}

@[simp] theorem boundTrap_none : boundTrap s none = none := rfl
theorem boundTrap_of_bound (h : s.curC.vec.bound n = some b) : boundTrap s (some n) = some (misuse n) := by simp [boundTrap, h]
theorem boundTrap_of_unbound (h : s.curC.vec.bound n = none) : boundTrap s (some n) = none := by simp [boundTrap, h]

/-- A bound destination is misuse. -/
theorem laneCheck_dest (hd : op.dest = some n) (hb : s.curC.vec.bound n = some b) : laneCheck s op e = some (misuse n) := by
  simp only [laneCheck, hd, boundTrap_of_bound hb]

/-- A bound replicated operand is misuse (R25). -/
theorem laneCheck_rep {d : VReg} (hd : op.dest = some d) (hu : s.curC.vec.bound d = none) (hr : op.rep = some n)
    (hb : s.curC.vec.bound n = some b) : laneCheck s op e = some (misuse n) := by
  simp only [laneCheck, hd, hr, boundTrap_of_unbound hu, boundTrap_of_bound hb]

/-- Otherwise the sources decide. -/
theorem laneCheck_srcs {d : VReg} (hd : op.dest = some d) (hu : s.curC.vec.bound d = none) (hr : op.rep = none) :
    laneCheck s op e = popCheck s e.vl (sewOf e.vtype) op.srcs.eraseDups := by
  simp only [laneCheck, hd, hr, boundTrap_of_unbound hu, boundTrap_none]

/-- A strip of another width than asked, or of fewer elements than asked, is misuse (R139). -/
theorem popCheck_misused {vl sew : Nat} (hb : s.curC.vec.bound n = some b) (hh : b.held = false)
    (h : sew ≠ blkEs b.block ∨ blkCount b.block < b.popped + vl) : popCheck s vl sew [n] = some (misuse n) := by
  have hf : (sew != blkEs b.block || decide (b.popped + vl > blkCount b.block)) = true := by simpa using h
  simp [popCheck, hb, hh, hf]

end Checks

/-- Settles O28: every lane member is issued by `issueLane`, whose waits come first, then the stream checks in the order destination,
replicated operand, sources, then the pops. -/
theorem laneWaitsAndStreamMisuse : Obligations.LaneWaitsAndStreamMisuse := by
  unfold Obligations.LaneWaitsAndStreamMisuse
  refine ⟨fun s s0 vd va vb rep mk md ma d => ⟨fun ha => ?_, fun ha hb => ?_⟩, fun s s0 vd va vb rep mk b ha hb => ?_⟩
  · exact ⟨issueLane_waits ha, issueLane_waits ha, issueLane_waits ha, issueLane_waits ha, issueLane_waits ha, issueLane_waits ha⟩
  · exact ⟨issueLane_blocked ha hb, issueLane_blocked ha hb, issueLane_blocked ha hb, issueLane_blocked ha hb⟩
  refine ⟨fun hd => ?_, fun hu hrep hr => ?_, fun hu hs hh hw => ?_, fun s1 hu hc => ?_⟩
  · exact ⟨(issueLane_runs ha hb).trans (runLane_misused (laneCheck_dest rfl hd)),
      (issueLane_runs ha hb).trans (runLane_misused (laneCheck_dest rfl hd))⟩
  · exact (issueLane_runs ha hb).trans (runLane_misused (laneCheck_rep rfl hu (if_neg hrep) hr))
  · exact (issueLane_runs ha hb).trans (runLane_misused ((laneCheck_srcs (op := opVmv vd va mk) rfl hu rfl).trans (popCheck_misused hs hh hw)))
  have hchk : laneCheck s0 (opVmv vd va mk) (laneEnv s0) = none := (laneCheck_srcs rfl hu rfl).trans hc
  refine ⟨fun p hp => (issueLane_runs ha hb).trans (runLane_popAbsent hchk hp), fun tr hp => ?_⟩
  refine ⟨_, (issueLane_runs ha hb).trans (runLane_popTrap hchk hp), ?_⟩
  rw [State.trapSet_trap]
  exact ⟨rfl, rfl, by simp [TrapSet.enter], fun r => by rw [State.vreg_trap, State.vreg_modCur]⟩

end Sys2Proof.Machine
end

section
/-!
PROOFS. Where the current thread stands: what translation, fetching and the pops of streams keep of it (spec 02 R230, R231; 05 R53;
07 R139).
-/

namespace Sys2Proof.Machine

-- One proof at a time: those that wait for the same equations would each hold a thread and its stack.
set_option Elab.async false

/-- The same thread is the current one, and it stands where it stood: pc, rptst and captured frame (R230, R231). -/
def SamePlace (a s : State) : Prop :=
  s.curCore = a.curCore ∧ s.curTid = a.curTid ∧ s.cur.pc = a.cur.pc ∧ s.cur.rptst = a.cur.rptst ∧ s.cur.frame = a.cur.frame

variable {a s : State}

theorem SamePlace.refl (s : State) : SamePlace s s := ⟨rfl, rfl, rfl, rfl, rfl⟩

/-! ## Updates -/

/-- A change of anything but the cores. -/
theorem samePlace_of_cores {t : State} (h : SamePlace a s) (hk : t.curCore = s.curCore) (ht : t.curTid = s.curTid) (hc : t.cores = s.cores) :
    SamePlace a t := by
  have hcur : t.cur = s.cur := by simp only [State.cur, State.thr, State.core, hk, ht, hc]
  obtain ⟨h1, h2, h3, h4, h5⟩ := h
  exact ⟨hk.trans h1, ht.trans h2, by rw [hcur, h3], by rw [hcur, h4], by rw [hcur, h5]⟩

/-- A change of a core that leaves its threads alone. -/
theorem samePlace_modCore {k : CoreId} {f : Core → Core} (h : SamePlace a s) (hf : ∀ c, (f c).threads = c.threads) :
    SamePlace a (s.modCore k f) := by
  have hcur : (s.modCore k f).cur = s.cur := by
    show ((s.modCore k f).core s.curCore).threads[s.curTid] = (s.core s.curCore).threads[s.curTid]
    by_cases e : s.curCore = k
    · subst e; simp only [State.core_modCore_same, hf]
    · rw [State.core_modCore_other s f e]
  obtain ⟨h1, h2, h3, h4, h5⟩ := h
  exact ⟨h1, h2, by rw [hcur, h3], by rw [hcur, h4], by rw [hcur, h5]⟩

theorem samePlace_modVec {f : VecUnit → VecUnit} (h : SamePlace a s) : SamePlace a (s.modVec f) := samePlace_modCore h fun _ => rfl

/-- A change of the current thread beside its place. -/
theorem samePlace_modCur {f : Thread → Thread} (h : SamePlace a s)
    (hf : ∀ t : Thread, (f t).pc = t.pc ∧ (f t).rptst = t.rptst ∧ (f t).frame = t.frame) : SamePlace a (s.modCur f) := by
  obtain ⟨h1, h2, h3, h4, h5⟩ := h
  obtain ⟨f1, f2, f3⟩ := hf s.cur
  refine ⟨h1, h2, ?_, ?_, ?_⟩ <;> rw [State.cur_modCur] <;> simp only [*]

theorem samePlace_foldl {α : Type} {f : State → α → State} {l : List α} (h : SamePlace a s) (hf : ∀ s x, SamePlace a s → SamePlace a (f s x)) :
    SamePlace a (l.foldl f s) := by
  induction l generalizing s with
  | nil => exact h
  | cons x l ih => exact ih (hf s x h)

/-! ## Translation (R53 to R61) -/

theorem samePlace_orPte {bits pa : Nat} (h : SamePlace a s) : SamePlace a (orPte s bits pa) := by
  unfold orPte
  split
  · exact samePlace_of_cores h rfl rfl rfl
  · split
    · exact samePlace_of_cores h rfl rfl rfl
    · exact h

theorem samePlace_noteUse {ag : XAgent} {rq : XReq} (h : SamePlace a s) : SamePlace a (s.noteUse ag rq) := by
  unfold State.noteUse
  split
  · exact h
  · exact samePlace_of_cores h rfl rfl rfl

theorem samePlace_noteAts {f : FuncId} {t : Tgt} (h : SamePlace a s) : SamePlace a (s.noteAts f t) := by
  unfold State.noteAts
  split
  · split
    · exact h
    · exact samePlace_of_cores h rfl rfl rfl
  · exact h

theorem samePlace_modEngine {k : EngineId} {f : Engine → Engine} (h : SamePlace a s) : SamePlace a (s.modEngine k f) :=
  samePlace_of_cores h rfl rfl rfl
theorem samePlace_modCluster {k : ClusterId} {f : ClusterX → ClusterX} (h : SamePlace a s) : SamePlace a (s.modCluster k f) :=
  samePlace_of_cores h rfl rfl rfl

theorem samePlace_unitAdd {u : XUnit} {e : TlbEntry} (h : SamePlace a s) : SamePlace a (unitAdd s u e) := by
  cases u with
  | engine k => exact samePlace_modEngine h
  | _ => exact samePlace_modCore h fun _ => rfl

theorem samePlace_unitDrop {u : XUnit} {rq : XReq} {vpn : Nat} (h : SamePlace a s) : SamePlace a (unitDrop s u rq vpn) := by
  cases u with
  | engine k => exact samePlace_modEngine h
  | _ => exact samePlace_modCore h fun _ => rfl

theorem samePlace_cacheWalk {u : XUnit} {rq : XReq} {va : Nat} {w : Walked} (h : SamePlace a s) : SamePlace a (cacheWalk s u rq va w) := by
  unfold cacheWalk
  grind [samePlace_modCluster, samePlace_unitAdd]

theorem samePlace_walkLeaf {u : XUnit} {rq : XReq} {write again : Bool} {va : Nat} (h : SamePlace a s) :
    SamePlace a (walkLeaf s u rq write again va).1 := by
  unfold walkLeaf
  grind [Core.count_threads, samePlace_foldl, samePlace_modCore, samePlace_orPte]

theorem samePlace_leafOf {u : XUnit} {rq : XReq} {write again : Bool} {va : Nat} (h : SamePlace a s) :
    SamePlace a (leafOf s u rq write again va).1 := by
  unfold leafOf
  extract_lets vpn usable s0 walk
  have h0 : SamePlace a s0 := samePlace_noteUse h
  have hwalk (s : State) (hs : SamePlace a s) : SamePlace a (walk s).1 := by
    grind [samePlace_noteUse, samePlace_walkLeaf, samePlace_cacheWalk]
  clear_value walk s0
  split
  · exact hwalk _ (samePlace_unitDrop h0)
  · split
    · grind [samePlace_unitDrop]
    · have h1 : SamePlace a (match u with | .gather k => s0.modCore k (fun c => c.count 6 (unitTid s0 u) 1) | _ => s0) := by
        grind [samePlace_modCore, Core.count_threads]
      grind [samePlace_noteUse, samePlace_unitAdd]

theorem samePlace_checkLeaf {rq : XReq} {k : AccKind} {va : Word} {hostOk : Bool} {lf : LeafInfo} (h : SamePlace a s) :
    SamePlace a (checkLeaf s rq k va hostOk lf).1 := by
  unfold checkLeaf
  grind [samePlace_noteAts]

theorem samePlace_translate {u : XUnit} {rq : XReq} {k : AccKind} {va : Word} {hostOk : Bool} (h : SamePlace a s) :
    SamePlace a (translate s u rq k va hostOk).1 := by
  unfold translate
  grind [samePlace_checkLeaf, samePlace_leafOf]

theorem samePlace_poisonRead {b : DieId × Fin 16} (h : SamePlace a s) : SamePlace a (s.poisonRead b) :=
  samePlace_modCur (samePlace_of_cores h rfl rfl rfl) fun _ => ⟨rfl, rfl, rfl⟩

/-! ## Fetches (R199) -/

theorem samePlace_fetchWord {va : Word} (h : SamePlace a s) : SamePlace a (fetchWord s va).1 := by
  unfold fetchWord
  grind [samePlace_translate, samePlace_poisonRead]

theorem samePlace_fetchWords {va : Word} {n : Nat} (h : SamePlace a s) : SamePlace a (fetchWords s va n).1 := by
  induction n generalizing s va with
  | zero => exact h
  | succ n ih => unfold fetchWords; grind [samePlace_fetchWord]

/-! ## Pops (R139) -/

theorem samePlace_xferAccess {u : XUnit} {rq : XReq} {k : AccKind} {hostOk : Bool} {used : List UsedPage} {va : Word} (h : SamePlace a s) :
    SamePlace a (xferAccess s u rq k hostOk used va).1 := by
  unfold xferAccess
  grind [samePlace_translate]

theorem samePlace_xferPieces {u : XUnit} {rq : XReq} {k : AccKind} {hostOk : Bool} {used : List UsedPage} {va : Word} {n : Nat}
    (h : SamePlace a s) : SamePlace a (xferPieces s u rq k hostOk used va n).1 := by
  unfold xferPieces
  grind [samePlace_xferAccess]

theorem samePlace_boxRead {k : CoreId} {rq : XReq} {b : BitVec 512} {used : List UsedPage} {n : Nat} (h : SamePlace a s) :
    SamePlace a (boxRead s k rq b used n).1 := by
  unfold boxRead
  grind [samePlace_xferPieces]

theorem samePlace_boxReadRun {k : CoreId} {rq : XReq} {b : BitVec 512} {used : List UsedPage} {n cnt : Nat} (h : SamePlace a s) :
    SamePlace a (boxReadRun s k rq b used n cnt).1 := by
  induction cnt generalizing s used n with
  | zero => exact h
  | succ cnt ih => unfold boxReadRun; grind [samePlace_boxRead]

theorem samePlace_popStrip {n : VReg} {r : Fin 8} {b : Binding} {vl sew : Nat} (h : SamePlace a s) :
    SamePlace a (popStrip s n r b vl sew).1 := by
  unfold popStrip State.modV
  grind [samePlace_boxReadRun, samePlace_modVec, samePlace_poisonRead]

theorem samePlace_popAll {vl sew : Nat} {l : List VReg} (h : SamePlace a s) : SamePlace a (popAll s vl sew l).1 := by
  induction l generalizing s with
  | nil => exact h
  | cons n l ih => unfold popAll; grind [samePlace_popStrip]

/-! ## The lanes (R177) -/

/-- Two changes of one core make one. -/
theorem State.modCore_modCore (s : State) (k : CoreId) (f g : Core → Core) : (s.modCore k f).modCore k g = s.modCore k (fun c => g (f c)) := by
  simp [State.modCore, Vector.set_set]

theorem State.modCore_congr {s : State} {k : CoreId} {f g : Core → Core} (h : f (s.core k) = g (s.core k)) : s.modCore k f = s.modCore k g := by
  have h' : f s.cores[k] = g s.cores[k] := h
  simp only [State.modCore, h']

/-- The lanes do not depend on what the thread that takes them has in its rptst. -/
theorem takeLanes_rptst (s : State) (w : Word) :
    takeLanes (s.modCur (fun t => { t with rptst := w })) s.curTid = (takeLanes s s.curTid).modCur (fun t => { t with rptst := w }) := by
  have hcur := State.cur_modCur s (fun t => { t with rptst := w })
  have hv : ((s.modCur (fun t => { t with rptst := w })).thr s.curCore s.curTid).vecSaved = (s.thr s.curCore s.curTid).vecSaved := by
    have h := congrArg Thread.vecSaved hcur; exact h
  unfold takeLanes
  rw [show (s.modCur (fun t => { t with rptst := w })).curCore = s.curCore from rfl, hv]
  cases (s.thr s.curCore s.curTid).vecSaved with
  | none => simp only [State.modCur, State.modVec, State.modCurC, State.modThr, State.modCore_curCore, State.modCore_curTid, State.modCore_modCore]
  | some u =>
    simp only [State.modCur, State.modVec, State.modCurC, State.modThr, State.modCore_curCore, State.modCore_curTid, State.modCore_modCore]
    exact State.modCore_congr (by simp [Vector.set_set])

theorem acquireLanes_rptst (s : State) (w : Word) :
    acquireLanes (s.modCur (fun t => { t with rptst := w })) = (acquireLanes s).map (fun u => u.modCur (fun t => { t with rptst := w })) := by
  have hh : (s.modCur (fun t => { t with rptst := w })).curC.vec = s.curC.vec := State.vec_modCur s _
  have hp : (s.modCur (fun t => { t with rptst := w })).cur.relPending = s.cur.relPending := by rw [State.cur_modCur]
  have ht : (s.modCur (fun t => { t with rptst := w })).curTid = s.curTid := rfl
  simp only [acquireLanes, hh, hp, ht, takeLanes_rptst]
  split <;> split <;> rfl

theorem samePlace_takeLanes (h : SamePlace a s) : SamePlace a (takeLanes s s.curTid) := by
  unfold takeLanes
  split
  · exact samePlace_modCur (samePlace_modVec h) fun _ => ⟨rfl, rfl, rfl⟩
  · exact samePlace_modVec h

theorem samePlace_acquireLanes {s0 : State} (h : SamePlace a s) (h0 : acquireLanes s = some s0) : SamePlace a s0 := by
  unfold acquireLanes at h0
  grind [samePlace_takeLanes]

end Sys2Proof.Machine
end

section
/-!
PROOFS. Repeat frames: which words make one illegal, where a captured one stands, and the run of one word (spec 02 R30, R31; 10 R177;
12 R230, R231).
-/

namespace Sys2Proof.Machine

/-! ## The words of a frame (R31) -/

/-- Execution k of a captured word has a legal form. -/
def LegalForm (dd da db : Nat) (w : Word32) (k : Nat) : Prop := ∃ x, (captured w).bind (stagger dd da db k) = some x ∧ x.wellFormed = true

section Words

variable {dd da db reps o : Nat} {atLe : Nat → Bool} {w : Word32} {i : Instr} {l : List Word32}

theorem legalForm_iff (hc : captured w = some i) {k : Nat} :
    LegalForm dd da db w k ↔ ∃ x, stagger dd da db k i = some x ∧ x.wellFormed = true := by
  simp only [LegalForm, hc, Option.bind_some]

/-- The test of the search for the first illegal execution. -/
theorem not_legalForm_iff (hc : captured w = some i) {k : Nat} :
    (match stagger dd da db k i with | some x => !x.wellFormed | none => true) = true ↔ ¬ LegalForm dd da db w k := by
  rw [legalForm_iff hc]
  cases stagger dd da db k i <;> simp

theorem staggerFault_eq_none (hc : captured w = some i) (h : ∀ k, k < reps → LegalForm dd da db w k) : staggerFault dd da db reps i = none := by
  refine List.find?_eq_none.2 fun k hk hbad => ?_
  exact (not_legalForm_iff hc).1 hbad (h k (List.mem_range.1 hk))

theorem staggerFault_eq_some (hc : captured w = some i) {k : Nat} (hk : k < reps) (hbad : ¬ LegalForm dd da db w k)
    (h : ∀ q, q < k → LegalForm dd da db w q) : staggerFault dd da db reps i = some k := by
  refine List.find?_range_eq_some.2 ⟨(not_legalForm_iff hc).2 hbad, List.mem_range.2 hk, fun q hq => ?_⟩
  rw [Bool.not_eq_true', Bool.eq_false_iff]
  exact fun hx => (not_legalForm_iff hc).1 hx (h q hq)

/-- A word that may be captured, does not stand at le and is legal at every execution is passed. -/
theorem frameFault_cons_fits (hr : 0 < reps) (hle : atLe o = false) (h : ∀ k, k < reps → LegalForm dd da db w k) :
    frameFault dd da db reps atLe o (w :: l) = frameFault dd da db reps atLe (o + 1) l := by
  cases hc : captured w with
  | none =>
    obtain ⟨x, hx, -⟩ := h 0 hr
    simp [hc] at hx
  | some i => simp only [frameFault, hc, hle, staggerFault_eq_none hc h, Bool.false_eq_true, ↓reduceIte]

theorem frameFault_cons_refused (h : captured w = none ∨ atLe o = true) : frameFault dd da db reps atLe o (w :: l) = some (o + 1) := by
  cases hc : captured w with
  | none => simp only [frameFault, hc]
  | some i =>
    have hle : atLe o = true := h.resolve_left (by simp [hc])
    simp only [frameFault, hc, hle, ↓reduceIte]

theorem frameFault_cons_illegal (hc : (captured w).isSome = true) (hle : atLe o = false) {k : Nat} (hk : k < reps)
    (hbad : ¬ LegalForm dd da db w k) (h : ∀ q, q < k → LegalForm dd da db w q) :
    frameFault dd da db reps atLe o (w :: l) = some (o + 1 + k * 256) := by
  obtain ⟨i, hi⟩ := Option.isSome_iff_exists.1 hc
  simp only [frameFault, hi, hle, staggerFault_eq_some hi hk hbad h, Bool.false_eq_true, ↓reduceIte]

/-- Words that are passed leave the search to the rest. -/
theorem frameFault_drop (hr : 0 < reps) {j : Nat} (hj : j ≤ l.length)
    (h : ∀ q, q < j → atLe (o + q) = false ∧ ∀ k, k < reps → LegalForm dd da db (l.getD q 0) k) :
    frameFault dd da db reps atLe o l = frameFault dd da db reps atLe (o + j) (l.drop j) := by
  induction j generalizing o l with
  | zero => rfl
  | succ j ih =>
    cases l with
    | nil => simp at hj
    | cons w l =>
      obtain ⟨hle, hleg⟩ := h 0 (by omega)
      have hrest (q : Nat) (hq : q < j) : atLe (o + 1 + q) = false ∧ ∀ k, k < reps → LegalForm dd da db (l.getD q 0) k := by
        obtain ⟨hle, hleg⟩ := h (q + 1) (by omega)
        exact ⟨by rwa [Nat.add_assoc, Nat.add_comm 1], by simpa using hleg⟩
      calc frameFault dd da db reps atLe o (w :: l)
          = frameFault dd da db reps atLe (o + 1) l := frameFault_cons_fits hr hle (by simpa using hleg)
        _ = frameFault dd da db reps atLe (o + (j + 1)) (l.drop j) := by rw [ih (by simpa using hj) hrest, Nat.add_assoc, Nat.add_comm 1]

/-- The search comes to a word behind words that are passed. -/
theorem frameFault_at (hr : 0 < reps) {j : Nat} (hj : j < l.length)
    (h : ∀ q, q < j → atLe q = false ∧ ∀ k, k < reps → LegalForm dd da db (l.getD q 0) k) :
    frameFault dd da db reps atLe 0 l = frameFault dd da db reps atLe j (l.getD j 0 :: l.drop (j + 1)) := by
  rw [frameFault_drop hr hj.le (by simpa using h), Nat.zero_add, List.drop_eq_getElem_cons hj, List.getD_eq_getElem _ _ hj]

theorem frameFault_eq_none (hr : 0 < reps) (h : ∀ q, q < l.length → atLe q = false ∧ ∀ k, k < reps → LegalForm dd da db (l.getD q 0) k) :
    frameFault dd da db reps atLe 0 l = none := by
  rw [frameFault_drop hr le_rfl (by simpa using h), List.drop_length, frameFault]

end Words

/-! ## The capture of a frame -/

theorem Thread.endsAt_iff (t : Thread) (a : Word) : (t.loopActive && t.le == a) = true ↔ t.le ≠ 0 ∧ t.loopOff = false ∧ t.le = a := by
  simp [Thread.loopActive, and_assoc]
theorem Thread.endsAt_eq_false {t : Thread} {a : Word} (h : ¬ (t.le ≠ 0 ∧ t.loopOff = false ∧ t.le = a)) :
    (t.loopActive && t.le == a) = false := Bool.eq_false_iff.2 fun hx => h ((t.endsAt_iff a).1 hx)

section Capture

variable {word : Word} {n reps dd da db : Nat} {s s1 : State} {cont : List Word32 → State → Out} {ws : List Word32}

/-- Words captured before are run from, with no fetch (R230). -/
theorem captureFrame_held {x : Word32} (h : s.cur.frame = x :: ws) : captureFrame word n reps dd da db s cont = cont ws s := by
  simp only [captureFrame, h]

theorem captureFrame_headAtLe (h : s.cur.frame = []) (hle : (s.cur.loopActive && s.cur.le == s.cur.pc) = true) :
    captureFrame word n reps dd da db s cont = badFrame word 0 s := by
  simp only [captureFrame, h, hle, ↓reduceIte]

theorem captureFrame_unfetched {k : State → Out} (h : s.cur.frame = []) (hle : (s.cur.loopActive && s.cur.le == s.cur.pc) = false)
    (hf : fetchWords s (s.cur.pc + 4) n = (s1, .error k)) : captureFrame word n reps dd da db s cont = k s1 := by
  simp only [captureFrame, h, hle, hf, Bool.false_eq_true, ↓reduceIte]

theorem captureFrame_illegal {x : Nat} (h : s.cur.frame = []) (hle : (s.cur.loopActive && s.cur.le == s.cur.pc) = false)
    (hf : fetchWords s (s.cur.pc + 4) n = (s1, .ok ws))
    (hx : frameFault dd da db reps (fun j => s.cur.loopActive && s.cur.le == s.cur.pc + BitVec.ofNat 64 (4 + 4 * j)) 0 ws = some x) :
    captureFrame word n reps dd da db s cont = badFrame word x s1 := by
  simp only [captureFrame, h, hle, hf, hx, Bool.false_eq_true, ↓reduceIte]

theorem captureFrame_fresh (h : s.cur.frame = []) (hle : (s.cur.loopActive && s.cur.le == s.cur.pc) = false)
    (hf : fetchWords s (s.cur.pc + 4) n = (s1, .ok ws))
    (hx : frameFault dd da db reps (fun j => s.cur.loopActive && s.cur.le == s.cur.pc + BitVec.ofNat 64 (4 + 4 * j)) 0 ws = none) :
    captureFrame word n reps dd da db s cont = cont ws (s1.modCur (fun t => { t with frame := word.setWidth 32 :: ws })) := by
  simp only [captureFrame, h, hle, hf, hx, Bool.false_eq_true, ↓reduceIte]

end Capture

/-! ## The word at which a frame stands (R231) -/

/-- What rpt does with the captured words once the thread has the lanes (R230). -/
def runFrame (word : Word) (n reps dd da db : Nat) (ws : List Word32) (s : State) : Out :=
  let j := if rptActive s.cur.rptst then bitsOf s.cur.rptst.toNat 1 4 else 0
  let k := if rptActive s.cur.rptst then bitsOf s.cur.rptst.toNat 5 6 else 0
  if j ≥ n || k ≥ reps then badFrame word 0xFF s
  else match (captured (ws.getD j 0)).bind (stagger dd da db k) with
    | none => badFrame word (j + 1) (s.modCur (fun t => { t with rptst := rptWord j k }))
    | some x => runCaptured x (s.cur.pc + BitVec.ofNat 64 (4 + 4 * j)) (rptNext n reps j k) (s.modCur (fun t => { t with rptst := rptWord j k }))

/-- rpt captures its frame, waits for the lanes and runs one word. -/
theorem exec_rpt (n : Fin 16) (reps : Fin 64) (dd da db : Fin 8) (s : State) :
    exec (.rpt n reps dd da db) s = captureFrame (wordOf (.rpt n reps dd da db)) (n.val + 1) (reps.val + 1) dd.val da.val db.val s
      (fun ws s => withLanes s (runFrame (wordOf (.rpt n reps dd da db)) (n.val + 1) (reps.val + 1) dd.val da.val db.val ws)) := rfl

/-- An rptst value stands at word j of execution k; one that is not active at the first. -/
def StandsAt (r : Word) (j k : Nat) : Prop := (r.getLsbD 0 = false ∧ j = 0 ∧ k = 0) ∨ r = rptWord j k

theorem StandsAt.position {r : Word} {j k : Nat} (h : StandsAt r j k) (hj : j < 16) (hk : k < 64) :
    (if rptActive r then bitsOf r.toNat 1 4 else 0) = j ∧ (if rptActive r then bitsOf r.toNat 5 6 else 0) = k := by
  obtain ⟨hr, rfl, rfl⟩ | rfl := h
  · have ha : rptActive r = false := hr
    simp [ha]
  · have hn : (rptWord j k).toNat = 1 + 2 * j + 32 * k := by
      simp only [rptWord, BitVec.toNat_ofNat]; omega
    have ha : rptActive (rptWord j k) = true := by
      simp only [rptActive, BitVec.getLsbD, hn, Nat.testBit_zero, decide_eq_true_eq]; omega
    simp only [ha, ↓reduceIte, bitsOf, hn]
    omega

section Run

variable {word : Word} {n reps dd da db j k : Nat} {ws : List Word32} {s : State}

theorem runFrame_beyond (h : StandsAt s.cur.rptst j k) (hj : j < 16) (hk : k < 64) (hout : n ≤ j ∨ reps ≤ k) :
    runFrame word n reps dd da db ws s = badFrame word 0xFF s := by
  obtain ⟨ej, ek⟩ := h.position hj hk
  simp only [runFrame, ej, ek]
  exact if_pos (by simpa using hout)

theorem runFrame_word {x : Instr} (h : StandsAt s.cur.rptst j k) (hj : j < 16) (hk : k < 64) (hjn : j < n) (hkr : k < reps)
    (hx : (captured (ws.getD j 0)).bind (stagger dd da db k) = some x) :
    runFrame word n reps dd da db ws s
      = runCaptured x (s.cur.pc + BitVec.ofNat 64 (4 + 4 * j)) (rptNext n reps j k) (s.modCur (fun t => { t with rptst := rptWord j k })) := by
  obtain ⟨ej, ek⟩ := h.position hj hk
  simp only [runFrame, ej, ek, hx]
  exact if_neg (by simp; omega)

end Run

/-! ## The run of a word to its end -/

/-- A lane word whose effect runs to its end completes as its issuer has it. -/
theorem runLane_done {s s0 s1 u : State} {op : LaneOp} {e : LaneEnv} {fin : State → State} (h : LaneGo s op.dest op.srcs op.rep op.split e s1)
    (ha : acquireLanes s = some s0) (hd : op.run e s1 = .done u) : runLane op s0 fin = .next (laneFinish u fin) := by
  obtain ⟨s0', ha', -, rfl, h1, h2, h3, h4, h5⟩ := h
  obtain rfl : s0' = s0 := Option.some.inj (ha'.symm.trans ha)
  have h5 := cut_none h5
  simp only [runLane, laneCheck_none h1 h2 h3, h4, h5, hd]

section Finish

variable (s : State) (g : Thread → Thread)

theorem vreg_laneFinish (r : VReg) : (laneFinish s (fun u => u.modCur g)).vreg r = s.vreg r := by
  simp [laneFinish, State.vreg, VecUnit.release]
theorem cur_laneFinish : (laneFinish s (fun u => u.modCur g)).cur = g { s.cur.reissued with vstart := 0 } := by
  simp only [laneFinish, State.cur_count, State.cur_modCur, State.cur_modVec]
theorem byteAt_laneFinish : SameBytes s (laneFinish s (fun u => u.modCur g)) :=
  (State.byteAt_modVec _ _).trans ((State.byteAt_modCur _ _).trans ((State.byteAt_modCur _ _).trans (State.byteAt_count _ _ _)))

end Finish

theorem Thread.reissued_frame (t : Thread) : t.reissued.frame = t.frame := by
  unfold Thread.reissued Thread.modTrapSet
  split
  · split <;> rfl
  · rfl

/-- An elementwise word that meets no enabled exception leaves the thread where it stands. -/
theorem finishElems_place {e : LaneEnv} {s : State} {vd : VReg} {w : Nat} {r : ElemRun} {tag : VecReg → VTag} (ht : r.trap = none) :
    ∃ u, finishElems e s vd w r tag = .done u ∧ u.cur.pc = s.cur.pc ∧ u.cur.frame = s.cur.frame := by
  simp only [finishElems, finishRun, ht, accrue_saturate]
  refine ⟨_, rfl, ?_⟩
  rw [State.cur_modV]
  split <;> simp

/-! ## Additions (R221) -/

theorem wrapInt_natCast (n x : Nat) : wrapInt n (x : Int) = x % 2 ^ n := by
  rw [wrapInt, ← Int.natCast_mod, Int.toNat_natCast]

/-- What the loop reads depends on the new values modulo the element width. -/
theorem loopElem_congr {s : State} {e : LaneEnv} {mk : MkField} {vd vb : VReg} {rep : Rep} {f g : Nat → Nat → Nat} {i : Nat}
    (h : ∀ k x, f k x % 2 ^ e.n = g k x % 2 ^ e.n) : loopElem s e mk vd vb rep f i = loopElem s e mk vd vb rep g i := by
  simp only [loopElem, h]

/-- The sum that an executing element of vadd holds. -/
theorem vadd_element {s : State} {e : LaneEnv} {mk : MkField} {vd va vb : VReg} {rep : Rep} {i : Nat} (hx : Executes e s.curC.vec mk i) :
    (eInt e.n (srcElem s e va i + loopSource e s.curC.vec mk vd vb rep (fun k x => (eInt e.n (srcElem s e va k + x : Nat)).bits) i : Nat)).bits
        % 2 ^ e.n
      = (srcElem s e va i + loopElem s e mk vd vb rep (fun k x => srcElem s e va k + x) i) % 2 ^ e.n := by
  have hbits (x : Nat) : (eInt e.n (x : Int)).bits = x % 2 ^ e.n := wrapInt_natCast e.n x
  simp only [hbits, Nat.mod_mod, loopSource_eq hx]
  rw [loopElem_congr (g := fun k x => srcElem s e va k + x) (fun _ _ => Nat.mod_mod _ _)]

/-- An addition that is issued completes with the sums as its loop computes them. -/
theorem issueVadd_done {s s1 : State} {vd va vb : VReg} {rep : Rep} {mk : MkField} {e : LaneEnv}
    (h : LaneGo s (some vd) [va, vb] (repOf rep vb) true e s1) :
    ∃ t, issueLane (opVadd vd va vb rep mk) s = .next t
      ∧ LaneWrote s1 t e vd e.n mk (fun i => (eInt e.n (srcElem s1 e va i
          + loopSource e s1.curC.vec mk vd vb rep (fun k x => (eInt e.n (srcElem s1 e va k + x : Nat)).bits) i : Nat)).bits) := by
  have hop : LaneGo s (opVadd vd va vb rep mk).dest (opVadd vd va vb rep mk).srcs (opVadd vd va vb rep mk).rep (opVadd vd va vb rep mk).split e s1 := h
  exact intOp_done hop

/-- An addition, issued or captured: whatever completes it finds the sums in its destination and, beside the thread, all else as before. -/
theorem runLane_vadd {s s0 s1 : State} {vd va vb : VReg} {rep : Rep} {mk : MkField} {e : LaneEnv} (g : Thread → Thread)
    (h : LaneGo s (some vd) [va, vb] (repOf rep vb) true e s1) (ha : acquireLanes s = some s0) :
    ∃ t th, runLane (opVadd vd va vb rep mk) s0 (fun u => u.modCur g) = .next t ∧ SameBytes s1 t ∧ (∀ r, r ≠ vd → t.vreg r = s1.vreg r)
      ∧ (∀ m, m < 32768 / e.n →
          (Executes e s1.curC.vec mk m → elemGet (t.vreg vd).bits e.n m =
            (srcElem s1 e va m + loopElem s1 e mk vd vb rep (fun q z => srcElem s1 e va q + z) m) % 2 ^ e.n)
          ∧ (¬ Executes e s1.curC.vec mk m → elemGet (t.vreg vd).bits e.n m = srcElem s1 e vd m))
      ∧ t.cur = g th ∧ th.pc = s1.cur.pc ∧ th.frame = s1.cur.frame := by
  have hu : ∃ u, (opVadd vd va vb rep mk).run e s1 = .done u ∧ u.cur.pc = s1.cur.pc ∧ u.cur.frame = s1.cur.frame :=
    finishElems_place (runElems_all _ _).2
  obtain ⟨u, hu, hpc, hframe⟩ := hu
  obtain ⟨t', ht', ⟨-, -, -, -, -, hbytes, hregs, -⟩, hwrote⟩ := issueVadd_done (mk := mk) h
  obtain rfl : t' = laneFinish u State.advance := by
    have hi : issueLane (opVadd vd va vb rep mk) s = .next (laneFinish u State.advance) := issueLane_done h hu
    injection ht'.symm.trans hi
  have hvreg (r : VReg) : (laneFinish u (fun v => v.modCur g)).vreg r = (laneFinish u State.advance).vreg r :=
    (vreg_laneFinish u g r).trans (vreg_laneFinish u Thread.advance r).symm
  refine ⟨_, _, runLane_done h ha hu, fun p => ?_, fun r hr => ?_, fun m hm => ?_, cur_laneFinish u g, ?_, ?_⟩
  · exact ((byteAt_laneFinish u g p).trans (byteAt_laneFinish u Thread.advance p).symm).trans (hbytes p)
  · exact (hvreg r).trans (hregs r (by simpa using hr))
  · obtain ⟨hin, hout⟩ := hwrote m hm
    rw [hvreg]
    exact ⟨fun hx => (hin hx).trans (vadd_element hx), hout⟩
  · exact u.cur.reissued_keeps.2.1.trans hpc
  · exact u.cur.reissued_frame.trans hframe

/-! ## The run of a captured addition (R230, R231) -/

/-- The thread after a captured word, as `rptNext` leaves it. -/
def rptStep (n reps j k : Nat) (t : Thread) : Thread :=
  if j + 1 < n then { t with rptst := rptWord (j + 1) k, vstart := 0 }
  else if k + 1 < reps then { t with rptst := rptWord 0 (k + 1), vstart := 0 }
  else { t with rptst := 0, vstart := 0, frame := [], pc := t.pc + BitVec.ofNat 64 (4 + 4 * n) }

/-- A captured addition is a lane operation that ends in the frame's step. -/
theorem runCaptured_vadd (vd va vb : VReg) (rep : Rep) (mk : MkField) (pc : Word) (n reps j k : Nat) (s : State) :
    runCaptured (.vadd vd va vb rep mk) pc (rptNext n reps j k) s
      = runLane (opVadd vd va vb rep mk) s (fun u => u.modCur (rptStep n reps j k)) := rfl

section Step

variable {n reps j k : Nat} (t : Thread)

theorem rptStep_vstart : (rptStep n reps j k t).vstart = 0 := by
  unfold rptStep
  split
  · rfl
  · split <;> rfl
theorem rptStep_word (h : j + 1 < n) : rptStep n reps j k t = { t with rptst := rptWord (j + 1) k, vstart := 0 } := if_pos h
theorem rptStep_execution (h : j + 1 = n) (hk : k + 1 < reps) :
    rptStep n reps j k t = { t with rptst := rptWord 0 (k + 1), vstart := 0 } := by
  simp only [rptStep, h, Nat.lt_irrefl, hk, ↓reduceIte]
theorem rptStep_end (h : j + 1 = n) (hk : k + 1 = reps) :
    rptStep n reps j k t = { t with rptst := 0, vstart := 0, frame := [], pc := t.pc + BitVec.ofNat 64 (4 + 4 * n) } := by
  simp only [rptStep, h, hk, Nat.lt_irrefl, ↓reduceIte]

end Step

/-- An operation issued after a change of rptst finds the lanes as before it. -/
theorem LaneGo.of_rptst {s s1 : State} {w : Word} {dest : Option VReg} {srcs : List VReg} {rep : Option VReg} {split : Bool} {e : LaneEnv}
    (h : LaneGo (s.modCur (fun t => { t with rptst := w })) dest srcs rep split e s1) :
    ∃ s0, acquireLanes s = some s0 ∧ s0.blockRuns = false
      ∧ acquireLanes (s.modCur (fun t => { t with rptst := w })) = some (s0.modCur (fun t => { t with rptst := w })) := by
  obtain ⟨s0', ha, hb, -⟩ := h
  rw [acquireLanes_rptst] at ha
  obtain ⟨s0, hs0, rfl⟩ := Option.map_eq_some_iff.1 ha
  rw [State.blockRuns, State.vec_modCur] at hb
  exact ⟨s0, hs0, hb, by rw [acquireLanes_rptst, hs0, Option.map_some]⟩

/-- The lanes and the pops leave the thread where it stands. -/
theorem LaneGo.samePlace {s s1 : State} {dest : Option VReg} {srcs : List VReg} {rep : Option VReg} {split : Bool} {e : LaneEnv}
    (h : LaneGo s dest srcs rep split e s1) : SamePlace s s1 := by
  obtain ⟨s0, ha, -, -, -, -, -, hp, -⟩ := h
  have hplace := samePlace_popAll (vl := e.vl) (sew := sewOf e.vtype) (l := srcs.eraseDups) (samePlace_acquireLanes (SamePlace.refl s) ha)
  rwa [hp] at hplace

/-- With the lanes and no running block one captured word runs. -/
theorem withLanes_runs {s s0 : State} {f : State → Out} (ha : acquireLanes s = some s0) (hb : s0.blockRuns = false) : withLanes s f = f s0 := by
  simp only [withLanes, ha, hb, Bool.false_eq_true, ↓reduceIte]

/-- Settles O40: a frame's words are searched in order for the first fault; a captured frame is the run of one word, found by rptst,
whose lane operation ends in the frame's own step in place of the next instruction. -/
theorem repeatFrames : Obligations.RepeatFrames := by
  unfold Obligations.RepeatFrames
  intro s s1 sF n reps dd da db ws
  have hr : 0 < reps.val + 1 := Nat.succ_pos _
  refine ⟨fun h hle => ?_, fun k h hle hf => ?_, fun h hle hf j hj hfits => ⟨fun hbad => ?_, fun k hc hle' hk hbad hq => ?_⟩, fun hF => ?_⟩
  · exact (exec_rpt ..).trans (captureFrame_headAtLe h ((s.cur.endsAt_iff _).2 hle))
  · exact (exec_rpt ..).trans (captureFrame_unfetched h (Thread.endsAt_eq_false hle) hf)
  · have hx := frameFault_at hr hj fun q hq => ⟨Thread.endsAt_eq_false (hfits q hq).1, (hfits q hq).2⟩
    exact (exec_rpt ..).trans (captureFrame_illegal h (Thread.endsAt_eq_false hle) hf
      (hx.trans (frameFault_cons_refused (hbad.imp_right (s.cur.endsAt_iff _).2))))
  · have hx := frameFault_at hr hj fun q hq => ⟨Thread.endsAt_eq_false (hfits q hq).1, (hfits q hq).2⟩
    exact (exec_rpt ..).trans (captureFrame_illegal h (Thread.endsAt_eq_false hle) hf
      (hx.trans (frameFault_cons_illegal hc (Thread.endsAt_eq_false hle') hk hbad hq)))
  have hrun : exec (.rpt n reps dd da db) s
      = withLanes sF (runFrame (wordOf (.rpt n reps dd da db)) (n.val + 1) (reps.val + 1) dd.val da.val db.val ws) ∧ sF.cur.rptst = s.cur.rptst := by
    obtain ⟨h, hle, hf, hfits, rfl⟩ | ⟨⟨x, h⟩, rfl⟩ := hF
    · have hx := frameFault_eq_none hr fun q hq => ⟨Thread.endsAt_eq_false (hfits q hq).1, (hfits q hq).2⟩
      obtain ⟨-, -, -, hrpt, -⟩ := samePlace_fetchWords (va := s.cur.pc + 4) (n := n.val + 1) (SamePlace.refl s)
      rw [hf] at hrpt
      refine ⟨(exec_rpt ..).trans (captureFrame_fresh h (Thread.endsAt_eq_false hle) hf hx), ?_⟩
      rw [State.cur_modCur]; exact hrpt
    · exact ⟨(exec_rpt ..).trans (captureFrame_held h), rfl⟩
  obtain ⟨hrun, hrpt⟩ := hrun
  refine ⟨fun ha => ?_, fun s0 j k ha hb hat hj hk hout => ?_, fun j k vd va vb rep mk e s2 hlen hj hk hat hc => ?_⟩
  · simp only [hrun, withLanes, ha]
  · obtain ⟨-, -, -, hrpt0, -⟩ := samePlace_acquireLanes (SamePlace.refl sF) ha
    have hat0 : StandsAt s0.cur.rptst j k := .inr ((hrpt0.trans hrpt).trans hat)
    exact hrun.trans ((withLanes_runs ha hb).trans (runFrame_beyond hat0 hj hk hout))
  · intro st d x y hgo
    obtain ⟨s0, ha, hb, ha'⟩ := hgo.of_rptst
    obtain ⟨-, -, -, hrpt0, -⟩ := samePlace_acquireLanes (SamePlace.refl sF) ha
    have hat0 : StandsAt s0.cur.rptst j k := (hrpt0.trans hrpt) ▸ hat
    have hx : (captured (ws.getD j 0)).bind (stagger dd.val da.val db.val k) = some (.vadd d x y rep mk) := by rw [hc]; rfl
    obtain ⟨t, th, ht, hbytes, hregs, helems, hcur, hpc, hframe⟩ := runLane_vadd (mk := mk) (rptStep (n.val + 1) (reps.val + 1) j k) hgo ha'
    obtain ⟨-, -, hpc2, -, hframe2⟩ := hgo.samePlace
    rw [State.cur_modCur] at hpc2 hframe2
    have hexec := hrun.trans ((withLanes_runs ha hb).trans ((runFrame_word hat0 (by omega) (by omega) hj hk hx).trans (runCaptured_vadd ..)))
    refine ⟨t, hexec.trans ht, by rw [hcur, rptStep_vstart], hbytes, hregs, helems, fun h => ?_, fun h hk' => ?_, fun h hk' => ?_⟩
    · rw [hcur, rptStep_word _ h]
      exact ⟨rfl, hpc.trans hpc2, hframe.trans hframe2⟩
    · rw [hcur, rptStep_execution _ h hk']
      exact ⟨rfl, hpc.trans hpc2, hframe.trans hframe2⟩
    · rw [hcur, rptStep_end _ h hk']
      exact ⟨rfl, by simp only [hpc, hpc2], rfl⟩

end Sys2Proof.Machine
end

section
/-!
PROOFS. The faults of the scalar and atomic accesses: the checks of an access in their order (spec 05 R81 and R82; 08 R158), and what a
page fault leaves (04 R66 to R69).
-/

namespace Sys2Proof.Machine

/-! ## Page faults -/

/-- A change of a core beside its threads leaves the current thread. -/
theorem State.cur_modCore_of_threads {s : State} {k : CoreId} {f : Core → Core} (hf : ∀ c, (f c).threads = c.threads) :
    (s.modCore k f).cur = s.cur := by
  show ((s.modCore k f).core s.curCore).threads[s.curTid] = (s.core s.curCore).threads[s.curTid]
  by_cases h : s.curCore = k
  · subst h; simp only [State.core_modCore_same, hf]
  · rw [State.core_modCore_other s f h]

/-- A batch record goes to a scratchpad and leaves the current thread (R69). -/
@[simp] theorem State.cur_writeRecord (s : State) (k : CoreId) (t : Tid) (lvl : Priv) (bs : List Byte) :
    (writeRecord s k t lvl bs).cur = s.cur := by
  by_cases h : ((s.thr k t).trapSet lvl).fbEn = true
  · exact (congrArg State.cur (if_pos h)).trans (State.cur_modCore_of_threads fun _ => rfl)
  · exact congrArg State.cur (if_neg h)

theorem Thread.sreg_enterTrap (t : Thread) (lvl : Priv) (tr : Trap) (pc : Word) (r : SReg) :
    (t.enterTrap lvl tr pc).sreg r = t.sreg r := by
  cases lvl <;> rfl

@[simp] theorem State.sreg_trap (s : State) (tr : Trap) (r : SReg) : (s.trap tr).sreg r = s.sreg r := by
  rw [State.trap_eq_modCur, State.sreg, State.cur_modCur, Thread.sreg_enterTrap, State.sreg]

/-- From s the current thread has taken a trap at its instruction, with no register written (R307): t is the state after. -/
def TrapTaken (s t : State) (cause : BitVec 8) (tval : Word) : Prop :=
  (t.cur.trapSet t.cur.priv).tcause = cause ∧ (t.cur.trapSet t.cur.priv).tpc = s.cur.pc ∧ (t.cur.trapSet t.cur.priv).tval = tval
    ∧ ∀ r, t.sreg r = s.sreg r

theorem trapTaken_trap (s : State) (tr : Trap) : TrapTaken s (s.trap tr) tr.cause tr.tval := by
  unfold TrapTaken
  rw [State.trapSet_trap]
  exact ⟨rfl, rfl, rfl, State.sreg_trap s tr⟩

/-- A page fault writes its record, then traps (R66, R69). -/
theorem trapTaken_pageFault {s : State} {cause : BitVec 8} {tval : Word} {kind : Nat} {l : List PageEntry} {held : Bool} {vl nmask : Nat}
    {stop fmask : Bool} : TrapTaken s (pageFault s cause tval kind l held vl nmask stop fmask) cause tval := by
  unfold pageFault
  extract_lets t first tr two flags bs
  have h := trapTaken_trap (writeRecord s s.curCore s.curTid (trapLevel s t tr) bs) tr
  simpa only [TrapTaken, State.sreg, State.cur_writeRecord] using h

/-- The page fault of a load, a store or an atomic has the address in tval (R81, R158; log 37). -/
theorem trapTaken_scalarPageFault {s : State} {k : AccKind} {va : Word} {reason loc : Nat} (hk : k ≠ .fetch) :
    TrapTaken s (scalarPageFault s k va reason loc) 0x05 va := by
  cases k with
  | fetch => exact absurd rfl hk
  | load | store | atomic => exact trapTaken_pageFault

/-! ## Generic space -/

section Generic

variable {s s1 : State} {k : AccKind} {addr : Word} {w : Nat} {host : Bool} {cont : State → Tgt → Out}

/-- An address outside the range is refused first (R34). -/
theorem withGeneric_outside (hc : canonical addr = false) : withGeneric s k addr w host cont = .next (s.trap (mkTrap 0x0C addr 0)) := by
  simp only [withGeneric, hc, Bool.not_false, ↓reduceIte, raise]

/-- A misaligned address is refused before its translation. -/
theorem withGeneric_misaligned (hc : canonical addr = true) (hm : addr.toNat % w ≠ 0) :
    withGeneric s k addr w host cont = .next (s.trap (mkTrap 0x03 addr 0)) := by
  simp only [withGeneric, hc, Bool.not_true, Bool.false_eq_true, ↓reduceIte, bne_iff_ne.2 hm, raise]

/-- What the translation refuses is the access's failure. -/
theorem withGeneric_refused {f : XFail} (hc : canonical addr = true) (hm : addr.toNat % w = 0)
    (ht : translate s (.scalar s.curCore) s.curReq k addr host = (s1, .error f)) :
    withGeneric s k addr w host cont = scalarFail s1 k addr f := by
  simp only [withGeneric, hc, hm, ht, Bool.not_true, bne_self_eq_false, Bool.false_eq_true, ↓reduceIte]

end Generic

/-- An outcome is that of a data access of generic space: the checks of `withGeneric`, then some use of the target. -/
def GenericAccess (x : Out) (s : State) (k : AccKind) (addr : Word) (w : Nat) (host : Bool) : Prop :=
  k ≠ .fetch ∧ ∃ cont, x = withGeneric s k addr w host cont

/-- The scaled offset as a number. -/
theorem scaledOff_eq_ofInt {n : Nat} (off : BitVec n) (sz : Width) : scaledOff off sz = BitVec.ofInt 64 (off.toInt * Width.bytes sz) := by
  rw [BitVec.ofInt_mul, BitVec.ofInt_natCast]; rfl

theorem genericAccess_scalarLoad {i : Instr} {d a : SReg} {sz : Width} {off : BitVec 14} {signed : Bool} {s : State} :
    GenericAccess (scalarLoad i d a sz off signed s) s .load (s.sreg a + BitVec.ofInt 64 (off.toInt * Width.bytes sz)) (Width.bytes sz) true := by
  rw [← scaledOff_eq_ofInt]; exact ⟨nofun, _, rfl⟩

theorem genericAccess_execSt {d a : SReg} {sz : Width} {off : BitVec 14} {s : State} :
    GenericAccess (execSt d a sz off s) s .store (s.sreg a + BitVec.ofInt 64 (off.toInt * Width.bytes sz)) (Width.bytes sz) true := by
  rw [← scaledOff_eq_ofInt]; exact ⟨nofun, _, rfl⟩

theorem genericAccess_atomic {o : AtomOp} {d a b : SReg} {dbl : Bool} {s : State} :
    GenericAccess (atomic o d a b dbl false s) s .atomic (s.sreg a) (if dbl then 8 else 4) o.onHost := ⟨nofun, _, rfl⟩

theorem genericAccess_execSigadd {a b : SReg} {s : State} : GenericAccess (execSigadd a b s) s .atomic (s.sreg a) 8 true := ⟨nofun, _, rfl⟩

/-- The faults of a data access of generic space, in their order (R81, R158). -/
theorem GenericAccess.faults {x : Out} {s : State} {k : AccKind} {addr : Word} {w : Nat} {host : Bool} (h : GenericAccess x s k addr w host) :
    (canonical addr = false → x = .next (s.trap (mkTrap 0x0C addr 0)))
    ∧ (canonical addr = true → addr.toNat % w ≠ 0 → x = .next (s.trap (mkTrap 0x03 addr 0)))
    ∧ (∀ s1, canonical addr = true → addr.toNat % w = 0 → translate s (.scalar s.curCore) s.curReq k addr host = (s1, .error .access) →
        x = .next (s1.trap (mkTrap 0x04 addr 0)))
    ∧ (∀ s1 r loc, canonical addr = true → addr.toNat % w = 0 →
        translate s (.scalar s.curCore) s.curReq k addr host = (s1, .error (.page r loc)) →
        ∃ t, x = .next t ∧ TrapTaken s1 t 0x05 addr) := by
  obtain ⟨hk, cont, rfl⟩ := h
  refine ⟨withGeneric_outside, withGeneric_misaligned, fun s1 hc hm ht => withGeneric_refused hc hm ht, fun s1 r loc hc hm ht => ?_⟩
  exact ⟨_, withGeneric_refused hc hm ht, trapTaken_scalarPageFault hk⟩

/-! ## The scratchpad -/

section Scratchpad

variable {addr : Word} {w : Nat}

theorem spadTrap_outside (h : 0x400000 ≤ addr.toNat) : spadTrap addr w = some (mkTrap 0x06 addr 0) := if_pos h

theorem spadTrap_misaligned (h : addr.toNat < 0x400000) (hm : addr.toNat % w ≠ 0) : spadTrap addr w = some (mkTrap 0x03 addr 0) :=
  (if_neg (Nat.not_le.2 h)).trans (if_pos (bne_iff_ne.2 hm))

theorem spadTrap_laneLocal (h : addr.toNat < 0x400000) (hm : addr.toNat % w = 0) (hl : 0x380000 ≤ addr.toNat) :
    spadTrap addr w = some (mkTrap 0x04 addr 0) :=
  (if_neg (Nat.not_le.2 h)).trans ((if_neg (by simpa using hm)).trans (if_pos hl))

end Scratchpad

/-- An outcome is that of an access of the scratchpad: what `spadTrap` finds is taken. -/
def SpadAccess (x : Out) (s : State) (addr : Word) (w : Nat) : Prop := ∀ tr, spadTrap addr w = some tr → x = .next (s.trap tr)

theorem spadAccess_execLds {d a : SReg} {sz : Width} {qf : LoadQual} {off : BitVec 12} {s : State} :
    SpadAccess (execLds d a sz qf off s) s (s.sreg a + BitVec.ofInt 64 (off.toInt * Width.bytes sz)) (Width.bytes sz) := by
  rw [← scaledOff_eq_ofInt]; intro tr h; simp only [execLds, h]

theorem spadAccess_execSts {d a : SReg} {sz : Width} {qf : StoreQual} {off : BitVec 12} {s : State} :
    SpadAccess (execSts d a sz qf off s) s (s.sreg a + BitVec.ofInt 64 (off.toInt * Width.bytes sz)) (Width.bytes sz) := by
  rw [← scaledOff_eq_ofInt]; intro tr h; simp only [execSts, h]

theorem spadAccess_atomic {o : AtomOp} {d a b : SReg} {dbl : Bool} {s : State} :
    SpadAccess (atomic o d a b dbl true s) s (s.sreg a) (if dbl then 8 else 4) := by
  intro tr h; simp only [atomic, ↓reduceIte, h]

/-- The faults of an access of the scratchpad, in their order (R82, R158). -/
theorem SpadAccess.faults {x : Out} {s : State} {addr : Word} {w : Nat} (h : SpadAccess x s addr w) :
    (0x400000 ≤ addr.toNat → x = .next (s.trap (mkTrap 0x06 addr 0)))
    ∧ (addr.toNat < 0x400000 → addr.toNat % w ≠ 0 → x = .next (s.trap (mkTrap 0x03 addr 0)))
    ∧ (addr.toNat < 0x400000 → addr.toNat % w = 0 → 0x380000 ≤ addr.toNat → x = .next (s.trap (mkTrap 0x04 addr 0))) :=
  ⟨fun ho => h _ (spadTrap_outside ho), fun hi hm => h _ (spadTrap_misaligned hi hm), fun hi hm hl => h _ (spadTrap_laneLocal hi hm hl)⟩

/-- Settles O22: every scalar and atomic access is one of `withGeneric` or one that `spadTrap` checks. -/
theorem scalarAccessFaults : Obligations.ScalarAccessFaults := by
  unfold Obligations.ScalarAccessFaults
  refine ⟨fun s i k addr w host hi => GenericAccess.faults ?_, fun s i addr w hi => SpadAccess.faults ?_⟩
  · split at hi
    case h_15 => exact hi.elim
    all_goals obtain ⟨rfl, rfl, rfl, rfl⟩ := hi
    · exact genericAccess_scalarLoad
    · exact genericAccess_scalarLoad
    · exact genericAccess_execSt
    · exact genericAccess_atomic (o := .swap)
    · exact genericAccess_atomic (o := .add)
    · exact genericAccess_atomic (o := .cas)
    · exact genericAccess_atomic (o := .and)
    · exact genericAccess_atomic (o := .or)
    · exact genericAccess_atomic (o := .xor)
    · exact genericAccess_atomic (o := .min)
    · exact genericAccess_atomic (o := .max)
    · exact genericAccess_atomic (o := .minw)
    · exact genericAccess_atomic (o := .maxw)
    · exact genericAccess_execSigadd
  · split at hi
    case h_13 => exact hi.elim
    all_goals obtain ⟨rfl, rfl⟩ := hi
    · exact spadAccess_execLds
    · exact spadAccess_execSts
    · exact spadAccess_atomic (o := .swap)
    · exact spadAccess_atomic (o := .add)
    · exact spadAccess_atomic (o := .and)
    · exact spadAccess_atomic (o := .or)
    · exact spadAccess_atomic (o := .xor)
    · exact spadAccess_atomic (o := .min)
    · exact spadAccess_atomic (o := .max)
    · exact spadAccess_atomic (o := .minw)
    · exact spadAccess_atomic (o := .maxw)
    · exact spadAccess_atomic (o := .cas)

end Sys2Proof.Machine
end

section
/-!
PROOFS. What a change of one core, engine, cluster or base die leaves of each of them, of the threads and of the bytes.
-/

namespace Sys2Proof.Machine

/-! ## Cores -/

/-- What a change of a core leaves of every core, it leaves of each. -/
theorem State.core_modCore_of {α : Type} {π : Core → α} {f : Core → Core} (hf : ∀ c, π (f c) = π c) (s : State) (k j : CoreId) :
    π ((s.modCore k f).core j) = π (s.core j) := by
  by_cases h : j = k
  · subst h; rw [State.core_modCore_same, hf]
  · rw [State.core_modCore_other s f h]

/-- A change that leaves every scratchpad and every other memory changes no byte. -/
theorem sameBytes_of_spad {s t : State} (hc : ∀ k, (t.core k).spad = (s.core k).spad)
    (hm : t.wm = s.wm ∧ t.host = s.host ∧ t.qmem = s.qmem ∧ t.peers = s.peers) : SameBytes s t := by
  obtain ⟨hwm, hhost, hq, hp⟩ := hm
  intro p
  cases p <;> simp only [State.byteAt, State.peerMem, hwm, hhost, hq, hp, hc]

/-- A change of a core beside its scratchpad changes no byte. -/
theorem byteAt_modCore {f : Core → Core} (hf : ∀ c, (f c).spad = c.spad) (s : State) (k : CoreId) : SameBytes s (s.modCore k f) :=
  sameBytes_of_spad (fun j => State.core_modCore_of (π := Core.spad) hf s k j) ⟨rfl, rfl, rfl, rfl⟩

/-- A change of a core beside its threads changes no thread. -/
theorem State.thr_modCore_of_threads {f : Core → Core} (hf : ∀ c, (f c).threads = c.threads) (s : State) (k j : CoreId) (u : Tid) :
    (s.modCore k f).thr j u = s.thr j u :=
  congrArg (fun l : Vector Thread 2 => l[u]) (State.core_modCore_of (π := Core.threads) hf s k j)

/-- A change that leaves the cores and every memory changes no byte. -/
theorem sameBytes_of_cores {s t : State} (hc : t.cores = s.cores)
    (hm : t.wm = s.wm ∧ t.host = s.host ∧ t.qmem = s.qmem ∧ t.peers = s.peers) : SameBytes s t :=
  sameBytes_of_spad (fun k => by simp only [State.core, hc]) hm

/-! ## Engines, clusters and base dies -/

theorem State.engine_modEngine_same (s : State) (k : EngineId) (f : Engine → Engine) :
    (s.modEngine k f).engines[k] = f s.engines[k] := by simp [State.modEngine]
theorem State.engine_modEngine_other (s : State) {k j : EngineId} (f : Engine → Engine) (h : j ≠ k) :
    (s.modEngine k f).engines[j] = s.engines[j] := by
  have h' : k.val ≠ j.val := fun e => h (Fin.ext e.symm)
  simp [State.modEngine, Vector.getElem_set_ne, h']
theorem State.cluster_modCluster_same (s : State) (c : ClusterId) (f : ClusterX → ClusterX) :
    (s.modCluster c f).clusters[c] = f s.clusters[c] := by simp [State.modCluster]
theorem State.cluster_modCluster_other (s : State) {c d : ClusterId} (f : ClusterX → ClusterX) (h : d ≠ c) :
    (s.modCluster c f).clusters[d] = s.clusters[d] := by
  have h' : c.val ≠ d.val := fun e => h (Fin.ext e.symm)
  simp [State.modCluster, Vector.getElem_set_ne, h']
theorem State.die_modDie_same (s : State) (d : StackId) (f : BaseDie → BaseDie) :
    (s.modDie d f).baseDies[d] = f s.baseDies[d] := by simp [State.modDie]
theorem State.die_modDie_other (s : State) {d e : StackId} (f : BaseDie → BaseDie) (h : e ≠ d) :
    (s.modDie d f).baseDies[e] = s.baseDies[e] := by
  have h' : d.val ≠ e.val := fun x => h (Fin.ext x.symm)
  simp [State.modDie, Vector.getElem_set_ne, h']

end Sys2Proof.Machine
end

section
/-!
PROOFS. Software's writes of le, ls, tfbuf and of the counters, and the sample of the trace unit (spec 04 R69; 11 R202; 19 R352 to R354).
-/

namespace Sys2Proof.Machine

/-! ## Loop state and tfbuf -/

theorem Thread.loopActive_iff (t : Thread) : t.loopActive = true ↔ t.le ≠ 0 ∧ t.loopOff = false := by simp [Thread.loopActive]

/-- A write of le that clears it (R202). -/
theorem execLeWrite_zero (s : State) (k : CoreId) (u : Tid) : execLeWrite k u 0 s = .next (s.modThr k u (fun x => { x with le := 0 })) := rfl

/-- A write of le that is not 0 traps while a loop is active, and starts one otherwise (R202). -/
theorem execLeWrite_nonzero {s : State} {k : CoreId} {u : Tid} {v : Word} (hv : v ≠ 0) :
    execLeWrite k u v s = .next (if (s.thr k u).loopActive then s.trapThr k u (mkTrap 0x0F v 0) (s.thr k u).pc
      else s.modThr k u (fun x => { x with le := v, loopOff := false })) := by
  have hw : csrWrite s k u .user 0x62 v
      = if (s.thr k u).loopActive then none else some (s.modThr k u (fun x => { x with le := v, loopOff := false })) :=
    if_neg hv
  rw [execLeWrite, hw]
  cases (s.thr k u).loopActive <;> rfl

/-- A write of ls traps while a loop is active (R202). -/
theorem execLsWrite_eq (s : State) (k : CoreId) (u : Tid) (v : Word) :
    execLsWrite k u v s = .next (if (s.thr k u).loopActive then s.trapThr k u (mkTrap 0x0F v 0) (s.thr k u).pc
      else s.modThr k u (fun x => { x with ls := v })) := by
  have hw : csrWrite s k u .user 0x61 v
      = if (s.thr k u).loopActive then none else some (s.modThr k u (fun x => { x with ls := v })) := by simp [csrWrite]
  rw [execLsWrite, hw]
  cases (s.thr k u).loopActive <;> rfl

/-- The fields that a write of tfbuf takes: the base of the word, and en where the whole buffer lies in the general region (R69). -/
theorem TrapSet.setTfbuf_eq (t : TrapSet) (v : Word) :
    t.setTfbuf v = { t with
      fbBase := BitVec.ofNat 17 (v.toNat / 32 % 2 ^ 17)
      fbEn := v.getLsbD 0 && decide (v.toNat / 32 % 2 ^ 17 * 32 + 544 ≤ 0x380000) } := by
  have hb : v.extractLsb' 5 17 = BitVec.ofNat 17 (v.toNat / 32 % 2 ^ 17) := by
    rw [extractLsb'_eq_ofNat]; exact BitVec.eq_of_toNat_eq (by simp)
  simp [TrapSet.setTfbuf, hb, laneBase]

/-! ## Counters (R352, R353) -/

/-- A configuration write that is ignored: the hypervisor holds the bank, or the event is reserved for this counter. -/
theorem counterConfig_ignored {c : Core} {n : Fin 8} {v : Word}
    (h : c.bank = .hyper ∨ 14 < v.toNat % 256 ∨ (v.toNat % 256 = 14 ∧ n ≠ 7)) : counterConfig c n v = c := by
  simp only [counterConfig, bitsOf, Nat.pow_zero, Nat.div_one, Nat.reducePow]
  exact if_pos (by simpa [or_assoc] using h)

/-- A configuration write that is taken. -/
theorem counterConfig_taken {c : Core} {n : Fin 8} {v : Word}
    (h : ¬ (c.bank = .hyper ∨ 14 < v.toNat % 256 ∨ (v.toNat % 256 = 14 ∧ n ≠ 7))) :
    counterConfig c n v = { c with
      counters := c.counters.set n ⟨0, c.counters[n].displaced, BitVec.ofNat 8 (v.toNat % 256), BitVec.ofNat 2 (v.toNat / 256),
        if n = 6 then BitVec.ofNat 4 (v.toNat / 1024) else c.counters[n].shift, 0⟩
      bank := .guest, trace := if v.toNat % 256 = 14 ∧ c.trace = .free then .guest else c.trace } := by
  have hev : BitVec.ofNat 8 (v.toNat % 256) = BitVec.ofNat 8 v.toNat := BitVec.eq_of_toNat_eq (by simp)
  simp only [counterConfig, bitsOf, Nat.pow_zero, Nat.div_one, Nat.reducePow, extractLsb'_eq_ofNat, hev]
  rw [if_neg (by simpa [or_assoc] using h)]
  simp only [Bool.and_eq_true, decide_eq_true_eq]

theorem counterSet_eq (c : Core) (n : Fin 8) (v : Word) :
    counterSet c n v = { c with counters := c.counters.set n { c.counters[n] with count := BitVec.ofNat 63 v.toNat, displaced := false } } := by
  simp [counterSet, extractLsb'_eq_ofNat]

/-- Counting changes no counter's event or filter, and no holder of the trace unit: whom the unit records is as before (R352). -/
theorem Core.traces_count (c : Core) (ev n : Nat) (t u : Tid) : (c.count ev t n).traces u = c.traces u := by
  unfold Core.count
  split
  · rfl
  · simp only [Core.traces, Fin.getElem_fin, Vector.getElem_ofFn]
    split <;> rfl

/-! ## The sample (R352, R354) -/

/-- One multiple of the sample period fewer is left to sample. -/
def Core.takeSample (c : Core) : Core :=
  { c with counters := c.counters.set 6 { c.counters[6] with samples := c.counters[6].samples - 1 } }

theorem Core.traces_takeSample (c : Core) (u : Tid) : c.takeSample.traces u = c.traces u := by
  have h : c.takeSample.counters[7] = c.counters[7] := by simp [Core.takeSample]
  unfold Core.traces
  rw [h]; rfl

/-- The sample of one thread. -/
def sampleThread (s : State) (k : CoreId) (u : Tid) : State :=
  if (s.thr k u).task.isNone || !(s.core k).traces u then s
  else if (s.thr k u).cbit then traceRecord s k u 2 (s.thr k u).vstart.toNat
  else s.modCore k (fun c => c.count 12 u 1)

theorem execCounterSample_notDue {s : State} {k : CoreId} (h : (s.core k).counters[6].samples = 0) : execCounterSample k s = .next s :=
  if_pos h

/-- A sample that is due is taken of thread 0, then of thread 1. -/
theorem execCounterSample_due {s : State} {k : CoreId} (h : (s.core k).counters[6].samples ≠ 0) :
    execCounterSample k s = .next (sampleThread (sampleThread (s.modCore k Core.takeSample) k 0) k 1) :=
  if_neg h

theorem sampleThread_untraced {s : State} {k : CoreId} {u : Tid} (h : (s.core k).traces u = false) : sampleThread s k u = s :=
  if_pos (by simp [h])

theorem sampleThread_vacant {s : State} {k : CoreId} {u : Tid} (h : (s.thr k u).task = none) : sampleThread s k u = s :=
  if_pos (by simp [h])

theorem sampleThread_suppressed {s : State} {k : CoreId} {u : Tid} (ht : (s.thr k u).task ≠ none) (hon : (s.core k).traces u = true)
    (hc : (s.thr k u).cbit = false) : sampleThread s k u = s.modCore k (fun c => c.count 12 u 1) := by
  simp [sampleThread, ht, hon, hc]

theorem sampleThread_recorded {s : State} {k : CoreId} {u : Tid} (ht : (s.thr k u).task ≠ none) (hon : (s.core k).traces u = true)
    (hc : (s.thr k u).cbit = true) : sampleThread s k u = traceRecord s k u 2 (s.thr k u).vstart.toNat := by
  simp [sampleThread, ht, hon, hc]

/-- The bytes of a trace record (R354). -/
def traceBytes (s : State) (k : CoreId) (u : Tid) (kind value : Nat) : List Byte :=
  leBytes 8 (s.coreTime k) ++ leBytes 8 (s.thr k u).pc.toNat ++ leBytes 8 value ++ leBytes 1 kind
    ++ leBytes 1 (u.val + (if (s.thr k u).cbit then 2 else 0)) ++ leBytes 2 (s.thr k u).ctxOf.toNat ++ leBytes 4 (s.core k).ring.seq.toNat
/-- Where the next trace record of a core lies (R354). -/
def traceAt (c : Core) : Nat := c.ring.base + 32 * (c.ring.seq.toNat % 2 ^ (c.ring.size + 6))

theorem traceBytes_length (s : State) (k : CoreId) (u : Tid) (kind value : Nat) : (traceBytes s k u kind value).length = 32 := by
  simp [traceBytes]

/-- A core after a trace record of thread u: the record is counted, and the ring goes on (R352, R354). -/
def Core.recorded (c : Core) (u : Tid) : Core := { c.count 13 u 1 with ring := { c.ring with seq := c.ring.seq + 1 } }

theorem Core.recorded_threads (c : Core) (u : Tid) : (c.recorded u).threads = c.threads := Core.count_threads c 13 u 1
theorem Core.recorded_spad (c : Core) (u : Tid) : (c.recorded u).spad = c.spad := Core.count_spad c 13 u 1
theorem Core.traces_recorded (c : Core) (u v : Tid) : (c.recorded u).traces v = c.traces v := Core.traces_count c 13 1 u v

/-- A trace record inside working memory is written at its place in the ring. -/
theorem traceRecord_inside {s : State} {k : CoreId} {u : Tid} {kind value : Nat} (h : traceAt (s.core k) + 32 ≤ wmSize) :
    traceRecord s k u kind value
      = (tgtWrite s (.wm (traceAt (s.core k))) (traceBytes s k u kind value)).modCore k (fun c => c.recorded u) :=
  congrArg (fun t : State => t.modCore k (fun c => c.recorded u)) (if_pos h)

/-- A part of the bytes written at an address reads as that part's number. -/
theorem Mem.num_setBytes {m : Memory} {a o n : Nat} {bs : List Byte} (h : o + n ≤ bs.length) :
    Mem.num (Mem.setBytes m a bs) (a + o) n = fieldAt bs o n := by
  rw [Mem.num, fieldAt]
  congr 1
  apply List.ext_getElem (by simp; omega)
  intro i h1 h2
  have hi : i < n := by simpa using h1
  rw [Mem.bytes_getElem, Nat.add_assoc, Mem.get_setBytes_in (by omega)]
  simp

/-- The fields of a written trace record (R354). -/
theorem traceBytes_fields (s : State) (k : CoreId) (u : Tid) (kind value : Nat) (m : Memory) (a : Nat) :
    let w := Mem.setBytes m a (traceBytes s k u kind value)
    Mem.num w a 8 = s.coreTime k % 2 ^ 64 ∧ Mem.num w (a + 8) 8 = (s.thr k u).pc.toNat
      ∧ Mem.num w (a + 16) 8 = value % 2 ^ 64 ∧ Mem.num w (a + 24) 1 = kind % 2 ^ 8
      ∧ Mem.num w (a + 25) 1 = u.val + (if (s.thr k u).cbit then 2 else 0)
      ∧ Mem.num w (a + 26) 2 = (s.thr k u).ctxOf.toNat ∧ Mem.num w (a + 28) 4 = (s.core k).ring.seq.toNat % 2 ^ 32 := by
  intro w
  have hw (o n : Nat) (h : o + n ≤ 32) : Mem.num w (a + o) n = fieldAt (traceBytes s k u kind value) o n :=
    Mem.num_setBytes (by rw [traceBytes_length]; exact h)
  have hflag : u.val + (if (s.thr k u).cbit then 2 else 0) < 256 := by split <;> omega
  refine ⟨(hw 0 8 (by decide)).trans ?_, (hw 8 8 (by decide)).trans ?_, (hw 16 8 (by decide)).trans ?_, (hw 24 1 (by decide)).trans ?_,
    (hw 25 1 (by decide)).trans ?_, (hw 26 2 (by decide)).trans ?_, (hw 28 4 (by decide)).trans ?_⟩ <;>
    simp [fieldAt, traceBytes, List.drop_append, leNat_leBytes, List.take_of_length_le, List.drop_of_length_le]
  · exact (s.thr k u).pc.isLt
  · exact hflag
  · exact (s.thr k u).ctxOf.isLt

/-- The trace unit records thread 0 alone, when it records for the guest under the filter of thread 0 (R352, R353). -/
theorem Core.traces_thread0 {c : Core} (he : c.counters[7].event = 14) (hg : c.trace = .guest) (hf : c.counters[7].filter = 1) :
    c.traces 0 = true ∧ c.traces 1 = false := by
  simp [Core.traces, he, hg, hf, filterAdmits]

theorem Core.traces_off {c : Core} (h : ¬ (c.counters[7].event = 14 ∧ c.trace = .guest)) (u : Tid) : c.traces u = false := by
  simp only [Core.traces, Bool.and_eq_false_iff, decide_eq_false_iff_not]
  by_cases he : c.counters[7].event = 14
  · exact .inr fun hg => h ⟨he, hg⟩
  · exact .inl (.inl he)

/-- A trace record inside working memory changes nothing of what the unit records. -/
theorem traces_traceRecord {s : State} {k : CoreId} {u : Tid} {kind value : Nat} (hin : traceAt (s.core k) + 32 ≤ wmSize) (v : Tid) :
    ((traceRecord s k u kind value).core k).traces v = (s.core k).traces v := by
  rw [traceRecord_inside hin, State.core_modCore_same]; exact Core.traces_recorded _ u v

theorem thr_takeSample (s : State) (k j : CoreId) (u : Tid) : (s.modCore k Core.takeSample).thr j u = s.thr j u :=
  State.thr_modCore_of_threads (f := Core.takeSample) (fun _ => rfl) s k j u

/-- What a recorded sample leaves: the ring one record further, the threads, the record's fields, and every byte outside it. -/
theorem traceRecord_sample {s : State} {k : CoreId} {u : Tid} {value : Nat} (hin : traceAt (s.core k) + 32 ≤ wmSize) :
    let t := traceRecord s k u 2 value
    (t.core k).ring = { (s.core k).ring with seq := (s.core k).ring.seq + 1 } ∧ (∀ j u, t.thr j u = s.thr j u)
      ∧ t.wm = Mem.setBytes s.wm (traceAt (s.core k)) (traceBytes s k u 2 value)
      ∧ ∀ p, (∀ i, i < 32 → p ≠ .wm (traceAt (s.core k) + i)) → t.byteAt p = s.byteAt p := by
  intro t
  have ht : t = _ := traceRecord_inside hin
  rw [ht]
  refine ⟨?_, fun j v => State.thr_modCore_of_threads (fun c => c.recorded_threads u) _ k j v, rfl, fun p hp => ?_⟩
  · rw [State.core_modCore_same]; rfl
  · rw [byteAt_modCore (fun c => c.recorded_spad u), byteAt_tgtWrite_out]
    rintro ⟨i, hi, e⟩
    exact hp i (by rwa [traceBytes_length] at hi) (Option.some.inj e).symm

/-- A sample taken off the count changes nothing that a record holds, nor its place. -/
theorem traceBytes_takeSample (s : State) (k : CoreId) (u : Tid) (kind value : Nat) :
    traceBytes (s.modCore k Core.takeSample) k u kind value = traceBytes s k u kind value := by
  simp only [traceBytes, thr_takeSample, State.coreTime, copyOfTime, State.core_modCore_same]
  rfl

section Sample

variable {s : State} {k : CoreId}

/-- Nothing is recorded: neither thread is traced, or the only one that is runs no task. -/
theorem counterSample_unrecorded (hd : (s.core k).counters[6].samples ≠ 0)
    (h0 : (s.core k).traces 0 = false ∨ (s.thr k 0).task = none) (h1 : (s.core k).traces 1 = false) :
    exec (.counterSample k) s = .next (s.modCore k Core.takeSample) := by
  have h0' : sampleThread (s.modCore k Core.takeSample) k 0 = s.modCore k Core.takeSample := by
    rcases h0 with h | h
    · exact sampleThread_untraced (by rw [State.core_modCore_same, Core.traces_takeSample, h])
    · exact sampleThread_vacant (by rw [thr_takeSample, h])
  refine (execCounterSample_due hd).trans ?_
  rw [h0', sampleThread_untraced]
  rw [State.core_modCore_same, Core.traces_takeSample, h1]

variable (hd : (s.core k).counters[6].samples ≠ 0) (h0 : (s.core k).traces 0 = true) (h1 : (s.core k).traces 1 = false)
  (ht : (s.thr k 0).task ≠ none)
include hd h0 h1 ht

/-- The sample of a thread that is not critical is suppressed, and counted (R355). -/
theorem counterSample_suppressed (hc : (s.thr k 0).cbit = false) :
    exec (.counterSample k) s = .next ((s.modCore k Core.takeSample).modCore k (fun c => c.count 12 0 1)) := by
  refine (execCounterSample_due hd).trans ?_
  rw [sampleThread_suppressed (u := 0), sampleThread_untraced]
  · rw [State.core_modCore_same, Core.traces_count, State.core_modCore_same, Core.traces_takeSample, h1]
  · rwa [thr_takeSample]
  · rw [State.core_modCore_same, Core.traces_takeSample, h0]
  · rwa [thr_takeSample]

/-- The sample of a critical thread is recorded. -/
theorem counterSample_recorded (hc : (s.thr k 0).cbit = true) (hin : traceAt (s.core k) + 32 ≤ wmSize) :
    exec (.counterSample k) s = .next (traceRecord (s.modCore k Core.takeSample) k 0 2 (s.thr k 0).vstart.toNat) := by
  have hin' : traceAt ((s.modCore k Core.takeSample).core k) + 32 ≤ wmSize := by rwa [State.core_modCore_same]
  refine (execCounterSample_due hd).trans ?_
  rw [sampleThread_recorded (u := 0), thr_takeSample, sampleThread_untraced]
  · rw [traces_traceRecord hin', State.core_modCore_same, Core.traces_takeSample, h1]
  · rwa [thr_takeSample]
  · rw [State.core_modCore_same, Core.traces_takeSample, h0]
  · rwa [thr_takeSample]

end Sample

/-- Settles O54: each write by the model's own check of it (the active loop, the buffer's place, the bank's holder), and the sample of
thread 0 alone, as the filter admits it. -/
theorem controlWrites : Obligations.ControlWrites := by
  refine ⟨fun s k u v => ?_, fun s k n v => ⟨fun h => ?_, fun h => ?_, ?_⟩, fun s k => ?_⟩
  · intro th active b fb
    have hact : th.loopActive = true ↔ active := th.loopActive_iff
    have hfb (t : TrapSet) : t.setTfbuf v = fb t := t.setTfbuf_eq v
    refine ⟨by rintro rfl; exact execLeWrite_zero s k u, fun hv ha => (execLeWrite_nonzero hv).trans ?_,
      fun hv ha => (execLeWrite_nonzero hv).trans ?_, fun ha => (execLsWrite_eq s k u v).trans ?_,
      fun ha => (execLsWrite_eq s k u v).trans ?_, fun hp => ?_, fun hp => ?_⟩
    · rw [if_pos (hact.2 ha)]
    · rw [if_neg (mt hact.1 ha)]
    · rw [if_pos (hact.2 ha)]
    · rw [if_neg (mt hact.1 ha)]
    · exact congrArg Host.Outcome.next (State.modThr_congr s k u (by rw [← hfb]; exact if_pos hp))
    · exact congrArg Host.Outcome.next (State.modThr_congr s k u (by rw [← hfb]; exact if_neg hp))
  · exact congrArg Host.Outcome.next (State.modCore_congr (counterConfig_ignored h))
  · exact congrArg Host.Outcome.next (State.modCore_congr (counterConfig_taken h))
  · exact congrArg Host.Outcome.next (State.modCore_congr (counterSet_eq _ n v))
  · intro c on due s1
    refine ⟨fun hd => execCounterSample_notDue (not_not.1 hd),
      fun hd hoff => counterSample_unrecorded hd (.inl (Core.traces_off hoff 0)) (Core.traces_off hoff 1), fun hd hon hf ht => ?_,
      fun hd hon hf ht => ?_⟩
    · exact counterSample_unrecorded hd (.inr ht) (Core.traces_thread0 hon.1 hon.2 hf).2
    · obtain ⟨h0, h1⟩ := Core.traces_thread0 hon.1 hon.2 hf
      refine ⟨counterSample_suppressed hd h0 h1 ht, fun hc hin => ⟨_, counterSample_recorded hd h0 h1 ht hc hin, ?_⟩⟩
      have hat : traceAt ((s.modCore k Core.takeSample).core k) = traceAt (s.core k) := by rw [State.core_modCore_same]; rfl
      have hv : (s.thr k 0).vstart.toNat % 2 ^ 64 = (s.thr k 0).vstart.toNat :=
        Nat.mod_eq_of_lt ((s.thr k 0).vstart.isLt.trans (by decide))
      obtain ⟨hring, hkeep, hwm, hout⟩ :=
        traceRecord_sample (s := s.modCore k Core.takeSample) (u := 0) (value := (s.thr k 0).vstart.toNat) (by rw [hat]; exact hin)
      obtain ⟨f0, f8, f16, f24, f25, f26, f28⟩ := traceBytes_fields s k 0 2 (s.thr k 0).vstart.toNat s.wm (traceAt (s.core k))
      rw [hat, traceBytes_takeSample] at hwm
      rw [hat] at hout
      rw [hwm]
      refine ⟨hring.trans (by rw [State.core_modCore_same]; rfl), fun j u => (hkeep j u).trans (thr_takeSample s k j u),
        f0, f8, f16.trans hv, f24, f25.trans ?_, f26, f28, fun p hp => (hout p hp).trans ?_⟩
      · rw [if_pos hc]; rfl
      · exact byteAt_modCore (f := Core.takeSample) (fun _ => rfl) s k p

end Sys2Proof.Machine
end

section
/-!
PROOFS. Time leases (spec 04): what an agent drops when its entries have expired (R57), and the renewal of a page for the transfers in
progress (R62).
-/

namespace Sys2Proof.Machine

/-! ## Expiry (R57) -/

theorem expiry_core (s : State) (k : CoreId) : ∃ t, exec (.translationExpiry (.core k)) s = .next t ∧ SameBytes s t
    ∧ (t.core k).scalarTlb = (s.core k).scalarTlb.filter (fun e => decide (s.coreTime k < e.expiry))
    ∧ (t.core k).vectorTlb = (s.core k).vectorTlb.filter (fun e => decide (s.coreTime k < e.expiry))
    ∧ (t.core k).gatherTlb = (s.core k).gatherTlb.filter (fun e => decide (s.coreTime k < e.expiry))
    ∧ (t.core k).threads = (s.core k).threads := by
  refine ⟨_, rfl, byteAt_modCore (by intro _; rfl) s k, ?_⟩
  rw [State.core_modCore_same]; exact ⟨rfl, rfl, rfl, rfl⟩

theorem expiry_cluster (s : State) (c : ClusterId) : ∃ t, exec (.translationExpiry (.cluster c)) s = .next t ∧ SameBytes s t
    ∧ t.clusters[c].tlb = s.clusters[c].tlb.filter (fun e => decide (copyOfTime s s.clusters[c].skew < e.expiry))
    ∧ t.clusters[c].walks = s.clusters[c].walks.filter (fun e => decide (copyOfTime s s.clusters[c].skew < e.expiry)) := by
  refine ⟨_, rfl, sameBytes_of_cores rfl ⟨rfl, rfl, rfl, rfl⟩, ?_⟩
  rw [State.cluster_modCluster_same]; exact ⟨rfl, rfl⟩

theorem expiry_engine (s : State) (k : EngineId) : ∃ t, exec (.translationExpiry (.engine k)) s = .next t ∧ SameBytes s t
    ∧ t.engines[k] = { s.engines[k] with tlb := s.engines[k].tlb.filter (fun e => decide (copyOfTime s s.engines[k].skew < e.expiry)) } :=
  ⟨_, rfl, sameBytes_of_cores rfl ⟨rfl, rfl, rfl, rfl⟩, State.engine_modEngine_same s k _⟩

theorem expiry_stack (s : State) (d : StackId) : ∃ t, exec (.translationExpiry (.stack d)) s = .next t ∧ SameBytes s t
    ∧ t.baseDies[d] = { s.baseDies[d] with
        cache := s.baseDies[d].cache.filter (fun e => decide (copyOfTime s s.baseDies[d].skew < e.expiry)) } :=
  ⟨_, rfl, sameBytes_of_cores rfl ⟨rfl, rfl, rfl, rfl⟩, State.die_modDie_same s d _⟩

/-! ## Renewal (R62) -/

section Renewal

variable {s s1 : State} {u : XUnit} {rq : XReq} {p : UsedPage} {vpn : Nat} {changed : State → State} {e : TlbEntry}
  (he : (unitTlb s u).find? (fun e => e.serves rq vpn) = some e)
include he

/-- Before three quarters of the lease nothing is renewed. -/
theorem renewPage_early (h : unitTime s u < renewAt e.ts e.expiry) : renewPage s u rq p vpn changed = s := by
  simp only [renewPage, he, if_pos h]

variable (hd : renewAt e.ts e.expiry ≤ unitTime s u)
include hd

/-- A walk that fails is a change of the leaf. -/
theorem renewPage_failed {x : Nat × Nat} (hw : walkLeaf s u rq p.wr true (vpn * 0x10000) = (s1, .error x)) :
    renewPage s u rq p vpn changed = changed s1 := by
  simp only [renewPage, he, if_neg (Nat.not_lt.2 hd), hw]

variable {w : Walked} (hw : walkLeaf s u rq p.wr true (vpn * 0x10000) = (s1, .ok w))
include hw

/-- The leaf has not changed: the entry takes the walk's expiry. -/
theorem renewPage_same (h : (p.leaf.at vpn).sameAs w.leaf = true) :
    renewPage s u rq p vpn changed = cacheWalk (unitDrop s1 u rq vpn) u rq (vpn * 0x10000) w := by
  simp only [renewPage, he, if_neg (Nat.not_lt.2 hd), hw, if_pos h]

theorem renewPage_changed (h : (p.leaf.at vpn).sameAs w.leaf = false) : renewPage s u rq p vpn changed = changed s1 := by
  simp only [renewPage, he, if_neg (Nat.not_lt.2 hd), hw, h, Bool.false_eq_true, if_false]

end Renewal

/-- The copy's page is marked. -/
def markCopy (k : CoreId) (id vpn : Nat) (s : State) : State :=
  s.modCore k (fun x => { x with copies := x.copies.map (fun y => if y.id = id then { y with pages := markPage vpn y.pages } else y) })

/-- A core's renewal of a page for one of its copies. -/
def renewCopy (k : CoreId) (vpn : Nat) (s : State) (c : CopyCmd) : State :=
  match c.pages.find? (fun p => p.covers vpn) with
  | some p => renewPage s (.vector k) c.req p vpn (markCopy k c.id vpn)
  | none => s
/-- A core's renewal of a page for a bound stream. -/
def renewBind (k : CoreId) (ctx : BitVec 16) (vpn : Nat) (s : State) (r : Fin 8) : State :=
  match (s.core k).vec.binds[r] with
  | some b =>
    match b.pages.find? (fun p => p.covers vpn) with
    | some p => renewPage s (.vector k) ⟨b.part, b.asn, b.priv, ctx⟩ p vpn (fun s =>
        s.modCore k (fun x => { x with vec := { x.vec with binds := x.vec.binds.set r (some { b with pages := markPage vpn b.pages }) } }))
    | none => s
  | none => s

theorem leaseRenewal_core (s : State) (k : CoreId) (vpn : Nat) : ∃ ctx, exec (.leaseRenewal (.core k) vpn) s
    = .next ((List.finRange 8).foldl (renewBind k ctx vpn) ((s.core k).copies.foldl (renewCopy k vpn) s)) := ⟨_, rfl⟩

theorem renewCopy_of_used {k : CoreId} {vpn : Nat} {c : CopyCmd} {p : UsedPage} (hp : c.pages = [p]) (hv : p.covers vpn = true) (s : State) :
    renewCopy k vpn s c = renewPage s (.vector k) c.req p vpn (markCopy k c.id vpn) := by
  simp only [renewCopy, hp, List.find?_cons, hv]

theorem renewBind_unbound {s : State} {k : CoreId} {r : Fin 8} (h : (s.core k).vec.binds[r] = none) (ctx : BitVec 16) (vpn : Nat) :
    renewBind k ctx vpn s r = s := by simp only [renewBind, h]

/-- A core with one copy and no bound stream renews the page for that copy. -/
theorem leaseRenewal_oneCopy {s t : State} {k : CoreId} {c : CopyCmd} {p : UsedPage} {vpn : Nat} (hc : (s.core k).copies = [c])
    (hp : c.pages = [p]) (hv : p.covers vpn = true) (ht : renewPage s (.vector k) c.req p vpn (markCopy k c.id vpn) = t)
    (hb : ∀ r : Fin 8, (t.core k).vec.binds[r] = none) : exec (.leaseRenewal (.core k) vpn) s = .next t := by
  obtain ⟨ctx, hex⟩ := leaseRenewal_core s k vpn
  rw [hex, hc, List.foldl_cons, List.foldl_nil, renewCopy_of_used hp hv, ht,
    List.foldl_fixed' fun r => renewBind_unbound (hb r) ctx vpn]

/-- Marking the one page of the one copy changes that copy alone. -/
theorem markCopy_one {s : State} {k : CoreId} {c : CopyCmd} {p : UsedPage} {vpn : Nat} (hc : (s.core k).copies = [c])
    (hp : c.pages = [p]) (hv : p.covers vpn = true) :
    SameBytes s (markCopy k c.id vpn s) ∧ ((markCopy k c.id vpn s).core k).copies = [{ c with pages := [{ p with stop := true }] }]
      ∧ ((markCopy k c.id vpn s).core k).vec = (s.core k).vec := by
  refine ⟨byteAt_modCore (by intro _; rfl) s k, ?_, ?_⟩ <;> rw [markCopy, State.core_modCore_same]
  simp [hc, hp, markPage, hv]

/-! A core's vector unit beside its translations -/

theorem vec_unitAdd (s : State) (u : XUnit) (e : TlbEntry) (k : CoreId) : ((unitAdd s u e).core k).vec = (s.core k).vec := by
  cases u with
  | engine j => rfl
  | _ j => exact State.core_modCore_of (π := Core.vec) (by intro _; rfl) s j k

theorem vec_unitDrop (s : State) (u : XUnit) (rq : XReq) (vpn : Nat) (k : CoreId) : ((unitDrop s u rq vpn).core k).vec = (s.core k).vec := by
  cases u with
  | engine j => rfl
  | _ j => exact State.core_modCore_of (π := Core.vec) (by intro _; rfl) s j k

theorem vec_cacheWalk (s : State) (u : XUnit) (rq : XReq) (va : Nat) (w : Walked) (k : CoreId) :
    ((cacheWalk s u rq va w).core k).vec = (s.core k).vec := by
  unfold cacheWalk
  split
  · rfl
  · rw [vec_unitAdd]; split <;> rfl

/-- The copy's page is renewed to a mark: the transfer stops where it leaves the page. -/
theorem leaseRenewal_marks {s s1 : State} {k : CoreId} {c : CopyCmd} {p : UsedPage} {vpn : Nat} (hc : (s.core k).copies = [c])
    (hp : c.pages = [p]) (hv : p.covers vpn = true)
    (ht : renewPage s (.vector k) c.req p vpn (markCopy k c.id vpn) = markCopy k c.id vpn s1)
    (hb : ∀ r : Fin 8, (s1.core k).vec.binds[r] = none) (hc1 : (s1.core k).copies = [c]) :
    ∃ t, exec (.leaseRenewal (.core k) vpn) s = .next t ∧ SameBytes s1 t
      ∧ (t.core k).copies = [{ c with pages := [{ p with stop := true }] }] := by
  obtain ⟨hbytes, hcopies, hvec⟩ := markCopy_one hc1 hp hv
  exact ⟨_, leaseRenewal_oneCopy hc hp hv ht (by rw [hvec]; exact hb), hbytes, hcopies⟩

/-! An engine -/

/-- The page of command i in flight is marked. -/
def markCommand (k : EngineId) (i vpn : Nat) (s : State) : State :=
  s.modRun k (fun r => match r.flight[i]? with
    | some y => { r with flight := r.flight.set i { y with pages := markPage vpn y.pages } }
    | none => r)

/-- An engine's renewal of a page for a command in flight. -/
def renewCommand (k : EngineId) (g : Segment) (vpn : Nat) (s : State) (x : EngCmd × Nat) : State :=
  match x.1.pages.find? (fun p => p.covers vpn) with
  | some p => renewPage s (.engine k) g.req p vpn (markCommand k x.2 vpn)
  | none => s

theorem leaseRenewal_engine {s : State} {k : EngineId} {g : Segment} {rest : List Segment} {r : SegRun} (hr : s.engines[k].running = some r)
    (hg : s.engines[k].chain = g :: rest) (vpn : Nat) :
    exec (.leaseRenewal (.engine k) vpn) s = .next (r.flight.zipIdx.foldl (renewCommand k g vpn) s) := by
  show execLeaseRenewal (.engine k) vpn s = _
  simp only [execLeaseRenewal, hr, hg]
  rfl

/-- An engine with one command in flight renews the page for that command. -/
theorem leaseRenewal_oneCommand {s : State} {k : EngineId} {g : Segment} {rest : List Segment} {r : SegRun} {x : EngCmd} {p : UsedPage}
    {vpn : Nat} (hr : s.engines[k].running = some r) (hg : s.engines[k].chain = g :: rest) (hf : r.flight = [x]) (hp : x.pages = [p])
    (hv : p.covers vpn = true) :
    exec (.leaseRenewal (.engine k) vpn) s = .next (renewPage s (.engine k) g.req p vpn (markCommand k 0 vpn)) := by
  rw [leaseRenewal_engine hr hg, hf, List.zipIdx_cons, List.zipIdx_nil, List.foldl_cons, List.foldl_nil, renewCommand, hp]
  simp only [List.find?_cons, hv]

/-- Marking the one page of the one command changes that command alone. -/
theorem markCommand_one {s : State} {k : EngineId} {r : SegRun} {x : EngCmd} {p : UsedPage} {vpn : Nat}
    (hr : s.engines[k].running = some r) (hf : r.flight = [x]) (hp : x.pages = [p]) (hv : p.covers vpn = true) :
    SameBytes s (markCommand k 0 vpn s)
      ∧ (markCommand k 0 vpn s).engines[k].running = some { r with flight := [{ x with pages := [{ p with stop := true }] }] } := by
  refine ⟨sameBytes_of_cores rfl ⟨rfl, rfl, rfl, rfl⟩, ?_⟩
  rw [markCommand, State.modRun, State.engine_modEngine_same]
  simp only [hr, Option.map_some, hf, List.getElem?_cons_zero, List.set_cons_zero, hp, markPage, List.map_cons, List.map_nil, hv, if_true]

/-! A base die -/

/-- A base die's renewal of one of its entries (R62; log 55). -/
def renewQEntry (d : StackId) (vpn : Nat) (s : State) (e : QTlbEntry) : State :=
  let used := s.queries.any (fun q => q.part == e.part && q.subs.any (fun x => !x.done && x.qpage == vpn))
  if e.qpage != vpn || !used || s.dieTime d < renewAt e.ts e.expiry then s
  else match qWalk s e.part (s.dieTime d) vpn with
    | .ok w => if BitVec.ofNat 64 w.pte = e.pte then (qWalkCached s e.part vpn).1 else (qWalkMarked s e.part vpn).1
    | .error _ => (qWalkMarked s e.part vpn).1

theorem leaseRenewal_stack (s : State) (d : StackId) (vpn : Nat) :
    exec (.leaseRenewal (.stack d) vpn) s = .next (s.baseDies[d].cache.foldl (renewQEntry d vpn) s) := rfl

theorem renewQEntry_early {s : State} {d : StackId} {vpn : Nat} {e : QTlbEntry} (h : s.dieTime d < renewAt e.ts e.expiry) :
    renewQEntry d vpn s e = s := if_pos (by simp [h])

/-- A page that a sub-command in progress uses is walked again when its renewal is due. -/
theorem renewQEntry_due {s : State} {d : StackId} {vpn : Nat} {e : QTlbEntry} {w : QWalk} (hq : e.qpage = vpn)
    (hu : ∃ q ∈ s.queries, q.part = e.part ∧ ∃ x ∈ q.subs, x.done = false ∧ x.qpage = vpn)
    (hd : renewAt e.ts e.expiry ≤ s.dieTime d) (hw : qWalk s e.part (s.dieTime d) vpn = .ok w) :
    renewQEntry d vpn s e = if BitVec.ofNat 64 w.pte = e.pte then (qWalkCached s e.part vpn).1 else (qWalkMarked s e.part vpn).1 := by
  have hused : s.queries.any (fun q => q.part == e.part && q.subs.any (fun x => !x.done && x.qpage == vpn)) = true := by
    obtain ⟨q, hq, hp, x, hx, hdone, hpage⟩ := hu
    exact List.any_eq_true.2 ⟨q, hq, by simpa [hp] using ⟨x, hx, hdone, hpage⟩⟩
  simp only [renewQEntry, hused]
  rw [if_neg (by simp [hq, hd]), hw]

section Renewals

variable {s s1 : State} {e : TlbEntry} {w : Walked} {vpn : Nat} {p : UsedPage}

/-- A core with one copy, before and after three quarters of the lease. -/
theorem coreRenewal {k : CoreId} {c : CopyCmd} (hc : (s.core k).copies = [c]) (hp : c.pages = [p]) (hv : p.covers vpn = true)
    (hb : ∀ r : Fin 8, (s.core k).vec.binds[r] = none) (he : (unitTlb s (.vector k)).find? (fun e => e.serves c.req vpn) = some e) :
    let marks : Prop := ∃ t, exec (.leaseRenewal (.core k) vpn) s = .next t ∧ SameBytes s1 t
      ∧ (t.core k).copies = [{ c with pages := [{ p with stop := true }] }]
    let walk := walkLeaf s (.vector k) c.req p.wr true (vpn * 0x10000)
    (s.coreTime k < renewAt e.ts e.expiry → exec (.leaseRenewal (.core k) vpn) s = .next s)
      ∧ (renewAt e.ts e.expiry ≤ s.coreTime k →
        (walk = (s1, .ok w) → (p.leaf.at vpn).sameAs w.leaf = true → (∀ r : Fin 8, (s1.core k).vec.binds[r] = none) →
          exec (.leaseRenewal (.core k) vpn) s = .next (cacheWalk (unitDrop s1 (.vector k) c.req vpn) (.vector k) c.req (vpn * 0x10000) w))
        ∧ (walk = (s1, .ok w) → (p.leaf.at vpn).sameAs w.leaf = false → (∀ r : Fin 8, (s1.core k).vec.binds[r] = none) →
          (s1.core k).copies = [c] → marks)
        ∧ (∀ x, walk = (s1, .error x) → (∀ r : Fin 8, (s1.core k).vec.binds[r] = none) → (s1.core k).copies = [c] → marks)) := by
  intro marks walk
  refine ⟨fun h => ?_, fun hd => ⟨fun hw hs hb1 => ?_, fun hw hs hb1 hc1 => ?_, fun x hw hb1 hc1 => ?_⟩⟩
  · exact leaseRenewal_oneCopy hc hp hv (renewPage_early he h) hb
  · exact leaseRenewal_oneCopy hc hp hv (renewPage_same he hd hw hs) (by rw [vec_cacheWalk, vec_unitDrop]; exact hb1)
  · exact leaseRenewal_marks hc hp hv (renewPage_changed he hd hw hs) hb1 hc1
  · exact leaseRenewal_marks hc hp hv (renewPage_failed he hd hw) hb1 hc1

/-- An engine with one command in flight, from three quarters of the lease on. -/
theorem engineRenewal {k : EngineId} {g : Segment} {rest : List Segment} {r : SegRun} {x : EngCmd}
    (hr : s.engines[k].running = some r) (hg : s.engines[k].chain = g :: rest) (hf : r.flight = [x]) (hp : x.pages = [p])
    (hv : p.covers vpn = true) (he : (unitTlb s (.engine k)).find? (fun e => e.serves g.req vpn) = some e)
    (hd : renewAt e.ts e.expiry ≤ copyOfTime s s.engines[k].skew)
    (hw : walkLeaf s (.engine k) g.req p.wr true (vpn * 0x10000) = (s1, .ok w)) :
    ((p.leaf.at vpn).sameAs w.leaf = true →
      exec (.leaseRenewal (.engine k) vpn) s = .next (cacheWalk (unitDrop s1 (.engine k) g.req vpn) (.engine k) g.req (vpn * 0x10000) w))
    ∧ ((p.leaf.at vpn).sameAs w.leaf = false → s1.engines[k].running = some r → ∃ t, exec (.leaseRenewal (.engine k) vpn) s = .next t
        ∧ SameBytes s1 t ∧ t.engines[k].running = some { r with flight := [{ x with pages := [{ p with stop := true }] }] }) := by
  have hex := leaseRenewal_oneCommand hr hg hf hp hv
  refine ⟨fun hs => hex.trans (congrArg _ (renewPage_same he hd hw hs)), fun hs hr1 => ?_⟩
  obtain ⟨hbytes, hrun⟩ := markCommand_one hr1 hf hp hv
  exact ⟨_, hex.trans (congrArg _ (renewPage_changed he hd hw hs)), hbytes, hrun⟩

/-- A base die with one entry, its page in use, before and after three quarters of the lease. -/
theorem stackRenewal {d : StackId} {e : QTlbEntry} {w : QWalk} (hc : s.baseDies[d].cache = [e]) (hq : e.qpage = vpn)
    (hu : ∃ q ∈ s.queries, q.part = e.part ∧ ∃ x ∈ q.subs, x.done = false ∧ x.qpage = vpn) :
    (s.dieTime d < renewAt e.ts e.expiry → exec (.leaseRenewal (.stack d) vpn) s = .next s)
    ∧ (renewAt e.ts e.expiry ≤ s.dieTime d → qWalk s e.part (s.dieTime d) vpn = .ok w →
      (BitVec.ofNat 64 w.pte = e.pte → exec (.leaseRenewal (.stack d) vpn) s = .next (qWalkCached s e.part vpn).1)
      ∧ (BitVec.ofNat 64 w.pte ≠ e.pte → exec (.leaseRenewal (.stack d) vpn) s = .next (qWalkMarked s e.part vpn).1)) := by
  have hex : exec (.leaseRenewal (.stack d) vpn) s = .next (renewQEntry d vpn s e) := by rw [leaseRenewal_stack, hc]; rfl
  refine ⟨fun h => hex.trans (congrArg _ (renewQEntry_early h)), fun hd hw => ?_⟩
  rw [hex, renewQEntry_due hq hu hd hw]
  exact ⟨fun h => congrArg _ (if_pos h), fun h => congrArg _ (if_neg h)⟩

end Renewals

end Sys2Proof.Machine
end

section
/-!
PROOFS. The beacon (spec 04 R63): what one agent's meeting changes and what it leaves, and the whole beacon from the meetings.
-/

namespace Sys2Proof.Machine

/-! ## The beacon (R63) -/

/-- A fold that meets `a`: what holds up to there gives what holds from there on. -/
theorem foldl_reaches {σ α : Type} {f : σ → α → σ} {I Q : σ → Prop} {a : α} {l : List α} (ha : a ∈ l) {s : σ} (h : I s)
    (hI : ∀ t x, x ≠ a → I t → I (f t x)) (hQ : ∀ t, I t → Q (f t a)) (hk : ∀ t x, Q t → Q (f t x)) : Q (l.foldl f s) := by
  obtain ⟨l1, l2, rfl, hnot⟩ := List.eq_append_cons_of_mem ha
  rw [List.foldl_append, List.foldl_cons]
  refine List.foldlRecOn _ _ (hQ _ (List.foldlRecOn _ _ h fun t ht x hx => hI t x ?_ ht)) fun t ht x _ => hk t x ht
  rintro rfl; exact hnot hx

/-- A part of the state that each step of a fold either leaves or, at `a`, changes by an idempotent h is changed once, when `a` is met. -/
theorem foldl_project {σ α β : Type} {f : σ → α → σ} (π : σ → β) {h : β → β} {a : α} {l : List α} (ha : a ∈ l)
    (hh : ∀ b, h (h b) = h b) (hsame : ∀ t, π (f t a) = h (π t)) (hother : ∀ t x, x ≠ a → π (f t x) = π t) (s : σ) :
    π (l.foldl f s) = h (π s) := by
  refine foldl_reaches (I := fun t => π t = π s) (Q := fun t => π t = h (π s)) ha rfl (fun t x hx ht => (hother t x hx).trans ht)
    (fun t ht => by rw [hsame, ht]) fun t x ht => ?_
  by_cases hx : x = a
  · rw [hx, hsame, ht, hh]
  · rw [hother t x hx, ht]

/-! What meeting the beacon does -/

/-- A behind-drift is reported to the contexts that translated through the agent since the last beacon. -/
def reportSkew (s : State) (ag : XAgent) (d : Int) : State :=
  (s.users.filter (fun x => x.1 == ag)).foldl (fun s x => s.modCtx x.2.1 x.2.2 (fun t => t.addSkew d)) s

/-- A behind-drift of an agent affects a copy that has used a page, for a context among the agent's users. -/
def CopyCmd.addSkew (x : CopyCmd) (users : List (XAgent × FuncId × BitVec 16)) (ag : XAgent) (d : Int) : CopyCmd :=
  if !x.pages.isEmpty && users.contains (ag, x.part, x.ctx) then { x with skew := some d } else x
/-- It is marked in each copy of a core. -/
def Core.skewCopies (c : Core) (users : List (XAgent × FuncId × BitVec 16)) (ag : XAgent) (d : Int) : Core :=
  { c with copies := c.copies.map (fun x => x.addSkew users ag d) }

/-- A behind-drift of an engine affects a command that has used a page. -/
def EngCmd.addSkew (x : EngCmd) (d : Int) : EngCmd := if x.pages.isEmpty then x else { x with skew := some d }
/-- It is marked in each command in flight. -/
def SegRun.skewFlight (r : SegRun) (d : Int) : SegRun := { r with flight := r.flight.map (fun x => x.addSkew d) }

/-- Within 1 ns an agent goes on; ahead of the beacon it discards; behind it, it also reports (R63). -/
theorem meetBeacon_eq (s : State) (ag : XAgent) : meetBeacon s ag =
    if !skewed (skewOf s ag).1 then s
    else if 0 ≤ (skewOf s ag).1 then discardAll s ag
    else logSkew (skewTransfers (reportSkew (discardAll s ag) ag (skewOf s ag).1) ag (skewOf s ag).1) (skewOf s ag).2.1 (skewOf s ag).2.2
      (skewOf s ag).1 := rfl

theorem meetBeacon_behind {s : State} {ag : XAgent} (h : (skewOf s ag).1 < -1) : meetBeacon s ag =
    logSkew (skewTransfers (reportSkew (discardAll s ag) ag (skewOf s ag).1) ag (skewOf s ag).1) (skewOf s ag).2.1 (skewOf s ag).2.2
      (skewOf s ag).1 := by
  rw [meetBeacon_eq, if_neg (by simp [skewed, h]), if_neg (by omega)]

theorem skewed_eq_false_iff (d : Int) : skewed d = false ↔ -1 ≤ d ∧ d ≤ 1 := by simp [skewed]; omega

/-- The transfers that a beacon marks: copies of cores, and commands in flight of the engine itself. -/
theorem skewTransfers_keeps {I : State → Prop} {s : State} {ag : XAgent} {d : Int} (h : I s)
    (hc : ∀ t k us, I t → I (t.modCore k (fun c => c.skewCopies us ag d)))
    (he : ∀ k, ag = .engine k → I (s.modRun k (fun r => r.skewFlight d))) : I (skewTransfers s ag d) := by
  cases ag with
  | core k => exact hc s k s.users h
  | cluster c => exact List.foldlRecOn _ _ (motive := I) h fun t ht j _ => hc t (ClusterId.core c j) t.users ht
  | engine k => exact he k rfl
  | stack i => exact h

section Meeting

variable {I : State → Prop} {s : State} {ag : XAgent}
  (hr : ∀ t p ctx d, I t → I (t.modCtx p ctx (fun x => x.addSkew d)))
  (hc : ∀ t k us d, I t → I (t.modCore k (fun c => c.skewCopies us ag d)))
  (he : ∀ t k d, ag = .engine k → I t → I (t.modRun k (fun r => r.skewFlight d)))
  (hl : ∀ t d f, I t → I (t.modBank d 7 f))
include hr hc he hl

/-- What holds once the agent has discarded, and every report, mark and log keeps, holds after the meeting. -/
theorem meetBeacon_of_discard (hs : skewed (skewOf s ag).1 = true) (hd : I (discardAll s ag)) : I (meetBeacon s ag) := by
  rw [meetBeacon_eq, hs]
  change I (if 0 ≤ (skewOf s ag).1 then _ else _)
  split
  · exact hd
  · have hrep : I (reportSkew (discardAll s ag) ag (skewOf s ag).1) :=
      List.foldlRecOn _ _ (motive := I) hd fun t ht x _ => hr t _ _ _ ht
    exact hl _ _ _ (skewTransfers_keeps hrep (fun t k us => hc t k us _) (fun k hk => he _ k _ hk hrep))

theorem meetBeacon_keeps (h : I s) (hd : I (discardAll s ag)) : I (meetBeacon s ag) := by
  cases hs : skewed (skewOf s ag).1 with
  | false => rw [meetBeacon_eq, hs]; exact h
  | true => exact meetBeacon_of_discard hr hc he hl hs hd

end Meeting

/-- A part of the state that no report, mark or log touches changes only where the agent discards. -/
theorem meetBeacon_project {α : Type} (π : State → α) (s : State) (ag : XAgent)
    (hr : ∀ t p ctx d, π (State.modCtx t p ctx (fun x => x.addSkew d)) = π t)
    (hc : ∀ t k us d, π (State.modCore t k (fun c => c.skewCopies us ag d)) = π t)
    (he : ∀ t k d, ag = .engine k → π (State.modRun t k (fun r => r.skewFlight d)) = π t)
    (hl : ∀ t d f, π (State.modBank t d 7 f) = π t) :
    π (meetBeacon s ag) = if skewed (skewOf s ag).1 then π (discardAll s ag) else π s := by
  cases hs : skewed (skewOf s ag).1 with
  | false => rw [meetBeacon_eq, hs]; rfl
  | true =>
    exact meetBeacon_of_discard (I := fun t => π t = π (discardAll s ag)) (fun t p ctx d h => (hr t p ctx d).trans h)
      (fun t k us d h => (hc t k us d).trans h) (fun t k d hk h => (he t k d hk).trans h) (fun t d f h => (hl t d f).trans h) hs rfl

/-! Clusters and base dies -/

/-- A cluster's translation structures after a beacon. -/
def ClusterX.met (x : ClusterX) : ClusterX := if skewed x.skew then ⟨[], [], 0⟩ else x
/-- A base die's after a beacon. -/
def BaseDie.met (b : BaseDie) : BaseDie := if skewed b.skew then ⟨[], 0⟩ else b

theorem ClusterX.met_met (x : ClusterX) : x.met.met = x.met := by
  unfold ClusterX.met
  split <;> rfl
theorem BaseDie.met_met (b : BaseDie) : b.met.met = b.met := by
  unfold BaseDie.met
  split <;> rfl

theorem meetBeacon_clusters (s : State) (ag : XAgent) (c : ClusterId) :
    (meetBeacon s ag).clusters[c] = if skewed (skewOf s ag).1 then (discardAll s ag).clusters[c] else s.clusters[c] :=
  meetBeacon_project (fun t => t.clusters[c]) s ag (fun _ _ _ _ => rfl) (fun _ _ _ _ => rfl) (fun _ _ _ _ => rfl) (fun _ _ _ => rfl)

theorem discardAll_clusters {s : State} {ag : XAgent} {c : ClusterId} (h : ag ≠ .cluster c) :
    (discardAll s ag).clusters[c] = s.clusters[c] := by
  cases ag with
  | cluster d => exact State.cluster_modCluster_other s _ (by rintro rfl; exact h rfl)
  | _ => rfl

theorem meetBeacon_baseDies (s : State) (ag : XAgent) (d : StackId) :
    (meetBeacon s ag).baseDies[d] = if skewed (skewOf s ag).1 then (discardAll s ag).baseDies[d] else s.baseDies[d] :=
  meetBeacon_project (fun t => t.baseDies[d]) s ag (fun _ _ _ _ => rfl) (fun _ _ _ _ => rfl) (fun _ _ _ _ => rfl) (fun _ _ _ => rfl)

theorem discardAll_baseDies {s : State} {ag : XAgent} {d : StackId} (h : ag ≠ .stack d) :
    (discardAll s ag).baseDies[d] = s.baseDies[d] := by
  cases ag with
  | stack e => exact State.die_modDie_other s _ (by rintro rfl; exact h rfl)
  | _ => rfl

/-- The users are forgotten once every agent has met the beacon. -/
def State.forgetUsers (s : State) : State := { s with users := [] }

theorem State.beacon_eq (s : State) : s.beacon = (agents.foldl meetBeacon s).forgetUsers := rfl
theorem State.forgetUsers_users (s : State) : s.forgetUsers.users = [] := rfl
theorem State.forgetUsers_time (s : State) : s.forgetUsers.time = s.time := rfl
theorem State.forgetUsers_clusters (s : State) : s.forgetUsers.clusters = s.clusters := rfl
theorem State.forgetUsers_engines (s : State) : s.forgetUsers.engines = s.engines := rfl
theorem State.forgetUsers_baseDies (s : State) : s.forgetUsers.baseDies = s.baseDies := rfl
theorem State.forgetUsers_core (s : State) (k : CoreId) : s.forgetUsers.core k = s.core k := rfl
theorem State.forgetUsers_thr (s : State) (k : CoreId) (u : Tid) : s.forgetUsers.thr k u = s.thr k u := rfl
theorem State.byteAt_forgetUsers (s : State) : SameBytes s s.forgetUsers := sameBytes_of_cores rfl ⟨rfl, rfl, rfl, rfl⟩

theorem mem_agents (ag : XAgent) : ag ∈ agents := by
  cases ag <;> simp [agents]

/-- After every agent has met the beacon, a cluster has met it. -/
theorem beacon_clusters (s : State) (c : ClusterId) : s.beacon.clusters[c] = s.clusters[c].met := by
  rw [State.beacon_eq, State.forgetUsers_clusters]
  exact foldl_project (fun t : State => t.clusters[c]) (mem_agents (.cluster c)) ClusterX.met_met
    (fun t => by rw [meetBeacon_clusters, ClusterX.met, discardAll, State.cluster_modCluster_same]; rfl)
    (fun t ag h => by rw [meetBeacon_clusters, discardAll_clusters h, ite_self]) s

theorem beacon_baseDies (s : State) (d : StackId) : s.beacon.baseDies[d] = s.baseDies[d].met := by
  rw [State.beacon_eq, State.forgetUsers_baseDies]
  exact foldl_project (fun t : State => t.baseDies[d]) (mem_agents (.stack d)) BaseDie.met_met
    (fun t => by rw [meetBeacon_baseDies, BaseDie.met, discardAll, State.die_modDie_same]; rfl)
    (fun t ag h => by rw [meetBeacon_baseDies, discardAll_baseDies h, ite_self]) s

/-! Engines -/

/-- An engine after a beacon. -/
def Engine.met (e : Engine) : Engine :=
  if !skewed e.skew then e
  else if 0 ≤ e.skew then { e with tlb := [], skew := 0 }
  else { e with tlb := [], skew := 0, running := e.running.map (fun r => r.skewFlight e.skew) }

theorem Engine.met_met (e : Engine) : e.met.met = e.met := by
  unfold Engine.met
  split
  · rfl
  · split <;> rfl

theorem meetBeacon_engine_same (s : State) (k : EngineId) : (meetBeacon s (.engine k)).engines[k] = s.engines[k].met := by
  rw [meetBeacon_eq, Engine.met]
  change (if !skewed s.engines[k].skew then s else if 0 ≤ s.engines[k].skew then _ else _).engines[k] = _
  split
  · rfl
  · split
    · exact State.engine_modEngine_same s k _
    · have hrep (t : State) (d : Int) : (reportSkew t (.engine k) d).engines = t.engines :=
        List.foldlRecOn _ _ (motive := fun x : State => x.engines = t.engines) rfl fun x hx _ _ => hx
      have hrun (t : State) (d : Int) : (skewTransfers t (.engine k) d).engines[k] = { t.engines[k] with
          running := t.engines[k].running.map (fun r => r.skewFlight d) } := State.engine_modEngine_same t k _
      change (skewTransfers _ (.engine k) _).engines[k] = _
      rw [hrun]
      simp only [hrep, discardAll, State.engine_modEngine_same]
      rfl

theorem meetBeacon_engine_other {s : State} {ag : XAgent} {k : EngineId} (h : ag ≠ .engine k) :
    (meetBeacon s ag).engines[k] = s.engines[k] := by
  have hne (j : EngineId) (hj : ag = .engine j) : k ≠ j := by rintro rfl; exact h hj
  rw [meetBeacon_project (fun t => t.engines[k]) s ag (fun _ _ _ _ => rfl) (fun _ _ _ _ => rfl)
    (fun t j _ hj => State.engine_modEngine_other t _ (hne j hj)) (fun _ _ _ => rfl)]
  have hdis : (discardAll s ag).engines[k] = s.engines[k] := by
    cases ag with
    | engine j => exact State.engine_modEngine_other s _ (hne j rfl)
    | _ => rfl
  rw [hdis, ite_self]

theorem beacon_engines (s : State) (k : EngineId) : s.beacon.engines[k] = s.engines[k].met := by
  rw [State.beacon_eq, State.forgetUsers_engines]
  exact foldl_project (fun t : State => t.engines[k]) (mem_agents (.engine k)) Engine.met_met
    (fun t => meetBeacon_engine_same t k) (fun _ _ h => meetBeacon_engine_other h) s

/-! A core's translations -/

/-- A core's copy of the time base and its cached translations. -/
def Core.leases (c : Core) : Int × List TlbEntry × List TlbEntry × List TlbEntry := (c.skew, c.scalarTlb, c.vectorTlb, c.gatherTlb)
/-- These after a beacon. -/
def metLeases (l : Int × List TlbEntry × List TlbEntry × List TlbEntry) : Int × List TlbEntry × List TlbEntry × List TlbEntry :=
  if skewed l.1 then (0, [], [], []) else l

theorem metLeases_metLeases (l : Int × List TlbEntry × List TlbEntry × List TlbEntry) : metLeases (metLeases l) = metLeases l := by
  unfold metLeases
  split <;> rfl

theorem State.thr_modCtx (s : State) (p : FuncId) (ctx : BitVec 16) (f : Thread → Thread) (k : CoreId) (u : Tid) :
    (s.modCtx p ctx f).thr k u = if (s.thr k u).isCtx p ctx then f (s.thr k u) else s.thr k u := by
  simp only [State.thr, State.core, State.modCtx, Fin.getElem_fin, Vector.getElem_map]
  rfl

theorem State.spad_modCtx (s : State) (p : FuncId) (ctx : BitVec 16) (f : Thread → Thread) (k : CoreId) :
    ((s.modCtx p ctx f).core k).spad = (s.core k).spad := by
  simp only [State.core, State.modCtx, Fin.getElem_fin, Vector.getElem_map]

theorem State.copies_modCtx (s : State) (p : FuncId) (ctx : BitVec 16) (f : Thread → Thread) (k : CoreId) :
    ((s.modCtx p ctx f).core k).copies = (s.core k).copies := by
  simp only [State.core, State.modCtx, Fin.getElem_fin, Vector.getElem_map]

theorem State.leases_modCtx (s : State) (p : FuncId) (ctx : BitVec 16) (f : Thread → Thread) (k : CoreId) :
    ((s.modCtx p ctx f).core k).leases = (s.core k).leases := by
  simp only [Core.leases, State.core, State.modCtx, Fin.getElem_fin, Vector.getElem_map]

theorem meetBeacon_leases (s : State) (ag : XAgent) (k : CoreId) : ((meetBeacon s ag).core k).leases
    = if skewed (skewOf s ag).1 then ((discardAll s ag).core k).leases else (s.core k).leases :=
  meetBeacon_project (fun t => (t.core k).leases) s ag (fun t p ctx d => t.leases_modCtx p ctx _ k)
    (fun t j us d => State.core_modCore_of (π := Core.leases) (by intro _; rfl) t j k) (fun _ _ _ => by intro _; rfl) (fun _ _ _ => rfl)

theorem discardAll_leases {s : State} {ag : XAgent} {k : CoreId} (h : ag ≠ .core k) :
    ((discardAll s ag).core k).leases = (s.core k).leases := by
  cases ag with
  | core j => exact congrArg Core.leases (State.core_modCore_other s _ (by rintro rfl; exact h rfl))
  | _ => rfl

theorem beacon_leases (s : State) (k : CoreId) : (s.beacon.core k).leases = metLeases (s.core k).leases := by
  rw [State.beacon_eq, State.forgetUsers_core]
  exact foldl_project (fun t : State => (t.core k).leases) (mem_agents (.core k)) metLeases_metLeases
    (fun t => by rw [meetBeacon_leases, metLeases, discardAll, State.core_modCore_same]; rfl)
    (fun t ag h => by rw [meetBeacon_leases, discardAll_leases h, ite_self]) s

/-! The drift that an agent meets the beacon with -/

/-- Another agent's meeting leaves an agent's own drift. -/
theorem skewOf_meetBeacon {s : State} {ag b : XAgent} (h : b ≠ ag) : skewOf (meetBeacon s b) ag = skewOf s ag := by
  cases ag with
  | core k =>
    have hk : ((meetBeacon s b).core k).leases = (s.core k).leases := by rw [meetBeacon_leases, discardAll_leases h, ite_self]
    exact congrArg (fun d => (d, _)) (congrArg Prod.fst hk)
  | cluster c => simp only [skewOf, meetBeacon_clusters, discardAll_clusters h, ite_self]
  | engine k => simp only [skewOf, meetBeacon_engine_other h]
  | stack d => simp only [skewOf, meetBeacon_baseDies, discardAll_baseDies h, ite_self]

/-! Reports: what a beacon leaves of the threads, the copies and the bytes -/

/-- Of a core's threads and copies a beacon changes only faults to come, and takes none of them back. -/
structure Core.Reported (a b : Core) : Prop where
  spad : b.spad = a.spad
  thread (u : Tid) : { b.threads[u] with skewFault := a.threads[u].skewFault } = a.threads[u]
  fault (u : Tid) : a.threads[u].skewFault ≠ none → b.threads[u].skewFault ≠ none
  copy (i : Nat) (x : CopyCmd) : a.copies[i]? = some x →
    ∃ y, b.copies[i]? = some y ∧ { y with skew := x.skew } = x ∧ (x.skew ≠ none → y.skew ≠ none)

theorem Core.Reported.trans {a b c : Core} (h1 : a.Reported b) (h2 : b.Reported c) : a.Reported c where
  spad := h2.spad.trans h1.spad
  thread u := (congrArg (fun t : Thread => { t with skewFault := a.threads[u].skewFault }) (h2.thread u)).trans (h1.thread u)
  fault u h := h2.fault u (h1.fault u h)
  copy i x h := by
    obtain ⟨y, hy, hxy, hs1⟩ := h1.copy i x h
    obtain ⟨z, hz, hyz, hs2⟩ := h2.copy i y hy
    exact ⟨z, hz, (congrArg (fun w : CopyCmd => { w with skew := x.skew }) hyz).trans hxy, fun h => hs2 (hs1 h)⟩

/-- A change beside the scratchpad, the threads and the copies. -/
theorem Core.reported_of_eq {a b : Core} (hs : b.spad = a.spad) (ht : b.threads = a.threads) (hc : b.copies = a.copies) : a.Reported b where
  spad := hs
  thread u := by simp only [ht]
  fault u h := by simpa only [ht] using h
  copy i x h := ⟨x, by rw [hc, h], rfl, id⟩

theorem CopyCmd.addSkew_reported (x : CopyCmd) (us : List (XAgent × FuncId × BitVec 16)) (ag : XAgent) (d : Int) :
    { x.addSkew us ag d with skew := x.skew } = x ∧ (x.skew ≠ none → (x.addSkew us ag d).skew ≠ none) := by
  unfold CopyCmd.addSkew
  split
  · exact ⟨rfl, fun _ => Option.some_ne_none d⟩
  · exact ⟨rfl, fun h => h⟩

theorem Core.reported_skewCopies (c : Core) (us : List (XAgent × FuncId × BitVec 16)) (ag : XAgent) (d : Int) :
    c.Reported (c.skewCopies us ag d) where
  spad := rfl
  thread _ := rfl
  fault _ := id
  copy i x h := ⟨x.addSkew us ag d, by rw [Core.skewCopies, List.getElem?_map, h]; rfl, x.addSkew_reported us ag d⟩

/-- The state but for its cores' reports and the agents' structures is as before. -/
structure Reported (s t : State) : Prop where
  rest : { t with cores := s.cores, clusters := s.clusters, engines := s.engines, baseDies := s.baseDies, banks := s.banks } = s
  core (k : CoreId) : (s.core k).Reported (t.core k)

theorem Reported.trans {a b c : State} (h1 : Reported a b) (h2 : Reported b c) : Reported a c where
  rest := (congrArg (fun x : State => { x with
    cores := a.cores, clusters := a.clusters, engines := a.engines, baseDies := a.baseDies, banks := a.banks }) h2.rest).trans h1.rest
  core k := (h1.core k).trans (h2.core k)

theorem Reported.users {s t : State} (h : Reported s t) : t.users = s.users := by
  have := congrArg State.users h.rest; exact this
theorem Reported.time {s t : State} (h : Reported s t) : t.time = s.time := by
  have := congrArg State.time h.rest; exact this
theorem Reported.bytes {s t : State} (h : Reported s t) : SameBytes s t := by
  have hwm := congrArg State.wm h.rest
  have hhost := congrArg State.host h.rest
  have hq := congrArg State.qmem h.rest
  have hp := congrArg State.peers h.rest
  exact sameBytes_of_spad (fun k => (h.core k).spad) ⟨hwm, hhost, hq, hp⟩
theorem Reported.isCtx {s t : State} (h : Reported s t) (k : CoreId) (u : Tid) (f : FuncId) (ctx : BitVec 16) :
    (t.thr k u).isCtx f ctx = (s.thr k u).isCtx f ctx := by
  have ht : (t.thr k u).task = (s.thr k u).task := by have := congrArg Thread.task ((h.core k).thread u); exact this
  rw [Thread.isCtx, Thread.isCtx, ht]
theorem Reported.fault {s t : State} (h : Reported s t) {k : CoreId} {u : Tid} : (s.thr k u).skewFault ≠ none → (t.thr k u).skewFault ≠ none :=
  (h.core k).fault u

/-- A change of the agents' structures and the banks. -/
theorem reported_of_cores {s t : State} (hc : t.cores = s.cores)
    (h : { t with cores := s.cores, clusters := s.clusters, engines := s.engines, baseDies := s.baseDies, banks := s.banks } = s) : Reported s t where
  rest := h
  core k := by
    have hk : t.core k = s.core k := by simp only [State.core, hc]
    rw [hk]; exact Core.reported_of_eq rfl rfl rfl

theorem Reported.refl (s : State) : Reported s s := reported_of_cores rfl rfl

theorem reported_modCore (s : State) (k : CoreId) {f : Core → Core} (hf : ∀ c : Core, c.Reported (f c)) : Reported s (s.modCore k f) where
  rest := rfl
  core j := by
    by_cases h : j = k
    · rw [h, State.core_modCore_same]; exact hf _
    · rw [State.core_modCore_other s f h]; exact (Reported.refl s).core j

/-- A drift added to a thread is a fault to come. -/
theorem Thread.addSkew_reported (t : Thread) (d : Int) :
    { t.addSkew d with skewFault := t.skewFault } = t ∧ (t.skewFault ≠ none → (t.addSkew d).skewFault ≠ none) := by
  unfold Thread.addSkew
  split
  · exact ⟨rfl, fun _ => Option.some_ne_none d⟩
  · exact ⟨rfl, fun h => h⟩

theorem thr_reported_modCtx (s : State) (p : FuncId) (ctx : BitVec 16) (d : Int) (k : CoreId) (u : Tid) :
    let t := s.modCtx p ctx (fun x => x.addSkew d)
    { t.thr k u with skewFault := (s.thr k u).skewFault } = s.thr k u ∧ ((s.thr k u).skewFault ≠ none → (t.thr k u).skewFault ≠ none) := by
  intro t
  rw [State.thr_modCtx]
  split
  · exact Thread.addSkew_reported _ d
  · exact ⟨rfl, fun h => h⟩

theorem reported_modCtx (s : State) (p : FuncId) (ctx : BitVec 16) (d : Int) : Reported s (s.modCtx p ctx (fun t => t.addSkew d)) where
  rest := rfl
  core k := ⟨s.spad_modCtx p ctx _ k, fun u => (thr_reported_modCtx s p ctx d k u).1, fun u => (thr_reported_modCtx s p ctx d k u).2,
    fun i x h => ⟨x, by rw [State.copies_modCtx, h], rfl, fun h => h⟩⟩

theorem reported_discardAll (s : State) (ag : XAgent) : Reported s (discardAll s ag) := by
  cases ag with
  | core k =>
    exact reported_modCore s k (f := fun c => { c with skew := 0, scalarTlb := [], vectorTlb := [], gatherTlb := [] })
      fun _ => Core.reported_of_eq rfl rfl rfl
  | cluster c => exact reported_of_cores rfl rfl
  | engine k => exact reported_of_cores rfl rfl
  | stack d => exact reported_of_cores rfl rfl

theorem reported_reportSkew (s : State) (ag : XAgent) (d : Int) : Reported s (reportSkew s ag d) :=
  List.foldlRecOn _ _ (motive := Reported s) (Reported.refl s) fun t ht _ _ => ht.trans (reported_modCtx t _ _ d)

theorem reported_skewTransfers (s : State) (ag : XAgent) (d : Int) : Reported s (skewTransfers s ag d) :=
  skewTransfers_keeps (Reported.refl s) (fun t k us h => h.trans (reported_modCore t k fun c => c.reported_skewCopies us ag d))
    (fun _ _ => reported_of_cores rfl rfl)

theorem reported_meetBeacon (s : State) (ag : XAgent) : Reported s (meetBeacon s ag) :=
  meetBeacon_keeps (fun t p ctx d h => h.trans (reported_modCtx t p ctx d))
    (fun t k us d h => h.trans (reported_modCore t k fun c => c.reported_skewCopies us ag d))
    (fun _ _ _ _ h => h.trans (reported_of_cores rfl rfl)) (fun _ _ _ h => h.trans (reported_of_cores rfl rfl)) (Reported.refl s)
    (reported_discardAll s ag)

theorem reported_beacon (s : State) : Reported s (agents.foldl meetBeacon s) :=
  List.foldlRecOn _ _ (motive := Reported s) (Reported.refl s) fun t ht ag _ => ht.trans (reported_meetBeacon t ag)

/-! Who a behind-drift reaches -/

theorem Thread.skewFault_addSkew {t : Thread} {f : FuncId} {ctx : BitVec 16} (h : t.isCtx f ctx = true) (d : Int) :
    (t.addSkew d).skewFault ≠ none := by
  have ht : t.task.isSome = true := by
    cases htask : t.task with
    | none => simp [Thread.isCtx, htask] at h
    | some x => rfl
  rw [Thread.addSkew, if_pos ht]
  exact Option.some_ne_none d

/-- Every context that translated through the agent is told, wherever a core runs it. -/
theorem reportSkew_reaches {s : State} {ag : XAgent} {f : FuncId} {ctx : BitVec 16} (hu : (ag, f, ctx) ∈ s.users) {k : CoreId} {u : Tid}
    (hx : (s.thr k u).isCtx f ctx = true) (d : Int) : ((reportSkew s ag d).thr k u).skewFault ≠ none := by
  have hmem : (ag, f, ctx) ∈ s.users.filter (fun x => x.1 == ag) := List.mem_filter.2 ⟨hu, beq_self_eq_true ag⟩
  refine foldl_reaches (I := Reported s) (Q := fun t => (t.thr k u).skewFault ≠ none) hmem (Reported.refl s)
    (fun t x _ ht => ht.trans (reported_modCtx t _ _ d)) (fun t ht => ?_) fun t x ht => (reported_modCtx t _ _ d).fault ht
  have htx : (t.thr k u).isCtx f ctx = true := (ht.isCtx k u f ctx).trans hx
  rw [State.thr_modCtx, if_pos htx]
  exact Thread.skewFault_addSkew htx d

/-- An agent that is behind tells the contexts among its users. -/
theorem meetBeacon_tells {s : State} {ag : XAgent} {f : FuncId} {ctx : BitVec 16} (hd : (skewOf s ag).1 < -1) (hu : (ag, f, ctx) ∈ s.users)
    {k : CoreId} {u : Tid} (hx : (s.thr k u).isCtx f ctx = true) : ((meetBeacon s ag).thr k u).skewFault ≠ none := by
  have hdis := reported_discardAll s ag
  have hu' : (ag, f, ctx) ∈ (discardAll s ag).users := by rwa [hdis.users]
  have hx' : ((discardAll s ag).thr k u).isCtx f ctx = true := by rwa [hdis.isCtx]
  rw [meetBeacon_behind hd]
  exact (reported_skewTransfers _ ag _).fault (reportSkew_reaches hu' hx' _)

theorem CopyCmd.fields_of_skew {x y : CopyCmd} {d : Option Int} (h : { y with skew := d } = x) :
    y.id = x.id ∧ y.part = x.part ∧ y.ctx = x.ctx ∧ y.pages = x.pages := by
  subst h; exact ⟨rfl, rfl, rfl, rfl⟩

theorem CopyCmd.skew_addSkew {x : CopyCmd} {us : List (XAgent × FuncId × BitVec 16)} {ag : XAgent} (hp : x.pages ≠ [])
    (hu : (ag, x.part, x.ctx) ∈ us) (d : Int) : (x.addSkew us ag d).skew = some d := by
  rw [CopyCmd.addSkew, if_pos (by simp [hp, hu])]

theorem core_logSkew (s : State) (d : DieId) (j k : CoreId) (x : Int) : (logSkew s d j x).core k = s.core k := rfl

theorem core_skewTransfers (s : State) (k : CoreId) (d : Int) :
    (skewTransfers s (.core k) d).core k = (s.core k).skewCopies s.users (.core k) d := State.core_modCore_same s k _

/-- A core that is behind marks the copies of its users that have used a page. -/
theorem meetBeacon_marks {s : State} {k : CoreId} (hd : (s.core k).skew < -1) {i : Nat} {x : CopyCmd} (hx : (s.core k).copies[i]? = some x)
    (hp : x.pages ≠ []) (hu : (.core k, x.part, x.ctx) ∈ s.users) :
    ∃ y, ((meetBeacon s (.core k)).core k).copies[i]? = some y ∧ y.id = x.id ∧ y.skew ≠ none := by
  have hrep := (reported_discardAll s (.core k)).trans (reported_reportSkew _ (.core k) (s.core k).skew)
  obtain ⟨y, hy, hxy, -⟩ := (hrep.core k).copy i x hx
  obtain ⟨hid, hpart, hctx, hpages⟩ := CopyCmd.fields_of_skew hxy
  have hcore : (meetBeacon s (.core k)).core k
      = ((reportSkew (discardAll s (.core k)) (.core k) (s.core k).skew).core k).skewCopies s.users (.core k) (s.core k).skew := by
    rw [meetBeacon_behind (s := s) (ag := .core k) hd, core_logSkew, core_skewTransfers, ← hrep.users]; rfl
  refine ⟨y.addSkew s.users (.core k) (s.core k).skew, ?_, ?_, ?_⟩
  · rw [hcore, Core.skewCopies, List.getElem?_map, hy]; rfl
  · obtain ⟨hid', -⟩ := CopyCmd.fields_of_skew (y.addSkew_reported s.users (.core k) (s.core k).skew).1
    exact hid'.trans hid
  · rw [CopyCmd.skew_addSkew (by rwa [hpages]) (by rwa [hpart, hctx])]; exact Option.some_ne_none _

/-! The whole beacon -/

/-- What an agent's meeting gives, the beacon gives: up to that meeting the agent has its own drift, and reports stay. -/
theorem beacon_reaches {Q : State → Prop} {s : State} (ag : XAgent)
    (hQ : ∀ t, Reported s t → skewOf t ag = skewOf s ag → Q (meetBeacon t ag)) (hk : ∀ t t', Reported t t' → Q t → Q t') :
    Q (agents.foldl meetBeacon s) :=
  foldl_reaches (I := fun t => Reported s t ∧ skewOf t ag = skewOf s ag) (mem_agents ag) ⟨Reported.refl s, rfl⟩
    (fun t b hb ⟨hr, hs⟩ => ⟨hr.trans (reported_meetBeacon t b), (skewOf_meetBeacon hb).trans hs⟩)
    (fun t ⟨hr, hs⟩ => hQ t hr hs) fun t b => hk t _ (reported_meetBeacon t b)

/-- Every context that translated through an agent that is behind has a lease-skew fault to come. -/
theorem beacon_tells {s : State} {ag : XAgent} {f : FuncId} {ctx : BitVec 16} (hu : (ag, f, ctx) ∈ s.users) (hd : (skewOf s ag).1 < -1)
    {k : CoreId} {u : Tid} (hx : (s.thr k u).isCtx f ctx = true) : (s.beacon.thr k u).skewFault ≠ none := by
  rw [State.beacon_eq, State.forgetUsers_thr]
  exact beacon_reaches (Q := fun t => (t.thr k u).skewFault ≠ none) ag
    (fun t hr hs => meetBeacon_tells (by rwa [hs]) (by rwa [hr.users]) ((hr.isCtx k u f ctx).trans hx)) fun _ _ hr => hr.fault

/-- Every copy of a core that is behind, of its users and with a page used, has a fault to come. -/
theorem beacon_marks {s : State} {k : CoreId} (hd : (s.core k).skew < -1) {i : Nat} {x : CopyCmd} (hx : (s.core k).copies[i]? = some x)
    (hp : x.pages ≠ []) (hu : (.core k, x.part, x.ctx) ∈ s.users) :
    ∃ y, (s.beacon.core k).copies[i]? = some y ∧ y.id = x.id ∧ y.skew ≠ none := by
  rw [State.beacon_eq, State.forgetUsers_core]
  refine beacon_reaches (Q := fun t => ∃ y, (t.core k).copies[i]? = some y ∧ y.id = x.id ∧ y.skew ≠ none) (.core k) ?_ ?_
  · intro t hr hs
    have hskew : (t.core k).skew = (s.core k).skew := congrArg Prod.fst hs
    obtain ⟨z, hz, hxz, -⟩ := (hr.core k).copy i x hx
    obtain ⟨hid, hpart, hctx, hpages⟩ := CopyCmd.fields_of_skew hxz
    obtain ⟨y, hy, hyz, hne⟩ := meetBeacon_marks (by rwa [hskew]) hz (by rwa [hpages]) (by rwa [hpart, hctx, hr.users])
    exact ⟨y, hy, hyz.trans hid, hne⟩
  · rintro t t' hr ⟨y, hy, hid, hne⟩
    obtain ⟨z, hz, hyz, hkeep⟩ := (hr.core k).copy i y hy
    obtain ⟨hid', -⟩ := CopyCmd.fields_of_skew hyz
    exact ⟨z, hz, hid'.trans hid, hkeep hne⟩

/-! The structures after a beacon, by the drift -/

theorem ClusterX.met_of_skewed {x : ClusterX} (h : x.skew < -1 ∨ 1 < x.skew) : x.met = ⟨[], [], 0⟩ := if_pos (by simp [skewed]; omega)
theorem ClusterX.met_of_near {x : ClusterX} (h1 : -1 ≤ x.skew) (h2 : x.skew ≤ 1) : x.met = x :=
  if_neg (by simp [(skewed_eq_false_iff _).2 ⟨h1, h2⟩])
theorem BaseDie.met_of_skewed {b : BaseDie} (h : b.skew < -1 ∨ 1 < b.skew) : b.met = ⟨[], 0⟩ := if_pos (by simp [skewed]; omega)
theorem BaseDie.met_of_near {b : BaseDie} (h1 : -1 ≤ b.skew) (h2 : b.skew ≤ 1) : b.met = b :=
  if_neg (by simp [(skewed_eq_false_iff _).2 ⟨h1, h2⟩])
theorem metLeases_of_skewed {c : Core} (h : c.skew < -1 ∨ 1 < c.skew) : metLeases c.leases = (0, [], [], []) :=
  if_pos (show skewed c.skew = true by simp [skewed]; omega)
theorem metLeases_of_near {c : Core} (h1 : -1 ≤ c.skew) (h2 : c.skew ≤ 1) : metLeases c.leases = c.leases :=
  if_neg (by simp [Core.leases, (skewed_eq_false_iff _).2 ⟨h1, h2⟩])
theorem Engine.met_of_near {e : Engine} (h1 : -1 ≤ e.skew) (h2 : e.skew ≤ 1) : e.met = e :=
  if_pos (by simp [(skewed_eq_false_iff _).2 ⟨h1, h2⟩])
theorem Engine.met_of_ahead {e : Engine} (h : 1 < e.skew) : e.met = { e with tlb := [], skew := 0 } := by
  rw [Engine.met, if_neg (by simp [skewed]; omega), if_pos (by omega)]
theorem Engine.met_of_behind {e : Engine} (h : e.skew < -1) :
    e.met = { e with tlb := [], skew := 0, running := e.running.map (fun r => r.skewFlight e.skew) } := by
  rw [Engine.met, if_neg (by simp [skewed]; omega), if_neg (by omega)]

/-- The commands in flight of an engine that is behind: those that have used a page have a fault to come. -/
theorem SegRun.skewFlight_spec (r : SegRun) (d : Int) : (r.skewFlight d).flight.length = r.flight.length
    ∧ ∀ (i : Nat) (x : EngCmd), r.flight[i]? = some x → x.pages ≠ [] →
      ∃ y, (r.skewFlight d).flight[i]? = some y ∧ y.addr = x.addr ∧ y.skew = some d := by
  refine ⟨List.length_map _, fun i x hx hp => ⟨{ x with skew := some d }, ?_, rfl, rfl⟩⟩
  rw [SegRun.skewFlight, List.getElem?_map, hx, Option.map_some, EngCmd.addSkew, if_neg (by simp [hp])]

/-- The beacon, met at its microsecond (R54, R63). -/
theorem timeBeacon_due {s : State} (h : s.time.toNat % 1000 = 0) : exec .timeBeacon s = .next s.beacon :=
  congrArg Host.Outcome.next (if_pos h)

section Beacon

variable (s : State)

theorem beacon_users : s.beacon.users = [] := by rw [State.beacon_eq, State.forgetUsers_users]

theorem beacon_time : s.beacon.time = s.time := by rw [State.beacon_eq, State.forgetUsers_time]; exact (reported_beacon s).time

theorem byteAt_beacon : SameBytes s s.beacon := by
  rw [State.beacon_eq]; exact (reported_beacon s).bytes.trans (State.byteAt_forgetUsers _)

/-- A core after the beacon, by its drift. -/
theorem beacon_core (k : CoreId) :
    (-1 ≤ (s.core k).skew → (s.core k).skew ≤ 1 → (s.beacon.core k).skew = (s.core k).skew
        ∧ (s.beacon.core k).scalarTlb = (s.core k).scalarTlb ∧ (s.beacon.core k).vectorTlb = (s.core k).vectorTlb)
      ∧ ((s.core k).skew < -1 ∨ 1 < (s.core k).skew → (s.beacon.core k).skew = 0
        ∧ (s.beacon.core k).scalarTlb = [] ∧ (s.beacon.core k).vectorTlb = [] ∧ (s.beacon.core k).gatherTlb = []) := by
  have ht : (s.beacon.core k).leases = metLeases (s.core k).leases := beacon_leases s k
  refine ⟨fun h1 h2 => ?_, fun h => ?_⟩
  · rw [metLeases_of_near h1 h2] at ht
    simp only [Core.leases, Prod.mk.injEq] at ht
    obtain ⟨hskew, hscalar, hvector, -⟩ := ht
    exact ⟨hskew, hscalar, hvector⟩
  · rw [metLeases_of_skewed h] at ht
    simpa only [Core.leases, Prod.mk.injEq] using ht

theorem beacon_cluster (c : ClusterId) :
    (-1 ≤ s.clusters[c].skew → s.clusters[c].skew ≤ 1 → s.beacon.clusters[c] = s.clusters[c])
      ∧ (s.clusters[c].skew < -1 ∨ 1 < s.clusters[c].skew →
        s.beacon.clusters[c].skew = 0 ∧ s.beacon.clusters[c].tlb = [] ∧ s.beacon.clusters[c].walks = []) := by
  rw [beacon_clusters]
  exact ⟨ClusterX.met_of_near, fun h => by rw [ClusterX.met_of_skewed h]; exact ⟨rfl, rfl, rfl⟩⟩

theorem beacon_stack (d : StackId) :
    (-1 ≤ s.baseDies[d].skew → s.baseDies[d].skew ≤ 1 → s.beacon.baseDies[d] = s.baseDies[d])
      ∧ (s.baseDies[d].skew < -1 ∨ 1 < s.baseDies[d].skew → s.beacon.baseDies[d].skew = 0 ∧ s.beacon.baseDies[d].cache = []) := by
  rw [beacon_baseDies]
  exact ⟨BaseDie.met_of_near, fun h => by rw [BaseDie.met_of_skewed h]; exact ⟨rfl, rfl⟩⟩

/-- An engine after the beacon, by its drift; behind, its commands that have used a page have a fault to come. -/
theorem beacon_engine (k : EngineId) :
    let d := s.engines[k].skew
    (-1 ≤ d → d ≤ 1 → s.beacon.engines[k] = s.engines[k]) ∧ (1 < d → s.beacon.engines[k] = { s.engines[k] with tlb := [], skew := 0 })
      ∧ (d < -1 → s.beacon.engines[k].tlb = [] ∧ s.beacon.engines[k].skew = 0 ∧ s.beacon.engines[k].chain = s.engines[k].chain
        ∧ ∀ r, s.engines[k].running = some r → ∃ q, s.beacon.engines[k].running = some q ∧ q.flight.length = r.flight.length
          ∧ ∀ (i : Nat) (x : EngCmd), r.flight[i]? = some x → x.pages ≠ [] →
            ∃ y, q.flight[i]? = some y ∧ y.addr = x.addr ∧ y.skew = some d) := by
  intro d
  rw [beacon_engines]
  refine ⟨Engine.met_of_near, Engine.met_of_ahead, fun h => ?_⟩
  rw [Engine.met_of_behind h]
  refine ⟨rfl, rfl, rfl, fun r hr => ⟨r.skewFlight d, ?_, r.skewFlight_spec d⟩⟩
  rw [hr]; rfl

end Beacon

/-- Settles O53: expiry and renewal each by the agent's own arm; the beacon by what one agent's meeting changes and what it leaves. -/
theorem expiryAndRenewal : Obligations.ExpiryAndRenewal := by
  refine ⟨fun s => ⟨expiry_core s, expiry_cluster s, expiry_engine s, expiry_stack s⟩, ?_, ?_, fun _ _ _ => rfl, ?_,
    fun s => ⟨fun h => congrArg Host.Outcome.next (if_neg h), fun h => ?_⟩⟩
  · intro s s1 k c p e w vpn hc hp hv hb he
    exact coreRenewal hc hp hv hb he
  · intro s s1 k g rest r x p e w vpn hr hg hf hp hv he hd hw
    exact engineRenewal hr hg hf hp hv he hd hw
  · intro s d vpn
    exact ⟨fun h => by rw [leaseRenewal_stack, h]; rfl, fun e w hc hq hu => stackRenewal hc hq hu⟩
  · refine ⟨_, timeBeacon_due h, byteAt_beacon s, beacon_time s, beacon_users s, fun ag f ctx hu hd k u hx => beacon_tells hu hd hx,
      fun k => ?_, beacon_cluster s, beacon_engine s, beacon_stack s⟩
    obtain ⟨hnear, hskewed⟩ := beacon_core s k
    exact ⟨hnear, hskewed, fun hd i x hx hp hu => beacon_marks hd hx hp hu⟩

end Sys2Proof.Machine
end

section
/-!
PROOFS. What an access of memory leaves alone: a read takes a wait's critical bit, a report and a full-empty bit (spec 05 R73, R77; 18
R341; 19 R355), a write leaves its bytes and the notes of who satisfied a wait.
-/

namespace Sys2Proof.Machine

/-! ## pc after an advance -/

/-- Where control passes depends on pc and the loop registers alone (R201). -/
theorem Thread.advance_pc_congr {t u : Thread} (hpc : t.pc = u.pc) (hle : t.le = u.le) (hlc : t.lc = u.lc) (hls : t.ls = u.ls)
    (hoff : t.loopOff = u.loopOff) : t.advance.pc = u.advance.pc := by
  simp only [Thread.advance, hpc, hle, hlc, hls, hoff]
  split <;> (try split) <;> rfl

/-! ## Reads -/

/-- From s the current thread has read memory, t is the state after: of its core the full-empty bits and the vector unit may have
changed, of itself the critical bit with its note, contained checks and the guard record. -/
structure ReadBy (s t : State) : Prop where
  core : t.curCore = s.curCore
  tid : t.curTid = s.curTid
  thread : { t.cur with cbit := s.cur.cbit, wakeC := s.cur.wakeC, checks := s.cur.checks, guard := s.cur.guard } = s.cur
  unit : { t.curC with threads := s.curC.threads, full := s.curC.full, vec := s.curC.vec } = s.curC
  bytes : SameBytes s t

namespace ReadBy

variable {s t u : State}

theorem refl (s : State) : ReadBy s s := ⟨rfl, rfl, rfl, rfl, fun _ => rfl⟩

theorem trans (h : ReadBy s t) (g : ReadBy t u) : ReadBy s u where
  core := g.core.trans h.core
  tid := g.tid.trans h.tid
  thread := (congrArg (fun x : Thread => { x with
    cbit := s.cur.cbit, wakeC := s.cur.wakeC, checks := s.cur.checks, guard := s.cur.guard }) g.thread).trans h.thread
  unit := (congrArg (fun x : Core => { x with threads := s.curC.threads, full := s.curC.full, vec := s.curC.vec }) g.unit).trans h.unit
  bytes := h.bytes.trans g.bytes

/-- A change of the current thread within what a read may change. -/
theorem modCur {f : Thread → Thread}
    (hf : ∀ x, { f x with cbit := x.cbit, wakeC := x.wakeC, checks := x.checks, guard := x.guard } = x) : ReadBy s (s.modCur f) where
  core := rfl
  tid := rfl
  thread := by rw [State.cur_modCur]; exact hf _
  unit := by rw [State.curC_modCur]
  bytes := State.byteAt_modCur s f

/-- A change of the current core's full-empty bits and vector unit. -/
theorem modCurC {f : Core → Core} (hf : ∀ c, { f c with full := c.full, vec := c.vec } = c) : ReadBy s (s.modCurC f) where
  core := rfl
  tid := rfl
  thread := by
    have ht (c : Core) : (f c).threads = c.threads := by have := congrArg Core.threads (hf c); exact this
    rw [State.modCurC, State.cur_modCore_of_threads ht]
  unit := by
    rw [State.curC_modCurC]
    exact congrArg (fun c : Core => { c with threads := s.curC.threads }) (hf s.curC)
  bytes := byteAt_modCore (fun c => by have := congrArg Core.spad (hf c); exact this) s s.curCore

theorem sreg (h : ReadBy s t) (r : SReg) : t.sreg r = s.sreg r :=
  sreg_of_sregs (by have := congrArg Thread.sregs h.thread; exact this) r

theorem spad (h : ReadBy s t) : t.curC.spad = s.curC.spad := by have := congrArg Core.spad h.unit; exact this
theorem spadPoison (h : ReadBy s t) : t.curC.spadPoison = s.curC.spadPoison := by have := congrArg Core.spadPoison h.unit; exact this

theorem advance_pc (h : ReadBy s t) : t.cur.advance.pc = s.cur.advance.pc := by
  refine Thread.advance_pc_congr ?_ ?_ ?_ ?_ ?_ <;> rw [← h.thread]

end ReadBy

theorem readBy_takeC (s : State) : ReadBy s s.takeC := ReadBy.modCur fun x => by dsimp only; split <;> rfl

/-- Poison that is read is logged in its bank, and the context takes a check (R341). -/
theorem State.poisonRead_eq (s : State) (b : DieId × Fin 16) :
    ∃ g, s.poisonRead b = (s.modBank b.1 b.2 g).modCur (fun t => t.addCheck b.1 b.2) := ⟨_, rfl⟩

theorem readBy_modBank (s : State) (d : DieId) (b : Fin 16) (g : Bank → Bank) : ReadBy s (s.modBank d b g) :=
  ⟨rfl, rfl, rfl, rfl, sameBytes_of_cores rfl ⟨rfl, rfl, rfl, rfl⟩⟩

theorem readBy_poisonRead (s : State) (b : DieId × Fin 16) : ReadBy s (s.poisonRead b) := by
  obtain ⟨g, h⟩ := s.poisonRead_eq b
  rw [h]
  exact (readBy_modBank s b.1 b.2 g).trans (ReadBy.modCur fun _ => rfl)

@[simp] theorem State.checks_poisonRead (s : State) (b : DieId × Fin 16) : (s.poisonRead b).cur.checks = s.cur.checks ++ [b] :=
  congrArg Thread.checks (State.cur_modCur _ _)

@[simp] theorem State.checks_takeC (s : State) : s.takeC.cur.checks = s.cur.checks := by
  rw [State.takeC, State.cur_modCur]; split <;> rfl

@[simp] theorem State.full_modCur (s : State) (f : Thread → Thread) : (s.modCur f).curC.full = s.curC.full := by simp

@[simp] theorem State.full_poisonRead (s : State) (b : DieId × Fin 16) : (s.poisonRead b).curC.full = s.curC.full := by
  obtain ⟨g, h⟩ := s.poisonRead_eq b
  rw [h, State.full_modCur]; rfl

@[simp] theorem State.full_takeC (s : State) : s.takeC.curC.full = s.curC.full := State.full_modCur s _

/-! ## Writes -/

/-- From s memory has been written for the current thread, t is the state after: working, host and peer memory, the current core's
scratchpad with its poison and full-empty bits, and the notes of who satisfied a wait (R355) may have changed. -/
structure Stored (s t : State) : Prop where
  outside : { t with cores := s.cores, fresh := s.fresh, wm := s.wm, wmPoison := s.wmPoison, host := s.host, peers := s.peers } = s
  core : ∀ k, k ≠ s.curCore → { t.core k with threads := (s.core k).threads } = s.core k
  thr : ∀ k u, { t.thr k u with wakeC := (s.thr k u).wakeC } = s.thr k u
  unit : { t.curC with threads := s.curC.threads, spad := s.curC.spad, spadPoison := s.curC.spadPoison, full := s.curC.full } = s.curC

namespace Stored

variable {s t u : State}

theorem refl (s : State) : Stored s s := ⟨rfl, fun _ _ => rfl, fun _ _ => rfl, rfl⟩

theorem curCore (h : Stored s t) : t.curCore = s.curCore := by have := congrArg State.curCore h.outside; exact this
theorem curTid (h : Stored s t) : t.curTid = s.curTid := by have := congrArg State.curTid h.outside; exact this

theorem trans (h : Stored s t) (g : Stored t u) : Stored s u where
  outside := (congrArg (fun x : State => { x with
    cores := s.cores, fresh := s.fresh, wm := s.wm, wmPoison := s.wmPoison, host := s.host, peers := s.peers }) g.outside).trans h.outside
  core k hk := (congrArg (fun c : Core => { c with threads := (s.core k).threads }) (g.core k (h.curCore ▸ hk))).trans (h.core k hk)
  thr k v := (congrArg (fun x : Thread => { x with wakeC := (s.thr k v).wakeC }) (g.thr k v)).trans (h.thr k v)
  unit := (congrArg (fun c : Core => { c with
    threads := s.curC.threads, spad := s.curC.spad, spadPoison := s.curC.spadPoison, full := s.curC.full }) g.unit).trans h.unit

/-- A change of what lies outside the cores. -/
theorem of_cores (ho : { t with fresh := s.fresh, wm := s.wm, wmPoison := s.wmPoison, host := s.host, peers := s.peers } = s) : Stored s t := by
  have hc : t.cores = s.cores := by have := congrArg State.cores ho; exact this
  have hk : t.curCore = s.curCore := by have := congrArg State.curCore ho; exact this
  have hcore (k : CoreId) : t.core k = s.core k := by simp only [State.core, hc]
  refine ⟨by rw [← hc]; exact ho, fun k _ => by rw [hcore], fun k u => by simp only [State.thr, hcore], ?_⟩
  simp only [State.curC, hk, hcore]

/-- A change of the current core's scratchpad, its poison and full-empty bits. -/
theorem modCurC {f : Core → Core}
    (hf : ∀ c, { f c with spad := c.spad, spadPoison := c.spadPoison, full := c.full } = c) : Stored s (s.modCurC f) where
  outside := rfl
  core k hk := by rw [State.core_modCurC_other s f hk]
  thr k v := by
    rw [State.modCurC, State.thr_modCore_of_threads (fun c => by have := congrArg Core.threads (hf c); exact this)]
  unit := by
    rw [State.curC_modCurC]
    exact congrArg (fun c : Core => { c with threads := s.curC.threads }) (hf s.curC)

/-- A change of the notes of who satisfied a wait. -/
theorem of_notes (ho : { t with cores := s.cores } = s) (hc : ∀ k, { t.core k with threads := (s.core k).threads } = s.core k)
    (ht : ∀ k u, { t.thr k u with wakeC := (s.thr k u).wakeC } = s.thr k u) : Stored s t where
  outside := congrArg (fun x : State => { x with
    fresh := s.fresh, wm := s.wm, wmPoison := s.wmPoison, host := s.host, peers := s.peers }) ho
  core k _ := hc k
  thr := ht
  unit := by
    have hk : t.curCore = s.curCore := by have := congrArg State.curCore ho; exact this
    have h : { t.curC with threads := s.curC.threads } = s.curC := by simp only [State.curC, hk]; exact hc s.curCore
    exact congrArg (fun c : Core => { c with spad := s.curC.spad, spadPoison := s.curC.spadPoison, full := s.curC.full }) h

theorem cur (h : Stored s t) : { t.cur with wakeC := s.cur.wakeC } = s.cur := by
  have := h.thr s.curCore s.curTid
  rw [← h.curCore, ← h.curTid] at this
  simpa only [State.cur, h.curCore, h.curTid] using this

theorem sreg (h : Stored s t) (r : SReg) : t.sreg r = s.sreg r :=
  sreg_of_sregs (by have := congrArg Thread.sregs h.cur; exact this) r

theorem vec (h : Stored s t) : t.curC.vec = s.curC.vec := by have := congrArg Core.vec h.unit; exact this
theorem vreg (h : Stored s t) (r : VReg) : t.vreg r = s.vreg r := by rw [State.vreg, h.vec, State.vreg]

theorem advance_pc (h : Stored s t) : t.cur.advance.pc = s.cur.advance.pc := by
  refine Thread.advance_pc_congr ?_ ?_ ?_ ?_ ?_ <;> rw [← h.cur]

/-- Of the current thread a completed store changes pc, lc, le and the note of who satisfied its wait. -/
theorem advance_frame (h : Stored s t) :
    { t.cur.advance with pc := s.cur.pc, lc := s.cur.lc, le := s.cur.le, wakeC := s.cur.wakeC } = s.cur := by
  have hpc : s.cur.pc = t.cur.pc := by rw [← h.cur]
  have hlc : s.cur.lc = t.cur.lc := by rw [← h.cur]
  have hle : s.cur.le = t.cur.le := by rw [← h.cur]
  rw [hpc, hlc, hle]
  exact (congrArg (fun x : Thread => { x with wakeC := s.cur.wakeC }) t.cur.advance_frame).trans h.cur

end Stored

/-- A write at a target changes memory alone. -/
theorem stored_tgtWrite (s : State) (t : Tgt) (bs : List Byte) : Stored s (tgtWrite s t bs) := by
  refine Stored.of_cores ?_
  cases t <;> rfl

/-- What a note of who satisfied a wait does to a thread. -/
theorem Core.noteWake_thread (c : Core) (b : Bool) (u : Tid) :
    { (c.noteWake b).threads[u] with wakeC := c.threads[u].wakeC } = c.threads[u] := by
  simp only [Core.noteWake, Fin.getElem_fin, Vector.getElem_map]
  split <;> rfl

theorem stored_noteCoreWake (s : State) (k : CoreId) (b : Bool) : Stored s (s.noteCoreWake k b) := by
  refine Stored.of_notes rfl (fun j => ?_) (fun j u => ?_) <;> by_cases h : j = k
  · subst h; rw [State.noteCoreWake, State.core_modCore_same]; rfl
  · rw [State.noteCoreWake, State.core_modCore_other s _ h]
  · subst h; rw [State.thr, State.noteCoreWake, State.core_modCore_same]; exact Core.noteWake_thread _ b u
  · rw [State.thr, State.noteCoreWake, State.core_modCore_other s _ h]; rfl

theorem stored_noteCounterWake (s : State) (b : Bool) : Stored s (s.noteCounterWake b) := by
  refine Stored.of_notes rfl (fun k => ?_) (fun k u => ?_)
  · simp only [State.core, State.noteCounterWake, Fin.getElem_fin, Vector.getElem_map]
    split <;> rfl
  · simp only [State.thr, State.core, State.noteCounterWake, Fin.getElem_fin, Vector.getElem_map]
    split
    · simp only [Vector.getElem_map]; split <;> rfl
    · rfl

theorem byteAt_noteCoreWake (s : State) (k : CoreId) (b : Bool) : SameBytes s (s.noteCoreWake k b) :=
  byteAt_modCore (f := fun c => c.noteWake b) (fun _ => rfl) s k

theorem byteAt_advance (s : State) : SameBytes s s.advance := State.byteAt_modCur s _

end Sys2Proof.Machine
end

section
/-!
PROOFS. Scalar loads and stores of generic space and of the scratchpad that meet no fault (spec 05 R73 to R76, R81, R82; 18 R341).
-/

namespace Sys2Proof.Machine

/-! ## Generic space -/

section Generic

variable {s s1 : State} {k : AccKind} {addr : Word} {w : Nat} {host : Bool} {t : Tgt} {lf : LeafInfo} {cont : State → Tgt → Out}

/-- An access whose checks and translation pass uses its target. -/
theorem withGeneric_ok (hc : canonical addr = true) (hm : addr.toNat % w = 0)
    (ht : translate s (.scalar s.curCore) s.curReq k addr host = (s1, .ok (t, lf))) : withGeneric s k addr w host cont = cont s1 t := by
  simp only [withGeneric, hc, hm, ht, Bool.not_true, bne_self_eq_false, Bool.false_eq_true, ↓reduceIte]

/-- A window register is reached by an aligned access of 8 bytes at a level that may (R4, R324). -/
theorem windowAccess_ok {i : Instr} {f : FuncId} {o : Nat} {l : Priv} {cont : State → Out} (hw : w = 8) (ho : o % 8 = 0)
    (hl : l.le s.cur.priv = true) : windowAccess s i addr w f o (some l) cont = cont s := by
  simp [windowAccess, hw, ho, hl]

variable {i : Instr} {d a : SReg} {sz : Width} {off : BitVec 14} {signed : Bool}

/-- Loads of memory: the number read at the target, extended (R81). -/
theorem loads_memory {s2 : State} {x : Nat} (hc : canonical (s.sreg a + scaledOff off sz) = true)
    (hm : (s.sreg a + scaledOff off sz).toNat % Width.bytes sz = 0)
    (ht : translate s (.scalar s.curCore) s.curReq .load (s.sreg a + scaledOff off sz) true = (s1, .ok (t, lf)))
    (hn : ∀ f o, t ≠ .window f o) (hr : readTgt s1 t (Width.bytes sz) = (s2, x)) :
    exec (.ld d a sz off) s = .next (s2.finish d (sext64 (8 * Width.bytes sz) x))
      ∧ exec (.ldz d a sz off) s = .next (s2.finish d (zext64 (8 * Width.bytes sz) x)) := by
  have h (i : Instr) (signed : Bool) : scalarLoad i d a sz off signed s
      = .next (s2.finish d (if signed then sext64 (8 * Width.bytes sz) x else zext64 (8 * Width.bytes sz) x)) := by
    rw [scalarLoad, loadWith, withGeneric_ok hc hm ht]
    cases t with
    | window f o => exact absurd rfl (hn f o)
    | wm | host | peer => simp only [hr]
  exact ⟨h _ true, h _ false⟩

/-- A load of a window register: the register, whole (R324). -/
theorem scalarLoad_window {f : FuncId} {o : Nat} (hc : canonical (s.sreg a + scaledOff off sz) = true)
    (hm : (s.sreg a + scaledOff off sz).toNat % Width.bytes sz = 0)
    (ht : translate s (.scalar s.curCore) s.curReq .load (s.sreg a + scaledOff off sz) true = (s1, .ok (.window f o, lf)))
    (hw : Width.bytes sz = 8) (ho : o % 8 = 0) (hl : (windowLevels f o).1.le s1.cur.priv = true) :
    scalarLoad i d a sz off signed s = .next (s1.finish d (windowRead s1 f o)) := by
  rw [scalarLoad, loadWith, withGeneric_ok hc hm ht]
  exact windowAccess_ok hw ho hl

theorem readTgt_clean (h : (tgtRead s t w).2 = false) : readTgt s t w = (s, leNat (tgtRead s t w).1) := by
  simp only [readTgt, h, Bool.false_eq_true, ↓reduceIte]

/-- Poisoned bytes read zero (R341). -/
theorem readTgt_poisoned (h : (tgtRead s t w).2 = true) : readTgt s t w = (s.poisonRead (tgtBank t), 0) := by
  simp only [readTgt, h, ↓reduceIte]

/-- A store to memory (R81). -/
theorem execSt_memory (hc : canonical (s.sreg a + scaledOff off sz) = true) (hm : (s.sreg a + scaledOff off sz).toNat % Width.bytes sz = 0)
    (ht : translate s (.scalar s.curCore) s.curReq .store (s.sreg a + scaledOff off sz) true = (s1, .ok (t, lf)))
    (hn : ∀ f o, t ≠ .window f o) :
    execSt d a sz off s = .next (writeTgt s1 t (Width.bytes sz) (s.sreg d).toNat).advance := by
  rw [execSt, storeWith, withGeneric_ok hc hm ht]
  cases t with
  | window f o => exact absurd rfl (hn f o)
  | wm | host | peer => rfl

/-- A store to a window register (R324). -/
theorem execSt_window {f : FuncId} {o : Nat} {l : Priv} (hc : canonical (s.sreg a + scaledOff off sz) = true)
    (hm : (s.sreg a + scaledOff off sz).toNat % Width.bytes sz = 0)
    (ht : translate s (.scalar s.curCore) s.curReq .store (s.sreg a + scaledOff off sz) true = (s1, .ok (.window f o, lf)))
    (hw : Width.bytes sz = 8) (ho : o % 8 = 0) (hs : (windowLevels f o).2 = some l) (hl : l.le s1.cur.priv = true) :
    execSt d a sz off s = .next (windowWrite s1.advance f o (s.sreg d)) := by
  rw [execSt, storeWith, withGeneric_ok hc hm ht]
  show windowAccess s1 _ _ _ f o (windowLevels f o).2 _ = _
  rw [hs]
  exact windowAccess_ok hw ho hl

end Generic

/-! ## Results -/

/-- A result does not bear on where control passes. -/
theorem Thread.setSreg_advance_pc (t : Thread) (d : SReg) (v : Word) : (t.setSreg d v).advance.pc = t.advance.pc :=
  Thread.advance_pc_congr (Thread.setSreg_pc t d v) (Thread.setSreg_le t d v) (Thread.setSreg_lc t d v) (Thread.setSreg_ls t d v)
    (Thread.setSreg_loopOff t d v)

/-- A result leaves the checks to deliver. -/
theorem State.checks_finish (s : State) (d : SReg) (v : Word) : (s.finish d v).cur.checks = s.cur.checks := by
  rw [State.cur_finish]
  have h := congrArg Thread.checks (s.cur.setSreg_advance_frame d v)
  exact h

/-! ## Writes at a target -/

theorem tgtRead_bytes_congr {s t : State} (hwm : t.wm = s.wm) (hh : t.host = s.host) (hp : t.peers = s.peers) (x : Tgt) (n : Nat) :
    (tgtRead t x n).1 = (tgtRead s x n).1 := by
  cases x <;> simp only [tgtRead, State.peerMem, hwm, hh, hp]

theorem stored_writeTgt (s : State) (t : Tgt) (n v : Nat) : Stored s (writeTgt s t n v) :=
  (stored_tgtWrite s t _).trans (stored_noteCounterWake _ _)

/-- A number written at a target that is memory is there. -/
theorem tgtRead_writeTgt (s : State) {t : Tgt} (n v : Nat) (ht : ∀ f o, t ≠ .window f o) : (tgtRead (writeTgt s t n v) t n).1 = leBytes n v := by
  have h := tgtRead_tgtWrite s (leBytes n v) ht
  rw [leBytes_length] at h
  exact (tgtRead_bytes_congr rfl rfl rfl t n).trans h

theorem byteAt_writeTgt_out (s : State) (t : Tgt) (n v : Nat) {p : Place} (hp : ¬ t.covers n p) :
    (writeTgt s t n v).byteAt p = s.byteAt p := by
  rw [writeTgt, byteAt_noteCounterWake, byteAt_tgtWrite_out]
  rwa [leBytes_length]

/-- Settles O21: a load finishes with the number that its target holds, a store writes its target and nothing else. -/
theorem scalarAccesses : Obligations.ScalarAccesses := by
  have haddr (s : State) (a : SReg) (sz : Width) (off : BitVec 14) :
      s.sreg a + BitVec.ofInt 64 (off.toInt * Width.bytes sz) = s.sreg a + scaledOff off sz := by rw [scaledOff_eq_ofInt]
  constructor <;> intro s s1 d a sz off t lf w addr hc hm ht <;> rw [show addr = _ from haddr s a sz off] at hc hm ht
  · refine ⟨fun hn hp => ?_, fun hn hp => ?_, ?_⟩
    · exact loads_memory hc hm ht hn (readTgt_clean hp)
    · have h := loads_memory (d := d) hc hm ht hn (readTgt_poisoned hp)
      rw [show sext64 (8 * Width.bytes sz) 0 = 0 by simp [sext64, signedOf], show zext64 (8 * Width.bytes sz) 0 = 0 by simp [zext64]] at h
      exact ⟨h.1, h.2, by rw [State.checks_finish, State.checks_poisonRead]⟩
    · rintro f o rfl hw ho hl
      exact ⟨scalarLoad_window hc hm ht hw ho hl, scalarLoad_window hc hm ht hw ho hl⟩
  · refine ⟨?_, fun hn => ⟨_, execSt_memory hc hm ht hn, ?_, fun p hp => ?_, ?_, fun r => ?_, ?_⟩⟩
    · rintro f o l rfl hw ho hs hl
      exact execSt_window hc hm ht hw ho hs hl
    · exact (tgtRead_bytes_congr rfl rfl rfl t w).trans (tgtRead_writeTgt s1 w _ hn)
    · rw [byteAt_advance, byteAt_writeTgt_out s1 t w _ hp]
    · rw [State.cur_advance, (stored_writeTgt s1 t w _).advance_pc]
    · rw [State.sreg, State.cur_advance, Thread.sreg_advance]; exact (stored_writeTgt s1 t w _).sreg r
    · rw [State.cur_advance]; exact (stored_writeTgt s1 t w _).advance_frame

/-! ## The scratchpad -/

theorem spadTrap_none {addr : Word} {w : Nat} (h : addr.toNat < 0x380000) (hm : addr.toNat % w = 0) : spadTrap addr w = none := by
  have h1 : ¬ 0x400000 ≤ addr.toNat := by omega
  have h2 : ¬ 0x380000 ≤ addr.toNat := by omega
  simp [spadTrap, spadSize, laneBase, h1, h2, hm]

/-- A number of an allocated granule: its bytes, or zero with a check where they are poisoned (R82, R341). -/
theorem spadNum_spec (s : State) (a w : Nat) :
    ReadBy s (spadNum s a w).1 ∧ (spadNum s a w).1.curC.full = s.curC.full
      ∧ (s.curC.spadPoisoned a w = false → (spadNum s a w).2 = leNat (Mem.bytes s.curC.spad a w))
      ∧ (s.curC.spadPoisoned a w = true → (spadNum s a w).2 = 0 ∧ (spadNum s a w).1.cur.checks = s.cur.checks ++ [coreBank s.curCore]) := by
  by_cases h : s.curC.spadPoisoned a w = true
  · simp only [spadNum, h, ↓reduceIte]
    exact ⟨readBy_poisonRead _ _, State.full_poisonRead _ _, nofun, fun _ => ⟨trivial, State.checks_poisonRead _ _⟩⟩
  · simp only [spadNum, h, ↓reduceIte, Bool.false_eq_true]
    exact ⟨ReadBy.refl s, trivial, fun _ => rfl, nofun⟩

theorem readBy_setFull (s : State) (g : Nat) (on : Bool) : ReadBy s (s.modCurC (fun c => c.setFull g on)) := ReadBy.modCurC fun _ => rfl

/-- An access that has waited takes the note of who satisfied its wait (R355). -/
def State.waited (s : State) (qf : LoadQual) : State := if qf = .plain then s else s.takeC
/-- A taking access empties the granule (R73). -/
def State.emptied (s : State) (qf : LoadQual) (g : Nat) : State := if qf = .take then s.modCurC (fun c => c.setFull g false) else s

theorem readBy_waited (s : State) (qf : LoadQual) : ReadBy s (s.waited qf) := by
  unfold State.waited; split
  · exact ReadBy.refl s
  · exact readBy_takeC s

theorem readBy_emptied (s : State) (qf : LoadQual) (g : Nat) : ReadBy s (s.emptied qf g) := by
  unfold State.emptied; split
  · exact readBy_setFull s g false
  · exact ReadBy.refl s

@[simp] theorem State.full_waited (s : State) (qf : LoadQual) : (s.waited qf).curC.full = s.curC.full := by
  unfold State.waited; split <;> simp

@[simp] theorem State.checks_waited (s : State) (qf : LoadQual) : (s.waited qf).cur.checks = s.cur.checks := by
  unfold State.waited; split <;> simp

theorem State.full_emptied (s : State) (qf : LoadQual) (g : Nat) :
    (s.emptied qf g).curC.full = if qf = .take then NatSet.del s.curC.full g else s.curC.full := by
  unfold State.emptied
  split
  · rw [State.curC_modCurC]; rfl
  · rfl

theorem State.checks_emptied (s : State) (qf : LoadQual) (g : Nat) : (s.emptied qf g).cur.checks = s.cur.checks := by
  unfold State.emptied
  split
  · exact congrArg Thread.checks (State.cur_modCore_of_threads fun _ => rfl)
  · rfl

/-- A store's qualifier sets or clears its granule's bit (R74). -/
def State.marked (s : State) (qf : StoreQual) (g : Nat) : State :=
  match qf with
  | .plain => s
  | .fill => s.modCurC (fun c => c.setFull g true)
  | .drain => s.modCurC (fun c => c.setFull g false)

theorem stored_marked (s : State) (qf : StoreQual) (g : Nat) : Stored s (s.marked qf g) := by
  cases qf
  · exact Stored.refl s
  · exact Stored.modCurC fun _ => rfl
  · exact Stored.modCurC fun _ => rfl

theorem byteAt_marked (s : State) (qf : StoreQual) (g : Nat) : SameBytes s (s.marked qf g) := by
  cases qf
  · exact fun _ => rfl
  · exact byteAt_modCore (f := fun c => c.setFull g true) (fun _ => rfl) s s.curCore
  · exact byteAt_modCore (f := fun c => c.setFull g false) (fun _ => rfl) s s.curCore

theorem full_marked (s : State) (qf : StoreQual) (g : Nat) : (s.marked qf g).curC.full
    = match qf with | .plain => s.curC.full | .fill => NatSet.add s.curC.full g | .drain => NatSet.del s.curC.full g := by
  cases qf
  · rfl
  · exact congrArg Core.full (State.curC_modCurC s _)
  · exact congrArg Core.full (State.curC_modCurC s _)

/-! ### Writes of scratchpad bytes -/

@[simp] theorem State.spad_modCur (s : State) (f : Thread → Thread) : (s.modCur f).curC.spad = s.curC.spad := by simp

theorem stored_spadWrite (s : State) (a : Nat) (bs : List Byte) : Stored s (s.modCurC (fun c => c.spadWrite a bs)) := Stored.modCurC fun _ => rfl

/-- A write of the current core's scratchpad changes the bytes that it covers and no other (R40). -/
theorem byteAt_spadWrite_out (s : State) (a : Nat) (bs : List Byte) {p : Place} (hp : ∀ i, i < bs.length → p ≠ .spad s.curCore (a + i)) :
    (s.modCurC (fun c => c.spadWrite a bs)).byteAt p = s.byteAt p := by
  cases p with
  | spad k b =>
    by_cases h : k = s.curCore
    · subst h
      rw [State.byteAt, State.modCurC, State.core_modCore_same]
      exact Mem.get_setBytes_out (outside_of_ne fun i hi h => hp i hi (by rw [h]))
    · rw [State.byteAt, State.core_modCurC_other s _ h]; rfl
  | _ => rfl

/-- Noting who satisfied a wait changes nothing of a core but its threads. -/
theorem curC_noteCoreWake {α : Type} {π : Core → α} (hπ : ∀ c b, π (Core.noteWake c b) = π c) (s : State) (k : CoreId) (b : Bool) :
    π (s.noteCoreWake k b).curC = π s.curC := State.core_modCore_of (fun c => hπ c b) s k s.curCore

theorem stored_spadPut (s : State) (a w v : Nat) : Stored s (spadPut s a w v) := (stored_spadWrite s a _).trans (stored_noteCoreWake _ _ _)

theorem spad_spadPut (s : State) (a w v : Nat) : (spadPut s a w v).curC.spad = Mem.setBytes s.curC.spad a (leBytes w v) :=
  (curC_noteCoreWake (π := Core.spad) (fun _ _ => rfl) _ _ _).trans (congrArg Core.spad (State.curC_modCurC s _))

theorem full_spadPut (s : State) (a w v : Nat) : (spadPut s a w v).curC.full = s.curC.full := by
  rw [spadPut, curC_noteCoreWake (π := Core.full) (fun _ _ => rfl), State.curC_modCurC]; rfl

theorem byteAt_spadPut_out (s : State) (a w v : Nat) {p : Place} (hp : ∀ i, i < w → p ≠ .spad s.curCore (a + i)) :
    (spadPut s a w v).byteAt p = s.byteAt p := by
  rw [spadPut, byteAt_noteCoreWake, byteAt_spadWrite_out]
  rwa [leBytes_length]

section Spad

variable {s : State} {d a : SReg} {sz : Width} {off : BitVec 12}

/-- lds from an allocated granule that need not be waited for (R82). -/
theorem execLds_ready {qf : LoadQual} (hlt : (s.sreg a + scaledOff off sz).toNat < 0x380000)
    (hm : (s.sreg a + scaledOff off sz).toNat % Width.bytes sz = 0) (ho : inAllocs s.curAllocs (s.sreg a + scaledOff off sz).toNat = true)
    (hr : qf = .plain ∨ s.curC.isFull ((s.sreg a + scaledOff off sz).toNat / 16) = true) :
    let addr := s.sreg a + scaledOff off sz
    let r := spadNum (s.waited qf) addr.toNat (Width.bytes sz)
    execLds d a sz qf off s = .next ((r.1.emptied qf (addr.toNat / 16)).finish d (sext64 (8 * Width.bytes sz) r.2)) := by
  have hb : (qf != .plain && !s.curC.isFull ((s.sreg a + scaledOff off sz).toNat / 16)) = false := by
    rcases hr with rfl | h
    · rfl
    · rw [h, Bool.not_true, Bool.and_false]
  simp only [execLds, spadTrap_none hlt hm, ho, hb, Bool.not_true, Bool.false_eq_true, ↓reduceIte]
  rfl

/-- What it leaves: the register, pc, the checks, the granule's bit; and the number that it takes. -/
theorem execLds_ready_spec {qf : LoadQual} (hlt : (s.sreg a + scaledOff off sz).toNat < 0x380000)
    (hm : (s.sreg a + scaledOff off sz).toNat % Width.bytes sz = 0) (ho : inAllocs s.curAllocs (s.sreg a + scaledOff off sz).toNat = true)
    (hr : qf = .plain ∨ s.curC.isFull ((s.sreg a + scaledOff off sz).toNat / 16) = true) :
    let addr := (s.sreg a + scaledOff off sz).toNat
    let w := Width.bytes sz
    ∃ t x, execLds d a sz qf off s = .next t ∧ t.sreg d = (if d = 0 then 0 else sext64 (8 * w) x)
      ∧ (∀ r, r ≠ d → t.sreg r = s.sreg r) ∧ t.cur.pc = s.cur.advance.pc ∧ SameBytes s t
      ∧ t.curC.full = (if qf = .take then NatSet.del s.curC.full (addr / 16) else s.curC.full)
      ∧ (s.curC.spadPoisoned addr w = false → x = leNat (Mem.bytes s.curC.spad addr w))
      ∧ (s.curC.spadPoisoned addr w = true → x = 0 ∧ t.cur.checks = s.cur.checks ++ [coreBank s.curCore]) := by
  intro addr w
  have hw := readBy_waited s qf
  obtain ⟨hn, hfull, hclean, hbad⟩ := spadNum_spec (s.waited qf) addr w
  set r := spadNum (s.waited qf) addr w
  have hread : ReadBy s (r.1.emptied qf (addr / 16)) := (hw.trans hn).trans (readBy_emptied _ _ _)
  have hpois : (s.waited qf).curC.spadPoisoned addr w = s.curC.spadPoisoned addr w := by rw [Core.spadPoisoned, hw.spadPoison]; rfl
  rw [hpois] at hclean hbad
  rw [hw.spad] at hclean
  rw [State.checks_waited, hw.core] at hbad
  refine ⟨_, r.2, execLds_ready hlt hm ho hr, sreg_finish_dest _ _ _, fun q hq => ?_, ?_, ?_, ?_, hclean, fun h => ?_⟩
  · rw [State.sreg_finish_other _ _ hq, hread.sreg]
  · rw [State.cur_finish]
    exact (Thread.setSreg_advance_pc _ d _).trans hread.advance_pc
  · exact hread.bytes.trans (scalarFrame_finish _ d _).2.1
  · rw [State.finish_eq_modCur, State.full_modCur, State.full_emptied, hfull, State.full_waited]
  · rw [State.checks_finish, State.checks_emptied]
    exact hbad h

/-- An empty granule is waited for by .wait and .take (R75). -/
theorem execLds_waits {qf : LoadQual} (hlt : (s.sreg a + scaledOff off sz).toNat < 0x380000)
    (hm : (s.sreg a + scaledOff off sz).toNat % Width.bytes sz = 0) (ho : inAllocs s.curAllocs (s.sreg a + scaledOff off sz).toNat = true)
    (hq : qf ≠ .plain) (he : s.curC.isFull ((s.sreg a + scaledOff off sz).toNat / 16) = false) :
    execLds d a sz qf off s = .next (s.block (.granule [(s.sreg a + scaledOff off sz).toNat / 16])) := by
  simp only [execLds, spadTrap_none hlt hm, ho, he, bne_iff_ne.2 hq, Bool.not_true, Bool.not_false, Bool.and_self, Bool.false_eq_true, ↓reduceIte]

/-- A guard access reads zero (R76). -/
theorem execLds_guard {qf : LoadQual} (hlt : (s.sreg a + scaledOff off sz).toNat < 0x380000)
    (hm : (s.sreg a + scaledOff off sz).toNat % Width.bytes sz = 0) (ho : inAllocs s.curAllocs (s.sreg a + scaledOff off sz).toNat = false) :
    execLds d a sz qf off s = .next ((s.noteGuardAt (s.sreg a + scaledOff off sz).toNat).finish d 0) := by
  simp only [execLds, spadTrap_none hlt hm, ho, Bool.not_false, ↓reduceIte]

/-- sts to an allocated granule (R82, R74). -/
theorem execSts_own {qf : StoreQual} (hlt : (s.sreg a + scaledOff off sz).toNat < 0x380000)
    (hm : (s.sreg a + scaledOff off sz).toNat % Width.bytes sz = 0) (ho : inAllocs s.curAllocs (s.sreg a + scaledOff off sz).toNat = true) :
    let addr := (s.sreg a + scaledOff off sz).toNat
    execSts d a sz qf off s = .next (spadPut (s.marked qf (addr / 16)) addr (Width.bytes sz) ((s.marked qf (addr / 16)).sreg d).toNat).advance := by
  simp only [execSts, spadTrap_none hlt hm, ho, Bool.not_true, Bool.false_eq_true, ↓reduceIte]
  rfl

/-- What it leaves: the bytes written, every other byte, the registers, pc, and the granule's bit. -/
theorem execSts_own_spec {qf : StoreQual} (hlt : (s.sreg a + scaledOff off sz).toNat < 0x380000)
    (hm : (s.sreg a + scaledOff off sz).toNat % Width.bytes sz = 0) (ho : inAllocs s.curAllocs (s.sreg a + scaledOff off sz).toNat = true) :
    let addr := (s.sreg a + scaledOff off sz).toNat
    let w := Width.bytes sz
    ∃ t, execSts d a sz qf off s = .next t ∧ Mem.bytes t.curC.spad addr w = leBytes w (s.sreg d).toNat
      ∧ (∀ p, (∀ i, i < w → p ≠ .spad s.curCore (addr + i)) → t.byteAt p = s.byteAt p)
      ∧ (∀ r, t.sreg r = s.sreg r) ∧ t.cur.pc = s.cur.advance.pc
      ∧ t.curC.full = (match qf with | .plain => s.curC.full | .fill => NatSet.add s.curC.full (addr / 16) | .drain => NatSet.del s.curC.full (addr / 16)) := by
  intro addr w
  have hmark := stored_marked s qf (addr / 16)
  have hstored := hmark.trans (stored_spadPut (s.marked qf (addr / 16)) addr w ((s.marked qf (addr / 16)).sreg d).toNat)
  refine ⟨_, execSts_own hlt hm ho, ?_, fun p hp => ?_, fun r => ?_, ?_, ?_⟩
  · rw [State.advance, State.spad_modCur, spad_spadPut, hmark.sreg]
    have h := Mem.bytes_setBytes (m := (s.marked qf (addr / 16)).curC.spad) (a := addr) (bs := leBytes w (s.sreg d).toNat)
    rwa [leBytes_length] at h
  · rw [byteAt_advance, byteAt_spadPut_out _ _ _ _ (by rw [hmark.curCore]; exact hp), byteAt_marked]
  · rw [State.sreg, State.cur_advance, Thread.sreg_advance]; exact hstored.sreg r
  · rw [State.cur_advance]; exact hstored.advance_pc
  · rw [State.advance, State.full_modCur, full_spadPut, full_marked]

/-- A guard access is discarded (R76). -/
theorem execSts_guard {qf : StoreQual} (hlt : (s.sreg a + scaledOff off sz).toNat < 0x380000)
    (hm : (s.sreg a + scaledOff off sz).toNat % Width.bytes sz = 0) (ho : inAllocs s.curAllocs (s.sreg a + scaledOff off sz).toNat = false) :
    execSts d a sz qf off s = .next (s.noteGuardAt (s.sreg a + scaledOff off sz).toNat).advance := by
  simp only [execSts, spadTrap_none hlt hm, ho, Bool.not_false, ↓reduceIte]

end Spad

/-- Settles O23: by the checks of the place, then allocation, then the granule's bit. -/
theorem scratchpadAccesses : Obligations.ScratchpadAccesses := by
  have haddr (s : State) (a : SReg) (sz : Width) (off : BitVec 12) :
      s.sreg a + BitVec.ofInt 64 (off.toInt * Width.bytes sz) = s.sreg a + scaledOff off sz := by rw [scaledOff_eq_ofInt]
  constructor <;> intro s d a sz qf off w addr g hlt hm <;> simp only [g, show addr = _ from haddr s a sz off] at hlt hm ⊢
  · refine ⟨fun ho hp hr => ?_, fun ho hp hr => ?_, execLds_waits hlt hm, execLds_guard hlt hm⟩ <;>
      obtain ⟨t, x, ht, hd, hother, hpc, hbytes, hfull, hclean, hbad⟩ := execLds_ready_spec (d := d) hlt hm ho hr
    · exact ⟨t, ht, hclean hp ▸ hd, hother, hpc, hbytes, hfull⟩
    · obtain ⟨rfl, hchecks⟩ := hbad hp
      refine ⟨t, ht, ?_, hother, hpc, hchecks, hbytes, hfull⟩
      rw [hd, show sext64 (8 * Width.bytes sz) 0 = 0 by simp [sext64, signedOf], ite_self]
  · exact ⟨execSts_own_spec hlt hm, execSts_guard hlt hm⟩

end Sys2Proof.Machine
end

section
/-!
PROOFS. The ends of waits, the phases of hierarchy barriers, the gang's time beacon and the energy budgets (spec 04 R54; 05 R75; 08 R160
to R165; 16 R302).
-/

namespace Sys2Proof.Machine

/-! ## Ends of waits -/

section Waits

variable {s : State} {k : CoreId} {u : Tid}

/-- The thread goes on at its pc when c holds, and waits when it does not. -/
theorem ends_of_ite {x : Out} {c : Prop} [Decidable c] {a b : Out} (h : x = if c then a else b) : (c → x = a) ∧ (¬ c → x = b) :=
  ⟨fun hc => h.trans (if_pos hc), fun hc => h.trans (if_neg hc)⟩

theorem fullEmptyWaitReady_granule {gs : List Nat} (h : (s.thr k u).wait = .granule gs) :
    exec (.fullEmptyWaitReady k u) s = if ∀ g ∈ gs, (s.core k).isFull g = true then endWait s k u else .next s := by
  show execFullEmptyWaitReady k u s = _
  simp only [execFullEmptyWaitReady, h, Core.waitMet, List.all_eq_true]

theorem fenceComplete_copies (h : (s.thr k u).wait = .fence false) :
    exec (.fenceComplete k u) s = if ∀ c ∈ (s.core k).copies, c.tid ≠ u then endWait s k u else .next s := by
  have hb : copiesBusyOf s k u = true ↔ ¬ ∀ c ∈ (s.core k).copies, c.tid ≠ u := by simp [copiesBusyOf]
  show execFenceComplete k u s = _
  simp only [execFenceComplete, h, Bool.false_eq_true, ↓reduceIte, hb, ite_not]

theorem fenceComplete_queries (h : (s.thr k u).wait = .fence true) :
    exec (.fenceComplete k u) s = if (∀ q ∈ s.queries, ¬ (q.part = (s.thr k u).partOf (s.corePart k) ∧ q.ctx = (s.thr k u).ctxOf))
        ∧ (∀ o ∈ s.pageOps, ¬ (o.part = (s.thr k u).partOf (s.corePart k) ∧ o.ctx = (s.thr k u).ctxOf))
      then endWait s k u else .next s := by
  have hb : queriesBusy s k u = true ↔ ¬ ((∀ q ∈ s.queries, ¬ (q.part = (s.thr k u).partOf (s.corePart k) ∧ q.ctx = (s.thr k u).ctxOf))
      ∧ ∀ o ∈ s.pageOps, ¬ (o.part = (s.thr k u).partOf (s.corePart k) ∧ o.ctx = (s.thr k u).ctxOf)) := by
    rw [not_and_or]
    simp only [queriesBusy, Bool.or_eq_true, List.any_eq_true, Bool.and_eq_true, beq_iff_eq, not_forall, not_not, exists_prop]
  show execFenceComplete k u s = _
  simp only [execFenceComplete, h, ↓reduceIte, hb, ite_not]

/-- x is what the counter reads, a window register's included. -/
theorem waitgeWake_counter {tg : Tgt} {target : Word} {x : Nat} (h : (s.thr k u).wait = .counter tg target)
    (hx : counterDue s (.counter tg target) = decide (target.toNat ≤ x)) :
    exec (.waitgeWake k u) s = if target.toNat ≤ x then endWait s k u else .next s := by
  show execWaitgeWake k u s = _
  simp only [execWaitgeWake, h, hx, decide_eq_true_eq]

theorem waittComplete_time {target : Word} (h : (s.thr k u).wait = .time target) :
    exec (.waittComplete k u) s = if target.toNat ≤ s.coreTime k then endWait s k u else .next s := by
  show execWaittComplete k u s = _
  simp only [execWaittComplete, h]

/-- A thread that does not wait is not woken. -/
theorem wake_of_none (h : (s.thr k u).wait = .none) : exec (.fullEmptyWaitReady k u) s = .next s ∧ exec (.fenceComplete k u) s = .next s
    ∧ exec (.waitgeWake k u) s = .next s ∧ exec (.waittComplete k u) s = .next s := by
  refine ⟨?_, ?_, ?_, ?_⟩
  · show execFullEmptyWaitReady k u s = _; simp only [execFullEmptyWaitReady, h]
  · show execFenceComplete k u s = _; simp only [execFenceComplete, h]
  · show execWaitgeWake k u s = _; simp only [execWaitgeWake, h]
  · show execWaittComplete k u s = _; simp only [execWaittComplete, h]

end Waits

/-! ## Barrier phases (R162) -/

section Barriers

variable {l : Launch} {lv : Fin 8} {inst : List Word32}

/-- The barrier found for a level and indices bears them. -/
theorem Launch.bar_names (l : Launch) (lv : Fin 8) (inst : List Word32) : (l.bar lv inst).level = lv ∧ (l.bar lv inst).inst = inst := by
  unfold Launch.bar
  split
  · next b h => simpa using List.find?_some h
  · exact ⟨rfl, rfl⟩

/-- A barrier that has been put is found by its level and indices. -/
theorem Launch.bar_putBar {b : BarInst} (hl : b.level = lv) (hi : b.inst = inst) : (l.putBar b).bar lv inst = b := by
  subst hl hi
  have hn : (l.bars.filter (fun x => !(x.level == b.level && x.inst == b.inst))).find? (fun x => x.level == b.level && x.inst == b.inst) = none := by
    rw [List.find?_eq_none]
    intro x hx
    rw [Bool.not_eq_true]; simpa only [Bool.not_eq_true'] using (List.mem_filter.1 hx).2
  simp only [Launch.bar, Launch.putBar, List.find?_append, hn, Option.none_or]
  simp

theorem Launch.allArrived_iff (l : Launch) (b : BarInst) : l.allArrived b = true ↔
    (∃ x ∈ l.tasks, x.idx.toList.drop b.level.val = b.inst)
      ∧ (∀ i x, l.tasks[i]? = some x → x.idx.toList.drop b.level.val = b.inst → (x.ended = true ∧ x.halted = false) ∨ i ∈ b.arrived)
      ∧ ∀ m ∈ l.nodes, m.joins l.levels b = false := by
  simp only [Launch.allArrived, TaskRec.instOf, Bool.and_eq_true, and_assoc]
  refine and_congr ?_ (and_congr ?_ ?_)
  · rw [Bool.not_eq_true', List.isEmpty_eq_false_iff_exists_mem]
    simp only [List.mem_filter, List.mem_zipIdx_iff_getElem?, beq_iff_eq, Prod.exists]
    exact ⟨fun ⟨x, _, hx, hi⟩ => ⟨x, List.mem_of_getElem? hx, hi⟩, fun ⟨x, hx, hi⟩ =>
      have ⟨i, hx⟩ := List.getElem?_of_mem hx
      ⟨x, i, hx, hi⟩⟩
  · simp only [List.all_eq_true, List.mem_filter, List.mem_zipIdx_iff_getElem?, beq_iff_eq, Prod.forall, and_imp, Bool.or_eq_true,
      Bool.and_eq_true, Bool.not_eq_true', List.contains_iff_mem]
    exact forall_comm
  · simp only [Bool.not_eq_true', List.any_eq_false, Bool.not_eq_true]

/-- A phase completes exactly when all have arrived. -/
theorem Launch.complete_arrived {b : BarInst} (h : l.allArrived b = true) : (l.complete b).phase = b.phase + 1 ∧ (l.complete b).arrived = [] := by
  simp only [Launch.complete, h, ↓reduceIte, and_self]
theorem Launch.complete_waiting {b : BarInst} (h : ¬ l.allArrived b = true) : l.complete b = b := if_neg h
theorem Launch.complete_names (l : Launch) (b : BarInst) : (l.complete b).level = b.level ∧ (l.complete b).inst = b.inst := by
  unfold Launch.complete; split <;> exact ⟨rfl, rfl⟩

/-- The launch after a phase of one of its barriers has been looked at. -/
def Launch.phased (l : Launch) (lv : Fin 8) (inst : List Word32) : Launch := l.putBar (l.complete (l.bar lv inst))

theorem Launch.bar_phased (l : Launch) (lv : Fin 8) (inst : List Word32) : (l.phased lv inst).bar lv inst = l.complete (l.bar lv inst) := by
  obtain ⟨h1, h2⟩ := l.bar_names lv inst
  obtain ⟨h3, h4⟩ := l.complete_names (l.bar lv inst)
  exact Launch.bar_putBar (h3.trans h1) (h4.trans h2)

/-- The launch that is changed is the one that its partition and number name. -/
theorem State.launch_modLaunch {s : State} {n : BitVec 16} {g : Launch → Launch} (h : s.disp.launches.find? (fun l => l.num == n) = some l)
    (hg : ∀ x, (g x).part = x.part ∧ (g x).num = x.num) : (s.modLaunch l.part l.num g).launch l.part n = some (g l) := by
  obtain ⟨hn, before, after, hl, hb⟩ := List.find?_eq_some_iff_append.1 h
  have hn : l.num = n := by simpa using hn
  have hfind : s.disp.launches.find? (fun x => x.part == l.part && x.num == n) = some l := by
    refine List.find?_eq_some_iff_append.2 ⟨by simp [hn], before, after, hl, fun x hx => ?_⟩
    have := hb x hx
    simp only [Bool.not_eq_true'] at this ⊢
    rw [this, Bool.and_false]
  rw [State.launch, State.modLaunch, List.find?_map, hn]
  have hp : (fun x : Launch => x.part == l.part && x.num == n) ∘ (fun x => if x.part == l.part && x.num == n then g x else x)
      = fun x => x.part == l.part && x.num == n := by
    funext x
    simp only [Function.comp]
    split
    · rw [(hg x).1, (hg x).2]
    · rfl
  rw [hp, hfind]
  simp [hn]

/-- Noting who satisfied barrier waits changes nothing but the notes (R355). -/
theorem State.thr_noteBarrierWake (s : State) (k : CoreId) (u : Tid) :
    ∃ w, s.noteBarrierWake.thr k u = { s.thr k u with wakeC := w } := by
  simp only [State.noteBarrierWake, State.thr, State.core, Fin.getElem_fin, Vector.getElem_map]
  split
  · split
    · exact ⟨_, rfl⟩
    · exact ⟨_, rfl⟩
  · exact ⟨_, rfl⟩

/-- The threads that wait for the barrier of a level go on where their phase is over. -/
def Thread.barrierOver (t : Thread) (s : State) (f : FuncId) (n : BitVec 16) (lv : Fin 8) : Thread :=
  let here := match t.task, t.wait with
    | some x, .barrier lv' _ => x.part == f && x.launch == n && lv' == lv && (barrierMet s t).isSome
    | _, _ => false
  if here then { t with wait := .none } else t

theorem Thread.barrierOver_eq {t : Thread} {s : State} {f : FuncId} {n : BitVec 16} {x : Task} {p : Nat} (ht : t.task = some x)
    (hw : t.wait = .barrier lv p) (hf : x.part = f) (hn : x.launch = n) :
    t.barrierOver s f n lv = if (barrierMet s t).isSome then { t with wait := .none } else t := by
  simp [Thread.barrierOver, ht, hw, hf, hn]

/-- What BARRIER_PHASE_COMPLETE makes of the machine (R162). -/
def State.phaseOver (s : State) (l : Launch) (lv : Fin 8) (inst : List Word32) : State :=
  let s := (s.modLaunch l.part l.num (fun l => l.phased lv inst)).noteBarrierWake
  { s with cores := s.cores.map (fun c => { c with threads := c.threads.map (fun t => t.barrierOver s l.part l.num lv) }) }

theorem barrierPhaseComplete_some {s : State} {n : BitVec 16} (h : s.disp.launches.find? (fun l => l.num == n) = some l) :
    exec (.barrierPhaseComplete n lv inst) s = .next (s.phaseOver l lv inst) := by
  have hn : l.num = n := by simpa using List.find?_some h
  subst hn
  show execBarrierPhaseComplete l.num lv inst s = _
  simp only [execBarrierPhaseComplete, h]
  rfl

theorem byteAt_phaseOver (s : State) (l : Launch) (lv : Fin 8) (inst : List Word32) : SameBytes s (s.phaseOver l lv inst) := by
  refine sameBytes_of_spad (fun k => ?_) ⟨rfl, rfl, rfl, rfl⟩
  simp only [State.phaseOver, State.noteBarrierWake, State.modLaunch, State.core, Fin.getElem_fin, Vector.getElem_map]

/-- A wait for a phase of the running task's barrier of a level. -/
theorem barrierMet_eq {s : State} {t : Thread} {x : Task} {l : Launch} {y : TaskRec} {p : Nat} (hw : t.wait = .barrier lv p)
    (ht : t.task = some x) (hl : s.launch x.part x.launch = some l)
    (hy : l.tasks.find? (fun t => t.ctx == x.ctx && !t.ended) = some y) :
    barrierMet s t = if p < (l.bar lv (y.instOf lv.val)).phase then some (l.bar lv (y.instOf lv.val)).crit else none := by
  have hat : (l.taskAt x.ctx).bind (fun i => l.tasks[i]?) = some y := by
    rw [Launch.taskAt, ← List.find?_eq_bind_findIdx?_getElem?, hy]
  simp only [barrierMet, hw, ht, hl, Launch.barOf, hat, Option.map_some]

/-- A thread that waits for the barrier goes on exactly when its phase is over. -/
theorem thr_phaseOver {s : State} {n : BitVec 16} {k : CoreId} {u : Tid} {x : Task} {y : TaskRec} {p : Nat}
    (h : s.disp.launches.find? (fun l => l.num == n) = some l) (ht : (s.thr k u).task = some x) (hp : x.part = l.part) (hx : x.launch = n)
    (hy : l.tasks.find? (fun t => t.ctx == x.ctx && !t.ended) = some y) (hi : y.idx.toList.drop lv.val = inst)
    (hw : (s.thr k u).wait = .barrier lv p) :
    ((s.phaseOver l lv inst).thr k u).pc = (s.thr k u).pc
      ∧ ((s.phaseOver l lv inst).thr k u).wait = if p < ((l.phased lv inst).bar lv inst).phase then .none else .barrier lv p := by
  have hn : l.num = n := by simpa using List.find?_some h
  set s1 := s.modLaunch l.part l.num (fun l => l.phased lv inst)
  obtain ⟨w, hwake⟩ := s1.thr_noteBarrierWake k u
  have hthr : (s.phaseOver l lv inst).thr k u = (s1.noteBarrierWake.thr k u).barrierOver s1.noteBarrierWake l.part l.num lv := by
    simp only [State.phaseOver, State.thr, State.core, Fin.getElem_fin, Vector.getElem_map]
    rfl
  have hs : s1.thr k u = s.thr k u := rfl
  rw [hs] at hwake
  have hl : s1.noteBarrierWake.launch x.part x.launch = some (l.phased lv inst) := by
    rw [hp, hx]
    exact State.launch_modLaunch h fun x => ⟨rfl, rfl⟩
  have hover (t : Thread) (htask : t.task = some x) (hwait : t.wait = .barrier lv p) :
      (t.barrierOver s1.noteBarrierWake l.part l.num lv).pc = t.pc
        ∧ (t.barrierOver s1.noteBarrierWake l.part l.num lv).wait
          = if p < ((l.phased lv inst).bar lv inst).phase then .none else .barrier lv p := by
    have hmet := barrierMet_eq hwait htask hl (y := y) hy
    rw [TaskRec.instOf, hi] at hmet
    rw [Thread.barrierOver_eq htask hwait hp (hx.trans hn.symm), hmet]
    by_cases hlt : p < ((l.phased lv inst).bar lv inst).phase
    · simp [hlt]
    · simp [hlt, hwait]
  rw [hthr, hwake]
  exact hover _ ht hw

/-- A phase of a barrier is over exactly when all have arrived (R162; log 27). -/
theorem Launch.phase_phased (l : Launch) (lv : Fin 8) (inst : List Word32) :
    (l.allArrived (l.bar lv inst) = true →
      ((l.phased lv inst).bar lv inst).phase = (l.bar lv inst).phase + 1 ∧ ((l.phased lv inst).bar lv inst).arrived = [])
    ∧ (¬ l.allArrived (l.bar lv inst) = true →
      ((l.phased lv inst).bar lv inst).phase = (l.bar lv inst).phase
        ∧ ((l.phased lv inst).bar lv inst).arrived = (l.bar lv inst).arrived) := by
  rw [Launch.bar_phased]
  exact ⟨Launch.complete_arrived, fun h => by rw [Launch.complete_waiting h]; exact ⟨rfl, rfl⟩⟩

end Barriers

/-! ## The gang's time beacon (R54, R335) -/

/-- The module's time base and every copy of it move by d: what each copy shows stays. -/
def State.shifted (s : State) (d : Int) : State :=
  { s with
    time := BitVec.ofInt 64 ((s.time.toNat : Int) + d)
    cores := s.cores.map (fun c => { c with skew := c.skew - d })
    clusters := s.clusters.map (fun c => { c with skew := c.skew - d })
    engines := s.engines.map (fun e => { e with skew := e.skew - d })
    baseDies := s.baseDies.map (fun b => { b with skew := b.skew - d }) }

/-- A drift of more than 25 ns is corrected to what the free value leaves, and not below time 0. -/
theorem gangTimeBeacon_eq (s : State) (drift : Int) : ∃ rest : Int, -25 ≤ rest ∧ rest ≤ 25
    ∧ exec (.gangTimeBeacon drift) s
      = .next (s.draw.2.shifted (if drift > 25 || drift < -25 then max (rest - drift) (-(s.time.toNat : Int)) else 0)) := by
  refine ⟨((Config.freeValue s.draw.1).toNat % 51 : Nat) - 25, by omega, by omega, rfl⟩

theorem byteAt_shifted (s : State) (d : Int) : SameBytes s (s.shifted d) := by
  refine sameBytes_of_spad (fun k => ?_) ⟨rfl, rfl, rfl, rfl⟩
  simp only [State.shifted, State.core, Fin.getElem_fin, Vector.getElem_map]

theorem thr_shifted (s : State) (d : Int) (k : CoreId) (u : Tid) : (s.shifted d).thr k u = s.thr k u := by
  simp only [State.shifted, State.thr, State.core, Fin.getElem_fin, Vector.getElem_map]

theorem skew_shifted (s : State) (d : Int) (k : CoreId) : ((s.shifted d).core k).skew = (s.core k).skew - d := by
  simp only [State.shifted, State.core, Fin.getElem_fin, Vector.getElem_map]

theorem time_shifted_zero (s : State) : (s.shifted 0).time = s.time := by
  show BitVec.ofInt 64 ((s.time.toNat : Int) + 0) = s.time
  rw [Int.add_zero, BitVec.ofInt_natCast, BitVec.ofNat_toNat, BitVec.setWidth_eq]

/-- The gang's beacon (R54, R335). -/
theorem gangTimeBeacon (s : State) (drift : Int) :
    ∃ t, exec (.gangTimeBeacon drift) s = .next t ∧ SameBytes s t ∧ (∀ k u, t.thr k u = s.thr k u)
      ∧ (-25 ≤ drift → drift ≤ 25 → t.time = s.time ∧ ∀ k : CoreId, (t.core k).skew = (s.core k).skew)
      ∧ (drift < -25 ∨ 25 < drift → drift + 25 ≤ s.time.toNat →
          ∃ rest : Int, -25 ≤ rest ∧ rest ≤ 25 ∧ t.time = BitVec.ofInt 64 ((s.time.toNat : Int) - drift + rest)
            ∧ ∀ k : CoreId, (t.core k).skew = (s.core k).skew + drift - rest) := by
  obtain ⟨rest, hlo, hhi, h⟩ := gangTimeBeacon_eq s drift
  refine ⟨_, h, byteAt_shifted _ _, fun k u => thr_shifted _ _ k u, fun h1 h2 => ?_, fun h1 h2 => ?_⟩
  · have hd : (drift > 25 || drift < -25) = false := by simp; omega
    simp only [hd, Bool.false_eq_true, ↓reduceIte]
    exact ⟨time_shifted_zero _, fun k => (skew_shifted _ 0 k).trans (Int.sub_zero _)⟩
  · have hd : (drift > 25 || drift < -25) = true := by simp; omega
    have hm : max (rest - drift) (-(s.time.toNat : Int)) = rest - drift := by omega
    simp only [hd, hm, ↓reduceIte]
    refine ⟨rest, hlo, hhi, ?_, fun k => (skew_shifted _ _ k).trans ?_⟩
    · show BitVec.ofInt 64 ((s.time.toNat : Int) + (rest - drift)) = _
      congr 1; omega
    · show (s.core k).skew - (rest - drift) = _
      omega

/-! ## Energy budgets (R302) -/

/-- With no ready node and no suspended task the dispatcher has nothing to place. -/
theorem dispatch_idle {s : State} (hr : s.disp.ready = []) (hi : ∀ k : CoreId, (s.core k).hamper.images = []) : dispatch s = s := by
  have himages : ((List.finRange 384).map (fun _ : CoreId => ([] : List Cand))).flatten = [] := by
    rw [List.flatten_eq_nil_iff]
    intro l hl
    obtain ⟨_, _, rfl⟩ := List.mem_map.1 hl
    rfl
  have hc : candidates s = [] := by
    simp only [candidates, hr, hi, List.take_nil, List.filterMap_nil, himages, List.append_nil, List.foldr_nil]
  rw [dispatch, hc]; rfl

/-- What a publication makes of a die (R302). -/
def State.budgeted (s : State) (b : Vector (BitVec 24) 8) (d : DieId) : DieBudget :=
  let budget := if s.dies[d].cap < b[d] then s.dies[d].cap else b[d]
  { s.dies[d] with budget := budget, left := (budget.toNat : Int) - (runningCost s d : Int) }

theorem publish_idle {s : State} (b : Vector (BitVec 24) 8) (hr : s.disp.ready = []) (hi : ∀ k : CoreId, (s.core k).hamper.images = []) :
    s.publish b = { s with dies := Vector.ofFn (s.budgeted b) } := by
  exact dispatch_idle (s := { s with dies := Vector.ofFn (s.budgeted b) }) hr hi

/-- A fold whose every step adds nothing. -/
theorem foldl_keeps {σ α : Type} {f : σ → α → σ} {l : List α} (h : ∀ n, ∀ x ∈ l, f n x = n) (n : σ) : l.foldl f n = n := by
  induction l with
  | nil => rfl
  | cons x l ih =>
    rw [List.foldl_cons, h n x (.head _)]
    exact ih fun n y hy => h n y (.tail _ hy)

/-- Where no task runs on the die nothing costs. -/
theorem runningCost_idle {s : State} {d : DieId} (h : ∀ k : CoreId, k.die = d → ∀ u : Tid, (s.thr k u).task = none) : runningCost s d = 0 := by
  refine foldl_keeps (fun n k _ => ?_) 0
  split
  · next hk =>
    refine foldl_keeps (fun n t ht => ?_) n
    obtain ⟨i, hi, rfl⟩ := Vector.mem_iff_getElem.1 (Vector.mem_toList_iff.1 ht)
    have := h k hk ⟨i, hi⟩
    simp only [State.thr, Fin.getElem_fin] at this
    rw [this]
  · rfl

/-- A publication with nothing to place (R302). -/
theorem budgetPublication_due {s : State} {b : Vector (BitVec 24) 8} (hr : s.disp.ready = [])
    (hi : ∀ k : CoreId, (s.core k).hamper.images = []) (hd : s.time.toNat % 8000 = 0) :
    ∃ t, exec (.budgetPublication b) s = .next t ∧ SameBytes s t ∧ (∀ k u, t.thr k u = s.thr k u)
      ∧ ∀ d : DieId, t.dies[d].cap = s.dies[d].cap ∧ t.dies[d].throttle = s.dies[d].throttle
          ∧ t.dies[d].budget.toNat = min b[d].toNat s.dies[d].cap.toNat
          ∧ t.dies[d].left = (t.dies[d].budget.toNat : Int) - (runningCost s d : Int)
          ∧ ((∀ k : CoreId, k.die = d → ∀ u : Tid, (s.thr k u).task = none) → t.dies[d].left = (t.dies[d].budget.toNat : Int)) := by
  have hx : exec (.budgetPublication b) s = .next { s with dies := Vector.ofFn (s.budgeted b) } := by
    show Host.Outcome.next _ = _
    rw [if_pos hd, publish_idle b hr hi]
  refine ⟨_, hx, sameBytes_of_cores rfl ⟨rfl, rfl, rfl, rfl⟩, fun _ _ => rfl, fun d => ?_⟩
  have hdie : (Vector.ofFn (s.budgeted b))[d] = s.budgeted b d := Vector.getElem_ofFn d.isLt
  simp only [hdie]
  refine ⟨rfl, rfl, ?_, rfl, fun h => ?_⟩
  · simp only [State.budgeted, BitVec.lt_def]
    split <;> omega
  · simp only [State.budgeted, runningCost_idle h, Int.natCast_zero, Int.sub_zero]

/-- The budgets of the dies after one of them has changed. -/
theorem dies_set (s : State) (d : DieId) (x : DieBudget) :
    (s.dies.set d x)[d] = x ∧ ∀ e : DieId, e ≠ d → (s.dies.set d x)[e] = s.dies[e] := by
  refine ⟨by simp, fun e he => ?_⟩
  have h : d.val ≠ e.val := fun h => he (Fin.ext h.symm)
  simp [Vector.getElem_set_ne, h]

theorem throttleRaise (s : State) (d : DieId) (lvl : BitVec 3) :
    ∃ t, exec (.throttleRaise d lvl) s = .next t
      ∧ t.dies[d] = { s.dies[d] with throttle := if s.dies[d].throttle.toNat < lvl.toNat then lvl else s.dies[d].throttle }
      ∧ (∀ e : DieId, e ≠ d → t.dies[e] = s.dies[e]) ∧ { t with dies := s.dies } = s :=
  ⟨_, rfl, (dies_set s d _).1, (dies_set s d _).2, rfl⟩

theorem throttleStepDown (s : State) (d : DieId) :
    ∃ t, exec (.throttleStepDown d) s = .next t ∧ t.dies[d].throttle.toNat = s.dies[d].throttle.toNat - 1
      ∧ { t.dies[d] with throttle := s.dies[d].throttle } = s.dies[d] ∧ (∀ e : DieId, e ≠ d → t.dies[e] = s.dies[e])
      ∧ { t with dies := s.dies } = s := by
  refine ⟨_, rfl, ?_, ?_, (dies_set s d _).2, rfl⟩
  · rw [(dies_set s d _).1]
    dsimp only
    split
    · next h => rw [h]; rfl
    · next h => bv_omega
  · rw [(dies_set s d _).1]

/-- Settles O52: each wake decides by its own condition, a phase is over exactly when all who belong to it have arrived, a beacon moves every
copy with the time base, and with nothing to place a publication writes the budgets alone. -/
theorem waitsAndBudgets : Obligations.WaitsAndBudgets := by
  refine ⟨⟨?_, ?_⟩, gangTimeBeacon, fun s b hr hi => ⟨fun hd => ?_, budgetPublication_due hr hi⟩,
    fun s d lvl => ⟨throttleRaise s d lvl, throttleStepDown s d⟩⟩
  · intro s k u woken ends
    exact ⟨fun gs h => ends_of_ite (fullEmptyWaitReady_granule h), fun h => ends_of_ite (fenceComplete_copies h),
      fun h => ends_of_ite (fenceComplete_queries h), fun tg target h => by cases tg <;> exact ends_of_ite (waitgeWake_counter h rfl),
      fun target h => ends_of_ite (waittComplete_time h), wake_of_none⟩
  · intro s n lv inst
    refine ⟨fun h => ?_, fun l h => ?_⟩
    · show execBarrierPhaseComplete n lv inst s = _
      simp only [execBarrierPhaseComplete, h]
    · intro b of_ all
      have hall : all ↔ l.allArrived b = true := by
        rw [Launch.allArrived_iff, (l.bar_names lv inst).1, (l.bar_names lv inst).2]
      obtain ⟨hover, hstays⟩ := l.phase_phased lv inst
      exact ⟨_, l.phased lv inst, barrierPhaseComplete_some h, byteAt_phaseOver s l lv inst,
        State.launch_modLaunch h fun _ => ⟨rfl, rfl⟩, fun ha => hover (hall.1 ha), fun ha => hstays (mt hall.2 ha),
        fun k u x y p ht hp hx hy hi hw => thr_phaseOver h ht hp hx hy hi hw⟩
  · show Host.Outcome.next _ = _
    rw [if_neg hd]

end Sys2Proof.Machine
end

section
/-!
PROOFS. A spill frame filled from a vstart beyond its header's length (spec 05 R89; log 23).
-/

namespace Sys2Proof.Machine

/-- A thread that holds the lanes, with vstart 2,049. The frame at 0 is owned and clean; its header says no element, of 2 bytes each. The
granule behind the frame is owned too, and poisoned. -/
def fillBehind : State :=
  (State.reset.modCore 0 (fun c => { c with
    vec := { c.vec with holder := some 0 }, spad := [(5, 2)], spadPoison := [258], residents := [⟨0, 0, [⟨0, 4144, false⟩]⟩] })).modThr 0 0
    (fun t => { t with vstart := 2049 })

/-- The checks to deliver after an outcome. -/
def checksAfter (o : Out) : List (DieId × Fin 16) := match o with | .next t => t.cur.checks | _ => []

theorem checksAfter_vfill : checksAfter (exec (.vfill 0 0) fillBehind) ≠ [] := by decide +kernel

theorem laneGo_fillBehind : LaneGo fillBehind none [] none false (laneEnv fillBehind) fillBehind := by
  have hholder : fillBehind.curC.vec.holder = some fillBehind.curTid := by decide +kernel
  have hrel : fillBehind.cur.relPending = false := by decide +kernel
  exact ⟨fillBehind, by simp [acquireLanes, hholder, hrel], by decide +kernel, rfl, nofun, nofun, rfl, rfl, nofun⟩

/-- The frame is owned, and none of it is poisoned. -/
theorem frame_fillBehind (i : Nat) (hi : i < 4128) :
    inAllocs fillBehind.curAllocs (0 + i) = true ∧ NatSet.has fillBehind.curC.spadPoison ((0 + i) / 16) = false := by
  have hown : fillBehind.curAllocs = [⟨0, 4144, false⟩] := by decide +kernel
  have hpoison : fillBehind.curC.spadPoison = [258] := by decide +kernel
  rw [hown, hpoison]
  constructor
  · simp [inAllocs]; omega
  · simp [NatSet.has]; omega

/-- Refutes O38: vfill reads from header byte 32 + vstart × SEW on. Where vstart lies beyond the header's length it reads no byte, but
the granule of that address is looked at all the same, and its poison is reported though the frame is owned and clean. -/
theorem not_spillsAndTags : ¬ Obligations.SpillsAndTags := by
  intro h
  obtain ⟨-, -, -, -, -, hfill⟩ := h.1 fillBehind fillBehind (laneEnv fillBehind) 0 0 laneGo_fillBehind
  obtain ⟨-, -, hfilled⟩ := hfill _ _ _ (by decide) (by decide) rfl
  obtain ⟨t, ht, -, -, -, -, -, -, -, -, -, hclean⟩ :=
    hfilled _ _ _ (by decide +kernel) (by decide +kernel) (by decide +kernel) rfl
  obtain ⟨-, -, -, -, -, hthread, -⟩ := hclean frame_fillBehind
  have hchecks := checksAfter_vfill
  rw [ht] at hchecks
  have hnone : t.cur.checks = fillBehind.cur.reissued.checks := by
    have := congrArg Thread.checks hthread
    exact this
  exact hchecks (hnone.trans (by decide +kernel))

end Sys2Proof.Machine
end

section
/-!
PROOFS. What the translations of a vector access leave alone (spec 04 R53 to R61; 05 R84).
-/

namespace Sys2Proof.Machine

-- One proof at a time, as for the current thread's place.
set_option Elab.async false

/-- From a a translation has set table bits, notes and caches: s is the state after, with the same current thread, and of each core all but
its translation caches and counters as it was. -/
def Translated (a s : State) : Prop :=
  s.curCore = a.curCore ∧ s.curTid = a.curTid
    ∧ ∀ k, { s.core k with
        scalarTlb := (a.core k).scalarTlb, vectorTlb := (a.core k).vectorTlb, gatherTlb := (a.core k).gatherTlb
        counters := (a.core k).counters } = a.core k

variable {a s : State}

theorem Translated.refl (s : State) : Translated s s := ⟨rfl, rfl, fun _ => rfl⟩

theorem translated_of_cores {t : State} (h : Translated a s) (hk : t.curCore = s.curCore) (ht : t.curTid = s.curTid) (hc : t.cores = s.cores) :
    Translated a t := by
  obtain ⟨h1, h2, h3⟩ := h
  exact ⟨hk.trans h1, ht.trans h2, fun k => by simp only [State.core, hc]; exact h3 k⟩

theorem translated_modCore {k : CoreId} {f : Core → Core} (h : Translated a s)
    (hf : ∀ c, { f c with scalarTlb := c.scalarTlb, vectorTlb := c.vectorTlb, gatherTlb := c.gatherTlb, counters := c.counters } = c) :
    Translated a (s.modCore k f) := by
  obtain ⟨h1, h2, h3⟩ := h
  refine ⟨h1, h2, fun j => ?_⟩
  by_cases e : j = k
  · subst e
    rw [State.core_modCore_same]
    exact (congrArg (fun c : Core => { c with
      scalarTlb := (a.core j).scalarTlb, vectorTlb := (a.core j).vectorTlb, gatherTlb := (a.core j).gatherTlb
      counters := (a.core j).counters }) (hf (s.core j))).trans (h3 j)
  · rw [State.core_modCore_other s f e]; exact h3 j

theorem Core.count_counters (c : Core) (ev : Nat) (t : Tid) (n : Nat) : { c.count ev t n with
    scalarTlb := c.scalarTlb, vectorTlb := c.vectorTlb, gatherTlb := c.gatherTlb, counters := c.counters } = c := by
  unfold Core.count; split <;> rfl

theorem translated_count {k : CoreId} {ev n : Nat} {t : Tid} (h : Translated a s) : Translated a (s.modCore k (fun c => c.count ev t n)) :=
  translated_modCore h fun c => c.count_counters ev t n

theorem translated_foldl {α : Type} {f : State → α → State} {l : List α} (h : Translated a s)
    (hf : ∀ s x, Translated a s → Translated a (f s x)) : Translated a (l.foldl f s) := by
  induction l generalizing s with
  | nil => exact h
  | cons x l ih => exact ih (hf s x h)

theorem translated_orPte {bits pa : Nat} (h : Translated a s) : Translated a (orPte s bits pa) := by
  unfold orPte
  split
  · exact translated_of_cores h rfl rfl rfl
  · split
    · exact translated_of_cores h rfl rfl rfl
    · exact h

theorem translated_noteUse {ag : XAgent} {rq : XReq} (h : Translated a s) : Translated a (s.noteUse ag rq) := by
  unfold State.noteUse
  split
  · exact h
  · exact translated_of_cores h rfl rfl rfl

theorem translated_noteAts {f : FuncId} {t : Tgt} (h : Translated a s) : Translated a (s.noteAts f t) := by
  unfold State.noteAts
  split
  · split
    · exact h
    · exact translated_of_cores h rfl rfl rfl
  · exact h

theorem translated_unitAdd {u : XUnit} {e : TlbEntry} (h : Translated a s) : Translated a (unitAdd s u e) := by
  cases u with
  | engine k => exact translated_of_cores h rfl rfl rfl
  | _ => exact translated_modCore h fun _ => rfl

theorem translated_unitDrop {u : XUnit} {rq : XReq} {vpn : Nat} (h : Translated a s) : Translated a (unitDrop s u rq vpn) := by
  cases u with
  | engine k => exact translated_of_cores h rfl rfl rfl
  | _ => exact translated_modCore h fun _ => rfl

theorem translated_cacheWalk {u : XUnit} {rq : XReq} {va : Nat} {w : Walked} (h : Translated a s) : Translated a (cacheWalk s u rq va w) := by
  have hcl (c : ClusterId) (f : ClusterX → ClusterX) : Translated a (s.modCluster c f) := translated_of_cores h rfl rfl rfl
  unfold cacheWalk
  grind [translated_unitAdd]

theorem translated_walkLeaf {u : XUnit} {rq : XReq} {write again : Bool} {va : Nat} (h : Translated a s) :
    Translated a (walkLeaf s u rq write again va).1 := by
  have hcount : Translated a (s.modCore (unitCore u) (fun c => match u with | .engine _ => c | _ => c.count 7 (unitTid s u) 1)) := by
    cases u with
    | engine k => exact translated_modCore h fun _ => rfl
    | _ => exact translated_count h
  have hfold (l : List Nat) (bits : Nat) (t : State) (ht : Translated a t) : Translated a (l.foldl (fun s pa => orPte s bits pa) t) :=
    translated_foldl ht fun s x hs => translated_orPte hs
  unfold walkLeaf
  extract_lets now wc s1
  have h1 : Translated a s1 := hcount
  clear_value s1
  split
  · exact hfold _ _ _ h1
  · dsimp only
    split
    · exact hfold _ _ _ (hfold _ _ _ h1)
    · exact hfold _ _ _ h1

theorem translated_leafOf {u : XUnit} {rq : XReq} {write again : Bool} {va : Nat} (h : Translated a s) :
    Translated a (leafOf s u rq write again va).1 := by
  unfold leafOf
  extract_lets vpn usable s0 walk
  have h0 : Translated a s0 := translated_noteUse h
  have hwalk (s : State) (hs : Translated a s) : Translated a (walk s).1 := by
    grind [translated_noteUse, translated_walkLeaf, translated_cacheWalk]
  clear_value walk s0
  split
  · exact hwalk _ (translated_unitDrop h0)
  · split
    · grind [translated_unitDrop]
    · have h1 : Translated a (match u with | .gather k => s0.modCore k (fun c => c.count 6 (unitTid s0 u) 1) | _ => s0) := by
        split
        · exact translated_count h0
        · exact h0
      grind [translated_noteUse, translated_unitAdd]

theorem translated_checkLeaf {rq : XReq} {k : AccKind} {va : Word} {hostOk : Bool} {lf : LeafInfo} (h : Translated a s) :
    Translated a (checkLeaf s rq k va hostOk lf).1 := by
  unfold checkLeaf
  grind [translated_noteAts]

theorem translated_sharedLeaf {u : XUnit} {write : Bool} {group va : Nat} {known : Lookups} (h : Translated a s) :
    Translated a (sharedLeaf s u write group va known).1 := by
  unfold sharedLeaf
  grind [translated_leafOf]

theorem translated_genericElem {u : XUnit} {word : Word} {k : AccKind} {w group : Nat} {addr : Word} {known : Lookups} (h : Translated a s) :
    Translated a (genericElem s u word k w group addr known).1 := by
  unfold genericElem
  grind [translated_sharedLeaf, translated_checkLeaf]

theorem translated_genericElems {u : XUnit} {word : Word} {k : AccKind} {w g : Nat} {f : Nat → Word} {known : Lookups} {l : List Nat}
    (h : Translated a s) : Translated a (genericElems s u word k w g f known l).1 := by
  induction l generalizing s known with
  | nil => exact h
  | cons i l ih => unfold genericElems; grind [translated_genericElem]

/-- The vector unit stays as it was. -/
theorem Translated.vec (h : Translated a s) : s.curC.vec = a.curC.vec := by
  obtain ⟨h1, -, h3⟩ := h
  have := congrArg Core.vec (h3 a.curCore)
  rw [State.curC, h1]
  exact this

end Sys2Proof.Machine
end

section
/-!
PROOFS. Vector loads (spec 05 R73 to R76, R83; 18 R341): what a loaded register holds, and loads of generic space.
-/

namespace Sys2Proof.Machine

/-! ## The register of a load -/

/-- Completing a lane word that has changed one vector register. -/
theorem laneFinish_modV (s : State) (vd : VReg) (g : VecReg → VecReg) :
    LaneFrame s (laneFinish (s.modV vd g) State.advance) (some vd) none none
      ∧ (laneFinish (s.modV vd g) State.advance).vreg vd = g (s.vreg vd)
      ∧ (laneFinish (s.modV vd g) State.advance).cur.fflags = s.cur.fflags
      ∧ (laneFinish (s.modV vd g) State.advance).cur.vsat = s.cur.vsat := by
  obtain ⟨hframe, hv, -, -, hflags, hsat⟩ := laneFinish_frame (s1 := s) (s2 := s.modV vd g) (vd := some vd) (md := none) (sd := none)
    (by rw [State.cur_modV]) (fun r _ => by rw [State.sreg, State.cur_modV, State.sreg]) (State.byteAt_modV s vd g)
    (fun r hr => State.vreg_modV_other s g fun h => hr (by rw [h])) (fun m _ => by rw [State.masks_modV]) (LaneOutside.modVec s _)
  exact ⟨hframe, by rw [hv, State.vreg_modV_same], by rw [hflags, State.cur_modV], by rw [hsat, State.cur_modV]⟩

/-- Two changes of one vector register make one. -/
theorem State.modV_modV (s : State) (n : VReg) (f g : VecReg → VecReg) : (s.modV n f).modV n g = s.modV n (fun r => g (f r)) := by
  simp [State.modV, State.modVec, State.modCurC, State.modCore_modCore]

theorem State.modV_id (s : State) (n : VReg) : s.modV n (fun r => r) = s := by
  have h1 (v : VecUnit) : v.regs.set n v.regs[n] = v.regs := Vector.set_getElem_self n.isLt
  have h2 : s.cores.set s.curCore s.cores[s.curCore] = s.cores := Vector.set_getElem_self s.curCore.isLt
  simp only [State.modV, State.modVec, State.modCurC, State.modCore, h1, h2]

/-- From r a load has written the elements l into a register: g is the register after. `bad` says that an element was poisoned, `before`
that the residue flag of an earlier part stays (R83, R341). -/
structure LoadedReg (n : Nat) (l : List (Nat × Nat)) (bad before : Bool) (r g : VecReg) : Prop where
  bits : g.bits = elemsSet r.bits n l
  tag : g.tag = if l.isEmpty then r.tag else loadTag (bad || (before && r.tag.flags.getLsbD 3))

theorem LoadedReg.none (n : Nat) (before : Bool) (r : VecReg) : LoadedReg n [] false before r r := ⟨rfl, rfl⟩

theorem loadTag_residue (b : Bool) : (loadTag b).flags.getLsbD 3 = b := by cases b <;> rfl

/-- What `putLoaded` makes of its register. -/
def putReg (n : Nat) (l : List (Nat × Nat)) (bad more : Bool) (r : VecReg) : VecReg :=
  if l.isEmpty then r else { r.write n l with tag := loadTag (bad || (more && r.tag.flags.getLsbD 3)) }

theorem putLoaded_eq (s : State) (vd : VReg) (n : Nat) (l : List (Nat × Nat)) (bad more : Bool) :
    putLoaded s vd n l bad more = s.modV vd (putReg n l bad more) := by
  unfold putLoaded putReg
  cases l with
  | nil => exact (State.modV_id s vd).symm
  | cons x l => rfl

theorem putReg_bits (n : Nat) (l : List (Nat × Nat)) (bad more : Bool) (r : VecReg) : (putReg n l bad more r).bits = elemsSet r.bits n l := by
  cases l <;> rfl

theorem putReg_tag (n : Nat) (l : List (Nat × Nat)) (bad more : Bool) (r : VecReg) :
    (putReg n l bad more r).tag = if l.isEmpty then r.tag else loadTag (bad || (more && r.tag.flags.getLsbD 3)) := by
  cases l <;> rfl

theorem LoadedReg.of_putReg (n : Nat) (l : List (Nat × Nat)) (bad more : Bool) (r : VecReg) : LoadedReg n l bad more r (putReg n l bad more r) :=
  ⟨putReg_bits n l bad more r, putReg_tag n l bad more r⟩

/-- A further part of a load: what an earlier part has done keeps its residue flag. -/
theorem LoadedReg.append {n : Nat} {l m : List (Nat × Nat)} {bad bad' before more : Bool} {r g : VecReg} (h : LoadedReg n l bad before r g)
    (hl : l.isEmpty = true → bad = false ∧ more = before) (hl' : l.isEmpty = false → more = true) (hm : m.isEmpty = true → bad' = false) :
    LoadedReg n (l ++ m) (bad || bad') before r (putReg n m bad' more g) where
  bits := by rw [putReg_bits, h.bits, elemsSet, elemsSet, elemsSet, List.foldl_append]
  tag := by
    rw [putReg_tag, h.tag]
    cases l with
    | nil =>
      obtain ⟨rfl, rfl⟩ := hl rfl
      simp
    | cons x l =>
      cases m with
      | nil => simp [hm rfl]
      | cons y m =>
        simp only [List.cons_append, List.isEmpty_cons, Bool.false_eq_true, if_false, hl' rfl, loadTag_residue, Bool.true_and, ← Bool.or_assoc,
          Bool.or_comm bad' bad]

/-- The tags of a load that has met no poison, and of one that has (R83, R341). -/
theorem LoadedReg.tag_clean {n : Nat} {l : List (Nat × Nat)} {before : Bool} {r g : VecReg} (h : LoadedReg n l false before r g)
    (hl : l ≠ []) (hb : before = true ∧ r.tag.flags.getLsbD 3 = true) : g.tag = ⟨0x7F800000#32, 0, 9⟩ := by
  rw [h.tag, hb.1, hb.2]; cases l with
  | nil => exact absurd rfl hl
  | cons => rfl
theorem LoadedReg.tag_fresh {n : Nat} {l : List (Nat × Nat)} {before : Bool} {r g : VecReg} (h : LoadedReg n l false before r g)
    (hl : l ≠ []) (hb : ¬ (before = true ∧ r.tag.flags.getLsbD 3 = true)) : g.tag = ⟨0x7F800000#32, 0, 1⟩ := by
  have hb : (before && r.tag.flags.getLsbD 3) = false := by rwa [← Bool.not_eq_true, Bool.and_eq_true]
  rw [h.tag, hb]; cases l with
  | nil => exact absurd rfl hl
  | cons => rfl
theorem LoadedReg.tag_poisoned {n : Nat} {l : List (Nat × Nat)} {before : Bool} {r g : VecReg} (h : LoadedReg n l true before r g)
    (hl : l ≠ []) : g.tag = ⟨0x7F800000#32, 0, 9⟩ := by
  rw [h.tag]; cases l with
  | nil => exact absurd rfl hl
  | cons => rfl

/-- What a loaded register holds: an element of the list its value, every other its old one. -/
theorem LoadedReg.elem {e : LaneEnv} {is : List Nat} {f : Nat → Nat} {bad before : Bool} {r g : VecReg}
    (h : LoadedReg e.n (is.map (fun j => (j, f j))) bad before r g) (hd : is.Pairwise (· ≠ ·)) {j : Nat} (hj : j < 32768 / e.n) :
    elemGet g.bits e.n j = if j ∈ is then f j % 2 ^ e.n else elemGet r.bits e.n j := by
  rw [h.bits]
  exact elemsSet_spec e.n_pos.2 e.n_pos.1 r.bits is f hd hj

/-- The progress mark of a completed load's register (R181). -/
def markLoaded (e : LaneEnv) (r : VecReg) : VecReg := if e.vl = 0 then r else { r with vpx := 4096 }

theorem loaded_eq (e : LaneEnv) (s : State) (vd : VReg) : loaded e s vd = s.modV vd (markLoaded e) := by
  unfold loaded markLoaded
  split
  · exact (State.modV_id s vd).symm
  · rfl

theorem LoadedReg.marked {n : Nat} {l : List (Nat × Nat)} {bad before : Bool} {r g : VecReg} (h : LoadedReg n l bad before r g) (e : LaneEnv) :
    LoadedReg n l bad before r (markLoaded e g) := by
  have hm : (markLoaded e g).bits = g.bits ∧ (markLoaded e g).tag = g.tag := by unfold markLoaded; split <;> exact ⟨rfl, rfl⟩
  exact ⟨hm.1.trans h.bits, hm.2.trans h.tag⟩

/-! ## Executing elements -/

theorem Executes.lt {e : LaneEnv} {v : VecUnit} {mk : MkField} {i : Nat} (h : Executes e v mk i) : i < 4096 :=
  BitVec.lt_of_getLsbD h.2.2.1

/-- What a wrapped value of w bits is below. -/
theorem wrapInt_lt (n : Nat) (x : Int) : wrapInt n x < 2 ^ n := by
  have h0 : (0 : Int) < ((2 ^ n : Nat) : Int) := by exact_mod_cast Nat.two_pow_pos n
  have h1 := Int.emod_nonneg x (by omega : ((2 ^ n : Nat) : Int) ≠ 0)
  have h2 := Int.emod_lt_of_pos x h0
  unfold wrapInt
  omega

theorem loadElem_zero (w n : Nat) : loadElem w n 0 = 0 := by simp [loadElem, signedOf, wrapInt]

/-! ## Generic space -/

/-- What a generic access performs where every element is placed: all of them, and it ends there. -/
theorem genericPlan_placed (e : LaneEnv) (k : AccKind) (f : Nat → Word) (ordered : Bool) {is : List Nat} (tgt : Nat → Tgt) (lf : Nat → LeafInfo)
    (hlt : ∀ j ∈ is, j < 4096) :
    genericPlan e k f ordered (is.map (fun j => (j, .ok (tgt j, lf j)))) = ⟨is.map (fun j => (j, tgt j)), .done⟩ := by
  have hfirst : firstFail (is.map (fun j => (j, ElemRes.ok (tgt j, lf j)))) = none := by
    rw [firstFail, List.find?_eq_none]
    intro p hp
    obtain ⟨j, -, rfl⟩ := List.mem_map.1 hp
    exact Bool.false_ne_true
  have hok : okBelow (is.map (fun j => (j, ElemRes.ok (tgt j, lf j)))) 4096 = is.map (fun j => (j, tgt j, lf j)) := by
    rw [okBelow, List.filterMap_map, List.filterMap_eq_map_iff_forall_eq_some.2]
    intro j hj
    simp [hlt j hj]
  simp only [genericPlan, hfirst, hok, List.map_map]
  rfl

/-- The number at an element's target, a window register's included (R81, R324). -/
def tgtNum (s : State) (t : Tgt) (w : Nat) : Nat :=
  match t with | .window f o => (windowRead s f o).toNat | t => leNat (tgtRead s t w).1

theorem loadTargets_clean {s : State} {w n : Nat} {is : List Nat} {tgt : Nat → Tgt} (h : ∀ j ∈ is, (tgtRead s (tgt j) w).2 = false) :
    loadTargets s w n (is.map (fun j => (j, tgt j))) = (s, is.map (fun j => (j, loadElem w n (tgtNum s (tgt j) w))), false) := by
  induction is with
  | nil => rfl
  | cons j is ih =>
    have hj := h j (.head _)
    have ih := ih fun i hi => h i (.tail _ hi)
    simp only [List.map_cons, loadTargets]
    cases ht : tgt j <;> rw [ht] at hj <;> simp [hj, ih, tgtNum]

end Sys2Proof.Machine
end

section
/-!
PROOFS. Vector loads of generic space whose elements are all placed (spec 05 R83; 18 R341).
-/

namespace Sys2Proof.Machine

/-- The unit that translates the elements of an access (R84). -/
def VMode.xunit (m : VMode) (k : CoreId) : XUnit := match m with | .indexed _ => .gather k | _ => .vector k

/-- Every executing element of a vector access of generic space is placed: element j at tgt j, from s1 with s2 the state after. -/
def Placed (s1 s2 : State) (e : LaneEnv) (word : Word) (k : AccKind) (m : VMode) (a : SReg) (ew : Width) (mk : MkField) (tgt : Nat → Tgt)
    (lf : Nat → LeafInfo) : Prop :=
  genericElems s1 (m.xunit s1.curCore) word k (Width.bytes ew) (256 / sewOf e.vtype) (m.addr e s1.curC.vec (e.sreg a) (Width.bytes ew)) []
      (e.elems s1.curC.vec mk e.vl)
    = (s2, (e.elems s1.curC.vec mk e.vl).map (fun j => (j, .ok (tgt j, lf j))))

section Generic

variable {s s1 s2 : State} {e : LaneEnv} {word : Word} {k : AccKind} {vd : VReg} {a : SReg} {m : VMode} {ew : Width} {mk : MkField}
  {tgt : Nat → Tgt} {lf : Nat → LeafInfo}

theorem Placed.vec (h : Placed s1 s2 e word k m a ew mk tgt lf) : s2.curC.vec = s1.curC.vec := by
  have hv := (translated_genericElems (u := m.xunit s1.curCore) (word := word) (k := k) (w := Width.bytes ew) (g := 256 / sewOf e.vtype)
    (f := m.addr e s1.curC.vec (e.sreg a) (Width.bytes ew)) (known := []) (l := e.elems s1.curC.vec mk e.vl) (Translated.refl s1)).vec
  rwa [h] at hv

/-- What a vector load of generic space performs once every element is placed. -/
theorem opVload_placed (hg : Placed s1 s2 e word .load m a ew mk tgt lf) {s3 : State} {l : List (Nat × Nat)} {bad : Bool}
    (hl : loadTargets s2 (Width.bytes ew) e.n ((e.elems s1.curC.vec mk e.vl).map (fun j => (j, tgt j))) = (s3, l, bad)) :
    (opVload word vd a m ew mk).run e s1
      = .done (s3.modV vd (fun r => markLoaded e (putReg e.n l bad (e.earlier s1.curC.vec mk vd) r))) := by
  have hplan := genericPlan_placed e .load (m.addr e s1.curC.vec (e.sreg a) (Width.bytes ew)) false tgt lf
    (is := e.elems s1.curC.vec mk e.vl) fun j hj => (mem_elems.1 hj).lt
  unfold Placed at hg
  unfold opVload
  cases m <;> (dsimp only [groupSize, VMode.xunit] at hg ⊢; simp only [hg, hplan, hl, dropRefusals, loaded_eq, putLoaded_eq, State.modV_modV])

end Generic

theorem tgtRead_poisonRead (s : State) (b : DieId × Fin 16) (t : Tgt) (n : Nat) : tgtRead (s.poisonRead b) t n = tgtRead s t n := by
  obtain ⟨g, h⟩ := s.poisonRead_eq b
  rw [h]
  cases t <;> rfl

theorem vec_poisonRead (s : State) (b : DieId × Fin 16) : (s.poisonRead b).curC.vec = s.curC.vec := by
  obtain ⟨g, h⟩ := s.poisonRead_eq b
  rw [h, State.vec_modCur]
  rfl

/-- A load reads its first memory target, then the others: a poisoned one reads zero and leaves a contained check (R341). -/
theorem loadTargets_cons {s : State} {w n j : Nat} {t : Tgt} {l : List (Nat × Tgt)} (hn : ∀ f o, t ≠ .window f o) :
    let r := loadTargets (if (tgtRead s t w).2 then s.poisonRead (tgtBank t) else s) w n l
    loadTargets s w n ((j, t) :: l)
      = (r.1, (j, if (tgtRead s t w).2 then 0 else loadElem w n (leNat (tgtRead s t w).1)) :: r.2.1, (tgtRead s t w).2 || r.2.2) := by
  cases t with
  | window f o => exact absurd rfl (hn f o)
  | wm | host | peer =>
    simp only [loadTargets]
    split <;> rename_i hb <;> simp [hb, loadElem_zero]

/-- What loading memory targets does: the poisoned ones read zero, and each leaves a contained check (R341). -/
theorem loadTargets_memory {w n : Nat} {tgt : Nat → Tgt} {is : List Nat} (hn : ∀ j ∈ is, ∀ f o, tgt j ≠ .window f o) (s : State) :
    ∃ s3, loadTargets s w n (is.map (fun j => (j, tgt j)))
        = (s3, is.map (fun j => (j, if (tgtRead s (tgt j) w).2 then 0 else loadElem w n (leNat (tgtRead s (tgt j) w).1))),
          is.any (fun j => (tgtRead s (tgt j) w).2))
      ∧ ReadBy s s3 ∧ s3.curC.vec = s.curC.vec ∧ s.cur.checks <+: s3.cur.checks
      ∧ (is.any (fun j => (tgtRead s (tgt j) w).2) = true → s3.cur.checks ≠ []) := by
  induction is generalizing s with
  | nil => exact ⟨s, rfl, ReadBy.refl s, rfl, List.prefix_refl _, fun h => absurd h Bool.false_ne_true⟩
  | cons j is ih =>
    have ih := ih fun i hi => hn i (.tail _ hi)
    rw [List.map_cons, loadTargets_cons (hn j (.head _))]
    by_cases hb : (tgtRead s (tgt j) w).2 = true
    · obtain ⟨s3, hl, hr, hv, hx, -⟩ := ih (s.poisonRead (tgtBank (tgt j)))
      simp only [tgtRead_poisonRead] at hl
      rw [State.checks_poisonRead] at hx
      refine ⟨s3, by simp [hb, hl], (readBy_poisonRead s _).trans hr, by rw [hv, vec_poisonRead], (List.prefix_append _ _).trans hx,
        fun _ h => ?_⟩
      rw [h, List.prefix_nil] at hx
      simp at hx
    · obtain ⟨s3, hl, hr, hv, hx, hc⟩ := ih s
      exact ⟨s3, by simp [hb, hl], hr, hv, hx, fun h => hc (by simpa [hb] using h)⟩

/-- A load that has run to its end in s3 completes: its frame from s3, and vd's elements and tag. -/
theorem issueLane_loaded {s s1 s2 : State} {op : LaneOp} {e : LaneEnv} {vd : VReg} {mk : MkField} {bad before : Bool}
    {g : VecReg → VecReg} (h : LaneGo s op.dest op.srcs op.rep op.split e s1) (hd : op.run e s1 = .done (s2.modV vd g))
    (hv : s2.curC.vec = s1.curC.vec) {f : Nat → Nat}
    (hg : LoadedReg e.n ((e.elems s1.curC.vec mk e.vl).map (fun j => (j, f j))) bad before (s1.vreg vd) (g (s1.vreg vd))) :
    ∃ t, issueLane op s = .next t ∧ LaneWrote s2 t e vd e.n mk f ∧ t.cur.fflags = s2.cur.fflags ∧ t.cur.vsat = s2.cur.vsat
      ∧ t.vreg vd = g (s1.vreg vd) := by
  have hreg : s2.vreg vd = s1.vreg vd := by rw [State.vreg, hv, State.vreg]
  obtain ⟨hframe, hvd, hflags, hsat⟩ := laneFinish_modV s2 vd g
  rw [hreg] at hvd
  refine ⟨_, issueLane_done h hd, ⟨hframe, fun j hj => ?_⟩, hflags, hsat, hvd⟩
  rw [hvd, hreg, hg.elem (elems_pairwise e _ _ _) hj, hv]
  exact ⟨fun hx => if_pos (mem_elems.2 hx), fun hx => if_neg (mt mem_elems.1 hx)⟩

theorem elems_map_ne_nil {e : LaneEnv} {v : VecUnit} {mk : MkField} {f : Nat → Nat} (h : ∃ j, Executes e v mk j) :
    (e.elems v mk e.vl).map (fun j => (j, f j)) ≠ [] := by
  obtain ⟨j, hj⟩ := h
  exact List.ne_nil_of_mem (List.mem_map_of_mem (mem_elems.2 hj))

theorem LaneFrame.checks {s t : State} {vd : Option VReg} {md : Option MReg} {sd : Option SReg} (h : LaneFrame s t vd md sd) :
    t.cur.checks = s.cur.checks := by
  obtain ⟨-, -, -, hthread, -⟩ := h
  have hchecks : t.cur.checks = s.cur.reissued.checks := by have := congrArg Thread.checks hthread; exact this
  rw [hchecks, Thread.reissued]
  split
  · unfold Thread.modTrapSet; split <;> rfl
  · rfl

section Generic

variable {s s1 s2 : State} {e : LaneEnv} {word : Word} {vd : VReg} {a : SReg} {m : VMode} {ew : Width} {mk : MkField}
  {tgt : Nat → Tgt} {lf : Nat → LeafInfo}

/-- A load of generic space that meets no poison (R83). -/
theorem vload_clean (h : LaneGo s (some vd) m.index none true e s1) (hg : Placed s1 s2 e word .load m a ew mk tgt lf)
    (hclean : ∀ j, Executes e s1.curC.vec mk j → (tgtRead s2 (tgt j) (Width.bytes ew)).2 = false) :
    ∃ t, issueLane (opVload word vd a m ew mk) s = .next t
      ∧ LaneWrote s2 t e vd e.n mk (fun j => loadElem (Width.bytes ew) e.n (tgtNum s2 (tgt j) (Width.bytes ew)))
      ∧ t.cur.fflags = s2.cur.fflags ∧ t.cur.vsat = s2.cur.vsat
      ∧ ((∃ j, Executes e s1.curC.vec mk j) →
          (e.earlier s1.curC.vec mk vd = true ∧ (s1.vreg vd).tag.flags.getLsbD 3 = true → (t.vreg vd).tag = ⟨0x7F800000#32, 0, 9⟩)
          ∧ (¬ (e.earlier s1.curC.vec mk vd = true ∧ (s1.vreg vd).tag.flags.getLsbD 3 = true) → (t.vreg vd).tag = ⟨0x7F800000#32, 0, 1⟩)) := by
  have hl := loadTargets_clean (s := s2) (n := e.n) (tgt := tgt) (is := e.elems s1.curC.vec mk e.vl) fun j hj => hclean j (mem_elems.1 hj)
  have hreg := (LoadedReg.of_putReg e.n ((e.elems s1.curC.vec mk e.vl).map
    fun j => (j, loadElem (Width.bytes ew) e.n (tgtNum s2 (tgt j) (Width.bytes ew)))) false (e.earlier s1.curC.vec mk vd) (s1.vreg vd)).marked e
  obtain ⟨t, ht, hw, hflags, hsat, hvd⟩ := issueLane_loaded h (opVload_placed hg hl) hg.vec hreg
  refine ⟨t, ht, hw, hflags, hsat, fun hex => ⟨fun hb => ?_, fun hb => ?_⟩⟩ <;> rw [hvd]
  · exact hreg.tag_clean (elems_map_ne_nil hex) hb
  · exact hreg.tag_fresh (elems_map_ne_nil hex) hb

/-- A load of memory that meets poison (R341). -/
theorem vload_poisoned (h : LaneGo s (some vd) m.index none true e s1) (hg : Placed s1 s2 e word .load m a ew mk tgt lf)
    (hmem : ∀ j, Executes e s1.curC.vec mk j → ∀ f o, tgt j ≠ .window f o)
    (hbad : ∃ j, Executes e s1.curC.vec mk j ∧ (tgtRead s2 (tgt j) (Width.bytes ew)).2 = true) :
    ∃ t, issueLane (opVload word vd a m ew mk) s = .next t ∧ SameBytes s2 t ∧ t.cur.pc = s2.cur.advance.pc ∧ t.cur.vstart = 0
      ∧ (t.vreg vd).tag = ⟨0x7F800000#32, 0, 9⟩ ∧ t.cur.checks ≠ []
      ∧ ∀ j, j < 32768 / e.n →
          (Executes e s1.curC.vec mk j → elemGet (t.vreg vd).bits e.n j = (if (tgtRead s2 (tgt j) (Width.bytes ew)).2 then 0
            else loadElem (Width.bytes ew) e.n (leNat (tgtRead s2 (tgt j) (Width.bytes ew)).1) % 2 ^ e.n))
          ∧ (¬ Executes e s1.curC.vec mk j → elemGet (t.vreg vd).bits e.n j = srcElem s1 e vd j) := by
  obtain ⟨s3, hl, hread, hv3, -, hchecks⟩ := loadTargets_memory (w := Width.bytes ew) (n := e.n) (tgt := tgt)
    (is := e.elems s1.curC.vec mk e.vl) (fun j hj => hmem j (mem_elems.1 hj)) s2
  obtain ⟨i, hi, hib⟩ := hbad
  have hany : (e.elems s1.curC.vec mk e.vl).any (fun j => (tgtRead s2 (tgt j) (Width.bytes ew)).2) = true :=
    List.any_eq_true.2 ⟨i, mem_elems.2 hi, hib⟩
  rw [hany] at hl
  have hv := hv3.trans hg.vec
  have hreg := (LoadedReg.of_putReg e.n ((e.elems s1.curC.vec mk e.vl).map fun j => (j, if (tgtRead s2 (tgt j) (Width.bytes ew)).2 then 0
    else loadElem (Width.bytes ew) e.n (leNat (tgtRead s2 (tgt j) (Width.bytes ew)).1))) true (e.earlier s1.curC.vec mk vd) (s1.vreg vd)).marked e
  obtain ⟨t, ht, ⟨hframe, hels⟩, -, -, hvd⟩ := issueLane_loaded h (opVload_placed hg hl) hv hreg
  have hchecks := hframe.checks ▸ hchecks hany
  obtain ⟨hpc, hstart, -, -, -, hbytes, -⟩ := hframe
  refine ⟨t, ht, hread.bytes.trans hbytes, hpc.trans hread.advance_pc, hstart, ?_, hchecks, fun j hj => ?_⟩
  · rw [hvd]; exact hreg.tag_poisoned (elems_map_ne_nil ⟨i, hi⟩)
  · have hels := hels j hj
    rw [hv] at hels
    have hold : elemGet (s3.vreg vd).bits e.n j = srcElem s1 e vd j := by rw [State.vreg, hv]; rfl
    refine ⟨fun hx => ?_, fun hx => (hels.2 hx).trans hold⟩
    rw [hels.1 hx, apply_ite (· % 2 ^ e.n), Nat.zero_mod]

end Generic

end Sys2Proof.Machine
end

section
/-!
PROOFS. Where the elements of a vector access of the scratchpad lie (spec 05 R76, R78, R83, R84).
-/

namespace Sys2Proof.Machine

/-! ## Bytes of an element -/

/-- The w bytes of x lie at pl 0, pl 1, and so on, each in a place of its own, and no piece of x crosses a granule. -/
structure SpadElem.Lies (x : SpadElem) (w : Nat) (pl : Nat → Nat) : Prop where
  bytes : x.pieces.flatMap (fun p => (List.range p.2).map (fun i => p.1 + i)) = (List.range w).map pl
  granule : ∀ p ∈ x.pieces, 0 < p.2 ∧ p.1 % 16 + p.2 ≤ 16
  apart : ∀ b c, b < w → c < w → pl b = pl c → b = c

/-- The bytes of the pieces and the bytes of the element are the same. -/
theorem SpadElem.Lies.mem {x : SpadElem} {w : Nat} {pl : Nat → Nat} (h : x.Lies w pl) (a : Nat) :
    (∃ p ∈ x.pieces, ∃ i < p.2, p.1 + i = a) ↔ ∃ b < w, pl b = a := by
  have := congrArg (fun l => a ∈ l) h.bytes
  simpa only [List.mem_flatMap, List.mem_map, List.mem_range, eq_iff_iff] using this

/-- An element touches the granules of its bytes. -/
theorem SpadElem.Lies.mem_granules {x : SpadElem} {w : Nat} {pl : Nat → Nat} (h : x.Lies w pl) (g : Nat) :
    g ∈ x.granules ↔ ∃ b < w, pl b / 16 = g := by
  simp only [SpadElem.granules, List.mem_map]
  constructor
  · rintro ⟨p, hp, rfl⟩
    obtain ⟨b, hb, he⟩ := (h.mem p.1).1 ⟨p, hp, 0, (h.granule p hp).1, rfl⟩
    exact ⟨b, hb, by rw [he]⟩
  · rintro ⟨b, hb, rfl⟩
    obtain ⟨p, hp, i, hi, he⟩ := (h.mem (pl b)).2 ⟨b, hb, rfl⟩
    have := (h.granule p hp).2
    exact ⟨p, hp, by omega⟩

/-- Reading the pieces in order reads the bytes of the element. -/
theorem SpadElem.Lies.read {x : SpadElem} {w : Nat} {pl : Nat → Nat} (h : x.Lies w pl) (c : Core) :
    (x.pieces.map (fun p => c.spadRead p.1 p.2)).flatten = (List.range w).map (fun b => Mem.get c.spad (pl b)) := by
  have hp (p : Nat × Nat) : c.spadRead p.1 p.2 = ((List.range p.2).map (fun i => p.1 + i)).map (Mem.get c.spad) := by
    refine List.ext_getElem (by simp [Core.spadRead]) fun i h1 h2 => ?_
    rw [List.getElem_map, List.getElem_map, List.getElem_range]
    exact Mem.bytes_getElem _
  have hmap : (List.range w).map (fun b => Mem.get c.spad (pl b)) = ((List.range w).map pl).map (Mem.get c.spad) := by
    rw [List.map_map]; rfl
  simp only [hp]
  rw [hmap, ← h.bytes, List.map_flatMap, List.flatMap]

/-- A range is poisoned where one of its bytes is (R341). -/
theorem spadPoisoned_iff (c : Core) (a : Nat) {n : Nat} (hn : 0 < n) : c.spadPoisoned a n = true ↔ ∃ i < n, c.spadPoisoned (a + i) 1 = true := by
  simp only [Core.spadPoisoned, List.any_eq_true, Bool.and_eq_true, decide_eq_true_eq]
  constructor
  · rintro ⟨g, hg, h1, h2⟩
    exact ⟨16 * g - a, by omega, g, hg, by omega, by omega⟩
  · rintro ⟨i, hi, g, hg, h1, h2⟩
    exact ⟨g, hg, by omega, by omega⟩

theorem SpadElem.Lies.poisoned {x : SpadElem} {w : Nat} {pl : Nat → Nat} (h : x.Lies w pl) (c : Core) :
    x.pieces.any (fun p => c.spadPoisoned p.1 p.2) = (List.range w).any (fun b => c.spadPoisoned (pl b) 1) := by
  rw [Bool.eq_iff_iff]
  simp only [List.any_eq_true, List.mem_range]
  constructor
  · rintro ⟨p, hp, hbad⟩
    obtain ⟨i, hi, hbad⟩ := (spadPoisoned_iff c p.1 (h.granule p hp).1).1 hbad
    obtain ⟨b, hb, he⟩ := (h.mem (p.1 + i)).1 ⟨p, hp, i, hi, rfl⟩
    exact ⟨b, hb, he ▸ hbad⟩
  · rintro ⟨b, hb, hbad⟩
    obtain ⟨p, hp, i, hi, he⟩ := (h.mem (pl b)).2 ⟨b, hb, rfl⟩
    exact ⟨p, hp, (spadPoisoned_iff c p.1 (h.granule p hp).1).2 ⟨i, hi, he ▸ hbad⟩⟩

/-! ## Places -/

theorem width_cases (ew : Width) : Width.bytes ew = 1 ∨ Width.bytes ew = 2 ∨ Width.bytes ew = 4 ∨ Width.bytes ew = 8 := by
  cases ew <;> simp [Width.bytes]

/-- Element j's pieces: in the slices of its lanes from the offset that its base gives (R78), or at its address. -/
def elemPieces (lane : Bool) (base addr : Word) (w j : Nat) : List (Nat × Nat) :=
  let at_ (L : Nat) : Nat := 0x380000 + 0x2000 * L + (laneOffset base (j * w)).toNat
  if lane then if w = 8 then [(at_ (j * w / 4 % 64), 4), (at_ (j * w / 4 % 64 + 1), 4)] else [(at_ (j * w / 4 % 64), w)]
  else [(addr.toNat, w)]

/-- Element j of an access whose places are all right. -/
def elemAt (s : State) (lane : Bool) (base addr : Word) (w j : Nat) : SpadElem :=
  ⟨elemPieces lane base addr w j, !spadOwn s lane base addr w j⟩

/-- Where element j of a scratchpad access is placed (R84). -/
def placeOf (s : State) (lane : Bool) (base addr : Word) (w j : Nat) : ElemRes SpadElem :=
  if lane then laneElem s w base j else spadElem s w addr

theorem placeOf_ok {s : State} {lane : Bool} {base addr : Word} {w j : Nat} (h : spadPlaceOk lane base addr w j) :
    placeOf s lane base addr w j = .ok (elemAt s lane base addr w j) := by
  unfold placeOf elemAt elemPieces spadOwn
  cases lane with
  | true =>
    have ho : ¬ 0x2000 ≤ (laneOffset base (j * w)).toNat := by
      have : (laneOffset base (j * w)).toNat < 0x2000 := h.2
      omega
    simp only [if_true, laneElem, ge_iff_le, if_neg ho]
    rfl
  | false =>
    have h : addr.toNat < 0x380000 ∧ addr.toNat % w = 0 := h
    simp only [Bool.false_eq_true, if_false, spadElem, spadTrap_none h.1 h.2]

/-- Offsets of a lane-local access of aligned base: the place within a lane's word is that of the register byte (R78). -/
theorem laneOffset_mod {base : Word} (h : base.toNat % 4 = 0) (B : Nat) : (laneOffset base B).toNat % 4 = B % 4 := by
  simp only [laneOffset, BitVec.toNat_add, BitVec.toNat_ofNat]
  omega

theorem elemAt_lies (s : State) {lane : Bool} {base addr : Word} {ew : Width} {j : Nat} (h : spadPlaceOk lane base addr (Width.bytes ew) j) :
    (elemAt s lane base addr (Width.bytes ew) j).Lies (Width.bytes ew) (spadByte lane base addr (Width.bytes ew) j) := by
  cases lane with
  | false =>
    have h : addr.toNat < 0x380000 ∧ addr.toNat % Width.bytes ew = 0 := h
    refine ⟨by simp [elemAt, elemPieces, spadByte], fun p hp => ?_, fun b c _ _ e => ?_⟩
    · obtain rfl : p = (addr.toNat, Width.bytes ew) := by simpa [elemAt, elemPieces] using hp
      obtain ⟨-, hm⟩ := h
      rcases width_cases ew with e | e | e | e <;> rw [e] at hm ⊢ <;> constructor <;> omega
    · simp only [spadByte, Bool.false_eq_true, if_false] at e
      omega
  | true =>
    obtain ⟨hb, ho⟩ : base.toNat % 4 = 0 ∧ (laneOffset base (j * Width.bytes ew)).toNat < 0x2000 := h
    have hm := laneOffset_mod hb (j * Width.bytes ew)
    have hpl : spadByte true base addr (Width.bytes ew) j
        = fun b => 0x380000 + 0x2000 * ((j * Width.bytes ew + b) / 4 % 64) + (laneOffset base (j * Width.bytes ew)).toNat + b % 4 := rfl
    simp only [elemAt, elemPieces, hpl, if_true]
    clear hpl
    generalize (laneOffset base (j * Width.bytes ew)).toNat = o at *
    rcases width_cases ew with e | e | e | e <;> rw [e] at hm ⊢
    all_goals
      refine ⟨?_, ?_, fun b c hb hc => ?_⟩
      · simp [show List.range 2 = [0, 1] from rfl, show List.range 4 = [0, 1, 2, 3] from rfl, show List.range 8 = [0, 1, 2, 3, 4, 5, 6, 7] from rfl] <;> omega
      · simp
        omega
      · omega

end Sys2Proof.Machine
end

section
/-!
PROOFS. Element groups of a vector load of the scratchpad: what each reads, waits for and empties (spec 05 R73, R75, R83; 18 R341).
-/

namespace Sys2Proof.Machine

/-! ## The state of a load -/

/-- s with the full-empty bits F and the register g in vd. -/
def State.withLoad (s : State) (vd : VReg) (F : GSet) (g : VecReg) : State :=
  s.modCurC (fun c => { c with full := F, vec := { c.vec with regs := c.vec.regs.set vd g } })

section WithLoad

variable (s : State) (vd : VReg) (F : GSet) (g : VecReg)

theorem State.modCurC_self {s : State} {f : Core → Core} (h : f s.curC = s.curC) : s.modCurC f = s := by
  have hf : f s.cores[s.curCore] = s.cores[s.curCore] := h
  have hs : s.cores.set s.curCore s.cores[s.curCore] = s.cores := Vector.set_getElem_self s.curCore.isLt
  simp only [State.modCurC, State.modCore, hf, hs]

theorem State.withLoad_self : s.withLoad vd s.curC.full (s.vreg vd) = s := by
  refine State.modCurC_self ?_
  have h : s.curC.vec.regs.set vd (s.vreg vd) = s.curC.vec.regs := Vector.set_getElem_self vd.isLt
  rw [h]

theorem State.modCur_withLoad (f : Thread → Thread) : (s.withLoad vd F g).modCur f = (s.modCur f).withLoad vd F g := by
  simp [State.modCur, State.modThr, State.withLoad, State.modCurC, State.modCore_modCore]

theorem State.takeC_withLoad : (s.withLoad vd F g).takeC = s.takeC.withLoad vd F g := State.modCur_withLoad s vd F g _

theorem State.takeC_takeC : s.takeC.takeC = s.takeC := by
  simp only [State.takeC, State.modCur_modCur]
  congr 1
  funext t
  cases h : t.wakeC <;> simp only [h]

theorem State.thr_withLoad (k : CoreId) (u : Tid) : (s.withLoad vd F g).thr k u = s.thr k u :=
  State.thr_modCore_of_threads (f := fun c => { c with full := F, vec := { c.vec with regs := c.vec.regs.set vd g } }) (fun _ => rfl) s s.curCore k u

theorem State.poisonRead_withLoad (b : DieId × Fin 16) : (s.withLoad vd F g).poisonRead b = (s.poisonRead b).withLoad vd F g := by
  have hthr (k : CoreId) (u : Tid) := State.thr_withLoad s vd F g k u
  unfold State.poisonRead
  rw [← State.modCur_withLoad]
  simp only [coreError, hthr]
  rfl

theorem State.modV_withLoad (h : VecReg → VecReg) : (s.withLoad vd F g).modV vd h = s.withLoad vd F (h g) := by
  simp [State.modV, State.modVec, State.withLoad, State.modCurC, State.modCore_modCore]

theorem foldl_setFull (c : Core) (on : Bool) (gs : List Nat) :
    gs.foldl (fun c g => c.setFull g on) c = { c with full := gs.foldl (fun F g => NatSet.put F g on) c.full } := by
  induction gs generalizing c with
  | nil => rfl
  | cons g gs ih => exact ih (c.setFull g on)

theorem State.emptyAll_withLoad (gs : List Nat) :
    (s.withLoad vd F g).modCurC (fun c => gs.foldl (fun c g => c.setFull g false) c) = s.withLoad vd (gs.foldl NatSet.del F) g := by
  simp only [foldl_setFull, State.withLoad, State.modCurC, State.modCore_curCore, State.modCore_modCore]
  rfl

theorem State.withLoad_eq_modV : s.withLoad vd F g = (s.modCurC (fun c => { c with full := F })).modV vd (fun _ => g) := by
  simp only [State.modV, State.modVec, State.withLoad, State.modCurC, State.modCore_curCore, State.modCore_modCore]

end WithLoad

/-- What a load has done outside the register and the full-empty bits: from s1 the thread has read memory; S is the state after, and `bad`
says that it has met poison (R341, R355). -/
structure LoadState (s1 : State) (qf : LoadQual) (bad : Bool) (S : State) : Prop where
  read : ReadBy s1 S
  vec : S.curC.vec = s1.curC.vec
  full : S.curC.full = s1.curC.full
  clean : bad = false → S = s1 ∨ (qf ≠ .plain ∧ S = s1.takeC)
  checks : bad = true → S.cur.checks ≠ []

theorem LoadState.start (s1 : State) (qf : LoadQual) : LoadState s1 qf false s1 := ⟨ReadBy.refl s1, rfl, rfl, fun _ => .inl rfl, nofun⟩

theorem LoadState.takeC {s1 S : State} {qf : LoadQual} {bad : Bool} (h : LoadState s1 qf bad S) (hq : qf ≠ .plain) :
    LoadState s1 qf bad S.takeC where
  read := h.read.trans (readBy_takeC S)
  vec := (State.vec_modCur S _).trans h.vec
  full := (State.full_takeC S).trans h.full
  clean hb := by
    rcases h.clean hb with rfl | ⟨-, rfl⟩
    · exact .inr ⟨hq, rfl⟩
    · exact .inr ⟨hq, State.takeC_takeC s1⟩
  checks hb := by rw [State.checks_takeC]; exact h.checks hb

theorem LoadState.poisonRead {s1 S : State} {qf : LoadQual} {bad : Bool} (h : LoadState s1 qf bad S) (b : DieId × Fin 16) :
    LoadState s1 qf true (S.poisonRead b) where
  read := h.read.trans (readBy_poisonRead S b)
  vec := (vec_poisonRead S b).trans h.vec
  full := (State.full_poisonRead S b).trans h.full
  clean := nofun
  checks _ := by rw [State.checks_poisonRead]; simp

/-! ## Elements -/

/-- An element that is read meets poison. -/
def elemBad (c : Core) (x : SpadElem) : Bool := !x.guarded && x.pieces.any (fun p => c.spadPoisoned p.1 p.2)

/-- The number that an element reads: guard accesses and poison read zero (R76, R341). -/
def elemNum (c : Core) (x : SpadElem) : Nat :=
  if x.guarded || x.pieces.any (fun p => c.spadPoisoned p.1 p.2) then 0 else leNat (x.pieces.map (fun p => c.spadRead p.1 p.2)).flatten

variable {s1 S : State} {qf : LoadQual} {bad : Bool} {vd : VReg} {F : GSet} {g : VecReg}

theorem readSpadElem_withLoad (h : LoadState s1 qf bad S) (x : SpadElem) :
    ∃ S', readSpadElem (S.withLoad vd F g) x = (S'.withLoad vd F g, elemNum s1.curC x, elemBad s1.curC x)
      ∧ LoadState s1 qf (bad || elemBad s1.curC x) S' := by
  have hpois (a n : Nat) : (S.withLoad vd F g).curC.spadPoisoned a n = s1.curC.spadPoisoned a n := by
    rw [State.withLoad, State.curC_modCurC, Core.spadPoisoned, h.read.spadPoison]; rfl
  have hread (a n : Nat) : (S.withLoad vd F g).curC.spadRead a n = s1.curC.spadRead a n := by
    rw [State.withLoad, State.curC_modCurC, Core.spadRead, h.read.spad]; rfl
  simp only [readSpadElem, elemNum, elemBad, hpois, hread, State.poisonRead_withLoad]
  cases x.guarded with
  | true => exact ⟨S, rfl, by simpa using h⟩
  | false =>
    cases x.pieces.any (fun p => s1.curC.spadPoisoned p.1 p.2) with
    | true => exact ⟨_, rfl, by simpa using h.poisonRead _⟩
    | false => exact ⟨S, rfl, by simpa using h⟩

theorem loadGroup_withLoad (w n : Nat) (l : List (Nat × SpadElem)) (h : LoadState s1 qf bad S) :
    ∃ S', loadGroup (S.withLoad vd F g) w n l
        = (S'.withLoad vd F g, l.map (fun p => (p.1, loadElem w n (elemNum s1.curC p.2))), l.any (fun p => elemBad s1.curC p.2))
      ∧ LoadState s1 qf (bad || l.any (fun p => elemBad s1.curC p.2)) S' := by
  induction l generalizing S bad with
  | nil => exact ⟨S, rfl, by simpa using h⟩
  | cons p l ih =>
    obtain ⟨S', hr, h'⟩ := readSpadElem_withLoad (vd := vd) (F := F) (g := g) h p.2
    obtain ⟨S2, hl, h2⟩ := ih h'
    refine ⟨S2, by simp only [loadGroup, hr, hl]; rfl, ?_⟩
    rwa [List.any_cons, ← Bool.or_assoc]

/-! ## Groups -/

theorem mem_groupGranules {all group : List (Nat × SpadElem)} {x : Nat} : x ∈ groupGranules all group ↔
    ∃ p ∈ group, p.2.guarded = false ∧ x ∈ p.2.granules ∧ ∀ q ∈ all, q.1 < p.1 → x ∉ q.2.granules := by
  unfold groupGranules
  rw [← List.flatMap_eq_foldl]
  simp only [List.mem_flatMap, List.mem_filter, Bool.not_eq_true', List.any_eq_false, Bool.and_eq_true, decide_eq_true_eq,
    List.contains_iff_mem]
  grind

/-- The granules that a load's groups empty (R73). -/
def takenGranules (qf : LoadQual) (all : List (Nat × SpadElem)) (G : List (Nat × List (Nat × SpadElem))) : List Nat :=
  if qf = .take then G.flatMap (fun p => groupGranules all p.2) else []

theorem takenGranules_cons (qf : LoadQual) (all : List (Nat × SpadElem)) (p : Nat × List (Nat × SpadElem)) (G : List (Nat × List (Nat × SpadElem))) :
    takenGranules qf all (p :: G) = takenGranules qf all [p] ++ takenGranules qf all G := by
  unfold takenGranules
  split <;> simp

theorem has_foldl_del {F : GSet} {gs : List Nat} {x : Nat} : NatSet.has (gs.foldl NatSet.del F) x = true ↔ NatSet.has F x = true ∧ x ∉ gs := by
  induction gs generalizing F with
  | nil => simp
  | cons g gs ih => rw [List.foldl_cons, ih, NatSet.has_del]; by_cases h : x = g <;> simp [h]

theorem full_withLoad : (S.withLoad vd F g).curC.full = F := by rw [State.withLoad, State.curC_modCurC]

/-- Every group finds its granules F: the load ends with all groups read, and the granules that it takes empty (R73, R75). -/
theorem loadGroups_ready {e : LaneEnv} {w : Nat} {all : List (Nat × SpadElem)} {before : Bool} {r : VecReg}
    (G : List (Nat × List (Nat × SpadElem))) (hne : ∀ p ∈ G, p.2 ≠ []) {l : List (Nat × Nat)} {more : Bool}
    (h : LoadState s1 qf bad S) (hr : LoadedReg e.n l bad before r g) (hl : l.isEmpty = true → bad = false ∧ more = before)
    (hl' : l.isEmpty = false → more = true)
    (hfull : qf ≠ .plain → ∀ p ∈ G, ∀ x ∈ groupGranules all p.2, NatSet.has F x = true)
    (hdis : qf = .take → G.Pairwise (fun p q => ∀ x ∈ groupGranules all p.2, x ∉ groupGranules all q.2)) :
    ∃ S' g', loadGroups (S.withLoad vd F g) e vd w qf all more G = (S'.withLoad vd ((takenGranules qf all G).foldl NatSet.del F) g', none)
      ∧ LoadState s1 qf (bad || (G.flatMap (·.2)).any (fun p => elemBad s1.curC p.2)) S'
      ∧ LoadedReg e.n (l ++ (G.flatMap (·.2)).map (fun p => (p.1, loadElem w e.n (elemNum s1.curC p.2))))
          (bad || (G.flatMap (·.2)).any (fun p => elemBad s1.curC p.2)) before r g' := by
  induction G generalizing S F g bad l more with
  | nil =>
    refine ⟨S, g, ?_, by simpa using h, by simpa using hr⟩
    unfold takenGranules
    split <;> rfl
  | cons p G ih =>
    obtain ⟨start, group⟩ := p
    have hgroup : group ≠ [] := hne _ (.head _)
    -- its granules are F
    have hmissing : (if qf = .plain then [] else groupGranules all group).filter (fun x => !(S.withLoad vd F g).curC.isFull x) = [] := by
      rw [List.filter_eq_nil_iff]
      intro x hx
      split at hx
      · exact absurd hx List.not_mem_nil
      · rename_i hq
        rw [Core.isFull, full_withLoad, hfull hq _ (.head _) x hx]
        exact Bool.false_ne_true
    obtain ⟨S0, hS0, h0⟩ : ∃ S0, (if (if qf = .plain then [] else groupGranules all group).isEmpty then S.withLoad vd F g
        else (S.withLoad vd F g).takeC) = S0.withLoad vd F g ∧ LoadState s1 qf bad S0 := by
      by_cases hq : qf = .plain
      · exact ⟨S, by simp [hq], h⟩
      · rw [if_neg hq]
        split
        · exact ⟨S, rfl, h⟩
        · exact ⟨S.takeC, State.takeC_withLoad S vd F g, h.takeC hq⟩
    obtain ⟨S1, hgr, h1⟩ := loadGroup_withLoad (vd := vd) (F := F) (g := g) w e.n group h0
    have htake : (if qf = .take then (S1.withLoad vd F g).modCurC (fun c =>
        (if qf = .plain then [] else groupGranules all group).foldl (fun c g => c.setFull g false) c) else S1.withLoad vd F g)
        = S1.withLoad vd ((takenGranules qf all [(start, group)]).foldl NatSet.del F) g := by
      unfold takenGranules
      split
      · subst qf
        rw [if_neg (by decide), State.emptyAll_withLoad]
        simp
      · rfl
    have hreg := hr.append (m := group.map (fun p => (p.1, loadElem w e.n (elemNum s1.curC p.2))))
      (bad' := group.any (fun p => elemBad s1.curC p.2)) hl hl' (fun hm => absurd (by simpa using hm) hgroup)
    have hlne : (l ++ group.map (fun p => (p.1, loadElem w e.n (elemNum s1.curC p.2)))).isEmpty = false := by simp [hgroup]
    have hkept (hq : qf ≠ .plain) (p) (hp : p ∈ G) (x) (hx : x ∈ groupGranules all p.2) :
        NatSet.has ((takenGranules qf all [(start, group)]).foldl NatSet.del F) x = true := by
      refine has_foldl_del.2 ⟨hfull hq p (.tail _ hp) x hx, fun hmem => ?_⟩
      unfold takenGranules at hmem
      split at hmem
      · rename_i htk
        exact (List.pairwise_cons.1 (hdis htk)).1 p hp x (by simpa using hmem) hx
      · exact List.not_mem_nil hmem
    obtain ⟨S', g', hrest, h', hr'⟩ := ih (fun p hp => hne p (.tail _ hp)) h1 hreg (by rw [hlne]; nofun) (fun _ => rfl) hkept
      (fun hq => (List.pairwise_cons.1 (hdis hq)).2)
    refine ⟨S', g', ?_, by simpa [Bool.or_assoc] using h', by simpa [Bool.or_assoc] using hr'⟩
    simp only [loadGroups, hmissing, List.isEmpty_nil, Bool.not_true, Bool.false_eq_true, if_false, hS0, hgr, htake, putLoaded_eq,
      State.modV_withLoad, hrest]
    rw [takenGranules_cons qf all (start, group) G, List.foldl_append]

end Sys2Proof.Machine
end

section
/-!
PROOFS. What a vector access of the scratchpad works on once its elements are placed: the executing elements, all the instruction's own,
and the element groups (spec 05 R75, R83; 12 R179).
-/

namespace Sys2Proof.Machine

/-! ## Element groups -/

/-- In a list ordered by k the entries below n and those at n make the entries up to n. -/
theorem filter_lt_append_filter_eq {α : Type} (k : α → Nat) (n : Nat) {l : List α} (h : l.Pairwise (fun a b => k a ≤ k b)) :
    l.filter (fun a => decide (k a < n)) ++ l.filter (fun a => decide (k a = n)) = l.filter (fun a => decide (k a < n + 1)) := by
  induction l with
  | nil => rfl
  | cons x l ih =>
    obtain ⟨hx, hl⟩ := List.pairwise_cons.1 h
    by_cases h1 : k x < n
    · have h2 : k x ≠ n := by omega
      have h3 : k x < n + 1 := by omega
      simp only [List.filter_cons, h1, h2, h3, decide_true, decide_false, Bool.false_eq_true, if_true, if_false, List.cons_append, ih hl]
    · have hnone : l.filter (fun a => decide (k a < n)) = [] := by
        rw [List.filter_eq_nil_iff]
        intro y hy
        have := hx y hy
        simp; omega
      have ih := ih hl
      rw [hnone, List.nil_append] at ih
      by_cases h2 : k x = n
      · have h3 : k x < n + 1 := by omega
        rw [List.filter_cons_of_neg (by simpa using h1), List.filter_cons_of_pos (by simpa using h2), List.filter_cons_of_pos (by simpa using h3),
          hnone, List.nil_append, ih]
      · have h3 : ¬ k x < n + 1 := by omega
        simp only [List.filter_cons, h1, h2, h3, decide_false, Bool.false_eq_true, if_false, hnone, List.nil_append, ih]

theorem flatMap_filter_eq {α : Type} (k : α → Nat) (n : Nat) {l : List α} (h : l.Pairwise (fun a b => k a ≤ k b)) :
    (List.range n).flatMap (fun j => l.filter (fun a => decide (k a = j))) = l.filter (fun a => decide (k a < n)) := by
  induction n with
  | zero => simp
  | succ n ih => rw [List.range_succ, List.flatMap_append, ih, List.flatMap_singleton, filter_lt_append_filter_eq k n h]

theorem flatMap_filter_nonempty {β γ : Type} (G : List (β × List γ)) : (G.filter (fun x => !x.2.isEmpty)).flatMap (·.2) = G.flatMap (·.2) := by
  induction G with
  | nil => rfl
  | cons p G ih =>
    obtain ⟨b, c⟩ := p
    cases c <;> simp [ih]

/-- The groups together are the elements, in order. -/
theorem cutGroups_flatMap (e : LaneEnv) {l : List (Nat × SpadElem)} (hs : l.Pairwise (fun p q => p.1 < q.1)) (hvl : ∀ p ∈ l, p.1 < e.vl) :
    (cutGroups e l).flatMap (·.2) = l := by
  have hk : l.Pairwise (fun p q => p.1 / groupSize e ≤ q.1 / groupSize e) := hs.imp fun h => Nat.div_le_div_right (Nat.le_of_lt h)
  unfold cutGroups
  rw [flatMap_filter_nonempty, List.flatMap_map]
  have := flatMap_filter_eq (fun p : Nat × SpadElem => p.1 / groupSize e) (e.vl / groupSize e + 1) hk
  refine this.trans (List.filter_eq_self.2 fun p hp => ?_)
  have := Nat.div_le_div_right (c := groupSize e) (Nat.le_of_lt (hvl p hp))
  simp; omega

theorem cutGroups_ne_nil (e : LaneEnv) (l : List (Nat × SpadElem)) : ∀ p ∈ cutGroups e l, p.2 ≠ [] := by
  intro p hp
  have := (List.mem_filter.1 hp).2
  simpa using this

/-- A group starts no later than its elements. -/
theorem cutGroups_start {e : LaneEnv} {l : List (Nat × SpadElem)} (hst : ∀ p ∈ l, e.start ≤ p.1) : ∀ p ∈ cutGroups e l, ∀ q ∈ p.2, p.1 ≤ q.1 := by
  intro p hp q hq
  obtain ⟨j, -, rfl⟩ := List.mem_map.1 (List.mem_filter.1 hp).1
  obtain ⟨hl, hj⟩ := List.mem_filter.1 hq
  have hj : q.1 / groupSize e = j := by simpa using hj
  have h1 := hst q hl
  have h2 : j * groupSize e ≤ q.1 := hj ▸ Nat.div_mul_le_self q.1 (groupSize e)
  exact Nat.max_le.2 ⟨h1, h2⟩

/-- Two groups of an instruction wait for, and take, granules of their own (R75). -/
theorem cutGroups_granules {e : LaneEnv} {l all : List (Nat × SpadElem)} (hs : l.Pairwise (fun p q => p.1 < q.1)) (hvl : ∀ p ∈ l, p.1 < e.vl)
    (hall : ∀ p ∈ l, p ∈ all) :
    (cutGroups e l).Pairwise (fun p q => ∀ x ∈ groupGranules all p.2, x ∉ groupGranules all q.2) := by
  have hp : ((cutGroups e l).flatMap (·.2)).Pairwise (fun p q => p.1 < q.1) := by rwa [cutGroups_flatMap e hs hvl]
  refine (List.pairwise_flatMap.1 hp).2.imp_of_mem fun {A B} hA _ hlt x hxA hxB => ?_
  obtain ⟨p, hpA, -, hxp, -⟩ := mem_groupGranules.1 hxA
  obtain ⟨q, hqB, -, -, hnone⟩ := mem_groupGranules.1 hxB
  refine hnone p (hall p ?_) (hlt p hpA q hqB) hxp
  rw [← cutGroups_flatMap e hs hvl]
  exact List.mem_flatMap.2 ⟨A, hA, hpA⟩

/-! ## The elements of an access -/

theorem elems_sorted (e : LaneEnv) (v : VecUnit) (mk : MkField) (n : Nat) : (e.elems v mk n).Pairwise (· < ·) := by
  unfold LaneEnv.elems
  apply List.Pairwise.filter
  rw [List.pairwise_map]
  exact List.pairwise_lt_range.imp fun h => Nat.add_lt_add_right h _

/-- What a scratchpad access of a state is: its environment, address mode, base, whether it is lane-local, width, mask. -/
structure VecPad where
  s : State
  e : LaneEnv
  m : VMode
  a : SReg
  lane : Bool
  ew : Width
  mask : MkField

namespace VecPad

/-- The width in bytes. -/
def w (A : VecPad) : Nat := Width.bytes A.ew
/-- The address of element j. -/
def addr (A : VecPad) (j : Nat) : Word := A.m.addr A.e A.s.curC.vec (A.e.sreg A.a) (Width.bytes A.ew) j
/-- The place of byte b of element j. -/
def pl (A : VecPad) (j b : Nat) : Nat := spadByte A.lane (A.e.sreg A.a) (A.addr j) A.w j b
/-- Element j executes. -/
def ex (A : VecPad) (j : Nat) : Prop := Executes A.e A.s.curC.vec A.mask j
/-- Element j is allocated to the context. -/
def own (A : VecPad) (j : Nat) : Bool := spadOwn A.s A.lane (A.e.sreg A.a) (A.addr j) A.w j
/-- Every executing element is placed. -/
def Ok (A : VecPad) : Prop := ∀ j, A.ex j → spadPlaceOk A.lane (A.e.sreg A.a) (A.addr j) A.w j
/-- Element j where its place is right. -/
def elem (A : VecPad) (j : Nat) : SpadElem := elemAt A.s A.lane (A.e.sreg A.a) (A.addr j) A.w j
/-- What element j meets. -/
def place (A : VecPad) (j : Nat) : ElemRes SpadElem := placeOf A.s A.lane (A.e.sreg A.a) (A.addr j) A.w j
/-- The executing elements' numbers. -/
def idx (A : VecPad) : List Nat := A.e.elems A.s.curC.vec A.mask A.e.vl
/-- The executing elements. -/
def run (A : VecPad) : List (Nat × SpadElem) := A.idx.map (fun j => (j, A.elem j))
/-- The elements of the instruction that are placed, those of an earlier part included (R75). -/
def all (A : VecPad) : List (Nat × SpadElem) :=
  okBelow (spadElems A.place ((List.range A.e.vl).filter (fun i => A.e.peers.getLsbD i && maskOn A.s.curC.vec A.mask i))) 4096

variable {A : VecPad}

theorem mem_idx {j : Nat} : j ∈ A.idx ↔ A.ex j := mem_elems

theorem mem_run {p : Nat × SpadElem} : p ∈ A.run ↔ A.ex p.1 ∧ p.2 = A.elem p.1 := by
  obtain ⟨j, x⟩ := p
  simp only [run, List.mem_map, mem_idx, Prod.mk.injEq]
  exact ⟨fun ⟨k, hk, h1, h2⟩ => h1 ▸ ⟨hk, h2.symm⟩, fun ⟨hk, h2⟩ => ⟨j, hk, rfl, h2.symm⟩⟩

theorem elem_guarded (j : Nat) : (A.elem j).guarded = !A.own j := rfl

theorem elem_lies (h : A.Ok) {j : Nat} (hj : A.ex j) : (A.elem j).Lies A.w (A.pl j) := elemAt_lies A.s (h j hj)

theorem place_ok (h : A.Ok) {j : Nat} (hj : A.ex j) : A.place j = .ok (A.elem j) := placeOf_ok (h j hj)

theorem run_sorted (A : VecPad) : A.run.Pairwise (fun p q => p.1 < q.1) := List.pairwise_map.2 (elems_sorted _ _ _ _)

theorem spadElems_idx (h : A.Ok) : spadElems A.place A.idx = A.idx.map (fun j => (j, .ok (A.elem j))) :=
  List.map_congr_left fun j hj => by rw [place_ok h (mem_idx.1 hj)]

theorem firstFail_idx (h : A.Ok) : firstFail (spadElems A.place A.idx) = none := by
  rw [spadElems_idx h, firstFail, List.find?_eq_none]
  intro p hp
  obtain ⟨j, -, rfl⟩ := List.mem_map.1 hp
  exact Bool.false_ne_true

theorem okBelow_idx (h : A.Ok) : okBelow (spadElems A.place A.idx) 4096 = A.run := by
  rw [spadElems_idx h, okBelow, List.filterMap_map, run, List.filterMap_eq_map_iff_forall_eq_some.2]
  intro j hj
  have hlt : j < 4096 := Executes.lt (mem_idx.1 hj)
  simp [hlt]

theorem mem_all {p : Nat × SpadElem} (hp : p ∈ A.all) : p.1 < A.e.vl ∧ maskOn A.s.curC.vec A.mask p.1 = true ∧ A.place p.1 = .ok p.2 := by
  simp only [all, okBelow, spadElems, List.mem_filterMap, List.mem_map, List.mem_filter, List.mem_range, Bool.and_eq_true] at hp
  obtain ⟨-, ⟨j, ⟨hlt, -, hmask⟩, rfl⟩, hr⟩ := hp
  dsimp only at hr
  split at hr
  · rename_i x hx
    split at hr
    · obtain rfl : (j, x) = p := by simpa using hr
      exact ⟨hlt, hmask, hx⟩
    · exact absurd hr nofun
  · exact absurd hr nofun

/-- The executing elements are elements of the instruction. -/
theorem run_subset_all (h : A.Ok) (hpeers : A.e.peers = BitVec.allOnes 4096) : ∀ p ∈ A.run, p ∈ A.all := by
  rintro ⟨j, x⟩ hp
  obtain ⟨hj, rfl⟩ : A.ex j ∧ x = A.elem j := mem_run.1 hp
  have hlt : j < 4096 := Executes.lt hj
  obtain ⟨-, hvl, -, hmask⟩ := id hj
  have hin : j ∈ (List.range A.e.vl).filter (fun i => A.e.peers.getLsbD i && maskOn A.s.curC.vec A.mask i) := by
    refine List.mem_filter.2 ⟨List.mem_range.2 hvl, ?_⟩
    rw [hpeers, BitVec.getLsbD_allOnes, hmask, decide_eq_true hlt]
    rfl
  refine List.mem_filterMap.2 ⟨(j, A.place j), List.mem_map.2 ⟨j, hin, rfl⟩, ?_⟩
  simp [place_ok h hj, hlt]

/-- Where every element that the mask admits executes, the instruction has no others. -/
theorem all_subset_run (h : A.Ok) (hfresh : ∀ k, k < A.e.vl → maskOn A.s.curC.vec A.mask k = true → A.ex k) : ∀ p ∈ A.all, p ∈ A.run := by
  intro p hp
  obtain ⟨hvl, hmask, hplace⟩ := mem_all hp
  have hx := hfresh p.1 hvl hmask
  rw [place_ok h hx] at hplace
  exact mem_run.2 ⟨hx, by simpa using hplace.symm⟩

/-- A misplaced base cannot be where the elements are placed. -/
theorem laneTrap_none (h : A.Ok) : laneTrap (A.e.sreg A.a) A.lane (!A.idx.isEmpty) = none := by
  unfold laneTrap
  rw [if_neg]
  intro hc
  simp only [Bool.and_eq_true, Bool.not_eq_true', bne_iff_ne] at hc
  obtain ⟨⟨hlane, hne⟩, hmod⟩ := hc
  obtain ⟨j, hj⟩ := List.exists_mem_of_ne_nil A.idx (by simpa using hne)
  have := h j (mem_idx.1 hj)
  rw [spadPlaceOk, hlane, if_pos rfl] at this
  exact hmod this.1

/-! ## Groups of the executing elements -/

theorem run_lt {p : Nat × SpadElem} (hp : p ∈ A.run) : p.1 < A.e.vl := (mem_run.1 hp).1.2.1
theorem run_start {p : Nat × SpadElem} (hp : p ∈ A.run) : A.e.start ≤ p.1 := (mem_run.1 hp).1.1

theorem groups_flatMap (A : VecPad) : (cutGroups A.e A.run).flatMap (·.2) = A.run := cutGroups_flatMap A.e A.run_sorted fun _ => run_lt

theorem mem_of_group {p : Nat × List (Nat × SpadElem)} (hp : p ∈ cutGroups A.e A.run) {q : Nat × SpadElem} (hq : q ∈ p.2) : q ∈ A.run := by
  rw [← A.groups_flatMap]
  exact List.mem_flatMap.2 ⟨p, hp, hq⟩

/-- A granule that a group waits for is one of an executing element of its own. -/
theorem granule_of_group (h : A.Ok) {p : Nat × List (Nat × SpadElem)} (hp : p ∈ cutGroups A.e A.run) {x : Nat}
    (hx : x ∈ groupGranules A.all p.2) : ∃ j b, A.ex j ∧ A.own j = true ∧ b < A.w ∧ A.pl j b / 16 = x := by
  obtain ⟨⟨j, y⟩, hq, hg, hxq, -⟩ := mem_groupGranules.1 hx
  obtain ⟨hj, rfl⟩ : A.ex j ∧ y = A.elem j := mem_run.1 (mem_of_group hp hq)
  obtain ⟨b, hb, he⟩ := ((elem_lies h hj).mem_granules x).1 hxq
  exact ⟨j, b, hj, by simpa [elem_guarded] using hg, hb, he⟩

/-- A fresh load of allocated elements takes the granules of its elements (R73). -/
theorem mem_taken (h : A.Ok) (hown : ∀ j, A.ex j → A.own j = true)
    (hfresh : ∀ k, k < A.e.vl → maskOn A.s.curC.vec A.mask k = true → A.ex k) (x : Nat) :
    x ∈ takenGranules .take A.all (cutGroups A.e A.run) ↔ ∃ j b, A.ex j ∧ b < A.w ∧ A.pl j b / 16 = x := by
  simp only [takenGranules, if_true, List.mem_flatMap]
  constructor
  · rintro ⟨p, hp, hx⟩
    obtain ⟨j, b, hj, -, hb, he⟩ := granule_of_group h hp hx
    exact ⟨j, b, hj, hb, he⟩
  · intro hx
    -- the lowest element that touches the granule
    have hex : ∃ j, A.ex j ∧ ∃ b < A.w, A.pl j b / 16 = x := by
      obtain ⟨j, b, hj, hb, he⟩ := hx
      exact ⟨j, hj, b, hb, he⟩
    classical
    obtain ⟨hj, b, hb, he⟩ := Nat.find_spec hex
    have hmin := fun k => Nat.find_min hex (m := k)
    generalize Nat.find hex = j at hj he hmin
    have hin : (j, A.elem j) ∈ (cutGroups A.e A.run).flatMap (·.2) := by rw [A.groups_flatMap]; exact mem_run.2 ⟨hj, rfl⟩
    obtain ⟨p, hp, hjp⟩ := List.mem_flatMap.1 hin
    refine ⟨p, hp, mem_groupGranules.2 ⟨_, hjp, by rw [elem_guarded, hown j hj]; rfl, ((elem_lies h hj).mem_granules x).2 ⟨b, hb, he⟩,
      fun q hq hlt hxq => ?_⟩⟩
    obtain ⟨hqx, hqe⟩ := mem_run.1 (all_subset_run h hfresh q hq)
    rw [hqe] at hxq
    exact hmin q.1 hlt ⟨hqx, ((elem_lies h hqx).mem_granules x).1 hxq⟩

end VecPad

end Sys2Proof.Machine
end

section
/-!
PROOFS. Vector loads of the scratchpad (spec 05 R73 to R76, R83; 18 R341).
-/

namespace Sys2Proof.Machine

/-! ## Guard accesses -/

/-- An access without guard accesses records none (R77). -/
theorem noteGuards_none {s : State} {pc : Word} {start : Nat} {all done : List (Nat × SpadElem)} (h : ∀ p ∈ done, p.2.guarded = false) :
    noteGuards s pc start all done = s := by
  have hf : done.find? (fun p => p.2.guarded) = none := List.find?_eq_none.2 fun p hp => by rw [h p hp]; exact Bool.false_ne_true
  unfold noteGuards
  rw [hf]
  split <;> rfl

theorem State.modCur_id (s : State) : s.modCur id = s := by
  refine State.modCurC_self (f := fun c => { c with threads := c.threads.set s.curTid (id c.threads[s.curTid]) }) ?_
  have h : s.curC.threads.set s.curTid s.curC.threads[s.curTid] = s.curC.threads := Vector.set_getElem_self s.curTid.isLt
  simp only [id_eq, h]

/-- What recording guard accesses does: of the thread the record alone changes, and it is there where there was a guard access (R76, R77). -/
theorem noteGuards_spec (s : State) (pc : Word) (start : Nat) (all done : List (Nat × SpadElem)) :
    ∃ f : Thread → Thread, noteGuards s pc start all done = s.modCur f ∧ (∀ t, { f t with guard := t.guard } = t)
      ∧ ((∃ p ∈ done, p.2.guarded = true) → (f s.cur).guard ≠ none) := by
  unfold noteGuards
  split
  · rename_i hg
    refine ⟨id, (State.modCur_id s).symm, fun _ => rfl, fun _ hn => ?_⟩
    rw [show s.cur.guard = none from hn] at hg
    exact Bool.false_ne_true hg
  · split
    · refine ⟨_, rfl, fun t => ?_, fun _ hn => ?_⟩
      · unfold Thread.noteGuard; split <;> rfl
      · unfold Thread.noteGuard at hn; split at hn <;> exact Option.some_ne_none _ hn
    · rename_i hf
      refine ⟨id, (State.modCur_id s).symm, fun _ => rfl, fun ⟨p, hp, hg⟩ => ?_⟩
      exact absurd hg (List.find?_eq_none.1 hf p hp)

/-- A lane word that waits at element i leaves its vstart and its destination's vpx there (R75, R181). -/
theorem issueLane_wait {s s1 s2 : State} {op : LaneOp} {e : LaneEnv} {w : Wait} {i : Nat} (h : LaneGo s op.dest op.srcs op.rep op.split e s1)
    (hd : op.run e s1 = .wait s2 w i) :
    issueLane op s = .next (((markStop s2 op.dest i).modCur (fun t => { t with vstart := BitVec.ofNat 12 i })).block w) := by
  obtain ⟨s0, ha, hb, rfl, h1, h2, h3, h4, h5⟩ := h
  have h5 := cut_none h5
  simp only [issueLane, withLanes, ha, hb, Bool.false_eq_true, ↓reduceIte, runLane, laneCheck_none h1 h2 h3, h4, h5, hd]

/-- What a lane word that waits at element i leaves. -/
theorem waiting_spec (s : State) (vd : VReg) (i : Nat) (w : Wait) :
    let t := ((markStop s (some vd) i).modCur (fun t => { t with vstart := BitVec.ofNat 12 i })).block w
    t.cur.wait = w ∧ t.cur.pc = s.cur.pc ∧ SameBytes s t ∧ t.curC.full = s.curC.full ∧ ∀ r, (t.vreg r).bits = (s.vreg r).bits := by
  intro t
  have ht : t = (s.modV vd (fun x => { x with vpx := BitVec.ofNat 13 i })).modCur
      (fun t => { t with vstart := BitVec.ofNat 12 i, wait := w, wakeC := none }) := State.modCur_modCur _ _ _
  rw [ht]
  refine ⟨by rw [State.cur_modCur], by rw [State.cur_modCur, State.cur_modV], (State.byteAt_modV s vd _).trans (State.byteAt_modCur _ _), ?_,
    fun r => ?_⟩
  · rw [State.full_modCur, State.modV, State.modVec, State.curC_modCurC]
  · rw [State.vreg_modCur]
    by_cases h : r = vd
    · rw [h, State.vreg_modV_same]
    · rw [State.vreg_modV_other s _ h]

theorem LaneGo.peers {s s1 : State} {dest : Option VReg} {srcs : List VReg} {rep : Option VReg} {split : Bool} {e : LaneEnv}
    (h : LaneGo s dest srcs rep split e s1) : e.peers = BitVec.allOnes 4096 := by
  obtain ⟨s0, -, -, rfl, -⟩ := h
  rfl

namespace VecPad

variable {A : VecPad} {vd : VReg} {qf : LoadQual}

theorem opVloadSpad_ready (h : A.Ok) {s : State}
    (hl : loadGroups A.s A.e vd A.w qf A.all (A.e.earlier A.s.curC.vec A.mask vd) (cutGroups A.e A.run) = (s, none)) :
    (opVloadSpad vd A.a A.m A.lane A.ew qf A.mask).run A.e A.s = .done (loaded A.e (noteGuards s A.e.pc A.e.start A.all A.run) vd) := by
  have h1 := laneTrap_none h
  have h2 := firstFail_idx h
  have h3 := okBelow_idx h
  have hplace : A.place = fun i => if A.lane then laneElem A.s (Width.bytes A.ew) (A.e.sreg A.a) i
      else spadElem A.s (Width.bytes A.ew) (A.m.addr A.e A.s.curC.vec (A.e.sreg A.a) (Width.bytes A.ew) i) := rfl
  unfold all at hl ⊢
  rw [hplace] at hl h2 h3 ⊢
  unfold idx at h1 h2 h3
  unfold w at hl
  simp only [opVloadSpad, h1, h2, h3, hl]

theorem opVloadSpad_waits (h : A.Ok) {s : State} {gs : List Nat} {i : Nat}
    (hl : loadGroups A.s A.e vd A.w qf A.all (A.e.earlier A.s.curC.vec A.mask vd) (cutGroups A.e A.run) = (s, some (gs, i))) :
    (opVloadSpad vd A.a A.m A.lane A.ew qf A.mask).run A.e A.s
      = .wait (noteGuards s A.e.pc A.e.start A.all (A.run.filter (fun p => decide (p.1 < i)))) (.granule gs) i := by
  have h1 := laneTrap_none h
  have h2 := firstFail_idx h
  have h3 := okBelow_idx h
  have hplace : A.place = fun i => if A.lane then laneElem A.s (Width.bytes A.ew) (A.e.sreg A.a) i
      else spadElem A.s (Width.bytes A.ew) (A.m.addr A.e A.s.curC.vec (A.e.sreg A.a) (Width.bytes A.ew) i) := rfl
  unfold all at hl ⊢
  rw [hplace] at hl h2 h3 ⊢
  unfold idx at h1 h2 h3
  unfold w at hl
  simp only [opVloadSpad, h1, h2, h3, hl]

/-- What element j loads: its bytes; guard accesses and poison read zero (R76, R83, R341). -/
def num (A : VecPad) (j : Nat) : Nat := loadElem A.w A.e.n (elemNum A.s.curC (A.elem j))

/-- Element j meets poison. -/
def bad (A : VecPad) (j : Nat) : Bool := (List.range A.w).any (fun b => A.s.curC.spadPoisoned (A.pl j b) 1)

theorem elemBad_elem (h : A.Ok) {j : Nat} (hj : A.ex j) : elemBad A.s.curC (A.elem j) = (A.own j && A.bad j) := by
  rw [elemBad, (elem_lies h hj).poisoned, elem_guarded, Bool.not_not]; rfl

theorem num_eq (h : A.Ok) {j : Nat} (hj : A.ex j) : A.num j = if A.own j = true ∧ A.bad j = false
    then loadElem A.w A.e.n (leNat ((List.range A.w).map (fun b => Mem.get A.s.curC.spad (A.pl j b)))) else 0 := by
  rw [num, elemNum, (elem_lies h hj).poisoned, (elem_lies h hj).read, elem_guarded]
  change loadElem A.w A.e.n (if (!A.own j || A.bad j) = true then 0 else _) = _
  cases A.own j <;> cases A.bad j <;> simp [loadElem_zero]

theorem run_num (A : VecPad) : A.run.map (fun p => (p.1, loadElem A.w A.e.n (elemNum A.s.curC p.2))) = A.idx.map (fun j => (j, A.num j)) := by
  rw [run, List.map_map]; rfl

/-- A load that need not wait reads all its elements, and empties the granules that it takes (R73, R75). -/
theorem loadGroups_run (h : A.Ok) (hpeers : A.e.peers = BitVec.allOnes 4096) (vd : VReg) (before : Bool)
    (hfull : qf = .plain ∨ ∀ j b, A.ex j → A.own j = true → b < A.w → A.s.curC.isFull (A.pl j b / 16) = true) :
    ∃ S g, loadGroups A.s A.e vd A.w qf A.all before (cutGroups A.e A.run)
        = (S.withLoad vd ((takenGranules qf A.all (cutGroups A.e A.run)).foldl NatSet.del A.s.curC.full) g, none)
      ∧ LoadState A.s qf (A.run.any (fun p => elemBad A.s.curC p.2)) S
      ∧ LoadedReg A.e.n (A.idx.map (fun j => (j, A.num j))) (A.run.any (fun p => elemBad A.s.curC p.2)) before (A.s.vreg vd) g := by
  have hready (hq : qf ≠ .plain) (p) (hp : p ∈ cutGroups A.e A.run) (x) (hx : x ∈ groupGranules A.all p.2) :
      NatSet.has A.s.curC.full x = true := by
    obtain ⟨j, b, hj, ho, hb, rfl⟩ := granule_of_group h hp hx
    exact hfull.resolve_left hq j b hj ho hb
  obtain ⟨S, g, hl, hS, hg⟩ := loadGroups_ready (vd := vd) (w := A.w) (cutGroups A.e A.run) (cutGroups_ne_nil _ _) (LoadState.start A.s qf)
    (LoadedReg.none A.e.n before (A.s.vreg vd)) (fun _ => ⟨rfl, rfl⟩) nofun hready
    (fun _ => cutGroups_granules A.run_sorted (fun _ => run_lt) (run_subset_all h hpeers))
  rw [State.withLoad_self] at hl
  rw [groups_flatMap, Bool.false_or] at hS hg
  rw [List.nil_append, run_num] at hg
  exact ⟨S, g, hl, hS, hg⟩

/-- What a load that need not wait has done outside vd and the full-empty bits: T is the state after, guard accesses recorded. -/
structure LoadEnd (A : VecPad) (qf : LoadQual) (T : State) : Prop where
  read : ReadBy A.s T
  vec : T.curC.vec = A.s.curC.vec
  full : T.curC.full = A.s.curC.full
  clean : (∀ j, A.ex j → A.own j = true ∧ A.bad j = false) → T = A.s ∨ (qf ≠ .plain ∧ T = A.s.takeC)
  checks : (∃ j, A.ex j ∧ A.own j = true ∧ A.bad j = true) → T.cur.checks ≠ []
  guard : (∃ j, A.ex j ∧ A.own j = false) → T.cur.guard ≠ none

theorem run_any_bad (h : A.Ok) : A.run.any (fun p => elemBad A.s.curC p.2) = true ↔ ∃ j, A.ex j ∧ A.own j = true ∧ A.bad j = true := by
  rw [run, List.any_map, List.any_eq_true]
  constructor
  · rintro ⟨j, hj, hb⟩
    have hj := mem_idx.1 hj
    exact ⟨j, hj, by simpa [elemBad_elem h hj] using hb⟩
  · rintro ⟨j, hj, ho, hb⟩
    exact ⟨j, mem_idx.2 hj, by simp [elemBad_elem h hj, ho, hb]⟩

/-- Recording the guard accesses ends the load. -/
theorem loadEnd_noteGuards (h : A.Ok) {S : State} (hS : LoadState A.s qf (A.run.any (fun p => elemBad A.s.curC p.2)) S) (F : GSet) (g : VecReg) :
    ∃ T, noteGuards (S.withLoad vd F g) A.e.pc A.e.start A.all A.run = T.withLoad vd F g ∧ LoadEnd A qf T := by
  have hcur : (S.withLoad vd F g).cur = S.cur := State.thr_withLoad S vd F g _ _
  obtain ⟨f, hf, hframe, hguard⟩ := noteGuards_spec (S.withLoad vd F g) A.e.pc A.e.start A.all A.run
  rw [hcur] at hguard
  by_cases hown : ∀ j, A.ex j → A.own j = true
  · refine ⟨S, noteGuards_none fun p hp => ?_, hS.read, hS.vec, hS.full, fun hc => hS.clean ?_, fun hb => hS.checks ((run_any_bad h).2 hb),
      fun ⟨j, hj, ho⟩ => ?_⟩
    · obtain ⟨hj, hp⟩ := mem_run.1 hp
      rw [hp, elem_guarded, hown _ hj]; rfl
    · rw [← Bool.not_eq_true, run_any_bad h]
      rintro ⟨j, hj, -, hb⟩
      exact Bool.false_ne_true ((hc j hj).2.symm.trans hb)
    · exact absurd (hown j hj) (by rw [ho]; exact Bool.false_ne_true)
  · refine ⟨S.modCur f, by rw [hf, State.modCur_withLoad], hS.read.trans (ReadBy.modCur fun x => ?_), (State.vec_modCur S f).trans hS.vec,
      (State.full_modCur S f).trans hS.full, fun hc => absurd (fun j hj => (hc j hj).1) hown, fun hb => ?_, fun ⟨j, hj, ho⟩ => ?_⟩
    · exact (congrArg (fun y : Thread => { y with cbit := x.cbit, wakeC := x.wakeC, checks := x.checks }) (hframe x))
    · have hchecks : (f S.cur).checks = S.cur.checks := by have := congrArg Thread.checks (hframe S.cur); exact this
      rw [State.cur_modCur, hchecks]
      exact hS.checks ((run_any_bad h).2 hb)
    · rw [State.cur_modCur]
      exact hguard ⟨(j, A.elem j), mem_run.2 ⟨hj, rfl⟩, by rw [elem_guarded, ho]; rfl⟩

section Completes

variable {s : State} (hgo : LaneGo s (some vd) A.m.index none true A.e A.s) (h : A.Ok)
include hgo h

/-- A load that need not wait completes. -/
theorem vload_completes (hfull : qf = .plain ∨ ∀ j b, A.ex j → A.own j = true → b < A.w → A.s.curC.isFull (A.pl j b / 16) = true) :
    ∃ T t, LoadEnd A qf T ∧ issueLane (opVloadSpad vd A.a A.m A.lane A.ew qf A.mask) s = .next t
      ∧ LaneWrote (T.modCurC (fun c => { c with full := (takenGranules qf A.all (cutGroups A.e A.run)).foldl NatSet.del c.full }))
          t A.e vd A.e.n A.mask A.num
      ∧ t.cur.fflags = A.s.cur.fflags ∧ t.cur.vsat = A.s.cur.vsat
      ∧ LoadedReg A.e.n (A.idx.map (fun j => (j, A.num j))) (A.run.any (fun p => elemBad A.s.curC p.2)) (A.e.earlier A.s.curC.vec A.mask vd)
          (A.s.vreg vd) (t.vreg vd) := by
  obtain ⟨S, g, hl, hS, hg⟩ := loadGroups_run h hgo.peers vd (A.e.earlier A.s.curC.vec A.mask vd) hfull
  obtain ⟨T, hT, hend⟩ := loadEnd_noteGuards h hS ((takenGranules qf A.all (cutGroups A.e A.run)).foldl NatSet.del A.s.curC.full) g
  have hfullT : T.modCurC (fun c => { c with full := (takenGranules qf A.all (cutGroups A.e A.run)).foldl NatSet.del A.s.curC.full })
      = T.modCurC (fun c => { c with full := (takenGranules qf A.all (cutGroups A.e A.run)).foldl NatSet.del c.full }) := by
    refine State.modCore_congr ?_
    have hc : (T.core T.curCore).full = A.s.curC.full := hend.full
    rw [hc]
  have hrun := opVloadSpad_ready h hl
  rw [hT, loaded_eq, State.withLoad_eq_modV, State.modV_modV, hfullT] at hrun
  have hvec : (T.modCurC (fun c => { c with full := (takenGranules qf A.all (cutGroups A.e A.run)).foldl NatSet.del c.full })).curC.vec
      = A.s.curC.vec := by rw [State.curC_modCurC]; exact hend.vec
  obtain ⟨t, ht, hw, hflags, hsat, hvd⟩ := issueLane_loaded hgo hrun hvec (hg.marked A.e)
  have hcur : (T.modCurC (fun c => { c with full := (takenGranules qf A.all (cutGroups A.e A.run)).foldl NatSet.del c.full })).cur = T.cur :=
    State.cur_modCore_of_threads fun _ => rfl
  rw [hcur] at hflags hsat
  have hth := hend.read.thread
  refine ⟨T, t, hend, ht, hw, hflags.trans ?_, hsat.trans ?_, hvd ▸ hg.marked A.e⟩
  · have := congrArg Thread.fflags hth; exact this
  · have := congrArg Thread.vsat hth; exact this

/-- A fresh load whose lowest element's granule is empty waits there, having done nothing (R75). -/
theorem vload_waits (hq : qf ≠ .plain) (hfresh : ∀ k, k < A.e.vl → maskOn A.s.curC.vec A.mask k = true → A.ex k) {j : Nat} (hj : A.ex j)
    (hlow : ∀ k, k < j → ¬ A.ex k) (hown : A.own j = true) (hempty : A.s.curC.isFull (A.pl j 0 / 16) = false) :
    ∃ t gs, issueLane (opVloadSpad vd A.a A.m A.lane A.ew qf A.mask) s = .next t ∧ t.cur.wait = .granule gs ∧ A.pl j 0 / 16 ∈ gs
      ∧ t.cur.pc = A.s.cur.pc ∧ SameBytes A.s t ∧ t.curC.full = A.s.curC.full ∧ ∀ r, (t.vreg r).bits = (A.s.vreg r).bits := by
  have hjrun : (j, A.elem j) ∈ A.run := mem_run.2 ⟨hj, rfl⟩
  have hw : 0 < A.w := by rcases width_cases A.ew with e | e | e | e <;> rw [w, e] <;> decide
  have hflat := A.groups_flatMap
  have hnil := cutGroups_ne_nil A.e A.run
  have hstart := cutGroups_start (e := A.e) (l := A.run) fun p hp => run_start hp
  cases hG : cutGroups A.e A.run with
  | nil =>
    rw [hG] at hflat
    rw [← hflat] at hjrun
    exact absurd hjrun List.not_mem_nil
  | cons p rest =>
    obtain ⟨start, group⟩ := p
    rw [hG] at hflat hnil hstart
    rw [List.flatMap_cons] at hflat
    -- the lowest element is in the first group
    have hjg : (j, A.elem j) ∈ group := by
      rw [← hflat] at hjrun
      refine (List.mem_append.1 hjrun).resolve_right fun hr => ?_
      obtain ⟨q, hqg⟩ := List.exists_mem_of_ne_nil group (hnil _ (.head _))
      have hsorted := A.run_sorted
      rw [← hflat] at hsorted
      have hq := (List.pairwise_append.1 hsorted).2.2 q hqg _ hr
      have hqrun : q ∈ A.run := hflat ▸ List.mem_append_left _ hqg
      exact hlow q.1 hq (mem_run.1 hqrun).1
    have hle : start ≤ j := hstart _ (.head _) _ hjg
    have hgs : A.pl j 0 / 16 ∈ groupGranules A.all group :=
      mem_groupGranules.2 ⟨_, hjg, by rw [elem_guarded, hown]; rfl, ((elem_lies h hj).mem_granules _).2 ⟨0, hw, rfl⟩,
        fun q hq hlt => absurd (mem_run.1 (all_subset_run h hfresh q hq)).1 (hlow q.1 hlt)⟩
    have hmissing : ((groupGranules A.all group).filter (fun g => !A.s.curC.isFull g)).isEmpty = false := by
      rw [List.isEmpty_eq_false_iff]
      exact List.ne_nil_of_mem (List.mem_filter.2 ⟨hgs, by rw [hempty]; rfl⟩)
    have hl : loadGroups A.s A.e vd A.w qf A.all (A.e.earlier A.s.curC.vec A.mask vd) (cutGroups A.e A.run)
        = (A.s, some (groupGranules A.all group, start)) := by
      rw [hG]
      simp only [loadGroups, if_neg hq, hmissing, Bool.not_false, if_true]
    have hrun := opVloadSpad_waits h hl
    rw [noteGuards_none fun p hp => ?_] at hrun
    · obtain ⟨hwait, hpc, hbytes, hfull, hregs⟩ := waiting_spec A.s vd start (.granule (groupGranules A.all group))
      exact ⟨_, _, issueLane_wait hgo hrun, hwait, hgs, hpc, hbytes, hfull, hregs⟩
    · obtain ⟨hp, hlt⟩ := List.mem_filter.1 hp
      have hlt : p.1 < start := by simpa using hlt
      exact absurd (mem_run.1 hp).1 (hlow p.1 (by omega))

end Completes

end VecPad

end Sys2Proof.Machine
end

section
/-!
PROOFS. The vector loads (spec 05 R83): O35.
-/

namespace Sys2Proof.Machine

theorem LaneWrote.congr {s t : State} {e : LaneEnv} {vd : VReg} {n : Nat} {mk : MkField} {f g : Nat → Nat} (h : LaneWrote s t e vd n mk f)
    (hfg : ∀ j, Executes e s.curC.vec mk j → f j = g j) : LaneWrote s t e vd n mk g := by
  refine ⟨h.1, fun j hj => ⟨fun hx => ?_, (h.2 j hj).2⟩⟩
  rw [(h.2 j hj).1 hx, hfg j hx]

theorem tgtNum_memory (s : State) {t : Tgt} (w : Nat) (h : ∀ f o, t ≠ .window f o) : tgtNum s t w = leNat (tgtRead s t w).1 := by
  cases t with
  | window f o => exact absurd rfl (h f o)
  | wm | host | peer => rfl

theorem LaneFrame.guard {s t : State} {vd : Option VReg} {md : Option MReg} {sd : Option SReg} (h : LaneFrame s t vd md sd) :
    t.cur.guard = s.cur.guard := by
  obtain ⟨-, -, -, hthread, -⟩ := h
  have hguard : t.cur.guard = s.cur.reissued.guard := by have := congrArg Thread.guard hthread; exact this
  rw [hguard, Thread.reissued]
  split
  · unfold Thread.modTrapSet; split <;> rfl
  · rfl

namespace VecPad

theorem num_lt (A : VecPad) (j : Nat) : A.num j < 2 ^ A.e.n := wrapInt_lt _ _

/-- What a load that need not wait leaves (R76, R83, R341). -/
theorem vload_spec {A : VecPad} {vd : VReg} {qf : LoadQual} {s : State} (hgo : LaneGo s (some vd) A.m.index none true A.e A.s) (h : A.Ok)
    (hfull : qf = .plain ∨ ∀ j b, A.ex j → A.own j = true → b < A.w → A.s.curC.isFull (A.pl j b / 16) = true) :
    ∃ t, issueLane (opVloadSpad vd A.a A.m A.lane A.ew qf A.mask) s = .next t ∧ SameBytes A.s t ∧ t.cur.pc = A.s.cur.advance.pc
      ∧ t.cur.vstart = 0
      ∧ ((∃ j, A.ex j ∧ A.own j = true ∧ A.bad j = true) → (t.vreg vd).tag = ⟨0x7F800000#32, 0, 9⟩ ∧ t.cur.checks ≠ [])
      ∧ ((∃ j, A.ex j ∧ A.own j = false) → t.cur.guard ≠ none)
      ∧ ∀ j, j < 32768 / A.e.n →
          (A.ex j → elemGet (t.vreg vd).bits A.e.n j = A.num j % 2 ^ A.e.n)
          ∧ (¬ A.ex j → elemGet (t.vreg vd).bits A.e.n j = srcElem A.s A.e vd j) := by
  obtain ⟨T, t, hend, ht, ⟨hframe, hels⟩, -, -, hreg⟩ := vload_completes hgo h hfull
  generalize hF : (fun c : Core => { c with full := (takenGranules qf A.all (cutGroups A.e A.run)).foldl NatSet.del c.full }) = f at hframe hels
  have hcur : (T.modCurC f).cur = T.cur := by subst hF; exact State.cur_modCore_of_threads fun _ => rfl
  have hvec : (T.modCurC f).curC.vec = A.s.curC.vec := by subst hF; rw [State.curC_modCurC]; exact hend.vec
  have hread : ReadBy A.s (T.modCurC f) := by subst hF; exact hend.read.trans (ReadBy.modCurC fun _ => rfl)
  have hchecks := hframe.checks
  have hguard := hframe.guard
  rw [hcur] at hchecks hguard
  rw [hvec] at hels
  have hold : (T.modCurC f).vreg vd = A.s.vreg vd := by rw [State.vreg, hvec]; rfl
  rw [hold] at hels
  obtain ⟨hpc, hstart, -, -, -, hbytes, -⟩ := hframe
  refine ⟨t, ht, hread.bytes.trans hbytes, hpc.trans hread.advance_pc, hstart, fun hb => ⟨?_, ?_⟩, fun ho => ?_, hels⟩
  · rw [(run_any_bad h).2 hb] at hreg
    obtain ⟨j, hj, -⟩ := hb
    exact hreg.tag_poisoned (elems_map_ne_nil ⟨j, hj⟩)
  · rw [hchecks]; exact hend.checks hb
  · rw [hguard]; exact hend.guard ho

end VecPad

/-- Settles O35: a load reads element after element; the groups of a scratchpad load wait for and empty granules of their own. -/
theorem vectorLoads : Obligations.VectorLoads := by
  constructor
  · intro s s1 s2 e vd vx a x ew mk i m tgt lf hi hgo w u val hg ex bad before
    have hexec : exec i s = issueLane (opVload (wordOf i) vd a m ew mk) s := by rcases hi with ⟨rfl, rfl⟩ | ⟨rfl, rfl⟩ | ⟨rfl, rfl⟩ <;> rfl
    have hplaced : Placed s1 s2 e (wordOf i) .load m a ew mk tgt lf := by
      rcases hi with ⟨rfl, rfl⟩ | ⟨rfl, rfl⟩ | ⟨rfl, rfl⟩ <;> exact hg
    have hval (j : Nat) : tgtNum s2 (tgt j) w = val j := rfl
    rw [hexec]
    refine ⟨fun hclean => ?_, fun hmem hbad => ?_⟩
    · obtain ⟨t, ht, hw, hrest⟩ := vload_clean hgo hplaced hclean
      exact ⟨t, ht, hw.congr fun j _ => congrArg (loadElem w e.n) (hval j), hrest⟩
    · obtain ⟨t, ht, hbytes, hpc, hstart, htag, hchecks, hels⟩ := vload_poisoned hgo hplaced hmem hbad
      refine ⟨t, ht, hbytes, hpc, hstart, htag, hchecks, fun j hj => ⟨fun hx => ?_, (hels j hj).2⟩⟩
      rw [(hels j hj).1 hx, ← hval, tgtNum_memory s2 w (hmem j hx)]
      rfl
  · intro s s1 e vd vx a x ew qf mk i m lane hi hgo w base addr ex own pl val fresh before bad hok
    have hexec : exec i s = issueLane (opVloadSpad vd a m lane ew qf mk) s := by
      rcases hi with ⟨rfl, rfl, rfl⟩ | ⟨rfl, rfl, rfl⟩ | ⟨rfl, rfl, rfl⟩ | ⟨rfl, rfl, rfl⟩ <;> rfl
    rw [hexec]
    let A : VecPad := ⟨s1, e, m, a, lane, ew, mk⟩
    have hA : A.Ok := hok
    refine ⟨fun hclean hfull => ?_, fun hfull => ?_, fun j hq hfresh hj hlow hown hempty => VecPad.vload_waits (A := A) hgo hA hq hfresh hj hlow hown hempty⟩
    · obtain ⟨T, t, hend, ht, hw, hflags, hsat, hreg⟩ := VecPad.vload_completes (A := A) hgo hA (hfull.imp_right fun hf j b hx _ hb => hf j b hx hb)
      have hnone : A.run.any (fun p => elemBad A.s.curC p.2) = false := by
        rw [← Bool.not_eq_true, VecPad.run_any_bad hA]
        rintro ⟨j, hx, -, hb⟩
        exact Bool.false_ne_true ((hclean j hx).2.symm.trans hb)
      rw [hnone] at hreg
      refine ⟨t, T, takenGranules qf A.all (cutGroups A.e A.run), ht, hend.clean hclean, hw.congr fun j hx => ?_, hflags, hsat,
        fun hex => ⟨hreg.tag_clean (elems_map_ne_nil hex), hreg.tag_fresh (elems_map_ne_nil hex)⟩, fun hq => if_neg hq, ?_⟩
      · rw [State.curC_modCurC] at hx
        have hx : A.ex j := by rw [hend.vec] at hx; exact hx
        exact (VecPad.num_eq hA hx).trans (if_pos (hclean j hx))
      · rintro rfl hfresh
        exact VecPad.mem_taken hA (fun j hx => (hclean j hx).1) hfresh
    · obtain ⟨t, ht, hbytes, hpc, hstart, hpois, hguard, hels⟩ := VecPad.vload_spec (A := A) hgo hA hfull
      refine ⟨t, ht, hbytes, hpc, hstart, hpois, hguard, fun j hj => ⟨fun hx => ?_, (hels j hj).2⟩⟩
      rw [(hels j hj).1 hx, Nat.mod_eq_of_lt (A.num_lt j)]
      exact VecPad.num_eq hA hx

end Sys2Proof.Machine
end

section
/-!
PROOFS. What a completed storing lane word leaves (spec 05 R86; 12 R218), and which of several writers a byte is left by.
-/

namespace Sys2Proof.Machine

/-! ## The frame -/

theorem Thread.reissued_wakeC (t : Thread) (w : Option Bool) : { t.reissued with wakeC := w } = ({ t with wakeC := w } : Thread).reissued := by
  unfold Thread.reissued Thread.modTrapSet
  dsimp only
  split <;> (try split) <;> rfl

theorem laneFinish_self (s : State) : LaneFrame s (laneFinish s State.advance) none none none :=
  (laneFinish_frame (s1 := s) (s2 := s) rfl (fun _ _ => rfl) (fun _ => rfl) (fun _ _ => rfl) (fun _ _ => rfl)
    ⟨rfl, fun _ _ => rfl, fun _ _ => rfl, rfl⟩).1

/-- A lane word that has written memory alone completes with a store's frame. -/
theorem storeFrame_laneFinish {s t : State} (h : Stored s t) : StoreFrame s (laneFinish t State.advance) := by
  obtain ⟨hpc, hstart, hre, -, -, -, hv, hm, ⟨hout, hcore, hthr, hunit⟩⟩ := laneFinish_self t
  refine ⟨hpc.trans h.advance_pc, hstart, hre, ?_, fun r => (hv r nofun).trans (h.vreg r), fun m => (hm m nofun).trans (by rw [h.vec]), ?_,
    fun k hk => ?_, fun k u hku => ?_, ?_⟩
  · obtain ⟨k0, k1, k2, k3, -⟩ := t.cur.reissued_keeps
    have hcur := h.cur
    have hpc0 : s.cur.pc = t.cur.pc := by rw [← hcur]
    have hlc : s.cur.lc = t.cur.lc := by rw [← hcur]
    have hle : s.cur.le = t.cur.le := by rw [← hcur]
    have hvs : s.cur.vstart = t.cur.vstart := by rw [← hcur]
    have hadv := congrArg (fun x : Thread => { x with vstart := t.cur.reissued.vstart, wakeC := s.cur.wakeC })
      (Thread.advance_frame ({ t.cur.reissued with vstart := 0 } : Thread))
    have hdone : (laneFinish t State.advance).cur = ({ t.cur.reissued with vstart := 0 } : Thread).advance := cur_laneFinish t Thread.advance
    rw [hdone, hpc0, hlc, hle, hvs]
    conv_rhs => rw [← hcur, ← Thread.reissued_wakeC]
    refine Eq.trans ?_ hadv
    dsimp only
    rw [k0, k1, k2, k3]
  · exact (congrArg (fun x : State => { x with
      fresh := s.fresh, wm := s.wm, wmPoison := s.wmPoison, host := s.host, peers := s.peers, cores := s.cores }) hout).trans h.outside
  · rw [hcore k (h.curCore.symm ▸ hk)]; exact h.core k hk
  · by_cases hk : k = s.curCore
    · subst hk
      have := hthr u (fun e => hku ⟨rfl, e.trans h.curTid⟩)
      rw [h.curCore] at this
      rw [this]; exact h.thr _ u
    · rw [State.thr, hcore k (h.curCore.symm ▸ hk)]; exact h.thr k u
  · exact (congrArg (fun c : Core => { c with
      threads := s.curC.threads, vec := s.curC.vec, counters := s.curC.counters
      spad := s.curC.spad, spadPoison := s.curC.spadPoison, full := s.curC.full }) hunit).trans
      (congrArg (fun c : Core => { c with vec := s.curC.vec, counters := s.curC.counters }) h.unit)

/-! ## The last writer -/

/-- What a run of writes leaves at one place: what was there where none of them writes it, else what the last that does has written. -/
theorem foldl_last {σ α β : Type} (step : σ → α → σ) (get : σ → β) (writes : α → Prop) (V : α → β → Prop) {l : List α}
    (hin : ∀ x ∈ l, ∀ s, writes x → V x (get (step s x))) (hout : ∀ x ∈ l, ∀ s, ¬ writes x → get (step s x) = get s) (s : σ) :
    ((∀ x ∈ l, ¬ writes x) ∧ get (l.foldl step s) = get s)
      ∨ ∃ l1 x l2, l = l1 ++ x :: l2 ∧ writes x ∧ (∀ y ∈ l2, ¬ writes y) ∧ V x (get (l.foldl step s)) := by
  induction l generalizing s with
  | nil => exact .inl ⟨nofun, rfl⟩
  | cons x l ih =>
    rcases ih (fun y hy => hin y (.tail _ hy)) (fun y hy => hout y (.tail _ hy)) (step s x) with ⟨hnone, hget⟩ | ⟨l1, y, l2, rfl, hy, hl2, hV⟩
    · by_cases hx : writes x
      · exact .inr ⟨[], x, l, rfl, hx, hnone, by rw [List.foldl_cons, hget]; exact hin x (.head _) s hx⟩
      · exact .inl ⟨List.forall_mem_cons.2 ⟨hx, hnone⟩, by rw [List.foldl_cons, hget]; exact hout x (.head _) s hx⟩
    · exact .inr ⟨x :: l1, y, l2, rfl, hy, hl2, hV⟩

/-- The same for a list in order: the last writer is the highest. -/
theorem foldl_highest {σ β γ : Type} (step : σ → Nat × γ → σ) (get : σ → β) (writes : Nat × γ → Prop) (V : Nat × γ → β → Prop) {l : List (Nat × γ)}
    (hin : ∀ x ∈ l, ∀ s, writes x → V x (get (step s x))) (hout : ∀ x ∈ l, ∀ s, ¬ writes x → get (step s x) = get s) (s : σ)
    (hs : l.Pairwise (fun p q => p.1 < q.1)) {x : Nat × γ} (hx : x ∈ l) (hw : writes x) (hhigh : ∀ y ∈ l, x.1 < y.1 → ¬ writes y) :
    V x (get (l.foldl step s)) := by
  rcases foldl_last step get writes V hin hout s with ⟨hnone, -⟩ | ⟨l1, y, l2, rfl, hy, hl2, hV⟩
  · exact absurd hw (hnone x hx)
  · rcases List.mem_append.1 hx with h1 | h1
    · have hlt := (List.pairwise_append.1 hs).2.2 x h1 y (.head _)
      exact absurd hy (hhigh y (by simp) hlt)
    · rcases List.mem_cons.1 h1 with rfl | h2
      · exact hV
      · exact absurd hw (hl2 x h2)

/-- A scatter performs the same elements. -/
theorem mem_scatterOrder {α : Type} (n : Nat) (meets : α → α → Bool) (l : List (Nat × α)) (p : Nat × α) : p ∈ scatterOrder n meets l ↔ p ∈ l := by
  have h (acc : List (Nat × α)) : p ∈ l.foldl (fun acc q =>
      if Config.scatterTakesLater (4096 * n + q.1) || !acc.any (fun x => meets x.2 q.2) then acc ++ [q] else q :: acc) acc ↔ p ∈ acc ∨ p ∈ l := by
    induction l generalizing acc with
    | nil => simp
    | cons q l ih =>
      rw [List.foldl_cons, ih]
      split <;> simp only [List.mem_append, List.mem_cons, List.not_mem_nil] <;> tauto
  exact (h []).trans (by simp)

end Sys2Proof.Machine
end

section
/-!
PROOFS. Vector stores of generic space (spec 05 R83, R86; 04 R4; 18 R324).
-/

namespace Sys2Proof.Machine

/-! ## Bytes of targets -/

theorem Tgt.place_inj {t : Tgt} {i j : Nat} {p : Place} (hi : t.place i = some p) (hj : t.place j = some p) : i = j := by
  cases t <;> simp only [Tgt.place, reduceCtorEq, Option.some.injEq] at hi hj <;> subst hi <;> injection hj <;> omega

/-- A target's bytes are those at its places (R1). -/
theorem tgtRead_getD {s : State} {t : Tgt} {n i : Nat} {p : Place} (hi : i < n) (hp : t.place i = some p) :
    (tgtRead s t n).1.getD i 0 = s.byteAt p := by
  have h (m : Memory) (a : Nat) : (Mem.bytes m a n).getD i 0 = Mem.get m (a + i) := by
    have hlen : i < (Mem.bytes m a n).length := by rwa [Mem.bytes_length]
    rw [List.getD_eq_getElem _ _ hlen, Mem.bytes_getElem]
  cases t <;> simp only [Tgt.place, reduceCtorEq, Option.some.injEq] at hp <;> subst hp <;> exact h _ _

theorem tgtRead_length (s : State) (t : Tgt) (n : Nat) : (tgtRead s t n).1.length = n := by
  cases t <;> simp [tgtRead]

/-- What is read at a target depends on the bytes that it covers alone. -/
theorem tgtRead_congr {s u : State} {t : Tgt} {n : Nat} (h : ∀ p, t.covers n p → u.byteAt p = s.byteAt p) : (tgtRead u t n).1 = (tgtRead s t n).1 := by
  refine List.ext_getElem (by rw [tgtRead_length, tgtRead_length]) fun i h1 h2 => ?_
  have hi : i < n := by rwa [tgtRead_length] at h1
  cases hp : t.place i with
  | none => cases t <;> simp [Tgt.place] at hp; rfl
  | some p =>
    have hu := tgtRead_getD (s := u) hi hp
    have hs := tgtRead_getD (s := s) hi hp
    rw [List.getD_eq_getElem _ _ h1] at hu
    rw [List.getD_eq_getElem _ _ h2] at hs
    rw [hu, hs, h p ⟨i, hi, hp⟩]

/-! ## Elements -/

/-- One element's store: its bytes at its target, nothing at a window register yet. -/
def storeElemAt (w : Nat) (val : Nat → Nat) (s : State) (p : Nat × Tgt) : State :=
  match p.2 with | .window _ _ => s | t => tgtWrite s t (leBytes w (val p.1))

variable {w : Nat} {val : Nat → Nat}

theorem storeElemAt_memory (s : State) {p : Nat × Tgt} (h : ∀ f o, p.2 ≠ .window f o) :
    storeElemAt w val s p = tgtWrite s p.2 (leBytes w (val p.1)) := by
  obtain ⟨j, t⟩ := p
  cases t with
  | window f o => exact absurd rfl (h f o)
  | wm | host | peer => rfl

theorem stored_storeElemAt (s : State) (p : Nat × Tgt) : Stored s (storeElemAt w val s p) := by
  unfold storeElemAt
  split
  · exact Stored.refl s
  · exact stored_tgtWrite s _ _

theorem covers_memory {t : Tgt} {n : Nat} {p : Place} (h : t.covers n p) (f : FuncId) (o : Nat) : t ≠ .window f o := by
  rintro rfl
  obtain ⟨i, -, hi⟩ := h
  exact absurd hi nofun

/-- An element's store leaves its bytes, and every byte that it does not cover. -/
theorem byteAt_storeElemAt (s : State) {p : Nat × Tgt} {i : Nat} {q : Place} (hi : i < w) (hp : p.2.place i = some q) :
    (storeElemAt w val s p).byteAt q = (leBytes w (val p.1)).getD i 0 := by
  have hmem := covers_memory ⟨i, hi, hp⟩
  rw [storeElemAt_memory s hmem, ← tgtRead_getD hi hp]
  have h := tgtRead_tgtWrite s (leBytes w (val p.1)) hmem
  rw [leBytes_length] at h
  rw [h]

theorem byteAt_storeElemAt_out (s : State) {p : Nat × Tgt} {q : Place} (h : ¬ p.2.covers w q) : (storeElemAt w val s p).byteAt q = s.byteAt q := by
  unfold storeElemAt
  split
  · rfl
  · exact byteAt_tgtWrite_out s _ _ (by rwa [leBytes_length])

theorem tgtRead_storeElemAt (s : State) {p : Nat × Tgt} (h : ∀ f o, p.2 ≠ .window f o) :
    (tgtRead (storeElemAt w val s p) p.2 w).1 = leBytes w (val p.1) := by
  rw [storeElemAt_memory s h]
  have := tgtRead_tgtWrite s (leBytes w (val p.1)) h
  rwa [leBytes_length] at this

/-! ## All elements -/

theorem stored_storeTargets (s : State) (l : List (Nat × Tgt)) : Stored s (storeTargets s w l val) := by
  have hfold : Stored s (l.foldl (storeElemAt w val) s) := by
    induction l generalizing s with
    | nil => exact Stored.refl s
    | cons p l ih => exact (stored_storeElemAt s p).trans (ih _)
  exact hfold.trans (Stored.of_cores rfl)

theorem byteAt_storeTargets (s : State) (l : List (Nat × Tgt)) : SameBytes (l.foldl (storeElemAt w val) s) (storeTargets s w l val) :=
  sameBytes_of_cores rfl ⟨rfl, rfl, rfl, rfl⟩

section Bytes

variable {l : List (Nat × Tgt)} {q : Place}

/-- A byte that no element covers stays. -/
theorem foldl_storeElemAt_out (s : State) (h : ∀ p ∈ l, ¬ p.2.covers w q) : (l.foldl (storeElemAt w val) s).byteAt q = s.byteAt q := by
  induction l generalizing s with
  | nil => rfl
  | cons p l ih =>
    rw [List.foldl_cons, ih _ fun x hx => h x (.tail _ hx)]
    exact byteAt_storeElemAt_out s (h p (.head _))

/-- A value that an element stores in byte q. -/
def StoresAt (w : Nat) (val : Nat → Nat) (q : Place) (p : Nat × Tgt) (x : Byte) : Prop :=
  ∃ i < w, p.2.place i = some q ∧ x = (leBytes w (val p.1)).getD i 0

theorem storesAt_step (s : State) {p : Nat × Tgt} (h : p.2.covers w q) : StoresAt w val q p ((storeElemAt w val s p).byteAt q) := by
  obtain ⟨i, hi, hp⟩ := h
  exact ⟨i, hi, hp, byteAt_storeElemAt s hi hp⟩

/-- A covered byte holds what one of the elements that cover it stored (R86). -/
theorem foldl_storeElemAt_some (s : State) {p : Nat × Tgt} (hp : p ∈ l) (hc : p.2.covers w q) :
    ∃ x ∈ l, StoresAt w val q x ((l.foldl (storeElemAt w val) s).byteAt q) := by
  rcases foldl_last (storeElemAt w val) (fun s => s.byteAt q) (fun x => x.2.covers w q) (StoresAt w val q) (l := l)
    (fun _ _ s => storesAt_step s) (fun _ _ s => byteAt_storeElemAt_out s) s with ⟨hnone, -⟩ | ⟨l1, x, l2, hl, -, -, hV⟩
  · exact absurd hc (hnone p hp)
  · exact ⟨x, by rw [hl]; simp, hV⟩

/-- In order, what the highest element that covers it stored (R86). -/
theorem foldl_storeElemAt_highest (s : State) (hs : l.Pairwise (fun x y => x.1 < y.1)) {p : Nat × Tgt} (hp : p ∈ l) {i : Nat} (hi : i < w)
    (hpi : p.2.place i = some q) (hhigh : ∀ y ∈ l, p.1 < y.1 → ¬ y.2.covers w q) :
    (l.foldl (storeElemAt w val) s).byteAt q = (leBytes w (val p.1)).getD i 0 := by
  obtain ⟨b, -, hb, hx⟩ := foldl_highest (storeElemAt w val) (fun s => s.byteAt q) (fun x => x.2.covers w q) (StoresAt w val q) (l := l)
    (fun _ _ s => storesAt_step s) (fun _ _ s => byteAt_storeElemAt_out s) s hs hp ⟨i, hi, hpi⟩ hhigh
  rw [hx, Tgt.place_inj hb hpi]

/-- Where elements meet only at one target, a target holds one element's value whole (R86). -/
theorem foldl_storeElemAt_whole (s : State) (hone : ∀ x ∈ l, ∀ y ∈ l, ∀ q, x.2.covers w q → y.2.covers w q → x.2 = y.2) {p : Nat × Tgt} (hp : p ∈ l)
    (hmem : ∀ f o, p.2 ≠ .window f o) :
    ∃ x ∈ l, x.2 = p.2 ∧ (tgtRead (l.foldl (storeElemAt w val) s) p.2 w).1 = leBytes w (val x.1) := by
  have hin (x) (_ : x ∈ l) (s : State) (hx : x.2 = p.2) : (tgtRead (storeElemAt w val s x) p.2 w).1 = leBytes w (val x.1) := by
    rw [← hx] at hmem ⊢
    exact tgtRead_storeElemAt s hmem
  have hout (x) (hxl : x ∈ l) (s : State) (hx : ¬ x.2 = p.2) : (tgtRead (storeElemAt w val s x) p.2 w).1 = (tgtRead s p.2 w).1 :=
    tgtRead_congr fun q hq => byteAt_storeElemAt_out s fun hc => hx (hone x hxl p hp q hc hq)
  rcases foldl_last (storeElemAt w val) (fun s => (tgtRead s p.2 w).1) (fun x => x.2 = p.2) (fun x b => b = leBytes w (val x.1)) hin hout s with
    ⟨hnone, -⟩ | ⟨l1, x, l2, hl, hx, -, hV⟩
  · exact absurd rfl (hnone p hp)
  · exact ⟨x, by rw [hl]; simp, hx, hV⟩

end Bytes

end Sys2Proof.Machine
end

section
/-!
PROOFS. The vector stores of generic space as instructions (spec 05 R83, R86; 18 R324).
-/

namespace Sys2Proof.Machine

/-- The order in which a store performs its elements (R86). -/
def storeOrder {α : Type} (m : VMode) (ordered : Bool) (n : Nat) (meets : α → α → Bool) (l : List (Nat × α)) : List (Nat × α) :=
  match m with
  | .indexed _ => if ordered then l else scatterOrder n meets l
  | _ => l

theorem mem_storeOrder {α : Type} {m : VMode} {ordered : Bool} {n : Nat} {meets : α → α → Bool} {l : List (Nat × α)} {p : Nat × α} :
    p ∈ storeOrder m ordered n meets l ↔ p ∈ l := by
  unfold storeOrder
  split
  · split
    · exact Iff.rfl
    · exact mem_scatterOrder n _ l p
  · exact Iff.rfl

theorem storeOrder_ordered {α : Type} (m : VMode) (n : Nat) (meets : α → α → Bool) (l : List (Nat × α)) : storeOrder m true n meets l = l := by
  cases m <;> rfl

/-- Without window registers none is written. -/
theorem storeWindows_none {l : List (Nat × Tgt)} (h : ∀ p ∈ l, ∀ f o, p.2 ≠ .window f o) (val : Nat → Nat) (s : State) : storeWindows l val s = s := by
  unfold storeWindows
  induction l with
  | nil => rfl
  | cons p l ih =>
    obtain ⟨j, t⟩ := p
    cases t with
    | window f o => exact absurd rfl (h _ (.head _) f o)
    | wm | host | peer => exact ih fun x hx => h x (.tail _ hx)

section Store

variable {s s1 s2 : State} {e : LaneEnv} {word : Word} {vd : VReg} {a : SReg} {m : VMode} {ordered : Bool} {ew : Width} {mk : MkField}
  {tgt : Nat → Tgt} {lf : Nat → LeafInfo}

/-- The value that element j of a store gives. -/
def storeVal (s1 : State) (e : LaneEnv) (vd : VReg) (w j : Nat) : Nat := storeElem w e.n (srcElem s1 e vd j)

/-- The elements of a store at their targets, in the order of the store. -/
def storeList (s1 s2 : State) (e : LaneEnv) (m : VMode) (ordered : Bool) (ew : Width) (mk : MkField) (tgt : Nat → Tgt) : List (Nat × Tgt) :=
  storeOrder m ordered s2.fresh (fun x y => Tgt.meets x y (Width.bytes ew)) ((e.elems s1.curC.vec mk e.vl).map (fun j => (j, tgt j)))

/-- The state in which a store's memory is written. -/
def storePut (s1 s2 : State) (e : LaneEnv) (vd : VReg) (m : VMode) (ordered : Bool) (ew : Width) (mk : MkField) (tgt : Nat → Tgt) : State :=
  (storeTargets s2.draw.2 (Width.bytes ew) (storeList s1 s2 e m ordered ew mk tgt) (storeVal s1 e vd (Width.bytes ew))).noteCounterWake s2.draw.2.cur.cbit

theorem opVstore_placed (hg : Placed s1 s2 e word .store m a ew mk tgt lf) :
    (opVstore word vd a m ordered ew mk).run e s1
      = if (storeList s1 s2 e m ordered ew mk tgt).any (fun p => match p.2 with | .window _ _ => true | _ => false) then
          .doneThen (storePut s1 s2 e vd m ordered ew mk tgt) (storeWindows (storeList s1 s2 e m ordered ew mk tgt) (storeVal s1 e vd (Width.bytes ew)))
        else .done (storePut s1 s2 e vd m ordered ew mk tgt) := by
  have hplan := genericPlan_placed e .store (m.addr e s1.curC.vec (e.sreg a) (Width.bytes ew)) (ordered && m.index != []) tgt lf
    (is := e.elems s1.curC.vec mk e.vl) fun j hj => (mem_elems.1 hj).lt
  unfold Placed at hg
  unfold opVstore
  cases m <;> (dsimp only [groupSize, VMode.xunit] at hg ⊢; simp only [hg, hplan, dropRefusals] <;> rfl)

/-- A store of generic space whose elements are all placed completes; then the window registers are written (R4, R324). -/
theorem issueLane_vstore (h : LaneGo s none (vd :: m.index) none true e s1) (hg : Placed s1 s2 e word .store m a ew mk tgt lf) :
    issueLane (opVstore word vd a m ordered ew mk) s
      = .next (storeWindows (storeList s1 s2 e m ordered ew mk tgt) (storeVal s1 e vd (Width.bytes ew))
          (laneFinish (storePut s1 s2 e vd m ordered ew mk tgt) State.advance)) := by
  have hrun := opVstore_placed (vd := vd) (ordered := ordered) hg
  split at hrun
  · exact issueLane_doneThen h hrun
  · rename_i hno
    rw [issueLane_done h hrun, storeWindows_none]
    intro p hp f o hw
    refine hno (List.any_eq_true.2 ⟨p, hp, ?_⟩)
    rw [hw]

theorem byteAt_laneDone (s : State) : SameBytes s (laneFinish s State.advance) := byteAt_laneFinish (s := s) (g := Thread.advance)

/-- What a store of generic space leaves before window registers are written: outside memory its frame, and the bytes that its elements
leave in their order. -/
theorem stored_storePut (s1 s2 : State) (e : LaneEnv) (vd : VReg) (m : VMode) (ordered : Bool) (ew : Width) (mk : MkField) (tgt : Nat → Tgt) :
    Stored s2 (storePut s1 s2 e vd m ordered ew mk tgt) :=
  (Stored.of_cores (t := s2.draw.2) rfl).trans ((stored_storeTargets _ _).trans (stored_noteCounterWake _ _))

theorem byteAt_storeDone (s1 s2 : State) (e : LaneEnv) (vd : VReg) (m : VMode) (ordered : Bool) (ew : Width) (mk : MkField) (tgt : Nat → Tgt) (q : Place) :
    (laneFinish (storePut s1 s2 e vd m ordered ew mk tgt) State.advance).byteAt q
      = ((storeList s1 s2 e m ordered ew mk tgt).foldl (storeElemAt (Width.bytes ew) (storeVal s1 e vd (Width.bytes ew))) s2.draw.2).byteAt q := by
  rw [byteAt_laneDone, storePut, byteAt_noteCounterWake, byteAt_storeTargets]

theorem mem_storeList {p : Nat × Tgt} : p ∈ storeList s1 s2 e m ordered ew mk tgt ↔ Executes e s1.curC.vec mk p.1 ∧ p.2 = tgt p.1 := by
  obtain ⟨j, x⟩ := p
  rw [storeList, mem_storeOrder, List.mem_map]
  simp only [mem_elems, Prod.mk.injEq]
  exact ⟨fun ⟨k, hk, h1, h2⟩ => h1 ▸ ⟨hk, h2.symm⟩, fun ⟨hk, h2⟩ => ⟨j, hk, rfl, h2.symm⟩⟩

theorem storeVal_lt (s1 : State) (e : LaneEnv) (vd : VReg) (w j : Nat) : storeVal s1 e vd w j < 256 ^ w := by
  have h : (256 : Nat) ^ w = 2 ^ (8 * w) := by rw [Nat.pow_mul]
  rw [h]
  exact wrapInt_lt _ _

/-- The window registers of a store in element order (R4). -/
theorem storeWindows_elems (s1 : State) (e : LaneEnv) (vd : VReg) (w : Nat) (tgt : Nat → Tgt) (is : List Nat) (u : State) :
    storeWindows (is.map (fun j => (j, tgt j))) (storeVal s1 e vd w) u = is.foldl (fun u j =>
      match tgt j with | .window f o => windowWrite u f o (BitVec.ofNat 64 (leNat (leBytes w (storeVal s1 e vd w j)))) | _ => u) u := by
  have hval (j : Nat) : leNat (leBytes w (storeVal s1 e vd w j)) = storeVal s1 e vd w j := by
    rw [leNat_leBytes, Nat.mod_eq_of_lt (storeVal_lt _ _ _ _ _)]
  simp only [storeWindows, List.foldl_map, hval] <;> rfl

end Store

end Sys2Proof.Machine
end

section
/-!
PROOFS. The vector stores (spec 05 R83, R86): O36.
-/

namespace Sys2Proof.Machine

section Generic

variable {s s1 s2 : State} {e : LaneEnv} {word : Word} {vd : VReg} {a : SReg} {m : VMode} {ordered : Bool} {ew : Width} {mk : MkField}
  {tgt : Nat → Tgt} {lf : Nat → LeafInfo}

/-- What a store of generic space leaves: its frame, the bytes that no element covers, and at the others what one of the elements that
cover them stored, the highest where the store is ordered (R86). -/
theorem vstore_spec (h : LaneGo s none (vd :: m.index) none true e s1) (hg : Placed s1 s2 e word .store m a ew mk tgt lf) :
    let w := Width.bytes ew
    let ex (j : Nat) : Prop := Executes e s1.curC.vec mk j
    let val (j : Nat) : List Byte := leBytes w (storeVal s1 e vd w j)
    ∃ t, issueLane (opVstore word vd a m ordered ew mk) s
        = .next (storeWindows (storeList s1 s2 e m ordered ew mk tgt) (storeVal s1 e vd w) t)
      ∧ StoreFrame s2 t
      ∧ (∀ p, (∀ j, ex j → ¬ (tgt j).covers w p) → t.byteAt p = s2.byteAt p)
      ∧ (ordered = true → ∀ j b p, ex j → b < w → (tgt j).place b = some p → (∀ k, j < k → ex k → ¬ (tgt k).covers w p) →
          t.byteAt p = (val j).getD b 0)
      ∧ (∀ j p, ex j → (tgt j).covers w p → ∃ k b, ex k ∧ b < w ∧ (tgt k).place b = some p ∧ t.byteAt p = (val k).getD b 0)
      ∧ ((∀ j k p, ex j → ex k → (tgt j).covers w p → (tgt k).covers w p → tgt j = tgt k) →
          ∀ j, ex j → (∀ f o, tgt j ≠ .window f o) → ∃ k, ex k ∧ tgt k = tgt j ∧ (tgtRead t (tgt j) w).1 = val k) := by
  intro w ex val
  refine ⟨_, issueLane_vstore h hg, storeFrame_laneFinish (stored_storePut ..), fun p hp => ?_, ?_, fun j p hj hc => ?_, fun hone j hj hmem => ?_⟩
  · rw [byteAt_storeDone, foldl_storeElemAt_out]
    · rfl
    · intro x hx
      obtain ⟨hex, ht⟩ := mem_storeList.1 hx
      rw [ht]; exact hp x.1 hex
  · rintro rfl j b p hj hb hp hhigh
    rw [byteAt_storeDone]
    have hsorted : (storeList s1 s2 e m true ew mk tgt).Pairwise (fun x y => x.1 < y.1) := by
      rw [storeList, storeOrder_ordered]
      exact List.pairwise_map.2 (elems_sorted _ _ _ _)
    refine foldl_storeElemAt_highest _ hsorted (p := (j, tgt j)) (mem_storeList.2 ⟨hj, rfl⟩) hb hp fun y hy hlt => ?_
    obtain ⟨hex, ht⟩ := mem_storeList.1 hy
    rw [ht]; exact hhigh y.1 hlt hex
  · obtain ⟨x, hx, b, hb, hp, hval⟩ := foldl_storeElemAt_some (val := storeVal s1 e vd w) s2.draw.2
      (l := storeList s1 s2 e m ordered ew mk tgt) (p := (j, tgt j)) (mem_storeList.2 ⟨hj, rfl⟩) hc
    obtain ⟨hex, ht⟩ := mem_storeList.1 hx
    rw [ht] at hp
    exact ⟨x.1, b, hex, hb, hp, by rw [byteAt_storeDone]; exact hval⟩
  · obtain ⟨x, hx, hxt, hread⟩ := foldl_storeElemAt_whole (val := storeVal s1 e vd w) s2.draw.2 (w := w)
      (l := storeList s1 s2 e m ordered ew mk tgt) (p := (j, tgt j)) (fun x hx y hy q hxq hyq => by
        obtain ⟨hex, hxt⟩ := mem_storeList.1 hx
        obtain ⟨hey, hyt⟩ := mem_storeList.1 hy
        rw [hxt] at hxq ⊢
        rw [hyt] at hyq ⊢
        exact hone _ _ q hex hey hxq hyq) (mem_storeList.2 ⟨hj, rfl⟩) hmem
    obtain ⟨hex, ht⟩ := mem_storeList.1 hx
    refine ⟨x.1, hex, ht.symm.trans hxt, ?_⟩
    exact (tgtRead_congr fun p _ => byteAt_storeDone ..).trans hread

end Generic

end Sys2Proof.Machine
end

section
/-!
PROOFS. Writing the elements of a vector store of the scratchpad: bytes and full-empty bits (spec 05 R74, R83, R86).
-/

namespace Sys2Proof.Machine

/-! ## Pieces -/

/-- The bytes bs written in the pieces ps, in order. -/
def putPieces (c : Core) (ps : List (Nat × Nat)) (bs : List Byte) : Core :=
  (ps.foldl (fun (y : Core × List Byte) p => (y.1.spadWrite p.1 (y.2.take p.2), y.2.drop p.2)) (c, bs)).1

theorem putPieces_cons (c : Core) (p : Nat × Nat) (ps : List (Nat × Nat)) (bs : List Byte) :
    putPieces c (p :: ps) bs = putPieces (c.spadWrite p.1 (bs.take p.2)) ps (bs.drop p.2) := rfl

/-- Writing pieces changes the scratchpad's bytes and poison alone. -/
theorem putPieces_frame (c : Core) (ps : List (Nat × Nat)) (bs : List Byte) :
    { putPieces c ps bs with spad := c.spad, spadPoison := c.spadPoison } = c := by
  induction ps generalizing c bs with
  | nil => rfl
  | cons p ps ih =>
    rw [putPieces_cons]
    exact congrArg (fun x : Core => { x with spad := c.spad, spadPoison := c.spadPoison }) (ih (c.spadWrite p.1 (bs.take p.2)) (bs.drop p.2))

/-- The addresses of the bytes of pieces, in order. -/
def pieceBytes (ps : List (Nat × Nat)) : List Nat := ps.flatMap (fun p => (List.range p.2).map (fun i => p.1 + i))

theorem get_putPieces_out {c : Core} {ps : List (Nat × Nat)} {bs : List Byte} {a : Nat} (h : a ∉ pieceBytes ps) :
    Mem.get (putPieces c ps bs).spad a = Mem.get c.spad a := by
  induction ps generalizing c bs with
  | nil => rfl
  | cons p ps ih =>
    simp only [pieceBytes, List.flatMap_cons, List.mem_append, not_or, List.mem_map, List.mem_range, not_exists, not_and] at h
    rw [putPieces_cons, ih h.2]
    refine Mem.get_setBytes_out (outside_of_ne fun i hi => h.1 i ?_)
    rw [List.length_take] at hi
    omega

theorem get_putPieces {c : Core} {ps : List (Nat × Nat)} {bs : List Byte} (hl : bs.length = (pieceBytes ps).length) (hd : (pieceBytes ps).Nodup)
    {b a : Nat} (hb : (pieceBytes ps)[b]? = some a) : Mem.get (putPieces c ps bs).spad a = bs.getD b 0 := by
  induction ps generalizing c bs b with
  | nil => exact absurd hb nofun
  | cons p ps ih =>
    have hcons : pieceBytes (p :: ps) = (List.range p.2).map (fun i => p.1 + i) ++ pieceBytes ps := rfl
    rw [hcons] at hl hd hb
    rw [List.length_append, List.length_map, List.length_range] at hl
    obtain ⟨-, hd2, hdis⟩ := List.nodup_append.1 hd
    rw [putPieces_cons]
    by_cases hlt : b < p.2
    · rw [List.getElem?_append_left (by simpa using hlt), List.getElem?_map, List.getElem?_range hlt] at hb
      obtain rfl : p.1 + b = a := by simpa using hb
      have hlen : b < (bs.take p.2).length := by rw [List.length_take]; omega
      rw [get_putPieces_out fun hmem => hdis _ (List.mem_map.2 ⟨b, List.mem_range.2 hlt, rfl⟩) _ hmem rfl]
      refine (Mem.get_setBytes_in hlen).trans ?_
      rw [List.getD_eq_getElem _ _ (by omega), List.getElem_take]
    · rw [List.getElem?_append_right (by simpa using hlt), List.length_map, List.length_range] at hb
      rw [ih (by rw [List.length_drop]; omega) hd2 hb, List.getD_eq_getElem?_getD, List.getElem?_drop, List.getD_eq_getElem?_getD]
      congr 2
      omega

/-! ## Elements -/

/-- The granules that a store's qualifier marks, over full-empty bits (R74). -/
def markGranules (qf : StoreQual) (gs : List Nat) (F : GSet) : GSet :=
  match qf with | .plain => F | .fill => gs.foldl NatSet.add F | .drain => gs.foldl NatSet.del F

theorem markGranules_append (qf : StoreQual) (gs hs : List Nat) (F : GSet) :
    markGranules qf (gs ++ hs) F = markGranules qf hs (markGranules qf gs F) := by
  cases qf <;> simp [markGranules, List.foldl_append]

variable {c : Core} {x : SpadElem} {w v : Nat} {qf : StoreQual}

/-- A guard access is discarded (R76). -/
theorem writeSpadElem_guarded (h : x.guarded = true) : writeSpadElem c x w v qf [] = c := by simp [writeSpadElem, h]

theorem writeSpadElem_own (h : x.guarded = false) : writeSpadElem c x w v qf []
    = { putPieces c x.pieces (leBytes w v) with full := markGranules qf x.granules c.full } := by
  have hfull : (putPieces c x.pieces (leBytes w v)).full = c.full := by
    have := congrArg Core.full (putPieces_frame c x.pieces (leBytes w v)); exact this
  have hgs : x.granules.filter (fun g => !([] : List Nat).contains g) = x.granules := List.filter_eq_self.2 fun _ _ => rfl
  have hc : (x.pieces.foldl (fun (y : Core × List Byte) p => (y.1.spadWrite p.1 (y.2.take p.2), y.2.drop p.2)) (c, leBytes w v)).1
    = putPieces c x.pieces (leBytes w v) := rfl
  simp only [writeSpadElem, h, Bool.false_eq_true, if_false, hgs, hc]
  cases qf with
  | plain => simp only [markGranules]; rw [← hfull]
  | fill => simp only [foldl_setFull, hfull]; rfl
  | drain => simp only [foldl_setFull, hfull]; rfl

theorem writeSpadElem_frame (c : Core) (x : SpadElem) (w v : Nat) (qf : StoreQual) :
    { writeSpadElem c x w v qf [] with spad := c.spad, spadPoison := c.spadPoison, full := c.full } = c := by
  cases h : x.guarded with
  | true => rw [writeSpadElem_guarded h]
  | false =>
    rw [writeSpadElem_own h]
    exact congrArg (fun y : Core => { y with full := c.full }) (putPieces_frame c x.pieces (leBytes w v))

theorem full_writeSpadElem (c : Core) (x : SpadElem) (w v : Nat) (qf : StoreQual) :
    (writeSpadElem c x w v qf []).full = markGranules qf (if x.guarded then [] else x.granules) c.full := by
  cases h : x.guarded with
  | true => rw [writeSpadElem_guarded h]; cases qf <;> rfl
  | false => rw [writeSpadElem_own h]; rfl

/-- An element that is written holds its value's bytes. -/
theorem get_writeSpadElem {pl : Nat → Nat} (hx : x.Lies w pl) (h : x.guarded = false) {b : Nat} (hb : b < w) :
    Mem.get (writeSpadElem c x w v qf []).spad (pl b) = (leBytes w v).getD b 0 := by
  rw [writeSpadElem_own h]
  have hbytes : pieceBytes x.pieces = (List.range w).map pl := hx.bytes
  refine get_putPieces (by rw [hbytes, leBytes_length, List.length_map, List.length_range]) ?_ ?_
  · rw [hbytes]
    exact List.Nodup.map_on (fun i hi j hj => hx.apart i j (List.mem_range.1 hi) (List.mem_range.1 hj)) List.nodup_range
  · rw [hbytes, List.getElem?_map, List.getElem?_range hb]; rfl

theorem get_writeSpadElem_out {pl : Nat → Nat} (hx : x.Lies w pl) {a : Nat} (h : x.guarded = false → ∀ b < w, pl b ≠ a) :
    Mem.get (writeSpadElem c x w v qf []).spad a = Mem.get c.spad a := by
  cases hg : x.guarded with
  | true => rw [writeSpadElem_guarded hg]
  | false =>
    rw [writeSpadElem_own hg]
    have hbytes : pieceBytes x.pieces = (List.range w).map pl := hx.bytes
    refine get_putPieces_out ?_
    rw [hbytes, List.mem_map]
    rintro ⟨b, hb, he⟩
    exact h hg b (List.mem_range.1 hb) he

/-! ## Places of elements -/

/-- Two elements that have byte b at one place have all their bytes at one place (R78). -/
theorem spadByte_same {lane : Bool} {base addr addr' : Word} {ew : Width} {j k b : Nat} (hj : spadPlaceOk lane base addr (Width.bytes ew) j)
    (hk : spadPlaceOk lane base addr' (Width.bytes ew) k) (hb : b < Width.bytes ew)
    (h : spadByte lane base addr (Width.bytes ew) j b = spadByte lane base addr' (Width.bytes ew) k b) {d : Nat} (hd : d < Width.bytes ew) :
    spadByte lane base addr (Width.bytes ew) j d = spadByte lane base addr' (Width.bytes ew) k d := by
  cases lane with
  | false =>
    simp only [spadByte, Bool.false_eq_true, if_false] at h ⊢
    omega
  | true =>
    obtain ⟨hbase, hj⟩ : base.toNat % 4 = 0 ∧ (laneOffset base (j * Width.bytes ew)).toNat < 0x2000 := hj
    obtain ⟨-, hk⟩ : base.toNat % 4 = 0 ∧ (laneOffset base (k * Width.bytes ew)).toNat < 0x2000 := hk
    have hmj := laneOffset_mod hbase (j * Width.bytes ew)
    have hmk := laneOffset_mod hbase (k * Width.bytes ew)
    simp only [spadByte, if_true] at h ⊢
    generalize (laneOffset base (j * Width.bytes ew)).toNat = o at *
    generalize (laneOffset base (k * Width.bytes ew)).toNat = o' at *
    rcases width_cases ew with e | e | e | e <;> rw [e] at hb hd hmj hmk h ⊢ <;> omega

end Sys2Proof.Machine
end

section
/-!
PROOFS. Vector stores of the scratchpad as instructions (spec 05 R74, R76, R83, R86).
-/

namespace Sys2Proof.Machine

/-- A store that runs to VL has no elements of its own left (R74). -/
theorem okBelow_later (f : Nat → ElemRes SpadElem) (q : Nat → Bool) (n : Nat) :
    okBelow ((spadElems f ((List.range n).filter q)).filter (fun p => decide (4096 ≤ p.1) || decide (n ≤ p.1))) 4096 = [] := by
  rw [okBelow, List.filterMap_eq_nil_iff]
  rintro ⟨j, r⟩ hp
  obtain ⟨hp, hj⟩ := List.mem_filter.1 hp
  obtain ⟨k, hk, he⟩ := List.mem_map.1 hp
  have hk := List.mem_range.1 (List.mem_filter.1 hk).1
  obtain rfl : k = j := congrArg Prod.fst he
  have hge : ¬ k < 4096 := by simp at hj; omega
  dsimp only
  split
  · rw [if_neg hge]
  · rfl

theorem LaneGo.full {s s1 : State} {dest : Option VReg} {srcs : List VReg} {rep : Option VReg} {split : Bool} {e : LaneEnv}
    (h : LaneGo s dest srcs rep split e s1) : e.full = e.vl := by
  obtain ⟨s0, -, -, rfl, -⟩ := h
  rfl

namespace VecPad

/-- One element's write (R83). -/
def putElem (A : VecPad) (vd : VReg) (qf : StoreQual) (c : Core) (p : Nat × SpadElem) : Core :=
  writeSpadElem c p.2 A.w (storeVal A.s A.e vd A.w p.1) qf []

/-- The elements in the order of the store. -/
def order (A : VecPad) (ordered : Bool) : List (Nat × SpadElem) := storeOrder A.m ordered A.s.fresh SpadElem.meets A.run

/-- The current core with the elements written. -/
def putAll (A : VecPad) (vd : VReg) (qf : StoreQual) (ordered : Bool) (c : Core) : Core := (A.order ordered).foldl (A.putElem vd qf) c

/-- The state with the elements written. -/
def written (A : VecPad) (vd : VReg) (qf : StoreQual) (ordered : Bool) : State :=
  A.s.draw.2.modCurC (fun c => clearCovered (A.putAll vd qf ordered c) (A.run.map (·.2)))

variable {A : VecPad} {vd : VReg} {qf : StoreQual} {ordered : Bool}

theorem opVstoreSpad_run (h : A.Ok) (hfull : A.e.full = A.e.vl) :
    ∃ all k b, (opVstoreSpad vd A.a A.m A.lane ordered A.ew qf A.mask).run A.e A.s
      = .done ((noteGuards (A.written vd qf ordered) A.e.pc A.e.start all A.run).noteCoreWake k b) := by
  have h1 := laneTrap_none h
  have h2 := firstFail_idx h
  have h3 := okBelow_idx h
  have hplace : A.place = fun i => if A.lane then laneElem A.s (Width.bytes A.ew) (A.e.sreg A.a) i
      else spadElem A.s (Width.bytes A.ew) (A.m.addr A.e A.s.curC.vec (A.e.sreg A.a) (Width.bytes A.ew) i) := rfl
  rw [hplace] at h2 h3
  unfold idx at h1 h2 h3
  simp only [opVstoreSpad, h1, h2, h3, hfull, okBelow_later, List.flatMap_nil]
  exact ⟨_, _, _, rfl⟩

theorem mem_order {p : Nat × SpadElem} : p ∈ A.order ordered ↔ A.ex p.1 ∧ p.2 = A.elem p.1 := mem_storeOrder.trans mem_run

theorem putAll_frame (A : VecPad) (vd : VReg) (qf : StoreQual) (ordered : Bool) (c : Core) :
    { A.putAll vd qf ordered c with spad := c.spad, spadPoison := c.spadPoison, full := c.full } = c := by
  unfold putAll
  induction A.order ordered generalizing c with
  | nil => rfl
  | cons p l ih =>
    exact (congrArg (fun x : Core => { x with spad := c.spad, spadPoison := c.spadPoison, full := c.full }) (ih (A.putElem vd qf c p))).trans
      (writeSpadElem_frame c p.2 A.w _ qf)

theorem stored_written (A : VecPad) (vd : VReg) (qf : StoreQual) (ordered : Bool) : Stored A.s (A.written vd qf ordered) :=
  (Stored.of_cores (t := A.s.draw.2) rfl).trans (Stored.modCurC fun c =>
    (congrArg (fun x : Core => { x with spadPoison := c.spadPoison, full := c.full, spad := c.spad }) (A.putAll_frame vd qf ordered c)))

/-! ## Bits -/

/-- The granules that a store marks, in its order. -/
def storeGranules (A : VecPad) (ordered : Bool) : List Nat := (A.order ordered).flatMap (fun p => if p.2.guarded then [] else p.2.granules)

theorem full_putAll (A : VecPad) (vd : VReg) (qf : StoreQual) (ordered : Bool) (c : Core) :
    (A.putAll vd qf ordered c).full = markGranules qf (A.storeGranules ordered) c.full := by
  unfold putAll storeGranules
  induction A.order ordered generalizing c with
  | nil => cases qf <;> rfl
  | cons p l ih => rw [List.foldl_cons, ih, List.flatMap_cons, markGranules_append, putElem, full_writeSpadElem]

theorem mem_storeGranules (h : A.Ok) (g : Nat) :
    g ∈ A.storeGranules ordered ↔ ∃ j b, (A.ex j ∧ A.own j = true) ∧ b < A.w ∧ A.pl j b / 16 = g := by
  simp only [storeGranules, List.mem_flatMap]
  constructor
  · rintro ⟨⟨j, x⟩, hp, hg⟩
    obtain ⟨hj, rfl⟩ : A.ex j ∧ x = A.elem j := mem_order.1 hp
    rw [elem_guarded] at hg
    cases ho : A.own j with
    | false => rw [ho] at hg; exact absurd hg List.not_mem_nil
    | true =>
      rw [ho] at hg
      obtain ⟨b, hb, he⟩ := ((elem_lies h hj).mem_granules g).1 hg
      exact ⟨j, b, ⟨hj, ho⟩, hb, he⟩
  · rintro ⟨j, b, ⟨hj, ho⟩, hb, he⟩
    refine ⟨(j, A.elem j), mem_order.2 ⟨hj, rfl⟩, ?_⟩
    rw [elem_guarded, ho]
    exact ((elem_lies h hj).mem_granules g).2 ⟨b, hb, he⟩

/-! ## Bytes -/

/-- Element p is written at address a. -/
def WritesAt (A : VecPad) (a : Nat) (p : Nat × SpadElem) : Prop := A.own p.1 = true ∧ ∃ b < A.w, A.pl p.1 b = a

/-- A value that element p stores at address a. -/
def StoresByte (A : VecPad) (vd : VReg) (a : Nat) (p : Nat × SpadElem) (y : Byte) : Prop :=
  ∃ b < A.w, A.pl p.1 b = a ∧ y = (leBytes A.w (storeVal A.s A.e vd A.w p.1)).getD b 0

theorem get_putElem (h : A.Ok) {p : Nat × SpadElem} (hp : p ∈ A.order ordered) (c : Core) {b : Nat} (ho : A.own p.1 = true) (hb : b < A.w) :
    Mem.get (A.putElem vd qf c p).spad (A.pl p.1 b) = (leBytes A.w (storeVal A.s A.e vd A.w p.1)).getD b 0 := by
  obtain ⟨hj, hx⟩ := mem_order.1 hp
  rw [putElem, hx]
  exact get_writeSpadElem (elem_lies h hj) (by rw [elem_guarded, ho]; rfl) hb

theorem get_putElem_out (h : A.Ok) {p : Nat × SpadElem} (hp : p ∈ A.order ordered) (c : Core) {a : Nat} (hn : ¬ A.WritesAt a p) :
    Mem.get (A.putElem vd qf c p).spad a = Mem.get c.spad a := by
  obtain ⟨hj, hx⟩ := mem_order.1 hp
  rw [putElem, hx]
  refine get_writeSpadElem_out (elem_lies h hj) fun hg b hb he => hn ⟨?_, b, hb, he⟩
  rw [elem_guarded] at hg
  simpa using hg

theorem storesByte_putElem (h : A.Ok) {a : Nat} {p : Nat × SpadElem} (hp : p ∈ A.order ordered) (c : Core) (hw : A.WritesAt a p) :
    A.StoresByte vd a p (Mem.get (A.putElem vd qf c p).spad a) := by
  obtain ⟨ho, b, hb, rfl⟩ := hw
  exact ⟨b, hb, rfl, get_putElem h hp c ho hb⟩

theorem ex_of_order {l1 l2 : List (Nat × SpadElem)} {x : Nat × SpadElem} (hl : A.order ordered = l1 ++ x :: l2) : A.ex x.1 := by
  have hx : x ∈ A.order ordered := by rw [hl]; simp
  exact (mem_order.1 hx).1

theorem get_putAll_out (h : A.Ok) (c : Core) {a : Nat} (hn : ∀ j b, A.ex j → A.own j = true → b < A.w → A.pl j b ≠ a) :
    Mem.get (A.putAll vd qf ordered c).spad a = Mem.get c.spad a := by
  rcases foldl_last (A.putElem vd qf) (fun c => Mem.get c.spad a) (A.WritesAt a) (A.StoresByte vd a) (l := A.order ordered)
    (fun p hp c => storesByte_putElem h hp c) (fun p hp c => get_putElem_out h hp c) c with ⟨-, hget⟩ | ⟨l1, x, l2, hl, ⟨ho, b, hb, he⟩, -⟩
  · exact hget
  · exact absurd he (hn x.1 b (ex_of_order hl) ho hb)

/-- A byte that is written holds what one of the elements stored there (R86). -/
theorem get_putAll_some (h : A.Ok) (c : Core) {j b : Nat} (hj : A.ex j) (ho : A.own j = true) (hb : b < A.w) :
    ∃ k d, (A.ex k ∧ A.own k = true) ∧ d < A.w ∧ A.pl k d = A.pl j b
      ∧ Mem.get (A.putAll vd qf ordered c).spad (A.pl j b) = (leBytes A.w (storeVal A.s A.e vd A.w k)).getD d 0 := by
  rcases foldl_last (A.putElem vd qf) (fun c => Mem.get c.spad (A.pl j b)) (A.WritesAt (A.pl j b)) (A.StoresByte vd (A.pl j b)) (l := A.order ordered)
    (fun p hp c => storesByte_putElem h hp c) (fun p hp c => get_putElem_out h hp c) c with ⟨hnone, -⟩ | ⟨l1, x, l2, hl, ⟨hx, -⟩, -, d, hd, he, hV⟩
  · exact absurd ⟨ho, b, hb, rfl⟩ (hnone (j, A.elem j) (mem_order.2 ⟨hj, rfl⟩))
  · exact ⟨x.1, d, ⟨ex_of_order hl, hx⟩, hd, he, hV⟩

/-- In order, what the highest element that writes it stored (R86). -/
theorem get_putAll_highest (h : A.Ok) (c : Core) {j b : Nat} (hj : A.ex j) (ho : A.own j = true) (hb : b < A.w)
    (hhigh : ∀ k d, j < k → A.ex k → A.own k = true → d < A.w → A.pl k d ≠ A.pl j b) :
    Mem.get (A.putAll vd qf true c).spad (A.pl j b) = (leBytes A.w (storeVal A.s A.e vd A.w j)).getD b 0 := by
  have hsorted : (A.order true).Pairwise (fun p q => p.1 < q.1) := by rw [order, storeOrder_ordered]; exact A.run_sorted
  obtain ⟨d, hd, he, hV⟩ := foldl_highest (A.putElem vd qf) (fun c => Mem.get c.spad (A.pl j b)) (A.WritesAt (A.pl j b)) (A.StoresByte vd (A.pl j b))
    (fun p hp c => storesByte_putElem h hp c) (fun p hp c => get_putElem_out h hp c) c hsorted (x := (j, A.elem j)) (mem_order.2 ⟨hj, rfl⟩)
    ⟨ho, b, hb, rfl⟩ (fun y hy hlt ⟨hyo, d, hd, he⟩ => hhigh y.1 d hlt (mem_order.1 hy).1 hyo hd he)
  obtain rfl := (elem_lies h hj).apart d b hd hb he
  exact hV

/-- Where elements meet only byte for byte, each place holds one element's value whole (R86). -/
theorem get_putAll_whole (h : A.Ok) (c : Core)
    (hone : ∀ j k b d, (A.ex j ∧ A.own j = true) → (A.ex k ∧ A.own k = true) → b < A.w → d < A.w → A.pl j b = A.pl k d → b = d) {j : Nat}
    (hj : A.ex j) (ho : A.own j = true) :
    ∃ k, (A.ex k ∧ A.own k = true) ∧ ∀ b < A.w, A.pl k b = A.pl j b
      ∧ Mem.get (A.putAll vd qf ordered c).spad (A.pl j b) = (leBytes A.w (storeVal A.s A.e vd A.w k)).getD b 0 := by
  have hsame {k b d : Nat} (hk : A.ex k) (hb : b < A.w) (hd : d < A.w) (he : A.pl k b = A.pl j b) : A.pl k d = A.pl j d :=
    spadByte_same (h k hk) (h j hj) hb he hd
  -- where an element meets j it has j's place
  have hin (p) (hp : p ∈ A.order ordered) (c : Core) (hw : A.own p.1 = true ∧ ∀ b < A.w, A.pl p.1 b = A.pl j b) (b : Nat) (hb : b < A.w) :
      Mem.get (A.putElem vd qf c p).spad (A.pl j b) = (leBytes A.w (storeVal A.s A.e vd A.w p.1)).getD b 0 := by
    rw [← hw.2 b hb]
    exact get_putElem h hp c hw.1 hb
  have hout (p) (hp : p ∈ A.order ordered) (c : Core) (hn : ¬ (A.own p.1 = true ∧ ∀ b < A.w, A.pl p.1 b = A.pl j b)) (b : Nat) (hb : b < A.w) :
      Mem.get (A.putElem vd qf c p).spad (A.pl j b) = Mem.get c.spad (A.pl j b) := by
    refine get_putElem_out h hp c fun ⟨hpo, d, hd, he⟩ => hn ⟨hpo, fun b' hb' => ?_⟩
    have hpx := (mem_order.1 hp).1
    obtain rfl := hone p.1 j d b ⟨hpx, hpo⟩ ⟨hj, ho⟩ hd hb he
    exact hsame hpx hd hb' he
  rcases foldl_last (A.putElem vd qf) (fun c => (List.range A.w).map (fun b => Mem.get c.spad (A.pl j b)))
    (fun p => A.own p.1 = true ∧ ∀ b < A.w, A.pl p.1 b = A.pl j b)
    (fun p y => y = (List.range A.w).map (fun b => (leBytes A.w (storeVal A.s A.e vd A.w p.1)).getD b 0)) (l := A.order ordered)
    (fun p hp c hw => List.map_congr_left fun b hb => hin p hp c hw b (List.mem_range.1 hb))
    (fun p hp c hn => List.map_congr_left fun b hb => hout p hp c hn b (List.mem_range.1 hb)) c with
    ⟨hnone, -⟩ | ⟨l1, x, l2, hl, ⟨hx, hpl⟩, -, hV⟩
  · exact absurd ⟨ho, fun _ _ => rfl⟩ (hnone (j, A.elem j) (mem_order.2 ⟨hj, rfl⟩))
  · exact ⟨x.1, ⟨ex_of_order hl, hx⟩, fun b hb => ⟨hpl b hb, List.map_inj_left.1 hV b (List.mem_range.2 hb)⟩⟩

end VecPad

end Sys2Proof.Machine
end

section
/-!
PROOFS. The vector stores (spec 05 R74, R76, R83, R86): O36.
-/

namespace Sys2Proof.Machine

namespace VecPad

section Store

variable {A : VecPad} {vd : VReg} {qf : StoreQual} {ordered : Bool} {s : State}

theorem curC_written (A : VecPad) (vd : VReg) (qf : StoreQual) (ordered : Bool) :
    (A.written vd qf ordered).curC = clearCovered (A.putAll vd qf ordered A.s.curC) (A.run.map (·.2)) := State.curC_modCurC _ _

theorem spad_written (A : VecPad) (vd : VReg) (qf : StoreQual) (ordered : Bool) :
    (A.written vd qf ordered).curC.spad = (A.putAll vd qf ordered A.s.curC).spad := by rw [curC_written]; rfl

theorem full_written (A : VecPad) (vd : VReg) (qf : StoreQual) (ordered : Bool) :
    (A.written vd qf ordered).curC.full = markGranules qf (A.storeGranules ordered) A.s.curC.full := by
  rw [curC_written]
  exact full_putAll A vd qf ordered A.s.curC

/-- A byte that no element writes stays. -/
theorem byteAt_written_out (h : A.Ok) {p : Place} (hp : ∀ j b, A.ex j → A.own j = true → b < A.w → p ≠ .spad A.s.curCore (A.pl j b)) :
    (A.written vd qf ordered).byteAt p = A.s.byteAt p := by
  cases p with
  | spad k a =>
    by_cases hk : k = A.s.curCore
    · subst hk
      have hout : ∀ j b, A.ex j → A.own j = true → b < A.w → A.pl j b ≠ a := fun j b hj ho hb he => hp j b hj ho hb (by rw [he])
      exact (congrArg (fun m => Mem.get m a) (spad_written A vd qf ordered)).trans (get_putAll_out h A.s.curC hout)
    · have hcore : (A.written vd qf ordered).core k = A.s.core k := State.core_modCurC_other A.s.draw.2 _ hk
      rw [State.byteAt, hcore]; rfl
  | _ => rfl

/-- What of a core a completed lane word leaves. -/
theorem spad_laneFinish (u : State) :
    (laneFinish u State.advance).curC.spad = u.curC.spad ∧ (laneFinish u State.advance).curC.full = u.curC.full := by
  obtain ⟨-, -, -, -, -, -, -, -, -, -, -, hunit⟩ := laneFinish_self u
  exact ⟨by have := congrArg Core.spad hunit; exact this, by have := congrArg Core.full hunit; exact this⟩

/-- A store of the scratchpad whose elements are all placed completes (R74, R76, R83). -/
theorem vstorePad_completes (hgo : LaneGo s none (vd :: A.m.index) none true A.e A.s) (h : A.Ok) :
    ∃ t, issueLane (opVstoreSpad vd A.a A.m A.lane ordered A.ew qf A.mask) s = .next t
      ∧ ((∀ j, A.ex j → A.own j = true) → StoreFrame A.s t) ∧ t.cur.pc = A.s.cur.advance.pc ∧ t.cur.vstart = 0
      ∧ (∀ r, t.vreg r = A.s.vreg r) ∧ ((∃ j, A.ex j ∧ A.own j = false) → t.cur.guard ≠ none)
      ∧ SameBytes (A.written vd qf ordered) t ∧ t.curC.spad = (A.putAll vd qf ordered A.s.curC).spad
      ∧ t.curC.full = markGranules qf (A.storeGranules ordered) A.s.curC.full := by
  obtain ⟨all, k, b, hrun⟩ := opVstoreSpad_run (vd := vd) (qf := qf) (ordered := ordered) h hgo.full
  have hwritten := A.stored_written vd qf ordered
  obtain ⟨f, hf, hframe, hguard⟩ := noteGuards_spec (A.written vd qf ordered) A.e.pc A.e.start all A.run
  have hread : ReadBy (A.written vd qf ordered) ((A.written vd qf ordered).modCur f) := ReadBy.modCur fun x =>
    congrArg (fun y : Thread => { y with cbit := x.cbit, wakeC := x.wakeC, checks := x.checks }) (hframe x)
  have hnote := stored_noteCoreWake ((A.written vd qf ordered).modCur f) k b
  have hdone := laneFinish_self (((A.written vd qf ordered).modCur f).noteCoreWake k b)
  obtain ⟨hspad, hfull⟩ := spad_laneFinish (((A.written vd qf ordered).modCur f).noteCoreWake k b)
  refine ⟨_, issueLane_done hgo hrun, fun hown => ?_, ?_⟩
  · rw [noteGuards_none fun p hp => ?_]
    · exact storeFrame_laneFinish (hwritten.trans (stored_noteCoreWake _ k b))
    · obtain ⟨hj, hx⟩ := mem_run.1 hp
      rw [hx, elem_guarded, hown _ hj]; rfl
  rw [hf]
  have hg := hdone.guard
  obtain ⟨hpc, hstart, -, -, -, hbytes, hv, -⟩ := hdone
  refine ⟨hpc.trans (hnote.advance_pc.trans (hread.advance_pc.trans hwritten.advance_pc)), hstart,
    fun r => (hv r nofun).trans ((hnote.vreg r).trans ((State.vreg_modCur _ f r).trans (hwritten.vreg r))), fun ⟨j, hj, ho⟩ => ?_,
    hread.bytes.trans ((byteAt_noteCoreWake _ k b).trans hbytes), ?_, ?_⟩
  · have hcur : (((A.written vd qf ordered).modCur f).noteCoreWake k b).cur.guard = (f (A.written vd qf ordered).cur).guard := by
      rw [← State.cur_modCur (A.written vd qf ordered) f, ← hnote.cur]
    rw [hg, hcur]
    exact hguard ⟨(j, A.elem j), mem_run.2 ⟨hj, rfl⟩, by rw [elem_guarded, ho]; rfl⟩
  · rw [hspad, curC_noteCoreWake (π := Core.spad) (fun _ _ => rfl), State.spad_modCur, spad_written]
  · rw [hfull, curC_noteCoreWake (π := Core.full) (fun _ _ => rfl), State.full_modCur, full_written]

end Store

end VecPad

/-- Settles O36: elements are written one after another, so that a byte holds what the last of its writers stored. -/
theorem vectorStores : Obligations.VectorStores := by
  constructor
  · intro s s1 s2 e vd vx a x ew mk i m ordered tgt lf hi hgo w u ex val hg windows hwin
    have hexec : exec i s = issueLane (opVstore (wordOf i) vd a m ordered ew mk) s := by
      rcases hi with ⟨rfl, rfl, rfl⟩ | ⟨rfl, rfl, rfl⟩ | ⟨rfl, rfl, rfl⟩ | ⟨rfl, rfl, rfl⟩ <;> rfl
    have hplaced : Placed s1 s2 e (wordOf i) .store m a ew mk tgt lf := by
      rcases hi with ⟨rfl, rfl, rfl⟩ | ⟨rfl, rfl, rfl⟩ | ⟨rfl, rfl, rfl⟩ | ⟨rfl, rfl, rfl⟩ <;> exact hg
    rw [hexec]
    obtain ⟨t, ht, hrest⟩ := vstore_spec (ordered := ordered) hgo hplaced
    refine ⟨t, ht.trans ?_, hrest⟩
    cases ordered with
    | true =>
      rw [storeList, storeOrder_ordered, storeWindows_elems]
      rfl
    | false =>
      rw [storeWindows_none fun p hp => ?_]
      · rfl
      · obtain ⟨hj, hp⟩ := mem_storeList.1 hp
        rw [hp]
        exact hwin.resolve_left Bool.false_ne_true p.1 hj
  · intro s s1 e vd vx a x ew qf mk i m lane ordered hi hgo w base addr pl ex wr val hok
    have hexec : exec i s = issueLane (opVstoreSpad vd a m lane ordered ew qf mk) s := by
      rcases hi with ⟨rfl, rfl, rfl, rfl⟩ | ⟨rfl, rfl, rfl, rfl⟩ | ⟨rfl, rfl, rfl, rfl⟩ | ⟨rfl, rfl, rfl, rfl⟩ | ⟨rfl, rfl, rfl, rfl⟩ <;> rfl
    rw [hexec]
    let A : VecPad := ⟨s1, e, m, a, lane, ew, mk⟩
    have hA : A.Ok := hok
    obtain ⟨t, ht, hframe, hpc, hstart, hv, hguard, hbytes, hspad, hfull⟩ :=
      VecPad.vstorePad_completes (A := A) (vd := vd) (qf := qf) (ordered := ordered) hgo hA
    refine ⟨t, A.storeGranules ordered, ht, fun hall => hframe fun j hj => (hall j hj).2, hpc, hstart, hv, fun ⟨j, hj, hn⟩ => hguard ⟨j, hj, ?_⟩,
      fun p hp => (hbytes p).trans (VecPad.byteAt_written_out hA fun j b hj ho hb => hp j b ⟨hj, ho⟩ hb), ?_, fun j b hj hb => ?_,
      fun hone j hj => ?_, fun g => VecPad.mem_storeGranules hA g, ?_⟩
    · exact Bool.eq_false_iff.2 fun ho => hn ⟨hj, ho⟩
    · rintro rfl j b ⟨hj, ho⟩ hb hhigh
      rw [hspad]
      exact VecPad.get_putAll_highest hA s1.curC hj ho hb fun k d hlt hk hko hd => hhigh k d hlt ⟨hk, hko⟩ hd
    · rw [hspad]
      exact VecPad.get_putAll_some hA s1.curC hj.1 hj.2 hb
    · obtain ⟨k, hk, hall⟩ := VecPad.get_putAll_whole (vd := vd) (qf := qf) (ordered := ordered) hA s1.curC hone hj.1 hj.2
      refine ⟨k, hk, fun b hb => ⟨(hall b hb).1, ?_⟩⟩
      rw [hspad]
      exact (hall b hb).2
    · rw [hfull]
      cases qf <;> rfl

end Sys2Proof.Machine
end

section
/-!
PROOFS. Replies of queries and page operations (spec 06 R98, R99; 18 R341): what a reply that lands writes, and what it leaves alone.
-/

namespace Sys2Proof.Machine

variable {s t u : State} {k : CoreId} {a : Nat} {bs : List Byte}

/-- From s the bytes bs have landed at a of core k's scratchpad, t is the state after: of that core the scratchpad with its poison and
full-empty bits, and the notes of who satisfied a wait (R355), may have changed, and of the whole the free values drawn. -/
structure Landed (s t : State) (k : CoreId) (a : Nat) (bs : List Byte) : Prop where
  outside : { t with cores := s.cores, fresh := s.fresh } = s
  spad : (t.core k).spad = Mem.setBytes (s.core k).spad a bs
  other : ∀ j, j ≠ k → t.core j = s.core j
  thr : ∀ j v, { t.thr j v with wakeC := (s.thr j v).wakeC } = s.thr j v

/-- The granules that a reply writes are marked one after another; its bytes stay. -/
theorem spad_foldl_setFull (full : Bool) (gs : List Nat) (c : Core) :
    gs.foldl (fun c g => c.setFull g full) c = { c with full := gs.foldl (fun f g => NatSet.put f g full) c.full } := by
  induction gs generalizing c with
  | nil => rfl
  | cons g gs ih => rw [List.foldl_cons, ih]; rfl

theorem has_foldl_put (gs : List Nat) (f : GSet) {g : Nat} (h : g ∈ gs ∨ NatSet.has f g = true) :
    NatSet.has (gs.foldl (fun f g => NatSet.put f g true) f) g = true := by
  induction gs generalizing f with
  | nil => exact h.resolve_left List.not_mem_nil
  | cons x gs ih =>
    refine ih _ ?_
    rw [List.mem_cons] at h
    by_cases hx : g = x
    · exact .inr (by simp [NatSet.put, NatSet.has_add, hx])
    · exact (h.imp_left fun h => h.resolve_left hx).imp_right fun h => by simp [NatSet.put, NatSet.has_add, hx, h]

/-- What a reply does to its core. -/
def replyCore (c : Core) (a : Nat) (bs : List Byte) (bad : Nat → Bool) (full crit : Bool) : Core :=
  let w := c.spadWrite a bs
  Core.noteWake
    { w with
      full := (granulesOf a bs.length).foldl (fun f g => NatSet.put f g full) w.full
      spadPoison := ((granulesOf a bs.length).filter bad).foldl NatSet.add w.spadPoison } crit

/-- A reply whose granules are its context's is written (R99). -/
theorem landReply_eq {al : List Alloc} (h : rangeInAllocs al a bs.length = true) (bad : Nat → Bool) (full crit : Bool) :
    landReply s k al a bs bad full crit = s.modCore k (fun c => replyCore c a bs bad full crit) := by
  simp only [landReply, h, Bool.not_true, Bool.false_eq_true, ↓reduceIte, spad_foldl_setFull, replyCore]

theorem thr_replyCore (c : Core) (a : Nat) (bs : List Byte) (bad : Nat → Bool) (full crit : Bool) (v : Tid) :
    { (replyCore c a bs bad full crit).threads[v] with wakeC := c.threads[v].wakeC } = c.threads[v] :=
  Core.noteWake_thread _ crit v

theorem landed_landReply {al : List Alloc} (h : rangeInAllocs al a bs.length = true) (bad : Nat → Bool) (full crit : Bool) :
    Landed s (landReply s k al a bs bad full crit) k a bs := by
  rw [landReply_eq h]
  refine ⟨rfl, by rw [State.core_modCore_same]; rfl, fun j hj => State.core_modCore_other s _ hj, fun j v => ?_⟩
  by_cases hj : j = k
  · subst hj; rw [State.thr, State.core_modCore_same]; exact thr_replyCore ..
  · rw [State.thr, State.core_modCore_other s _ hj]; rfl

/-- The granules of a whole reply are full (R99). -/
theorem isFull_landReply {al : List Alloc} (h : rangeInAllocs al a bs.length = true) (bad : Nat → Bool) (crit : Bool) {g : Nat}
    (hg : g ∈ granulesOf a bs.length) : ((landReply s k al a bs bad true crit).core k).isFull g = true := by
  rw [landReply_eq h, State.core_modCore_same]
  exact has_foldl_put _ _ (.inl hg)

namespace Landed

theorem curCore (h : Landed s t k a bs) : t.curCore = s.curCore := by have := congrArg State.curCore h.outside; exact this
theorem curTid (h : Landed s t k a bs) : t.curTid = s.curTid := by have := congrArg State.curTid h.outside; exact this
theorem wm (h : Landed s t k a bs) : t.wm = s.wm := by have := congrArg State.wm h.outside; exact this
theorem qmem (h : Landed s t k a bs) : t.qmem = s.qmem := by have := congrArg State.qmem h.outside; exact this

/-- No byte outside the reply changes. -/
theorem byteAt (h : Landed s t k a bs) {p : Place} (hp : ∀ i, i < bs.length → p ≠ .spad k (a + i)) : t.byteAt p = s.byteAt p := by
  have hh : t.host = s.host := by have := congrArg State.host h.outside; exact this
  have hps : t.peers = s.peers := by have := congrArg State.peers h.outside; exact this
  cases p with
  | spad j b =>
    show Mem.get (t.core j).spad b = Mem.get (s.core j).spad b
    by_cases hj : j = k
    · subst hj
      rw [h.spad, Mem.get_setBytes_out (outside_of_ne fun i hi e => hp i hi (e ▸ rfl))]
    · rw [h.other j hj]
  | _ => simp only [State.byteAt, State.peerMem, h.wm, hh, h.qmem, hps]

/-- A number of the reply. -/
theorem num (h : Landed s t k a bs) {o n : Nat} (ho : o + n ≤ bs.length) : Mem.num (t.core k).spad (a + o) n = fieldAt bs o n := by
  rw [h.spad, Mem.num_setBytes ho]

/-- A number that is the whole reply. -/
theorem num_leBytes {n v : Nat} (h : Landed s t k a (leBytes n v)) : Mem.num (t.core k).spad a n = v % 256 ^ n := by
  rw [h.spad]; exact Mem.num_setNum

/-- Control stands where it stood. -/
theorem advance_pc (h : Landed s t k a bs) : t.cur.advance.pc = s.cur.advance.pc := by
  have hc := h.thr s.curCore s.curTid
  have ht : t.cur = t.thr s.curCore s.curTid := by rw [State.cur, h.curCore, h.curTid]
  rw [ht, show s.cur = s.thr s.curCore s.curTid from rfl]
  refine Thread.advance_pc_congr ?_ ?_ ?_ ?_ ?_ <;> rw [← hc]

end Landed

end Sys2Proof.Machine
end

section
/-!
PROOFS. Sub-commands of queries (spec 06 R98 to R105, R170, R174): those that do nothing yet, and what a qcnt and a qwr leave behind.
-/

namespace Sys2Proof.Machine

variable {s s1 : State} {q : QueryRun} {c : SubCmd} {j : Nat}

/-! ## The turn of a sub-command -/

theorem subcommandComplete_absent {id : Nat} (h : s.queries.find? (fun x => x.id == id) = none) :
    exec (.querySubcommandComplete id j) s = .next s := by
  show execQuerySubcommandComplete id j s = _
  rw [execQuerySubcommandComplete, h]

theorem subcommandComplete_of {id : Nat} (h : s.queries.find? (fun x => x.id == id) = some q) :
    exec (.querySubcommandComplete id j) s = .next (completeSub s q j false) := by
  show execQuerySubcommandComplete id j s = _
  rw [execQuerySubcommandComplete, h]

theorem acquireHolds_iff : acquireHolds s q = true
    ↔ ∃ x ∈ s.queries, q.fl.acq = true ∧ x.id < q.id ∧ x.part = q.part ∧ x.ctx = q.ctx ∧ x.fl.rel = true := by
  simp only [acquireHolds, Bool.and_eq_true, List.any_eq_true, decide_eq_true_eq, beq_iff_eq]
  grind

/-- A sub-command that is done, that an acquire holds back, or that is behind an earlier one of a qupd (R108, R170, R174). -/
theorem completeSub_idle {force : Bool} (hc : q.subs[j]? = some c)
    (h : c.done = true ∨ (∃ x ∈ s.queries, q.fl.acq = true ∧ x.id < q.id ∧ x.part = q.part ∧ x.ctx = q.ctx ∧ x.fl.rel = true)
      ∨ (q.fn = 8 ∧ ∃ i d, i < j ∧ q.subs[i]? = some d ∧ d.done = false)) : completeSub s q j force = s := by
  have hidle : (c.done || (q.fn = 8 && (q.subs.take j).any (fun x => !x.done)) || acquireHolds s q) = true := by
    simp only [Bool.or_eq_true, Bool.and_eq_true, decide_eq_true_eq, List.any_eq_true]
    rcases h with h | h | ⟨hfn, i, d, hi, hd, hdone⟩
    · exact .inl (.inl h)
    · exact .inr (acquireHolds_iff.2 h)
    · exact .inl (.inr ⟨hfn, d, List.mem_of_getElem? ((List.getElem?_take_of_lt hi).trans hd), by rw [hdone]; rfl⟩)
  simp only [completeSub, hc, hidle, ↓reduceIte]

/-- The counter's page has yet to come (R98, R332). -/
theorem completeSub_waits (hc : q.subs[j]? = some c) (hd : c.done = false) (hfn : q.fn ≠ 8) (ha : acquireHolds s q = false)
    (hr : counterReady s q.core q.rq q.counter = (s1, false)) : completeSub s q j false = s1 := by
  simp only [completeSub, hc, hd, hfn, ha, hr, decide_false, Bool.false_and, Bool.or_false, Bool.false_eq_true, ↓reduceIte]

/-- The query after sub-command j, of effect on the query r. -/
def QueryRun.doneSub (r : QueryRun) (j : Nat) (c : SubCmd) : QueryRun := { r with subs := r.subs.set j { c with done := true } }
/-- A query's last sub-command is done (R98). -/
def QueryRun.over (q : QueryRun) : Bool := !q.more && q.subs.all (fun x => x.done)
/-- Event 9 is counted at the issuing core. -/
def State.countSub (s : State) (q : QueryRun) : State := s.modCore q.core (fun c => c.count 9 q.tid 1)
/-- A query leaves the list. -/
def State.dropQuery (s : State) (q : QueryRun) : State := { s with queries := s.queries.filter (fun x => x.id != q.id) }

/-- A sub-command of a query without a counter completes (R98). -/
theorem completeSub_goes {s1 : State} {r : QueryRun} (hc : q.subs[j]? = some c) (hd : c.done = false) (hfn : q.fn ≠ 8)
    (ha : acquireHolds s q = false) (hrun : runSub s q (q.first + j) c = (s1, r)) (hctr : q.counter = none) (hr : r.counter = none) :
    completeSub s q j false
      = if (r.doneSub j c).over = true then
          ((landQuery s1 (r.doneSub j c) true).countSub (r.doneSub j c)).dropQuery (r.doneSub j c)
        else (s1.countSub (r.doneSub j c)).setQuery (r.doneSub j c) := by
  have hq (t : State) : (queryCount t (r.doneSub j c).core (r.doneSub j c).rq (r.doneSub j c).counter (r.doneSub j c).crit true).1 = t := by
    simp only [queryCount, show (r.doneSub j c).counter = none from hr]
  have hgo : completeSub s q j false = (fun r : QueryRun =>
      let t := if r.over = true then landQuery s1 r true else s1
      let t := (queryCount t r.core r.rq r.counter r.crit true).1.countSub r
      if r.over = true then t.dropQuery r else t.setQuery r) (r.doneSub j c) := by
    simp only [completeSub, hc, hd, hfn, ha, hrun, hctr, counterReady, decide_false, Bool.false_and, Bool.or_false, Bool.false_eq_true,
      ↓reduceIte]
    rfl
  rw [hgo]
  dsimp only
  rw [hq]
  by_cases ho : (r.doneSub j c).over = true
  · rw [if_pos ho, if_pos ho, if_pos ho]
  · rw [if_neg ho, if_neg ho, if_neg ho]

theorem byteAt_countSub (s : State) (q : QueryRun) : SameBytes s (s.countSub q) := byteAt_modCore (fun c => Core.count_spad c 9 q.tid 1) s q.core

theorem Core.count_full (c : Core) (ev : Nat) (t : Tid) (n : Nat) : (c.count ev t n).full = c.full := by
  unfold Core.count; split <;> rfl

@[simp] theorem spad_countSub (s : State) (q : QueryRun) (k : CoreId) : ((s.countSub q).core k).spad = (s.core k).spad :=
  State.core_modCore_of (π := Core.spad) (fun c => Core.count_spad c 9 q.tid 1) s q.core k
@[simp] theorem full_countSub (s : State) (q : QueryRun) (k : CoreId) : ((s.countSub q).core k).full = (s.core k).full :=
  State.core_modCore_of (π := Core.full) (fun c => Core.count_full c 9 q.tid 1) s q.core k

@[simp] theorem core_dropQuery (s : State) (q : QueryRun) (k : CoreId) : (s.dropQuery q).core k = s.core k := rfl
theorem byteAt_dropQuery (s : State) (q : QueryRun) : SameBytes s (s.dropQuery q) := fun _ => rfl
theorem ne_of_mem_dropQuery {y : QueryRun} (h : y ∈ (s.dropQuery q).queries) : y.id ≠ q.id := by
  simpa using (List.mem_filter.1 h).2
/-- A query's place in the list holds it, once it has been put there. -/
theorem eq_of_mem_setQuery {y : QueryRun} (h : y ∈ (s.setQuery q).queries) (hid : y.id = q.id) : y = q := by
  obtain ⟨x, -, rfl⟩ := List.mem_map.1 h
  by_cases hx : x.id = q.id
  · exact if_pos hx
  · rw [if_neg hx] at hid; exact absurd hid hx

/-! ## Rows read (R98, R105) -/

/-- Rows of one length, one after another. -/
theorem take_drop_flatten {α : Type} {n : Nat} {l : List (List α)} (h : ∀ x ∈ l, x.length = n) {i : Nat} (hi : i < l.length) :
    (l.flatten.drop (i * n)).take n = l[i] := by
  induction l generalizing i with
  | nil => exact absurd hi (Nat.not_lt_zero i)
  | cons x l ih =>
    have hx : x.length = n := h x List.mem_cons_self
    cases i with
    | zero => simp [hx]
    | succ i =>
      have hd : (x :: l).flatten.drop ((i + 1) * n) = l.flatten.drop (i * n) := by
        rw [List.flatten_cons, Nat.succ_mul, Nat.add_comm, ← List.drop_drop, ← hx, List.drop_left]
      rw [hd]
      exact ih (fun y hy => h y (List.mem_cons_of_mem x hy)) (Nat.lt_of_succ_lt_succ hi)

/-- The bytes of row r of a sub-command's rows, from lo on. -/
def rowBytes (s : State) (b : QBlk) (c : SubCmd) (r : Nat) : List Byte := Mem.bytes s.qmem (b.rowAddr b.base r c.stack c.frame) b.rlen

/-- A read-only query after its sub-command i has read its rows (R98, R100). -/
def QueryRun.gotRows (q : QueryRun) (i : Nat) (bs : List Byte) (bad : List (Nat × Nat)) : QueryRun :=
  { q with read := q.read ++ [(i, bs)], bad := bad }

/-- What a sub-command of a read-only query but qattn reads. -/
theorem runSub_reads {i : Nat} (hm : modifies q.fn = false) (hfn : q.fn ≠ 7) (s : State) (c : SubCmd) :
    let b := QBlk.ofBits q.block
    ∃ bad, runSub s q i c = (s, q.gotRows i
      ((List.range ((b.rowsOf i).2 - (b.rowsOf i).1)).map (fun n => rowBytes s b c ((b.rowsOf i).1 + n))).flatten bad) := by
  simp only [runSub, hm, Bool.false_eq_true, readRows, hfn, ↓reduceIte, List.append_nil, List.map_map, Nat.add_comm (((QBlk.ofBits q.block).rowsOf i).1)]
  exact ⟨_, rfl⟩

/-- What a query's rows are once its only sub-command has read them (R98). -/
theorem gathered_one {r : QueryRun} {b : QBlk} {f : Nat → List Byte} (hfn : r.fn ≠ 7) (ht : r.total = 1) (hf : ∀ n, (f n).length = b.rlen)
    (hr : r.read = [(0, ((List.range ((b.rowsOf 0).2 - (b.rowsOf 0).1)).map f).flatten)]) :
    r.gathered b = [(List.range ((b.rowsOf 0).2 - (b.rowsOf 0).1)).map (fun n => ((b.rowsOf 0).1 + n, f n, []))] := by
  simp only [QueryRun.gathered, ht, hr, hfn, List.range_one, List.map_cons, List.map_nil, List.find?_cons_of_pos, BEq.rfl, ↓reduceIte,
    List.cons.injEq, and_true]
  refine List.map_congr_left fun n hn => ?_
  rw [List.mem_range] at hn
  rw [take_drop_flatten (n := b.rlen) (by simpa using fun n _ => hf n) (by simpa using hn)]
  simp

/-- qcnt's reply (R105): the number of rows that match. -/
theorem landQuery_qcnt {r : QueryRun} {f : Nat → List Byte} (hfn : r.fn = 4) (ht : r.total = 1) (hb : r.fl.bnd = false)
    (hf : ∀ n, (f n).length = (QBlk.ofBits r.block).rlen)
    (hr : r.read = [(0, ((List.range (((QBlk.ofBits r.block).rowsOf 0).2 - ((QBlk.ofBits r.block).rowsOf 0).1)).map f).flatten)])
    (s : State) : ∃ bad, landQuery s r true = landReply s.draw.2 r.core (r.allocs s.draw.2) r.reply
      (leBytes 8 ((List.range (((QBlk.ofBits r.block).rowsOf 0).2 - ((QBlk.ofBits r.block).rowsOf 0).1)).countP
        (fun n => matchesRow (QBlk.ofBits r.block) (f n)))) bad true r.crit := by
  have hg := gathered_one (b := QBlk.ofBits r.block) (r := r) (by omega) ht hf hr
  simp only [landQuery, ↓reduceIte, hg, hfn, queryRes, hb, withBounds, List.flatten_cons, List.flatten_nil, List.append_nil,
    List.filter_map, List.length_map, ← List.countP_eq_length_filter, Bool.false_eq_true]
  exact ⟨_, rfl⟩

/-! ## Rows written (R98, R103) -/

theorem foldl_qPoisonAt (f : Nat → Nat) (l : List Nat) (s : State) :
    ∃ p, l.foldl (fun s g => qPoisonAt s (f g) 16) s = { s with qPoison := p } := by
  induction l generalizing s with
  | nil => exact ⟨_, rfl⟩
  | cons g l ih => obtain ⟨p, h⟩ := ih (qPoisonAt s (f g) 16); exact ⟨p, h⟩

/-- A row of a qwr, from the scratchpad to query memory. -/
theorem modifyRow_qwr (hfn : q.fn = 0) (s : State) (b : QBlk) (r a : Nat) : ∃ p, modifyRow s q b r a
    = ({ s with qmem := Mem.setBytes s.qmem a (Mem.bytes (s.core q.core).spad (b.vec + r * b.rlen) b.rlen), qPoison := p }, q) := by
  simp only [modifyRow, hfn, ↓reduceIte]
  obtain ⟨p, h⟩ := foldl_qPoisonAt (fun g => a + 16 * g - (b.vec + r * b.rlen)) _ (qWrite s a ((s.core q.core).spadRead (b.vec + r * b.rlen) b.rlen))
  exact ⟨p, Prod.ext h rfl⟩

/-- Query memory after rows are written one after another, row r from sp at its place in the source (R103). -/
def putRows (sp : Memory) (b : QBlk) (at_ : Nat → Nat) (l : List Nat) (m : Memory) : Memory :=
  l.foldl (fun m r => Mem.setBytes m (at_ r) (Mem.bytes sp (b.vec + r * b.rlen) b.rlen)) m

theorem get_putRows_out {sp m : Memory} {b : QBlk} {at_ : Nat → Nat} {l : List Nat} {x : Nat}
    (h : ∀ r ∈ l, ∀ k, k < b.rlen → x ≠ at_ r + k) : Mem.get (putRows sp b at_ l m) x = Mem.get m x := by
  induction l generalizing m with
  | nil => rfl
  | cons r l ih =>
    rw [putRows, List.foldl_cons, ← putRows, ih fun r hr => h r (List.mem_cons_of_mem _ hr)]
    refine Mem.get_setBytes_out (outside_of_ne fun i hi => ?_)
    rw [Mem.bytes_length] at hi
    exact (h r List.mem_cons_self i hi).symm

/-- Rows that do not overlap are all there. -/
theorem get_putRows_in {sp m : Memory} {b : QBlk} {at_ : Nat → Nat} {l : List Nat}
    (hd : ∀ r ∈ l, ∀ r' ∈ l, ∀ k k', k < b.rlen → k' < b.rlen → at_ r + k = at_ r' + k' → r = r') {r k : Nat} (hr : r ∈ l) (hk : k < b.rlen) :
    Mem.get (putRows sp b at_ l m) (at_ r + k) = Mem.get sp (b.vec + r * b.rlen + k) := by
  induction l generalizing m with
  | nil => exact absurd hr List.not_mem_nil
  | cons x l ih =>
    rw [putRows, List.foldl_cons, ← putRows]
    by_cases hm : r ∈ l
    · exact ih (fun r hr r' hr' => hd r (List.mem_cons_of_mem _ hr) r' (List.mem_cons_of_mem _ hr')) hm
    · obtain rfl : r = x := (List.mem_cons.1 hr).resolve_right hm
      rw [get_putRows_out fun y hy k' hk' e => hm (hd r hr y (List.mem_cons_of_mem _ hy) k k' hk hk' e ▸ hy),
        Mem.get_setBytes_in (by simpa using hk), Mem.bytes_getElem]

/-- The rows of a qwr's sub-command. -/
theorem foldl_modifyRow_qwr (hfn : q.fn = 0) (b : QBlk) (at_ : Nat → Nat) (l : List Nat) (s : State) :
    ∃ p, l.foldl (fun (x : State × QueryRun) r => modifyRow x.1 x.2 b r (at_ r)) (s, q)
      = ({ s with qmem := putRows (s.core q.core).spad b at_ l s.qmem, qPoison := p }, q) := by
  induction l generalizing s with
  | nil => exact ⟨_, rfl⟩
  | cons r l ih =>
    obtain ⟨p, h⟩ := modifyRow_qwr hfn s b r (at_ r)
    rw [List.foldl_cons, h]
    exact ih _

theorem runSub_qwr (hfn : q.fn = 0) (s : State) (i : Nat) (c : SubCmd) :
    let b := QBlk.ofBits q.block
    let rows := (List.range ((b.rowsOf i).2 - (b.rowsOf i).1)).map (fun r => (b.rowsOf i).1 + r)
    ∃ p, runSub s q i c = ({ s with
      qmem := putRows (s.core q.core).spad b (fun r => b.rowAddr b.base r c.stack c.frame) rows s.qmem, qPoison := p }, q) := by
  intro b rows
  obtain ⟨p, h⟩ := foldl_modifyRow_qwr hfn b (fun r => b.rowAddr b.base r c.stack c.frame) rows s
  refine ⟨p, Eq.trans ?_ h⟩
  rw [List.foldl_map, runSub, if_pos (by rw [hfn]; rfl)]

/-! ## The place of a row (R95, R98) -/

/-- The geometry that a query without a shape fault has: one row within a page, or rows whose distance is at least their length. -/
theorem geometry_of_shape {fn : Nat} {b : QBlk} {bnd : Bool} (h : shapeFault fn b bnd = none) : b.stride = 0 ∨ b.rlen ≤ b.stride := by
  have hg : b.badGeometry b.base = false := by
    by_contra hg
    rw [Bool.not_eq_false] at hg
    unfold shapeFault at h
    simp only [hg, Bool.or_true, Bool.true_or, ↓reduceIte] at h
    split at h <;> (try split at h) <;> (try split at h) <;> cases h
  refine or_iff_not_imp_left.2 fun hs => ?_
  simp only [QBlk.badGeometry, hs, decide_false, Bool.and_false, Bool.false_eq_true, ↓reduceIte, Bool.or_eq_false_iff, decide_eq_false_iff_not]
    at hg
  omega

/-- The rows of a sub-command begin on one page. -/
theorem rowsOf_page {b : QBlk} {i r : Nat} (hs : b.stride ≠ 0) (hlo : (b.rowsOf i).1 ≤ r) (hhi : r < (b.rowsOf i).2) :
    (b.base + r * b.stride) / qPageSize = ((b.pagesOf b.base).getD i (0, 0, 0)).1 := by
  have hmem : (b.pagesOf b.base).getD i (0, 0, 0) ∈ b.pagesOf b.base := by
    rw [List.getD_eq_getElem?_getD]
    cases hx : (b.pagesOf b.base)[i]? with
    | none => rw [QBlk.rowsOf, List.getD_eq_getElem?_getD, hx] at hhi; exact absurd hhi (Nat.not_lt_zero r)
    | some x => exact List.mem_of_getElem? hx
  generalize hx : (b.pagesOf b.base).getD i (0, 0, 0) = x at hmem
  rw [QBlk.rowsOf, hx] at hlo hhi
  simp only [QBlk.pagesOf, hs, ↓reduceIte, List.mem_filterMap, List.mem_range, Option.ite_none_right_eq_some, Option.some.injEq] at hmem
  obtain ⟨n, -, -, rfl⟩ := hmem
  have hpos : 0 < b.stride := Nat.pos_of_ne_zero hs
  have h1 := (Nat.div_le_iff_le_mul_add_pred hpos).1 hlo
  have h2 := (Nat.le_div_iff_mul_le hpos).1 (Nat.succ_le_of_lt (lt_of_lt_of_le hhi (Nat.min_le_right _ _)))
  rw [Nat.succ_mul] at h2
  rw [Nat.mul_comm b.stride r] at h1
  refine Nat.div_eq_of_lt_le ?_ ?_ <;> simp only [qPageSize] at * <;> omega

/-- Two rows of one sub-command do not meet. -/
theorem rowAddr_disjoint {b : QBlk} {fn i stack frame : Nat} {bnd : Bool} (h : shapeFault fn b bnd = none) {r r' k k' : Nat}
    (hr : (b.rowsOf i).1 ≤ r ∧ r < (b.rowsOf i).2) (hr' : (b.rowsOf i).1 ≤ r' ∧ r' < (b.rowsOf i).2) (hk : k < b.rlen) (hk' : k' < b.rlen)
    (he : b.rowAddr b.base r stack frame + k = b.rowAddr b.base r' stack frame + k') : r = r' := by
  obtain ⟨hlo, hhi⟩ := hr
  obtain ⟨hlo', hhi'⟩ := hr'
  by_cases hs : b.stride = 0
  · have h1 : (b.rowsOf i).2 ≤ 1 := by
      simp only [QBlk.rowsOf, QBlk.pagesOf, hs, ↓reduceIte]
      cases i <;> simp
    omega
  · have hlen : b.rlen ≤ b.stride := (geometry_of_shape h).resolve_left hs
    have hp := rowsOf_page hs hlo hhi
    have hp' := rowsOf_page hs hlo' hhi'
    have hm := Nat.div_add_mod (b.base + r * b.stride) qPageSize
    have hm' := Nat.div_add_mod (b.base + r' * b.stride) qPageSize
    rw [hp] at hm
    rw [hp'] at hm'
    simp only [QBlk.rowAddr, qAddr] at he
    have apart {x y : Nat} (hxy : x < y) : x * b.stride + b.rlen ≤ y * b.stride := by
      have := Nat.mul_le_mul_right b.stride (Nat.succ_le_of_lt hxy)
      rw [Nat.succ_mul] at this
      omega
    rcases Nat.lt_trichotomy r r' with hlt | heq | hlt
    · have := apart hlt; omega
    · exact heq
    · have := apart hlt; omega

/-! ## The effects of a qcnt and of a qwr -/

/-- How many rows of its only page a query's predicate matches. -/
def matchCount (s : State) (b : QBlk) (c : SubCmd) : Nat :=
  (List.range ((b.rowsOf 0).2 - (b.rowsOf 0).1)).countP (fun n => matchesRow b (rowBytes s b c ((b.rowsOf 0).1 + n)))

/-- A qcnt of one sub-command completes (R98, R105). -/
theorem completeSub_qcnt (hfn : q.fn = 4) (hfirst : q.first = 0) (htotal : q.total = 1) (hread : q.read = []) (hsubs : q.subs = [c])
    (hd : c.done = false) (hctr : q.counter = none) (hmore : q.more = false) (ha : acquireHolds s q = false) (hbnd : q.fl.bnd = false) :
    ∃ bad, completeSub s q 0 false
      = ((landReply s.draw.2 q.core (q.allocs s) q.reply (leBytes 8 (matchCount s (QBlk.ofBits q.block) c)) bad true q.crit).countSub q).dropQuery q := by
  obtain ⟨hit, hrun⟩ := runSub_reads (i := q.first + 0) (by rw [hfn]; rfl) (by omega) s c
  rw [completeSub_goes (by rw [hsubs]; rfl) hd (by omega) ha hrun hctr hctr, hfirst]
  generalize hr : (q.gotRows (0 + 0) _ hit).doneSub 0 c = r
  have hover : r.over = true := by
    rw [← hr, QueryRun.over]
    simp only [QueryRun.doneSub, QueryRun.gotRows, hmore, hsubs]
    rfl
  rw [if_pos hover]
  obtain ⟨bad, hland⟩ := landQuery_qcnt (r := r) (f := fun n => rowBytes s (QBlk.ofBits q.block) c (((QBlk.ofBits q.block).rowsOf 0).1 + n))
    (by rw [← hr]; exact hfn) (by rw [← hr]; exact htotal) (by rw [← hr]; exact hbnd) (fun n => by rw [← hr]; exact Mem.bytes_length)
    (by rw [← hr]; simp only [QueryRun.doneSub, QueryRun.gotRows, hread]; rfl) s
  rw [hland, ← hr]
  exact ⟨bad, rfl⟩

/-- The rows of sub-command j of a query. -/
def QueryRun.rows (q : QueryRun) (j : Nat) : List Nat :=
  (List.range (((QBlk.ofBits q.block).rowsOf (q.first + j)).2 - ((QBlk.ofBits q.block).rowsOf (q.first + j)).1)).map
    (fun r => ((QBlk.ofBits q.block).rowsOf (q.first + j)).1 + r)

theorem mem_rows {r : Nat} : r ∈ q.rows j ↔ ((QBlk.ofBits q.block).rowsOf (q.first + j)).1 ≤ r ∧ r < ((QBlk.ofBits q.block).rowsOf (q.first + j)).2 := by
  simp only [QueryRun.rows, List.mem_map, List.mem_range]
  exact ⟨fun ⟨i, hi, e⟩ => by omega, fun ⟨hlo, hhi⟩ => ⟨r - ((QBlk.ofBits q.block).rowsOf (q.first + j)).1, by omega, by omega⟩⟩

/-- Where row r of a sub-command lies. -/
def QueryRun.rowAt (q : QueryRun) (c : SubCmd) (r : Nat) : Nat := (QBlk.ofBits q.block).rowAddr (QBlk.ofBits q.block).base r c.stack c.frame

/-- A sub-command of a qwr without a counter completes (R98, R103). -/
theorem completeSub_qwr (hfn : q.fn = 0) (hc : q.subs[j]? = some c) (hd : c.done = false) (hctr : q.counter = none)
    (ha : acquireHolds s q = false) :
    ∃ p, completeSub s q j false =
      let t := ({ s with qmem := putRows (s.core q.core).spad (QBlk.ofBits q.block) (q.rowAt c) (q.rows j) s.qmem, qPoison := p } : State).countSub q
      if (q.doneSub j c).over = true then t.dropQuery q else t.setQuery (q.doneSub j c) := by
  obtain ⟨p, hrun⟩ := runSub_qwr hfn s (q.first + j) c
  refine ⟨p, ?_⟩
  rw [completeSub_goes hc hd (by omega) ha hrun hctr hctr]
  have hland (t : State) : landQuery t (q.doneSub j c) true = t := if_pos (by rw [show (q.doneSub j c).fn = 0 from hfn]; decide)
  rw [hland]
  rfl

/-- Bytes of query memory outside the rows of a qwr's sub-command stay, and so does every other memory. -/
theorem byteAt_putRows {m : Memory} {p : GSet} {b : QBlk} {at_ : Nat → Nat} {l : List Nat} {x : Place}
    (h : ∀ r ∈ l, ∀ k, k < b.rlen → x ≠ .query (at_ r + k)) :
    ({ s with qmem := putRows m b at_ l s.qmem, qPoison := p } : State).byteAt x = s.byteAt x := by
  cases x with
  | query a => exact get_putRows_out fun r hr k hk e => h r hr k hk (e ▸ rfl)
  | _ => rfl

/-! ## The statement -/

/-- Settles O48: a sub-command that may not go on changes nothing; a qcnt's gathers the rows that it read and lands their count; a qwr's
writes its rows, which do not overlap. -/
theorem queryCompletion : Obligations.QueryCompletion := by
  unfold Obligations.QueryCompletion
  refine ⟨fun s id j h => subcommandComplete_absent h, fun s id j q c hq hc h => ?_, fun s s1 id j q c hq hc hd ha hfn hr => ?_, ?_, ?_⟩
  · rw [subcommandComplete_of hq, completeSub_idle hc h]
  · rw [subcommandComplete_of hq, completeSub_waits hc hd hfn ha hr]
  · intro s id q c b lo hi hq hfn hfirst htotal hread hsubs hd _ hctr hmore ha hbnd _ hroom
    obtain ⟨bad, hgo⟩ := completeSub_qcnt hfn hfirst htotal hread hsubs hd hctr hmore ha hbnd
    have hroom' : rangeInAllocs (q.allocs s) q.reply (leBytes 8 (matchCount s b c)).length = true := by rw [leBytes_length]; exact hroom
    have hl := landed_landReply (s := s.draw.2) (k := q.core) hroom' bad true q.crit
    have hf := isFull_landReply (s := s.draw.2) (k := q.core) hroom' bad q.crit (g := q.reply / 16) (by
      rw [granulesOf, List.mem_map]; exact ⟨0, by rw [List.mem_range, leBytes_length]; omega, rfl⟩)
    rw [subcommandComplete_of hq, hgo]
    refine ⟨_, rfl, ?_, ?_, fun y hy => ne_of_mem_dropQuery hy, fun p hp => ?_⟩
    · rw [core_dropQuery, spad_countSub, hl.num_leBytes]; rfl
    · rw [core_dropQuery, Core.isFull, full_countSub]; exact hf
    · exact (byteAt_dropQuery _ q p).trans ((byteAt_countSub _ q p).trans (hl.byteAt fun i hi => hp i (by rwa [leBytes_length] at hi)))
  · intro s id j q c b lo hi at_ hq hfn hc hd hctr ha hshape
    obtain ⟨p, hgo⟩ := completeSub_qwr hfn hc hd hctr ha
    rw [subcommandComplete_of hq, hgo]
    dsimp only
    generalize hu : ({ s with qmem := putRows (s.core q.core).spad (QBlk.ofBits q.block) (q.rowAt c) (q.rows j) s.qmem, qPoison := p } : State) = u
    have hin {r k : Nat} (hr : lo ≤ r ∧ r < hi) (hk : k < b.rlen) : Mem.get u.qmem (at_ r + k) = Mem.get (s.core q.core).spad (b.vec + r * b.rlen + k) := by
      rw [← hu]
      exact get_putRows_in (fun r hr r' hr' k k' hk hk' he => rowAddr_disjoint hshape (mem_rows.1 hr) (mem_rows.1 hr') hk hk' he) (mem_rows.2 hr) hk
    have hout {x : Place} (hx : ∀ r k, lo ≤ r → r < hi → k < b.rlen → x ≠ .query (at_ r + k)) : u.byteAt x = s.byteAt x := by
      rw [← hu]
      exact byteAt_putRows fun r hr k hk => hx r k (mem_rows.1 hr).1 (mem_rows.1 hr).2 hk
    have hd : ∃ d, (q.doneSub j c).subs[j]? = some d ∧ d.done = true :=
      ⟨_, List.getElem?_set_self (List.getElem?_eq_some_iff.1 hc).1, rfl⟩
    refine ⟨_, rfl, ?_⟩
    split
    · exact ⟨fun r k hlo hhi hk => hin ⟨hlo, hhi⟩ hk, fun x hx => (byteAt_countSub u q x).trans (hout hx),
        fun y hy hid => absurd hid (ne_of_mem_dropQuery hy)⟩
    · exact ⟨fun r k hlo hhi hk => hin ⟨hlo, hhi⟩ hk, fun x hx => (byteAt_countSub u q x).trans (hout hx),
        fun y hy hid => by rw [eq_of_mem_setQuery hy hid]; exact hd⟩

end Sys2Proof.Machine
end

section
/-!
PROOFS. The checks of queries and page operations at issue (spec 06 R96): the block, the areas of the scratchpad and the counter.
-/

namespace Sys2Proof.Machine

variable {s s1 : State}

/-! ## Areas of the scratchpad -/

/-- n bytes of the scratchpad from p on are the current context's, in the general region, from a granule on, and not poisoned. -/
def State.Owns (s : State) (p n : Nat) : Prop :=
  p % 16 = 0 ∧ p + n ≤ 0x380000 ∧ ∀ j, j < n → inAllocs s.curAllocs (p + j) = true ∧ NatSet.has s.curC.spadPoison ((p + j) / 16) = false

theorem NatSet.has_iff_mem {g : Nat} {l : GSet} : NatSet.has l g = true ↔ g ∈ l := by
  induction l with
  | nil => simp [NatSet.has]
  | cons x l ih => rw [NatSet.has, List.mem_cons, ← ih]; split <;> simp [*]

theorem mem_granulesOf {a n g : Nat} : g ∈ granulesOf a n ↔ a / 16 ≤ g ∧ g < (a + n + 15) / 16 := by
  simp only [granulesOf, List.mem_map, List.mem_range]
  exact ⟨fun ⟨i, hi, e⟩ => by omega, fun ⟨h1, h2⟩ => ⟨g - a / 16, by omega, by omega⟩⟩

theorem rangeInAllocs_iff {l : List Alloc} {a n : Nat} : rangeInAllocs l a n = true ↔ ∀ g ∈ granulesOf a n, inAllocs l (16 * g) = true := by
  simp [rangeInAllocs, granulesOf]

namespace State.Owns

variable {p n : Nat}

/-- Each granule of the area begins with a byte of it. -/
theorem granule (h : s.Owns p n) {g : Nat} (hg : g ∈ granulesOf p n) :
    inAllocs s.curAllocs (16 * g) = true ∧ NatSet.has s.curC.spadPoison g = false := by
  obtain ⟨ha, -, hb⟩ := h
  obtain ⟨h1, h2⟩ := mem_granulesOf.1 hg
  obtain ⟨hin, hp⟩ := hb (16 * g - p) (by omega)
  have he : p + (16 * g - p) = 16 * g := by omega
  rw [he] at hin hp
  rw [Nat.mul_div_cancel_left g (by decide)] at hp
  exact ⟨hin, hp⟩

theorem range (h : s.Owns p n) : rangeInAllocs s.curAllocs p n = true := rangeInAllocs_iff.2 fun _ hg => (h.granule hg).1

theorem clean (h : s.Owns p n) : s.curC.spadPoisoned p n = false := by
  refine Bool.eq_false_iff.2 fun hbad => ?_
  simp only [Core.spadPoisoned, List.any_eq_true, Bool.and_eq_true, decide_eq_true_eq] at hbad
  obtain ⟨g, hg, h1, h2⟩ := hbad
  have hp := (h.granule (g := g) (mem_granulesOf.2 ⟨by omega, by omega⟩)).2
  rw [NatSet.has_iff_mem.2 hg] at hp
  cases hp

/-- What a guarded read of the area gives: its bytes, with nothing to record (R76, R341). -/
theorem guardRead (h : s.Owns p n) : s.guardRead p n = (s, Mem.bytes s.curC.spad p n, false) := by
  have hhit : (granulesOf p n).any (fun g => inAllocs s.curAllocs (16 * g) && NatSet.has s.curC.spadPoison g) = false := by
    simp only [List.any_eq_false, Bool.and_eq_true, not_and, Bool.not_eq_true]
    exact fun g hg _ => (h.granule hg).2
  obtain ⟨-, -, hb⟩ := h
  have hguard : firstGuard s.curAllocs p n = none := by
    simp only [firstGuard, List.find?_eq_none, List.mem_map, List.mem_range]
    rintro x ⟨j, hj, rfl⟩
    simp [(hb j hj).1]
  have hbytes : (s.curC.spadRead p n).zipIdx.map
      (fun x => if inAllocs s.curAllocs (p + x.2) && !NatSet.has s.curC.spadPoison ((p + x.2) / 16) then x.1 else 0) = Mem.bytes s.curC.spad p n := by
    apply List.ext_getElem (by simp [Core.spadRead])
    intro j hj _
    have hlt : j < n := by simpa [Core.spadRead] using hj
    simp [(hb j hlt).1, (hb j hlt).2, Core.spadRead]
  simp only [State.guardRead, hguard, hhit, hbytes, Bool.false_eq_true, ↓reduceIte]

end State.Owns

theorem placeTrap_misaligned {addr : Word} {al : Nat} (n : Nat) (h : addr.toNat % al ≠ 0) : placeTrap addr n al = some (mkTrap 0x03 addr 0) :=
  if_pos (bne_iff_ne.2 h)

theorem placeTrap_none {addr : Word} {n al : Nat} (ha : addr.toNat % al = 0) (hr : addr.toNat + n ≤ 0x380000) : placeTrap addr n al = none := by
  have h1 : ¬ addr.toNat + n > 0x400000 := by omega
  have h2 : ¬ addr.toNat + n > 0x380000 := by omega
  simp [placeTrap, ha, generalFault, spadSize, laneBase, h1, h2]

theorem areaTrapQ_misaligned {addr : Word} {n : Nat} (h : addr.toNat % 16 ≠ 0) : areaTrapQ s addr n = some (mkTrap 0x03 addr 0) := by
  rw [areaTrapQ, placeTrap_misaligned n h]

theorem areaTrapQ_outside {addr : Word} {n : Nat} (ha : addr.toNat % 16 = 0) (hr : addr.toNat + n ≤ 0x380000)
    (h : rangeInAllocs s.curAllocs addr.toNat n = false) : areaTrapQ s addr n = some (mkTrap 0x09 9 0) := by
  have hn : n ≠ 0 := by
    rintro rfl
    rw [show rangeInAllocs s.curAllocs addr.toNat 0 = true from rangeInAllocs_iff.2 fun g hg => absurd (mem_granulesOf.1 hg) (by omega)] at h
    cases h
  simp [areaTrapQ, placeTrap_none ha hr, hn, h, shapeTrap]

theorem areaTrapQ_none {addr : Word} {n : Nat} (ha : addr.toNat % 16 = 0) (hr : addr.toNat + n ≤ 0x380000)
    (h : rangeInAllocs s.curAllocs addr.toNat n = true) : areaTrapQ s addr n = none := by
  simp [areaTrapQ, placeTrap_none ha hr, h]

/-- An area named by a field of the block. -/
theorem areaTrapQ_owned {p n : Nat} (h : s.Owns p n) : areaTrapQ s (BitVec.ofNat 64 p) n = none := by
  have hrange := h.range
  obtain ⟨ha, hr, -⟩ := h
  have he : (BitVec.ofNat 64 p).toNat = p := by rw [BitVec.toNat_ofNat]; exact Nat.mod_eq_of_lt (by omega)
  exact areaTrapQ_none (by rwa [he]) (by rwa [he]) (by rwa [he])

/-! ## The block -/

theorem withQBlock_misaligned {a : SReg} (k : State → BitVec 512 → Out) (h : (s.sreg a).toNat % 64 ≠ 0) :
    withQBlock a s k = .next (s.trap (mkTrap 0x03 (s.sreg a) 0)) := by
  rw [withQBlock, placeTrap_misaligned 64 h]

theorem withQBlock_owned {a : SReg} (k : State → BitVec 512 → Out) (h : (s.sreg a).toNat % 64 = 0) (ho : s.Owns (s.sreg a).toNat 64) :
    withQBlock a s k = k s (BitVec.ofNat 512 (Mem.num s.curC.spad (s.sreg a).toNat 64)) := by
  have hr := ho.guardRead
  obtain ⟨-, hend, -⟩ := ho
  simp only [withQBlock, placeTrap_none h hend, hr]
  rfl

/-! ## The counter (R96 check 4) -/

variable {b : SReg} {k : State → Out}

theorem counterCheck_outside (hb : b ≠ 0) (hc : canonical (s.sreg b) = false) : counterCheck s b k = .next (s.trap (mkTrap 0x0C (s.sreg b) 0)) := by
  simp [counterCheck, hb, hc, raise]

theorem counterCheck_misaligned (hb : b ≠ 0) (hc : canonical (s.sreg b) = true) (hm : (s.sreg b).toNat % 8 ≠ 0) :
    counterCheck s b k = .next (s.trap (mkTrap 0x03 (s.sreg b) 0)) := by
  simp [counterCheck, hb, hc, hm, raise]

theorem counterCheck_refused {f : XFail} (hb : b ≠ 0) (hc : canonical (s.sreg b) = true) (hm : (s.sreg b).toNat % 8 = 0)
    (ht : translate s (.scalar s.curCore) s.curReq .store (s.sreg b) true = (s1, .error f)) :
    counterCheck s b k = scalarFail s1 .store (s.sreg b) f := by
  simp [counterCheck, hb, hc, hm, ht]

/-- A counter that passes its checks, s1 the state after: none, or an address whose translation is memory. -/
def CounterOk (s : State) (b : SReg) (s1 : State) : Prop :=
  (b = 0 → s1 = s) ∧ (b ≠ 0 → canonical (s.sreg b) = true ∧ (s.sreg b).toNat % 8 = 0
    ∧ ∃ tg lf, translate s (.scalar s.curCore) s.curReq .store (s.sreg b) true = (s1, .ok (tg, lf)) ∧ ∀ f o, tg ≠ .window f o)

theorem counterCheck_ok (h : CounterOk s b s1) : counterCheck s b k = k s1 := by
  obtain ⟨h0, h1⟩ := h
  by_cases hb : b = 0
  · rw [h0 hb]; exact if_pos hb
  · obtain ⟨hc, hm, tg, lf, ht, hw⟩ := h1 hb
    have hm' : ((s.sreg b).toNat % 8 != 0) = false := by simp [hm]
    cases tg with
    | window f o => exact absurd rfl (hw f o)
    | _ => simp only [counterCheck, hb, hc, hm', ht, Bool.not_true, Bool.false_eq_true, ↓reduceIte]

/-- A translation notes its use and caches what it finds; the threads stay as they are. -/
theorem translated_translate {a : State} {un : XUnit} {rq : XReq} {acc : AccKind} {va : Word} {hostOk : Bool} (h : Translated a s) :
    Translated a (translate s un rq acc va hostOk).1 := by
  unfold translate
  grind [translated_checkLeaf, translated_leafOf]

theorem Translated.cur {a : State} (h : Translated a s) : s.cur = a.cur := by
  obtain ⟨hk, ht, hc⟩ := h
  have hth : (s.core a.curCore).threads = (a.core a.curCore).threads := by have := congrArg Core.threads (hc a.curCore); exact this
  rw [State.cur, State.cur, State.thr, State.thr, hk, ht, hth]

theorem CounterOk.translated (h : CounterOk s b s1) : Translated s s1 := by
  obtain ⟨h0, h1⟩ := h
  by_cases hb : b = 0
  · rw [h0 hb]; exact Translated.refl s
  · obtain ⟨-, -, tg, lf, ht, -⟩ := h1 hb
    have hs : s1 = (translate s (.scalar s.curCore) s.curReq .store (s.sreg b) true).1 := by rw [ht]
    rw [hs]
    exact translated_translate (Translated.refl s)

end Sys2Proof.Machine
end

section
/-!
PROOFS. Acceptance of sub-commands whose Q pages have live cached entries (spec 06 R98, R113, R115).
-/

namespace Sys2Proof.Machine

variable {s : State} {rq : XReq} {need : Nat} {mod : Bool}

/-! ## Cached entries -/

/-- A live cached entry of a Q page of a partition at its base die (R57, R113). -/
def State.CachedQ (s : State) (f : FuncId) (pg : Nat) (e : QTlbEntry) : Prop :=
  s.baseDies[qDie pg].cache.find? (fun y => y.part == f && y.qpage == pg && decide (s.dieTime (qDie pg) < y.expiry)) = some e

/-- A live cached entry permits the use of its page: the bit is set, and the page is present, or migrating and not modified (R115). -/
def State.PermitsQ (s : State) (f : FuncId) (need : Nat) (mod : Bool) (pg : Nat) : Prop :=
  ∃ e, s.CachedQ f pg e ∧ e.pte.toNat.testBit need = true ∧ (qpteState e.pte.toNat = 0 ∨ (qpteState e.pte.toNat = 1 ∧ mod = false))

/-- Translations of cached pages note who uses them (R62), and nothing else. -/
def State.withUsers (s : State) (us : List (XAgent × FuncId × BitVec 16)) : State := { s with users := us }

theorem State.withUsers_withUsers (s : State) (us vs : List (XAgent × FuncId × BitVec 16)) : (s.withUsers us).withUsers vs = s.withUsers vs := rfl

theorem State.noteUse_eq (s : State) (ag : XAgent) (rq : XReq) : ∃ us, s.noteUse ag rq = s.withUsers us := by
  unfold State.noteUse
  split
  · exact ⟨s.users, rfl⟩
  · exact ⟨_, rfl⟩

theorem qEntry_cached {pg : Nat} {e : QTlbEntry} (h : s.CachedQ rq.part pg e) :
    qEntry s rq pg = (s.noteUse (.stack (qDie pg)) rq, .ok e.pte.toNat) := by
  obtain ⟨us, hus⟩ := s.noteUse_eq (.stack (qDie pg)) rq
  have hc : (s.withUsers us).CachedQ rq.part pg e := h
  simp only [qEntry, hus]
  rw [hc]

theorem qTranslate_permitted {pg : Nat} (h : s.PermitsQ rq.part need mod pg) : ∃ us e, s.CachedQ rq.part pg e
    ∧ qTranslate s rq pg need mod = (s.withUsers us, .ok (qpteStack e.pte.toNat, qpteFrame e.pte.toNat)) := by
  obtain ⟨e, hc, hbit, hst⟩ := h
  obtain ⟨us, hus⟩ := s.noteUse_eq (.stack (qDie pg)) rq
  have hsealed : qpteState e.pte.toNat ≠ 2 := by omega
  have hmod : (decide (qpteState e.pte.toNat = 1) && mod) = false := by
    rcases hst with h | ⟨-, h⟩ <;> simp [h]
  refine ⟨us, e, hc, ?_⟩
  simp only [qTranslate, qEntry_cached hc, hbit, hsealed, hmod, hus, Bool.not_true, Bool.false_eq_true, ↓reduceIte]

theorem qTranslate_denied {pg : Nat} {e : QTlbEntry} (hc : s.CachedQ rq.part pg e) (hbit : e.pte.toNat.testBit need = false) :
    qTranslate s rq pg need mod = (s.noteUse (.stack (qDie pg)) rq, .error (qDeny need, 0)) := by
  have hd : qDeny need ≠ 9 := by unfold qDeny; grind
  simp only [qTranslate, qEntry_cached hc, hbit, Bool.not_false, ↓reduceIte]
  split
  · simp_all
  · rfl

theorem qTranslateAll_permitted {l : List Nat} (h : ∀ pg ∈ l, s.PermitsQ rq.part need mod pg) :
    ∃ us vs, qTranslateAll s rq need mod l = (s.withUsers us, vs, []) := by
  induction l generalizing s with
  | nil => exact ⟨s.users, [], rfl⟩
  | cons pg l ih =>
    obtain ⟨us, e, -, ht⟩ := qTranslate_permitted (h pg List.mem_cons_self)
    obtain ⟨us', vs, hl⟩ := ih (s := s.withUsers us) fun x hx => h x (List.mem_cons_of_mem pg hx)
    exact ⟨us', (pg, qpteStack e.pte.toNat, qpteFrame e.pte.toNat) :: vs, by simp only [qTranslateAll, ht, hl, State.withUsers_withUsers]⟩

/-! ## Sub-commands -/

/-- What a sub-command is accepted as: its page's cached entry gives stack and frame (R98, R113). -/
def State.AcceptedAs (s : State) (f : FuncId) (c : SubCmd) : Prop :=
  c.done = false ∧ ∃ e, s.CachedQ f c.qpage e ∧ c.stack = qpteStack e.pte.toNat ∧ c.frame = qpteFrame e.pte.toNat

theorem translateSubs_permitted {fn : Nat} {b : QBlk} {l : List (Nat × Nat × Nat)}
    (h : ∀ p ∈ l, s.PermitsQ rq.part (qNeed fn) (modifies fn) p.1
      ∧ (fn = 7 → ∀ pg ∈ b.rowPages b.aux1 p.2.1 p.2.2, s.PermitsQ rq.part (qNeed fn) (modifies fn) pg)) :
    ∃ us, ∃ cs : List SubCmd, translateSubs s rq fn b l = (s.withUsers us, cs.map .ok) ∧ cs.map (fun c => c.qpage) = l.map (fun p => p.1)
      ∧ ∀ c ∈ cs, s.AcceptedAs rq.part c := by
  induction l generalizing s with
  | nil => exact ⟨s.users, [], rfl, rfl, nofun⟩
  | cons p l ih =>
    obtain ⟨pg, lo, hi⟩ := p
    obtain ⟨hpg, hv⟩ := h _ List.mem_cons_self
    obtain ⟨us, e, hc, ht⟩ := qTranslate_permitted hpg
    obtain ⟨us', vs, hvs⟩ := qTranslateAll_permitted (s := s.withUsers us) (rq := rq) (need := qNeed fn) (mod := modifies fn)
      (l := if fn = 7 then b.rowPages b.aux1 lo hi else []) (fun x hx => by
        split at hx
        · next h7 => exact hv h7 x hx
        · exact absurd hx List.not_mem_nil)
    obtain ⟨us'', cs, hl, hpages, hcs⟩ := ih (s := s.withUsers us') fun x hx => h x (List.mem_cons_of_mem _ hx)
    refine ⟨us'', ⟨pg, qpteStack e.pte.toNat, qpteFrame e.pte.toNat, vs, false⟩ :: cs, ?_, congrArg (pg :: ·) hpages, ?_⟩
    · simp only [translateSubs, qTranslateAll, ht, hvs, hl, State.withUsers_withUsers, pickFault, List.find?_nil, List.head?_nil, List.map_cons]
    · intro c hc'
      rcases List.mem_cons.1 hc' with rfl | hc'
      · exact ⟨rfl, e, hc, rfl, rfl⟩
      · exact hcs c hc'

/-- The only page of a query lacks the permission (R115). -/
theorem translateSubs_denied {fn pg lo hi : Nat} {b : QBlk} {e : QTlbEntry} (hc : s.CachedQ rq.part pg e)
    (hbit : e.pte.toNat.testBit (qNeed fn) = false) (hfn : fn ≠ 7) :
    translateSubs s rq fn b [(pg, lo, hi)] = (s.noteUse (.stack (qDie pg)) rq, [.error (pg, qDeny (qNeed fn), 0)]) := by
  have hp : pickFault [(pg, qDeny (qNeed fn), 0)] = some (pg, qDeny (qNeed fn), 0) := by
    unfold pickFault
    grind
  simp only [translateSubs, qTranslateAll, qTranslate_denied hc hbit, hfn, ↓reduceIte, hp]

/-! ## Acceptance -/

/-- A query joins the list of those that run. -/
def State.queue (s : State) (q : QueryRun) : State := { s with queries := s.queries.filter (fun x => x.id != q.id) ++ [q] }
/-- The thread's next instruction, with vstart 0 (R116). -/
def State.retire (s : State) : State := (s.modCur (fun t => { t with vstart := 0 })).advance

variable {q : QueryRun} {u : State} {cs : List SubCmd}

/-- Accepted sub-commands are no faults, whatever is made of those. -/
theorem filterMap_faults {β : Type} {f : SubRes × Nat → Option β} (hf : ∀ c n, f (.ok c, n) = none) (cs : List SubCmd) :
    ((cs.map .ok).zipIdx).filterMap f = [] := by
  rw [List.filterMap_eq_nil_iff]
  rintro ⟨r, n⟩ hp
  obtain ⟨c, -, rfl⟩ := List.mem_map.1 (List.fst_mem_of_mem_zipIdx hp)
  exact hf c n

theorem filterMap_accepted {f : SubRes → Option SubCmd} (hf : ∀ c, f (.ok c) = some c) (cs : List SubCmd) :
    ((cs.map .ok).takeWhile (fun r : SubRes => r.isOk)).filterMap f = cs := by
  rw [List.takeWhile_eq_self_iff.2 (by simp [Except.isOk, Except.toBool]), List.filterMap_map, show f ∘ Except.ok = some from funext hf]
  exact List.filterMap_some

/-- A query none of whose sub-commands is refused: nothing is left to accept, all are accepted, or the next of a query that modifies
(R98, R100). -/
theorem acceptSubs_ok (hs : q.subs = [])
    (h : translateSubs s q.rq q.fn (QBlk.ofBits q.block) (((QBlk.ofBits q.block).pagesOf (QBlk.ofBits q.block).base).drop q.first)
      = (u, cs.map .ok)) :
    acceptSubs s q =
      if cs = [] then .next u.retire
      else if modifies q.fn = false ∨ u.curC.step = true ∨ cs.length ≤ 1 then .next (u.queue (q.accept cs false)).retire
      else .next ((u.queue (q.accept (cs.take 1) true)).modCur (fun t => { t with vstart := BitVec.ofNat 12 (q.first + 1) })) := by
  unfold acceptSubs
  simp only [hs, List.length_nil, Nat.add_zero, h]
  rw [filterMap_faults (fun _ _ => rfl), filterMap_accepted (fun _ => rfl)]
  by_cases h0 : cs = []
  · rw [if_pos h0, h0]; rfl
  rw [if_neg h0]
  have he : cs.isEmpty = false := by rw [List.isEmpty_eq_false_iff]; exact h0
  by_cases hall : modifies q.fn = false ∨ u.curC.step = true ∨ cs.length ≤ 1
  · rw [if_pos hall]
    have hall' : (!modifies q.fn || u.curC.step || decide (cs.length ≤ 1)) = true := by simpa [or_assoc] using hall
    simp only [List.isEmpty_nil, he, hall', Bool.true_and, Bool.and_false, Bool.false_eq_true, ↓reduceIte]
    rfl
  · rw [if_neg hall]
    simp only [not_or, Bool.not_eq_false, Bool.not_eq_true, Nat.not_le] at hall
    obtain ⟨hm, hstep, hlen⟩ := hall
    have h1 : (cs.take 1).length = 1 := by rw [List.length_take]; omega
    have hmany : decide (cs.length ≤ 1) = false := by simpa using hlen
    simp only [List.isEmpty_nil, he, hm, hstep, hmany, hlen, h1, Bool.true_and, Bool.and_false, Bool.not_true, Bool.or_false,
      Bool.false_eq_true, ↓reduceIte]
    rfl

/-- A query of no modification whose only sub-command is refused starts nothing (R98, R115). -/
theorem acceptSubs_refused {pg r w : Nat} (hs : q.subs = []) (hf : q.first = 0) (hm : modifies q.fn = false)
    (h : translateSubs s q.rq q.fn (QBlk.ofBits q.block) ((QBlk.ofBits q.block).pagesOf (QBlk.ofBits q.block).base) = (u, [.error (pg, r, w)])) :
    acceptSubs s q = .next (queryPageFault (u.modCur (fun t => { t with vstart := 0 })) q.fn [(0, pg, r, w)] false) := by
  unfold acceptSubs
  simp only [hs, hf, List.length_nil, Nat.add_zero, List.drop_zero, h]
  simp [hm, Except.isOk, Except.toBool]

end Sys2Proof.Machine
end

section
/-!
PROOFS. Queries at issue (spec 06 R94 to R98, R100, R113, R115).
-/

namespace Sys2Proof.Machine

variable {s s1 u : State}

/-! ## The state after an acceptance -/

theorem modifies_iff {fn : Nat} : modifies fn = true ↔ fn ≤ 1 ∨ fn = 8 := by
  simp only [modifies, Bool.or_eq_true, decide_eq_true_eq]
  omega

theorem Thread.advance_vstart (t : Thread) : t.advance.vstart = t.vstart := by
  have h := congrArg Thread.vstart t.advance_frame
  exact h

theorem State.sreg_retire (s : State) (r : SReg) : s.retire.sreg r = s.sreg r := by
  rw [State.sreg, State.retire, State.cur_advance, Thread.sreg_advance, State.cur_modCur]; rfl
theorem State.retire_pc (s : State) : s.retire.cur.pc = s.cur.advance.pc := by
  rw [State.retire, State.cur_advance, State.cur_modCur]
  exact Thread.advance_pc_congr rfl rfl rfl rfl rfl
theorem State.retire_vstart (s : State) : s.retire.cur.vstart = 0 := by
  rw [State.retire, State.cur_advance, Thread.advance_vstart, State.cur_modCur]
theorem State.byteAt_retire (s : State) : SameBytes s s.retire := fun p => (byteAt_advance _ p).trans (State.byteAt_modCur s _ p)

/-- How many of n sub-commands are accepted now: all, or the next of a query that modifies, so that a stop may come between two (R98, R100). -/
def acceptedNow (fn : Nat) (step : Bool) (n : Nat) : Nat := if fn ≤ 1 ∨ fn = 8 then (if step = true then n else min 1 n) else n

/-- A fresh query each of whose pages permits it (R98, R113): what is accepted, where the thread stands, and that nothing else changes. -/
theorem acceptSubs_permitted {q : QueryRun} (hs : q.subs = []) (left : List (Nat × Nat × Nat))
    (hl : ((QBlk.ofBits q.block).pagesOf (QBlk.ofBits q.block).base).drop q.first = left)
    (h : ∀ p ∈ left, s.PermitsQ q.part (qNeed q.fn) (modifies q.fn) p.1
      ∧ (q.fn = 7 → ∀ pg ∈ (QBlk.ofBits q.block).rowPages (QBlk.ofBits q.block).aux1 p.2.1 p.2.2, s.PermitsQ q.part (qNeed q.fn) (modifies q.fn) pg)) :
    let now := acceptedNow q.fn s.curC.step left.length
    ∃ t, acceptSubs s q = .next t ∧ (∀ y, t.sreg y = s.sreg y) ∧ SameBytes s t
      ∧ (now = left.length → t.cur.pc = s.cur.advance.pc ∧ t.cur.vstart = 0)
      ∧ (now < left.length → t.cur.pc = s.cur.pc ∧ t.cur.vstart.toNat = (q.first + now) % 4096)
      ∧ (left = [] → t.queries = s.queries)
      ∧ (left ≠ [] → ∃ cs, t.queries = s.queries.filter (fun y => y.id != q.id) ++ [q.accept cs (decide (now < left.length))]
        ∧ cs.map (fun c => c.qpage) = (left.take now).map (fun p => p.1) ∧ ∀ c ∈ cs, s.AcceptedAs q.part c) := by
  intro now
  obtain ⟨us, cs, ht, hpages, hcs⟩ := translateSubs_permitted (rq := q.rq) (b := QBlk.ofBits q.block) h
  have hlen : cs.length = left.length := by simpa using congrArg List.length hpages
  rw [acceptSubs_ok hs (by rw [hl]; exact ht)]
  by_cases h0 : cs = []
  · have hleft : left = [] := List.length_eq_zero_iff.1 (by rw [← hlen, h0]; rfl)
    have hn : ¬ now < left.length := by rw [hleft]; exact Nat.not_lt_zero _
    rw [if_pos h0]
    exact ⟨_, rfl, State.sreg_retire _, State.byteAt_retire _, fun _ => ⟨State.retire_pc _, State.retire_vstart _⟩, fun h => absurd h hn,
      fun _ => rfl, fun h => absurd hleft h⟩
  have hne : left ≠ [] := fun e => h0 (List.length_eq_zero_iff.1 (by rw [hlen, e]; rfl))
  rw [if_neg h0]
  by_cases hall : modifies q.fn = false ∨ (s.withUsers us).curC.step = true ∨ cs.length ≤ 1
  · have hn : now = left.length := by
      show acceptedNow q.fn s.curC.step left.length = left.length
      unfold acceptedNow
      rcases hall with hm | hstep | hone
      · rw [if_neg (by rw [← modifies_iff, hm]; exact Bool.false_ne_true)]
      · rw [if_pos (show s.curC.step = true from hstep), ite_self]
      · rw [Nat.min_eq_right (by have := List.length_pos_iff.2 hne; omega)]
        have := List.length_pos_iff.2 hne
        split <;> (try split) <;> omega
    rw [if_pos hall]
    refine ⟨_, rfl, State.sreg_retire _, State.byteAt_retire _, fun _ => ⟨State.retire_pc _, State.retire_vstart _⟩,
      fun h => absurd hn (Nat.ne_of_lt h), fun h => absurd h hne, fun _ => ⟨cs, ?_, ?_, hcs⟩⟩
    · rw [hn, decide_eq_false (Nat.lt_irrefl _)]; rfl
    · rw [hn, List.take_length, hpages]
  · rw [if_neg hall]
    simp only [not_or, Bool.not_eq_false, Nat.not_le] at hall
    obtain ⟨hm, hstep, hmany⟩ := hall
    have hn : now = 1 := by
      show acceptedNow q.fn s.curC.step left.length = 1
      rw [acceptedNow, if_pos (modifies_iff.1 hm), if_neg (show ¬ s.curC.step = true from hstep)]
      omega
    have hlt : now < left.length := by omega
    refine ⟨_, rfl, fun r => ?_, State.byteAt_modCur _ _, fun h => absurd h (Nat.ne_of_lt hlt), fun _ => ⟨?_, ?_⟩, fun h => absurd h hne,
      fun _ => ⟨cs.take 1, ?_, ?_, fun c hc => hcs c (List.mem_of_mem_take hc)⟩⟩
    · rw [State.sreg, State.cur_modCur]; rfl
    · rw [State.cur_modCur]; rfl
    · rw [State.cur_modCur, hn]; exact BitVec.toNat_ofNat _ _
    · rw [decide_eq_true hlt]; rfl
    · rw [hn, List.map_take, hpages, List.map_take]

/-! ## The checks in order (R96) -/

/-- Bytes of query vectors or of source rows (R95). -/
def QBlk.vecLen (q : QBlk) (fn : Nat) : Nat := if fn ≤ 1 then q.rows * q.rlen else if q.readsVec fn then q.nq * q.rlen else 0
/-- The scratchpad areas of a query: vectors or rows, the parameters of a qupd, the reply (R96). -/
def QBlk.areas (q : QBlk) (fn : Nat) (bnd : Bool) (reply : Word) : List (Word × Nat) :=
  (if q.vecLen fn != 0 then [(BitVec.ofNat 64 q.vec, q.vecLen fn)] else []) ++ (if fn = 8 then [(BitVec.ofNat 64 q.aux2, 32)] else [])
    ++ (if fn ≤ 1 then [] else [(reply, q.y fn bnd)])

theorem areas_vec_misaligned {q : QBlk} {fn : Nat} {bnd : Bool} {reply : Word} (hv : q.vecLen fn ≠ 0) (hlt : q.vec < 2 ^ 64) (hm : q.vec % 16 ≠ 0) :
    (q.areas fn bnd reply).findSome? (fun x => areaTrapQ s x.1 x.2) = some (mkTrap 0x03 (BitVec.ofNat 64 q.vec) 0) := by
  have h : areaTrapQ s (BitVec.ofNat 64 q.vec) (q.vecLen fn) = _ :=
    areaTrapQ_misaligned (by rw [BitVec.toNat_ofNat, Nat.mod_eq_of_lt hlt]; exact hm)
  simp [QBlk.areas, hv, h]

/-- Where vectors and parameters are the context's, the reply's area decides. -/
theorem areas_owned {q : QBlk} {fn : Nat} {bnd : Bool} {reply : Word} (hv : q.vecLen fn ≠ 0 → s.Owns q.vec (q.vecLen fn))
    (hp : fn = 8 → s.Owns q.aux2 32) :
    (q.areas fn bnd reply).findSome? (fun x => areaTrapQ s x.1 x.2) = if fn ≤ 1 then none else areaTrapQ s reply (q.y fn bnd) := by
  have h1 : (if q.vecLen fn != 0 then [(BitVec.ofNat 64 q.vec, q.vecLen fn)] else []).findSome? (fun x => areaTrapQ s x.1 x.2) = none := by
    split
    · next h => simpa using areaTrapQ_owned (hv (bne_iff_ne.1 h))
    · rfl
  have h2 : (if fn = 8 then [(BitVec.ofNat 64 q.aux2, 32)] else []).findSome? (fun x => areaTrapQ s x.1 x.2) = none := by
    split
    · next h => simpa using areaTrapQ_owned (hp h)
    · rfl
  rw [QBlk.areas, List.findSome?_append, List.findSome?_append, h1, h2]
  split
  · rfl
  · simp

/-- A query that starts at s, with all that is read at issue (R98). -/
structure FreshQuery (s : State) (fn : Nat) (b : SReg) (fl : QueryFlags) (blk : BitVec 512) (vec params : List Byte) (reply : Nat) (q : QueryRun) :
    Prop where
  id : q.id = s.nextId
  member : q.fn = fn
  fl : q.fl = fl
  block : q.block = blk
  vec : q.vec = vec
  params : q.params = params
  counter : q.counter = if b = 0 then none else some (s.sreg b)
  reply : q.reply = reply
  core : q.core = s.curCore
  tid : q.tid = s.curTid
  req : q.rq = s.curReq
  launch : q.launch = s.cur.launchOf
  first : q.first = if modifies fn then min s.cur.vstart.toNat ((QBlk.ofBits blk).pagesOf (QBlk.ofBits blk).base).length else 0
  subs : q.subs = []
  total : q.total = ((QBlk.ofBits blk).pagesOf (QBlk.ofBits blk).base).length
  read : q.read = []

theorem startQuery_fresh (fn : Nat) (b : SReg) (fl : QueryFlags) (blk : BitVec 512) (vec params : List Byte) (reply : Nat) (pages : List UsedPage)
    (s : State) : ∃ q, FreshQuery s fn b fl blk vec params reply q
      ∧ startQuery fn b fl blk vec params reply pages s = acceptSubs { s with nextId := s.nextId + 1 } q :=
  ⟨_, ⟨rfl, rfl, rfl, rfl, rfl, rfl, rfl, rfl, rfl, rfl, rfl, rfl, rfl, rfl, rfl, rfl⟩, rfl⟩

variable {fn : Nat} {a b c : SReg} {fl : QueryFlags}

section
variable {q : QBlk} (hx : (s.sreg a).toNat % 64 = 0) (ho : s.Owns (s.sreg a).toNat 64)
include hx ho

theorem issueQuery_misshapen {r : Nat}
    (hr : shapeFault fn (QBlk.ofBits (BitVec.ofNat 512 (Mem.num s.curC.spad (s.sreg a).toNat 64))) fl.bnd = some r) :
    issueQuery fn a b c fl s = .next (s.trap (mkTrap 0x09 (BitVec.ofNat 64 r) 0)) := by
  rw [issueQuery, withQBlock_owned _ hx ho]
  simp only [hr]
  rfl

/-- A query of good shape: the areas are checked, then the counter, and then it starts. -/
theorem issueQuery_shaped {blk : BitVec 512} (hblk : BitVec.ofNat 512 (Mem.num s.curC.spad (s.sreg a).toNat 64) = blk)
    (hs : shapeFault fn (QBlk.ofBits blk) fl.bnd = none) :
    ∃ k : State → Out, issueQuery fn a b c fl s
        = (match ((QBlk.ofBits blk).areas fn fl.bnd (if fn ≤ 1 then 0 else s.sreg c)).findSome? (fun x => areaTrapQ s x.1 x.2) with
          | some t => .next (s.trap t)
          | none => counterCheck s b k)
      ∧ ∀ s1 : State, (QBlk.ofBits blk).x fn = 0 → ((QBlk.ofBits blk).vecLen fn ≠ 0 → s1.Owns (QBlk.ofBits blk).vec ((QBlk.ofBits blk).vecLen fn))
        → (fn = 8 → s1.Owns (QBlk.ofBits blk).aux2 32)
        → k s1 = startQuery fn b fl blk (if fn ≤ 1 then [] else Mem.bytes s1.curC.spad (QBlk.ofBits blk).vec ((QBlk.ofBits blk).vecLen fn))
          (if fn = 8 then Mem.bytes s1.curC.spad (QBlk.ofBits blk).aux2 32 else []) (if fn ≤ 1 then 0 else s.sreg c).toNat [] s1 := by
  rw [issueQuery, withQBlock_owned _ hx ho, hblk]
  simp only [hs]
  refine ⟨_, rfl, fun s1 hxp hv hp => ?_⟩
  have hbad : (fn ≥ 2 && (QBlk.ofBits blk).vecLen fn != 0 && s1.curC.spadPoisoned (QBlk.ofBits blk).vec ((QBlk.ofBits blk).vecLen fn)
      || fn = 8 && s1.curC.spadPoisoned (QBlk.ofBits blk).aux2 32) = false := by
    have h1 : ((QBlk.ofBits blk).vecLen fn != 0 && s1.curC.spadPoisoned (QBlk.ofBits blk).vec ((QBlk.ofBits blk).vecLen fn)) = false := by
      by_cases h : (QBlk.ofBits blk).vecLen fn = 0
      · simp [h]
      · simp [(hv h).clean]
    have h2 : (decide (fn = 8) && s1.curC.spadPoisoned (QBlk.ofBits blk).aux2 32) = false := by
      by_cases h : fn = 8
      · simp [(hp h).clean]
      · simp [h]
    rw [h2, Bool.and_assoc, h1]
    simp
  rw [if_pos hxp]
  simp only [QBlk.vecLen] at hbad ⊢
  simp only [hbad]
  rfl

end

/-! ## The statement -/

/-- A member of the query group is its check and acceptance; qwr and qfold have no reply register. -/
theorem exec_query {i : Instr} (s : State)
    (hi : (i, fn) ∈ [(.qwr a b fl, 0), (.qfold a b fl, 1), (.qdot a b c fl, 2), (.qfsum a b c fl, 3), (.qcnt a b c fl, 4), (.qmaxi a b c fl, 5),
      (.qtopk a b c fl, 6), (.qattn a b c fl, 7), (.qupd a b c fl, 8)]) : fn ≤ 8 ∧ exec i s = issueQuery fn a b c fl s := by
  simp only [List.mem_cons, Prod.mk.injEq, List.not_mem_nil, or_false] at hi
  rcases hi with ⟨rfl, rfl⟩ | ⟨rfl, rfl⟩ | ⟨rfl, rfl⟩ | ⟨rfl, rfl⟩ | ⟨rfl, rfl⟩ | ⟨rfl, rfl⟩ | ⟨rfl, rfl⟩ | ⟨rfl, rfl⟩ | ⟨rfl, rfl⟩ <;>
    exact ⟨by decide, rfl⟩

theorem QBlk.vec_lt (blk : BitVec 512) : (QBlk.ofBits blk).vec < 2 ^ 64 :=
  lt_of_lt_of_le (Nat.mod_lt _ (Nat.two_pow_pos _)) (Nat.pow_le_pow_right (by decide) (by decide))

/-- Settles O47: the checks are made in their order; then each sub-command whose pages have live entries that permit it is accepted. -/
theorem queryIssue : Obligations.QueryIssue := by
  unfold Obligations.QueryIssue
  intro s s1 a b c fl i fn hi x blk q own vecLen pages first need cached permits
  obtain ⟨hfn, hexec⟩ := exec_query s hi
  rw [hexec]
  refine ⟨fun hx => withQBlock_misaligned _ hx, fun hx ho => ⟨fun r hr => issueQuery_misshapen hx ho hr, fun hshape => ?_⟩⟩
  obtain ⟨k, hk, hstart⟩ := issueQuery_shaped (b := b) (c := c) hx ho rfl hshape
  rw [hk]
  refine ⟨fun hv hm => ?_, fun hv h2 h8 hm => ?_, fun hv hp hreply => ?_⟩
  · rw [areas_vec_misaligned hv (QBlk.vec_lt blk) hm]
  · rw [areas_owned (fun h => absurd hv h) (fun h => absurd h h8), if_neg (by omega), if_neg (by omega), areaTrapQ_misaligned hm]
  rw [areas_owned hv hp]
  refine ⟨fun h2 hout => ?_, fun hroom => ?_⟩
  · obtain ⟨ha, hend⟩ := hreply h2
    rw [if_neg (by omega), if_neg (by omega), areaTrapQ_outside ha hend hout]
  have hnone : (if fn ≤ 1 then none else areaTrapQ s (if fn ≤ 1 then 0 else s.sreg c) ((QBlk.ofBits blk).y fn fl.bnd)) = none := by
    by_cases h1 : fn ≤ 1
    · rw [if_pos h1]
    · obtain ⟨ha, hend⟩ := hreply (by omega)
      rw [if_neg h1, if_neg h1]
      exact areaTrapQ_none ha hend (hroom (by omega))
  rw [hnone]
  refine ⟨counterCheck_outside, counterCheck_misaligned, fun f => counterCheck_refused, fun h0 h1 hv1 hp1 => ?_⟩
  have hctr : CounterOk s b s1 := ⟨h0, h1⟩
  have hcur : s1.cur = s.cur := hctr.translated.cur
  have hxp : (QBlk.ofBits blk).x fn = 0 := by
    unfold QBlk.x
    by_cases h8 : fn = 8
    · obtain ⟨hxf, -⟩ := hp1 h8
      rw [if_neg (by simpa using fun _ => hxf)]
    · simp [h8]
  intro left now
  rw [counterCheck_ok hctr, hstart s1 hxp hv1 (fun h8 => (hp1 h8).2)]
  obtain ⟨run, hrun, hgo⟩ := startQuery_fresh fn b fl blk (if fn ≤ 1 then [] else Mem.bytes s1.curC.spad (QBlk.ofBits blk).vec ((QBlk.ofBits blk).vecLen fn))
    (if fn = 8 then Mem.bytes s1.curC.spad (QBlk.ofBits blk).aux2 32 else []) (if fn ≤ 1 then 0 else s.sreg c).toNat [] s1
  rw [hgo]
  have hfirst : run.first = first := by
    rw [hrun.first, hcur]
    simp only [modifies_iff]
    rfl
  have hpart : run.part = s1.curPart := by have := congrArg XReq.part hrun.req; exact this
  have hctx : run.ctx = s1.cur.ctxOf := by have := congrArg XReq.ctx hrun.req; exact this
  refine ⟨fun hperm => ?_, fun pg lo hi e hone h2 h7 hc hbit => ?_⟩
  · have hpermits {pg : Nat} (h : permits pg) : s1.PermitsQ run.part (qNeed run.fn) (modifies run.fn) pg := by
      obtain ⟨e, hc, hbit, hst⟩ := h
      rw [hpart, hrun.member]
      exact ⟨e, hc, hbit, hst.imp_right fun ⟨h1, h2, h8⟩ => ⟨h1, by rw [Bool.eq_false_iff, ne_eq, modifies_iff]; omega⟩⟩
    obtain ⟨t, ht, hreg, hbytes, hall, hsome, hnil, hcons⟩ := acceptSubs_permitted (s := { s1 with nextId := s1.nextId + 1 }) hrun.subs left
      (by rw [hrun.block, hfirst]) (fun p hp => by
        obtain ⟨hp1, hp7⟩ := hperm p hp
        exact ⟨hpermits hp1, fun h7 pg hpg => hpermits (hp7 (hrun.member.symm.trans h7) pg (by rwa [hrun.block] at hpg))⟩)
    rw [hrun.member, hfirst] at hsome
    rw [hrun.member] at hall hcons
    refine ⟨t, ht, hreg, hbytes, hall, hsome, hnil, fun hne => ?_⟩
    obtain ⟨cs, hqs, hpages, hcs⟩ := hcons hne
    rw [hrun.id] at hqs
    rw [hpart] at hcs
    have hsubs (more : Bool) : (run.accept cs more).subs = cs := by rw [QueryRun.accept, hrun.subs]; rfl
    refine ⟨_, hqs, hrun.id, hrun.member, hrun.fl, hrun.block, hrun.core, hrun.tid, hpart, hctx, hrun.launch, hfirst, hrun.total, hrun.read,
      decide_eq_true_iff, ?_, fun h2 => ?_, fun h2 => ?_, fun h8 => ?_, (congrArg (List.map _) (hsubs _)).trans hpages,
      fun y hy => hcs y (hsubs _ ▸ hy)⟩
    · refine hrun.counter.trans ?_
      rw [State.sreg, hcur]; rfl
    · refine hrun.reply.trans ?_
      rw [if_neg (by omega)]
    · refine hrun.vec.trans ?_
      rw [if_neg (by omega)]; rfl
    · refine hrun.params.trans ?_
      rw [if_pos h8]
  · have hm : modifies fn = false := by rw [Bool.eq_false_iff, ne_eq, modifies_iff]; omega
    have hneed : qNeed fn = 3 := by rw [qNeed, if_neg (by omega), if_neg (by omega)]
    have hzero : run.first = 0 := by rw [hrun.first, hm]; rfl
    have hden := translateSubs_denied (s := { s1 with nextId := s1.nextId + 1 }) (rq := run.rq) (fn := fn) (lo := lo) (hi := hi) (b := q) (e := e)
      (by rw [show run.rq.part = s1.curPart from hpart]; exact hc) (by rw [hneed]; exact hbit) (by omega)
    rw [hneed, hrun.req] at hden
    have hgo := acceptSubs_refused (s := { s1 with nextId := s1.nextId + 1 }) hrun.subs hzero (by rw [hrun.member]; exact hm)
      (by rw [hrun.block, hrun.req, hrun.member, show (QBlk.ofBits blk).pagesOf _ = _ from hone]; exact hden)
    rw [hrun.member] at hgo
    exact hgo

end Sys2Proof.Machine
end

section
/-!
PROOFS. Translations keep who the current thread is and acts for (spec 04 R53 to R61; 06 R112, R113).
-/

namespace Sys2Proof.Machine

-- One proof at a time, as for the current thread's place.
set_option Elab.async false

variable {a s : State}

/-! ## Partitions -/

/-- The partitions are as they were. -/
def SameParts (a s : State) : Prop := s.parts = a.parts

theorem parts_orPte {bits pa : Nat} (h : SameParts a s) : SameParts a (orPte s bits pa) := by
  unfold orPte
  split
  · exact h
  · split <;> exact h

theorem parts_foldl {α : Type} {f : State → α → State} {l : List α} (h : SameParts a s) (hf : ∀ s x, SameParts a s → SameParts a (f s x)) :
    SameParts a (l.foldl f s) := by
  induction l generalizing s with
  | nil => exact h
  | cons x l ih => exact ih (hf s x h)

theorem parts_noteUse {ag : XAgent} {rq : XReq} (h : SameParts a s) : SameParts a (s.noteUse ag rq) := by
  unfold State.noteUse; split <;> exact h

theorem parts_noteAts {f : FuncId} {t : Tgt} (h : SameParts a s) : SameParts a (s.noteAts f t) := by
  unfold State.noteAts
  split
  · split <;> exact h
  · exact h

theorem parts_unitAdd {u : XUnit} {e : TlbEntry} (h : SameParts a s) : SameParts a (unitAdd s u e) := by cases u <;> exact h
theorem parts_unitDrop {u : XUnit} {rq : XReq} {vpn : Nat} (h : SameParts a s) : SameParts a (unitDrop s u rq vpn) := by cases u <;> exact h

theorem parts_cacheWalk {u : XUnit} {rq : XReq} {va : Nat} {w : Walked} (h : SameParts a s) : SameParts a (cacheWalk s u rq va w) := by
  have hcl (c : ClusterId) (f : ClusterX → ClusterX) : SameParts a (s.modCluster c f) := h
  unfold cacheWalk
  grind [parts_unitAdd]

theorem parts_walkLeaf {u : XUnit} {rq : XReq} {write again : Bool} {va : Nat} (h : SameParts a s) :
    SameParts a (walkLeaf s u rq write again va).1 := by
  have hcore (k : CoreId) (f : Core → Core) : SameParts a (s.modCore k f) := h
  unfold walkLeaf
  grind [parts_foldl, parts_orPte]

theorem parts_leafOf {u : XUnit} {rq : XReq} {write again : Bool} {va : Nat} (h : SameParts a s) :
    SameParts a (leafOf s u rq write again va).1 := by
  unfold leafOf
  extract_lets vpn usable s0 walk
  have h0 : SameParts a s0 := parts_noteUse h
  have hwalk (s : State) (hs : SameParts a s) : SameParts a (walk s).1 := by
    grind [parts_noteUse, parts_walkLeaf, parts_cacheWalk]
  clear_value walk s0
  split
  · exact hwalk _ (parts_unitDrop h0)
  · split
    · grind [parts_unitDrop]
    · have h1 : SameParts a (match u with | .gather k => s0.modCore k (fun c => c.count 6 (unitTid s0 u) 1) | _ => s0) := by
        split <;> exact h0
      grind [parts_noteUse, parts_unitAdd]

theorem parts_checkLeaf {rq : XReq} {k : AccKind} {va : Word} {hostOk : Bool} {lf : LeafInfo} (h : SameParts a s) :
    SameParts a (checkLeaf s rq k va hostOk lf).1 := by
  unfold checkLeaf
  grind [parts_noteAts]

theorem parts_translate {u : XUnit} {rq : XReq} {k : AccKind} {va : Word} {hostOk : Bool} (h : SameParts a s) :
    SameParts a (translate s u rq k va hostOk).1 := by
  unfold translate
  grind [parts_checkLeaf, parts_leafOf]

/-! ## The current thread's translations -/

/-- From a translations have been made, s is the state after: the same thread is the current one, with its registers, its partition and its
allocations. -/
structure Resolved (a s : State) : Prop where
  place : Translated a s
  parts : SameParts a s

namespace Resolved

theorem refl (s : State) : Resolved s s := ⟨Translated.refl s, rfl⟩

theorem trans {u : State} (h : Resolved a s) (g : Resolved s u) : Resolved a u := by
  obtain ⟨⟨h1, h2, h3⟩, hp⟩ := h
  obtain ⟨⟨g1, g2, g3⟩, gp⟩ := g
  refine ⟨⟨g1.trans h1, g2.trans h2, fun k => ?_⟩, gp.trans hp⟩
  exact (congrArg (fun c : Core => { c with
    scalarTlb := (a.core k).scalarTlb, vectorTlb := (a.core k).vectorTlb, gatherTlb := (a.core k).gatherTlb
    counters := (a.core k).counters }) (g3 k)).trans (h3 k)

theorem cur (h : Resolved a s) : s.cur = a.cur := h.place.cur
theorem curCore (h : Resolved a s) : s.curCore = a.curCore := h.place.1
theorem sreg (h : Resolved a s) (r : SReg) : s.sreg r = a.sreg r := by rw [State.sreg, h.cur]; rfl

theorem curPart (h : Resolved a s) : s.curPart = a.curPart := by
  simp only [State.curPart, State.corePart, State.part, h.cur, h.curCore, show s.parts = a.parts from h.parts]

theorem curAllocs (h : Resolved a s) : s.curAllocs = a.curAllocs := by
  obtain ⟨h1, -, h3⟩ := h.place
  have hr : s.curC.residents = a.curC.residents := by
    rw [State.curC, h1]
    have := congrArg Core.residents (h3 a.curCore)
    exact this
  simp only [State.curAllocs, Core.allocsOf, hr, h.curPart, h.cur]

end Resolved

theorem resolved_translate {u : XUnit} {rq : XReq} {k : AccKind} {va : Word} {hostOk : Bool} (h : Resolved a s) :
    Resolved a (translate s u rq k va hostOk).1 :=
  ⟨translated_translate h.place, parts_translate h.parts⟩

theorem resolved_noteUse {ag : XAgent} {rq : XReq} (h : Resolved a s) : Resolved a (s.noteUse ag rq) :=
  ⟨translated_noteUse h.place, parts_noteUse h.parts⟩

theorem resolved_areaPages {u : XUnit} {rq : XReq} {acc : AccKind} {hostOk : Bool} {used : List UsedPage} {va fuel n : Nat} (h : Resolved a s) :
    Resolved a (areaPages s u rq acc hostOk used va fuel n).1 := by
  induction fuel generalizing s used va n with
  | zero => exact h
  | succ fuel ih => unfold areaPages; grind [resolved_translate]

theorem resolved_qWalkMarked {f : FuncId} {qpage : Nat} (h : Resolved a s) : Resolved a (qWalkMarked s f qpage).1 := by
  have hfold (l : List Nat) : Resolved a (l.foldl (fun s pa => orPte s 0x40 pa) s) :=
    ⟨translated_foldl h.place fun _ _ hs => translated_orPte hs, parts_foldl h.parts fun _ _ hs => parts_orPte hs⟩
  unfold qWalkMarked
  split
  · exact hfold _
  · exact hfold _

theorem CounterOk.resolved {b : SReg} {s1 : State} (h : CounterOk s b s1) : Resolved s s1 := by
  obtain ⟨h0, h1⟩ := h
  by_cases hb : b = 0
  · rw [h0 hb]; exact Resolved.refl s
  · obtain ⟨-, -, tg, lf, ht, -⟩ := h1 hb
    have hs : s1 = (translate s (.scalar s.curCore) s.curReq .store (s.sreg b) true).1 := by rw [ht]
    rw [hs]
    exact resolved_translate (Resolved.refl s)

end Sys2Proof.Machine
end

section
/-!
PROOFS. The end of a page operation (spec 06 R117, R118): its reply, its Q PTE, and the frame that it fills.
-/

namespace Sys2Proof.Machine

variable {s t : State} {o : PageOpRun} {code : Nat}

/-! ## Frames of query memory -/

namespace Mem

theorem get_eq_zero_of_not_mem {m : Memory} {x : Nat} (h : ∀ c ∈ m, c.1 ≠ x) : get m x = 0 := by
  induction m with
  | nil => rfl
  | cons c m ih =>
    rw [List.forall_mem_cons] at h
    rw [get, if_neg (Ne.symm h.1), ih h.2]

/-- Cells lie over what was there. -/
theorem get_blit {m cells : Memory} {x : Nat} : get (blit m cells) x = if ∃ c ∈ cells, c.1 = x then get cells x else get m x := by
  induction cells with
  | nil => simp [blit]
  | cons c cells ih =>
    rw [show blit m (c :: cells) = set (blit m cells) c.1 c.2 from rfl, get_set, ih, get]
    by_cases hx : x = c.1
    · simp [hx]
    · simp [hx, Ne.symm hx]

/-- Where nothing was, the cells are what is there. -/
theorem get_blit_of_zero {m cells : Memory} {x : Nat} (h : get m x = 0) : get (blit m cells) x = get cells x := by
  rw [get_blit]
  split
  · rfl
  · next hn =>
    rw [h, get_eq_zero_of_not_mem fun c hc he => hn ⟨c, hc, he⟩]

theorem get_blit_outside {m cells : Memory} {x : Nat} (h : ∀ c ∈ cells, c.1 ≠ x) : get (blit m cells) x = get m x := by
  rw [get_blit, if_neg]
  rintro ⟨c, hc, he⟩
  exact h c hc he

theorem mem_slice {m : Memory} {a n b : Nat} {c : Host.Cell} (h : c ∈ slice m a n b) : b ≤ c.1 ∧ c.1 < b + n := by
  simp only [slice, List.mem_map, List.mem_filter, Bool.and_eq_true, decide_eq_true_eq] at h
  obtain ⟨d, ⟨-, h1, h2⟩, rfl⟩ := h
  exact ⟨by dsimp only; omega, by dsimp only; omega⟩

theorem get_slice {m : Memory} {a n b k : Nat} (hk : k < n) : get (slice m a n b) (b + k) = get m (a + k) := by
  induction m with
  | nil => rfl
  | cons c m ih =>
    rw [get, ← ih, slice, List.filter_cons]
    by_cases hin : a ≤ c.1 ∧ c.1 < a + n
    · rw [if_pos (by simpa using hin), List.map_cons, get]
      by_cases he : a + k = c.1
      · rw [if_pos he, if_pos (by omega)]
      · rw [if_neg he, if_neg (by omega)]; rfl
    · rw [if_neg (by simpa using hin), if_neg (by omega)]; rfl

/-- A frame that takes another's bytes. -/
theorem get_blit_slice {m : Memory} {a n b k : Nat} (hk : k < n) : get (blit (clear m b n) (slice m a n b)) (b + k) = get m (a + k) := by
  rw [get_blit_of_zero (by rw [get_clear, if_pos (by omega)]), get_slice hk]

theorem get_blit_slice_outside {m : Memory} {a n b x : Nat} (hx : x < b ∨ b + n ≤ x) :
    get (blit (clear m b n) (slice m a n b)) x = get m x := by
  rw [get_blit_outside fun c hc he => ?_, get_clear, if_neg (by omega)]
  have := mem_slice hc
  omega

/-- The bytes of a list as cells from b + i on, those that are zero left out. -/
def cellsOf (l : List Byte) (b i : Nat) : Memory := ((l.zipIdx i).filter (fun p => p.1 != 0)).map (fun p => (b + p.2, p.1))

theorem cellsOf_cons {v : Byte} {l : List Byte} {b i : Nat} :
    cellsOf (v :: l) b i = if v = 0 then cellsOf l b (i + 1) else (b + i, v) :: cellsOf l b (i + 1) := by
  rw [cellsOf, List.zipIdx_cons, List.filter_cons]
  by_cases hv : v = 0
  · rw [if_neg (by simp [hv]), if_pos hv]; rfl
  · rw [if_pos (by simpa using hv), if_neg hv]; rfl

theorem le_of_mem_cellsOf {l : List Byte} {b i : Nat} {c : Host.Cell} (h : c ∈ cellsOf l b i) : b + i ≤ c.1 := by
  simp only [cellsOf, List.mem_map, List.mem_filter] at h
  obtain ⟨p, ⟨hp, -⟩, rfl⟩ := h
  exact Nat.add_le_add_left (List.le_snd_of_mem_zipIdx hp) b

theorem get_cellsOf {l : List Byte} {b i k : Nat} : get (cellsOf l b i) (b + (i + k)) = l.getD k 0 := by
  induction l generalizing i k with
  | nil => rfl
  | cons v l ih =>
    have hrest : get (cellsOf l b (i + 1)) (b + (i + k)) = if k = 0 then 0 else (v :: l).getD k 0 := by
      cases k with
      | zero => exact get_eq_zero_of_not_mem fun c hc => by have := le_of_mem_cellsOf hc; omega
      | succ k => rw [if_neg (by omega), show i + (k + 1) = i + 1 + k by omega, ih]; rfl
    rw [cellsOf_cons]
    by_cases hv : v = 0
    · rw [if_pos hv, hrest]
      split
      · next hk => simp [hk, hv]
      · rfl
    · rw [if_neg hv, get, hrest]
      by_cases hk : k = 0
      · simp [hk]
      · rw [if_neg (by omega), if_neg hk]

end Mem

theorem destFrame_eq (v : Word) : destFrame v = (v.toNat % 64, v.toNat / 64 % 2 ^ 17) := by
  simp [destFrame, bitsOf]

/-! ## Q PTEs -/

theorem qpteWith_lt {e st stack fr gen : Nat} : qpteWith e st stack fr gen < 2 ^ 64 := by
  simp only [qpteWith, bitsOf]
  omega

theorem writeQpte_wm {pa e : Nat} (h : pa + 8 ≤ 0x18000000000) : writeQpte s pa e = { s with wm := Mem.setNum s.wm pa 8 e } := if_pos h

theorem num_setQpte {m : Memory} {pa e st stack fr gen : Nat} :
    Mem.num (Mem.setNum m pa 8 (qpteWith e st stack fr gen)) pa 8 = qpteWith e st stack fr gen := by
  rw [Mem.num_setNum, Nat.mod_eq_of_lt]
  exact lt_of_lt_of_le qpteWith_lt (by decide)

theorem byteAt_setNum {pa n e : Nat} {p : Place} (hp : ∀ k, k < n → p ≠ .wm (pa + k)) :
    ({ s with wm := Mem.setNum s.wm pa n e } : State).byteAt p = s.byteAt p := by
  cases p with
  | wm b =>
    refine Mem.get_setBytes_out (outside_of_ne fun i hi e => ?_)
    rw [leBytes_length] at hi
    exact hp i hi (by rw [e])
  | _ => rfl

/-! ## The reply -/

/-- The status reply of a page operation (R117). -/
def statusReply (code : Nat) (now : Word) : List Byte := leBytes 4 code ++ leBytes 4 0 ++ leBytes 8 now.toNat

theorem statusReply_length (now : Word) : (statusReply code now).length = 16 := by simp [statusReply]

theorem statusReply_fields (now : Word) (h : code < 2 ^ 32) : fieldAt (statusReply code now) 0 4 = code ∧ fieldAt (statusReply code now) 4 4 = 0
    ∧ fieldAt (statusReply code now) 8 8 = now.toNat := by
  refine ⟨?_, ?_, ?_⟩ <;> simp [fieldAt, statusReply, leNat_leBytes, List.drop_append, List.take_of_length_le, List.drop_of_length_le]
  · exact h
  · exact now.isLt

/-- From s the operation o has ended with a status: the reply has landed and o is gone. -/
structure Finished (s t : State) (o : PageOpRun) (code : Nat) : Prop where
  landed : Landed s { t with pageOps := s.pageOps } o.core o.reply (statusReply code s.time)
  ops : t.pageOps = s.pageOps.filter (fun x => x.id != o.id)

/-- There is room for the reply among what the context owns now. -/
def State.HasRoom (s : State) (o : PageOpRun) : Prop := rangeInAllocs ((s.core o.core).allocsOf o.part o.launch) o.reply 16 = true

/-- An operation without a counter ends with its reply alone. -/
theorem finished_finishPageOp (hc : o.counter = none) (h : s.HasRoom o) : Finished s (finishPageOp s o code) o code := by
  have hland := landed_landReply (s := s) (k := o.core) (a := o.reply) (bs := statusReply code s.time)
    (by rw [statusReply_length]; exact h) (fun _ => false) true o.crit
  have heq : finishPageOp s o code =
      let u := landReply s o.core ((s.core o.core).allocsOf o.part o.launch) o.reply (statusReply code s.time) (fun _ => false) true o.crit
      { u with pageOps := u.pageOps.filter (fun x => x.id != o.id) } := by
    simp only [finishPageOp, queryCount, hc]
    rfl
  rw [heq]
  generalize landReply s o.core _ o.reply _ _ _ _ = u at hland
  have hops : u.pageOps = s.pageOps := by have := congrArg State.pageOps hland.outside; exact this
  refine ⟨?_, by rw [← hops]⟩
  rw [← hops]
  exact hland

namespace Finished

theorem num (h : Finished s t o code) (hcode : code < 2 ^ 32) : Mem.num (t.core o.core).spad o.reply 4 = code
    ∧ Mem.num (t.core o.core).spad (o.reply + 4) 4 = 0 ∧ Mem.num (t.core o.core).spad (o.reply + 8) 8 = s.time.toNat := by
  have hl := h.landed
  obtain ⟨h1, h2, h3⟩ := statusReply_fields s.time hcode
  exact ⟨(hl.num (by rw [statusReply_length]; decide)).trans h1, (hl.num (by rw [statusReply_length]; decide)).trans h2,
    (hl.num (by rw [statusReply_length])).trans h3⟩

/-- No operation of its number is left. -/
theorem gone (h : Finished s t o code) : ∀ y ∈ t.pageOps, y.id ≠ o.id := by
  intro y hy
  rw [h.ops] at hy
  simpa using (List.mem_filter.1 hy).2

theorem byteAt (h : Finished s t o code) {p : Place} (hp : ∀ k, k < 16 → p ≠ .spad o.core (o.reply + k)) : t.byteAt p = s.byteAt p :=
  h.landed.byteAt (by rw [statusReply_length]; exact hp)

theorem wm (h : Finished s t o code) : t.wm = s.wm := h.landed.wm
theorem qmem (h : Finished s t o code) : t.qmem = s.qmem := h.landed.qmem
theorem curCore (h : Finished s t o code) : t.curCore = s.curCore := h.landed.curCore
theorem parts (h : Finished s t o code) : t.parts = s.parts := by have := congrArg State.parts h.landed.outside; exact this
theorem seals (h : Finished s t o code) : t.seals = s.seals := by have := congrArg State.seals h.landed.outside; exact this
theorem advance_pc (h : Finished s t o code) : t.cur.advance.pc = s.cur.advance.pc := h.landed.advance_pc

end Finished

/-- What a page operation's end says of the state t after it: the reply at the time of s, and o gone. -/
def State.Replied (s t : State) (o : PageOpRun) (code : Nat) : Prop :=
  Mem.num (t.core o.core).spad o.reply 4 = code ∧ Mem.num (t.core o.core).spad (o.reply + 4) 4 = 0
    ∧ Mem.num (t.core o.core).spad (o.reply + 8) 8 = s.time.toNat ∧ ∀ y ∈ t.pageOps, y.id ≠ o.id

theorem State.Replied.of_time {u : State} (h : u.Replied t o code) (ht : u.time = s.time) : s.Replied t o code := by
  rw [State.Replied, ht] at h
  exact h

theorem Finished.replied (h : Finished s t o code) (hcode : code < 2 ^ 32) : s.Replied t o code := by
  obtain ⟨h1, h2, h3⟩ := h.num hcode
  exact ⟨h1, h2, h3, h.gone⟩

/-- A page operation's end with status 0: it writes the Q PTE, then replies. -/
def State.commit (s : State) (o : PageOpRun) (e : Nat) : State := finishPageOp (writeQpte s o.pteAddr e) o 0

theorem finished_commit {e : Nat} (hc : o.counter = none) (hpa : o.pteAddr + 8 ≤ 0x18000000000) (h : s.HasRoom o) :
    Finished { s with wm := Mem.setNum s.wm o.pteAddr 8 e } (s.commit o e) o 0 := by
  rw [State.commit, writeQpte_wm hpa]
  exact finished_finishPageOp hc h

section
variable {e st stack fr gen : Nat} (hc : o.counter = none) (hpa : o.pteAddr + 8 ≤ 0x18000000000) (h : s.HasRoom o)
include hc hpa h

theorem replied_commit : s.Replied (s.commit o e) o 0 := (finished_commit hc hpa h).replied (by decide)

theorem num_commit : Mem.num (s.commit o (qpteWith e st stack fr gen)).wm o.pteAddr 8 = qpteWith e st stack fr gen := by
  rw [(finished_commit hc hpa h).wm]
  exact num_setQpte

theorem qmem_commit : (s.commit o e).qmem = s.qmem := (finished_commit hc hpa h).qmem

theorem byteAt_commit {p : Place} (hp : ∀ k, k < 8 → p ≠ .wm (o.pteAddr + k)) (hr : ∀ k, k < 16 → p ≠ .spad o.core (o.reply + k)) :
    (s.commit o e).byteAt p = s.byteAt p :=
  ((finished_commit hc hpa h).byteAt hr).trans (byteAt_setNum hp)

end

end Sys2Proof.Machine
end

section
/-!
PROOFS. The device's side of page operations (spec 06 R118, R119, R366): the copy and the three commits.
-/

namespace Sys2Proof.Machine

-- One proof at a time: each is about the whole state.
set_option Elab.async false

variable {s s1 : State} {id : Nat} {o : PageOpRun}

theorem State.pageOp_id (h : s.pageOp id = some o) : o.id = id := by
  have hid := List.find?_some (p := fun x : PageOpRun => x.id == id) h
  exact eq_of_beq hid

theorem withOpCounter_none (k : State → Out) (hc : o.counter = none) : withOpCounter s o k = k s := by
  simp only [withOpCounter, counterReady, hc]

theorem withOpCounter_waits {k : State → Out} (h : counterReady s o.core o.rq o.counter = (s1, false)) : withOpCounter s o k = .next s1 := by
  simp only [withOpCounter, h]

/-! ## The copy (R118, R366) -/

theorem copyStart_waits (h : s.pageOp id = some o) (hw : s.time.toNat < o.until_ ∨ pendingWrites s o = true) :
    execMigrationCopyStart id s = .next s := by
  have hif : (o.copied || decide (o.fn = 11) || decide (s.time.toNat < o.until_) || pendingWrites s o) = true := by
    rcases hw with hw | hw <;> simp [hw]
  simp only [execMigrationCopyStart, h, hif, ↓reduceIte]

/-- The operations after o's copy has started. -/
def State.copyStarted (s : State) (id : Nat) : State :=
  { s with pageOps := s.pageOps.map (fun x => if x.id = id then { x with copied := true } else x) }

theorem pageOp_copyStarted (h : s.pageOp id = some o) : (s.copyStarted id).pageOp id = some { o with copied := true } := by
  have hp : ((fun x : PageOpRun => x.id == id) ∘ fun x => if x.id = id then { x with copied := true } else x) = fun x => x.id == id := by
    funext x
    simp only [Function.comp]
    split <;> rfl
  rw [State.pageOp, State.copyStarted, List.find?_map, hp, show s.pageOps.find? _ = some o from h, Option.map_some, if_pos (State.pageOp_id h)]

theorem byteAt_copyStarted (s : State) (id : Nat) : SameBytes s (s.copyStarted id) := fun p => by cases p <;> rfl

/-- A migration's copy starts: the destination takes the bytes of an unpoisoned source (R118). -/
theorem copyStart_copies (h : s.pageOp id = some o) (h9 : o.fn = 9) (hc : o.copied = false) (ht : o.until_ ≤ s.time.toNat)
    (hw : pendingWrites s o = false) (hq : qPoisoned s (sourceFrame s o) qPageSize = false) :
    execMigrationCopyStart id s
      = .next ((copyFrame s (sourceFrame s o) (qAddr (o.aux1.toNat % 64) (o.aux1.toNat / 64 % 2 ^ 17) 0)).copyStarted id) := by
  have hgo : (o.copied || decide (o.fn = 11) || decide (s.time.toNat < o.until_) || pendingWrites s o) = false := by
    simp [hc, h9, hw, ht]
  have hcopy : (decide (o.fn = 9) && !qPoisoned s (sourceFrame s o) qPageSize) = true := by simp [h9, hq]
  simp only [execMigrationCopyStart, h, hgo, hcopy, destFrame_eq, Bool.false_eq_true, ↓reduceIte]
  rfl

theorem get_copyFrame {src dst k : Nat} (hk : k < qPageSize) : Mem.get (copyFrame s src dst).qmem (dst + k) = Mem.get s.qmem (src + k) :=
  Mem.get_blit_slice hk

theorem byteAt_copyFrame {src dst : Nat} {p : Place} (hp : ∀ k, k < qPageSize → p ≠ .query (dst + k)) :
    (copyFrame s src dst).byteAt p = s.byteAt p := by
  cases p with
  | query b => exact Mem.get_blit_slice_outside (outside_of_ne fun k hk e => hp k hk (by rw [e]))
  | _ => rfl

/-! ## The commits -/

section
variable (h : s.pageOp id = some o) (hc : o.counter = none)
include h hc

/-- A migration's commit: present, at the destination frame, with the next generation (R118). -/
theorem migrationCommit_commits (h9 : o.fn = 9) (hcp : o.copied = true) (hq : qPoisoned s (sourceFrame s o) qPageSize = false) :
    execMigrationCommit id s = .next (s.commit o (qpteWith (readPte s o.pteAddr) 0 (o.aux1.toNat % 64) (o.aux1.toNat / 64 % 2 ^ 17)
      (qpteGen (readPte s o.pteAddr) + 1))) := by
  simp only [execMigrationCommit, h, h9, hcp, withOpCounter_none _ hc, hq, destFrame_eq, bne_self_eq_false, Bool.not_true, Bool.or_self,
    Bool.false_eq_true, ↓reduceIte]
  rfl

end

/-- The IV of a partition's next seal (R119). -/
def State.sealIvOf (s : State) (o : PageOpRun) : BitVec 96 := Config.sealIv o.part.val (s.part o.part).ivCtr
/-- The header of the next seal of the operation's page (R119). -/
def State.nextHead (s : State) (o : PageOpRun) : List Byte := sealHead o.part o.qpage (sealGenOf s o.part o.qpage + 1)
/-- The page's ciphertext under that IV (R119). -/
def State.sealCipher (s : State) (o : PageOpRun) : List Byte := sealCrypt o.part (s.sealIvOf o) (Mem.bytes s.qmem (sourceFrame s o) qPageSize)
/-- The image of the seal: header, IV, tag and ciphertext (R119). -/
def State.sealImage (s : State) (o : PageOpRun) : List Byte :=
  s.nextHead o ++ leBytes 12 (s.sealIvOf o).toNat ++ leBytes 4 0
    ++ leBytes 16 (Config.sealTag o.part.val (s.sealIvOf o).toNat (s.nextHead o) (s.sealCipher o)).toNat ++ s.sealCipher o

/-- A seal's image is written: the IV's counter has gone on, and gen is the page's latest seal (R119). -/
def State.sealedAs (s : State) (o : PageOpRun) (gen : Nat) : State :=
  let u := (s.modPart o.part (fun p => { p with ivCtr := p.ivCtr + 1 })).noteCounterWake o.crit
  { u with seals := ⟨o.part, o.qpage, BitVec.ofNat 64 gen⟩ :: u.seals.filter (fun x => !(x.part == o.part && x.qpage == o.qpage)) }

theorem time_sealedAs (gen : Nat) : (s.sealedAs o gen).time = s.time := rfl

theorem ivCtr_sealedAs (gen : Nat) : ((s.sealedAs o gen).part o.part).ivCtr = (s.part o.part).ivCtr + 1 :=
  congrArg Part.ivCtr (State.part_modPart_same s o.part (fun p => { p with ivCtr := p.ivCtr + 1 }))

theorem sealGenOf_sealedAs (gen : Nat) : sealGenOf (s.sealedAs o gen) o.part o.qpage = gen % 2 ^ 64 := by
  simp [sealGenOf, State.sealedAs]

theorem byteAt_sealedAs (gen : Nat) : SameBytes s (s.sealedAs o gen) := by
  intro p
  have h := byteAt_noteCounterWake (s.modPart o.part (fun p => { p with ivCtr := p.ivCtr + 1 })) o.crit p
  rw [byteAt_modPart] at h
  rw [← h]
  cases p <;> rfl

theorem residents_noteCounterWake (s : State) (b : Bool) (k : CoreId) : ((s.noteCounterWake b).core k).residents = (s.core k).residents := by
  simp only [State.core, State.noteCounterWake, Fin.getElem_fin, Vector.getElem_map]
  split <;> rfl

theorem hasRoom_sealedAs {gen : Nat} (h : s.HasRoom o) : (s.sealedAs o gen).HasRoom o := by
  have hr : ((s.sealedAs o gen).core o.core).residents = (s.core o.core).residents := residents_noteCounterWake _ o.crit o.core
  unfold State.HasRoom Core.allocsOf at h ⊢
  rwa [hr]

theorem sealImageWritten_commits (h : s.pageOp id = some o) (hc : o.counter = none) (h10 : o.fn = 10) (hcp : o.copied = true)
    (hq : qPoisoned s (sourceFrame s o) qPageSize = false) (hw : imageWrite s (.engine o.core) o.rq o.pages o.aux1 1024 (s.sealImage o) = (s1, none)) :
    execSealImageWritten id s = .next ((s1.sealedAs o (sealGenOf s o.part o.qpage + 1)).commit o
      (qpteWith (readPte s o.pteAddr) 2 (qpteStack (readPte s o.pteAddr)) (qpteFrame (readPte s o.pteAddr)) (qpteGen (readPte s o.pteAddr) + 1))) := by
  simp only [State.sealImage, State.sealCipher, State.nextHead, State.sealIvOf] at hw
  simp only [execSealImageWritten, h, h10, hcp, withOpCounter_none _ hc, hq, bne_self_eq_false, Bool.not_true, Bool.or_self,
    Bool.false_eq_true, ↓reduceIte, hw]
  rfl

/-- A seal whose image is written (R119): its reply, the partition's IV counter, the page's latest seal, its Q PTE, and the frame. -/
theorem sealImageWritten_result (h : s.pageOp id = some o) (hc : o.counter = none) (h10 : o.fn = 10) (hcp : o.copied = true)
    (hq : qPoisoned s (sourceFrame s o) qPageSize = false) (hw : imageWrite s (.engine o.core) o.rq o.pages o.aux1 1024 (s.sealImage o) = (s1, none))
    (hpa : o.pteAddr + 8 ≤ 0x18000000000) (hroom : s1.HasRoom o) :
    ∃ t, execSealImageWritten id s = .next t ∧ s1.Replied t o 0 ∧ (t.part o.part).ivCtr = (s1.part o.part).ivCtr + 1
      ∧ sealGenOf t o.part o.qpage = (sealGenOf s o.part o.qpage + 1) % 2 ^ 64
      ∧ Mem.num t.wm o.pteAddr 8 = qpteWith (readPte s o.pteAddr) 2 (qpteStack (readPte s o.pteAddr)) (qpteFrame (readPte s o.pteAddr))
        (qpteGen (readPte s o.pteAddr) + 1)
      ∧ ∀ p, (∀ k, k < 8 → p ≠ .wm (o.pteAddr + k)) → (∀ k, k < 16 → p ≠ .spad o.core (o.reply + k)) → t.byteAt p = s1.byteAt p := by
  have hroom' : (s1.sealedAs o (sealGenOf s o.part o.qpage + 1)).HasRoom o := hasRoom_sealedAs hroom
  have hout := sealImageWritten_commits h hc h10 hcp hq hw
  generalize hgen : sealGenOf s o.part o.qpage + 1 = gen at hout hroom' ⊢
  have hfin := finished_commit (e := qpteWith (readPte s o.pteAddr) 2 (qpteStack (readPte s o.pteAddr)) (qpteFrame (readPte s o.pteAddr))
    (qpteGen (readPte s o.pteAddr) + 1)) hc hpa hroom'
  refine ⟨_, hout, (replied_commit hc hpa hroom').of_time (time_sealedAs gen), ?_, ?_, num_commit hc hpa hroom',
    fun p hp hp2 => (byteAt_commit hc hpa hroom' hp hp2).trans (byteAt_sealedAs gen p)⟩
  · rw [State.part, hfin.parts]; exact ivCtr_sealedAs gen
  · rw [sealGenOf, hfin.seals]; exact sealGenOf_sealedAs gen

/-! ## Unsealing (R119) -/

/-- The image is of the operation's partition and page. -/
def PageOpRun.Owns (o : PageOpRun) (img : List Byte) : Prop := fieldAt img 2 2 = o.part.val ∧ fieldAt img 8 8 = o.qpage * 0x200000
/-- The image's tag is that of its header and ciphertext. -/
def PageOpRun.Verifies (o : PageOpRun) (img : List Byte) : Prop :=
  (Config.sealTag o.part.val (fieldAt img 32 12) (img.take 32) (img.drop 64)).toNat = fieldAt img 48 16

/-- The plaintext lies in the destination frame. -/
def State.unsealed (s : State) (o : PageOpRun) (img : List Byte) : State :=
  let dst := qAddr (o.aux2.toNat % 64) (o.aux2.toNat / 64 % 2 ^ 17) 0
  { s with
    qmem := Mem.blit (Mem.clear s.qmem dst qPageSize) (Mem.cellsOf (sealCrypt o.part (BitVec.ofNat 96 (fieldAt img 32 12)) (img.drop 64)) dst 0)
    qPoison := NatSet.clear s.qPoison (dst / 16) (qPageSize / 16) }

theorem time_unsealed (img : List Byte) : (s.unsealed o img).time = s.time := rfl

theorem get_unsealed {img : List Byte} {k : Nat} (hk : k < qPageSize) :
    Mem.get (s.unsealed o img).qmem (qAddr (o.aux2.toNat % 64) (o.aux2.toNat / 64 % 2 ^ 17) 0 + k)
      = (sealCrypt o.part (BitVec.ofNat 96 (fieldAt img 32 12)) (img.drop 64)).getD k 0 := by
  have h := Mem.get_cellsOf (l := sealCrypt o.part (BitVec.ofNat 96 (fieldAt img 32 12)) (img.drop 64))
    (b := qAddr (o.aux2.toNat % 64) (o.aux2.toNat / 64 % 2 ^ 17) 0) (i := 0) (k := k)
  rw [Nat.zero_add] at h
  rw [← h]
  exact Mem.get_blit_of_zero (by rw [Mem.get_clear, if_pos ⟨Nat.le_add_right _ _, Nat.add_lt_add_left hk _⟩])

section
variable {img : List Byte} (h : s.pageOp id = some o) (hc : o.counter = none) (h11 : o.fn = 11)
  (hr : imageRead s (.engine o.core) o.rq o.pages o.aux1 1024 sealSize = (s1, .ok (img, false)))
include h hc h11 hr

/-- Once an image has been read, its partition and page are checked, then its generation, then its tag. -/
theorem unsealVerified_read : execUnsealVerified id s = .next (
    if fieldAt img 2 2 != o.part.val || fieldAt img 8 8 != o.qpage * qPageSize then finishPageOp s1 o 3
    else if fieldAt img 16 8 != sealGenOf s1 o.part o.qpage then finishPageOp s1 o 2
    else if (Config.sealTag o.part.val (fieldAt img 32 12) (img.take 32) (img.drop 64)).toNat != fieldAt img 48 16 then finishPageOp s1 o 1
    else (s1.unsealed o img).commit o (qpteWith (readPte s1 o.pteAddr) 0 (o.aux2.toNat % 64) (o.aux2.toNat / 64 % 2 ^ 17)
      (qpteGen (readPte s1 o.pteAddr) + 1))) := by
  simp only [execUnsealVerified, h, h11, withOpCounter_none _ hc, hr, destFrame_eq, bne_self_eq_false, Bool.false_eq_true, ↓reduceIte]
  split
  · rfl
  · split
    · rfl
    · split <;> rfl

theorem unsealVerified_foreign (ho : ¬ o.Owns img) : execUnsealVerified id s = .next (finishPageOp s1 o 3) := by
  have hif : (fieldAt img 2 2 != o.part.val || fieldAt img 8 8 != o.qpage * qPageSize) = true := by
    simpa [PageOpRun.Owns, qPageSize, imp_iff_not_or] using ho
  rw [unsealVerified_read h hc h11 hr, if_pos hif]

theorem unsealVerified_owned (ho : o.Owns img) : execUnsealVerified id s = .next (
    if fieldAt img 16 8 != sealGenOf s1 o.part o.qpage then finishPageOp s1 o 2
    else if (Config.sealTag o.part.val (fieldAt img 32 12) (img.take 32) (img.drop 64)).toNat != fieldAt img 48 16 then finishPageOp s1 o 1
    else (s1.unsealed o img).commit o (qpteWith (readPte s1 o.pteAddr) 0 (o.aux2.toNat % 64) (o.aux2.toNat / 64 % 2 ^ 17)
      (qpteGen (readPte s1 o.pteAddr) + 1))) := by
  obtain ⟨hp, hq⟩ := ho
  have hif : ¬ (fieldAt img 2 2 != o.part.val || fieldAt img 8 8 != o.qpage * qPageSize) = true := by simp [hp, hq, qPageSize]
  rw [unsealVerified_read h hc h11 hr, if_neg hif]

theorem unsealVerified_stale (ho : o.Owns img) (hg : fieldAt img 16 8 ≠ sealGenOf s1 o.part o.qpage) :
    execUnsealVerified id s = .next (finishPageOp s1 o 2) := by
  rw [unsealVerified_owned h hc h11 hr ho, if_pos (bne_iff_ne.2 hg)]

theorem unsealVerified_forged (ho : o.Owns img) (hg : fieldAt img 16 8 = sealGenOf s1 o.part o.qpage) (hv : ¬ o.Verifies img) :
    execUnsealVerified id s = .next (finishPageOp s1 o 1) := by
  rw [unsealVerified_owned h hc h11 hr ho, if_neg (by simp [hg]), if_pos (bne_iff_ne.2 hv)]

theorem unsealVerified_commits (ho : o.Owns img) (hg : fieldAt img 16 8 = sealGenOf s1 o.part o.qpage) (hv : o.Verifies img) :
    execUnsealVerified id s = .next ((s1.unsealed o img).commit o (qpteWith (readPte s1 o.pteAddr) 0 (o.aux2.toNat % 64)
      (o.aux2.toNat / 64 % 2 ^ 17) (qpteGen (readPte s1 o.pteAddr) + 1))) := by
  rw [unsealVerified_owned h hc h11 hr ho, if_neg (by simp [hg]), if_neg (by simpa [PageOpRun.Verifies] using hv)]

variable (hpa : o.pteAddr + 8 ≤ 0x18000000000) (hroom : s1.HasRoom o)
include hpa hroom

/-- What an unsealing does once its image has been read: a status for each check that fails, else the page and its Q PTE (R119). -/
theorem unsealVerified_result : ∃ t, execUnsealVerified id s = .next t
    ∧ (¬ o.Owns img → s1.Replied t o 3 ∧ t.qmem = s1.qmem)
    ∧ (o.Owns img → fieldAt img 16 8 ≠ sealGenOf s1 o.part o.qpage → s1.Replied t o 2 ∧ t.qmem = s1.qmem)
    ∧ (o.Owns img → fieldAt img 16 8 = sealGenOf s1 o.part o.qpage → ¬ o.Verifies img → s1.Replied t o 1 ∧ t.qmem = s1.qmem)
    ∧ (o.Owns img → fieldAt img 16 8 = sealGenOf s1 o.part o.qpage → o.Verifies img → s1.Replied t o 0 ∧ t.qmem = (s1.unsealed o img).qmem
      ∧ Mem.num t.wm o.pteAddr 8 = qpteWith (readPte s1 o.pteAddr) 0 (o.aux2.toNat % 64) (o.aux2.toNat / 64 % 2 ^ 17)
        (qpteGen (readPte s1 o.pteAddr) + 1)) := by
  have hend (code : Nat) (hlt : code < 2 ^ 32) : s1.Replied (finishPageOp s1 o code) o code ∧ (finishPageOp s1 o code).qmem = s1.qmem :=
    have hfin := finished_finishPageOp hc hroom
    ⟨hfin.replied hlt, hfin.qmem⟩
  by_cases hown : o.Owns img
  · by_cases hlatest : fieldAt img 16 8 = sealGenOf s1 o.part o.qpage
    · by_cases hgood : o.Verifies img
      · have hroom' : (s1.unsealed o img).HasRoom o := hroom
        exact ⟨_, unsealVerified_commits h hc h11 hr hown hlatest hgood, fun hn => absurd hown hn, fun _ hn => absurd hlatest hn,
          fun _ _ hn => absurd hgood hn, fun _ _ _ =>
            ⟨(replied_commit hc hpa hroom').of_time (time_unsealed img), qmem_commit hc hpa hroom', num_commit hc hpa hroom'⟩⟩
      · exact ⟨_, unsealVerified_forged h hc h11 hr hown hlatest hgood, fun hn => absurd hown hn, fun _ hn => absurd hlatest hn,
          fun _ _ _ => hend 1 (by decide), fun _ _ hy => absurd hy hgood⟩
    · exact ⟨_, unsealVerified_stale h hc h11 hr hown hlatest, fun hn => absurd hown hn, fun _ _ => hend 2 (by decide),
        fun _ hy => absurd hy hlatest, fun _ hy => absurd hy hlatest⟩
  · exact ⟨_, unsealVerified_foreign h hc h11 hr hown, fun _ => hend 3 (by decide), fun hy => absurd hy hown, fun hy => absurd hy hown,
      fun hy => absurd hy hown⟩

end

/-! ## Runs that do nothing -/

section
variable (h : s.pageOp id = some o)
include h

theorem migrationCommit_skips (hn : o.fn ≠ 9 ∨ o.copied = false) : execMigrationCommit id s = .next s := by
  have hif : (o.fn != 9 || !o.copied) = true := by simpa using hn
  simp only [execMigrationCommit, h, hif, ↓reduceIte]

theorem sealImageWritten_skips (hn : o.fn ≠ 10 ∨ o.copied = false) : execSealImageWritten id s = .next s := by
  have hif : (o.fn != 10 || !o.copied) = true := by simpa using hn
  simp only [execSealImageWritten, h, hif, ↓reduceIte]

theorem unsealVerified_skips (hn : o.fn ≠ 11) : execUnsealVerified id s = .next s := by
  have hif : (o.fn != 11) = true := bne_iff_ne.2 hn
  simp only [execUnsealVerified, h, hif, ↓reduceIte]

variable (hw : counterReady s o.core o.rq o.counter = (s1, false))
include hw

theorem migrationCommit_waits (h9 : o.fn = 9) (hcp : o.copied = true) : execMigrationCommit id s = .next s1 := by
  simp only [execMigrationCommit, h, h9, hcp, withOpCounter_waits hw, bne_self_eq_false, Bool.not_true, Bool.or_self, Bool.false_eq_true,
    ↓reduceIte]

theorem sealImageWritten_waits (h10 : o.fn = 10) (hcp : o.copied = true) : execSealImageWritten id s = .next s1 := by
  simp only [execSealImageWritten, h, h10, hcp, withOpCounter_waits hw, bne_self_eq_false, Bool.not_true, Bool.or_self, Bool.false_eq_true,
    ↓reduceIte]

theorem unsealVerified_waits (h11 : o.fn = 11) : execUnsealVerified id s = .next s1 := by
  simp only [execUnsealVerified, h, h11, withOpCounter_waits hw, bne_self_eq_false, Bool.false_eq_true, ↓reduceIte]

end

end Sys2Proof.Machine
end

section
/-!
PROOFS. Page operations at issue (spec 06 R117, R365): their checks, and what is marked before the next instruction.
-/

namespace Sys2Proof.Machine

-- One proof at a time: each is about the whole state.
set_option Elab.async false

variable {s s1 s2 : State} {fn : Nat} {a b c : SReg} {fl : CmdFlags}

/-- A member of the group is privileged, then its checks and its issue. -/
theorem exec_pageOp {i : Instr} (s : State) (hi : (i, fn) ∈ [(.qmig a b c fl, 9), (.qseal a b c fl, 10), (.qunseal a b c fl, 11)]) :
    (fn = 9 ∨ fn = 10 ∨ fn = 11)
      ∧ exec i s = if s.cur.priv = .user then .next (s.trap (mkTrap 0x02 (wordOf i) 0)) else issuePageOp fn a b c fl s := by
  simp only [List.mem_cons, Prod.mk.injEq, List.not_mem_nil, or_false] at hi
  rcases hi with ⟨rfl, rfl⟩ | ⟨rfl, rfl⟩ | ⟨rfl, rfl⟩ <;> exact ⟨by decide, rfl⟩

/-! ## The image's area -/

section
variable {aux : Nat} {acc : AccKind} {pgs : List UsedPage} {k : State → List UsedPage → Out}
  (h1 : canonInt (signedOf 64 aux) = true) (h2 : canonInt (signedOf 64 aux + 0x200040 - 1) = true)
include h1 h2

theorem exportCheck_misaligned (hm : aux % 64 ≠ 0) :
    exportCheck s fn aux 0x200040 64 acc k = .next (s.trap (mkTrap 0x03 (BitVec.ofNat 64 aux) 0)) := by
  have h2' : canonInt (signedOf 64 aux + (0x200040 : Nat) - 1) = true := h2
  have hm' : (aux % 64 != 0) = true := bne_iff_ne.2 hm
  simp only [exportCheck, h1, h2', hm', Bool.not_true, Bool.or_self, Bool.false_eq_true, ↓reduceIte]
  rfl

theorem exportCheck_ok (hm : aux % 64 = 0) (hp : areaPages s (.engine s.curCore) s.curReq acc false [] (wrapInt 64 (signedOf 64 aux))
    (0x200040 / 4096 + 2) 0x200040 = (s1, .ok pgs)) : exportCheck s fn aux 0x200040 64 acc k = k s1 pgs := by
  have h2' : canonInt (signedOf 64 aux + (0x200040 : Nat) - 1) = true := h2
  have hm' : (aux % 64 != 0) = false := by rw [hm]; rfl
  simp only [exportCheck, h1, h2', hm', hp, Bool.not_true, Bool.or_self, Bool.false_eq_true, ↓reduceIte]

end

/-! ## The operation that begins -/

/-- The operation that begins at s2, after the walk, for the thread of s1. -/
def pageOpOf (fn : Nat) (b c : SReg) (fl : CmdFlags) (q : QBlk) (pgs : List UsedPage) (w : QWalk) (s1 s2 : State) : PageOpRun :=
  { id := s2.nextId, fn := fn, fl := fl, qpage := q.base / qPageSize, aux1 := BitVec.ofNat 64 q.aux1, aux2 := BitVec.ofNat 64 q.aux2
    counter := if b = 0 then none else some (s2.sreg b), reply := (s2.sreg c).toNat, core := s2.curCore, tid := s2.curTid
    part := s2.curPart, asn := s1.cur.asnOf, ctx := s1.cur.ctxOf, launch := s1.cur.launchOf, priv := s1.cur.priv, pages := pgs, pteAddr := w.addr
    until_ := s2.time.toNat + w.path.most + 4, copied := false, crit := s1.cur.cbit }

theorem pageOpOf_counter {q : QBlk} {pgs : List UsedPage} {w : QWalk} :
    (pageOpOf fn b c fl q pgs w s1 s2).counter = if b = 0 then none else some (s2.sreg b) := rfl
theorem pageOpOf_reply {q : QBlk} {pgs : List UsedPage} {w : QWalk} : (pageOpOf fn b c fl q pgs w s1 s2).reply = (s2.sreg c).toNat := rfl

/-- The operation is under way. -/
def State.withPageOp (s : State) (o : PageOpRun) : State := { s with nextId := s.nextId + 1, pageOps := s.pageOps ++ [o] }

/-- The walk of the page's Q PTE, made at issue (R113). -/
def pageWalk (s : State) (q : QBlk) : State × Except (Nat × Nat) QWalk :=
  qWalkMarked (s.noteUse (.stack (qDie (q.base / qPageSize))) s.curReq) s.curPart (q.base / qPageSize)

/-- What follows the walk: a fault, a fault of the page's state, the end of a migration to the frame that it has, or the beginning. -/
structure Begins (fn : Nat) (b c : SReg) (fl : CmdFlags) (q : QBlk) (s1 : State) (pgs : List UsedPage) (out : Out) : Prop where
  walkFault : ∀ s2 r w, pageWalk s1 q = (s2, .error (r, w)) → out = .next (queryPageFault s2 fn [(0, q.base / qPageSize, r, w)] false)
  wrongState : ∀ s2 w, pageWalk s1 q = (s2, .ok w) → qpteState w.pte ≠ (if fn = 11 then 2 else 0) →
    out = .next (queryPageFault s2 fn [(0, q.base / qPageSize, 12, 0)] false)
  sameFrame : ∀ s2 w, pageWalk s1 q = (s2, .ok w) → qpteState w.pte = (if fn = 11 then 2 else 0) →
    fn = 9 ∧ q.aux1 = qpteStack w.pte + qpteFrame w.pte * 64 →
    out = .next (finishPageOp (s2.withPageOp (pageOpOf fn b c fl q pgs w s1 s2)) (pageOpOf fn b c fl q pgs w s1 s2) 5).advance
  unsealing : ∀ s2 w, pageWalk s1 q = (s2, .ok w) → qpteState w.pte = (if fn = 11 then 2 else 0) → fn = 11 →
    out = .next (s2.withPageOp (pageOpOf fn b c fl q pgs w s1 s2)).advance
  marking : ∀ s2 w, pageWalk s1 q = (s2, .ok w) → qpteState w.pte = (if fn = 11 then 2 else 0) → fn ≠ 11 →
    ¬ (fn = 9 ∧ q.aux1 = qpteStack w.pte + qpteFrame w.pte * 64) →
    out = .next (writeQpte (s2.withPageOp (pageOpOf fn b c fl q pgs w s1 s2)) w.addr
      (qpteWith w.pte 1 (qpteStack w.pte) (qpteFrame w.pte) (qpteGen w.pte))).advance

section
variable {q : QBlk} (hx : (s.sreg a).toNat % 64 = 0) (ho : s.Owns (s.sreg a).toNat 64)
  (hq : QBlk.ofBits (BitVec.ofNat 512 (Mem.num s.curC.spad (s.sreg a).toNat 64)) = q)
include hx ho hq

theorem issuePageOp_misshapen {r : Nat} (hr : pageShape fn q = some r) :
    issuePageOp fn a b c fl s = .next (s.trap (mkTrap 0x09 (BitVec.ofNat 64 r) 0)) := by
  rw [issuePageOp, withQBlock_owned _ hx ho]
  simp only [hq, hr]
  rfl

/-- An operation of good shape: the reply's area and the counter are checked, then the image's area, and then it begins. -/
theorem issuePageOp_shaped (hs : pageShape fn q = none) (hr : areaTrapQ s (s.sreg c) 16 = none) :
    ∃ go : State → List UsedPage → Out, issuePageOp fn a b c fl s
        = counterCheck s b (fun s =>
            if fn = 9 then go s [] else exportCheck s fn q.aux1 0x200040 64 (if fn = 10 then .store else .load) go)
      ∧ ∀ s1 pgs, Begins fn b c fl q s1 pgs (go s1 pgs) := by
  rw [issuePageOp, withQBlock_owned _ hx ho]
  simp only [hq, hs, hr]
  refine ⟨_, rfl, fun s1 pgs => ⟨fun s2 r w hw => ?_, fun s2 w hw hst => ?_, fun s2 w hw hst hsame => ?_,
    fun s2 w hw hst h11 => ?_, fun s2 w hw hst h11 hsame => ?_⟩⟩ <;>
    simp only [pageWalk] at hw
  · simp only [hw]
  · simp only [hw, bne_iff_ne.2 hst, ↓reduceIte]
  · have hsame' : (decide (fn = 9) && decide (q.aux1 = qpteStack w.pte + qpteFrame w.pte * 64)) = true := by simpa using hsame
    simp only [hw, hst, hsame', bne_self_eq_false, Bool.false_eq_true, ↓reduceIte]
    rfl
  · subst h11
    simp only [hw, hst]
    rfl
  · have hsame' : (decide (fn = 9) && decide (q.aux1 = qpteStack w.pte + qpteFrame w.pte * 64)) = false := by
      simpa [imp_iff_not_or] using hsame
    simp only [hw, hst, hsame', h11, bne_self_eq_false, Bool.false_eq_true, ↓reduceIte]
    rfl

end

/-! ## What is left behind -/

theorem resolved_pageWalk {q : QBlk} (h : Resolved s s1) : Resolved s (pageWalk s1 q).1 := resolved_qWalkMarked (resolved_noteUse h)

theorem State.spad_advance (s : State) (k : CoreId) : (s.advance.core k).spad = (s.core k).spad := by
  by_cases hk : k = s.curCore
  · subst hk; exact (congrArg Core.spad (State.core_modCore_same s s.curCore _)).trans rfl
  · exact congrArg Core.spad (State.core_modCore_other s _ hk)

theorem State.sreg_advance (s : State) (r : SReg) : s.advance.sreg r = s.sreg r := by
  rw [State.sreg, State.cur_advance, Thread.sreg_advance]; rfl

theorem QBlk.aux1_lt (blk : BitVec 512) : (QBlk.ofBits blk).aux1 < 2 ^ 64 := Nat.mod_lt _ (Nat.two_pow_pos _)
theorem QBlk.aux2_lt (blk : BitVec 512) : (QBlk.ofBits blk).aux2 < 2 ^ 64 := Nat.mod_lt _ (Nat.two_pow_pos _)

section
variable {q : QBlk} {pgs : List UsedPage} {w : QWalk} (hs : Resolved s1 s2)
include hs

/-- The reply's area is the context's still. -/
theorem hasRoom_pageOpOf (hr : rangeInAllocs s2.curAllocs (s2.sreg c).toNat 16 = true) : s2.HasRoom (pageOpOf fn b c fl q pgs w s1 s2) := by
  rw [State.curAllocs, hs.cur] at hr
  exact hr

/-- A migration to the frame that the page has ends at once with status 5 (R117). -/
theorem sameFrame_ends (hr : rangeInAllocs s2.curAllocs (s2.sreg c).toNat 16 = true) :
    let o := pageOpOf fn 0 c fl q pgs w s1 s2
    let t := (finishPageOp (s2.withPageOp o) o 5).advance
    t.cur.pc = s2.cur.advance.pc ∧ Mem.num t.curC.spad (s2.sreg c).toNat 4 = 5
      ∧ Mem.num t.curC.spad ((s2.sreg c).toNat + 8) 8 = s2.time.toNat ∧ t.pageOps = s2.pageOps.filter (fun y => y.id != s2.nextId)
      ∧ ∀ p, (∀ k, k < 16 → p ≠ .spad s2.curCore ((s2.sreg c).toNat + k)) → t.byteAt p = s2.byteAt p := by
  intro o t
  have hroom : s2.HasRoom o := hasRoom_pageOpOf hs hr
  have hfin := finished_finishPageOp (s := s2.withPageOp o) (o := o) (code := 5) rfl hroom
  obtain ⟨h4, -, h8⟩ := hfin.num (by decide)
  have hspad : t.curC.spad = ((finishPageOp (s2.withPageOp o) o 5).core o.core).spad := by
    rw [State.curC, State.spad_advance, State.advance_curCore, hfin.curCore]; rfl
  refine ⟨?_, hspad ▸ h4, hspad ▸ h8, ?_, fun p hp => ?_⟩
  · rw [State.cur_advance, hfin.advance_pc]; rfl
  · rw [State.advance_pageOps, hfin.ops]
    simp [State.withPageOp, o, pageOpOf]
  · rw [byteAt_advance, hfin.byteAt hp]
    cases p <;> rfl

end

/-- Operations and working memory are no part of the current thread. -/
theorem State.cur_withOps (s : State) (m : Memory) (n : Nat) (l : List PageOpRun) :
    ({ s with wm := m, nextId := n, pageOps := l } : State).cur = s.cur := rfl

/-- Otherwise the operation is under way, and the Q PTE of qmig and qseal is marked migrating before the next instruction (R365). -/
theorem Begins.marks {q : QBlk} {pgs : List UsedPage} {w : QWalk} {out : Out} (h : Begins fn b c fl q s1 pgs out)
    (hw : pageWalk s1 q = (s2, .ok w)) (hst : qpteState w.pte = (if fn = 11 then 2 else 0))
    (hsame : ¬ (fn = 9 ∧ q.aux1 = qpteStack w.pte + qpteFrame w.pte * 64)) (hpa : w.addr + 8 ≤ 0x18000000000) :
    ∃ t, out = .next t ∧ t.cur.pc = s2.cur.advance.pc ∧ (∀ r, t.sreg r = s2.sreg r) ∧ t.pageOps = s2.pageOps ++ [pageOpOf fn b c fl q pgs w s1 s2]
      ∧ (fn = 11 → SameBytes s2 t)
      ∧ (fn ≠ 11 → Mem.num t.wm w.addr 8 = qpteWith w.pte 1 (qpteStack w.pte) (qpteFrame w.pte) (qpteGen w.pte)
        ∧ ∀ p, (∀ k, k < 8 → p ≠ .wm (w.addr + k)) → t.byteAt p = s2.byteAt p) := by
  have hbytes (o : PageOpRun) : SameBytes s2 (s2.withPageOp o) := fun p => by cases p <;> rfl
  by_cases h11 : fn = 11
  · have hcur (o : PageOpRun) : (s2.withPageOp o).cur = s2.cur := State.cur_withOps s2 s2.wm _ _
    refine ⟨_, h.unsealing s2 w hw hst h11, ?_, fun r => ?_, rfl, fun _ p => ?_, fun hn => absurd h11 hn⟩
    · rw [State.cur_advance, hcur]
    · rw [State.sreg_advance, State.sreg, hcur]; rfl
    · exact (byteAt_advance _ p).trans (hbytes _ p)
  · have hout := h.marking s2 w hw hst h11 hsame
    rw [writeQpte_wm hpa] at hout
    have hcur (o : PageOpRun) (m : Memory) : ({ s2.withPageOp o with wm := m } : State).cur = s2.cur := State.cur_withOps s2 m _ _
    refine ⟨_, hout, ?_, fun r => ?_, State.advance_pageOps _, fun hn => absurd hn h11, fun _ => ⟨?_, fun p hp => ?_⟩⟩
    · rw [State.cur_advance, hcur]
    · rw [State.sreg_advance, State.sreg, hcur]; rfl
    · rw [State.advance_wm]; exact num_setQpte
    · exact ((byteAt_advance _ p).trans (byteAt_setNum hp)).trans (hbytes _ p)

theorem resolved_of_areaPages {u : XUnit} {rq : XReq} {acc : AccKind} {hostOk : Bool} {used : List UsedPage} {va fuel n : Nat}
    {r : Except (XFail × Word) (List UsedPage)} (h : areaPages s u rq acc hostOk used va fuel n = (s1, r)) : Resolved s s1 := by
  have hs := resolved_areaPages (u := u) (rq := rq) (acc := acc) (hostOk := hostOk) (used := used) (va := va) (fuel := fuel) (n := n)
    (Resolved.refl s)
  rwa [h] at hs

/-- Where the image's area is needed and passes its checks, or is not, the operation begins. -/
theorem imageArea_ok {aux : Nat} {pgs : List UsedPage} {go : State → List UsedPage → Out} (h9 : fn = 9 → s1 = s ∧ pgs = [])
    (h : fn ≠ 9 → canonInt (signedOf 64 aux) = true ∧ canonInt (signedOf 64 aux + 0x200040 - 1) = true ∧ aux % 64 = 0
      ∧ areaPages s (.engine s.curCore) s.curReq (if fn = 10 then .store else .load) false [] (wrapInt 64 (signedOf 64 aux))
        (0x200040 / 4096 + 2) 0x200040 = (s1, .ok pgs)) :
    (if fn = 9 then go s [] else exportCheck s fn aux 0x200040 64 (if fn = 10 then .store else .load) go) = go s1 pgs ∧ Resolved s s1 := by
  by_cases hfn : fn = 9
  · obtain ⟨rfl, rfl⟩ := h9 hfn
    exact ⟨if_pos hfn, Resolved.refl _⟩
  · obtain ⟨h1, h2, hm, hp⟩ := h hfn
    rw [if_neg hfn, exportCheck_ok h1 h2 hm hp]
    exact ⟨rfl, resolved_of_areaPages hp⟩

end Sys2Proof.Machine
end

section
/-!
PROOFS. Page operations on query memory (spec 06 R117 to R119, R365, R366): the statement, from their issue and from their runs.
-/

namespace Sys2Proof.Machine

/-- Settles O49: the issue by its checks in their order and the walk's outcomes; the copy and the commits by what each run does. -/
theorem pageOperations : Obligations.PageOperations := by
  unfold Obligations.PageOperations
  refine ⟨?_, ?_⟩
  · intro s s0 s1 s2 a b c fl i fn pgs hi x q own qp at_ run
    obtain ⟨hfn, hexec⟩ := exec_pageOp (b := b) s hi
    rw [hexec]
    refine ⟨fun hu => if_pos hu, fun hu => ?_, fun hu hx ho => ?_⟩
    · rw [if_neg hu]
      exact fun hx => withQBlock_misaligned _ hx
    rw [if_neg hu]
    refine ⟨fun r hr => issuePageOp_misshapen hx ho rfl hr, fun hshape hc16 hcend hroom => ?_⟩
    obtain ⟨go, hgo, hbegins⟩ := issuePageOp_shaped (b := b) (c := c) (fl := fl) hx ho rfl hshape (areaTrapQ_none hc16 hcend hroom)
    rw [hgo]
    refine ⟨counterCheck_outside, counterCheck_misaligned, fun h0 h1 => ?_⟩
    have hctr : CounterOk s b s0 := ⟨h0, h1⟩
    rw [counterCheck_ok hctr]
    refine ⟨fun h9 hlo hhi hm => ?_, fun h9 h10 h11 => ?_⟩
    · rw [if_neg h9]
      exact exportCheck_misaligned hlo hhi hm
    obtain ⟨hstart, h01⟩ := imageArea_ok (go := go) h9 (fun hn => by
      rcases hfn with rfl | rfl | rfl
      · exact absurd rfl hn
      · exact h10 rfl
      · exact h11 rfl)
    rw [hstart]
    have hb := hbegins s1 pgs
    refine ⟨fun r w hw => hb.walkFault s2 r w hw, ?_⟩
    intro w hw same
    have hwalk : pageWalk s1 q = (s2, .ok w) := hw
    have h12 : Resolved s1 s2 := by
      have h := resolved_pageWalk (q := q) (Resolved.refl s1)
      rwa [hwalk] at h
    have h02 : Resolved s s2 := (hctr.resolved.trans h01).trans h12
    refine ⟨fun hst => hb.wrongState s2 w hw hst, fun hst hsame hb0 => ?_, fun hst hsame hpa => ?_⟩
    · subst hb0
      have hend := sameFrame_ends (fn := fn) (fl := fl) (q := q) (pgs := pgs) (w := w) h12 (by rw [h02.curAllocs, h02.sreg]; exact hroom)
      rw [h02.sreg, h02.curCore] at hend
      exact ⟨_, hb.sameFrame s2 w hw hst hsame, hend⟩
    · obtain ⟨t, ht, hpc, hreg, hops, hun, hmark⟩ := hb.marks hwalk hst hsame hpa
      refine ⟨t, _, ht, hpc, hreg, hops, rfl, rfl, ?_, ?_, ?_, ?_, rfl, rfl, h12.curPart, rfl, rfl, hun, hmark⟩
      · exact (BitVec.toNat_ofNat _ _).trans (Nat.mod_eq_of_lt (QBlk.aux1_lt _))
      · exact (BitVec.toNat_ofNat _ _).trans (Nat.mod_eq_of_lt (QBlk.aux2_lt _))
      · exact pageOpOf_counter.trans (by rw [h02.sreg])
      · exact pageOpOf_reply.trans (by rw [h02.sreg])
  intro s id o h e src dstOf reply room
  refine ⟨fun _ hw => copyStart_waits h hw, fun h9 hcp ht hw hq _ => ?_, fun h9 hcp hq hc hpa hroom => ?_, ?_, ?_,
    fun s1 hw => ⟨migrationCommit_waits h hw, sealImageWritten_waits h hw, unsealVerified_waits h hw⟩,
    migrationCommit_skips h, sealImageWritten_skips h, unsealVerified_skips h⟩
  · exact ⟨_, copyStart_copies h h9 hcp ht hw hq, ⟨_, pageOp_copyStarted (s := copyFrame s src (dstOf o.aux1)) h, rfl⟩,
      fun k hk => get_copyFrame hk, fun p hp => (byteAt_copyStarted _ id p).trans (byteAt_copyFrame hp)⟩
  · exact ⟨_, migrationCommit_commits h hc h9 hcp hq, replied_commit hc hpa hroom, num_commit hc hpa hroom,
      fun p hp hp2 => byteAt_commit hc hpa hroom hp hp2⟩
  · intro s1 h10 hcp hq gen iv head cipher img hw htime hops hc hpa hroom
    obtain ⟨t, ht, hrep, hrest⟩ := sealImageWritten_result h hc h10 hcp hq hw hpa hroom
    exact ⟨t, ht, hrep.of_time htime, hrest⟩
  · intro s1 img h11 hr hbytes htime hops hseals hc hpa hroom iv cipher own latest good
    have hgen : sealGenOf s1 o.part o.qpage = sealGenOf s o.part o.qpage := by rw [sealGenOf, sealGenOf, hseals]
    obtain ⟨t, ht, h3, h2, h1, h0⟩ := unsealVerified_result h hc h11 hr hpa hroom
    rw [hgen] at h2 h1 h0
    refine ⟨t, ht, fun hn => (h3 hn).imp_left (·.of_time htime), fun hy hn => (h2 hy hn).imp_left (·.of_time htime),
      fun hy hl hn => (h1 hy hl hn).imp_left (·.of_time htime), fun hy hl hg _ => ?_⟩
    obtain ⟨hrep, hq, hnum⟩ := h0 hy hl hg
    refine ⟨hrep.of_time htime, fun k hk => ?_, hnum⟩
    rw [hq]
    exact get_unsealed (s := s1) hk

end Sys2Proof.Machine
end
